-- ==== Sys2Proof/Word.lean ====
section
/-! DEFINITION. The words, registers and named field values of the Flaore B4 (spec/00 R2, R8; spec/10 R218-R220). -/

namespace Sys2Proof

abbrev Byte := BitVec 8
/-- A g register (R8). -/
abbrev Word := BitVec 64
/-- A pointer register or address, 72 bits (R8, R218). -/
abbrev Ptr := BitVec 72
/-- The data of a vector register, 256 bytes (R8). -/
abbrev VData := BitVec 2048
/-- A mask register (R319). -/
abbrev Mask := BitVec 512

/-- Numbers of g, p, v, mask and accumulator registers (R218). -/
abbrev GReg := BitVec 5
abbrev PReg := BitVec 4
abbrev VReg := BitVec 4
abbrev KReg := BitVec 3
abbrev AccReg := BitVec 2

/-- TY (R219). -/
inductive Ty where
  | i8 | i16 | i32 | i64 | n8 | n16 | n32 | n64
  | f32 | f16 | bf16 | e4m3 | e5m2 | e3m2 | e2m3 | e2m1
  deriving DecidableEq, Repr

/-- SCOPE (R220). -/
inductive Scope where
  | cx | co | cl | fd | dv | nd | pd | sy
  deriving DecidableEq, Repr

/-- ORD, Q[3:2] of the memory and order classes (R220). -/
inductive Ord where
  | rlx | acq | rel | acqrel
  deriving DecidableEq, Repr

/-- The cache hint, Q[1:0] of the memory class (R220). -/
inductive Hint where
  | normal | strm | keep
  deriving DecidableEq, Repr

/-- Rounding modes of the float class (R177, R220). -/
inductive Rm where
  | rne | rtz | rdn | rup | rna | sr | dyn
  deriving DecidableEq, Repr

/-- Conditions (R220). -/
inductive Cond where
  | eq | ne | lt | le | gt | ge | un
  deriving DecidableEq, Repr

/-- Branch hints (R220). -/
inductive BrHint where
  | static | tk | nt
  deriving DecidableEq, Repr

/-- Scaling kinds (R169). -/
inductive Kind where
  | none | mx | ws
  deriving DecidableEq, Repr

/-- The float Q class: a rounding mode and the saturate bit (R220). -/
structure FQ where
  rm : Rm
  sat : Bool
  deriving DecidableEq, Repr

/-- Order, hint and scope of a memory instruction (R149, R220). -/
structure MQ where
  ord : Ord
  hint : Hint
  scope : Scope
  deriving DecidableEq, Repr

/-- The A and B operand of `mma`: base register, row stride, type and scaling kind (R337). -/
structure MmaOperand where
  ty : Ty
  kind : Kind
  base : PReg
  stride : BitVec 16
  deriving DecidableEq, Repr

/-- What makes an encoding no instruction (R223). -/
inductive BadEncoding where
  | length | instruction
  deriving DecidableEq, Repr

/-- An engine that parks on a fault (R353). -/
inductive Engine where
  | matrix | bulk | copy
  deriving DecidableEq, Repr

end Sys2Proof
end

