-- ==== Sys2Proof/Machine/Crc.lean ====
section
/-! DEFINITION. CRC-32C (R115), which fingerprints, images and flits use. -/

namespace Sys2Proof.Machine

/-- One bit of the reflected division by 0x1EDC_6F41. -/
def crcBit (c : BitVec 32) : BitVec 32 := if c.getLsbD 0 then (c >>> 1) ^^^ 0x82F6_3B78#32 else c >>> 1

/-- One byte into a running remainder. -/
def crcByte (c : BitVec 32) (b : Byte) : BitVec 32 :=
  crcBit (crcBit (crcBit (crcBit (crcBit (crcBit (crcBit (crcBit (c ^^^ b.setWidth 32))))))))

/-- Bytes into a running remainder, which starts at all ones. -/
def crcRun (c : BitVec 32) : List Byte → BitVec 32
  | [] => c
  | b :: t => crcRun (crcByte c b) t

/-- CRC-32C of some bytes: initial value and final XOR are all ones. -/
def crc32c (bs : List Byte) : BitVec 32 := ~~~(crcRun 0xFFFF_FFFF#32 bs)

end Sys2Proof.Machine
end

