-- ==== Sys2Proof/Config.lean ====
section
/-! DEFINITION. What the spec leaves open: free values and the choices of one implementation. No free value has a body, so
no proof can learn what it is (assumption 13). -/

namespace Sys2Proof.Config

/-- How many cycles beyond one a step takes, by the step counter (R121, R229, R383). -/
opaque extraCycles : Nat → Nat
/-- The value of data that a remote load or atomic lost at its link timeout leaves in a poisoned destination (R26). -/
opaque lostByte : Nat → Byte
/-- The value read through a mark from a fenced cell (R63). -/
opaque fencedByte : Nat → Byte
/-- How many instructions a context still retires after a halt has reached its core: its skid, at most 8 (R204). -/
opaque skid : Nat → Fin 9
/-- SPDM answers: digests, certificate bytes, signatures and measurement values (R54). -/
opaque spdmByte : Nat → Nat → Byte
/-- The bytes of hard state that the drain engine writes and whose layout the spec does not give (R113, R118). -/
opaque imageByte : Nat → Byte
/-- What a restored job holds when its image was drained elsewhere and has no place for it: the permissions of a page's leaf, the armed state
of its trap, and the identity of a GRID record (R118 to R120). -/
opaque restored : Nat → Nat → Nat
/-- Which free pages the micro-kernels choose (R120). -/
opaque freePage : Nat → Nat
/-- The package's estimate of power, in watts, when the window's input gives none (R14). -/
opaque power : Nat → Nat
/-- Bytes of the device's certificate chain (R54). -/
opaque certByte : Nat → Byte
/-- Words of the PCIe header whose values the spec does not give: vendor and device id, class code and revision, subsystem, link status (R16). -/
opaque pciWord : Nat → BitVec 32
/-- Vendor bytes of an SPDM VERSION, CAPABILITIES or ALGORITHMS answer that the spec leaves open (R54). -/
opaque spdmOpen : Nat → Byte
/-- Whether 0 × ∞ + a quiet NaN sets NV (R182; IEEE 754-2019 leaves it open). -/
opaque fmaZeroInf : Bool

end Sys2Proof.Config
end

