-- ==== Sys2Proof/Syntax.lean ====
section
/-! DEFINITION. The instructions and events of the Flaore B4: one constructor per row of spec/opcode_table.json.
The instructions of the opcode map (R222) come first, each with the operands its encoding holds; the events of the
device follow. -/

namespace Sys2Proof

/-- One constructor per row of spec/opcode_table.json. An instruction holds the operands its
encoding holds (spec/10 to spec/15). An event has no encoding; the core, slot, queue, field or packet in flight that it
concerns stands in the state, in State.input. -/
inductive Instr where
  /-- UDF (R224). Always raises ILLEGAL_INSTRUCTION. -/
  | udf (d : BitVec 6) (a : BitVec 6) (b : BitVec 6) (ty : BitVec 4) (q : BitVec 4) (imm : BitVec 24)
  /-- NOP (R354). Does nothing but take an issue slot. -/
  | nop
  /-- TRAP (R354). Raises TRAP_INSTRUCTION with the sign-extended immediate. -/
  | trap (imm : BitVec 24)
  /-- ERET_RESUME (R351). Ends a record with mode 0: the context resumes at its resume point, optionally for one step; a notice is dismissed. -/
  | eretResume (a : GReg) (step1 : Bool)
  /-- ERET_SKIP (R351). Ends a record with mode 1: a precise trap's instruction is skipped as completed with no effect. -/
  | eretSkip (a : GReg)
  /-- ERET_FORWARD (R352). Ends a record with mode 2: the context ends and the job's error handler starts with its weight. -/
  | eretForward (a : GReg)
  /-- ERET_END (R351). Ends a record with mode 3: the context ends, and its weight returns home. -/
  | eretEnd (a : GReg)
  /-- SYSR (R356). Reads a system register into a g register. -/
  | sysr (d : GReg) (num : BitVec 12)
  /-- SYSW (R356). Writes a system register, with its side effects, synchronising. -/
  | sysw (num : BitVec 12) (a : GReg)
  /-- SYSSET (R356). Reads a system register and ORs bits into it in one indivisible step. -/
  | sysset (d : GReg) (num : BitVec 12) (a : GReg)
  /-- SYSCLR (R356). Reads a system register and clears bits in it in one indivisible step. -/
  | sysclr (d : GReg) (num : BitVec 12) (a : GReg)
  /-- CHKERR (R195). Raises ASYNC_ERROR when any CIR bit 3:0 is set. -/
  | chkerr
  /-- IDLE (R355). Delivers the next pending record or notice to the supervisor, or waits for one, a wake event or a timeout. -/
  | idle (d : GReg) (a : GReg)
  /-- TLBINV (R357). Invalidates TLB entries of a range in the field or device and waits until engines no longer use those pages. -/
  | tlbinv (a : PReg) (b : GReg) (dev : Bool)
  /-- PAIR (R358). Pairs the west core's control context with its east partner and writes a status. -/
  | pair (d : GReg)
  /-- UNPAIR (R358). Waits for the hold buffer to empty and ends pairing. -/
  | unpair (d : GReg)
  /-- HALTX (R359). Halts one or all job slots of the core at their next boundary, withdrawing waits. -/
  | haltx (a : GReg)
  /-- RESUMEX (R207). Clears the halt of one or all slots and resumes the core's engines when the last one resumes. -/
  | resumex (a : GReg)
  /-- STEPX (R206). Issues one instruction of a halted context and returns stepped, blocked or trapped. -/
  | stepx (d : GReg) (a : GReg)
  /-- RDCYC (R354). Reads CYCLE into a g register. -/
  | rdcyc (d : GReg)
  /-- ADD (R253). Integer add modulo the width of TY. -/
  | add (ty : Ty) (d : GReg) (a : GReg) (b : GReg)
  /-- SUB (R253). Integer subtract modulo the width of TY. -/
  | sub (ty : Ty) (d : GReg) (a : GReg) (b : GReg)
  /-- MUL (R253). Integer multiply, low half. -/
  | mul (ty : Ty) (d : GReg) (a : GReg) (b : GReg)
  /-- MULH (R253). Upper half of the double-width product. -/
  | mulh (ty : Ty) (d : GReg) (a : GReg) (b : GReg)
  /-- DIV (R253). Integer divide toward zero, with the defined zero and overflow cases. -/
  | div (ty : Ty) (d : GReg) (a : GReg) (b : GReg)
  /-- REM (R253). Integer remainder, with the defined zero and overflow cases. -/
  | rem (ty : Ty) (d : GReg) (a : GReg) (b : GReg)
  /-- AND (R253). Bitwise AND. -/
  | and (ty : Ty) (d : GReg) (a : GReg) (b : GReg)
  /-- OR (R253). Bitwise OR. -/
  | or (ty : Ty) (d : GReg) (a : GReg) (b : GReg)
  /-- XOR (R253). Bitwise XOR. -/
  | xor (ty : Ty) (d : GReg) (a : GReg) (b : GReg)
  /-- ANDN (R253). a AND NOT b. -/
  | andn (ty : Ty) (d : GReg) (a : GReg) (b : GReg)
  /-- SHL (R253). Shift left by the masked amount. -/
  | shl (ty : Ty) (d : GReg) (a : GReg) (b : GReg)
  /-- SHR (R253). Logical shift right by the masked amount. -/
  | shr (ty : Ty) (d : GReg) (a : GReg) (b : GReg)
  /-- SAR (R253). Arithmetic shift right by the masked amount. -/
  | sar (ty : Ty) (d : GReg) (a : GReg) (b : GReg)
  /-- ROL (R253). Rotate left within the width of TY. -/
  | rol (ty : Ty) (d : GReg) (a : GReg) (b : GReg)
  /-- MIN (R253). The smaller of two integers. -/
  | min (ty : Ty) (d : GReg) (a : GReg) (b : GReg)
  /-- MAX (R253). The larger of two integers. -/
  | max (ty : Ty) (d : GReg) (a : GReg) (b : GReg)
  /-- CLZ (R254). Counts leading zero bits. -/
  | clz (ty : Ty) (d : GReg) (a : GReg)
  /-- CTZ (R254). Counts trailing zero bits. -/
  | ctz (ty : Ty) (d : GReg) (a : GReg)
  /-- POPC (R254). Counts one bits. -/
  | popc (ty : Ty) (d : GReg) (a : GReg)
  /-- EXT (R254). Extracts a bit field, sign- or zero-extended. -/
  | ext (ty : Ty) (d : GReg) (a : GReg) (b : GReg) (c : GReg)
  /-- SEL (R254). Selects A or B by whether C is non-zero. -/
  | sel (ty : Ty) (d : GReg) (a : GReg) (b : GReg) (c : GReg)
  /-- SLT (R253). 1 when a < b, else 0. -/
  | slt (ty : Ty) (d : GReg) (a : GReg) (b : GReg)
  /-- SEQ (R253). 1 when a = b, else 0. -/
  | seq (ty : Ty) (d : GReg) (a : GReg) (b : GReg)
  /-- SNE (R253). 1 when a ≠ b, else 0. -/
  | sne (ty : Ty) (d : GReg) (a : GReg) (b : GReg)
  /-- MOV (R254). Copies A, truncated and extended by TY. -/
  | mov (ty : Ty) (d : GReg) (a : GReg)
  /-- ALUI_ADD (R255). Adds the sign-extended 24-bit immediate. -/
  | aluiAdd (ty : Ty) (d : GReg) (a : GReg) (imm : BitVec 24)
  /-- ALUI_AND (R255). ANDs with the immediate. -/
  | aluiAnd (ty : Ty) (d : GReg) (a : GReg) (imm : BitVec 24)
  /-- ALUI_OR (R255). ORs with the immediate. -/
  | aluiOr (ty : Ty) (d : GReg) (a : GReg) (imm : BitVec 24)
  /-- ALUI_XOR (R255). XORs with the immediate. -/
  | aluiXor (ty : Ty) (d : GReg) (a : GReg) (imm : BitVec 24)
  /-- ALUI_SHL (R255). Shifts left by an immediate amount. -/
  | aluiShl (ty : Ty) (d : GReg) (a : GReg) (imm : BitVec 24)
  /-- ALUI_SHR (R255). Shifts right logically by an immediate amount. -/
  | aluiShr (ty : Ty) (d : GReg) (a : GReg) (imm : BitVec 24)
  /-- ALUI_SAR (R255). Shifts right arithmetically by an immediate amount. -/
  | aluiSar (ty : Ty) (d : GReg) (a : GReg) (imm : BitVec 24)
  /-- ALUI_ROL (R255). Rotates left by an immediate amount. -/
  | aluiRol (ty : Ty) (d : GReg) (a : GReg) (imm : BitVec 24)
  /-- ALUI_MIN (R255). The smaller of A and the immediate. -/
  | aluiMin (ty : Ty) (d : GReg) (a : GReg) (imm : BitVec 24)
  /-- ALUI_MAX (R255). The larger of A and the immediate. -/
  | aluiMax (ty : Ty) (d : GReg) (a : GReg) (imm : BitVec 24)
  /-- ALUI_SLT (R255). 1 when A is below the immediate. -/
  | aluiSlt (ty : Ty) (d : GReg) (a : GReg) (imm : BitVec 24)
  /-- ALUI_SEQ (R255). 1 when A equals the immediate. -/
  | aluiSeq (ty : Ty) (d : GReg) (a : GReg) (imm : BitVec 24)
  /-- ALUI_SNE (R255). 1 when A differs from the immediate. -/
  | aluiSne (ty : Ty) (d : GReg) (a : GReg) (imm : BitVec 24)
  /-- LI (R256). Loads the 24-bit immediate. -/
  | li (ty : Ty) (d : GReg) (imm : BitVec 24)
  /-- ADDL (R257). Adds a 32-bit immediate. -/
  | addl (ty : Ty) (d : GReg) (a : GReg) (imm : BitVec 32)
  /-- LIL (R257). Loads a sign-extended 32-bit immediate. -/
  | lil (ty : Ty) (d : GReg) (imm : BitVec 32)
  /-- LIH (R257). Replaces the upper 32 bits with the immediate. -/
  | lih (d : GReg) (a : GReg) (imm : BitVec 32)
  /-- ANDL (R257). ANDs with a 32-bit immediate. -/
  | andl (ty : Ty) (d : GReg) (a : GReg) (imm : BitVec 32)
  /-- ORL (R257). ORs with a 32-bit immediate. -/
  | orl (ty : Ty) (d : GReg) (a : GReg) (imm : BitVec 32)
  /-- XORL (R257). XORs with a 32-bit immediate. -/
  | xorl (ty : Ty) (d : GReg) (a : GReg) (imm : BitVec 32)
  /-- PADD (R258). Adds a g register to a pointer modulo 2^72. -/
  | padd (d : PReg) (a : PReg) (b : GReg)
  /-- PADDI (R258). Adds a 24-bit immediate to a pointer. -/
  | paddi (d : PReg) (a : PReg) (imm : BitVec 24)
  /-- PADDL (R258). Adds a 32-bit immediate to a pointer. -/
  | paddl (d : PReg) (a : PReg) (imm : BitVec 32)
  /-- PSUB (R258). Difference of two pointers, low 64 bits. -/
  | psub (d : GReg) (a : PReg) (b : PReg)
  /-- PLEA (R258). Writes an effective address to a pointer. -/
  | plea (d : PReg) (b : PReg) (off : BitVec 21)
  /-- PMOV (R258). Copies a pointer, or builds one from a g register and the PC's region. -/
  | pmov (d : PReg) (fromG : Bool) (a : GReg)
  /-- PLO (R258). Low 64 bits of a pointer. -/
  | plo (d : GReg) (a : PReg)
  /-- PHI (R258). Bits 71:64 of a pointer. -/
  | phi (d : GReg) (a : PReg)
  /-- PLOC (R259). Builds a local-space pointer. -/
  | ploc (d : PReg) (hi : Byte) (lo : BitVec 32)
  /-- PCMP (R260). Compares two pointers as unsigned 72-bit values. -/
  | pcmp (cond : Cond) (d : GReg) (a : PReg) (b : PReg)
  /-- FADD (R262). Scalar float add, rounded once. -/
  | fadd (ty : Ty) (q : FQ) (d : GReg) (a : GReg) (b : GReg)
  /-- FSUB (R262). Scalar float subtract. -/
  | fsub (ty : Ty) (q : FQ) (d : GReg) (a : GReg) (b : GReg)
  /-- FMUL (R262). Scalar float multiply. -/
  | fmul (ty : Ty) (q : FQ) (d : GReg) (a : GReg) (b : GReg)
  /-- FMA (R262). a × b + c, rounded once. -/
  | fma (ty : Ty) (q : FQ) (d : GReg) (a : GReg) (b : GReg) (c : GReg)
  /-- FNMA (R262). c − a × b, rounded once. -/
  | fnma (ty : Ty) (q : FQ) (d : GReg) (a : GReg) (b : GReg) (c : GReg)
  /-- FDIV (R262). Scalar float divide. -/
  | fdiv (ty : Ty) (q : FQ) (d : GReg) (a : GReg) (b : GReg)
  /-- FSQRT (R262). Scalar float square root. -/
  | fsqrt (ty : Ty) (q : FQ) (d : GReg) (a : GReg)
  /-- FMIN (R263). Float minimum, NaN giving canonical NaN. -/
  | fmin (ty : Ty) (d : GReg) (a : GReg) (b : GReg)
  /-- FMAX (R263). Float maximum. -/
  | fmax (ty : Ty) (d : GReg) (a : GReg) (b : GReg)
  /-- FABS (R263). Clears the sign. -/
  | fabs (ty : Ty) (d : GReg) (a : GReg)
  /-- FNEG (R263). Inverts the sign. -/
  | fneg (ty : Ty) (d : GReg) (a : GReg)
  /-- FCMP (R264). Float comparison by condition, writing 0 or 1. -/
  | fcmp (ty : Ty) (cond : Cond) (d : GReg) (a : GReg) (b : GReg)
  /-- FCVT (R265). Converts between scalar float and integer types. -/
  | fcvt (dty : Ty) (sty : Ty) (q : FQ) (d : GReg) (a : GReg)
  /-- FCLASS (R266). Writes a one-hot class mask of the encoding. -/
  | fclass (ty : Ty) (d : GReg) (a : GReg)
  /-- FMOVI (R267). Loads a binary32 literal converted to TY. -/
  | fmovi (ty : Ty) (d : GReg) (lit : BitVec 32)
  /-- FSGN (R263). Magnitude of a with the sign of b. -/
  | fsgn (ty : Ty) (d : GReg) (a : GReg) (b : GReg)
  /-- BEQ (R268). Branches when a = b. -/
  | beq (ty : Ty) (h : BrHint) (a : GReg) (b : GReg) (imm : BitVec 24)
  /-- BNE (R268). Branches when a ≠ b. -/
  | bne (ty : Ty) (h : BrHint) (a : GReg) (b : GReg) (imm : BitVec 24)
  /-- BLT (R268). Branches when a < b. -/
  | blt (ty : Ty) (h : BrHint) (a : GReg) (b : GReg) (imm : BitVec 24)
  /-- BGE (R268). Branches when a ≥ b. -/
  | bge (ty : Ty) (h : BrHint) (a : GReg) (b : GReg) (imm : BitVec 24)
  /-- BZ (R268). Branches when a = 0. -/
  | bz (ty : Ty) (h : BrHint) (a : GReg) (imm : BitVec 24)
  /-- BNZ (R268). Branches when a ≠ 0. -/
  | bnz (ty : Ty) (h : BrHint) (a : GReg) (imm : BitVec 24)
  /-- BBS (R268). Branches when bit n is set. -/
  | bbs (h : BrHint) (a : GReg) (n : BitVec 6) (imm : BitVec 24)
  /-- BBC (R268). Branches when bit n is clear. -/
  | bbc (h : BrHint) (a : GReg) (n : BitVec 6) (imm : BitVec 24)
  /-- J (R269). PC-relative jump. -/
  | j (imm : BitVec 24)
  /-- JL (R269). Long PC-relative jump. -/
  | jl (imm : BitVec 32)
  /-- JR (R269). Jumps through a pointer register. -/
  | jr (a : PReg)
  /-- CALL (R269). PC-relative call, return address in p15. -/
  | call (imm : BitVec 24)
  /-- CALLR (R269). Call through a pointer register. -/
  | callr (a : PReg)
  /-- RET (R269). Jumps to p15. -/
  | ret
  /-- LOOP (R270). Opens a hardware loop level with a count from a register. -/
  | loop (a : GReg) (imm : BitVec 24)
  /-- LOOPI (R270). Opens a hardware loop level with an immediate count. -/
  | loopi (count : BitVec 32) (imm : BitVec 24)
  /-- LEXIT (R272). Deactivates the innermost active loop level. -/
  | lexit
  /-- LD (R274). Loads 1 to 8 bytes into a g register. -/
  | ld (ty : Ty) (m : MQ) (d : GReg) (b : PReg) (off : BitVec 21)
  /-- LDP (R274). Loads a 16-byte pointer word. -/
  | ldp (m : MQ) (d : PReg) (b : PReg) (off : BitVec 21)
  /-- LDQ8 (R275). Loads 64 bytes into eight g registers as one unit. -/
  | ldq8 (m : MQ) (d : BitVec 2) (b : PReg) (off : BitVec 21)
  /-- LDW (R277). Waits for a scratchpad word's full bit, then reads it and clears the bit indivisibly. -/
  | ldw (m : MQ) (d : GReg) (b : PReg) (off : BitVec 21)
  /-- LDT (R278). Probes translation and writes the code of the trap a load would raise. -/
  | ldt (ty : Ty) (d : GReg) (b : PReg) (off : BitVec 21)
  /-- ST (R274). Stores 1 to 8 bytes. -/
  | st (ty : Ty) (m : MQ) (b : PReg) (off : BitVec 21) (a : GReg)
  /-- STP (R274). Stores a pointer word. -/
  | stp (m : MQ) (b : PReg) (off : BitVec 21) (a : PReg)
  /-- STQ8 (R275). Stores eight g registers as one 64-byte unit. -/
  | stq8 (m : MQ) (b : PReg) (off : BitVec 21) (a : BitVec 2)
  /-- STF (R277). Writes a scratchpad word and sets its full bit, after earlier local stores drain. -/
  | stf (m : MQ) (b : PReg) (off : BitVec 21) (a : GReg)
  /-- AADD (R279). Atomic add at the word's home, returning the old value. -/
  | aadd (ty : Ty) (o : Ord) (sc : Scope) (d : GReg) (b : PReg) (off : BitVec 21) (a : GReg)
  /-- AAND (R279). Atomic AND. -/
  | aand (ty : Ty) (o : Ord) (sc : Scope) (d : GReg) (b : PReg) (off : BitVec 21) (a : GReg)
  /-- AOR (R279). Atomic OR. -/
  | aor (ty : Ty) (o : Ord) (sc : Scope) (d : GReg) (b : PReg) (off : BitVec 21) (a : GReg)
  /-- AXOR (R279). Atomic XOR. -/
  | axor (ty : Ty) (o : Ord) (sc : Scope) (d : GReg) (b : PReg) (off : BitVec 21) (a : GReg)
  /-- AMIN (R279). Atomic minimum. -/
  | amin (ty : Ty) (o : Ord) (sc : Scope) (d : GReg) (b : PReg) (off : BitVec 21) (a : GReg)
  /-- AMAX (R279). Atomic maximum. -/
  | amax (ty : Ty) (o : Ord) (sc : Scope) (d : GReg) (b : PReg) (off : BitVec 21) (a : GReg)
  /-- ASWP (R279). Atomic swap. -/
  | aswp (ty : Ty) (o : Ord) (sc : Scope) (d : GReg) (b : PReg) (off : BitVec 21) (a : GReg)
  /-- ACAS (R280). Atomic compare-and-swap against Reg(D). -/
  | acas (ty : Ty) (o : Ord) (sc : Scope) (d : GReg) (b : PReg) (off : BitVec 21) (a : GReg)
  /-- AACC (R281). Atomically adds an ACC128 word into memory, combining states. -/
  | aacc (o : Ord) (sc : Scope) (b : PReg) (off : BitVec 21) (a : BitVec 4)
  /-- FENCE (R150). Release half then acquire half at a scope, after earlier loads return. -/
  | fence (sc : Scope)
  /-- BIND (R284). Binds a region to a synchronisation object in one write at its home. -/
  | bind (sc : Scope) (b : PReg) (off : BitVec 21) (a : PReg) (d : GReg)
  /-- UNBIND (R284). Unbinds a synchronisation object. -/
  | unbind (sc : Scope) (b : PReg) (off : BitVec 21)
  /-- ACQ (R152). Acquire move: reads the object and discards covered lines at the scope. -/
  | acq (sc : Scope) (b : PReg) (off : BitVec 21)
  /-- REL (R152). Release half over the region, then the Release move raising SEQ. -/
  | rel (sc : Scope) (b : PReg) (off : BitVec 21)
  /-- SEND (R288). Sends a message carrying payload and weight to a new handler on a core. -/
  | send (d : GReg) (a : GReg) (obj : Option (PReg × Scope)) (entry : BitVec 22)
  /-- SENDC (R290). Sends a code message whose code runs in the receiving helper. -/
  | sendc (d : GReg) (a : GReg) (obj : Option (PReg × Scope)) (c : PReg) (len : BitVec 4)
  /-- REPLY (R292). Sends a message to a live context named by its token. -/
  | reply (d : GReg) (a : GReg) (obj : Option (PReg × Scope)) (code : BitVec 32)
  /-- START (R294). Starts a local helper with weight, blocking or, as start.t, returning 0 when no slot is free. -/
  | start (d : GReg) (a : GReg) (b : GReg) (c : GReg)
  /-- HALT (R295). Ends a helper: releases at fd, strays held replies and returns its weight home. -/
  | halt
  /-- WGET (R293). Waits for and takes the oldest held reply, with its weight. -/
  | wget
  /-- QARM (R296). Sends an arm notice to the job's home. -/
  | qarm
  /-- TEND (R297). Ends the tile task: releases successors or ends a join piece, closes tiles and pipes, lapses leases, frees the context. -/
  | tend
  /-- TNEXT (R298). Draws one iteration of a range task, or parks the interval under pre-emption. -/
  | tnext (d : GReg)
  /-- TSPAWN (R299). Releases a spawned copy of a record into transit with weight. -/
  | tspawn (a : PReg) (b : GReg)
  /-- BREAD (R301). Queues a 2-D bulk read delivered as bursts to handlers, then a completion handler with the weight. -/
  | bread (d : GReg) (a : PReg) (b : GReg) (c : GReg) (bentry : BitVec 22) (centry : BitVec 22) (stride : BitVec 16)
  /-- COPY (R304). Queues a 2-D sector copy counted at a barrier object, optionally published. -/
  | copy (pub : Bool) (a : PReg) (b : PReg) (c : PReg) (d : GReg) (rowb : BitVec 11) (rows : BitVec 16) (sstr : BitVec 16)
  /-- COPYM (R306). Queues a conversion between linear and Morton layout. -/
  | copym (a : PReg) (b : PReg) (c : PReg) (d : GReg) (lx : BitVec 4) (ly : BitVec 4) (esz : BitVec 2) (dir : Bool)
  /-- BINIT (R308). Initialises a barrier object. -/
  | binit (b : PReg) (off : BitVec 21) (a : GReg)
  /-- BEXP (R308). Raises a barrier's expected units by bytes/32 and settles. -/
  | bexp (b : PReg) (off : BitVec 21) (a : GReg)
  /-- BARR (R308). Releases at dv and arrives at a barrier, returning its phase. -/
  | barr (d : GReg) (b : PReg) (off : BitVec 21)
  /-- BWAIT (R308). Waits for a barrier's phase to change, then acquires at dv, or traps on error. -/
  | bwait (b : PReg) (off : BitVec 21) (a : GReg)
  /-- BTEST (R308). Tests a barrier's completion without waiting. -/
  | btest (d : GReg) (b : PReg) (off : BitVec 21) (a : GReg)
  /-- QINIT (R309). Sets up the consumer end of a pipe and grants credits. -/
  | qinit (a : GReg) (b : GReg)
  /-- QPUSH (R309). Waits for credit and pushes an entry into the consumer's ring. -/
  | qpush (a : GReg) (b : GReg)
  /-- QPOP (R309). Waits for an entry, pops it and returns a credit. -/
  | qpop (d : GReg) (a : GReg)
  /-- QAVAIL (R309). Reads FREE or COUNT of the core's pipe end. -/
  | qavail (d : GReg) (a : GReg)
  /-- ROT (R311). Rotates a tile around the cluster ring in lockstep with the gang. -/
  | rot (a : PReg) (b : PReg) (n : BitVec 32)
  /-- AOPEN (R312). Opens an accumulator tile for network arrivals at the current anchor. -/
  | aopen (d : AccReg) (b : PReg) (rows : BitVec 16)
  /-- ASEND (R313). Sends tile rows over the accumulate network to a target tile. -/
  | asend (a : AccReg) (b : PReg) (c : GReg) (r0 : BitVec 6) (r1 : BitVec 6)
  /-- ACLOSE (R315). Closes an accumulator tile. -/
  | aclose (d : AccReg)
  /-- VADD (R322). Lane-wise add. -/
  | vadd (ty : Ty) (q : FQ) (d : VReg) (a : VReg) (b : VReg) (k : KReg)
  /-- VSUB (R322). Lane-wise subtract. -/
  | vsub (ty : Ty) (q : FQ) (d : VReg) (a : VReg) (b : VReg) (k : KReg)
  /-- VMUL (R322). Lane-wise multiply. -/
  | vmul (ty : Ty) (q : FQ) (d : VReg) (a : VReg) (b : VReg) (k : KReg)
  /-- VFMA (R322). Lane-wise fused multiply-add. -/
  | vfma (ty : Ty) (q : FQ) (d : VReg) (a : VReg) (b : VReg) (c : VReg) (k : KReg)
  /-- VFNMA (R322). Lane-wise c − a × b. -/
  | vfnma (ty : Ty) (q : FQ) (d : VReg) (a : VReg) (b : VReg) (c : VReg) (k : KReg)
  /-- VMIN (R322). Lane-wise minimum. -/
  | vmin (ty : Ty) (d : VReg) (a : VReg) (b : VReg) (k : KReg)
  /-- VMAX (R322). Lane-wise maximum. -/
  | vmax (ty : Ty) (d : VReg) (a : VReg) (b : VReg) (k : KReg)
  /-- VABS (R322). Lane-wise absolute value. -/
  | vabs (ty : Ty) (d : VReg) (a : VReg) (k : KReg)
  /-- VNEG (R322). Lane-wise negation. -/
  | vneg (ty : Ty) (d : VReg) (a : VReg) (k : KReg)
  /-- VAND (R322). Lane-wise AND. -/
  | vand (ty : Ty) (d : VReg) (a : VReg) (b : VReg) (k : KReg)
  /-- VOR (R322). Lane-wise OR. -/
  | vor (ty : Ty) (d : VReg) (a : VReg) (b : VReg) (k : KReg)
  /-- VXOR (R322). Lane-wise XOR. -/
  | vxor (ty : Ty) (d : VReg) (a : VReg) (b : VReg) (k : KReg)
  /-- VSHL (R322). Lane-wise shift left. -/
  | vshl (ty : Ty) (d : VReg) (a : VReg) (b : VReg) (k : KReg)
  /-- VSHR (R322). Lane-wise logical shift right. -/
  | vshr (ty : Ty) (d : VReg) (a : VReg) (b : VReg) (k : KReg)
  /-- VSAR (R322). Lane-wise arithmetic shift right. -/
  | vsar (ty : Ty) (d : VReg) (a : VReg) (b : VReg) (k : KReg)
  /-- VMOV (R323). Raw move of data, tag and sidecar. -/
  | vmov (d : VReg) (a : VReg) (k : KReg)
  /-- VBCAST (R322). Broadcasts a g register to every lane. -/
  | vbcast (ty : Ty) (d : VReg) (a : GReg) (k : KReg)
  /-- VSEL (R322). Selects each lane from A or B by the mask. -/
  | vsel (ty : Ty) (d : VReg) (a : VReg) (b : VReg) (k : KReg)
  /-- VIDX (R322). Writes base plus lane index into each lane. -/
  | vidx (ty : Ty) (d : VReg) (a : GReg) (k : KReg)
  /-- VDIV (R322). Lane-wise divide. -/
  | vdiv (ty : Ty) (q : FQ) (d : VReg) (a : VReg) (b : VReg) (k : KReg)
  /-- VCLAMP (R322). Lane-wise clamp between B and C. -/
  | vclamp (ty : Ty) (d : VReg) (a : VReg) (b : VReg) (c : VReg) (k : KReg)
  /-- VCMP (R324). Lane-wise compare into a mask. -/
  | vcmp (ty : Ty) (cond : Cond) (d : KReg) (a : VReg) (b : VReg) (k : KReg)
  /-- KAND (R324). Mask AND. -/
  | kand (d : KReg) (a : KReg) (b : KReg)
  /-- KOR (R324). Mask OR. -/
  | kor (d : KReg) (a : KReg) (b : KReg)
  /-- KXOR (R324). Mask XOR. -/
  | kxor (d : KReg) (a : KReg) (b : KReg)
  /-- KNOT (R324). Mask NOT. -/
  | knot (d : KReg) (a : KReg)
  /-- KPOP (R324). Counts one bits of a mask. -/
  | kpop (d : GReg) (a : KReg)
  /-- KSET (R324). Writes 64 bits of a mask. -/
  | kset (d : KReg) (a : GReg) (b : GReg)
  /-- KGET (R324). Reads 64 bits of a mask. -/
  | kget (d : GReg) (a : KReg) (b : GReg)
  /-- VEXP2 (R325). Lane-wise 2^a. -/
  | vexp2 (ty : Ty) (q : FQ) (d : VReg) (a : VReg) (k : KReg)
  /-- VLOG2 (R325). Lane-wise log2. -/
  | vlog2 (ty : Ty) (q : FQ) (d : VReg) (a : VReg) (k : KReg)
  /-- VRCP (R325). Lane-wise reciprocal. -/
  | vrcp (ty : Ty) (q : FQ) (d : VReg) (a : VReg) (k : KReg)
  /-- VRSQRT (R325). Lane-wise reciprocal square root. -/
  | vrsqrt (ty : Ty) (q : FQ) (d : VReg) (a : VReg) (k : KReg)
  /-- VSQRT (R325). Lane-wise square root. -/
  | vsqrt (ty : Ty) (q : FQ) (d : VReg) (a : VReg) (k : KReg)
  /-- VSINPI (R325). Lane-wise sin(πa). -/
  | vsinpi (ty : Ty) (q : FQ) (d : VReg) (a : VReg) (k : KReg)
  /-- VCOSPI (R325). Lane-wise cos(πa). -/
  | vcospi (ty : Ty) (q : FQ) (d : VReg) (a : VReg) (k : KReg)
  /-- VTANH (R325). Lane-wise tanh. -/
  | vtanh (ty : Ty) (q : FQ) (d : VReg) (a : VReg) (k : KReg)
  /-- VSIGM (R325). Lane-wise sigmoid. -/
  | vsigm (ty : Ty) (q : FQ) (d : VReg) (a : VReg) (k : KReg)
  /-- VERF (R325). Lane-wise erf. -/
  | verf (ty : Ty) (q : FQ) (d : VReg) (a : VReg) (k : KReg)
  /-- VRSUM (R326). Tree sum of selected lanes into a g register. -/
  | vrsum (ty : Ty) (q : FQ) (d : GReg) (a : VReg) (k : KReg)
  /-- VRMAX (R326). Tree maximum of selected lanes. -/
  | vrmax (ty : Ty) (d : GReg) (a : VReg) (k : KReg)
  /-- VRMIN (R326). Tree minimum of selected lanes. -/
  | vrmin (ty : Ty) (d : GReg) (a : VReg) (k : KReg)
  /-- VPERM (R326). Permutes lanes by an index vector. -/
  | vperm (ty : Ty) (d : VReg) (a : VReg) (b : VReg) (k : KReg)
  /-- VROTL (R326). Rotates lanes. -/
  | vrotl (ty : Ty) (d : VReg) (a : VReg) (b : GReg) (k : KReg)
  /-- VZIP (R326). Interleaves halves of two registers. -/
  | vzip (ty : Ty) (h : Bool) (d : VReg) (a : VReg) (b : VReg) (k : KReg)
  /-- VUNZIP (R326). De-interleaves two registers. -/
  | vunzip (ty : Ty) (h : Bool) (d : VReg) (a : VReg) (b : VReg) (k : KReg)
  /-- VEXT (R326). Extracts one lane into a g register. -/
  | vext (ty : Ty) (d : GReg) (a : VReg) (b : GReg)
  /-- VINS (R326). Inserts a g register into one lane. -/
  | vins (ty : Ty) (d : VReg) (a : GReg) (b : GReg)
  /-- VCVT (R328). Converts one part of a register between unscaled types. -/
  | vcvt (dty : Ty) (sty : Ty) (q : FQ) (d : VReg) (a : VReg) (part : BitVec 3) (k : KReg)
  /-- VQNT (R329). Quantises blocks into a scaled format with new scales. -/
  | vqnt (ty : Ty) (kind : Kind) (q : FQ) (d : VReg) (a : VReg) (part : BitVec 3)
  /-- VDQNT (R330). Dequantises a scaled register into a float type. -/
  | vdqnt (ty : Ty) (q : FQ) (d : VReg) (a : VReg) (part : BitVec 3) (k : KReg)
  /-- VRETAG (R331). Copies a register and gives it a new tag. -/
  | vretag (d : VReg) (a : VReg) (tag : BitVec 6)
  /-- VTAG (R331). Reads a register's tag. -/
  | vtag (d : GReg) (a : VReg)
  /-- VLD (R332). Loads a vector register. -/
  | vld (ty : Ty) (kind : Kind) (m : MQ) (d : VReg) (b : PReg) (off : BitVec 21) (k : KReg)
  /-- VST (R332). Stores a vector register. -/
  | vst (ty : Ty) (kind : Kind) (m : MQ) (b : PReg) (off : BitVec 21) (a : VReg) (k : KReg)
  /-- VLDS (R332). Strided load of eight 32-byte segments. -/
  | vlds (ty : Ty) (m : MQ) (d : VReg) (b : PReg) (off : BitVec 21) (a : GReg)
  /-- VSTS (R332). Strided store of eight segments. -/
  | vsts (ty : Ty) (m : MQ) (b : PReg) (off : BitVec 21) (a : VReg) (d : GReg)
  /-- VGATH (R332). Gathers 4-byte lanes by index. -/
  | vgath (ty : Ty) (m : MQ) (d : VReg) (b : PReg) (off : BitVec 21) (a : VReg)
  /-- VSCAT (R332). Scatters 4-byte lanes by index, higher lane winning. -/
  | vscat (ty : Ty) (m : MQ) (b : PReg) (off : BitVec 21) (a : VReg) (d : VReg)
  /-- VSTP (R333). Stores 256 bytes to a scratchpad and sets their full bits. -/
  | vstp (m : MQ) (b : PReg) (off : BitVec 21) (a : VReg)
  /-- VLDW (R333). Waits for 32 full bits, then reads and clears them. -/
  | vldw (ty : Ty) (kind : Kind) (m : MQ) (d : VReg) (b : PReg) (off : BitVec 21)
  /-- TLDA (R334). Loads an all-or-nothing tile under its version word. -/
  | tlda (sc : Scope) (h : Hint) (d : VReg) (b : PReg) (off : BitVec 32) (n : BitVec 4)
  /-- TSTA (R334). Stores an all-or-nothing tile under its version word. -/
  | tsta (sc : Scope) (h : Hint) (b : PReg) (off : BitVec 32) (a : VReg) (n : BitVec 4)
  /-- VLDSC (R332). Loads a register's scale sidecar. -/
  | vldsc (kind : Kind) (m : MQ) (d : VReg) (b : PReg) (off : BitVec 21)
  /-- VSTSC (R332). Stores a register's scale sidecar. -/
  | vstsc (kind : Kind) (m : MQ) (b : PReg) (off : BitVec 21) (a : VReg)
  /-- MBEGIN (R336). Ends any chain, sets MANCHOR and opens a chain. -/
  | mbegin (a : GReg)
  /-- MEND (R336). Closes the matrix chain. -/
  | mend
  /-- MMA (R337). Queues a block-scaled product of 32 A rows by 32 B columns added into a tile. -/
  | mma (d : AccReg) (x : MmaOperand) (y : MmaOperand) (c : Option PReg) (bk : Bool)
  /-- MZERO (R339). Queues the zeroing of a tile. -/
  | mzero (d : AccReg)
  /-- MST (R341). Queues the rounded store of a tile to memory. -/
  | mst (ty : Ty) (q : FQ) (b : PReg) (off : BitVec 32) (a : AccReg) (stride : BitVec 16)
  /-- MLD (R340). Queues a load of a tile from ACC128 memory words. -/
  | mld (d : AccReg) (b : PReg) (off : BitVec 32) (stride : BitVec 16)
  /-- MLDT (R343). Loads a 32×32 tile transposed from the swizzle window into vector registers. -/
  | mldt (ty : Ty) (d : VReg) (b : PReg) (off : BitVec 32)
  /-- MANCH (R336). Writes the anchor proposal for given formats, scales and count. -/
  | manch (d : GReg) (a : GReg) (b : GReg)
  /-- MWAIT (R344). Waits for earlier matrix commands to retire, then acquires at dv. -/
  | mwait
  /-- ILLEGAL_INSTRUCTION (R223). A context reaches an encoding that names no instruction (an unassigned MAJ or MIN, or LEN 11 other than the fill word) and raises ILLEGAL_INSTRUCTION or ILLEGAL_LENGTH precisely. -/
  | illegalInstruction (bad : BadEncoding) (w : Word)
  /-- DEVICE_RESET (R53). Device reset starts the boot ROM on each corner, which verifies the image, elects the boot corner and enters boot mode. -/
  | deviceReset
  /-- KVEC_WRITE (R361). The supervisor's first write of KVEC sets the micro-kernel vector and ends boot mode for that core. Input: word. -/
  | kvecWrite
  /-- BOOT_DISC (R363). An out-slot header of KIND 1 makes the router take its coordinates from the discovery word and start the flood. Input: core. -/
  | bootDisc
  /-- BOOT_MAP (R363). An out-slot header of KIND 2 multicasts one map packet; SEQ 0 sets BOOTSTAT.STAGE to loading. Input: core. -/
  | bootMap
  /-- BOOT_IMG (R363). An out-slot header of KIND 3 multicasts one image packet. Input: core. -/
  | bootImg
  /-- BOOT_STAGE (R363). An out-slot header of KIND 4 writes the payload into BOOTSTAT bits 31:0. Input: core. -/
  | bootStage
  /-- BOOT_GO (R363). An out-slot header of KIND 5 multicasts the release flit. Input: core. -/
  | bootGo
  /-- BOOT_DISCOVERY_FLIT (R364). A discovery flit reaches a router, which takes its coordinates, forwards the flit and delivers DISC, or drops the flit when it already has coordinates. Input: index. -/
  | bootDiscoveryFlit
  /-- BOOT_MULTICAST_FLIT (R365). A map, image or GO flit reaches a router, which forwards it along the tree, delivers it, and writes DONE after the last packet or GO after DONE. Input: index. -/
  | bootMulticastFlit
  /-- BOOT_REPORT (R366). The core sets STATUS, and its router latches COREID.LID and sends the report word to the boot corner. Input: core. -/
  | bootReport
  /-- BOOT_REPORT_ARRIVAL (R366). A report reaches the boot corner's router, which writes it with its full bit at REPORT + 8·LID. Input: index. -/
  | bootReportArrival
  /-- SPDM_GET_VERSION (R54). The DOE mailbox answers the SPDM GET_VERSION request. -/
  | spdmGetVersion
  /-- SPDM_GET_CAPABILITIES (R54). The DOE mailbox answers the SPDM GET_CAPABILITIES request. -/
  | spdmGetCapabilities
  /-- SPDM_NEGOTIATE_ALGORITHMS (R54). The DOE mailbox answers the SPDM NEGOTIATE_ALGORITHMS request. Input: addr, index. -/
  | spdmNegotiateAlgorithms
  /-- SPDM_GET_DIGESTS (R54). The DOE mailbox answers the SPDM GET_DIGESTS request. -/
  | spdmGetDigests
  /-- SPDM_GET_CERTIFICATE (R54). The DOE mailbox answers the SPDM GET_CERTIFICATE request. Input: addr, index. -/
  | spdmGetCertificate
  /-- SPDM_CHALLENGE (R54). The DOE mailbox answers the SPDM CHALLENGE request, signed with the device identity key. Input: addr. -/
  | spdmChallenge
  /-- SPDM_GET_MEASUREMENTS (R54). The DOE mailbox returns the boot measurements, indices 1 to 4. Input: index. -/
  | spdmGetMeasurements
  /-- WAKE_WRITE (R45). A host write to WAKE[QID] raises the latch to the larger value and is routed to the queue's home as a wake event, starts the wake sequence, or halts a queue whose HOME names no healthy core. Input: qid, word. -/
  | wakeWrite
  /-- WAKE_COMPLETE (R44). A power-gated home finishes its wake sequence, and the latch is replayed to it as one wake event. Input: core. -/
  | wakeComplete
  /-- POD_CONFIG_WRITE (R378). An aligned 8-byte write to PODCFG or to the member table takes effect for later translations; an invalid PODCFG value is refused. Input: addr, word. -/
  | podConfigWrite
  /-- QUEUE_POLL_SCAN (R46). At least every 2^16 cycles, a home scans the queue table for enabled POLL queues that name it, and serves them. Input: core. -/
  | queuePollScan
  /-- HEADER_REREAD (R46). Every 1,024 cycles, while the latch exceeds READ, the home re-reads an unpublished header. Input: qid. -/
  | headerReread
  /-- QUEUE_STALL (R47). A header stays unpublished for 2^26 cycles: the home sets STALLED, writes a QUEUE_STALLED record and raises the vector. Input: qid. -/
  | queueStall
  /-- NOP_PACKET (R42). The home consumes a NOP packet, which completes at once. Input: qid. -/
  | nopPacket
  /-- LAUNCH_GRAPH (R74). The home checks and accepts a graph launch, loads SPLIT and the scratch image, and sends the shares of weight into transit with the root entries. Input: qid. -/
  | launchGraph
  /-- LAUNCH_GRID (R77). The home checks and accepts a grid launch, and delivers a range copy with its interval and share straight to each grid core. Input: qid. -/
  | launchGrid
  /-- FIELD (R58). A FIELD packet defines or replaces a field's rectangle, cells, cluster map, stitch table and translation root, after its checks. Input: qid. -/
  | field
  /-- BUDGET (R70). A BUDGET packet writes the four limits of every core of the field, to apply from the next budget period. Input: qid. -/
  | budget
  /-- WAYMASK (R68). A WAYMASK packet flushes every slice of the field and writes its way-mask, zeroing new scratch ways. Input: qid. -/
  | waymask
  /-- PAUSE (R96). A PAUSE packet puts the job into soft pre-emption, to be parked at quiescence or hard-saved at the deadline. Input: qid. -/
  | pause
  /-- SNAPSHOT (R113). A SNAPSHOT packet pre-empts the job, copies it into the reserves at quiescence, resumes it, and drains it when DRAIN is set. Input: qid. -/
  | snapshot
  /-- RESTORE (R120). A RESTORE packet checks a drained image, maps and restores it onto the target field, or resumes a parked job in place. Input: qid. -/
  | restore
  /-- SIGNAL (R42). A SIGNAL packet writes a value with release at sy, then sends an MSI-X message unless NOIRQ is set. Input: qid. -/
  | signal
  /-- WAIT_VALUE (R42). A WAIT_VALUE packet starts waiting for the masked word to meet its condition. Input: qid. -/
  | waitValue
  /-- WAIT_VALUE_POLL (R42). Every 1,024 cycles the home re-reads a WAIT_VALUE word with acquire at sy, and completes the packet when the condition holds. Input: qid. -/
  | waitValuePoll
  /-- SKIP (R48). A SKIP packet zeroes the headers of the skipped range of the target queue, advances READ and clears HALTED and STALLED, or completes with SKIP_MISMATCH. Input: qid. -/
  | skip
  /-- DEBUG_HALT (R208). DEBUG request HALT stops the target core, cluster or field and replies with SKID0–11. Input: qid. -/
  | debugHalt
  /-- DEBUG_RESUME (R208). DEBUG request RESUME resumes one slot or all slots of the target core. Input: qid. -/
  | debugResume
  /-- DEBUG_STEP (R376). DEBUG request STEP runs stepx on a slot up to COUNT times, and replies with the steps done, the last status and the PC. Input: qid. -/
  | debugStep
  /-- DEBUG_READCTX (R381). DEBUG request READCTX replies with the 592-byte context layout of a halted slot. Input: qid. -/
  | debugReadctx
  /-- DEBUG_WRITECTX (R381). DEBUG request WRITECTX writes bytes at an offset into a halted slot's context layout. Input: qid. -/
  | debugWritectx
  /-- DEBUG_READMEM (R208). DEBUG request READMEM reads bytes from the job's space into the reply. Input: qid. -/
  | debugReadmem
  /-- DEBUG_WRITEMEM (R208). DEBUG request WRITEMEM writes bytes into the job's space. Input: qid. -/
  | debugWritemem
  /-- DEBUG_SETWATCH (R208). DEBUG request SETWATCH writes the four registers of watchpoint n. Input: qid. -/
  | debugSetwatch
  /-- DEBUG_STATUS (R208). DEBUG request STATUS replies with one state byte per slot. Input: qid. -/
  | debugStatus
  /-- HOST_MEMORY_ACCESS (R17). A host CXL.mem access to device memory is ordered at the home slice, which records host ownership in its directory. Input: addr, data. -/
  | hostMemoryAccess
  /-- BACK_INVALIDATE_ANSWER (R17). The host answers a back-invalidate snoop, and the home slice completes the device write that waited for it. Input: addr. -/
  | backInvalidateAnswer
  /-- LINK_RETRY (R18). A flit fails its CRC on a link and is retried and counted, never delivered bad. Input: index. -/
  | linkRetry
  /-- LINK_TIMEOUT (R26). The 20 µs link timeout of an outstanding remote request expires, and the request ends poisoned, dropped or counted in LOSTW. Input: index. -/
  | linkTimeout
  /-- REMOTE_RESPONSE (R26). A remote response arrives whole before the timeout and completes its request; a late one is discarded. Input: index. -/
  | remoteResponse
  /-- FORWARD (R144). The oldest request for a page leaves the link queue to a member, is applied at that member's home whole, and its response returns. Input: index. -/
  | forward
  /-- DRAIN (R144). The oldest store-buffer entry for an address drains into CV, into H for local space, or into a link queue for another member. Input: core, slot, addr. -/
  | drain
  /-- EVICT (R144). A line leaves CV(k), its dirty bytes written into H at the line's home. Input: core, addr. -/
  | evict
  /-- FILL (R144). The non-dirty bytes of a line in CV(k) are copied from H. Input: core, addr. -/
  | fill
  /-- BUDGET_PERIOD_START (R71). A budget period begins: USE registers return to 0, new limits apply and held traffic is released. -/
  | budgetPeriodStart
  /-- POWER_WINDOW (R14). The power controller updates its 1 ms estimate and starts or stops delaying matrix steps. Input: addr. -/
  | powerWindow
  /-- MESSAGE_ARRIVAL (R289). A message reaches its destination core, which puts it into the inbox or overflow area, or returns it by NAK or bounce. Input: index. -/
  | messageArrival
  /-- REPLY_ARRIVAL (R292). A reply reaches its core and is held for its live target context, or goes to the stray handler. Input: index. -/
  | replyArrival
  /-- STRAY_DELIVERY (R108). A NAK, bounce or stale reply is taken into the stray entries, or discarded with INBOX_OVERFLOW when they are full. Input: index. -/
  | strayDelivery
  /-- HELPER_GRANT (R93). A free helper slot goes to the next waiting source among bursts, completions, starts and messages, and the handler comes to life. Input: core. -/
  | helperGrant
  /-- WEIGHT_RETURN (R104). A return of weight reaches its domain's home counter, which may close a child domain, park the job, raise QUIESCENT or complete the job. Input: index. -/
  | weightReturn
  /-- WRITE_OFF_ARRIVAL (R109). A write-off reaches its domain's home, which adds it to the counter and the written-off total and raises CELL_RESET for the job's domain. Input: index. -/
  | writeOffArrival
  /-- QARM_NOTICE (R296). An arm notice reaches the job's home and arms the quiescence trap. Input: index. -/
  | qarmNotice
  /-- TAINT_REPORT (R196). A taint report reaches the home, which counts it in TAINT and ORs its bits into the mask. Input: index. -/
  | taintReport
  /-- TRANSIT_VISIT (R80). A released copy in transit visits a core, which takes it, parks it, or passes it on or into the hint core's pending queue or the overflow list. Input: index. -/
  | transitVisit
  /-- PENDING_TAKE (R82). An idle control context takes the head pending entry for which its core is eligible, and starts the task. Input: core. -/
  | pendingTake
  /-- OVERFLOW_REFILL (R82). The micro-kernel moves its oldest overflow entry into a pending queue that has room. Input: core. -/
  | overflowRefill
  /-- STEAL_START (R84). After 64 idle cycles, or after the 1,024-cycle wait between rounds, a core sends its next steal request. Input: core. -/
  | stealStart
  /-- STEAL_REQUEST (R85). A victim answers a steal request by shipping a pending copy, splitting its range task, or answering no work. Input: index. -/
  | stealRequest
  /-- STEAL_ARRIVAL (R86). A shipped copy reaches the thief, whose control context takes it or puts it into its pending queue. Input: index. -/
  | stealArrival
  /-- LEASE_LAPSE_NOTICE (R131). A lapse notice reaches a peer, which clears HELD, ends waits on the owner with PEER_EXITED and acknowledges. Input: index. -/
  | leaseLapseNotice
  /-- BURST_ARRIVAL (R301). A bread burst returns into a burst buffer and waits for a helper to run its burst handler. Input: core, index, row, col. -/
  | burstArrival
  /-- COPY_SECTOR_WRITTEN (R304). A copy sector lands in H and is counted at the command's barrier object. Input: core, index. -/
  | copySectorWritten
  /-- PUBLISH (R159). A .pub copy's last sector has landed: every destination leaf switches to the fresh pages at once, and the sectors are counted. Input: core. -/
  | publish
  /-- ENGINE_FAULT (R338). An engine command's page translation faults: the command parks at its queue head and ENGINE_FAULT is recorded. Input: core, engine. -/
  | engineFault
  /-- MATRIX_COMMAND_RETIRE (R335). The matrix command at the queue head finishes its rows and retires. Input: core. -/
  | matrixCommandRetire
  /-- ACN_ROW_ARRIVAL (R314). An accumulate row reaches its target core, which adds it into the open tile and counts it, or NAKs it. Input: index. -/
  | acnRowArrival
  /-- ACN_ACK_ARRIVAL (R313). An acknowledgement of a sent row arrives at the sender's object. Input: index. -/
  | acnAckArrival
  /-- ACN_NAK_ARRIVAL (R313). A NAK of a sent row records its class at the sender's object, or raises ACN_NAK when the object cannot be reached. Input: index. -/
  | acnNakArrival
  /-- PIPE_ENTRY_LAND (R309). A pushed entry reaches H at the consumer, and COUNT rises. Input: index. -/
  | pipeEntryLand
  /-- PIPE_CREDIT_RETURN (R309). A credit returned by qpop reaches the producer, and FREE rises. Input: index. -/
  | pipeCreditReturn
  /-- ROT_EXCHANGE (R311). All four control contexts have issued rot: each reads its source and writes it into the next core's scratchpad. Input: core. -/
  | rotExchange
  /-- PAIR_INTERVAL_END (R201). A paired interval ends, and the fingerprints are compared: on agreement held outputs leave, otherwise the interval is rolled back. Input: core, word. -/
  | pairIntervalEnd
  /-- CELL_RESET (R62). An uncorrectable error in control state, a lost weight table or a second pair mismatch raises the fences, resets the cell's cores and posts write-offs. Input: fid, cell. -/
  | cellReset
  /-- FENCE_FALL (R62). Every micro-kernel of a reset cell is running again, the fence falls, and the cores return to the field idle. Input: fid, cell. -/
  | fenceFall
  /-- PAUSE_DEADLINE (R97). A pause deadline passes before quiescence, and the field is fenced and hard-saved in place. Input: fid. -/
  | pauseDeadline
  /-- DRAIN_COMPLETE (R113). The drain engine finishes writing the image, and the SNAPSHOT packet completes. Input: fid. -/
  | drainComplete
  /-- FLUSH_COMPLETE (R67). A slice flush finishes: FLUSH reads 0 and CLEAN becomes 1. Input: index. -/
  | flushComplete
  /-- MIGRATION_REWALK (R140). Every 1,024 cycles an access waiting on a MIG leaf walks again, and proceeds once MIG reads 0. Input: core, slot. -/
  | migrationRewalk
  /-- BARRIER_STALL (R350). The watchdog count of a waiting context reaches 2^LOG and raises BARRIER_STALL on it. Input: core, slot. -/
  | barrierStall
  /-- STEP_BLOCKED (R206). A stepped instruction waits 4,096 cycles, is withdrawn, and stepx returns blocked. Input: core, slot. -/
  | stepBlocked
  /-- HALT_SIGNAL (R204). A halt signal reaches a core, which stops issue in slots 1–11, withdraws waits and records the skids. Input: index. -/
  | haltSignal
  /-- FREEZE (R209). A low level on FREEZE stops every clock and starts plate capture. -/
  | freeze
  /-- PLATECTL_CAPTURE (R209). A supervisor write of 1 to PLATECTL.CAPTURE starts plate capture. -/
  | platectlCapture
  /-- SPLIT_WRITE (R122). A write to SPLIT resizes the scratchpad, writes back L1, zeroes the scratchpad and clears SWZCTL.EN. Input: word. -/
  | splitWrite
  /-- SWIZZLE_WRITE (R124). A write to SWZBASE or SWZCTL sets the window, refusing or clearing EN when the window would not fit. Input: flag, word. -/
  | swizzleWrite
  /-- WAYMASK_MASK_WRITE (R68). A write of WAYMASK.MASK is accepted when CLEAN is 1, or refused with ERR set. Input: word. -/
  | waymaskMaskWrite
  /-- WAYMASK_FLUSH (R67). A write of 1 to WAYMASK.FLUSH starts a flush of the slice's cache ways. -/
  | waymaskFlush
  /-- FPCTL_WRITE (R177). A write to FPCTL sets SEED and RM, leaving RM unchanged for 6 or 7. Input: word. -/
  | fpctlWrite
  /-- WDCTL_WRITE (R350). A write to WDCTL sets EN and LOG, clearing every watchdog count when EN is 0. Input: word. -/
  | wdctlWrite
  /-- MXEXCL_WRITE (R202). A write of EXCL sets PEND until no task of a matrix job runs in the cluster, or clears exclusion at once. Input: word. -/
  | mxexclWrite
  /-- MXEXCL_APPLY (R202). The pending EXCL write takes effect once no control context of the cluster runs a matrix task. Input: index. -/
  | mxexclApply
  /-- MRESUME_RESUME (R353). OP 1 written to MRESUME makes the parked matrix command re-translate and continue from MROWP. -/
  | mresumeResume
  /-- MRESUME_ABORT (R353). OP 2 written to MRESUME ends the parked matrix command, discards the later ones and closes the chain. -/
  | mresumeAbort
  /-- BRESUME_RESUME (R353). OP 1 written to BRESUME makes the parked bulk command continue with what it had not yet requested. -/
  | bresumeResume
  /-- BRESUME_ABORT (R353). OP 2 written to BRESUME ends the parked bulk command, starting the completion handler or setting the copy's error. -/
  | bresumeAbort
  /-- REGISTER_WRITE (R356). A write to a system or BAR0 register without a row of its own updates its RW and SO fields and clears W1C bits written with 1. Input: flag, addr, word. -/
  | registerWrite
  /-- NO_WORK_ANSWER (R84). A victim's answer of no work reaches the thief, which sends its steal request for the next offset or ends the round and starts the 1,024-cycle wait. Input: index. -/
  | noWorkAnswer
  /-- SECOND_COPY_TAKEN (R113). The vaults' page copies and the supervisors' state copies of a snapshot finish, the job resumes, and the packet completes when DRAIN is 0 or the drain starts. Input: fid. -/
  | secondCopyTaken
  /-- IDLE_TIMEOUT (R355). The Reg(A)-cycle timeout of a waiting idle expires with nothing pending, and idle writes 2 to D. Input: core. -/
  | idleTimeout
  /-- JOIN_STACK_REFILL (R88). The micro-kernel refills a release unit's stack of free join-entry indices from the join list, releasing a park that waited on an empty stack. Input: core. -/
  | joinStackRefill
  /-- POWER_GATE (R44). The supervisor power-gates a core, so that later wake writes to queues it serves start the wake sequence. Input: core. -/
  | powerGate
  /-- MSIX_VECTOR_UNMASK (R52). A host write to a BAR2 MSI-X table entry clears its mask, and a message whose pending bit is set is then sent by the MSI-X rules. Input: index. -/
  | msixVectorUnmask
  /-- HOST_SNOOP (R16). The host snoops a host line over CXL.cache, and the line's home slice answers as the device's one coherent cache, writing back or invalidating its copy. Input: addr, flag. -/
  | hostSnoop
  /-- BAD_TYPE_PACKET (R40). The home consumes a published packet of TYPE 0x0D–0xFF, completes it with BAD_TYPE, and the queue continues. Input: qid. -/
  | badTypePacket
  deriving DecidableEq, Repr

end Sys2Proof
end

