-- ==== Sys2Proof/WellFormed.lean ====
section
/-! DEFINITION. Which instructions the encoding admits: the checks of R223 that stand in an instruction's own row
of spec/12 to spec/15, over the operands that `Instr` holds. An event of the device has no encoding and no check. -/

namespace Sys2Proof

/-- TY 0 to 7. -/
def Ty.isInt : Ty → Bool
  | .i8 | .i16 | .i32 | .i64 | .n8 | .n16 | .n32 | .n64 => true
  | .f32 | .f16 | .bf16 | .e4m3 | .e5m2 | .e3m2 | .e2m3 | .e2m1 => false

/-- TY 8 to 10. -/
def Ty.isFloat : Ty → Bool
  | .f32 | .f16 | .bf16 => true
  | .i8 | .i16 | .i32 | .i64 | .n8 | .n16 | .n32 | .n64 | .e4m3 | .e5m2 | .e3m2 | .e2m3 | .e2m1 => false

/-- TY 0 to 10. -/
def Ty.isPlain (t : Ty) : Bool := t.isInt || t.isFloat

/-- TY 0 and 11 to 15: the types that a block scale applies to (R168). -/
def Ty.isScalable (t : Ty) : Bool := t = .i8 || !t.isPlain

/-- TY 13 to 15: the types whose elements share bytes of memory (R165). -/
def Ty.isShared : Ty → Bool
  | .e3m2 | .e2m3 | .e2m1 => true
  | .i8 | .i16 | .i32 | .i64 | .n8 | .n16 | .n32 | .n64 | .f32 | .f16 | .bf16 | .e4m3 | .e5m2 => false

/-- The width in bits of an element (R164, Width of R230). -/
def Ty.width : Ty → Nat
  | .i8 | .n8 | .e4m3 | .e5m2 => 8
  | .i16 | .n16 | .f16 | .bf16 => 16
  | .i32 | .n32 | .f32 => 32
  | .i64 | .n64 => 64
  | .e3m2 | .e2m3 => 6
  | .e2m1 => 4

/-- The lane width of a type (R318). -/
def Ty.laneWidth : Ty → Nat
  | .i8 | .n8 | .e4m3 | .e5m2 | .e3m2 | .e2m3 => 8
  | .i16 | .n16 | .f16 | .bf16 => 16
  | .i32 | .n32 | .f32 => 32
  | .i64 | .n64 => 64
  | .e2m1 => 4

/-- The number of parts of a conversion from `s` to `d` (R327). -/
def partRatio (s d : Ty) : Nat := max s.laneWidth d.laneWidth / min s.laneWidth d.laneWidth

/-- The six-bit tags of R169. -/
def validTag (t : BitVec 6) : Bool :=
  t.toNat < 16 || t = 0x30 ||
    (t.toNat < 48 && (t.toNat % 16 = 0 || 11 ≤ t.toNat % 16))

/-- The three classes of `mma` types (R337). -/
def Ty.mmaClass : Ty → Nat
  | .f32 => 1
  | .f16 | .bf16 => 2
  | .i8 | .e4m3 | .e5m2 | .e3m2 | .e2m3 | .e2m1 => 3
  | .i16 | .i32 | .i64 | .n8 | .n16 | .n32 | .n64 => 0

/-- The encodings that R337 allows: types of one class, a scaling kind only with a scalable type, and a scale pointer exactly
when a kind is non-zero. -/
def mmaWf (x y : MmaOperand) (c : Option PReg) : Bool :=
  x.ty.mmaClass ≠ 0 && x.ty.mmaClass = y.ty.mmaClass &&
    (x.kind = .none || x.ty.isScalable) && (y.kind = .none || y.ty.isScalable) &&
    (c.isSome = (x.kind ≠ .none || y.kind ≠ .none))

/-- The operand values for which the encoding is an instruction (R223). -/
def Instr.wellFormed (i : Instr) : Bool :=
  match i with
  | .deviceReset => true
  | .kvecWrite => true
  | .bootDisc => true
  | .bootMap => true
  | .bootImg => true
  | .bootStage => true
  | .bootGo => true
  | .bootDiscoveryFlit => true
  | .bootMulticastFlit => true
  | .bootReport => true
  | .bootReportArrival => true
  | .spdmGetVersion => true
  | .spdmGetCapabilities => true
  | .spdmNegotiateAlgorithms => true
  | .spdmGetDigests => true
  | .spdmGetCertificate => true
  | .spdmChallenge => true
  | .spdmGetMeasurements => true
  | .wakeWrite => true
  | .wakeComplete => true
  | .podConfigWrite => true
  | .queuePollScan => true
  | .headerReread => true
  | .queueStall => true
  | .nopPacket => true
  | .launchGraph => true
  | .launchGrid => true
  | .field => true
  | .budget => true
  | .waymask => true
  | .pause => true
  | .snapshot => true
  | .restore => true
  | .signal => true
  | .waitValue => true
  | .waitValuePoll => true
  | .skip => true
  | .debugHalt => true
  | .debugResume => true
  | .debugStep => true
  | .debugReadctx => true
  | .debugWritectx => true
  | .debugReadmem => true
  | .debugWritemem => true
  | .debugSetwatch => true
  | .debugStatus => true
  | .hostMemoryAccess => true
  | .backInvalidateAnswer => true
  | .linkRetry => true
  | .linkTimeout => true
  | .remoteResponse => true
  | .forward => true
  | .drain => true
  | .evict => true
  | .fill => true
  | .budgetPeriodStart => true
  | .powerWindow => true
  | .messageArrival => true
  | .replyArrival => true
  | .strayDelivery => true
  | .helperGrant => true
  | .weightReturn => true
  | .writeOffArrival => true
  | .qarmNotice => true
  | .taintReport => true
  | .transitVisit => true
  | .pendingTake => true
  | .overflowRefill => true
  | .stealStart => true
  | .stealRequest => true
  | .stealArrival => true
  | .leaseLapseNotice => true
  | .burstArrival => true
  | .copySectorWritten => true
  | .publish => true
  | .engineFault => true
  | .matrixCommandRetire => true
  | .acnRowArrival => true
  | .acnAckArrival => true
  | .acnNakArrival => true
  | .pipeEntryLand => true
  | .pipeCreditReturn => true
  | .rotExchange => true
  | .pairIntervalEnd => true
  | .cellReset => true
  | .fenceFall => true
  | .pauseDeadline => true
  | .drainComplete => true
  | .flushComplete => true
  | .migrationRewalk => true
  | .barrierStall => true
  | .stepBlocked => true
  | .haltSignal => true
  | .freeze => true
  | .platectlCapture => true
  | .splitWrite => true
  | .swizzleWrite => true
  | .waymaskMaskWrite => true
  | .waymaskFlush => true
  | .fpctlWrite => true
  | .wdctlWrite => true
  | .mxexclWrite => true
  | .mxexclApply => true
  | .mresumeResume => true
  | .mresumeAbort => true
  | .bresumeResume => true
  | .bresumeAbort => true
  | .registerWrite => true
  | .udf _ _ _ _ _ _ => true
  | .nop => true
  | .trap _ => true
  | .eretResume _ _ => true
  | .eretSkip _ => true
  | .eretForward _ => true
  | .eretEnd _ => true
  | .sysr _ _ => true
  | .sysw _ _ => true
  | .sysset _ _ _ => true
  | .sysclr _ _ _ => true
  | .chkerr => true
  | .idle _ _ => true
  | .tlbinv _ _ _ => true
  | .pair _ => true
  | .unpair _ => true
  | .haltx _ => true
  | .resumex _ => true
  | .stepx _ _ => true
  | .rdcyc _ => true
  | .add ty _ _ _ => ty.isInt
  | .sub ty _ _ _ => ty.isInt
  | .mul ty _ _ _ => ty.isInt
  | .mulh ty _ _ _ => ty.isInt
  | .div ty _ _ _ => ty.isInt
  | .rem ty _ _ _ => ty.isInt
  | .and ty _ _ _ => ty.isInt
  | .or ty _ _ _ => ty.isInt
  | .xor ty _ _ _ => ty.isInt
  | .andn ty _ _ _ => ty.isInt
  | .shl ty _ _ _ => ty.isInt
  | .shr ty _ _ _ => ty.isInt
  | .sar ty _ _ _ => ty.isInt
  | .rol ty _ _ _ => ty.isInt
  | .min ty _ _ _ => ty.isInt
  | .max ty _ _ _ => ty.isInt
  | .clz ty _ _ => ty.isInt
  | .ctz ty _ _ => ty.isInt
  | .popc ty _ _ => ty.isInt
  | .ext ty _ _ _ _ => ty = .i64 || ty = .n64
  | .sel ty _ _ _ _ => ty.isInt
  | .slt ty _ _ _ => ty.isInt
  | .seq ty _ _ _ => ty.isInt
  | .sne ty _ _ _ => ty.isInt
  | .mov ty _ _ => ty.isInt
  | .aluiAdd ty _ _ _ => ty.isInt
  | .aluiAnd ty _ _ _ => ty.isInt
  | .aluiOr ty _ _ _ => ty.isInt
  | .aluiXor ty _ _ _ => ty.isInt
  | .aluiShl ty _ _ _ => ty.isInt
  | .aluiShr ty _ _ _ => ty.isInt
  | .aluiSar ty _ _ _ => ty.isInt
  | .aluiRol ty _ _ _ => ty.isInt
  | .aluiMin ty _ _ _ => ty.isInt
  | .aluiMax ty _ _ _ => ty.isInt
  | .aluiSlt ty _ _ _ => ty.isInt
  | .aluiSeq ty _ _ _ => ty.isInt
  | .aluiSne ty _ _ _ => ty.isInt
  | .li ty _ _ => ty.isInt
  | .addl ty _ _ _ => ty.isInt
  | .lil ty _ _ => ty.isInt
  | .lih _ _ _ => true
  | .andl ty _ _ _ => ty.isInt
  | .orl ty _ _ _ => ty.isInt
  | .xorl ty _ _ _ => ty.isInt
  | .padd _ _ _ => true
  | .paddi _ _ _ => true
  | .paddl _ _ _ => true
  | .psub _ _ _ => true
  | .plea _ _ _ => true
  | .pmov _ fromG a => fromG || a.toNat < 16
  | .plo _ _ => true
  | .phi _ _ => true
  | .ploc _ _ _ => true
  | .pcmp cond _ _ _ => cond ≠ .un
  | .fadd ty _ _ _ _ => ty.isFloat
  | .fsub ty _ _ _ _ => ty.isFloat
  | .fmul ty _ _ _ _ => ty.isFloat
  | .fma ty _ _ _ _ _ => ty.isFloat
  | .fnma ty _ _ _ _ _ => ty.isFloat
  | .fdiv ty _ _ _ _ => ty.isFloat
  | .fsqrt ty _ _ _ => ty.isFloat
  | .fmin ty _ _ _ => ty.isFloat
  | .fmax ty _ _ _ => ty.isFloat
  | .fabs ty _ _ => ty.isFloat
  | .fneg ty _ _ => ty.isFloat
  | .fcmp ty _ _ _ _ => ty.isFloat
  | .fcvt dty sty _ _ _ => dty.isPlain && sty.isPlain && (dty.isFloat || sty.isFloat)
  | .fclass ty _ _ => ty.isFloat
  | .fmovi ty _ _ => ty.isFloat
  | .fsgn ty _ _ _ => ty.isFloat
  | .beq ty _ _ _ _ => ty.isInt
  | .bne ty _ _ _ _ => ty.isInt
  | .blt ty _ _ _ _ => ty.isInt
  | .bge ty _ _ _ _ => ty.isInt
  | .bz ty _ _ _ => ty.isInt
  | .bnz ty _ _ _ => ty.isInt
  | .bbs _ _ _ _ => true
  | .bbc _ _ _ _ => true
  | .j _ => true
  | .jl _ => true
  | .jr _ => true
  | .call _ => true
  | .callr _ => true
  | .ret => true
  | .loop _ imm => 8 ≤ 4 * imm.toInt
  | .loopi _ imm => 12 ≤ 4 * imm.toInt
  | .lexit => true
  | .ld ty _ _ _ _ => ty.isPlain
  | .ldp _ _ _ _ => true
  | .ldq8 _ _ _ _ => true
  | .ldw _ _ _ _ => true
  | .ldt ty _ _ _ => ty.isInt
  | .st ty _ _ _ _ => ty.isPlain
  | .stp _ _ _ _ => true
  | .stq8 _ _ _ _ => true
  | .stf _ _ _ _ => true
  | .aadd ty _ _ _ _ _ _ => ty.isInt && 32 ≤ ty.width
  | .aand ty _ _ _ _ _ _ => ty.isInt && 32 ≤ ty.width
  | .aor ty _ _ _ _ _ _ => ty.isInt && 32 ≤ ty.width
  | .axor ty _ _ _ _ _ _ => ty.isInt && 32 ≤ ty.width
  | .amin ty _ _ _ _ _ _ => ty.isInt && 32 ≤ ty.width
  | .amax ty _ _ _ _ _ _ => ty.isInt && 32 ≤ ty.width
  | .aswp ty _ _ _ _ _ _ => ty.isInt && 32 ≤ ty.width
  | .acas ty _ _ _ _ _ _ => ty.isInt && 32 ≤ ty.width
  | .aacc _ _ _ _ _ => true
  | .fence _ => true
  | .bind _ _ _ _ _ => true
  | .unbind _ _ _ => true
  | .acq _ _ _ => true
  | .rel _ _ _ => true
  | .send _ _ _ _ => true
  | .sendc _ _ _ _ len => 2 ≤ len.toNat && len.toNat ≤ 12
  | .reply _ _ _ _ => true
  | .start _ _ _ _ => true
  | .halt => true
  | .wget => true
  | .qarm => true
  | .tend => true
  | .tnext _ => true
  | .tspawn _ _ => true
  | .bread _ _ _ _ _ _ _ => true
  | .copy _ _ _ _ _ _ _ _ => true
  | .copym _ _ _ _ lx ly esz _ => lx.toNat ≤ 12 && ly.toNat ≤ 12 && 5 ≤ lx.toNat + ly.toNat + esz.toNat
  | .binit _ _ _ => true
  | .bexp _ _ _ => true
  | .barr _ _ _ => true
  | .bwait _ _ _ => true
  | .btest _ _ _ _ => true
  | .qinit _ _ => true
  | .qpush _ _ => true
  | .qpop _ _ => true
  | .qavail _ _ => true
  | .rot _ _ n => n.toNat % 32 = 0 && n ≠ 0
  | .aopen _ _ rows => rows ≠ 0
  | .asend _ _ _ r0 r1 => r0.toNat < 32 && r1.toNat ≤ 32 && r0.toNat < r1.toNat
  | .aclose _ => true
  | .vadd ty q _ _ _ _ => ty.isFloat || (ty.isInt && q = ⟨.rne, false⟩)
  | .vsub ty q _ _ _ _ => ty.isFloat || (ty.isInt && q = ⟨.rne, false⟩)
  | .vmul ty q _ _ _ _ => ty.isFloat || (ty.isInt && q = ⟨.rne, false⟩)
  | .vfma ty q _ _ _ _ _ => ty.isFloat || (ty.isInt && q = ⟨.rne, false⟩)
  | .vfnma ty q _ _ _ _ _ => ty.isFloat || (ty.isInt && q = ⟨.rne, false⟩)
  | .vmin ty _ _ _ _ => ty.isPlain
  | .vmax ty _ _ _ _ => ty.isPlain
  | .vabs ty _ _ _ => ty.isPlain
  | .vneg ty _ _ _ => ty.isPlain
  | .vand ty _ _ _ _ => ty.isInt
  | .vor ty _ _ _ _ => ty.isInt
  | .vxor ty _ _ _ _ => ty.isInt
  | .vshl ty _ _ _ _ => ty.isInt
  | .vshr ty _ _ _ _ => ty.isInt
  | .vsar ty _ _ _ _ => ty.isInt
  | .vmov _ _ _ => true
  | .vbcast ty _ _ _ => ty.isPlain
  | .vsel ty _ _ _ _ => ty ≠ .e2m1
  | .vidx ty _ _ _ => ty.isPlain
  | .vdiv ty q _ _ _ _ => ty.isFloat || (ty.isInt && q = ⟨.rne, false⟩)
  | .vclamp ty _ _ _ _ _ => ty.isPlain
  | .vcmp ty cond d _ _ _ => d ≠ 0 && ty.isPlain && (ty.isFloat || cond ≠ .un)
  | .kand d _ _ => d ≠ 0
  | .kor d _ _ => d ≠ 0
  | .kxor d _ _ => d ≠ 0
  | .knot d _ => d ≠ 0
  | .kpop _ _ => true
  | .kset d _ _ => d ≠ 0
  | .kget _ _ _ => true
  | .vexp2 ty _ _ _ _ => ty.isFloat
  | .vlog2 ty _ _ _ _ => ty.isFloat
  | .vrcp ty _ _ _ _ => ty.isFloat
  | .vrsqrt ty _ _ _ _ => ty.isFloat
  | .vsqrt ty _ _ _ _ => ty.isFloat
  | .vsinpi ty _ _ _ _ => ty.isFloat
  | .vcospi ty _ _ _ _ => ty.isFloat
  | .vtanh ty _ _ _ _ => ty.isFloat
  | .vsigm ty _ _ _ _ => ty.isFloat
  | .verf ty _ _ _ _ => ty.isFloat
  | .vrsum ty q _ _ _ => ty.isFloat || (ty.isInt && q = ⟨.rne, false⟩)
  | .vrmax ty _ _ _ => ty.isPlain
  | .vrmin ty _ _ _ => ty.isPlain
  | .vperm ty _ _ _ _ => ty ≠ .e2m1
  | .vrotl _ _ _ _ _ => true
  | .vzip ty _ _ _ _ _ => ty ≠ .e2m1
  | .vunzip ty _ _ _ _ _ => ty ≠ .e2m1
  | .vext ty _ _ _ => ty.isPlain
  | .vins ty _ _ _ => ty.isPlain
  | .vcvt dty sty _ _ _ part _ => !(dty.isInt && sty.isInt) && part.toNat < partRatio sty dty
  | .vqnt ty kind _ _ _ _ => ty.isScalable && kind ≠ .none
  | .vdqnt ty _ _ _ _ _ => ty.isFloat
  | .vretag _ _ tag => validTag tag
  | .vtag _ _ => true
  | .vld ty kind _ _ _ _ _ => kind = .none || ty.isScalable
  | .vst ty kind _ _ _ _ k => (kind = .none || ty.isScalable) && (k = 0 || !ty.isShared)
  | .vlds ty _ _ _ _ _ => !ty.isShared
  | .vsts ty _ _ _ _ _ => !ty.isShared
  | .vgath ty _ _ _ _ _ => ty = .i32 || ty = .n32 || ty = .f32
  | .vscat ty _ _ _ _ _ => ty = .i32 || ty = .n32 || ty = .f32
  | .vstp _ _ _ _ => true
  | .vldw ty kind _ _ _ _ => kind = .none || ty.isScalable
  | .tlda _ _ d _ _ n => d.toNat + n.toNat ≤ 15
  | .tsta _ _ _ _ a n => a.toNat + n.toNat ≤ 15
  | .vldsc kind _ _ _ _ => kind ≠ .none
  | .vstsc kind _ _ _ _ => kind ≠ .none
  | .mbegin _ => true
  | .mend => true
  | .mma _ x y c _ => mmaWf x y c
  | .mzero _ => true
  | .mst _ _ _ _ _ _ => true
  | .mld _ _ _ _ => true
  | .mldt ty d _ _ => (ty = .i8 || ty = .n8 || ty = .e4m3 || ty = .e5m2 || ty = .i16 || ty = .n16 || ty = .f16 || ty = .bf16 || ty = .i32 || ty = .n32 || ty = .f32) &&
      d.toNat + 4 * (ty.laneWidth / 8) ≤ 16
  | .manch _ _ _ => true
  | .mwait => true
  | .noWorkAnswer => true
  | .secondCopyTaken => true
  | .idleTimeout => true
  | .joinStackRefill => true
  | .powerGate => true
  | .msixVectorUnmask => true
  | .hostSnoop => true
  | .badTypePacket => true
  | .illegalInstruction _ _ => true

end Sys2Proof
end

