-- ==== Sys2Proof/Machine/Dests.lean ====
section
/-! DEFINITION. Which registers an instruction writes, and which instructions end an interval of a pair (R199, R200). -/

namespace Sys2Proof

/-- A register of the issuing context or of its core, by class and number. -/
inductive Dest where
  | g (r : Nat)
  | p (r : Nat)
  | v (r : Nat)
  | k (r : Nat)
  deriving DecidableEq, Repr

/-- The registers that an instruction writes, in order. -/
def Instr.dests (i : Instr) : List Dest :=
  match i with
  | .udf _ _ _ _ _ _ => []
  | .nop => []
  | .trap _ => []
  | .eretResume _ _ => []
  | .eretSkip _ => []
  | .eretForward _ => []
  | .eretEnd _ => []
  | .sysr d _ => [.g d.toNat]
  | .sysw _ _ => []
  | .sysset d _ _ => [.g d.toNat]
  | .sysclr d _ _ => [.g d.toNat]
  | .chkerr => []
  | .idle d _ => [.g d.toNat]
  | .tlbinv _ _ _ => []
  | .pair d => [.g d.toNat]
  | .unpair d => [.g d.toNat]
  | .haltx _ => []
  | .resumex _ => []
  | .stepx d _ => [.g d.toNat]
  | .rdcyc d => [.g d.toNat]
  | .add _ d _ _ => [.g d.toNat]
  | .sub _ d _ _ => [.g d.toNat]
  | .mul _ d _ _ => [.g d.toNat]
  | .mulh _ d _ _ => [.g d.toNat]
  | .div _ d _ _ => [.g d.toNat]
  | .rem _ d _ _ => [.g d.toNat]
  | .and _ d _ _ => [.g d.toNat]
  | .or _ d _ _ => [.g d.toNat]
  | .xor _ d _ _ => [.g d.toNat]
  | .andn _ d _ _ => [.g d.toNat]
  | .shl _ d _ _ => [.g d.toNat]
  | .shr _ d _ _ => [.g d.toNat]
  | .sar _ d _ _ => [.g d.toNat]
  | .rol _ d _ _ => [.g d.toNat]
  | .min _ d _ _ => [.g d.toNat]
  | .max _ d _ _ => [.g d.toNat]
  | .clz _ d _ => [.g d.toNat]
  | .ctz _ d _ => [.g d.toNat]
  | .popc _ d _ => [.g d.toNat]
  | .ext _ d _ _ _ => [.g d.toNat]
  | .sel _ d _ _ _ => [.g d.toNat]
  | .slt _ d _ _ => [.g d.toNat]
  | .seq _ d _ _ => [.g d.toNat]
  | .sne _ d _ _ => [.g d.toNat]
  | .mov _ d _ => [.g d.toNat]
  | .aluiAdd _ d _ _ => [.g d.toNat]
  | .aluiAnd _ d _ _ => [.g d.toNat]
  | .aluiOr _ d _ _ => [.g d.toNat]
  | .aluiXor _ d _ _ => [.g d.toNat]
  | .aluiShl _ d _ _ => [.g d.toNat]
  | .aluiShr _ d _ _ => [.g d.toNat]
  | .aluiSar _ d _ _ => [.g d.toNat]
  | .aluiRol _ d _ _ => [.g d.toNat]
  | .aluiMin _ d _ _ => [.g d.toNat]
  | .aluiMax _ d _ _ => [.g d.toNat]
  | .aluiSlt _ d _ _ => [.g d.toNat]
  | .aluiSeq _ d _ _ => [.g d.toNat]
  | .aluiSne _ d _ _ => [.g d.toNat]
  | .li _ d _ => [.g d.toNat]
  | .addl _ d _ _ => [.g d.toNat]
  | .lil _ d _ => [.g d.toNat]
  | .lih d _ _ => [.g d.toNat]
  | .andl _ d _ _ => [.g d.toNat]
  | .orl _ d _ _ => [.g d.toNat]
  | .xorl _ d _ _ => [.g d.toNat]
  | .padd d _ _ => [.p d.toNat]
  | .paddi d _ _ => [.p d.toNat]
  | .paddl d _ _ => [.p d.toNat]
  | .psub d _ _ => [.g d.toNat]
  | .plea d _ _ => [.p d.toNat]
  | .pmov d _ _ => [.p d.toNat]
  | .plo d _ => [.g d.toNat]
  | .phi d _ => [.g d.toNat]
  | .ploc d _ _ => [.p d.toNat]
  | .pcmp _ d _ _ => [.g d.toNat]
  | .fadd _ _ d _ _ => [.g d.toNat]
  | .fsub _ _ d _ _ => [.g d.toNat]
  | .fmul _ _ d _ _ => [.g d.toNat]
  | .fma _ _ d _ _ _ => [.g d.toNat]
  | .fnma _ _ d _ _ _ => [.g d.toNat]
  | .fdiv _ _ d _ _ => [.g d.toNat]
  | .fsqrt _ _ d _ => [.g d.toNat]
  | .fmin _ d _ _ => [.g d.toNat]
  | .fmax _ d _ _ => [.g d.toNat]
  | .fabs _ d _ => [.g d.toNat]
  | .fneg _ d _ => [.g d.toNat]
  | .fcmp _ _ d _ _ => [.g d.toNat]
  | .fcvt _ _ _ d _ => [.g d.toNat]
  | .fclass _ d _ => [.g d.toNat]
  | .fmovi _ d _ => [.g d.toNat]
  | .fsgn _ d _ _ => [.g d.toNat]
  | .beq _ _ _ _ _ => []
  | .bne _ _ _ _ _ => []
  | .blt _ _ _ _ _ => []
  | .bge _ _ _ _ _ => []
  | .bz _ _ _ _ => []
  | .bnz _ _ _ _ => []
  | .bbs _ _ _ _ => []
  | .bbc _ _ _ _ => []
  | .j _ => []
  | .jl _ => []
  | .jr _ => []
  | .call _ => [.p 15]
  | .callr _ => [.p 15]
  | .ret => []
  | .loop _ _ => []
  | .loopi _ _ => []
  | .lexit => []
  | .ld _ _ d _ _ => [.g d.toNat]
  | .ldp _ d _ _ => [.p d.toNat]
  | .ldq8 _ d _ _ => (List.range 8).map fun j => .g (8 * d.toNat + j)
  | .ldw _ d _ _ => [.g d.toNat]
  | .ldt _ d _ _ => [.g d.toNat]
  | .st _ _ _ _ _ => []
  | .stp _ _ _ _ => []
  | .stq8 _ _ _ _ => []
  | .stf _ _ _ _ => []
  | .aadd _ _ _ d _ _ _ => [.g d.toNat]
  | .aand _ _ _ d _ _ _ => [.g d.toNat]
  | .aor _ _ _ d _ _ _ => [.g d.toNat]
  | .axor _ _ _ d _ _ _ => [.g d.toNat]
  | .amin _ _ _ d _ _ _ => [.g d.toNat]
  | .amax _ _ _ d _ _ _ => [.g d.toNat]
  | .aswp _ _ _ d _ _ _ => [.g d.toNat]
  | .acas _ _ _ d _ _ _ => [.g d.toNat]
  | .aacc _ _ _ _ _ => []
  | .fence _ => []
  | .bind _ _ _ _ d => [.g d.toNat]
  | .unbind _ _ _ => []
  | .acq _ _ _ => []
  | .rel _ _ _ => []
  | .send _ _ _ _ => []
  | .sendc _ _ _ _ _ => []
  | .reply _ _ _ _ => []
  | .start d _ _ _ => [.g d.toNat]
  | .halt => []
  | .wget => (List.range 12).map fun j => .g (20 + j)
  | .qarm => []
  | .tend => []
  | .tnext d => [.g d.toNat]
  | .tspawn _ _ => []
  | .bread _ _ _ _ _ _ _ => []
  | .copy _ _ _ _ _ _ _ _ => []
  | .copym _ _ _ _ _ _ _ _ => []
  | .binit _ _ _ => []
  | .bexp _ _ _ => []
  | .barr d _ _ => [.g d.toNat]
  | .bwait _ _ _ => []
  | .btest d _ _ _ => [.g d.toNat]
  | .qinit _ _ => []
  | .qpush _ _ => []
  | .qpop d _ => [.g d.toNat]
  | .qavail d _ => [.g d.toNat]
  | .rot _ _ _ => []
  | .aopen _ _ _ => []
  | .asend _ _ _ _ _ => []
  | .aclose _ => []
  | .vadd _ _ d _ _ _ => [.v d.toNat]
  | .vsub _ _ d _ _ _ => [.v d.toNat]
  | .vmul _ _ d _ _ _ => [.v d.toNat]
  | .vfma _ _ d _ _ _ _ => [.v d.toNat]
  | .vfnma _ _ d _ _ _ _ => [.v d.toNat]
  | .vmin _ d _ _ _ => [.v d.toNat]
  | .vmax _ d _ _ _ => [.v d.toNat]
  | .vabs _ d _ _ => [.v d.toNat]
  | .vneg _ d _ _ => [.v d.toNat]
  | .vand _ d _ _ _ => [.v d.toNat]
  | .vor _ d _ _ _ => [.v d.toNat]
  | .vxor _ d _ _ _ => [.v d.toNat]
  | .vshl _ d _ _ _ => [.v d.toNat]
  | .vshr _ d _ _ _ => [.v d.toNat]
  | .vsar _ d _ _ _ => [.v d.toNat]
  | .vmov d _ _ => [.v d.toNat]
  | .vbcast _ d _ _ => [.v d.toNat]
  | .vsel _ d _ _ _ => [.v d.toNat]
  | .vidx _ d _ _ => [.v d.toNat]
  | .vdiv _ _ d _ _ _ => [.v d.toNat]
  | .vclamp _ d _ _ _ _ => [.v d.toNat]
  | .vcmp _ _ d _ _ _ => [.k d.toNat]
  | .kand d _ _ => [.k d.toNat]
  | .kor d _ _ => [.k d.toNat]
  | .kxor d _ _ => [.k d.toNat]
  | .knot d _ => [.k d.toNat]
  | .kpop d _ => [.g d.toNat]
  | .kset d _ _ => [.k d.toNat]
  | .kget d _ _ => [.g d.toNat]
  | .vexp2 _ _ d _ _ => [.v d.toNat]
  | .vlog2 _ _ d _ _ => [.v d.toNat]
  | .vrcp _ _ d _ _ => [.v d.toNat]
  | .vrsqrt _ _ d _ _ => [.v d.toNat]
  | .vsqrt _ _ d _ _ => [.v d.toNat]
  | .vsinpi _ _ d _ _ => [.v d.toNat]
  | .vcospi _ _ d _ _ => [.v d.toNat]
  | .vtanh _ _ d _ _ => [.v d.toNat]
  | .vsigm _ _ d _ _ => [.v d.toNat]
  | .verf _ _ d _ _ => [.v d.toNat]
  | .vrsum _ _ d _ _ => [.g d.toNat]
  | .vrmax _ d _ _ => [.g d.toNat]
  | .vrmin _ d _ _ => [.g d.toNat]
  | .vperm _ d _ _ _ => [.v d.toNat]
  | .vrotl _ d _ _ _ => [.v d.toNat]
  | .vzip _ _ d _ _ _ => [.v d.toNat]
  | .vunzip _ _ d _ _ _ => [.v d.toNat]
  | .vext _ d _ _ => [.g d.toNat]
  | .vins _ d _ _ => [.v d.toNat]
  | .vcvt _ _ _ d _ _ _ => [.v d.toNat]
  | .vqnt _ _ _ d _ _ => [.v d.toNat]
  | .vdqnt _ _ d _ _ _ => [.v d.toNat]
  | .vretag d _ _ => [.v d.toNat]
  | .vtag d _ => [.g d.toNat]
  | .vld _ _ _ d _ _ _ => [.v d.toNat]
  | .vst _ _ _ _ _ _ _ => []
  | .vlds _ _ d _ _ _ => [.v d.toNat]
  | .vsts _ _ _ _ _ _ => []
  | .vgath _ _ d _ _ _ => [.v d.toNat]
  | .vscat _ _ _ _ _ _ => []
  | .vstp _ _ _ _ => []
  | .vldw _ _ _ d _ _ => [.v d.toNat]
  | .tlda _ _ d _ _ n => (List.range (n.toNat + 1)).map fun j => .v (d.toNat + j)
  | .tsta _ _ _ _ _ _ => []
  | .vldsc _ _ d _ _ => [.v d.toNat]
  | .vstsc _ _ _ _ _ => []
  | .mbegin _ => []
  | .mend => []
  | .mma _ _ _ _ _ => []
  | .mzero _ => []
  | .mst _ _ _ _ _ _ => []
  | .mld _ _ _ _ => []
  | .mldt ty d _ _ => (List.range (ty.width / 2)).map fun j => .v (d.toNat + j)
  | .manch d _ _ => [.g d.toNat]
  | .mwait => []
  | .illegalInstruction _ _ => []
  | .deviceReset | .kvecWrite | .bootDisc | .bootMap | .bootImg | .bootStage | .bootGo | .bootDiscoveryFlit | .bootMulticastFlit | .bootReport | .bootReportArrival | .spdmGetVersion | .spdmGetCapabilities | .spdmNegotiateAlgorithms | .spdmGetDigests | .spdmGetCertificate | .spdmChallenge | .spdmGetMeasurements | .wakeWrite | .wakeComplete | .podConfigWrite | .queuePollScan | .headerReread | .queueStall | .nopPacket | .launchGraph | .launchGrid | .field | .budget | .waymask | .pause | .snapshot | .restore | .signal | .waitValue | .waitValuePoll | .skip | .debugHalt | .debugResume | .debugStep | .debugReadctx | .debugWritectx | .debugReadmem | .debugWritemem | .debugSetwatch | .debugStatus | .hostMemoryAccess | .backInvalidateAnswer | .linkRetry | .linkTimeout | .remoteResponse | .forward | .drain | .evict | .fill | .budgetPeriodStart | .powerWindow | .messageArrival | .replyArrival | .strayDelivery | .helperGrant | .weightReturn | .writeOffArrival | .qarmNotice | .taintReport | .transitVisit | .pendingTake | .overflowRefill | .stealStart | .stealRequest | .stealArrival | .leaseLapseNotice | .burstArrival | .copySectorWritten | .publish | .engineFault | .matrixCommandRetire | .acnRowArrival | .acnAckArrival | .acnNakArrival | .pipeEntryLand | .pipeCreditReturn | .rotExchange | .pairIntervalEnd | .cellReset | .fenceFall | .pauseDeadline | .drainComplete | .flushComplete | .migrationRewalk | .barrierStall | .stepBlocked | .haltSignal | .freeze | .platectlCapture | .splitWrite | .swizzleWrite | .waymaskMaskWrite | .waymaskFlush | .fpctlWrite | .wdctlWrite | .mxexclWrite | .mxexclApply | .mresumeResume | .mresumeAbort | .bresumeResume | .bresumeAbort | .registerWrite | .noWorkAnswer | .secondCopyTaken | .idleTimeout | .joinStackRefill | .powerGate | .msixVectorUnmask | .hostSnoop | .badTypePacket => []

/-- Synchronising instructions (R199): those the rule names, and `sysset` and `sysclr` by R356. `tsta` is one by its compare-and-swap (R161; assumption 113). -/
def Instr.isSync (i : Instr) : Bool :=
  match i with
  | .udf _ _ _ _ _ _ => false
  | .nop => false
  | .trap _ => false
  | .eretResume _ _ => false
  | .eretSkip _ => false
  | .eretForward _ => false
  | .eretEnd _ => false
  | .sysr _ _ => false
  | .sysw _ _ => true
  | .sysset _ _ _ => true
  | .sysclr _ _ _ => true
  | .chkerr => false
  | .idle _ _ => false
  | .tlbinv _ _ _ => false
  | .pair _ => false
  | .unpair _ => false
  | .haltx _ => false
  | .resumex _ => false
  | .stepx _ _ => false
  | .rdcyc _ => false
  | .add _ _ _ _ => false
  | .sub _ _ _ _ => false
  | .mul _ _ _ _ => false
  | .mulh _ _ _ _ => false
  | .div _ _ _ _ => false
  | .rem _ _ _ _ => false
  | .and _ _ _ _ => false
  | .or _ _ _ _ => false
  | .xor _ _ _ _ => false
  | .andn _ _ _ _ => false
  | .shl _ _ _ _ => false
  | .shr _ _ _ _ => false
  | .sar _ _ _ _ => false
  | .rol _ _ _ _ => false
  | .min _ _ _ _ => false
  | .max _ _ _ _ => false
  | .clz _ _ _ => false
  | .ctz _ _ _ => false
  | .popc _ _ _ => false
  | .ext _ _ _ _ _ => false
  | .sel _ _ _ _ _ => false
  | .slt _ _ _ _ => false
  | .seq _ _ _ _ => false
  | .sne _ _ _ _ => false
  | .mov _ _ _ => false
  | .aluiAdd _ _ _ _ => false
  | .aluiAnd _ _ _ _ => false
  | .aluiOr _ _ _ _ => false
  | .aluiXor _ _ _ _ => false
  | .aluiShl _ _ _ _ => false
  | .aluiShr _ _ _ _ => false
  | .aluiSar _ _ _ _ => false
  | .aluiRol _ _ _ _ => false
  | .aluiMin _ _ _ _ => false
  | .aluiMax _ _ _ _ => false
  | .aluiSlt _ _ _ _ => false
  | .aluiSeq _ _ _ _ => false
  | .aluiSne _ _ _ _ => false
  | .li _ _ _ => false
  | .addl _ _ _ _ => false
  | .lil _ _ _ => false
  | .lih _ _ _ => false
  | .andl _ _ _ _ => false
  | .orl _ _ _ _ => false
  | .xorl _ _ _ _ => false
  | .padd _ _ _ => false
  | .paddi _ _ _ => false
  | .paddl _ _ _ => false
  | .psub _ _ _ => false
  | .plea _ _ _ => false
  | .pmov _ _ _ => false
  | .plo _ _ => false
  | .phi _ _ => false
  | .ploc _ _ _ => false
  | .pcmp _ _ _ _ => false
  | .fadd _ _ _ _ _ => false
  | .fsub _ _ _ _ _ => false
  | .fmul _ _ _ _ _ => false
  | .fma _ _ _ _ _ _ => false
  | .fnma _ _ _ _ _ _ => false
  | .fdiv _ _ _ _ _ => false
  | .fsqrt _ _ _ _ => false
  | .fmin _ _ _ _ => false
  | .fmax _ _ _ _ => false
  | .fabs _ _ _ => false
  | .fneg _ _ _ => false
  | .fcmp _ _ _ _ _ => false
  | .fcvt _ _ _ _ _ => false
  | .fclass _ _ _ => false
  | .fmovi _ _ _ => false
  | .fsgn _ _ _ _ => false
  | .beq _ _ _ _ _ => false
  | .bne _ _ _ _ _ => false
  | .blt _ _ _ _ _ => false
  | .bge _ _ _ _ _ => false
  | .bz _ _ _ _ => false
  | .bnz _ _ _ _ => false
  | .bbs _ _ _ _ => false
  | .bbc _ _ _ _ => false
  | .j _ => false
  | .jl _ => false
  | .jr _ => false
  | .call _ => false
  | .callr _ => false
  | .ret => false
  | .loop _ _ => false
  | .loopi _ _ => false
  | .lexit => false
  | .ld _ _ _ _ _ => false
  | .ldp _ _ _ _ => false
  | .ldq8 _ _ _ _ => false
  | .ldw _ _ _ _ => true
  | .ldt _ _ _ _ => false
  | .st _ _ _ _ _ => false
  | .stp _ _ _ _ => false
  | .stq8 _ _ _ _ => false
  | .stf _ _ _ _ => false
  | .aadd _ _ _ _ _ _ _ => true
  | .aand _ _ _ _ _ _ _ => true
  | .aor _ _ _ _ _ _ _ => true
  | .axor _ _ _ _ _ _ _ => true
  | .amin _ _ _ _ _ _ _ => true
  | .amax _ _ _ _ _ _ _ => true
  | .aswp _ _ _ _ _ _ _ => true
  | .acas _ _ _ _ _ _ _ => true
  | .aacc _ _ _ _ _ => true
  | .fence _ => false
  | .bind _ _ _ _ _ => false
  | .unbind _ _ _ => false
  | .acq _ _ _ => false
  | .rel _ _ _ => false
  | .send _ _ _ _ => false
  | .sendc _ _ _ _ _ => false
  | .reply _ _ _ _ => false
  | .start _ _ _ _ => true
  | .halt => false
  | .wget => false
  | .qarm => false
  | .tend => true
  | .tnext _ => true
  | .tspawn _ _ => false
  | .bread _ _ _ _ _ _ _ => false
  | .copy _ _ _ _ _ _ _ _ => false
  | .copym _ _ _ _ _ _ _ _ => false
  | .binit _ _ _ => false
  | .bexp _ _ _ => false
  | .barr _ _ _ => false
  | .bwait _ _ _ => false
  | .btest _ _ _ _ => false
  | .qinit _ _ => false
  | .qpush _ _ => false
  | .qpop _ _ => true
  | .qavail _ _ => false
  | .rot _ _ _ => true
  | .aopen _ _ _ => false
  | .asend _ _ _ _ _ => false
  | .aclose _ => false
  | .vadd _ _ _ _ _ _ => false
  | .vsub _ _ _ _ _ _ => false
  | .vmul _ _ _ _ _ _ => false
  | .vfma _ _ _ _ _ _ _ => false
  | .vfnma _ _ _ _ _ _ _ => false
  | .vmin _ _ _ _ _ => false
  | .vmax _ _ _ _ _ => false
  | .vabs _ _ _ _ => false
  | .vneg _ _ _ _ => false
  | .vand _ _ _ _ _ => false
  | .vor _ _ _ _ _ => false
  | .vxor _ _ _ _ _ => false
  | .vshl _ _ _ _ _ => false
  | .vshr _ _ _ _ _ => false
  | .vsar _ _ _ _ _ => false
  | .vmov _ _ _ => false
  | .vbcast _ _ _ _ => false
  | .vsel _ _ _ _ _ => false
  | .vidx _ _ _ _ => false
  | .vdiv _ _ _ _ _ _ => false
  | .vclamp _ _ _ _ _ _ => false
  | .vcmp _ _ _ _ _ _ => false
  | .kand _ _ _ => false
  | .kor _ _ _ => false
  | .kxor _ _ _ => false
  | .knot _ _ => false
  | .kpop _ _ => false
  | .kset _ _ _ => false
  | .kget _ _ _ => false
  | .vexp2 _ _ _ _ _ => false
  | .vlog2 _ _ _ _ _ => false
  | .vrcp _ _ _ _ _ => false
  | .vrsqrt _ _ _ _ _ => false
  | .vsqrt _ _ _ _ _ => false
  | .vsinpi _ _ _ _ _ => false
  | .vcospi _ _ _ _ _ => false
  | .vtanh _ _ _ _ _ => false
  | .vsigm _ _ _ _ _ => false
  | .verf _ _ _ _ _ => false
  | .vrsum _ _ _ _ _ => false
  | .vrmax _ _ _ _ => false
  | .vrmin _ _ _ _ => false
  | .vperm _ _ _ _ _ => false
  | .vrotl _ _ _ _ _ => false
  | .vzip _ _ _ _ _ _ => false
  | .vunzip _ _ _ _ _ _ => false
  | .vext _ _ _ _ => false
  | .vins _ _ _ _ => false
  | .vcvt _ _ _ _ _ _ _ => false
  | .vqnt _ _ _ _ _ _ => false
  | .vdqnt _ _ _ _ _ _ => false
  | .vretag _ _ _ => false
  | .vtag _ _ => false
  | .vld _ _ _ _ _ _ _ => false
  | .vst _ _ _ _ _ _ _ => false
  | .vlds _ _ _ _ _ _ => false
  | .vsts _ _ _ _ _ _ => false
  | .vgath _ _ _ _ _ _ => false
  | .vscat _ _ _ _ _ _ => false
  | .vstp _ _ _ _ => false
  | .vldw _ _ _ _ _ _ => true
  | .tlda _ _ _ _ _ _ => false
  | .tsta _ _ _ _ _ _ => true
  | .vldsc _ _ _ _ _ => false
  | .vstsc _ _ _ _ _ => false
  | .mbegin _ => false
  | .mend => false
  | .mma _ _ _ _ _ => false
  | .mzero _ => false
  | .mst _ _ _ _ _ _ => false
  | .mld _ _ _ _ => false
  | .mldt _ _ _ _ => false
  | .manch _ _ _ => false
  | .mwait => false
  | .illegalInstruction _ _ => false
  | .deviceReset | .kvecWrite | .bootDisc | .bootMap | .bootImg | .bootStage | .bootGo | .bootDiscoveryFlit | .bootMulticastFlit | .bootReport | .bootReportArrival | .spdmGetVersion | .spdmGetCapabilities | .spdmNegotiateAlgorithms | .spdmGetDigests | .spdmGetCertificate | .spdmChallenge | .spdmGetMeasurements | .wakeWrite | .wakeComplete | .podConfigWrite | .queuePollScan | .headerReread | .queueStall | .nopPacket | .launchGraph | .launchGrid | .field | .budget | .waymask | .pause | .snapshot | .restore | .signal | .waitValue | .waitValuePoll | .skip | .debugHalt | .debugResume | .debugStep | .debugReadctx | .debugWritectx | .debugReadmem | .debugWritemem | .debugSetwatch | .debugStatus | .hostMemoryAccess | .backInvalidateAnswer | .linkRetry | .linkTimeout | .remoteResponse | .forward | .drain | .evict | .fill | .budgetPeriodStart | .powerWindow | .messageArrival | .replyArrival | .strayDelivery | .helperGrant | .weightReturn | .writeOffArrival | .qarmNotice | .taintReport | .transitVisit | .pendingTake | .overflowRefill | .stealStart | .stealRequest | .stealArrival | .leaseLapseNotice | .burstArrival | .copySectorWritten | .publish | .engineFault | .matrixCommandRetire | .acnRowArrival | .acnAckArrival | .acnNakArrival | .pipeEntryLand | .pipeCreditReturn | .rotExchange | .pairIntervalEnd | .cellReset | .fenceFall | .pauseDeadline | .drainComplete | .flushComplete | .migrationRewalk | .barrierStall | .stepBlocked | .haltSignal | .freeze | .platectlCapture | .splitWrite | .swizzleWrite | .waymaskMaskWrite | .waymaskFlush | .fpctlWrite | .wdctlWrite | .mxexclWrite | .mxexclApply | .mresumeResume | .mresumeAbort | .bresumeResume | .bresumeAbort | .registerWrite | .noWorkAnswer | .secondCopyTaken | .idleTimeout | .joinStackRefill | .powerGate | .msixVectorUnmask | .hostSnoop | .badTypePacket => false

/-- An instruction of a paired context that the writes held before it must not outlast, or whose own effect must be there before the next
one: a half of it, or its Release, is complete before the context goes on (R147, R149, R150, R152), and the count of `aopen` stands when its tile is
open (R312). The interval ends before it, and it is performed once (assumption 113). -/
def Instr.needsHeld (i : Instr) : Bool :=
  let load (m : MQ) : Bool := (m.ord = .rel || m.ord = .acqrel) && m.scope ≠ .cx
  let store (m : MQ) : Bool := (m.ord = .acq || m.ord = .acqrel) && m.scope ≠ .cx
  match i with
  | .fence sc => sc ≠ .cx
  | .ld _ m _ _ _ | .ldp m _ _ _ | .ldq8 m _ _ _ | .vld _ _ m _ _ _ _ | .vlds _ m _ _ _ _ | .vgath _ m _ _ _ _ | .vldsc _ m _ _ _ => load m
  | .st _ m _ _ _ | .stp m _ _ _ | .stq8 m _ _ _ | .stf m _ _ _ | .vst _ _ m _ _ _ _ | .vsts _ m _ _ _ _ | .vscat _ m _ _ _ _ | .vstp m _ _ _
  | .vstsc _ m _ _ _ => store m
  | .bind _ _ _ _ _ | .unbind _ _ _ | .rel _ _ _ | .aopen _ _ _ => true
  | _ => false

/-- A fence at cl or wider: it empties the fetch buffer of its core (R215). -/
def Instr.refetches : Instr → Bool
  | .fence sc => sc ≠ .cx && sc ≠ .co
  | _ => false

/-- An instruction of a paired context that is performed once, by the west core, behind the agreement of the interval before it. -/
def Instr.alone (i : Instr) : Bool := i.isSync || i.needsHeld

/-- The g registers of an instruction that may run ahead of an atomic on another member's memory (R25); none for one that waits for its
value. Stores stay in order behind it in their link queue; loads and atomics have no order with it (R25, R154). -/
def Instr.ahead (i : Instr) : Option (List Nat) :=
  match i with
  | .nop => some []
  | .aadd _ _ _ d _ _ a | .aand _ _ _ d _ _ a | .aor _ _ _ d _ _ a | .axor _ _ _ d _ _ a | .amin _ _ _ d _ _ a | .amax _ _ _ d _ _ a
  | .aswp _ _ _ d _ _ a | .acas _ _ _ d _ _ a => some [d.toNat, a.toNat]
  | .aacc _ _ _ _ a => some [2 * a.toNat, 2 * a.toNat + 1]
  | .ld _ _ d _ _ => some [d.toNat]
  | .st _ _ _ _ a => some [a.toNat]
  | .ldp _ _ _ _ | .stp _ _ _ _ => some []
  | _ => none

end Sys2Proof
end

