-- ==== Sys2Proof/Machine/Rom.lean ====
section
/-! DEFINITION. The code of the boot ROM: strands S and C of the worked program of spec/16, by the encodings of spec/10 to spec/15 and with
the fill words of R210 that keep each instruction in one block of 32 bytes. Where they lie in the ROM is the model's choice (assumption 10). -/

namespace Sys2Proof.Machine

/-- Strand S: the boot ROM stub, from the base of the ROM window. -/
def romStub : List Nat := [
  0x0000_0000_2000_2211, 0x7c00_0108_0000_0000, 0x1400_4000_0000_0103, 0x0000_0003_0000_8000, 0x0000_0440_0e20_0220,
  0x0000_4440_0e20_0020, 0x0000_1f03_1800_8308, 0x0000_0503_2c00_8408, 0x0000_1f03_1801_0408, 0x0000_0a03_2c00_8508,
  0x0000_1f03_1801_4508, 0x0000_0103_0001_4508, 0x0000_0003_0851_0804, 0x0000_0003_0032_0804, 0x0000_0603_2c02_0908,
  0x0000_3f03_1802_0a08, 0x0000_0000_2000_2311, 0x7c00_0b08_0000_0400, 0x1802_401c_0000_0003, 0x0000_0003_0000_0900,
  0x0000_0003_0230_0c20, 0x0000_0800_0408_e310, 0x0000_0003_4803_0c04, 0x0000_0003_00c2_cb04, 0x0000_0003_0230_0c20,
  0x0000_0003_2ca3_0d04, 0x0000_3e00_1c03_4018, 0x0000_0103_7c00_0d08, 0x0000_0003_28a3_4d04, 0xffff_ff03_0003_4d08,
  0x0000_0003_18d3_0c04, 0x0000_0003_4803_0c04, 0x0000_0003_00c2_cb04, 0x0000_0503_2801_0d08, 0x0000_0003_1c33_4d04,
  0x0000_1d03_2803_4f08, 0x0000_0000_1403_e410, 0x0000_1403_2c00_8608, 0x0001_ff03_1801_8608, 0x0000_0103_0001_8608,
  0x0000_0003_7c00_0708, 0x0000_0a00_1801_801c, 0x0000_0800_1c00_001d, 0x0000_0003_0000_0010, 0x0000_0006_0240_0120,
  0x0000_0400_0409_2410, 0x0000_0006_0011_c704, 0x0000_2003_2c00_8608, 0x0000_1003_2803_4d08, 0x0000_0003_1cb3_4e04,
  0x0000_0406_0061_c018, 0x0080_0003_1c03_8e08, 0x0000_c000_0e23_8024, 0x0000_0800_18f3_8018, 0x0001_8440_0e20_0020,
  0x0000_0000_1403_e410, 0x0000_0000_0809_001c, 0x0000_0000_2400_0000, 0xffff_fe00_0000_001c, 0x0000_0003_0000_0003]

/-- Strand C of the boot corner: C01 to C47. -/
def romCorner1 : List Nat := [
  0x0000_0000_2000_2211, 0x0220_0220_0000_0000, 0x2c00_8508_0001_0003, 0x0000_0003_0000_0a03, 0x0000_1f03_1801_4508,
  0x0000_0103_0001_4508, 0x0000_0f03_2c00_8608, 0x0000_1f03_1801_8608, 0x0000_0103_0001_8608, 0x0000_0003_0861_4704,
  0x0000_1403_2c00_9008, 0x0001_ff03_1804_1008, 0x0000_0103_0004_1008, 0x0003_ff03_1800_9408, 0x0000_1d03_2805_1508,
  0x0000_0003_6000_8804, 0x0000_0103_7c00_0308, 0x0000_b000_0c00_001c, 0x0001_ff03_0001_c408, 0x0000_0903_2c01_0408,
  0x0000_0000_2000_2311, 0x7c00_0308_0000_0400, 0x1801_001c_0000_0203, 0x0000_0003_0000_0900, 0x0000_0000_0a30_0820,
  0x0000_4000_0408_e310, 0x0000_9e00_0c00_001c, 0x0000_1003_0000_c308, 0x0000_0000_1405_6410, 0x0000_0303_7c00_0308,
  0x0000_0800_1804_001c, 0x0000_0000_0a40_0820, 0x0000_4000_0409_2410, 0x0000_9000_0c00_001c, 0x0000_1003_0000_c308,
  0x0000_0000_1405_6410, 0x0000_0003_7c00_1108, 0x0000_0a00_1804_001c, 0x0000_0800_1c00_001d, 0x0000_0003_0000_0010,
  0x0000_0006_0240_1220, 0x0000_0400_0409_2410, 0x0000_0006_0124_5104, 0x0000_1f03_1800_8908, 0x0000_0503_2c00_8a08,
  0x0000_1f03_1802_8a08, 0x0000_0003_0852_8a04, 0x0000_0003_0092_8a04, 0x0000_0603_2c02_8908, 0x0000_3f03_1802_8a08,
  0x0000_0000_2000_2311, 0x0000_0003_0000_0400, 0x0000_0003_7c00_0b08, 0x0000_0800_1802_401c, 0x0000_0003_0230_0c20]

/-- Strand C: the rest. -/
def romCorner2 : List Nat := [
  0x0000_0800_0408_e310, 0x0000_0003_4803_0c04, 0x0000_0003_00c2_cb04, 0x0000_0003_0230_0c20, 0x0000_0103_7c00_0d08,
  0x0000_0003_28a3_4d04, 0xffff_ff03_0003_4d08, 0x0000_0003_18d3_0c04, 0x0000_0003_4803_0c04, 0x0000_0003_00c2_cb04,
  0x0000_1003_2805_1308, 0x0000_0003_1cb4_d304, 0x0000_2003_2c00_9208, 0x0000_0406_0124_4018, 0x0080_0003_1c04_d308,
  0x0000_c000_0e24_c024, 0x0000_3f03_0001_d108, 0x0000_0603_2c04_5108, 0x0000_0000_2000_2311, 0x7c00_1208_0000_0400,
  0x0000_0003_0000_0003, 0x0000_0800_1804_401c, 0x0000_0003_0230_0c20, 0x0000_0800_0408_e310, 0x0000_0003_4803_0c04,
  0x0000_0003_00c4_9204, 0x0000_0000_2000_2311, 0x7c00_1608_0000_0800, 0x0000_0003_0000_0003, 0x0000_0a00_1804_801c,
  0x0000_0000_0e30_0c20, 0x0000_0600_1cf3_0018, 0x0000_0403_1405_8018, 0x0000_0003_6003_1604, 0x0000_0800_0408_e310,
  0x0000_1003_1405_8018, 0x0000_0503_7c00_0308, 0x0000_1a00_0c00_001c, 0x0000_0403_7c00_0808, 0x0000_0403_7c00_0308,
  0x0000_1400_0c00_001c, 0x0000_0000_1405_6410, 0x0000_0000_0809_001c, 0x0000_0003_0c05_880d, 0x0000_0003_03ff_0000,
  0x0000_0a03_1c02_0808, 0x0000_0403_7c00_0308, 0x0000_0600_0c00_001c, 0x0000_0000_2400_0000, 0xffff_fe00_0000_001c,
  0x0004_0000_0a22_0024, 0x0002_0000_0e20_c024, 0x0000_8000_0e20_0020, 0x0000_0000_1400_001c]

/-- The ROM by little-endian words of 64 bits; the rest of its 64 KiB is zero. -/
def romWords : List Nat := romStub ++ romCorner1 ++ romCorner2

/-- The offset of strand C in the ROM. -/
def romCornerAt : Nat := 480

/-- A byte of the ROM. -/
def romByte (off : Nat) : Byte := BitVec.ofNat 8 (romWords.getD (off / 8) 0 / 256 ^ (off % 8))

end Sys2Proof.Machine
end

