-- ==== Sys2Proof/Decode.lean ====
section
/-! DEFINITION. Decoding and encoding (spec/10 R210 to R224, and the field rows of spec/12 to spec/15). -/

namespace Sys2Proof

/-- The fields of one instruction (R216). `hi` is bits 63:40 of the first 64 bits; `ext` is the payload above
them, EXT32 zero-extended in the L format, and zero in the 64-bit formats. -/
structure Raw where
  len : BitVec 2
  maj : BitVec 6
  d : BitVec 6
  a : BitVec 6
  b : BitVec 6
  min : BitVec 6
  ty : BitVec 4
  q : BitVec 4
  hi : BitVec 24
  ext : BitVec 64
  deriving DecidableEq, Repr

/-- How many bytes LEN gives an instruction; 11 counts four (R210, R270). -/
def lenBytes (l : BitVec 2) : Nat :=
  match l.toNat with
  | 0 => 8
  | 1 => 12
  | 2 => 16
  | _ => 4

/-- The fields of the instruction whose first bits are `w`; what lies above its length is not read. -/
def Raw.ofWord (w : BitVec 128) : Raw where
  len := w.extractLsb' 0 2
  maj := w.extractLsb' 2 6
  d := w.extractLsb' 8 6
  a := w.extractLsb' 14 6
  b := w.extractLsb' 20 6
  min := w.extractLsb' 26 6
  ty := w.extractLsb' 32 4
  q := w.extractLsb' 36 4
  hi := w.extractLsb' 40 24
  ext :=
    if w.extractLsb' 0 2 = 2 then w.extractLsb' 64 64
    else if w.extractLsb' 0 2 = 1 then (w.extractLsb' 64 32).setWidth 64
    else 0

/-- The first 64 bits of an instruction, which TRAPVAL holds for an illegal one (R213). -/
def Raw.low (r : Raw) : BitVec 64 :=
  r.hi ++ r.q ++ r.ty ++ r.min ++ r.b ++ r.a ++ r.d ++ r.maj ++ r.len

/-- The bits of an instruction, the first word lowest. -/
def Raw.toWord (r : Raw) : BitVec 128 := r.ext ++ r.low

/-! ### Codes of the named fields (R218 to R220) -/

/-- TY (R219). -/
def Ty.ofCode (c : BitVec 4) : Ty :=
  match c.toNat with
  | 0 => .i8 | 1 => .i16 | 2 => .i32 | 3 => .i64
  | 4 => .n8 | 5 => .n16 | 6 => .n32 | 7 => .n64
  | 8 => .f32 | 9 => .f16 | 10 => .bf16 | 11 => .e4m3
  | 12 => .e5m2 | 13 => .e3m2 | 14 => .e2m3 | _ => .e2m1

def Ty.code : Ty → BitVec 4
  | .i8 => 0 | .i16 => 1 | .i32 => 2 | .i64 => 3
  | .n8 => 4 | .n16 => 5 | .n32 => 6 | .n64 => 7
  | .f32 => 8 | .f16 => 9 | .bf16 => 10 | .e4m3 => 11
  | .e5m2 => 12 | .e3m2 => 13 | .e2m3 => 14 | .e2m1 => 15

/-- SCOPE (R220). -/
def Scope.ofCode (c : BitVec 3) : Scope :=
  match c.toNat with
  | 0 => .cx | 1 => .co | 2 => .cl | 3 => .fd | 4 => .dv | 5 => .nd | 6 => .pd | _ => .sy

def Scope.code : Scope → BitVec 3
  | .cx => 0 | .co => 1 | .cl => 2 | .fd => 3 | .dv => 4 | .nd => 5 | .pd => 6 | .sy => 7

def Kind.code : Kind → BitVec 2
  | .none => 0 | .mx => 1 | .ws => 2

/-- The scaling kind of a two-bit field; 3 is illegal (R169). -/
def kind2? (c : BitVec 2) : Option Kind :=
  match c.toNat with
  | 0 => some .none
  | 1 => some .mx
  | 2 => some .ws
  | _ => none

/-- A field that must name a g register (R218). -/
def gReg? (f : BitVec 6) : Option GReg := if f.toNat < 32 then some (f.setWidth 5) else none
def gEnc (r : GReg) : BitVec 6 := r.setWidth 6

/-- A field that must name a p register. -/
def pReg? (f : BitVec 6) : Option PReg :=
  if 32 ≤ f.toNat ∧ f.toNat < 48 then some (f.setWidth 4) else none
def pEnc (r : PReg) : BitVec 6 := 2#2 ++ r

/-- A field that must name a v register. -/
def vReg? (f : BitVec 6) : Option VReg := if 48 ≤ f.toNat then some (f.setWidth 4) else none
def vEnc (r : VReg) : BitVec 6 := 3#2 ++ r

/-- The A field of `pmov`: a g register, or a p register (R258). -/
def gpReg? (f : BitVec 6) : Option (Bool × GReg) :=
  if f.toNat < 32 then some (true, f.setWidth 5)
  else if f.toNat < 48 then some (false, (f.setWidth 4).setWidth 5) else none
def gpEnc (fromG : Bool) (a : GReg) : BitVec 6 := if fromG then a.setWidth 6 else 2#2 ++ a.setWidth 4

/-- A mask number, or a part, in bits 2:0 with zero above (R319, R327). -/
def kField? (f : BitVec 6) : Option (BitVec 3) := if f.toNat < 8 then some (f.setWidth 3) else none
def kEnc (k : BitVec 3) : BitVec 6 := k.setWidth 6

/-- An accumulator tile in bits 1:0 with zero above (R218). -/
def accField? (f : BitVec 6) : Option AccReg := if f.toNat < 4 then some (f.setWidth 2) else none
def accEnc (a : AccReg) : BitVec 6 := a.setWidth 6

/-- A four-bit number with zero above: the count of `tlda` and `tsta` (R334). -/
def raw4? (f : BitVec 6) : Option (BitVec 4) := if f.toNat < 16 then some (f.setWidth 4) else none
def raw4Enc (n : BitVec 4) : BitVec 6 := n.setWidth 6

/-- A second type in C[3:0] (R265, R328). -/
def tyField? (f : BitVec 6) : Option Ty := if f.toNat < 16 then some (Ty.ofCode (f.setWidth 4)) else none
def tyEnc (t : Ty) : BitVec 6 := t.code.setWidth 6

/-- g0, g8, g16 or g24 (`ldq8`, `stq8`; R274). -/
def g8? (f : BitVec 6) : Option (BitVec 2) :=
  if f.toNat < 32 ∧ f.toNat % 8 = 0 then some (f.extractLsb' 3 2) else none
def g8Enc (g : BitVec 2) : BitVec 6 := 0#1 ++ g ++ 0#3

/-- An even g register (`aacc`; R281). -/
def g2? (f : BitVec 6) : Option (BitVec 4) :=
  if f.toNat < 32 ∧ f.toNat % 2 = 0 then some (f.extractLsb' 1 4) else none
def g2Enc (g : BitVec 4) : BitVec 6 := 0#1 ++ g ++ 0#1

/-- One bit with zero above: the half of `vzip` and `vunzip` (R326). -/
def bitField? (f : BitVec 6) : Option Bool := if f.toNat < 2 then some (f = 1) else none
def bitEnc (b : Bool) : BitVec 6 := if b then 1 else 0

/-- A scaling kind in bits 1:0 with zero above (R329, R332). -/
def kindField? (f : BitVec 6) : Option Kind := if f.toNat < 4 then kind2? (f.setWidth 2) else none
def kindEnc (k : Kind) : BitVec 6 := k.code.setWidth 6

/-- The *sel* field: mask, kind and a zero bit (R332). -/
def sel? (f : BitVec 6) : Option (Kind × KReg) :=
  if f.toNat < 32 then (kind2? (f.extractLsb' 3 2)).map fun k => (k, f.setWidth 3) else none
def selEnc (k : Kind) (m : KReg) : BitVec 6 := 0#1 ++ k.code ++ m

/-- A *sel* field whose mask is 0 (`vldw`). -/
def kindSel0? (f : BitVec 6) : Option Kind :=
  if f.toNat < 32 ∧ f.toNat % 8 = 0 then kind2? (f.extractLsb' 3 2) else none

/-- Q of the float class (R220). -/
def fq? (q : BitVec 4) : Option FQ :=
  match q.toNat % 8 with
  | 0 => some ⟨.rne, q.toNat / 8 = 1⟩
  | 1 => some ⟨.rtz, q.toNat / 8 = 1⟩
  | 2 => some ⟨.rdn, q.toNat / 8 = 1⟩
  | 3 => some ⟨.rup, q.toNat / 8 = 1⟩
  | 4 => some ⟨.rna, q.toNat / 8 = 1⟩
  | 5 => some ⟨.sr, q.toNat / 8 = 1⟩
  | 6 => some ⟨.dyn, q.toNat / 8 = 1⟩
  | _ => none

def Rm.code : Rm → BitVec 3
  | .rne => 0 | .rtz => 1 | .rdn => 2 | .rup => 3 | .rna => 4 | .sr => 5 | .dyn => 6

def fqEnc (q : FQ) : BitVec 4 := BitVec.ofBool q.sat ++ q.rm.code

/-- Q of the condition class. -/
def cond? (q : BitVec 4) : Option Cond :=
  match q.toNat with
  | 0 => some .eq | 1 => some .ne | 2 => some .lt | 3 => some .le | 4 => some .gt | 5 => some .ge | 6 => some .un
  | _ => none

def condEnc : Cond → BitVec 4
  | .eq => 0 | .ne => 1 | .lt => 2 | .le => 3 | .gt => 4 | .ge => 5 | .un => 6

/-- Q of the branch class. -/
def brh? (q : BitVec 4) : Option BrHint :=
  match q.toNat with
  | 0 => some .static | 1 => some .tk | 2 => some .nt
  | _ => none

def brhEnc : BrHint → BitVec 4
  | .static => 0 | .tk => 1 | .nt => 2

def Ord.ofCode (c : Nat) : Ord :=
  match c with
  | 0 => .rlx | 1 => .acq | 2 => .rel | _ => .acqrel

def ordEnc : Ord → BitVec 4
  | .rlx => 0 | .acq => 4 | .rel => 8 | .acqrel => 12

/-- Q of the order class. -/
def ordQ? (q : BitVec 4) : Option Ord := if q.toNat % 4 = 0 then some (Ord.ofCode (q.toNat / 4)) else none

def hint2? (c : Nat) : Option Hint :=
  match c with
  | 0 => some .normal | 1 => some .strm | 2 => some .keep
  | _ => none

def hintEnc : Hint → BitVec 4
  | .normal => 0 | .strm => 1 | .keep => 2

/-- Q of `tlda` and `tsta`: a hint with 00 above (R334). -/
def hintQ? (q : BitVec 4) : Option Hint := if q.toNat < 4 then hint2? q.toNat else none

/-- Q of the memory class, with the scope of bits 42:40. -/
def mq? (q : BitVec 4) (s : BitVec 3) : Option MQ :=
  (hint2? (q.toNat % 4)).map fun h => ⟨Ord.ofCode (q.toNat / 4), h, Scope.ofCode s⟩
def mqEnc (m : MQ) : BitVec 4 := ordEnc m.ord ||| hintEnc m.hint

/-! ### Bits 63:40 by format (R216, R217) -/

def hiC (h : BitVec 24) : BitVec 6 := h.extractLsb' 0 6
def hiK (h : BitVec 24) : BitVec 3 := h.extractLsb' 6 3
def hiZ (h : BitVec 24) : BitVec 15 := h.extractLsb' 9 15
def hiR (k : BitVec 3) (c : BitVec 6) : BitVec 24 := 0#15 ++ k ++ c
def hiScope (h : BitVec 24) : BitVec 3 := h.extractLsb' 0 3
def hiOff (h : BitVec 24) : BitVec 21 := h.extractLsb' 3 21
def hiM (off : BitVec 21) (s : BitVec 3) : BitVec 24 := off ++ s

/-- IMM24 that holds a number of 12, 8 or 16 bits with zero above (R354, R258, R340). -/
def num? (h : BitVec 24) : Option (BitVec 12) := if h.toNat < 4096 then some (h.setWidth 12) else none
def imm8? (h : BitVec 24) : Option Byte := if h.toNat < 256 then some (h.setWidth 8) else none
def imm16? (h : BitVec 24) : Option (BitVec 16) := if h.toNat < 65536 then some (h.setWidth 16) else none

/-! ### Operands of the message group and of `mma` (R285, R288, R290, R337) -/

/-- The object and scope of `send`, `sendc` and `reply`: ORD rlx with B and scope zero, or ORD rel with a p register. -/
def obj? (q : BitVec 4) (b : BitVec 6) (s : BitVec 3) : Option (Option (PReg × Scope)) :=
  if q = 0 ∧ b = 0 ∧ s = 0 then some none
  else if q = 8 then (pReg? b).map fun p => some (p, Scope.ofCode s)
  else none

def objQ : Option (PReg × Scope) → BitVec 4
  | none => 0
  | some _ => 8
def objB : Option (PReg × Scope) → BitVec 6
  | none => 0
  | some o => pEnc o.1
def objS : Option (PReg × Scope) → BitVec 3
  | none => 0
  | some o => o.2.code

/-- An entry offset: bits 1:0 and 31:24 zero (R288). -/
def entry? (e : BitVec 32) : Option (BitVec 22) :=
  if e.toNat % 4 = 0 ∧ e.toNat < 2 ^ 24 then some (e.extractLsb' 2 22) else none
def entry32 (e : BitVec 22) : BitVec 64 := 0#40 ++ e ++ 0#2

/-- EXT64 of `sendc`: LEN in units of four bytes, and the scope (R290). -/
def sendcExt? (x : BitVec 64) : Option (BitVec 4 × BitVec 3) :=
  if x.extractLsb' 0 2 = 0 ∧ x.extractLsb' 6 2 = 0 ∧ x.extractLsb' 11 53 = 0 then
    some (x.extractLsb' 2 4, x.extractLsb' 8 3)
  else none
def sendcExt (len : BitVec 4) (s : BitVec 3) : BitVec 64 := 0#53 ++ s ++ 0#2 ++ len ++ 0#2

/-- The scale pointer of `mma`: a p register, or a zero field. -/
def optP? (f : BitVec 6) : Option (Option PReg) := if f = 0 then some none else (pReg? f).map some
def optPEnc : Option PReg → BitVec 6
  | none => 0
  | some p => pEnc p

/-! ### The opcode map (R222) -/

/-- Group SYS, MAJ 0 (R222). -/
def decodeSys (r : Raw) : Option Instr :=
    match r.min.toNat with
    | 0 => if r.len = 0 then some (.udf r.d r.a r.b r.ty r.q r.hi) else none
    | 1 => if r.len = 0 ∧ r.d = 0 ∧ r.a = 0 ∧ r.b = 0 ∧ r.ty = 0 ∧ r.q = 0 ∧ r.hi = 0 then do
        some (.nop)
      else none
    | 2 => if r.len = 0 ∧ r.d = 0 ∧ r.a = 0 ∧ r.b = 0 ∧ r.ty = 0 ∧ r.q = 0 then do
        let imm := r.hi
        some (.trap imm)
      else none
    | 3 => if r.len = 0 ∧ r.d = 0 ∧ r.b = 0 ∧ r.ty = 0 ∧ r.q = 0 ∧ hiZ r.hi = 0 ∧ hiK r.hi = 0 then do
        let a ← gReg? r.a
        match (hiC r.hi).toNat with
        | 0 => some (.eretResume a false)
        | 4 => some (.eretResume a true)
        | 1 => some (.eretSkip a)
        | 2 => some (.eretForward a)
        | 3 => some (.eretEnd a)
        | _ => none
      else none
    | 4 => if r.len = 0 ∧ r.a = 0 ∧ r.b = 0 ∧ r.ty = 0 ∧ r.q = 0 then do
        let d ← gReg? r.d
        let num ← num? r.hi
        some (.sysr d num)
      else none
    | 5 => if r.len = 0 ∧ r.d = 0 ∧ r.b = 0 ∧ r.ty = 0 ∧ r.q = 0 then do
        let num ← num? r.hi
        let a ← gReg? r.a
        some (.sysw num a)
      else none
    | 6 => if r.len = 0 ∧ r.b = 0 ∧ r.ty = 0 ∧ r.q = 0 then do
        let d ← gReg? r.d
        let num ← num? r.hi
        let a ← gReg? r.a
        some (.sysset d num a)
      else none
    | 7 => if r.len = 0 ∧ r.b = 0 ∧ r.ty = 0 ∧ r.q = 0 then do
        let d ← gReg? r.d
        let num ← num? r.hi
        let a ← gReg? r.a
        some (.sysclr d num a)
      else none
    | 8 => if r.len = 0 ∧ r.d = 0 ∧ r.a = 0 ∧ r.b = 0 ∧ r.ty = 0 ∧ r.q = 0 ∧ r.hi = 0 then do
        some (.chkerr)
      else none
    | 9 => if r.len = 0 ∧ r.b = 0 ∧ r.ty = 0 ∧ r.q = 0 ∧ r.hi = 0 then do
        let d ← gReg? r.d
        let a ← gReg? r.a
        some (.idle d a)
      else none
    | 10 => if r.len = 0 ∧ r.d = 0 ∧ r.ty = 0 ∧ r.q = 0 ∧ hiZ r.hi = 0 ∧ hiK r.hi = 0 then do
        let a ← pReg? r.a
        let b ← gReg? r.b
        match (hiC r.hi).toNat with
        | 3 => some (.tlbinv a b false)
        | 4 => some (.tlbinv a b true)
        | _ => none
      else none
    | 11 => if r.len = 0 ∧ r.a = 0 ∧ r.b = 0 ∧ r.ty = 0 ∧ r.q = 0 ∧ r.hi = 0 then do
        let d ← gReg? r.d
        some (.pair d)
      else none
    | 12 => if r.len = 0 ∧ r.a = 0 ∧ r.b = 0 ∧ r.ty = 0 ∧ r.q = 0 ∧ r.hi = 0 then do
        let d ← gReg? r.d
        some (.unpair d)
      else none
    | 13 => if r.len = 0 ∧ r.d = 0 ∧ r.b = 0 ∧ r.ty = 0 ∧ r.q = 0 ∧ r.hi = 0 then do
        let a ← gReg? r.a
        some (.haltx a)
      else none
    | 14 => if r.len = 0 ∧ r.d = 0 ∧ r.b = 0 ∧ r.ty = 0 ∧ r.q = 0 ∧ r.hi = 0 then do
        let a ← gReg? r.a
        some (.resumex a)
      else none
    | 15 => if r.len = 0 ∧ r.b = 0 ∧ r.ty = 0 ∧ r.q = 0 ∧ r.hi = 0 then do
        let d ← gReg? r.d
        let a ← gReg? r.a
        some (.stepx d a)
      else none
    | 16 => if r.len = 0 ∧ r.a = 0 ∧ r.b = 0 ∧ r.ty = 0 ∧ r.q = 0 ∧ r.hi = 0 then do
        let d ← gReg? r.d
        some (.rdcyc d)
      else none
    | _ => none

/-- Group ALU, MAJ 1 (R222). -/
def decodeAlu (r : Raw) : Option Instr :=
    match r.min.toNat with
    | 0 => if r.len = 0 ∧ r.q = 0 ∧ r.hi = 0 then do
        let ty := Ty.ofCode r.ty
        let d ← gReg? r.d
        let a ← gReg? r.a
        let b ← gReg? r.b
        some (.add ty d a b)
      else none
    | 1 => if r.len = 0 ∧ r.q = 0 ∧ r.hi = 0 then do
        let ty := Ty.ofCode r.ty
        let d ← gReg? r.d
        let a ← gReg? r.a
        let b ← gReg? r.b
        some (.sub ty d a b)
      else none
    | 2 => if r.len = 0 ∧ r.q = 0 ∧ r.hi = 0 then do
        let ty := Ty.ofCode r.ty
        let d ← gReg? r.d
        let a ← gReg? r.a
        let b ← gReg? r.b
        some (.mul ty d a b)
      else none
    | 3 => if r.len = 0 ∧ r.q = 0 ∧ r.hi = 0 then do
        let ty := Ty.ofCode r.ty
        let d ← gReg? r.d
        let a ← gReg? r.a
        let b ← gReg? r.b
        some (.mulh ty d a b)
      else none
    | 4 => if r.len = 0 ∧ r.q = 0 ∧ r.hi = 0 then do
        let ty := Ty.ofCode r.ty
        let d ← gReg? r.d
        let a ← gReg? r.a
        let b ← gReg? r.b
        some (.div ty d a b)
      else none
    | 5 => if r.len = 0 ∧ r.q = 0 ∧ r.hi = 0 then do
        let ty := Ty.ofCode r.ty
        let d ← gReg? r.d
        let a ← gReg? r.a
        let b ← gReg? r.b
        some (.rem ty d a b)
      else none
    | 6 => if r.len = 0 ∧ r.q = 0 ∧ r.hi = 0 then do
        let ty := Ty.ofCode r.ty
        let d ← gReg? r.d
        let a ← gReg? r.a
        let b ← gReg? r.b
        some (.and ty d a b)
      else none
    | 7 => if r.len = 0 ∧ r.q = 0 ∧ r.hi = 0 then do
        let ty := Ty.ofCode r.ty
        let d ← gReg? r.d
        let a ← gReg? r.a
        let b ← gReg? r.b
        some (.or ty d a b)
      else none
    | 8 => if r.len = 0 ∧ r.q = 0 ∧ r.hi = 0 then do
        let ty := Ty.ofCode r.ty
        let d ← gReg? r.d
        let a ← gReg? r.a
        let b ← gReg? r.b
        some (.xor ty d a b)
      else none
    | 9 => if r.len = 0 ∧ r.q = 0 ∧ r.hi = 0 then do
        let ty := Ty.ofCode r.ty
        let d ← gReg? r.d
        let a ← gReg? r.a
        let b ← gReg? r.b
        some (.andn ty d a b)
      else none
    | 10 => if r.len = 0 ∧ r.q = 0 ∧ r.hi = 0 then do
        let ty := Ty.ofCode r.ty
        let d ← gReg? r.d
        let a ← gReg? r.a
        let b ← gReg? r.b
        some (.shl ty d a b)
      else none
    | 11 => if r.len = 0 ∧ r.q = 0 ∧ r.hi = 0 then do
        let ty := Ty.ofCode r.ty
        let d ← gReg? r.d
        let a ← gReg? r.a
        let b ← gReg? r.b
        some (.shr ty d a b)
      else none
    | 12 => if r.len = 0 ∧ r.q = 0 ∧ r.hi = 0 then do
        let ty := Ty.ofCode r.ty
        let d ← gReg? r.d
        let a ← gReg? r.a
        let b ← gReg? r.b
        some (.sar ty d a b)
      else none
    | 13 => if r.len = 0 ∧ r.q = 0 ∧ r.hi = 0 then do
        let ty := Ty.ofCode r.ty
        let d ← gReg? r.d
        let a ← gReg? r.a
        let b ← gReg? r.b
        some (.rol ty d a b)
      else none
    | 14 => if r.len = 0 ∧ r.q = 0 ∧ r.hi = 0 then do
        let ty := Ty.ofCode r.ty
        let d ← gReg? r.d
        let a ← gReg? r.a
        let b ← gReg? r.b
        some (.min ty d a b)
      else none
    | 15 => if r.len = 0 ∧ r.q = 0 ∧ r.hi = 0 then do
        let ty := Ty.ofCode r.ty
        let d ← gReg? r.d
        let a ← gReg? r.a
        let b ← gReg? r.b
        some (.max ty d a b)
      else none
    | 16 => if r.len = 0 ∧ r.b = 0 ∧ r.q = 0 ∧ r.hi = 0 then do
        let ty := Ty.ofCode r.ty
        let d ← gReg? r.d
        let a ← gReg? r.a
        some (.clz ty d a)
      else none
    | 17 => if r.len = 0 ∧ r.b = 0 ∧ r.q = 0 ∧ r.hi = 0 then do
        let ty := Ty.ofCode r.ty
        let d ← gReg? r.d
        let a ← gReg? r.a
        some (.ctz ty d a)
      else none
    | 18 => if r.len = 0 ∧ r.b = 0 ∧ r.q = 0 ∧ r.hi = 0 then do
        let ty := Ty.ofCode r.ty
        let d ← gReg? r.d
        let a ← gReg? r.a
        some (.popc ty d a)
      else none
    | 19 => if r.len = 0 ∧ r.q = 0 ∧ hiZ r.hi = 0 ∧ hiK r.hi = 0 then do
        let ty := Ty.ofCode r.ty
        let d ← gReg? r.d
        let a ← gReg? r.a
        let b ← gReg? r.b
        let c ← gReg? (hiC r.hi)
        some (.ext ty d a b c)
      else none
    | 20 => if r.len = 0 ∧ r.q = 0 ∧ hiZ r.hi = 0 ∧ hiK r.hi = 0 then do
        let ty := Ty.ofCode r.ty
        let d ← gReg? r.d
        let a ← gReg? r.a
        let b ← gReg? r.b
        let c ← gReg? (hiC r.hi)
        some (.sel ty d a b c)
      else none
    | 21 => if r.len = 0 ∧ r.q = 0 ∧ r.hi = 0 then do
        let ty := Ty.ofCode r.ty
        let d ← gReg? r.d
        let a ← gReg? r.a
        let b ← gReg? r.b
        some (.slt ty d a b)
      else none
    | 22 => if r.len = 0 ∧ r.q = 0 ∧ r.hi = 0 then do
        let ty := Ty.ofCode r.ty
        let d ← gReg? r.d
        let a ← gReg? r.a
        let b ← gReg? r.b
        some (.seq ty d a b)
      else none
    | 23 => if r.len = 0 ∧ r.q = 0 ∧ r.hi = 0 then do
        let ty := Ty.ofCode r.ty
        let d ← gReg? r.d
        let a ← gReg? r.a
        let b ← gReg? r.b
        some (.sne ty d a b)
      else none
    | 24 => if r.len = 0 ∧ r.b = 0 ∧ r.q = 0 ∧ r.hi = 0 then do
        let ty := Ty.ofCode r.ty
        let d ← gReg? r.d
        let a ← gReg? r.a
        some (.mov ty d a)
      else none
    | _ => none

/-- Group ALUI, MAJ 2 (R222). -/
def decodeAlui (r : Raw) : Option Instr :=
    match r.min.toNat with
    | 0 => if r.len = 0 ∧ r.b = 0 ∧ r.q = 0 then do
        let ty := Ty.ofCode r.ty
        let d ← gReg? r.d
        let a ← gReg? r.a
        let imm := r.hi
        some (.aluiAdd ty d a imm)
      else none
    | 6 => if r.len = 0 ∧ r.b = 0 ∧ r.q = 0 then do
        let ty := Ty.ofCode r.ty
        let d ← gReg? r.d
        let a ← gReg? r.a
        let imm := r.hi
        some (.aluiAnd ty d a imm)
      else none
    | 7 => if r.len = 0 ∧ r.b = 0 ∧ r.q = 0 then do
        let ty := Ty.ofCode r.ty
        let d ← gReg? r.d
        let a ← gReg? r.a
        let imm := r.hi
        some (.aluiOr ty d a imm)
      else none
    | 8 => if r.len = 0 ∧ r.b = 0 ∧ r.q = 0 then do
        let ty := Ty.ofCode r.ty
        let d ← gReg? r.d
        let a ← gReg? r.a
        let imm := r.hi
        some (.aluiXor ty d a imm)
      else none
    | 10 => if r.len = 0 ∧ r.b = 0 ∧ r.q = 0 then do
        let ty := Ty.ofCode r.ty
        let d ← gReg? r.d
        let a ← gReg? r.a
        let imm := r.hi
        some (.aluiShl ty d a imm)
      else none
    | 11 => if r.len = 0 ∧ r.b = 0 ∧ r.q = 0 then do
        let ty := Ty.ofCode r.ty
        let d ← gReg? r.d
        let a ← gReg? r.a
        let imm := r.hi
        some (.aluiShr ty d a imm)
      else none
    | 12 => if r.len = 0 ∧ r.b = 0 ∧ r.q = 0 then do
        let ty := Ty.ofCode r.ty
        let d ← gReg? r.d
        let a ← gReg? r.a
        let imm := r.hi
        some (.aluiSar ty d a imm)
      else none
    | 13 => if r.len = 0 ∧ r.b = 0 ∧ r.q = 0 then do
        let ty := Ty.ofCode r.ty
        let d ← gReg? r.d
        let a ← gReg? r.a
        let imm := r.hi
        some (.aluiRol ty d a imm)
      else none
    | 14 => if r.len = 0 ∧ r.b = 0 ∧ r.q = 0 then do
        let ty := Ty.ofCode r.ty
        let d ← gReg? r.d
        let a ← gReg? r.a
        let imm := r.hi
        some (.aluiMin ty d a imm)
      else none
    | 15 => if r.len = 0 ∧ r.b = 0 ∧ r.q = 0 then do
        let ty := Ty.ofCode r.ty
        let d ← gReg? r.d
        let a ← gReg? r.a
        let imm := r.hi
        some (.aluiMax ty d a imm)
      else none
    | 21 => if r.len = 0 ∧ r.b = 0 ∧ r.q = 0 then do
        let ty := Ty.ofCode r.ty
        let d ← gReg? r.d
        let a ← gReg? r.a
        let imm := r.hi
        some (.aluiSlt ty d a imm)
      else none
    | 22 => if r.len = 0 ∧ r.b = 0 ∧ r.q = 0 then do
        let ty := Ty.ofCode r.ty
        let d ← gReg? r.d
        let a ← gReg? r.a
        let imm := r.hi
        some (.aluiSeq ty d a imm)
      else none
    | 23 => if r.len = 0 ∧ r.b = 0 ∧ r.q = 0 then do
        let ty := Ty.ofCode r.ty
        let d ← gReg? r.d
        let a ← gReg? r.a
        let imm := r.hi
        some (.aluiSne ty d a imm)
      else none
    | 31 => if r.len = 0 ∧ r.a = 0 ∧ r.b = 0 ∧ r.q = 0 then do
        let ty := Ty.ofCode r.ty
        let d ← gReg? r.d
        let imm := r.hi
        some (.li ty d imm)
      else none
    | _ => none

/-- Group ALUL, MAJ 3 (R222). -/
def decodeAlul (r : Raw) : Option Instr :=
    match r.min.toNat with
    | 0 => if r.len = 1 ∧ r.b = 0 ∧ r.q = 0 ∧ r.hi = 0 then do
        let ty := Ty.ofCode r.ty
        let d ← gReg? r.d
        let a ← gReg? r.a
        let imm := r.ext.setWidth 32
        some (.addl ty d a imm)
      else none
    | 1 => if r.len = 1 ∧ r.a = 0 ∧ r.b = 0 ∧ r.q = 0 ∧ r.hi = 0 then do
        let ty := Ty.ofCode r.ty
        let d ← gReg? r.d
        let imm := r.ext.setWidth 32
        some (.lil ty d imm)
      else none
    | 2 => if r.len = 1 ∧ r.ty = Ty.code .i64 ∧ r.b = 0 ∧ r.q = 0 ∧ r.hi = 0 then do
        let d ← gReg? r.d
        let a ← gReg? r.a
        let imm := r.ext.setWidth 32
        some (.lih d a imm)
      else none
    | 3 => if r.len = 1 ∧ r.b = 0 ∧ r.q = 0 ∧ r.hi = 0 then do
        let ty := Ty.ofCode r.ty
        let d ← gReg? r.d
        let a ← gReg? r.a
        let imm := r.ext.setWidth 32
        some (.andl ty d a imm)
      else none
    | 4 => if r.len = 1 ∧ r.b = 0 ∧ r.q = 0 ∧ r.hi = 0 then do
        let ty := Ty.ofCode r.ty
        let d ← gReg? r.d
        let a ← gReg? r.a
        let imm := r.ext.setWidth 32
        some (.orl ty d a imm)
      else none
    | 5 => if r.len = 1 ∧ r.b = 0 ∧ r.q = 0 ∧ r.hi = 0 then do
        let ty := Ty.ofCode r.ty
        let d ← gReg? r.d
        let a ← gReg? r.a
        let imm := r.ext.setWidth 32
        some (.xorl ty d a imm)
      else none
    | _ => none

/-- Group ADR, MAJ 4 (R222). -/
def decodeAdr (r : Raw) : Option Instr :=
    match r.min.toNat with
    | 0 => if r.len = 0 ∧ r.ty = 0 ∧ r.q = 0 ∧ r.hi = 0 then do
        let d ← pReg? r.d
        let a ← pReg? r.a
        let b ← gReg? r.b
        some (.padd d a b)
      else none
    | 1 => if r.len = 0 ∧ r.b = 0 ∧ r.ty = 0 ∧ r.q = 0 then do
        let d ← pReg? r.d
        let a ← pReg? r.a
        let imm := r.hi
        some (.paddi d a imm)
      else none
    | 2 => if r.len = 1 ∧ r.b = 0 ∧ r.ty = 0 ∧ r.q = 0 ∧ r.hi = 0 then do
        let d ← pReg? r.d
        let a ← pReg? r.a
        let imm := r.ext.setWidth 32
        some (.paddl d a imm)
      else none
    | 3 => if r.len = 0 ∧ r.ty = 0 ∧ r.q = 0 ∧ r.hi = 0 then do
        let d ← gReg? r.d
        let a ← pReg? r.a
        let b ← pReg? r.b
        some (.psub d a b)
      else none
    | 4 => if r.len = 0 ∧ r.a = 0 ∧ r.ty = 0 ∧ r.q = 0 ∧ hiScope r.hi = 0 then do
        let d ← pReg? r.d
        let b ← pReg? r.b
        let off := hiOff r.hi
        some (.plea d b off)
      else none
    | 5 => if r.len = 0 ∧ r.b = 0 ∧ r.ty = 0 ∧ r.q = 0 ∧ r.hi = 0 then do
        let d ← pReg? r.d
        let (fromG, a) ← gpReg? r.a
        some (.pmov d fromG a)
      else none
    | 6 => if r.len = 0 ∧ r.b = 0 ∧ r.ty = 0 ∧ r.q = 0 ∧ r.hi = 0 then do
        let d ← gReg? r.d
        let a ← pReg? r.a
        some (.plo d a)
      else none
    | 7 => if r.len = 0 ∧ r.b = 0 ∧ r.ty = 0 ∧ r.q = 0 ∧ r.hi = 0 then do
        let d ← gReg? r.d
        let a ← pReg? r.a
        some (.phi d a)
      else none
    | 8 => if r.len = 1 ∧ r.a = 0 ∧ r.b = 0 ∧ r.ty = 0 ∧ r.q = 0 then do
        let d ← pReg? r.d
        let hi ← imm8? r.hi
        let lo := r.ext.setWidth 32
        some (.ploc d hi lo)
      else none
    | 9 => if r.len = 0 ∧ r.ty = 0 ∧ r.hi = 0 then do
        let cond ← cond? r.q
        let d ← gReg? r.d
        let a ← pReg? r.a
        let b ← pReg? r.b
        some (.pcmp cond d a b)
      else none
    | _ => none

/-- Group FPU, MAJ 5 (R222). -/
def decodeFpu (r : Raw) : Option Instr :=
    match r.min.toNat with
    | 0 => if r.len = 0 ∧ r.hi = 0 then do
        let ty := Ty.ofCode r.ty
        let q ← fq? r.q
        let d ← gReg? r.d
        let a ← gReg? r.a
        let b ← gReg? r.b
        some (.fadd ty q d a b)
      else none
    | 1 => if r.len = 0 ∧ r.hi = 0 then do
        let ty := Ty.ofCode r.ty
        let q ← fq? r.q
        let d ← gReg? r.d
        let a ← gReg? r.a
        let b ← gReg? r.b
        some (.fsub ty q d a b)
      else none
    | 2 => if r.len = 0 ∧ r.hi = 0 then do
        let ty := Ty.ofCode r.ty
        let q ← fq? r.q
        let d ← gReg? r.d
        let a ← gReg? r.a
        let b ← gReg? r.b
        some (.fmul ty q d a b)
      else none
    | 3 => if r.len = 0 ∧ hiZ r.hi = 0 ∧ hiK r.hi = 0 then do
        let ty := Ty.ofCode r.ty
        let q ← fq? r.q
        let d ← gReg? r.d
        let a ← gReg? r.a
        let b ← gReg? r.b
        let c ← gReg? (hiC r.hi)
        some (.fma ty q d a b c)
      else none
    | 4 => if r.len = 0 ∧ hiZ r.hi = 0 ∧ hiK r.hi = 0 then do
        let ty := Ty.ofCode r.ty
        let q ← fq? r.q
        let d ← gReg? r.d
        let a ← gReg? r.a
        let b ← gReg? r.b
        let c ← gReg? (hiC r.hi)
        some (.fnma ty q d a b c)
      else none
    | 5 => if r.len = 0 ∧ r.hi = 0 then do
        let ty := Ty.ofCode r.ty
        let q ← fq? r.q
        let d ← gReg? r.d
        let a ← gReg? r.a
        let b ← gReg? r.b
        some (.fdiv ty q d a b)
      else none
    | 6 => if r.len = 0 ∧ r.b = 0 ∧ r.hi = 0 then do
        let ty := Ty.ofCode r.ty
        let q ← fq? r.q
        let d ← gReg? r.d
        let a ← gReg? r.a
        some (.fsqrt ty q d a)
      else none
    | 7 => if r.len = 0 ∧ r.q = 0 ∧ r.hi = 0 then do
        let ty := Ty.ofCode r.ty
        let d ← gReg? r.d
        let a ← gReg? r.a
        let b ← gReg? r.b
        some (.fmin ty d a b)
      else none
    | 8 => if r.len = 0 ∧ r.q = 0 ∧ r.hi = 0 then do
        let ty := Ty.ofCode r.ty
        let d ← gReg? r.d
        let a ← gReg? r.a
        let b ← gReg? r.b
        some (.fmax ty d a b)
      else none
    | 9 => if r.len = 0 ∧ r.b = 0 ∧ r.q = 0 ∧ r.hi = 0 then do
        let ty := Ty.ofCode r.ty
        let d ← gReg? r.d
        let a ← gReg? r.a
        some (.fabs ty d a)
      else none
    | 10 => if r.len = 0 ∧ r.b = 0 ∧ r.q = 0 ∧ r.hi = 0 then do
        let ty := Ty.ofCode r.ty
        let d ← gReg? r.d
        let a ← gReg? r.a
        some (.fneg ty d a)
      else none
    | 11 => if r.len = 0 ∧ r.hi = 0 then do
        let ty := Ty.ofCode r.ty
        let cond ← cond? r.q
        let d ← gReg? r.d
        let a ← gReg? r.a
        let b ← gReg? r.b
        some (.fcmp ty cond d a b)
      else none
    | 12 => if r.len = 0 ∧ r.b = 0 ∧ hiZ r.hi = 0 ∧ hiK r.hi = 0 then do
        let dty := Ty.ofCode r.ty
        let sty ← tyField? (hiC r.hi)
        let q ← fq? r.q
        let d ← gReg? r.d
        let a ← gReg? r.a
        some (.fcvt dty sty q d a)
      else none
    | 13 => if r.len = 0 ∧ r.b = 0 ∧ r.q = 0 ∧ r.hi = 0 then do
        let ty := Ty.ofCode r.ty
        let d ← gReg? r.d
        let a ← gReg? r.a
        some (.fclass ty d a)
      else none
    | 14 => if r.len = 1 ∧ r.a = 0 ∧ r.b = 0 ∧ r.q = 0 ∧ r.hi = 0 then do
        let ty := Ty.ofCode r.ty
        let d ← gReg? r.d
        let lit := r.ext.setWidth 32
        some (.fmovi ty d lit)
      else none
    | 15 => if r.len = 0 ∧ r.q = 0 ∧ r.hi = 0 then do
        let ty := Ty.ofCode r.ty
        let d ← gReg? r.d
        let a ← gReg? r.a
        let b ← gReg? r.b
        some (.fsgn ty d a b)
      else none
    | _ => none

/-- Group BR, MAJ 6 (R222). -/
def decodeBr (r : Raw) : Option Instr :=
    match r.min.toNat with
    | 0 => if r.len = 0 ∧ r.d = 0 then do
        let ty := Ty.ofCode r.ty
        let h ← brh? r.q
        let a ← gReg? r.a
        let b ← gReg? r.b
        let imm := r.hi
        some (.beq ty h a b imm)
      else none
    | 1 => if r.len = 0 ∧ r.d = 0 then do
        let ty := Ty.ofCode r.ty
        let h ← brh? r.q
        let a ← gReg? r.a
        let b ← gReg? r.b
        let imm := r.hi
        some (.bne ty h a b imm)
      else none
    | 2 => if r.len = 0 ∧ r.d = 0 then do
        let ty := Ty.ofCode r.ty
        let h ← brh? r.q
        let a ← gReg? r.a
        let b ← gReg? r.b
        let imm := r.hi
        some (.blt ty h a b imm)
      else none
    | 3 => if r.len = 0 ∧ r.d = 0 then do
        let ty := Ty.ofCode r.ty
        let h ← brh? r.q
        let a ← gReg? r.a
        let b ← gReg? r.b
        let imm := r.hi
        some (.bge ty h a b imm)
      else none
    | 4 => if r.len = 0 ∧ r.d = 0 ∧ r.b = 0 then do
        let ty := Ty.ofCode r.ty
        let h ← brh? r.q
        let a ← gReg? r.a
        let imm := r.hi
        some (.bz ty h a imm)
      else none
    | 5 => if r.len = 0 ∧ r.d = 0 ∧ r.b = 0 then do
        let ty := Ty.ofCode r.ty
        let h ← brh? r.q
        let a ← gReg? r.a
        let imm := r.hi
        some (.bnz ty h a imm)
      else none
    | 6 => if r.len = 0 ∧ r.d = 0 ∧ r.ty = 0 then do
        let h ← brh? r.q
        let a ← gReg? r.a
        let n ← some r.b
        let imm := r.hi
        some (.bbs h a n imm)
      else none
    | 7 => if r.len = 0 ∧ r.d = 0 ∧ r.ty = 0 then do
        let h ← brh? r.q
        let a ← gReg? r.a
        let n ← some r.b
        let imm := r.hi
        some (.bbc h a n imm)
      else none
    | _ => none

/-- Group JMP, MAJ 7 (R222). -/
def decodeJmp (r : Raw) : Option Instr :=
    match r.min.toNat with
    | 0 => if r.len = 0 ∧ r.d = 0 ∧ r.a = 0 ∧ r.b = 0 ∧ r.ty = 0 ∧ r.q = 0 then do
        let imm := r.hi
        some (.j imm)
      else none
    | 1 => if r.len = 1 ∧ r.d = 0 ∧ r.a = 0 ∧ r.b = 0 ∧ r.ty = 0 ∧ r.q = 0 ∧ r.hi = 0 then do
        let imm := r.ext.setWidth 32
        some (.jl imm)
      else none
    | 2 => if r.len = 0 ∧ r.d = 0 ∧ r.b = 0 ∧ r.ty = 0 ∧ r.q = 0 ∧ r.hi = 0 then do
        let a ← pReg? r.a
        some (.jr a)
      else none
    | 3 => if r.len = 0 ∧ r.d = 0 ∧ r.a = 0 ∧ r.b = 0 ∧ r.ty = 0 ∧ r.q = 0 then do
        let imm := r.hi
        some (.call imm)
      else none
    | 4 => if r.len = 0 ∧ r.d = 0 ∧ r.b = 0 ∧ r.ty = 0 ∧ r.q = 0 ∧ r.hi = 0 then do
        let a ← pReg? r.a
        some (.callr a)
      else none
    | 5 => if r.len = 0 ∧ r.d = 0 ∧ r.a = 0 ∧ r.b = 0 ∧ r.ty = 0 ∧ r.q = 0 ∧ r.hi = 0 then do
        some (.ret)
      else none
    | 6 => if r.len = 0 ∧ r.d = 0 ∧ r.b = 0 ∧ r.ty = 0 ∧ r.q = 0 then do
        let a ← gReg? r.a
        let imm := r.hi
        some (.loop a imm)
      else none
    | 7 => if r.len = 1 ∧ r.d = 0 ∧ r.a = 0 ∧ r.b = 0 ∧ r.ty = 0 ∧ r.q = 0 then do
        let count := r.ext.setWidth 32
        let imm := r.hi
        some (.loopi count imm)
      else none
    | 8 => if r.len = 0 ∧ r.d = 0 ∧ r.a = 0 ∧ r.b = 0 ∧ r.ty = 0 ∧ r.q = 0 ∧ r.hi = 0 then do
        some (.lexit)
      else none
    | _ => none

/-- Group LD, MAJ 8 (R222). -/
def decodeLd (r : Raw) : Option Instr :=
    match r.min.toNat with
    | 0 => if r.len = 0 ∧ r.a = 0 then do
        let ty := Ty.ofCode r.ty
        let m ← mq? r.q (hiScope r.hi)
        let d ← gReg? r.d
        let b ← pReg? r.b
        let off := hiOff r.hi
        some (.ld ty m d b off)
      else none
    | 1 => if r.len = 0 ∧ r.a = 0 ∧ r.ty = 0 then do
        let m ← mq? r.q (hiScope r.hi)
        let d ← pReg? r.d
        let b ← pReg? r.b
        let off := hiOff r.hi
        some (.ldp m d b off)
      else none
    | 2 => if r.len = 0 ∧ r.a = 0 ∧ r.ty = 0 then do
        let m ← mq? r.q (hiScope r.hi)
        let d ← g8? r.d
        let b ← pReg? r.b
        let off := hiOff r.hi
        some (.ldq8 m d b off)
      else none
    | 3 => if r.len = 0 ∧ r.a = 0 ∧ r.ty = 0 then do
        let m ← mq? r.q (hiScope r.hi)
        let d ← gReg? r.d
        let b ← pReg? r.b
        let off := hiOff r.hi
        some (.ldw m d b off)
      else none
    | 4 => if r.len = 0 ∧ r.a = 0 ∧ r.q = 0 ∧ hiScope r.hi = 0 then do
        let ty := Ty.ofCode r.ty
        let d ← gReg? r.d
        let b ← pReg? r.b
        let off := hiOff r.hi
        some (.ldt ty d b off)
      else none
    | _ => none

/-- Group ST, MAJ 9 (R222). -/
def decodeSt (r : Raw) : Option Instr :=
    match r.min.toNat with
    | 0 => if r.len = 0 ∧ r.d = 0 then do
        let ty := Ty.ofCode r.ty
        let m ← mq? r.q (hiScope r.hi)
        let b ← pReg? r.b
        let off := hiOff r.hi
        let a ← gReg? r.a
        some (.st ty m b off a)
      else none
    | 1 => if r.len = 0 ∧ r.d = 0 ∧ r.ty = 0 then do
        let m ← mq? r.q (hiScope r.hi)
        let b ← pReg? r.b
        let off := hiOff r.hi
        let a ← pReg? r.a
        some (.stp m b off a)
      else none
    | 2 => if r.len = 0 ∧ r.d = 0 ∧ r.ty = 0 then do
        let m ← mq? r.q (hiScope r.hi)
        let b ← pReg? r.b
        let off := hiOff r.hi
        let a ← g8? r.a
        some (.stq8 m b off a)
      else none
    | 3 => if r.len = 0 ∧ r.d = 0 ∧ r.ty = 0 then do
        let m ← mq? r.q (hiScope r.hi)
        let b ← pReg? r.b
        let off := hiOff r.hi
        let a ← gReg? r.a
        some (.stf m b off a)
      else none
    | _ => none

/-- Group AMO, MAJ 10 (R222). -/
def decodeAmo (r : Raw) : Option Instr :=
    match r.min.toNat with
    | 0 => if r.len = 0 then do
        let ty := Ty.ofCode r.ty
        let o ← ordQ? r.q
        let sc := Scope.ofCode (hiScope r.hi)
        let d ← gReg? r.d
        let b ← pReg? r.b
        let off := hiOff r.hi
        let a ← gReg? r.a
        some (.aadd ty o sc d b off a)
      else none
    | 1 => if r.len = 0 then do
        let ty := Ty.ofCode r.ty
        let o ← ordQ? r.q
        let sc := Scope.ofCode (hiScope r.hi)
        let d ← gReg? r.d
        let b ← pReg? r.b
        let off := hiOff r.hi
        let a ← gReg? r.a
        some (.aand ty o sc d b off a)
      else none
    | 2 => if r.len = 0 then do
        let ty := Ty.ofCode r.ty
        let o ← ordQ? r.q
        let sc := Scope.ofCode (hiScope r.hi)
        let d ← gReg? r.d
        let b ← pReg? r.b
        let off := hiOff r.hi
        let a ← gReg? r.a
        some (.aor ty o sc d b off a)
      else none
    | 3 => if r.len = 0 then do
        let ty := Ty.ofCode r.ty
        let o ← ordQ? r.q
        let sc := Scope.ofCode (hiScope r.hi)
        let d ← gReg? r.d
        let b ← pReg? r.b
        let off := hiOff r.hi
        let a ← gReg? r.a
        some (.axor ty o sc d b off a)
      else none
    | 4 => if r.len = 0 then do
        let ty := Ty.ofCode r.ty
        let o ← ordQ? r.q
        let sc := Scope.ofCode (hiScope r.hi)
        let d ← gReg? r.d
        let b ← pReg? r.b
        let off := hiOff r.hi
        let a ← gReg? r.a
        some (.amin ty o sc d b off a)
      else none
    | 5 => if r.len = 0 then do
        let ty := Ty.ofCode r.ty
        let o ← ordQ? r.q
        let sc := Scope.ofCode (hiScope r.hi)
        let d ← gReg? r.d
        let b ← pReg? r.b
        let off := hiOff r.hi
        let a ← gReg? r.a
        some (.amax ty o sc d b off a)
      else none
    | 6 => if r.len = 0 then do
        let ty := Ty.ofCode r.ty
        let o ← ordQ? r.q
        let sc := Scope.ofCode (hiScope r.hi)
        let d ← gReg? r.d
        let b ← pReg? r.b
        let off := hiOff r.hi
        let a ← gReg? r.a
        some (.aswp ty o sc d b off a)
      else none
    | 7 => if r.len = 0 then do
        let ty := Ty.ofCode r.ty
        let o ← ordQ? r.q
        let sc := Scope.ofCode (hiScope r.hi)
        let d ← gReg? r.d
        let b ← pReg? r.b
        let off := hiOff r.hi
        let a ← gReg? r.a
        some (.acas ty o sc d b off a)
      else none
    | 8 => if r.len = 0 ∧ r.d = 0 ∧ r.ty = 0 then do
        let o ← ordQ? r.q
        let sc := Scope.ofCode (hiScope r.hi)
        let b ← pReg? r.b
        let off := hiOff r.hi
        let a ← g2? r.a
        some (.aacc o sc b off a)
      else none
    | _ => none

/-- Group SYNC, MAJ 11 (R222). -/
def decodeSync (r : Raw) : Option Instr :=
    match r.min.toNat with
    | 0 => if r.len = 0 ∧ r.d = 0 ∧ r.a = 0 ∧ r.b = 0 ∧ r.ty = 0 ∧ r.q = 0 ∧ hiOff r.hi = 0 then do
        let sc := Scope.ofCode (hiScope r.hi)
        some (.fence sc)
      else none
    | 1 => if r.len = 0 ∧ r.ty = 0 ∧ r.q = 0 then do
        let sc := Scope.ofCode (hiScope r.hi)
        let b ← pReg? r.b
        let off := hiOff r.hi
        let a ← pReg? r.a
        let d ← gReg? r.d
        some (.bind sc b off a d)
      else none
    | 2 => if r.len = 0 ∧ r.d = 0 ∧ r.a = 0 ∧ r.ty = 0 ∧ r.q = 0 then do
        let sc := Scope.ofCode (hiScope r.hi)
        let b ← pReg? r.b
        let off := hiOff r.hi
        some (.unbind sc b off)
      else none
    | 3 => if r.len = 0 ∧ r.d = 0 ∧ r.a = 0 ∧ r.ty = 0 ∧ r.q = 0 then do
        let sc := Scope.ofCode (hiScope r.hi)
        let b ← pReg? r.b
        let off := hiOff r.hi
        some (.acq sc b off)
      else none
    | 4 => if r.len = 0 ∧ r.d = 0 ∧ r.a = 0 ∧ r.ty = 0 ∧ r.q = 0 then do
        let sc := Scope.ofCode (hiScope r.hi)
        let b ← pReg? r.b
        let off := hiOff r.hi
        some (.rel sc b off)
      else none
    | _ => none

/-- Group MSG, MAJ 12 (R222). -/
def decodeMsg (r : Raw) : Option Instr :=
    match r.min.toNat with
    | 0 => if r.len = 1 ∧ r.ty = 0 ∧ hiOff r.hi = 0 then do
        let d ← gReg? r.d
        let a ← gReg? r.a
        let obj ← obj? r.q r.b (hiScope r.hi)
        let entry ← entry? (r.ext.setWidth 32)
        some (.send d a obj entry)
      else none
    | 1 => if r.len = 2 ∧ r.ty = 0 ∧ hiZ r.hi = 0 ∧ hiK r.hi = 0 then do
        let d ← gReg? r.d
        let a ← gReg? r.a
        let c ← pReg? (hiC r.hi)
        let (len, s) ← sendcExt? r.ext
        let obj ← obj? r.q r.b s
        some (.sendc d a obj c len)
      else none
    | 2 => if r.len = 1 ∧ r.ty = 0 ∧ hiOff r.hi = 0 then do
        let d ← gReg? r.d
        let a ← gReg? r.a
        let obj ← obj? r.q r.b (hiScope r.hi)
        let code := r.ext.setWidth 32
        some (.reply d a obj code)
      else none
    | 3 => if r.len = 0 ∧ r.ty = 0 ∧ r.q = 0 ∧ hiZ r.hi = 0 ∧ hiK r.hi = 0 then do
        let d ← gReg? r.d
        let a ← gReg? r.a
        let b ← gReg? r.b
        let c ← gReg? (hiC r.hi)
        some (.start d a b c)
      else none
    | 4 => if r.len = 0 ∧ r.d = 0 ∧ r.a = 0 ∧ r.b = 0 ∧ r.ty = 0 ∧ r.q = 0 ∧ r.hi = 0 then do
        some (.halt)
      else none
    | 5 => if r.len = 0 ∧ r.d = 0 ∧ r.a = 0 ∧ r.b = 0 ∧ r.ty = 0 ∧ r.q = 0 ∧ r.hi = 0 then do
        some (.wget)
      else none
    | 6 => if r.len = 0 ∧ r.d = 0 ∧ r.a = 0 ∧ r.b = 0 ∧ r.ty = 0 ∧ r.q = 0 ∧ r.hi = 0 then do
        some (.qarm)
      else none
    | _ => none

/-- Group TASK, MAJ 13 (R222). -/
def decodeTask (r : Raw) : Option Instr :=
    match r.min.toNat with
    | 0 => if r.len = 0 ∧ r.d = 0 ∧ r.a = 0 ∧ r.b = 0 ∧ r.ty = 0 ∧ r.q = 0 ∧ r.hi = 0 then do
        some (.tend)
      else none
    | 1 => if r.len = 0 ∧ r.a = 0 ∧ r.b = 0 ∧ r.ty = 0 ∧ r.q = 0 ∧ r.hi = 0 then do
        let d ← gReg? r.d
        some (.tnext d)
      else none
    | 2 => if r.len = 0 ∧ r.d = 0 ∧ r.ty = 0 ∧ r.q = 0 ∧ r.hi = 0 then do
        let a ← pReg? r.a
        let b ← gReg? r.b
        some (.tspawn a b)
      else none
    | _ => none

/-- Group BULK, MAJ 14 (R222). -/
def decodeBulk (r : Raw) : Option Instr :=
    match r.min.toNat with
    | 0 => if r.len = 2 ∧ r.ty = 0 ∧ r.q = 0 ∧ hiZ r.hi = 0 ∧ hiK r.hi = 0 then do
        let d ← gReg? r.d
        let a ← pReg? r.a
        let b ← gReg? r.b
        let c ← gReg? (hiC r.hi)
        if r.ext.extractLsb' 0 2 = 0 ∧ r.ext.extractLsb' 24 2 = 0 then
          some (.bread d a b c (r.ext.extractLsb' 2 22) (r.ext.extractLsb' 26 22) (r.ext.extractLsb' 48 16))
        else none
      else none
    | 1 => if r.len = 2 ∧ r.ty = 0 ∧ r.q = 0 ∧ hiZ r.hi = 0 ∧ hiK r.hi = 0 then do
        let d ← gReg? r.d
        let a ← pReg? r.a
        let b ← pReg? r.b
        let c ← pReg? (hiC r.hi)
        if r.ext.extractLsb' 0 5 = 0 ∧ r.ext.extractLsb' 49 15 = 0 then
          some (.copy (r.ext.extractLsb' 48 1 = 1) a b c d (r.ext.extractLsb' 5 11) (r.ext.extractLsb' 16 16) (r.ext.extractLsb' 32 16))
        else none
      else none
    | 2 => if r.len = 2 ∧ r.ty = 0 ∧ r.q = 0 ∧ hiZ r.hi = 0 ∧ hiK r.hi = 0 then do
        let d ← gReg? r.d
        let a ← pReg? r.a
        let b ← pReg? r.b
        let c ← pReg? (hiC r.hi)
        if r.ext.extractLsb' 11 53 = 0 then
          some (.copym a b c d (r.ext.extractLsb' 0 4) (r.ext.extractLsb' 4 4) (r.ext.extractLsb' 8 2) (r.ext.extractLsb' 10 1 = 1))
        else none
      else none
    | _ => none

/-- Group BAR, MAJ 15 (R222). -/
def decodeBar (r : Raw) : Option Instr :=
    match r.min.toNat with
    | 0 => if r.len = 0 ∧ r.d = 0 ∧ r.ty = 0 ∧ r.q = 0 ∧ hiScope r.hi = 0 then do
        let b ← pReg? r.b
        let off := hiOff r.hi
        let a ← gReg? r.a
        some (.binit b off a)
      else none
    | 1 => if r.len = 0 ∧ r.d = 0 ∧ r.ty = 0 ∧ r.q = 0 ∧ hiScope r.hi = 0 then do
        let b ← pReg? r.b
        let off := hiOff r.hi
        let a ← gReg? r.a
        some (.bexp b off a)
      else none
    | 2 => if r.len = 0 ∧ r.a = 0 ∧ r.ty = 0 ∧ r.q = 0 ∧ hiScope r.hi = 0 then do
        let d ← gReg? r.d
        let b ← pReg? r.b
        let off := hiOff r.hi
        some (.barr d b off)
      else none
    | 3 => if r.len = 0 ∧ r.d = 0 ∧ r.ty = 0 ∧ r.q = 0 ∧ hiScope r.hi = 0 then do
        let b ← pReg? r.b
        let off := hiOff r.hi
        let a ← gReg? r.a
        some (.bwait b off a)
      else none
    | 4 => if r.len = 0 ∧ r.ty = 0 ∧ r.q = 0 ∧ hiScope r.hi = 0 then do
        let d ← gReg? r.d
        let b ← pReg? r.b
        let off := hiOff r.hi
        let a ← gReg? r.a
        some (.btest d b off a)
      else none
    | _ => none

/-- Group PIPE, MAJ 16 (R222). -/
def decodePipe (r : Raw) : Option Instr :=
    match r.min.toNat with
    | 0 => if r.len = 0 ∧ r.d = 0 ∧ r.ty = 0 ∧ r.q = 0 ∧ r.hi = 0 then do
        let a ← gReg? r.a
        let b ← gReg? r.b
        some (.qinit a b)
      else none
    | 1 => if r.len = 0 ∧ r.d = 0 ∧ r.ty = 0 ∧ r.q = 0 ∧ r.hi = 0 then do
        let a ← gReg? r.a
        let b ← gReg? r.b
        some (.qpush a b)
      else none
    | 2 => if r.len = 0 ∧ r.b = 0 ∧ r.ty = 0 ∧ r.q = 0 ∧ r.hi = 0 then do
        let d ← gReg? r.d
        let a ← gReg? r.a
        some (.qpop d a)
      else none
    | 3 => if r.len = 0 ∧ r.b = 0 ∧ r.ty = 0 ∧ r.q = 0 ∧ r.hi = 0 then do
        let d ← gReg? r.d
        let a ← gReg? r.a
        some (.qavail d a)
      else none
    | 4 => if r.len = 2 ∧ r.d = 0 ∧ r.ty = 0 ∧ r.q = 0 ∧ r.hi = 0 ∧ r.ext.extractLsb' 32 32 = 0 then do
        let a ← pReg? r.a
        let b ← pReg? r.b
        some (.rot a b (r.ext.extractLsb' 0 32))
      else none
    | _ => none

/-- Group ACN, MAJ 17 (R222). -/
def decodeAcn (r : Raw) : Option Instr :=
    match r.min.toNat with
    | 0 => if r.len = 2 ∧ r.a = 0 ∧ r.ty = 0 ∧ r.q = 0 ∧ r.hi = 0 ∧ r.ext.extractLsb' 16 48 = 0 then do
        let d ← accField? r.d
        let b ← pReg? r.b
        some (.aopen d b (r.ext.extractLsb' 0 16))
      else none
    | 1 => if r.len = 2 ∧ r.d = 0 ∧ r.ty = 0 ∧ r.q = 0 ∧ hiZ r.hi = 0 ∧ hiK r.hi = 0 then do
        let a ← accField? r.a
        let b ← pReg? r.b
        let c ← gReg? (hiC r.hi)
        if r.ext.extractLsb' 6 2 = 0 ∧ r.ext.extractLsb' 14 50 = 0 then
          some (.asend a b c (r.ext.extractLsb' 0 6) (r.ext.extractLsb' 8 6))
        else none
      else none
    | 2 => if r.len = 0 ∧ r.a = 0 ∧ r.b = 0 ∧ r.ty = 0 ∧ r.q = 0 ∧ r.hi = 0 then do
        let d ← accField? r.d
        some (.aclose d)
      else none
    | _ => none

/-- Group VALU, MAJ 18 (R222). -/
def decodeValu (r : Raw) : Option Instr :=
    match r.min.toNat with
    | 0 => if r.len = 0 ∧ hiZ r.hi = 0 ∧ hiC r.hi = 0 then do
        let ty := Ty.ofCode r.ty
        let q ← fq? r.q
        let d ← vReg? r.d
        let a ← vReg? r.a
        let b ← vReg? r.b
        let k := hiK r.hi
        some (.vadd ty q d a b k)
      else none
    | 1 => if r.len = 0 ∧ hiZ r.hi = 0 ∧ hiC r.hi = 0 then do
        let ty := Ty.ofCode r.ty
        let q ← fq? r.q
        let d ← vReg? r.d
        let a ← vReg? r.a
        let b ← vReg? r.b
        let k := hiK r.hi
        some (.vsub ty q d a b k)
      else none
    | 2 => if r.len = 0 ∧ hiZ r.hi = 0 ∧ hiC r.hi = 0 then do
        let ty := Ty.ofCode r.ty
        let q ← fq? r.q
        let d ← vReg? r.d
        let a ← vReg? r.a
        let b ← vReg? r.b
        let k := hiK r.hi
        some (.vmul ty q d a b k)
      else none
    | 3 => if r.len = 0 ∧ hiZ r.hi = 0 then do
        let ty := Ty.ofCode r.ty
        let q ← fq? r.q
        let d ← vReg? r.d
        let a ← vReg? r.a
        let b ← vReg? r.b
        let c ← vReg? (hiC r.hi)
        let k := hiK r.hi
        some (.vfma ty q d a b c k)
      else none
    | 4 => if r.len = 0 ∧ hiZ r.hi = 0 then do
        let ty := Ty.ofCode r.ty
        let q ← fq? r.q
        let d ← vReg? r.d
        let a ← vReg? r.a
        let b ← vReg? r.b
        let c ← vReg? (hiC r.hi)
        let k := hiK r.hi
        some (.vfnma ty q d a b c k)
      else none
    | 5 => if r.len = 0 ∧ r.q = 0 ∧ hiZ r.hi = 0 ∧ hiC r.hi = 0 then do
        let ty := Ty.ofCode r.ty
        let d ← vReg? r.d
        let a ← vReg? r.a
        let b ← vReg? r.b
        let k := hiK r.hi
        some (.vmin ty d a b k)
      else none
    | 6 => if r.len = 0 ∧ r.q = 0 ∧ hiZ r.hi = 0 ∧ hiC r.hi = 0 then do
        let ty := Ty.ofCode r.ty
        let d ← vReg? r.d
        let a ← vReg? r.a
        let b ← vReg? r.b
        let k := hiK r.hi
        some (.vmax ty d a b k)
      else none
    | 7 => if r.len = 0 ∧ r.b = 0 ∧ r.q = 0 ∧ hiZ r.hi = 0 ∧ hiC r.hi = 0 then do
        let ty := Ty.ofCode r.ty
        let d ← vReg? r.d
        let a ← vReg? r.a
        let k := hiK r.hi
        some (.vabs ty d a k)
      else none
    | 8 => if r.len = 0 ∧ r.b = 0 ∧ r.q = 0 ∧ hiZ r.hi = 0 ∧ hiC r.hi = 0 then do
        let ty := Ty.ofCode r.ty
        let d ← vReg? r.d
        let a ← vReg? r.a
        let k := hiK r.hi
        some (.vneg ty d a k)
      else none
    | 9 => if r.len = 0 ∧ r.q = 0 ∧ hiZ r.hi = 0 ∧ hiC r.hi = 0 then do
        let ty := Ty.ofCode r.ty
        let d ← vReg? r.d
        let a ← vReg? r.a
        let b ← vReg? r.b
        let k := hiK r.hi
        some (.vand ty d a b k)
      else none
    | 10 => if r.len = 0 ∧ r.q = 0 ∧ hiZ r.hi = 0 ∧ hiC r.hi = 0 then do
        let ty := Ty.ofCode r.ty
        let d ← vReg? r.d
        let a ← vReg? r.a
        let b ← vReg? r.b
        let k := hiK r.hi
        some (.vor ty d a b k)
      else none
    | 11 => if r.len = 0 ∧ r.q = 0 ∧ hiZ r.hi = 0 ∧ hiC r.hi = 0 then do
        let ty := Ty.ofCode r.ty
        let d ← vReg? r.d
        let a ← vReg? r.a
        let b ← vReg? r.b
        let k := hiK r.hi
        some (.vxor ty d a b k)
      else none
    | 12 => if r.len = 0 ∧ r.q = 0 ∧ hiZ r.hi = 0 ∧ hiC r.hi = 0 then do
        let ty := Ty.ofCode r.ty
        let d ← vReg? r.d
        let a ← vReg? r.a
        let b ← vReg? r.b
        let k := hiK r.hi
        some (.vshl ty d a b k)
      else none
    | 13 => if r.len = 0 ∧ r.q = 0 ∧ hiZ r.hi = 0 ∧ hiC r.hi = 0 then do
        let ty := Ty.ofCode r.ty
        let d ← vReg? r.d
        let a ← vReg? r.a
        let b ← vReg? r.b
        let k := hiK r.hi
        some (.vshr ty d a b k)
      else none
    | 14 => if r.len = 0 ∧ r.q = 0 ∧ hiZ r.hi = 0 ∧ hiC r.hi = 0 then do
        let ty := Ty.ofCode r.ty
        let d ← vReg? r.d
        let a ← vReg? r.a
        let b ← vReg? r.b
        let k := hiK r.hi
        some (.vsar ty d a b k)
      else none
    | 15 => if r.len = 0 ∧ r.b = 0 ∧ r.ty = 0 ∧ r.q = 0 ∧ hiZ r.hi = 0 ∧ hiC r.hi = 0 then do
        let d ← vReg? r.d
        let a ← vReg? r.a
        let k := hiK r.hi
        some (.vmov d a k)
      else none
    | 16 => if r.len = 0 ∧ r.b = 0 ∧ r.q = 0 ∧ hiZ r.hi = 0 ∧ hiC r.hi = 0 then do
        let ty := Ty.ofCode r.ty
        let d ← vReg? r.d
        let a ← gReg? r.a
        let k := hiK r.hi
        some (.vbcast ty d a k)
      else none
    | 17 => if r.len = 0 ∧ r.q = 0 ∧ hiZ r.hi = 0 ∧ hiC r.hi = 0 then do
        let ty := Ty.ofCode r.ty
        let d ← vReg? r.d
        let a ← vReg? r.a
        let b ← vReg? r.b
        let k := hiK r.hi
        some (.vsel ty d a b k)
      else none
    | 18 => if r.len = 0 ∧ r.b = 0 ∧ r.q = 0 ∧ hiZ r.hi = 0 ∧ hiC r.hi = 0 then do
        let ty := Ty.ofCode r.ty
        let d ← vReg? r.d
        let a ← gReg? r.a
        let k := hiK r.hi
        some (.vidx ty d a k)
      else none
    | 19 => if r.len = 0 ∧ hiZ r.hi = 0 ∧ hiC r.hi = 0 then do
        let ty := Ty.ofCode r.ty
        let q ← fq? r.q
        let d ← vReg? r.d
        let a ← vReg? r.a
        let b ← vReg? r.b
        let k := hiK r.hi
        some (.vdiv ty q d a b k)
      else none
    | 20 => if r.len = 0 ∧ r.q = 0 ∧ hiZ r.hi = 0 then do
        let ty := Ty.ofCode r.ty
        let d ← vReg? r.d
        let a ← vReg? r.a
        let b ← vReg? r.b
        let c ← vReg? (hiC r.hi)
        let k := hiK r.hi
        some (.vclamp ty d a b c k)
      else none
    | _ => none

/-- Group VMASK, MAJ 19 (R222). -/
def decodeVmask (r : Raw) : Option Instr :=
    match r.min.toNat with
    | 0 => if r.len = 0 ∧ hiZ r.hi = 0 ∧ hiC r.hi = 0 then do
        let ty := Ty.ofCode r.ty
        let cond ← cond? r.q
        let d ← kField? r.d
        let a ← vReg? r.a
        let b ← vReg? r.b
        let k := hiK r.hi
        some (.vcmp ty cond d a b k)
      else none
    | 1 => if r.len = 0 ∧ r.ty = 0 ∧ r.q = 0 ∧ r.hi = 0 then do
        let d ← kField? r.d
        let a ← kField? r.a
        let b ← kField? r.b
        some (.kand d a b)
      else none
    | 2 => if r.len = 0 ∧ r.ty = 0 ∧ r.q = 0 ∧ r.hi = 0 then do
        let d ← kField? r.d
        let a ← kField? r.a
        let b ← kField? r.b
        some (.kor d a b)
      else none
    | 3 => if r.len = 0 ∧ r.ty = 0 ∧ r.q = 0 ∧ r.hi = 0 then do
        let d ← kField? r.d
        let a ← kField? r.a
        let b ← kField? r.b
        some (.kxor d a b)
      else none
    | 4 => if r.len = 0 ∧ r.b = 0 ∧ r.ty = 0 ∧ r.q = 0 ∧ r.hi = 0 then do
        let d ← kField? r.d
        let a ← kField? r.a
        some (.knot d a)
      else none
    | 5 => if r.len = 0 ∧ r.b = 0 ∧ r.ty = 0 ∧ r.q = 0 ∧ r.hi = 0 then do
        let d ← gReg? r.d
        let a ← kField? r.a
        some (.kpop d a)
      else none
    | 6 => if r.len = 0 ∧ r.ty = 0 ∧ r.q = 0 ∧ r.hi = 0 then do
        let d ← kField? r.d
        let a ← gReg? r.a
        let b ← gReg? r.b
        some (.kset d a b)
      else none
    | 7 => if r.len = 0 ∧ r.ty = 0 ∧ r.q = 0 ∧ r.hi = 0 then do
        let d ← gReg? r.d
        let a ← kField? r.a
        let b ← gReg? r.b
        some (.kget d a b)
      else none
    | _ => none

/-- Group VMEM, MAJ 20 (R222). -/
def decodeVmem (r : Raw) : Option Instr :=
    match r.min.toNat with
    | 0 => if r.len = 0 then do
        let ty := Ty.ofCode r.ty
        let m ← mq? r.q (hiScope r.hi)
        let d ← vReg? r.d
        let b ← pReg? r.b
        let off := hiOff r.hi
        let (kind, k) ← sel? r.a
        some (.vld ty kind m d b off k)
      else none
    | 1 => if r.len = 0 then do
        let ty := Ty.ofCode r.ty
        let m ← mq? r.q (hiScope r.hi)
        let b ← pReg? r.b
        let off := hiOff r.hi
        let a ← vReg? r.a
        let (kind, k) ← sel? r.d
        some (.vst ty kind m b off a k)
      else none
    | 2 => if r.len = 0 then do
        let ty := Ty.ofCode r.ty
        let m ← mq? r.q (hiScope r.hi)
        let d ← vReg? r.d
        let b ← pReg? r.b
        let off := hiOff r.hi
        let a ← gReg? r.a
        some (.vlds ty m d b off a)
      else none
    | 3 => if r.len = 0 then do
        let ty := Ty.ofCode r.ty
        let m ← mq? r.q (hiScope r.hi)
        let b ← pReg? r.b
        let off := hiOff r.hi
        let a ← vReg? r.a
        let d ← gReg? r.d
        some (.vsts ty m b off a d)
      else none
    | 4 => if r.len = 0 then do
        let ty := Ty.ofCode r.ty
        let m ← mq? r.q (hiScope r.hi)
        let d ← vReg? r.d
        let b ← pReg? r.b
        let off := hiOff r.hi
        let a ← vReg? r.a
        some (.vgath ty m d b off a)
      else none
    | 5 => if r.len = 0 then do
        let ty := Ty.ofCode r.ty
        let m ← mq? r.q (hiScope r.hi)
        let b ← pReg? r.b
        let off := hiOff r.hi
        let a ← vReg? r.a
        let d ← vReg? r.d
        some (.vscat ty m b off a d)
      else none
    | 6 => if r.len = 0 ∧ r.d = 0 ∧ r.ty = 0 then do
        let m ← mq? r.q (hiScope r.hi)
        let b ← pReg? r.b
        let off := hiOff r.hi
        let a ← vReg? r.a
        some (.vstp m b off a)
      else none
    | 7 => if r.len = 0 then do
        let ty := Ty.ofCode r.ty
        let m ← mq? r.q (hiScope r.hi)
        let d ← vReg? r.d
        let b ← pReg? r.b
        let off := hiOff r.hi
        let kind ← kindSel0? r.a
        some (.vldw ty kind m d b off)
      else none
    | 8 => if r.len = 1 ∧ r.ty = 0 ∧ hiOff r.hi = 0 then do
        let sc := Scope.ofCode (hiScope r.hi)
        let h ← hintQ? r.q
        let d ← vReg? r.d
        let b ← pReg? r.b
        let off := r.ext.setWidth 32
        let n ← raw4? r.a
        some (.tlda sc h d b off n)
      else none
    | 9 => if r.len = 1 ∧ r.ty = 0 ∧ hiOff r.hi = 0 then do
        let sc := Scope.ofCode (hiScope r.hi)
        let h ← hintQ? r.q
        let b ← pReg? r.b
        let off := r.ext.setWidth 32
        let a ← vReg? r.a
        let n ← raw4? r.d
        some (.tsta sc h b off a n)
      else none
    | 10 => if r.len = 0 ∧ r.ty = 0 then do
        let m ← mq? r.q (hiScope r.hi)
        let d ← vReg? r.d
        let b ← pReg? r.b
        let off := hiOff r.hi
        let kind ← kindField? r.a
        some (.vldsc kind m d b off)
      else none
    | 11 => if r.len = 0 ∧ r.ty = 0 then do
        let m ← mq? r.q (hiScope r.hi)
        let b ← pReg? r.b
        let off := hiOff r.hi
        let a ← vReg? r.a
        let kind ← kindField? r.d
        some (.vstsc kind m b off a)
      else none
    | _ => none

/-- Group VCVT, MAJ 21 (R222). -/
def decodeVcvt (r : Raw) : Option Instr :=
    match r.min.toNat with
    | 0 => if r.len = 0 ∧ hiZ r.hi = 0 then do
        let dty := Ty.ofCode r.ty
        let sty ← tyField? (hiC r.hi)
        let q ← fq? r.q
        let d ← vReg? r.d
        let a ← vReg? r.a
        let part ← kField? r.b
        let k := hiK r.hi
        some (.vcvt dty sty q d a part k)
      else none
    | 1 => if r.len = 0 ∧ hiZ r.hi = 0 ∧ hiK r.hi = 0 then do
        let ty := Ty.ofCode r.ty
        let kind ← kindField? (hiC r.hi)
        let q ← fq? r.q
        let d ← vReg? r.d
        let a ← vReg? r.a
        let part ← kField? r.b
        some (.vqnt ty kind q d a part)
      else none
    | 2 => if r.len = 0 ∧ hiZ r.hi = 0 ∧ hiC r.hi = 0 then do
        let ty := Ty.ofCode r.ty
        let q ← fq? r.q
        let d ← vReg? r.d
        let a ← vReg? r.a
        let part ← kField? r.b
        let k := hiK r.hi
        some (.vdqnt ty q d a part k)
      else none
    | 3 => if r.len = 0 ∧ r.ty = 0 ∧ r.q = 0 ∧ r.hi = 0 then do
        let d ← vReg? r.d
        let a ← vReg? r.a
        let tag ← some r.b
        some (.vretag d a tag)
      else none
    | 4 => if r.len = 0 ∧ r.b = 0 ∧ r.ty = 0 ∧ r.q = 0 ∧ r.hi = 0 then do
        let d ← gReg? r.d
        let a ← vReg? r.a
        some (.vtag d a)
      else none
    | _ => none

/-- Group VSF, MAJ 22 (R222). -/
def decodeVsf (r : Raw) : Option Instr :=
    match r.min.toNat with
    | 0 => if r.len = 0 ∧ r.b = 0 ∧ hiZ r.hi = 0 ∧ hiC r.hi = 0 then do
        let ty := Ty.ofCode r.ty
        let q ← fq? r.q
        let d ← vReg? r.d
        let a ← vReg? r.a
        let k := hiK r.hi
        some (.vexp2 ty q d a k)
      else none
    | 1 => if r.len = 0 ∧ r.b = 0 ∧ hiZ r.hi = 0 ∧ hiC r.hi = 0 then do
        let ty := Ty.ofCode r.ty
        let q ← fq? r.q
        let d ← vReg? r.d
        let a ← vReg? r.a
        let k := hiK r.hi
        some (.vlog2 ty q d a k)
      else none
    | 2 => if r.len = 0 ∧ r.b = 0 ∧ hiZ r.hi = 0 ∧ hiC r.hi = 0 then do
        let ty := Ty.ofCode r.ty
        let q ← fq? r.q
        let d ← vReg? r.d
        let a ← vReg? r.a
        let k := hiK r.hi
        some (.vrcp ty q d a k)
      else none
    | 3 => if r.len = 0 ∧ r.b = 0 ∧ hiZ r.hi = 0 ∧ hiC r.hi = 0 then do
        let ty := Ty.ofCode r.ty
        let q ← fq? r.q
        let d ← vReg? r.d
        let a ← vReg? r.a
        let k := hiK r.hi
        some (.vrsqrt ty q d a k)
      else none
    | 4 => if r.len = 0 ∧ r.b = 0 ∧ hiZ r.hi = 0 ∧ hiC r.hi = 0 then do
        let ty := Ty.ofCode r.ty
        let q ← fq? r.q
        let d ← vReg? r.d
        let a ← vReg? r.a
        let k := hiK r.hi
        some (.vsqrt ty q d a k)
      else none
    | 5 => if r.len = 0 ∧ r.b = 0 ∧ hiZ r.hi = 0 ∧ hiC r.hi = 0 then do
        let ty := Ty.ofCode r.ty
        let q ← fq? r.q
        let d ← vReg? r.d
        let a ← vReg? r.a
        let k := hiK r.hi
        some (.vsinpi ty q d a k)
      else none
    | 6 => if r.len = 0 ∧ r.b = 0 ∧ hiZ r.hi = 0 ∧ hiC r.hi = 0 then do
        let ty := Ty.ofCode r.ty
        let q ← fq? r.q
        let d ← vReg? r.d
        let a ← vReg? r.a
        let k := hiK r.hi
        some (.vcospi ty q d a k)
      else none
    | 7 => if r.len = 0 ∧ r.b = 0 ∧ hiZ r.hi = 0 ∧ hiC r.hi = 0 then do
        let ty := Ty.ofCode r.ty
        let q ← fq? r.q
        let d ← vReg? r.d
        let a ← vReg? r.a
        let k := hiK r.hi
        some (.vtanh ty q d a k)
      else none
    | 8 => if r.len = 0 ∧ r.b = 0 ∧ hiZ r.hi = 0 ∧ hiC r.hi = 0 then do
        let ty := Ty.ofCode r.ty
        let q ← fq? r.q
        let d ← vReg? r.d
        let a ← vReg? r.a
        let k := hiK r.hi
        some (.vsigm ty q d a k)
      else none
    | 9 => if r.len = 0 ∧ r.b = 0 ∧ hiZ r.hi = 0 ∧ hiC r.hi = 0 then do
        let ty := Ty.ofCode r.ty
        let q ← fq? r.q
        let d ← vReg? r.d
        let a ← vReg? r.a
        let k := hiK r.hi
        some (.verf ty q d a k)
      else none
    | _ => none

/-- Group VPERM, MAJ 23 (R222). -/
def decodeVperm (r : Raw) : Option Instr :=
    match r.min.toNat with
    | 0 => if r.len = 0 ∧ r.b = 0 ∧ hiZ r.hi = 0 ∧ hiC r.hi = 0 then do
        let ty := Ty.ofCode r.ty
        let q ← fq? r.q
        let d ← gReg? r.d
        let a ← vReg? r.a
        let k := hiK r.hi
        some (.vrsum ty q d a k)
      else none
    | 1 => if r.len = 0 ∧ r.b = 0 ∧ r.q = 0 ∧ hiZ r.hi = 0 ∧ hiC r.hi = 0 then do
        let ty := Ty.ofCode r.ty
        let d ← gReg? r.d
        let a ← vReg? r.a
        let k := hiK r.hi
        some (.vrmax ty d a k)
      else none
    | 2 => if r.len = 0 ∧ r.b = 0 ∧ r.q = 0 ∧ hiZ r.hi = 0 ∧ hiC r.hi = 0 then do
        let ty := Ty.ofCode r.ty
        let d ← gReg? r.d
        let a ← vReg? r.a
        let k := hiK r.hi
        some (.vrmin ty d a k)
      else none
    | 3 => if r.len = 0 ∧ r.q = 0 ∧ hiZ r.hi = 0 ∧ hiC r.hi = 0 then do
        let ty := Ty.ofCode r.ty
        let d ← vReg? r.d
        let a ← vReg? r.a
        let b ← vReg? r.b
        let k := hiK r.hi
        some (.vperm ty d a b k)
      else none
    | 4 => if r.len = 0 ∧ r.q = 0 ∧ hiZ r.hi = 0 ∧ hiC r.hi = 0 then do
        let ty := Ty.ofCode r.ty
        let d ← vReg? r.d
        let a ← vReg? r.a
        let b ← gReg? r.b
        let k := hiK r.hi
        some (.vrotl ty d a b k)
      else none
    | 5 => if r.len = 0 ∧ r.q = 0 ∧ hiZ r.hi = 0 then do
        let ty := Ty.ofCode r.ty
        let h ← bitField? (hiC r.hi)
        let d ← vReg? r.d
        let a ← vReg? r.a
        let b ← vReg? r.b
        let k := hiK r.hi
        some (.vzip ty h d a b k)
      else none
    | 6 => if r.len = 0 ∧ r.q = 0 ∧ hiZ r.hi = 0 then do
        let ty := Ty.ofCode r.ty
        let h ← bitField? (hiC r.hi)
        let d ← vReg? r.d
        let a ← vReg? r.a
        let b ← vReg? r.b
        let k := hiK r.hi
        some (.vunzip ty h d a b k)
      else none
    | 7 => if r.len = 0 ∧ r.q = 0 ∧ r.hi = 0 then do
        let ty := Ty.ofCode r.ty
        let d ← gReg? r.d
        let a ← vReg? r.a
        let b ← gReg? r.b
        some (.vext ty d a b)
      else none
    | 8 => if r.len = 0 ∧ r.q = 0 ∧ r.hi = 0 then do
        let ty := Ty.ofCode r.ty
        let d ← vReg? r.d
        let a ← gReg? r.a
        let b ← gReg? r.b
        some (.vins ty d a b)
      else none
    | _ => none

/-- Group MTX, MAJ 24 (R222). -/
def decodeMtx (r : Raw) : Option Instr :=
    match r.min.toNat with
    | 0 => if r.len = 0 ∧ r.d = 0 ∧ r.b = 0 ∧ r.ty = 0 ∧ r.q = 0 ∧ r.hi = 0 then do
        let a ← gReg? r.a
        some (.mbegin a)
      else none
    | 1 => if r.len = 0 ∧ r.d = 0 ∧ r.a = 0 ∧ r.b = 0 ∧ r.ty = 0 ∧ r.q = 0 ∧ r.hi = 0 then do
        some (.mend)
      else none
    | 2 => if r.len = 2 ∧ r.q = 0 ∧ hiZ r.hi = 0 ∧ hiK r.hi = 0 then do
        let d ← accField? r.d
        let a ← pReg? r.a
        let b ← pReg? r.b
        let c ← optP? (hiC r.hi)
        let ka ← kind2? (r.ext.extractLsb' 36 2)
        let kb ← kind2? (r.ext.extractLsb' 38 2)
        if r.ext.extractLsb' 41 23 = 0 then
          some (.mma d ⟨Ty.ofCode r.ty, ka, a, r.ext.extractLsb' 0 16⟩
            ⟨Ty.ofCode (r.ext.extractLsb' 32 4), kb, b, r.ext.extractLsb' 16 16⟩ c (r.ext.extractLsb' 40 1 = 1))
        else none
      else none
    | 3 => if r.len = 0 ∧ r.a = 0 ∧ r.b = 0 ∧ r.ty = 0 ∧ r.q = 0 ∧ r.hi = 0 then do
        let d ← accField? r.d
        some (.mzero d)
      else none
    | 4 => if r.len = 1 ∧ r.d = 0 then do
        let ty := Ty.ofCode r.ty
        let q ← fq? r.q
        let b ← pReg? r.b
        let off := r.ext.setWidth 32
        let a ← accField? r.a
        let stride ← imm16? r.hi
        some (.mst ty q b off a stride)
      else none
    | 5 => if r.len = 1 ∧ r.a = 0 ∧ r.ty = 0 ∧ r.q = 0 then do
        let d ← accField? r.d
        let b ← pReg? r.b
        let off := r.ext.setWidth 32
        let stride ← imm16? r.hi
        some (.mld d b off stride)
      else none
    | 6 => if r.len = 1 ∧ r.a = 0 ∧ r.q = 0 ∧ r.hi = 0 then do
        let ty := Ty.ofCode r.ty
        let d ← vReg? r.d
        let b ← pReg? r.b
        let off := r.ext.setWidth 32
        some (.mldt ty d b off)
      else none
    | 7 => if r.len = 0 ∧ r.ty = 0 ∧ r.q = 0 ∧ r.hi = 0 then do
        let d ← gReg? r.d
        let a ← gReg? r.a
        let b ← gReg? r.b
        some (.manch d a b)
      else none
    | 8 => if r.len = 0 ∧ r.d = 0 ∧ r.a = 0 ∧ r.b = 0 ∧ r.ty = 0 ∧ r.q = 0 ∧ r.hi = 0 then do
        some (.mwait)
      else none
    | _ => none

/-- The instruction whose fields are `r`, each field read by R216 to R220 and by the instruction's own row; `none` where a
field has a value that the encoding does not allow. The checks of `Instr.wellFormed` come after it. -/
def decodeFields (r : Raw) : Option Instr :=
  match r.maj.toNat with
  | 0 => decodeSys r
  | 1 => decodeAlu r
  | 2 => decodeAlui r
  | 3 => decodeAlul r
  | 4 => decodeAdr r
  | 5 => decodeFpu r
  | 6 => decodeBr r
  | 7 => decodeJmp r
  | 8 => decodeLd r
  | 9 => decodeSt r
  | 10 => decodeAmo r
  | 11 => decodeSync r
  | 12 => decodeMsg r
  | 13 => decodeTask r
  | 14 => decodeBulk r
  | 15 => decodeBar r
  | 16 => decodePipe r
  | 17 => decodeAcn r
  | 18 => decodeValu r
  | 19 => decodeVmask r
  | 20 => decodeVmem r
  | 21 => decodeVcvt r
  | 22 => decodeVsf r
  | 23 => decodeVperm r
  | 24 => decodeMtx r
  | _ => none

/-- The fields of an instruction, written from the same rows; `none` for an event of the device, which has no encoding. -/
def encode (i : Instr) : Option Raw :=
  match i with
  | .deviceReset => none
  | .kvecWrite => none
  | .bootDisc => none
  | .bootMap => none
  | .bootImg => none
  | .bootStage => none
  | .bootGo => none
  | .bootDiscoveryFlit => none
  | .bootMulticastFlit => none
  | .bootReport => none
  | .bootReportArrival => none
  | .spdmGetVersion => none
  | .spdmGetCapabilities => none
  | .spdmNegotiateAlgorithms => none
  | .spdmGetDigests => none
  | .spdmGetCertificate => none
  | .spdmChallenge => none
  | .spdmGetMeasurements => none
  | .wakeWrite => none
  | .wakeComplete => none
  | .podConfigWrite => none
  | .queuePollScan => none
  | .headerReread => none
  | .queueStall => none
  | .nopPacket => none
  | .launchGraph => none
  | .launchGrid => none
  | .field => none
  | .budget => none
  | .waymask => none
  | .pause => none
  | .snapshot => none
  | .restore => none
  | .signal => none
  | .waitValue => none
  | .waitValuePoll => none
  | .skip => none
  | .debugHalt => none
  | .debugResume => none
  | .debugStep => none
  | .debugReadctx => none
  | .debugWritectx => none
  | .debugReadmem => none
  | .debugWritemem => none
  | .debugSetwatch => none
  | .debugStatus => none
  | .hostMemoryAccess => none
  | .backInvalidateAnswer => none
  | .linkRetry => none
  | .linkTimeout => none
  | .remoteResponse => none
  | .forward => none
  | .drain => none
  | .evict => none
  | .fill => none
  | .budgetPeriodStart => none
  | .powerWindow => none
  | .messageArrival => none
  | .replyArrival => none
  | .strayDelivery => none
  | .helperGrant => none
  | .weightReturn => none
  | .writeOffArrival => none
  | .qarmNotice => none
  | .taintReport => none
  | .transitVisit => none
  | .pendingTake => none
  | .overflowRefill => none
  | .stealStart => none
  | .stealRequest => none
  | .stealArrival => none
  | .leaseLapseNotice => none
  | .burstArrival => none
  | .copySectorWritten => none
  | .publish => none
  | .engineFault => none
  | .matrixCommandRetire => none
  | .acnRowArrival => none
  | .acnAckArrival => none
  | .acnNakArrival => none
  | .pipeEntryLand => none
  | .pipeCreditReturn => none
  | .rotExchange => none
  | .pairIntervalEnd => none
  | .cellReset => none
  | .fenceFall => none
  | .pauseDeadline => none
  | .drainComplete => none
  | .flushComplete => none
  | .migrationRewalk => none
  | .barrierStall => none
  | .stepBlocked => none
  | .haltSignal => none
  | .freeze => none
  | .platectlCapture => none
  | .splitWrite => none
  | .swizzleWrite => none
  | .waymaskMaskWrite => none
  | .waymaskFlush => none
  | .fpctlWrite => none
  | .wdctlWrite => none
  | .mxexclWrite => none
  | .mxexclApply => none
  | .mresumeResume => none
  | .mresumeAbort => none
  | .bresumeResume => none
  | .bresumeAbort => none
  | .registerWrite => none
  | .udf d a b ty q imm => some ⟨0, 0, d, a, b, 0, ty, q, imm, 0⟩
  | .nop => some ⟨0, 0, 0, 0, 0, 1, 0, 0, 0, 0⟩
  | .trap imm => some ⟨0, 0, 0, 0, 0, 2, 0, 0, imm, 0⟩
  | .eretResume a step1 => some ⟨0, 0, 0, gEnc a, 0, 3, 0, 0, hiR 0 (if step1 then 4 else 0), 0⟩
  | .eretSkip a => some ⟨0, 0, 0, gEnc a, 0, 3, 0, 0, hiR 0 1, 0⟩
  | .eretForward a => some ⟨0, 0, 0, gEnc a, 0, 3, 0, 0, hiR 0 2, 0⟩
  | .eretEnd a => some ⟨0, 0, 0, gEnc a, 0, 3, 0, 0, hiR 0 3, 0⟩
  | .sysr d num => some ⟨0, 0, gEnc d, 0, 0, 4, 0, 0, num.setWidth 24, 0⟩
  | .sysw num a => some ⟨0, 0, 0, gEnc a, 0, 5, 0, 0, num.setWidth 24, 0⟩
  | .sysset d num a => some ⟨0, 0, gEnc d, gEnc a, 0, 6, 0, 0, num.setWidth 24, 0⟩
  | .sysclr d num a => some ⟨0, 0, gEnc d, gEnc a, 0, 7, 0, 0, num.setWidth 24, 0⟩
  | .chkerr => some ⟨0, 0, 0, 0, 0, 8, 0, 0, 0, 0⟩
  | .idle d a => some ⟨0, 0, gEnc d, gEnc a, 0, 9, 0, 0, 0, 0⟩
  | .tlbinv a b dev => some ⟨0, 0, 0, pEnc a, gEnc b, 10, 0, 0, hiR 0 (if dev then 4 else 3), 0⟩
  | .pair d => some ⟨0, 0, gEnc d, 0, 0, 11, 0, 0, 0, 0⟩
  | .unpair d => some ⟨0, 0, gEnc d, 0, 0, 12, 0, 0, 0, 0⟩
  | .haltx a => some ⟨0, 0, 0, gEnc a, 0, 13, 0, 0, 0, 0⟩
  | .resumex a => some ⟨0, 0, 0, gEnc a, 0, 14, 0, 0, 0, 0⟩
  | .stepx d a => some ⟨0, 0, gEnc d, gEnc a, 0, 15, 0, 0, 0, 0⟩
  | .rdcyc d => some ⟨0, 0, gEnc d, 0, 0, 16, 0, 0, 0, 0⟩
  | .add ty d a b => some ⟨0, 1, gEnc d, gEnc a, gEnc b, 0, Ty.code ty, 0, 0, 0⟩
  | .sub ty d a b => some ⟨0, 1, gEnc d, gEnc a, gEnc b, 1, Ty.code ty, 0, 0, 0⟩
  | .mul ty d a b => some ⟨0, 1, gEnc d, gEnc a, gEnc b, 2, Ty.code ty, 0, 0, 0⟩
  | .mulh ty d a b => some ⟨0, 1, gEnc d, gEnc a, gEnc b, 3, Ty.code ty, 0, 0, 0⟩
  | .div ty d a b => some ⟨0, 1, gEnc d, gEnc a, gEnc b, 4, Ty.code ty, 0, 0, 0⟩
  | .rem ty d a b => some ⟨0, 1, gEnc d, gEnc a, gEnc b, 5, Ty.code ty, 0, 0, 0⟩
  | .and ty d a b => some ⟨0, 1, gEnc d, gEnc a, gEnc b, 6, Ty.code ty, 0, 0, 0⟩
  | .or ty d a b => some ⟨0, 1, gEnc d, gEnc a, gEnc b, 7, Ty.code ty, 0, 0, 0⟩
  | .xor ty d a b => some ⟨0, 1, gEnc d, gEnc a, gEnc b, 8, Ty.code ty, 0, 0, 0⟩
  | .andn ty d a b => some ⟨0, 1, gEnc d, gEnc a, gEnc b, 9, Ty.code ty, 0, 0, 0⟩
  | .shl ty d a b => some ⟨0, 1, gEnc d, gEnc a, gEnc b, 10, Ty.code ty, 0, 0, 0⟩
  | .shr ty d a b => some ⟨0, 1, gEnc d, gEnc a, gEnc b, 11, Ty.code ty, 0, 0, 0⟩
  | .sar ty d a b => some ⟨0, 1, gEnc d, gEnc a, gEnc b, 12, Ty.code ty, 0, 0, 0⟩
  | .rol ty d a b => some ⟨0, 1, gEnc d, gEnc a, gEnc b, 13, Ty.code ty, 0, 0, 0⟩
  | .min ty d a b => some ⟨0, 1, gEnc d, gEnc a, gEnc b, 14, Ty.code ty, 0, 0, 0⟩
  | .max ty d a b => some ⟨0, 1, gEnc d, gEnc a, gEnc b, 15, Ty.code ty, 0, 0, 0⟩
  | .clz ty d a => some ⟨0, 1, gEnc d, gEnc a, 0, 16, Ty.code ty, 0, 0, 0⟩
  | .ctz ty d a => some ⟨0, 1, gEnc d, gEnc a, 0, 17, Ty.code ty, 0, 0, 0⟩
  | .popc ty d a => some ⟨0, 1, gEnc d, gEnc a, 0, 18, Ty.code ty, 0, 0, 0⟩
  | .ext ty d a b c => some ⟨0, 1, gEnc d, gEnc a, gEnc b, 19, Ty.code ty, 0, hiR 0 (gEnc c), 0⟩
  | .sel ty d a b c => some ⟨0, 1, gEnc d, gEnc a, gEnc b, 20, Ty.code ty, 0, hiR 0 (gEnc c), 0⟩
  | .slt ty d a b => some ⟨0, 1, gEnc d, gEnc a, gEnc b, 21, Ty.code ty, 0, 0, 0⟩
  | .seq ty d a b => some ⟨0, 1, gEnc d, gEnc a, gEnc b, 22, Ty.code ty, 0, 0, 0⟩
  | .sne ty d a b => some ⟨0, 1, gEnc d, gEnc a, gEnc b, 23, Ty.code ty, 0, 0, 0⟩
  | .mov ty d a => some ⟨0, 1, gEnc d, gEnc a, 0, 24, Ty.code ty, 0, 0, 0⟩
  | .aluiAdd ty d a imm => some ⟨0, 2, gEnc d, gEnc a, 0, 0, Ty.code ty, 0, imm, 0⟩
  | .aluiAnd ty d a imm => some ⟨0, 2, gEnc d, gEnc a, 0, 6, Ty.code ty, 0, imm, 0⟩
  | .aluiOr ty d a imm => some ⟨0, 2, gEnc d, gEnc a, 0, 7, Ty.code ty, 0, imm, 0⟩
  | .aluiXor ty d a imm => some ⟨0, 2, gEnc d, gEnc a, 0, 8, Ty.code ty, 0, imm, 0⟩
  | .aluiShl ty d a imm => some ⟨0, 2, gEnc d, gEnc a, 0, 10, Ty.code ty, 0, imm, 0⟩
  | .aluiShr ty d a imm => some ⟨0, 2, gEnc d, gEnc a, 0, 11, Ty.code ty, 0, imm, 0⟩
  | .aluiSar ty d a imm => some ⟨0, 2, gEnc d, gEnc a, 0, 12, Ty.code ty, 0, imm, 0⟩
  | .aluiRol ty d a imm => some ⟨0, 2, gEnc d, gEnc a, 0, 13, Ty.code ty, 0, imm, 0⟩
  | .aluiMin ty d a imm => some ⟨0, 2, gEnc d, gEnc a, 0, 14, Ty.code ty, 0, imm, 0⟩
  | .aluiMax ty d a imm => some ⟨0, 2, gEnc d, gEnc a, 0, 15, Ty.code ty, 0, imm, 0⟩
  | .aluiSlt ty d a imm => some ⟨0, 2, gEnc d, gEnc a, 0, 21, Ty.code ty, 0, imm, 0⟩
  | .aluiSeq ty d a imm => some ⟨0, 2, gEnc d, gEnc a, 0, 22, Ty.code ty, 0, imm, 0⟩
  | .aluiSne ty d a imm => some ⟨0, 2, gEnc d, gEnc a, 0, 23, Ty.code ty, 0, imm, 0⟩
  | .li ty d imm => some ⟨0, 2, gEnc d, 0, 0, 31, Ty.code ty, 0, imm, 0⟩
  | .addl ty d a imm => some ⟨1, 3, gEnc d, gEnc a, 0, 0, Ty.code ty, 0, 0, imm.setWidth 64⟩
  | .lil ty d imm => some ⟨1, 3, gEnc d, 0, 0, 1, Ty.code ty, 0, 0, imm.setWidth 64⟩
  | .lih d a imm => some ⟨1, 3, gEnc d, gEnc a, 0, 2, Ty.code .i64, 0, 0, imm.setWidth 64⟩
  | .andl ty d a imm => some ⟨1, 3, gEnc d, gEnc a, 0, 3, Ty.code ty, 0, 0, imm.setWidth 64⟩
  | .orl ty d a imm => some ⟨1, 3, gEnc d, gEnc a, 0, 4, Ty.code ty, 0, 0, imm.setWidth 64⟩
  | .xorl ty d a imm => some ⟨1, 3, gEnc d, gEnc a, 0, 5, Ty.code ty, 0, 0, imm.setWidth 64⟩
  | .padd d a b => some ⟨0, 4, pEnc d, pEnc a, gEnc b, 0, 0, 0, 0, 0⟩
  | .paddi d a imm => some ⟨0, 4, pEnc d, pEnc a, 0, 1, 0, 0, imm, 0⟩
  | .paddl d a imm => some ⟨1, 4, pEnc d, pEnc a, 0, 2, 0, 0, 0, imm.setWidth 64⟩
  | .psub d a b => some ⟨0, 4, gEnc d, pEnc a, pEnc b, 3, 0, 0, 0, 0⟩
  | .plea d b off => some ⟨0, 4, pEnc d, 0, pEnc b, 4, 0, 0, hiM off 0, 0⟩
  | .pmov d fromG a => some ⟨0, 4, pEnc d, gpEnc fromG a, 0, 5, 0, 0, 0, 0⟩
  | .plo d a => some ⟨0, 4, gEnc d, pEnc a, 0, 6, 0, 0, 0, 0⟩
  | .phi d a => some ⟨0, 4, gEnc d, pEnc a, 0, 7, 0, 0, 0, 0⟩
  | .ploc d hi lo => some ⟨1, 4, pEnc d, 0, 0, 8, 0, 0, hi.setWidth 24, lo.setWidth 64⟩
  | .pcmp cond d a b => some ⟨0, 4, gEnc d, pEnc a, pEnc b, 9, 0, condEnc cond, 0, 0⟩
  | .fadd ty q d a b => some ⟨0, 5, gEnc d, gEnc a, gEnc b, 0, Ty.code ty, fqEnc q, 0, 0⟩
  | .fsub ty q d a b => some ⟨0, 5, gEnc d, gEnc a, gEnc b, 1, Ty.code ty, fqEnc q, 0, 0⟩
  | .fmul ty q d a b => some ⟨0, 5, gEnc d, gEnc a, gEnc b, 2, Ty.code ty, fqEnc q, 0, 0⟩
  | .fma ty q d a b c => some ⟨0, 5, gEnc d, gEnc a, gEnc b, 3, Ty.code ty, fqEnc q, hiR 0 (gEnc c), 0⟩
  | .fnma ty q d a b c => some ⟨0, 5, gEnc d, gEnc a, gEnc b, 4, Ty.code ty, fqEnc q, hiR 0 (gEnc c), 0⟩
  | .fdiv ty q d a b => some ⟨0, 5, gEnc d, gEnc a, gEnc b, 5, Ty.code ty, fqEnc q, 0, 0⟩
  | .fsqrt ty q d a => some ⟨0, 5, gEnc d, gEnc a, 0, 6, Ty.code ty, fqEnc q, 0, 0⟩
  | .fmin ty d a b => some ⟨0, 5, gEnc d, gEnc a, gEnc b, 7, Ty.code ty, 0, 0, 0⟩
  | .fmax ty d a b => some ⟨0, 5, gEnc d, gEnc a, gEnc b, 8, Ty.code ty, 0, 0, 0⟩
  | .fabs ty d a => some ⟨0, 5, gEnc d, gEnc a, 0, 9, Ty.code ty, 0, 0, 0⟩
  | .fneg ty d a => some ⟨0, 5, gEnc d, gEnc a, 0, 10, Ty.code ty, 0, 0, 0⟩
  | .fcmp ty cond d a b => some ⟨0, 5, gEnc d, gEnc a, gEnc b, 11, Ty.code ty, condEnc cond, 0, 0⟩
  | .fcvt dty sty q d a => some ⟨0, 5, gEnc d, gEnc a, 0, 12, Ty.code dty, fqEnc q, hiR 0 (tyEnc sty), 0⟩
  | .fclass ty d a => some ⟨0, 5, gEnc d, gEnc a, 0, 13, Ty.code ty, 0, 0, 0⟩
  | .fmovi ty d lit => some ⟨1, 5, gEnc d, 0, 0, 14, Ty.code ty, 0, 0, lit.setWidth 64⟩
  | .fsgn ty d a b => some ⟨0, 5, gEnc d, gEnc a, gEnc b, 15, Ty.code ty, 0, 0, 0⟩
  | .beq ty h a b imm => some ⟨0, 6, 0, gEnc a, gEnc b, 0, Ty.code ty, brhEnc h, imm, 0⟩
  | .bne ty h a b imm => some ⟨0, 6, 0, gEnc a, gEnc b, 1, Ty.code ty, brhEnc h, imm, 0⟩
  | .blt ty h a b imm => some ⟨0, 6, 0, gEnc a, gEnc b, 2, Ty.code ty, brhEnc h, imm, 0⟩
  | .bge ty h a b imm => some ⟨0, 6, 0, gEnc a, gEnc b, 3, Ty.code ty, brhEnc h, imm, 0⟩
  | .bz ty h a imm => some ⟨0, 6, 0, gEnc a, 0, 4, Ty.code ty, brhEnc h, imm, 0⟩
  | .bnz ty h a imm => some ⟨0, 6, 0, gEnc a, 0, 5, Ty.code ty, brhEnc h, imm, 0⟩
  | .bbs h a n imm => some ⟨0, 6, 0, gEnc a, n, 6, 0, brhEnc h, imm, 0⟩
  | .bbc h a n imm => some ⟨0, 6, 0, gEnc a, n, 7, 0, brhEnc h, imm, 0⟩
  | .j imm => some ⟨0, 7, 0, 0, 0, 0, 0, 0, imm, 0⟩
  | .jl imm => some ⟨1, 7, 0, 0, 0, 1, 0, 0, 0, imm.setWidth 64⟩
  | .jr a => some ⟨0, 7, 0, pEnc a, 0, 2, 0, 0, 0, 0⟩
  | .call imm => some ⟨0, 7, 0, 0, 0, 3, 0, 0, imm, 0⟩
  | .callr a => some ⟨0, 7, 0, pEnc a, 0, 4, 0, 0, 0, 0⟩
  | .ret => some ⟨0, 7, 0, 0, 0, 5, 0, 0, 0, 0⟩
  | .loop a imm => some ⟨0, 7, 0, gEnc a, 0, 6, 0, 0, imm, 0⟩
  | .loopi count imm => some ⟨1, 7, 0, 0, 0, 7, 0, 0, imm, count.setWidth 64⟩
  | .lexit => some ⟨0, 7, 0, 0, 0, 8, 0, 0, 0, 0⟩
  | .ld ty m d b off => some ⟨0, 8, gEnc d, 0, pEnc b, 0, Ty.code ty, mqEnc m, hiM off (Scope.code m.scope), 0⟩
  | .ldp m d b off => some ⟨0, 8, pEnc d, 0, pEnc b, 1, 0, mqEnc m, hiM off (Scope.code m.scope), 0⟩
  | .ldq8 m d b off => some ⟨0, 8, g8Enc d, 0, pEnc b, 2, 0, mqEnc m, hiM off (Scope.code m.scope), 0⟩
  | .ldw m d b off => some ⟨0, 8, gEnc d, 0, pEnc b, 3, 0, mqEnc m, hiM off (Scope.code m.scope), 0⟩
  | .ldt ty d b off => some ⟨0, 8, gEnc d, 0, pEnc b, 4, Ty.code ty, 0, hiM off 0, 0⟩
  | .st ty m b off a => some ⟨0, 9, 0, gEnc a, pEnc b, 0, Ty.code ty, mqEnc m, hiM off (Scope.code m.scope), 0⟩
  | .stp m b off a => some ⟨0, 9, 0, pEnc a, pEnc b, 1, 0, mqEnc m, hiM off (Scope.code m.scope), 0⟩
  | .stq8 m b off a => some ⟨0, 9, 0, g8Enc a, pEnc b, 2, 0, mqEnc m, hiM off (Scope.code m.scope), 0⟩
  | .stf m b off a => some ⟨0, 9, 0, gEnc a, pEnc b, 3, 0, mqEnc m, hiM off (Scope.code m.scope), 0⟩
  | .aadd ty o sc d b off a => some ⟨0, 10, gEnc d, gEnc a, pEnc b, 0, Ty.code ty, ordEnc o, hiM off (Scope.code sc), 0⟩
  | .aand ty o sc d b off a => some ⟨0, 10, gEnc d, gEnc a, pEnc b, 1, Ty.code ty, ordEnc o, hiM off (Scope.code sc), 0⟩
  | .aor ty o sc d b off a => some ⟨0, 10, gEnc d, gEnc a, pEnc b, 2, Ty.code ty, ordEnc o, hiM off (Scope.code sc), 0⟩
  | .axor ty o sc d b off a => some ⟨0, 10, gEnc d, gEnc a, pEnc b, 3, Ty.code ty, ordEnc o, hiM off (Scope.code sc), 0⟩
  | .amin ty o sc d b off a => some ⟨0, 10, gEnc d, gEnc a, pEnc b, 4, Ty.code ty, ordEnc o, hiM off (Scope.code sc), 0⟩
  | .amax ty o sc d b off a => some ⟨0, 10, gEnc d, gEnc a, pEnc b, 5, Ty.code ty, ordEnc o, hiM off (Scope.code sc), 0⟩
  | .aswp ty o sc d b off a => some ⟨0, 10, gEnc d, gEnc a, pEnc b, 6, Ty.code ty, ordEnc o, hiM off (Scope.code sc), 0⟩
  | .acas ty o sc d b off a => some ⟨0, 10, gEnc d, gEnc a, pEnc b, 7, Ty.code ty, ordEnc o, hiM off (Scope.code sc), 0⟩
  | .aacc o sc b off a => some ⟨0, 10, 0, g2Enc a, pEnc b, 8, 0, ordEnc o, hiM off (Scope.code sc), 0⟩
  | .fence sc => some ⟨0, 11, 0, 0, 0, 0, 0, 0, hiM 0 (Scope.code sc), 0⟩
  | .bind sc b off a d => some ⟨0, 11, gEnc d, pEnc a, pEnc b, 1, 0, 0, hiM off (Scope.code sc), 0⟩
  | .unbind sc b off => some ⟨0, 11, 0, 0, pEnc b, 2, 0, 0, hiM off (Scope.code sc), 0⟩
  | .acq sc b off => some ⟨0, 11, 0, 0, pEnc b, 3, 0, 0, hiM off (Scope.code sc), 0⟩
  | .rel sc b off => some ⟨0, 11, 0, 0, pEnc b, 4, 0, 0, hiM off (Scope.code sc), 0⟩
  | .send d a obj entry => some ⟨1, 12, gEnc d, gEnc a, objB obj, 0, 0, objQ obj, hiM 0 (objS obj), entry32 entry⟩
  | .sendc d a obj c len => some ⟨2, 12, gEnc d, gEnc a, objB obj, 1, 0, objQ obj, hiR 0 (pEnc c), sendcExt len (objS obj)⟩
  | .reply d a obj code => some ⟨1, 12, gEnc d, gEnc a, objB obj, 2, 0, objQ obj, hiM 0 (objS obj), code.setWidth 64⟩
  | .start d a b c => some ⟨0, 12, gEnc d, gEnc a, gEnc b, 3, 0, 0, hiR 0 (gEnc c), 0⟩
  | .halt => some ⟨0, 12, 0, 0, 0, 4, 0, 0, 0, 0⟩
  | .wget => some ⟨0, 12, 0, 0, 0, 5, 0, 0, 0, 0⟩
  | .qarm => some ⟨0, 12, 0, 0, 0, 6, 0, 0, 0, 0⟩
  | .tend => some ⟨0, 13, 0, 0, 0, 0, 0, 0, 0, 0⟩
  | .tnext d => some ⟨0, 13, gEnc d, 0, 0, 1, 0, 0, 0, 0⟩
  | .tspawn a b => some ⟨0, 13, 0, pEnc a, gEnc b, 2, 0, 0, 0, 0⟩
  | .bread d a b c bentry centry stride => some ⟨2, 14, gEnc d, pEnc a, gEnc b, 0, 0, 0, hiR 0 (gEnc c), stride ++ centry ++ 0#2 ++ bentry ++ 0#2⟩
  | .copy pub a b c d rowb rows sstr => some ⟨2, 14, gEnc d, pEnc a, pEnc b, 1, 0, 0, hiR 0 (pEnc c), 0#15 ++ BitVec.ofBool pub ++ sstr ++ rows ++ rowb ++ 0#5⟩
  | .copym a b c d lx ly esz dir => some ⟨2, 14, gEnc d, pEnc a, pEnc b, 2, 0, 0, hiR 0 (pEnc c), 0#53 ++ BitVec.ofBool dir ++ esz ++ ly ++ lx⟩
  | .binit b off a => some ⟨0, 15, 0, gEnc a, pEnc b, 0, 0, 0, hiM off 0, 0⟩
  | .bexp b off a => some ⟨0, 15, 0, gEnc a, pEnc b, 1, 0, 0, hiM off 0, 0⟩
  | .barr d b off => some ⟨0, 15, gEnc d, 0, pEnc b, 2, 0, 0, hiM off 0, 0⟩
  | .bwait b off a => some ⟨0, 15, 0, gEnc a, pEnc b, 3, 0, 0, hiM off 0, 0⟩
  | .btest d b off a => some ⟨0, 15, gEnc d, gEnc a, pEnc b, 4, 0, 0, hiM off 0, 0⟩
  | .qinit a b => some ⟨0, 16, 0, gEnc a, gEnc b, 0, 0, 0, 0, 0⟩
  | .qpush a b => some ⟨0, 16, 0, gEnc a, gEnc b, 1, 0, 0, 0, 0⟩
  | .qpop d a => some ⟨0, 16, gEnc d, gEnc a, 0, 2, 0, 0, 0, 0⟩
  | .qavail d a => some ⟨0, 16, gEnc d, gEnc a, 0, 3, 0, 0, 0, 0⟩
  | .rot a b n => some ⟨2, 16, 0, pEnc a, pEnc b, 4, 0, 0, 0, 0#32 ++ n⟩
  | .aopen d b rows => some ⟨2, 17, accEnc d, 0, pEnc b, 0, 0, 0, 0, 0#48 ++ rows⟩
  | .asend a b c r0 r1 => some ⟨2, 17, 0, accEnc a, pEnc b, 1, 0, 0, hiR 0 (gEnc c), 0#50 ++ r1 ++ 0#2 ++ r0⟩
  | .aclose d => some ⟨0, 17, accEnc d, 0, 0, 2, 0, 0, 0, 0⟩
  | .vadd ty q d a b k => some ⟨0, 18, vEnc d, vEnc a, vEnc b, 0, Ty.code ty, fqEnc q, hiR k 0, 0⟩
  | .vsub ty q d a b k => some ⟨0, 18, vEnc d, vEnc a, vEnc b, 1, Ty.code ty, fqEnc q, hiR k 0, 0⟩
  | .vmul ty q d a b k => some ⟨0, 18, vEnc d, vEnc a, vEnc b, 2, Ty.code ty, fqEnc q, hiR k 0, 0⟩
  | .vfma ty q d a b c k => some ⟨0, 18, vEnc d, vEnc a, vEnc b, 3, Ty.code ty, fqEnc q, hiR k (vEnc c), 0⟩
  | .vfnma ty q d a b c k => some ⟨0, 18, vEnc d, vEnc a, vEnc b, 4, Ty.code ty, fqEnc q, hiR k (vEnc c), 0⟩
  | .vmin ty d a b k => some ⟨0, 18, vEnc d, vEnc a, vEnc b, 5, Ty.code ty, 0, hiR k 0, 0⟩
  | .vmax ty d a b k => some ⟨0, 18, vEnc d, vEnc a, vEnc b, 6, Ty.code ty, 0, hiR k 0, 0⟩
  | .vabs ty d a k => some ⟨0, 18, vEnc d, vEnc a, 0, 7, Ty.code ty, 0, hiR k 0, 0⟩
  | .vneg ty d a k => some ⟨0, 18, vEnc d, vEnc a, 0, 8, Ty.code ty, 0, hiR k 0, 0⟩
  | .vand ty d a b k => some ⟨0, 18, vEnc d, vEnc a, vEnc b, 9, Ty.code ty, 0, hiR k 0, 0⟩
  | .vor ty d a b k => some ⟨0, 18, vEnc d, vEnc a, vEnc b, 10, Ty.code ty, 0, hiR k 0, 0⟩
  | .vxor ty d a b k => some ⟨0, 18, vEnc d, vEnc a, vEnc b, 11, Ty.code ty, 0, hiR k 0, 0⟩
  | .vshl ty d a b k => some ⟨0, 18, vEnc d, vEnc a, vEnc b, 12, Ty.code ty, 0, hiR k 0, 0⟩
  | .vshr ty d a b k => some ⟨0, 18, vEnc d, vEnc a, vEnc b, 13, Ty.code ty, 0, hiR k 0, 0⟩
  | .vsar ty d a b k => some ⟨0, 18, vEnc d, vEnc a, vEnc b, 14, Ty.code ty, 0, hiR k 0, 0⟩
  | .vmov d a k => some ⟨0, 18, vEnc d, vEnc a, 0, 15, 0, 0, hiR k 0, 0⟩
  | .vbcast ty d a k => some ⟨0, 18, vEnc d, gEnc a, 0, 16, Ty.code ty, 0, hiR k 0, 0⟩
  | .vsel ty d a b k => some ⟨0, 18, vEnc d, vEnc a, vEnc b, 17, Ty.code ty, 0, hiR k 0, 0⟩
  | .vidx ty d a k => some ⟨0, 18, vEnc d, gEnc a, 0, 18, Ty.code ty, 0, hiR k 0, 0⟩
  | .vdiv ty q d a b k => some ⟨0, 18, vEnc d, vEnc a, vEnc b, 19, Ty.code ty, fqEnc q, hiR k 0, 0⟩
  | .vclamp ty d a b c k => some ⟨0, 18, vEnc d, vEnc a, vEnc b, 20, Ty.code ty, 0, hiR k (vEnc c), 0⟩
  | .vcmp ty cond d a b k => some ⟨0, 19, kEnc d, vEnc a, vEnc b, 0, Ty.code ty, condEnc cond, hiR k 0, 0⟩
  | .kand d a b => some ⟨0, 19, kEnc d, kEnc a, kEnc b, 1, 0, 0, 0, 0⟩
  | .kor d a b => some ⟨0, 19, kEnc d, kEnc a, kEnc b, 2, 0, 0, 0, 0⟩
  | .kxor d a b => some ⟨0, 19, kEnc d, kEnc a, kEnc b, 3, 0, 0, 0, 0⟩
  | .knot d a => some ⟨0, 19, kEnc d, kEnc a, 0, 4, 0, 0, 0, 0⟩
  | .kpop d a => some ⟨0, 19, gEnc d, kEnc a, 0, 5, 0, 0, 0, 0⟩
  | .kset d a b => some ⟨0, 19, kEnc d, gEnc a, gEnc b, 6, 0, 0, 0, 0⟩
  | .kget d a b => some ⟨0, 19, gEnc d, kEnc a, gEnc b, 7, 0, 0, 0, 0⟩
  | .vexp2 ty q d a k => some ⟨0, 22, vEnc d, vEnc a, 0, 0, Ty.code ty, fqEnc q, hiR k 0, 0⟩
  | .vlog2 ty q d a k => some ⟨0, 22, vEnc d, vEnc a, 0, 1, Ty.code ty, fqEnc q, hiR k 0, 0⟩
  | .vrcp ty q d a k => some ⟨0, 22, vEnc d, vEnc a, 0, 2, Ty.code ty, fqEnc q, hiR k 0, 0⟩
  | .vrsqrt ty q d a k => some ⟨0, 22, vEnc d, vEnc a, 0, 3, Ty.code ty, fqEnc q, hiR k 0, 0⟩
  | .vsqrt ty q d a k => some ⟨0, 22, vEnc d, vEnc a, 0, 4, Ty.code ty, fqEnc q, hiR k 0, 0⟩
  | .vsinpi ty q d a k => some ⟨0, 22, vEnc d, vEnc a, 0, 5, Ty.code ty, fqEnc q, hiR k 0, 0⟩
  | .vcospi ty q d a k => some ⟨0, 22, vEnc d, vEnc a, 0, 6, Ty.code ty, fqEnc q, hiR k 0, 0⟩
  | .vtanh ty q d a k => some ⟨0, 22, vEnc d, vEnc a, 0, 7, Ty.code ty, fqEnc q, hiR k 0, 0⟩
  | .vsigm ty q d a k => some ⟨0, 22, vEnc d, vEnc a, 0, 8, Ty.code ty, fqEnc q, hiR k 0, 0⟩
  | .verf ty q d a k => some ⟨0, 22, vEnc d, vEnc a, 0, 9, Ty.code ty, fqEnc q, hiR k 0, 0⟩
  | .vrsum ty q d a k => some ⟨0, 23, gEnc d, vEnc a, 0, 0, Ty.code ty, fqEnc q, hiR k 0, 0⟩
  | .vrmax ty d a k => some ⟨0, 23, gEnc d, vEnc a, 0, 1, Ty.code ty, 0, hiR k 0, 0⟩
  | .vrmin ty d a k => some ⟨0, 23, gEnc d, vEnc a, 0, 2, Ty.code ty, 0, hiR k 0, 0⟩
  | .vperm ty d a b k => some ⟨0, 23, vEnc d, vEnc a, vEnc b, 3, Ty.code ty, 0, hiR k 0, 0⟩
  | .vrotl ty d a b k => some ⟨0, 23, vEnc d, vEnc a, gEnc b, 4, Ty.code ty, 0, hiR k 0, 0⟩
  | .vzip ty h d a b k => some ⟨0, 23, vEnc d, vEnc a, vEnc b, 5, Ty.code ty, 0, hiR k (bitEnc h), 0⟩
  | .vunzip ty h d a b k => some ⟨0, 23, vEnc d, vEnc a, vEnc b, 6, Ty.code ty, 0, hiR k (bitEnc h), 0⟩
  | .vext ty d a b => some ⟨0, 23, gEnc d, vEnc a, gEnc b, 7, Ty.code ty, 0, 0, 0⟩
  | .vins ty d a b => some ⟨0, 23, vEnc d, gEnc a, gEnc b, 8, Ty.code ty, 0, 0, 0⟩
  | .vcvt dty sty q d a part k => some ⟨0, 21, vEnc d, vEnc a, kEnc part, 0, Ty.code dty, fqEnc q, hiR k (tyEnc sty), 0⟩
  | .vqnt ty kind q d a part => some ⟨0, 21, vEnc d, vEnc a, kEnc part, 1, Ty.code ty, fqEnc q, hiR 0 (kindEnc kind), 0⟩
  | .vdqnt ty q d a part k => some ⟨0, 21, vEnc d, vEnc a, kEnc part, 2, Ty.code ty, fqEnc q, hiR k 0, 0⟩
  | .vretag d a tag => some ⟨0, 21, vEnc d, vEnc a, tag, 3, 0, 0, 0, 0⟩
  | .vtag d a => some ⟨0, 21, gEnc d, vEnc a, 0, 4, 0, 0, 0, 0⟩
  | .vld ty kind m d b off k => some ⟨0, 20, vEnc d, selEnc kind k, pEnc b, 0, Ty.code ty, mqEnc m, hiM off (Scope.code m.scope), 0⟩
  | .vst ty kind m b off a k => some ⟨0, 20, selEnc kind k, vEnc a, pEnc b, 1, Ty.code ty, mqEnc m, hiM off (Scope.code m.scope), 0⟩
  | .vlds ty m d b off a => some ⟨0, 20, vEnc d, gEnc a, pEnc b, 2, Ty.code ty, mqEnc m, hiM off (Scope.code m.scope), 0⟩
  | .vsts ty m b off a d => some ⟨0, 20, gEnc d, vEnc a, pEnc b, 3, Ty.code ty, mqEnc m, hiM off (Scope.code m.scope), 0⟩
  | .vgath ty m d b off a => some ⟨0, 20, vEnc d, vEnc a, pEnc b, 4, Ty.code ty, mqEnc m, hiM off (Scope.code m.scope), 0⟩
  | .vscat ty m b off a d => some ⟨0, 20, vEnc d, vEnc a, pEnc b, 5, Ty.code ty, mqEnc m, hiM off (Scope.code m.scope), 0⟩
  | .vstp m b off a => some ⟨0, 20, 0, vEnc a, pEnc b, 6, 0, mqEnc m, hiM off (Scope.code m.scope), 0⟩
  | .vldw ty kind m d b off => some ⟨0, 20, vEnc d, selEnc kind 0, pEnc b, 7, Ty.code ty, mqEnc m, hiM off (Scope.code m.scope), 0⟩
  | .tlda sc h d b off n => some ⟨1, 20, vEnc d, raw4Enc n, pEnc b, 8, 0, hintEnc h, hiM 0 (Scope.code sc), off.setWidth 64⟩
  | .tsta sc h b off a n => some ⟨1, 20, raw4Enc n, vEnc a, pEnc b, 9, 0, hintEnc h, hiM 0 (Scope.code sc), off.setWidth 64⟩
  | .vldsc kind m d b off => some ⟨0, 20, vEnc d, kindEnc kind, pEnc b, 10, 0, mqEnc m, hiM off (Scope.code m.scope), 0⟩
  | .vstsc kind m b off a => some ⟨0, 20, kindEnc kind, vEnc a, pEnc b, 11, 0, mqEnc m, hiM off (Scope.code m.scope), 0⟩
  | .mbegin a => some ⟨0, 24, 0, gEnc a, 0, 0, 0, 0, 0, 0⟩
  | .mend => some ⟨0, 24, 0, 0, 0, 1, 0, 0, 0, 0⟩
  | .mma d x y c bk => some ⟨2, 24, accEnc d, pEnc x.base, pEnc y.base, 2, Ty.code x.ty, 0, hiR 0 (optPEnc c),
      0#23 ++ BitVec.ofBool bk ++ Kind.code y.kind ++ Kind.code x.kind ++ Ty.code y.ty ++ y.stride ++ x.stride⟩
  | .mzero d => some ⟨0, 24, accEnc d, 0, 0, 3, 0, 0, 0, 0⟩
  | .mst ty q b off a stride => some ⟨1, 24, 0, accEnc a, pEnc b, 4, Ty.code ty, fqEnc q, stride.setWidth 24, off.setWidth 64⟩
  | .mld d b off stride => some ⟨1, 24, accEnc d, 0, pEnc b, 5, 0, 0, stride.setWidth 24, off.setWidth 64⟩
  | .mldt ty d b off => some ⟨1, 24, vEnc d, 0, pEnc b, 6, Ty.code ty, 0, 0, off.setWidth 64⟩
  | .manch d a b => some ⟨0, 24, gEnc d, gEnc a, gEnc b, 7, 0, 0, 0, 0⟩
  | .mwait => some ⟨0, 24, 0, 0, 0, 8, 0, 0, 0, 0⟩
  | .noWorkAnswer => none
  | .secondCopyTaken => none
  | .idleTimeout => none
  | .joinStackRefill => none
  | .powerGate => none
  | .msixVectorUnmask => none
  | .hostSnoop => none
  | .badTypePacket => none
  | .illegalInstruction _ _ => none

/-- What stands at an address, read in the order of R213 from the `room` bytes to the end of its fetch block. -/
inductive Fetched where
  /-- The fill word 0x0000_0003, four bytes (R210). -/
  | fill
  /-- LEN is 11 and the word is no fill word: ILLEGAL_LENGTH. -/
  | badLength
  /-- The instruction would pass the end of its block: FETCH_CROSS (R211). -/
  | cross
  /-- An encoding of `bytes` bytes that is no instruction: ILLEGAL_INSTRUCTION (R223). -/
  | illegal (bytes : Nat)
  /-- An instruction of `bytes` bytes. -/
  | instr (i : Instr) (bytes : Nat)
  deriving DecidableEq, Repr

/-- The instruction with fields `r`, after every check of R223. -/
def decodeRaw (r : Raw) : Option Instr :=
  match decodeFields r with
  | some i => if i.wellFormed then some i else none
  | none => none

/-- Decodes the instruction that starts with the bits `w`, `room` bytes before the end of its fetch block (R213 checks 2 to 4). -/
def decode (room : Nat) (w : BitVec 128) : Fetched :=
  if (Raw.ofWord w).len = 3 then
    if w.extractLsb' 0 32 = 3#32 then .fill else .badLength
  else if room < lenBytes (Raw.ofWord w).len then .cross
  else
    match decodeRaw (Raw.ofWord w) with
    | some i => .instr i (lenBytes (Raw.ofWord w).len)
    | none => .illegal (lenBytes (Raw.ofWord w).len)

/-- The bits of a list of bytes, the first byte lowest: code is stored little-endian (R210). -/
def bitsOfBytes : List Byte → Nat
  | [] => 0
  | b :: t => b.toNat + 256 * bitsOfBytes t

/-- The first `n` bytes of `w`, the lowest first. -/
def bytesOfBits : Nat → Nat → List Byte
  | 0, _ => []
  | n + 1, w => BitVec.ofNat 8 w :: bytesOfBits n (w / 256)

/-- Decodes the bytes of one instruction that starts a fetch block: rejected encodings become
ILLEGAL_INSTRUCTION and ILLEGAL_LENGTH by name (R223); a fill word is no instruction. -/
def decodeBytes (bs : List Byte) : Option Instr :=
  match decode 32 (BitVec.ofNat 128 (bitsOfBytes bs)) with
  | .instr i _ => some i
  | .illegal _ => some (.illegalInstruction .instruction (BitVec.ofNat 64 (bitsOfBytes bs)))
  | .badLength => some (.illegalInstruction .length (BitVec.ofNat 64 (bitsOfBytes bs % 2 ^ 32)))
  | .fill | .cross => none

/-- The bytes of an instruction, as they lie in memory. -/
def encodeBytes (i : Instr) : Option (List Byte) :=
  (encode i).map fun r => bytesOfBits (lenBytes r.len) r.toWord.toNat

/-- The instruction the decoder reads from the `nbits` bits `w`, zero above them. -/
def decodeTableWord (nbits w : Nat) : Option Instr :=
  decodeBytes (bytesOfBits 16 (w % 2 ^ nbits))

end Sys2Proof
end

