-- ==== Sys2Proof/Machine/Map.lean ====
section
/-! DEFINITION. Sparse maps with Nat keys: lists of key and value in rising order, read with a default.
Memory, register files, cores and every other indexed part of the state are held in this one form. -/

namespace Sys2Proof.Machine

/-- A sparse map. An unlisted key reads as the map's default. -/
abbrev Assoc (α : Type) := List (Nat × α)

/-- What key `k` reads as, with default `d`. -/
def Assoc.get {α : Type} (d : α) : Assoc α → Nat → α
  | [], _ => d
  | (j, v) :: t, k => if j = k then v else Assoc.get d t k

/-- The entry of key `k`, if it is listed. -/
def Assoc.find {α : Type} : Assoc α → Nat → Option α
  | [], _ => none
  | (j, v) :: t, k => if j = k then some v else Assoc.find t k

/-- Lists key `k` with value `v`, in place of what it had, keeping the keys in rising order. -/
def Assoc.put {α : Type} : Assoc α → Nat → α → Assoc α
  | [], k, v => [(k, v)]
  | (j, w) :: t, k, v =>
    if k < j then (k, v) :: (j, w) :: t
    else if k = j then (k, v) :: t
    else (j, w) :: Assoc.put t k v

/-- Key `k` no longer listed. -/
def Assoc.del {α : Type} : Assoc α → Nat → Assoc α
  | [], _ => []
  | (j, w) :: t, k => if j = k then Assoc.del t k else (j, w) :: Assoc.del t k

/-- Writes `v` at `k` and keeps the canonical form: the default is never listed. -/
def Assoc.set {α : Type} [DecidableEq α] (d : α) (m : Assoc α) (k : Nat) (v : α) : Assoc α :=
  if v = d then Assoc.del m k else Assoc.put m k v

/-- No key from `lo` up to, not including, `hi` is listed any more: all of them read the default. -/
def Assoc.clear {α : Type} (m : Assoc α) (lo hi : Nat) : Assoc α :=
  m.filter fun e => e.1 < lo || hi ≤ e.1

/-- The canonical form: keys strictly rising, and no entry equal to the default. -/
def Assoc.wf {α : Type} [DecidableEq α] (d : α) : Assoc α → Bool
  | [] => true
  | (j, v) :: t => v ≠ d && t.all (fun e => j < e.1) && Assoc.wf d t

end Sys2Proof.Machine
end

