-- ==== Sys2Proof/Machine/Parts.lean ====
section
/-! DEFINITION. The parts that the machine's state is made of: trap records, contexts, task records, packets in
flight, engine commands, fields and jobs. All of it is plain data. -/

namespace Sys2Proof.Machine

/-! ### Traps (R346 to R349) -/

/-- Trap causes (R349). -/
inductive Cause where
  | illegalInstruction | illegalLength | fetchCross | privilege | misaligned | translation | permission | absentMember
  | formatMismatch | engineNotOwned | matrixUndeclared | weightExhausted | peerExited | asyncError | acnNak
  | barrierStall | queueError | watchpoint | step | trapInstruction | quiescent | engineFault | pairMismatch
  | burstWait | loopOverflow | tileRetry | inboxOverflow | cellReset
  deriving DecidableEq, Repr

/-- How a trap is raised and resumed (R349): precise, after, engine-precise. -/
inductive TrapKind where
  | p | a | e
  deriving DecidableEq, Repr

/-- An outstanding trap record of a context (R346). `bytes` is the length of the trapped instruction by its LEN bits,
none when it was never fetched (R351). -/
structure TrapRec where
  cause : Cause
  kind : TrapKind
  detail : BitVec 16
  cmsg : Bool
  pc : Ptr
  val : Word
  gen : BitVec 12
  resume : Ptr
  bytes : Option Nat
  deriving DecidableEq, Repr

/-- A notice (R347). The fields other than cause, detail and value are zero except for an ENGINE_FAULT (R350). -/
structure Notice where
  cause : Cause
  detail : BitVec 16
  val : Word
  engine : Bool
  pc : Ptr
  gen : BitVec 12
  slot : Nat
  deriving DecidableEq, Repr

/-! ### Contexts -/

/-- One hardware loop level (R270). -/
structure LoopLevel where
  active : Bool
  start : Ptr
  stop : Ptr
  count : BitVec 32
  deriving DecidableEq, Repr

/-- One issued and not yet drained store (R143): its bytes by physical key, its mark and what it is for. -/
structure SbEntry where
  cells : List (Nat × Byte)
  poison : Bool
  setFull : Bool
  /-- An ordered store of a paired context: it is written at the scope's point when it leaves (R149, R198). -/
  through : Bool
  va : Nat
  /-- The store's own address, for a watchpoint that matches at its Drain. -/
  pc : Ptr
  /-- The port of a store to another member's memory, as its translation read it (R378). -/
  port : Nat
  deriving DecidableEq, Repr

/-- What a context waits on (the waits of R316 and R317, and those of R65, R140, R198, R355 and R357). -/
inductive WaitOn where
  | engineQueue | budget | messagePort | barrier | fullBit | reply | pipe | helper | rotate | migration | remote
  | leaseAck | hold | refill | idle | matrix | storeBuffer | invalidation | linkAck | joinIndex | pairInterval | retry
  | mesh | loadQueue
  deriving DecidableEq, Repr

/-- A wait in progress: what on, the address it reports (R349 BARRIER_STALL), and the cycle it began. -/
structure Waiting where
  on : WaitOn
  addr : Word
  since : Nat
  deriving DecidableEq, Repr

/-- What brought the context to life; burst and completion handlers may not wait (R302). -/
inductive Role where
  | none | supervisor | task | message | burst | completion | started | stray | quiescence | error
  deriving DecidableEq, Repr

/-- A message, a reply, a start or a stray on its way or held (R288 to R292, R108). -/
structure Message where
  kind : BitVec 4
  dest : BitVec 10
  entry : BitVec 32
  cookie : BitVec 32
  code : BitVec 32
  payload : List Word
  marks : List Bool
  weight : Nat
  dom : BitVec 24
  sender : BitVec 10
  sslot : BitVec 4
  sgen : BitVec 12
  tslot : BitVec 4
  tgen : BitVec 12
  obj : Option (Ptr × Scope)
  reason : BitVec 4
  text : Option (List Byte)
  deriving DecidableEq, Repr

/-- What an access needs of its leaf (R137). -/
inductive Access where
  | fetch | read | write | update
  deriving DecidableEq, Repr

/-- An access of the instruction in progress that has been translated: its address, what it needs, and the physical key of its
first byte. It completes by what its translation read (R27, R378). -/
structure Place where
  va : Nat
  need : Access
  key : Nat
  /-- For another member's memory the port that its page takes, as the translation read it (R20, R378). -/
  port : Nat
  deriving DecidableEq, Repr

/-- A relaxed atomic on another member's memory that has been issued and has not returned its value: the number of its request, the
g register that the old value goes to (none for `aacc`), and its type (R25). -/
structure Late where
  id : Nat
  dst : Option GReg
  ty : Ty
  deriving DecidableEq, Repr

/-- The region of a synchronisation object: its first byte and its length (R151). -/
structure Region where
  base : Nat
  len : Nat
  deriving DecidableEq, Repr

/-- The state of a remote atomic of a context (R24, R26). -/
inductive Remote where
  | idle
  /-- The request with this number is on a link, or its response is awaited. -/
  | outstanding (id : Nat)
  /-- The response arrived whole, with the old value and its mark. -/
  | answered (old : Nat) (poison : Bool)
  /-- The link timeout expired. -/
  | lost
  deriving DecidableEq, Repr

/-- A line of another member's memory that a context's instruction asked for: awaited, arrived, or lost (R26). It may enter CV
while `keep` holds: a write of the core to the line ends that (R142, R155). -/
structure Fetch where
  arrived : Bool
  lost : Bool
  data : List Byte
  poison : BitVec 2
  keep : Bool
  deriving DecidableEq, Repr

/-- One context slot (R92). -/
structure Ctx where
  live : Bool
  role : Role
  gen : BitVec 12
  pc : Ptr
  g : Assoc Word
  p : Assoc Ptr
  /-- Poison marks of registers, by unified register number (R193, R218). -/
  marks : List Nat
  loop0 : LoopLevel
  loop1 : LoopLevel
  wheld : Nat
  whome : BitVec 24
  cir : Word
  lostw : BitVec 32
  /-- CIR bits that the instruction in progress sets when it completes (R194). -/
  eaten : Nat
  /-- How often the instruction in progress has tried, the step of it that comes next, and what it keeps between its steps
  (the retries of R161). -/
  tries : Nat
  stage : Nat
  latch : Nat
  fpctl : Word
  fpstat : Word
  retired : Nat
  sb : List SbEntry
  trap : Option TrapRec
  step1 : Bool
  /-- A trap of kind A that the instruction in progress raises when it completes: cause, DETAIL, TRAPVAL (R349). -/
  after : Option (Cause × Nat × Word)
  halted : Bool
  skid : BitVec 4
  /-- How many instructions past issue a halted context still retires (R204, R375). -/
  skidLeft : Nat
  /-- Under `stepx`: the slot issues one instruction although it is halted (R206). -/
  stepping : Bool
  waiting : Option Waiting
  replies : List Message
  text : Option (List Byte)
  remote : Remote
  /-- Lines of other members fetched for the instruction in progress, by line number. -/
  fetched : Assoc Fetch
  /-- The accesses of the instruction in progress that have been translated. -/
  places : List Place
  /-- The bytes, by key, of the scratchpad words whose full bits the instruction in progress waits for, when it arrived at their owner, and
  what a setting of the bits has released to it (R133). -/
  awaits : List Nat
  arrived : Nat
  grant : Option (List (Byte × Bool))
  /-- Atomics on other members' memory that the context has run ahead of (R25). -/
  lates : List Late
  /-- The instruction in progress has had an effect that it must not have twice: it is past issue, and completes (R375). -/
  committed : Bool
  /-- The identity of the `bread` request that the handler belongs to (R301). -/
  request : Option Nat
  deriving DecidableEq, Repr

/-! ### Vector, mask and accumulator registers (R8, R169, R171) -/

/-- A vector register: data, tag, sixteen scale slots of 32 bits, and one mark per 32-byte sector. -/
structure VRegState where
  data : VData
  tag : BitVec 6
  side : BitVec 512
  marks : BitVec 8
  deriving DecidableEq, Repr

/-- One ACC128 word (R171): V, and a state of two bits. -/
structure AccWord where
  v : BitVec 128
  st : BitVec 2
  deriving DecidableEq, Repr

/-- An accumulator tile: its words by 32·row + column, its row marks, and the anchor and object of an open tile (R312). -/
structure Tile where
  words : Assoc AccWord
  marks : BitVec 32
  opened : Option (BitVec 12 × Ptr)
  deriving DecidableEq, Repr

/-! ### Tasks (R73 to R91) -/

/-- The identity of a grid launch that a GRID task carries (R77). -/
structure Grid where
  ntx : Nat
  tx : Nat
  ty : Nat
  x : Nat
  y : Nat
  deriving DecidableEq, Repr

/-- The fields of a task record that a copy carries. -/
structure TaskRec where
  entry : BitVec 32
  flags : BitVec 32
  param : BitVec 128
  succ : BitVec 128
  iterLo : BitVec 32
  iterHi : BitVec 32
  hintX : Byte
  hintY : Byte
  radius : Byte
  gangPos : Byte
  gangId : BitVec 16
  deriving DecidableEq, Repr

/-- A released copy (R76): role 0's record, the records of the other roles of a gang, its weight and domain. -/
structure TaskCopy where
  task : TaskRec
  roles : List TaskRec
  weight : Nat
  dom : BitVec 24
  grid : Option Grid
  deriving DecidableEq, Repr

/-- What a control context runs. `join` is the index of the join entry it holds; `gang` lists the cluster positions of
the members by role; `pairEast` says that the task runs paired. -/
structure Running where
  task : TaskRec
  join : Option Nat
  grid : Option Grid
  gang : List Nat
  role : Nat
  paired : Bool
  deriving DecidableEq, Repr

/-- A join entry (R88), in the memory that the micro-kernel keeps. -/
structure JoinEntry where
  succ : BitVec 128
  openPieces : Nat
  countIt : Bool
  deriving DecidableEq, Repr

/-! ### Engines -/

/-- The operation of a queued matrix command (R335 to R341). -/
inductive MatOp where
  | mma (d : AccReg) (x y : MmaOperand) (a b : Ptr) (c : Option Ptr) (bk : Bool)
  | mzero (d : AccReg)
  | mld (d : AccReg) (va : Ptr) (stride : Nat)
  | mst (ty : Ty) (sat : Bool) (rm : Rm) (seed : BitVec 32) (va : Ptr) (a : AccReg) (stride : Nat)
  deriving DecidableEq, Repr

/-- A queued matrix command, with what it latched at issue. `cols` is the B of an `mma` once the engine has read it: for each column its
elements and its scales, and whether a byte of them was marked. -/
structure MatCmd where
  op : MatOp
  anchor : BitVec 12
  pc : Ptr
  gen : BitVec 12
  cols : Option (List (List Nat × List Nat × Bool))
  deriving DecidableEq, Repr

/-- A queued command of the accumulate network (R313): rows `r0` to `r1` - 1 of a tile, the sender's object, the target word, MANCHOR at issue, and
how many earlier matrix commands are still to retire. -/
structure AcnCmd where
  slot : Nat
  gen : BitVec 12
  tile : AccReg
  obj : Ptr
  target : Word
  r0 : Nat
  r1 : Nat
  anchor : BitVec 12
  after : Nat
  deriving DecidableEq, Repr

/-- The operation of a queued bulk command (R300 to R306). `done` lists the sectors or bursts already requested. -/
inductive BulkOp where
  | bread (req : Nat) (base : Ptr) (stride : Int) (rows cols row64 : Nat)
  | copy (pub : Bool) (dst src : Ptr) (dstride sstride : Int) (rows cols : Nat) (obj : Ptr)
  | copym (dst src : Ptr) (pitch : Nat) (lx ly esz : Nat) (toMorton : Bool) (obj : Ptr)
  deriving DecidableEq, Repr

structure BulkCmd where
  op : BulkOp
  slot : Nat
  pc : Ptr
  gen : BitVec 12
  done : List Nat
  /-- Bursts or sectors that the engine has requested and that have not returned: the index, where its sector goes, and the keys of what it
  reads (R301, R303). -/
  asked : List (Nat × Nat × List Nat)
  /-- The command was aborted: it asks for nothing more, and what it has asked for still returns (R353). -/
  aborted : Bool
  /-- Destination sectors that have been sent to another member, with the number of the request that writes each. -/
  acks : List (Nat × Nat)
  /-- The fresh pages of a `.pub` copy, S(e) of R143: for each destination page its virtual page number, the address of the page that
  its leaf names, and that of the fresh page. -/
  fresh : Option (List (Nat × Nat × Nat))
  deriving DecidableEq, Repr

/-- A parked fault of an engine's head command (R139): the trap cause and the address. -/
structure Parked where
  cause : Cause
  addr : Word
  /-- ENGINE_FAULT has been raised: a record or a notice (R347, R349). -/
  told : Bool
  deriving DecidableEq, Repr

/-- An open `bread` request (R301). -/
structure Request where
  weight : Nat
  dom : BitVec 24
  cookie : Word
  bentry : BitVec 32
  centry : BitVec 32
  asked : Nat
  ended : Nat
  poisoned : Nat
  finished : Bool
  deriving DecidableEq, Repr

/-- A returned burst waiting for a helper (R301). -/
structure Burst where
  req : Nat
  g20 : Nat
  g21 : Nat
  g22 : Nat
  data : List Byte
  /-- The marks of its eight words (R193). -/
  marks : List Bool
  absent : Bool
  deriving DecidableEq, Repr

/-- One end of a named pipe (R309). -/
structure PipeEnd where
  ready : Bool
  closed : Bool
  base : Nat
  depth : Nat
  head : Nat
  count : Nat
  tail : Nat
  free : Nat
  deriving DecidableEq, Repr

/-- A control context's `rot` that waits for its partners (R311). -/
structure RotWait where
  src : Nat
  dst : Nat
  n : Nat
  done : Bool
  deriving DecidableEq, Repr

/-! ### L1 and translation -/

/-- One byte of a line of CV(k) that is present: its value, whether it is dirty, its mark (R143, R193). -/
structure CvByte where
  val : Byte
  dirty : Bool
  poison : Bool
  deriving DecidableEq, Repr

/-- A leaf or table entry that a TLB holds, by level (R138). -/
structure TlbEntry where
  level : Nat
  tag : Nat
  pte : Nat
  deriving DecidableEq, Repr

/-! ### Watchpoints (R203) -/

structure Watch where
  ctl : Word
  base : Word
  mask : Word
  val : Word
  deriving DecidableEq, Repr

/-! ### Pairing (R198 to R201) -/

/-- What the west core passes to the east copy of an instruction: the values of its loads, `sysr` and `rdcyc`, the items of its
fingerprint, and the registers that both cores hold behind it (R198, R200). -/
structure PairStep where
  loads : List (List Byte)
  items : List Byte
  ctl : Ctx
  v : Assoc VRegState
  k : Assoc Mask
  tiles : Assoc Tile
  /-- It was a fence that empties the fetch buffer of its core (R215). -/
  refetch : Bool
  deriving DecidableEq, Repr

/-- A paired core: its partner, its side, the interval that runs, and the checkpoint that a disagreement restores: the
control context with its vector, mask and accumulator state and its pipe ends. -/
structure PairState where
  /-- Core index of the other half. -/
  other : Nat
  east : Bool
  retired : Nat
  failed : Bool
  /-- A synchronising instruction is being performed: its outputs are not held (R199). -/
  direct : Bool
  /-- How many outputs of the interval the hold buffer has, one for each instruction that made some; the instruction in progress has made
  one (R198). -/
  outs : Nat
  emitted : Bool
  /-- How many outputs at the front of the hold buffer are of intervals that have agreed, and leave as they can (R201). -/
  leaving : Nat
  /-- RETIRED and SHALF where the checkpoint was taken: behind the synchronising instruction that started the interval (R199). -/
  retired0 : Nat
  crc0 : BitVec 32
  crcS : BitVec 32
  crcM : BitVec 32
  /-- The instructions that the west core has retired and the east core has not, with the load-value queue (R198). -/
  trail : List PairStep
  /-- The values that the instruction in progress has loaded, and the stores that it has made: address, then data (R198, R200). -/
  loaded : List (List Byte)
  items : List Byte
  ctl : Ctx
  v : Assoc VRegState
  k : Assoc Mask
  tiles : Assoc Tile
  manchor : BitVec 12
  chain : Bool
  pipes : Assoc PipeEnd
  /-- What has come from outside since the checkpoint, and a rollback keeps: bits of CIR (that of LOSTW with its count), replies, and rows that were
  added to tiles: tile, row, words, mark. -/
  cirs : List Nat
  came : List Message
  rows : List (Nat × Nat × List AccWord × Bool)
  deriving DecidableEq, Repr

/-- A handler that waits for a helper through the start source of R93: the quiescence handler and error handlers. -/
structure Start where
  role : Role
  pc : Ptr
  g20 : Word
  g21 : Word
  g22 : Word
  g23 : Word
  weight : Nat
  dom : BitVec 24
  deriving DecidableEq, Repr

/-! ### Fields and jobs (R58, R73, R96) -/

/-- The pre-emption state of a job (R96, R97). -/
inductive Preempt where
  | running
  /-- Soft pre-emption; under a SNAPSHOT the launch stays open. -/
  | pausing (snapshot : Bool)
  | parked
  | hardSaved
  deriving DecidableEq, Repr

/-- A packet whose completion record is still to be written: queue, tag, flags and the packet's type (R42, R49). -/
structure Ticket where
  qid : Nat
  index : Nat
  type : Nat
  tag : Word
  flags : Byte
  deriving DecidableEq, Repr

structure Job where
  codebase : Ptr
  ctlEntry : BitVec 32
  strayEntry : BitVec 32
  qEntry : BitVec 32
  errEntry : BitVec 32
  wlog : Nat
  split : Nat
  flags : BitVec 16
  nTasks : Nat
  home : Nat
  ended : Nat
  taintCount : Nat
  taintMask : BitVec 4
  armed : Bool
  writtenOff : Nat
  /-- A gang or a successor list was malformed: the job completes with GRAPH_INCOMPLETE (R75, R89). -/
  incomplete : Bool
  pre : Preempt
  launch : Option Ticket
  pauser : Option Ticket
  /-- Further PAUSE packets whose pause is the one under way (R42). -/
  joined : List Ticket
  deadline : Nat
  parked : List TaskCopy
  /-- The overflow list, each copy with the core it is tagged with (R82). -/
  overflow : List (Nat × TaskCopy)
  joins : Assoc JoinEntry
  /-- Join indices that have been returned, and the lowest that has never been used (R88). -/
  joinFree : List Nat
  joinNext : Nat
  /-- A SNAPSHOT that waits for its second copy: whether it drains, and whereto (R113). Its packet is the pauser. -/
  snap : Option (Bool × Nat)
  /-- Further SNAPSHOT packets that have started: each waits at step 2 for the copy before it, with what it asks for (R42, R113). -/
  snaps : List (Ticket × Bool × Nat)
  /-- The 64 bytes of the launch header. -/
  header : List Byte
  grid : Option Grid
  /-- The scratch image that launch and cell reset load (R74, R236). -/
  scratch : List Byte
  /-- The device pages of a SNAP job, by address over 64 KiB, that have a reserve page, in the order of their reservation (R112). -/
  reserved : List Nat
  deriving DecidableEq, Repr

structure FieldSt where
  x0 : Nat
  y0 : Nat
  w : Nat
  h : Nat
  cw : Nat
  ch : Nat
  full : Bool
  lw : Nat
  lh : Nat
  /-- Physical cluster of each logical cluster, row-major; cluster number cy·16 + cx (R59, R66). -/
  map : List Nat
  /-- The mux and route entries of the stitch table, and the route entries of its chain schedule (R240). -/
  muxes : List Nat
  routes : List Nat
  chain : List Nat
  root : Nat
  serial : Nat
  fenced : List Nat
  /-- The addresses of the free pages of the shadow pool (R305). -/
  shadow : List Nat
  job : Option Job
  deriving DecidableEq, Repr

/-- A domain counter of a core (R100, R104, R107). -/
structure Domain where
  gen : Byte
  isOpen : Bool
  count : Nat
  total : Nat
  parent : BitVec 24
  debt : Nat
  writtenOff : Nat
  firstLoss : Option (Nat × Nat × Nat)
  deriving DecidableEq, Repr

/-- An L2 slice (R66 to R69, R202). -/
structure Slice where
  mask : BitVec 16
  err : Bool
  flush : Bool
  clean : Bool
  bypass : BitVec 32
  pins : List Nat
  excl : Bool
  pend : Bool
  deriving DecidableEq, Repr

/-! ### What is in flight between cores (R55, R57) -/

inductive Packet where
  | message (m : Message)
  | reply (m : Message)
  | stray (m : Message)
  | weight (dom : BitVec 24) (w : Nat)
  | writeOff (dom : BitVec 24) (w : Nat) (cell : Nat) (reporter : Nat) (at_ : Nat)
  | arm (fid : Nat)
  | taint (fid : Nat) (bits : BitVec 4)
  | transit (c : TaskCopy) (path : List Nat)
  | stealAsk (thief : Nat) (offset : Nat)
  | stealShip (c : TaskCopy)
  | noWork (offset : Nat)
  | lapse (owner : Nat)
  | lapseAck (peer : Nat)
  | row (src : Nat) (obj : Ptr) (slot : Nat) (tile : AccReg) (r : Nat) (anchor : BitVec 12) (words : List AccWord) (mark : Bool)
  | rowAck (slot : Nat) (obj : Ptr)
  | rowNak (slot : Nat) (obj : Ptr) (cls : Nat)
  | pipeEntry (pipe : Nat) (seq : Nat) (data : Word) (poison : Bool)
  /-- One credit, or, from `qinit`, the whole ring. -/
  | pipeCredit (pipe : Nat) (init : Option Nat)
  | haltSignal (debug : Bool)
  /-- A discovery flit from a neighbouring router, moving in the x or the y direction, with the sender's coordinates (R364). -/
  | bootDisc (src : Nat) (alongX : Bool) (w : Word)
  /-- A map, image or release flit from a neighbouring router (R365). -/
  | bootCast (src kind seq : Nat) (data : List Byte)
  /-- A report on its way from a neighbouring router to the boot corner (R366). -/
  | bootReport (src corner : Nat) (w : Word)
  deriving DecidableEq, Repr

/-- The buffer classes of the data mesh and of the accumulate network (R56, R65). -/
inductive MeshClass where
  | xy | s0 | s1
  deriving DecidableEq, Repr

/-- A packet in flight: the core that it is bound for, what it carries, the router whose buffer holds it, and its class. -/
structure Flight where
  dst : Nat
  body : Packet
  at_ : Nat
  cls : MeshClass
  deriving DecidableEq, Repr

/-- An indivisible read, modify and write at the home of a word or of a 16-byte object (R24, R151, R154, R307). -/
inductive HomeOp where
  /-- Only reads. -/
  | read
  | write (x : Nat)
  | add (x : Nat)
  | and_ (x : Nat)
  | or_ (x : Nat)
  | xor_ (x : Nat)
  | min_ (signed : Bool) (x : Nat)
  | max_ (signed : Bool) (x : Nat)
  | cas (expect x : Nat)
  /-- `aacc`: the operand in memory form (R175, R281). -/
  | acc (x : Nat)
  /-- `bind` and `unbind` (R284). -/
  | bind (base len : Nat)
  | unbind
  /-- The Release move (R144). -/
  | release
  /-- The barrier operations of R307 and R308. -/
  | barInit (units : Nat)
  | barExpect (units : Nat)
  | barArrive (units : Nat) (engine : Bool)
  | barError (cls : Nat)
  /-- DEPCOUNT: one less, but never below zero (R75). -/
  | decrement
  /-- The version word of a tile: an even value becomes odd (R161). -/
  | tileLock
  deriving DecidableEq, Repr

/-- What a request to another pod member asks (LQ of R143; R21, R24, R26). -/
inductive RemoteOp where
  | line
  | store (cells : List (Nat × Byte)) (poison : Bool)
  | atomic (bytes : Nat) (op : HomeOp) (poison : Bool)
  deriving DecidableEq, Repr

/-- A request to another member, until its response arrives or its timeout expires: with the port of this device that it leaves on
(R20). -/
structure RemoteReq where
  id : Nat
  port : Nat
  core : Nat
  slot : Nat
  /-- The generation of the context that it was made for. -/
  gen : BitVec 12
  key : Nat
  op : RemoteOp
  applied : Bool
  data : List Byte
  marks : BitVec 2
  /-- The cycle at which it left on its port, once it has (R26). -/
  sent : Option Nat
  deriving DecidableEq, Repr

/-- An output of a paired control context that waits in the hold buffer (R198). -/
inductive HoldItem where
  /-- The oldest entry of the context's store buffer. -/
  | store
  | flight (f : Flight)
  | bulk (cmd : BulkCmd) (request : Option Request)
  /-- An operation at a home. One on another member's memory leaves on the port that its translation read (R378), and, once it has been sent, the
  number of its request says whose answer the buffer awaits (R152, R162). -/
  | home (keys : List Nat) (op : HomeOp) (poison : Bool) (port : Nat) (sent : Option Nat)
  /-- A release half, over an object's region or over all memory. -/
  | release (sc : Scope) (rgn : Option Region)
  deriving DecidableEq, Repr

end Sys2Proof.Machine
end

