-- ==== Sys2Proof/Machine/State.lean ====
section
/-! DEFINITION. The state of the machine and its value after reset. -/

namespace Sys2Proof.Machine

/-- Why a run stops for good. -/
inductive Fault where
  /-- An access of the device itself to an address that does not exist (R12). No meaning raises it: an instruction's access takes the
  exception of R134, and what the device reads there reads as zero bytes (assumption 124). Raising it would be safe. -/
  | badAddress
  deriving DecidableEq, Repr

/-- Why an instruction is refused. -/
inductive Refusal where
  /-- The instruction of this mnemonic has no meaning in the model yet. Raised by `exec` only; safe. -/
  | notModelled (mnemonic : String)
  deriving DecidableEq, Repr

/-- What an event of the device concerns: the operands of the events of spec/opcode_table.json. -/
structure Input where
  core : Nat
  slot : Nat
  index : Nat
  qid : Nat
  fid : Nat
  cell : Nat
  addr : Nat
  row : Nat
  col : Nat
  word : Word
  flag : Bool
  engine : Engine
  data : List Byte
  deriving DecidableEq, Repr

def Input.zero : Input := ⟨0, 0, 0, 0, 0, 0, 0, 0, 0, 0, false, .matrix, []⟩

/-- An error in storage (R191). -/
inductive Upset where
  /-- Corrected inline, and counted by its vault controller, its slice or its link. -/
  | vault (v : Nat)
  | slice (cl : Nat)
  /-- Not correctable, in the word or the sector that holds a key. -/
  | memory (key : Nat)
  /-- In the line of a core's L1 that holds a key. -/
  | l1 (core key : Nat)
  | register (core slot reg : Nat)
  | vector (core reg sector : Nat)
  | accumulator (core tile row : Nat)
  | tlb (core index : Nat)
  /-- In the control state of a core: program counters, loop and trap registers, queues and buffers. -/
  | control (core : Nat)
  /-- In one copy, or in both, of a core's home counters and held-weight table. -/
  | counters (core : Nat) (both : Bool)
  deriving DecidableEq, Repr

/-- Which part of the machine moves next (assumption 1). -/
inductive Turn where
  /-- The context issues its next instruction. -/
  | issue (core slot : Nat)
  /-- An event happens. -/
  | event (i : Instr) (x : Input)
  /-- The micro-kernel of a core ends the next pending trap record or notice by R382. -/
  | kernel (core : Nat)
  /-- A packet in flight moves over one link of the mesh (R56, R242). -/
  | hop (index : Nat)
  /-- A request to another pod member leaves on its port (R20, R26). -/
  | depart (index : Nat)
  /-- The message port of a core injects its oldest message (R92, R285). -/
  | inject (core : Nat)
  /-- The accumulate-network unit of a core sends the rows of its oldest command (R313). -/
  | rows (core : Nat)
  /-- An error strikes (R191). -/
  | upset (u : Upset)
  /-- The host writes 4 bytes at an offset of BAR2: the MSI-X table (R31, R52). -/
  | bar2 (off : Nat) (v : BitVec 32)
  /-- Software sets the HDM range (R16). -/
  | hdm (base len : Nat)
  /-- The host writes a 32-bit word of the configuration space (R31). -/
  | config (off : Nat) (v : BitVec 32)
  deriving DecidableEq, Repr

/-- One core. Every field is by a rule of spec/; INVENTORY.md lists them with reset values. -/
structure Core where
  /-- The discovery word that the router took, with the core's own coordinates (R364). -/
  bootWord : Option Word
  /-- How many map packets and how many image packets the router has delivered (R365). -/
  bootMaps : Nat
  bootImgs : Nat
  lid : BitVec 10
  bootMode : Bool
  bootDone : Bool
  /-- Deliveries that the router holds while the scratchpad has no size: offset and bytes (R361). -/
  bootHeld : List (Nat × List Byte)
  /-- A GO flit that waits for DONE (R365). -/
  bootGo : Bool
  gated : Bool
  waking : Bool
  wakes : Nat
  inReset : Bool
  ctxs : Assoc Ctx
  trapSlot : BitVec 8
  notices : List Notice
  heldNotices : List Notice
  delivered : Option Notice
  wdctl : Word
  /-- Since when the watchdogs of the core count: a wait counts from here or from its start (R350, R205). -/
  wdSince : Nat
  kvec : Word
  watches : Assoc Watch
  split : BitVec 4
  swzBase : Word
  swzCtl : Word
  held : BitVec 4
  retain : Bool
  /-- Positions of the peers whose leases on this core its `tend` has kept by RETAIN (R129, R132). -/
  kept : BitVec 4
  /-- Positions of the peers whose leases on this core have lapsed while accesses that they had issued were still to complete: the next task
  issues nothing before they have (R131, R132). -/
  lapsing : BitVec 4
  dramLim : BitVec 32
  injLim : BitVec 32
  podLim : BitVec 32
  drainLim : BitVec 32
  nextLim : Option (BitVec 32) × Option (BitVec 32) × Option (BitVec 32) × Option (BitVec 32)
  /-- Traffic that the governors of the router hold, by kind and by who waits, in the order of arrival (R71). -/
  governor : List (Nat × Nat)
  dramUse : BitVec 32
  injUse : BitVec 32
  /-- Units of 64 bytes taken in the current period, by port (R71). -/
  podUse : Assoc (BitVec 32)
  drainUse : BitVec 32
  misCount : BitVec 16
  pairFp : Word
  pair : Option PairState
  hold : List HoldItem
  pipemap : Word
  pipes : Assoc PipeEnd
  v : Assoc VRegState
  k : Assoc Mask
  tiles : Assoc Tile
  manchor : BitVec 12
  chain : Bool
  matq : List MatCmd
  mrowp : Nat
  matPark : Option Parked
  /-- The queue of two of the message port, each packet with the slot that sent it (R92, R285). -/
  msgPort : List (Nat × Flight)
  /-- The queue of two of the accumulate network (R92, R313). -/
  acnq : List AcnCmd
  /-- The queue of two of the bulk engine, which serves `bread`, and that of the copy engine, which serves `copy` and `copym` (R92). -/
  bulkq : List BulkCmd
  bulkPark : Option Parked
  copyq : List BulkCmd
  copyPark : Option Parked
  /-- Lines that the engines have asked for or been charged for, by sixteen times the line number plus the number of the engine; the
  acknowledgements of copy sectors, by sixteen times the number of the request plus 4; and those of a micro-kernel's writes. -/
  engineLines : Assoc Fetch
  /-- What the head commands have translated for the unit in progress, by the number of the engine: their use counts (R139). -/
  engPlaces : Assoc (List Place)
  /-- The work that the micro-kernel is in the middle of, while it waits for memory: a queue's by its number, a drain's by 1,024 more than
  its field's, and a DEBUG request's by its own. -/
  kernelAt : Option Nat
  /-- A halt has stopped the core, and not every slot has resumed (R204, R207). -/
  stopped : Bool
  /-- The slots that a DEBUG session has halted (R208, R382). -/
  debugged : List Nat
  requests : Assoc Request
  nextRequest : Nat
  bursts : List Burst
  inbox : List Message
  deflected : List Message
  strays : List Message
  starts : List Start
  rotation : Nat
  running : Option Running
  iterLo : BitVec 32
  iterHi : BitVec 32
  tileIdx : BitVec 32
  tileOrg : Word
  tileExt : Word
  tileNom : Word
  pending : List TaskCopy
  joinStack : List Nat
  /-- The release unit at work: how many successors it has decremented, and the copies it holds (R75). -/
  release : Option (Nat × List TaskCopy)
  /-- Its present successor has been decremented from 1, and the record is still to be read. -/
  freed : Bool
  /-- The successor list at which the release unit works, and what the check before the walk has translated (R75). -/
  succs : List Ptr
  succAt : List Place
  idleSince : Nat
  stealNext : Option Nat
  stealBusy : Bool
  /-- A round of steal requests is under way, and, while the budget holds its next request, the offset it goes on with (R84). -/
  stealing : Bool
  stealAt : Nat
  lapseLeft : List Nat
  rot : Option RotWait
  cv : Assoc (Assoc CvByte)
  tlb : List TlbEntry
  fetchBuf : Assoc (List Byte)
  domains : Assoc Domain
  deriving DecidableEq, Repr

/-- The boot image, the bundle and the self-tests of the package (R53, R202, R361). -/
structure Flash where
  imageGood : Bool
  bundleGood : Bool
  image : List Byte
  /-- The bytes of the configuration bundle. -/
  bundle : List Byte
  /-- The bytes of the configuration image (R54). -/
  config : List Byte
  width : Nat
  height : Nat
  retired : List Nat
  selfTestFailed : List Nat
  excluded : List Nat
  deriving DecidableEq, Repr

/-- A packet that has started and whose units are still to be zeroed: with its status and INFO when it has completed (R36). -/
structure Taken where
  ticket : Ticket
  len : Nat
  result : Option (Nat × Nat)
  /-- The field whose job resumes behind the completion of a RESTORE (R42, R119). -/
  resumes : Option Nat
  deriving DecidableEq, Repr

/-- A record that a core is to write to the completion ring of a queue (R45, R49, R51): TAG, TYPE, QID, STATUS, INFO, and whether the vector
of the queue is raised. -/
structure Report where
  core : Nat
  ring : Nat
  tag : Word
  type : Nat
  about : Nat
  status : Nat
  info : Nat
  irq : Bool
  /-- The place in the ring, once the record has one (R49). -/
  slot : Option Nat
  deriving DecidableEq, Repr

/-- What the home of a host queue keeps between packets (R36 to R47). -/
structure QueueSt where
  /-- Started packets whose completion is still to come. -/
  started : List Ticket
  waitValue : Option Ticket
  taken : Option Taken
  /-- Since which cycle the header at which READ has been found unpublished (R47). -/
  unpublished : Option (Nat × Nat)
  /-- A wake event or a poll has turned the home to the queue, and it has not found it empty since (R46). -/
  awake : Bool
  /-- BAD_DESCRIPTOR has halted the queue, and the host has not enabled it afresh (R33, R48). -/
  broken : Bool
  /-- Its home has turned to it for the packet that it is serving (R43). -/
  turn : Bool
  deriving DecidableEq, Repr

/-- An MSI-X table entry (R31, R52). -/
structure Msix where
  addr : Word
  data : BitVec 32
  masked : Bool
  pendingBit : Bool
  deriving DecidableEq, Repr

/-- A drain in progress (R113): its packet, the core that writes, its destination, the image, and the status that completes the
packet. -/
structure Snap where
  ticket : Ticket
  home : Nat
  target : Nat
  image : List Byte
  status : Nat
  /-- How many lines of the image have been written. -/
  done : Nat
  deriving DecidableEq, Repr

/-- What a hard image of a job holds beside its pages and scratchpads: its cores, the packets held at the fence, the full bits of its
scratchpads, its requests to other members, and the job's own lists (R97, R114). -/
structure HardCopy where
  cores : Assoc Core
  flights : List Flight
  full : Assoc Bool
  remote : List RemoteReq
  job : Job
  deriving DecidableEq, Repr

/-- What the micro-kernels keep of an image that they have drained and that R118 gives no bytes: the trap's armed state, the GRID identities of the
parked records in their order, and the permissions of the leaves by virtual page (R119, R121). -/
structure ImageKeep where
  image : List Byte
  armed : Bool
  grids : List (Option Grid)
  perms : List (Nat × Nat)
  deriving DecidableEq, Repr

/-- A DEBUG request that has started (R42, R208): its packet, the home of the packet's queue, which reports its completion, the target core, code, data
and reply buffer; whether it has taken effect; for a STEP its slot, how many steps are left, how many have ended as stepped, and RETIRED and
the generation when the present one began (R376); and its answer while that is being written. -/
structure DebugWork where
  ticket : Ticket
  home : Nat
  core : Nat
  code : Nat
  data : List Byte
  reply : Ptr
  begun : Bool
  slot : Nat
  left : Nat
  done : Nat
  before : Nat
  gen : BitVec 12
  answer : Option (Nat × List Byte)
  deriving DecidableEq, Repr

/-- The SPDM responder of the DOE mailbox (R54). -/
structure Doe where
  versionDone : Bool
  capsDone : Bool
  algsDone : Bool
  answers : List (List Byte)
  deriving DecidableEq, Repr

/-- What the host writes into the configuration space: the command register, the bases of BAR0 and BAR2, the enable and the function mask of MSI-X, and the
DOE mailbox: the words written to it, the words of the answer that is to be read, and its error bit (R16, R31, R54). -/
structure Pci where
  command : BitVec 16
  bar0 : Word
  bar2 : Word
  msixOn : Bool
  msixMask : Bool
  doeIn : List (BitVec 32)
  doeOut : List (BitVec 32)
  doeError : Bool
  deriving DecidableEq, Repr

/-- The state of the machine: one device, its host queues and what is in flight (spec/00 to spec/15). -/
structure State where
  /-- The model's own: the turns still to come, whose turn it is when there is none, the operands of the event that happens
  now, and the counters that the free values are applied to (assumptions 1 and 13). -/
  agenda : List Turn
  curCore : Nat
  curSlot : Nat
  input : Input
  steps : Nat
  /-- Memory of every space by physical key (Machine/Ops.lean), its poison marks, full bits and dirty bits. -/
  mem : List Host.Cell
  poison : Assoc Bool
  full : Assoc Bool
  dirtyPages : Assoc Bool
  cycle : Nat
  captured : Bool
  plate : List Word
  cores : Assoc Core
  net : List Flight
  remote : List RemoteReq
  nextRemote : Nat
  linkRetries : Assoc Nat
  powerEst : Nat
  throttled : Bool
  flash : Flash
  bootDetail : BitVec 16
  bootStage : BitVec 4
  qtBase : Word
  qErr : Word
  podcfg : Word
  members : Assoc Word
  wake : Assoc Word
  msix : Assoc Msix
  msixSent : List (Word × BitVec 32)
  doe : Doe
  pci : Pci
  hostLines : Assoc Bool
  directory : Assoc Bool
  biPending : List (Nat × List (Nat × Byte) × Bool)
  /-- Operations on objects in lines that the host holds, in order: line, keys, operation, mark (R17). -/
  biOps : List (Nat × List Nat × HomeOp × Bool)
  /-- The HDM range: the device memory that software exposes to the host (R16). -/
  hdm : Region
  /-- Corrected errors of vault controllers and of slices, for the management port (R191). -/
  eccVault : Assoc Nat
  eccSlice : Assoc Nat
  /-- The four digests that the boot took (R54). -/
  measured : List (List Byte)
  queues : Assoc QueueSt
  /-- Completion and queue records that are still to be written, in order. -/
  reports : List Report
  /-- The queues that their homes have turned to in their present turns (R43). -/
  visited : List Nat
  fields : Assoc FieldSt
  slices : Assoc Slice
  snaps : Assoc Snap
  /-- The hard state of images, by the number that an image's hard segment names (R97, R114). -/
  hardCopies : Assoc HardCopy
  kept : List ImageKeep
  debugWorks : List DebugWork
  deriving DecidableEq, Repr

/-! ### Reset -/

def LoopLevel.reset : LoopLevel := ⟨false, 0, 0, 0⟩

/-- A context slot after reset: not live, every register zero (R346, R360, R190; assumption 12). -/
def Ctx.reset : Ctx where
  live := false
  role := .none
  gen := 0
  pc := 0
  g := []
  p := []
  marks := []
  loop0 := LoopLevel.reset
  loop1 := LoopLevel.reset
  wheld := 0
  whome := 0
  cir := 0
  lostw := 0
  eaten := 0
  tries := 0
  stage := 0
  latch := 0
  fpctl := 0
  fpstat := 0
  retired := 0
  sb := []
  trap := none
  step1 := false
  after := none
  halted := false
  skid := 0
  skidLeft := 0
  stepping := false
  waiting := none
  replies := []
  text := none
  remote := .idle
  fetched := []
  places := []
  awaits := []
  arrived := 0
  grant := none
  lates := []
  committed := false
  request := none

/-- Slot 0 after reset: the boot ROM runs it from the base of the ROM window (R361; assumption 10). -/
def Ctx.boot : Ctx := { Ctx.reset with live := true, role := .supervisor, pc := 0x0000_0080_0000_0000#72 }

/-- What slot `n` reads as when the map of contexts does not list it. -/
def Ctx.dflt (n : Nat) : Ctx := if n = 0 then Ctx.boot else Ctx.reset

/-- A vector register after reset and at a taken copy: zero data, the empty tag, zero slots (R170). -/
def VRegState.reset : VRegState := ⟨0, 0x30, 0, 0⟩

def AccWord.zero : AccWord := ⟨0, 0⟩
def Tile.reset : Tile := ⟨[], 0, none⟩
def Watch.reset : Watch := ⟨0, 0, 0, 0⟩
def PipeEnd.reset : PipeEnd := ⟨false, false, 0, 0, 0, 0, 0, 0⟩
def Domain.reset : Domain := ⟨0, false, 0, 0, 0, 0, 0, none⟩

/-- A core after device reset. -/
def Core.reset : Core where
  bootWord := none
  bootMaps := 0
  bootImgs := 0
  lid := 0
  bootMode := true
  bootDone := false
  bootHeld := []
  bootGo := false
  gated := false
  waking := false
  wakes := 0
  inReset := false
  ctxs := []
  trapSlot := 0
  notices := []
  heldNotices := []
  delivered := none
  wdctl := 0x11A
  wdSince := 0
  kvec := 0
  watches := []
  split := 0
  swzBase := 0
  swzCtl := 0
  held := 0
  retain := false
  kept := 0
  lapsing := 0
  dramLim := 0xFFFF_FFFF
  injLim := 0xFFFF_FFFF
  podLim := 0xFFFF_FFFF
  drainLim := 0xFFFF_FFFF
  nextLim := (none, none, none, none)
  governor := []
  dramUse := 0
  injUse := 0
  podUse := []
  drainUse := 0
  misCount := 0
  pairFp := 0
  pair := none
  hold := []
  pipemap := 0
  pipes := []
  v := []
  k := []
  tiles := []
  manchor := 0
  chain := false
  matq := []
  mrowp := 0
  matPark := none
  msgPort := []
  acnq := []
  bulkq := []
  bulkPark := none
  copyq := []
  copyPark := none
  engineLines := []
  engPlaces := []
  kernelAt := none
  stopped := false
  debugged := []
  requests := []
  nextRequest := 0
  bursts := []
  inbox := []
  deflected := []
  strays := []
  starts := []
  rotation := 0
  running := none
  iterLo := 0
  iterHi := 0
  tileIdx := 0
  tileOrg := 0
  tileExt := 0
  tileNom := 0
  pending := []
  joinStack := []
  release := none
  freed := false
  succs := []
  succAt := []
  idleSince := 0
  stealNext := none
  stealBusy := false
  stealing := false
  stealAt := 0
  lapseLeft := []
  rot := none
  cv := []
  tlb := []
  fetchBuf := []
  domains := []

/-- A slice after reset: every way cache and CLEAN (R66). -/
def Slice.reset : Slice := ⟨0, false, false, true, 0, [], false, false⟩

def QueueSt.reset : QueueSt := ⟨[], none, none, none, false, false, false⟩

/-- An MSI-X entry after reset: masked (assumption 7). -/
def Msix.reset : Msix := ⟨0, 0, true, false⟩

/-- The machine right after device reset (R6, R53, R361; the values that the spec leaves open are named in the
assumption log). Nothing is listed in any map: every core, slice, queue and byte has its reset value. -/
def State.reset : State where
  agenda := []
  curCore := 0
  curSlot := 0
  input := Input.zero
  steps := 0
  mem := []
  poison := []
  full := []
  dirtyPages := []
  cycle := 0
  captured := false
  plate := []
  cores := []
  net := []
  remote := []
  nextRemote := 0
  linkRetries := []
  powerEst := 0
  throttled := false
  flash := ⟨true, true, [], [], [], 32, 32, [], [], []⟩
  bootDetail := 0
  bootStage := 0
  qtBase := 0
  qErr := 0
  podcfg := 0x10000
  members := []
  wake := []
  msix := []
  msixSent := []
  doe := ⟨false, false, false, []⟩
  pci := ⟨0, 0, 0, false, false, [], [], false⟩
  hostLines := []
  directory := []
  biPending := []
  biOps := []
  hdm := ⟨0, 2 ^ 39⟩
  eccVault := []
  eccSlice := []
  measured := []
  queues := []
  reports := []
  visited := []
  fields := []
  slices := []
  snaps := []
  hardCopies := []
  kept := []
  debugWorks := []

end Sys2Proof.Machine
end

