-- ==== Sys2Proof/Machine/Ops.lean ====
section
/-! DEFINITION. The named operations over the state: cores, contexts, registers and memory; where a core lies; the form of an
instruction's effect; taking a trap and ending a record. -/

namespace Sys2Proof.Machine

/-! ### Cores, contexts and registers -/

def State.core (s : State) (c : Nat) : Core := Assoc.get Core.reset s.cores c
def State.setCore (s : State) (c : Nat) (k : Core) : State := { s with cores := Assoc.set Core.reset s.cores c k }

def Core.ctx (k : Core) (n : Nat) : Ctx := Assoc.get (Ctx.dflt n) k.ctxs n
def Core.setCtx (k : Core) (n : Nat) (x : Ctx) : Core := { k with ctxs := Assoc.set (Ctx.dflt n) k.ctxs n x }

def State.ctx (s : State) (c n : Nat) : Ctx := (s.core c).ctx n
def State.setCtx (s : State) (c n : Nat) (x : Ctx) : State := s.setCore c ((s.core c).setCtx n x)

/-- g0 reads as zero (R218). -/
def Ctx.readG (x : Ctx) (r : Nat) : Word := if r = 0 then 0 else Assoc.get 0 x.g r
/-- A write to g0 is discarded (R218). -/
def Ctx.writeG (x : Ctx) (r : Nat) (v : Word) : Ctx := if r = 0 then x else { x with g := Assoc.set 0 x.g r v }
def Ctx.readP (x : Ctx) (r : Nat) : Ptr := Assoc.get 0 x.p r
def Ctx.writeP (x : Ctx) (r : Nat) (v : Ptr) : Ctx := { x with p := Assoc.set 0 x.p r v }

/-- The poison mark of a unified register number; g0 has none (R193). -/
def Ctx.marked (x : Ctx) (u : Nat) : Bool := u ≠ 0 && x.marks.contains u
/-- Sets or removes the mark of a register. -/
def Ctx.mark (x : Ctx) (u : Nat) (b : Bool) : Ctx :=
  { x with marks := if b && u ≠ 0 then (if x.marks.contains u then x.marks else u :: x.marks) else x.marks.filter (· ≠ u) }

/-! ### Bits of registers -/

/-- Bits `hi` to `lo` of a word, as a number. -/
def bits {w : Nat} (x : BitVec w) (hi lo : Nat) : Nat := x.toNat / 2 ^ lo % 2 ^ (hi - lo + 1)
/-- One bit of a word. -/
def bit {w : Nat} (x : BitVec w) (i : Nat) : Bool := x.getLsbD i
/-- `x` with bits `hi` to `lo` replaced by the low bits of `v`. -/
def putBits {w : Nat} (x : BitVec w) (hi lo v : Nat) : BitVec w :=
  BitVec.ofNat w (x.toNat - bits x hi lo * 2 ^ lo + v % 2 ^ (hi - lo + 1) * 2 ^ lo)

/-! ### Where cores and slices lie (R5, R10, R11, R66; device logical ids of spec/00) -/

/-- Cores are held by their physical index 32·y + x. -/
def coreX (c : Nat) : Nat := c % 32
def coreY (c : Nat) : Nat := c / 32
def coreAt (x y : Nat) : Nat := 32 * y + x
/-- The cluster of a core, numbered cy·16 + cx (R66). -/
def clusterOf (c : Nat) : Nat := coreY c / 2 * 16 + coreX c / 2
/-- The cluster position q of a core (R5). -/
def posOf (c : Nat) : Nat := coreX c % 2 + 2 * (coreY c % 2)
/-- The core at position `q` of a cluster. -/
def coreOf (cl q : Nat) : Nat := coreAt (2 * (cl % 16) + q % 2) (2 * (cl / 16) + q / 2)

/-- The core is a core of this package: inside the region and not retired. -/
def State.healthy (s : State) (c : Nat) : Bool :=
  coreX c < s.flash.width && coreY c < s.flash.height && !s.flash.retired.contains c

/-- The row-major position of a core in the region. -/
def State.place (s : State) (c : Nat) : Nat := coreY c * s.flash.width + coreX c

/-- How many healthy cores there are. -/
def State.healthyCount (s : State) : Nat :=
  s.flash.width * s.flash.height - s.flash.retired.length

/-- The device logical id of a healthy core: row-major order, skipping retired cores. -/
def State.lidOf (s : State) (c : Nat) : Nat :=
  s.place c - (s.flash.retired.filter fun r => s.place r < s.place c).length

/-- Walks past the retired places that lie at or before `n`. -/
def skipRetired : List Nat → Nat → Nat
  | [], n => n
  | r :: t, n => if r ≤ n then skipRetired t (n + 1) else n

/-- The core with a device logical id; none at or above the number of healthy cores. The retired list is in rising order. -/
def State.coreOfLid (s : State) (l : Nat) : Option Nat :=
  if l < s.healthyCount then
    let n := skipRetired (s.flash.retired.map s.place) l
    some (coreAt (n % s.flash.width) (n / s.flash.width))
  else none

/-! ### Fields and jobs -/

/-- Cluster `cl` lies in the field's rectangle. -/
def FieldSt.covers (f : FieldSt) (cl : Nat) : Bool :=
  f.x0 ≤ cl % 16 && cl % 16 < f.x0 + f.w && f.y0 ≤ cl / 16 && cl / 16 < f.y0 + f.h

/-- The cell number of a cluster of the field (R61). -/
def FieldSt.cellOf (f : FieldSt) (cl : Nat) : Nat := (cl / 16 - f.y0) / f.ch * (f.w / f.cw) + (cl % 16 - f.x0) / f.cw

/-- The field to which a core belongs, with its id. -/
def State.fieldOf (s : State) (c : Nat) : Option (Nat × FieldSt) :=
  s.fields.find? fun e => e.2.covers (clusterOf c)

def State.jobOf (s : State) (c : Nat) : Option Job := (s.fieldOf c).bind fun e => e.2.job

/-- The field of a core is hard-saved: nothing in it moves (R97). -/
def State.saved (s : State) (c : Nat) : Bool := (s.jobOf c).any fun j => j.pre = .hardSaved

/-- The pause of a core's job has passed its deadline: its field is fenced for the hard save (R97). -/
def State.saving (s : State) (c : Nat) : Bool :=
  (s.jobOf c).any fun j => (j.pre = .pausing true || j.pre = .pausing false) && j.deadline ≤ s.cycle

/-- The logical cluster of a cluster, when the map names it (R59). -/
def FieldSt.logical (f : FieldSt) (cl : Nat) : Option Nat :=
  if f.map.contains cl then some (f.map.idxOf cl) else none

/-- Logical core coordinates (R5). -/
def FieldSt.logicalXY (f : FieldSt) (c : Nat) : Option (Nat × Nat) :=
  (f.logical (clusterOf c)).map fun i => (2 * (i % f.lw) + posOf c % 2, 2 * (i / f.lw) + posOf c / 2)

/-- The core at logical coordinates of the field, healthy or a hole. -/
def FieldSt.coreAtXY (f : FieldSt) (x y : Nat) : Option Nat :=
  if x < 2 * f.lw ∧ y < 2 * f.lh then
    (f.map[y / 2 * f.lw + x / 2]?).map fun cl => coreOf cl (x % 2 + 2 * (y % 2))
  else none

/-- The cores of the map in logical row-major order. -/
def FieldSt.cores (f : FieldSt) : List Nat :=
  (List.range (4 * f.lw * f.lh)).filterMap fun i => f.coreAtXY (i % (2 * f.lw)) (i / (2 * f.lw))

/-- Every core of the rectangle, spare clusters included. -/
def FieldSt.allCores (f : FieldSt) : List Nat :=
  (List.range (f.w * f.h * 4)).map fun i =>
    coreOf ((f.y0 + i / 4 / f.w) * 16 + f.x0 + i / 4 % f.w) (i % 4)

/-- The core's cell is fenced (R62). -/
def State.fenced (s : State) (c : Nat) : Bool :=
  match s.fieldOf c with
  | some e => e.2.fenced.contains (e.2.cellOf (clusterOf c))
  | none => false

def Job.noMatrix (j : Job) : Bool := bit j.flags 0
def Job.pairedJob (j : Job) : Bool := bit j.flags 1
def Job.codeMsg (j : Job) : Bool := bit j.flags 2
def Job.snapJob (j : Job) : Bool := bit j.flags 4

def State.setField (s : State) (fid : Nat) (f : FieldSt) : State := { s with fields := Assoc.put s.fields fid f }
/-- Changes the job of a field. -/
def State.modJob (s : State) (fid : Nat) (g : Job → Job) : State :=
  match Assoc.find s.fields fid with
  | some f => s.setField fid { f with job := f.job.map g }
  | none => s

def State.slice (s : State) (cl : Nat) : Slice :=
  Assoc.get { Slice.reset with excl := s.flash.excluded.contains cl } s.slices cl
def State.setSlice (s : State) (cl : Nat) (l : Slice) : State :=
  { s with slices := Assoc.set { Slice.reset with excl := s.flash.excluded.contains cl } s.slices cl l }

/-! ### Memory: one list of bytes by physical key (R2, R12, R127, R143; assumption 14) -/

def keyDram (a : Nat) : Nat := a
def keyHost (a : Nat) : Nat := 1 * 2 ^ 64 + a
def keyRemote (a : Nat) : Nat := 2 * 2 ^ 64 + a
def keyScratch (c off : Nat) : Nat := 3 * 2 ^ 64 + c * 2 ^ 24 + off
def keyL2 (cl way off : Nat) : Nat := 4 * 2 ^ 64 + cl * 2 ^ 24 + way * 2 ^ 17 + off
def keyRom (off : Nat) : Nat := 5 * 2 ^ 64 + off
/-- Host memory itself, behind the home slices' coherent copy (R66, R147). -/
def keyHostMem (a : Nat) : Nat := 6 * 2 ^ 64 + a
/-- Which space a key lies in. -/
def keySpace (k : Nat) : Nat := k / 2 ^ 64
/-- The address within its space. -/
def keyAddr (k : Nat) : Nat := k % 2 ^ 64
/-- The core that a scratchpad key belongs to. -/
def keyCore (k : Nat) : Nat := keyAddr k / 2 ^ 24
/-- SRAM is marked by 8-byte words, DRAM and the caches above it by 32-byte sectors (R191). -/
def unitOf (k : Nat) : Nat := if keySpace k = 3 ∨ keySpace k = 4 then 8 else 32

/-- A memory in canonical form. -/
abbrev Memory := List Host.Cell
/-- What a byte that is not listed reads as: the boot ROM holds its code, and everything else is zero (R53, R361; assumptions 2 and 10). -/
def Memory.unlisted (k : Nat) : Byte := if keySpace k = 5 then romByte (keyAddr k) else 0
def Memory.read (m : Memory) (k : Nat) : Byte :=
  match Assoc.find m k with
  | some b => b
  | none => Memory.unlisted k
def Memory.write (m : Memory) (k : Nat) (b : Byte) : Memory := if b = Memory.unlisted k then Assoc.del m k else Assoc.put m k b
/-- Keys strictly rising and no entry equal to what an unlisted key reads as. -/
def Memory.wf : Memory → Bool
  | [] => true
  | (k, b) :: t => b ≠ Memory.unlisted k && t.all (fun e => k < e.1) && Memory.wf t

/-- Writes one byte of H and marks its vault page dirty (R111). -/
def State.poke (s : State) (k : Nat) (b : Byte) : State :=
  { s with
    mem := Memory.write s.mem k b
    dirtyPages := if keySpace k = 0 then Assoc.set false s.dirtyPages (k / 65536) true else s.dirtyPages }

def State.peek (s : State) (k : Nat) : Byte := Memory.read s.mem k

def State.pokes (s : State) : List (Nat × Byte) → State
  | [] => s
  | (k, b) :: t => (s.poke k b).pokes t

/-- The bytes of H at `n` consecutive keys. -/
def State.peeks (s : State) (k : Nat) : Nat → List Byte
  | 0 => []
  | n + 1 => s.peek k :: s.peeks (k + 1) n

/-- Writes consecutive bytes of H. -/
def State.pokeBytes (s : State) (k : Nat) : List Byte → State
  | [] => s
  | b :: t => (s.poke k b).pokeBytes (k + 1) t

/-- A little-endian number in H (R2). -/
def State.peekNat (s : State) (k n : Nat) : Nat := bitsOfBytes (s.peeks k n)
def State.pokeNat (s : State) (k n x : Nat) : State := s.pokeBytes k (bytesOfBits n x)

/-- The mark of the unit that holds a key (R193). -/
def State.poisoned (s : State) (k : Nat) : Bool := Assoc.get false s.poison (k / unitOf k * unitOf k)

/-- The keys of the units that some keys touch, once each. -/
def unitsOf (ks : List Nat) : List Nat := (ks.map fun k => k / unitOf k * unitOf k).eraseDups

/-- Marks after a write of the bytes at `ks`: a marked write marks every unit it touches; an unmarked one clears the
units that it covers whole (R193). -/
def State.markWrite (s : State) (ks : List Nat) (p : Bool) : State :=
  { s with poison := (unitsOf ks).foldl (fun m u =>
      if p then Assoc.set false m u true
      else if (List.range (unitOf u)).all fun i => ks.contains (u + i) then Assoc.set false m u false else m) s.poison }

/-- A write of bytes into H with its mark. -/
def State.writeH (s : State) (cells : List (Nat × Byte)) (p : Bool) : State :=
  (s.pokes cells).markWrite (cells.map (·.1)) p

/-- The full bit of the scratchpad word that holds a key (R133). -/
def State.fullBit (s : State) (k : Nat) : Bool := Assoc.get false s.full (k / 8)
def State.setFull (s : State) (k : Nat) (b : Bool) : State := { s with full := Assoc.set false s.full (k / 8) b }

/-- The size of a core's scratchpad in bytes (R122). -/
def Core.scratchSize (k : Core) : Nat := k.split.toNat * 131072

/-- The physical word of the swizzle window of a scratchpad offset (R125); offsets outside an enabled window are themselves. -/
def Core.swizzle (k : Core) (off : Nat) : Nat :=
  let base := bits k.swzBase 20 12 * 4096
  let size := bits k.swzCtl 16 8 * 4096
  if bit k.swzCtl 0 ∧ base ≤ off ∧ off < base + size then
    let o := off - base
    let line := o / 128
    let u := o % 128 / 4
    base + line * 128 + (u ^^^ (line % 32)) * 4 + o % 4
  else off

/-! ### Names of trap causes (R349) -/

def Cause.code : Cause → Nat
  | .illegalInstruction => 0x01 | .illegalLength => 0x02 | .fetchCross => 0x03 | .privilege => 0x04
  | .misaligned => 0x05 | .translation => 0x06 | .permission => 0x07 | .absentMember => 0x08
  | .formatMismatch => 0x09 | .engineNotOwned => 0x0A | .matrixUndeclared => 0x0B | .weightExhausted => 0x0C
  | .peerExited => 0x0D | .asyncError => 0x0E | .acnNak => 0x0F | .barrierStall => 0x10
  | .queueError => 0x11 | .watchpoint => 0x12 | .step => 0x13 | .trapInstruction => 0x14
  | .quiescent => 0x15 | .engineFault => 0x16 | .pairMismatch => 0x17 | .burstWait => 0x18
  | .loopOverflow => 0x19 | .tileRetry => 0x1A | .inboxOverflow => 0x1B | .cellReset => 0x1C

/-! ### The form of an instruction's effect -/

/-- How an instruction's effect ends without completing: a trap before any of its writes (R230), or a wait, which keeps
the moves that the instruction has made so far. -/
inductive Stop where
  | trap (cause : Cause) (val : Word)
  | wait (on : WaitOn) (addr : Word) (s : State)

/-- The effect of an instruction or of a part of it. -/
abbrev M := StateT State (Except Stop)

def trap {α : Type} (c : Cause) (v : Word) : M α := throw (.trap c v)
def waitOn {α : Type} (on : WaitOn) (addr : Word) : M α := do
  let s ← get
  throw (.wait on addr s)

/-- The core and the slot that issue. -/
def me : M (Nat × Nat) := do
  let s ← get
  pure (s.curCore, s.curSlot)

def getCtx : M Ctx := do
  let s ← get
  pure (s.ctx s.curCore s.curSlot)
def setCtx (x : Ctx) : M Unit := modify fun s => s.setCtx s.curCore s.curSlot x
def modCtx (f : Ctx → Ctx) : M Unit := do
  let x ← getCtx
  setCtx (f x)
/-- An instruction that has ended its context counts in the skid of the slot, when that was halted and not stepped (R204, R375). -/
def Ctx.skidOver (y : Ctx) (x : Ctx) : Ctx := if x.halted && !x.stepping then { y with skid := x.skid + 1 } else y
/-- The context that the instruction has ended, as it was, counts it in the skid of its slot. -/
def skidGone (x : Ctx) : M Unit := modCtx fun y => y.skidOver x
def getCore : M Core := do
  let s ← get
  pure (s.core s.curCore)
def modCore (f : Core → Core) : M Unit := modify fun s => s.setCore s.curCore (f (s.core s.curCore))

def regG (r : GReg) : M Word := do
  let x ← getCtx
  pure (x.readG r.toNat)
def regP (r : PReg) : M Ptr := do
  let x ← getCtx
  pure (x.readP r.toNat)

/-- Where an instruction continues. -/
inductive Next where
  | seq
  | jump (pc : Ptr)
  /-- The instruction ended its own context, or moved it itself. -/
  | gone
  deriving DecidableEq, Repr

/-! ### Consuming poison (R193, R194) -/

/-- Sets bits of a context's CIR and counts an event for each bit set. -/
def Ctx.cirSet (x : Ctx) (b : Nat) : Ctx :=
  { x with cir := putBits (x.cir ||| BitVec.ofNat 64 b) 31 16 (min (bits x.cir 31 16 + 1) 0xFFFF) }
def cirPoison : Nat := 1
def cirAbsent : Nat := 2
def cirLostw : Nat := 4
def cirEng : Nat := 8

/-- LOSTW rises by one and its CIR bit is set (R194). -/
def Ctx.lose (x : Ctx) : Ctx :=
  ({ x with lostw := if x.lostw = 0xFFFF_FFFF then x.lostw else x.lostw + 1 } : Ctx).cirSet cirLostw

/-- The CIR bits of an instruction that completes, each an event of its own (R194). -/
def Ctx.digest (x : Ctx) : Ctx :=
  let y := if x.eaten % 2 = 1 then x.cirSet cirPoison else x
  let y := if x.eaten / 2 % 2 = 1 then y.cirSet cirAbsent else y
  { y with eaten := 0 }

/-- The instruction read marked memory, or lost data (R26, R193). -/
def eat (b : Nat) : M Unit := modCtx fun x => { x with eaten := x.eaten ||| b }

/-- Whether one of the named registers is marked; a marked source is consumed: CIR.POISON. -/
def consume (us : List Nat) : M Bool := do
  let x ← getCtx
  if us.any x.marked then
    setCtx { x with eaten := x.eaten ||| cirPoison }
    pure true
  else pure false

/-- SetReg of a g register with the mark of its sources (R193, R218, R230). -/
def setG (r : GReg) (v : Word) (p : Bool) : M Unit := modCtx fun x => (x.writeG r.toNat v).mark r.toNat p
def setP (r : PReg) (v : Ptr) (p : Bool) : M Unit := modCtx fun x => (x.writeP r.toNat v).mark (32 + r.toNat) p

/-! ### Notices and traps (R346 to R348) -/

/-- Notices enter the queue of 64; a notice that finds it full is held (R347). -/
def Core.notice (k : Core) (n : Notice) : Core :=
  if k.notices.length < 64 then { k with notices := k.notices ++ [n] } else { k with heldNotices := k.heldNotices ++ [n] }

def State.notice (s : State) (c : Nat) (n : Notice) : State := s.setCore c ((s.core c).notice n)

/-- A notice of an event that belongs to no live context (R350). -/
def plainNotice (c : Cause) (detail : Nat) (val : Word) : Notice := ⟨c, BitVec.ofNat 16 detail, val, false, 0, 0, 0⟩

/-- Asks for the reset of a core's cell (R197, R348): the reset is the next turn. -/
def State.askCellReset (s : State) (c : Nat) : State :=
  match s.fieldOf c with
  | some (fid, f) =>
    { s with agenda := .event .cellReset { Input.zero with fid := fid, cell := f.cellOf (clusterOf c), core := c } :: s.agenda }
  | none => { s with agenda := .event .cellReset { Input.zero with fid := 64, cell := 0, core := c } :: s.agenda }

/-- The instruction in progress is given up: nothing of it is left (R213, R375). A trap of kind A that a watchpoint has raised for an access
already performed stays pending (R204). -/
def Ctx.dropped (x : Ctx) : Ctx :=
  { x with
    waiting := none, eaten := 0, tries := 0, stage := 0, latch := 0, fetched := [], places := [], awaits := [], arrived := 0,
    grant := none, remote := .idle, committed := false, stepping := false }

/-- Taking a trap (R346, R348). A trap of slots 1 to 11 is recorded and stops the context; a stepped context reports
status 2 to its stepper. A trap of slot 0 selects slot 0's record and continues at KVEC + 0x80 at once; a second one
resets the cell. -/
def State.takeTrap (s : State) (c n : Nat) (t : TrapRec) : State :=
  let x := s.ctx c n
  if n = 0 then
    if x.trap.isSome then s.askCellReset c
    else
      let s := s.setCtx c 0 { x.dropped with trap := some t, step1 := false, pc := (s.core c).kvec.setWidth 72 + 0x80 }
      s.setCore c { s.core c with trapSlot := 0 }
  else s.setCtx c n { x.dropped with trap := some t, step1 := false }

/-- The length by LEN of an instruction (R210); of an illegal encoding by the LEN bits of its word. -/
def instrBytes (i : Instr) : Nat :=
  match i with
  | .illegalInstruction _ w => lenBytes (w.extractLsb' 0 2)
  | _ =>
    match encode i with
    | some r => lenBytes r.len
    | none => 8

/-- The first 64 bits of an instruction, which TRAPVAL holds for PRIVILEGE and its like (R213). -/
def instrLow (i : Instr) : Word :=
  match i with
  | .illegalInstruction _ w => w
  | _ =>
    match encode i with
    | some r => r.low
    | none => 0

/-! ### Hardware loops and the end of an instruction (R271) -/

/-- An address of a loop level: its bits 71:64 are those of the program counter (R273). -/
def inRegion (pc a : Ptr) : Ptr := BitVec.ofNat 72 (pc.toNat / 2 ^ 64 * 2 ^ 64 + a.toNat % 2 ^ 64)

/-- What becomes of the loop levels, and where the context continues, when the instruction at `pc` completes without
setting the program counter (R271). -/
def loopBack (l0 l1 : LoopLevel) (pc next : Ptr) : LoopLevel × LoopLevel × Ptr :=
  let one := l1.active && inRegion pc l1.stop = pc
  let c1 := l1.count - 1
  if one && c1 ≠ 0 then (l0, { l1 with count := c1 }, inRegion pc l1.start)
  else
    let l1' := if one then { l1 with count := c1, active := false } else l1
    if l0.active && inRegion pc l0.stop = pc then
      let c0 := l0.count - 1
      if c0 ≠ 0 then ({ l0 with count := c0 }, { l1' with active := false }, inRegion pc l0.start)
      else ({ l0 with count := c0, active := false }, { l1' with active := false }, next)
    else (l0, l1', next)

/-- The context after an instruction of `bytes` bytes has completed. -/
def Ctx.advance (x : Ctx) (bytes : Nat) : Next → Ctx
  | .jump pc => { x with pc := pc }
  | .gone => x
  | .seq =>
    let r := loopBack x.loop0 x.loop1 x.pc (x.pc + BitVec.ofNat 72 bytes)
    { x with loop0 := r.1, loop1 := r.2.1, pc := r.2.2 }

/-- The context of an instruction that has completed: RETIRED counts it, and no wait or fetched line is left. A halted
context that is not stepped counts it in its SKID (R204). -/
def Ctx.retired' (x : Ctx) (bytes : Nat) (k : Next) : Ctx :=
  let late := x.halted && !x.stepping
  { (x.advance bytes k).digest with
      skid := if late then x.skid + 1 else x.skid, skidLeft := if late then x.skidLeft - 1 else x.skidLeft,
      retired := x.retired + 1, waiting := none, fetched := [], places := [], awaits := [], arrived := 0, grant := none, remote := .idle,
      committed := false, stepping := false,
      step1 := false, after := none, tries := 0, stage := 0, latch := 0 }

/-- The trap of kind A that follows a completed instruction, if any: its own, or the STEP of a single step (R349, R351). -/
def Ctx.afterTrap (x : Ctx) (y : Ctx) : Option TrapRec :=
  match x.after with
  | some (cause, detail, val) =>
    some ⟨cause, .a, BitVec.ofNat 16 detail, x.text.isSome, x.pc, val, y.gen, y.pc, none⟩
  | none =>
    if x.step1 then some ⟨.step, .a, 0, x.text.isSome, x.pc, y.pc.setWidth 64, y.gen, y.pc, none⟩ else none

/-- An instruction retires, and then raises its trap of kind A. One that has ended its context is past its completion already. -/
def State.retire (s : State) (c n : Nat) (bytes : Nat) (k : Next) : State :=
  match k with
  | .gone => s
  | k =>
    let x := s.ctx c n
    let y := x.retired' bytes k
    match x.afterTrap y with
    | some t => (s.setCtx c n y).takeTrap c n t
    | none => s.setCtx c n y

/-- Waits that keep the translations that the instruction has made: its access is under way. In the others the instruction makes its accesses
anew (R27, R140, R378). -/
def WaitOn.keepsPlaces : WaitOn → Bool
  | .budget | .remote | .linkAck | .mesh => true
  | .engineQueue | .messagePort | .barrier | .fullBit | .reply | .pipe | .helper | .rotate | .migration | .leaseAck | .hold | .refill | .idle
  | .matrix | .storeBuffer | .invalidation | .joinIndex | .pairInterval | .retry | .loadQueue => false

/-- Waits of instructions that are past issue: a request to another member or to the host is out (R26, R162). -/
def WaitOn.pastIssue : WaitOn → Bool
  | .remote | .linkAck => true
  | .engineQueue | .budget | .messagePort | .barrier | .fullBit | .reply | .pipe | .helper | .rotate | .migration
  | .leaseAck | .hold | .refill | .idle | .matrix | .storeBuffer | .invalidation | .joinIndex | .pairInterval | .retry | .mesh
  | .loadQueue => false

/-- The context is past issue with an instruction, which completes whatever stops the context: a request is out, or an effect has been
performed that must not happen twice (R26, R133, R162, R204, R375). -/
def Ctx.pastIssue (x : Ctx) : Bool := x.committed || x.waiting.any fun w => w.on.pastIssue

/-- The wait of a context that is not past issue is withdrawn: the program counter stays, nothing has retired, and a `rot` leaves its
partners (R133, R359, R375). -/
def State.withdraw (s : State) (c n : Nat) : State :=
  let x := s.ctx c n
  let s := s.setCtx c n { x.dropped with skidLeft := 0 }
  if n = 1 then s.setCore c { s.core c with rot := none } else s

/-- A context begins or goes on waiting (R229, R350). A halted context that is not stepped does not wait (R375). -/
def State.wait (s : State) (c n : Nat) (on : WaitOn) (addr : Word) : State :=
  let x := s.ctx c n
  let x := { x with places := if on.keepsPlaces || x.committed then x.places else [] }
  if x.halted && !x.stepping && !on.pastIssue && !x.committed then s.withdraw c n
  else match x.waiting with
  | some w => s.setCtx c n { x with waiting := some { w with on := on, addr := addr } }
  | none => s.setCtx c n { x with waiting := some ⟨on, addr, s.cycle⟩ }

/-! ### Checks 4 to 7 of R213 and performing an instruction -/

/-- Which contexts may issue an instruction (R213, R291, R354). -/
inductive Who where
  /-- Any context, code messages included: groups ALU to SYNC, `send` and `halt` (R291). -/
  | any
  /-- Any context but a code message's. -/
  | noText
  /-- The supervisor only (check 5). -/
  | supervisor
  /-- The control context only: vector, mask and accumulator registers (check 6). -/
  | vector
  /-- The control context of a job without NOMATRIX (check 7). -/
  | matrix
  deriving DecidableEq, Repr

/-- The trap of the first check of R213, from check 4 on, that fails. -/
def State.refusal (s : State) (c n : Nat) : Who → Option Cause
  | .any => none
  | .noText => if (s.ctx c n).text.isSome then some .illegalInstruction else none
  | .supervisor =>
    if (s.ctx c n).text.isSome then some .illegalInstruction else if n ≠ 0 then some .privilege else none
  | .vector =>
    if (s.ctx c n).text.isSome then some .illegalInstruction else if n ≠ 1 then some .engineNotOwned else none
  | .matrix =>
    if (s.ctx c n).text.isSome then some .illegalInstruction
    else if n ≠ 1 then some .engineNotOwned
    else if (s.jobOf c).any Job.noMatrix then some .matrixUndeclared
    else none

/-- The precise record of a trap at the instruction where the context stands (R349). -/
def precise (x : Ctx) (cause : Cause) (val : Word) (bytes : Option Nat) : TrapRec :=
  ⟨cause, .p, 0, x.text.isSome, x.pc, val, x.gen, x.pc, bytes⟩

/-! ### Paired cores: fingerprints and intervals (R198 to R201) -/

/-- The control context of a west core that is paired. -/
def Core.pairedWest (k : Core) (n : Nat) : Bool := n = 1 && k.pair.any fun p => !p.east

/-- Its outputs are held, but for those of a synchronising instruction (R198, R199). -/
def Core.holding (k : Core) (n : Nat) : Bool := k.pairedWest n && k.pair.any fun p => !p.direct

/-- A paired control context whose outputs go into the hold buffer. -/
def State.holding (s : State) (c n : Nat) : Bool := (s.core c).holding n

/-- The bytes that a register's value adds to SHALF (R200); a mask counts as 64 bytes (assumption 19). -/
def Core.destBytes (k : Core) (x : Ctx) : Dest → List Byte
  | .g r => bytesOfBits 8 (x.readG r).toNat
  | .p r => bytesOfBits 16 (x.readP r).toNat
  | .v r => bytesOfBits 256 (Assoc.get VRegState.reset k.v r).data.toNat
  | .k r => bytesOfBits 64 (if r = 0 then (BitVec.allOnes 512) else Assoc.get 0 k.k r).toNat

/-- What a paired context's checkpoint holds (R201). -/
def Core.checkpoint (k : Core) (p : PairState) : PairState :=
  { p with
    ctl := k.ctx 1, v := k.v, k := k.k, tiles := k.tiles, manchor := k.manchor, chain := k.chain, pipes := k.pipes
    cirs := [], came := [], rows := [], retired0 := p.retired, crc0 := p.crcS }

/-- What reaches a paired context from outside is noted: a rollback keeps it (R201). -/
def State.pairKeeps (s : State) (c n : Nat) (f : PairState → PairState) : State :=
  let k := s.core c
  if k.pairedWest n then s.setCore c { k with pair := k.pair.map f } else s

/-- An instruction of a paired context has retired: the interval counts it, SHALF takes its items, its copy follows on the east core, and
a synchronising instruction, which starts the interval, moves the checkpoint behind itself (R198 to R200). -/
def State.pairRetire (s : State) (c n : Nat) (i : Instr) : State :=
  let k := s.core c
  match k.pair with
  | none => s
  | some p =>
    if k.pairedWest n then
      let items := i.dests.flatMap (k.destBytes (k.ctx n)) ++ p.items
      let p := { p with
        retired := p.retired + 1, crcS := crcRun p.crcS items, direct := false
        outs := p.outs + if p.emitted then 1 else 0, emitted := false
        trail := p.trail ++ [⟨p.loaded, items, k.ctx n, k.v, k.k, k.tiles, i.refetches⟩], loaded := [], items := [] }
      s.setCore c { k with pair := some (if i.alone then k.checkpoint p else p) }
    else s

/-- Whether the interval of a paired context ends before this instruction (R199). -/
def Core.intervalOver (k : Core) (n : Nat) (i : Instr) : Bool :=
  k.pairedWest n && k.pair.any fun p => 1024 ≤ p.retired || 64 ≤ p.outs || (i.alone && (p.retired ≠ 0 || !k.hold.isEmpty))

/-- The load-value queue of 64 entries is full: values that the east copy has not taken (R198). -/
def Core.loadsFull (k : Core) (n : Nat) : Bool :=
  k.pairedWest n && k.pair.any fun p => 64 ≤ (p.trail.flatMap PairStep.loads).length

/-- A paired context makes an attempt at an instruction; a synchronising one is performed directly. -/
def State.pairBegin (s : State) (c n : Nat) (i : Instr) : State :=
  match (s.core c).pair with
  | none => s
  | some p =>
    if (s.core c).pairedWest n then s.setCore c { s.core c with pair := some { p with direct := i.alone, loaded := [], items := [] } } else s

/-- An output leaves at once, or waits in the hold buffer of a paired context; `now` is its effect. -/
def emit (h : HoldItem) (now : State → State) : M Unit := modify fun s =>
  if s.holding s.curCore s.curSlot then
    let k := s.core s.curCore
    s.setCore s.curCore { k with hold := k.hold ++ [h], pair := k.pair.map fun p => { p with emitted := true } }
  else now s

/-- Atomics on other members' memory whose values are still to come hold an instruction back, unless it may run ahead of them: then it
neither reads nor writes a register that one of them will write (R25). -/
def Ctx.heldByLates (x : Ctx) (i : Instr) : Bool :=
  !x.lates.isEmpty && match i.ahead with
    | some us => x.lates.any fun l => l.dst.any fun d => us.contains d.toNat
    | none => true

/-- Performs an instruction on the issuing context: the checks of R213, its effect, then retirement, its trap or its wait. No trap is
taken while atomics that the context has run ahead of are to come. -/
def perform (who : Who) (i : Instr) (body : M Next) (s : State) : Host.Outcome State Fault Refusal :=
  let c := s.curCore
  let n := s.curSlot
  if (s.ctx c n).heldByLates i then .next (s.wait c n .remote 0)
  else match s.refusal c n who with
  | some cause => .next (if !(s.ctx c n).lates.isEmpty then s.wait c n .remote 0
      else s.takeTrap c n (precise (s.ctx c n) cause (instrLow i) (some (instrBytes i))))
  | none =>
    if (s.core c).intervalOver n i then .next (s.wait c n .pairInterval 0)
    else if (s.core c).loadsFull n then .next (s.wait c n .loadQueue 0)
    else
      match body (s.pairBegin c n i) with
      | .ok (k, t) => .next ((t.retire c n (instrBytes i) k).pairRetire c n i)
      | .error (.trap cause val) =>
        if !(s.ctx c n).lates.isEmpty then .next (s.wait c n .remote 0)
        else .next (s.takeTrap c n (precise (s.ctx c n) cause val (some (instrBytes i))))
      | .error (.wait on addr t) => .next (t.wait c n on addr)

end Sys2Proof.Machine
end

