-- ==== Sys2Proof/Machine/Operands.lean ====
section
/-! DEFINITION. Operand forms: values by type, extension, immediates, effective addresses, lanes (R186, R189, R229, R230, R318). -/

namespace Sys2Proof.Machine

/-- TY 0 to 3 are signed (R230). -/
def signed : Ty → Bool
  | .i8 | .i16 | .i32 | .i64 => true
  | .n8 | .n16 | .n32 | .n64 | .f32 | .f16 | .bf16 | .e4m3 | .e5m2 | .e3m2 | .e2m3 | .e2m1 => false

/-- The low Width(TY) bits of a number, read as signed or unsigned by TY (R253). -/
def valueOf (ty : Ty) (n : Nat) : Int :=
  if signed ty then (BitVec.ofNat ty.width n).toInt else ((n % 2 ^ ty.width : Nat) : Int)

/-- Ext(x, ty): x modulo 2^Width(TY), extended to 64 bits by TY (R189, R230). -/
def ext (ty : Ty) (x : Int) : Word :=
  if signed ty then (BitVec.ofInt ty.width x).signExtend 64 else (BitVec.ofInt ty.width x).setWidth 64

/-- Ext of a register. -/
def extW (ty : Ty) (x : Word) : Word := ext ty x.toNat

/-- Imm() of the I and L formats (R186). -/
def imm24 (i : BitVec 24) : Int := i.toInt
def imm32 (i : BitVec 32) : Int := i.toInt

/-- EA(B, OFF): modulo 2^72 (R230). -/
def ea (b : Ptr) (off : BitVec 21) : Ptr := b + off.signExtend 72
def ea32 (b : Ptr) (off : BitVec 32) : Ptr := b + off.signExtend 72

/-- The address 4·n bytes from the instruction, for a signed count of 4-byte units (R226, R268). -/
def pcPlus (pc : Ptr) (units : Int) : Ptr := pc + BitVec.ofInt 72 (4 * units)

/-- Unified numbers of registers (R218). -/
def uG (r : GReg) : Nat := r.toNat
def uP (r : PReg) : Nat := 32 + r.toNat
def uV (r : VReg) : Nat := 48 + r.toNat

/-- Lane `j` of a register image of lanes of `w` bits (R318). -/
def lane (w : Nat) (d : VData) (j : Nat) : Nat := d.toNat / 2 ^ (w * j) % 2 ^ w

/-- How many lanes of `w` bits a register has. -/
def laneCount (w : Nat) : Nat := 2048 / w

/-- A register image from its lanes, lane 0 first. -/
def ofLanes (w : Nat) (ls : List Nat) : VData :=
  BitVec.ofNat 2048 (ls.foldr (fun x acc => x % 2 ^ w + 2 ^ w * acc) 0)

/-- The lanes of a register image, lane 0 first. -/
def lanes (w : Nat) (d : VData) : List Nat := (List.range (laneCount w)).map (lane w d)

end Sys2Proof.Machine
end

