-- ==== Sys2Proof/Machine/Translate.lean ====
section
/-! DEFINITION. Where an address leads: local space, the supervisor space and the walk of a field's tables
(R19, R27, R127 to R140). -/

namespace Sys2Proof.Machine

/-- Why a translation ends: a trap, a migrating leaf (R140), or an address. `key` is the physical key of the first byte,
before the swizzle of a scratchpad. -/
inductive Where where
  | at_ (key : Nat)
  | bad (c : Cause)
  | migrating
  deriving DecidableEq, Repr

/-- Bits of PODCFG (R378). -/
def State.selfMember (s : State) : Nat := bits s.podcfg 9 0
def State.memberCount (s : State) : Nat := bits s.podcfg 26 16

/-- A listed member's entry is present and sound: PRESENT set, 1 to 24 ports, none above 23 (R378). -/
def State.memberPresent (s : State) (m : Nat) : Bool :=
  let w := Assoc.get 0 s.members (4 * m)
  let n := bits w 15 8
  bit w 0 && 1 ≤ n && n ≤ 24 &&
    (List.range n).all fun i => bits (Assoc.get 0 s.members (4 * m + 1 + i / 8)) (8 * (i % 8) + 7) (8 * (i % 8)) ≤ 23

/-- Offsets of a vault's window that are backed by DRAM (R12). -/
def backed (a : Nat) : Bool := a % 2 ^ 29 < 0x1800_0000

/-- A global physical address (R18, R19, R27): member, HOSTWIN and the address within. -/
def State.globalPlace (s : State) (member : Nat) (hostwin : Bool) (a : Nat) : Where :=
  if s.memberCount ≤ member then .bad .translation
  else if hostwin then
    if member ≠ s.selfMember then .bad .translation else .at_ (keyHost a)
  else if 2 ^ 39 ≤ a then .bad .translation
  else if !backed a then .bad .translation
  else if member = s.selfMember then .at_ (keyDram a)
  else if s.memberPresent member then .at_ (keyRemote (member * 2 ^ 52 + a))
  else .bad .absentMember

/-- Scratch ways in ascending way number (R128): the way that holds offset `o`. -/
def scratchWay (mask : BitVec 16) (o : Nat) : Option Nat :=
  ((List.range 16).filter fun i => bit mask i)[o / 0x2_0000]?

/-- The control contexts' lease of core `c` on position `q`, or access that needs none (R129, R130). -/
def State.mayPeer (s : State) (c n q : Nat) : Bool :=
  s.healthy (coreOf (clusterOf c) q) && (q = posOf c || n = 0 || bit (s.core c).held q)

/-- Local space (R127, R128, R130): `off` is bits 63:0 of the address, `bytes` the access's size. An access to L2 scratch by a core that is in no
field raises TRANSLATION: DESIGN CHOICE, the spec gives no outcome (assumption 131). -/
def State.localPlace (s : State) (c n off bytes : Nat) : Where :=
  let scr (o pid : Nat) : Where :=
    if o + bytes ≤ (s.core pid).scratchSize then .at_ (keyScratch pid o) else .bad .translation
  if off < 2 ^ 32 then scr off c
  else if off / 2 ^ 32 = 1 then
    let q := off % 2 ^ 32 / 2 ^ 24
    if q < 4 then
      if s.mayPeer c n q then scr (off % 2 ^ 24) (coreOf (clusterOf c) q) else .bad .peerExited
    else .bad .translation
  else if off / 2 ^ 32 = 3 then
    match s.fieldOf c with
    | none => .bad .translation
    | some e =>
      let i := off % 2 ^ 32 / 2 ^ 24
      let o := off % 2 ^ 24
      match e.2.map[i]? with
      | none => .bad .permission
      | some cl =>
        match scratchWay (s.slice cl).mask o with
        | some w => .at_ (keyL2 cl w (o % 0x2_0000))
        | none => .bad .translation
  else .bad .translation

/-! ### The walk (R135, R136) -/

/-- Fields of a page-table entry. -/
def pteValid (p : Nat) : Bool := p % 2 = 1
def pteLeaf (p : Nat) : Bool := p / 2 % 2 = 1
def pteRead (p : Nat) : Bool := p / 4 % 2 = 1
def pteWrite (p : Nat) : Bool := p / 8 % 2 = 1
def pteExec (p : Nat) : Bool := p / 16 % 2 = 1
def pteMig (p : Nat) : Bool := p / 32 % 2 = 1
def pteMember (p : Nat) : Nat := p / 2 ^ 16 % 1024
def pteHost (p : Nat) : Bool := p / 2 ^ 26 % 2 = 1
/-- The target address: PFN holds bits 50:16. -/
def pteAddr (p : Nat) : Nat := p / 2 ^ 32 % 2 ^ 35 * 65536
/-- The reserved fields are zero: bits 127:67, 31:27 and 15:6. -/
def pteClean (p : Nat) : Bool := p / 2 ^ 67 = 0 && p / 2 ^ 27 % 32 = 0 && p / 64 % 1024 = 0

/-- The lowest address bit that an entry of a level decides; level 4 is the root. -/
def levelShift (l : Nat) : Nat := match l with | 0 => 16 | 1 => 27 | 2 => 38 | 3 => 49 | _ => 60
/-- The index of an address at a level. -/
def levelIndex (l va : Nat) : Nat := va / 2 ^ levelShift l % (if l = 4 then 4096 else 2048)

/-- What the walk finds: an entry that may be cached, or the end. -/
inductive Walked where
  | leaf (pte level : Nat)
  | none
  deriving DecidableEq, Repr

/-- One entry by its checks (R136): whether it may be used at its level. -/
def State.entryOk (s : State) (l pte : Nat) : Bool :=
  pteValid pte && pteClean pte &&
    (if pteLeaf pte then l ≤ 2 && pteAddr pte % 2 ^ levelShift l = 0
     else l ≠ 0 && pteMember pte = s.selfMember && !pteHost pte && pteAddr pte < 2 ^ 39)

/-- Walks from level `l` (counted down from 4), with the table at `table`. Entries already in the TLB are used; an entry
read from H that is valid enters it (R138), but for a leaf that migrates, which every re-walk reads again (R140). -/
def State.walk (s : State) (c va : Nat) : Nat → Nat → Walked × State
  | 0, _ => (.none, s)
  | l + 1, table =>
    let tag := va / 2 ^ levelShift l
    let cached := (s.core c).tlb.find? fun e => e.level = l && e.tag = tag
    let a := table + 16 * levelIndex l va
    let pte := match cached with
      | some e => e.pte
      | none => if backed a then s.peekNat (keyDram a) 16 else 0
    if s.entryOk l pte then
      let s := if cached.isSome || (pteLeaf pte && pteMig pte) then s else s.setCore c { s.core c with tlb := ⟨l, tag, pte⟩ :: (s.core c).tlb }
      if pteLeaf pte then (.leaf pte l, s) else s.walk c va l (pteAddr pte)
    else (.none, s)

/-- The table entries that a walk from a level reads at their home slices, by the key of each: those that the TLB does not hold (R136, R138). -/
def State.walkFrom (s : State) (c va : Nat) : Nat → Nat → List Nat
  | 0, _ => []
  | l + 1, table =>
    let cached := (s.core c).tlb.find? fun e => e.level = l && e.tag = va / 2 ^ levelShift l
    let a := table + 16 * levelIndex l va
    let pte := match cached with
      | some e => e.pte
      | none => if backed a then s.peekNat (keyDram a) 16 else 0
    let here := if cached.isNone && backed a then [keyDram a] else []
    if s.entryOk l pte && !pteLeaf pte then here ++ s.walkFrom c va l (pteAddr pte) else here

/-- The entries that the walk of an access by context `n` reads; an access that is not translated reads none (R127, R134). -/
def State.walkReads (s : State) (c n va : Nat) : List Nat :=
  if va / 2 ^ 64 = 0xFF || (n = 0 && va / 2 ^ 64 ≤ 2) then []
  else match s.fieldOf c with
    | some e => if e.2.root = 0 then [] else s.walkFrom c va 5 e.2.root
    | none => []

/-- The permission that an access needs (R137). -/
def grants (pte : Nat) : Access → Bool
  | .fetch => pteExec pte
  | .read => pteRead pte
  | .write => pteWrite pte
  | .update => pteRead pte && pteWrite pte

/-- A device-local leaf of a SNAP job lies in a vault under a core of the job's field (R112, R136). -/
def State.snapAllows (s : State) (c a : Nat) : Bool :=
  match s.fieldOf c with
  | some e =>
    match e.2.job with
    | some j => !j.snapJob || e.2.covers (clusterOf (a / 2 ^ 29))
    | none => true
  | none => true

/-! ### Reserved areas and reserve pages (R111, R112). A page is named by its address over 64 KiB; a vault has 8,192. -/

/-- How many pages a vault has below its state reserve. -/
def vaultPages : Nat := 0x17B0

/-- The reserve pages of a job's pages `ps` that are among a list: counted down from the state reserve of their vault. -/
def Job.reserves (j : Job) (p : Nat) : Bool :=
  p % 8192 < vaultPages && vaultPages ≤ p % 8192 + (j.reserved.filter fun q => q / 8192 = p / 8192).length

/-- A page that programs cannot address: in an area at the top of its vault, or the reserve page of a snapshot-enabled job. -/
def State.barred (s : State) (p : Nat) : Bool :=
  vaultPages ≤ p % 8192 || s.fields.any fun e => e.2.job.any fun j => j.reserves p

/-- Every vault takes the pages of a job with as many reserve pages. -/
def reserveRoom (ps : List Nat) : Bool :=
  ps.all fun p => p % 8192 + (ps.filter fun q => q / 8192 = p / 8192).length < vaultPages

/-- The pages that a leaf names. -/
def leafPages (pte l : Nat) : List Nat := (List.range (2 ^ (levelShift l - 16))).map (pteAddr pte / 65536 + ·)

/-- The first walk of a snapshot-enabled job that reaches a device-local leaf reserves a page for each of its pages; none when a vault
cannot take another (R112). -/
def State.reserveLeaf (s : State) (c pte l : Nat) : Option State :=
  match s.fieldOf c with
  | some (fid, f) =>
    match f.job with
    | some j =>
      if !j.snapJob then some s
      else if 1 < l then none
      else
        let new := (leafPages pte l).filter fun p => !j.reserved.contains p
        if new.isEmpty then some s
        else if reserveRoom (j.reserved ++ new) then some (s.modJob fid fun j => { j with reserved := j.reserved ++ new })
        else none
    | none => some s
  | none => some s

/-- The walk of the tables of the core's field, and the leaf's checks (R111, R112, R135 to R137, R140). -/
def State.tables (s : State) (c va : Nat) (k : Access) : Where × State :=
  match s.fieldOf c with
  | none => (.bad .translation, s)
  | some e =>
    if e.2.root = 0 then (.bad .translation, s)
    else
      match s.walk c va 5 e.2.root with
      | (.none, t) => (.bad .translation, t)
      | (.leaf pte l, t) =>
        let a := pteAddr pte + va % 2 ^ levelShift l
        match t.globalPlace (pteMember pte) (pteHost pte) a with
        | .at_ key =>
          if keySpace key = 0 ∧ (s.barred (a / 65536) ∨ !t.snapAllows c a) then (.bad .translation, t)
          else if keySpace key = 2 ∧ vaultPages ≤ a / 65536 % 8192 then (.bad .translation, t)
          else
            match (if keySpace key = 0 then t.reserveLeaf c pte l else some t) with
            | none => (.bad .translation, t)
            | some t =>
              if !grants pte k then (.bad .permission, t)
              else if pteMig pte then (.migrating, t)
              else (.at_ key, t)
        | w => (w, t)

/-- The supervisor space (R134). A fetch through forms 0x01 and 0x02 or from local space, and a write to the boot ROM window, raise PERMISSION: DESIGN
CHOICE, R134 lists the accesses that are allowed and names no trap for the others (assumption 132). -/
def State.supervisor (s : State) (c va bytes : Nat) (k : Access) : Where × State :=
  let hi := va / 2 ^ 64
  let lo := va % 2 ^ 64
  if hi = 0 then
    if lo < 2 ^ 39 then
      -- the boot ROM window of the identity map (R361, assumption 10)
      (if backed lo then .at_ (keyDram lo) else .bad .translation, s)
    else if lo / 2 ^ 16 = 0x80_0000 ∧ (s.core c).bootMode then
      (if k = .fetch ∨ k = .read then .at_ (keyRom (lo % 2 ^ 16)) else .bad .permission, s)
    else (.bad .translation, s)
  else if hi = 1 then
    (if lo < 2 ^ 51 ∧ k ≠ .fetch then .at_ (keyHost lo) else .bad (if lo < 2 ^ 51 then .permission else .translation), s)
  else if hi = 2 then
    (if lo < 2 ^ 62 then
      (if k = .fetch then .bad .permission
       else s.globalPlace (lo / 2 ^ 52) (lo / 2 ^ 51 % 2 = 1) (lo % 2 ^ 51))
     else .bad .translation, s)
  else if hi = 0xFF then
    (if k = .fetch then .bad .permission else s.localPlace c 0 lo bytes, s)
  else s.tables c va k

/-- Where an access of context `n` of core `c` to address `va` leads (Translate of R230). -/
def State.locate (s : State) (c n va bytes : Nat) (k : Access) : Where × State :=
  if n = 0 then s.supervisor c va bytes k
  else if va / 2 ^ 64 = 0xFF then
    (if k = .fetch then .bad .permission else s.localPlace c n (va % 2 ^ 64) bytes, s)
  else s.tables c va k

/-- The keys of `n` bytes from a place: the swizzle window of a scratchpad is mapped word by word (R125). -/
def State.keysOf (s : State) (key n : Nat) : List Nat :=
  (List.range n).map fun i =>
    if keySpace key = 3 then
      let c := keyCore key
      keyScratch c ((s.core c).swizzle (keyAddr key % 2 ^ 24 + i))
    else key + i

end Sys2Proof.Machine
end

