-- ==== Sys2Proof/Machine/Pages.lean ====
section
/-! DEFINITION. The pages of a field's tables, free pages, and the writing of table entries, as the micro-kernels and the bulk engine do
it (R111, R112, R120, R135, R159, R305). -/

namespace Sys2Proof.Machine

/-! ### What the tables of a field name -/

/-- The entries of a table that are not empty: their indices, from the bytes that memory lists. -/
def State.tableIndices (s : State) (table n : Nat) : List Nat :=
  ((s.mem.filter fun e => table ≤ e.1 && e.1 < table + 16 * n).map fun e => (e.1 - table) / 16).eraseDups

/-- The leaves below a table of a level, counted down from 5 at the root: their virtual addresses, entries and levels. -/
def State.leaves (s : State) : Nat → Nat → Nat → List (Nat × Nat × Nat)
  | 0, _, _ => []
  | l + 1, table, va =>
    (s.tableIndices table (if l = 4 then 4096 else 2048)).flatMap fun i =>
      let pte := s.peekNat (keyDram (table + 16 * i)) 16
      let va := va + i * 2 ^ levelShift l
      if !s.entryOk l pte then []
      else if pteLeaf pte then [(va, pte, l)]
      else s.leaves l (pteAddr pte) va

/-- The tables of a field, the root among them: their addresses. -/
def State.tablesOf (s : State) : Nat → Nat → List Nat
  | 0, _ => []
  | l + 1, table =>
    table :: (s.tableIndices table (if l = 4 then 4096 else 2048)).flatMap fun i =>
      let pte := s.peekNat (keyDram (table + 16 * i)) 16
      if s.entryOk l pte && !pteLeaf pte then s.tablesOf l (pteAddr pte) else []

/-- A leaf that names memory of this device. -/
def State.localLeaf (s : State) (pte : Nat) : Bool := pteMember pte = s.selfMember && !pteHost pte

/-- The device-local pages of 64 KiB that a field's tables map: virtual and device address. -/
def State.jobPages (s : State) (root : Nat) : List (Nat × Nat) :=
  if root = 0 then []
  else
    (s.leaves 5 root 0).flatMap fun e =>
      if s.localLeaf e.2.1 then
        (List.range (2 ^ levelShift e.2.2 / 65536)).filterMap fun i =>
          let a := pteAddr e.2.1 + 65536 * i
          if a < 2 ^ 39 && backed a then some (e.1 + 65536 * i, a) else none
      else []

/-- The pages of a snapshot-enabled job that are to have reserve pages: those that have them, and the others that its tables map. -/
def State.reservable (s : State) (root : Nat) (had : List Nat) : List Nat :=
  had ++ (((s.jobPages root).map fun p => p.2 / 65536).eraseDups.filter fun p => !had.contains p)

/-- Every vault has room for the reserve pages of the pages that are mapped in it. -/
def State.reserveFits (s : State) (root : Nat) : Bool := reserveRoom (s.reservable root [])

/-! ### Free pages (R120, R305) -/

/-- The pages of this device that the model knows to be taken: by the tables of a field and what they map, by its shadow pool, and by
the reserve pages of its job. Large leaves count by their first page and their last. -/
def State.takenPages (s : State) : List Nat :=
  s.fields.flatMap fun e =>
    let f := e.2
    let maps := if f.root = 0 then [] else (s.leaves 5 f.root 0).flatMap fun x =>
      if s.localLeaf x.2.1 && x.2.2 = 0 then [pteAddr x.2.1 / 65536] else []
    (if f.root = 0 then [] else (s.tablesOf 5 f.root).map (· / 65536)) ++ maps ++ f.shadow.map (· / 65536)

/-- A page may be taken: no list names it, no large leaf covers it, and programs can address it. -/
def State.pageFree (s : State) (taken : List Nat) (p : Nat) : Bool :=
  !taken.contains p && !s.barred p && s.fields.all fun e =>
    e.2.root = 0 || (s.leaves 5 e.2.root 0).all fun x =>
      !(s.localLeaf x.2.1 && x.2.2 ≠ 0 && pteAddr x.2.1 / 65536 ≤ p && p < pteAddr x.2.1 / 65536 + 2 ^ (levelShift x.2.2 - 16))

/-- The first free page from place `i` on, in a round of `n` places; `at_` gives the page of a place. -/
def firstFree (ok : Nat → Bool) (at_ : Nat → Nat) (n : Nat) : Nat → Nat → Option Nat
  | 0, _ => none
  | k + 1, i => if ok (at_ (i % n)) then some (at_ (i % n)) else firstFree ok at_ n k (i + 1)

/-- A free page in one of some vaults that passes a test: the micro-kernels choose it, and the model leaves open where they begin to look. -/
def State.freePage (s : State) (ok : Nat → Bool) (vaults taken : List Nat) (choice : Nat) : Option Nat :=
  let n := vaults.length * vaultPages
  if n = 0 then none
  else firstFree (fun p => ok p && s.pageFree taken p) (fun i => vaults.getD (i / vaultPages) 0 * 8192 + i % vaultPages) n n (Config.freePage choice)

/-! ### Writing entries (R120, R135, R159) -/

/-- An entry of a translation table of this device: a leaf with permissions, or a pointer to the next table (R135). -/
def State.tableEntry (s : State) (leaf : Option Nat) (a : Nat) : Nat :=
  (match leaf with | some perms => 3 + perms % 8 * 4 | none => 1) + s.selfMember * 2 ^ 16 + a / 65536 * 2 ^ 32

/-- The entry in H that maps a virtual address, from the table of level `l`, counted down from 5 at the root: its key, its value and its
level. -/
def State.leafAt (s : State) (va : Nat) : Nat → Nat → Option (Nat × Nat × Nat)
  | 0, _ => none
  | l + 1, table =>
    let k := keyDram (table + 16 * levelIndex l va)
    let pte := s.peekNat k 16
    if !s.entryOk l pte then none
    else if pteLeaf pte then some (k, pte, l)
    else s.leafAt va l (pteAddr pte)

/-- An entry with another page, its other bits kept. -/
def repointed (pte page : Nat) : Nat := pte % 2 ^ 32 + page / 65536 * 2 ^ 32

/-! ### Copies between parts of H -/

/-- `n` bytes from a key on read as zero, without marks; the vault pages that they lie in are written. -/
def State.wipe (s : State) (lo n : Nat) : State :=
  { s with
    mem := Assoc.clear s.mem lo (lo + n), poison := Assoc.clear s.poison lo (lo + n)
    dirtyPages := if keySpace lo = 0 then (List.range ((lo % 65536 + n + 65535) / 65536)).foldl (fun m i => Assoc.set false m (lo / 65536 + i) true) s.dirtyPages
      else s.dirtyPages }

/-- `n` bytes with their marks copied between places that lie apart. -/
def State.copyKeys (s : State) (src dst n : Nat) : State :=
  let cells := s.mem.filter fun e => src ≤ e.1 && e.1 < src + n
  let marks := s.poison.filter fun e => src ≤ e.1 && e.1 < src + n
  let s := (s.wipe dst n).pokes (cells.map fun e => (e.1 - src + dst, e.2))
  { s with poison := marks.foldl (fun m e => Assoc.set false m (let k := e.1 - src + dst; k / unitOf k * unitOf k) true) s.poison }

end Sys2Proof.Machine
end

