-- ==== Sys2Proof/Machine/Mesh.lean ====
section
/-! DEFINITION. The data mesh and the accumulate network: the networks and buffers that a packet uses, and its way from router to
router (R10, R55 to R57, R64, R65, R240 to R242). -/

namespace Sys2Proof.Machine

/-! ### Networks (R55, R57) -/

/-- The three virtual networks of the data mesh, the accumulate network, and what has links of its own: the flits of boot and the halt
signals. -/
inductive Network where
  | request | response | message | accumulate | own
  deriving DecidableEq, Repr

/-- The network that carries a packet. R55 names those of memory traffic, of steal requests, of NAKs and weight returns, and of messages, replies and
records in transit; that pipe entries and lapse notices, which ask something of a core, travel as requests, that credits, write-offs and
acknowledgements of a lapse, which answer, travel as responses, and that arm notices and taint reports, which weight does not overtake though no
response waits for a request, travel with it, is DEDUCED (assumption 141). -/
def Packet.network : Packet → Network
  | .message _ | .reply _ | .transit _ _ => .message
  | .stealAsk _ _ | .pipeEntry _ _ _ _ | .lapse _ => .request
  | .arm _ | .taint _ _ | .stray _ | .weight _ _ | .writeOff _ _ _ _ _ | .stealShip _ | .noWork _ | .lapseAck _ | .pipeCredit _ _ => .response
  | .row _ _ _ _ _ _ _ _ | .rowAck _ _ | .rowNak _ _ _ => .accumulate
  | .haltSignal _ | .bootDisc _ _ _ | .bootCast _ _ _ _ | .bootReport _ _ _ => .own

/-- An entry of a pipe, whose flit and whose credit's flit the governor of its router charges (R71, R309). -/
def Packet.isEntry : Packet → Bool
  | .pipeEntry _ _ _ _ => true
  | _ => false

/-- The packets that the buffers of a router hold for a network and a class. No rule gives the buffers a size: they
take what comes (assumption 111). -/
def State.buffer (s : State) (r : Nat) (n : Network) (cls : MeshClass) : List Flight :=
  s.net.filter fun f => f.at_ = r && f.body.network = n && f.cls = cls

/-! ### Mux and route entries (R240, R241) -/

def muxX (e : Nat) : Nat := e % 32
def muxY (e : Nat) : Nat := e / 32 % 32
def muxDir (e : Nat) : Nat := e / 1024 % 4
def muxNet (e : Nat) : Nat := e / 4096 % 2

def routeX (e : Nat) : Nat := e % 32
def routeY (e : Nat) : Nat := e / 32 % 32
def routePort (e : Nat) : Nat := e / 2 ^ 31 % 8
def routeDateline (e : Nat) : Bool := e / 2 ^ 34 % 2 = 1
/-- The rectangle of a route entry holds a router. -/
def routeHolds (e x y : Nat) : Bool :=
  e / 2 ^ 11 % 32 ≤ x && x ≤ e / 2 ^ 16 % 32 && e / 2 ^ 21 % 32 ≤ y && y ≤ e / 2 ^ 26 % 32

/-- The router `n` links away in a direction: 0 N, 1 E, 2 S, 3 W; none off the mesh. -/
def linkEnd (x y dir n : Nat) : Option (Nat × Nat) :=
  match dir with
  | 0 => if n ≤ y then some (x, y - n) else none
  | 1 => if x + n < 32 then some (x + n, y) else none
  | 2 => if y + n < 32 then some (x, y + n) else none
  | _ => if n ≤ x then some (x - n, y) else none

/-- The entry that enables the end of an express link. -/
def muxAt (muxes : List Nat) (x y dir net : Nat) : Bool :=
  muxes.any fun e => muxX e = x && muxY e = y && muxDir e = dir && muxNet e = net

/-! ### One hop (R56, R65, R242) -/

/-- The XY step from a router: along x first, and then along y. -/
def xyStep (r dst : Nat) : Nat :=
  if coreX r < coreX dst then coreAt (coreX r + 1) (coreY r)
  else if coreX dst < coreX r then coreAt (coreX r - 1) (coreY r)
  else if coreY r < coreY dst then coreAt (coreX r) (coreY r + 1)
  else if coreY dst < coreY r then coreAt (coreX r) (coreY r - 1)
  else r

/-- The router at the other end of a port. Neighbour links are always there; an express link carries traffic only when both of its ends
are enabled (R241). -/
def FieldSt.portEnd (f : FieldSt) (net r port : Nat) : Option Nat :=
  let dir := port % 4
  if port < 4 then (linkEnd (coreX r) (coreY r) dir 1).map fun e => coreAt e.1 e.2
  else
    match linkEnd (coreX r) (coreY r) dir 2 with
    | some (x, y) =>
      if muxAt f.muxes (coreX r) (coreY r) dir net && muxAt f.muxes x y ((dir + 2) % 4) net then some (coreAt x y) else none
    | none => none

/-- The first route entry of a network at a router whose rectangle holds the destination (R242). -/
def FieldSt.routeAt (f : FieldSt) (net r dst : Nat) : Option Nat :=
  (if net = 1 then f.chain else f.routes).find? fun e =>
    routeX e = coreX r && routeY e = coreY r && routeHolds e (coreX dst) (coreY dst)

/-- Where a packet of a stitch class, or an accumulate row, goes next: by its route entry, or by its XY step when there is none. A packet
of the data mesh moves from S0 to S1 by an entry with DATELINE set (R65, R242). -/
def FieldSt.hop (f : FieldSt) (net : Nat) (cls : MeshClass) (r dst : Nat) : Nat × MeshClass :=
  match f.routeAt net r dst with
  | some e =>
    match f.portEnd net r (routePort e) with
    | some n => (n, if net = 0 && routeDateline e && cls = .s0 then .s1 else cls)
    | none => (r, cls)
  | none => (xyStep r dst, cls)

/-- The class in which a packet is injected: a stitch class when source and destination lie in one field (R65). -/
def State.classOf (s : State) (src dst : Nat) : MeshClass :=
  match s.fieldOf src with
  | some e => if e.2.covers (clusterOf dst) then .s0 else .xy
  | none => .xy

/-- A packet as it is injected at the router of `src`. What has links of its own, boot and halt, is at its destination at once. -/
def State.flight (s : State) (src dst : Nat) (p : Packet) : Flight :=
  match p.network with
  | .own => ⟨dst, p, dst, .xy⟩
  | .accumulate => ⟨dst, p, src, .s0⟩
  | .request | .response | .message => ⟨dst, p, src, s.classOf src dst⟩

/-- Sends a packet from a core to a core. -/
def State.push (s : State) (src dst : Nat) (p : Packet) : State := { s with net := s.net ++ [s.flight src dst p] }

/-- A packet of a pipe: an entry takes its slot of the ring when it leaves, behind those that handlers of the core have pushed (R309). -/
def State.entryLeaves (s : State) (c : Nat) (f : Flight) : State :=
  match f.body with
  | .pipeEntry p _ v mark =>
    let e := Assoc.get PipeEnd.reset (s.core c).pipes p
    if e.closed then s
    else { s.setCore c { s.core c with pipes := Assoc.set PipeEnd.reset (s.core c).pipes p { e with tail := e.tail + 1 } } with
      net := s.net ++ [{ f with body := .pipeEntry p e.tail v mark }] }
  | _ => { s with net := s.net ++ [f] }

/-- The packet one router further. -/
def State.hopped (s : State) (f : Flight) : Flight :=
  if f.at_ = f.dst then f
  else
    match f.cls, s.fieldOf f.dst with
    | .xy, _ | _, none => { f with at_ := xyStep f.at_ f.dst }
    | cls, some e =>
      let n := e.2.hop (if f.body.network = .accumulate then 1 else 0) cls f.at_ f.dst
      { f with at_ := n.1, cls := n.2 }

/-- Packet `i` moves over one link. Packets of one buffer leave it in any order: none is promised (R289). -/
def State.hopTurn (s : State) (i : Nat) : State :=
  match s.net[i]? with
  | some f => { s with net := s.net.set i (s.hopped f) }
  | none => s

/-! ### Requests of the memory machine (R55, R65) -/

/-- A route of a field reaches its destination within `n` hops. -/
def FieldSt.reaches (f : FieldSt) : Nat → MeshClass → Nat → Nat → Bool
  | 0, _, r, dst => r = dst
  | n + 1, cls, r, dst =>
    r = dst || (let h := f.hop 0 cls r dst
      f.reaches n h.2 h.1 dst)

/-- A request of core `c` reaches the router of a home, and its response comes back. A field whose routes circle stalls its own traffic, and
no other (R65); 2,048 hops visit every router in both stitch classes. -/
def State.meshOpen (s : State) (c home : Nat) : Bool :=
  match s.fieldOf c with
  | some e =>
    e.2.routes.isEmpty || !e.2.covers (clusterOf home) || (e.2.reaches 2048 .s0 c home && e.2.reaches 2048 .s0 home c)
  | none => true

/-- The router of the home of a key: below the vault, or at the slice's cluster (R66). R66 names the cluster of a home slice and no router of it:
that a request for DRAM ends at the router below the vault, and one for a host line or a scratch way at the cluster's router of position
q0, is a DESIGN CHOICE (assumption 142). -/
def homeRouter (key : Nat) : Nat :=
  match keySpace key with
  | 0 => keyAddr key / 2 ^ 29
  | 1 => coreOf (keyAddr key / 64 % 256) 0
  | 4 => coreOf (keyAddr key / 2 ^ 24) 0
  | _ => keyCore key

/-- The routes that core `c` has to the home of a key: to a slice, or to the scratchpad of another core. What leaves the device takes no
route of a field. -/
def State.wayTo (s : State) (c key : Nat) : Bool :=
  match keySpace key with
  | 0 | 1 | 4 => s.meshOpen c (homeRouter key)
  | 3 => keyCore key = c || s.meshOpen c (keyCore key)
  | _ => true

end Sys2Proof.Machine
end

