-- ==== Sys2Proof/Machine/Flags.lean ====
section
/-! DEFINITION. The flags of FPSTAT (R190) and how an instruction sets them. -/

namespace Sys2Proof.Machine

/-- Sets of flags, as the low six bits of FPSTAT. -/
abbrev Flags := BitVec 6

def fNV : Flags := 1
def fDZ : Flags := 2
def fOF : Flags := 4
def fUF : Flags := 8
def fNX : Flags := 16
def fACCW : Flags := 32

/-- SetFlags: flags never clear except by a write of 1 (R190, R230). -/
def setFlags (f : Flags) : M Unit := modCtx fun x => { x with fpstat := x.fpstat ||| f.setWidth 64 }

/-- FPCTL.SEED (R179). -/
def Ctx.seed (x : Ctx) : BitVec 32 := x.fpctl.extractLsb' 32 32

/-- FPCTL.RM, which holds codes 0 to 5 (R177). -/
def Ctx.rm (x : Ctx) : Rm :=
  match bits x.fpctl 2 0 with
  | 0 => .rne
  | 1 => .rtz
  | 2 => .rdn
  | 3 => .rup
  | 4 => .rna
  | _ => .sr

/-- Mode(q): q, or FPCTL.RM when q is dynamic (R177, R180). -/
def Ctx.mode (x : Ctx) (q : Rm) : Rm := if q = .dyn then x.rm else q

/-- A rounding: the mode, the saturate bit, and the 32 bits of SrBits that the element draws (R178, R179). -/
structure Rounding where
  rm : Rm
  sat : Bool
  draw : Nat
  deriving DecidableEq, Repr

/-- SrBits(seed, i) (R179); all arithmetic modulo 2^32. -/
def srBits (seed i : Nat) : Nat :=
  let x := (BitVec.ofNat 32 seed) ^^^ (BitVec.ofNat 32 i * 0x9E3779B9#32)
  let x := x ^^^ (x >>> 16)
  let x := x * 0x21F0AAAD#32
  let x := x ^^^ (x >>> 15)
  let x := x * 0x735A2D97#32
  let x := x ^^^ (x >>> 15)
  x.toNat

/-- The rounding of element `i` of an instruction with qualifier `q` (R180). -/
def Ctx.rounding (x : Ctx) (q : FQ) (i : Nat) : Rounding := ⟨x.mode q.rm, q.sat, srBits x.seed.toNat i⟩

end Sys2Proof.Machine
end

