-- ==== Sys2Proof/Machine/Num.lean ====
section
/-! DEFINITION. Number formats and rounding: the element formats, exact values, RoundTo and the special functions
(R164 to R189). -/

namespace Sys2Proof.Machine

/-! ### Formats (R164) -/

/-- A floating-point element format. -/
structure Fmt where
  expBits : Nat
  manBits : Nat
  bias : Nat
  /-- The largest finite magnitude pattern. -/
  maxPat : Nat
  hasInf : Bool
  hasNaN : Bool
  /-- The canonical quiet NaN (R166). -/
  nan : Nat
  /-- No subnormals (R181). -/
  flush : Bool
  deriving DecidableEq, Repr

def fmtOf : Ty → Fmt
  | .f32 => ⟨8, 23, 127, 0x7F7F_FFFF, true, true, 0x7FC0_0000, false⟩
  | .f16 => ⟨5, 10, 15, 0x7BFF, true, true, 0x7E00, false⟩
  | .bf16 => ⟨8, 7, 127, 0x7F7F, true, true, 0x7FC0, true⟩
  | .e4m3 => ⟨4, 3, 7, 0x7E, false, true, 0x7F, false⟩
  | .e5m2 => ⟨5, 2, 15, 0x7B, true, true, 0x7E, false⟩
  | .e3m2 => ⟨3, 2, 3, 0x1F, false, false, 0, false⟩
  | .e2m3 => ⟨2, 3, 1, 0x1F, false, false, 0, false⟩
  | .e2m1 => ⟨2, 1, 1, 0x7, false, false, 0, false⟩
  | .i8 | .i16 | .i32 | .i64 | .n8 | .n16 | .n32 | .n64 => ⟨8, 23, 127, 0x7F7F_FFFF, true, true, 0x7FC0_0000, false⟩

def Fmt.width (f : Fmt) : Nat := 1 + f.expBits + f.manBits
/-- The magnitude pattern of infinity. -/
def Fmt.infPat (f : Fmt) : Nat := (2 ^ f.expBits - 1) * 2 ^ f.manBits
/-- A pattern with a sign. -/
def Fmt.signed (f : Fmt) (neg : Bool) (mag : Nat) : Nat := (if neg then 2 ^ (f.width - 1) else 0) + mag

/-! ### Values -/

/-- A number: sign, and magnitude (m + δ)·2^e with 0 < δ < 1 when `more` is set and δ = 0 otherwise. An infinity, or a NaN. -/
inductive Val where
  | num (neg : Bool) (m : Nat) (e : Int) (more : Bool)
  | inf (neg : Bool)
  | nan (signalling : Bool)
  deriving DecidableEq, Repr

def Val.zero : Val := .num false 0 0 false
def Val.isNaN : Val → Bool
  | .nan _ => true
  | .num _ _ _ _ | .inf _ => false
def Val.isSignalling : Val → Bool
  | .nan b => b
  | .num _ _ _ _ | .inf _ => false
def Val.isZero : Val → Bool
  | .num _ m _ more => m = 0 && !more
  | .inf _ | .nan _ => false
def Val.negative : Val → Bool
  | .num n _ _ _ => n
  | .inf n => n
  | .nan _ => false
def Val.neg : Val → Val
  | .num n m e r => .num (!n) m e r
  | .inf n => .inf (!n)
  | .nan b => .nan b

/-- The signed integer of an exact number at exponent `e0`, for e0 at or below its own exponent. -/
def scaled (neg : Bool) (m : Nat) (e e0 : Int) : Int :=
  let x : Int := (m * 2 ^ (e - e0).toNat : Nat)
  if neg then -x else x

/-- The number of bits of a natural number. -/
def bitLen (n : Nat) : Nat := if n = 0 then 0 else Nat.log2 n + 1

/-- The value of element encoding `n` of a float format (R164). Bits above the format are not read (R165, R182). -/
def decodeFmt (f : Fmt) (n : Nat) : Val :=
  let neg := n / 2 ^ (f.width - 1) % 2 = 1
  let ex := n / 2 ^ f.manBits % 2 ^ f.expBits
  let m := n % 2 ^ f.manBits
  let mag := n % 2 ^ (f.width - 1)
  if f.hasInf ∧ ex = 2 ^ f.expBits - 1 then
    if m = 0 then .inf neg else .nan (m / 2 ^ (f.manBits - 1) = 0)
  else if f.hasNaN ∧ !f.hasInf ∧ mag = f.nan then .nan false
  else if ex = 0 then .num neg m (1 - f.bias - f.manBits) false
  else .num neg (2 ^ f.manBits + m) (ex - f.bias - f.manBits) false

/-- The value that an arithmetic instruction reads: a bf16 subnormal is zero of its sign (R181). -/
def Fmt.read (f : Fmt) (n : Nat) : Val :=
  if f.flush ∧ n / 2 ^ f.manBits % 2 ^ f.expBits = 0 then .num (n / 2 ^ (f.width - 1) % 2 = 1) 0 0 false
  else decodeFmt f n

/-- Value(x, ty) of an unscaled element (R230). -/
def value (ty : Ty) (n : Nat) : Val :=
  if ty.isInt then
    let v := valueOf ty n
    .num (v < 0) v.natAbs 0 false
  else (fmtOf ty).read n

/-! ### RoundTo (R178, R179, R181) -/

/-- Whether a magnitude k + r/2^sh (a little more when `more`) rounds up to k + 1. -/
def roundsUp (rd : Rounding) (neg : Bool) (k r sh : Nat) (more : Bool) : Bool :=
  let inexact := r ≠ 0 || more
  match rd.rm with
  | .rne => 2 ^ sh < 2 * r || (2 * r = 2 ^ sh && sh ≠ 0 && (more || k % 2 = 1))
  | .rna => 2 ^ sh ≤ 2 * r && sh ≠ 0
  | .rtz => false
  | .rdn => neg && inexact
  | .rup => !neg && inexact
  | .sr | .dyn => inexact && rd.draw < r * 2 ^ 32 / 2 ^ sh

/-- A result and the flags it sets. -/
abbrev Res := Nat × Flags

/-- The result beyond the largest finite value (R178, step 3). -/
def overflow (f : Fmt) (rd : Rounding) (neg : Bool) : Res :=
  let toMax := !f.hasInf || rd.sat ||
    (match rd.rm with
      | .rtz => true
      | .rdn => !neg
      | .rup => neg
      | .rne | .rna | .sr | .dyn => false)
  (f.signed neg (if toMax then f.maxPat else f.infPat), fOF ||| fNX)

/-- RoundTo of a number (m + δ)·2^e into a float format. Where `more` is set, m must have more bits than the format and
the draw together. -/
def roundNum (f : Fmt) (rd : Rounding) (neg : Bool) (m : Nat) (e : Int) (more : Bool) : Res :=
  if m = 0 then (f.signed neg 0, if more then fNX ||| fUF else 0)
  else
    let top : Int := e + (bitLen m - 1 : Nat)
    let emin : Int := 1 - (f.bias : Int)
    let ulp : Int := (if f.flush || emin ≤ top then top else emin) - f.manBits
    let sh := (ulp - e).toNat
    let m' := m * 2 ^ (e - ulp).toNat
    let k := m' / 2 ^ sh
    let r := m' % 2 ^ sh
    let inexact := r ≠ 0 || more
    let k' := if roundsUp rd neg k r sh more then k + 1 else k
    let tiny := top < emin
    -- the magnitude pattern of k'·2^ulp on the grid without an exponent limit
    let carry := k' = 2 ^ (f.manBits + 1)
    let k2 := if carry then 2 ^ f.manBits else k'
    let ulp2 := if carry then ulp + 1 else ulp
    let top2 := ulp2 + f.manBits
    let ex : Int := top2 + f.bias
    if 2 ^ f.manBits ≤ k2 then
      if f.flush ∧ top2 < emin then (f.signed neg 0, fUF ||| fNX)
      else
        let pat := ex.toNat * 2 ^ f.manBits + (k2 - 2 ^ f.manBits)
        if f.maxPat < pat then overflow f rd neg
        else (f.signed neg pat, (if inexact then fNX else 0) ||| (if tiny && inexact then fUF else 0))
    else
      (f.signed neg k2, (if inexact then fNX else 0) ||| (if tiny && inexact then fUF else 0))

/-- RoundTo of a number into an integer type: saturating, with NV out of range (R178). -/
def roundInt (ty : Ty) (rd : Rounding) (neg : Bool) (m : Nat) (e : Int) (more : Bool) : Res :=
  let sh := (-e).toNat
  let m' := m * 2 ^ e.toNat
  let k := m' / 2 ^ sh
  let r := m' % 2 ^ sh
  let inexact := r ≠ 0 || more
  let k' : Int := if roundsUp rd neg k r sh more then (k + 1 : Nat) else (k : Nat)
  let v := if neg then -k' else k'
  let lo : Int := if signed ty then -(2 ^ (ty.width - 1)) else 0
  let hi : Int := if signed ty then 2 ^ (ty.width - 1) - 1 else 2 ^ ty.width - 1
  if v < lo then ((lo % 2 ^ ty.width).toNat, fNV)
  else if hi < v then (hi.toNat, fNV)
  else ((v % 2 ^ ty.width).toNat, if inexact then fNX else 0)

/-- RoundTo, with the special cases of R183 and R174: an infinity in a format without one, a NaN in a format without
one or in an integer. The flag of a signalling NaN input is the caller's. -/
def roundTo (ty : Ty) (rd : Rounding) (v : Val) : Res :=
  if ty.isInt then
    match v with
    | .num neg m e more => roundInt ty rd neg m e more
    | .inf neg =>
      (if neg then (if signed ty then 2 ^ (ty.width - 1) else 0)
        else (if signed ty then 2 ^ (ty.width - 1) - 1 else 2 ^ ty.width - 1), fNV)
    | .nan _ => (0, fNV)
  else
    let f := fmtOf ty
    match v with
    | .num neg m e more => roundNum f rd neg m e more
    | .inf neg => if f.hasInf then (f.signed neg f.infPat, 0) else (f.signed neg f.maxPat, fNV)
    | .nan sig => if f.hasNaN then (f.nan, if sig then fNV else 0) else (0, fNV)

/-! ### Exact arithmetic (R182) -/

/-- An exact result before rounding, with the flags that its special inputs set. -/
abbrev Exact := Val × Flags

def quiet (flags : Flags) : Exact := (.nan false, flags)
/-- NV of the signalling ones among some inputs (R166). -/
def nvOf (vs : List Val) : Flags := if vs.any Val.isSignalling then fNV else 0

/-- a + b. An exact zero sum of opposite signs is +0, or −0 under RDN (R178, step 4). -/
def addV (rm : Rm) (a b : Val) : Exact :=
  match a, b with
  | .num na ma ea ra, .num nb mb eb _ =>
    let e0 := min ea eb
    let x := scaled na ma ea e0 + scaled nb mb eb e0
    if x = 0 then
      (.num (if na = nb then na else rm = .rdn) 0 0 false, 0)
    else (.num (x < 0) x.natAbs e0 ra, 0)
  | .inf na, .inf nb => if na = nb then (.inf na, 0) else quiet fNV
  | .inf na, .num _ _ _ _ => (.inf na, 0)
  | .num _ _ _ _, .inf nb => (.inf nb, 0)
  | a, b => quiet (nvOf [a, b])

/-- a × b. -/
def mulV (a b : Val) : Exact :=
  match a, b with
  | .num na ma ea _, .num nb mb eb _ => (.num (na != nb) (ma * mb) (ea + eb) false, 0)
  | .inf na, .inf nb => (.inf (na != nb), 0)
  | .inf na, .num nb mb _ _ => if mb = 0 then quiet fNV else (.inf (na != nb), 0)
  | .num na ma _ _, .inf nb => if ma = 0 then quiet fNV else (.inf (na != nb), 0)
  | a, b => quiet (nvOf [a, b])

/-- a × b + c, to be rounded once. Whether 0 × ∞ with a quiet NaN c sets NV is left open by IEEE 754-2019, which R182
names: a free value (assumption 15). -/
def fmaV (rm : Rm) (a b c : Val) : Exact :=
  match c with
  | .nan sig =>
    let p := mulV a b
    let zi := !(a.isNaN || b.isNaN) && p.1.isNaN
    quiet (nvOf [a, b, c] ||| (if zi && !sig && Config.fmaZeroInf then fNV else 0))
  | c =>
    let p := mulV a b
    if p.1.isNaN then p else addV rm p.1 c

/-- How many more bits than the divisor's a quotient is computed to. -/
def quotientBits : Nat := 160

/-- a ÷ b (R262). -/
def divV (a b : Val) : Exact :=
  match a, b with
  | .num na ma ea _, .num nb mb eb _ =>
    if mb = 0 then (if ma = 0 then quiet fNV else (.inf (na != nb), fDZ))
    else
      let q := ma * 2 ^ quotientBits / mb
      (.num (na != nb) q (ea - eb - quotientBits) (ma * 2 ^ quotientBits % mb ≠ 0), 0)
  | .inf na, .num nb _ _ _ => (.inf (na != nb), 0)
  | .num na _ _ _, .inf nb => (.num (na != nb) 0 0 false, 0)
  | .inf _, .inf _ => quiet fNV
  | a, b => quiet (nvOf [a, b])

/-- floor of the square root of `n`, for n below 4^fuel: one bit a step, from the top. -/
def isqrt : Nat → Nat → Nat
  | 0, _ => 0
  | fuel + 1, n =>
    let r := 2 * isqrt fuel (n / 4)
    if (r + 1) * (r + 1) ≤ n then r + 1 else r

/-- The square root of m·2^e to about 200 bits. -/
def sqrtNum (m : Nat) (e : Int) : Val :=
  let m1 := if e % 2 = 0 then m else 2 * m
  let e1 := if e % 2 = 0 then e else e - 1
  let big := m1 * 4 ^ 160
  let r := isqrt 240 big
  .num false r (e1 / 2 - 160) (r * r ≠ big)

/-- √a (R262). -/
def sqrtV (a : Val) : Exact :=
  match a with
  | .num neg m e _ => if m = 0 then (.num neg 0 0 false, 0) else if neg then quiet fNV else (sqrtNum m e, 0)
  | .inf neg => if neg then quiet fNV else (.inf false, 0)
  | .nan sig => quiet (if sig then fNV else 0)

/-- −1, 0 or 1 as a is below, equal to or above b; zeros of either sign are equal. For values that are no NaN. -/
def cmpV (a b : Val) : Int :=
  let key : Val → Int → Int := fun v e0 =>
    match v with
    | .num n m e _ => scaled n m e e0
    | .inf _ | .nan _ => 0
  match a, b with
  | .inf na, .inf nb => if na = nb then 0 else if na then -1 else 1
  | .inf na, _ => if na then -1 else 1
  | _, .inf nb => if nb then 1 else -1
  | .num _ _ ea _, .num _ _ eb _ =>
    let d := key a (min ea eb) - key b (min ea eb)
    if d < 0 then -1 else if d = 0 then 0 else 1
  | _, _ => 0

/-- FMIN and FMAX: a NaN input gives the canonical NaN, and −0 is below +0 (R182). -/
def pickV (wantMax : Bool) (a b : Val) : Exact :=
  if a.isNaN || b.isNaN then quiet (nvOf [a, b])
  else
    let below := cmpV a b < 0 || (cmpV a b = 0 && a.negative && !b.negative)
    (if wantMax then (if below then b else a) else (if below || cmpV a b = 0 && a.negative = b.negative then a else b), 0)

/-- A condition of R220 between floats, with the NaN flags of R264. -/
def fcmpV (c : Cond) (a b : Val) : Bool × Flags :=
  let un := a.isNaN || b.isNaN
  let flags : Flags :=
    match c with
    | .eq | .ne | .un => nvOf [a, b]
    | .lt | .le | .gt | .ge => if un then fNV else 0
  let o := cmpV a b
  (match c with
    | .eq => !un && o = 0
    | .ne => un || o ≠ 0
    | .lt => !un && o < 0
    | .le => !un && o ≤ 0
    | .gt => !un && 0 < o
    | .ge => !un && 0 ≤ o
    | .un => un, flags)

/-- `fclass` (R266): one bit for the encoding. -/
def classOf (ty : Ty) (n : Nat) : Nat :=
  let f := fmtOf ty
  match decodeFmt f n with
  | .inf neg => if neg then 0 else 7
  | .nan sig => if sig then 8 else 9
  | .num neg m _ _ =>
    if m = 0 then (if neg then 3 else 4)
    else if n / 2 ^ f.manBits % 2 ^ f.expBits = 0 then (if neg then 2 else 5)
    else if neg then 1 else 6

/-! ### Special functions (R188). Values are computed in fixed point with 640 fraction bits (assumption 16). -/

/-- The fraction bits of the fixed-point values below. -/
def fxBits : Nat := 640
def fxOne : Nat := 2 ^ 640
/-- π, ln 2 and 2/√π with 640 fraction bits, rounded down. -/
def fxPi : Nat := 0x3243f6a8885a308d313198a2e03707344a4093822299f31d0082efa98ec4e6c89452821e638d01377be5466cf34e90c6cc0ac29b7c97c50dd3f84d5b5b54709179216d5d98979fb1bd1310ba698dfb5ac
def fxLn2 : Nat := 0xb17217f7d1cf79abc9e3b39803f2f6af40f343267298b62d8a0d175b8baafa2be7b876206debac98559552fb4afa1b10ed2eae35c138214427573b291169b8253e96ca16224ae8c51acbda11317c387e
def fxTwoOverSqrtPi : Nat := 0x120dd750429b6d11ae3a914fed7fd8688281341d7587cea2e7342b06199cc416180eb39f0b24e1e2281806c12d98f35d77a3e9ddc91c394f0e9eedf0efffd84a2a4ac3b98489b8cbd3845e8fef6ff6af9

/-- m·2^e with 640 fraction bits, rounded down. -/
def toFx (m : Nat) (e : Int) : Nat :=
  if 0 ≤ e + fxBits then m * 2 ^ (e + fxBits).toNat else m / 2 ^ (-(e + fxBits)).toNat

/-- An irrational value x/2^640·2^e: the low bits are dropped, and the rest is known to be followed by more. -/
def fromFx (neg : Bool) (x : Nat) (e : Int) : Val :=
  let drop := min 64 (bitLen x - 200)
  .num neg (x / 2 ^ drop) (e + drop - fxBits) true

/-- The tail of the exponential series from term `k` with value `t`: e^y = Σ y^i/i!. -/
def expSeries : Nat → Nat → Nat → Nat → Nat
  | 0, _, _, _ => 0
  | fuel + 1, y, k, t => t + expSeries fuel y (k + 1) (t * y / fxOne / (k + 1))

/-- e^y for 0 ≤ y < 1. -/
def fxExp (y : Nat) : Nat := expSeries 160 y 0 fxOne

/-- 2^f for 0 ≤ f < 1. -/
def fxExp2 (f : Nat) : Nat := fxExp (f * fxLn2 / fxOne)

/-- The alternating or plain odd series Σ t_k/(2k + 1) with t_(k+1) = t_k·u². -/
def atanhSeries : Nat → Nat → Nat → Nat → Nat
  | 0, _, _, _ => 0
  | fuel + 1, u2, k, t => t / (2 * k + 1) + atanhSeries fuel u2 (k + 1) (t * u2 / fxOne)

/-- ln t for 1 ≤ t < 2: 2·atanh((t − 1)/(t + 1)). -/
def fxLn (t : Nat) : Nat :=
  let u := (t - fxOne) * fxOne / (t + fxOne)
  2 * atanhSeries 220 (u * u / fxOne) 0 u

/-- The series of sine and cosine: Σ (−1)^i t_i, with t_(i+1) = t_i·x²/((k + 1)(k + 2)). -/
def trigSeries : Nat → Nat → Nat → Nat → Int
  | 0, _, _, _ => 0
  | fuel + 1, x2, k, t => (t : Int) - trigSeries fuel x2 (k + 2) (t * x2 / fxOne / ((k + 1) * (k + 2)))

/-- sin(πr) and cos(πr) for 0 ≤ r ≤ 1/2. -/
def fxSinPi (r : Nat) : Nat :=
  let x := r * fxPi / fxOne
  (trigSeries 120 (x * x / fxOne) 1 x).toNat
def fxCosPi (r : Nat) : Nat :=
  let x := r * fxPi / fxOne
  (trigSeries 120 (x * x / fxOne) 0 fxOne).toNat

/-- Σ (−1)^k x^(2k+1)/(k!(2k + 1)), the series of erf, from power p_k = x^(2k+1)/k!. -/
def erfSeries : Nat → Nat → Nat → Nat → Int
  | 0, _, _, _ => 0
  | fuel + 1, x2, k, p => ((p / (2 * k + 1) : Nat) : Int) - erfSeries fuel x2 (k + 1) (p * x2 / fxOne / (k + 1))

/-- A value just below one. -/
def justBelowOne (neg : Bool) : Val := .num neg (2 ^ 300 - 1) (-300) true
/-- A value just above zero. -/
def justAboveZero (neg : Bool) : Val := .num neg (2 ^ 300) (-100000) true

/-- m·2^e is an integer. -/
def isInteger (m : Nat) (e : Int) : Bool := 0 ≤ e || m % 2 ^ (-e).toNat = 0
/-- floor of m·2^e. -/
def floorOf (m : Nat) (e : Int) : Nat := if 0 ≤ e then m * 2 ^ e.toNat else m / 2 ^ (-e).toNat
/-- The exponent of the top bit of m·2^e. -/
def topOf (m : Nat) (e : Int) : Int := e + (bitLen m : Int) - 1

/-- 2^a for a finite a. -/
def exp2Num (neg : Bool) (m : Nat) (e : Int) : Val :=
  if m = 0 then .num false 1 0 false
  else if 14 ≤ topOf m e then (if neg then justAboveZero false else .num false (2 ^ 300) 100000 true)
  else
    let fl : Int := floorOf m e
    if isInteger m e then .num false 1 (if neg then -fl else fl) false
    else
      let frac := toFx m e % fxOne
      if neg then fromFx false (fxExp2 (fxOne - frac)) (-fl - 1) else fromFx false (fxExp2 frac) fl

/-- log2 of a positive m·2^e. -/
def log2Num (m : Nat) (e : Int) : Val :=
  let top := topOf m e
  if m = 2 ^ (bitLen m - 1) then .num (top < 0) top.natAbs 0 false
  else
    let l := fxLn (toFx m (e - top)) * fxOne / fxLn2
    if 0 ≤ top then fromFx false (top.toNat * fxOne + l) 0
    else fromFx true (top.natAbs * fxOne - l) 0

/-- sin(πa) and cos(πa) for a finite a. The sign of a zero is that of R188: an integer n gives +0 when n ≥ 0, and the integer of either zero
is 0. -/
def sinPiNum (neg : Bool) (m : Nat) (e : Int) : Val :=
  if m = 0 then .num false 0 0 false
  else if isInteger m e then .num neg 0 0 false
  else
    let fl := floorOf m e
    let flip := neg != (fl % 2 = 1)
    let r := toFx m e % fxOne
    if 2 * r = fxOne then .num flip 1 0 false
    else if 2 * r < fxOne then fromFx flip (fxSinPi r) 0
    else fromFx flip (fxSinPi (fxOne - r)) 0

def cosPiNum (m : Nat) (e : Int) : Val :=
  let fl := floorOf m e
  if m = 0 ∨ isInteger m e then .num (fl % 2 = 1) 1 0 false
  else
    let r := toFx m e % fxOne
    if 2 * r = fxOne then .num false 0 0 false
    else if 2 * r < fxOne then fromFx (fl % 2 = 1) (fxCosPi r) 0
    else fromFx (fl % 2 = 0) (fxCosPi (fxOne - r)) 0

/-- e^(−x) = z·2^(−n) for x = m·2^e ≥ 0: z with 640 fraction bits and n. -/
def expNeg (m : Nat) (e : Int) : Nat × Nat :=
  let y := toFx m e * fxOne / fxLn2
  let n := y / fxOne
  let f := y % fxOne
  if f = 0 then (fxOne, n) else (fxExp2 (fxOne - f), n + 1)

/-- tanh: (1 − z)/(1 + z) with z = e^(−2|a|). R188's table has no row for an input of zero: its sign is kept
(DESIGN CHOICE, assumption 146, unsafe). -/
def tanhNum (neg : Bool) (m : Nat) (e : Int) : Val :=
  if m = 0 then .num neg 0 0 false
  else if 7 ≤ topOf m e then justBelowOne neg
  else
    let (z, n) := expNeg m (e + 1)
    let z := z / 2 ^ n
    fromFx neg ((fxOne - z) * fxOne / (fxOne + z)) 0

/-- The sigmoid: 1/(1 + z) for a ≥ 0 and z/(1 + z) for a < 0, with z = e^(−|a|). -/
def sigmNum (neg : Bool) (m : Nat) (e : Int) : Val :=
  if m = 0 then .num false 1 (-1) false
  else if 10 ≤ topOf m e then (if neg then justAboveZero false else justBelowOne false)
  else
    let (z, n) := expNeg m e
    let one := fxOne + z / 2 ^ n
    if neg then fromFx false (z * fxOne / one) (-(n : Int)) else
      if 200 ≤ n then justBelowOne false else fromFx false (fxOne * fxOne / one) 0

/-- erf by its series. The sign of a zero is kept (DESIGN CHOICE, assumption 146, unsafe). -/
def erfNum (neg : Bool) (m : Nat) (e : Int) : Val :=
  if m = 0 then .num neg 0 0 false
  else if 3 ≤ topOf m e then justBelowOne neg
  else
    let x := toFx m e
    fromFx neg ((erfSeries 420 (x * x / fxOne) 0 x).toNat * fxTwoOverSqrtPi / fxOne) 0

/-- The special functions of R325. -/
inductive Fn where
  | exp2 | log2 | rcp | rsqrt | sqrt | sinpi | cospi | tanh | sigm | erf
  deriving DecidableEq, Repr

/-- The exact value of a special function, with the special inputs of R188. -/
def fnV (fn : Fn) (a : Val) : Exact :=
  match a with
  | .nan sig => quiet (if sig then fNV else 0)
  | .inf neg =>
    match fn with
    | .exp2 => if neg then (.zero, 0) else (.inf false, 0)
    | .log2 => if neg then quiet fNV else (.inf false, 0)
    | .rcp => (.num neg 0 0 false, 0)
    | .rsqrt => if neg then quiet fNV else (.zero, 0)
    | .sqrt => if neg then quiet fNV else (.inf false, 0)
    | .sinpi | .cospi => quiet fNV
    | .tanh | .erf => (.num neg 1 0 false, 0)
    | .sigm => if neg then (.zero, 0) else (.num false 1 0 false, 0)
  | .num neg m e _ =>
    match fn with
    | .exp2 => (exp2Num neg m e, 0)
    | .log2 => if m = 0 then (.inf true, fDZ) else if neg then quiet fNV else (log2Num m e, 0)
    | .rcp => if m = 0 then (.inf neg, fDZ) else divV (.num false 1 0 false) a
    | .rsqrt =>
      if m = 0 then (.inf neg, fDZ)
      else if neg then quiet fNV
      else
        let m1 := if e % 2 = 0 then m else 2 * m
        let e1 := if e % 2 = 0 then e else e - 1
        let q := 4 ^ 200 / m1
        let r := isqrt 240 q
        (.num false r (-(e1 / 2) - 200) (r * r * m1 ≠ 4 ^ 200), 0)
    | .sqrt => sqrtV a
    | .sinpi => (sinPiNum neg m e, 0)
    | .cospi => (cosPiNum m e, 0)
    | .tanh => (tanhNum neg m e, 0)
    | .sigm => (sigmNum neg m e, 0)
    | .erf => (erfNum neg m e, 0)

/-! ### Scales (R167, R168) -/

/-- The binary32 slot of an E8M0 byte. -/
def widenE8M0 (b : Nat) : Nat := if b = 0xFF then 0x7FC0_0000 else if b = 0 then 0x0040_0000 else b * 2 ^ 23
/-- The E8M0 byte of a slot. -/
def slotE8M0 (w : Nat) : Nat := if (decodeFmt (fmtOf .f32) w).isNaN then 0xFF else w / 2 ^ 23 % 256

/-- The value of an element of a block with binary32 scale `w` (R168). R185 names the special values that raise
NV in a dequantisation of scalars: a signalling NaN as the scale, and a signalling NaN element that a special
scale overrides, raise nothing here (DESIGN CHOICE, assumption 147, unsafe). -/
def scaledValue (ty : Ty) (n w : Nat) : Val :=
  let x : Val :=
    if ty = .i8 then
      let v := valueOf .i8 n
      .num (v < 0) v.natAbs (-6) false
    else value ty n
  let sc := decodeFmt (fmtOf .f32) w
  match sc with
  | .nan _ => .nan false
  | .inf neg =>
    if neg then .nan false
    else
      match x with
      | .num n m _ _ => if m = 0 then .nan false else .inf n
      | .inf n => .inf n
      | .nan b => .nan b
  | .num neg m _ _ =>
    if neg then .nan false
    else if m = 0 then .zero
    else
      match x with
      | .nan b => .nan b
      | x => (mulV x sc).1

/-! ### Anchored accumulation (R171 to R175) -/

/-- Combine (R172). -/
def combine (a b : BitVec 2) : BitVec 2 := if a = 1 ∧ b = 2 ∨ a = 2 ∧ b = 1 then 3 else a ||| b

/-- Fix(p, A): floor(p / 2^(A − 112)) modulo 2^128 (R173). -/
def fixV (v : Val) (anchor : Int) : BitVec 128 :=
  match v with
  | .num neg m e _ =>
    let d := e - (anchor - 112)
    let x : Int := if neg then -(m : Int) else m
    BitVec.ofInt 128 (if 0 ≤ d then x * 2 ^ d.toNat else x.fdiv (2 ^ (-d).toNat))
  | .inf _ | .nan _ => 0

/-- The state of a contribution (R173). -/
def stateOf : Val → BitVec 2
  | .num _ _ _ _ => 0
  | .inf neg => if neg then 2 else 1
  | .nan _ => 3

/-- AccAdd (R173). -/
def accAdd (w : AccWord) (p : Val) (anchor : Int) : AccWord :=
  ⟨if stateOf p = 0 then w.v + fixV p anchor else w.v, combine w.st (stateOf p)⟩

/-- The addition of a partial sum (R173, R314). -/
def accMerge (a b : AccWord) : AccWord := ⟨a.v + b.v, combine a.st b.st⟩

/-- The value of an ACC128 word (R171). -/
def accValue (w : AccWord) (anchor : Int) : Val :=
  match w.st.toNat with
  | 0 => .num (w.v.toInt < 0) w.v.toInt.natAbs (anchor - 112) false
  | 1 => .inf false
  | 2 => .inf true
  | _ => .nan false

/-- Reading an element out (R174, R341). -/
def accRead (ty : Ty) (rd : Rounding) (w : AccWord) (anchor : Int) : Res :=
  let r := roundTo ty rd (accValue w anchor)
  (r.1, r.2 ||| (if 2 ^ 126 ≤ w.v.toInt.natAbs then fACCW else 0))

/-- The memory form of an ACC128 word (R175). -/
def accToMem (w : AccWord) : Nat := w.v.toNat % 2 ^ 126 + w.st.toNat * 2 ^ 126
/-- A word from its memory form, V sign-extended from 126 bits (R340). -/
def accOfMem (n : Nat) : AccWord := ⟨(BitVec.ofNat 126 n).signExtend 128, BitVec.ofNat 2 (n / 2 ^ 126)⟩
/-- `aacc` on memory forms: V modulo 2^126, states combined (R175, R281). -/
def accMemAdd (a b : Nat) : Nat :=
  (a % 2 ^ 126 + b % 2 ^ 126) % 2 ^ 126 + (combine (BitVec.ofNat 2 (a / 2 ^ 126)) (BitVec.ofNat 2 (b / 2 ^ 126))).toNat * 2 ^ 126

end Sys2Proof.Machine
end

