-- ==== Sys2Proof/Machine/Watch.lean ====
section
/-! DEFINITION. Watchpoints and halts (R203, R204). -/

namespace Sys2Proof.Machine

/-- Kinds of access that a watchpoint selects (bits of WCTL.KIND). -/
inductive WatchKind where
  | read | write | atomic | engine
  deriving DecidableEq, Repr

def WatchKind.bit : WatchKind → Nat
  | .read => 0 | .write => 1 | .atomic => 2 | .engine => 3

/-- Sources (bits of WCTL.SRC). -/
inductive WatchSrc where
  | local_ | peer | remote
  deriving DecidableEq, Repr

def WatchSrc.bit : WatchSrc → Nat
  | .local_ => 0 | .peer => 1 | .remote => 2

/-- CMP of the unit's value against VAL, both of `w` bytes (R203). -/
def watchCmp (cmp w v x : Nat) : Bool :=
  let a := v % 2 ^ (8 * w)
  let b := x % 2 ^ (8 * w)
  let sa := (BitVec.ofNat (8 * w) a).toInt
  let sb := (BitVec.ofNat (8 * w) b).toInt
  match cmp with
  | 0 => true
  | 1 => a = b
  | 2 => a ≠ b
  | 3 => a < b
  | 4 => b ≤ a
  | 5 => sa < sb
  | 6 => sb ≤ sa
  | _ => false

/-- Whether watchpoint `w` matches an access to the byte addresses `addrs`, with `hi` bits 71:64 of the address in space 1;
`unit a n` is the value of the n-byte unit at `a` after the access. The answer is the matched address. -/
def watchMatch (w : Watch) (space : Nat) (k : WatchKind) (src : WatchSrc) (hi : Nat) (addrs : List Nat)
    (unit : Nat → Nat → Nat) : Option Nat :=
  if bits w.ctl 3 0 / 2 ^ k.bit % 2 = 1 ∧ bits w.ctl 6 4 / 2 ^ src.bit % 2 = 1 ∧ bits w.ctl 7 7 = space ∧
      (space = 0 ∨ bits w.ctl 23 16 = hi) then
    let n := 2 ^ bits w.ctl 9 8
    addrs.find? fun a =>
      ((BitVec.ofNat 64 a ^^^ w.base) &&& w.mask) = 0 && watchCmp (bits w.ctl 12 10) n (unit (a / n * n) n) w.val.toNat
  else none

/-- The cores that a halt of width `a` from core `c` reaches: 1 core, 2 cluster, 3 field (R204, R208). -/
def State.haltTargets (s : State) (c a : Nat) : List Nat :=
  match a with
  | 1 => [c]
  | 2 => (List.range 4).map (coreOf (clusterOf c))
  | _ =>
    match s.fieldOf c with
    | some e => e.2.allCores
    | none => [c]

/-- A halt signal starts toward the cores it names: for a watchpoint, or for a DEBUG session. -/
def State.sendHalt (s : State) (c a : Nat) (debug : Bool) : State :=
  { s with net := s.net ++ (s.haltTargets c a).map fun t => s.flight c t (.haltSignal debug) }

/-- A match of watchpoint `n` of core `c` at address `a` (R204). `who` is the slot of a context of this core that made the
access within its instruction; none for a peer or an engine. Of two matches with ACTION trap before the trap is taken, or of one and a trap
instruction, the later is what the trap reports: DESIGN CHOICE (assumption 144). -/
def State.fire (s : State) (c n a : Nat) (who : Option Nat) : State :=
  let k := s.core c
  let w := Assoc.get Watch.reset k.watches n
  let s := s.setCore c { k with watches := Assoc.set Watch.reset k.watches n { w with ctl := putBits w.ctl 15 15 1 } }
  match bits w.ctl 14 13 with
  | 0 =>
    match who with
    | some t => s.setCtx c t { s.ctx c t with after := some (.watchpoint, n, BitVec.ofNat 64 a) }
    | none => s.notice c (plainNotice .watchpoint n (BitVec.ofNat 64 a))
  | act => s.sendHalt c act false

/-- Checks the four watchpoints of core `c`. -/
def State.watch (s : State) (c space : Nat) (k : WatchKind) (src : WatchSrc) (hi : Nat) (addrs : List Nat)
    (unit : Nat → Nat → Nat) (who : Option Nat) : State :=
  (List.range 4).foldl (fun s n =>
    match watchMatch (Assoc.get Watch.reset (s.core c).watches n) space k src hi addrs unit with
    | some a => s.fire c n a who
    | none => s) s

/-- A unit of a core's scratchpad as its programs see it. -/
def State.scratchUnit (s : State) (c a n : Nat) : Nat :=
  bitsOfBytes ((List.range n).map fun i => s.peek (keyScratch c ((s.core c).swizzle (a + i))))

/-- SPACE 0: the owner of scratchpad bytes checks an access by core `by_` (R203). -/
def State.watchOwner (s : State) (keys : List Nat) (k : WatchKind) (by_ : Nat) (who : Option Nat) : State :=
  match keys with
  | [] => s
  | key :: _ =>
    if keySpace key = 3 then
      let c := keyCore key
      let offs := keys.map fun x => (s.core c).swizzle (keyAddr x % 2 ^ 24)
      s.watch c 0 k (if by_ = c then .local_ else .peer) 0 offs (s.scratchUnit c) (if by_ = c then who else none)
    else s

/-- SPACE 1: an access of core `c` to the bytes at some virtual addresses with bits 71:64 `hi`; `unit` gives the new value of a unit by virtual
address. An access to host memory, whose leaf lies neither on another member nor on the device, counts as local: DESIGN CHOICE, R203 does not name its
source (assumption 143). -/
def State.watchVa (s : State) (c hi : Nat) (as : List Nat) (key : Nat) (k : WatchKind) (unit : Nat → Nat → Nat) (who : Option Nat) : State :=
  s.watch c 1 k (if keySpace key = 2 then .remote else .local_) hi (as.map fun a => a % 2 ^ 64) unit who

end Sys2Proof.Machine
end

