-- ==== Sys2Proof/Machine/Order.lean ====
section
/-! DEFINITION. The abstract memory machine: store buffers, CV, H and link queues, and the moves on them
(R24 to R27, R66 to R71, R143 to R163). -/

namespace Sys2Proof.Machine

/-! ### What a paired core passes to its partner (R198) -/

/-- The value of a load of a paired west core, for its east copy. -/
def passLoad (bs : List Byte) : M Unit := modify fun s =>
  let k := s.core s.curCore
  if k.pairedWest s.curSlot then s.setCore s.curCore { k with pair := k.pair.map fun p => { p with loaded := p.loaded ++ [bs] } } else s

/-- A store of a paired west core, as its fingerprint counts it: the address as a pointer word, then the data (R200). -/
def passStore (va : Nat) (bs : List Byte) : M Unit := modify fun s =>
  let k := s.core s.curCore
  if k.pairedWest s.curSlot then
    s.setCore s.curCore { k with pair := k.pair.map fun p => { p with items := p.items ++ bytesOfBits 16 va ++ bs } }
  else s

/-! ### Home slices (R66 to R69) -/

/-- The cluster whose slice is the home of a DRAM or host key (R66). -/
def homeCluster (key : Nat) : Nat :=
  if keySpace key = 0 then clusterOf (keyAddr key / 2 ^ 29) else keyAddr key / 64 % 256

/-- The set of a slice that a line falls into: DESIGN CHOICE, the spec gives 2,048 sets and no index function (assumption 112). -/
def setOf (line : Nat) : Nat := line % 2048

/-- A demand access to a line at its home slice: it hits a pin, bypasses, or allocates (R67, R69). Residence of lines that
are not pinned is not tracked (assumption 17). -/
def State.touchSlice (s : State) (c key : Nat) (keep : Bool) : State :=
  if keySpace key ≤ 1 then
    let cl := homeCluster key
    let l := s.slice cl
    let line := key / 64
    if l.flush || l.pins.contains line then s
    else
      let ways := ((List.range 16).filter fun i => !bit l.mask i).length
      if ways ≤ (l.pins.filter fun p => setOf p = setOf line).length then
        s.setSlice cl { l with bypass := if l.bypass = 0xFFFF_FFFF then l.bypass else l.bypass + 1 }
      else
        let own := (s.fieldOf c).any fun e => e.2.covers cl
        s.setSlice cl { l with clean := false, pins := if keep && own then line :: l.pins else l.pins }
  else s

/-- The home slice of a host line takes its coherent copy before the first access (R16, R66). -/
def State.takeHost (s : State) (line : Nat) : State :=
  if (line * 64) / 2 ^ 64 = 1 ∧ (Assoc.find s.hostLines line).isNone then
    let a := keyAddr (line * 64)
    { s.pokeBytes (line * 64) (s.peeks (keyHostMem a) 64) with hostLines := Assoc.put s.hostLines line false }
  else s

/-- Writes a dirty host line from its home slice to host memory (sy of R147). -/
def State.flushHost (s : State) (line : Nat) : State :=
  { s.pokeBytes (keyHostMem (keyAddr (line * 64))) (s.peeks (line * 64) 64) with hostLines := Assoc.put s.hostLines line false }

/-- The home slice asks the host to give a device line up (R17). -/
def State.askHost (s : State) (line : Nat) : State :=
  if s.biPending.any fun e => e.1 = line then s else { s with biPending := s.biPending ++ [(line, [], false)] }

/-- A write of bytes at their homes. A device line that the host holds waits for the host's answer (R17). -/
def State.homeWrite (s : State) (cells : List (Nat × Byte)) (p : Bool) : State :=
  match cells with
  | [] => s
  | (k, _) :: _ =>
    let line := k / 64
    if keySpace k = 0 ∧ (Assoc.find s.directory line).isSome then
      { s with biPending := s.biPending ++ [(line, cells, p)] }
    else
      let s := s.takeHost line
      let s := s.writeH cells p
      if keySpace k = 1 then { s with hostLines := Assoc.put s.hostLines line true } else s

/-! ### CV: fill and evict (R144) -/

/-- The line that holds a key. -/
def lineOf (k : Nat) : Nat := k / 64

def Core.line (k : Core) (l : Nat) : Assoc CvByte := (Assoc.find k.cv l).getD []

/-- Fill(k, L): every byte of the line that is not dirty is copied from H. -/
def State.fill (s : State) (c line : Nat) : State :=
  let s := s.takeHost line
  let old := (s.core c).line line
  let new := (List.range 64).map fun i =>
    match Assoc.find old i with
    | some b => if b.dirty then (i, b) else (i, ⟨s.peek (line * 64 + i), false, s.poisoned (line * 64 + i)⟩)
    | none => (i, ⟨s.peek (line * 64 + i), false, s.poisoned (line * 64 + i)⟩)
  s.setCore c { s.core c with cv := Assoc.put (s.core c).cv line new }

/-- Evict(k, L): the dirty bytes go to the line's home, and the line leaves CV. A write-back is an access at the home slice (R67, R69). -/
def State.evict (s : State) (c line : Nat) : State :=
  let bytes := ((s.core c).line line).filter fun e => e.2.dirty
  let s := s.setCore c { s.core c with cv := Assoc.del (s.core c).cv line }
  let plain := (bytes.filter fun e => !e.2.poison).map fun e => (line * 64 + e.1, e.2.val)
  let bad := (bytes.filter fun e => e.2.poison).map fun e => (line * 64 + e.1, e.2.val)
  let s := (s.homeWrite plain false).homeWrite bad true
  if bytes.isEmpty then s else s.touchSlice c (line * 64) false

def State.evictAll (s : State) (c : Nat) : List Nat → State
  | [] => s
  | l :: t => (s.evict c l).evictAll c t

/-- Lines of CV with a dirty byte. -/
def Core.dirtyLines (k : Core) : List Nat := (k.cv.filter fun e => e.2.any fun b => b.2.dirty).map (·.1)

/-- The mark of a byte of a line in CV: that of its sector, which one marked byte marks (R191, R193). -/
def cvMarked (l : Assoc CvByte) (off : Nat) : Bool := l.any fun e => e.1 / 32 = off / 32 && e.2.poison

/-- Bytes of a translated store become dirty in CV; an absent line is created with only those bytes. A clean write takes the mark of a
sector away only when it covers the sector whole (R193). -/
def State.dirtyCv (s : State) (c : Nat) (cells : List (Nat × Byte)) (p : Bool) : State :=
  let whole (k : Nat) : Bool := (List.range 32).all fun i => cells.any fun e => e.1 = k / 32 * 32 + i
  cells.foldl (fun s e =>
    let l := lineOf e.1
    let old := (s.core c).line l
    let was := (Assoc.find old (e.1 % 64)).any CvByte.poison
    s.setCore c { s.core c with
      cv := Assoc.put (s.core c).cv l (Assoc.put old (e.1 % 64) ⟨e.2, true, p || (was && !whole e.1)⟩) }) s

/-! ### Local space that a fence cuts off (R63) -/

/-- The scratchpad's core or the slice's cluster is fenced. -/
def State.keyFenced (s : State) (key : Nat) : Bool :=
  (keySpace key = 3 && s.fenced (keyCore key)) || (keySpace key = 4 && s.fenced (coreOf (keyAddr key / 2 ^ 24) 0))

/-- A dropped write raises LOSTW of its context (R26, R63, R194). -/
def State.lose (s : State) (c n : Nat) : State := (s.setCtx c n (s.ctx c n).lose).pairKeeps c n fun p => { p with cirs := p.cirs ++ [cirLostw] }

/-! ### Remote requests (R20 to R26) -/

/-- The port by which a request to another member leaves: entry (GPA[51:16] mod n) of the member's list of n ports (R20). -/
def State.portOf (s : State) (key : Nat) : Nat :=
  let m := keyAddr key / 2 ^ 52
  let n := bits (Assoc.get 0 s.members (4 * m)) 15 8
  let i := if n = 0 then 0 else keyAddr key / 2 ^ 16 % 2 ^ 36 % n
  bits (Assoc.get 0 s.members (4 * m + 1 + i / 8)) (8 * (i % 8) + 7) (8 * (i % 8))

/-- Posts a request on the link queue to another member, for a context with a generation or its engine. -/
def State.postFor (s : State) (c n : Nat) (gen : BitVec 12) (port key : Nat) (op : RemoteOp) : State :=
  { s with
    remote := s.remote ++ [⟨s.nextRemote, port, c, n, gen, key, op, false, [], 0, none⟩]
    nextRemote := s.nextRemote + 1 }
def State.post (s : State) (c n port key : Nat) (op : RemoteOp) : State := s.postFor c n (s.ctx c n).gen port key op

/-- The port of a key by what an instruction or a command has translated on its page; an access that has just been translated reads the
table now (R378). -/
def State.portBy (s : State) (had : List Place) (key : Nat) : Nat :=
  match had.find? fun p => keySpace p.key = 2 && p.key / 65536 = key / 65536 with
  | some p => p.port
  | none => if keySpace key = 2 then s.portOf key else 0
def State.portAt (s : State) (c n key : Nat) : Nat := s.portBy (s.ctx c n).places key

/-- A line of another member leaves CV because the core writes it; what contexts have asked for before does not come back into CV
(R142, R154, R155). -/
def State.dropRemote (s : State) (c line : Nat) : State :=
  let k := s.core c
  s.setCore c { k with
    cv := Assoc.del k.cv line
    ctxs := k.ctxs.map fun (e : Nat × Ctx) => (e.1, ({ e.2 with
      fetched := e.2.fetched.map fun f => if f.1 = line then (f.1, { f.2 with keep := false }) else f } : Ctx)) }

/-! ### Drain (R144) -/

/-- A load of a context that waits for a line of another member asks for it anew, because a store of the context itself has left for
that line: it does not return what was there before (R142). -/
def State.refetch (s : State) (c n line : Nat) : State :=
  let x := s.ctx c n
  if (Assoc.find x.fetched line).isNone then s
  else
    ({ s with remote := s.remote.filter fun r => !(r.core = c && r.slot = n && r.op = .line && lineOf r.key = line && x.gen = r.gen) } : State).setCtx c n
      { x with fetched := Assoc.del x.fetched line }

/-- Two entries write a byte in common. -/
def SbEntry.meets (e : SbEntry) (ks : List Nat) : Bool := e.cells.any fun x => ks.contains x.1

/-- The oldest entry of a store buffer that holds a byte of `key`, and the rest; none when an older entry writes one of its bytes and so
goes first (R143). -/
def takeEntry (key : Nat) (sb : List SbEntry) : Option (SbEntry × List SbEntry) :=
  match sb.findIdx? fun e => e.meets [key] with
  | some i =>
    match sb[i]? with
    | some e => if (sb.take i).any fun o => o.meets (e.cells.map (·.1)) then none else some (e, sb.eraseIdx i)
    | none => none
  | none => none

/-- The entries that must drain for some keys, in their order, and the keys that these entries write: an entry that writes one of the keys,
and every older one that writes a byte of such an entry (R143). -/
def splitSb (pick : SbEntry → Bool) : List SbEntry → List SbEntry × List Nat
  | [] => ([], [])
  | e :: t =>
    let (hit, ks) := splitSb pick t
    if pick e || e.meets ks then (e :: hit, e.cells.map (·.1) ++ ks) else (hit, ks)

/-! ### Full bits (R133) -/

/-- The contexts that wait on a word, with when they arrived at its owner. -/
def State.waiters (s : State) (w : Nat) : List (Nat × Nat × Ctx) :=
  s.cores.flatMap fun e => e.2.ctxs.filterMap fun f =>
    let x := f.2
    if x.live && x.trap.isNone && x.grant.isNone && (x.waiting.any fun v => v.on = .fullBit) && x.awaits.any fun k => k / 8 = w / 8 then
      some (e.1, f.1, x)
    else none

/-- The first in the order in which they arrived. -/
def State.firstWaiter (s : State) (w : Nat) : Option (Nat × Nat × Ctx) :=
  (s.waiters w).foldl (fun best e =>
    match best with
    | some b => if e.2.2.arrived < b.2.2.arrived then some e else best
    | none => some e) none

/-- A set word releases its first waiter, when all the words that it waits for are full: they are read and cleared in one step at the
owner. -/
def State.grantFull (s : State) (w : Nat) : State :=
  match s.firstWaiter w with
  | some (c, n, x) =>
    if x.awaits.all s.fullBit then
      let bs := x.awaits.map fun k => (s.peek k, s.poisoned k)
      let s := x.awaits.foldl (fun s k => s.setFull k false) s
      (s.setCtx c n { s.ctx c n with grant := some bs, committed := true }).watchOwner x.awaits .read c (some n)
    else s
  | none => s

/-- The full bits of some words are set. -/
def State.setFulls (s : State) (ws : List Nat) : State :=
  ws.foldl State.grantFull (ws.foldl (fun s w => s.setFull w true) s)

/-- What an entry does when it leaves SB(c): CV for device and host memory, H for local space, a link queue for another
member, whose stale line leaves CV (R142, R144). -/
def State.applyEntry (s : State) (c n : Nat) (e : SbEntry) : State :=
  match e.cells with
  | [] => s
  | (k, _) :: _ =>
    match keySpace k with
    | 0 | 1 =>
      if e.through then ((s.evictAll c (e.cells.map fun x => lineOf x.1).eraseDups).homeWrite e.cells e.poison).touchSlice c k false else s.dirtyCv c e.cells e.poison
    | 2 => ((s.refetch c n (lineOf k)).dropRemote c (lineOf k)).post c n e.port k (.store e.cells e.poison)
    | _ =>
      if s.keyFenced k then s.lose c n
      else
        let s := s.writeH e.cells e.poison
        let s := s.watchOwner (e.cells.map (·.1)) .write c (some n)
        if e.setFull then s.setFulls (e.cells.map fun x => x.1 / 8 * 8).eraseDups else s

/-- Every entry drains, oldest first. The stores of a paired context stay until its interval agrees (R198). -/
def State.drainList (s : State) (c n : Nat) : List SbEntry → State
  | [] => s
  | e :: t => (s.applyEntry c n e).drainList c n t

def State.drainAll (s : State) (c n : Nat) : State :=
  let es := (s.ctx c n).sb
  if s.holding c n then s
  else (s.setCtx c n { s.ctx c n with sb := [] }).drainList c n es

/-- Entries leave the store buffer and drain, in order. -/
def State.drainHits (s : State) (c n : Nat) (hit : List SbEntry) : State :=
  let x := s.ctx c n
  (s.setCtx c n { x with sb := hit.foldl List.erase x.sb }).drainList c n hit

/-- The entries that hold a byte of some keys drain, in order; the others stay. -/
def State.drainKeys (s : State) (c n : Nat) (ks : List Nat) : State :=
  if s.holding c n then s else s.drainHits c n (splitSb (fun e => e.meets ks) (s.ctx c n).sb).1

/-- The local-space entries drain (R156). -/
def State.drainLocal (s : State) (c n : Nat) : State :=
  if s.holding c n then s else s.drainHits c n (splitSb (fun e => e.cells.any fun y => 3 ≤ keySpace y.1) (s.ctx c n).sb).1

/-! ### Budgets (R71) -/

/-- A governor's entry still stands for someone who waits. -/
def Core.stillHeld (k : Core) (who : Nat) : Bool :=
  if who < 16 then (k.ctx who).waiting.any fun w => w.on = .budget
  else if 18 ≤ who && who < 30 then
    !(k.inbox.isEmpty && k.strays.isEmpty && k.bursts.isEmpty && k.requests.isEmpty && k.starts.isEmpty)
  else if who < 32 then !k.matq.isEmpty && k.matPark.isNone
  else if who < 48 then !k.bulkq.isEmpty && k.bulkPark.isNone
  else if who < 64 then !k.copyq.isEmpty && k.copyPark.isNone
  else if who = 64 then !k.msgPort.isEmpty
  else if who = 66 then !(k.ctx 1).live && k.stealing
  else who = 65 || who = 67

/-- Someone else arrived earlier at the governor of a kind of traffic: held traffic of one kind leaves in the order it arrived. -/
def Core.heldBefore (k : Core) (kind who : Nat) : Bool :=
  ((k.governor.takeWhile fun e => e ≠ (kind, who)).filter fun e => e.1 = kind && e.2 ≠ who).any fun e => k.stillHeld e.2

/-- Charges a request of a router: `lines` DRAM lines, `flits` flits with its response's, and for one to another member `units` of 64 bytes
on a port. It is held, and noted at the governor, when a budget is exhausted or an earlier one is held. Traffic of supervisor contexts,
slot 0, is not charged. Kinds are 0 for the mesh and 1 + the port for the links. -/
def State.meter (s : State) (c who lines flits : Nat) (pod : Option (Nat × Nat)) : Bool × State :=
  if who = 0 then (true, s)
  else
    let k := s.core c
    let kind := match pod with
      | some p => 1 + p.1
      | none => 0
    let passes (lim use : BitVec 32) (x : Nat) : Bool := lim ≠ 0xFFFF_FFFF && lim.toNat < use.toNat + x && x ≠ 0
    let sum (use : BitVec 32) (x : Nat) : BitVec 32 := BitVec.ofNat 32 (min (use.toNat + x) 0xFFFF_FFFF)
    let podUse (p : Nat) : BitVec 32 := Assoc.get 0 k.podUse p
    if k.heldBefore kind who || passes k.dramLim k.dramUse lines || passes k.injLim k.injUse flits ||
        pod.any fun p => passes k.podLim (podUse p.1) p.2 then
      (false, s.setCore c { k with governor := if k.governor.contains (kind, who) then k.governor else k.governor ++ [(kind, who)] })
    else
      (true, s.setCore c { k with
        governor := k.governor.filter (· ≠ (kind, who)), dramUse := sum k.dramUse lines, injUse := sum k.injUse flits
        podUse := match pod with
          | some p => Assoc.set 0 k.podUse p.1 (sum (podUse p.1) p.2)
          | none => k.podUse })

/-- What one request of core `c` to the home of a key takes of the budgets: DRAM lines, flits with those of its response, and a unit on its
port (R71). Nothing leaves the router for the core's own scratchpad. -/
def reach (c key port : Nat) : Nat × Nat × Option (Nat × Nat) :=
  match keySpace key with
  | 0 | 1 => (1, 2, none)
  | 2 => (0, 2, some (port, 1))
  | 3 => if keyCore key = c then (0, 0, none) else (0, 2, none)
  | 4 => (0, 2, none)
  | _ => (0, 0, none)

/-- The same of an entry that leaves a store buffer: what it writes in CV leaves no router. -/
def SbEntry.reach (e : SbEntry) (c : Nat) : Nat × Nat × Option (Nat × Nat) :=
  let k := (e.cells.map (·.1)).headD 0
  if keySpace k ≤ 1 && !e.through then (0, 0, none) else Sys2Proof.Machine.reach c k e.port

/-- The way of such an entry is open (R65). -/
def State.entryWay (s : State) (c : Nat) (e : SbEntry) : Bool :=
  let k := (e.cells.map (·.1)).headD 0
  (keySpace k ≤ 1 && !e.through) || s.wayTo c k

/-- A held request of the issuing context waits for the next period (R71). -/
def budgetFor (lines flits : Nat) (pod : Option (Nat × Nat)) : M Unit := do
  let s ← get
  let (ok, t) := s.meter s.curCore s.curSlot lines flits pod
  set t
  if !ok then waitOn .budget 0

def budget (lines flits : Nat) : M Unit := budgetFor lines flits none

/-- A request of the issuing context to the home of a key waits while the field's own routes do not bring it there (R65). -/
def meshWay (key : Nat) : M Unit := do
  let s ← get
  if !s.wayTo s.curCore key then waitOn .mesh 0

/-- A request of the issuing context to the home of a key: its way is open, and the budgets take it. -/
def request (key : Nat) : M Unit := do
  meshWay key
  let (c, n) ← me
  let s ← get
  let r := reach c key (s.portAt c n key)
  if r ≠ (0, 0, none) then budgetFor r.1 r.2.1 r.2.2

/-- The entries that a walk reads are read at their home slices (R66, R67, R136). -/
def State.touchAll (s : State) (c : Nat) (ks : List Nat) : State := ks.foldl (fun s k => s.touchSlice c k false) s

/-- The entries that the walk of an address reads: the instruction waits for their ways and their budget. -/
def walkFor (va : Nat) : M (List Nat) := do
  let s ← get
  let reads := s.walkReads s.curCore s.curSlot va
  reads.forM meshWay
  if reads ≠ [] then budget reads.length (2 * reads.length)
  pure reads

/-- Translate, as a step of an instruction: traps with the virtual address, or waits while the leaf migrates (R140). What has been
translated once stays so while the instruction waits (R27, R378). The entries that a walk reads come from their home slices over the mesh,
and are charged (R65, R71). -/
def translate (va bytes : Nat) (k : Access) : M Nat := do
  let s ← get
  let (c, n) ← me
  match (s.ctx c n).places.find? fun p => p.va = va && p.need = k with
  | some p => pure p.key
  | none =>
    let reads ← walkFor va
    let s ← get
    match s.locate c n va bytes k with
    | (.at_ key, t) =>
      set (t.touchAll c reads)
      if keySpace key ≤ 2 then modCtx fun x => { x with places := x.places ++ [⟨va, k, key, if keySpace key = 2 then s.portOf key else 0⟩] }
      pure key
    | (.bad cause, _) => trap cause (BitVec.ofNat 64 va)
    | (.migrating, t) =>
      set (t.touchAll c reads)
      waitOn .migration (BitVec.ofNat 64 va)

/-! ### Halves (R146 to R148) -/

/-- cl or wider. -/
def beyondCore (sc : Scope) : Bool := 2 ≤ sc.code.toNat
/-- pd or sy. -/
def beyondHost (sc : Scope) : Bool := 6 ≤ sc.code.toNat

/-- A request of this context to another member that writes a line which `covers` names, and has not been acknowledged (R162). -/
def State.awaitsAck (s : State) (c n : Nat) (covers : Nat → Bool) : Bool :=
  s.remote.any fun r => r.core = c && r.slot = n && covers (r.key / 64) && (match r.op with
    | .store _ _ | .atomic _ _ _ => true
    | .line => false)
def State.unacknowledged (s : State) (c n : Nat) : Bool := s.awaitsAck c n fun _ => true

/-! #### The region that a half covers (R147, R151) -/

/-- Where a byte leads, whatever the permissions of its leaf. -/
def State.seek (s : State) (c n va : Nat) : Option Nat :=
  match (s.locate c n va 1 .read).1, (s.locate c n va 1 .write).1, (s.locate c n va 1 .fetch).1 with
  | .at_ k, _, _ | _, .at_ k, _ | _, _, .at_ k => some k
  | _, _, _ => none

/-- The region ends at the last byte of the 72-bit space, and a line that it overlaps only in part is treated whole (R151): its first
byte and its length in whole lines. -/
def Region.whole (r : Region) : Nat × Nat :=
  let len := min r.len (2 ^ 72 - r.base)
  if len = 0 then (r.base, 0) else (r.base / 64 * 64, (r.base + len + 63) / 64 * 64 - r.base / 64 * 64)

/-- The pieces of memory under a region, page by page: the key of the first byte and the length. -/
def State.pieces (s : State) (c n : Nat) (r : Region) : List (Nat × Nat) :=
  let (base, len) := r.whole
  (List.range ((base % 65536 + len + 65535) / 65536)).filterMap fun i =>
    let lo := if i = 0 then base else base / 65536 * 65536 + 65536 * i
    let hi := min (base + len) (base / 65536 * 65536 + 65536 * (i + 1))
    if hi ≤ lo then none else (s.seek c n lo).map fun k => (k, hi - lo)

/-- A line overlaps one of the pieces. -/
def piecesHold (ps : List (Nat × Nat)) (line : Nat) : Bool := ps.any fun p => p.1 < line * 64 + 64 && line * 64 < p.1 + p.2

/-- The lines that a half of context `n` covers: all, or those of a region. -/
def State.coversLine (s : State) (c n : Nat) : Option Region → Nat → Bool
  | none => fun _ => true
  | some r =>
    let ps := s.pieces c n r
    fun line => piecesHold ps line

/-- The store buffer entries that a half covers. -/
def Region.coversEntry (r : Region) (ps : List (Nat × Nat)) (e : SbEntry) : Bool :=
  let w := r.whole
  (e.va < w.1 + w.2 && w.1 < e.va + e.cells.length) || e.cells.any fun x => ps.any fun p => p.1 ≤ x.1 && x.1 < p.1 + p.2

def State.coversEntry (s : State) (c n : Nat) : Option Region → SbEntry → Bool
  | none => fun _ => true
  | some r =>
    let ps := s.pieces c n r
    fun e => r.coversEntry ps e

/-! #### The halves -/

/-- One entry drains; what leaves the core's router for it waits for its way and is charged (R65, R71). -/
def drainOne (e : SbEntry) : M Unit := do
  let (c, n) ← me
  let s ← get
  if !s.entryWay c e then waitOn .mesh 0
  let r := e.reach c
  if r ≠ (0, 0, none) then budgetFor r.1 r.2.1 r.2.2
  modify fun s => s.drainHits c n [e]

/-- A line leaves CV for its home; a line with dirty bytes is charged (R71). -/
def evictOne (line : Nat) : M Unit := do
  let s ← get
  if (s.core s.curCore).dirtyLines.contains line then
    meshWay (line * 64)
    budget 1 2
  modify fun s => s.evict s.curCore line

/-- The entries of the issuing context drain that `pick` selects, and what must go before them. -/
def drainPicked (pick : SbEntry → Bool) : M Unit := do
  let x ← getCtx
  (splitSb pick x.sb).1.forM drainOne

/-- A paired context waits until its interval has agreed and the outputs that it held have left (R198). -/
def agreed : M Unit := do
  let s ← get
  if s.holding s.curCore s.curSlot && !(s.core s.curCore).hold.isEmpty then waitOn .pairInterval 0

/-- A paired context that is to read bytes which a held operation on an object changes waits for it (R198). -/
def homesAgreed (ks : List Nat) : M Unit := do
  let s ← get
  if s.holding s.curCore s.curSlot && (s.core s.curCore).hold.any fun h => (match h with
      | .home keys _ _ _ _ => keys.any ks.contains
      | .store | .flight _ | .bulk _ _ | .release _ _ => false) then waitOn .pairInterval 0

/-- The release half over an object's region, or over all memory: it completes when every covered write has reached the scope's point
(R147, R162). Behind outputs of a paired interval it waits in the hold buffer with the writes that it covers (R198). -/
def releaseOver (sc : Scope) (rgn : Option Region) : M Unit := do
  let (c, n) ← me
  let s ← get
  if s.holding c n && !(s.core c).hold.isEmpty then emit (.release sc rgn) id
  else if sc ≠ .cx then
    drainPicked (s.coversEntry c n rgn)
    if beyondCore sc then
      let s ← get
      ((s.core c).dirtyLines.filter (s.coversLine c n rgn)).forM evictOne
      let s ← get
      if s.biPending.any fun e => s.coversLine c n rgn e.1 then waitOn .linkAck 0
      if beyondHost sc && s.awaitsAck c n (s.coversLine c n rgn) then waitOn .linkAck 0
      if sc = .sy then
        modify fun s => (s.hostLines.filter fun e => e.2 && s.coversLine c n rgn e.1).foldl (fun s e => s.flushHost e.1) s

/-- ReleaseHalf(s, ALL). -/
def releaseHalf (sc : Scope) : M Unit := releaseOver sc none

/-- The lines that an acquire half at a scope discards (R147). -/
def discards (sc : Scope) (line : Nat) : Bool :=
  let sp := line * 64 / 2 ^ 64
  match sc with
  | .cx | .co => false
  | .cl | .fd | .dv => sp = 0
  | .nd => sp ≤ 1
  | .pd | .sy => sp ≤ 2

/-- The acquire half over a region or over all memory: the covered lines that the scope discards are evicted and leave CV (R147). -/
def acquireOver (sc : Scope) (rgn : Option Region) : M Unit := do
  let (c, n) ← me
  let s ← get
  (((s.core c).cv.map (·.1)).filter fun l => discards sc l && s.coversLine c n rgn l).forM evictOne

/-- AcquireHalf(s, ALL). -/
def acquireHalf (sc : Scope) : M Unit := acquireOver sc none

def releases : Ord → Bool
  | .rel | .acqrel => true
  | .rlx | .acq => false
def acquires : Ord → Bool
  | .acq | .acqrel => true
  | .rlx | .rel => false

/-- The access itself bypasses CV (R149). -/
def bypasses (o : Ord) (sc : Scope) : Bool := o ≠ .rlx && beyondCore sc

/-! ### Loads (R145) -/

/-- A byte that an entry of the store buffer covers, the youngest first. -/
def sbByte (sb : List SbEntry) (k : Nat) : Option (Byte × Bool) :=
  match (sb.reverse.find? fun e => e.cells.any fun x => x.1 = k) with
  | some e => (Assoc.find e.cells k).map fun b => (b, e.poison)
  | none => none

/-- A line that the instruction in progress has been charged for is noted with the lines it fetched, so that an instruction
that waits and tries again is charged once. -/
def noteLine (line : Nat) (arrived keep : Bool) : M Unit := modCtx fun x => { x with fetched := Assoc.put x.fetched line ⟨arrived, false, [], 0, keep⟩ }

/-- Charges the instruction in progress, once, for a line that it reads or writes at its home (R65, R71). -/
def chargeLine (line : Nat) : M Unit := do
  let x ← getCtx
  let (c, _) ← me
  if (Assoc.find x.fetched line).isNone then
    request (line * 64)
    if reach c (line * 64) 0 ≠ (0, 0, none) then noteLine line true false

/-- Makes the lines of some keys readable: a line absent from CV is filled; with `bypass` it is evicted instead; a line of
another member is fetched over its link, whose response is awaited; a line with a write that waits for the host is
awaited (R17, R26, R145, R149). -/
def readyLine (sb : List SbEntry) (bypass keep : Bool) (line : Nat) (offs : List Nat) : M Unit := do
  let s ← get
  let c := s.curCore
  let x := s.ctx c s.curSlot
  let k := s.core c
  let inSb := offs.all fun o => (sbByte sb (line * 64 + o)).isSome
  if !inSb then
    match keySpace (line * 64) with
    | 0 | 1 =>
      if s.biPending.any fun e => e.1 = line then waitOn .linkAck 0
      if bypass then
        chargeLine line
        evictOne line
        let s ← get
        if s.biPending.any fun e => e.1 = line then waitOn .linkAck 0
        modify fun s => (s.takeHost line).touchSlice c (line * 64) keep
      else if offs.all fun o => (Assoc.find (k.line line) o).isSome then pure ()
      else
        chargeLine line
        modify fun s => (s.fill c line).touchSlice c (line * 64) keep
    | 2 =>
      if !bypass && offs.all fun o => (Assoc.find (k.line line) o).isSome then pure ()
      else
        match Assoc.find x.fetched line with
        | some f =>
          if !f.arrived then waitOn .remote 0
          else if f.lost then eat cirAbsent
        | none =>
          request (line * 64)
          modify fun s => s.post c s.curSlot (s.portAt c s.curSlot (line * 64)) (line * 64) .line
          noteLine line false (!bypass)
          waitOn .remote 0
    | _ => chargeLine line

/-- The byte at a key once its line is ready: from the store buffer entries `sb`, from CV, from what another member answered, or from
H. -/
def readByte (s : State) (sb : List SbEntry) (bypass : Bool) (k : Nat) : Byte × Bool :=
  let c := s.curCore
  let x := s.ctx c s.curSlot
  match sbByte sb k with
  | some b => b
  | none =>
    match keySpace k with
    | 0 | 1 =>
      match (if bypass then none else Assoc.find ((s.core c).line (lineOf k)) (k % 64)) with
      | some b => (b.val, cvMarked ((s.core c).line (lineOf k)) (k % 64))
      | none => (s.peek k, s.poisoned k)
    | 2 =>
      match (if bypass then none else Assoc.find ((s.core c).line (lineOf k)) (k % 64)) with
      | some b => (b.val, cvMarked ((s.core c).line (lineOf k)) (k % 64))
      | none =>
        match Assoc.find x.fetched (lineOf k) with
        | some f =>
          if f.lost then (Config.lostByte (s.steps * 64 + k % 64), true)
          else (f.data.getD (k % 64) 0, bit f.poison (k % 64 / 32))
        | none => (s.peek k, s.poisoned k)
    | _ => if s.keyFenced k then (Config.fencedByte (s.steps * 64 + k % 64), true) else (s.peek k, s.poisoned k)

/-- A byte whose value is lost: its line ended by the link timeout, or it lies in a fenced cell (R26, R63). -/
def State.gone (s : State) (sb : List SbEntry) (bypass : Bool) (k : Nat) : Bool :=
  let x := s.ctx s.curCore s.curSlot
  if (sbByte sb k).isSome then false
  else if keySpace k = 2 then
    (bypass || (Assoc.find ((s.core s.curCore).line (lineOf k)) (k % 64)).isNone) && (Assoc.find x.fetched (lineOf k)).any fun f => f.lost
  else s.keyFenced k

/-- Loads the bytes at some keys, each with its mark, from the entries `sb`, CV or H. Marked memory is consumed: CIR.POISON (R193, R194);
lost data sets CIR.ABSENT and not POISON (R26, R63). -/
def loadFrom (sb : List SbEntry) (bypass keep : Bool) (ks : List Nat) : M (List (Byte × Bool)) := do
  homesAgreed ks
  let lines := (ks.map lineOf).eraseDups
  lines.forM fun l => readyLine sb bypass keep l ((ks.filter fun k => lineOf k = l).map (· % 64))
  let s ← get
  let bs := ks.map (readByte s sb bypass)
  if ks.any s.keyFenced then eat cirAbsent
  if (ks.zip bs).any fun b => b.2.2 && !s.gone sb bypass b.1 then eat cirPoison
  passLoad (bs.map (·.1))
  pure bs

/-- The same of a load, which sees the stores of its own context (R145). -/
def loadBytes (bypass keep : Bool) (ks : List Nat) : M (List (Byte × Bool)) := do
  let x ← getCtx
  loadFrom x.sb bypass keep ks

/-- Loads the bytes at some keys, with whether one of them was marked. -/
def loadKeys (bypass keep : Bool) (ks : List Nat) : M (List Byte × Bool) := do
  let bs ← loadBytes bypass keep ks
  pure (bs.map (·.1), bs.any (·.2))

/-- What a load of the issuing context would read at a virtual byte, without any move: for the compared value of a
watchpoint of space 1 (R203). -/
def State.glance (s : State) (va : Nat) : Byte :=
  match (s.locate s.curCore s.curSlot va 1 .read).1 with
  | .at_ key => (readByte s (s.ctx s.curCore s.curSlot).sb false ((s.keysOf key 1).headD 0)).1
  | .bad _ | .migrating => 0

/-- The unit of `n` bytes at `a` (bits 63:0) with the bytes of some addresses replaced. -/
def State.unitWith (s : State) (hi : Nat) (new : List (Nat × Byte)) (a n : Nat) : Nat :=
  bitsOfBytes ((List.range n).map fun i =>
    let b := hi * 2 ^ 64 + a + i
    (Assoc.find new b).getD (s.glance b))

/-- The watchpoints that an access by the issuing context to the bytes at `as` meets at its Issue (SPACE 1): `new` gives the values of the
bytes after the whole instruction. -/
def watchBytes (as ks : List Nat) (new : List (Nat × Byte)) (k : WatchKind) : M Unit := do
  let (c, n) ← me
  modify fun s =>
    if (List.range 4).any fun i => bits (Assoc.get Watch.reset (s.core c).watches i).ctl 3 0 ≠ 0 then
      s.watchVa c (as.headD 0 / 2 ^ 64) as (ks.headD 0) k (s.unitWith (as.headD 0 / 2 ^ 64) new) (some n)
    else s

/-- The watchpoints that an access meets: SPACE 1 at its Issue, and SPACE 0 at the owner for what is read in H now; what the
context's own store buffer gives does not reach the owner (R145, R203). -/
def watchAccess (va : Nat) (ks : List Nat) (bs : List Byte) (k : WatchKind) (now : Bool) : M Unit := do
  let (c, n) ← me
  let as := (List.range bs.length).map (va + ·)
  watchBytes as ks (as.zip bs) k
  if now then modify fun s => s.watchOwner (ks.filter fun x => (sbByte (s.ctx c n).sb x).isNone) k c (some n)

/-- MISALIGNED before any translation (R274). -/
def aligned (va n : Nat) : M Unit := if va % n = 0 then pure () else trap .misaligned (BitVec.ofNat 64 va)

/-- MemRead(va, n, o, s) with a hint (R149, R230, R274, R276): the bytes and their mark. -/
def memRead (va : Ptr) (n align : Nat) (m : MQ) : M (List Byte × Bool) := do
  aligned va.toNat align
  let key ← translate va.toNat n .read
  if releases m.ord then releaseHalf m.scope
  let s ← get
  let ks := s.keysOf key n
  let r ← loadKeys (bypasses m.ord m.scope) (m.hint = .keep) ks
  if acquires m.ord then acquireHalf m.scope
  watchAccess va.toNat ks r.1 .read (3 ≤ keySpace key)
  pure r

/-! ### Stores -/

/-- A request to another member whose answer the instruction awaits (R149, R162). -/
def awaitRemote (key : Nat) (op : RemoteOp) : M (Option (Nat × Bool)) := do
  let s ← get
  let c := s.curCore
  let n := s.curSlot
  match (s.ctx c n).remote with
  | .idle =>
    request key
    modify fun s =>
      let t := (s.dropRemote c (lineOf key)).post c n (s.portAt c n key) key op
      t.setCtx c n { t.ctx c n with remote := .outstanding s.nextRemote, committed := true }
    waitOn .linkAck 0
  | .outstanding _ => waitOn .linkAck 0
  | .answered old p => pure (some (old, p))
  | .lost => pure none

/-- One unit of a store that is written at the scope's point: its bytes by key, and its mark. -/
abbrev Unit_ := List (Nat × Byte) × Bool

/-- A unit is written at its home, in local space, or posted to another member, whose stale line leaves CV (R142, R149). -/
def State.through (s : State) (c n : Nat) (keep : Bool) (u : Unit_) : State :=
  match u.1 with
  | [] => s
  | (k, _) :: _ =>
    let ks := u.1.map (·.1)
    match keySpace k with
    | 0 | 1 => ((s.evictAll c (ks.map lineOf).eraseDups).homeWrite u.1 u.2).touchSlice c k keep
    | 2 => (s.dropRemote c (lineOf k)).post c n (s.portAt c n k) k (.store u.1 u.2)
    | _ => if s.keyFenced k then s.lose c n else (s.writeH u.1 u.2).watchOwner ks .write c (some n)

/-- Issue of a store: an entry of SB(c) (R144). -/
def storeBuffered (va : Nat) (cells : List (Nat × Byte)) (p setFull through : Bool) : M Unit := do
  let (c, n) ← me
  modify fun s => s.setCtx c n { s.ctx c n with
    sb := (s.ctx c n).sb ++ [⟨cells, p, setFull, through, va, (s.ctx c n).pc, s.portAt c n ((cells.map (·.1)).headD 0)⟩] }
  emit .store id

/-- The bytes of an access are written at the scope's point, bypassing CV; at pd and sy a write to another member is
awaited (R149, R162). -/
def storeThrough (sc : Scope) (keep : Bool) (us : List Unit_) : M Unit := do
  let (c, n) ← me
  let x ← getCtx
  let ks := us.flatMap fun u => u.1.map (·.1)
  if x.remote = .idle then
    drainPicked fun e => e.meets ks
    (ks.map lineOf).eraseDups.forM chargeLine
    modify fun s => us.foldl (fun s u => s.through c n keep u) s
    let s ← get
    if beyondHost sc && ks.any fun k => keySpace k = 2 then
      modCtx fun x => { x with remote := .outstanding s.nextRemote, committed := true }
      waitOn .linkAck 0
  else
    let s ← get
    if s.unacknowledged c n then waitOn .linkAck 0

/-- A relaxed store with the hint keep pins its line at the home slice (R69, R276). -/
def pinStore (ks : List Nat) : M Unit := modify fun s => (ks.map lineOf).eraseDups.foldl (fun s l => s.touchSlice s.curCore (l * 64) true) s

/-- The store part of the instruction in progress is done, and is not done again when its acquire half waits. -/
def written : M Unit := modCtx fun x => { x with stage := 1, committed := true }

/-- MemWrite(va, n, x, o, s) with a hint (R149, R230, R274, R276). A paired context's store is held, an ordered one to be written at the
scope's point when it leaves (R198). -/
def memWrite (va : Ptr) (bs : List Byte) (align : Nat) (m : MQ) (p : Bool) : M Unit := do
  aligned va.toNat align
  let key ← translate va.toNat bs.length .write
  if releases m.ord then releaseHalf m.scope
  let s ← get
  let ks := s.keysOf key bs.length
  if (s.ctx s.curCore s.curSlot).stage = 0 then
    if bypasses m.ord m.scope && !s.holding s.curCore s.curSlot then storeThrough m.scope (m.hint = .keep) [(ks.zip bs, p)]
    else
      storeBuffered va.toNat (ks.zip bs) p false (bypasses m.ord m.scope)
      if m.hint = .keep then pinStore ks
  if acquires m.ord then
    written
    acquireHalf m.scope
  watchAccess va.toNat ks bs .write false
  passStore va.toNat bs

/-! ### Atomics and objects at their home (R24, R151, R154, R281, R284, R307) -/

/-- Settle (R307) on EXP, ARR and FLAGS. -/
def settle (exp arr flags : Nat) : Nat × Nat :=
  if 0 < exp ∧ exp ≤ arr then (0, (flags ^^^ 1) - flags / 8 % 2 * 8) else (arr, flags)

/-- A barrier object from its fields. -/
def packBar (exp arr flags naks ecl : Nat) : Nat :=
  exp % 2 ^ 48 + arr % 2 ^ 48 * 2 ^ 48 + flags % 256 * 2 ^ 96 + naks % 256 * 2 ^ 104 + ecl % 256 * 2 ^ 112

/-- The new contents of `n` bytes after an operation at their home. -/
def HomeOp.apply (n : Nat) (op : HomeOp) (m : Nat) : Nat :=
  let w := 8 * n
  let sgn (x : Nat) : Int := (BitVec.ofNat w x).toInt
  let exp := m % 2 ^ 48
  let arr := m / 2 ^ 48 % 2 ^ 48
  let flags := m / 2 ^ 96 % 256
  let naks := m / 2 ^ 104 % 256
  let ecl := m / 2 ^ 112 % 256
  match op with
  | .read => m
  | .write x => x % 2 ^ w
  | .add x => (m + x) % 2 ^ w
  | .and_ x => m &&& (x % 2 ^ w)
  | .or_ x => m ||| (x % 2 ^ w)
  | .xor_ x => m ^^^ (x % 2 ^ w)
  | .min_ true x => if sgn m ≤ sgn x then m else x % 2 ^ w
  | .min_ false x => if m ≤ x % 2 ^ w then m else x % 2 ^ w
  | .max_ true x => if sgn m ≤ sgn x then x % 2 ^ w else m
  | .max_ false x => if m ≤ x % 2 ^ w then x % 2 ^ w else m
  | .cas e x => if m = e % 2 ^ w then x % 2 ^ w else m
  | .acc x => accMemAdd m x
  | .bind base len => base % 2 ^ 72 + len % 2 ^ 32 * 2 ^ 72 + m / 2 ^ 104 * 2 ^ 104
  | .unbind => m % 2 ^ 72 + m / 2 ^ 104 * 2 ^ 104
  | .release => m % 2 ^ 104 + (m / 2 ^ 104 + 1) % 2 ^ 24 * 2 ^ 104
  | .barInit u => packBar (u % 2 ^ 48) 0 8 0 0
  | .barExpect u =>
    let r := settle ((exp + u) % 2 ^ 48) arr (flags ||| 8)
    packBar ((exp + u) % 2 ^ 48) r.1 r.2 naks ecl
  | .barArrive u engine =>
    let f := if engine ∧ flags / 8 % 2 = 0 then flags ||| 4 else flags
    let r := settle exp ((arr + u) % 2 ^ 48) f
    packBar exp r.1 r.2 naks ecl
  | .barError cls =>
    packBar exp arr (flags ||| 2) (if cls ≤ 3 then min (naks + 1) 255 else naks) (if ecl = 0 then cls else ecl)
  | .decrement => if m = 0 then 0 else m - 1
  | .tileLock => if m % 2 = 0 then (m + 1) % 2 ^ w else m

/-- An operation reads the contents, so that it consumes their mark (R193). -/
def HomeOp.reads : HomeOp → Bool
  | .barInit _ => false
  | .read | .write _ | .add _ | .and_ _ | .or_ _ | .xor_ _ | .min_ _ _ | .max_ _ _ | .cas _ _ | .acc _ | .bind _ _ | .unbind | .release
  | .barExpect _ | .barArrive _ _ | .barError _ | .decrement | .tileLock => true

/-- An operation at its home in H, on the bytes at some keys: the old contents, and H after it. A mark of what it reads goes into what it
writes (R193). -/
def State.homeOp (s : State) (ks : List Nat) (op : HomeOp) (p : Bool) : Nat × Bool × State :=
  let old := bitsOfBytes (ks.map s.peek)
  let was := ks.any s.poisoned
  let new := op.apply ks.length old
  match op with
  | .read => (old, was, s)
  | _ =>
    let cells := ks.zip (bytesOfBits ks.length new)
    let s := s.writeH cells (p || (was && op.reads))
    (old, was, if keySpace (ks.headD 0) = 1 then { s with hostLines := Assoc.put s.hostLines (lineOf (ks.headD 0)) true } else s)

/-- The SB entries for the word drain, and its line leaves CV (R154). -/
def State.clearWord (s : State) (c n : Nat) (ks : List Nat) : State :=
  let s := s.drainKeys c n ks
  match ks with
  | [] => s
  | k :: _ => if keySpace k = 2 then s.dropRemote c (lineOf k) else if keySpace k ≤ 1 then s.evict c (lineOf k) else s

/-- The same as a part of an instruction, which is charged for what it drains and evicts. -/
def clearWord (ks : List Nat) : M Unit := do
  let (c, n) ← me
  let s ← get
  if !s.holding c n then drainPicked fun e => e.meets ks
  let k := ks.headD 0
  if keySpace k = 2 then modify fun s => s.dropRemote c (lineOf k)
  else if keySpace k ≤ 1 then evictOne (lineOf k)

/-- An operation answers with the old contents, so that its loss poisons them and sets CIR.ABSENT (R26, R63). -/
def HomeOp.returns : HomeOp → Bool
  | .acc _ | .bind _ _ | .unbind | .release | .barInit _ | .barExpect _ | .barError _ => false
  | .read | .write _ | .add _ | .and_ _ | .or_ _ | .xor_ _ | .min_ _ _ | .max_ _ _ | .cas _ _ | .barArrive _ _ | .decrement | .tileLock => true

/-- Performs an operation at the home of `ks`, in one step; a remote one is awaited (R24, R26, R154). The answer is the old
contents with their mark; a lost one is poisoned. One that returns no value, as `aacc`, sets no CIR.ABSENT by its loss (R26, R63). -/
def atHome (ks : List Nat) (op : HomeOp) (p : Bool) : M (Nat × Bool) := do
  let (c, n) ← me
  let s ← get
  let k := ks.headD 0
  homesAgreed ks
  if (s.ctx c n).remote = .idle then clearWord ks
  let s ← get
  if keySpace k = 2 then
    if op = .read then
      let r ← loadKeys true false ks
      pure (bitsOfBytes r.1, r.2)
    else
      match (← awaitRemote k (.atomic ks.length op p)) with
      | some r =>
        if r.2 && op.reads then eat cirPoison
        pure r
      | none =>
        if op.returns then eat cirAbsent
        pure (bitsOfBytes ((List.range ks.length).map fun i => Config.lostByte (s.steps * 64 + i)), true)
  else if s.keyFenced k then
    if op ≠ .read then modify fun s => s.lose c n
    if op.returns then eat cirAbsent
    pure (bitsOfBytes ((List.range ks.length).map fun i => Config.fencedByte (s.steps * 64 + i)), true)
  else
    if s.biPending.any fun e => e.1 = lineOf k then waitOn .linkAck 0
    if op ≠ .read ∧ keySpace k = 0 ∧ (Assoc.find s.directory (lineOf k)).isSome then
      -- the host gives the line up first (R17)
      modify fun s => s.askHost (lineOf k)
      waitOn .linkAck 0
    request k
    let t ← get
    let t := (t.takeHost (lineOf k)).touchSlice c k false
    let (old, was, t) := t.homeOp ks op p
    set (t.watchOwner ks (if op = .read then .read else .atomic) c (some n))
    if was && op.reads then eat cirPoison
    if op = .read then passLoad (bytesOfBits ks.length old)
    pure (old, was)

/-- What an atomic does before it reaches the home of its word (R149, R154, R230, R279): the keys of the word. -/
def atomicBegin (va : Ptr) (n : Nat) (o : Ord) (sc : Scope) : M (List Nat) := do
  aligned va.toNat n
  let key ← translate va.toNat n .update
  if releases o then releaseHalf sc
  let s ← get
  pure (s.keysOf key n)

/-- Atomic(va, n, op, x, o, s) (R154, R230, R279): the old value and its mark. The old value is kept while the acquire half waits. -/
def atomic (va : Ptr) (n : Nat) (op : HomeOp) (o : Ord) (sc : Scope) (p : Bool) : M (Nat × Bool) := do
  let ks ← atomicBegin va n o sc
  let x ← getCtx
  let r ← if x.stage = 0 then atHome ks op p else pure (x.latch, x.tries = 1)
  if acquires o then
    modCtx fun x => { x with stage := 1, latch := r.1, tries := if r.2 then 1 else 0, committed := true }
    acquireHalf sc
  watchAccess va.toNat ks (bytesOfBits n (op.apply n r.1)) .atomic false
  pure r

/-- A core without a watchpoint of virtual addresses. -/
def Core.unwatched (k : Core) : Bool := (List.range 4).all fun i => bits (Assoc.get Watch.reset k.watches i).ctl 3 0 = 0

/-- An atomic on another member's memory without an acquire is posted, and the context goes on: its old value comes later (R25, R150).
It is awaited when a watchpoint must see its value, and in a paired core. False when the word does not lie there. -/
def runAhead (va : Ptr) (n : Nat) (op : HomeOp) (o : Ord) (sc : Scope) (p : Bool) (dst : Option GReg) (ty : Ty) : M Bool := do
  let x ← getCtx
  let k ← getCore
  if acquires o || x.remote ≠ .idle || !k.unwatched || k.pair.isSome then pure false
  else
    let ks ← atomicBegin va n o sc
    let k := ks.headD 0
    if keySpace k ≠ 2 then pure false
    else
      clearWord ks
      request k
      let (c, m) ← me
      modify fun s =>
        let t := s.post c m (s.portAt c m k) k (.atomic n op p)
        t.setCtx c m { t.ctx c m with lates := (t.ctx c m).lates ++ [⟨s.nextRemote, dst, ty⟩] }
      pure true

/-- A synchronisation object, or a barrier object, of 16 bytes: aligned, translated with the access it needs (R151, R308). -/
def objectKeys (va : Ptr) (k : Access) : M (List Nat) := do
  aligned va.toNat 16
  let key ← translate va.toNat 16 k
  let s ← get
  pure (s.keysOf key 16)

/-- An operation on an object at its home: an access of its 16 bytes, which watchpoints see (R203). -/
def onObject (va : Ptr) (ks : List Nat) (op : HomeOp) (p : Bool) : M (Nat × Bool) := do
  let r ← atHome ks op p
  watchAccess va.toNat ks (bytesOfBits 16 (op.apply 16 r.1)) (if op = .read then .read else .atomic) false
  pure r

/-- LEN and the region of an object's binding (R151). -/
def objLen (m : Nat) : Nat := m / 2 ^ 72 % 2 ^ 32
def objRegion (m : Nat) : Region := ⟨m % 2 ^ 72, objLen m⟩

/-- `rel.s` of an object: the release half over its region, and the Release move (R152). -/
def relObject (va : Ptr) (sc : Scope) : M Unit := do
  let ks ← objectKeys va .update
  let r ← onObject va ks .read false
  if objLen r.1 ≠ 0 then releaseOver sc (some (objRegion r.1))
  let s ← get
  if s.holding s.curCore s.curSlot then emit (.home ks .release false (s.portAt s.curCore s.curSlot (ks.headD 0)) none) id
  else
    let _ ← onObject va ks .release false

/-- `acq.s` of an object: it reads SEQ and the binding, and performs the acquire half over the region (R152). -/
def acqObject (va : Ptr) (sc : Scope) : M Unit := do
  let ks ← objectKeys va .read
  let r ← onObject va ks .read false
  if objLen r.1 ≠ 0 then acquireOver sc (some (objRegion r.1))

/-- LocalRead and LocalWrite on a scratchpad word: a place outside the scratchpads raises PERMISSION (R277, R333). -/
def scratchOnly (va key : Nat) : M Unit :=
  if keySpace key = 3 then pure () else trap .permission (BitVec.ofNat 64 va)

end Sys2Proof.Machine
end

