-- ==== Sys2Proof/Machine/Engine.lean ====
section
/-! DEFINITION. How the engines read and write memory, park and report their faults (R139, R157, R338, R346 to R349). -/

namespace Sys2Proof.Machine

/-- How an engine's step ends: a page that faults, or a wait; what the step has done before stays done. -/
inductive EngStop where
  | fault (cause : Cause) (addr : Nat) (s : State)
  | later (s : State)

/-- The work of an engine. -/
abbrev E := StateT State (Except EngStop)

def later {α : Type} : E α := do
  let s ← get
  throw (.later s)

/-- The engines that reach memory: the matrix engine, the bulk engine and the copy engine; the micro-kernel for its own reads and writes, of
which its completion records are a part of their own; and the unit that starts handlers, for what they acquire. -/
inductive EngUnit where
  | matrix | bulk | copy | kernel | report | start
  deriving DecidableEq, Repr

/-- An engine at work for a context of its core, which issued the command in a generation. -/
structure EngAt where
  core : Nat
  slot : Nat
  gen : BitVec 12
  unit : EngUnit
  deriving DecidableEq, Repr

/-- The number by which a link request and a governor name an engine and the context it works for. -/
def EngAt.who (e : EngAt) : Nat :=
  (match e.unit with
    | .matrix | .kernel => 16
    | .start => 18
    | .report => 30
    | .bulk => 32
    | .copy => 48) + e.slot
/-- Lines and translations are held per engine. -/
def EngUnit.code : EngUnit → Nat
  | .matrix => 0 | .bulk => 1 | .kernel => 2 | .report => 6 | .start => 8 | .copy => 9
/-- The writes of a micro-kernel to other members that it awaits, by the key of their first byte. -/
def EngUnit.ackCode : EngUnit → Nat
  | .report => 7
  | .matrix | .bulk | .copy | .kernel | .start => 5
def EngAt.lineKey (e : EngAt) (line : Nat) : Nat := 16 * line + e.unit.code
/-- The lines whose traffic a unit has been charged for. -/
def EngUnit.paidCode : EngUnit → Nat
  | .copy => 3 | .matrix => 10 | .bulk => 11 | .kernel => 12 | .report => 13 | .start => 14
def EngAt.paidKey (e : EngAt) (line : Nat) : Nat := 16 * line + e.unit.paidCode
/-- The acknowledgement of a request that writes a sector of a copy (R26). -/
def ackKey (id : Nat) : Nat := 16 * id + 4

/-- The engine lets go of its lines, but for those that `keep` tells. -/
def Core.linesBut (k : Core) (u : EngUnit) (keep : Nat → Bool) : Core :=
  { k with engineLines := k.engineLines.filter fun x => (x.1 % 16 ≠ u.code && x.1 % 16 ≠ u.paidCode || keep (x.1 / 16)) &&
      (x.1 % 16 ≠ u.ackCode || (u ≠ .kernel && u ≠ .report)) }

/-- The engine's unit of work is over: it lets go of its lines. -/
def Core.linesOver (k : Core) (u : EngUnit) : Core := k.linesBut u fun _ => false

/-- A burst or a sector is over: the engine lets go of its lines, and what others wait for stays (R26). -/
def Core.linesDone (k : Core) (e : EngAt) (ks : List Nat) : Core :=
  { k with engineLines := k.engineLines.filter fun x => !ks.any fun a => x.1 = e.lineKey (lineOf a) || x.1 = e.paidKey (lineOf a) }

/-- The engine's command is over, or it has parked: it lets go of its translations too, which are its use counts (R139). -/
def Core.unitOver (k : Core) (u : EngUnit) : Core :=
  { k.linesOver u with engPlaces := Assoc.set [] k.engPlaces u.code [] }
def State.unitOver (s : State) (c : Nat) (u : EngUnit) : State := s.setCore c ((s.core c).unitOver u)

/-- Requests of an engine's traffic that the governor admits, or that wait (R71). Traffic of the supervisor is not charged. -/
def engAdmit (e : EngAt) (lines flits : Nat) (pod : Option (Nat × Nat)) : E Unit := do
  let s ← get
  let (ok, t) := s.meter e.core (if e.slot = 0 then 0 else e.who) lines flits pod
  set t
  if !ok then later

/-- What a command has translated on the page of an address, for what it needs now: the key of the address. Local space is not translated, and
its leases are checked at every access (R127, R130). -/
def heldPlace (had : List Place) (va : Nat) (k : Access) : Option Nat :=
  (had.find? fun p => p.need = k && p.va / 65536 = va / 65536 && keySpace p.key ≤ 2).map fun p => p.key / 65536 * 65536 + va % 65536

/-- An engine's access waits while the field's own routes do not bring it to the home of a key (R65). -/
def engWay (e : EngAt) (key : Nat) : E Unit := do
  let s ← get
  if !s.wayTo e.core key then later

/-- Translates at first touch (R139): the keys of `n` bytes. The command goes on with what it has translated (R27, R378); it parks at a
migrating page, and then translates afresh (R139, R140). The entries that a walk reads are charged. -/
def engKeys (e : EngAt) (va n : Nat) (k : Access) : E (List Nat) := do
  let s ← get
  let had := Assoc.get [] (s.core e.core).engPlaces e.unit.code
  match heldPlace had va k with
  | some key => pure (s.keysOf key n)
  | none =>
    let reads := s.walkReads e.core e.slot va
    reads.forM (engWay e)
    if reads ≠ [] then engAdmit e reads.length (2 * reads.length) none
    let s ← get
    match s.locate e.core e.slot va n k with
    | (.at_ key, t) =>
      let t := t.touchAll e.core reads
      set (if 2 < keySpace key then t else t.setCore e.core { t.core e.core with
        engPlaces := Assoc.put (t.core e.core).engPlaces e.unit.code (had ++ [⟨va, k, key, if keySpace key = 2 then s.portOf key else 0⟩]) })
      pure (t.keysOf key n)
    | (.bad c, t) => throw (.fault c va t)
    | (.migrating, t) =>
      let t := t.touchAll e.core reads
      set (t.setCore e.core { t.core e.core with engPlaces := Assoc.set [] (t.core e.core).engPlaces e.unit.code [] })
      later

/-- The port of a key by what the engine's command has translated (R378). -/
def State.engPort (s : State) (e : EngAt) (key : Nat) : Nat := s.portBy (Assoc.get [] (s.core e.core).engPlaces e.unit.code) key

/-- Charges the unit once for a line of its traffic, which waits while the field's own routes do not bring it to its home (R65, R71). -/
def engCharge (e : EngAt) (line : Nat) : E Unit := do
  let s ← get
  let r := reach e.core (line * 64) (s.engPort e (line * 64))
  if (Assoc.find (s.core e.core).engineLines (e.paidKey line)).isNone && r ≠ (0, 0, none) then
    engWay e (line * 64)
    engAdmit e r.1 r.2.1 r.2.2
    modify fun t => t.setCore e.core { t.core e.core with
      engineLines := Assoc.put (t.core e.core).engineLines (e.paidKey line) ⟨true, false, [], 0, false⟩ }

/-- The byte that an engine reads: from CV when CV holds it, otherwise from H or the line that was fetched (R157). The matrix engine of a paired core
sees what its earlier commands have stored into the hold buffer (R157, R198). -/
def State.engByte (s : State) (e : EngAt) (k : Nat) : Byte × Bool :=
  let l := (s.core e.core).line (lineOf k)
  let cv := if keySpace k ≤ 2 then Assoc.find l (k % 64) else none
  let held := if e.unit = .matrix && s.holding e.core e.slot then sbByte (s.ctx e.core e.slot).sb k else none
  match held, cv with
  | some b, _ => b
  | none, some b => (b.val, cvMarked l (k % 64))
  | none, none =>
    match keySpace k with
    | 2 =>
      match Assoc.find (s.core e.core).engineLines (e.lineKey (lineOf k)) with
      | some f =>
        if f.lost then (Config.lostByte (s.steps * 64 + k % 64), true) else (f.data.getD (k % 64) 0, bit f.poison (k % 64 / 32))
      | none => (s.peek k, s.poisoned k)
    | _ => if s.keyFenced k then (Config.fencedByte (s.steps * 64 + k % 64), true) else (s.peek k, s.poisoned k)

/-- CV holds the bytes of a line that the engine reads. -/
def State.engHere (s : State) (e : EngAt) (line : Nat) (offs : List Nat) : Bool := offs.all fun o => (Assoc.find ((s.core e.core).line line) o).isSome

/-- Asks once for a line that an engine reads, and is charged for it: a line of another member that CV does not hold is requested. -/
def engAsk (e : EngAt) (line : Nat) (offs : List Nat) : E Unit := do
  let s ← get
  if keySpace (line * 64) ≠ 2 then engCharge e line
  else if !s.engHere e line offs && (Assoc.find (s.core e.core).engineLines (e.lineKey line)).isNone then
    engCharge e line
    modify fun s =>
      let s := s.postFor e.core e.who e.gen (s.engPort e (line * 64)) (line * 64) .line
      s.setCore e.core { s.core e.core with engineLines := Assoc.put (s.core e.core).engineLines (e.lineKey line) ⟨false, false, [], 0, false⟩ }

/-- Waits for a line that an engine reads; a line of this device or of the host that CV does not hold is read at its home, after the writes
that wait for the host (R17, R66). -/
def engLine (e : EngAt) (line : Nat) (offs : List Nat) : E Unit := do
  engAsk e line offs
  let s ← get
  let here := s.engHere e line offs
  if keySpace (line * 64) = 2 then
    if !here && (Assoc.find (s.core e.core).engineLines (e.lineKey line)).all fun f => !f.arrived then later
  else if keySpace (line * 64) ≤ 1 && !here then
    if s.biPending.any fun x => x.1 = line then later
    modify fun s => (s.takeHost line).touchSlice e.core (line * 64) false

/-- The lines of some keys, each with the places that are read in it. -/
def linesOf (ks : List Nat) : List (Nat × List Nat) :=
  ((ks.map lineOf).eraseDups).map fun l => (l, (ks.filter fun k => lineOf k = l).map (· % 64))

/-- The context that issued an engine's command is still the one that did (R194). -/
def State.engIssuer (s : State) (e : EngAt) : Bool := (s.ctx e.core e.slot).live && (s.ctx e.core e.slot).gen = e.gen

/-- ENGPOISON or ABSENT in the issuing context (R194). -/
def State.engCir (s : State) (e : EngAt) (b : Nat) : State :=
  if s.engIssuer e then
    (s.setCtx e.core e.slot ((s.ctx e.core e.slot).cirSet b)).pairKeeps e.core e.slot fun p => { p with cirs := p.cirs ++ [b] }
  else s

/-- A dropped write raises LOSTW of the issuing context (R26, R63). -/
def State.engLose (s : State) (e : EngAt) : State := if s.engIssuer e then s.lose e.core e.slot else s

/-- The watchpoints that an engine's access meets, per sector, burst or row (R203). -/
def State.engWatch (s : State) (e : EngAt) (va : Nat) (ks : List Nat) : State :=
  let s := s.watchOwner ks .engine e.core none
  if (List.range 4).any fun i => bits (Assoc.get Watch.reset (s.core e.core).watches i).ctl 3 0 ≠ 0 then
    s.watchVa e.core (va / 2 ^ 64) ((List.range ks.length).map (va + ·)) (ks.headD 0) .engine (fun a n =>
      bitsOfBytes ((List.range n).map fun i =>
        match (s.locate e.core e.slot (va / 2 ^ 64 * 2 ^ 64 + a + i) 1 .read).1 with
        | .at_ k => (s.engByte e ((s.keysOf k 1).headD 0)).1
        | .bad _ | .migrating => 0)) none
  else s

/-- The parts of `n` bytes at an address that lie in one sector each: their offsets and lengths. -/
def sectorsAt (first n : Nat) : List (Nat × Nat) :=
  (List.range ((first % 32 + n + 31) / 32)).map fun i =>
    let lo := if i = 0 then 0 else 32 * i - first % 32
    (lo, min (32 * (i + 1) - first % 32) n - lo)

/-- Has the lines of `n` bytes at hand, which may span pages: the keys, per sector. -/
def engFetch (e : EngAt) (va : Ptr) (n : Nat) : E (List (List Nat)) := do
  let kss ← (sectorsAt va.toNat n).mapM fun b => engKeys e (va + BitVec.ofNat 72 b.1).toNat b.2 .read
  (linesOf kss.flatten).forM fun l => engLine e l.1 l.2
  pure kss

/-- Reads `n` bytes that may span pages, per sector: the bytes with their marks. -/
def engRead (e : EngAt) (va : Ptr) (n : Nat) : E (List (Byte × Bool)) := do
  let blocks := sectorsAt va.toNat n
  let kss ← engFetch e va n
  let ks := kss.flatten
  let s ← get
  let bs := ks.map (s.engByte e)
  (blocks.zip kss).forM fun (b, ks) => modify fun s => s.engWatch e (va + BitVec.ofNat 72 b.1).toNat ks
  pure bs

/-- Bytes that an engine reads came from a fenced cell or a lost line (R26, R63). -/
def State.engAbsent (s : State) (e : EngAt) (ks : List Nat) : Bool :=
  ks.any fun k =>
    if keySpace k = 2 then !s.engHere e (lineOf k) [k % 64] && (Assoc.find (s.core e.core).engineLines (e.lineKey (lineOf k))).any fun f => f.lost
    else s.keyFenced k

/-- Reads pieces whose keys are known, each in one sector: every line is asked for before the engine waits for one. -/
def engPieces (e : EngAt) (ps : List (Ptr × List Nat)) : E (List (Byte × Bool)) := do
  let ks := ps.flatMap (·.2)
  (linesOf ks).forM fun l => engAsk e l.1 l.2
  (linesOf ks).forM fun l => engLine e l.1 l.2
  let s ← get
  let bs := ks.map (s.engByte e)
  ps.forM fun p => modify fun s => s.engWatch e p.1.toNat p.2
  pure bs

/-- Only translates `n` bytes for reading (R337: every page of B). -/
def engTouch (e : EngAt) (va : Ptr) (n : Nat) (k : Access) : E Unit := do
  let _ ← engKeys e va.toNat 1 k
  if n ≠ 0 then
    let _ ← engKeys e (va + BitVec.ofNat 72 (n - 1)).toNat 1 k

/-- Writes one unit of an engine: the line leaves CV first, and the bytes go to H (R157); a write to another member is
posted. A write into a fenced cell is dropped and counted for the issuer (R63). -/
def State.engStore (s : State) (e : EngAt) (cells : List (Nat × Byte)) (p : Bool) : State :=
  match cells with
  | [] => s
  | (k, _) :: _ =>
    let lines := (cells.map fun x => lineOf x.1).eraseDups
    match keySpace k with
    | 0 | 1 => ((s.evictAll e.core lines).homeWrite cells p).touchSlice e.core k false
    | 2 => (lines.foldl (fun s l => s.dropRemote e.core l) s).postFor e.core e.who e.gen (s.engPort e k) k (.store cells p)
    | _ => if s.keyFenced k then s.engLose e else s.writeH cells p

/-- Writes bytes that may span pages, per sector, every sector translated first. -/
def engWrite (e : EngAt) (va : Ptr) (bs : List Byte) (p : Bool) : E Unit := do
  let blocks := sectorsAt va.toNat bs.length
  let kss ← blocks.mapM fun b => engKeys e (va + BitVec.ofNat 72 b.1).toNat b.2 .write
  ((kss.flatten.map lineOf).eraseDups).forM (engCharge e)
  (blocks.zip kss).forM fun (b, ks) => modify fun s =>
    (s.engStore e (ks.zip ((bs.drop b.1).take b.2)) p).engWatch e (va + BitVec.ofNat 72 b.1).toNat ks

/-! ### Parking and reporting (R139, R303, R346 to R349) -/

/-- The parked fault of an engine's head command. -/
def Core.setPark (k : Core) (u : EngUnit) (f : Option Parked) : Core :=
  match u with
  | .matrix => { k with matPark := f }
  | .bulk => { k with bulkPark := f }
  | .copy => { k with copyPark := f }
  | .kernel | .report | .start => k

/-- Raises ENGINE_FAULT for a parked command: on its issuer, when that is live with the same generation, and otherwise as
a notice. A context with an outstanding record raises nothing further until `eret` (R346), and one that is past issue completes its
instruction first; the park then tells later. -/
def State.tellFault (s : State) (e : EngAt) (pc : Ptr) (f : Parked) : State :=
  let c := e.core
  let told (s : State) : State := s.setCore c ((s.core c).setPark e.unit (some { f with told := true }))
  let x := s.ctx c e.slot
  let detail := if f.cause = .engineFault then 0 else f.cause.code
  if f.told then s
  else if s.engIssuer e then
    if x.trap.isSome || x.pastIssue then s
    else (told s).takeTrap c e.slot ⟨.engineFault, .e, BitVec.ofNat 16 detail, false, pc, f.addr, e.gen, x.pc, none⟩
  else (told s).notice c ⟨.engineFault, BitVec.ofNat 16 detail, f.addr, true, pc, e.gen, e.slot⟩

/-- A fault parks an engine's head command: it translates afresh when it goes on (R139), and of its lines it keeps those of the bursts and the
sectors that it has requested, which still return (R303). -/
def Core.parkUnit (k : Core) (u : EngUnit) : Core :=
  let q : List BulkCmd := match u with
    | .bulk => k.bulkq
    | .copy => k.copyq
    | .matrix | .kernel | .report | .start => []
  let asked := q.flatMap fun b => b.asked.flatMap fun a => a.2.2.map lineOf
  { k.linesBut u fun l => asked.contains l with engPlaces := Assoc.set [] k.engPlaces u.code [] }

/-- A fault parks the head command. -/
def State.parkAt (s : State) (e : EngAt) (pc : Ptr) (cause : Cause) (addr : Nat) : State :=
  let f : Parked := ⟨cause, BitVec.ofNat 64 addr, false⟩
  (s.setCore e.core (((s.core e.core).parkUnit e.unit).setPark e.unit (some f))).tellFault e pc f

/-- The engines of a stopped core pause, but for the commands of a context that is being stepped (R205, R206). -/
def Core.engineRuns (k : Core) (slot : Nat) : Bool := !k.stopped || (k.ctx slot).stepping

end Sys2Proof.Machine
end

