-- ==== Sys2Proof/Machine/Alu.lean ====
section
/-! DEFINITION. Groups ALU, ALUI, ALUL and ADR: integer and pointer operations (R252 to R260). -/

namespace Sys2Proof.Machine

/-- Two-source ALU operations (table of R253) on values already reduced to the type. -/
inductive AluOp where
  | add | sub | mul | mulh | div | rem | and_ | or_ | xor_ | andn | shl | shr | sar | rol | min_ | max_ | slt | seq | sne
  deriving DecidableEq, Repr

/-- The masked shift amount: b AND (Width(TY) − 1) (R253). -/
def shiftOf (ty : Ty) (b : Int) : Nat := (b % (ty.width : Int)).toNat

/-- The Width(TY) bits of a value. -/
def bitsOf (ty : Ty) (a : Int) : Nat := (a % (2 ^ ty.width : Int)).toNat

/-- a / b by R253: rounded toward zero; all ones for b = 0 (the signed minimum over −1 wraps to the minimum). -/
def aluDiv (a b : Int) : Int := if b = 0 then -1 else Int.tdiv a b

/-- The remainder of R253: a for b = 0. -/
def aluRem (a b : Int) : Int := if b = 0 then a else Int.tmod a b

/-- Op(a, b) of R253, exact; the caller reduces it. -/
def aluOp (op : AluOp) (ty : Ty) (a b : Int) : Int :=
  match op with
  | .add => a + b
  | .sub => a - b
  | .mul => a * b
  | .mulh => (a * b).fdiv (2 ^ ty.width)
  | .div => aluDiv a b
  | .rem => aluRem a b
  | .and_ => ((bitsOf ty a &&& bitsOf ty b : Nat) : Int)
  | .or_ => ((bitsOf ty a ||| bitsOf ty b : Nat) : Int)
  | .xor_ => ((bitsOf ty a ^^^ bitsOf ty b : Nat) : Int)
  | .andn => ((bitsOf ty a &&& (2 ^ ty.width - 1 - bitsOf ty b) : Nat) : Int)
  | .shl => a * 2 ^ shiftOf ty b
  | .shr => ((bitsOf ty a / 2 ^ shiftOf ty b : Nat) : Int)
  | .sar => (BitVec.ofInt ty.width a).toInt.fdiv (2 ^ shiftOf ty b)
  | .rol =>
    ((bitsOf ty a * 2 ^ shiftOf ty b + bitsOf ty a / 2 ^ (ty.width - shiftOf ty b) : Nat) : Int)
  | .min_ => if a ≤ b then a else b
  | .max_ => if a ≤ b then b else a
  | .slt => if a < b then 1 else 0
  | .seq => if a = b then 1 else 0
  | .sne => if a = b then 0 else 1

/-- The result of a two-source operation on two register images (R253). -/
def aluResult (op : AluOp) (ty : Ty) (x y : Word) : Word :=
  ext ty (aluOp op ty (valueOf ty x.toNat) (valueOf ty y.toNat))

/-- Reads A and B, writes Ext(x) (R253). -/
def aluRegs (op : AluOp) (ty : Ty) (d a b : GReg) : M Next := do
  let x ← regG a
  let y ← regG b
  let p ← consume [uG a, uG b]
  setG d (aluResult op ty x y) p
  pure .seq

/-- Reads A, with b an immediate already extended to 64 bits (R255, R257). -/
def aluImm (op : AluOp) (ty : Ty) (d a : GReg) (imm : Int) : M Next := do
  let x ← regG a
  let p ← consume [uG a]
  setG d (aluResult op ty x (ext ty imm)) p
  pure .seq

/-- One source and a result computed from it. -/
def unaryG (d a : GReg) (f : Word → Word) : M Next := do
  let x ← regG a
  let p ← consume [uG a]
  setG d (f x) p
  pure .seq

/-- Leading zero bits of a number of `w` bits; `w` for zero (R254). -/
def leadingZeros : Nat → Nat → Nat
  | 0, _ => 0
  | w + 1, n => if n / 2 ^ w % 2 = 1 then 0 else leadingZeros w n + 1

/-- Trailing zero bits of a number of `w` bits; `w` for zero. -/
def trailingZeros : Nat → Nat → Nat
  | 0, _ => 0
  | w + 1, n => if n % 2 = 1 then 0 else trailingZeros w (n / 2) + 1

/-- One bits of a number of `w` bits. -/
def countOnes : Nat → Nat → Nat
  | 0, _ => 0
  | w + 1, n => n % 2 + countOnes w (n / 2)

/-- The bit field of `ext` (R254). -/
def extField (sgn : Bool) (a b c : Word) : Word :=
  let pos := b.toNat % 64
  let len := min (c.toNat % 128) (64 - pos)
  let f := a.toNat / 2 ^ pos % 2 ^ len
  if len = 0 then 0
  else if sgn ∧ f / 2 ^ (len - 1) % 2 = 1 then BitVec.ofInt 64 ((f : Int) - 2 ^ len) else BitVec.ofNat 64 f

def execAdd (ty : Ty) (d a b : GReg) (s : State) : Host.Outcome State Fault Refusal := perform .any (.add ty d a b) (aluRegs .add ty d a b) s
def execSub (ty : Ty) (d a b : GReg) (s : State) : Host.Outcome State Fault Refusal := perform .any (.sub ty d a b) (aluRegs .sub ty d a b) s
def execMul (ty : Ty) (d a b : GReg) (s : State) : Host.Outcome State Fault Refusal := perform .any (.mul ty d a b) (aluRegs .mul ty d a b) s
def execMulh (ty : Ty) (d a b : GReg) (s : State) : Host.Outcome State Fault Refusal := perform .any (.mulh ty d a b) (aluRegs .mulh ty d a b) s
def execDiv (ty : Ty) (d a b : GReg) (s : State) : Host.Outcome State Fault Refusal := perform .any (.div ty d a b) (aluRegs .div ty d a b) s
def execRem (ty : Ty) (d a b : GReg) (s : State) : Host.Outcome State Fault Refusal := perform .any (.rem ty d a b) (aluRegs .rem ty d a b) s
def execAnd (ty : Ty) (d a b : GReg) (s : State) : Host.Outcome State Fault Refusal := perform .any (.and ty d a b) (aluRegs .and_ ty d a b) s
def execOr (ty : Ty) (d a b : GReg) (s : State) : Host.Outcome State Fault Refusal := perform .any (.or ty d a b) (aluRegs .or_ ty d a b) s
def execXor (ty : Ty) (d a b : GReg) (s : State) : Host.Outcome State Fault Refusal := perform .any (.xor ty d a b) (aluRegs .xor_ ty d a b) s
def execAndn (ty : Ty) (d a b : GReg) (s : State) : Host.Outcome State Fault Refusal := perform .any (.andn ty d a b) (aluRegs .andn ty d a b) s
def execShl (ty : Ty) (d a b : GReg) (s : State) : Host.Outcome State Fault Refusal := perform .any (.shl ty d a b) (aluRegs .shl ty d a b) s
def execShr (ty : Ty) (d a b : GReg) (s : State) : Host.Outcome State Fault Refusal := perform .any (.shr ty d a b) (aluRegs .shr ty d a b) s
def execSar (ty : Ty) (d a b : GReg) (s : State) : Host.Outcome State Fault Refusal := perform .any (.sar ty d a b) (aluRegs .sar ty d a b) s
def execRol (ty : Ty) (d a b : GReg) (s : State) : Host.Outcome State Fault Refusal := perform .any (.rol ty d a b) (aluRegs .rol ty d a b) s
def execMin (ty : Ty) (d a b : GReg) (s : State) : Host.Outcome State Fault Refusal := perform .any (.min ty d a b) (aluRegs .min_ ty d a b) s
def execMax (ty : Ty) (d a b : GReg) (s : State) : Host.Outcome State Fault Refusal := perform .any (.max ty d a b) (aluRegs .max_ ty d a b) s
def execSlt (ty : Ty) (d a b : GReg) (s : State) : Host.Outcome State Fault Refusal := perform .any (.slt ty d a b) (aluRegs .slt ty d a b) s
def execSeq (ty : Ty) (d a b : GReg) (s : State) : Host.Outcome State Fault Refusal := perform .any (.seq ty d a b) (aluRegs .seq ty d a b) s
def execSne (ty : Ty) (d a b : GReg) (s : State) : Host.Outcome State Fault Refusal := perform .any (.sne ty d a b) (aluRegs .sne ty d a b) s

/-- `clz`, `ctz`, `popc`: counts of the low Width(TY) bits (R254). -/
def execClz (ty : Ty) (d a : GReg) (s : State) : Host.Outcome State Fault Refusal :=
  perform .any (.clz ty d a) (unaryG d a fun x => BitVec.ofNat 64 (leadingZeros ty.width (x.toNat % 2 ^ ty.width))) s
def execCtz (ty : Ty) (d a : GReg) (s : State) : Host.Outcome State Fault Refusal :=
  perform .any (.ctz ty d a) (unaryG d a fun x => BitVec.ofNat 64 (trailingZeros ty.width (x.toNat % 2 ^ ty.width))) s
def execPopc (ty : Ty) (d a : GReg) (s : State) : Host.Outcome State Fault Refusal :=
  perform .any (.popc ty d a) (unaryG d a fun x => BitVec.ofNat 64 (countOnes ty.width (x.toNat % 2 ^ ty.width))) s

/-- `ext` (R254). -/
def execExt (ty : Ty) (d a b c : GReg) (s : State) : Host.Outcome State Fault Refusal :=
  perform .any (.ext ty d a b c) (do
    let x ← regG a
    let y ← regG b
    let z ← regG c
    let p ← consume [uG a, uG b, uG c]
    setG d (extField (signed ty) x y z) p
    pure .seq) s

/-- `sel`: all 64 bits of C are tested (R254). -/
def execSel (ty : Ty) (d a b c : GReg) (s : State) : Host.Outcome State Fault Refusal :=
  perform .any (.sel ty d a b c) (do
    let x ← regG a
    let y ← regG b
    let z ← regG c
    let p ← consume [uG a, uG b, uG c]
    setG d (extW ty (if z ≠ 0 then x else y)) p
    pure .seq) s

/-- `mov` (R254). -/
def execMov (ty : Ty) (d a : GReg) (s : State) : Host.Outcome State Fault Refusal :=
  perform .any (.mov ty d a) (unaryG d a (extW ty)) s

def execAluiAdd (ty : Ty) (d a : GReg) (imm : BitVec 24) (s : State) : Host.Outcome State Fault Refusal := perform .any (.aluiAdd ty d a imm) (aluImm .add ty d a (imm24 imm)) s
def execAluiAnd (ty : Ty) (d a : GReg) (imm : BitVec 24) (s : State) : Host.Outcome State Fault Refusal := perform .any (.aluiAnd ty d a imm) (aluImm .and_ ty d a (imm24 imm)) s
def execAluiOr (ty : Ty) (d a : GReg) (imm : BitVec 24) (s : State) : Host.Outcome State Fault Refusal := perform .any (.aluiOr ty d a imm) (aluImm .or_ ty d a (imm24 imm)) s
def execAluiXor (ty : Ty) (d a : GReg) (imm : BitVec 24) (s : State) : Host.Outcome State Fault Refusal := perform .any (.aluiXor ty d a imm) (aluImm .xor_ ty d a (imm24 imm)) s
def execAluiShl (ty : Ty) (d a : GReg) (imm : BitVec 24) (s : State) : Host.Outcome State Fault Refusal := perform .any (.aluiShl ty d a imm) (aluImm .shl ty d a (imm24 imm)) s
def execAluiShr (ty : Ty) (d a : GReg) (imm : BitVec 24) (s : State) : Host.Outcome State Fault Refusal := perform .any (.aluiShr ty d a imm) (aluImm .shr ty d a (imm24 imm)) s
def execAluiSar (ty : Ty) (d a : GReg) (imm : BitVec 24) (s : State) : Host.Outcome State Fault Refusal := perform .any (.aluiSar ty d a imm) (aluImm .sar ty d a (imm24 imm)) s
def execAluiRol (ty : Ty) (d a : GReg) (imm : BitVec 24) (s : State) : Host.Outcome State Fault Refusal := perform .any (.aluiRol ty d a imm) (aluImm .rol ty d a (imm24 imm)) s
def execAluiMin (ty : Ty) (d a : GReg) (imm : BitVec 24) (s : State) : Host.Outcome State Fault Refusal := perform .any (.aluiMin ty d a imm) (aluImm .min_ ty d a (imm24 imm)) s
def execAluiMax (ty : Ty) (d a : GReg) (imm : BitVec 24) (s : State) : Host.Outcome State Fault Refusal := perform .any (.aluiMax ty d a imm) (aluImm .max_ ty d a (imm24 imm)) s
def execAluiSlt (ty : Ty) (d a : GReg) (imm : BitVec 24) (s : State) : Host.Outcome State Fault Refusal := perform .any (.aluiSlt ty d a imm) (aluImm .slt ty d a (imm24 imm)) s
def execAluiSeq (ty : Ty) (d a : GReg) (imm : BitVec 24) (s : State) : Host.Outcome State Fault Refusal := perform .any (.aluiSeq ty d a imm) (aluImm .seq ty d a (imm24 imm)) s
def execAluiSne (ty : Ty) (d a : GReg) (imm : BitVec 24) (s : State) : Host.Outcome State Fault Refusal := perform .any (.aluiSne ty d a imm) (aluImm .sne ty d a (imm24 imm)) s

/-- `li` (R256). -/
def execLi (ty : Ty) (d : GReg) (imm : BitVec 24) (s : State) : Host.Outcome State Fault Refusal :=
  perform .any (.li ty d imm) (do
    setG d (ext ty (imm24 imm)) false
    pure .seq) s

/-- The ALUL group (R257). -/
def execAddl (ty : Ty) (d a : GReg) (imm : BitVec 32) (s : State) : Host.Outcome State Fault Refusal := perform .any (.addl ty d a imm) (aluImm .add ty d a (imm32 imm)) s
def execAndl (ty : Ty) (d a : GReg) (imm : BitVec 32) (s : State) : Host.Outcome State Fault Refusal := perform .any (.andl ty d a imm) (aluImm .and_ ty d a (imm32 imm)) s
def execOrl (ty : Ty) (d a : GReg) (imm : BitVec 32) (s : State) : Host.Outcome State Fault Refusal := perform .any (.orl ty d a imm) (aluImm .or_ ty d a (imm32 imm)) s
def execXorl (ty : Ty) (d a : GReg) (imm : BitVec 32) (s : State) : Host.Outcome State Fault Refusal := perform .any (.xorl ty d a imm) (aluImm .xor_ ty d a (imm32 imm)) s
def execLil (ty : Ty) (d : GReg) (imm : BitVec 32) (s : State) : Host.Outcome State Fault Refusal :=
  perform .any (.lil ty d imm) (do
    setG d (ext ty (imm32 imm)) false
    pure .seq) s
/-- `lih`: EXT32 × 2^32 + (Reg(A) mod 2^32). -/
def execLih (d a : GReg) (imm : BitVec 32) (s : State) : Host.Outcome State Fault Refusal :=
  perform .any (.lih d a imm) (unaryG d a fun x => imm ++ x.setWidth 32) s

/-- `padd`, `paddi`, `paddl`: sums modulo 2^72 (R258). -/
def execPadd (d a : PReg) (b : GReg) (s : State) : Host.Outcome State Fault Refusal :=
  perform .any (.padd d a b) (do
    let x ← regP a
    let y ← regG b
    let p ← consume [uP a, uG b]
    setP d (x + y.signExtend 72) p
    pure .seq) s
def execPaddi (d a : PReg) (imm : BitVec 24) (s : State) : Host.Outcome State Fault Refusal :=
  perform .any (.paddi d a imm) (do
    let x ← regP a
    let p ← consume [uP a]
    setP d (x + imm.signExtend 72) p
    pure .seq) s
def execPaddl (d a : PReg) (imm : BitVec 32) (s : State) : Host.Outcome State Fault Refusal :=
  perform .any (.paddl d a imm) (do
    let x ← regP a
    let p ← consume [uP a]
    setP d (x + imm.signExtend 72) p
    pure .seq) s
/-- `psub` (R258). -/
def execPsub (d : GReg) (a b : PReg) (s : State) : Host.Outcome State Fault Refusal :=
  perform .any (.psub d a b) (do
    let x ← regP a
    let y ← regP b
    let p ← consume [uP a, uP b]
    setG d ((x - y).setWidth 64) p
    pure .seq) s
/-- `plea` (R258). -/
def execPlea (d b : PReg) (off : BitVec 21) (s : State) : Host.Outcome State Fault Refusal :=
  perform .any (.plea d b off) (do
    let x ← regP b
    let p ← consume [uP b]
    setP d (ea x off) p
    pure .seq) s
/-- `pmov`: from a p register, or from a g register under the upper bits of the program counter (R258). -/
def execPmov (d : PReg) (fromG : Bool) (a : GReg) (s : State) : Host.Outcome State Fault Refusal :=
  perform .any (.pmov d fromG a) (do
    let c ← getCtx
    if fromG then
      let p ← consume [uG a]
      setP d (c.pc.extractLsb' 64 8 ++ c.readG a.toNat) p
    else
      let p ← consume [uP (a.setWidth 4)]
      setP d (c.readP (a.setWidth 4 : PReg).toNat) p
    pure .seq) s
def execPlo (d : GReg) (a : PReg) (s : State) : Host.Outcome State Fault Refusal :=
  perform .any (.plo d a) (do
    let x ← regP a
    let p ← consume [uP a]
    setG d (x.setWidth 64) p
    pure .seq) s
def execPhi (d : GReg) (a : PReg) (s : State) : Host.Outcome State Fault Refusal :=
  perform .any (.phi d a) (do
    let x ← regP a
    let p ← consume [uP a]
    setG d ((x.extractLsb' 64 8).setWidth 64) p
    pure .seq) s
/-- `ploc`: an address of local space (R258, R259). -/
def execPloc (d : PReg) (hi : Byte) (lo : BitVec 32) (s : State) : Host.Outcome State Fault Refusal :=
  perform .any (.ploc d hi lo) (do
    setP d (0xFF#8 ++ 0#24 ++ hi ++ lo) false
    pure .seq) s

/-- A condition between two numbers that are never unordered (R220). -/
def condHolds (c : Cond) (a b : Int) : Bool :=
  match c with
  | .eq => a = b
  | .ne => a ≠ b
  | .lt => a < b
  | .le => a ≤ b
  | .gt => b < a
  | .ge => b ≤ a
  | .un => false

/-- `pcmp`: unsigned 72-bit values (R260). -/
def execPcmp (cond : Cond) (d : GReg) (a b : PReg) (s : State) : Host.Outcome State Fault Refusal :=
  perform .any (.pcmp cond d a b) (do
    let x ← regP a
    let y ← regP b
    let p ← consume [uP a, uP b]
    setG d (if condHolds cond x.toNat y.toNat then 1 else 0) p
    pure .seq) s

end Sys2Proof.Machine
end

