-- ==== Sys2Proof/Machine/Fpu.lean ====
section
/-! DEFINITION. Group FPU: scalar floating point (R261 to R267). -/

namespace Sys2Proof.Machine

/-- The low Width(TY) bits of a register, as an element (R182, R261). -/
def elem (ty : Ty) (x : Word) : Nat := x.toNat % 2 ^ ty.width

/-- RoundTo of an exact result with its flags (R262). -/
def roundExact (ty : Ty) (rd : Rounding) (e : Exact) : Res :=
  let r := roundTo ty rd e.1
  (r.1, r.2 ||| e.2)

/-- A float instruction of two sources: the exact result by `f`, rounded once; the draw has index 0 (R262). -/
def fpu2 (f : Rm → Val → Val → Exact) (ty : Ty) (q : FQ) (d a b : GReg) : M Next := do
  let c ← getCtx
  let x ← regG a
  let y ← regG b
  let p ← consume [uG a, uG b]
  let rd := c.rounding q 0
  let r := roundExact ty rd (f rd.rm (value ty (elem ty x)) (value ty (elem ty y)))
  setG d (BitVec.ofNat 64 r.1) p
  setFlags r.2
  pure .seq

/-- `fma` and `fnma`: one rounding (R262). -/
def fpu3 (negate : Bool) (ty : Ty) (q : FQ) (d a b c : GReg) : M Next := do
  let k ← getCtx
  let x ← regG a
  let y ← regG b
  let z ← regG c
  let p ← consume [uG a, uG b, uG c]
  let rd := k.rounding q 0
  let va := value ty (elem ty x)
  let va := if negate then va.neg else va
  let r := roundExact ty rd (fmaV rd.rm va (value ty (elem ty y)) (value ty (elem ty z)))
  setG d (BitVec.ofNat 64 r.1) p
  setFlags r.2
  pure .seq

def execFadd (ty : Ty) (q : FQ) (d a b : GReg) (s : State) : Host.Outcome State Fault Refusal :=
  perform .any (.fadd ty q d a b) (fpu2 addV ty q d a b) s
def execFsub (ty : Ty) (q : FQ) (d a b : GReg) (s : State) : Host.Outcome State Fault Refusal :=
  perform .any (.fsub ty q d a b) (fpu2 (fun rm x y => addV rm x y.neg) ty q d a b) s
def execFmul (ty : Ty) (q : FQ) (d a b : GReg) (s : State) : Host.Outcome State Fault Refusal :=
  perform .any (.fmul ty q d a b) (fpu2 (fun _ x y => mulV x y) ty q d a b) s
def execFdiv (ty : Ty) (q : FQ) (d a b : GReg) (s : State) : Host.Outcome State Fault Refusal :=
  perform .any (.fdiv ty q d a b) (fpu2 (fun _ x y => divV x y) ty q d a b) s
def execFma (ty : Ty) (q : FQ) (d a b c : GReg) (s : State) : Host.Outcome State Fault Refusal :=
  perform .any (.fma ty q d a b c) (fpu3 false ty q d a b c) s
def execFnma (ty : Ty) (q : FQ) (d a b c : GReg) (s : State) : Host.Outcome State Fault Refusal :=
  perform .any (.fnma ty q d a b c) (fpu3 true ty q d a b c) s
def execFsqrt (ty : Ty) (q : FQ) (d a : GReg) (s : State) : Host.Outcome State Fault Refusal :=
  perform .any (.fsqrt ty q d a) (fpu2 (fun _ x _ => sqrtV x) ty q d a a) s

/-- `fmin` and `fmax` (R182, R263): the pattern of the chosen input; nothing is rounded. -/
def fpuPick (wantMax : Bool) (ty : Ty) (d a b : GReg) : M Next := do
  let x ← regG a
  let y ← regG b
  let p ← consume [uG a, uG b]
  let r := roundExact ty ⟨.rne, false, 0⟩ (pickV wantMax (value ty (elem ty x)) (value ty (elem ty y)))
  setG d (BitVec.ofNat 64 r.1) p
  setFlags r.2
  pure .seq

def execFmin (ty : Ty) (d a b : GReg) (s : State) : Host.Outcome State Fault Refusal :=
  perform .any (.fmin ty d a b) (fpuPick false ty d a b) s
def execFmax (ty : Ty) (d a b : GReg) (s : State) : Host.Outcome State Fault Refusal :=
  perform .any (.fmax ty d a b) (fpuPick true ty d a b) s

/-- The sign bit of an element. -/
def signBit (ty : Ty) (n : Nat) : Bool := n / 2 ^ (ty.width - 1) % 2 = 1

/-- A sign instruction on an element: the magnitude of `n` with sign `neg`; a NaN gives the canonical NaN, with NV when
signalling; a bf16 subnormal is zero (R263). -/
def withSign (ty : Ty) (n : Nat) (neg : Bool) : Res :=
  match value ty n with
  | .nan sig => ((fmtOf ty).nan, if sig then fNV else 0)
  | .inf _ => ((fmtOf ty).signed neg (fmtOf ty).infPat, 0)
  | .num _ m _ _ => ((fmtOf ty).signed neg (if m = 0 then 0 else n % 2 ^ (ty.width - 1)), 0)

/-- A one-source sign instruction. -/
def fpuSign (f : Nat → Res) (ty : Ty) (d a : GReg) : M Next := do
  let x ← regG a
  let p ← consume [uG a]
  let r := f (elem ty x)
  setG d (BitVec.ofNat 64 r.1) p
  setFlags r.2
  pure .seq

def execFabs (ty : Ty) (d a : GReg) (s : State) : Host.Outcome State Fault Refusal :=
  perform .any (.fabs ty d a) (fpuSign (fun n => withSign ty n false) ty d a) s
def execFneg (ty : Ty) (d a : GReg) (s : State) : Host.Outcome State Fault Refusal :=
  perform .any (.fneg ty d a) (fpuSign (fun n => withSign ty n (!signBit ty n)) ty d a) s

/-- `fsgn`: the sign of a NaN b is taken as it stands; a signalling NaN b sets NV (R166, R263). -/
def execFsgn (ty : Ty) (d a b : GReg) (s : State) : Host.Outcome State Fault Refusal :=
  perform .any (.fsgn ty d a b) (do
    let x ← regG a
    let y ← regG b
    let p ← consume [uG a, uG b]
    let r := withSign ty (elem ty x) (signBit ty (elem ty y))
    setG d (BitVec.ofNat 64 r.1) p
    setFlags (r.2 ||| nvOf [value ty (elem ty y)])
    pure .seq) s

/-- `fcmp` (R264). -/
def execFcmp (ty : Ty) (cond : Cond) (d a b : GReg) (s : State) : Host.Outcome State Fault Refusal :=
  perform .any (.fcmp ty cond d a b) (do
    let x ← regG a
    let y ← regG b
    let p ← consume [uG a, uG b]
    let r := fcmpV cond (value ty (elem ty x)) (value ty (elem ty y))
    setG d (if r.1 then 1 else 0) p
    setFlags r.2
    pure .seq) s

/-- The result of a conversion, extended by R182 or R189. -/
def extendResult (ty : Ty) (n : Nat) : Word := if ty.isInt then ext ty n else BitVec.ofNat 64 n

/-- `fcvt` (R265, R183). -/
def execFcvt (dty sty : Ty) (q : FQ) (d a : GReg) (s : State) : Host.Outcome State Fault Refusal :=
  perform .any (.fcvt dty sty q d a) (do
    let c ← getCtx
    let x ← regG a
    let p ← consume [uG a]
    let v := value sty (elem sty x)
    let r := roundTo dty (c.rounding q 0) v
    setG d (extendResult dty r.1) p
    setFlags (r.2 ||| nvOf [v])
    pure .seq) s

/-- `fclass` (R266). -/
def execFclass (ty : Ty) (d a : GReg) (s : State) : Host.Outcome State Fault Refusal :=
  perform .any (.fclass ty d a) (do
    let x ← regG a
    let p ← consume [uG a]
    setG d (BitVec.ofNat 64 (2 ^ classOf ty (elem ty x))) p
    pure .seq) s

/-- `fmovi`: the literal converted by RNE; no flag (R186, R267). -/
def execFmovi (ty : Ty) (d : GReg) (lit : BitVec 32) (s : State) : Host.Outcome State Fault Refusal :=
  perform .any (.fmovi ty d lit) (do
    setG d (BitVec.ofNat 64 (roundTo ty ⟨.rne, false, 0⟩ (decodeFmt (fmtOf .f32) lit.toNat)).1) false
    pure .seq) s

end Sys2Proof.Machine
end

