-- ==== Sys2Proof/Machine/Vector.lean ====
section
/-! DEFINITION. Groups VALU, VMASK, VSF, VPERM and VCVT: vector arithmetic, masks, special functions, permutations and
conversions (R318 to R331). -/

namespace Sys2Proof.Machine

/-! ### Vector and mask registers, tags and lanes (R169, R318 to R320) -/

def Core.vreg (k : Core) (r : Nat) : VRegState := Assoc.get VRegState.reset k.v r
def getV (r : VReg) : M VRegState := do
  let k ← getCore
  pure (k.vreg r.toNat)
def putV (r : Nat) (x : VRegState) : M Unit := modCore fun k => { k with v := Assoc.set VRegState.reset k.v r x }

/-- The tag (kind, TY) (R169). -/
def tagOf (k : Kind) (ty : Ty) : BitVec 6 := k.code ++ ty.code
def plainTag (ty : Ty) : BitVec 6 := tagOf .none ty
def emptyTag : BitVec 6 := 0x30

/-- The type and kind of a tag; none for the empty tag (R169). -/
def tagTy (t : BitVec 6) : Option (Kind × Ty) :=
  match t.toNat / 16 with
  | 0 => some (.none, tyOfCode (t.setWidth 4))
  | 1 => some (.mx, tyOfCode (t.setWidth 4))
  | 2 => some (.ws, tyOfCode (t.setWidth 4))
  | _ => none
where
  tyOfCode (b : BitVec 4) : Ty :=
    match b.toNat with
    | 0 => .i8 | 1 => .i16 | 2 => .i32 | 3 => .i64 | 4 => .n8 | 5 => .n16 | 6 => .n32 | 7 => .n64
    | 8 => .f32 | 9 => .f16 | 10 => .bf16 | 11 => .e4m3 | 12 => .e5m2 | 13 => .e3m2 | 14 => .e2m3 | _ => .e2m1

/-- A tag that a register may hold (R169). -/
def tagValid (t : BitVec 6) : Bool :=
  t = emptyTag ||
    match tagTy t with
    | some (.none, _) => true
    | some (_, ty) => ty = .i8 || 11 ≤ ty.code.toNat
    | none => false

/-- CheckTag of a source (R170, R320). -/
def checkTag (r : VReg) (x : VRegState) (ok : BitVec 6 → Bool) : M Unit :=
  if ok x.tag then pure () else trap .formatMismatch (BitVec.ofNat 64 (uV r))

/-- A source register of tag (none, TY). -/
def source (r : VReg) (ty : Ty) : M VRegState := do
  let x ← getV r
  checkTag r x (· = plainTag ty)
  pure x

def allOnes : Mask := BitVec.allOnes 512
/-- k0 reads as 512 ones (R319). -/
def Core.mask (k : Core) (r : Nat) : Mask := if r = 0 then allOnes else Assoc.get 0 k.k r
def getK (r : KReg) : M Mask := do
  let k ← getCore
  pure (k.mask r.toNat)
/-- Marks of mask registers stand beside those of the unified registers (R191). -/
def uK (r : KReg) : Nat := if r = 0 then 0 else 64 + r.toNat
def putK (r : KReg) (x : Mask) (p : Bool) : M Unit := do
  modCore fun k => { k with k := Assoc.set 0 k.k r.toNat x }
  modCtx fun c => c.mark (64 + r.toNat) p

/-- The 32-byte sector of lane `j` of width `w`. -/
def sectorOf (w j : Nat) : Nat := w * j / 256

/-- The sectors of the lanes that `sel` selects. -/
def sectorsOf (w : Nat) (sel : Nat → Bool) : BitVec 8 :=
  (List.range (laneCount w)).foldl (fun m j => if sel j then m ||| (1#8 <<< sectorOf w j) else m) 0

/-- Reads some sectors of vector registers, and a scalar or mask register: the marks of the result's sectors, and
CIR.POISON when there is one (R193). -/
def eatMarks (sel : BitVec 8) (xs : List VRegState) (scalar : Bool) : M (BitVec 8) := do
  let m := xs.foldl (fun m x => m ||| x.marks) 0 &&& sel
  if m ≠ 0 then eat cirPoison
  pure (if scalar then 0xFF else m)

/-- Any mark marks the whole destination (R193). -/
def wholly (m : BitVec 8) : BitVec 8 := if m = 0 then 0 else 0xFF

/-- Writes lanes of D (R319): lanes that are not written keep their old data when the tag stays the same, and become zero
otherwise. `marks` are those of the sources. -/
def writeLanes (d : VReg) (tag : BitVec 6) (w : Nat) (new : List (Option Nat)) (marks : BitVec 8) (whole : Bool) : M Unit := do
  let old ← getV d
  let same := old.tag = tag
  let data := ofLanes w (((List.range (laneCount w)).zip new).map fun (j, x) =>
    match x with
    | some n => n
    | none => if same then lane w old.data j else 0)
  let isNew (j : Nat) : Bool := (new.getD j none).isSome
  let fresh := if whole then marks else marks &&& sectorsOf w isNew
  let kept := if same then old.marks &&& sectorsOf w (fun j => !isNew j) else 0
  putV d.toNat { old with data := data, tag := tag, marks := fresh ||| kept }

/-! ### VALU (R322, R323) -/

/-- A lane's result and flags by its index. -/
abbrev LaneOp := Nat → Res

/-- The lane results that a mask selects, with all their flags (R190, R319). -/
def selected (w : Nat) (m : Mask) (f : LaneOp) : List (Option Nat) × Flags :=
  let rs := (List.range (laneCount w)).map fun j => if m.getLsbD j then some (f j) else none
  (rs.map fun r => r.map (·.1), rs.foldl (fun a r => match r with | some x => a ||| x.2 | none => a) 0)

/-- A lane-wise instruction: lanes of width `w`, with sources already read. -/
def laneWise (d : VReg) (tag : BitVec 6) (w : Nat) (k : KReg) (xs : List VRegState) (scalar : List Nat) (f : LaneOp) : M Next := do
  let m ← getK k
  let p ← consume (uK k :: scalar)
  let marks ← eatMarks (sectorsOf w m.getLsbD) xs p
  let r := selected w m f
  writeLanes d tag w r.1 marks false
  setFlags r.2
  pure .seq

/-- A float result of lane `j` (R322). -/
def floatLane (c : Ctx) (ty : Ty) (q : FQ) (j : Nat) (e : Rm → Exact) : Res :=
  let rd := c.rounding q j
  roundExact ty rd (e rd.rm)

/-- An integer result, exact modulo 2^width. -/
def intLane (ty : Ty) (x : Int) : Res := ((x % (2 ^ ty.width : Int)).toNat, 0)

/-- Two-source arithmetic: `i` on integers, `f` on floats. -/
def valu2 (i : AluOp) (f : Rm → Val → Val → Exact) (ty : Ty) (q : FQ) (d a b : VReg) (k : KReg) : M Next := do
  let x ← source a ty
  let y ← source b ty
  let c ← getCtx
  let w := ty.laneWidth
  laneWise d (plainTag ty) w k [x, y] [] fun j =>
    if ty.isInt then intLane ty (aluOp i ty (valueOf ty (lane w x.data j)) (valueOf ty (lane w y.data j)))
    else floatLane c ty q j fun rm => f rm (value ty (lane w x.data j)) (value ty (lane w y.data j))

def execVadd (ty : Ty) (q : FQ) (d a b : VReg) (k : KReg) (s : State) : Host.Outcome State Fault Refusal :=
  perform .vector (.vadd ty q d a b k) (valu2 .add addV ty q d a b k) s
def execVsub (ty : Ty) (q : FQ) (d a b : VReg) (k : KReg) (s : State) : Host.Outcome State Fault Refusal :=
  perform .vector (.vsub ty q d a b k) (valu2 .sub (fun rm x y => addV rm x y.neg) ty q d a b k) s
def execVmul (ty : Ty) (q : FQ) (d a b : VReg) (k : KReg) (s : State) : Host.Outcome State Fault Refusal :=
  perform .vector (.vmul ty q d a b k) (valu2 .mul (fun _ x y => mulV x y) ty q d a b k) s
def execVdiv (ty : Ty) (q : FQ) (d a b : VReg) (k : KReg) (s : State) : Host.Outcome State Fault Refusal :=
  perform .vector (.vdiv ty q d a b k) (valu2 .div (fun _ x y => divV x y) ty q d a b k) s

/-- `vfma` and `vfnma`: one rounding. -/
def valuFma (negate : Bool) (ty : Ty) (q : FQ) (d a b c : VReg) (k : KReg) : M Next := do
  let x ← source a ty
  let y ← source b ty
  let z ← source c ty
  let t ← getCtx
  let w := ty.laneWidth
  laneWise d (plainTag ty) w k [x, y, z] [] fun j =>
    if ty.isInt then
      let p := valueOf ty (lane w x.data j) * valueOf ty (lane w y.data j)
      intLane ty ((if negate then -p else p) + valueOf ty (lane w z.data j))
    else
      let v := value ty (lane w x.data j)
      floatLane t ty q j fun rm => fmaV rm (if negate then v.neg else v) (value ty (lane w y.data j)) (value ty (lane w z.data j))

def execVfma (ty : Ty) (q : FQ) (d a b c : VReg) (k : KReg) (s : State) : Host.Outcome State Fault Refusal :=
  perform .vector (.vfma ty q d a b c k) (valuFma false ty q d a b c k) s
def execVfnma (ty : Ty) (q : FQ) (d a b c : VReg) (k : KReg) (s : State) : Host.Outcome State Fault Refusal :=
  perform .vector (.vfnma ty q d a b c k) (valuFma true ty q d a b c k) s

/-- No rounding happens: a result already in the format. -/
def exactQ : FQ := ⟨.rne, false⟩

def execVmin (ty : Ty) (d a b : VReg) (k : KReg) (s : State) : Host.Outcome State Fault Refusal :=
  perform .vector (.vmin ty d a b k) (valu2 .min_ (fun _ x y => pickV false x y) ty exactQ d a b k) s
def execVmax (ty : Ty) (d a b : VReg) (k : KReg) (s : State) : Host.Outcome State Fault Refusal :=
  perform .vector (.vmax ty d a b k) (valu2 .max_ (fun _ x y => pickV true x y) ty exactQ d a b k) s

/-- One-source arithmetic: `i` on integers, `f` on float encodings. -/
def valu1 (i : Int → Int) (f : Nat → Res) (ty : Ty) (d a : VReg) (k : KReg) : M Next := do
  let x ← source a ty
  let w := ty.laneWidth
  laneWise d (plainTag ty) w k [x] [] fun j =>
    if ty.isInt then intLane ty (i (valueOf ty (lane w x.data j))) else f (lane w x.data j)

/-- |a|; the signed minimum gives itself. -/
def execVabs (ty : Ty) (d a : VReg) (k : KReg) (s : State) : Host.Outcome State Fault Refusal :=
  perform .vector (.vabs ty d a k) (valu1 (fun x => (x.natAbs : Int)) (fun n => withSign ty n false) ty d a k) s
def execVneg (ty : Ty) (d a : VReg) (k : KReg) (s : State) : Host.Outcome State Fault Refusal :=
  perform .vector (.vneg ty d a k) (valu1 (fun x => -x) (fun n => withSign ty n (!signBit ty n)) ty d a k) s

/-- Integer operations of two sources (TY 0–7). -/
def valuInt (i : AluOp) (ty : Ty) (d a b : VReg) (k : KReg) : M Next := valu2 i (fun _ x _ => (x, 0)) ty exactQ d a b k

def execVand (ty : Ty) (d a b : VReg) (k : KReg) (s : State) : Host.Outcome State Fault Refusal :=
  perform .vector (.vand ty d a b k) (valuInt .and_ ty d a b k) s
def execVor (ty : Ty) (d a b : VReg) (k : KReg) (s : State) : Host.Outcome State Fault Refusal :=
  perform .vector (.vor ty d a b k) (valuInt .or_ ty d a b k) s
def execVxor (ty : Ty) (d a b : VReg) (k : KReg) (s : State) : Host.Outcome State Fault Refusal :=
  perform .vector (.vxor ty d a b k) (valuInt .xor_ ty d a b k) s
def execVshl (ty : Ty) (d a b : VReg) (k : KReg) (s : State) : Host.Outcome State Fault Refusal :=
  perform .vector (.vshl ty d a b k) (valuInt .shl ty d a b k) s
def execVshr (ty : Ty) (d a b : VReg) (k : KReg) (s : State) : Host.Outcome State Fault Refusal :=
  perform .vector (.vshr ty d a b k) (valuInt .shr ty d a b k) s
def execVsar (ty : Ty) (d a b : VReg) (k : KReg) (s : State) : Host.Outcome State Fault Refusal :=
  perform .vector (.vsar ty d a b k) (valuInt .sar ty d a b k) s

/-- `vmov` (R323): with k0 the whole register; otherwise the lanes of A's tag, and the sidecar when the tag stays. -/
def execVmov (d a : VReg) (k : KReg) (s : State) : Host.Outcome State Fault Refusal :=
  perform .vector (.vmov d a k) (do
    let x ← getV a
    if k = 0 then
      let _ ← eatMarks 0xFF [x] false
      putV d.toNat x
      pure .seq
    else
      match tagTy x.tag with
      | none => trap .formatMismatch (BitVec.ofNat 64 (uV a))
      | some (_, ty) =>
        let old ← getV d
        let r ← laneWise d x.tag ty.laneWidth k [x] [] fun j => (lane ty.laneWidth x.data j % 2 ^ ty.width, 0)
        if old.tag = x.tag then
          let y ← getV d
          putV d.toNat { y with side := x.side }
        pure r) s

def execVbcast (ty : Ty) (d : VReg) (a : GReg) (k : KReg) (s : State) : Host.Outcome State Fault Refusal :=
  perform .vector (.vbcast ty d a k) (do
    let x ← regG a
    laneWise d (plainTag ty) ty.laneWidth k [] [uG a] fun _ => (x.toNat % 2 ^ ty.width, 0)) s

/-- `vsel`: both sources hold one tag whose type is TY; D takes it and A's sidecar. -/
def execVsel (ty : Ty) (d a b : VReg) (k : KReg) (s : State) : Host.Outcome State Fault Refusal :=
  perform .vector (.vsel ty d a b k) (do
    let x ← getV a
    let y ← getV b
    checkTag a x fun t => (tagTy t).any fun p => p.2 = ty
    checkTag b y (· = x.tag)
    let m ← getK k
    let p ← consume [uK k]
    let marks ← eatMarks 0xFF [x, y] p
    let w := ty.laneWidth
    writeLanes d x.tag w ((List.range (laneCount w)).map fun j => some (lane w (if m.getLsbD j then x.data else y.data) j % 2 ^ ty.width)) marks false
    let z ← getV d
    putV d.toNat { z with side := x.side }
    pure .seq) s

def execVidx (ty : Ty) (d : VReg) (a : GReg) (k : KReg) (s : State) : Host.Outcome State Fault Refusal :=
  perform .vector (.vidx ty d a k) (do
    let x ← regG a
    laneWise d (plainTag ty) ty.laneWidth k [] [uG a] fun j =>
      if ty.isInt then intLane ty (x.toNat + j)
      else
        let v : Int := x.toInt + j
        roundTo ty ⟨.rne, false, 0⟩ (.num (v < 0) v.natAbs 0 false)) s

/-- `vclamp`: min(max(a, b), c). -/
def execVclamp (ty : Ty) (d a b c : VReg) (k : KReg) (s : State) : Host.Outcome State Fault Refusal :=
  perform .vector (.vclamp ty d a b c k) (do
    let x ← source a ty
    let y ← source b ty
    let z ← source c ty
    let w := ty.laneWidth
    laneWise d (plainTag ty) w k [x, y, z] [] fun j =>
      if ty.isInt then
        intLane ty (aluOp .min_ ty (aluOp .max_ ty (valueOf ty (lane w x.data j)) (valueOf ty (lane w y.data j))) (valueOf ty (lane w z.data j)))
      else
        let hi := pickV true (value ty (lane w x.data j)) (value ty (lane w y.data j))
        let lo := pickV false hi.1 (value ty (lane w z.data j))
        roundExact ty ⟨.rne, false, 0⟩ (lo.1, hi.2 ||| lo.2)) s

/-! ### VMASK (R324) -/

/-- A mask from its bits. -/
def maskOf (f : Nat → Bool) (n : Nat) : Mask := BitVec.ofNat 512 ((List.range n).foldr (fun j acc => (if f j then 1 else 0) + 2 * acc) 0)

/-- The result of a comparison and its flags. -/
def compareLane (ty : Ty) (cond : Cond) (x y : Nat) : Bool × Flags :=
  if ty.isInt then (condHolds cond (valueOf ty x) (valueOf ty y), 0) else fcmpV cond (value ty x) (value ty y)

def execVcmp (ty : Ty) (cond : Cond) (d : KReg) (a b : VReg) (k : KReg) (s : State) : Host.Outcome State Fault Refusal :=
  perform .vector (.vcmp ty cond d a b k) (do
    let x ← source a ty
    let y ← source b ty
    let m ← getK k
    let w := ty.laneWidth
    let p ← consume [uK k]
    let marks ← eatMarks (sectorsOf w m.getLsbD) [x, y] p
    let rs := (List.range (laneCount w)).map fun j =>
      if m.getLsbD j then compareLane ty cond (lane w x.data j) (lane w y.data j) else (false, 0)
    putK d (maskOf (fun j => (rs.getD j (false, 0)).1) (laneCount w)) (marks ≠ 0)
    setFlags (rs.foldl (fun f r => f ||| r.2) 0)
    pure .seq) s

/-- A mask of two masks. -/
def maskOp (f : Mask → Mask → Mask) (d a b : KReg) : M Next := do
  let x ← getK a
  let y ← getK b
  let p ← consume [uK a, uK b]
  putK d (f x y) p
  pure .seq

def execKand (d a b : KReg) (s : State) : Host.Outcome State Fault Refusal := perform .vector (.kand d a b) (maskOp (· &&& ·) d a b) s
def execKor (d a b : KReg) (s : State) : Host.Outcome State Fault Refusal := perform .vector (.kor d a b) (maskOp (· ||| ·) d a b) s
def execKxor (d a b : KReg) (s : State) : Host.Outcome State Fault Refusal := perform .vector (.kxor d a b) (maskOp (· ^^^ ·) d a b) s
def execKnot (d a : KReg) (s : State) : Host.Outcome State Fault Refusal := perform .vector (.knot d a) (maskOp (fun x _ => ~~~x) d a a) s

def execKpop (d : GReg) (a : KReg) (s : State) : Host.Outcome State Fault Refusal :=
  perform .vector (.kpop d a) (do
    let x ← getK a
    let p ← consume [uK a]
    setG d (BitVec.ofNat 64 (countOnes 512 x.toNat)) p
    pure .seq) s

/-- `kset`: 64 bits of D; the others are unchanged. -/
def execKset (d : KReg) (a b : GReg) (s : State) : Host.Outcome State Fault Refusal :=
  perform .vector (.kset d a b) (do
    let x ← regG a
    let i ← regG b
    let old ← getK d
    let p ← consume [uG a, uG b, uK d]
    let n := bits i 2 0
    putK d (putBits old (64 * n + 63) (64 * n) x.toNat) p
    pure .seq) s

def execKget (d : GReg) (a : KReg) (b : GReg) (s : State) : Host.Outcome State Fault Refusal :=
  perform .vector (.kget d a b) (do
    let x ← getK a
    let i ← regG b
    let p ← consume [uK a, uG b]
    let n := bits i 2 0
    setG d (BitVec.ofNat 64 (bits x (64 * n + 63) (64 * n))) p
    pure .seq) s

/-! ### VSF (R325) -/

def special (fn : Fn) (ty : Ty) (q : FQ) (d a : VReg) (k : KReg) : M Next := do
  let x ← source a ty
  let c ← getCtx
  let w := ty.laneWidth
  laneWise d (plainTag ty) w k [x] [] fun j => floatLane c ty q j fun _ => fnV fn (value ty (lane w x.data j))

def execVexp2 (ty : Ty) (q : FQ) (d a : VReg) (k : KReg) (s : State) : Host.Outcome State Fault Refusal := perform .vector (.vexp2 ty q d a k) (special .exp2 ty q d a k) s
def execVlog2 (ty : Ty) (q : FQ) (d a : VReg) (k : KReg) (s : State) : Host.Outcome State Fault Refusal := perform .vector (.vlog2 ty q d a k) (special .log2 ty q d a k) s
def execVrcp (ty : Ty) (q : FQ) (d a : VReg) (k : KReg) (s : State) : Host.Outcome State Fault Refusal := perform .vector (.vrcp ty q d a k) (special .rcp ty q d a k) s
def execVrsqrt (ty : Ty) (q : FQ) (d a : VReg) (k : KReg) (s : State) : Host.Outcome State Fault Refusal := perform .vector (.vrsqrt ty q d a k) (special .rsqrt ty q d a k) s
def execVsqrt (ty : Ty) (q : FQ) (d a : VReg) (k : KReg) (s : State) : Host.Outcome State Fault Refusal := perform .vector (.vsqrt ty q d a k) (special .sqrt ty q d a k) s
def execVsinpi (ty : Ty) (q : FQ) (d a : VReg) (k : KReg) (s : State) : Host.Outcome State Fault Refusal := perform .vector (.vsinpi ty q d a k) (special .sinpi ty q d a k) s
def execVcospi (ty : Ty) (q : FQ) (d a : VReg) (k : KReg) (s : State) : Host.Outcome State Fault Refusal := perform .vector (.vcospi ty q d a k) (special .cospi ty q d a k) s
def execVtanh (ty : Ty) (q : FQ) (d a : VReg) (k : KReg) (s : State) : Host.Outcome State Fault Refusal := perform .vector (.vtanh ty q d a k) (special .tanh ty q d a k) s
def execVsigm (ty : Ty) (q : FQ) (d a : VReg) (k : KReg) (s : State) : Host.Outcome State Fault Refusal := perform .vector (.vsigm ty q d a k) (special .sigm ty q d a k) s
def execVerf (ty : Ty) (q : FQ) (d a : VReg) (k : KReg) (s : State) : Host.Outcome State Fault Refusal := perform .vector (.verf ty q d a k) (special .erf ty q d a k) s

/-! ### VPERM (R187, R326) -/

/-- One level of the tree of R187: nodes 2j and 2j + 1 of the level below, the absent ones passing the other up. `f` combines
two elements at a node index. -/
def treeLevel (f : Nat → Nat → Nat → Res) (level : Nat) : Nat → List (Option Nat) → List (Option Nat) × Flags
  | j, some x :: some y :: t =>
    let r := f (256 * level + j * 2 ^ level) x y
    let u := treeLevel f level (j + 1) t
    (some r.1 :: u.1, r.2 ||| u.2)
  | j, x :: y :: t =>
    let u := treeLevel f level (j + 1) t
    ((if x.isSome then x else y) :: u.1, u.2)
  | _, t => (t, 0)

/-- The tree over 2^n lanes, from level `level` on. -/
def treeReduce (f : Nat → Nat → Nat → Res) : Nat → Nat → List (Option Nat) → Option Nat × Flags
  | 0, _, xs => (xs.headD none, 0)
  | n + 1, level, xs =>
    let r := treeLevel f level 0 xs
    let u := treeReduce f n (level + 1) r.1
    (u.1, r.2 ||| u.2)

/-- A reduction over the selected lanes into a g register; over no lane it is +0. -/
def reduce (f : Nat → Nat → Nat → Res) (ty : Ty) (d : GReg) (a : VReg) (k : KReg) : M Next := do
  let x ← source a ty
  let m ← getK k
  let w := ty.laneWidth
  let p ← consume [uK k]
  let marks ← eatMarks (sectorsOf w m.getLsbD) [x] p
  let r := treeReduce f (Nat.log2 (laneCount w)) 1
    ((List.range (laneCount w)).map fun j => if m.getLsbD j then some (lane w x.data j) else none)
  let n := r.1.getD 0
  setG d (if ty.isInt then ext ty n else BitVec.ofNat 64 n) (marks ≠ 0)
  setFlags r.2
  pure .seq

def execVrsum (ty : Ty) (q : FQ) (d : GReg) (a : VReg) (k : KReg) (s : State) : Host.Outcome State Fault Refusal :=
  perform .vector (.vrsum ty q d a k) (do
    let c ← getCtx
    reduce (fun i x y =>
      if ty.isInt then intLane ty (x + y) else floatLane c ty q i fun rm => addV rm (value ty x) (value ty y)) ty d a k) s

/-- The larger or smaller of two elements. -/
def pickNode (wantMax : Bool) (ty : Ty) (_i x y : Nat) : Res :=
  if ty.isInt then intLane ty (aluOp (if wantMax then .max_ else .min_) ty (valueOf ty x) (valueOf ty y))
  else roundExact ty ⟨.rne, false, 0⟩ (pickV wantMax (value ty x) (value ty y))

def execVrmax (ty : Ty) (d : GReg) (a : VReg) (k : KReg) (s : State) : Host.Outcome State Fault Refusal :=
  perform .vector (.vrmax ty d a k) (reduce (pickNode true ty) ty d a k) s
def execVrmin (ty : Ty) (d : GReg) (a : VReg) (k : KReg) (s : State) : Host.Outcome State Fault Refusal :=
  perform .vector (.vrmin ty d a k) (reduce (pickNode false ty) ty d a k) s

/-- A permutation: lane `j` of D is the element `f j` (R165); a mark of a source marks the whole destination. -/
def permute (ty : Ty) (d : VReg) (k : KReg) (xs : List VRegState) (scalar : List Nat) (f : Nat → Nat) : M Next := do
  let m ← getK k
  let w := ty.laneWidth
  let p ← consume (uK k :: scalar)
  let marks ← eatMarks 0xFF xs p
  writeLanes d (plainTag ty) w (selected w m fun j => (f j % 2 ^ ty.width, 0)).1 (wholly marks) true
  pure .seq

/-- The unsigned type of a lane width. -/
def indexTy (w : Nat) : Ty := match w with | 8 => .n8 | 16 => .n16 | 32 => .n32 | _ => .n64

def execVperm (ty : Ty) (d a b : VReg) (k : KReg) (s : State) : Host.Outcome State Fault Refusal :=
  perform .vector (.vperm ty d a b k) (do
    let w := ty.laneWidth
    let x ← source a ty
    let y ← source b (indexTy w)
    permute ty d k [x, y] [] fun j => lane w x.data (lane w y.data j % laneCount w)) s

def execVrotl (ty : Ty) (d a : VReg) (b : GReg) (k : KReg) (s : State) : Host.Outcome State Fault Refusal :=
  perform .vector (.vrotl ty d a b k) (do
    let w := ty.laneWidth
    let x ← source a ty
    let n ← regG b
    permute ty d k [x] [uG b] fun j => lane w x.data ((j + n.toNat) % laneCount w)) s

def execVzip (ty : Ty) (h : Bool) (d a b : VReg) (k : KReg) (s : State) : Host.Outcome State Fault Refusal :=
  perform .vector (.vzip ty h d a b k) (do
    let w := ty.laneWidth
    let x ← source a ty
    let y ← source b ty
    let base := if h then laneCount w / 2 else 0
    permute ty d k [x, y] [] fun j => lane w (if j % 2 = 0 then x.data else y.data) (j / 2 + base)) s

def execVunzip (ty : Ty) (h : Bool) (d a b : VReg) (k : KReg) (s : State) : Host.Outcome State Fault Refusal :=
  perform .vector (.vunzip ty h d a b k) (do
    let w := ty.laneWidth
    let x ← source a ty
    let y ← source b ty
    let half := laneCount w / 2
    let odd := if h then 1 else 0
    permute ty d k [x, y] [] fun j => if j < half then lane w x.data (2 * j + odd) else lane w y.data (2 * (j - half) + odd)) s

def execVext (ty : Ty) (d : GReg) (a : VReg) (b : GReg) (s : State) : Host.Outcome State Fault Refusal :=
  perform .vector (.vext ty d a b) (do
    let w := ty.laneWidth
    let x ← source a ty
    let n ← regG b
    let p ← consume [uG b]
    let i := n.toNat % laneCount w
    let marks ← eatMarks (1#8 <<< sectorOf w i) [x] p
    let v := lane w x.data i % 2 ^ ty.width
    setG d (if ty.isInt then ext ty v else BitVec.ofNat 64 v) (marks ≠ 0)
    pure .seq) s

def execVins (ty : Ty) (d : VReg) (a b : GReg) (s : State) : Host.Outcome State Fault Refusal :=
  perform .vector (.vins ty d a b) (do
    let w := ty.laneWidth
    let x ← regG a
    let n ← regG b
    let p ← consume [uG a, uG b]
    let i := n.toNat % laneCount w
    writeLanes d (plainTag ty) w ((List.range (laneCount w)).map fun j => if j = i then some (x.toNat % 2 ^ ty.width) else none)
      (if p then 0xFF else 0) false
    pure .seq) s

/-! ### VCVT (R327 to R331) -/

/-- The source lane of destination lane `j` for part `P` (R327): `ls` and `ld` are the lane counts. -/
def partLane (ls ld p j : Nat) : Option Nat :=
  if ls ≤ ld then (if p * ls ≤ j ∧ j < p * ls + ls then some (j - p * ls) else none)
  else some (p * ld + j)

/-- The source sectors that a part reads. -/
def partSectors (ws wd p : Nat) (sel : Nat → Bool) : BitVec 8 :=
  (List.range (laneCount wd)).foldl (fun m j =>
    match partLane (laneCount ws) (laneCount wd) p j with
    | some i => if sel j then m ||| (1#8 <<< sectorOf ws i) else m
    | none => m) 0

/-- How many parts a conversion has. -/
def ratio (ls ld : Nat) : Nat := max ls ld / min ls ld

/-- Converts the lanes of a part: `f` gives destination lane `j` from source lane `i`. -/
def convert (d : VReg) (tag : BitVec 6) (ws wd p : Nat) (k : KReg) (x : VRegState) (f : Nat → Nat → Res) : M Next := do
  let m ← getK k
  let q ← consume [uK k]
  let marks ← eatMarks (partSectors ws wd p m.getLsbD) [x] q
  let rs : List (Option Res) := (List.range (laneCount wd)).map fun j =>
    if m.getLsbD j then (partLane (laneCount ws) (laneCount wd) p j).map fun i => f i j else none
  writeLanes d tag wd (rs.map fun r => r.map (·.1)) (wholly marks) true
  setFlags (rs.foldl (fun a r => match r with | some y => a ||| y.2 | none => a) 0)
  pure .seq

def execVcvt (dty sty : Ty) (q : FQ) (d a : VReg) (part : BitVec 3) (k : KReg) (s : State) : Host.Outcome State Fault Refusal :=
  perform .vector (.vcvt dty sty q d a part k) (do
    let x ← source a sty
    let c ← getCtx
    let ws := sty.laneWidth
    convert d (plainTag dty) ws dty.laneWidth part.toNat k x fun i j =>
      roundTo dty (c.rounding q j) (value sty (lane ws x.data i))) s

/-- emax(F) (R184). -/
def emaxOf : Ty → Int
  | .e4m3 => 8 | .e5m2 => 15 | .e3m2 => 4 | .e2m3 => 2 | .e2m1 => 2
  | .i8 | .i16 | .i32 | .i64 | .n8 | .n16 | .n32 | .n64 | .f32 | .f16 | .bf16 => 0

/-- The largest finite value of an element format under a scale; an i8 element counts 2^−6 (R168, R184, R336). -/
def largest (ty : Ty) : Val := if ty.isInt then .num false 127 (-6) false else decodeFmt (fmtOf ty) (fmtOf ty).maxPat

/-- The largest magnitude among some values that are finite. -/
def amaxOf (xs : List Val) : Val :=
  xs.foldl (fun m x =>
    match x with
    | .num _ a e _ => if cmpV m (.num false a e false) < 0 then .num false a e false else m
    | .inf _ | .nan _ => m) .zero

/-- The scale of a block, as a binary32 slot (R184, step 1). -/
def blockScale (ty : Ty) (kind : Kind) (amax : Val) : Nat :=
  match kind with
  | .ws =>
    if amax.isZero then 0x3F80_0000
    else
      let r := (roundExact .f32 ⟨.rne, false, 0⟩ (divV amax (largest ty))).1
      if r = 0 then 1 else r
  | .mx | .none =>
    match amax with
    | .num _ m e _ =>
      if m = 0 then widenE8M0 0
      else
        let x := topOf m e - emaxOf ty
        widenE8M0 ((if x < -127 then -127 else if 127 < x then 127 else x) + 127).toNat
    | .inf _ | .nan _ => widenE8M0 0xFF

/-- A block's slot and elements (R184); `rd` gives the rounding of its element. -/
def quantBlock (ty : Ty) (kind : Kind) (xs : List Val) (rd : Nat → Rounding) : Nat × List Res :=
  let noInf := ty.isInt || !(fmtOf ty).hasInf
  if xs.any fun x => x.isNaN || (noInf && (match x with | .inf _ => true | .num _ _ _ _ | .nan _ => false)) then
    (0x7FC0_0000, xs.map fun _ => (if ty.isInt || !(fmtOf ty).hasNaN then 0 else (fmtOf ty).nan, fNV))
  else
    let slot := blockScale ty kind (amaxOf xs)
    let sc := decodeFmt (fmtOf .f32) slot
    (slot, ((List.range xs.length).zip xs).map fun (i, x) =>
      let y := (divV x sc).1
      let y := if ty.isInt then (match y with | .num n m e r => .num n m (e + 6) r | .inf n => .inf n | .nan b => .nan b) else y
      roundTo ty { rd i with sat := true } y)

/-- Slot `b` of a sidecar. -/
def slotOf (side : BitVec 512) (b : Nat) : Nat := side.toNat / 2 ^ (32 * b) % 2 ^ 32
/-- A sidecar with slot `b` replaced. -/
def putSlot (side : BitVec 512) (b v : Nat) : BitVec 512 := putBits side (32 * b + 31) (32 * b) v

/-- `vqnt` (R184, R329). -/
def execVqnt (ty : Ty) (kind : Kind) (q : FQ) (d a : VReg) (part : BitVec 3) (s : State) : Host.Outcome State Fault Refusal :=
  perform .vector (.vqnt ty kind q d a part) (do
    let x ← getV a
    checkTag a x fun t => t = plainTag .f32 || t = plainTag .f16 || t = plainTag .bf16
    let sty := if x.tag = plainTag .f32 then Ty.f32 else if x.tag = plainTag .f16 then .f16 else .bf16
    let ws := sty.laneWidth
    let wd := ty.laneWidth
    let ls := laneCount ws
    let p := part.toNat
    if ratio ls (laneCount wd) ≤ p then trap .illegalInstruction (instrLow (.vqnt ty kind q d a part))
    let c ← getCtx
    let marks ← eatMarks 0xFF [x] false
    let vals := (lanes ws x.data).map (value sty)
    let blocks := (List.range (ls / 32)).map fun b =>
      quantBlock ty kind ((vals.drop (32 * b)).take 32) fun i => c.rounding q (p * ls + 32 * b + i)
    let rs := blocks.flatMap (·.2)
    let tag := tagOf kind ty
    writeLanes d tag wd ((List.range (laneCount wd)).map fun j => (partLane ls (laneCount wd) p j).map fun i => (rs.getD i (0, 0)).1)
      (wholly marks) true
    let y ← getV d
    putV d.toNat { y with side := ((List.range blocks.length).zip blocks).foldl (fun sd e => putSlot sd (p * ls / 32 + e.1) e.2.1) y.side }
    setFlags (rs.foldl (fun f r => f ||| r.2) 0)
    pure .seq) s

/-- `vdqnt` (R185, R330). -/
def execVdqnt (ty : Ty) (q : FQ) (d a : VReg) (part : BitVec 3) (k : KReg) (s : State) : Host.Outcome State Fault Refusal :=
  perform .vector (.vdqnt ty q d a part k) (do
    let x ← getV a
    match tagTy x.tag with
    | some (.mx, sty) | some (.ws, sty) =>
      let ws := sty.laneWidth
      let wd := ty.laneWidth
      if ratio (laneCount ws) (laneCount wd) ≤ part.toNat then trap .illegalInstruction (instrLow (.vdqnt ty q d a part k))
      let c ← getCtx
      convert d (plainTag ty) ws wd part.toNat k x fun i j =>
        roundTo ty (c.rounding q j) (scaledValue sty (lane ws x.data i) (slotOf x.side (i / 32)))
    | some (.none, _) | none => trap .formatMismatch (BitVec.ofNat 64 (uV a))) s

/-- `vretag` (R331). -/
def execVretag (d a : VReg) (tag : BitVec 6) (s : State) : Host.Outcome State Fault Refusal :=
  perform .vector (.vretag d a tag) (do
    let x ← getV a
    let _ ← eatMarks 0xFF [x] false
    putV d.toNat { x with tag := tag }
    pure .seq) s

/-- `vtag` (R331). An empty tag is not accepted: DEDUCED, R170 excepts raw moves and `vretag`, and "any source tag" of R331 stands with
`vretag` (assumption 130). -/
def execVtag (d : GReg) (a : VReg) (s : State) : Host.Outcome State Fault Refusal :=
  perform .vector (.vtag d a) (do
    let x ← getV a
    checkTag a x (· ≠ 0x30)
    setG d (x.tag.setWidth 64) false
    pure .seq) s

end Sys2Proof.Machine
end

