-- ==== Sys2Proof/Machine/Matrix.lean ====
section
/-! DEFINITION. The matrix engine and group MTX (R335 to R345, R353). -/

namespace Sys2Proof.Machine

def Core.tile (k : Core) (a : Nat) : Tile := Assoc.get Tile.reset k.tiles a
def Core.setTile (k : Core) (a : Nat) (t : Tile) : Core := { k with tiles := Assoc.set Tile.reset k.tiles a t }
def Tile.word (t : Tile) (row col : Nat) : AccWord := Assoc.get AccWord.zero t.words (32 * row + col)
def Tile.setWord (t : Tile) (row col : Nat) (w : AccWord) : Tile := { t with words := Assoc.set AccWord.zero t.words (32 * row + col) w }
def Tile.markRow (t : Tile) (row : Nat) : Tile := { t with marks := t.marks ||| (1#32 <<< row) }

/-- A row is added word by word, with its mark (R173, R193). -/
def Tile.addRow (t : Tile) (r : Nat) (ws : List AccWord) (mark : Bool) : Tile :=
  let t := ((List.range 32).zip ws).foldl (fun t (n, w) => t.setWord r n (accMerge (t.word r n) w)) t
  if mark then t.markRow r else t

/-! ### Operands of `mma` (R337) -/

/-- The K step. -/
def kStep (ta tb : Ty) : Nat :=
  if ta = .f32 then 16
  else if ta = .f16 ∨ ta = .bf16 then 32
  else if 13 ≤ ta.code.toNat ∧ 13 ≤ tb.code.toNat then 128
  else 64

/-- Bytes of an entry of a scale table. -/
def entryBytes : Kind → Nat
  | .none => 0
  | .mx => 1
  | .ws => 4

/-- The elements of packed bytes (R165). -/
def unpack (ty : Ty) (n : Nat) (bs : List Byte) : List Nat :=
  let x := bitsOfBytes bs
  (List.range n).map fun i => x / 2 ^ (ty.width * i) % 2 ^ ty.width

/-- The scale slots of entries of a table. -/
def scaleSlots (k : Kind) (n : Nat) (bs : List Byte) : List Nat :=
  (List.range n).map fun i =>
    match k with
    | .none => 0x3F80_0000
    | .mx => widenE8M0 (bs.getD i 0).toNat
    | .ws => bitsOfBytes ((bs.drop (4 * i)).take 4)

/-- The value of an element of an operand: scaled, an i8 element counting 2^−6 (R168). -/
def operandValue (o : MmaOperand) (x slot : Nat) : Val :=
  match o.kind with
  | .none => if o.ty = .i8 then scaledValue .i8 x 0x3F80_0000 else value o.ty x
  | .mx | .ws => scaledValue o.ty x slot

/-- A pair of a row's value list and whether a byte of it was marked. -/
abbrev RowVals := List Val × Bool

/-- The elements and the scales of a row or column, and whether a byte of them was marked. -/
abbrev RowCodes := List Nat × List Nat × Bool

/-- Their values: the scale of a block of 32 goes with each of its elements (R337). -/
def rowValues (o : MmaOperand) (r : RowCodes) : RowVals :=
  (((List.range r.1.length).zip r.1).map fun (i, x) => operandValue o x (r.2.1.getD (i / 32) 0x3F80_0000), r.2.2)

/-- Reads the scales of a row or column: `nb` entries, none without scaling. -/
def readScales (e : EngAt) (o : MmaOperand) (nb : Nat) (va : Ptr) : E (List Nat × Bool) := do
  let sb ← if o.kind = .none then pure [] else engRead e va (nb * entryBytes o.kind)
  pure (scaleSlots o.kind nb (sb.map (·.1)), sb.any (·.2))

/-- Reads the row of an operand at `va` and its scales. -/
def readRow (e : EngAt) (o : MmaOperand) (ks : Nat) (va : Ptr) (scales : Ptr) : E RowCodes := do
  let bs ← engRead e va (ks * o.ty.width / 8)
  let sl ← readScales e o (ks / 32) scales
  pure (unpack o.ty ks (bs.map (·.1)), sl.1, bs.any (·.2) || sl.2)

/-- One gather of K-major B: a 4-byte word position of up to 32 consecutive rows of K (R370). -/
def readGather (e : EngAt) (stride ks : Nat) (base : Ptr) (h w : Nat) : E (List (List (Byte × Bool))) :=
  ((List.range ks).drop (32 * h)).take 32 |>.mapM fun k => engRead e (base + BitVec.ofNat 72 (k * stride + 4 * w)) 4

/-- The columns of B: for each n its elements by k and its scales (R337). Every page is translated first (R338), then every line is had, and
K-major rows are read by gathers: rows 0 to 31 first, in each the word positions in order (R370). -/
def readB (e : EngAt) (o : MmaOperand) (ks : Nat) (bk : Bool) (base scales : Ptr) : E (List RowCodes) := do
  let stride := o.stride.toNat
  let nb := ks / 32
  let (rows, len) := if bk then (ks, 32 * o.ty.width / 8) else (32, ks * o.ty.width / 8)
  let rowAt (i : Nat) : Ptr := base + BitVec.ofNat 72 (i * stride)
  let scaleAt (n : Nat) : Ptr := scales + BitVec.ofNat 72 (n * nb * entryBytes o.kind)
  (List.range rows).forM fun i => engTouch e (rowAt i) len .read
  if o.kind ≠ .none then engTouch e scales (32 * nb * entryBytes o.kind) .read
  (List.range rows).forM fun i => do
    let _ ← engFetch e (rowAt i) len
  if o.kind ≠ .none then
    let _ ← engFetch e scales (32 * nb * entryBytes o.kind)
  if bk then
    let words := len / 4
    let gathers ← ((List.range ((ks + 31) / 32)).flatMap fun h => (List.range words).map fun w => (h, w)).mapM fun (h, w) =>
      readGather e stride ks base h w
    let row (k : Nat) : List (Byte × Bool) := (List.range words).flatMap fun w => (gathers.getD (k / 32 * words + w) []).getD (k % 32) []
    let elems := (List.range ks).map fun k => unpack o.ty 32 ((row k).map (·.1))
    let marked := gathers.any fun g => g.any fun r => r.any (·.2)
    (List.range 32).mapM fun n => do
      let sl ← readScales e o nb (scaleAt n)
      pure (elems.map (·.getD n 0), sl.1, marked || sl.2)
  else
    (List.range 32).mapM fun n => readRow e o ks (rowAt n) (scaleAt n)

/-- The engine has read B: the command keeps it for its further rows. -/
def keepB (c : Nat) (cols : List RowCodes) : E Unit := modify fun s =>
  let k := s.core c
  s.setCore c { k with matq := match k.matq with
    | [] => []
    | cmd :: rest => { cmd with cols := some cols } :: rest }

/-- Adds the products of a row of A with the columns of B into row `m` (R173, R337). -/
def addRow (t : Tile) (m : Nat) (a : RowVals) (b : List RowVals) (anchor : Int) : Tile :=
  ((List.range 32).zip b).foldl (fun t (n, col) =>
    t.setWord m n ((a.1.zip col.1).foldl (fun w (x, y) => accAdd w (mulV x y).1 anchor) (t.word m n))) t

/-! ### The engine's work (R335 to R342) -/

def matEng (c : Nat) (cmd : MatCmd) : EngAt := ⟨c, 1, cmd.gen, .matrix⟩

/-- ENGPOISON of the issuing control context. -/
def matPoison (c : Nat) (cmd : MatCmd) : E Unit := modify fun s => s.engCir (matEng c cmd) cirEng

/-- A row is finished: MROWP counts it, and the next row is charged afresh. -/
def rowDone (c m : Nat) (t : Tile → Tile) (d : Nat) : E Unit := modify fun s =>
  let k := s.core c
  s.setCore c { (k.setTile d (t (k.tile d))).linesOver .matrix with mrowp := m + 1 }

/-- The rows that the engine works through in this turn: from row MROWP to the last, or, with the input's flag, to the row before
`row` (R205, R342). -/
def State.rowsDue (s : State) (c : Nat) : List Nat :=
  ((List.range 32).take (if s.input.flag then s.input.row else 32)).drop (s.core c).mrowp

/-- The command goes on with its next row in a later turn. -/
def rowsLeft : E Unit := do
  let s ← get
  if s.input.flag && decide (s.input.row < 32) then later

/-- A row that `mst` stores. In a paired core it waits in the hold buffer, behind the stores of its context (R198). -/
def storeRow (e : EngAt) (cmd : MatCmd) (va : Ptr) (image : List Byte) (p : Bool) : E Unit := do
  let s ← get
  if (s.core e.core).pairedWest 1 then
    let blocks := sectorsAt va.toNat image.length
    let kss ← blocks.mapM fun b => engKeys e (va + BitVec.ofNat 72 b.1).toNat b.2 .write
    ((kss.flatten.map lineOf).eraseDups).forM (engCharge e)
    modify fun s =>
      let x := s.ctx e.core 1
      let es : List SbEntry := (blocks.zip kss).map fun (b, ks) =>
        ⟨ks.zip ((image.drop b.1).take b.2), p, false, true, (va + BitVec.ofNat 72 b.1).toNat, cmd.pc, s.engPort e (ks.headD 0)⟩
      let s := s.setCtx e.core 1 { x with sb := x.sb ++ es }
      s.setCore e.core { s.core e.core with hold := (s.core e.core).hold ++ es.map fun _ => .store }
  else engWrite e va image p

/-- One command from row MROWP to its end. -/
def runMat (c : Nat) (cmd : MatCmd) : E Unit := do
  let e := matEng c cmd
  let s ← get
  let rows := s.rowsDue c
  match cmd.op with
  | .mzero d => modify fun s => s.setCore c ((s.core c).setTile d.toNat { (s.core c).tile d.toNat with words := [], marks := 0 })
  | .mma d x y a b tbl bk =>
    let ks := kStep x.ty y.ty
    let sc := tbl.getD 0
    let bScales := sc + BitVec.ofNat 72 (32 * (ks / 32) * entryBytes x.kind)
    let codes ← match cmd.cols with
      | some cs => pure cs
      | none => do
        let cs ← readB e y ks bk b bScales
        keepB c cs
        pure cs
    let cols := codes.map (rowValues y)
    let bMark := cols.any (·.2)
    rows.forM fun m => do
      let codes ← readRow e x ks (a + BitVec.ofNat 72 (m * x.stride.toNat)) (sc + BitVec.ofNat 72 (m * (ks / 32) * entryBytes x.kind))
      let row := rowValues x codes
      let s ← get
      if row.2 || bMark || bit ((s.core c).tile d.toNat).marks m then matPoison c cmd
      rowDone c m (fun t =>
        let t := addRow t m row cols cmd.anchor.toInt
        let t := if row.2 then t.markRow m else t
        if bMark then { t with marks := BitVec.allOnes 32 } else t) d.toNat
    rowsLeft
  | .mld d va stride =>
    rows.forM fun m => do
      let bs ← engRead e (va + BitVec.ofNat 72 (m * stride)) 512
      let marked := bs.any (·.2)
      if marked then matPoison c cmd
      rowDone c m (fun t =>
        let t := (List.range 32).foldl (fun t n => t.setWord m n (accOfMem (bitsOfBytes (((bs.map (·.1)).drop (16 * n)).take 16)))) t
        if marked then t.markRow m else { t with marks := t.marks &&& ~~~(1#32 <<< m) }) d.toNat
    rowsLeft
  | .mst ty sat rm seed va a stride =>
    rows.forM fun m => do
      let s ← get
      let t := (s.core c).tile a.toNat
      let rs := (List.range 32).map fun n => accRead ty ⟨rm, sat, srBits seed.toNat (32 * m + n)⟩ (t.word m n) cmd.anchor.toInt
      let image := bytesOfBits (32 * ty.width / 8) (rs.foldr (fun r acc => r.1 % 2 ^ ty.width + 2 ^ ty.width * acc) 0)
      let marked := bit t.marks m
      storeRow e cmd (va + BitVec.ofNat 72 (m * stride)) image marked
      if marked then matPoison c cmd
      modify fun s => s.setCore c { s.core c with pair := (s.core c).pair.map fun p => { p with crcM := crcRun p.crcM (bytesOfBits 4 (crc32c image).toNat) } }
      let f := rs.foldl (fun f r => f ||| r.2) (0 : Flags)
      modify fun s =>
        let x := s.ctx c 1
        if x.live && x.gen = cmd.gen then s.setCtx c 1 { x with fpstat := x.fpstat ||| f.setWidth 64 } else s
      rowDone c m id a.toNat
    rowsLeft

/-- The head command finished: it leaves the queue. MROWP stays at its rows until another command is at the head. -/
def State.matPop (s : State) (c : Nat) : State :=
  let k := s.core c
  let rest := k.matq.drop 1
  s.setCore c { k.unitOver .matrix with
    matq := rest, mrowp := if rest.isEmpty then k.mrowp else 0, acnq := k.acnq.map fun x => { x with after := x.after - 1 } }

/-- The command at the head of the queue that may run: not parked, the engine not paused, MMA steps not delayed by the power controller, and
no rows before it still to be read by the accumulate network (R14, R205, R313, R335). -/
def State.matHead (s : State) (c : Nat) : Option MatCmd :=
  let k := s.core c
  match k.matq with
  | [] => none
  | cmd :: _ =>
    let isMma := match cmd.op with
      | .mma _ _ _ _ _ _ _ => true
      | .mzero _ | .mld _ _ _ | .mst _ _ _ _ _ _ _ => false
    if k.matPark.isSome || !k.engineRuns 1 || s.saved c || (isMma && s.throttled) || k.acnq.any fun x => x.after = 0 then none else some cmd

/-- The head command runs until it finishes, parks at a fault, or waits. -/
def State.runMatrix (s : State) (c : Nat) (cmd : MatCmd) : State :=
  match runMat c cmd s with
  | .ok (_, t) => t.matPop c
  | .error (.later t) => t
  | .error (.fault cause addr t) => t.parkAt (matEng c cmd) cmd.pc cause addr

/-- MATRIX_COMMAND_RETIRE (R335). -/
def execMatrixCommandRetire (s : State) : Host.Outcome State Fault Refusal :=
  let c := s.input.core
  match s.matHead c with
  | some cmd => .next (s.runMatrix c cmd)
  | none => .next s

/-! ### MTX instructions -/

/-- Issue of an engine command drains SB(c) (R157). The stores of a paired context leave when its interval agrees (R198). -/
def drainForEngine : M Unit := do
  let s ← get
  if !s.holding s.curCore s.curSlot then drainPicked fun _ => true

/-- A command enters the queue of two entries, or waits for one (R92, R335). -/
def enqueueMat (op : MatOp) : M Next := do
  let k ← getCore
  if 2 ≤ k.matq.length then waitOn .engineQueue 0
  -- the engine reads after the stores, and those leave the hold buffer when the interval ends
  if k.holding 1 && k.hold.contains .store then waitOn .pairInterval 0
  drainForEngine
  let x ← getCtx
  modCore fun k => { k with matq := k.matq ++ [⟨op, k.manchor, x.pc, x.gen, none⟩], mrowp := if k.matq.isEmpty then 0 else k.mrowp }
  pure .seq

def execMbegin (a : GReg) (s : State) : Host.Outcome State Fault Refusal :=
  perform .matrix (.mbegin a) (do
    let x ← regG a
    let _ ← consume [uG a]
    let v := x.toInt
    let v := if v < -2048 then -2048 else if 2047 < v then 2047 else v
    modCore fun k => { k with manchor := BitVec.ofInt 12 v, chain := true }
    pure .seq) s

def execMend (s : State) : Host.Outcome State Fault Refusal :=
  perform .matrix .mend (do
    modCore fun k => { k with chain := false }
    pure .seq) s

def execMma (d : AccReg) (x y : MmaOperand) (c : Option PReg) (bk : Bool) (s : State) : Host.Outcome State Fault Refusal :=
  perform .matrix (.mma d x y c bk) (do
    let a ← regP x.base
    let b ← regP y.base
    let t ← match c with
      | some r => do
        let v ← regP r
        pure (some v)
      | none => pure none
    let _ ← consume ([uP x.base, uP y.base] ++ (c.map uP).toList)
    aligned a.toNat 8
    aligned b.toNat 8
    aligned x.stride.toNat 8
    aligned y.stride.toNat 8
    match t with
    | some v => aligned v.toNat 16
    | none => pure ()
    enqueueMat (.mma d x y a b t bk)) s

def execMzero (d : AccReg) (s : State) : Host.Outcome State Fault Refusal :=
  perform .matrix (.mzero d) (enqueueMat (.mzero d)) s

/-- `mld` (R340): MISALIGNED with the value that fails. -/
def execMld (d : AccReg) (b : PReg) (off : BitVec 32) (stride : BitVec 16) (s : State) : Host.Outcome State Fault Refusal :=
  perform .matrix (.mld d b off stride) (do
    let p ← regP b
    let _ ← consume [uP b]
    let va := ea32 p off
    aligned va.toNat 16
    aligned stride.toNat 16
    if stride.toNat < 512 then trap .misaligned (stride.setWidth 64)
    enqueueMat (.mld d va stride.toNat)) s

/-- `mst` (R341): Mode(Q) and SEED are latched at issue (R180). -/
def execMst (ty : Ty) (q : FQ) (b : PReg) (off : BitVec 32) (a : AccReg) (stride : BitVec 16) (s : State) : Host.Outcome State Fault Refusal :=
  perform .matrix (.mst ty q b off a stride) (do
    let p ← regP b
    let _ ← consume [uP b]
    let c ← getCtx
    let va := ea32 p off
    aligned va.toNat 8
    aligned stride.toNat 8
    if stride.toNat < 32 * ty.width / 8 then trap .misaligned (stride.setWidth 64)
    enqueueMat (.mst ty q.sat (c.mode q.rm) c.seed va a stride.toNat)) s

/-- `mldt` (R343): a 32×32 tile of the own swizzle window, transposed into registers. -/
def execMldt (ty : Ty) (d : VReg) (b : PReg) (off : BitVec 32) (s : State) : Host.Outcome State Fault Refusal :=
  perform .matrix (.mldt ty d b off) (do
    let p ← regP b
    let _ ← consume [uP b]
    let va := ea32 p off
    aligned va.toNat 4
    let w := ty.width / 8
    let k ← getCore
    let s ← get
    let pitch := if bit k.swzCtl 1 then 128 else 64
    let base := bits k.swzBase 20 12 * 4096
    let size := bits k.swzCtl 16 8 * 4096
    let refuse : M Unit := trap .permission (va.setWidth 64)
    match (s.locate s.curCore s.curSlot va.toNat 1 .read).1 with
    | .at_ key =>
      let o := keyAddr key % 2 ^ 24
      if keySpace key = 3 && keyCore key = s.curCore && bit k.swzCtl 0 && 32 * w ≤ pitch && base ≤ o &&
          o + 31 * pitch + 32 * w ≤ base + size then pure ()
      else refuse
    | .bad _ | .migrating => refuse
    let o := va.toNat % 2 ^ 24
    let rows ← (List.range 32).mapM fun i => do
      let s ← get
      let ks := s.keysOf (keyScratch s.curCore (o + i * pitch)) (32 * w)
      let bs ← loadBytes true false ks
      watchAccess (va + BitVec.ofNat 72 (i * pitch)).toNat ks (bs.map (·.1)) .read true
      pure bs
    let marked := rows.any fun r => r.any (·.2)
    let elem (i c : Nat) : Nat := bitsOfBytes ((((rows.getD i []).drop (c * w)).take w).map (·.1))
    (List.range (4 * w)).forM fun q => do
      let r := d.toNat + q
      let old ← getCore
      putV r { old.vreg r with
        data := ofLanes (8 * w) ((List.range (256 / w)).map fun l => elem (l % 32) (q * (8 / w) + l / 32))
        tag := plainTag ty
        marks := if marked then 0xFF else 0 }
    pure .seq) s

/-- floor(log2 x) of a positive value. -/
def floorLog2 (v : Val) : Int :=
  match v with
  | .num _ m e _ => topOf m e
  | .inf _ | .nan _ => 0

/-- A scale of `manch`: by magnitude; zero and NaN count as 1.0; none when infinite (R176, R336). -/
def anchorScale (w : Nat) : Option Val :=
  match decodeFmt (fmtOf .f32) w with
  | .inf _ => none
  | .nan _ => some (.num false 1 0 false)
  | .num _ m e _ => some (if m = 0 then .num false 1 0 false else .num false m e false)

/-- ceil(log2 n) for n ≥ 1. -/
def ceilLog2 (n : Nat) : Int := if n ≤ 1 then 0 else (Nat.log2 (n - 1) + 1 : Nat)

/-- The proposal of R176. -/
def anchorOf (ta tb : Ty) (sa sb n : Nat) : Int :=
  match anchorScale sa, anchorScale sb with
  | some x, some y =>
    let p := floorLog2 (mulV (largest ta) x).1 + floorLog2 (mulV (largest tb) y).1 + 2
    let a := p + 1 + max 0 (ceilLog2 n - 16)
    min (max a (-2048)) 2047
  | _, _ => 2047

/-- `manch` (R336); type codes 1 to 7 are taken as i8. -/
def execManch (d a b : GReg) (s : State) : Host.Outcome State Fault Refusal :=
  perform .matrix (.manch d a b) (do
    let x ← regG a
    let y ← regG b
    let p ← consume [uG a, uG b]
    let ty (code : Nat) : Ty := tagTy.tyOfCode (BitVec.ofNat 4 (if code < 8 then 0 else code))
    let n := bits x 63 32
    setG d (BitVec.ofInt 64 (anchorOf (ty (bits x 3 0)) (ty (bits x 11 8)) (bits y 31 0) (bits y 63 32) (if n = 0 then 1 else n))) p
    pure .seq) s

/-- `mwait` (R344). -/
def execMwait (s : State) : Host.Outcome State Fault Refusal :=
  perform .matrix .mwait (do
    let k ← getCore
    if !k.matq.isEmpty then waitOn .matrix 0
    acquireHalf .dv
    pure .seq) s

/-! ### MRESUME (R353) -/

/-- STATE: 0 idle, 1 running, 2 the head command parked. -/
def Core.matState (k : Core) : Nat := if k.matPark.isSome then 2 else if k.matq.isEmpty then 0 else 1

/-- OP 1: the head command continues from row MROWP when it next runs. -/
def State.matResume (s : State) (c : Nat) : State :=
  if (s.core c).matState = 2 then s.setCore c { s.core c with matPark := none } else s

/-- OP 2: the head command ends, the later ones are discarded and the chain closes. -/
def State.matAbort (s : State) (c : Nat) : State :=
  if (s.core c).matState = 2 then
    let k := s.core c
    s.setCore c { k.unitOver .matrix with
      matPark := none, matq := [], chain := false, acnq := k.acnq.map fun x => { x with after := 0 } }
  else s

end Sys2Proof.Machine
end

