-- ==== Sys2Proof/Machine/Fetch.lean ====
section
/-! DEFINITION. Fetching code (R210 to R215, R291). -/

namespace Sys2Proof.Machine

/-- The fetch block at a physical key: from the core's buffer of four blocks, or from H into it (R215). -/
def State.fetchBlock (s : State) (c key : Nat) : List Byte × State :=
  match Assoc.find (s.core c).fetchBuf key with
  | some b => (b, s)
  | none =>
    let s := (s.takeHost (lineOf key)).touchSlice c key false
    let b := s.peeks key 32
    let k := s.core c
    let kept := if 4 ≤ k.fetchBuf.length then k.fetchBuf.drop 1 else k.fetchBuf
    (b, s.setCore c { k with fetchBuf := Assoc.put kept key b })

/-- What fetching at an address finds. -/
inductive Found where
  /-- Bits from the address to the end of its block, and how many bytes that is. -/
  | code (w : Nat) (room : Nat)
  | bad (c : Cause)
  | migrating
  /-- The request of the fetch is held: by the budget governor, or on its way (R65, R71). -/
  | held (on : WaitOn)
  deriving DecidableEq, Repr

/-- Whether a code message's context stands in its text (R291). -/
def textBase : Nat := 0xFF * 2 ^ 64 + 2 * 2 ^ 32

/-- The block of a fetch that has been translated, for which the walk has read some table entries: the entries, and a block that the buffer does
not hold, are requests of the core's router (R71), and their ways must be open (R65). -/
def State.fetchFrom (s t : State) (c n key : Nat) (reads : List Nat) : Found × State :=
  let off := key % 32
  let asks := reads ++ if (Assoc.find (t.core c).fetchBuf (key - off)).isSome then [] else [key]
  if !asks.all (t.wayTo c) then (.held .mesh, s)
  else
    match t.meter c n asks.length (2 * asks.length) none with
    | (false, _) => (.held .budget, (s.meter c n asks.length (2 * asks.length) none).2)
    | (true, t) =>
      let (b, t) := (t.touchAll c reads).fetchBlock c (key - off)
      (.code (bitsOfBytes (b.drop off)) (32 - off), t)

/-- What is wrong with an instruction of `n` bytes at the program counter that does not end where the fetch can go on: it crosses its fetch block,
or, in the code of a code message, it ends at bytes beyond LEN, whose fetch raises PERMISSION with their address (R213, R291). -/
def Ctx.runsOn (x : Ctx) (n : Nat) (word : Word) : Cause × Word :=
  match x.text with
  | some bs =>
    if (x.pc.toNat - textBase) % 32 + n ≤ 32 then (.permission, BitVec.ofNat 64 (textBase + bs.length)) else (.fetchCross, word)
  | none => (.fetchCross, word)

/-- The bits at an address, as context `n` of core `c` fetches them (R211, R213 check 1, R291). -/
def State.fetchAt (s : State) (c n : Nat) (va : Ptr) : Found × State :=
  match (s.ctx c n).text with
  | some bs =>
    let off := va.toNat - textBase
    if textBase ≤ va.toNat ∧ off < bs.length then
      let room := min (32 - off % 32) (bs.length - off)
      (.code (bitsOfBytes ((bs.drop off).take room)) room, s)
    else (.bad .permission, s)
  | none =>
    match s.locate c n va.toNat 4 .fetch with
    | (.bad e, t) => (.bad e, t)
    | (.migrating, t) => (.migrating, t)
    | (.at_ key, t) => s.fetchFrom t c n key (s.walkReads c n va.toNat)

/-- The context stands past the fill words at its program counter, up to a number of them (R210). -/
def State.skipFills (s : State) (c n : Nat) : Nat → State
  | 0 => s
  | k + 1 =>
    match s.fetchAt c n (s.ctx c n).pc with
    | (.code w room, t) =>
      if decode room (BitVec.ofNat 128 w) = .fill then (t.setCtx c n { t.ctx c n with pc := (t.ctx c n).pc + 4 }).skipFills c n k else s
    | (.bad _, _) | (.migrating, _) | (.held _, _) => s

/-- The length that the LEN bits of the word at an address give; a fault of the fetch is one at that address (R270). -/
def lengthAt (va : Ptr) : M Nat := do
  let s ← get
  match s.fetchAt s.curCore s.curSlot va with
  | (.bad c, _) => trap c (va.setWidth 64)
  | (.migrating, t) =>
    set t
    waitOn .migration (va.setWidth 64)
  | (.held on, t) =>
    set t
    waitOn on 0
  | (.code w _, t) =>
    set t
    pure (lenBytes (BitVec.ofNat 2 w))

/-- A transfer to a computed address: bits 1:0 must be zero (R212); in the code of a code message a jump through a register raises
PERMISSION (R291). -/
def jumpReg (t : Ptr) : M Next := do
  let x ← getCtx
  if x.text.isSome then trap .permission (t.setWidth 64)
  else if t.toNat % 4 ≠ 0 then trap .misaligned (t.setWidth 64)
  else pure (.jump t)

end Sys2Proof.Machine
end

