-- ==== Sys2Proof/Machine/Kernel.lean ====
section
/-! DEFINITION. What the micro-kernels do for the host: memory in supervisor space, queue descriptors, completion records
and interrupts (R31 to R36, R45, R49 to R52, R379). -/

namespace Sys2Proof.Machine

/-! ### Supervisor memory of a micro-kernel (R134, R379) -/

/-- The micro-kernel of a core, as a party that reads and writes memory: for its work, or for a record. -/
def kernUnit (c : Nat) (u : EngUnit) : EngAt := ⟨c, 0, 0, u⟩
def kern (c : Nat) : EngAt := kernUnit c .kernel

/-- A part of the work that a link timeout ended (R26, R379). -/
def lostWork {α : Type} (va : Nat) : E α := do
  let s ← get
  throw (.fault .asyncError va s)

/-- Reads `n` bytes at a supervisor address, acquiring at scope sy: CV gives up their lines first. A read that the link timeout ends is a
fault (R36, R379). -/
def kRead (c : Nat) (va : Ptr) (n : Nat) : E (List Byte) := do
  let e := kern c
  let kss ← (sectorsAt va.toNat n).mapM fun b => engKeys e (va + BitVec.ofNat 72 b.1).toNat b.2 .read
  let lines := ((kss.flatten.filter fun k => keySpace k ≤ 2).map lineOf).eraseDups
  lines.forM fun l => modify fun s => if keySpace (l * 64) = 2 then s.dropRemote c l else s.evict c l
  let bs ← engRead e va n
  let s ← get
  if lines.any fun l => (Assoc.find (s.core c).engineLines (e.lineKey l)).any Fetch.lost then lostWork va.toNat
  pure (bs.map (·.1))

def kNat (c : Nat) (va : Ptr) (n : Nat) : E Nat := do
  let bs ← kRead c va n
  pure (bitsOfBytes bs)

/-- A write of one sector to another member is posted once, and awaited; one that the link timeout ends is a fault (R26, R36, R49, R379). -/
def kRemote (e : EngAt) (cells : List (Nat × Byte)) : E Unit := do
  let s ← get
  let k := (cells.map (·.1)).headD 0
  match Assoc.find (s.core e.core).engineLines (16 * k + e.unit.ackCode) with
  | some f =>
    if !f.arrived then later
    else if f.lost then lostWork k
  | none =>
    modify fun s =>
      let s := (s.dropRemote e.core (lineOf k)).postFor e.core e.who e.gen (s.engPort e k) k (.store cells false)
      s.setCore e.core { s.core e.core with
        engineLines := Assoc.put (s.core e.core).engineLines (16 * k + e.unit.ackCode) ⟨false, false, [], 0, false⟩ }
    later

/-- A write of one sector in this device or its host: the host gives up a line of device memory first (R17), and the routes of a field must
bring the write to its home (R65). A host line goes on to host memory, as a release at scope sy asks (R147). -/
def kLocal (e : EngAt) (cells : List (Nat × Byte)) : E Unit := do
  let s ← get
  let k := (cells.map (·.1)).headD 0
  if !s.wayTo e.core k then later
  if keySpace k = 0 && ((Assoc.find s.directory (lineOf k)).isSome || s.biPending.any fun x => x.1 = lineOf k) then
    modify fun s => s.askHost (lineOf k)
    later
  modify fun s =>
    let s := s.engStore e cells false
    if keySpace k = 1 then s.flushHost (lineOf k) else s

/-- Writes bytes at a supervisor address, with a release at scope sy: every part translates before any is written, and what goes to other
members has been acknowledged before the rest is written. -/
def kWriteAs (e : EngAt) (va : Ptr) (bs : List Byte) : E Unit := do
  let blocks := sectorsAt va.toNat bs.length
  let kss ← blocks.mapM fun b => engKeys e (va + BitVec.ofNat 72 b.1).toNat b.2 .write
  let parts := (blocks.zip kss).map fun (b, ks) => ks.zip ((bs.drop b.1).take b.2)
  let away (cells : List (Nat × Byte)) : Bool := keySpace ((cells.map (·.1)).headD 0) = 2
  (parts.filter away).forM (kRemote e)
  (parts.filter fun cells => !away cells).forM (kLocal e)

def kWrite (c : Nat) (va : Ptr) (bs : List Byte) : E Unit := kWriteAs (kern c) va bs

/-- The micro-kernel has done its work: it lets go of its lines and translations. -/
def State.letGo (s : State) (c : Nat) : State := s.setCore c { (s.core c).unitOver .kernel with kernelAt := none }

/-- A pointer word: sixteen bytes with bits 127:72 zero (R40). -/
def ptrOf? (x : Nat) : Option Ptr := if x / 2 ^ 72 = 0 then some (BitVec.ofNat 72 x) else none

/-- Bytes `a` to `a + n - 1` of a structure that was read, as a number. -/
def field (bs : List Byte) (a n : Nat) : Nat := bitsOfBytes ((bs.drop a).take n)

/-- Whether some bytes of a structure are all zero. -/
def zeroes (bs : List Byte) (a n : Nat) : Bool := ((bs.drop a).take n).all (· = 0)

/-! ### Interrupts (R31, R52) -/

def State.msixEntry (s : State) (v : Nat) : Msix := Assoc.get Msix.reset s.msix v
def State.setMsix (s : State) (v : Nat) (m : Msix) : State := { s with msix := Assoc.set Msix.reset s.msix v m }

/-- Sends the message of a vector, or sets its pending bit when the entry, or the function by its MSI-X capability, is masked. -/
def State.raise (s : State) (v : Nat) : State :=
  let m := s.msixEntry v
  if m.masked || s.pci.msixMask then s.setMsix v { m with pendingBit := true }
  else { s with msixSent := s.msixSent ++ [(m.addr, m.data)] }

/-- The mask bit of an entry is written: an entry that is unmasked sends a pending message (R52). -/
def State.maskMsix (s : State) (v : Nat) (masked : Bool) : State :=
  let m := s.msixEntry v
  if masked then s.setMsix v { m with masked := true }
  else
    let s := s.setMsix v { m with masked := false, pendingBit := false }
    if m.masked && m.pendingBit then s.raise v else s

/-- The function mask of MSI-X is written: without it, pending messages of unmasked entries go out. -/
def State.maskFunction (s : State) (masked : Bool) : State :=
  let s := { s with pci := { s.pci with msixMask := masked } }
  if masked then s
  else s.msix.foldl (fun s e => if e.2.pendingBit && !e.2.masked then (s.setMsix e.1 { e.2 with pendingBit := false }).raise e.1 else s) s

/-- MSIX_VECTOR_UNMASK: the entry is unmasked, and a pending message goes out (R52). -/
def execMsixVectorUnmask (s : State) : Host.Outcome State Fault Refusal := .next (s.maskMsix (s.input.index % 2048) false)

/-- BAR2, by 32-bit words: 2,048 entries of address, data and vector control from offset 0, and the pending bits from 0x8000 (R31). -/
def State.readBar2 (s : State) (off : Nat) : BitVec 32 :=
  if off < 0x8000 then
    let m := s.msixEntry (off / 16)
    match off % 16 / 4 with
    | 0 => m.addr.setWidth 32
    | 1 => (m.addr >>> 32).setWidth 32
    | 2 => m.data
    | _ => if m.masked then 1 else 0
  else if off < 0x8100 then
    BitVec.ofNat 32 (((List.range 32).map fun i => if (s.msixEntry ((off - 0x8000) / 4 * 32 + i)).pendingBit then 2 ^ i else 0).foldl (· + ·) 0)
  else 0

/-- The host writes a 32-bit word of BAR2; the pending bits only read. -/
def State.writeBar2 (s : State) (off : Nat) (v : BitVec 32) : State :=
  if off < 0x8000 then
    let n := off / 16
    let m := s.msixEntry n
    match off % 16 / 4 with
    | 0 => s.setMsix n { m with addr := putBits m.addr 31 0 v.toNat }
    | 1 => s.setMsix n { m with addr := putBits m.addr 63 32 v.toNat }
    | 2 => s.setMsix n { m with data := v }
    | _ => s.maskMsix n (bit v 0)
  else s

/-! ### Queue descriptors (R32 to R34) -/

structure Desc where
  base : Nat
  read : Nat
  reserve : Nat
  cplBase : Nat
  cplWr : Nat
  homeBits : Nat
  sizeLog : Nat
  cplLog : Nat
  prio : Nat
  field : Nat
  flags : Nat
  deriving DecidableEq, Repr

/-- The device address of a queue's descriptor: QTBASE bits 38:16, and 64 bytes a queue. -/
def State.descAt (s : State) (q : Nat) : Nat := bits s.qtBase 38 16 * 65536 + 64 * q

/-- The queue table lies in memory that exists: a table that does not raises TRANSLATION at every access (R12, R134). -/
def State.tableBacked (s : State) (q : Nat) : Bool := s.descAt q < 2 ^ 39 && backed (s.descAt q)

/-- Device memory as it will stand once the host has given a line up: with the writes and operations that wait for that (R17). -/
def State.ahead (s : State) (line : Nat) : State :=
  let t := (s.biPending.filter fun e => e.1 = line).foldl (fun t e => t.writeH e.2.1 e.2.2) s
  (s.biOps.filter fun e => e.1 = line).foldl (fun t e => (t.homeOp e.2.1 e.2.2.1 e.2.2.2).2.2) t

/-- A queue's descriptor, as its home knows it: with what the home has written and the host's hold of the line still keeps back. An unbacked
table holds no descriptor (R12, R134). -/
def State.desc (s : State) (q : Nat) : Desc :=
  let a := keyDram (s.descAt q)
  let s := s.ahead (lineOf a)
  let num (off n : Nat) : Nat := if s.tableBacked q then s.peekNat (a + off) n else 0
  { base := num 0 16, read := num 16 8, reserve := num 24 8, cplBase := num 32 16, cplWr := num 48 8, homeBits := num 56 2,
    sizeLog := num 58 1, cplLog := num 59 1, prio := num 60 1, field := num 61 1, flags := num 62 2 }

def Desc.enabled (d : Desc) : Bool := d.flags / 2 ^ 11 % 2 = 1
def Desc.poll (d : Desc) : Bool := d.flags / 2 ^ 12 % 2 = 1
def Desc.halted (d : Desc) : Bool := d.flags / 2 ^ 13 % 2 = 1
def Desc.stalled (d : Desc) : Bool := d.flags / 2 ^ 14 % 2 = 1
def Desc.vector (d : Desc) : Nat := d.flags % 2048

/-- The home's device logical id: the admin queue's is 0 (R32). -/
def Desc.lid (d : Desc) (q : Nat) : Nat := if q = 0 then 0 else d.homeBits % 1024
/-- FIELD: 0xFF for the admin queue (R32). -/
def Desc.fieldOf (d : Desc) (q : Nat) : Nat := if q = 0 then 0xFF else d.field
def Desc.privileged (d : Desc) (q : Nat) : Bool := d.fieldOf q = 0xFF

/-- The home core of a queue, when HOME names a healthy core. -/
def State.homeOf (s : State) (q : Nat) : Option Nat := s.coreOfLid ((s.desc q).lid q)

/-- The checks of R33. -/
def Desc.sound (d : Desc) (q : Nat) : Bool :=
  12 ≤ d.sizeLog && d.sizeLog ≤ 30 && 4 ≤ d.cplLog && d.cplLog ≤ 20 &&
    d.base / 2 ^ 72 = 0 && d.cplBase / 2 ^ 72 = 0 &&
    d.base % 2 ^ d.sizeLog = 0 && d.cplBase % (32 * 2 ^ d.cplLog) = 0 &&
    d.homeBits / 1024 = 0 && d.prio / 8 = 0 && d.flags / 2 ^ 15 = 0 &&
    (d.fieldOf q = 0xFF || d.fieldOf q < 64)

/-- An operation on `n` bytes of a descriptor, at its home slice: when the host holds the line, the host gives it up first, and what the
home has written then stays written (R17). -/
def State.descOp (s : State) (q off n : Nat) (op : HomeOp) : State :=
  let k := keyDram (s.descAt q + off)
  let ks := (List.range n).map (k + ·)
  if !s.tableBacked q then s
  else
    let s := s.cores.foldl (fun s e => s.evict e.1 (lineOf k)) s
    if (Assoc.find s.directory (lineOf k)).isSome then
      let s := s.askHost (lineOf k)
      { s with biOps := s.biOps ++ [(lineOf k, ks, op, false)] }
    else (s.homeOp ks op false).2.2

/-- Bits of FLAGS that a home sets and clears. -/
def State.descFlag (s : State) (q b : Nat) (v : Bool) : State :=
  s.descOp q 62 2 (if v then .or_ (2 ^ b) else .and_ (2 ^ 16 - 1 - 2 ^ b))

def State.setHalted (s : State) (q : Nat) (v : Bool) : State := s.descFlag q 13 v
def State.setStalled (s : State) (q : Nat) (v : Bool) : State := s.descFlag q 14 v

def State.queue (s : State) (q : Nat) : QueueSt := Assoc.get QueueSt.reset s.queues q
def State.setQueue (s : State) (q : Nat) (x : QueueSt) : State := { s with queues := Assoc.set QueueSt.reset s.queues q x }

/-- Status codes (R50). -/
def stOk : Nat := 0
def stLoss : Nat := 1
def stIncomplete : Nat := 2
def stPaused : Nat := 3
def stHardSaved : Nat := 4
def stBadType : Nat := 5
def stBadBody : Nat := 6
def stBadDescriptor : Nat := 7
def stHalted : Nat := 8
def stStalled : Nat := 9
def stSkip : Nat := 10
def stNotPermitted : Nat := 11
def stImage : Nat := 12

/-! ### Reports and completion records (R45, R49 to R52) -/

/-- A report that no completion ring could take (R45). -/
def State.latchQerr (s : State) (q status : Nat) : State :=
  if bit s.qErr 63 then { s with qErr := putBits s.qErr 31 16 (min (bits s.qErr 31 16 + 1) 0xFFFF) }
  else { s with qErr := BitVec.ofNat 64 (2 ^ 63 + status * 2 ^ 32 + q % 1024) }.raise 0

/-- The 32 bytes of a completion record. -/
def recordBytes (tag : Word) (seq type q status info : Nat) : List Byte :=
  bytesOfBits 8 tag.toNat ++ bytesOfBits 8 seq ++ bytesOfBits 1 type ++ bytesOfBits 1 0 ++ bytesOfBits 2 q ++
    bytesOfBits 4 status ++ bytesOfBits 8 info

/-- The address of record `n` of a completion ring. -/
def Desc.recordAt (d : Desc) (n : Nat) : Ptr := BitVec.ofNat 72 (d.cplBase + 32 * (n % 2 ^ d.cplLog))

/-- The next place of a ring that no record has: those that are being written hold places from CPLWR on (R49). -/
def State.nextRecord (s : State) (ring : Nat) : Nat :=
  s.reports.foldl (fun n r => if r.ring = ring then max n ((r.slot.map (· + 1)).getD 0) else n) (s.desc ring).cplWr

/-- The oldest record of a core has a place from now on. -/
def State.placeRecord (s : State) (r : Report) (n : Nat) : State :=
  { s with reports := s.reports.set (s.reports.idxOf r) { r with slot := some n } }

/-- A record in its place: bytes 0 to 7 and 16 to 31, then SEQ, then CPLWR, once the records before it are there, and then the message of the
queue's vector (R49, R52). -/
def Report.write (r : Report) : E Unit := do
  let e := kernUnit r.core .report
  let s ← get
  let d := s.desc r.ring
  if !s.tableBacked r.ring then lostWork (s.descAt r.ring)
  let n := r.slot.getD (s.nextRecord r.ring)
  modify fun s => s.placeRecord r n
  let bs := recordBytes r.tag (n + 1) r.type r.about r.status r.info
  kWriteAs e (d.recordAt n) (bs.take 8)
  kWriteAs e (d.recordAt n + 16) (bs.drop 16)
  kWriteAs e (d.recordAt n + 8) ((bs.drop 8).take 8)
  let s ← get
  if (s.desc r.ring).cplWr ≠ n then later
  modify fun s =>
    let s := s.descOp r.ring 48 8 (.write (n + 1))
    if r.irq then s.raise d.vector else s

/-- A record about another queue, which the admin queue's ring takes (R33, R45). -/
def Report.forAdmin (r : Report) : Bool := r.ring = 0 && r.type = 0xFF && r.about ≠ 0

/-- The admin queue's ring can take a record. -/
def State.adminTakes (s : State) : Bool := let d := s.desc 0; d.enabled && !d.halted && d.sound 0

/-- What becomes of the oldest record of a core: it is written; or it cannot be, which halts its queue and is reported in QERR (R45, R49):
a report for the admin queue first by itself, and then the halted ring. It waits for memory otherwise. -/
def Report.settle (r : Report) : E Unit := do
  let s ← get
  if r.forAdmin && !s.adminTakes then modify fun s => s.latchQerr r.about r.status
  else
    match r.write s with
    | .ok (_, t) => set t
    | .error (.later t) => throw (.later t)
    | .error (.fault _ _ t) =>
      -- the places behind that of a record that is lost are given anew
      let t := { t.setHalted r.ring true with reports := t.reports.map fun (q : Report) => if q.ring = r.ring then { q with slot := none } else q }
      set ((if r.forAdmin then t.latchQerr r.about r.status else t).latchQerr r.ring stHalted)

/-- The oldest record that a core is to write, if it has one. -/
def State.reportOf (s : State) (c : Nat) : Option Report := s.reports.find? fun r => r.core = c

/-- The micro-kernel of a core works at its oldest record. -/
def State.reportTurn (s : State) (c : Nat) : State :=
  match s.reportOf c with
  | none => s
  | some r =>
    match r.settle s with
    | .ok (_, t) => { t.setCore c ((t.core c).unitOver .report) with reports := t.reports.eraseP fun q => q.core = c }
    | .error (.later t) => t
    | .error (.fault _ _ _) => s

/-- A core is to write a record: at once when nothing keeps it from that, or else when its turns come. -/
def State.report (s : State) (r : Report) : State :=
  let t : State := { s with reports := s.reports ++ [r] }
  if (s.reportOf r.core).isSome then t
  else
    match r.settle s with
    | .ok (_, u) => u.setCore r.core ((u.core r.core).unitOver .report)
    | .error (.later _) | .error (.fault _ _ _) => t

/-- A record about queue `q` goes to the admin queue's ring, by the admin queue's home, or into QERR (R33, R45). -/
def State.reportAdmin (s : State) (q status info : Nat) : State :=
  match s.coreOfLid 0 with
  | some c => if q = 0 then s.latchQerr q status else s.report ⟨c, 0, 0, 0xFF, q, status, info, true, none⟩
  | none => s.latchQerr q status

/-- A queue record: TYPE 0xFF, TAG 0, INFO = READ; it always raises the vector (R51). -/
def State.queueRecord (s : State) (c q status : Nat) : State := s.report ⟨c, q, 0, 0xFF, q, status, (s.desc q).read, true, none⟩

/-- A packet's completion, which core `c` reports: its record when it set CPL, its interrupt when it set IRQ. -/
def State.complete (s : State) (c : Nat) (k : Ticket) (status info : Nat) : State :=
  let q := s.queue k.qid
  let s := s.setQueue k.qid { q with started := q.started.filter (· ≠ k) }
  if bit k.flags 0 then s.report ⟨c, k.qid, k.tag, k.type, k.qid, status, info, bit k.flags 1, none⟩
  else if bit k.flags 1 then s.raise (s.desc k.qid).vector
  else s

/-! ### The work of a micro-kernel -/

/-- The core can run: it is healthy, powered, not fenced and not held in reset. -/
def State.able (s : State) (c : Nat) : Bool :=
  s.healthy c && !s.fenced c && !(s.core c).gated && !(s.core c).inReset

/-- The home core of a queue that is being served: one that runs its micro-kernel (R43, R44). -/
def State.server (s : State) (q : Nat) : Option Nat :=
  let d := s.desc q
  if d.enabled && !d.halted && (s.queue q).awake then (s.homeOf q).filter fun c => s.able c && !(s.core c).bootMode else none

/-- The number by which a micro-kernel knows a DEBUG request. -/
def DebugWork.workId (g : DebugWork) : Nat := 2048 + g.ticket.qid + 1024 * g.ticket.index

/-- A work that waits for memory is still to be done. -/
def State.workLive (s : State) (c id : Nat) : Bool :=
  if id < 1024 then s.server id = some c
  else if id < 2048 then (Assoc.find s.snaps (id - 1024)).any fun n => n.home = c
  else s.debugWorks.any fun g => g.core = c && g.workId = id

/-- The micro-kernel of a core is in the middle of another work. -/
def State.kernelBusy (s : State) (c id : Nat) : Bool := (s.core c).kernelAt.any fun i => i ≠ id && s.workLive c i

/-- A piece of work for the micro-kernel of `c`: it is done, or it waits for memory and goes on later. A fault that the work itself does not
treat changes nothing. -/
def kernelWork (c id : Nat) (body : E Unit) (s : State) : State :=
  if s.kernelBusy c id then s
  else
    let s := if (s.core c).kernelAt = some id then s else s.letGo c
    match body s with
    | .ok (_, t) => t.letGo c
    | .error (.later t) => t.setCore c { t.core c with kernelAt := some id }
    | .error (.fault _ _ _) => s.letGo c

/-- A part of the work that may fault: none when it does. -/
def caught {α : Type} (act : E α) : E (Option α) := fun s =>
  match act s with
  | .ok (a, t) => .ok (some a, t)
  | .error (.fault _ _ t) => .ok (none, t)
  | .error (.later t) => .error (.later t)

end Sys2Proof.Machine
end

