-- ==== Sys2Proof/Machine/Jobs.lean ====
section
/-! DEFINITION. Weight, domains, copies in transit, taking a copy, and the end of a job (R73 to R91, R96, R99 to R110,
R129 to R132). -/

namespace Sys2Proof.Machine

/-! ### Domain ids and weight (R100 to R107) -/

def domLid (d : BitVec 24) : Nat := bits d 9 0
def domIdx (d : BitVec 24) : Nat := bits d 13 10
def domGen (d : BitVec 24) : Nat := bits d 21 14
def domId (lid idx gen : Nat) : BitVec 24 := BitVec.ofNat 24 (lid % 1024 + idx % 16 * 2 ^ 10 + gen % 256 * 2 ^ 14)

def Core.domain (k : Core) (i : Nat) : Domain := Assoc.get Domain.reset k.domains i
def Core.setDomain (k : Core) (i : Nat) (d : Domain) : Core := { k with domains := Assoc.set Domain.reset k.domains i d }

/-- Weight goes home from a core: a return of nothing is none (R103). -/
def State.returnWeight (s : State) (c : Nat) (dom : BitVec 24) (w : Nat) : State :=
  if w = 0 then s
  else
    match s.coreOfLid (domLid dom) with
    | some h => s.push c h (.weight dom w)
    | none => s

/-- The weight that a packet carries, by domain. A write-off carries none: what it tells of is gone. -/
def Packet.carries : Packet → Option (BitVec 24 × Nat)
  | .message m | .reply m | .stray m => some (m.dom, m.weight)
  | .weight dom w => some (dom, w)
  | .transit c _ | .stealShip c => some (c.dom, c.weight)
  | .writeOff _ _ _ _ _ | .arm _ | .taint _ _ | .stealAsk _ _ | .noWork _ | .lapse _ | .lapseAck _ | .row _ _ _ _ _ _ _ _ | .rowAck _ _
  | .rowNak _ _ _ | .pipeEntry _ _ _ _ | .pipeCredit _ _ | .haltSignal _ | .bootDisc _ _ _ | .bootCast _ _ _ _ | .bootReport _ _ _ => none

/-- The weight of an output that a paired core holds. -/
def HoldItem.carries : HoldItem → Option (BitVec 24 × Nat)
  | .flight f => f.body.carries
  | .bulk _ (some r) => some (r.dom, r.weight)
  | .bulk _ none | .store | .home _ _ _ _ _ | .release _ _ => none

/-- What a core holds, by domain: the held-weight table of its router (R102), and whether the entry is an overflow one. -/
def Core.holdings (k : Core) : List (BitVec 24 × Nat) :=
  (k.ctxs.filterMap fun e => if e.2.live then some (e.2.whome, e.2.wheld) else none) ++
    (k.ctxs.flatMap fun e => e.2.replies.map fun m => (m.dom, m.weight)) ++
    (k.inbox.map fun m => (m.dom, m.weight)) ++
    (k.deflected.map fun m => (m.dom, m.weight)) ++ (k.strays.map fun m => (m.dom, m.weight)) ++
    (k.pending.map fun c => (c.dom, c.weight)) ++ (k.starts.map fun x => (x.dom, x.weight)) ++
    (k.requests.map fun e => (e.2.dom, e.2.weight)) ++
    (k.msgPort.filterMap fun f => f.2.body.carries) ++ k.hold.filterMap HoldItem.carries

/-- The totals of each domain held. -/
def Core.heldTable (k : Core) : List (BitVec 24 × Nat) :=
  let hs := k.holdings.filter fun h => h.2 ≠ 0
  ((hs.map (·.1)).eraseDups).map fun d => (d, ((hs.filter fun h => h.1 = d).map (·.2)).sum)

/-- The sixteen entries of the table are taken by other domains (R102): messages in the overflow area take none. -/
def Core.tableFull (k : Core) (d : BitVec 24) : Bool :=
  let ds := (({ k with deflected := [] } : Core).heldTable).map (·.1)
  16 ≤ ds.length && !ds.contains d

/-- Equal shares: the first take one more (R74). -/
def shares (h n : Nat) : List Nat := (List.range n).map fun i => h / n + (if i < h % n then 1 else 0)

/-! ### Where a copy may run (R60, R77, R80, R81, R91) -/

/-- Matrix-excluded: by EXCL, or by a failed boot self-test (R202). -/
def State.excluded (s : State) (cl : Nat) : Bool := (s.slice cl).excl || s.flash.selfTestFailed.contains cl

/-- The control context is idle. -/
def State.idle (s : State) (c : Nat) : Bool := s.able c && !(s.ctx c 1).live && (s.core c).pair.isNone

/-- Idle, and nothing waits in the pending queue. -/
def State.open_ (s : State) (c : Nat) : Bool := s.idle c && (s.core c).pending.isEmpty

/-- The east partner of a west core. -/
def eastOf (c : Nat) : Nat := c + 1
def isWest (c : Nat) : Bool := coreX c % 2 = 0

def TaskRec.range (t : TaskRec) : Bool := bit t.flags 2
def TaskRec.gridded (t : TaskRec) : Bool := bit t.flags 3
def TaskRec.gang (t : TaskRec) : Bool := bit t.flags 4
def TaskRec.paired (t : TaskRec) : Bool := bit t.flags 5
def TaskRec.splitOff (t : TaskRec) : Bool := bit t.flags 6
def TaskRec.spawned (t : TaskRec) : Bool := bit t.flags 7
def TaskRec.prio (t : TaskRec) : Nat := bits t.flags 1 0
def TaskRec.gangSize (t : TaskRec) : Nat := bits t.gangPos 3 2 + 1
def TaskRec.gangRole (t : TaskRec) : Nat := bits t.gangPos 1 0

/-- Every task of a job that declared PAIRED runs paired; no other does (R91). -/
def Job.pairs (j : Job) : Bool := j.pairedJob

/-- A gang that is not started (R89, R91). A record of another role than 0 that a list, a root or `tspawn` names is treated the same: DESIGN
CHOICE, the rule names RANGE, GANGID and the size only (assumption 114). -/
def TaskCopy.malformed (c : TaskCopy) (j : Job) : Bool :=
  c.task.gang && (c.task.range || c.roles.any (fun r => r.gangId ≠ c.task.gangId || r.range) || c.task.gangSize = 1 ||
    c.task.gangRole ≠ 0 || c.roles.length + 1 ≠ c.task.gangSize ||
    (j.pairs && 2 < c.task.gangSize))

/-- The healthy positions of a cluster, in order. -/
def State.positions (s : State) (cl : Nat) : List Nat := (List.range 4).filter fun q => s.healthy (coreOf cl q)

/-- R81: core `c` is eligible for a copy of job `j`. -/
def State.eligible (s : State) (j : Job) (c : Nat) (t : TaskCopy) : Bool :=
  let cl := clusterOf c
  let ps := s.positions cl
  s.healthy c && (j.noMatrix || !s.excluded cl) &&
    (if t.task.gang then
       (if j.pairs then ps.length = 4 else t.task.gangSize ≤ ps.length) && ps.all fun q => s.open_ (coreOf cl q)
     else !j.pairs || (isWest c && s.open_ (eastOf c)))

/-- The hint core (R80): clamped, and past holes in logical row-major order. -/
def FieldSt.hintCore (f : FieldSt) (s : State) (t : TaskRec) : Option Nat :=
  let x := min t.hintX.toNat (2 * f.lw - 1)
  let y := min t.hintY.toNat (2 * f.lh - 1)
  let from_ := y * (2 * f.lw) + x
  let n := 4 * f.lw * f.lh
  ((List.range n).filterMap fun i => f.coreAtXY ((from_ + i) % n % (2 * f.lw)) ((from_ + i) % n / (2 * f.lw))).find? s.healthy

/-- The positions from `a` to `b`, both included. -/
def between (a b : Nat) : List Nat :=
  if a ≤ b then (List.range (b - a + 1)).map (a + ·) else (List.range (a - b + 1)).map (a - ·)

/-- The cores that a copy released at `c` visits: along x first, then along y; holes are passed through. -/
def FieldSt.route (f : FieldSt) (s : State) (c : Nat) (t : TaskRec) : List Nat :=
  match f.logicalXY c, (f.hintCore s t).bind f.logicalXY with
  | some (x, y), some (hx, hy) =>
    (((between x hx).map fun i => (i, y)) ++ ((between y hy).map fun j => (hx, j)).drop 1).filterMap fun p =>
      (f.coreAtXY p.1 p.2).filter s.healthy
  | _, _ => []

/-- Chebyshev distance to the hint core. -/
def FieldSt.distance (f : FieldSt) (s : State) (c : Nat) (t : TaskRec) : Option Nat :=
  match f.logicalXY c, (f.hintCore s t).bind f.logicalXY with
  | some (x, y), some (hx, hy) => some (max (max x hx - min x hx) (max y hy - min y hy))
  | _, _ => none

/-- A copy is parked, and its weight goes home. -/
def State.park (s : State) (fid c : Nat) (t : TaskCopy) : State :=
  (s.modJob fid fun j => { j with parked := j.parked ++ [{ t with weight := 0 }] }).returnWeight c t.dom t.weight

/-- A malformed gang is not started: its weight goes home, and the job is not to complete with its graph complete (R89). -/
def State.refuseGang (s : State) (fid c : Nat) (t : TaskCopy) : State :=
  (s.modJob fid fun j => { j with incomplete := true }).returnWeight c t.dom t.weight

/-- A copy goes into transit from a core, which it visits first; or, in soft pre-emption, to the parked list with its weight home (R80,
R89, R96). -/
def State.inject (s : State) (fid c : Nat) (t : TaskCopy) : State :=
  match Assoc.find s.fields fid with
  | some f =>
    match f.job with
    | some j =>
      if t.malformed j then s.refuseGang fid c t
      else
        match j.pre with
        | .running => s.push c c (.transit t (f.route s c t.task))
        | .pausing _ | .parked | .hardSaved => s.park fid c t
    | none => s
  | none => s

/-! ### Leases (R129 to R132) -/

/-- The stores that contexts of core `p` have issued to the scratchpad of core `c` complete. -/
def State.drainPeer (s : State) (p c : Nat) : State :=
  (List.range 12).foldl (fun s n =>
    s.drainKeys p n (((s.ctx p n).sb.flatMap fun e => e.cells.map (·.1)).filter fun k => keySpace k = 3 && keyCore k = c)) s

/-- Whether core `p` has issued an access to the scratchpad of core `c` that has not completed: a store in a store buffer, an operation in the hold
buffer, a burst or a sector that an engine has requested, or an instruction that is past issue (R131). -/
def State.peerBusy (s : State) (p c : Nat) : Bool :=
  let k := s.core p
  let there (key : Nat) : Bool := keySpace key = 3 && keyCore key = c
  (List.range 12).any (fun n => (s.ctx p n).committed || (s.ctx p n).sb.any fun e => e.cells.any fun x => there x.1) ||
    (k.hold.any fun h => match h with
      | .home ks _ _ _ _ => ks.any there
      | .store | .flight _ | .bulk _ _ | .release _ _ => false) ||
    (k.bulkq ++ k.copyq).any fun b => b.asked.any fun a => there a.2.1 || a.2.2.any there

/-- A `ldw` or `vldw` of core `p` that waits on the full bits of core `c` ends, and raises PEER_EXITED (R131). -/
def State.endWaits (s : State) (p c : Nat) : State :=
  (List.range 12).foldl (fun s n =>
    let x := s.ctx p n
    match x.waiting with
    | some w =>
      if w.on = .fullBit && !x.committed && x.awaits.any (fun k => keySpace k = 3 && keyCore k = c) then
        let len := match (s.fetchAt p n x.pc).1 with
          | .code w _ => some (lenBytes (BitVec.ofNat 2 w))
          | .bad _ | .migrating | .held _ => none
        s.takeTrap p n (precise x .peerExited w.addr len)
      else s
    | none => s) s

/-- Core `p` gives up its lease on core `c`. -/
def State.unlease (s : State) (p c : Nat) : State :=
  s.setCore p { s.core p with held := (s.core p).held &&& ~~~(1#4 <<< posOf c) }

/-- Every lease on a core's scratchpad lapses at once. The stores made under it complete; what else its holder has issued there may still be on
its way, and the core's next task waits for that (R131, R132). -/
def State.lapseOn (s : State) (c : Nat) : State :=
  let s := s.setCore c { s.core c with kept := 0 }
  (List.range 4).foldl (fun s q =>
    let p := coreOf (clusterOf c) q
    if p = c ∨ !bit (s.core p).held (posOf c) then s
    else
      let s := ((s.drainPeer p c).unlease p c).endWaits p c
      if s.peerBusy p c then s.setCore c { s.core c with lapsing := (s.core c).lapsing ||| (1#4 <<< q) } else s) s

/-- Accesses under lapsed leases are still on their way to a core. -/
def State.lapsePending (s : State) (c : Nat) : Bool :=
  (List.range 4).any fun q => bit (s.core c).lapsing q && s.peerBusy (coreOf (clusterOf c) q) c

/-- Cores `a` and `b` of one cluster hold leases on each other. -/
def State.leaseBoth (s : State) (a b : Nat) : State :=
  let s := s.setCore a { s.core a with held := (s.core a).held ||| (1#4 <<< posOf b) }
  s.setCore b { s.core b with held := (s.core b).held ||| (1#4 <<< posOf a) }

/-- The leases of a task that starts: with the members of its gang, and among GRID copies of one launch (R129). -/
def State.lease (s : State) (c : Nat) : State :=
  match (s.core c).running with
  | none => s
  | some r =>
    (List.range 4).foldl (fun s q =>
      let p := coreOf (clusterOf c) q
      if p = c ∨ !(s.ctx p 1).live then s
      else
        match (s.core p).running with
        | none => s
        | some o =>
          let sameGang := r.gang ≠ [] ∧ r.gang = o.gang ∧ r.task.gangId = o.task.gangId
          if sameGang ∨ (r.grid.isSome ∧ o.grid.isSome) then s.leaseBoth c p else s) s

/-! ### Coming to life (R76, R287, R300, R346) -/

/-- A context that comes to life: its generation advances, and only the slot's halt and skid are kept (R204, R207). -/
def Ctx.fresh (x : Ctx) (role : Role) (pc : Ptr) : Ctx :=
  { Ctx.reset with live := true, role := role, gen := x.gen + 1, pc := pc, skid := x.skid, halted := x.halted }

/-- The control context of a core takes a task of a copy (R76, R78, R90, R132, R170). R76 loads ITERLO and ITERHI
for a RANGE task alone: for any other task they are 0 here (DESIGN CHOICE, assumption 62, unsafe). No rule checks
bits 1:0 of the entry address: a context runs from that byte address and nothing is raised (DESIGN CHOICE,
assumption 145, unsafe). -/
def State.startTask (s : State) (j : Job) (c : Nat) (t : TaskRec) (grid : Option Grid) (w : Nat) (dom : BitVec 24)
    (gang : List Nat) (role : Nat) (paired : Bool) : State :=
  let s := s.lapseOn c
  let k := s.core c
  let entry := if t.entry = 0 then j.ctlEntry else t.entry
  let x := (k.ctx 1).fresh .task (j.codebase + entry.setWidth 72)
  let x := { (x.writeP 1 (t.param.setWidth 72)).writeG 1 (BitVec.ofNat 64 role) with wheld := w, whome := dom }
  let k := k.setCtx 1 x
  s.setCore c { k with
    running := some ⟨t, if t.splitOff then some (bits t.succ 31 0) else none, grid, gang, role, paired⟩
    iterLo := if t.range then t.iterLo else 0, iterHi := if t.range then t.iterHi else 0
    tileIdx := 0, tileOrg := 0, tileExt := 0, tileNom := 0, retain := false, v := [], pipemap := 0, pipes := [],
    stealing := false, stealNext := none, rot := none }

/-- The PIPEMAP byte of pipe `p` for role `role` of a gang with members at some positions (R90, R91). -/
def pipeByte (spec : Nat) (gang : List Nat) (role : Nat) : Nat :=
  let prod := spec / 4 % 4
  let cons := spec % 4
  if spec / 128 % 2 = 0 ∨ prod = cons ∨ gang.length ≤ prod ∨ gang.length ≤ cons then 0
  else if role = prod then 0xC0 + gang.getD cons 0
  else if role = cons then 0x80 + gang.getD prod 0
  else 0

/-- PIPES of role 0 is bytes 40 to 47 of its record: ITERLO and ITERHI. -/
def pipeMapOf (t : TaskRec) (gang : List Nat) (role : Nat) : Word :=
  let pipes := t.iterLo.toNat + t.iterHi.toNat * 2 ^ 32
  BitVec.ofNat 64 ((List.range 8).foldl (fun a p => a + pipeByte (pipes / 256 ^ p % 256) gang role * 256 ^ p) 0)

/-- The east partner's control context is occupied (R91): it issues nothing of its own. -/
def State.occupy (s : State) (c : Nat) : State :=
  let k := s.core c
  s.setCore c { k.setCtx 1 { k.ctx 1 with live := true, role := .none, gen := (k.ctx 1).gen + 1, wheld := 0, trap := none } with
    stealing := false, stealNext := none }

/-- A core takes a copy: alone, with its east partner, or with the whole cluster (R80, R81, R89, R91). -/
def State.takeCopy (s : State) (fid c : Nat) (t : TaskCopy) : State :=
  match (Assoc.find s.fields fid).bind FieldSt.job with
  | none => s
  | some j =>
    let cl := clusterOf c
    if t.task.gang then
      let ps := if j.pairs then [0, 2].take t.task.gangSize else (s.positions cl).take t.task.gangSize
      let ws := shares t.weight t.task.gangSize
      let recs := t.task :: t.roles
      let s := (List.range t.task.gangSize).foldl (fun s i =>
        let p := coreOf cl (ps.getD i 0)
        let s := s.startTask j p (recs.getD i t.task) none (ws.getD i 0) t.dom ps i j.pairs
        let s := s.setCore p { s.core p with pipemap := pipeMapOf t.task ps i }
        if j.pairs then s.occupy (eastOf p) else s) s
      ps.foldl (fun s q => s.lease (coreOf cl q)) s
    else
      let s := s.startTask j c t.task t.grid t.weight t.dom [] 0 j.pairs
      let s := if j.pairs then s.occupy (eastOf c) else s
      s.lease c

/-- A copy enters a pending queue: highest priority first, then earliest arrival. -/
def insertPending (t : TaskCopy) : List TaskCopy → List TaskCopy
  | [] => [t]
  | p :: ps => if p.task.prio < t.task.prio then t :: p :: ps else p :: insertPending t ps

/-- The hint core's pending queue of 16, or the overflow list (R63, R82). -/
def State.enqueueCopy (s : State) (fid c : Nat) (t : TaskCopy) : State :=
  if s.fenced c ∨ 16 ≤ (s.core c).pending.length then
    s.modJob fid fun j => { j with overflow := j.overflow ++ [(c, t)] }
  else s.setCore c { s.core c with pending := insertPending t (s.core c).pending, stealing := false }

/-! ### Handlers (R92, R93, R105, R302) -/

/-- The lowest free helper slot. -/
def Core.freeHelper (k : Core) : Option Nat := ([2, 3, 4, 5, 6, 7, 8, 9, 10, 11].find? fun n => !(k.ctx n).live)

/-- A helper slot comes to life with its arrival registers g20, g21, … -/
def State.startHelper (s : State) (c n : Nat) (role : Role) (pc : Ptr) (regs : List (Word × Bool)) (w : Nat) (dom : BitVec 24) : State :=
  let k := s.core c
  let x := (k.ctx n).fresh role pc
  let x := ((List.range 12).zip regs).foldl (fun x (i, v) => (x.writeG (20 + i) v.1).mark (20 + i) v.2) x
  s.setCore c (k.setCtx n { x with wheld := w, whome := dom })

/-! ### The home (R99, R104, R105, R119) -/

def State.homeCounter (s : State) (j : Job) : Domain := (s.core j.home).domain 0

/-- The pins of a field's slices clear (R69). -/
def State.clearPins (s : State) (f : FieldSt) : State :=
  (List.range (f.w * f.h)).foldl (fun s i =>
    let cl := (f.y0 + i / f.w) * 16 + f.x0 + i % f.w
    s.setSlice cl { s.slice cl with pins := [] }) s

/-- Retained leases lapse when the job is quiescent, paused or reset (R132). -/
def State.lapseField (s : State) (f : FieldSt) : State := f.allCores.foldl State.lapseOn s

/-- The status of R105 and R99: 0 complete, 1 complete after a write-off, 2 incomplete. -/
def Job.status (j : Job) : Nat := if j.incomplete || j.ended < j.nTasks then 2 else if j.writtenOff ≠ 0 then 1 else 0

/-- Closes the job's domain and frees the field. -/
def State.endJob (s : State) (fid : Nat) (f : FieldSt) (j : Job) (status info : Nat) : State :=
  let s := (s.clearPins f).lapseField f
  let k := s.core j.home
  let s := s.setCore j.home (k.setDomain 0 { k.domain 0 with isOpen := false, count := 0 })
  let s := f.allCores.foldl (fun s c =>
    let k := s.core c
    s.setCore c { k with joinStack := [] }) s
  let s := s.setField fid { f with job := none }
  match j.launch with
  | some t => s.complete j.home t status info
  | none => s

/-- Packets that core `c` reports complete with one status. -/
def State.completeAll (s : State) (c : Nat) (ks : List Ticket) (status : Nat) : State := ks.foldl (fun s k => s.complete c k status 0) s

/-- The counter has returned to W (R96, R99, R104, R113). -/
def State.quiescent (s : State) (fid : Nat) (f : FieldSt) (j : Job) : State :=
  match j.pre with
  | .pausing false =>
    let s := (s.clearPins f).lapseField f
    let s := s.modJob fid fun j => { j with pre := .parked, launch := none, pauser := none, joined := [] }
    (s.completeAll j.home j.launch.toList stPaused).completeAll j.home (j.pauser.toList ++ j.joined) stOk
  | .pausing true => ((s.clearPins f).lapseField f).modJob fid fun j => { j with pre := .parked }
  | .parked | .hardSaved => s
  | .running =>
    if j.armed then
      ((s.lapseField f).modJob fid fun j => { j with armed := false }).notice j.home (plainNotice .quiescent 0 (BitVec.ofNat 64 j.status))
    else s.endJob fid f j j.status j.writtenOff

/-- Gives weight of the home counter to parked records, one by one (R119). -/
def State.handOut (s : State) (fid : Nat) (j : Job) (dom : BitVec 24) (ws : List Nat) : State :=
  let given := j.parked.take ws.length
  let s := s.modJob fid fun j => { j with parked := j.parked.drop ws.length }
  (given.zip ws).foldl (fun s (t, w) => s.inject fid j.home { t with weight := w, dom := dom }) s

/-- A job resumes with all of the counter's weight (R119, steps 1 to 3); one with nothing parked is quiescent at once. -/
def State.resume (s : State) (fid : Nat) : State :=
  let s := s.modJob fid fun j => { j with pre := .running, taintCount := 0, taintMask := 0 }
  match (Assoc.find s.fields fid).bind FieldSt.job with
  | none => s
  | some j =>
    let k := s.core j.home
    let d := k.domain 0
    let n := j.parked.length
    let dom := domId (s.lidOf j.home) 0 d.gen.toNat
    if n = 0 ∧ d.count = d.total then
      match Assoc.find s.fields fid with
      | some f => s.quiescent fid f j
      | none => s
    else if n = 0 ∨ d.count = 0 then s
    else
      let ws := if n ≤ d.count then shares d.count n else List.replicate d.count 1
      (s.setCore j.home (k.setDomain 0 { d with count := 0 })).handOut fid j dom ws

/-- Weight, returned or written off, is added to a counter of core `h` (R100, R104, R107, R119). A child's loss is recorded with its first
write-off. Units of a write-off are handed to parked records as units of a return are: DESIGN CHOICE, step 4 of R119 speaks of returned weight
(assumption 115). -/
def State.credit (s : State) (h : Nat) (dom : BitVec 24) (w : Nat) (loss : Option (Nat × Nat × Nat)) : State :=
  let k := s.core h
  let i := domIdx dom
  let d := k.domain i
  if !d.isOpen || d.gen.toNat ≠ domGen dom then s
  else if i = 0 then
    match s.fields.find? fun e => e.2.job.any fun j => j.home = h with
    | none => s
    | some (fid, f) =>
      match f.job with
      | none => s
      | some j =>
        let s := if loss.isSome then s.modJob fid fun j => { j with writtenOff := j.writtenOff + w } else s
        let give := if j.pre = .running then min w j.parked.length else 0
        let d' := { d with count := d.count + w - give }
        let s := s.setCore h (k.setDomain 0 d')
        let s := if give = 0 then s else s.handOut fid j dom (List.replicate give 1)
        if d'.count = d.total then
          match Assoc.find s.fields fid with
          | some f =>
            match f.job with
            | some j => s.quiescent fid f j
            | none => s
          | none => s
        else s
  else
    let d := { d with count := d.count + w, writtenOff := d.writtenOff + (if loss.isSome then w else 0),
                      firstLoss := if d.firstLoss.isSome then d.firstLoss else loss }
    if d.count = d.total then
      let s := s.setCore h (k.setDomain i { d with isOpen := false })
      match d.firstLoss, s.coreOfLid (domLid d.parent) with
      | some (cell, rep, at_), some p => s.push h p (.writeOff d.parent d.debt cell rep at_)
      | _, _ => s.returnWeight h d.parent d.debt
    else s.setCore h (k.setDomain i d)

/-- The packet that an arrival concerns: one that has come to the router of its core; with the core, and the state without it. Packets for a
hard-saved field are held (R97). -/
def State.arrival (s : State) (i : Nat) : Option (Nat × Packet × State) :=
  match s.net[i]? with
  | some f =>
    if f.at_ ≠ f.dst || s.saved f.dst then none else some (f.dst, f.body, { s with net := s.net.eraseIdx i })
  | none => none

/-- An arm notice, or a taint report of the field, that left earlier and is still on its way: weight does not overtake
them (R104, R296). -/
def State.overtakes (s : State) (i h : Nat) : Bool :=
  (s.net.take i).any fun f => f.dst = h &&
    match f.body with
    | .arm _ | .taint _ _ => true
    | _ => false

/-- WEIGHT_RETURN (R104). -/
def execWeightReturn (s : State) : Host.Outcome State Fault Refusal :=
  match s.arrival s.input.index with
  | some (h, .weight dom w, t) => if s.overtakes s.input.index h then .next s else .next (t.credit h dom w none)
  | _ => .next s

/-- WRITE_OFF_ARRIVAL (R109): CELL_RESET at the home's supervisor for the job's own domain. -/
def execWriteOffArrival (s : State) : Host.Outcome State Fault Refusal :=
  match s.arrival s.input.index with
  | some (h, .writeOff dom w cell rep at_, t) =>
    if s.overtakes s.input.index h then .next s
    else
      let d := (t.core h).domain (domIdx dom)
      let live := d.isOpen && d.gen.toNat = domGen dom
      let t := if live && domIdx dom = 0 then t.notice h (plainNotice .cellReset cell (BitVec.ofNat 64 w)) else t
      .next (t.credit h dom w (some (cell, rep, at_)))
  | _ => .next s

/-- QARM_NOTICE (R104, R296). -/
def execQarmNotice (s : State) : Host.Outcome State Fault Refusal :=
  match s.arrival s.input.index with
  | some (_, .arm fid, t) => .next (t.modJob fid fun j => { j with armed := true })
  | _ => .next s

/-- TAINT_REPORT (R196). -/
def execTaintReport (s : State) : Host.Outcome State Fault Refusal :=
  match s.arrival s.input.index with
  | some (_, .taint fid b, t) =>
    .next (t.modJob fid fun j => { j with taintCount := min (j.taintCount + 1) 0xFFFF_FFFF, taintMask := j.taintMask ||| b })
  | _ => .next s

/-! ### Transit, pending queues, steals (R80 to R87) -/

/-- Whether a visited core takes the copy (R80). -/
def State.takes (s : State) (f : FieldSt) (j : Job) (c : Nat) (t : TaskCopy) : Bool :=
  (f.distance s c t.task).any (· ≤ t.task.radius.toNat) && s.open_ c && s.eligible j c t

/-- The number by which a governor names the copies in transit that it holds, and the steal request of its core (R71). -/
def transitWho : Nat := 67
def stealWho : Nat := 66

/-- A copy in transit waits at the router of core `c`. -/
def Flight.waitsAt (f : Flight) (c : Nat) : Bool :=
  f.at_ = c && f.dst = c && match f.body with
    | .transit _ _ => true
    | _ => false

/-- A copy in transit leaves the governor of a core, which holds no other. -/
def State.ungovern (s : State) (c : Nat) : State :=
  if s.net.any fun f => f.waitsAt c then s
  else s.setCore c { s.core c with governor := (s.core c).governor.filter fun e => e.2 ≠ transitWho }

/-- The flits of a copy in transit: its record, and those of the other roles of its gang, of 64 bytes each (R71, R80). -/
def TaskCopy.flits (t : TaskCopy) : Nat := (64 * (1 + t.roles.length) + 127) / 128

/-- TRANSIT_VISIT: a copy visits the next core of its path (R80, R82, R96). Its next hop is charged where it starts, and copies that the governor
holds leave in their order (R71). -/
def execTransitVisit (s : State) : Host.Outcome State Fault Refusal :=
  match s.arrival s.input.index with
  | some (c, .transit t path, u) =>
    match s.fieldOf c with
    | none => .next u
    | some (fid, f) =>
      match f.job with
      | none => .next u
      | some j =>
        if t.malformed j then .next ((u.ungovern c).refuseGang fid c t)
        else match j.pre with
        | .running =>
          if s.takes f j c t then .next ((u.ungovern c).takeCopy fid c t)
          else
            match path.drop 1 with
            | n :: rest =>
              if (s.core c).governor.contains (0, transitWho) && (s.net.take s.input.index).any fun g => g.waitsAt c then .next s
              else
                match u.meter c transitWho 0 t.flits none with
                | (true, u) => .next (u.push c n (.transit t (n :: rest)))
                | (false, _) => .next (s.meter c transitWho 0 t.flits none).2
            | [] => .next ((u.ungovern c).enqueueCopy fid ((f.hintCore s t.task).getD c) t)
        | .pausing _ | .parked | .hardSaved => .next ((u.ungovern c).park fid c t)
  | _ => .next s

/-- PENDING_TAKE: an idle control context takes the head entry for which its core is eligible (R82). -/
def execPendingTake (s : State) : Host.Outcome State Fault Refusal :=
  let c := s.input.core
  match s.fieldOf c with
  | none => .next s
  | some (fid, f) =>
    match f.job with
    | none => .next s
    | some j =>
      let k := s.core c
      let fits (i : Nat) (t : TaskCopy) : Bool :=
        -- a gang waits for the other copies of the queue, but gangs do not keep each other out (assumption 54)
        s.idle c && (s.setCore c { k with pending := (k.pending.eraseIdx i).filter fun o => !(t.task.gang && o.task.gang) }).eligible j c t
      match ((List.range k.pending.length).zip k.pending).find? fun (i, t) => fits i t with
      | some (i, t) =>
        if j.pre = .running then .next ((s.setCore c { k with pending := k.pending.eraseIdx i }).takeCopy fid c t) else .next s
      | none => .next s

/-- OVERFLOW_REFILL: the oldest overflow entry tagged with this core moves into its pending queue (R82). -/
def execOverflowRefill (s : State) : Host.Outcome State Fault Refusal :=
  let c := s.input.core
  match s.fieldOf c with
  | none => .next s
  | some (fid, f) =>
    match f.job with
    | none => .next s
    | some j =>
      if s.fenced c ∨ 16 ≤ (s.core c).pending.length ∨ j.pre ≠ .running then .next s
      else
        match j.overflow.find? fun e => e.1 = c with
        | none => .next s
        | some e => .next ((s.modJob fid fun j => { j with overflow := j.overflow.erase e }).enqueueCopy fid c e.2)

/-- The offsets of a steal round (R84). -/
def stealOffsets : List (Int × Int) :=
  [(0, -1), (1, 0), (0, 1), (-1, 0), (0, -2), (2, 0), (0, 2), (-2, 0), (1, -1), (1, 1), (-1, 1), (-1, -1)]

/-- The first victim at or after offset `i` of the round; holes and places outside the field are skipped. -/
def State.victim (s : State) (f : FieldSt) (c i : Nat) : Option (Nat × Nat) :=
  match f.logicalXY c with
  | none => none
  | some (x, y) =>
    (((List.range 12).zip stealOffsets).drop i).findSome? fun (k, d) =>
      let vx := (x : Int) + d.1
      let vy := (y : Int) + d.2
      if 0 ≤ vx ∧ 0 ≤ vy then ((f.coreAtXY vx.toNat vy.toNat).filter s.healthy).map fun v => (k, v) else none

/-- The thief asks the victim at the next offset, or ends the round and waits 1,024 cycles (R84). A request that the budget holds is not
made yet; the round goes on with it later (R71). -/
def State.askNext (s : State) (f : FieldSt) (c i : Nat) : State :=
  match s.victim f c i with
  | some (k, v) =>
    match s.meter c stealWho 0 2 none with
    | (true, s) => (s.setCore c { s.core c with stealing := true, stealBusy := true, stealAt := 0 }).push c v (.stealAsk c k)
    | (false, s) => s.setCore c { s.core c with stealing := true, stealBusy := false, stealAt := k }
  | none => s.setCore c { s.core c with stealing := false, stealBusy := false, stealAt := 0, stealNext := some (s.cycle + 1024) }

/-- A core may steal: idle with an empty pending queue, in a job that runs. -/
def State.maySteal (s : State) (c : Nat) : Option FieldSt :=
  match s.fieldOf c with
  | some (_, f) => if s.open_ c && f.job.any (fun j => j.pre = .running) then some f else none
  | none => none

/-- STEAL_START (R84): a round begins after 64 idle cycles, or goes on with the request that was held. -/
def execStealStart (s : State) : Host.Outcome State Fault Refusal :=
  let c := s.input.core
  let k := s.core c
  match s.maySteal c with
  | some f =>
    if k.stealBusy then .next s
    else if k.stealing then .next (s.askNext f c k.stealAt)
    else if k.idleSince + 64 ≤ s.cycle && k.stealNext.all (· ≤ s.cycle) then .next (s.askNext f c 0)
    else .next s
  | none => .next s

/-- NO_WORK_ANSWER: the next offset of the round, or its end (R84). A round that a copy has ended goes on no more. -/
def execNoWorkAnswer (s : State) : Host.Outcome State Fault Refusal :=
  match s.arrival s.input.index with
  | some (c, .noWork k, t) =>
    match (if (t.core c).stealing then t.maySteal c else none) with
    | some f => .next (t.askNext f c (k + 1))
    | none => .next (t.setCore c { t.core c with stealing := false, stealBusy := false })
  | _ => .next s

/-- The join entry that a range task holds, taking one from the core's stack when it holds none (R88). -/
def State.joinFor (s : State) (fid c : Nat) (r : Running) : Option (Nat × State) :=
  match r.join with
  | some i => some (i, s)
  | none =>
    match (s.core c).joinStack with
    | [] => none
    | i :: rest =>
      let e : JoinEntry := ⟨r.task.succ, 1, !r.task.spawned⟩
      let s := s.modJob fid fun j => { j with joins := Assoc.put j.joins i e }
      let k := s.core c
      some (i, s.setCore c { k with joinStack := rest, running := some { r with join := some i } })

/-- Adds one open piece to an entry. -/
def State.openPiece (s : State) (fid i : Nat) : State :=
  s.modJob fid fun j =>
    match Assoc.find j.joins i with
    | some e => { j with joins := Assoc.put j.joins i { e with openPieces := e.openPieces + 1 } }
    | none => j

/-- The record of a piece of a range task's interval (R87, R298). -/
def pieceOf (r : Running) (lo hi : BitVec 32) (join : Nat) : TaskRec :=
  { r.task with iterLo := lo, iterHi := hi, flags := r.task.flags ||| 0x40, succ := BitVec.ofNat 128 join }

/-- The split of R87, when R85 allows one: the copy to ship. A task whose release unit is at work has nothing left to split. -/
def State.split (s : State) (fid c : Nat) : Option (TaskCopy × State) :=
  let k := s.core c
  let x := k.ctx 1
  match k.running with
  | none => none
  | some r =>
    let lo := k.iterLo.toNat
    let hi := k.iterHi.toNat
    if x.live && k.release.isNone && r.task.range && !r.task.gang && !r.paired && lo + 2 ≤ hi && 2 ≤ x.wheld then
      (s.joinFor fid c r).map fun (i, s) =>
        let s := s.openPiece fid i
        let mid := lo + (hi - lo + 1) / 2
        let h := x.wheld
        let k := s.core c
        let s := s.setCore c { (k.setCtx 1 { k.ctx 1 with wheld := h - h / 2 }) with iterHi := BitVec.ofNat 32 mid }
        (⟨pieceOf r (BitVec.ofNat 32 mid) (BitVec.ofNat 32 hi) i, [], h / 2, x.whome, r.grid⟩, s)
    else none

/-- STEAL_REQUEST: the victim ships a pending copy or half of its range, or answers no work (R85). -/
def execStealRequest (s : State) : Host.Outcome State Fault Refusal :=
  match s.arrival s.input.index with
  | some (v, .stealAsk thief k, t) =>
    match t.fieldOf v with
    | none => .next (t.push v thief (.noWork k))
    | some (fid, f) =>
      match f.job with
      | none => .next (t.push v thief (.noWork k))
      | some j =>
        if t.fenced v ∨ j.pre ≠ .running then .next (t.push v thief (.noWork k))
        else
          match (t.core v).pending.find? fun p => t.eligible j thief p with
          | some p => .next ((t.setCore v { t.core v with pending := (t.core v).pending.erase p }).push v thief (.stealShip p))
          | none =>
            match t.split fid v with
            | some (p, u) => .next (u.push v thief (.stealShip p))
            | none => .next (t.push v thief (.noWork k))
  | _ => .next s

/-- STEAL_ARRIVAL: the thief takes the copy, or it enters the thief's pending queue (R86). In soft pre-emption it is parked: DESIGN CHOICE,
R96 names released, pending, overflow and transit copies only (assumption 116). -/
def execStealArrival (s : State) : Host.Outcome State Fault Refusal :=
  match s.arrival s.input.index with
  | some (c, .stealShip p, t) =>
    let t := t.setCore c { t.core c with stealing := false, stealBusy := false }
    match t.fieldOf c with
    | none => .next t
    | some (fid, f) =>
      match f.job with
      | none => .next t
      | some j =>
        match j.pre with
        | .running => if t.open_ c && t.eligible j c p then .next (t.takeCopy fid c p) else .next (t.enqueueCopy fid c p)
        | .pausing _ | .parked | .hardSaved => .next (t.park fid c p)
  | _ => .next s

/-- JOIN_STACK_REFILL: the micro-kernel refills the stack of free join indices, up to sixteen (R88). -/
def execJoinStackRefill (s : State) : Host.Outcome State Fault Refusal :=
  let c := s.input.core
  match s.fieldOf c with
  | none => .next s
  | some (fid, f) =>
    match f.job with
    | none => .next s
    | some j =>
      let k := s.core c
      let room := 16 - k.joinStack.length
      let got := j.joinFree.take room
      let new := (List.range (room - got.length)).map (j.joinNext + ·)
      .next ((s.modJob fid fun j => { j with joinFree := j.joinFree.drop got.length, joinNext := j.joinNext + new.length }).setCore c
        { k with joinStack := k.joinStack ++ got ++ new })

/-- LEASE_LAPSE_NOTICE: a peer's accesses to the owner complete, it gives up its lease, what waits on the owner ends, and it acknowledges
(R131). The owner's count of missing acknowledgements falls with it. -/
def execLeaseLapseNotice (s : State) : Host.Outcome State Fault Refusal :=
  match s.arrival s.input.index with
  | some (c, .lapse owner, t) =>
    let t := t.drainPeer c owner
    if t.peerBusy c owner then .next s
    else .next (((t.unlease c owner).endWaits c owner).push c owner (.lapseAck c))
  | some (c, .lapseAck peer, t) => .next (t.setCore c { t.core c with lapseLeft := (t.core c).lapseLeft.erase peer })
  | _ => .next s

end Sys2Proof.Machine
end

