-- ==== Sys2Proof/Machine/Msg.lean ====
section
/-! DEFINITION. Group MSG: messages, code messages, replies, helpers, and the arrivals (R93, R108, R285 to R296). -/

namespace Sys2Proof.Machine

/-! ### Weight checks and steps of an instruction -/

/-- A part of an instruction that is done once although the instruction waits after it and is tried again. -/
def once (n : Nat) (act : M Unit) : M Unit := do
  let x ← getCtx
  if x.stage ≤ n then
    act
    modCtx fun x => { x with stage := n + 1 }

/-- CheckWeight(w) (R286). -/
def checkWeight (w : Nat) : M Unit := do
  let x ← getCtx
  if x.wheld = 0 ∨ w = 0 ∨ x.wheld ≤ w then trap .weightExhausted (BitVec.ofNat 64 w)

/-- Weight leaves the issuing context. -/
def handOver (w : Nat) : M Unit := modCtx fun x => { x with wheld := x.wheld - w }

/-- Weight of a register operand: modulo 2^48 (R286). -/
def weightOf (x : Word) : Nat := x.toNat % 2 ^ 48

/-! ### Arrival registers (R287) -/

/-- The arrival kind word of g22. -/
def Message.kindWord (m : Message) : Word :=
  BitVec.ofNat 64 (m.code.toNat * 2 ^ 32 + m.reason.toNat * 2 ^ 28 + m.sgen.toNat * 2 ^ 12 + m.sslot.toNat * 2 ^ 8 +
    m.kind.toNat * 16 + m.payload.length)

/-- g20 to g31 of a message's handler: the payload's marks travel with it (R193, R288). -/
def Message.regs (m : Message) : List (Word × Bool) :=
  [(m.sender.setWidth 64, false), (BitVec.ofNat 64 m.weight, false), (m.kindWord, false), (m.cookie.setWidth 64, false)] ++
    (List.range 8).map fun i => (m.payload.getD i 0, m.marks.getD i false)

/-- The token of a context: bits 25:0 of a message word. -/
def State.token (s : State) (c n : Nat) : Word :=
  BitVec.ofNat 64 ((s.ctx c n).gen.toNat * 2 ^ 14 + n * 2 ^ 10 + s.lidOf c)

/-! ### Sending (R288 to R292) -/

/-- The field of a core's job; none without a job, and none in a spare cluster, which takes no work (R59). -/
def State.jobField (s : State) (c : Nat) : Option Nat :=
  (s.fieldOf c).bind fun e => if (e.2.logical (clusterOf c)).isSome then e.2.job.map fun _ => e.1 else none

/-- A message that cannot be delivered goes from the core that says so to the stray handler of a core (R108). -/
def State.stray (s : State) (from_ c : Nat) (m : Message) (reason : Nat) : State :=
  s.push from_ c (.stray { m with reason := BitVec.ofNat 4 reason })

/-- The core of a message's sender. -/
def State.senderCore (s : State) (m : Message) : Nat := (s.coreOfLid m.sender.toNat).getD 0

/-- Injects a message or a reply: a DEST that names no healthy core comes back at once with reason 1 (R289). -/
def State.sendOut (s : State) (c : Nat) (m : Message) : Flight :=
  match s.coreOfLid m.dest.toNat with
  | some d => s.flight c d (if m.kind = 1 then .reply m else .message m)
  | none => s.flight c c (.stray { m with reason := 1 })

/-! ### The message port (R71, R92, R285) -/

/-- The message port of the core has a free entry among its two, or the context waits; a paired context's packets go to the hold buffer. -/
def portFree : M Unit := do
  let s ← get
  if !s.holding s.curCore s.curSlot && 2 ≤ (s.core s.curCore).msgPort.length then waitOn .messagePort 0

/-- A packet enters the queue of the message port. -/
def State.toPort (s : State) (c n : Nat) (f : Flight) : State := s.setCore c { s.core c with msgPort := (s.core c).msgPort ++ [(n, f)] }

/-- A packet of the issuing context enters the queue of the message port. -/
def toPort (f : Flight) : M Unit := do
  let (c, n) ← me
  emit (.flight f) fun s => s.toPort c n f

/-- The number by which a governor names the message port. -/
def portWho : Nat := 64

/-- The message port injects its oldest packet, of one flit, as its budget allows. Traffic of the supervisor is not charged. -/
def State.injectTurn (s : State) (c : Nat) : State :=
  match (s.core c).msgPort with
  | [] => s
  | (n, f) :: rest =>
    match s.meter c (if n = 0 then 0 else portWho) 0 1 none with
    | (true, t) => let t : State := { t with net := t.net ++ [f] }; t.setCore c { t.core c with msgPort := rest }
    | (false, t) => t

/-- `send`, `sendc` and `reply`: kind 0, 2 or 1. -/
def sendMessage (kind : BitVec 4) (d a : GReg) (obj : Option (PReg × Scope)) (entry code : BitVec 32) (limit : Nat)
    (text : Option (List Byte)) : M Next := do
  let (c, n) ← me
  let m ← regG d
  let w := weightOf (← regG a)
  let x ← getCtx
  let count := min (min (bits m 31 28) 8) limit
  let _ ← consume ([uG d, uG a] ++ (List.range count).map (24 + ·))
  let o ← match obj with
    | some (p, sc) => do
      let v ← regP p
      let _ ← consume [uP p]
      let _ ← objectKeys v .update
      pure (some (v, sc))
    | none => pure none
  checkWeight w
  portFree
  match o with
  | some (v, sc) => relObject v sc
  | none => pure ()
  let s ← get
  let msg : Message :=
    { kind := kind, dest := BitVec.ofNat 10 (bits m 9 0), entry := entry, cookie := BitVec.ofNat 32 (bits m 63 32), code := code,
      payload := (List.range count).map fun i => x.readG (24 + i), marks := (List.range count).map fun i => x.marked (24 + i),
      weight := w, dom := x.whome, sender := BitVec.ofNat 10 (s.lidOf c), sslot := BitVec.ofNat 4 n, sgen := x.gen,
      tslot := BitVec.ofNat 4 (bits m 13 10), tgen := BitVec.ofNat 12 (bits m 25 14), obj := o, reason := 0, text := text }
  handOver w
  toPort (s.sendOut c msg)
  pure .seq

/-- `send` (R288). The entry holds bits 23:2 of the offset. -/
def execSend (d a : GReg) (obj : Option (PReg × Scope)) (entry : BitVec 22) (s : State) : Host.Outcome State Fault Refusal :=
  perform .any (.send d a obj entry) (sendMessage 0 d a obj ((entry ++ 0#2).setWidth 32) 0 8 none) s

/-- `sendc` (R290): the code is read at issue by relaxed loads of its words; LEN is in units of four bytes. -/
def execSendc (d a : GReg) (obj : Option (PReg × Scope)) (c : PReg) (len : BitVec 4) (s : State) : Host.Outcome State Fault Refusal :=
  perform .noText (.sendc d a obj c len) (do
    let s ← get
    if !((s.jobOf s.curCore).any Job.codeMsg) then trap .privilege (instrLow (.sendc d a obj c len))
    let p ← regP c
    let _ ← consume [uP c]
    let va := p.toNat
    aligned va 4
    let words ← (List.range len.toNat).mapM fun i => do
      let key ← translate ((p + BitVec.ofNat 72 (4 * i)).toNat) 4 .read
      let s ← get
      let ks := s.keysOf key 4
      let r ← loadKeys false false ks
      watchAccess ((p + BitVec.ofNat 72 (4 * i)).toNat) ks r.1 .read (3 ≤ keySpace key)
      pure r.1
    sendMessage 2 d a obj 0 0 ((64 - 4 * len.toNat) / 8) (some words.flatten)) s

/-- `reply` (R292). -/
def execReply (d a : GReg) (obj : Option (PReg × Scope)) (code : BitVec 32) (s : State) : Host.Outcome State Fault Refusal :=
  perform .noText (.reply d a obj code) (sendMessage 1 d a obj 0 code 8 none) s

/-! ### Arrivals (R63, R102, R108, R111, R289, R292) -/

/-- Entries of the inbox in use, held replies among them. -/
def Core.inboxUsed (k : Core) : Nat := k.inbox.length + (k.ctxs.map fun e => e.2.replies.length).sum

/-- A message or a reply takes its place at its core: a reply whose target is not live goes to the stray handler of this
core with reason 4. -/
def State.settleIn (s : State) (c : Nat) (m : Message) : State :=
  if m.kind = 1 then
    let x := s.ctx c m.tslot.toNat
    if 1 ≤ m.tslot.toNat ∧ m.tslot.toNat ≤ 11 ∧ x.live ∧ x.gen = m.tgen then
      (s.setCtx c m.tslot.toNat { x with replies := x.replies ++ [m] }).pairKeeps c m.tslot.toNat fun p => { p with came := p.came ++ [m] }
    else s.stray c c m 4
  else s.setCore c { s.core c with inbox := (s.core c).inbox ++ [m] }

/-- The inbox refills from the overflow area in arrival order (R289). -/
def State.refill (s : State) (c : Nat) : List Message → State
  | [] => s.setCore c { s.core c with deflected := [] }
  | m :: rest =>
    if (s.core c).inboxUsed < 64 ∧ !(s.core c).tableFull m.dom then (s.settleIn c m).refill c rest
    else s.setCore c { s.core c with deflected := m :: rest }

def State.refillInbox (s : State) (c : Nat) : State :=
  let ms := (s.core c).deflected
  if ms.isEmpty then s else (s.setCore c { s.core c with deflected := [] }).refill c ms

/-- A message or a reply reaches its destination core. A destination that lies in a fenced cell and does not serve the sender's job either
answers with the reason of the fence: DESIGN CHOICE, R108 orders no reasons (assumption 117). -/
def State.arrive (s : State) (c : Nat) (m : Message) : State :=
  let k := s.core c
  if s.fenced c then s.stray c (s.senderCore m) m 2
  else if (s.jobField c).isNone ∨ s.jobField c ≠ s.jobField (s.senderCore m) then s.stray c (s.senderCore m) m 1
  else if k.deflected.isEmpty ∧ k.inboxUsed < 64 ∧ !k.tableFull m.dom then s.settleIn c m
  else if k.deflected.length < 7680 then s.setCore c { k with deflected := k.deflected ++ [m] }
  else (s.notice c (plainNotice .inboxOverflow m.sender.toNat (m.cookie.setWidth 64))).stray c (s.senderCore m) m 3

/-- MESSAGE_ARRIVAL (R289). -/
def execMessageArrival (s : State) : Host.Outcome State Fault Refusal :=
  match s.arrival s.input.index with
  | some (c, .message m, t) => .next (t.arrive c m)
  | _ => .next s

/-- REPLY_ARRIVAL (R292). -/
def execReplyArrival (s : State) : Host.Outcome State Fault Refusal :=
  match s.arrival s.input.index with
  | some (c, .reply m, t) => .next (t.arrive c m)
  | _ => .next s

/-- STRAY_DELIVERY (R108): 512 entries; a stray that finds them full loses its payload, and its weight goes home. -/
def execStrayDelivery (s : State) : Host.Outcome State Fault Refusal :=
  match s.arrival s.input.index with
  | some (c, .stray m, t) =>
    let k := t.core c
    if k.strays.length < 512 then .next (t.setCore c { k with strays := k.strays ++ [m] })
    else .next ((t.returnWeight c m.dom m.weight).notice c { plainNotice .inboxOverflow m.sender.toNat (m.cookie.setWidth 64) with slot := 1 })
  | _ => .next s

/-! ### The end of a handler (R292, R295, R302) -/

/-- A burst handler has ended. -/
def State.burstEnded (s : State) (c n : Nat) : State :=
  let x := s.ctx c n
  match x.role, x.request with
  | .burst, some id =>
    let k := s.core c
    match Assoc.find k.requests id with
    | some r => s.setCore c { k with requests := Assoc.put k.requests id { r with ended := r.ended + 1 } }
    | none => s
  | _, _ => s

/-- Replies that a context still holds go to the stray handler with reason 4. -/
def State.dropReplies (s : State) (c n : Nat) : State :=
  let ms := (s.ctx c n).replies
  ms.foldl (fun s m => s.stray c c m 4) (s.setCtx c n { s.ctx c n with replies := [] })

/-- A slot is free again: only its generation and its skid stay. A match of a watchpoint whose trap is still pending becomes a notice: DESIGN
CHOICE, R204 names no context that ends first (assumption 120). -/
def State.freeSlot (s : State) (c n : Nat) : State :=
  let x := s.ctx c n
  let s := match x.after with
    | some (.watchpoint, i, a) => s.notice c (plainNotice .watchpoint i a)
    | _ => s
  s.setCtx c n { Ctx.reset with gen := x.gen, skid := x.skid, halted := x.halted }

/-- What a context has written is released at once, as a release half at scope fd over all memory would (R147). -/
def State.releaseMoves (s : State) (c n : Nat) : State :=
  let s := s.drainAll c n
  s.evictAll c (s.core c).dirtyLines

/-- A helper ends: its writes are released, its replies are strays, its weight goes home (R295). -/
def State.endHelper (s : State) (c n : Nat) : State :=
  let s := s.releaseMoves c n
  let s := (s.dropReplies c n).burstEnded c n
  let x := s.ctx c n
  ((s.returnWeight c x.whome x.wheld).freeSlot c n).refillInbox c

/-- `halt`. -/
def execHalt (s : State) : Host.Outcome State Fault Refusal :=
  perform .any .halt (do
    let (c, n) ← me
    if n ≤ 1 then trap .privilege (instrLow .halt)
    releaseHalf .fd
    let x ← getCtx
    modify fun s => s.endHelper c n
    skidGone x
    pure .gone) s

/-- Weight of a reply that is not of the context's domain goes home. -/
def sendHome (dom : BitVec 24) (w : Nat) : M Unit := do
  let s ← get
  let c := s.curCore
  match s.coreOfLid (domLid dom) with
  | some h => if w = 0 then pure () else emit (.flight (s.flight c h (.weight dom w))) fun s => s.push c h (.weight dom w)
  | none => pure ()

/-- `wget` (R293). The object that the reply names is acquired before the reply is taken, so that a trap of the acquire leaves it. -/
def execWget (s : State) : Host.Outcome State Fault Refusal :=
  perform .noText .wget (do
    let (c, n) ← me
    let x ← getCtx
    if x.role = .burst ∨ x.role = .completion then trap .burstWait 0
    if n = 0 then trap .privilege (instrLow .wget)
    match x.replies with
    | [] => waitOn .reply 0
    | m :: rest =>
      match m.obj with
      | some (v, sc) => acqObject v sc
      | none => pure ()
      modCtx fun x => { x with replies := rest }
      modCtx fun x => ((List.range 12).zip m.regs).foldl (fun x (i, v) => (x.writeG (20 + i) v.1).mark (20 + i) v.2) x
      if x.wheld = 0 then modCtx fun x => { x with whome := m.dom, wheld := m.weight }
      else if m.dom = x.whome then modCtx fun x => { x with wheld := x.wheld + m.weight }
      else sendHome m.dom m.weight
      modify fun s => s.refillInbox c
      pure .seq) s

/-! ### Helpers (R93, R294) -/

/-- Sources of R93: returned bursts, completions, starts, messages. -/
def Core.sourceReady (k : Core) : Nat → Bool
  | 0 => !k.bursts.isEmpty
  | 1 => k.requests.any fun e => e.2.finished && e.2.ended = e.2.asked
  | 2 => !k.starts.isEmpty || ((k.ctx 1).live && (k.ctx 1).waiting.any fun w => w.on = .helper)
  | _ => !k.strays.isEmpty || !k.inbox.isEmpty

/-- The next source in rotation that has something for a helper. -/
def Core.nextSource (k : Core) : Option Nat :=
  ((List.range 4).map fun i => (k.rotation + i) % 4).find? k.sourceReady

/-- `start` and `start.t` (R294): the token, or 0 when no slot is free at issue; the blocking form waits for its turn. -/
def execStart (d a b c : GReg) (s : State) : Host.Outcome State Fault Refusal :=
  perform .noText (.start d a b c) (do
    let (core, n) ← me
    if 2 ≤ n then trap .privilege (instrLow (.start d a b c))
    let w := weightOf (← regG a)
    let e ← regG b
    let v ← regG c
    let x ← getCtx
    let mark ← consume ([uG a, uG b, uG c] ++ (List.range 8).map (24 + ·))
    if e.toNat % 4 ≠ 0 then trap .misaligned e
    checkWeight w
    let k ← getCore
    let waited := x.waiting.any fun y => y.on = .helper
    let go := if waited then k.nextSource = some 2 && k.starts.isEmpty else true
    match (if go && !k.stopped then k.freeHelper else none) with
    | none =>
      if d = 0 then waitOn .helper 0
      else
        setG d 0 mark
        pure .seq
    | some slot =>
      releaseHalf .co
      handOver w
      let s ← get
      let base := ((s.jobOf core).map (·.codebase)).getD 0
      let msg : Message :=
        { kind := 3, dest := 0, entry := 0, cookie := 0, code := 0, payload := (List.range 8).map fun i => x.readG (24 + i),
          marks := (List.range 8).map fun i => x.marked (24 + i), weight := w, dom := x.whome, sender := BitVec.ofNat 10 (s.lidOf core),
          sslot := BitVec.ofNat 4 n, sgen := x.gen, tslot := 0, tgen := 0, obj := none, reason := 0, text := none }
      modify fun s => s.startHelper core slot .started (base + BitVec.ofNat 72 (bits e 31 0))
        (msg.regs.set 3 (v, x.marked (uG c))) w x.whome
      if waited then modCore fun k => { k with rotation := 3 }
      let s ← get
      if d ≠ 0 then setG d (s.token core slot) mark
      pure .seq) s

/-- `qarm` (R296): an arm notice goes to the home of the job's own domain. -/
def execQarm (s : State) : Host.Outcome State Fault Refusal :=
  perform .noText .qarm (do
    let (c, _) ← me
    let s ← get
    match s.fieldOf c with
    | some (fid, f) =>
      match f.job with
      | some j =>
        once 0 (budget 0 1)
        let s ← get
        emit (.flight (s.flight c j.home (.arm fid))) fun s => s.push c j.home (.arm fid)
      | none => pure ()
    | none => pure ()
    pure .seq) s

/-! ### The start of handlers (R93, R160, R301) -/

/-- The acquire half of a handler that is about to start, over a region or over all memory (R147). -/
def acquireFor (e : EngAt) (sc : Scope) (rgn : Option Region) : E Unit := do
  let s ← get
  (((s.core e.core).cv.map (·.1)).filter fun l => discards sc l && s.coversLine e.core e.slot rgn l).forM fun l => do
    let s ← get
    if (s.core e.core).dirtyLines.contains l then
      engWay e (l * 64)
      engAdmit e 1 2 none
    modify fun s => s.evict e.core l

/-- The handler of a message that named an object acquires it: its binding is read at its home, and an unbound object covers nothing. An
object that the handler cannot read is not acquired (R152, R160). -/
def acquireNamed (e : EngAt) (va : Ptr) (sc : Scope) : E Unit := do
  match (← caught (engKeys e va.toNat 16 .read)) with
  | none => pure ()
  | some ks =>
    modify fun s => (ks.map lineOf).eraseDups.foldl (fun s l =>
      if keySpace (l * 64) = 2 then s.dropRemote e.core l else if keySpace (l * 64) ≤ 1 then s.evict e.core l else s) s
    let bs ← engRead e va 16
    let m := bitsOfBytes (bs.map (·.1))
    if objLen m ≠ 0 then acquireFor e sc (some (objRegion m))

/-- A burst handler starts (R301): each word has its mark, and CIR is set by them. -/
def State.startBurst (s : State) (c n : Nat) (base : Ptr) (b : Burst) (r : Request) : State :=
  let words := (List.range 8).map fun i => (BitVec.ofNat 64 (bitsOfBytes ((b.data.drop (8 * i)).take 8)), b.marks.getD i false)
  let regs := [(BitVec.ofNat 64 b.g20, false), (BitVec.ofNat 64 b.g21, false), (BitVec.ofNat 64 b.g22, false), (r.cookie, false)] ++ words
  let s := s.startHelper c n .burst (base + r.bentry.setWidth 72) regs 0 r.dom
  let x := { s.ctx c n with request := some b.req }
  let x := if b.marks.any id then x.cirSet cirPoison else x
  s.setCtx c n (if b.absent then x.cirSet cirAbsent else x)

/-- A completion handler starts with the request's weight; g20 holds the bursts that were asked for, all of them unless the request was
aborted (R301, R353). -/
def State.startCompletion (s : State) (c n : Nat) (base : Ptr) (id : Nat) (r : Request) : State :=
  let s := s.setCore c { s.core c with requests := Assoc.del (s.core c).requests id }
  s.startHelper c n .completion (base + r.centry.setWidth 72)
    [(BitVec.ofNat 64 r.asked, false), (BitVec.ofNat 64 r.poisoned, false), (0, false), (r.cookie, false)] r.weight r.dom

/-- A message's handler starts (R288, R291). -/
def State.startMessage (s : State) (c n : Nat) (j : Job) (m : Message) : State :=
  if m.reason ≠ 0 then s.startHelper c n .stray (j.codebase + j.strayEntry.setWidth 72) m.regs m.weight m.dom
  else
    match m.text with
    | some t =>
      let s := s.startHelper c n .message (BitVec.ofNat 72 textBase) m.regs m.weight m.dom
      s.setCtx c n { s.ctx c n with text := some t }
    | none => s.startHelper c n .message (j.codebase + m.entry.setWidth 72) m.regs m.weight m.dom

/-- What the handler of a message does before its first instruction, and its start. -/
def beginMessage (e : EngAt) (j : Job) (m : Message) : E Unit := do
  match m.obj with
  | some (va, sc) => acquireNamed e va sc
  | none => pure ()
  modify fun s => s.startMessage e.core e.slot j m

/-- A source gets a helper: what it acquires, the handler's start, and the rotation. -/
def grantTo (e : EngAt) (j : Job) (src : Nat) : E Unit := do
  let s ← get
  let c := e.core
  let n := e.slot
  let k := s.core c
  let turned : E Unit := modify fun s => s.setCore c { s.core c with rotation := (src + 1) % 4 }
  match src with
  | 0 =>
    -- returned bursts start in any order (R301)
    let i := s.input.row % k.bursts.length
    match k.bursts[i]? with
    | some b =>
      turned
      modify fun s =>
        let s := s.setCore c { s.core c with bursts := k.bursts.eraseIdx i }
        match Assoc.find k.requests b.req with
        | some r => s.startBurst c n j.codebase b r
        | none => s
    | none => pure ()
  | 1 =>
    match k.requests.find? fun x => x.2.finished && x.2.ended = x.2.asked with
    | some (id, r) =>
      acquireFor e .fd none
      turned
      modify fun s => s.startCompletion c n j.codebase id r
    | none => pure ()
  | 2 =>
    match k.starts with
    | x :: rest =>
      acquireFor e .fd none
      turned
      modify fun s => (s.setCore c { s.core c with starts := rest }).startHelper c n x.role x.pc
        [(x.g20, false), (x.g21, false), (x.g22, false), (x.g23, false)] x.weight x.dom
    | [] => pure ()
  | _ =>
    match k.strays with
    | m :: rest =>
      beginMessage e j m
      turned
      modify fun s => s.setCore c { s.core c with strays := rest }
    | [] =>
      match k.inbox with
      | m :: rest =>
        beginMessage e j m
        turned
        modify fun s => (s.setCore c { s.core c with inbox := rest }).refillInbox c
      | [] => pure ()

/-- HELPER_GRANT (R93): the lowest free slot goes to the next source in rotation, once what its handler acquires is done. No helper starts
while the core is stopped (R205). A blocked `start` of the control context takes its slot when it is issued again. -/
def execHelperGrant (s : State) : Host.Outcome State Fault Refusal :=
  let c := s.input.core
  let k := s.core c
  match s.jobOf c, k.freeHelper, k.nextSource with
  | some j, some n, some src =>
    if k.stopped || !s.able c || k.bootMode || j.pre = .hardSaved || (s.jobField c).isNone then .next s
    else
      match grantTo ⟨c, n, 0, .start⟩ j src s with
      | .ok (_, t) => .next (t.unitOver c .start)
      | .error (.later t) => .next t
      | .error (.fault _ _ _) => .next s
  | _, _, _ => .next s

end Sys2Proof.Machine
end

