-- ==== Sys2Proof/Machine/Task.lean ====
section
/-! DEFINITION. Group TASK (R75, R88, R297 to R299, R380). -/

namespace Sys2Proof.Machine

/-! ### Structures in the job's space (R75, R380) -/

/-- Reads `n` bytes at a virtual address, each line translated for `k` and read at its home. -/
def readVa (va : Ptr) (n : Nat) (k : Access) : M (List Byte) := do
  let first := va.toNat
  let blocks := (List.range ((first % 64 + n + 63) / 64)).map fun i =>
    let lo := if i = 0 then 0 else 64 * i - first % 64
    (lo, min (64 * (i + 1) - first % 64) n - lo)
  let parts ← blocks.mapM fun b => do
    let key ← translate (va + BitVec.ofNat 72 b.1).toNat b.2 k
    let s ← get
    let r ← loadKeys true false (s.keysOf key b.2)
    pure r.1
  pure parts.flatten

/-- A task record from its 64 bytes. -/
def taskOf (bs : List Byte) : TaskRec where
  entry := BitVec.ofNat 32 (field bs 0 4)
  flags := BitVec.ofNat 32 (field bs 4 4)
  param := BitVec.ofNat 128 (field bs 8 16)
  succ := BitVec.ofNat 128 (field bs 24 16)
  iterLo := BitVec.ofNat 32 (field bs 40 4)
  iterHi := BitVec.ofNat 32 (field bs 44 4)
  hintX := bs.getD 54 0
  hintY := bs.getD 55 0
  radius := bs.getD 56 0
  gangPos := bs.getD 57 0
  gangId := BitVec.ofNat 16 (field bs 58 2)

/-- How many records stand at a record's address: a gang's role-0 record is followed by its other roles. -/
def TaskRec.records (t : TaskRec) : Nat := if t.gang && t.gangRole = 0 then t.gangSize else 1

/-- Reads a record, and the roles that follow it; the record itself is translated for `k`, the roles for reading. -/
def readTask (va : Ptr) (k : Access) : M (TaskRec × List TaskRec) := do
  let bs ← readVa va 64 k
  let t := taskOf bs
  let more ← readVa (va + 64) (64 * (t.records - 1)) .read
  pure (t, (List.range (t.records - 1)).map fun i => taskOf (more.drop (64 * i)))

/-- A successor list: its pointers, or none when it is malformed (R75). A SUCC pointer word of the record itself with bits 127:72 set is
treated the same: DESIGN CHOICE, the rule names the pointer words that the list holds only (assumption 118). -/
def readSuccs (succ : BitVec 128) : M (Option (List Ptr)) := do
  if succ = 0 then pure (some [])
  else
    match ptrOf? succ.toNat with
    | none => pure none
    | some p =>
      let n := bitsOfBytes (← readVa p 8 .read)
      if 65535 < n then pure none
      else
        let bs ← readVa (p + 16) (16 * n) .read
        let ps := (List.range n).map fun i => ptrOf? (field bs (16 * i) 16)
        if ps.all fun p => p.any fun a => a.toNat % 64 = 0 then pure (some (ps.filterMap id)) else pure none

/-! ### tend (R75, R88, R131, R297) -/

/-- A tile is closed (R315). -/
def Core.closeTiles (k : Core) : Core := { k with tiles := k.tiles.map fun e => (e.1, { e.2 with opened := none }) }

/-- A packet of pipe `p` that is bound for one of two cores. -/
def Flight.ofPipe (f : Flight) (p c d : Nat) : Bool :=
  (f.dst = c || f.dst = d) && match f.body with
    | .pipeEntry q _ _ _ | .pipeCredit q _ => q = p
    | _ => false

/-- The pipes of a core close at both ends, and their entries are discarded, those on their way with them (R310). -/
def State.closePipes (s : State) (c : Nat) : State :=
  (List.range 8).foldl (fun s p =>
    let b := bits (s.core c).pipemap (8 * p + 7) (8 * p)
    if b / 128 = 0 then s
    else
      let shut (s : State) (c : Nat) : State :=
        let k := s.core c
        s.setCore c { k with pipes := Assoc.put k.pipes p { Assoc.get PipeEnd.reset k.pipes p with closed := true, count := 0 } }
      let d := coreOf (clusterOf c) (b % 4)
      let s := shut (shut s c) d
      { s with net := s.net.filter fun f => !f.ofPipe p c d }) s

/-- Lapse notices go to every peer that holds a lease on the core (R131). -/
def State.lapseNotices (s : State) (c : Nat) : State :=
  (List.range 4).foldl (fun s q =>
    let p := coreOf (clusterOf c) q
    if p ≠ c ∧ bit (s.core p).held (posOf c) then
      (s.setCore c { s.core c with lapseLeft := p :: (s.core c).lapseLeft }).push c p (.lapse c)
    else s) s

/-- A taint report, when CIR bits 3:0 are not zero (R196). -/
def State.taintOf (s : State) (fid c : Nat) (j : Job) (x : Ctx) : State :=
  if bits x.cir 3 0 = 0 then s else s.push c j.home (.taint fid (BitVec.ofNat 4 (bits x.cir 3 0)))

/-- The leases of a core whose control context runs no task: those that peers have kept by RETAIN at their `tend` (R129, R132). -/
def State.keptLeases (s : State) (c : Nat) : BitVec 4 :=
  (List.range 4).foldl (fun h q => if bit (s.core (coreOf (clusterOf c) q)).kept (posOf c) then h else h &&& ~~~(1#4 <<< q)) (s.core c).held

/-- `tend` keeps the leases on a core by RETAIN (R132). -/
def State.keepLeases (s : State) (c : Nat) : State :=
  let holds (q : Nat) : Bool := coreOf (clusterOf c) q ≠ c && bit (s.core (coreOf (clusterOf c) q)).held (posOf c)
  s.setCore c { s.core c with kept := (List.range 4).foldl (fun h q => if holds q then h ||| (1#4 <<< q) else h) 0 }

/-- The control context is free, and the east half of a pair with it (R91, R297). -/
def State.freeControl (s : State) (c : Nat) : State :=
  let east := (s.core c).pair.isSome && !((s.ctx (eastOf c) 1).role != .none)
  let s := s.freeSlot c 1
  let s := s.setCore c { s.core c with
    running := none, rot := none, held := s.keptLeases c, idleSince := s.cycle, stealNext := none, stealing := false }
  if east then
    let s := s.freeSlot (eastOf c) 1
    s.setCore (eastOf c) { s.core (eastOf c) with idleSince := s.cycle, stealNext := none, stealing := false }
  else s

/-- The end of a task after its successors: count, taint, pipes, replies and lapse notices (R75 steps 4 and 5, R88). What `tend` itself has
consumed is in the CIR that it reports (R194, R196). -/
def State.closeTask (s : State) (fid c : Nat) (j : Job) (counts : Bool) : State :=
  let x := (s.ctx c 1).digest
  let s := s.setCtx c 1 x
  let s := if counts then s.modJob fid fun j => { j with ended := j.ended + 1 } else s
  let s := s.taintOf fid c j x
  let s := (s.dropReplies c 1).closePipes c
  let s := s.setCore c { s.core c with release := none, freed := false, succs := [], succAt := [], running := none }
  if (s.core c).retain then s.keepLeases c else s.lapseNotices c

/-- The weight of the control context goes home. -/
def State.yieldWeight (s : State) (c : Nat) : State :=
  let x := s.ctx c 1
  (s.returnWeight c x.whome x.wheld).setCtx c 1 { x with wheld := 0 }

/-- The copies leave with their shares of the task's weight (R75 step 2). -/
def State.giveShares (s : State) (fid c : Nat) (copies : List TaskCopy) : State :=
  let x := s.ctx c 1
  let s := s.setCtx c 1 { x with wheld := 0 }
  (copies.zip (shares x.wheld copies.length)).foldl (fun s (t, w) => s.inject fid c { t with weight := w, dom := x.whome }) s

/-- The join entry that a task holds. -/
def Job.entryOf (j : Job) (r : Running) : Option (Nat × JoinEntry) := r.join.bind fun i => (Assoc.find j.joins i).map fun e => (i, e)

/-- The task's `tend` walks a successor list: it holds no join entry, or is the entry's last piece (R88). -/
def Job.walks (j : Job) (r : Running) : Bool :=
  match j.entryOf r with
  | some (_, e) => e.openPieces ≤ 1
  | none => r.join.isNone
def Job.succOf (j : Job) (r : Running) : BitVec 128 :=
  match j.entryOf r with
  | some (_, e) => e.succ
  | none => r.task.succ

/-- The checks of R75 before step 1: the list and every record that it names, with the roles of a gang, are translated; none when the list is
malformed. What has been translated stays for the walk. -/
def tendCheck (j : Job) (r : Running) : M (Option (List Ptr)) := do
  if !j.walks r then pure (some [])
  else
    match (← readSuccs (j.succOf r)) with
    | none => pure none
    | some ps =>
      ps.forM fun p => do
        let _ ← readTask p .update
      pure (some ps)

/-- The end of a piece by R88, step 3, or the start of the release unit; without a list to walk the weight is home. -/
def tendBegin (fid c : Nat) (j : Job) (r : Running) (list : Option (List Ptr)) : M Unit := do
  let entry := j.entryOf r
  let counts := match entry with
    | some (_, e) => e.countIt
    | none => !r.task.spawned
  if !j.walks r then
    modify fun s =>
      let s := s.modJob fid fun j =>
        match entry with
        | some (i, e) => { j with joins := Assoc.put j.joins i { e with openPieces := e.openPieces - 1 } }
        | none => j
      ((s.setCore c (s.core c).closeTiles).yieldWeight c).closeTask fid c j false
  else
    match list with
    | none => modify fun s =>
      let s := s.modJob fid fun j =>
        match entry with
        | some (i, _) => { j with joins := Assoc.del j.joins i, joinFree := j.joinFree ++ [i], incomplete := true }
        | none => { j with incomplete := true }
      ((s.setCore c (s.core c).closeTiles).yieldWeight c).closeTask fid c j counts
    | some ps =>
      let x ← getCtx
      modify fun s =>
        let s := s.modJob fid fun j =>
          match entry with
          | some (i, _) => { j with joins := Assoc.del j.joins i, joinFree := j.joinFree ++ [i] }
          | none => j
        let flags := if counts then r.task.flags &&& ~~~0x80#32 else r.task.flags ||| 0x80#32
        let k := (s.core c).closeTiles
        s.setCore c { k with
          release := some (0, []), succs := ps, succAt := x.places
          running := some { r with join := none, task := { r.task with succ := j.succOf r, flags := flags } } }

/-- The DEPCOUNT of a successor falls by one at its home; whether the count was 1 (R75 step 1). -/
def tendCount (p : Ptr) : M Bool := do
  let key ← translate (p + 60).toNat 4 .update
  let s ← get
  let ks := s.keysOf key 4
  let old ← atHome ks .decrement false
  watchAccess (p + 60).toNat ks (bytesOfBits 4 (HomeOp.decrement.apply 4 old.1)) .atomic false
  pure (old.1 = 1)

/-- One successor: its DEPCOUNT falls by one, once, and a count of 1 releases it: its record is read then (R75 step 1). Every access goes where the
check before the walk has translated it. -/
def tendWalk (done : Nat) (copies : List TaskCopy) (p : Ptr) : M Unit := do
  let k ← getCore
  modCtx fun x => { x with places := k.succAt }
  let go ← if k.freed then pure true else tendCount p
  if go then
    modCore fun k => { k with freed := true }
    let (t, roles) ← readTask p .update
    modCore fun k => { k with freed := false, release := some (done + 1, copies ++ [⟨t, roles, 0, 0, none⟩]) }
  else modCore fun k => { k with release := some (done + 1, copies) }
  modCtx fun x => { x with remote := .idle, fetched := [], places := [], committed := false }
  waitOn .retry 0

/-- `tend` (R297). Each turn of the release unit decrements one successor. -/
def execTend (s : State) : Host.Outcome State Fault Refusal :=
  perform .noText .tend (do
    let (c, n) ← me
    if n ≠ 1 then trap .privilege (instrLow .tend)
    let k ← getCore
    if !k.matq.isEmpty then waitOn .matrix 0
    let s ← get
    let x ← getCtx
    match s.fieldOf c with
    | none =>
      releaseHalf .fd
      modify fun s => s.freeControl c
      skidGone x
      pure .gone
    | some (fid, f) =>
      match f.job, k.running with
      | some j, some r =>
        match k.release with
        | none =>
          let list ← tendCheck j r
          releaseHalf .fd
          tendBegin fid c j r list
          waitOn .retry 0
        | some (done, copies) =>
          match k.succs[done]? with
          | some p =>
            tendWalk done copies p
            pure .gone
          | none =>
            if x.wheld < copies.length then trap .weightExhausted (BitVec.ofNat 64 copies.length)
            modify fun s =>
              let s := if copies.isEmpty then s.yieldWeight c else s.giveShares fid c copies
              s.closeTask fid c j (!r.task.spawned)
            waitOn .leaseAck 0
      | _, _ =>
        if !k.lapseLeft.isEmpty then waitOn .leaseAck 0
        modify fun s => (s.freeControl c).refillInbox c
        skidGone x
        pure .gone) s

/-! ### tnext and tspawn (R298, R299) -/

/-- The identity registers of tile `t` of a grid (R78). -/
def Core.drawTile (k : Core) (g : Option Grid) (t : Nat) : Core :=
  match g with
  | none => { k with tileIdx := BitVec.ofNat 32 t }
  | some g =>
    let cx := t % g.ntx
    let cy := t / g.ntx
    { k with
      tileIdx := BitVec.ofNat 32 t
      tileOrg := BitVec.ofNat 64 (cx * g.tx % 2 ^ 32 + cy * g.ty % 2 ^ 32 * 2 ^ 32)
      tileNom := BitVec.ofNat 64 (g.tx + g.ty * 2 ^ 32)
      tileExt := BitVec.ofNat 64 (min g.tx (g.x - cx * g.tx) + min g.ty (g.y - cy * g.ty) * 2 ^ 32) }

/-- `tnext` (R298). -/
def execTnext (d : GReg) (s : State) : Host.Outcome State Fault Refusal :=
  perform .noText (.tnext d) (do
    let (c, n) ← me
    if n ≠ 1 then trap .privilege (instrLow (.tnext d))
    let k ← getCore
    let s ← get
    match k.running with
    | none =>
      setG d (BitVec.allOnes 64) false
      pure .seq
    | some r =>
      let lo := k.iterLo.toNat
      let hi := k.iterHi.toNat
      let pausing := (s.jobOf c).any fun j => match j.pre with
        | .pausing _ => true
        | .running | .parked | .hardSaved => false
      if !r.task.range then setG d (BitVec.allOnes 64) false
      else if pausing && lo < hi then
        match s.fieldOf c with
        | none => pure ()
        | some (fid, _) =>
          match s.joinFor fid c r with
          | none => waitOn .joinIndex 0
          | some (i, t) =>
            let t := t.openPiece fid i
            let piece := pieceOf r k.iterLo k.iterHi i
            set (t.modJob fid fun j => { j with parked := j.parked ++ [⟨piece, [], 0, 0, r.grid⟩] })
            modCore fun k => { k with iterLo := k.iterHi }
            setG d (BitVec.ofNat 64 0xFFFF_FFFF_FFFF_FFFE) false
      else if lo = hi then setG d (BitVec.allOnes 64) false
      else
        modCore fun k => { (k.drawTile r.grid lo) with iterLo := BitVec.ofNat 32 (lo + 1) }
        setG d (BitVec.ofNat 64 lo) false
      pure .seq) s

/-- `tspawn` (R299). The record and the roles of a gang are translated before the weight is checked. The copy leaves by the message port,
and visits this core first, where a malformed gang is refused and a pause parks it (R80, R89, R96). -/
def execTspawn (a : PReg) (b : GReg) (s : State) : Host.Outcome State Fault Refusal :=
  perform .noText (.tspawn a b) (do
    let (c, _) ← me
    let p ← regP a
    let w := weightOf (← regG b)
    let _ ← consume [uP a, uG b]
    if p.toNat % 64 ≠ 0 then trap .misaligned (p.setWidth 64)
    let (t, roles) ← readTask p .read
    checkWeight w
    portFree
    releaseHalf .fd
    let x ← getCtx
    handOver w
    let spawned (r : TaskRec) : TaskRec := { r with flags := (r.flags ||| 0x80#32) &&& ~~~0x48#32 }
    let s ← get
    match s.fieldOf c with
    | some (_, f) => toPort (s.flight c c (.transit ⟨spawned t, roles.map spawned, w, x.whome, none⟩ (f.route s c (spawned t))))
    | none => pure ()
    pure .seq) s

end Sys2Proof.Machine
end

