-- ==== Sys2Proof/Machine/Bulk.lean ====
section
/-! DEFINITION. Group BULK and the bulk engine: bursts, copies, publication (R300 to R306, R353). -/

namespace Sys2Proof.Machine

/-! ### Objects, as an engine or the network reaches them (R307) -/

/-- An operation of an engine or a router on an object whose key is known. When the host holds the line, the operation waits at the home
until the host has given it up (R17); at a fenced slice or core it is dropped, and counted for the issuer (R63). -/
def State.atKey (s : State) (e : EngAt) (obj : Ptr) (port key : Nat) (op : HomeOp) : State :=
  let ks := s.keysOf key 16
  if keySpace key = 2 then
    ((s.dropRemote e.core (lineOf key)).postFor e.core e.who e.gen port key (.atomic 16 op false)).engWatch e obj.toNat ks
  else if s.keyFenced key then s.engLose e
  else
    let t := if keySpace key ≤ 1 then (s.evict e.core (lineOf key)).takeHost (lineOf key) else s
    if keySpace key = 0 ∧ (Assoc.find t.directory (lineOf key)).isSome then
      let t := t.askHost (lineOf key)
      ({ t with biOps := t.biOps ++ [(lineOf key, ks, op, false)] }).engWatch e obj.toNat ks
    else ((t.homeOp ks op false).2.2.touchSlice e.core key false).engWatch e obj.toNat ks

/-- An object that cannot be reached now, and later may: its leaf is migrating, or the field's own routes do not bring the operation to its
home (R65, R140). -/
def State.objectWaits (s : State) (e : EngAt) (obj : Ptr) : Bool :=
  match (s.locate e.core e.slot obj.toNat 16 .update).1 with
  | .at_ key => !s.wayTo e.core key
  | .migrating => true
  | .bad _ => false

/-- An operation on an object at its home, for an engine or a router; false when it cannot be reached. -/
def State.atObject (s : State) (e : EngAt) (obj : Ptr) (op : HomeOp) : Bool × State :=
  let reads := s.walkReads e.core e.slot obj.toNat
  match s.locate e.core e.slot obj.toNat 16 .update with
  | (.at_ key, t) => (true, (t.touchAll e.core reads).atKey e obj (s.portBy [] key) key op)
  | (_, t) => (false, t)

/-- The object of an engine's command, which it translates like its other pages: its key, once the field's own routes lead to its home and the
governor has admitted the operation; none when no object can be reached there. A migrating page makes the engine wait (R71, R139, R140). -/
def engObject (e : EngAt) (obj : Ptr) : E (Option Nat) := do
  match (← caught (engKeys e obj.toNat 16 .update)) with
  | some (k :: _) =>
    engCharge e (lineOf k)
    pure (some k)
  | some [] | none => pure none

/-! ### Where the sectors of a copy lie (R304, R306) -/

/-- An address at a signed distance. -/
def offBy (p : Ptr) (n : Int) : Ptr := p + BitVec.ofInt 72 n

/-- The Morton index of element (x, y) (R306). -/
def morton (lx ly x y : Nat) : Nat :=
  let k := min lx ly
  let low := (List.range k).foldl (fun a i => a + x / 2 ^ i % 2 * 4 ^ i + y / 2 ^ i % 2 * 2 * 4 ^ i) 0
  low + (if ly < lx then x / 2 ^ k else y / 2 ^ k) * 4 ^ k

/-- The element at a Morton index. -/
def demorton (lx ly m : Nat) : Nat × Nat :=
  let k := min lx ly
  let x := (List.range k).foldl (fun a i => a + m / 4 ^ i % 2 * 2 ^ i) 0
  let y := (List.range k).foldl (fun a i => a + m / 4 ^ i / 2 % 2 * 2 ^ i) 0
  let rest := m / 4 ^ k
  if ly < lx then (x + rest * 2 ^ k, y) else (x, y + rest * 2 ^ k)

/-- Where each destination sector lies, how many there are, and the pieces of the source that fill it. -/
structure CopyPlan where
  count : Nat
  dst : Nat → Ptr
  src : Nat → List (Ptr × Nat)

def BulkOp.plan : BulkOp → CopyPlan
  | .bread _ _ _ _ _ _ => ⟨0, fun _ => 0, fun _ => []⟩
  | .copy _ dst src ds ss rows cols _ =>
    ⟨rows * cols, fun i => offBy dst (32 * (((i / cols : Nat) : Int) * ds + (i % cols : Nat))),
      fun i => [(offBy src (32 * (((i / cols : Nat) : Int) * ss + (i % cols : Nat))), 32)]⟩
  | .copym dst src pitch lx ly e toMorton _ =>
    let row := 2 ^ lx * e
    let p := if pitch = 0 then row else pitch
    let linear (x y : Nat) : Nat := y * p + x * e
    if toMorton then
      ⟨2 ^ (lx + ly) * e / 32, fun i => dst + BitVec.ofNat 72 (32 * i),
        fun i => (List.range (32 / e)).map fun j =>
          let xy := demorton lx ly (32 * i / e + j)
          (src + BitVec.ofNat 72 (linear xy.1 xy.2), e)⟩
    else
      ⟨2 ^ (lx + ly) * e / 32,
        fun i => dst + BitVec.ofNat 72 (if pitch = 0 then 32 * i else 32 * i / row * p + 32 * i % row),
        fun i => (List.range (32 / e)).map fun j =>
          let b := 32 * i + j * e
          (src + BitVec.ofNat 72 (morton lx ly (b % row / e) (b / row) * e), e)⟩

/-! ### The queues (R92, R300, R304) -/

/-- The engine that serves a command: each has a queue of two of its own (assumption 27). -/
def BulkOp.unit : BulkOp → EngUnit
  | .bread _ _ _ _ _ _ => .bulk
  | .copy _ _ _ _ _ _ _ _ | .copym _ _ _ _ _ _ _ _ => .copy

/-- The queue of the copy engine, and that of the bulk engine for every other unit. -/
def Core.bulkQueue (k : Core) (u : EngUnit) : List BulkCmd :=
  match u with
  | .copy => k.copyq
  | .matrix | .bulk | .kernel | .report | .start => k.bulkq
def Core.setBulkQueue (k : Core) (u : EngUnit) (q : List BulkCmd) : Core :=
  match u with
  | .copy => { k with copyq := q }
  | .matrix | .bulk | .kernel | .report | .start => { k with bulkq := q }

/-- What is parked at the head of that queue. -/
def Core.bulkParked (k : Core) (u : EngUnit) : Option Parked :=
  match u with
  | .copy => k.copyPark
  | .matrix | .bulk | .kernel | .report | .start => k.bulkPark

def bulkEng (c : Nat) (cmd : BulkCmd) : EngAt := ⟨c, cmd.slot, cmd.gen, cmd.op.unit⟩

/-- A command joins its queue of a core; a `bread` takes a request record with it. Commands that ask for nothing are done. -/
def State.addBulk (s : State) (c : Nat) (cmd : BulkCmd) (request : Option Request) : State :=
  let k := s.core c
  match request with
  | none => if cmd.op.plan.count = 0 then s else s.setCore c (k.setBulkQueue cmd.op.unit (k.bulkQueue cmd.op.unit ++ [cmd]))
  | some r =>
    s.setCore c { k with
      bulkq := if r.finished then k.bulkq else k.bulkq ++ [{ cmd with op := match cmd.op with
        | .bread _ base stride rows cols row64 => .bread k.nextRequest base stride rows cols row64
        | .copy pub dst src ds ss rows cols obj => .copy pub dst src ds ss rows cols obj
        | .copym dst src pitch lx ly esz m obj => .copym dst src pitch lx ly esz m obj }]
      requests := Assoc.put k.requests k.nextRequest r, nextRequest := k.nextRequest + 1 }

/-- The queue of two entries has a free one, and the stores of the context have drained (R92, R157). -/
def bulkReady (u : EngUnit) : M Unit := do
  let k ← getCore
  if 2 ≤ (k.bulkQueue u).length then waitOn .engineQueue 0
  drainForEngine

/-- A command enters the queue; a paired context's waits in the hold buffer (R198). -/
def enqueueBulk (op : BulkOp) (request : Option Request) : M Next := do
  let (c, n) ← me
  let x ← getCtx
  let cmd : BulkCmd := ⟨op, n, x.pc, x.gen, [], [], false, [], none⟩
  emit (.bulk cmd request) fun s => s.addBulk c cmd request
  pure .seq

/-- `bread` (R300, R301). -/
def execBread (d : GReg) (a : PReg) (b c : GReg) (bentry centry : BitVec 22) (stride : BitVec 16) (s : State) : Host.Outcome State Fault Refusal :=
  perform .noText (.bread d a b c bentry centry stride) (do
    let g ← regG d
    let base ← regP a
    let w := weightOf (← regG b)
    let cookie ← regG c
    let _ ← consume [uG d, uP a, uG b, uG c]
    aligned base.toNat 64
    checkWeight w
    bulkReady .bulk
    let x ← getCtx
    let rows := min (bits g 15 0) (bits g 47 32)
    let cols := min (bits g 31 16) (bits g 63 48)
    handOver w
    enqueueBulk (.bread 0 base stride.toInt rows cols (bits g 31 16))
      (some ⟨w, x.whome, cookie, (bentry ++ 0#2).setWidth 32, (centry ++ 0#2).setWidth 32, 0, 0, 0, rows * cols = 0⟩)) s

/-- `copy` (R304). Row bytes are in units of 32. -/
def execCopy (pub : Bool) (a b c : PReg) (d : GReg) (rowb : BitVec 11) (rows sstr : BitVec 16) (s : State) : Host.Outcome State Fault Refusal :=
  perform .noText (.copy pub a b c d rowb rows sstr) (do
    let dst ← regP a
    let src ← regP b
    let obj ← regP c
    let g ← regG d
    let _ ← consume [uP a, uP b, uP c, uG d]
    aligned dst.toNat 32
    aligned src.toNat 32
    let _ ← objectKeys obj .update
    bulkReady .copy
    enqueueBulk (.copy pub dst src ((BitVec.ofNat 16 (bits g 15 0)).toInt) sstr.toInt (min rows.toNat (bits g 31 16))
      (min rowb.toNat (bits g 47 32)) obj) none) s

/-- `copym` (R306). -/
def execCopym (a b c : PReg) (d : GReg) (lx ly : BitVec 4) (esz : BitVec 2) (dir : Bool) (s : State) : Host.Outcome State Fault Refusal :=
  perform .noText (.copym a b c d lx ly esz dir) (do
    let dst ← regP a
    let src ← regP b
    let obj ← regP c
    let pitch ← regG d
    let _ ← consume [uP a, uP b, uP c, uG d]
    aligned dst.toNat 32
    aligned src.toNat 32
    let row := 2 ^ lx.toNat * 2 ^ esz.toNat
    if pitch.toNat ≠ 0 ∧ (pitch.toNat < row ∨ pitch.toNat % 32 ≠ 0 ∨ row % 32 ≠ 0) then trap .misaligned pitch
    let _ ← objectKeys obj .update
    bulkReady .copy
    enqueueBulk (.copym dst src pitch.toNat lx.toNat ly.toNat (2 ^ esz.toNat) (!dir) obj) none) s

/-! ### Bursts (R301, R303) -/

/-- How many bursts or sectors a command has. -/
def BulkCmd.total (cmd : BulkCmd) : Nat :=
  match cmd.op with
  | .bread _ _ _ rows cols _ => rows * cols
  | .copy _ _ _ _ _ _ _ _ | .copym _ _ _ _ _ _ _ _ => cmd.op.plan.count

/-- What burst or sector `i` of a command reads and writes. -/
def BulkCmd.spansOf (cmd : BulkCmd) (i : Nat) : List (Ptr × Nat) :=
  match cmd.op with
  | .bread _ base stride _ cols _ => [(offBy base (64 * (((i / cols : Nat) : Int) * stride + (i % cols : Nat))), 64)]
  | .copy _ _ _ _ _ _ _ obj | .copym _ _ _ _ _ _ _ obj => (cmd.op.plan.dst i, 32) :: (obj, 16) :: cmd.op.plan.src i

/-- The command has not finished its bytes on the page of an address (R139). -/
def BulkCmd.onPage (cmd : BulkCmd) (va : Nat) : Bool :=
  (List.range cmd.total).any fun i => !cmd.done.contains i && (cmd.spansOf i).any fun p => p.1.toNat / 65536 ≤ va / 65536 && va / 65536 ≤ (p.1.toNat + p.2 - 1) / 65536

/-- Every burst has been requested: the next command may ask for its own (R301). -/
def BulkCmd.allAsked (cmd : BulkCmd) : Bool := cmd.aborted || cmd.done.length + cmd.asked.length = cmd.total

/-- What the command has requested for burst or sector `i`. -/
def BulkCmd.request (cmd : BulkCmd) (i : Nat) : Option (Nat × List Nat) := (cmd.asked.find? fun a => a.1 = i).map (·.2)
def BulkCmd.returned (cmd : BulkCmd) (i : Nat) : BulkCmd := { cmd with asked := cmd.asked.filter fun a => a.1 ≠ i, done := i :: cmd.done }

/-- A command leaves its queue; what the engine has translated stays for what the other command of the queue has begun with (R139). -/
def State.bulkOver (s : State) (c : Nat) (u : EngUnit) (rest : List BulkCmd) : State :=
  let k := s.core c
  s.setCore c { k.setBulkQueue u rest with
    engPlaces := Assoc.set [] k.engPlaces u.code ((Assoc.get [] k.engPlaces u.code).filter fun p =>
      rest.any fun b => (!b.asked.isEmpty || !b.done.isEmpty) && b.onPage p.va) }

/-- The head command is done. -/
def State.bulkPop (s : State) (c : Nat) (u : EngUnit) : State := s.bulkOver c u (((s.core c).bulkQueue u).drop 1)

/-- The engine works on a command: its core is not halted, and no hard save holds it. -/
def State.bulkRuns (s : State) (c : Nat) (cmd : BulkCmd) : Bool := (s.core c).engineRuns cmd.slot && !s.saved c

/-- The head command of an engine that runs, and whether it may ask for more: a parked one only waits for what it has asked for. -/
def State.bulkHead (s : State) (c : Nat) (u : EngUnit) : Option (BulkCmd × Bool) :=
  match (s.core c).bulkQueue u with
  | [] => none
  | cmd :: _ => if s.bulkRuns c cmd then some (cmd, ((s.core c).bulkParked u).isNone) else none

def State.setHead (s : State) (c : Nat) (cmd : BulkCmd) : State :=
  s.setCore c ((s.core c).setBulkQueue cmd.op.unit (cmd :: ((s.core c).bulkQueue cmd.op.unit).drop 1))

/-- Work on a command: it is done, waits, or parks at a page that faults, which only the head command does (R303). -/
def State.bulkRun (s : State) (c : Nat) (cmd : BulkCmd) (work : E Unit) : State :=
  match work s with
  | .ok (_, t) => t
  | .error (.later t) => t
  | .error (.fault cause addr t) =>
    if ((s.core c).bulkQueue cmd.op.unit).head? = some cmd then t.parkAt (bulkEng c cmd) cmd.pc cause addr else s

/-- A command of a request that runs, and whether it may ask for more: every command before it has asked for all of its bursts, so that the
bursts of different requests return in any order (R301). -/
def State.breadOf (s : State) (c id : Nat) : Option (BulkCmd × Bool) :=
  let is (b : BulkCmd) : Bool := match b.op with
    | .bread r _ _ _ _ _ => r = id
    | .copy _ _ _ _ _ _ _ _ | .copym _ _ _ _ _ _ _ _ => false
  match (s.core c).bulkq.find? is with
  | some cmd => if s.bulkRuns c cmd then some (cmd, ((s.core c).bulkq.takeWhile fun b => !is b).all BulkCmd.allAsked && (s.core c).bulkPark.isNone) else none
  | none => none

/-- A command of the queue of the bulk engine as it has become. -/
def State.setBread (s : State) (c : Nat) (cmd : BulkCmd) : State :=
  s.setCore c { s.core c with bulkq := (s.core c).bulkq.map fun b => if b.op = cmd.op then cmd else b }

/-- The burst buffers in use: a returned burst holds one, and a requested one (R301). -/
def Core.burstBuffers (k : Core) : Nat := k.bursts.length + k.bulkq.foldl (fun n b => n + b.asked.length) 0

/-- A burst has returned with its data, and waits in its buffer for a helper. -/
def State.burstBack (s : State) (c : Nat) (cmd : BulkCmd) (i : Nat) (bs : List (Byte × Bool)) (absent : Bool) : State :=
  match cmd.op with
  | .bread id _ _ _ cols row64 =>
    let bad := bs.any (·.2)
    let k := s.core c
    let cmd := cmd.returned i
    let last := cmd.done.length = cmd.total || (cmd.aborted && cmd.asked.isEmpty)
    let s := s.setCore c { k with
      bursts := k.bursts ++ [⟨id, 64 * (i % cols), i / cols, i / cols * row64 + i % cols, bs.map (·.1),
        (List.range 8).map fun j => ((bs.drop (8 * j)).take 8).any (·.2), absent⟩]
      requests := match Assoc.find k.requests id with
        | some r => Assoc.put k.requests id { r with asked := r.asked + 1, poisoned := r.poisoned + (if bad then 1 else 0), finished := r.finished || last }
        | none => k.requests }
    -- the command consumes poison: ENGPOISON of the issuer (R194)
    let s := if bad then s.engCir (bulkEng c cmd) cirEng else s
    if last then s.bulkOver c .bulk ((s.core c).bulkq.filter fun b => b.op ≠ cmd.op) else s.setBread c cmd
  | .copy _ _ _ _ _ _ _ _ | .copym _ _ _ _ _ _ _ _ => s

/-- Burst `i`: the engine translates it and requests it, when it has a free buffer of the 32; unless only that is asked of it, the burst returns
when its line is there (R301, R303). -/
def burst (c : Nat) (cmd : BulkCmd) (may : Bool) (i : Nat) (only : Bool) : E Unit := do
  let e := bulkEng c cmd
  let s ← get
  if i < cmd.total ∧ !cmd.done.contains i ∧ ((cmd.request i).isSome ∨ (may && !cmd.aborted && (s.core c).burstBuffers < 32)) then
    let va := ((cmd.spansOf i).map (·.1)).headD 0
    let (cmd, key) ← match cmd.request i with
      | some r => pure (cmd, r.2.headD 0)
      | none => do
        let ks ← engKeys e va.toNat 64 .read
        (linesOf ks).forM fun l => engAsk e l.1 l.2
        let cmd := { cmd with asked := (i, 0, [ks.headD 0]) :: cmd.asked }
        modify fun s => s.setBread c cmd
        pure (cmd, ks.headD 0)
    if !only then
      let s ← get
      let ks := s.keysOf key 64
      let bs ← engPieces e [(va, ks.take 32), (va + 32, ks.drop 32)]
      let s ← get
      let absent := s.engAbsent e ks
      modify fun s =>
        let s := s.burstBack c cmd i bs absent
        s.setCore c ((s.core c).linesDone e ks)

/-- BURST_ARRIVAL: burst (row, col) of a request returns. With the input's flag it is only requested. -/
def execBurstArrival (s : State) : Host.Outcome State Fault Refusal :=
  let c := s.input.core
  match s.breadOf c s.input.index with
  | some (cmd, may) =>
    match cmd.op with
    | .bread _ _ _ rows cols _ =>
      if s.input.row < rows ∧ s.input.col < cols then .next (s.bulkRun c cmd (burst c cmd may (s.input.row * cols + s.input.col) s.input.flag)) else .next s
    | .copy _ _ _ _ _ _ _ _ | .copym _ _ _ _ _ _ _ _ => .next s
  | none => .next s

/-! ### Copies (R304 to R306) -/

def BulkOp.object : BulkOp → Ptr
  | .bread _ _ _ _ _ _ => 0
  | .copy _ _ _ _ _ _ _ obj | .copym _ _ _ _ _ _ _ obj => obj

/-- The address is in translated memory, where a copy can publish (R305). -/
def translated (slot : Nat) (va : Ptr) : Bool := va.toNat / 2 ^ 64 ≠ 0xFF && (slot ≠ 0 || 3 ≤ va.toNat / 2 ^ 64)

/-- PUB takes effect. -/
def BulkCmd.publishes (cmd : BulkCmd) : Bool :=
  match cmd.op with
  | .copy pub dst _ _ _ _ _ _ => pub && dst.toNat % 65536 = 0 && (List.range cmd.op.plan.count).all fun i => translated cmd.slot (cmd.op.plan.dst i)
  | .bread _ _ _ _ _ _ | .copym _ _ _ _ _ _ _ _ => false

/-- The destination pages of a copy. -/
def BulkOp.pages (op : BulkOp) : List Nat := ((List.range op.plan.count).map fun i => (op.plan.dst i).toNat / 65536).eraseDups

/-- The leaf of a destination page of a `.pub` copy: an entry for one page of this device. A larger leaf and a page of another member or of
the host have no fresh page in the pool: DESIGN CHOICE (assumption 119). -/
def State.pageLeaf (s : State) (c p : Nat) : Option (Nat × Nat) :=
  match s.fieldOf c with
  | some (_, f) =>
    match s.leafAt (p * 65536) 5 f.root with
    | some (k, pte, 0) => if s.localLeaf pte then some (k, pte) else none
    | some (_, _, _ + 1) | none => none
  | none => none

/-- The host gives up a line of device memory before an engine writes it, so that what is counted is in H (R17, R158). -/
def engGive (k : Nat) : E Unit := do
  let s ← get
  if keySpace k = 0 && ((Assoc.find s.directory (lineOf k)).isSome || s.biPending.any fun x => x.1 = lineOf k) then
    modify fun s => s.askHost (lineOf k)
    later

/-- The host gives up the lines of a page before an engine writes all of it. -/
def engGivePage (page : Nat) : E Unit := do
  let s ← get
  let held := ((s.directory.map (·.1)) ++ s.biPending.map (·.1)).filter fun l => keySpace (l * 64) = 0 && keyAddr (l * 64) / 65536 = page / 65536
  if held ≠ [] then
    held.forM fun l => modify fun s => s.askHost l
    later

/-- A page of the shadow pool in the vault of another page, and the rest of the pool (R305). -/
def takeShadow (pool : List Nat) (old : Nat) : Option (Nat × List Nat) :=
  (pool.find? fun p => p / 2 ^ 29 = old / 2 ^ 29).map fun p => (p, pool.erase p)

/-- What the copy engine of a core reads of a page, CV before H, becomes the contents of another page (R157, R305). -/
def State.copyPage (s : State) (c old new : Nat) : State :=
  let held := (s.core c).cv.filter fun l => old ≤ l.1 * 64 && l.1 * 64 < old + 65536
  let s := s.copyKeys (keyDram old) (keyDram new) 65536
  held.foldl (fun s l =>
    let part (b : Bool) : List (Nat × Byte) := (l.2.filter fun e => e.2.poison = b).map fun e => (l.1 * 64 + e.1 - old + new, e.2.val)
    (s.writeH (part false) false).writeH (part true) true) s

/-- Fresh pages are taken from the pool, and the old bytes are copied into them (R305, steps 1 and 2): all of them, since what the command
writes follows. -/
def takeFresh (c : Nat) (cmd : BulkCmd) : E BulkCmd := do
  match cmd.fresh with
  | some _ => pure cmd
  | none =>
    let e := bulkEng c cmd
    let s ← get
    let first := (cmd.op.plan.dst 0).toNat
    let olds ← cmd.op.pages.mapM fun p => do
      let ks ← engKeys e (p * 65536) 1 .write
      pure (p, ks.headD 0)
    let pool := ((s.fieldOf c).map fun f => f.2.shadow).getD []
    let taken := olds.foldl (fun (acc : Option (List (Nat × Nat × Nat) × List Nat)) (p, k) =>
      match acc, s.pageLeaf c p with
      | some (got, pool), some (_, pte) =>
        if keyDram (pteAddr pte) ≠ k then none else (takeShadow pool k).map fun r => (got ++ [(p, k, r.1)], r.2)
      | _, _ => none) (some ([], pool))
    match taken, s.fieldOf c with
    | some (fresh, rest), some (fid, f) =>
      -- the writes that wait for the host reach the old page before it is read, and the host gives up the lines of the fresh one (R17)
      if s.biPending.any fun x => fresh.any fun y => x.1 * 64 / 65536 = y.2.1 / 65536 then later
      fresh.forM fun x => engGivePage x.2.2
      let cmd := { cmd with fresh := some fresh }
      modify fun s => fresh.foldl (fun s x => s.copyPage c x.2.1 x.2.2) ((s.setField fid { f with shadow := rest }).setHead c cmd)
      pure cmd
    | _, _ =>
      let s ← get
      throw (.fault .engineFault first s)

/-- Fresh pages go back to the pool (R305, R353). -/
def State.giveShadow (s : State) (c : Nat) (pages : List Nat) : State :=
  match s.fieldOf c with
  | some (fid, f) => s.setField fid { f with shadow := f.shadow ++ pages }
  | none => s

/-- Where a destination sector of a `.pub` copy is written before Publish: in S(e) of R143. -/
def freshKey (fresh : List (Nat × Nat × Nat)) (dst : Ptr) : Nat :=
  keyDram (((fresh.find? fun x => x.1 = dst.toNat / 65536).map (·.2.2)).getD 0 + dst.toNat % 65536)

/-- A destination sector is in H, or is lost: it is counted at the object, or its loss is recorded there (R158, R304). -/
def State.sectorDone (s : State) (c : Nat) (cmd : BulkCmd) (obj : Option Nat) (lost : Bool) : State :=
  match obj with
  | some key =>
    let e := bulkEng c cmd
    s.atKey e cmd.op.object (s.engPort e key) key (if lost then .barError 4 else .barArrive 1 true)
  | none => s

/-- The head command has done its last sector. -/
def State.copyOver (s : State) (c : Nat) (cmd : BulkCmd) : State :=
  if cmd.done.length = cmd.op.plan.count && cmd.acks.isEmpty && !cmd.publishes then s.bulkPop c .copy else s.setHead c cmd

/-- A sector is over: its lines go, and that of the object, whose next operation is charged by itself. -/
def sectorOver (e : EngAt) (ks : List Nat) : E Unit := modify fun s => s.setCore e.core ((s.core e.core).linesDone e ks)

/-- Sector `i` has been sent to another member, whose answer is awaited (R26). Its loss has raised LOSTW already. -/
def sectorSent (c : Nat) (cmd : BulkCmd) (i id : Nat) : E Unit := do
  let s ← get
  match Assoc.find (s.core c).engineLines (ackKey id) with
  | some f =>
    if !f.arrived then later
    let obj ← engObject (bulkEng c cmd) cmd.op.object
    modify fun s =>
      let s := s.setCore c { s.core c with engineLines := Assoc.del (s.core c).engineLines (ackKey id) }
      (s.sectorDone c cmd obj f.lost).copyOver c { cmd with acks := cmd.acks.filter fun a => a.1 ≠ i }
    sectorOver (bulkEng c cmd) obj.toList
  | none => later

/-- Sector `i` is requested: where it goes and what it reads are translated, in that order, and its lines are asked for. -/
def askSector (e : EngAt) (cmd : BulkCmd) (i : Nat) : E (BulkCmd × Nat × List Nat) := do
  match cmd.request i with
  | some r => pure (cmd, r)
  | none =>
    let dst := cmd.op.plan.dst i
    let (cmd, key) ← if cmd.publishes then do
        let cmd ← takeFresh e.core cmd
        pure (cmd, freshKey (cmd.fresh.getD []) dst)
      else do
        let ks ← engKeys e dst.toNat 32 .write
        pure (cmd, ks.headD 0)
    let srcs ← (cmd.op.plan.src i).mapM fun p => do
      let ks ← engKeys e p.1.toNat p.2 .read
      (linesOf ks).forM fun l => engAsk e l.1 l.2
      pure (ks.headD 0)
    let cmd := { cmd with asked := (i, key, srcs) :: cmd.asked }
    modify fun s => s.setHead e.core cmd
    pure (cmd, key, srcs)

/-- The source of a sector: its bytes, and whether one of them is marked. The issuer's CIR tells of both (R194). -/
def sectorSource (e : EngAt) (ps : List (Ptr × List Nat)) : E (List Byte × Bool) := do
  let bs ← engPieces e ps
  let bad := bs.any (·.2)
  modify fun s =>
    let s := if bad then s.engCir e cirEng else s
    if s.engAbsent e (ps.flatMap (·.2)) then s.engCir e cirAbsent else s
  pure (bs.map (·.1), bad)

/-- The sector's bytes are in hand: they are written where they go, and counted at the object. -/
def storeSector (c : Nat) (cmd : BulkCmd) (i key : Nat) (obj : Option Nat) (bs : List Byte) (bad : Bool) : E Unit := do
  let e := bulkEng c cmd
  let s ← get
  let ks := (List.range 32).map (key + ·)
  let cmd := cmd.returned i
  if cmd.publishes then modify fun s => ((s.engStore e (ks.zip bs) bad).engWatch e (cmd.op.plan.dst i).toNat ks).setHead c cmd
  else if s.keyFenced key then modify fun s => ((s.engLose e).sectorDone c cmd obj true).copyOver c cmd
  else
    let id := s.nextRemote
    modify fun s => (s.engStore e (ks.zip bs) bad).engWatch e (cmd.op.plan.dst i).toNat ks
    if keySpace key = 2 then
      modify fun s => (s.setCore c { s.core c with
        engineLines := Assoc.put (s.core c).engineLines (ackKey id) ⟨false, false, [], 0, false⟩ }).setHead c { cmd with acks := (i, id) :: cmd.acks }
    else modify fun s => (s.sectorDone c cmd obj false).copyOver c cmd

/-- Copies destination sector `i` of the head command; a parked one copies what it has requested (R303). The command that was aborted records
its loss at its object (R353). -/
def copySector (c : Nat) (cmd : BulkCmd) (may : Bool) (i : Nat) : E Unit := do
  let e := bulkEng c cmd
  if cmd.aborted then
    let obj ← engObject e cmd.op.object
    modify fun s => ((s.sectorDone c cmd obj true).bulkPop c .copy).unitOver c .copy
  else
    match cmd.acks.find? fun a => a.1 = i with
    | some (_, id) => sectorSent c cmd i id
    | none =>
      if i < cmd.op.plan.count ∧ !cmd.done.contains i ∧ ((cmd.request i).isSome ∨ may) then
        let (cmd, key, srcs) ← askSector e cmd i
        let s ← get
        let ps := ((cmd.op.plan.src i).zip srcs).map fun (p, k) => (p.1, (s.keysOf k p.2))
        engGive key
        let obj ← if cmd.publishes || keySpace key = 2 then pure none else engObject e cmd.op.object
        if !s.keyFenced key then engCharge e (lineOf key)
        let (bs, bad) ← sectorSource e ps
        storeSector c cmd i key obj bs bad
        sectorOver e (key :: obj.toList ++ ps.flatMap (·.2))

/-- COPY_SECTOR_WRITTEN: destination sector `index` of the head `copy` or `copym`, in any order. -/
def execCopySectorWritten (s : State) : Host.Outcome State Fault Refusal :=
  let c := s.input.core
  match s.bulkHead c .copy with
  | some (cmd, may) => .next (s.bulkRun c cmd (copySector c cmd may s.input.index))
  | none => .next s

/-- A leaf of a destination page names the page that the copy was made from. -/
def State.leafStands (s : State) (c : Nat) (x : Nat × Nat × Nat) : Bool := (s.pageLeaf c x.1).any fun l => keyDram (pteAddr l.2) = x.2.1

/-- Every TLB, every CV, and every access that has been translated and not performed let go of the pages that Publish replaces; what store
buffers still hold for them is lost with them (R143, R144, R159, R305). -/
def Core.forget (k : Core) (pages : List Nat) : Core :=
  let gone (key : Nat) : Bool := keySpace key = 0 && pages.contains (key / 65536 * 65536)
  { k with
    tlb := k.tlb.filter fun e => !(e.level = 0 && pages.contains (pteAddr e.pte))
    cv := k.cv.filter fun l => !gone (l.1 * 64)
    engPlaces := k.engPlaces.map fun e => (e.1, e.2.filter fun p => !gone p.key)
    ctxs := k.ctxs.map fun (e : Nat × Ctx) => (e.1, ({ e.2 with
      sb := (e.2.sb.map fun x => { x with cells := x.cells.filter fun y => !gone y.1 }).filter fun x => !x.cells.isEmpty || k.pairedWest e.1
      places := e.2.places.filter fun p => !gone p.key } : Ctx)) }

/-- Publish (R144, R159, R305): in one move every leaf of the destination comes to name its fresh page, and nothing of the device keeps the old
pages; the old pages go to the pool, and what the job's reserve pages stand for follows. -/
def State.publish (s : State) (c : Nat) (cmd : BulkCmd) : State :=
  let e := bulkEng c cmd
  let fresh := cmd.fresh.getD []
  let s := fresh.foldl (fun s x =>
    match s.pageLeaf c x.1 with
    | some (k, pte) => s.engStore e (((List.range 16).map (k + ·)).zip (bytesOfBits 16 (repointed pte x.2.2))) false
    | none => s) s
  let pages := fresh.flatMap fun x => [x.2.1, x.2.2]
  let s := { s with cores := s.cores.map fun (x : Nat × Core) => (x.1, x.2.forget pages) }
  let s := match s.fieldOf c with
    | some (fid, _) => s.modJob fid fun j => { j with reserved := j.reserved.map fun p =>
        ((fresh.find? fun (x : Nat × Nat × Nat) => x.2.1 / 65536 = p).map fun (x : Nat × Nat × Nat) => x.2.2 / 65536).getD p }
    | none => s
  s.giveShadow c (fresh.map fun x => x.2.1)

/-- The engine publishes when the host holds none of the leaves. A leaf that names another page now starts the command afresh, at a page that
faults: DESIGN CHOICE, no rule says what replaces a leaf under a copy (assumption 119). -/
def publish (c : Nat) (cmd : BulkCmd) : E Unit := do
  let fresh := cmd.fresh.getD []
  let s ← get
  match fresh.find? fun x => !s.leafStands c x with
  | some x => throw (.fault .translation (x.1 * 65536) ((s.giveShadow c (fresh.map fun x => x.2.2)).setHead c { cmd with fresh := none, done := [], asked := [] }))
  | none =>
    fresh.forM fun x => do
      let s ← get
      match s.pageLeaf c x.1 with
      | some (k, _) => engGive k
      | none => pure ()
    let e := bulkEng c cmd
    let obj ← engObject e cmd.op.object
    modify fun s =>
      let t := s.publish c cmd
      (match obj with
        | some key => t.atKey e cmd.op.object (t.engPort e key) key (.barArrive cmd.op.plan.count true)
        | none => t).bulkPop c .copy
    sectorOver e obj.toList

/-- PUBLISH (R144, R159, R305): when every sector of a `.pub` copy has landed. -/
def execPublish (s : State) : Host.Outcome State Fault Refusal :=
  let c := s.input.core
  match s.bulkHead c .copy with
  | some (cmd, may) =>
    if may ∧ cmd.publishes ∧ cmd.done.length = cmd.op.plan.count ∧ !cmd.aborted then .next (s.bulkRun c cmd (publish c cmd)) else .next s
  | none => .next s

/-- The head command of the bulk or the copy engine meets a page that faults, or a fault parked there is told. -/
def State.bulkFault (s : State) (c : Nat) (u : EngUnit) : State :=
  match (s.core c).bulkParked u, (s.core c).bulkQueue u with
  | some f, cmd :: _ => s.tellFault (bulkEng c cmd) cmd.pc f
  | _, _ =>
    match s.bulkHead c u with
    | some (cmd, may) =>
      let work := match cmd.op with
        | .bread _ _ _ _ cols _ => burst c cmd may (s.input.row * cols + s.input.col) true
        | .copy _ _ _ _ _ _ _ _ | .copym _ _ _ _ _ _ _ _ => copySector c cmd may s.input.index
      let t := s.bulkRun c cmd work
      if ((t.core c).bulkParked u).isSome then t else s
    | none => s

/-- ENGINE_FAULT: the head command of an engine meets a page that faults, and parks; or a fault that is parked already is
reported now that its context can take it (R139, R346). -/
def execEngineFault (s : State) : Host.Outcome State Fault Refusal :=
  let c := s.input.core
  let k := s.core c
  match s.input.engine with
  | .matrix =>
    match k.matPark, k.matq with
    | some f, cmd :: _ => .next (s.tellFault (matEng c cmd) cmd.pc f)
    | _, _ =>
      match s.matHead c with
      | some cmd =>
        let t := s.runMatrix c cmd
        .next (if (t.core c).matPark.isSome then t else s)
      | none => .next s
  | .bulk => .next (s.bulkFault c .bulk)
  | .copy => .next (s.bulkFault c .copy)

/-! ### BRESUME (R353) -/

/-- STATE of BRESUME, which stands for both engines: 2 when a head command is parked, 1 when one of them has a command. -/
def Core.bulkState (k : Core) : Nat :=
  if k.bulkPark.isSome || k.copyPark.isSome then 2 else if k.bulkq.isEmpty && k.copyq.isEmpty then 0 else 1

/-- OP 1: every parked head command goes on when it next runs. -/
def State.bulkResume (s : State) (c : Nat) : State :=
  if (s.core c).bulkState = 2 then s.setCore c { s.core c with bulkPark := none, copyPark := none } else s

/-- The parked head command of one engine ends: a `bread` asks for nothing more, and its request is over with the bursts that it has asked for;
a copy records SECTOR_LOST at its object, now or when the object can be reached (R353). -/
def State.headAbort (s : State) (c : Nat) (u : EngUnit) : State :=
  let k := s.core c
  match k.bulkQueue u with
  | [] => s
  | cmd :: _ =>
    if (k.bulkParked u).isNone then s
    else
      let e := bulkEng c cmd
      let unreached := s.objectWaits e cmd.op.object
      let s := s.setCore c (k.setPark u none)
      match cmd.op with
      | .bread id _ _ _ _ _ =>
        if !cmd.asked.isEmpty then s.setHead c { cmd with aborted := true }
        else
          let s := s.bulkPop c u
          let k := s.core c
          match Assoc.find k.requests id with
          | some r => s.setCore c { k with requests := Assoc.put k.requests id { r with finished := true } }
          | none => s
      | .copy _ _ _ _ _ _ _ obj | .copym _ _ _ _ _ _ _ obj =>
        let s := s.giveShadow c ((cmd.fresh.getD []).map fun x => x.2.2)
        let acked := cmd.acks.map fun a => ackKey a.2
        let s := s.setCore c { s.core c with engineLines := (s.core c).engineLines.filter fun x => !acked.contains x.1 }
        if unreached then (s.setHead c { cmd with aborted := true, asked := [], acks := [], fresh := none }).unitOver c u
        else (((s.bulkPop c u).unitOver c u).atObject e obj (.barError 4)).2

/-- OP 2: every parked head command ends. -/
def State.bulkAbort (s : State) (c : Nat) : State := (s.headAbort c .bulk).headAbort c .copy

end Sys2Proof.Machine
end

