-- ==== Sys2Proof/Machine/Bar.lean ====
section
/-! DEFINITION. Group BAR: barrier objects (R307, R308). -/

namespace Sys2Proof.Machine

/-- FLAGS and the other fields of a barrier object. -/
def barPhase (m : Nat) : Nat := m / 2 ^ 96 % 2
def barErr (m : Nat) : Nat := m / 2 ^ 97 % 2
def barOvr (m : Nat) : Nat := m / 2 ^ 98 % 2
def barNaks (m : Nat) : Nat := m / 2 ^ 104 % 256
def barClass (m : Nat) : Nat := m / 2 ^ 112 % 256

/-- An operation on a barrier object that answers nothing: performed at its home, or held in a paired context (R198). -/
def onBarrier (va : Ptr) (ks : List Nat) (op : HomeOp) : M Unit := do
  let s ← get
  if s.holding s.curCore s.curSlot then emit (.home ks op false (s.portAt s.curCore s.curSlot (ks.headD 0)) none) id
  else
    let _ ← onObject va ks op false

/-- `binit`. -/
def execBinit (b : PReg) (off : BitVec 21) (a : GReg) (s : State) : Host.Outcome State Fault Refusal :=
  perform .noText (.binit b off a) (do
    let p ← regP b
    let x ← regG a
    let _ ← consume [uP b, uG a]
    let ks ← objectKeys (ea p off) .update
    onBarrier (ea p off) ks (.barInit (x.toNat % 2 ^ 48))
    pure .seq) s

/-- `bexp`: bytes in units of 32. -/
def execBexp (b : PReg) (off : BitVec 21) (a : GReg) (s : State) : Host.Outcome State Fault Refusal :=
  perform .noText (.bexp b off a) (do
    let p ← regP b
    let x ← regG a
    let _ ← consume [uP b, uG a]
    let ks ← objectKeys (ea p off) .update
    aligned x.toNat 32
    onBarrier (ea p off) ks (.barExpect (x.toNat / 32))
    pure .seq) s

/-- `barr`: the phase before the arrival. -/
def execBarr (d : GReg) (b : PReg) (off : BitVec 21) (s : State) : Host.Outcome State Fault Refusal :=
  perform .noText (.barr d b off) (do
    let p ← regP b
    let _ ← consume [uP b]
    let ks ← objectKeys (ea p off) .update
    releaseHalf .dv
    let s ← get
    let r ← if s.holding s.curCore s.curSlot then do
        let r ← onObject (ea p off) ks .read false
        emit (.home ks (.barArrive 1 false) false (s.portAt s.curCore s.curSlot (ks.headD 0)) none) id
        pure r
      else onObject (ea p off) ks (.barArrive 1 false) false
    setG d (BitVec.ofNat 64 (barPhase r.1)) r.2
    pure .seq) s

/-- `bwait` (R308). A remote object that was read before is let go by a wait, and read afresh. -/
def execBwait (b : PReg) (off : BitVec 21) (a : GReg) (s : State) : Host.Outcome State Fault Refusal :=
  perform .noText (.bwait b off a) (do
    let p ← regP b
    let v ← regG a
    let _ ← consume [uP b, uG a]
    let x ← getCtx
    if x.role = .burst ∨ x.role = .completion then trap .burstWait 0
    let ks ← objectKeys (ea p off) .read
    if x.stage = 0 then
      let r ← onObject (ea p off) ks .read false
      if barErr r.1 = 1 then trap .asyncError (BitVec.ofNat 64 (barClass r.1 + 256 * barNaks r.1))
      if barPhase r.1 = v.toNat % 2 then
        modCtx fun x => { x with fetched := [] }
        waitOn .barrier ((ea p off).setWidth 64)
    modCtx fun x => { x with stage := 1 }
    acquireHalf .dv
    pure .seq) s

/-- `btest`: what it has read stays while its acquire half waits. -/
def execBtest (d : GReg) (b : PReg) (off : BitVec 21) (a : GReg) (s : State) : Host.Outcome State Fault Refusal :=
  perform .noText (.btest d b off a) (do
    let p ← regP b
    let v ← regG a
    let _ ← consume [uP b]
    let mark ← consume [uG a]
    let ks ← objectKeys (ea p off) .read
    let x ← getCtx
    let r ← if x.stage = 0 then onObject (ea p off) ks .read false else pure (x.latch, x.tries = 1)
    let c := if barPhase r.1 ≠ v.toNat % 2 then 1 else 0
    if c = 1 then
      modCtx fun x => { x with stage := 1, latch := r.1, tries := if r.2 then 1 else 0 }
      acquireHalf .dv
    setG d (BitVec.ofNat 64 (c + 2 * barErr r.1 + 4 * barOvr r.1 + 8 * barPhase r.1)) (mark || r.2)
    pure .seq) s

end Sys2Proof.Machine
end

