-- ==== Sys2Proof/Machine/Pipe.lean ====
section
/-! DEFINITION. Group PIPE: named pipes and `rot` (R90, R309 to R311). -/

namespace Sys2Proof.Machine

def Core.pipe (k : Core) (p : Nat) : PipeEnd := Assoc.get PipeEnd.reset k.pipes p
def Core.setPipe (k : Core) (p : Nat) (e : PipeEnd) : Core := { k with pipes := Assoc.set PipeEnd.reset k.pipes p e }

/-- A pipe's end on this core: its number, whether it produces, and the core of the other end; PERMISSION without one. -/
def pipeEnd (a : GReg) (need : Option Bool) : M (Nat × Bool × Nat) := do
  let (c, _) ← me
  let p := (← regG a).toNat % 8
  let k ← getCore
  let b := bits k.pipemap (8 * p + 7) (8 * p)
  let produces : Bool := b / 64 % 2 = 1
  if b / 128 = 0 ∨ need.any (· ≠ produces) then trap .permission (BitVec.ofNat 64 p)
  pure (p, produces, coreOf (clusterOf c) (b % 4))

/-- Burst and completion handlers do not wait (R302). -/
def mayWait : M Unit := do
  let x ← getCtx
  if x.role = .burst ∨ x.role = .completion then trap .burstWait 0

/-- A closed pipe raises PEER_EXITED (R310). -/
def pipeOpen (p : Nat) : M Unit := do
  let k ← getCore
  if (k.pipe p).closed then trap .peerExited (BitVec.ofNat 64 p)

/-- `qinit` (R309). -/
def execQinit (a b : GReg) (s : State) : Host.Outcome State Fault Refusal :=
  perform .noText (.qinit a b) (do
    let v ← regG b
    let _ ← consume [uG a, uG b]
    let (p, _, peer) ← pipeEnd a (some false)
    pipeOpen p
    let k ← getCore
    let base := bits v 31 0
    let depth := bits v 47 32
    aligned base 8
    if depth = 0 ∨ 4096 < depth then trap .permission (BitVec.ofNat 64 p)
    if k.scratchSize < base + 8 * depth then trap .translation (BitVec.ofNat 64 base)
    if (k.pipe p).ready then trap .permission (BitVec.ofNat 64 p)
    modCore fun k => k.setPipe p { k.pipe p with ready := true, base := base, depth := depth, head := 0, count := 0 }
    let s ← get
    emit (.flight (s.flight s.curCore peer (.pipeCredit p (some depth)))) fun s => s.push s.curCore peer (.pipeCredit p (some depth))
    pure .seq) s

/-- `qpush` (R309). -/
def execQpush (a b : GReg) (s : State) : Host.Outcome State Fault Refusal :=
  perform .noText (.qpush a b) (do
    let v ← regG b
    let _ ← consume [uG a]
    let mark ← consume [uG b]
    mayWait
    let (p, _, peer) ← pipeEnd a (some true)
    pipeOpen p
    let k ← getCore
    let e := k.pipe p
    if e.free = 0 then waitOn .pipe 0
    releaseHalf .cl
    let (c, n) ← me
    let s ← get
    if !s.holding c n then budget 0 2
    modCore fun k => k.setPipe p { k.pipe p with free := e.free - 1 }
    let s ← get
    let f := s.flight c peer (.pipeEntry p e.tail v mark)
    emit (.flight f) fun s => s.entryLeaves c f
    pure .seq) s

/-- `qpop` (R309): the entry is read in H, in the ring's slot order. The acquire half, which may wait, goes first: it leaves the ring
alone. -/
def execQpop (d a : GReg) (s : State) : Host.Outcome State Fault Refusal :=
  perform .noText (.qpop d a) (do
    let (c, _) ← me
    let named ← consume [uG a]
    mayWait
    let (p, _, peer) ← pipeEnd a (some false)
    pipeOpen p
    let k ← getCore
    let e := k.pipe p
    if e.count = 0 then waitOn .pipe 0
    acquireHalf .cl
    let s ← get
    let ks := s.keysOf (keyScratch c (e.base + 8 * (e.head % e.depth))) 8
    let r := bitsOfBytes (ks.map s.peek)
    let mark := ks.any s.poisoned
    if mark then eat cirPoison
    modify fun s => s.watchOwner ks .read c (some s.curSlot)
    modCore fun k => k.setPipe p { e with head := e.head + 1, count := e.count - 1 }
    modify fun s => s.push c peer (.pipeCredit p none)
    setG d (BitVec.ofNat 64 r) (named || mark)
    pure .seq) s

/-- `qavail` (R309). -/
def execQavail (d a : GReg) (s : State) : Host.Outcome State Fault Refusal :=
  perform .noText (.qavail d a) (do
    let mark ← consume [uG a]
    let (p, produces, _) ← pipeEnd a none
    let k ← getCore
    setG d (BitVec.ofNat 64 (if produces then (k.pipe p).free else (k.pipe p).count)) mark
    pure .seq) s

/-- PIPE_ENTRY_LAND: the entry is in H, and is counted; entries of a pipe land in slot order. A closed pipe discards it. -/
def execPipeEntryLand (s : State) : Host.Outcome State Fault Refusal :=
  let earlier (c p : Nat) : Bool := (s.net.take s.input.index).any fun f => f.dst = c &&
    match f.body with
    | .pipeEntry q _ _ _ => q = p
    | _ => false
  match s.arrival s.input.index with
  | some (c, .pipeEntry p seq v mark, t) =>
    let k := t.core c
    let e := k.pipe p
    if earlier c p then .next s
    else if !e.ready || e.closed then .next t
    else
      let ks := t.keysOf (keyScratch c (e.base + 8 * (seq % e.depth))) 8
      let from_ := coreOf (clusterOf c) (bits k.pipemap (8 * p + 1) (8 * p))
      let t := (t.writeH (ks.zip (bytesOfBits 8 v.toNat)) mark).watchOwner ks .write from_ none
      .next (t.setCore c ((t.core c).setPipe p { e with count := e.count + 1 }))
  | _ => .next s

/-- PIPE_CREDIT_RETURN: a credit, or the ring of `qinit`, reaches the producer. -/
def execPipeCreditReturn (s : State) : Host.Outcome State Fault Refusal :=
  match s.arrival s.input.index with
  | some (c, .pipeCredit p init, t) =>
    let k := t.core c
    let e := k.pipe p
    if e.closed then .next t
    else
      match init with
      | some depth => .next (t.setCore c (k.setPipe p { e with ready := true, tail := 0, free := depth }))
      | none => .next (t.setCore c (k.setPipe p { e with free := e.free + 1 }))
  | _ => .next s

/-! ### rot (R311) -/

/-- The next position of the ring q0, q1, q3, q2. -/
def rotNext (q : Nat) : Nat := match q with | 0 => 1 | 1 => 3 | 3 => 2 | _ => 0

/-- The other members of a gang still run with this core's task. -/
def State.partnersRun (s : State) (c : Nat) : Bool :=
  match (s.core c).running with
  | none => false
  | some r => (List.range 4).all fun q =>
      let o := coreOf (clusterOf c) q
      (s.ctx o 1).live && (s.core o).running.any fun x => x.gang = r.gang && x.task.gangId = r.task.gangId

/-- An address of the own scratchpad's range 0, for `n` bytes (R127, R311). -/
def ownScratch (a : Ptr) (n : Nat) : M Nat := do
  let k ← getCore
  let off := a.toNat % 2 ^ 64
  if a.toNat / 2 ^ 64 = 0xFF ∧ off < 2 ^ 32 ∧ off + n ≤ k.scratchSize then pure off
  else trap .translation (a.setWidth 64)

/-- `rot`. -/
def execRot (a b : PReg) (n : BitVec 32) (s : State) : Host.Outcome State Fault Refusal :=
  perform .noText (.rot a b n) (do
    let (c, slot) ← me
    let src ← regP a
    let dst ← regP b
    let _ ← consume [uP a, uP b]
    let k ← getCore
    let s ← get
    aligned src.toNat 32
    let from_ ← ownScratch src n.toNat
    let to_ ← ownScratch dst n.toNat
    if slot ≠ 1 ∨ !(k.running.any fun r => r.gang.length = 4 && !r.paired) then trap .permission 0
    if k.rot.any RotWait.done then
      modCore fun k => { k with rot := none }
      pure .seq
    else if !s.partnersRun c then trap .peerExited (src.setWidth 64)
    else
      drainPicked fun _ => true
      modCore fun k => { k with rot := some ⟨from_, to_, n.toNat, false⟩ }
      waitOn .rotate 0) s

/-- ROT_EXCHANGE: when all four control contexts wait in `rot`, every source is read before any destination is written. Each `rot` is then past issue,
and completes whatever stops its context. -/
def execRotExchange (s : State) : Host.Outcome State Fault Refusal :=
  let cl := clusterOf s.input.core
  let cores := (List.range 4).map (coreOf cl)
  let all := cores.all fun c => ((s.core c).rot.any fun r => !r.done) && (s.ctx c 1).live && ((s.ctx c 1).waiting.any fun w => w.on = .rotate)
  if all then
    let reads := cores.map fun c =>
      match (s.core c).rot with
      | some r =>
        let ks := s.keysOf (keyScratch c r.src) r.n
        (c, r.dst, ks.map fun k => (s.peek k, s.poisoned k))
      | none => (c, 0, [])
    let s := cores.foldl (fun s c =>
      match (s.core c).rot with
      | some r => s.watchOwner (s.keysOf (keyScratch c r.src) r.n) .read c (some 1)
      | none => s) s
    .next (reads.foldl (fun s (c, dst, bs) =>
      let to_ := coreOf cl (rotNext (posOf c))
      let ks := s.keysOf (keyScratch to_ dst) bs.length
      let cells := ks.zip bs
      let s := s.writeH ((cells.filter fun x => !x.2.2).map fun x => (x.1, x.2.1)) false
      let s := s.writeH ((cells.filter fun x => x.2.2).map fun x => (x.1, x.2.1)) true
      let s := s.watchOwner ks .write c (some 1)
      let s := s.setCore c { s.core c with rot := (s.core c).rot.map fun r => { r with done := true } }
      s.setCtx c 1 { s.ctx c 1 with committed := true }) s)
  else .next s

end Sys2Proof.Machine
end

