-- ==== Sys2Proof/Machine/Acn.lean ====
section
/-! DEFINITION. Group ACN: the accumulate network (R57, R312 to R315). -/

namespace Sys2Proof.Machine

/-- `aopen` (R312). -/
def execAopen (d : AccReg) (b : PReg) (rows : BitVec 16) (s : State) : Host.Outcome State Fault Refusal :=
  perform .vector (.aopen d b rows) (do
    let p ← regP b
    let _ ← consume [uP b]
    let ks ← objectKeys p .update
    onBarrier p ks (.barExpect rows.toNat)
    modCore fun k => k.setTile d.toNat { k.tile d.toNat with opened := some (k.manchor, p) }
    pure .seq) s

/-- The words of a row of a tile. -/
def Tile.row (t : Tile) (r : Nat) : List AccWord := (List.range 32).map (t.word r)

/-- The rows of a command as they leave (R313): a row that is bound for a core outside the field, or for none, comes back at once with
ACN_ABSENT (R57, R314). -/
def State.rowFlights (s : State) (c : Nat) (x : AcnCmd) : List Flight :=
  let tile := (s.core c).tile x.tile.toNat
  let target := s.coreOfLid (bits x.target 9 0)
  let inside := target.any fun d => (s.fieldOf c).any fun f => f.2.covers (clusterOf d)
  (List.range (x.r1 - x.r0)).map fun i =>
    let r := x.r0 + i
    if inside then s.flight c (target.getD c) (.row c x.obj x.slot (BitVec.ofNat 2 (bits x.target 11 10)) r x.anchor (tile.row r) (bit tile.marks r))
    else s.flight c c (.rowNak x.slot x.obj 3)

/-- A row that the command sends is marked (R193, R194). -/
def State.rowsMarked (s : State) (c : Nat) (x : AcnCmd) : Bool :=
  (List.range (x.r1 - x.r0)).any fun i => bit ((s.core c).tile x.tile.toNat).marks (x.r0 + i)

/-- The accumulate-network unit of a core sends the rows of its oldest command, once the matrix commands before it have retired (R313). -/
def State.rowsTurn (s : State) (c : Nat) : State :=
  match (s.core c).acnq with
  | x :: rest =>
    if x.after ≠ 0 || !(s.core c).engineRuns x.slot || s.saved c then s
    else
      let t := if s.rowsMarked c x then s.engCir ⟨c, x.slot, x.gen, .matrix⟩ cirEng else s
      { t.setCore c { t.core c with acnq := rest } with net := t.net ++ s.rowFlights c x }
  | [] => s

/-- `asend` (R313). A paired context waits for the earlier matrix commands itself, and its rows go to the hold buffer (R198). -/
def execAsend (a : AccReg) (b : PReg) (c : GReg) (r0 r1 : BitVec 6) (s : State) : Host.Outcome State Fault Refusal :=
  perform .noText (.asend a b c r0 r1) (do
    let (core, n) ← me
    let p ← regP b
    let t ← regG c
    let _ ← consume [uP b, uG c]
    let ks ← objectKeys p .update
    let k ← getCore
    if 2 ≤ k.acnq.length then waitOn .engineQueue 0
    let s ← get
    let x ← getCtx
    let cmd : AcnCmd := ⟨n, x.gen, a, p, t, r0.toNat, r1.toNat, k.manchor, k.matq.length⟩
    if s.holding core n then
      if !k.matq.isEmpty then waitOn .matrix 0
      onBarrier p ks (.barExpect (r1.toNat - r0.toNat))
      if s.rowsMarked core cmd then modCtx fun x => x.cirSet cirEng
      (s.rowFlights core cmd).forM fun f => emit (.flight f) id
    else
      onBarrier p ks (.barExpect (r1.toNat - r0.toNat))
      modCore fun k => { k with acnq := k.acnq ++ [cmd] }
    pure .seq) s

/-- `aclose` (R315). -/
def execAclose (d : AccReg) (s : State) : Host.Outcome State Fault Refusal :=
  perform .vector (.aclose d) (do
    modCore fun k => k.setTile d.toNat { k.tile d.toNat with opened := none }
    pure .seq) s

/-- A core's router, which counts at an object for one of its contexts. -/
def State.router (s : State) (c slot : Nat) : EngAt := ⟨c, slot, (s.ctx c slot).gen, .bulk⟩

/-- The class of the NAK that a row meets at its target (R314), if any: 1 closed, 2 anchor, 3 absent. -/
def State.rowRefusal (s : State) (c src : Nat) (tile : Tile) (anchor : BitVec 12) : Option Nat :=
  let rest := (s.jobOf c).any fun j => match j.pre with
    | .parked | .hardSaved => true
    | .running | .pausing _ => false
  if s.fenced c ∨ rest ∨ (s.jobField c).isNone ∨ s.jobField c ≠ s.jobField src then some 3
  else
    match tile.opened with
    | none => some 1
    | some (x, _) => if x ≠ anchor then some 2 else none

/-- ACN_ROW_ARRIVAL (R314). A row waits while its object cannot be reached (R65, R140). It runs on a halted core too (R205). -/
def execAcnRowArrival (s : State) : Host.Outcome State Fault Refusal :=
  match s.arrival s.input.index with
  | some (c, .row src obj slot a r anchor ws mark, t) =>
    let tile := (t.core c).tile a.toNat
    match t.rowRefusal c src tile anchor, tile.opened with
    | some cls, _ => .next (t.push c src (.rowNak slot obj cls))
    | none, none => .next t
    | none, some (_, o) =>
      if t.objectWaits (t.router c 1) o then .next s
      else
        let t := t.setCore c ((t.core c).setTile a.toNat (tile.addRow r ws mark))
        let t := t.pairKeeps c 1 fun p => { p with rows := p.rows ++ [(a.toNat, r, ws, mark)] }
        .next ((t.atObject (t.router c 1) o (.barArrive 1 true)).2.push c src (.rowAck slot obj))
  | _ => .next s

/-- ACN_ACK_ARRIVAL: a unit arrives at the sender's object. -/
def execAcnAckArrival (s : State) : Host.Outcome State Fault Refusal :=
  match s.arrival s.input.index with
  | some (c, .rowAck slot obj, t) =>
    if t.objectWaits (t.router c slot) obj then .next s else .next (t.atObject (t.router c slot) obj (.barArrive 1 true)).2
  | _ => .next s

/-- ACN_NAK_ARRIVAL: the class is recorded at the sender's object; when that cannot be reached, ACN_NAK (R349). -/
def execAcnNakArrival (s : State) : Host.Outcome State Fault Refusal :=
  match s.arrival s.input.index with
  | some (c, .rowNak slot obj cls, t) =>
    if t.objectWaits (t.router c slot) obj then .next s
    else
      match t.atObject (t.router c slot) obj (.barError cls) with
      | (true, u) => .next u
      | (false, u) => .next (u.notice c (plainNotice .acnNak cls (obj.setWidth 64)))
  | _ => .next s

end Sys2Proof.Machine
end

