-- ==== Sys2Proof/Machine/Sha.lean ====
section
/-! DEFINITION. SHA-384 (FIPS 180-4), with which the boot measures the device (R54). -/

namespace Sys2Proof.Machine

/-- The floor of the `e`-th root of `n`, from a number `r` whose bits from `k` up are settled: bit by bit downwards. -/
def rootFrom (e n : Nat) : Nat → Nat → Nat
  | 0, r => r
  | k + 1, r => rootFrom e n k (if (r + 2 ^ k) ^ e ≤ n then r + 2 ^ k else r)

/-- The primes below 410, in order: eighty of them. -/
def smallPrimes : List Nat := (List.range 410).filter fun p => 2 ≤ p && ((List.range 21).filter fun d => 2 ≤ d && d < p && p % d == 0).isEmpty

/-- The first 64 bits of the fraction of a prime's `e`-th root, which is where FIPS 180-4 takes its constants from. -/
def rootFraction (e p : Nat) : BitVec 64 := BitVec.ofNat 64 (rootFrom e (p * 2 ^ (64 * e)) 70 0)

/-- The round constants of SHA-384: the fractions of the cube roots of the first eighty primes. -/
def shaK : List (BitVec 64) := smallPrimes.map (rootFraction 3)

/-- The initial chaining value of SHA-384: the fractions of the square roots of the ninth to the sixteenth prime. -/
def shaInit : List (BitVec 64) := ((smallPrimes.drop 8).take 8).map (rootFraction 2)

/-- The message with its padding. -/
def shaPad (m : List Byte) : List Byte :=
  let n := (m.length + 17 + 127) / 128 * 128
  m ++ [0x80] ++ List.replicate (n - 17 - m.length) 0 ++ (bytesOfBits 16 (8 * m.length)).reverse

/-- A big-endian word of 64 bits. -/
def shaWord (bs : List Byte) : BitVec 64 := BitVec.ofNat 64 (bitsOfBytes bs.reverse)

/-- Word `t` of the message schedule from the sixteen before it, oldest first. -/
def shaNext (w : List (BitVec 64)) : BitVec 64 :=
  let x := w.getD 1 0
  let y := w.getD 14 0
  w.getD 0 0 + (x.rotateRight 1 ^^^ x.rotateRight 8 ^^^ (x >>> 7)) + w.getD 9 0 + (y.rotateRight 19 ^^^ y.rotateRight 61 ^^^ (y >>> 6))

/-- The rounds from a list of constants: the working variables, and the sixteen words of the schedule that are next. -/
def shaRounds : List (BitVec 64) → List (BitVec 64) → List (BitVec 64) → List (BitVec 64)
  | [], v, _ => v
  | k :: ks, v, w =>
    let a := v.getD 0 0
    let b := v.getD 1 0
    let c := v.getD 2 0
    let e := v.getD 4 0
    let f := v.getD 5 0
    let g := v.getD 6 0
    let t1 := v.getD 7 0 + (e.rotateRight 14 ^^^ e.rotateRight 18 ^^^ e.rotateRight 41) + ((e &&& f) ^^^ (~~~e &&& g)) + k + w.getD 0 0
    let t2 := (a.rotateRight 28 ^^^ a.rotateRight 34 ^^^ a.rotateRight 39) + ((a &&& b) ^^^ (a &&& c) ^^^ (b &&& c))
    shaRounds ks [t1 + t2, a, b, c, v.getD 3 0 + t1, e, f, g] (w.drop 1 ++ [shaNext w])

/-- The blocks of a padded message, up to a number of them. -/
def shaBlocks : Nat → List (BitVec 64) → List Byte → List (BitVec 64)
  | 0, h, _ => h
  | n + 1, h, bs =>
    let w := (List.range 16).map fun i => shaWord ((bs.drop (8 * i)).take 8)
    shaBlocks n ((h.zip (shaRounds shaK h w)).map fun x => x.1 + x.2) (bs.drop 128)

/-- The digest of a message: 48 bytes. -/
def sha384 (m : List Byte) : List Byte :=
  let p := shaPad m
  ((shaBlocks (p.length / 128) shaInit p).take 6).flatMap fun x => (bytesOfBits 8 x.toNat).reverse

end Sys2Proof.Machine
end

