-- ==== Sys2Proof/Machine/Boot.lean ====
section
/-! DEFINITION. Device reset and the boot protocol of the routers (R53, R361 to R366). -/

namespace Sys2Proof.Machine

/-! ### Boot words of a scratchpad (R362) -/

def bootDISC : Nat := 0x0
def bootDONE : Nat := 0x8
def bootOUTACK : Nat := 0x10
def bootSTATUS : Nat := 0x18
def bootGO : Nat := 0x30
def bootOUTHDR : Nat := 0x40
def bootOUTPAY : Nat := 0x80
def bootMAP : Nat := 0x400
def bootREPORT : Nat := 0x800

/-- The router writes words of its core's scratchpad, each with its full bit set, which releases the first that waits for it (R133, R362). -/
def State.bootWrite (s : State) (c off : Nat) (bs : List Byte) : State :=
  let ks := (List.range bs.length).map fun i => keyScratch c (off + i)
  (s.writeH (ks.zip bs) false).setFulls ((List.range ((bs.length + 7) / 8)).map fun i => keyScratch c (off + 8 * i))

/-- A delivery to the core: it is held while the scratchpad has no size (R361). A retired core takes none. -/
def State.bootPut (s : State) (c off : Nat) (bs : List Byte) : State :=
  if !s.healthy c then s
  else if (s.core c).split = 0 then s.setCore c { s.core c with bootHeld := (s.core c).bootHeld ++ [(off, bs)] }
  else s.bootWrite c off bs

/-- After an accepted SPLIT write, the held deliveries are written (R361). -/
def State.bootRelease (s : State) (c : Nat) : State :=
  let k := s.core c
  if k.split = 0 then s
  else k.bootHeld.foldl (fun s d => s.bootWrite c d.1 d.2) (s.setCore c { k with bootHeld := [] })

/-! ### Geometry (R364) -/

/-- Fields of a discovery word. -/
def discX (w : Word) : Nat := bits w 4 0
def discY (w : Word) : Nat := bits w 9 5
def discWm1 (w : Word) : Nat := bits w 14 10
def discHm1 (w : Word) : Nat := bits w 19 15
def discImages (w : Word) : Nat := bits w 28 20 + 1
def discCorner (w : Word) : Nat := bits w 30 29

/-- The x direction is east for corners 0 and 2; the y direction is south for corners 0 and 1. -/
def bootEast (w : Word) : Bool := discCorner w % 2 = 0
def bootSouth (w : Word) : Bool := discCorner w / 2 = 0
def farColumn (w : Word) : Nat := if bootEast w then discWm1 w else 0
def farRow (w : Word) : Nat := if bootSouth w then discHm1 w else 0
def nearRow (w : Word) : Nat := if bootSouth w then 0 else discHm1 w
/-- The core index of the boot corner. -/
def bootCorner (w : Word) : Nat := coreAt (if bootEast w then 0 else discWm1 w) (nearRow w)

/-- One place further in a direction. -/
def oneOn (forward : Bool) (x : Nat) : Nat := if forward then x + 1 else x - 1

/-- A discovery word with other coordinates. -/
def discAt (w : Word) (x y : Nat) : Word := putBits (putBits w 9 5 y) 4 0 x

/-- Where a router with coordinates `w` sends in the x and in the y direction. -/
def nextX (w : Word) : Nat := coreAt (oneOn (bootEast w) (discX w)) (discY w)
def nextY (w : Word) : Nat := coreAt (discX w) (oneOn (bootSouth w) (discY w))

/-- The flood from a router that has just taken its coordinates. -/
def State.flood (s : State) (c : Nat) (w : Word) : State :=
  let xs := if discX w = farColumn w then [] else [s.flight c (nextX w) (.bootDisc c true w)]
  let ys := if discY w = farRow w then [] else [s.flight c (nextY w) (.bootDisc c false w)]
  { s with net := s.net ++ (xs ++ ys) }

/-- A map, image or GO flit goes on: along the boot corner's row, then along every column (R365). -/
def State.castOn (s : State) (c : Nat) (w : Word) (kind seq : Nat) (data : List Byte) : State :=
  let xs := if discY w = nearRow w ∧ discX w ≠ farColumn w then [s.flight c (nextX w) (.bootCast c kind seq data)] else []
  let ys := if discY w = farRow w then [] else [s.flight c (nextY w) (.bootCast c kind seq data)]
  { s with net := s.net ++ (xs ++ ys) }

/-! ### The out slot (R363) -/

/-- The kind, the sequence number and the payload of an out slot that the core has filled, and the state with OUTHDR's full
bit cleared. -/
def State.outSlot (s : State) (c : Nat) : Option (Nat × Nat × List Byte × State) :=
  let h := keyScratch c bootOUTHDR
  if (s.core c).bootMode && s.fullBit h then
    let w := s.peekNat h 8
    some (w % 16, w / 16 % 512, s.peeks (keyScratch c bootOUTPAY) 64, s.setFull h false)
  else none

/-- OUTACK. -/
def State.outAck (s : State) (c : Nat) : State := s.bootPut c bootOUTACK (List.replicate 8 0)

/-- BOOT_DISC: the router takes its coordinates and starts the flood. -/
def execBootDisc (s : State) : Host.Outcome State Fault Refusal :=
  let c := s.input.core
  match s.outSlot c with
  | some (1, _, pay, t) =>
    let w : Word := BitVec.ofNat 64 (field pay 0 8)
    let t := t.setCore c { t.core c with bootWord := some w }
    .next ((({ t with bootStage := 2 } : State).flood c w).outAck c)
  | _ => .next s

/-- The multicast of a packet from the core's own out slot. -/
def State.castOut (s : State) (c kind seq : Nat) (pay : List Byte) : State :=
  match (s.core c).bootWord with
  | some w => (s.castOn c w kind seq pay).outAck c
  | none => s.outAck c

/-- BOOT_MAP. -/
def execBootMap (s : State) : Host.Outcome State Fault Refusal :=
  let c := s.input.core
  match s.outSlot c with
  | some (2, seq, pay, t) =>
    .next (({ t with bootStage := if seq = 0 then 3 else t.bootStage } : State).castOut c 2 seq pay)
  | _ => .next s

/-- BOOT_IMG. -/
def execBootImg (s : State) : Host.Outcome State Fault Refusal :=
  let c := s.input.core
  match s.outSlot c with
  | some (3, seq, pay, t) => .next (t.castOut c 3 seq pay)
  | _ => .next s

/-- BOOT_STAGE: BOOTSTAT bits 31:0 take the payload's; its reserved bits are ignored. Out slots of another kind do nothing but
OUTACK. -/
def execBootStage (s : State) : Host.Outcome State Fault Refusal :=
  let c := s.input.core
  match s.outSlot c with
  | some (4, _, pay, t) =>
    let w := field pay 0 4
    .next (({ t with bootDetail := BitVec.ofNat 16 (w / 65536), bootStage := BitVec.ofNat 4 w } : State).outAck c)
  | some (k, _, _, t) => .next (if k = 0 ∨ 6 ≤ k then t.outAck c else s)
  | none => .next s

/-- BOOT_GO: the payload is ignored. -/
def execBootGo (s : State) : Host.Outcome State Fault Refusal :=
  let c := s.input.core
  match s.outSlot c with
  | some (5, _, _, t) => .next (t.castOut c 5 0 [])
  | _ => .next s

/-! ### Flits (R364, R365) -/

/-- The sender of a boot flit; flits of one link arrive in the order in which they were sent (R361). -/
def Packet.bootSender : Packet → Option Nat
  | .bootDisc src _ _ | .bootCast src _ _ _ | .bootReport src _ _ => some src
  | .message _ | .reply _ | .stray _ | .weight _ _ | .writeOff _ _ _ _ _ | .arm _ | .taint _ _ | .transit _ _ | .stealAsk _ _
  | .stealShip _ | .noWork _ | .lapse _ | .lapseAck _ | .row _ _ _ _ _ _ _ _ | .rowAck _ _ | .rowNak _ _ _ | .pipeEntry _ _ _ _
  | .pipeCredit _ _ | .haltSignal _ => none

def State.firstOnLink (s : State) (i : Nat) : Bool :=
  match s.net[i]? with
  | some f => !(s.net.take i).any fun g => g.dst = f.dst && g.body.bootSender.isSome && g.body.bootSender = f.body.bootSender
  | none => false

/-- The flit in flight that an arrival concerns, and the state without it. -/
def State.bootArrival (s : State) (i : Nat) : Option (Nat × Packet × State) :=
  if s.firstOnLink i then (s.net[i]?).map fun f => (f.dst, f.body, { s with net := s.net.eraseIdx i }) else none

/-- BOOT_DISCOVERY_FLIT. -/
def execBootDiscoveryFlit (s : State) : Host.Outcome State Fault Refusal :=
  match s.bootArrival s.input.index with
  | some (c, .bootDisc _ alongX w, t) =>
    if (t.core c).bootWord.isSome || !(t.core c).bootMode then .next t
    else
      let w := if alongX then discAt w (oneOn (bootEast w) (discX w)) (discY w)
        else discAt w (discX w) (oneOn (bootSouth w) (discY w))
      let t := t.setCore c { t.core c with bootWord := some w }
      .next ((t.flood c w).bootPut c bootDISC (bytesOfBits 8 w.toNat))
  | _ => .next s

/-- How many map packets a router is to deliver. -/
def bootMapTotal (w : Word) : Nat := ((discWm1 w + 1) * (discHm1 w + 1) + 511) / 512

/-- A byte of the vault above a core. -/
def keyVault (c a : Nat) : Nat := keyDram (c * 2 ^ 29 + a)

/-- Every map packet and every image packet has been delivered, the image packets in H: DONE is written, once, and GO follows it. -/
def State.bootSettle (s : State) (c : Nat) : State :=
  let k := s.core c
  match k.bootWord with
  | none => s
  | some w =>
    let late := s.biPending.any fun e => keyVault c 0 ≤ e.1 * 64 && e.1 * 64 < keyVault c (64 * discImages w)
    if k.bootMode && !k.bootDone && bootMapTotal w ≤ k.bootMaps && discImages w ≤ k.bootImgs && !late then
      let s := (s.setCore c { k with bootDone := true, bootGo := false }).bootPut c bootDONE (bytesOfBits 8 (bootMapTotal w + discImages w))
      if k.bootGo then s.bootPut c bootGO (List.replicate 8 0) else s
    else s

/-- BOOT_MULTICAST_FLIT: the flit goes on, and is delivered. The write of an image packet to a line that the host holds waits at its home for the
host's answer (R17); the flit goes on meanwhile. -/
def execBootMulticastFlit (s : State) : Host.Outcome State Fault Refusal :=
  match s.bootArrival s.input.index with
  | some (c, .bootCast _ kind seq data, t) =>
    match (t.core c).bootWord with
    | none => .next t
    | some w =>
      if !(t.core c).bootMode then .next t
      else
        let on := t.castOn c w kind seq data
        match kind with
        | 2 =>
          let put := on.bootPut c (bootMAP + 64 * seq) data
          .next ((put.setCore c { put.core c with bootMaps := (put.core c).bootMaps + 1 }).bootSettle c)
        | 3 =>
          let key := keyVault c (64 * seq)
          let put := (on.homeWrite (((List.range 64).map (key + ·)).zip data) false).touchSlice c key false
          .next ((put.setCore c { put.core c with bootImgs := (put.core c).bootImgs + 1 }).bootSettle c)
        | _ =>
          if (on.core c).bootDone then .next (on.bootPut c bootGO (List.replicate 8 0))
          else .next (on.setCore c { on.core c with bootGo := true })
  | _ => .next s

/-! ### Reports (R366) -/

/-- A report leaves a router on its XY route to the boot corner. -/
def State.reportOn (s : State) (c corner : Nat) (r : Word) : State :=
  { s with net := s.net ++ [s.flight c (xyStep c corner) (.bootReport c corner r)] }

/-- BOOT_REPORT: STATUS is full. -/
def execBootReport (s : State) : Host.Outcome State Fault Refusal :=
  let c := s.input.core
  let k := s.core c
  let key := keyScratch c bootSTATUS
  if k.bootMode && s.fullBit key then
    let r : Word := BitVec.ofNat 64 (s.peekNat key 8)
    let s := (s.setFull key false).setCore c { k with lid := BitVec.ofNat 10 (bits r 9 0) }
    match k.bootWord with
    | some w => .next (s.reportOn c (bootCorner w) r)
    | none => .next s
  else .next s

/-- BOOT_REPORT_ARRIVAL: at the boot corner the report is written; any other router in boot mode sends it on. Reports of one core keep their order on
every link (R361), so that the second with an id replaces the first. -/
def execBootReportArrival (s : State) : Host.Outcome State Fault Refusal :=
  match s.bootArrival s.input.index with
  | some (c, .bootReport _ corner r, t) =>
    .next (if !(t.core c).bootMode then t
      else if c = corner then t.bootPut c (bootREPORT + 8 * bits r 9 0) (bytesOfBits 8 r.toNat)
      else t.reportOn c corner r)
  | _ => .next s

/-! ### Device reset (R53, R361) -/

/-- The corners of the region, in order. -/
def Flash.corners (f : Flash) : List Nat :=
  [coreAt 0 0, coreAt (f.width - 1) 0, coreAt 0 (f.height - 1), coreAt (f.width - 1) (f.height - 1)]

/-- The lowest-numbered healthy corner, with its number. -/
def Flash.boot (f : Flash) : Option (Nat × Nat) :=
  ((List.range 4).zip f.corners).find? fun e => !f.retired.contains e.2

/-- The image as whole packets of 64 bytes. -/
def Flash.padded (f : Flash) : List Byte :=
  let n := max 1 ((f.image.length + 63) / 64)
  f.image ++ List.replicate (64 * n - f.image.length) 0

/-- Little-endian words of 32 bits. -/
def wordsOf (bs : List Byte) : List Nat := (List.range (bs.length / 4)).map fun i => field bs (4 * i) 4

/-- The discovery word that the boot ROM leaves for its corner. -/
def Flash.discWord (f : Flash) (number c : Nat) : Word :=
  BitVec.ofNat 64 (coreX c + coreY c * 2 ^ 5 + (f.width - 1) * 2 ^ 10 + (f.height - 1) * 2 ^ 15 +
    (f.padded.length / 64 - 1) % 512 * 2 ^ 20 + number * 2 ^ 29 + (wordsOf f.padded).sum % 2 ^ 32 * 2 ^ 32)

/-- The healthy map: one bit a place of the region, in row-major order, in whole packets. -/
def Flash.mapBytes (f : Flash) : List Byte :=
  let n := (f.width * f.height + 511) / 512 * 512
  (List.range (n / 8)).map fun i => BitVec.ofNat 8 (((List.range 8).map fun j =>
    let p := 8 * i + j
    if p < f.width * f.height ∧ !f.retired.contains (coreAt (p % f.width) (p / f.width)) then 2 ^ j else 0).sum)

/-- The measurements of a boot: the ROM, the bundle, the configuration image and the micro-kernel image as delivered (R54). -/
def Flash.measure (f : Flash) : List (List Byte) :=
  [sha384 ((List.range 65536).map romByte), sha384 f.bundle, sha384 f.config, sha384 f.padded]

/-- The device right after reset: memory behind the caches, the ROM and the flash stay, and everything else has its reset
value. The model's own counters go on. -/
def State.deviceReset (s : State) : State :=
  let keep (k : Nat) : Bool := keySpace k = 0 || keySpace k = 5 || keySpace k = 6
  { State.reset with
    agenda := s.agenda, steps := s.steps, flash := s.flash, measured := s.flash.measure
    mem := s.mem.filter fun e => keep e.1
    poison := s.poison.filter fun e => keep e.1 }

/-- DEVICE_RESET: the boot ROM of each corner verifies the image, the boot corner is elected, verifies the bundle, and leaves
its scratchpad and vault ready for discovery (R53, R361; the layout is that of the worked program of spec/16). The corner goes on with
strand C of that program, and every other core with strand S; the boot is measured (R54). -/
def execDeviceReset (s : State) : Host.Outcome State Fault Refusal :=
  let s := s.deviceReset
  let f := s.flash
  if !f.imageGood then .next { s with bootStage := 8 }
  else
    match f.boot with
    | none => .next { s with bootStage := 0xB }
    | some (number, c) =>
      if !f.bundleGood then .next { s with bootStage := 9 }
      else
        let s := s.setCore c { s.core c with split := 1 }
        let s := s.setCtx c 0 { s.ctx c 0 with pc := Ctx.boot.pc + BitVec.ofNat 72 romCornerAt }
        let s := s.pokeBytes (keyScratch c 0x20) (bytesOfBits 8 (f.discWord number c).toNat)
        let s := s.pokeBytes (keyScratch c bootMAP) f.mapBytes
        .next { s.pokeBytes (keyDram (c * 2 ^ 29)) f.padded with bootStage := 1 }

end Sys2Proof.Machine
end

