-- ==== Sys2Proof/Machine/Branch.lean ====
section
/-! DEFINITION. Groups BR and JMP: branches, jumps and hardware loops (R212, R268 to R273). -/

namespace Sys2Proof.Machine

/-- A branch of two registers on a condition of their values (R268). -/
def branch2 (f : Int → Int → Bool) (ty : Ty) (a b : GReg) (imm : BitVec 24) : M Next := do
  let c ← getCtx
  let x ← regG a
  let y ← regG b
  let _ ← consume [uG a, uG b]
  pure (if f (valueOf ty x.toNat) (valueOf ty y.toNat) then .jump (pcPlus c.pc imm.toInt) else .seq)

/-- A branch of one register. -/
def branch1 (f : Word → Bool) (a : GReg) (imm : BitVec 24) : M Next := do
  let c ← getCtx
  let x ← regG a
  let _ ← consume [uG a]
  pure (if f x then .jump (pcPlus c.pc imm.toInt) else .seq)

def execBeq (ty : Ty) (h : BrHint) (a b : GReg) (imm : BitVec 24) (s : State) : Host.Outcome State Fault Refusal :=
  perform .any (.beq ty h a b imm) (branch2 (fun x y => x = y) ty a b imm) s
def execBne (ty : Ty) (h : BrHint) (a b : GReg) (imm : BitVec 24) (s : State) : Host.Outcome State Fault Refusal :=
  perform .any (.bne ty h a b imm) (branch2 (fun x y => x ≠ y) ty a b imm) s
def execBlt (ty : Ty) (h : BrHint) (a b : GReg) (imm : BitVec 24) (s : State) : Host.Outcome State Fault Refusal :=
  perform .any (.blt ty h a b imm) (branch2 (fun x y => x < y) ty a b imm) s
def execBge (ty : Ty) (h : BrHint) (a b : GReg) (imm : BitVec 24) (s : State) : Host.Outcome State Fault Refusal :=
  perform .any (.bge ty h a b imm) (branch2 (fun x y => y ≤ x) ty a b imm) s
def execBz (ty : Ty) (h : BrHint) (a : GReg) (imm : BitVec 24) (s : State) : Host.Outcome State Fault Refusal :=
  perform .any (.bz ty h a imm) (branch1 (fun x => valueOf ty x.toNat = 0) a imm) s
def execBnz (ty : Ty) (h : BrHint) (a : GReg) (imm : BitVec 24) (s : State) : Host.Outcome State Fault Refusal :=
  perform .any (.bnz ty h a imm) (branch1 (fun x => valueOf ty x.toNat ≠ 0) a imm) s
def execBbs (h : BrHint) (a : GReg) (n : BitVec 6) (imm : BitVec 24) (s : State) : Host.Outcome State Fault Refusal :=
  perform .any (.bbs h a n imm) (branch1 (fun x => bit x n.toNat) a imm) s
def execBbc (h : BrHint) (a : GReg) (n : BitVec 6) (imm : BitVec 24) (s : State) : Host.Outcome State Fault Refusal :=
  perform .any (.bbc h a n imm) (branch1 (fun x => !bit x n.toNat) a imm) s

/-- A jump by a number of 4-byte units (R269). -/
def jumpBy (units : Int) : M Next := do
  let c ← getCtx
  pure (.jump (pcPlus c.pc units))

def execJ (imm : BitVec 24) (s : State) : Host.Outcome State Fault Refusal := perform .any (.j imm) (jumpBy imm.toInt) s
def execJl (imm : BitVec 32) (s : State) : Host.Outcome State Fault Refusal := perform .any (.jl imm) (jumpBy imm.toInt) s

/-- `jr`. -/
def execJr (a : PReg) (s : State) : Host.Outcome State Fault Refusal :=
  perform .any (.jr a) (do
    let t ← regP a
    let _ ← consume [uP a]
    jumpReg t) s

/-- p15 receives the return address. -/
def link (bytes : Nat) : M Unit := do
  let c ← getCtx
  setP 15 (c.pc + BitVec.ofNat 72 bytes) false

def execCall (imm : BitVec 24) (s : State) : Host.Outcome State Fault Refusal :=
  perform .any (.call imm) (do
    link 8
    jumpBy imm.toInt) s

/-- `callr` reads its target before it writes p15; the target is checked first (R212, R269). -/
def execCallr (a : PReg) (s : State) : Host.Outcome State Fault Refusal :=
  perform .any (.callr a) (do
    let t ← regP a
    let _ ← consume [uP a]
    let k ← jumpReg t
    link 8
    pure k) s

def execRet (s : State) : Host.Outcome State Fault Refusal :=
  perform .any .ret (do
    let t ← regP 15
    let _ ← consume [uP 15]
    jumpReg t) s

/-- `loop` and `loopi` with count `c`, an instruction of `bytes` bytes and the end E (R270); bits 71:64 of an END are those of the program counter
(R273). -/
def openLoop (c : BitVec 32) (bytes : Nat) (imm : BitVec 24) : M Next := do
  let x ← getCtx
  let e := pcPlus x.pc imm.toInt
  let start := x.pc + BitVec.ofNat 72 bytes
  if c = 0 then
    let n ← lengthAt e
    pure (.jump (e + BitVec.ofNat 72 n))
  else if !x.loop0.active then
    setCtx { x with loop0 := ⟨true, start, e, c⟩ }
    pure .seq
  else if !x.loop1.active then
    if (inRegion x.pc x.loop0.stop).toNat < e.toNat then trap .loopOverflow (e.setWidth 64)
    else
      setCtx { x with loop1 := ⟨true, start, e, c⟩ }
      pure .seq
  else trap .loopOverflow (e.setWidth 64)

def execLoop (a : GReg) (imm : BitVec 24) (s : State) : Host.Outcome State Fault Refusal :=
  perform .any (.loop a imm) (do
    let x ← regG a
    let _ ← consume [uG a]
    openLoop (x.setWidth 32) 8 imm) s
def execLoopi (count : BitVec 32) (imm : BitVec 24) (s : State) : Host.Outcome State Fault Refusal :=
  perform .any (.loopi count imm) (openLoop count 12 imm) s

/-- `lexit` (R272). -/
def execLexit (s : State) : Host.Outcome State Fault Refusal :=
  perform .any .lexit (do
    modCtx fun x =>
      if x.loop1.active then { x with loop1 := { x.loop1 with active := false } }
      else { x with loop0 := { x.loop0 with active := false } }
    pure .seq) s

end Sys2Proof.Machine
end

