-- ==== Sys2Proof/Machine/SysReg.lean ====
section
/-! DEFINITION. The system registers: what each number names, what it reads, and what a write does (R6, R356, R360 and the rules
that each register's line there names). -/

namespace Sys2Proof.Machine

/-- The registers of R360; those of a numbered set carry their number. -/
inductive Reg where
  | ctxid | coreid | fieldpos | clpos | jobid | codebase | tileorg | tileext | tilenom | tileidx | iterlo | iterhi
  | wheld | whome | cir | lostw | taint | fpctl | fpstat | manchor | mrowp | mqstat | loopstate (i : Nat)
  | trapcause | trappc | trapval | trapctx | mresume | bresume | wdctl | kvec | skid (i : Nat)
  | wctl (i : Nat) | wbase (i : Nat) | wmask (i : Nat) | wval (i : Nat) | split | swzbase | swzctl | lease | waymask
  | dramlim | injlim | podlim | drainlim | dramuse | injuse | poduse | drainuse | pairctl | pairfp | mxexcl | platectl
  | pipemap | cycle | retired
  deriving DecidableEq, Repr

/-- The register of a number (R360); none when the map does not list it. -/
def regOf (n : Nat) : Option Reg :=
  match n with
  | 0x000 => some .ctxid | 0x001 => some .coreid | 0x002 => some .fieldpos | 0x003 => some .clpos
  | 0x004 => some .jobid | 0x005 => some .codebase
  | 0x008 => some .tileorg | 0x009 => some .tileext | 0x00A => some .tilenom | 0x00B => some .tileidx
  | 0x00C => some .iterlo | 0x00D => some .iterhi
  | 0x010 => some .wheld | 0x011 => some .whome | 0x018 => some .cir | 0x019 => some .lostw | 0x01A => some .taint
  | 0x020 => some .fpctl | 0x021 => some .fpstat | 0x028 => some .manchor | 0x029 => some .mrowp | 0x02A => some .mqstat
  | 0x030 => some (.loopstate 0) | 0x031 => some (.loopstate 1) | 0x032 => some (.loopstate 2) | 0x033 => some (.loopstate 3)
  | 0x040 => some .trapcause | 0x041 => some .trappc | 0x042 => some .trapval | 0x043 => some .trapctx
  | 0x044 => some .mresume | 0x045 => some .bresume | 0x046 => some .wdctl | 0x047 => some .kvec
  | 0x080 => some .split | 0x081 => some .swzbase | 0x082 => some .swzctl | 0x083 => some .lease | 0x090 => some .waymask
  | 0x0A0 => some .dramlim | 0x0A1 => some .injlim | 0x0A2 => some .podlim | 0x0A3 => some .drainlim
  | 0x0A4 => some .dramuse | 0x0A5 => some .injuse | 0x0A6 => some .poduse | 0x0A7 => some .drainuse
  | 0x0B0 => some .pairctl | 0x0B1 => some .pairfp | 0x0B8 => some .mxexcl | 0x0BA => some .platectl
  | 0x0C0 => some .pipemap | 0x0F0 => some .cycle | 0x0F1 => some .retired
  | _ =>
    if 0x048 ≤ n ∧ n ≤ 0x053 then some (.skid (n - 0x048))
    else if 0x060 ≤ n ∧ n ≤ 0x063 then some (.wctl (n - 0x060))
    else if 0x064 ≤ n ∧ n ≤ 0x067 then some (.wbase (n - 0x064))
    else if 0x068 ≤ n ∧ n ≤ 0x06B then some (.wmask (n - 0x068))
    else if 0x06C ≤ n ∧ n ≤ 0x06F then some (.wval (n - 0x06C))
    else none

/-- Marked S in R360: only the supervisor reaches it. -/
def Reg.supervisor : Reg → Bool
  | .loopstate _ | .trapcause | .trappc | .trapval | .trapctx | .mresume | .bresume | .wdctl | .kvec | .skid _
  | .wctl _ | .wbase _ | .wmask _ | .wval _ | .split | .waymask | .dramlim | .injlim | .podlim | .drainlim
  | .dramuse | .injuse | .poduse | .drainuse | .pairctl | .pairfp | .mxexcl | .platectl => true
  | .ctxid | .coreid | .fieldpos | .clpos | .jobid | .codebase | .tileorg | .tileext | .tilenom | .tileidx | .iterlo | .iterhi
  | .wheld | .whome | .cir | .lostw | .taint | .fpctl | .fpstat | .manchor | .mrowp | .mqstat | .swzbase | .swzctl | .lease
  | .pipemap | .cycle | .retired => false

/-! ### Words of registers -/

/-- A word from fields, each with its lowest bit. -/
def packed (fs : List (Nat × Nat)) : Word := BitVec.ofNat 64 (fs.foldl (fun a f => a + f.1 * 2 ^ f.2) 0)

def boolNat (b : Bool) : Nat := if b then 1 else 0

/-- LOOPSTATE0 to 3 of a context (R272). -/
def Ctx.loopWord (x : Ctx) (i : Nat) : Word :=
  let l := if i < 2 then x.loop0 else x.loop1
  if i % 2 = 0 then l.start.setWidth 64
  else packed [(l.count.toNat, 32), ((l.stop - l.start).toNat / 4 % 2 ^ 24, 8), (boolNat l.active, 0)]

/-- A write of LOOPSTATE: bits 71:64 of START and END are those of the program counter wherever they are used (R273). -/
def Ctx.loopWrite (x : Ctx) (i : Nat) (v : Word) : Ctx :=
  let l := if i < 2 then x.loop0 else x.loop1
  let l' : LoopLevel :=
    if i % 2 = 0 then
      let start : Ptr := v.setWidth 72
      { l with start := start, stop := start + (l.stop - l.start) }
    else
      { l with active := bit v 0, count := BitVec.ofNat 32 (bits v 63 32), stop := l.start + BitVec.ofNat 72 (4 * bits v 31 8) }
  if i < 2 then { x with loop0 := l' } else { x with loop1 := l' }

/-- TRAPCAUSE of a record. -/
def TrapRec.causeWord (t : TrapRec) : Word :=
  packed [(t.detail.toNat, 16), (boolNat t.cmsg, 10), (boolNat (t.kind = .e), 8), (t.cause.code, 0)]

/-- TRAPCAUSE of a notice (R350). -/
def Notice.causeWord (t : Notice) : Word := packed [(t.detail.toNat, 16), (1, 9), (boolNat t.engine, 8), (t.cause.code, 0)]

/-- The record that TRAPCTX selects: TRAPCAUSE, TRAPPC, TRAPVAL and GEN; zeros when there is none (R350). -/
def Core.selected (k : Core) : Word × Word × Word × Nat :=
  if k.trapSlot = 0xFF then
    match k.delivered with
    | some t => (t.causeWord, t.pc.setWidth 64, t.val, t.gen.toNat)
    | none => (0, 0, 0, 0)
  else
    match (if k.trapSlot.toNat < 12 then (k.ctx k.trapSlot.toNat).trap else none) with
    | some t => (t.causeWord, t.pc.setWidth 64, t.val, t.gen.toNat)
    | none => (0, 0, 0, 0)

/-- Items other than the selected one are pending (R348). -/
def Core.othersPending (k : Core) : Bool :=
  ((List.range 12).any fun n => n ≠ k.trapSlot.toNat && (k.ctx n).trap.isSome) || !k.notices.isEmpty

/-- MQSTAT: CHAIN, PARKED, BUSY, QUEUED (R336). -/
def Core.mqstat (k : Core) : Word :=
  packed [(boolNat k.chain, 4), (boolNat k.matPark.isSome, 3), (boolNat (!k.matq.isEmpty && k.matPark.isNone), 2), (min k.matq.length 3, 0)]

/-- PAIRCTL (R201): the interval is counted at the west core. -/
def State.pairctl (s : State) (c : Nat) : Word :=
  let k := s.core c
  match k.pair with
  | some p =>
    let n := if p.east then ((s.core p.other).pair.map PairState.retired).getD 0 else p.retired
    packed [(k.misCount.toNat, 32), (min n 1023, 6), (boolNat p.east, 1), (1, 0)]
  | none => packed [(k.misCount.toNat, 32)]

/-- WAYMASK (R66). -/
def Slice.waymask (l : Slice) : Word :=
  packed [(l.bypass.toNat, 32), (boolNat l.clean, 18), (boolNat l.flush, 17), (boolNat l.err, 16), (l.mask.toNat, 0)]

/-- What context `n` of core `c` reads in a register. -/
def State.readReg (s : State) (c n : Nat) (r : Reg) : Word :=
  let k := s.core c
  let x := k.ctx n
  let cl := clusterOf c
  let job := s.jobOf c
  match r with
  | .ctxid => packed [(x.gen.toNat, 16), (n, 0)]
  | .coreid => packed [(coreY c, 24), (coreX c, 16), (k.lid.toNat, 0)]
  | .fieldpos =>
    match s.fieldOf c with
    | some (fid, f) =>
      let p := (f.logicalXY c).getD (0, 0)
      packed [(f.lh, 32), (f.lw, 24), (fid, 16), (p.2, 8), (p.1, 0)]
    | none => 0
  | .clpos => packed [(posOf c, 0)]
  | .jobid =>
    match s.fieldOf c with
    | some (fid, f) => packed [(f.serial % 2 ^ 24, 8), (fid, 0)]
    | none => 0
  | .codebase => match job with
    | some j => j.codebase.setWidth 64
    | none => 0
  | .tileorg => k.tileOrg
  | .tileext => k.tileExt
  | .tilenom => k.tileNom
  | .tileidx => k.tileIdx.setWidth 64
  | .iterlo => k.iterLo.setWidth 64
  | .iterhi => k.iterHi.setWidth 64
  | .wheld => packed [(x.wheld, 0)]
  | .whome => x.whome.setWidth 64
  | .cir => x.cir
  | .lostw => x.lostw.setWidth 64
  | .taint =>
    match job with
    | some j => if j.home = c then packed [(j.taintCount, 32), (j.taintMask.toNat, 0)] else 0
    | none => 0
  | .fpctl => x.fpctl
  | .fpstat => x.fpstat
  | .manchor => k.manchor.signExtend 64
  | .mrowp => packed [(k.mrowp, 0)]
  | .mqstat => k.mqstat
  | .loopstate i => if k.trapSlot.toNat < 12 then (k.ctx k.trapSlot.toNat).loopWord i else 0
  | .trapcause => k.selected.1
  | .trappc => k.selected.2.1
  | .trapval => k.selected.2.2.1
  | .trapctx => packed [(boolNat k.othersPending, 20), (k.selected.2.2.2, 8), (k.trapSlot.toNat, 0)]
  | .mresume => packed [(k.matState, 8)]
  | .bresume => packed [(k.bulkState, 8)]
  | .wdctl => k.wdctl
  | .kvec => k.kvec
  | .skid i => (k.ctx i).skid.setWidth 64
  | .wctl i => (Assoc.get Watch.reset k.watches i).ctl
  | .wbase i => (Assoc.get Watch.reset k.watches i).base
  | .wmask i => (Assoc.get Watch.reset k.watches i).mask
  | .wval i => (Assoc.get Watch.reset k.watches i).val
  | .split => k.split.setWidth 64
  | .swzbase => k.swzBase
  | .swzctl => k.swzCtl
  | .lease => packed [(k.held.toNat, 4), (boolNat k.retain, 0)]
  | .waymask => (s.slice cl).waymask
  | .dramlim => (k.nextLim.1.getD k.dramLim).setWidth 64
  | .injlim => (k.nextLim.2.1.getD k.injLim).setWidth 64
  | .podlim => (k.nextLim.2.2.1.getD k.podLim).setWidth 64
  | .drainlim => (k.nextLim.2.2.2.getD k.drainLim).setWidth 64
  | .dramuse => k.dramUse.setWidth 64
  | .injuse => k.injUse.setWidth 64
  | .poduse => BitVec.ofNat 64 ((k.podUse.map fun e => e.2.toNat).foldl max 0)
  | .drainuse => k.drainUse.setWidth 64
  | .pairctl => s.pairctl c
  | .pairfp => k.pairFp
  | .mxexcl => packed [(boolNat (s.slice cl).pend, 2), (boolNat (s.flash.selfTestFailed.contains cl), 1), (boolNat (s.slice cl).excl, 0)]
  | .platectl => 0
  | .pipemap => k.pipemap
  | .cycle => BitVec.ofNat 64 s.cycle
  | .retired => BitVec.ofNat 64 x.retired

/-! ### Writes -/

/-- Bits that a write of 1 clears (R6, R190, R194, R203, R66). -/
def Reg.w1c : Reg → Nat
  | .cir => 0xFFFF_000F
  | .fpstat => 0x3F
  | .wctl _ => 0x8000
  | .waymask => 0x10000
  | .ctxid | .coreid | .fieldpos | .clpos | .jobid | .codebase | .tileorg | .tileext | .tilenom | .tileidx | .iterlo | .iterhi
  | .wheld | .whome | .lostw | .taint | .fpctl | .manchor | .mrowp | .mqstat | .loopstate _
  | .trapcause | .trappc | .trapval | .trapctx | .mresume | .bresume | .wdctl | .kvec | .skid _
  | .wbase _ | .wmask _ | .wval _ | .split | .swzbase | .swzctl | .lease
  | .dramlim | .injlim | .podlim | .drainlim | .dramuse | .injuse | .poduse | .drainuse | .pairctl | .pairfp | .mxexcl | .platectl
  | .pipemap | .cycle | .retired => 0

/-- A write of CIR: a bit of 3:0 clears where 1 is written, and any other than zero in COUNT clears COUNT (R194). -/
def cirWrite (old v : Word) : Word :=
  let x := putBits old 3 0 (bits old 3 0 &&& (15 - bits v 3 0))
  if bits v 31 16 = 0 then x else putBits x 31 16 0

/-- A write of WCTL: HIT clears where 1 is written, and a CMP of 7 leaves the field (R203). -/
def wctlWrite (old v : Word) : Word :=
  let x := putBits (putBits v 63 24 0) 15 15 (if bit v 15 then 0 else bits old 15 15)
  if bits v 12 10 = 7 then putBits x 12 10 (bits old 12 10) else x

/-- A write of FPCTL (R177). -/
def fpctlWrite (old v : Word) : Word :=
  packed [(bits v 63 32, 32), (if 6 ≤ bits v 2 0 then bits old 2 0 else bits v 2 0, 0)]

/-- A write of WDCTL: LOG takes 16 to 40 only (R350). -/
def wdctlWrite (old v : Word) : Word :=
  packed [(bits v 8 8, 8), (if 16 ≤ bits v 5 0 ∧ bits v 5 0 ≤ 40 then bits v 5 0 else bits old 5 0, 0)]

/-- SPLIT (R122): L1 is written back and invalidated, the scratchpad is zeroed, every full bit clears, and so does SWZCTL.EN. In
boot mode the held deliveries follow (R361). -/
def State.writeSplit (s : State) (c : Nat) (v : Word) : State :=
  if 12 ≤ bits v 3 0 then s
  else
    let s := s.evictAll c ((s.core c).cv.map (·.1))
    let lo := keyScratch c 0
    let hi := keyScratch (c + 1) 0
    let s := { s with mem := Assoc.clear s.mem lo hi, poison := Assoc.clear s.poison lo hi, full := Assoc.clear s.full (lo / 8) (hi / 8) }
    (s.setCore c { s.core c with split := BitVec.ofNat 4 (bits v 3 0), swzCtl := putBits (s.core c).swzCtl 0 0 0 }).bootRelease c

/-- The check of R124: EN does not stay set when the window would not fit. -/
def Core.swzCheck (k : Core) : Core :=
  let n := bits k.swzCtl 16 8
  if n = 0 ∨ k.scratchSize < bits k.swzBase 20 12 * 4096 + n * 4096 then { k with swzCtl := putBits k.swzCtl 0 0 0 } else k

def Core.writeSwzBase (k : Core) (v : Word) : Core := ({ k with swzBase := packed [(bits v 20 12, 12)] } : Core).swzCheck
def Core.writeSwzCtl (k : Core) (v : Word) : Core :=
  ({ k with swzCtl := packed [(bits v 16 8, 8), (bits v 1 0, 0)] } : Core).swzCheck

/-- MASK of WAYMASK (R68): accepted when CLEAN is 1. New scratch ways are zeroed. -/
def State.writeMask (s : State) (cl mask : Nat) : State :=
  let l := s.slice cl
  let m : BitVec 16 := BitVec.ofNat 16 mask
  if !l.clean then s.setSlice cl (if m = l.mask then l else { l with err := true })
  else
    let gone := (List.range 16).filter fun i => bit m i && !bit l.mask i || bit l.mask i && !bit m i
    let s := gone.foldl (fun s w =>
      let lo := keyL2 cl w 0
      { s with mem := Assoc.clear s.mem lo (lo + 0x20000), poison := Assoc.clear s.poison lo (lo + 0x20000) }) s
    s.setSlice cl { l with mask := m, clean := false }

/-- FLUSH of WAYMASK starts a flush (R67). -/
def State.startFlush (s : State) (cl : Nat) : State :=
  s.setSlice cl { s.slice cl with flush := true, bypass := 0, pins := [] }

/-- A write of WAYMASK. A write with ERR 1 whose MASK is refused leaves ERR 0: DESIGN CHOICE, the spec does not order the setting and the
clearing of ERR by one write (assumption 121). -/
def State.writeWaymask (s : State) (cl : Nat) (v : Word) : State :=
  let s := s.writeMask cl (bits v 15 0)
  let s := if bit v 16 then s.setSlice cl { s.slice cl with err := false } else s
  if bit v 17 then s.startFlush cl else s

/-- No control context of the cluster runs a task of a job without NOMATRIX (R202). -/
def State.mxQuiet (s : State) (cl : Nat) : Bool :=
  (List.range 4).all fun q =>
    let c := coreOf cl q
    (s.core c).running.isNone || (s.jobOf c).all Job.noMatrix

/-- EXCL of MXEXCL (R202). -/
def State.writeExcl (s : State) (cl : Nat) (e : Bool) : State :=
  let l := s.slice cl
  if !e then s.setSlice cl { l with excl := false, pend := false }
  else if l.excl then s
  else if s.mxQuiet cl then s.setSlice cl { l with excl := true, pend := false }
  else s.setSlice cl { l with pend := true }

/-- The watchdogs of a core start counting afresh. -/
def State.wdRestart (s : State) (c : Nat) : State := s.setCore c { s.core c with wdSince := s.cycle }

/-- A write of WDCTL; a write that sets EN starts every count from 0 (R350). -/
def State.writeWdctl (s : State) (c : Nat) (v : Word) : State :=
  let k := s.core c
  let s := s.setCore c { k with wdctl := wdctlWrite k.wdctl v }
  if bit k.wdctl 8 then s else s.wdRestart c

/-- The first write of KVEC ends boot mode (R361). -/
def State.writeKvec (s : State) (c : Nat) (v : Word) : State :=
  s.setCore c { s.core c with kvec := putBits v 7 0 0, bootMode := false }

/-- MRESUME and BRESUME act only when STATE is 2 (R353). -/
def State.writeMresume (s : State) (c : Nat) (v : Word) : State :=
  match bits v 1 0 with
  | 1 => s.matResume c
  | 2 => s.matAbort c
  | _ => s
def State.writeBresume (s : State) (c : Nat) (v : Word) : State :=
  match bits v 1 0 with
  | 1 => s.bulkResume c
  | 2 => s.bulkAbort c
  | _ => s

/-- Plate capture begins: every clock stops, and the state is shifted out next (R209). -/
def State.capture (s : State) : State := { s with captured := true }

def State.setWatch (s : State) (c i : Nat) (f : Watch → Watch) : State :=
  let k := s.core c
  s.setCore c { k with watches := Assoc.set Watch.reset k.watches i (f (Assoc.get Watch.reset k.watches i)) }

/-- A limit takes effect with the next period (R70); reading shows what was written (assumption 21). -/
def Core.nextLimit (k : Core) (r : Reg) (v : BitVec 32) : Core :=
  let n := k.nextLim
  match r with
  | .dramlim => { k with nextLim := (some v, n.2.1, n.2.2.1, n.2.2.2) }
  | .injlim => { k with nextLim := (n.1, some v, n.2.2.1, n.2.2.2) }
  | .podlim => { k with nextLim := (n.1, n.2.1, some v, n.2.2.2) }
  | _ => { k with nextLim := (n.1, n.2.1, n.2.2.1, some v) }

/-- A write of context `n` of core `c` to a register. RO fields and reserved bits stay (R6, R7); the side effects are those of
the register's own rule. -/
def State.writeReg (s : State) (c n : Nat) (r : Reg) (v : Word) : State :=
  let k := s.core c
  let x := k.ctx n
  let cl := clusterOf c
  match r with
  | .cir => s.setCtx c n { x with cir := cirWrite x.cir v }
  | .fpctl => s.setCtx c n { x with fpctl := fpctlWrite x.fpctl v }
  | .fpstat => s.setCtx c n { x with fpstat := putBits x.fpstat 5 0 (bits x.fpstat 5 0 &&& (63 - bits v 5 0)) }
  | .loopstate i => if k.trapSlot.toNat < 12 then s.setCtx c k.trapSlot.toNat ((k.ctx k.trapSlot.toNat).loopWrite i v) else s
  | .trapctx => s.setCore c { k with trapSlot := v.setWidth 8 }
  | .mresume => s.writeMresume c v
  | .bresume => s.writeBresume c v
  | .wdctl => s.writeWdctl c v
  | .kvec => s.writeKvec c v
  | .wctl i => s.setWatch c i fun w => { w with ctl := wctlWrite w.ctl v }
  | .wbase i => s.setWatch c i fun w => { w with base := v }
  | .wmask i => s.setWatch c i fun w => { w with mask := v }
  | .wval i => s.setWatch c i fun w => { w with val := v }
  | .split => s.writeSplit c v
  | .swzbase => s.setCore c (k.writeSwzBase v)
  | .swzctl => s.setCore c (k.writeSwzCtl v)
  | .lease => s.setCore c { k with retain := bit v 0 }
  | .waymask => s.writeWaymask cl v
  | .dramlim | .injlim | .podlim | .drainlim => s.setCore c (k.nextLimit r (v.setWidth 32))
  | .mxexcl => s.writeExcl cl (bit v 0)
  | .platectl => if bit v 0 then s.capture else s
  | .ctxid | .coreid | .fieldpos | .clpos | .jobid | .codebase | .tileorg | .tileext | .tilenom | .tileidx | .iterlo | .iterhi
  | .wheld | .whome | .lostw | .taint | .manchor | .mrowp | .mqstat | .trapcause | .trappc | .trapval | .skid _
  | .dramuse | .injuse | .poduse | .drainuse | .pairctl | .pairfp | .pipemap | .cycle | .retired => s

/-! ### BAR0 (R31, R45, R378) -/

/-- DEVINFO. -/
def State.devinfo (s : State) : Word := packed [((s.healthyCount - 1) % 1024, 24), (1, 16), (0x0B4F, 0)]

def State.bootstat (s : State) : Word := packed [(s.bootDetail.toNat, 16), (s.bootStage.toNat, 0)]

/-- What the host reads at an aligned offset of BAR0. -/
def State.readBar0 (s : State) (off : Nat) : Word :=
  if off = 0 then s.devinfo
  else if off = 0x8 then s.bootstat
  else if off = 0x10 then s.qtBase
  else if off = 0x18 then s.qErr
  else if off = 0x1000 then s.podcfg
  else if 0x2000 ≤ off ∧ off < 0xA000 then Assoc.get 0 s.members ((off - 0x2000) / 8)
  else if 0x10000 ≤ off ∧ off < 0x10000 + 8 * 1024 then Assoc.get 0 s.wake ((off - 0x10000) / 8)
  else 0

/-- A host write to a BAR0 register that has no event of its own. -/
def State.writeBar0 (s : State) (off : Nat) (v : Word) : State :=
  if off = 0x10 then { s with qtBase := packed [(bits v 38 16, 16)] }
  else if off = 0x18 then { s with qErr := if bit v 63 then 0 else s.qErr }
  else s

end Sys2Proof.Machine
end

