-- ==== Sys2Proof/Machine/Pair.lean ====
section
/-! DEFINITION. The intervals of a paired core: agreement, rollback and mismatch (R198 to R201). -/

namespace Sys2Proof.Machine

/-- What an output that leaves the hold buffer needs of the budgets of its core: lines, flits, and the port of a request to another
member (R71). -/
def State.holdCharge (s : State) (c : Nat) : HoldItem → Nat × Nat × Option (Nat × Nat)
  | .store =>
    match (s.ctx c 1).sb with
    | e :: _ => e.reach c
    | [] => (0, 0, none)
  | .home keys _ _ port none => reach c (keys.headD 0) port
  | .flight f => if f.body.isEntry then (0, 2, none) else (0, 0, none)
  | .home _ _ _ _ (some _) | .bulk _ _ | .release _ _ => (0, 0, none)

/-- The way of an output is open (R65); packets find theirs hop by hop. -/
def State.holdWay (s : State) (c : Nat) : HoldItem → Bool
  | .store =>
    match (s.ctx c 1).sb with
    | e :: _ => s.entryWay c e
    | [] => true
  | .home keys _ _ _ _ => s.wayTo c (keys.headD 0)
  | .flight _ | .bulk _ _ | .release _ _ => true

/-- The device lines that the host holds and an output is to change (R17). -/
def State.holdNeeds (s : State) (c : Nat) : HoldItem → List Nat
  | .store =>
    match (s.ctx c 1).sb with
    | e :: _ => if e.through then (e.cells.map fun x => lineOf x.1).eraseDups.filter fun l => keySpace (l * 64) = 0 && (Assoc.find s.directory l).isSome else []
    | [] => []
  | .home keys _ _ _ _ => (keys.map lineOf).eraseDups.filter fun l => keySpace (l * 64) = 0 && (Assoc.find s.directory l).isSome
  | .flight _ | .bulk _ _ | .release _ _ => []

/-- Dirty lines of a paired core leave CV for their homes, each over its way and charged (R65, R71): whether all have, and the state. -/
def State.holdEvicts (s : State) (c : Nat) : List Nat → Bool × State
  | [] => (true, s)
  | l :: ls =>
    if !s.wayTo c (l * 64) then (false, s)
    else match s.meter c 1 1 2 none with
      | (true, t) => (t.evict c l).holdEvicts c ls
      | (false, t) => (false, t)

/-- A release half that has come to the front of the hold buffer: its stores have left, and the lines that it covers are written back. False
while a covered write has not reached its point (R147, R162). -/
def State.holdReleases (s : State) (c : Nat) (sc : Scope) (rgn : Option Region) : Bool × State :=
  if !beyondCore sc then (true, s)
  else
    let covers := s.coversLine c 1 rgn
    let (done, s) := s.holdEvicts c ((s.core c).dirtyLines.filter covers)
    if !done || (s.biPending.any fun e => covers e.1) || (beyondHost sc && s.awaitsAck c 1 covers) then (false, s)
    else (true, if sc = .sy then (s.hostLines.filter fun e => e.2 && covers e.1).foldl (fun s e => s.flushHost e.1) s else s)

/-- Whether the output at the front of the hold buffer has left, and the state (R201): a full engine queue, a closed way, a budget, the host's hold of
a line and an acknowledgement that is to come make it wait. An operation on another member's object stays until it is answered, so that
what comes behind a Release leaves after it (R152, R160). -/
def State.holdLeaves (s : State) (c : Nat) (h : HoldItem) : Bool × State :=
  match s.holdNeeds c h with
  | l :: ls => (false, (l :: ls).foldl State.askHost s)
  | [] =>
    if !s.holdWay c h then (false, s)
    else
    let x := s.holdCharge c h
    match (if x = (0, 0, none) then (true, s) else s.meter c 1 x.1 x.2.1 x.2.2) with
    | (false, t) => (false, t)
    | (true, s) =>
      match h with
      | .store =>
        match (s.ctx c 1).sb with
        | e :: rest => (true, (s.setCtx c 1 { s.ctx c 1 with sb := rest }).applyEntry c 1 e)
        | [] => (true, s)
      | .flight f =>
        if f.body.network ≠ .message then (true, s.entryLeaves c f)
        else if 2 ≤ (s.core c).msgPort.length then (false, s) else (true, s.toPort c 1 f)
      | .bulk cmd request => if 2 ≤ ((s.core c).bulkQueue cmd.op.unit).length then (false, s) else (true, s.addBulk c cmd request)
      | .home keys op p port sent =>
        let k := keys.headD 0
        if keySpace k = 2 then
          match sent with
          | some id => (!(s.remote.any fun r => r.id = id), s)
          | none =>
            let t := (s.dropRemote c (lineOf k)).post c 1 port k (.atomic keys.length op p)
            (false, t.setCore c { t.core c with hold := .home keys op p port (some s.nextRemote) :: (t.core c).hold.drop 1 })
        else (true, if s.keyFenced k then s.lose c 1
          else
            let s := if keySpace k ≤ 1 then s.evict c (lineOf k) else s
            ((((s.takeHost (lineOf k)).touchSlice c k false).homeOp keys op p).2.2).watchOwner keys .atomic c (some 1))
      | .release sc rgn => s.holdReleases c sc rgn

/-- The outputs of intervals that have agreed leave in issue order, as many as can; the number bounds them. The holding of the core is set
aside meanwhile. -/
def State.holdEmpties (s : State) (c : Nat) : Nat → State
  | 0 => s
  | n + 1 =>
    let k := s.core c
    match k.hold, k.pair with
    | h :: rest, some p =>
      if p.leaving = 0 then s
      else
        match (s.setCore c { k with pair := some { p with direct := true } }).holdLeaves c h with
        | (true, t) => (t.setCore c { t.core c with hold := rest, pair := some { p with leaving := p.leaving - 1 } }).holdEmpties c n
        | (false, t) => t.setCore c { t.core c with pair := some p }
    | _, _ => s

/-- The interval has agreed: its outputs may leave, PAIRFP takes the fingerprint at both cores, and a new interval starts from a new
checkpoint. -/
def State.pairAgree (s : State) (c : Nat) : State :=
  match (s.core c).pair with
  | none => s
  | some p =>
    let fp : Word := BitVec.ofNat 64 ((~~~p.crcM).toNat * 2 ^ 32 + (~~~p.crcS).toNat)
    let k := s.core c
    let p := k.checkpoint { p with retired := 0, failed := false, outs := 0, leaving := k.hold.length, crcS := 0xFFFF_FFFF, crcM := 0xFFFF_FFFF }
    let s := s.setCore c { k with pair := some p, pairFp := fp }
    let e := s.core p.other
    let s := s.setCore p.other { e with pairFp := fp, pair := e.pair.map fun q => { q with retired := 0, crcS := 0xFFFF_FFFF, crcM := 0xFFFF_FFFF } }
    s.holdEmpties c k.hold.length

/-! ### The east core (R198, R200) -/

/-- The east core retires its copy of the oldest instruction that the west core has retired and it has not, with the values of its
loads: its registers come to hold what the west core's held behind it, and its fingerprint takes the same items. -/
def State.eastStep (s : State) (e : Nat) : State :=
  match (s.core e).pair with
  | none => s
  | some q =>
    match (s.core q.other).pair with
    | none => s
    | some p =>
      match p.trail with
      | [] => s
      | t :: rest =>
        if !q.east then s
        else
          let s := s.setCore q.other { s.core q.other with pair := some { p with trail := rest } }
          let k := s.core e
          let x := k.ctx 1
          let y : Ctx := { t.ctl with
            live := x.live, role := x.role, gen := x.gen, wheld := 0, sb := [], trap := none, step1 := false, after := none, halted := x.halted,
            skid := x.skid, skidLeft := x.skidLeft, stepping := x.stepping, waiting := none, replies := [], lates := [] }
          s.setCore e { k.setCtx 1 y with
            v := t.v, k := t.k, tiles := t.tiles, fetchBuf := if t.refetch then [] else k.fetchBuf, pair := some { q with retired := q.retired + 1, crcS := crcRun q.crcS t.items } }

/-- What has come from outside since the checkpoint comes to its restored context: replies, and events of CIR with their counts (R101, R194). -/
def PairState.restored (p : PairState) : Ctx :=
  p.cirs.foldl (fun x b => if b = cirLostw then x.lose else x.cirSet b) { p.ctl with replies := p.ctl.replies ++ p.came }

/-- The tiles of the checkpoint with the rows that have been added since (R173, R314). -/
def PairState.tilesBack (p : PairState) : Assoc Tile :=
  p.rows.foldl (fun ts (a, r, ws, mark) => Assoc.set Tile.reset ts a ((Assoc.get Tile.reset ts a).addRow r ws mark)) p.tiles

/-- The pipe ends as they are now, without what the discarded outputs have done to them: an entry gives its credit back, and a ring that was set up
is that of the checkpoint again (R309). -/
def PairState.pipesBack (p : PairState) (now : Assoc PipeEnd) (lost : List HoldItem) : Assoc PipeEnd :=
  lost.foldl (fun ps h =>
    match h with
    | .flight f =>
      match f.body with
      | .pipeEntry n _ _ _ => Assoc.set PipeEnd.reset ps n { Assoc.get PipeEnd.reset ps n with free := (Assoc.get PipeEnd.reset ps n).free + 1 }
      | .pipeCredit n (some _) => Assoc.set PipeEnd.reset ps n (Assoc.get PipeEnd.reset p.pipes n)
      | _ => ps
    | .store | .bulk _ _ | .home _ _ _ _ _ | .release _ _ => ps) now

/-- The interval disagreed for the first time: its held outputs are discarded at both cores, with the load values, the engines drain without
effect, and the checkpoint is restored. A halt of the context stays, and so do the outputs of earlier intervals that are still to leave. -/
def State.pairRollback (s : State) (c : Nat) (p : PairState) : State :=
  let k := s.core c
  let x := k.ctx 1
  let kept := k.hold.take p.leaving
  let ctl := { p.restored with
    halted := x.halted, skid := x.skid, skidLeft := x.skidLeft, stepping := x.stepping, waiting := none
    sb := x.sb.take (kept.filter (· = .store)).length }
  let miss (n : BitVec 16) : BitVec 16 := if n = 0xFFFF then n else n + 1
  let again (q : PairState) : PairState :=
    { q with retired := p.retired0, failed := true, outs := 0, emitted := false, crcS := p.crc0, crcM := 0xFFFF_FFFF, trail := [], loaded := [], items := []
             ctl := p.restored, tiles := p.tilesBack, cirs := [], came := [], rows := [] }
  let s := s.setCore c { k.setCtx 1 ctl with
    v := p.v, k := p.k, tiles := p.tilesBack, manchor := p.manchor, chain := p.chain, pipes := p.pipesBack k.pipes (k.hold.drop p.leaving)
    hold := kept
    matq := [], matPark := none, acnq := [], misCount := miss k.misCount, pair := some (again p) }
  let e := s.core p.other
  let y := e.ctx 1
  let there := { p.ctl with
    live := y.live, role := y.role, gen := y.gen, wheld := 0, sb := [], trap := none, halted := y.halted, skid := y.skid, skidLeft := y.skidLeft
    stepping := y.stepping, waiting := none, replies := [], lates := [] }
  s.setCore p.other { e.setCtx 1 there with
    v := p.v, k := p.k, tiles := p.tilesBack, misCount := miss e.misCount, pair := e.pair.map fun q => { again q with failed := q.failed } }

/-- The interval disagreed again: PAIR_MISMATCH at the west core's supervisor, EXCL when MHALF alone differed, and the reset of
the cell (R197, R202, R382). What the hold buffer has is lost with the cell, which writes its weight off (R109). -/
def State.pairMismatch (s : State) (c differ : Nat) : State :=
  let miss (s : State) (d : Nat) : State :=
    let k := s.core d
    s.setCore d { k with misCount := if k.misCount = 0xFFFF then k.misCount else k.misCount + 1 }
  let s := match (s.core c).pair with
    | some p => miss (miss s c) p.other
    | none => miss s c
  let s := s.notice c (plainNotice .pairMismatch 0 (BitVec.ofNat 64 differ))
  let s := if differ = 2 then s.writeExcl (clusterOf c) true else s
  s.askCellReset c

/-- The interval of a paired west core ends (R199): by its length, by a full hold buffer, because its context waits for the end or has stopped
with a record, or, when it is `late`, before a hard save. Both cores have retired the same instructions then, and the engines have done their
commands. -/
def Core.pairDue (k : Core) (p : PairState) (late : Bool) : Bool :=
  !p.east && p.trail.isEmpty && k.matq.isEmpty && (p.retired ≠ 0 || p.leaving < k.hold.length) &&
    ((late && !(k.ctx 1).pastIssue) || 1024 ≤ p.retired || 64 ≤ p.outs || (k.ctx 1).trap.isSome || !(k.ctx 1).live || (k.ctx 1).waiting.any fun w => w.on = .pairInterval)

/-- The halves of the fingerprints that differ: those of the two cores, and, by bits 1:0 of the input word, those that an error in one of
the cores has changed. -/
def State.differ (s : State) (p : PairState) (w : Word) : Nat :=
  let q := (s.core p.other).pair
  (if q.any fun q => q.crcS ≠ p.crcS then 1 else 0) ||| bits w 1 0

/-- PAIR_INTERVAL_END: outputs that are still to leave do so as they can; otherwise the fingerprints are compared. -/
def execPairIntervalEnd (s : State) : Host.Outcome State Fault Refusal :=
  let c := s.input.core
  let k := s.core c
  match k.pair with
  | none => .next s
  | some p =>
    if p.leaving ≠ 0 then .next (s.holdEmpties c k.hold.length)
    else if !k.pairDue p (s.saving c) then .next s
    else
      let d := s.differ p s.input.word
      if d = 0 then .next (s.pairAgree c)
      else if p.failed then .next (s.pairMismatch c d)
      else .next (s.pairRollback c p)

end Sys2Proof.Machine
end

