-- ==== Sys2Proof/Machine/Sys.lean ====
section
/-! DEFINITION. Group SYS: traps, records and notices, the supervisor's controls (R346 to R359, R105, R106, R382). -/

namespace Sys2Proof.Machine

/-! ### The end of a record (R351, R352) -/

/-- The arrival registers of the error handler of a context's record (R352). -/
def State.errorRegs (s : State) (c n : Nat) (t : TrapRec) : List (Word × Bool) :=
  let x := s.ctx c n
  [(t.causeWord, false), (t.val, false), (t.pc.setWidth 64, false),
    (s.token c n ||| BitVec.ofNat 64 (x.cir.toNat % 2 ^ 32 * 2 ^ 32), false)]

/-- A helper's record is forwarded: the slot comes to life again as the error handler, with its weight and domain. -/
def State.forwardHelper (s : State) (c n : Nat) (j : Job) (t : TrapRec) : State :=
  let regs := s.errorRegs c n t
  let s := ((s.releaseMoves c n).dropReplies c n).burstEnded c n
  let x := s.ctx c n
  s.startHelper c n .error (j.codebase + j.errEntry.setWidth 72) regs x.wheld x.whome

/-- A release unit that stops before its copies enter transit leaves their successors unreleased for good: the job can then
complete only with GRAPH_INCOMPLETE (R75 step 3). -/
def State.dropRelease (s : State) (c : Nat) : State :=
  match (s.core c).release, s.fieldOf c with
  | some _, some (fid, _) => s.modJob fid fun j => { j with incomplete := true }
  | _, _ => s

/-- A control context ends without releasing successors and without counting a record: its writes are released, its replies are
strays, its tiles, pipe ends and leases are closed (R352). The answer is its weight and domain. -/
def State.endControl (s : State) (c : Nat) : Nat × BitVec 24 × State :=
  let s := ((s.dropRelease c).releaseMoves c 1).dropReplies c 1
  let s := (s.setCore c { (s.core c).closeTiles with release := none, freed := false, succs := [], succAt := [] }).closePipes c
  let s := if (s.core c).retain then s.keepLeases c else s.lapseOn c
  let x := s.ctx c 1
  (x.wheld, x.whome, (s.freeControl c).refillInbox c)

/-- A handler is to start through the start source of R93. -/
def State.addStart (s : State) (c : Nat) (x : Start) : State := s.setCore c { s.core c with starts := (s.core c).starts ++ [x] }

def startOf (role : Role) (pc : Ptr) (regs : List (Word × Bool)) (w : Nat) (dom : BitVec 24) : Start :=
  let g (i : Nat) : Word := (regs.getD i (0, false)).1
  ⟨role, pc, g 0, g 1, g 2, g 3, w, dom⟩

/-- END: the context ends, and its weight goes home. -/
def State.endContext (s : State) (c n : Nat) : State :=
  if n = 1 then
    let (w, dom, t) := s.endControl c
    t.returnWeight c dom w
  else s.endHelper c n

/-- FORWARD of a context's record. Without a job there is no handler, and the context only ends. -/
def State.forward (s : State) (c n : Nat) (t : TrapRec) : State :=
  match s.jobOf c with
  | none => s.endContext c n
  | some j =>
    if n = 1 then
      let regs := s.errorRegs c 1 t
      let (w, dom, u) := s.endControl c
      u.addStart c (startOf .error (j.codebase + j.errEntry.setWidth 72) regs w dom)
    else s.forwardHelper c n j t

/-- FORWARD of a notice: the handler holds nothing. -/
def State.forwardNotice (s : State) (c : Nat) (t : Notice) : State :=
  match s.jobOf c with
  | none => s
  | some j =>
    s.addStart c (startOf .error (j.codebase + j.errEntry.setWidth 72)
      [(t.causeWord, false), (t.val, false), (t.pc.setWidth 64, false),
        (s.token c 0 ||| BitVec.ofNat 64 ((s.ctx c 0).cir.toNat % 2 ^ 32 * 2 ^ 32), false)] 0 0)

/-- A context goes on behind its trapped instruction, treated as completed with no effect (SKIP of kind P). -/
def Ctx.skipped (x : Ctx) (t : TrapRec) (bytes : Nat) : Ctx := ({ x with pc := t.pc } : Ctx).advance bytes .seq

/-- The context of a record that ends by RESUME or SKIP: where it goes on (R349, R351). -/
def Ctx.resumed (x : Ctx) (t : TrapRec) (skip : Bool) : Ctx :=
  let y := match t.bytes with
    | some n => if skip && t.kind = TrapKind.p then x.skipped t n else { x with pc := t.resume }
    | none => { x with pc := t.resume }
  { y with trap := none }

/-- Modes of `eret`. -/
inductive EretMode where
  | resume (step1 : Bool) | skip | forward | end_
  deriving DecidableEq, Repr

/-- The checkpoint of a paired context whose interval is over takes what has been done to it from outside (R201). -/
def State.recheck (s : State) (c n : Nat) : State :=
  let k := s.core c
  match k.pair with
  | some p => if k.pairedWest n && p.retired = 0 && k.hold.isEmpty then s.setCore c { k with pair := some (k.checkpoint p) } else s
  | none => s

/-- Ends the record of slot `n`, one of 1 to 11, or does nothing when there is none. The fetch buffer of the core empties (R215, R346). -/
def State.endRecord (s : State) (c n : Nat) (m : EretMode) : State :=
  let x := s.ctx c n
  match x.trap with
  | none => s
  | some t =>
    let s := s.setCore c { s.core c with fetchBuf := [], rot := if n = 1 then none else (s.core c).rot }
    match m with
    | .resume step1 => (s.setCtx c n { x.resumed t false with step1 := step1 }).recheck c n
    | .skip => (s.setCtx c n (x.resumed t true)).recheck c n
    | .forward => s.forward c n t
    | .end_ => s.endContext c n

/-- Ends the notice that `idle` delivered last. -/
def State.endNotice (s : State) (c : Nat) (m : EretMode) : State :=
  match (s.core c).delivered with
  | none => s
  | some t =>
    let s := s.setCore c { s.core c with delivered := none }
    match m with
    | .forward => s.forwardNotice c t
    | .resume _ | .skip | .end_ => s

/-- What a paired context's interval holds has agreed and left, and its east copy has caught up (R198, R201). -/
def Core.settled (k : Core) (n : Nat) : Bool :=
  !k.pairedWest n || (k.hold.isEmpty && k.pair.all fun p => p.retired = 0 && p.trail.isEmpty)

/-- `eret`: the slot is Reg(A)[7:0]; the fetch buffer empties. RESUME and SKIP of slot 0 continue slot 0 itself. The record of a paired context
ends when its last interval has agreed. -/
def eretBody (a : GReg) (m : EretMode) (i : Instr) : M Next := do
  let (c, _) ← me
  let v ← regG a
  let _ ← consume [uG a]
  modCore fun k => { k with fetchBuf := [] }
  let n := bits v 7 0
  let x ← getCtx
  let k ← getCore
  if n = 1 && (k.ctx 1).trap.isSome && !k.settled 1 then waitOn .hold 0
  if n = 0xFF then
    modify fun s => s.endNotice c m
    pure .seq
  else if n = 0 then
    match x.trap, m with
    | some t, .resume step1 =>
      setCtx { (x.resumed t false).retired' (instrBytes i) .gone with step1 := step1 }
      pure .gone
    | some t, .skip =>
      setCtx ((x.resumed t true).retired' (instrBytes i) .gone)
      pure .gone
    | some _, .forward | some _, .end_ =>
      setCtx { x with trap := none }
      pure .seq
    | none, _ => pure .seq
  else if n ≤ 11 then
    modify fun s => s.endRecord c n m
    pure .seq
  else pure .seq

def execEretResume (a : GReg) (step1 : Bool) (s : State) : Host.Outcome State Fault Refusal :=
  perform .supervisor (.eretResume a step1) (eretBody a (.resume step1) (.eretResume a step1)) s
def execEretSkip (a : GReg) (s : State) : Host.Outcome State Fault Refusal :=
  perform .supervisor (.eretSkip a) (eretBody a .skip (.eretSkip a)) s
def execEretForward (a : GReg) (s : State) : Host.Outcome State Fault Refusal :=
  perform .supervisor (.eretForward a) (eretBody a .forward (.eretForward a)) s
def execEretEnd (a : GReg) (s : State) : Host.Outcome State Fault Refusal :=
  perform .supervisor (.eretEnd a) (eretBody a .end_ (.eretEnd a)) s

/-! ### Instructions that only trap, and `nop` (R223, R224, R354) -/

def execUdf (d a b : BitVec 6) (ty q : BitVec 4) (imm : BitVec 24) (s : State) : Host.Outcome State Fault Refusal :=
  perform .any (.udf d a b ty q imm) (trap .illegalInstruction (instrLow (.udf d a b ty q imm))) s

/-- An encoding that is no instruction: checks 2 and 3 of R213. -/
def execIllegalInstruction (bad : BadEncoding) (w : Word) (s : State) : Host.Outcome State Fault Refusal :=
  perform .any (.illegalInstruction bad w)
    (match bad with
     | .length => trap .illegalLength (BitVec.ofNat 64 (w.toNat % 2 ^ 32))
     | .instruction => trap .illegalInstruction w) s

def execNop (s : State) : Host.Outcome State Fault Refusal := perform .noText .nop (pure .seq) s

/-- `trap`: TRAP_INSTRUCTION is of kind A (R349). -/
def execTrap (imm : BitVec 24) (s : State) : Host.Outcome State Fault Refusal :=
  perform .noText (.trap imm) (do
    modCtx fun x => { x with after := some (.trapInstruction, 0, imm.signExtend 64) }
    pure .seq) s

/-- `chkerr` (R195). -/
def execChkerr (s : State) : Host.Outcome State Fault Refusal :=
  perform .noText .chkerr (do
    let x ← getCtx
    if bits x.cir 3 0 ≠ 0 then trap .asyncError (BitVec.ofNat 64 (2 ^ 63 + x.cir.toNat % 2 ^ 32))
    pure .seq) s

def execRdcyc (d : GReg) (s : State) : Host.Outcome State Fault Refusal :=
  perform .noText (.rdcyc d) (do
    let s ← get
    passLoad (bytesOfBits 8 s.cycle)
    setG d (BitVec.ofNat 64 s.cycle) false
    pure .seq) s

/-! ### System registers (R356) -/

/-- The register of a number, as the context may reach it. -/
def sysReg (num : BitVec 12) (i : Instr) : M Reg := do
  let (_, n) ← me
  match regOf num.toNat with
  | none => trap .illegalInstruction (instrLow i)
  | some r =>
    if r.supervisor && n ≠ 0 then trap .privilege (instrLow i)
    pure r

def execSysr (d : GReg) (num : BitVec 12) (s : State) : Host.Outcome State Fault Refusal :=
  perform .noText (.sysr d num) (do
    let r ← sysReg num (.sysr d num)
    let (c, n) ← me
    let s ← get
    passLoad (bytesOfBits 8 (s.readReg c n r).toNat)
    setG d (s.readReg c n r) false
    pure .seq) s

def execSysw (num : BitVec 12) (a : GReg) (s : State) : Host.Outcome State Fault Refusal :=
  perform .noText (.sysw num a) (do
    let r ← sysReg num (.sysw num a)
    let (c, n) ← me
    let v ← regG a
    let _ ← consume [uG a]
    modify fun s => s.writeReg c n r v
    pure .seq) s

/-- `sysset` and `sysclr`: one read-modify-write that leaves W1C bits alone. D takes the old value before Reg(A) is read (R9, R354). -/
def sysModify (f : Word → Word → Word) (d : GReg) (num : BitVec 12) (a : GReg) (i : Instr) : M Next := do
  let r ← sysReg num i
  let (c, n) ← me
  let s ← get
  let old := s.readReg c n r
  setG d old false
  let v ← regG a
  let _ ← consume [uG a]
  modify fun s => s.writeReg c n r (f old v &&& ~~~BitVec.ofNat 64 r.w1c)
  pure .seq

def execSysset (d : GReg) (num : BitVec 12) (a : GReg) (s : State) : Host.Outcome State Fault Refusal :=
  perform .noText (.sysset d num a) (sysModify (fun old v => old ||| v) d num a (.sysset d num a)) s
def execSysclr (d : GReg) (num : BitVec 12) (a : GReg) (s : State) : Host.Outcome State Fault Refusal :=
  perform .noText (.sysclr d num a) (sysModify (fun old v => old &&& ~~~v) d num a (.sysclr d num a)) s

/-! ### idle (R348, R355) -/

/-- The lowest slot of 1 to 11 with an outstanding record. -/
def Core.firstRecord (k : Core) : Option Nat := ((List.range 11).map (· + 1)).find? fun n => (k.ctx n).trap.isSome

/-- An item is pending. -/
def Core.hasItem (k : Core) : Bool := k.firstRecord.isSome || !k.notices.isEmpty

/-- A notice leaves the queue, and the oldest held one enters it (R347). -/
def Core.dropNotice (k : Core) : Core :=
  { k with notices := k.notices.drop 1 ++ k.heldNotices.take 1, heldNotices := k.heldNotices.drop 1 }

/-- Delivery of the next item: TRAPCTX selects it. -/
def Core.deliver (k : Core) : Core :=
  match k.firstRecord with
  | some n => { k with trapSlot := BitVec.ofNat 8 n }
  | none =>
    match k.notices with
    | t :: _ => { k.dropNotice with delivered := some t, trapSlot := 0xFF }
    | [] => k

/-- `idle`: D becomes 0 first, and the timeout is latched when the wait begins, with the registers named (R9, R355). -/
def idleBody (d a : GReg) : M Next := do
  let x ← getCtx
  let s ← get
  setG d 0 false
  let y ← getCtx
  let v := if x.stage = 0 then (y.readG a.toNat).toNat else x.latch / 1024
  let _ ← consume [uG a]
  let k ← getCore
  if k.hasItem then
    modCore Core.deliver
    pure (.jump (k.kvec.setWidth 72))
  else
    let since := match x.waiting with
      | some w => w.since
      | none => s.cycle
    if k.wakes ≠ 0 then
      modCore fun k => { k with wakes := 0 }
      setG d 1 false
      pure .seq
    else if v ≠ 0 ∧ since + v ≤ s.cycle then
      setG d 2 false
      pure .seq
    else
      modCtx fun x => { x with stage := 1, latch := 1024 * v + 32 * a.toNat + d.toNat }
      waitOn .idle 0

def execIdle (d a : GReg) (s : State) : Host.Outcome State Fault Refusal :=
  perform .supervisor (.idle d a) (idleBody d a) s

/-- IDLE_TIMEOUT: the wait of slot 0 ends by its timeout. -/
def execIdleTimeout (s : State) : Host.Outcome State Fault Refusal :=
  let c := s.input.core
  let k := s.core c
  let x := k.ctx 0
  let v := x.latch / 1024
  let d : GReg := BitVec.ofNat 5 x.latch
  let a : GReg := BitVec.ofNat 5 (x.latch / 32)
  match x.waiting with
  | some w =>
    if w.on = .idle ∧ v ≠ 0 ∧ w.since + v ≤ s.cycle ∧ !k.hasItem ∧ k.wakes = 0 then
      perform .supervisor (.idle d a) (idleBody d a) { s with curCore := c, curSlot := 0 }
    else .next s
  | none => .next s

/-! ### tlbinv (R138, R139, R357) -/

/-- The entry maps a byte of `n` bytes from `va`. -/
def TlbEntry.meets (e : TlbEntry) (va n : Nat) : Bool :=
  let lo := e.tag * 2 ^ levelShift e.level
  n ≠ 0 && lo < va + n && va < lo + 2 ^ levelShift e.level

/-- The cores that `tlbinv` covers: every core, or those of the field of the issuing core. -/
def State.tlbCores (s : State) (c : Nat) (device : Bool) (d : Nat) : Bool :=
  device || d = c || (match s.fieldOf c with
    | some e => e.2.covers (clusterOf d)
    | none => false)

/-- The covered cores discard the entries that `gone` tells. -/
def State.tlbDrop (s : State) (covers : Nat → Bool) (gone : TlbEntry → Bool) : State :=
  let cut (e : Nat × Core) : Nat × Core :=
    if covers e.1 then (e.1, { e.2 with tlb := e.2.tlb.filter fun t => !gone t }) else e
  { s with cores := s.cores.map cut }

/-- A virtual address lies in what a `tlbinv` covers: everything, or `n` bytes from `va`. -/
def covered (all : Bool) (va n a len : Nat) : Bool := all || (a < va + n && va < a + len)

/-- A page of 64 KiB that an address lies on is covered. -/
def pageCovered (all : Bool) (va n a : Nat) : Bool := all || covered false va n (a / 65536 * 65536) 65536

/-- What the head command of the matrix engine has still to read and write (R139). -/
def MatCmd.spans (cmd : MatCmd) (mrowp : Nat) : List (Ptr × Nat) :=
  let rows := (List.range 32).drop mrowp
  match cmd.op with
  | .mzero _ => []
  | .mma _ x y a b tbl bk =>
    let ks := kStep x.ty y.ty
    let sc := tbl.getD 0
    let nb := ks / 32 * entryBytes x.kind
    (rows.flatMap fun m => [(a + BitVec.ofNat 72 (m * x.stride.toNat), ks * x.ty.width / 8), (sc + BitVec.ofNat 72 (m * nb), nb)]) ++
      if cmd.cols.isSome then []
      else (sc + BitVec.ofNat 72 (32 * nb), 32 * (ks / 32 * entryBytes y.kind)) ::
        (List.range (if bk then ks else 32)).map fun i => (b + BitVec.ofNat 72 (i * y.stride.toNat), (if bk then 32 else ks) * y.ty.width / 8)
  | .mld _ va stride => rows.map fun m => (va + BitVec.ofNat 72 (m * stride), 512)
  | .mst ty _ _ _ va _ stride => rows.map fun m => (va + BitVec.ofNat 72 (m * stride), 32 * ty.width / 8)

/-- Some bytes lie on the page of an address. -/
def onPage (va : Nat) (p : Ptr × Nat) : Bool := p.2 ≠ 0 && p.1.toNat / 65536 ≤ va / 65536 && va / 65536 ≤ (p.1.toNat + p.2 - 1) / 65536

/-- An engine, by its number, has not finished its bytes on the page of an address, which it has translated: its use count stands (R139). -/
def Core.stillOn (k : Core) (code va : Nat) : Bool :=
  if code = EngUnit.matrix.code then k.matq.head?.any fun m => (m.spans k.mrowp).any (onPage va)
  else if code = EngUnit.bulk.code then k.bulkq.any fun b => b.onPage va
  else if code = EngUnit.copy.code then k.copyq.any fun b => b.onPage va
  else true

/-- The context, an engine command or a store of a core that has translated an address of a covered page and has not finished with it. What a
store buffer holds in local space is not translated (R27, R139). -/
def Core.usesPage (k : Core) (all : Bool) (va n : Nat) : Bool :=
  (k.engPlaces.any fun e => e.2.any fun p => pageCovered all va n p.va && k.stillOn e.1 p.va) ||
    ((k.bulkq ++ k.copyq).any fun b => b.asked.any fun a => (b.spansOf a.1).any fun p => pageCovered all va n p.1.toNat) ||
    (k.copyPark.isNone && k.copyq.any fun b => (b.fresh.getD []).any fun x => pageCovered all va n (x.1 * 65536)) ||
    (k.succAt.any fun p => pageCovered all va n p.va) ||
    (k.ctxs.any fun e =>
      (e.2.places.any fun p => pageCovered all va n p.va) ||
        e.2.sb.any fun x => x.cells.any (fun y => keySpace y.1 ≤ 2) && pageCovered all va n x.va)

/-- The stores of a core to covered pages leave their buffers; those of a paired context leave when its interval has agreed (R143, R198). -/
def State.drainCovered (s : State) (c : Nat) (all : Bool) (va n : Nat) : State :=
  ((s.core c).ctxs.map (·.1)).foldl (fun s i =>
    if s.holding c i then s
    else s.drainHits c i (splitSb (fun x => x.cells.any (fun y => keySpace y.1 ≤ 2) && pageCovered all va n x.va) (s.ctx c i).sb).1) s

/-- `tlbinv` (R357): the covered cores discard the entries, and the issuing context waits until nothing on them goes on with what it had
translated before (R139). -/
def execTlbinv (a : PReg) (b : GReg) (device : Bool) (s : State) : Host.Outcome State Fault Refusal :=
  perform .supervisor (.tlbinv a b device) (do
    let (c, _) ← me
    let va ← regP a
    let n ← regG b
    let _ ← consume [uP a, uG b]
    let all : Bool := b = 0
    modify fun s => s.tlbDrop (s.tlbCores c device) fun t => all || t.meets va.toNat n.toNat
    let s ← get
    let covers := s.tlbCores c device
    modify fun s => ((s.cores.map (·.1)).filter covers).foldl (fun s d => s.drainCovered d all va.toNat n.toNat) s
    let s ← get
    if s.cores.any fun e => covers e.1 && e.2.usesPage all va.toNat n.toNat then waitOn .invalidation 0
    pure .seq) s

/-! ### pair and unpair (R198, R358) -/

/-- A fresh pairing of a core: the interval starts, and the checkpoint holds the registers as they are. -/
def Core.pairUp (k : Core) (other : Nat) (east : Bool) : Core :=
  { k with pair := some (k.checkpoint
    ⟨other, east, 0, false, false, 0, false, 0, 0, 0xFFFF_FFFF, 0xFFFF_FFFF, 0xFFFF_FFFF, [], [], [], k.ctx 1, k.v, k.k, k.tiles, k.manchor, k.chain,
      k.pipes, [], [], []⟩) }

/-- Pairs a core, or says why not. -/
def State.pairCore (s : State) (c : Nat) : Nat × State :=
  if !isWest c then (1, s)
  else if (s.core c).pair.isSome then (3, s)
  else
    let e := s.ctx (eastOf c) 1
    if !e.live || e.role ≠ .none then (2, s)
    else
      let t := s.setCore c ((s.core c).pairUp (eastOf c) false)
      (0, t.setCore (eastOf c) ((t.core (eastOf c)).pairUp c true))

def State.unpairCore (s : State) (c other : Nat) : State :=
  let t := s.setCore c { s.core c with pair := none }
  t.setCore other { t.core other with pair := none }

def execPair (d : GReg) (s : State) : Host.Outcome State Fault Refusal :=
  perform .supervisor (.pair d) (do
    let (c, _) ← me
    let s ← get
    let (st, t) := s.pairCore c
    set t
    setG d (BitVec.ofNat 64 st) false
    pure .seq) s

def execUnpair (d : GReg) (s : State) : Host.Outcome State Fault Refusal :=
  perform .supervisor (.unpair d) (do
    let (c, _) ← me
    let k ← getCore
    let s ← get
    match k.pair with
    | none => setG d 1 false
    | some p =>
      if !k.hold.isEmpty || !(s.core p.other).hold.isEmpty then waitOn .hold 0
      modify fun s => s.unpairCore c p.other
      setG d 0 false
    pure .seq) s

/-! ### haltx, resumex, stepx (R205 to R207, R359) -/

/-- The slots that `haltx` and `resumex` name. -/
def slotsOf (v : Word) : List Nat :=
  let n := bits v 7 0
  if n = 0xFF then (List.range 11).map (· + 1) else if 1 ≤ n ∧ n ≤ 11 then [n] else []

/-- A context stops at its next instruction boundary. One that waits on the answer to a request is past issue and completes;
any other wait is withdrawn (R359, R375). A halted context stays as it is. -/
def State.haltSlot (s : State) (c n left : Nat) : State :=
  let x := s.ctx c n
  if x.halted then s
  else
    match x.waiting with
    | some _ =>
      if x.pastIssue then s.setCtx c n { x with halted := true, skid := 0, skidLeft := max 1 left }
      else (s.withdraw c n).setCtx c n { (s.withdraw c n).ctx c n with halted := true, skid := 0, skidLeft := 0 }
    | none => s.setCtx c n { x with halted := true, skid := 0, skidLeft := if x.live then left else 0 }

/-- Every one of slots 1 to 11 is halted. -/
def Core.allHalted (k : Core) : Bool := ((List.range 11).map (· + 1)).all fun n => (k.ctx n).halted

/-- `haltx` of some slots. The core is stopped once every slot is. -/
def State.haltSlots (s : State) (c : Nat) (ns : List Nat) : State :=
  let s := ns.foldl (fun s n => s.haltSlot c n 0) s
  if (s.core c).allHalted then s.setCore c { s.core c with stopped := true } else s

/-- The watchdogs of a field's cores count on, from zero (R205, R207). -/
def State.wdResume (s : State) (c : Nat) : State :=
  match s.fieldOf c with
  | some (_, f) => f.allCores.foldl (fun s d => if (s.core d) = Core.reset then s else s.wdRestart d) s
  | none => s.wdRestart c

/-- `resumex` of some slots: a context with an outstanding record stays halted. When the last halted context of the core resumes, the engines
go on and the watchdogs restart (R207). -/
def State.resumeSlots (s : State) (c : Nat) (ns : List Nat) : State :=
  let some_ := ns.any fun n => (s.ctx c n).halted && (s.ctx c n).trap.isNone
  let s := ns.foldl (fun s n =>
    let x := s.ctx c n
    if x.trap.isSome || !x.halted then s
    else
      let s := s.setCtx c n { x with halted := false, skidLeft := 0 }
      s.setCore c { s.core c with debugged := (s.core c).debugged.filter (· ≠ n) }) s
  if !some_ || ((List.range 11).map (· + 1)).any fun n => ((s.core c).ctx n).halted then s
  else (s.setCore c { s.core c with stopped := false }).wdResume c

def execHaltx (a : GReg) (s : State) : Host.Outcome State Fault Refusal :=
  perform .supervisor (.haltx a) (do
    let (c, _) ← me
    let v ← regG a
    let _ ← consume [uG a]
    modify fun s => s.haltSlots c (slotsOf v)
    pure .seq) s

def execResumex (a : GReg) (s : State) : Host.Outcome State Fault Refusal :=
  perform .supervisor (.resumex a) (do
    let (c, _) ← me
    let v ← regG a
    let _ ← consume [uG a]
    modify fun s => s.resumeSlots c (slotsOf v)
    pure .seq) s

/-- How a step has ended: 0 stepped, 1 blocked, 2 trapped; none while it goes on. `before` is RETIRED when it began, and `gen`
the generation. -/
def Ctx.stepStatus (x : Ctx) (before gen : Nat) : Option Nat :=
  if x.stepping then none
  else if x.trap.isSome then some 2
  else if !x.live || x.gen.toNat ≠ gen || x.retired ≠ before then some 0
  else some 1

/-- `stepx`. -/
def execStepx (d a : GReg) (s : State) : Host.Outcome State Fault Refusal :=
  perform .supervisor (.stepx d a) (do
    let (c, _) ← me
    let v ← regG a
    let _ ← consume [uG a]
    let me0 ← getCtx
    let n := if me0.stage = 0 then bits v 7 0 else me0.latch % 16
    let s ← get
    let x := s.ctx c n
    if me0.stage = 0 then
      if n = 0 ∨ 11 < n ∨ !x.live ∨ !x.halted ∨ x.trap.isSome then
        setG d 3 false
        pure .seq
      else
        modify fun s => s.setCtx c n { x with stepping := true }
        modCtx fun y => { y with stage := 1, latch := x.retired * 2 ^ 16 + x.gen.toNat * 16 + n }
        waitOn .retry 0
    else
      match x.stepStatus (me0.latch / 2 ^ 16) (me0.latch / 16 % 4096) with
      | some st =>
        if st = 0 ∧ x.halted then modify fun s => s.skipFills c n 1024
        setG d (BitVec.ofNat 64 st) false
        pure .seq
      | none => waitOn .retry 0) s

/-- The waits that make a stepped instruction blocked: `bwait`, `ldw` and `vldw`, `qpop` and `qpush`, `start`, a full engine queue, a budget hold
(R206), `rot` (R311), and the Waits of `wget` and `mwait` (R229, R317). -/
def WaitOn.blocks : WaitOn → Bool
  | .barrier | .fullBit | .pipe | .helper | .engineQueue | .messagePort | .budget | .rotate | .reply | .matrix => true
  | .migration | .remote | .leaseAck | .hold | .refill | .idle | .storeBuffer | .invalidation | .linkAck
  | .joinIndex | .pairInterval | .retry | .mesh | .loadQueue => false

/-- STEP_BLOCKED: a stepped instruction has waited 4,096 cycles and is withdrawn with no effect; one that has had an effect already completes
(R206). -/
def execStepBlocked (s : State) : Host.Outcome State Fault Refusal :=
  let c := s.input.core
  let n := s.input.slot
  let x := s.ctx c n
  match x.waiting with
  | some w => if x.stepping ∧ w.on.blocks ∧ !x.committed ∧ w.since + 4096 ≤ s.cycle then .next (s.withdraw c n) else .next s
  | none => .next s

/-- HALT_SIGNAL: issue stops in slots 1 to 11, waits are withdrawn, and instructions past issue still retire, at most eight for
a context (R204, R375). A core that is halted already stays as it is. -/
def execHaltSignal (s : State) : Host.Outcome State Fault Refusal :=
  match s.arrival s.input.index with
  | some (c, .haltSignal debug, t) =>
    let t := if debug then t.setCore c { t.core c with debugged := (List.range 11).map (· + 1) } else t
    if (t.core c).stopped then .next t
    else
      let t := ((List.range 11).map (· + 1)).foldl (fun t n => t.haltSlot c n (Config.skid (t.steps * 16 + n)).val) t
      .next (t.setCore c { t.core c with stopped := true })
  | _ => .next s

/-! ### The watchdog (R350) -/

/-- A core of the same field, or the core itself, is halted (R205). -/
def State.fieldHalted (s : State) (c : Nat) : Bool :=
  (s.core c).stopped || s.saved c || match s.fieldOf c with
    | some (_, f) => s.cores.any fun e => f.covers (clusterOf e.1) && e.2.stopped
    | none => false

/-- BARRIER_STALL: a count reaches 2^LOG, and the waiting instruction is withdrawn with a trap. An instruction that is past issue completes: it
has had an effect, and a trap of kind P has none (R349). -/
def execBarrierStall (s : State) : Host.Outcome State Fault Refusal :=
  let c := s.input.core
  let n := s.input.slot
  let k := s.core c
  let x := k.ctx n
  match x.waiting with
  | none => .next s
  | some w =>
    if bit k.wdctl 8 && w.on ≠ .idle && !x.halted && x.trap.isNone && !x.pastIssue && !s.fieldHalted c &&
        max w.since k.wdSince + 2 ^ bits k.wdctl 5 0 ≤ s.cycle then
      let addr : Word := w.addr
      let bytes := match (s.fetchAt c n x.pc).1 with
        | .code i _ => some (lenBytes (BitVec.ofNat 2 i))
        | .bad _ | .migrating | .held _ => none
      .next ((s.withdraw c n).takeTrap c n (precise x .barrierStall addr bytes))
    else .next s

/-- MIGRATION_REWALK: the waiting access walks again with its context's next issue (R140). -/
def execMigrationRewalk (s : State) : Host.Outcome State Fault Refusal :=
  let c := s.input.core
  let n := s.input.slot
  match (s.ctx c n).waiting with
  | some w => if w.on = .migration ∧ w.since + 1024 ≤ s.cycle then .next { s with agenda := .issue c n :: s.agenda } else .next s
  | none => .next s

/-! ### Register writes (R356) -/

def execKvecWrite (s : State) : Host.Outcome State Fault Refusal := .next (s.writeKvec s.input.core s.input.word)
def execSplitWrite (s : State) : Host.Outcome State Fault Refusal := .next (s.writeSplit s.input.core s.input.word)
/-- SWIZZLE_WRITE: of SWZCTL when the flag is set, otherwise of SWZBASE. -/
def execSwizzleWrite (s : State) : Host.Outcome State Fault Refusal :=
  let c := s.input.core
  .next (s.setCore c (if s.input.flag then (s.core c).writeSwzCtl s.input.word else (s.core c).writeSwzBase s.input.word))
def execWaymaskMaskWrite (s : State) : Host.Outcome State Fault Refusal :=
  .next (s.writeMask (clusterOf s.input.core) (bits s.input.word 15 0))
def execWaymaskFlush (s : State) : Host.Outcome State Fault Refusal := .next (s.startFlush (clusterOf s.input.core))

/-- The end of a flush of a slice: host lines go back to the host and leave it (R67). -/
def State.endFlush (s : State) (cl : Nat) : State :=
  let mine := s.hostLines.filter fun e => homeCluster (e.1 * 64) = cl
  let s := (mine.filter fun e => e.2).foldl (fun s e => s.flushHost e.1) s
  let s := mine.foldl (fun s e => { s with hostLines := Assoc.del s.hostLines e.1 }) s
  s.setSlice cl { s.slice cl with flush := false, clean := true, pins := [] }

/-- FLUSH_COMPLETE: the flush of the slice of cluster `index` ends. -/
def execFlushComplete (s : State) : Host.Outcome State Fault Refusal :=
  if (s.slice s.input.index).flush then .next (s.endFlush s.input.index) else .next s

def execFpctlWrite (s : State) : Host.Outcome State Fault Refusal :=
  let x := s.ctx s.input.core s.input.slot
  .next (s.setCtx s.input.core s.input.slot { x with fpctl := fpctlWrite x.fpctl s.input.word })
def execWdctlWrite (s : State) : Host.Outcome State Fault Refusal := .next (s.writeWdctl s.input.core s.input.word)
def execMxexclWrite (s : State) : Host.Outcome State Fault Refusal :=
  .next (s.writeExcl (clusterOf s.input.core) (bit s.input.word 0))
/-- MXEXCL_APPLY: the pending write of cluster `index` takes effect. -/
def execMxexclApply (s : State) : Host.Outcome State Fault Refusal :=
  let cl := s.input.index
  let l := s.slice cl
  if l.pend && s.mxQuiet cl then .next (s.setSlice cl { l with excl := true, pend := false }) else .next s
def execMresumeResume (s : State) : Host.Outcome State Fault Refusal := .next (s.matResume s.input.core)
def execMresumeAbort (s : State) : Host.Outcome State Fault Refusal := .next (s.matAbort s.input.core)
def execBresumeResume (s : State) : Host.Outcome State Fault Refusal := .next (s.bulkResume s.input.core)
def execBresumeAbort (s : State) : Host.Outcome State Fault Refusal := .next (s.bulkAbort s.input.core)

/-- Registers whose writes have an event of their own. -/
def Reg.ownEvent : Reg → Bool
  | .kvec | .split | .swzbase | .swzctl | .waymask | .fpctl | .wdctl | .mxexcl | .mresume | .bresume | .platectl => true
  | .ctxid | .coreid | .fieldpos | .clpos | .jobid | .codebase | .tileorg | .tileext | .tilenom | .tileidx | .iterlo | .iterhi
  | .wheld | .whome | .cir | .lostw | .taint | .fpstat | .manchor | .mrowp | .mqstat | .loopstate _
  | .trapcause | .trappc | .trapval | .trapctx | .skid _ | .wctl _ | .wbase _ | .wmask _ | .wval _ | .lease
  | .dramlim | .injlim | .podlim | .drainlim | .dramuse | .injuse | .poduse | .drainuse | .pairctl | .pairfp
  | .pipemap | .cycle | .retired => false

/-- REGISTER_WRITE: a system register by number, or, with the flag, a BAR0 register by offset. -/
def execRegisterWrite (s : State) : Host.Outcome State Fault Refusal :=
  let x := s.input
  if x.flag then .next (s.writeBar0 x.index x.word)
  else
    match regOf x.index with
    | none => .next s
    | some r => if r.ownEvent || (r.supervisor && x.slot ≠ 0) then .next s else .next (s.writeReg x.core x.slot r x.word)

/-! ### The context layout (R381) -/

/-- The 592 bytes of a context (R381). -/
def Ctx.image (x : Ctx) : List Byte :=
  bytesOfBits 16 x.pc.toNat ++ ((List.range 32).flatMap fun i => bytesOfBits 8 (x.readG i).toNat) ++
    ((List.range 16).flatMap fun i => bytesOfBits 16 (x.readP i).toNat) ++ bytesOfBits 8 x.cir.toNat ++
    bytesOfBits 8 x.lostw.toNat ++ bytesOfBits 8 x.fpctl.toNat ++ bytesOfBits 8 x.fpstat.toNat ++
    ((List.range 4).flatMap fun i => bytesOfBits 8 (x.loopWord i).toNat)

end Sys2Proof.Machine
end

