-- ==== Sys2Proof/Machine/Micro.lean ====
section
/-! DEFINITION. What the micro-kernel of a core does of its own accord: it ends records and notices, and pairs cores (R105, R106,
R198, R382). Queues, jobs and debug requests are events of their own. -/

namespace Sys2Proof.Machine

/-- QUIESCENT: one unit of the home counter goes to a helper that runs the quiescence handler (R105). -/
def State.startQuiescence (s : State) (c : Nat) (status : Word) : State :=
  match s.jobOf c with
  | none => s
  | some j =>
    let k := s.core c
    let d := k.domain 0
    let s := s.setCore c (k.setDomain 0 { d with count := d.count - 1 })
    s.addStart c (startOf .quiescence (j.codebase + j.qEntry.setWidth 72)
      [(status, false), (BitVec.ofNat 64 j.writtenOff, false), (BitVec.ofNat 64 j.ended, false), (0, false)]
      1 (domId (s.lidOf c) 0 d.gen.toNat))

/-- A free counter index of a core, other than 0. -/
def Core.freeIndex (k : Core) : Option Nat := ((List.range 15).map (· + 1)).find? fun i => !(k.domain i).isOpen

/-- WEIGHT_EXHAUSTED: a sub-home opens on the issuing core, and the instruction is executed again; a request that the child domain
could not serve either, or a core without a free index, forwards the record (R106). -/
def State.subHome (s : State) (c n : Nat) (t : TrapRec) : State :=
  let k := s.core c
  let x := k.ctx n
  match (if x.wheld ≠ 0 ∧ t.val.toNat ≠ 0 ∧ t.val.toNat < 65536 then k.freeIndex else none) with
  | none => s.endRecord c n .forward
  | some i =>
    let d := k.domain i
    let gen := d.gen + 1
    let s := s.setCore c (k.setDomain i ⟨gen, true, 0, 65536, x.whome, x.wheld, 0, none⟩)
    let s := s.setCtx c n { s.ctx c n with wheld := 65536, whome := domId (s.lidOf c) i gen.toNat }
    s.endRecord c n (.resume false)

/-- The engine whose parked head command is the faulting one is aborted (R353, R382). -/
def State.abortParked (s : State) (c slot : Nat) (pc : Ptr) (gen : BitVec 12) : State :=
  let k := s.core c
  let mat := k.matPark.isSome && slot = 1 && k.matq.head?.any fun m => m.pc = pc && m.gen = gen
  let faulty (u : EngUnit) : Bool := (k.bulkParked u).isSome && (k.bulkQueue u).head?.any fun b => b.slot = slot && b.pc = pc && b.gen = gen
  if mat then s.matAbort c else if faulty .bulk then s.headAbort c .bulk else if faulty .copy then s.headAbort c .copy else s

/-- The micro-kernel refills the shadow pool of a core's field for the command that found it empty: a free page for each destination page, in
its vault (R305, R382). -/
def State.refillShadow (s : State) (c : Nat) : State :=
  match (s.core c).copyq with
  | [] => s
  | cmd :: _ => cmd.op.pages.foldl (fun s p =>
      match s.fieldOf c, s.pageLeaf c p with
      | some (fid, f), some (_, pte) =>
        match s.freePage (fun p => f.job.all fun j => !j.snapJob || reserveRoom (j.reserved ++ [p])) [pteAddr pte / 2 ^ 29] s.takenPages ((s.steps * 65536 + f.shadow.length) * 2) with
        | some page => s.setField fid { f with shadow := f.shadow ++ [page * 65536] }
        | none => s
      | _, _ => s) s

/-- The end of a context's record. -/
def State.kernelRecord (s : State) (c n : Nat) (t : TrapRec) : State :=
  match t.cause with
  | .weightExhausted => s.subHome c n t
  | .engineFault =>
    if t.detail = 0 then ((s.refillShadow c).bulkResume c).endRecord c n (.resume false)
    else (s.abortParked c n t.pc t.gen).endRecord c n .forward
  | .watchpoint | .step => (s.haltSlots c [n]).endRecord c n (.resume false)
  | .illegalInstruction | .illegalLength | .fetchCross | .privilege | .misaligned | .translation | .permission | .absentMember
  | .formatMismatch | .engineNotOwned | .matrixUndeclared | .peerExited | .asyncError | .acnNak | .barrierStall | .queueError
  | .trapInstruction | .quiescent | .pairMismatch | .burstWait | .loopOverflow | .tileRetry | .inboxOverflow | .cellReset =>
    s.endRecord c n .forward

/-- The end of a notice. An INBOX_OVERFLOW of the stray entries carries slot 1, one of a bounce slot 0. -/
def State.kernelNotice (s : State) (c : Nat) (t : Notice) : State :=
  match t.cause with
  | .quiescent => s.startQuiescence c t.val
  | .engineFault =>
    if t.detail = 0 then (s.refillShadow c).bulkResume c else (s.abortParked c t.slot t.pc t.gen).forwardNotice c t
  | .watchpoint | .acnNak | .cellReset => s.forwardNotice c t
  | .inboxOverflow => if t.slot = 1 then s.forwardNotice c t else s
  | .queueError | .pairMismatch
  | .illegalInstruction | .illegalLength | .fetchCross | .privilege | .misaligned | .translation | .permission | .absentMember
  | .formatMismatch | .engineNotOwned | .matrixUndeclared | .weightExhausted | .peerExited | .asyncError | .barrierStall | .step
  | .trapInstruction | .burstWait | .loopOverflow | .tileRetry => s

/-- The micro-kernel of a west core pairs a control context that took a PAIRED copy, and ends the pairing after its `tend`. -/
def State.kernelPair (s : State) (c : Nat) : State :=
  let k := s.core c
  match k.pair with
  | none => if isWest c && (k.ctx 1).live && k.running.any Running.paired then (s.pairCore c).2 else s
  | some p => if !p.east && !(k.ctx 1).live && k.settled 1 then s.unpairCore c p.other else s

/-- The lowest slot whose record the micro-kernel is to end: one that no DEBUG session holds halted (R208, R382). -/
def Core.recordDue (k : Core) : Option Nat :=
  ((List.range 11).map (· + 1)).find? fun n => (k.ctx n).trap.isSome && !((k.ctx n).halted && k.debugged.contains n) && k.settled n

/-- One turn of the micro-kernel of a core: it goes on with the record that it is to write, and ends the next trap record or notice. -/
def State.kernelTurn (s : State) (c : Nat) : State :=
  let s := s.reportTurn c
  let k := s.core c
  if !s.able c || k.bootMode || (s.jobOf c).any (fun j => j.pre = .hardSaved) then s
  else
    match k.recordDue with
    | some n =>
      match (k.ctx n).trap with
      | some t => s.kernelRecord c n t
      | none => s
    | none =>
      match k.notices with
      | t :: _ => (s.setCore c { k.dropNotice with fetchBuf := [] }).kernelNotice c t
      | [] => s.kernelPair c

end Sys2Proof.Machine
end

