-- ==== Sys2Proof/Machine/Fabric.lean ====
section
/-! DEFINITION. Events of the memory machine, of the links, of the host's own accesses, of budgets and power, and the reset of a cell
(R12, R14, R16 to R18, R20 to R26, R44, R54, R62, R70, R109, R110, R144, R378). -/

namespace Sys2Proof.Machine

/-! ### Moves of the memory machine (R144) -/

/-- DRAIN: the oldest entry of a store buffer for an address, given as a physical key, drains, unless an older one shares a byte with it
(R143). A held store stays (R198), and one that leaves the core's router waits for its way and its budget (R65, R71). -/
def execDrain (s : State) : Host.Outcome State Fault Refusal :=
  let c := s.input.core
  let n := s.input.slot
  if s.holding c n then .next s
  else
    match takeEntry s.input.addr (s.ctx c n).sb with
    | some (e, rest) =>
      let r := e.reach c
      match (if !s.entryWay c e then (false, s) else if r = (0, 0, none) then (true, s) else s.meter c n r.1 r.2.1 r.2.2) with
      | (true, t) => .next ((t.setCtx c n { t.ctx c n with sb := rest }).applyEntry c n e)
      | (false, t) => .next t
    | none => .next s

/-- The number by which a governor names the write-backs and fills of a core's L1. -/
def l1Who : Nat := 65

/-- An access of a core's L1 to the home of a line: its way is open, and its budget takes it (R65, R71). -/
def State.l1Access (s : State) (c line : Nat) : Bool × State :=
  if !s.wayTo c (line * 64) then (false, s) else s.meter c l1Who 1 2 none

/-- EVICT: the line of a key leaves CV. -/
def execEvict (s : State) : Host.Outcome State Fault Refusal :=
  let c := s.input.core
  let l := lineOf s.input.addr
  if (Assoc.find (s.core c).cv l).isNone then .next s
  else if !(s.core c).dirtyLines.contains l then .next (s.evict c l)
  else
    match s.l1Access c l with
    | (true, t) => .next (t.evict c l)
    | (false, t) => .next t

/-- The 64 KiB page that orders a request on its link queue. -/
def RemoteReq.page (r : RemoteReq) : Nat := r.key / 65536

/-- A request of a core for a page of another member is still to be applied there: what comes after it in the queue waits (R20, R143). -/
def State.queued (s : State) (c page : Nat) : Bool := s.remote.any fun r => r.core = c && !r.applied && r.page = page

/-- FILL: a line with an absent byte is filled in CV, unless a write to it waits for the host (R17, R144). Another member's line is read through
the link queue, behind the core's earlier requests for its page (R145), and takes its port. -/
def execFill (s : State) : Host.Outcome State Fault Refusal :=
  let c := s.input.core
  let l := lineOf s.input.addr
  let absent := (List.range 64).any fun i => (Assoc.find ((s.core c).line l) i).isNone
  if 2 < keySpace (l * 64) || !absent || s.biPending.any (fun e => e.1 = l) then .next s
  else if keySpace (l * 64) = 2 then
    if s.queued c (l * 64 / 65536) || !s.memberPresent (keyAddr (l * 64) / 2 ^ 52) then .next s
    else
      match s.meter c l1Who 0 2 (some (s.portOf (l * 64), 1)) with
      | (true, t) => .next (t.fill c l)
      | (false, t) => .next t
  else
    match s.l1Access c l with
    | (true, t) => .next ((t.fill c l).touchSlice c (l * 64) false)
    | (false, t) => .next t

/-! ### Links to other members (R18, R20 to R26) -/

/-- The poison marks of the two sectors of a line. -/
def State.lineMarks (s : State) (key : Nat) : BitVec 2 :=
  BitVec.ofNat 2 ((if s.poisoned key then 1 else 0) + (if s.poisoned (key + 32) then 2 else 0))

/-- A request applied at its target: the request with its response, and H after it. -/
def State.applyRemote (s : State) (r : RemoteReq) : RemoteReq × State :=
  match r.op with
  | .line => ({ r with applied := true, data := s.peeks r.key 64, marks := s.lineMarks r.key }, s)
  | .store cells p => ({ r with applied := true }, s.writeH cells p)
  | .atomic n op p =>
    let (old, was, t) := s.homeOp ((List.range n).map (r.key + ·)) op p
    ({ r with applied := true, data := bytesOfBits n old, marks := if was then 1 else 0 }, t)

/-- Requests of one page leave on their port, and are applied, in the order in which they were made (R20, R22). -/
def State.firstOfPage (s : State) (i : Nat) (r : RemoteReq) (before : RemoteReq → Bool) : Bool :=
  !(s.remote.take i).any fun q => before q && q.page = r.page

/-- Request `i` leaves on its port: its time runs from here (R26). -/
def State.departTurn (s : State) (i : Nat) : State :=
  match s.remote[i]? with
  | some r =>
    if r.sent.isNone && s.firstOfPage i r fun q => q.sent.isNone then { s with remote := s.remote.set i { r with sent := some s.cycle } } else s
  | none => s

/-- FORWARD: request `index` has left, and is the oldest of its page that has not been applied; it is applied whole. -/
def execForward (s : State) : Host.Outcome State Fault Refusal :=
  match s.remote[s.input.index]? with
  | some r =>
    if r.applied || r.sent.isNone || !s.firstOfPage s.input.index r fun q => !q.applied then .next s
    else
      let (r', t) := s.applyRemote r
      .next { t with remote := s.remote.set s.input.index r' }
  | none => .next s

/-- The context that a request was made for: the supervisor's, for the micro-kernel. -/
def RemoteReq.asks (r : RemoteReq) : Nat :=
  if r.slot < 16 then r.slot else if r.slot < 18 then r.slot - 16 else if r.slot < 30 then r.slot - 18 else if r.slot < 32 then 0
  else if r.slot < 48 then r.slot - 32 else r.slot - 48

/-- The engine that made a request, by its number. -/
def RemoteReq.unit (r : RemoteReq) : EngUnit :=
  if r.slot = 16 then .kernel else if r.slot < 18 then .matrix else if r.slot < 30 then .start else if r.slot < 32 then .report
  else if r.slot < 48 then .bulk else .copy

/-- The context that a request was made for is still the one that made it. -/
def State.asker (s : State) (r : RemoteReq) : Bool := (s.ctx r.core r.asks).live && (s.ctx r.core r.asks).gen = r.gen

/-- An engine's line, or an acknowledgement that it awaits, arrives or is lost. -/
def State.engArrives (s : State) (r : RemoteReq) (key : Nat) (f : Fetch) : State :=
  let k := s.core r.core
  match Assoc.find k.engineLines key with
  | some old => if old.arrived then s else s.setCore r.core { k with engineLines := Assoc.put k.engineLines key f }
  | none => s

/-- The key by which an engine awaits the answer to a request: of its line, of a sector of its copy, or of a write of the micro-kernel. -/
def RemoteReq.engKey (r : RemoteReq) : Nat :=
  match r.op with
  | .line => 16 * lineOf r.key + r.unit.code
  | .store _ _ | .atomic _ _ _ =>
    match r.unit with
    | .bulk | .copy => ackKey r.id
    | .kernel | .report => 16 * r.key + r.unit.ackCode
    | .matrix | .start => 16 * r.key + 15

/-- A line for the instruction in progress of a context arrives or is lost. With the answer to a plain load comes the Fill of the line, from
H of the member as it is now, unless the core has written the line since (R22, R142, R144). -/
def State.lineArrives (s : State) (r : RemoteReq) (f : Fetch) : State :=
  let x := s.ctx r.core r.slot
  match Assoc.find x.fetched (lineOf r.key) with
  | some old =>
    if old.arrived then s
    else
      let t := s.setCtx r.core r.slot { x with fetched := Assoc.put x.fetched (lineOf r.key) { f with keep := old.keep } }
      if old.keep && !f.lost then t.fill r.core (lineOf r.key) else t
  | none => s

/-- The old value of an atomic that a context has run ahead of reaches its register, with its mark; the answer is none when the context did
not run ahead of this request (R25, R193). -/
def Ctx.lateArrives (x : Ctx) (id old : Nat) (mark : Bool) : Option Ctx :=
  (x.lates.find? fun l => l.id = id).map fun l =>
    let y : Ctx := { x with lates := x.lates.filter fun e => e.id ≠ id }
    match l.dst with
    | some d => (y.writeG d.toNat (ext l.ty old)).mark d.toNat mark
    | none => y

/-- A request is answered: lines, old values and acknowledgements reach the context or the engine that asked. -/
def State.answer (s : State) (r : RemoteReq) : State :=
  if 16 ≤ r.slot then s.engArrives r r.engKey ⟨true, false, r.data, r.marks, false⟩
  else if !s.asker r then s
  else
    let x := s.ctx r.core r.slot
    match r.op with
    | .line => s.lineArrives r ⟨true, false, r.data, r.marks, false⟩
    | .store _ _ | .atomic _ _ _ =>
      let old := bitsOfBytes r.data
      match x.lateArrives r.id old (bit r.marks 0) with
      | some y => s.setCtx r.core r.slot (if bit r.marks 0 then y.cirSet cirPoison else y)
      | none => if x.remote = .outstanding r.id then s.setCtx r.core r.slot { x with remote := .answered old (bit r.marks 0) } else s

/-- REMOTE_RESPONSE: the response of an applied request arrives whole. -/
def execRemoteResponse (s : State) : Host.Outcome State Fault Refusal :=
  match s.remote[s.input.index]? with
  | some r =>
    if r.applied then .next (({ s with remote := s.remote.eraseIdx s.input.index } : State).answer r) else .next s
  | none => .next s

/-- LOSTW of the context that a lost request was made for. A write of the micro-kernel is a fault of its own work (R379). -/
def State.loseFor (s : State) (r : RemoteReq) : State :=
  if s.asker r && r.unit ≠ .kernel && r.unit ≠ .report || r.slot < 16 && s.asker r then s.lose r.core r.asks else s

/-- A request ends by its timeout (R26): poisoned, dropped, or counted in LOSTW. -/
def State.expire (s : State) (r : RemoteReq) : State :=
  let gone : Fetch := ⟨true, true, [], 0, false⟩
  if 16 ≤ r.slot then
    match r.op with
    | .line => s.engArrives r r.engKey gone
    | .store _ _ | .atomic _ _ _ => (s.loseFor r).engArrives r r.engKey gone
  else if !s.asker r then s
  else
    match r.op with
    | .line => s.lineArrives r gone
    | .store _ _ | .atomic _ _ _ =>
      let s := s.loseFor r
      let x := s.ctx r.core r.slot
      let old := bitsOfBytes ((List.range 8).map fun i => Config.lostByte (s.steps * 64 + i))
      match x.lateArrives r.id old true with
      | some y => s.setCtx r.core r.slot (if x.lates.any fun l => l.id = r.id && l.dst.isSome then y.cirSet cirAbsent else y)
      | none => if x.remote = .outstanding r.id then s.setCtx r.core r.slot { x with remote := .lost } else s

/-- LINK_TIMEOUT: 20 µs, which are 54,000 cycles, have passed since the request left. -/
def execLinkTimeout (s : State) : Host.Outcome State Fault Refusal :=
  match s.remote[s.input.index]? with
  | some r =>
    if r.sent.any fun t => t + 54000 ≤ s.cycle then .next (({ s with remote := s.remote.eraseIdx s.input.index } : State).expire r) else .next s
  | none => .next s

/-- LINK_RETRY: a flit of link `index` failed its CRC; it is retried and counted (R18, R192). -/
def execLinkRetry (s : State) : Host.Outcome State Fault Refusal :=
  .next { s with linkRetries := Assoc.put s.linkRetries s.input.index (Assoc.get 0 s.linkRetries s.input.index + 1) }

/-- POD_CONFIG_WRITE: an aligned 8-byte write at BAR0 offset `index` of the pod configuration block (R378). What is written to the bytes that
the table gives as zero (FLAGS 7:1, bytes 2 to 7, the bytes behind the ports) is kept and reads back: DESIGN CHOICE, the spec does not say
(assumption 122). -/
def execPodConfigWrite (s : State) : Host.Outcome State Fault Refusal :=
  let off := s.input.index
  let v := s.input.word
  if off = 0x1000 then
    let n := bits v 26 16
    let self := bits v 9 0
    if 1 ≤ n ∧ n ≤ 1024 ∧ self < n then .next { s with podcfg := packed [(n, 16), (self, 0)] } else .next s
  else if 0x2000 ≤ off ∧ off < 0xA000 ∧ off % 8 = 0 then .next { s with members := Assoc.set 0 s.members ((off - 0x2000) / 8) v }
  else .next s

/-! ### The host's accesses (R16, R17) -/

/-- A host line or device line that the host reaches by CXL.mem: backed device memory in the HDM range (R12, R16). -/
def State.exposed (s : State) (a : Nat) : Bool := a < 2 ^ 39 && backed a && s.hdm.base ≤ a && a < s.hdm.base + s.hdm.len

/-- What CXL 3.1 has and R16 speaks of. -/
inductive CxlFeature where
  | io | cache | mem | backInvalidate | multiLogical | portRouting | gfam | dynamicCapacity | ide
  deriving DecidableEq, Repr

/-- The device has the features of R16 and no others. -/
def CxlFeature.present : CxlFeature → Bool
  | .io | .cache | .mem | .backInvalidate => true
  | .multiLogical | .portRouting | .gfam | .dynamicCapacity | .ide => false

/-- The CXL capability register of the device's DVSEC: a feature that is not there reads as absent. -/
def cxlCapability : BitVec 16 :=
  let has (f : CxlFeature) (b : Nat) : BitVec 16 := if f.present then BitVec.ofNat 16 (2 ^ b) else 0
  -- one HDM range
  has .cache 0 ||| has .io 1 ||| has .mem 2 ||| 0x10 ||| has .multiLogical 13

/-- The configuration space, by 32-bit words: the PCIe header with the two BARs, the capabilities of PCIe (×16, 64, 32 and 16 GT/s) and of MSI-X (2,048
vectors, in BAR2), the DVSEC of a CXL device, with its capability and its one HDM range, and the DOE mailbox; no IDE capability is listed (R16, R31).
The places and the form of the registers are those of PCIe and CXL 3.1: PRESUMED (assumption 129). The words that identify the device are
free; a word that is not listed reads as zero: DESIGN CHOICE (assumption 129). -/
def State.readConfig (s : State) (off : Nat) : BitVec 32 :=
  match off with
  | 0x00 | 0x08 | 0x2C | 0x50 => Config.pciWord off
  | 0x04 => 0x0010#16 ++ s.pci.command
  | 0x10 => (s.pci.bar0.setWidth 32 &&& 0xFF00_0000) ||| 4
  | 0x14 => (s.pci.bar0 >>> 32).setWidth 32
  | 0x18 => (s.pci.bar2.setWidth 32 &&& 0xFFFF_0000) ||| 4
  | 0x1C => (s.pci.bar2 >>> 32).setWidth 32
  | 0x34 => 0x40
  | 0x40 => 0x0002_8010
  | 0x4C => 0x106
  | 0x6C => 0x70
  | 0x80 => (BitVec.ofNat 16 (2047 + (if s.pci.msixMask then 2 ^ 14 else 0) + (if s.pci.msixOn then 2 ^ 15 else 0))) ++ 0x0011#16
  | 0x84 => 0x0000_0002
  | 0x88 => 0x0000_8002
  | 0x100 => 0x1401_0023
  | 0x104 => 0x03C3_1E98
  | 0x108 => cxlCapability ++ 0#16
  | 0x118 => BitVec.ofNat 32 (s.hdm.len / 2 ^ 32)
  | 0x11C => BitVec.ofNat 32 (s.hdm.len / 2 ^ 28 * 2 ^ 28 + 3)
  | 0x120 => BitVec.ofNat 32 (s.hdm.base / 2 ^ 32)
  | 0x124 => BitVec.ofNat 32 (s.hdm.base / 2 ^ 28 * 2 ^ 28)
  | 0x140 => 0x0001_002E
  | 0x14C => BitVec.ofNat 32 ((if s.pci.doeError then 4 else 0) + (if s.pci.doeOut.isEmpty then 0 else 2 ^ 31))
  | 0x154 => s.pci.doeOut.headD 0
  | _ => 0

/-- HOST_MEMORY_ACCESS: a CXL.mem access to device memory at `addr`, ordered at its home slice. A write brings its bytes; a read
leaves the line with the host, which the directory records. A write leaves the directory as it is: the host holds the line after it when
it held it before; DESIGN CHOICE, R17 does not say (assumption 89). An address outside the HDM range is not the device's to answer. -/
def execHostMemoryAccess (s : State) : Host.Outcome State Fault Refusal :=
  let a := s.input.addr
  if !s.exposed a then .next s
  else
    let line := lineOf (keyDram a)
    if s.input.flag then
      let cells := ((List.range (min s.input.data.length (64 - a % 64))).map (keyDram a + ·)).zip s.input.data
      .next ((s.writeH cells false).touchSlice 0 (keyDram a) false)
    else .next (({ s with directory := Assoc.put s.directory line true } : State).touchSlice 0 (keyDram a) false)

/-- BACK_INVALIDATE_ANSWER: the host gives up the line at `addr`, with its bytes when it had changed them, and the writes and operations that
waited for it complete in their order. -/
def execBackInvalidateAnswer (s : State) : Host.Outcome State Fault Refusal :=
  let line := lineOf (keyDram s.input.addr)
  if (Assoc.find s.directory line).isNone then .next s
  else
    let s := s.writeH (((List.range 64).map (line * 64 + ·)).zip s.input.data) false
    let s := s.ahead line
    let s := { s with
      directory := Assoc.del s.directory line, biPending := s.biPending.filter fun e => e.1 ≠ line, biOps := s.biOps.filter fun e => e.1 ≠ line }
    .next (s.bootSettle (line * 64 / 2 ^ 29))

/-- HOST_SNOOP: the home slice answers for the host line at `addr`: a changed line is written back, and the copy is given up when the
host takes the line to itself. The host may then write its own memory. -/
def execHostSnoop (s : State) : Host.Outcome State Fault Refusal :=
  let a := s.input.addr % 2 ^ 51
  let line := lineOf (keyHost a)
  let s := if Assoc.find s.hostLines line = some true then s.flushHost line else s
  if s.input.flag then
    let s := { s with hostLines := Assoc.del s.hostLines line }
    .next (s.pokes (((List.range (min s.input.data.length (64 - a % 64))).map (keyHostMem a + ·)).zip s.input.data))
  else .next s

/-! ### Budgets and power (R14, R44, R70, R71) -/

/-- A core at the start of a budget period. -/
def Core.newPeriod (k : Core) : Core :=
  let n := k.nextLim
  { k with
    dramUse := 0, injUse := 0, podUse := [], drainUse := 0
    dramLim := n.1.getD k.dramLim, injLim := n.2.1.getD k.injLim, podLim := n.2.2.1.getD k.podLim, drainLim := n.2.2.2.getD k.drainLim
    nextLim := (none, none, none, none) }

/-- BUDGET_PERIOD_START: on the same mesh cycle across the whole device. -/
def execBudgetPeriodStart (s : State) : Host.Outcome State Fault Refusal :=
  .next { s with cores := s.cores.map fun (e : Nat × Core) => (e.1, e.2.newPeriod) }

/-- POWER_WINDOW: the controller's new estimate; MMA steps are delayed above 2,200 W until it falls below 2,150 W. -/
def execPowerWindow (s : State) : Host.Outcome State Fault Refusal :=
  let w := Config.power s.steps
  .next { s with powerEst := w, throttled := if 2200 < w then true else if w < 2150 then false else s.throttled }

/-- POWER_GATE: the supervisor gates a core that has no work, that is no home of an enabled queue with POLL, and none of a queue to which it has
been woken (R46). -/
def execPowerGate (s : State) : Host.Outcome State Fault Refusal :=
  let c := s.input.core
  let k := s.core c
  let polls := (List.range 1024).any fun q => (s.desc q).enabled && (s.desc q).poll && s.homeOf q = some c
  let awake := s.queues.any fun e => e.2.awake && (s.desc e.1).enabled && !(s.desc e.1).halted && s.homeOf e.1 = some c
  if s.able c && !k.bootMode && (s.jobOf c).isNone && !polls && !awake && (s.reportOf c).isNone then .next (s.setCore c { k with gated := true })
  else .next s

/-! ### Cell reset (R62, R109, R110, R197) -/

/-- The cells of a field. -/
def FieldSt.cellCount (f : FieldSt) : Nat := f.w / f.cw * (f.h / f.ch)

/-- What a core is after the reset of its cell: SPLIT, what boot gave it, and what its router holds stay (R62, R102). -/
def Core.cellReset (k : Core) : Core :=
  { Core.reset with
    bootWord := k.bootWord, bootMaps := k.bootMaps, bootImgs := k.bootImgs, bootMode := k.bootMode, bootDone := k.bootDone, lid := k.lid, kvec := k.kvec,
    split := k.split, gated := k.gated, waking := k.waking, wakes := k.wakes, domains := k.domains, stealBusy := k.stealBusy, inReset := true }

/-- Open child domains of a core close: their debts are written off to their parents, and their indices advance (R110). -/
def State.closeDomains (s : State) (c : Nat) : State :=
  (List.range 15).foldl (fun s i =>
    let k := s.core c
    let d := k.domain (i + 1)
    if d.isOpen then
      let s := s.setCore c (k.setDomain (i + 1) { d with isOpen := false, gen := d.gen + 1 })
      match s.coreOfLid (domLid d.parent) with
      | some p => s.push c p (.writeOff d.parent d.debt (((s.fieldOf c).map fun e => e.2.cellOf (clusterOf c)).getD 0) (s.lidOf c) s.cycle)
      | none => s
    else s) s

/-- The totals of a core's held-weight table are posted as write-offs (R109). -/
def State.writeOffs (s : State) (c cell : Nat) : State :=
  (s.core c).heldTable.foldl (fun s h =>
    match s.coreOfLid (domLid h.1) with
    | some p => s.push c p (.writeOff h.1 h.2 cell (s.lidOf c) s.cycle)
    | none => s) s

/-- A core of the cell is reset: its scratchpad is zeroed, its L1 is lost, and free join indices return to the list. -/
def State.resetCore (s : State) (c : Nat) : State :=
  let k := s.core c
  let s := match s.fieldOf c with
    | some (fid, _) => s.modJob fid fun j => { j with joinFree := j.joinFree ++ k.joinStack }
    | none => s
  let lo := keyScratch c 0
  let hi := keyScratch (c + 1) 0
  let s := { s with mem := Assoc.clear s.mem lo hi, poison := Assoc.clear s.poison lo hi, full := Assoc.clear s.full (lo / 8) (hi / 8) }
  s.setCore c k.cellReset

/-- The L2 scratch ways of a slice are zeroed. -/
def State.zeroScratchWays (s : State) (cl : Nat) : State :=
  ((List.range 16).filter fun i => bit (s.slice cl).mask i).foldl (fun s w =>
    let lo := keyL2 cl w 0
    { s with mem := Assoc.clear s.mem lo (lo + 0x20000), poison := Assoc.clear s.poison lo (lo + 0x20000) }) s

/-- The clusters of a field. -/
def FieldSt.clusters (f : FieldSt) : List Nat := (List.range (f.w * f.h)).map fun i => (f.y0 + i / f.w) * 16 + f.x0 + i % f.w

/-- Packets of a field that still wait for the job that is lost: none of them can complete otherwise. -/
def State.dropPackets (s : State) (fid : Nat) (j : Job) : State :=
  let s := s.completeAll j.home (j.pauser.toList ++ j.joined ++ j.snaps.map (·.1)) stIncomplete
  match Assoc.find s.snaps fid with
  | some n => ({ s with snaps := Assoc.del s.snaps fid } : State).complete n.home n.ticket stIncomplete 0
  | none => s

/-- The reset of a cell of a field. A cell with the home of the job takes the whole field with it, and the job ends (R62, R197). -/
def State.resetCell (s : State) (fid cell : Nat) (f : FieldSt) : State :=
  let lost := f.job.any fun j => f.cellOf (clusterOf j.home) = cell
  let cells := if lost then List.range f.cellCount else [cell]
  let inside (cl : Nat) : Bool := cells.contains (f.cellOf cl)
  let s := s.setField fid { f with fenced := f.fenced ++ cells.filter fun i => !f.fenced.contains i }
  let cs := f.allCores.filter fun c => inside (clusterOf c) && s.healthy c
  let s := if lost then s else cs.foldl (fun s c => s.writeOffs c (f.cellOf (clusterOf c))) s
  let s := cs.foldl (fun s c => (s.closeDomains c).resetCore c) s
  let s := (f.clusters.filter inside).foldl State.zeroScratchWays s
  match f.job, lost, Assoc.find s.fields fid with
  | some j, true, some f => (s.dropPackets fid j).endJob fid { f with job := some j } j stIncomplete (2 ^ j.wlog)
  | _, _, _ => s

/-- CELL_RESET of cell `cell` of field `fid`; a core of no field is reset alone. -/
def execCellReset (s : State) : Host.Outcome State Fault Refusal :=
  let x := s.input
  match Assoc.find s.fields x.fid with
  | some f => if f.cellCount ≤ x.cell then .next s else .next (s.resetCell x.fid x.cell f)
  | none =>
    if s.healthy x.core && (s.fieldOf x.core).isNone then
      let t := (s.closeDomains x.core).resetCore x.core
      .next (t.setCore x.core { t.core x.core with inReset := false })
    else .next s

/-- A core of the cell is running again: its micro-kernel has loaded the scratch image, and waits. -/
def State.coreBack (s : State) (f : FieldSt) (c : Nat) : State :=
  let k := s.core c
  let s := s.setCore c { (k.setCtx 0 { k.ctx 0 with pc := k.kvec.setWidth 72 }) with inReset := false, idleSince := s.cycle }
  match f.job with
  | some j => s.pokeBytes (keyScratch c 0) j.scratch
  | none => s

/-- FENCE_FALL of cell `cell` of field `fid` (R62, step 4). -/
def execFenceFall (s : State) : Host.Outcome State Fault Refusal :=
  let x := s.input
  match Assoc.find s.fields x.fid with
  | some f =>
    if f.fenced.contains x.cell then
      let s := s.setField x.fid { f with fenced := f.fenced.filter (· ≠ x.cell) }
      .next ((f.allCores.filter fun c => f.cellOf (clusterOf c) = x.cell && s.healthy c).foldl (fun s c => s.coreBack f c) s)
    else .next s
  | none => .next s

/-! ### The DOE mailbox (R54) -/

/-- Bytes of an answer that the spec leaves open. -/
def openBytes (at_ n : Nat) : List Byte := (List.range n).map fun i => Config.spdmOpen (at_ * 65536 + i)

/-- The digests of the present boot (R54). -/
def State.digests (s : State) : List (List Byte) := if s.measured.isEmpty then s.flash.measure else s.measured

/-- The certificate chain of the device: fixed free bytes, 1,024 of them by DESIGN CHOICE (assumption 33). -/
def certificates : List Byte := (List.range 1024).map Config.certByte

/-- The digest of a measurement, 1 to 4. -/
def State.digestOf (s : State) (i : Nat) : List Byte := s.digests.getD (i - 1) []

/-- The block of a measurement: its index and its digest. -/
def State.measurement (s : State) (i : Nat) : List Byte := BitVec.ofNat 8 i :: s.digestOf i

/-- A digest that an answer holds: 0, of the certificate chain; 1 to 4, of a measurement; 5, of all measurements. Each is by SHA-384 (R54). -/
def State.digestBytes (s : State) (index : Nat) : List Byte :=
  if index = 0 then sha384 certificates
  else if index ≤ 4 then s.digestOf index
  else sha384 ([1, 2, 3, 4].flatMap s.measurement)

/-- A signature by the device identity key, ECDSA on brainpoolP384r1: 96 bytes. -/
def signature (at_ : Nat) : List Byte := (List.range 96).map fun i => Config.spdmByte (256 + at_) i

/-- An answer leaves the mailbox. -/
def State.spdm (s : State) (d : Doe) (code p1 p2 : Nat) (body : List Byte) : State :=
  { s with doe := { d with answers := d.answers ++ [[0x13, BitVec.ofNat 8 code, BitVec.ofNat 8 p1, BitVec.ofNat 8 p2] ++ body] } }

/-- An SPDM ERROR answer: the request came out of the order of the connection. -/
def State.spdmError (s : State) : State := s.spdm s.doe 0x7F 0x04 0 []

def execSpdmGetVersion (s : State) : Host.Outcome State Fault Refusal :=
  .next (s.spdm ⟨true, false, false, s.doe.answers⟩ 0x04 0 0 ([0, 1] ++ [0x00, 0x13]))
def execSpdmGetCapabilities (s : State) : Host.Outcome State Fault Refusal :=
  .next (if s.doe.versionDone then s.spdm { s.doe with capsDone := true } 0x61 0 0 (openBytes s.steps 16) else s.spdmError)
/-- What ALGORITHMS announces: measurements and hashes by SHA-384, no base asymmetric algorithm, and one extended one, whose identifier in the
registry the spec does not give. The layout is that of SPDM 1.3: PRESUMED (assumption 123). -/
def algorithmsBody (at_ : Nat) : List Byte :=
  bytesOfBits 2 40 ++ [1, 0] ++ bytesOfBits 4 4 ++ bytesOfBits 4 0 ++ bytesOfBits 4 2 ++ List.replicate 12 0 ++ [1, 0, 0, 0] ++ openBytes at_ 4

def execSpdmNegotiateAlgorithms (s : State) : Host.Outcome State Fault Refusal :=
  .next (if s.doe.capsDone then s.spdm { s.doe with algsDone := true } 0x63 0 0 (algorithmsBody s.steps) else s.spdmError)
def execSpdmGetDigests (s : State) : Host.Outcome State Fault Refusal :=
  .next (if s.doe.algsDone then s.spdm s.doe 0x01 0 1 (s.digestBytes 0) else s.spdmError)
/-- CERTIFICATE: the bytes of the chain from an offset on, at most as many as are asked for, with how many they are and how many are left. -/
def State.certificate (s : State) (off n : Nat) : State :=
  if s.doe.algsDone then
    let part := (certificates.drop off).take n
    s.spdm s.doe 0x02 0 0 (bytesOfBits 2 part.length ++ bytesOfBits 2 (certificates.length - off - part.length) ++ part)
  else s.spdmError
/-- SPDM_GET_CERTIFICATE: the whole chain. -/
def execSpdmGetCertificate (s : State) : Host.Outcome State Fault Refusal := .next (s.certificate 0 1024)
def execSpdmChallenge (s : State) : Host.Outcome State Fault Refusal :=
  .next (if s.doe.algsDone then s.spdm s.doe 0x03 0 1 (s.digestBytes 0 ++ openBytes s.steps 32 ++ s.digestBytes 5 ++ signature s.steps) else s.spdmError)

/-- SPDM_GET_MEASUREMENTS: measurement `index`, or all four for 0xFF. Any other index is answered by ERROR with code 0x04: DESIGN CHOICE
(assumption 33). -/
def execSpdmGetMeasurements (s : State) : Host.Outcome State Fault Refusal :=
  let i := s.input.index
  .next (if !s.doe.algsDone then s.spdmError
    else if i = 0xFF then s.spdm s.doe 0x60 4 0 ([1, 2, 3, 4].flatMap s.measurement ++ signature s.steps)
    else if 1 ≤ i ∧ i ≤ 4 then s.spdm s.doe 0x60 1 0 (s.measurement i ++ signature s.steps)
    else s.spdmError)

/-- What comes next when an outcome is a next state. -/
def nextOr (s : State) : Host.Outcome State Fault Refusal → State
  | .next t => t
  | .fault _ => s
  | .refused _ => s

/-- An SPDM request in the mailbox, by its code; any other is answered by ERROR (R54). The codes are those of SPDM: PRESUMED (assumption 129). -/
def State.spdmRequest (s : State) (bs : List Byte) : State :=
  let code := field bs 1 1
  if code = 0x84 then nextOr s (execSpdmGetVersion s)
  else if code = 0xE1 then nextOr s (execSpdmGetCapabilities s)
  else if code = 0xE3 then nextOr s (execSpdmNegotiateAlgorithms s)
  else if code = 0x81 then nextOr s (execSpdmGetDigests s)
  else if code = 0x82 then s.certificate (field bs 4 2) (field bs 6 2)
  else if code = 0x83 then nextOr s (execSpdmChallenge s)
  else if code = 0xE0 then nextOr s (execSpdmGetMeasurements { s with input := { s.input with index := field bs 3 1 } })
  else s.spdm s.doe 0x7F 0x07 0 []

/-- A data object of the mailbox: vendor 1, a type, its length in words, and its bytes. -/
def doeObject (type : Nat) (bs : List Byte) : List (BitVec 32) :=
  let n := (bs.length + 3) / 4
  BitVec.ofNat 32 (1 + type * 2 ^ 16) :: BitVec.ofNat 32 (n + 2) :: (List.range n).map fun i => BitVec.ofNat 32 (field bs (4 * i) 4)

/-- GO: the words in the mailbox are one data object: of discovery (type 0), or an SPDM request (type 1). An object of another type is discarded, and one
whose length does not fit sets the error bit: PRESUMED, by the PCIe standard (assumption 129). -/
def State.doeGo (s : State) : State :=
  let p := s.pci
  let t := { s with pci := { p with doeIn := [] } }
  let head := (p.doeIn.headD 0).toNat
  let bs := (p.doeIn.drop 2).flatMap fun w => bytesOfBits 4 w.toNat
  if p.doeIn.length < 2 || (p.doeIn.getD 1 0).toNat % 2 ^ 18 ≠ p.doeIn.length then { t with pci := { t.pci with doeError := true } }
  else if head % 2 ^ 24 = 1 then
    let i := field bs 0 1
    { t with pci := { t.pci with doeOut := doeObject 0 (if i = 0 then [1, 0, 0, 1] else if i = 1 then [1, 0, 1, 0] else [0, 0, 0, 0]) } }
  else if head % 2 ^ 24 = 1 + 2 ^ 16 then
    let u := t.spdmRequest bs
    { u with input := s.input, doe := { u.doe with answers := s.doe.answers }
             pci := { u.pci with doeOut := doeObject 1 ((u.doe.answers.drop s.doe.answers.length).headD []) } }
  else t

/-- The host writes a word of the configuration space: the command register, a BAR, the control of MSI-X, or the DOE mailbox; the rest only
reads (R16, R31). A BAR that is not where an access goes is the host's matter: accesses to BAR0 and BAR2 come by their offsets. -/
def State.writeConfig (s : State) (off : Nat) (v : BitVec 32) : State :=
  let p := s.pci
  match off with
  | 0x04 => { s with pci := { p with command := v.setWidth 16 &&& 0x7FF } }
  | 0x10 => { s with pci := { p with bar0 := putBits p.bar0 31 0 (v &&& 0xFF00_0000).toNat } }
  | 0x14 => { s with pci := { p with bar0 := putBits p.bar0 63 32 v.toNat } }
  | 0x18 => { s with pci := { p with bar2 := putBits p.bar2 31 0 (v &&& 0xFFFF_0000).toNat } }
  | 0x1C => { s with pci := { p with bar2 := putBits p.bar2 63 32 v.toNat } }
  | 0x80 => ({ s with pci := { p with msixOn := bit v 31 } } : State).maskFunction (bit v 30)
  | 0x148 =>
    if bit v 0 then { s with pci := { p with doeIn := [], doeOut := [], doeError := false } }
    else if bit v 31 then s.doeGo else s
  | 0x150 => { s with pci := { p with doeIn := p.doeIn ++ [v] } }
  | 0x154 => { s with pci := { p with doeOut := p.doeOut.drop 1 } }
  | _ => s

end Sys2Proof.Machine
end

