-- ==== Sys2Proof/Machine/Queue.lean ====
section
/-! DEFINITION. Serving the host queues: wakes, polls, reading and consuming packets, and the packets that concern no job
(R33, R36 to R48, R58 to R60, R64, R68, R70, R240 to R243, R379). -/

namespace Sys2Proof.Machine

/-! ### Wakes and polls (R33, R44 to R47) -/

/-- A queue whose descriptor fails: it halts, and the admin queue is told (R33, R45). -/
def State.badDescriptor (s : State) (q : Nat) : State :=
  let read := (s.desc q).read
  ((s.setHalted q true).setQueue q { s.queue q with broken := true, awake := false }).reportAdmin q stBadDescriptor read

/-- The home turns to a queue that is enabled and not halted: the checks of R33 come first. -/
def State.attend (s : State) (q : Nat) : State :=
  let d := s.desc q
  if !d.enabled || d.halted then s
  else if d.sound q then s.setQueue q { s.queue q with awake := true, broken := false }
  else s.badDescriptor q

/-- A wake event reaches a home that runs. -/
def State.wakeEvent (s : State) (c q : Nat) : State := (s.setCore c { s.core c with wakes := (s.core c).wakes + 1 }).attend q

/-- WAKE_WRITE to the latch of queue `qid` (R44, R45). A latch that has been written is listed, whatever its value. -/
def execWakeWrite (s : State) : Host.Outcome State Fault Refusal :=
  let q := s.input.qid
  if 1024 ≤ q then .next s
  else
    let old := Assoc.get 0 s.wake q
    let s := { s with wake := Assoc.put s.wake q (if old < s.input.word then s.input.word else old) }
    let d := s.desc q
    if !d.enabled then .next s
    else
      match s.homeOf q with
      | none => if d.halted then .next s else .next (s.badDescriptor q)
      | some c =>
        let k := s.core c
        if k.gated then .next (s.setCore c { k with waking := true }) else .next (s.wakeEvent c q)

/-- WAKE_COMPLETE: a gated home runs again, and the latches of its enabled queues are replayed to it. -/
def execWakeComplete (s : State) : Host.Outcome State Fault Refusal :=
  let c := s.input.core
  let k := s.core c
  if k.waking then
    let s := s.setCore c { k with gated := false, waking := false }
    .next ((s.wake.map (·.1)).foldl (fun s q =>
      if (s.desc q).enabled && s.homeOf q = some c then s.wakeEvent c q else s) s)
  else .next s

/-- QUEUE_POLL_SCAN: core `core` polls the enabled POLL queues that name it. -/
def execQueuePollScan (s : State) : Host.Outcome State Fault Refusal :=
  let c := s.input.core
  if s.able c && !(s.core c).bootMode then
    .next ((List.range 1024).foldl (fun s q =>
      let d := s.desc q
      if d.enabled && d.poll && s.homeOf q = some c then s.attend q else s) s)
  else .next s

/-! ### Reading the head (R36, R37) -/

/-- A published packet at the head of a queue. -/
structure Pkt where
  core : Nat
  qid : Nat
  desc : Desc
  bytes : List Byte
  deriving DecidableEq, Repr

def Pkt.type (p : Pkt) : Nat := field p.bytes 0 1
def Pkt.flags (p : Pkt) : Nat := field p.bytes 1 1
def Pkt.len (p : Pkt) : Nat := field p.bytes 2 2
def Pkt.tag (p : Pkt) : Word := BitVec.ofNat 64 (field p.bytes 8 8)
def Pkt.ticket (p : Pkt) : Ticket := ⟨p.qid, p.desc.read, p.type, p.tag, BitVec.ofNat 8 p.flags⟩
/-- A pointer of the body. -/
def Pkt.ptr (p : Pkt) (off : Nat) : Ptr := BitVec.ofNat 72 (field p.bytes off 16)

/-- The address of a byte index of a ring (R34). -/
def Desc.ringAt (d : Desc) (i : Nat) : Ptr := BitVec.ofNat 72 (d.base + i % 2 ^ d.sizeLog)

/-- Bytes of a ring that may straddle its wrap point (R37). -/
def ringRead (c : Nat) (d : Desc) (i n : Nat) : E (List Byte) := do
  let first := min n (2 ^ d.sizeLog - i % 2 ^ d.sizeLog)
  let a ← kRead c (d.ringAt i) first
  if n = first then pure a
  else
    let b ← kRead c (d.ringAt (i + first)) (n - first)
    pure (a ++ b)

/-- QUEUE_ERROR: the queue halts and reports at its ring, and its home takes a notice (R36, R349). -/
def State.queueError (s : State) (c q : Nat) : State :=
  let read := (s.desc q).read
  let s := s.setQueue q { s.queue q with taken := none, unpublished := none, waitValue := none, turn := false }
  ((s.setHalted q true).queueRecord c q stHalted).notice c (plainNotice .queueError q (BitVec.ofNat 64 read))

def queueFails (c q : Nat) : E Unit := modify fun s => s.queueError c q

/-- The header at READ is not published: it is read again while the latch exceeds READ (R46, R47). -/
def State.notPublished (s : State) (q : Nat) : State :=
  let x := s.queue q
  let read := (s.desc q).read
  if read < (Assoc.get 0 s.wake q).toNat then
    s.setQueue q { x with unpublished := match x.unpublished with
      | some (r, t) => if r = read then some (r, t) else some (read, s.cycle)
      | none => some (read, s.cycle) }
  else s.setQueue q { x with awake := false, unpublished := none }

/-- The published packet at READ; none when there is none, or when the queue has just halted. -/
def readHead (c q : Nat) : E (Option Pkt) := do
  let s ← get
  let d := s.desc q
  match (← caught (ringRead c d d.read 8)) with
  | none =>
    queueFails c q
    pure none
  | some h =>
    let n := 16 * field h 2 2
    if field h 4 4 ≠ d.read / 2 ^ d.sizeLog % 2 ^ 32 ∨ n = 0 then
      modify fun s => s.notPublished q
      pure none
    else if 2 ^ d.sizeLog < n then
      queueFails c q
      pure none
    else
      match (← caught (ringRead c d d.read n)) with
      | none =>
        queueFails c q
        pure none
      | some bs =>
        modify fun s => s.setQueue q { s.queue q with unpublished := none }
        pure (some ⟨c, q, d, bs⟩)

/-- The queues that home `c` serves in a turn: those it has been turned to. -/
def State.ready (s : State) (c : Nat) : List Nat :=
  (s.queues.map (·.1)).filter fun q => decide (s.server q = some c)

/-- The queues that home `c` has still to turn to: what is left of its present turn, or, when nothing is, all of the next. -/
def State.due (s : State) (c : Nat) : List Nat :=
  let left := (s.ready c).filter fun q => !s.visited.contains q
  if left.isEmpty then s.ready c else left

/-- Home `c` turns to its queues by priority, and to each once a turn (R43). -/
def State.mayVisit (s : State) (c q : Nat) : Bool :=
  (s.due c).contains q && (s.due c).all fun i => decide ((s.desc i).prio ≤ (s.desc q).prio)

/-- Home `c` turns to queue `q`. -/
def State.visit (s : State) (c q : Nat) : State :=
  { s with visited := q :: (if s.visited.contains q then s.visited.filter fun i => !(s.ready c).contains i else s.visited) }

/-! ### Consuming (R36, R38) -/

def zeros (n : Nat) : List Byte := List.replicate n 0

/-- READ advances; STALLED clears with it (R47). -/
def State.advanceRead (s : State) (q read : Nat) : State :=
  let s := s.descOp q 16 8 (.write read)
  let s := if (s.desc q).stalled then s.setStalled q false else s
  s.setQueue q { s.queue q with unpublished := none, waitValue := none, taken := none, turn := false }

/-- A packet that has started leaves its queue: steps 3 and 4 of R36, and its completion, when it has one already; a job that it restores
resumes then. -/
def settlePkt (c q : Nat) : E Unit := do
  let s ← get
  match (s.queue q).taken with
  | none => pure ()
  | some k =>
    let d := s.desc q
    match (← caught ((List.range k.len).forM fun j => kWrite c (d.ringAt (k.ticket.index + 16 * j)) (zeros 8))) with
    | none => modify fun s => s.queueError c q
    | some _ => modify fun s => s.advanceRead q (k.ticket.index + 16 * k.len)
    match k.result with
    | some (st, info) => modify fun s => s.complete c k.ticket st info
    | none => pure ()
    match k.resumes with
    | some fid => modify fun s => s.resume fid
    | none => pure ()

/-! ### The checks of R39 to R41 -/

/-- Whether a type may only be carried by a privileged queue. -/
def privilegedType (t : Nat) : Bool := t = 3 || t = 4 || t = 5 || t = 0xB || t = 0xC
/-- Whether byte 16 names a field. -/
def namesField (t : Nat) : Bool := t = 1 || t = 2 || t = 4 || t = 5 || t = 6 || t = 7 || t = 8

/-- The length that a type states; a NOP has any. -/
def Pkt.rightLen (p : Pkt) : Bool :=
  match p.type with
  | 0 => true
  | 1 | 3 | 10 => p.len = 4
  | 2 => p.len = 5
  | 4 | 7 | 8 | 9 | 11 => p.len = 3
  | 5 | 6 => p.len = 2
  | _ => 3 ≤ p.len && field p.bytes 20 4 ≤ 4096 && p.len = 3 + (field p.bytes 20 4 + 15) / 16

/-- The reserved bytes of a type: where they begin, and how many they are. -/
def Pkt.reserved (p : Pkt) : List (Nat × Nat) :=
  match p.type with
  | 1 => [(17, 3), (56, 8)]
  | 2 => [(17, 7), (68, 12)]
  | 3 => []
  | 4 => [(17, 3), (36, 12)]
  | 5 => [(17, 1), (20, 12)]
  | 6 => [(17, 3), (24, 8)]
  | 7 => [(18, 2), (40, 8)]
  | 8 => [(17, 7), (40, 8)]
  | 9 => [(18, 6)]
  | 10 => [(17, 7), (56, 8)]
  | 11 => [(18, 6), (40, 8)]
  | 12 => [(40 + field p.bytes 20 4, 16 * p.len - (40 + field p.bytes 20 4))]
  | _ => []

/-- Where a type has pointers. -/
def Pkt.pointers (p : Pkt) : List Nat :=
  match p.type with
  | 1 | 2 | 3 => [24, 40]
  | 7 | 8 | 9 | 10 | 12 => [24]
  | _ => []

/-- The status of the first general check that a packet fails (R41). -/
def State.badPacket (s : State) (p : Pkt) : Option Nat :=
  let fid := field p.bytes 16 1
  if 0x0D ≤ p.type then some stBadType
  else if !p.desc.privileged p.qid && (privilegedType p.type || (namesField p.type && 2 ≤ p.len && fid ≠ p.desc.fieldOf p.qid)) then
    some stNotPermitted
  else if p.flags / 8 ≠ 0 || !p.rightLen || !(p.reserved.all fun r => zeroes p.bytes r.1 r.2) ||
      !(p.pointers.all fun o => (ptrOf? (field p.bytes o 16)).isSome) then some stBadBody
  else if namesField p.type && (Assoc.find s.fields fid).isNone then some stBadBody
  else none

/-! ### Serving one packet -/

/-- What becomes of a packet: it cannot start yet, it is complete at once, it has started and completes later, or it is complete and the job
of a field resumes behind it. -/
inductive Verdict where
  | hold
  | done (status info : Nat)
  | started
  | resumes (fid : Nat)
  deriving DecidableEq, Repr

/-- The packet has started, and has completed when it has a result; it leaves its queue. -/
def takePkt (p : Pkt) (result : Option (Nat × Nat)) (resumes : Option Nat) : E Unit := do
  modify fun s =>
    let x := s.queue p.qid
    s.setQueue p.qid { x with
      taken := some ⟨p.ticket, p.len, result, resumes⟩, waitValue := none, started := if result.isNone then x.started ++ [p.ticket] else x.started }
  settlePkt p.core p.qid

/-- A packet whose turn it is: FENCE, the general checks, then its own effect (R38, R41). A pointer that faults completes it with
BAD_BODY (R379). -/
def servePkt (p : Pkt) (act : Pkt → E Verdict) : E Unit := do
  let s ← get
  if p.flags / 4 % 2 = 1 ∧ (s.queue p.qid).started ≠ [] then pure ()
  else
    match s.badPacket p with
    | some st => takePkt p (some (st, 0)) none
    | none =>
      match (← caught (act p)) with
      | none => takePkt p (some (stBadBody, 0)) none
      | some .hold => pure ()
      | some (.done st info) => takePkt p (some (st, info)) none
      | some .started => takePkt p none none
      | some (.resumes fid) => takePkt p (some (stOk, 0)) (some fid)

/-- Home `c` turns to queue `q`, once for the packet that it serves. -/
def turnTo (c q : Nat) : E Unit := modify fun s =>
  if (s.queue q).turn then s else (s.visit c q).setQueue q { s.queue q with turn := true }

/-- What is done about the head of a queue: a head that is not published, and a packet of the kind that the event serves, take the queue's turn;
any other event leaves the turn to what serves the head (R43). -/
def headWork (c q : Nat) (want : Pkt → Bool) (act : Pkt → E Unit) : E Unit := do
  match (← readHead c q) with
  | none => turnTo c q
  | some p =>
    if want p then
      turnTo c q
      act p
  modify fun s => s.setQueue q { s.queue q with turn := false }

/-- Home `c` works at queue `q`: at the packet that is on its way out, or, in the queue's turn, at the packet at READ. -/
def State.atQueue (s : State) (c q : Nat) (want : Pkt → Bool) (act : Pkt → E Unit) : State :=
  if s.kernelBusy c q then s
  else if (s.queue q).taken.isSome then kernelWork c q (settlePkt c q) s
  else if (s.core c).kernelAt = some q then kernelWork c q (headWork c q want act) s
  else if s.mayVisit c q then kernelWork c q (headWork c q want act) (s.setQueue q { s.queue q with turn := false })
  else s

/-- The event of a packet of queue `qid`: nothing when the packet at its head is of another kind. The home turns to its queues by
priority, and a packet that cannot start delays no other queue (R43). -/
def State.packet (s : State) (want : Pkt → Bool) (act : Pkt → E Verdict) : Host.Outcome State Fault Refusal :=
  let q := s.input.qid
  if 1024 ≤ q then .next s
  else
    match s.server q with
    | none => .next s
    | some c => .next (s.atQueue c q want fun p => servePkt p act)

def ofType (t : Nat) (p : Pkt) : Bool := p.type = t

/-- HEADER_REREAD of the unpublished header of queue `qid` (R46). -/
def execHeaderReread (s : State) : Host.Outcome State Fault Refusal :=
  let q := s.input.qid
  if 1024 ≤ q then .next s
  else
    match s.server q with
    | none => .next s
    | some c => .next (s.atQueue c q (fun _ => false) fun _ => pure ())

/-- A header that has been found unpublished long enough, while the latch exceeds READ, stalls its queue (R47). -/
def State.stallOver (s : State) (c q : Nat) : State :=
  let d := s.desc q
  match (s.queue q).unpublished with
  | some (r, since) =>
    if r = d.read ∧ since + 2 ^ 26 ≤ s.cycle ∧ r < (Assoc.get 0 s.wake q).toNat ∧ !d.stalled then (s.setStalled q true).queueRecord c q stStalled else s
  | none => s

/-- QUEUE_STALL (R47): the header of queue `qid` is read once more. -/
def execQueueStall (s : State) : Host.Outcome State Fault Refusal :=
  let q := s.input.qid
  if 1024 ≤ q then .next s
  else
    match s.server q with
    | some c =>
      if s.kernelBusy c q || (s.queue q).taken.isSome then .next s
      else .next (kernelWork c q (do
        match (← readHead c q) with
        | some _ => pure ()
        | none => modify fun s => s.stallOver c q) s)
    | none => .next s

/-! ### NOP, SIGNAL, WAIT_VALUE, SKIP, BUDGET, WAYMASK (R42, R48, R68, R70) -/

def execNopPacket (s : State) : Host.Outcome State Fault Refusal := s.packet (ofType 0) fun _ => pure (.done stOk 0)

/-- BAD_TYPE_PACKET: the general checks give its status. -/
def execBadTypePacket (s : State) : Host.Outcome State Fault Refusal :=
  s.packet (fun p => 0x0D ≤ p.type) fun _ => pure (.done stBadType 0)

/-- SIGNAL: the value, then the MSI-X message unless NOIRQ. -/
def signalBody (p : Pkt) : E Verdict := do
  let v := field p.bytes 16 2
  let a := p.ptr 24
  if a.toNat % 8 ≠ 0 then pure (.done stBadBody 0)
  else
    kWrite p.core a ((p.bytes.drop 40).take 8)
    if v / 2 ^ 15 = 0 then modify fun s => s.raise (v % 2048)
    pure (.done stOk 0)

def execSignal (s : State) : Host.Outcome State Fault Refusal := s.packet (ofType 9) signalBody

/-- The condition of a WAIT_VALUE; none for a condition that does not exist. -/
def waitHolds (cond x v : Nat) : Option Bool :=
  match cond with
  | 0 => some (x = v)
  | 1 => some (x ≠ v)
  | 2 => some (v ≤ x)
  | 3 => some (x < v)
  | _ => none

/-- WAIT_VALUE: a condition that is false holds the head of the queue. A condition byte above 3 is a body that fails: DESIGN CHOICE, R40 lists
0 to 3 and no rule names the check (assumption 125). -/
def waitBody (p : Pkt) : E Verdict := do
  let a := p.ptr 24
  if a.toNat % 8 ≠ 0 ∨ (waitHolds (field p.bytes 16 1) 0 0).isNone then pure (.done stBadBody 0)
  else
    let m ← kNat p.core a 8
    match waitHolds (field p.bytes 16 1) (m &&& field p.bytes 48 8) (field p.bytes 40 8) with
    | some true => pure (.done stOk 0)
    | _ =>
      modify fun s => s.setQueue p.qid { s.queue p.qid with waitValue := some p.ticket }
      pure .hold

def execWaitValue (s : State) : Host.Outcome State Fault Refusal :=
  if (s.queue s.input.qid).waitValue.isSome then .next s else s.packet (ofType 10) waitBody

/-- WAIT_VALUE_POLL: the word of a WAIT_VALUE that holds its queue's head is read again. -/
def execWaitValuePoll (s : State) : Host.Outcome State Fault Refusal :=
  if (s.queue s.input.qid).waitValue.isNone then .next s else s.packet (ofType 10) waitBody

/-- SKIP (R48). A queue that BAD_DESCRIPTOR has halted is none that it can advance, until the host has recovered it. The target's home writes its ring; a target whose ring cannot be written is left as it is. -/
def skipBody (p : Pkt) : E Verdict := do
  let s ← get
  let q := field p.bytes 16 2
  let from_ := field p.bytes 24 8
  let upto := field p.bytes 32 8
  let d := s.desc q
  match (if 1024 ≤ q ∨ q = p.qid then none else s.homeOf q) with
  | none => pure (.done stSkip 0)
  | some c =>
    if !d.enabled || !d.sound q || (d.halted && (s.queue q).broken) || d.read ≠ from_ || upto % 16 ≠ 0 || upto ≤ from_ || d.reserve < upto then
      pure (.done stSkip 0)
    else
      if c ≠ p.core && (s.core p.core).kernelAt ≠ some p.qid then modify fun s => s.letGo c
      let n := min (upto - from_) (2 ^ d.sizeLog) / 16
      let r ← caught ((List.range n).forM fun j => kWrite c (d.ringAt (from_ + 16 * j)) (zeros 8))
      if c ≠ p.core then modify fun s => s.letGo c
      match r with
      | none => pure (.done stSkip 0)
      | some _ =>
        modify fun s =>
          let s := (s.advanceRead q upto).setHalted q false
          s.setQueue q { s.queue q with awake := true, broken := false }
        pure (.done stOk 0)

def execSkip (s : State) : Host.Outcome State Fault Refusal :=
  s.packet (ofType 11) fun p => do
    match (← caught (skipBody p)) with
    | some v => pure v
    | none => pure (.done stSkip 0)

/-- BUDGET: the four limits of every core of the field take effect with the next period (R70). -/
def budgetBody (p : Pkt) : E Verdict := do
  let s ← get
  let lim (i : Nat) : BitVec 32 := BitVec.ofNat 32 (field p.bytes (20 + 4 * i) 4)
  if (List.range 4).any fun i => lim i = 0 then pure (.done stBadBody 0)
  else
    match Assoc.find s.fields (field p.bytes 16 1) with
    | none => pure (.done stBadBody 0)
    | some f =>
      modify fun s => f.allCores.foldl (fun s c =>
        s.setCore c { s.core c with nextLim := (some (lim 0), some (lim 1), some (lim 2), some (lim 3)) }) s
      pure (.done stOk 0)

def execBudget (s : State) : Host.Outcome State Fault Refusal := s.packet (ofType 4) budgetBody

/-- The field has a job: a parked one does not count; one that was hard-saved has not completed, and only a RESTORE goes on with it (R42, R97,
R98, R119). -/
def FieldSt.busy (f : FieldSt) : Bool := f.job.any fun j => match j.pre with
  | .running | .pausing _ | .hardSaved => true
  | .parked => j.snap.isSome

/-- WAYMASK: every slice of the field is flushed, and then takes the mask (R68). -/
def waymaskBody (p : Pkt) : E Verdict := do
  let s ← get
  match Assoc.find s.fields (field p.bytes 16 1) with
  | none => pure (.done stBadBody 0)
  | some f =>
    if f.busy then pure .hold
    else
      modify fun s => f.clusters.foldl (fun s cl =>
        let s := (s.startFlush cl).endFlush cl
        s.writeMask cl (field p.bytes 18 2)) s
      pure (.done stOk 0)

def execWaymask (s : State) : Host.Outcome State Fault Refusal := s.packet (ofType 5) waymaskBody

/-! ### FIELD (R58 to R60, R64, R240 to R243) -/

/-- A router lies inside a rectangle of clusters. -/
def inRect (x0 y0 w h x y : Nat) : Bool := 2 * x0 ≤ x && x < 2 * (x0 + w) && 2 * y0 ≤ y && y < 2 * (y0 + h)

/-- The checks of a mux entry. -/
def muxOk (muxes : List Nat) (x0 y0 w h e : Nat) : Bool :=
  e / 8192 = 0 && inRect x0 y0 w h (muxX e) (muxY e) &&
    match linkEnd (muxX e) (muxY e) (muxDir e) 2 with
    | some (x, y) => inRect x0 y0 w h x y && muxAt muxes x y ((muxDir e + 2) % 4) (muxNet e)
    | none => false

/-- The checks of a route entry for a network. -/
def routeOk (muxes : List Nat) (x0 y0 w h net e : Nat) : Bool :=
  let x := e % 32
  let y := e / 32 % 32
  let port := e / 2 ^ 31 % 8
  e / 2 ^ 35 = 0 && inRect x0 y0 w h x y && e / 1024 % 2 = net &&
    e / 2 ^ 11 % 32 ≤ e / 2 ^ 16 % 32 && e / 2 ^ 21 % 32 ≤ e / 2 ^ 26 % 32 && (net = 0 || e / 2 ^ 34 = 0) &&
    (if port < 4 then (linkEnd x y port 1).any fun r => inRect x0 y0 w h r.1 r.2 else muxAt muxes x y (port % 4) net)

/-- No router has more than 64 route entries. -/
def routesFew (routes : List Nat) : Bool :=
  routes.all fun e => (routes.filter fun d => d % 1024 = e % 1024).length ≤ 64

/-- The words of `n` bytes that lie from byte `a` on, `count` of them. -/
def tableWords (bs : List Byte) (a n count : Nat) : List Nat := (List.range count).map fun i => field bs (a + n * i) n

/-- Reads the stitch table: its mux entries, its route entries and those of its chain schedule, or none when a check of R243 fails. -/
def readStitch (c : Nat) (va : Ptr) (x0 y0 w h : Nat) : E (Option (List Nat × List Nat × List Nat)) := do
  if va = 0 then pure (some ([], [], []))
  else
    let head ← kRead c va 32
    let nmux := field head 4 2
    let nroute := field head 6 2
    let pad := (4 * nmux + 7) / 8 * 8
    let bs ← kRead c va (32 + pad + 8 * nroute)
    let muxes := tableWords bs 32 4 nmux
    let routes := tableWords bs (32 + pad) 8 nroute
    let good := field head 0 4 = 0x49545347 && zeroes head 24 8 && zeroes bs (32 + 4 * nmux) (pad - 4 * nmux) &&
      muxes.all (muxOk muxes x0 y0 w h) && routes.all (routeOk muxes x0 y0 w h 0) && routesFew routes
    match ptrOf? (field head 8 16) with
    | none => pure none
    | some chain =>
      if !good then pure none
      else if chain = 0 then pure (some (muxes, routes, []))
      else
        let ch ← kRead c chain 16
        let n := field ch 4 2
        let cs ← kRead c chain (16 + 8 * n)
        let croutes := tableWords cs 16 8 n
        if field ch 0 4 = 0x53484347 ∧ zeroes ch 6 10 ∧ croutes.all (routeOk muxes x0 y0 w h 1) ∧ routesFew croutes then
          pure (some (muxes, routes, croutes))
        else pure none

/-- Reads the cluster map: its extents and its clusters, or none when it does not pass (R58, R59). Its reserved bytes and bits are ignored
(R7). -/
def readMap (c : Nat) (va : Ptr) (x0 y0 w h : Nat) : E (Option (Nat × Nat × List Nat)) := do
  if va = 0 then pure (some (w, h, (List.range (w * h)).map fun i => (y0 + i / w) * 16 + x0 + i % w))
  else
    let head ← kRead c va 16
    let lw := field head 0 1
    let lh := field head 1 1
    if lw = 0 ∨ w < lw ∨ lh = 0 ∨ h < lh then pure none
    else
      let bs ← kRead c (va + 16) (2 * lw * lh)
      let es := (tableWords bs 0 2 (lw * lh)).map (· % 256)
      let inside (e : Nat) : Bool := x0 ≤ e % 16 && e % 16 < x0 + w && y0 ≤ e / 16 && e / 16 < y0 + h
      if es.all inside ∧ es.eraseDups.length = es.length then pure (some (lw, lh, es)) else pure none

/-- Two rectangles of clusters share a cluster. -/
def FieldSt.overlaps (f : FieldSt) (x0 y0 w h : Nat) : Bool :=
  f.x0 < x0 + w && x0 < f.x0 + f.w && f.y0 < y0 + h && y0 < f.y0 + f.h

/-- A field takes the place of an earlier definition of its id, which leaves it its count of launches and a parked job (R58, R98). The cells that
a reset still holds stay fenced, by their new numbers, until it is over (R62); a core of the earlier definition that is in no field any more
needs no fence. The cores translate by the new root (R135). -/
def State.defineField (s : State) (fid : Nat) (f : FieldSt) : State :=
  let held := (f.allCores.filter fun c => (s.core c).inReset && s.healthy c).map fun c => f.cellOf (clusterOf c)
  let old := ((Assoc.find s.fields fid).map FieldSt.allCores).getD []
  let s := s.setField fid { f with fenced := held.eraseDups }
  (old ++ f.allCores).foldl (fun s c =>
    let k := s.core c
    s.setCore c { k with tlb := [], inReset := k.inReset && f.covers (clusterOf c) }) s

/-- FIELD. -/
def fieldBody (p : Pkt) : E Verdict := do
  let s ← get
  let b (i : Nat) : Nat := field p.bytes i 1
  let fid := b 16
  let x0 := b 17
  let y0 := b 18
  let w := b 19
  let h := b 20
  let cw := b 21
  let ch := b 22
  let full := b 23 % 2 = 1
  let root := field p.bytes 56 8
  let old := Assoc.find s.fields fid
  if 64 ≤ fid then pure (.done stBadBody 0)
  else if old.any FieldSt.busy then pure .hold
  else if w = 0 || h = 0 || 16 < x0 + w || 16 < y0 + h || (s.fields.any fun e => e.1 ≠ fid && e.2.overlaps x0 y0 w h) ||
      cw = 0 || ch = 0 || w % cw ≠ 0 || h % ch ≠ 0 || root % 65536 ≠ 0 || 2 ^ 39 ≤ root then pure (.done stBadBody 0)
  else
    match (← readMap p.core (p.ptr 24) x0 y0 w h), (← readStitch p.core (p.ptr 40) x0 y0 w h) with
    | some (lw, lh, map), some (muxes, routes, chain) =>
      if full && !(map.all fun cl => (s.positions cl).length = 4) then pure (.done stBadBody 0)
      else
        modify fun s => s.defineField fid
          { x0 := x0, y0 := y0, w := w, h := h, cw := cw, ch := ch, full := full, lw := lw, lh := lh, map := map, muxes := muxes,
            routes := routes, chain := chain, root := root, serial := (old.map FieldSt.serial).getD 0, fenced := [], shadow := [],
            job := old.bind FieldSt.job }
        pure (.done stOk 0)
    | _, _ => pure (.done stBadBody 0)

def execField (s : State) : Host.Outcome State Fault Refusal := s.packet (ofType 3) fieldBody

end Sys2Proof.Machine
end

