-- ==== Sys2Proof/Machine/Debug.lean ====
section
/-! DEFINITION. DEBUG packets: the requests of a debugger to the micro-kernel of a core (R208, R376, R381). -/

namespace Sys2Proof.Machine

/-! ### The context layout (R381) -/

/-- A context that takes its state from an image in that layout; g0, bits 127:72 of pointer words, reserved fields and bits 1:0 of the
program counter are ignored. -/
def Ctx.ofImage (x : Ctx) (bs : List Byte) : Ctx :=
  let x := { x with pc := BitVec.ofNat 72 (field bs 0 16 / 4 * 4) }
  let x := (List.range 32).foldl (fun x i => x.writeG i (BitVec.ofNat 64 (field bs (16 + 8 * i) 8))) x
  let x := (List.range 16).foldl (fun x i => x.writeP i (BitVec.ofNat 72 (field bs (272 + 16 * i) 16))) x
  let w (k : Nat) : Word := BitVec.ofNat 64 (field bs (528 + 8 * k) 8)
  let x := { x with cir := w 0 &&& 0xFFFF_000F, lostw := (w 1).setWidth 32, fpctl := fpctlWrite x.fpctl (w 2), fpstat := w 3 &&& 0x3F }
  (List.range 4).foldl (fun x i => if field bs (560 + 8 * i) 8 = (x.loopWord i).toNat then x else x.loopWrite i (w (4 + i))) x

/-- Some bytes with others put in their place from an offset on. -/
def splice (bs : List Byte) (off : Nat) (new : List Byte) : List Byte := bs.take off ++ new ++ bs.drop (off + new.length)

/-! ### The form of a request -/

def Pkt.target (p : Pkt) : Nat := field p.bytes 16 2
def Pkt.code (p : Pkt) : Nat := field p.bytes 18 2
/-- The request's data. -/
def Pkt.data (p : Pkt) : List Byte := (p.bytes.drop 40).take (field p.bytes 20 4)

/-- Statuses of a reply. -/
def dbgOk : Nat := 0
def dbgBad : Nat := 1
def dbgNotHalted : Nat := 2
def dbgFault : Nat := 3

/-- What a request does: it waits, or it has an answer. -/
inductive Answer where
  | wait
  | reply (status : Nat) (data : List Byte)
  deriving DecidableEq, Repr

/-- Writes a reply: the header and its data. -/
def writeReply (c : Nat) (at_ : Ptr) (status : Nat) (data : List Byte) : E Unit :=
  kWrite c at_ (bytesOfBits 4 status ++ bytesOfBits 4 data.length ++ zeros 8 ++ data)

/-- Request `i` as it has become. -/
def State.setWork (s : State) (i : Nat) (g : DebugWork) : State := { s with debugWorks := s.debugWorks.set i g }

/-- Requests of one core take effect in the order in which they have started. -/
def State.workReady (s : State) (i : Nat) (g : DebugWork) : Bool := g.begun || (s.debugWorks.take i).all fun h => h.core ≠ g.core || h.begun

/-- Request `i` has its answer, which is written and then completes its packet (R208); a reply buffer that faults completes it with
BAD_BODY (R379). -/
def answerWork (i : Nat) (g : DebugWork) (st : Nat) (data : List Byte) : E Unit := do
  modify fun s => s.setWork i { g with answer := some (st, data), begun := true }
  let r ← caught (writeReply g.core g.reply st data)
  modify fun s =>
    ({ s with debugWorks := s.debugWorks.eraseIdx i } : State).complete g.home g.ticket (if r.isSome then stOk else stBadBody) 0

/-- Request `i` is worked at: it takes effect, waits for what it asks about, or writes its answer. What it has done it does not do again. -/
def State.workTurn (s : State) (i : Nat) (act : Nat → DebugWork → E Answer) : State :=
  match s.debugWorks[i]? with
  | none => s
  | some g =>
    if !s.able g.core || !s.workReady i g then s
    else
      kernelWork g.core g.workId (do
        match g.answer with
        | some (st, data) => answerWork i g st data
        | none =>
          match (← act i g) with
          | .wait => pure ()
          | .reply st data =>
            let s ← get
            answerWork i ((s.debugWorks[i]?).getD g) st data) s

/-- The request of a DEBUG packet starts at its target core. A packet whose target has no power, is fenced or is held in reset holds its queue until
the core runs: DESIGN CHOICE, R42 and R208 do not say (assumption 99). -/
def debugBody (p : Pkt) : E Verdict := do
  let s ← get
  match s.coreOfLid p.target with
  | none => pure (.done stBadBody 0)
  | some c =>
    if !s.able c then pure .hold
    else
      modify fun s => { s with debugWorks := s.debugWorks ++ [⟨p.ticket, p.core, c, p.code, p.data, p.ptr 24, false, 0, 0, 0, 0, 0, none⟩] }
      pure .started

/-- A DEBUG event: the request of the packet at the head of queue `qid` starts, and is worked at; or, with the flag, request `index` is worked at. -/
def State.debug (s : State) (is : Nat → Bool) (act : Nat → DebugWork → E Answer) : Host.Outcome State Fault Refusal :=
  if s.input.flag then
    match s.debugWorks[s.input.index]? with
    | some g => if is g.code then .next (s.workTurn s.input.index act) else .next s
    | none => .next s
  else
    match s.packet (fun p => p.type = 0xC && is p.code) debugBody with
    | .next t => if s.debugWorks.length < t.debugWorks.length then .next (t.workTurn s.debugWorks.length act) else .next t
    | .fault f => .fault f
    | .refused r => .refused r

/-! ### Halting and resuming -/

/-- A halted context that has come to rest: what was past issue has retired. -/
def Ctx.atRest (x : Ctx) : Bool := !x.live || x.trap.isSome || (x.waiting.isNone && x.skidLeft = 0)

/-- SKID0 to SKID11. -/
def Core.skids (k : Core) : List Byte := (List.range 12).map fun n => (k.ctx n).skid.setWidth 8

/-- The request has taken effect. -/
def began (i : Nat) (g : DebugWork) : E Unit := modify fun s => s.setWork i { g with begun := true }

/-- A DEBUG session halts a core: it stops as by `haltx`, unless it has stopped already, and the halt of a cluster or a field goes to the other cores
as signals. -/
def State.debugStop (s : State) (c act : Nat) : State :=
  let s := s.setCore c { s.core c with debugged := (List.range 11).map (· + 1) }
  let s := if (s.core c).stopped then s else s.haltSlots c ((List.range 11).map (· + 1))
  if act ≠ 0 then s.sendHalt c (act + 1) true else s

/-- HALT: the reply waits for contexts that are past issue. -/
def debugHalt (i : Nat) (g : DebugWork) : E Answer := do
  let act := field g.data 0 1
  if g.data = [] ∨ 2 < act then pure (.reply dbgBad [])
  else
    if !g.begun then
      modify fun s => s.debugStop g.core act
      began i g
    let s ← get
    if (List.range 11).all fun n => ((s.core g.core).ctx (n + 1)).atRest then pure (.reply dbgOk (s.core g.core).skids) else pure .wait

def execDebugHalt (s : State) : Host.Outcome State Fault Refusal := s.debug (· = 1) debugHalt

/-- RESUME. -/
def debugResume (_ : Nat) (g : DebugWork) : E Answer := do
  let n := field g.data 0 1
  if g.data = [] ∨ (n ≠ 0xFF ∧ (n = 0 ∨ 11 < n)) then pure (.reply dbgBad [])
  else
    modify fun s => s.resumeSlots g.core (if n = 0xFF then (List.range 11).map (· + 1) else [n])
    pure (.reply dbgOk [])

def execDebugResume (s : State) : Host.Outcome State Fault Refusal := s.debug (· = 2) debugResume

/-! ### Stepping (R376) -/

/-- The slot of a request about a halted context, or how the request is turned away. -/
def State.haltedSlot (s : State) (c n : Nat) : Option Answer :=
  if 11 < n then some (.reply dbgBad [])
  else if !((s.core c).ctx n).halted then some (.reply dbgNotHalted [])
  else if !((s.core c).ctx n).atRest then some .wait
  else none

/-- The reply of a STEP. -/
def stepReply (done last : Nat) (pc : Ptr) : List Byte := bytesOfBits 4 done ++ bytesOfBits 4 last ++ bytesOfBits 16 pc.toNat ++ zeros 8

/-- Another STEP is at work on the slot. -/
def State.stepped (s : State) (i c n : Nat) : Bool := (s.debugWorks.eraseIdx i).any fun h => h.code = 3 && h.begun && h.core = c && h.slot = n

/-- The next `stepx` of a STEP: it begins, or has status 3, as on a context that `stepx` does not step (R359). -/
def stepNext (i : Nat) (g : DebugWork) : E Answer := do
  let s ← get
  let x := s.ctx g.core g.slot
  if !x.live ∨ !x.halted ∨ x.trap.isSome then pure (.reply dbgOk (stepReply g.done 3 x.pc))
  else
    modify fun s =>
      let s := s.setCtx g.core g.slot { s.ctx g.core g.slot with stepping := true }
      s.setWork i { g with begun := true, left := g.left - 1, before := x.retired, gen := x.gen }
    pure .wait

/-- STEP: `stepx` up to COUNT times, until one has another status than stepped. The session holds the context from then on. -/
def debugStep (i : Nat) (g : DebugWork) : E Answer := do
  let n := field g.data 0 1
  let count := field g.data 4 4
  let s ← get
  if g.data.length < 8 ∨ n = 0 ∨ count = 0 ∨ 64 < count then pure (.reply dbgBad [])
  else if !g.begun then
    match s.haltedSlot g.core n with
    | some a => pure a
    | none =>
      if ((s.core g.core).ctx n).stepping || s.stepped i g.core n then pure .wait
      else
        modify fun s => s.setCore g.core { s.core g.core with debugged := n :: (s.core g.core).debugged }
        stepNext i { g with slot := n, left := count }
  else
    let x := s.ctx g.core g.slot
    match x.stepStatus g.before g.gen.toNat with
    | none => pure .wait
    | some 0 =>
      if x.halted then modify fun s => s.skipFills g.core g.slot 1024
      let g := { g with done := g.done + 1 }
      if g.left = 0 then
        let s ← get
        pure (.reply dbgOk (stepReply g.done 0 (s.ctx g.core g.slot).pc))
      else stepNext i g
    | some st => pure (.reply dbgOk (stepReply g.done st x.pc))

/-- DEBUG_STEP: of the packet at the head of queue `qid`, or, with the flag, of the request with number `index`. -/
def execDebugStep (s : State) : Host.Outcome State Fault Refusal := s.debug (· = 3) debugStep

/-! ### Contexts -/

def debugReadctx (_ : Nat) (g : DebugWork) : E Answer := do
  let s ← get
  if g.data = [] then pure (.reply dbgBad [])
  else
    match s.haltedSlot g.core (field g.data 0 1) with
    | some a => pure a
    | none => pure (.reply dbgOk ((s.core g.core).ctx (field g.data 0 1)).image)

def execDebugReadctx (s : State) : Host.Outcome State Fault Refusal := s.debug (· = 4) debugReadctx

def debugWritectx (_ : Nat) (g : DebugWork) : E Answer := do
  let c := g.core
  let d := g.data
  let n := field d 0 1
  let off := field d 4 4
  let new := d.drop 8
  let s ← get
  if d.length < 8 then pure (.reply dbgBad [])
  else
    match s.haltedSlot c n with
    | some a => pure a
    | none =>
      if off % 8 ≠ 0 ∨ 592 < off + new.length then pure (.reply dbgBad [])
      else
        modify fun s => (s.setCtx c n ((s.ctx c n).ofImage (splice (s.ctx c n).image off new))).recheck c n
        pure (.reply dbgOk [])

def execDebugWritectx (s : State) : Host.Outcome State Fault Refusal := s.debug (· = 5) debugWritectx

/-! ### Memory in the job's space -/

/-- The supervisor address of a place in the job's space: device, host and remote memory by its physical address, local space as it
stands. -/
def superAddr (va key : Nat) : Nat :=
  match keySpace key with
  | 0 => keyAddr key
  | 1 => 2 ^ 64 + keyAddr key
  | 2 => 2 * 2 ^ 64 + keyAddr key
  | _ => va

/-- The pieces of `n` bytes from a virtual address that lie within 32-byte blocks, by their supervisor addresses; a page that does not
translate faults. -/
def jobPieces (c va n : Nat) (k : Access) : E (List (Nat × Nat)) :=
  (List.range ((va % 32 + n + 31) / 32)).mapM fun i => do
    let lo := if i = 0 then va else va / 32 * 32 + 32 * i
    let hi := min (va / 32 * 32 + 32 * (i + 1)) (va + n)
    let s ← get
    match (if lo / 2 ^ 64 = 0xFF then s.locate c 0 lo (hi - lo) k else s.locate c 1 lo (hi - lo) k) with
    | (.at_ key, t) =>
      set t
      pure (superAddr lo key, hi - lo)
    | (.bad e, t) => throw (.fault e lo t)
    | (.migrating, t) => throw (.later t)

/-- Reads memory of the job's space. -/
def jobRead (c va n : Nat) : E (List Byte) := do
  let ps ← jobPieces c va n .read
  let parts ← ps.mapM fun q => kRead c (BitVec.ofNat 72 q.1) q.2
  pure parts.flatten

/-- Writes the pieces of memory, one after the other. -/
def writeParts (c : Nat) : List (Nat × Nat) → List Byte → E Unit
  | [], _ => pure ()
  | q :: qs, bs => do
    kWrite c (BitVec.ofNat 72 q.1) (bs.take q.2)
    writeParts c qs (bs.drop q.2)

/-- Writes memory of the job's space. -/
def jobWrite (c va : Nat) (bs : List Byte) : E Unit := do
  let ps ← jobPieces c va bs.length .write
  writeParts c ps bs

/-- The data of a READMEM: a pointer word and a length from 1 to 4,080. -/
def memRequest (d : List Byte) : Option (Nat × Nat) :=
  if d.length = 20 ∧ (ptrOf? (field d 0 16)).isSome ∧ 1 ≤ field d 16 4 ∧ field d 16 4 ≤ 4080 then some (field d 0 16, field d 16 4) else none

def debugReadmem (_ : Nat) (g : DebugWork) : E Answer :=
  match memRequest g.data with
  | none => pure (.reply dbgBad [])
  | some (va, n) => do
    match (← caught (jobRead g.core va n)) with
    | some bs => pure (.reply dbgOk bs)
    | none => pure (.reply dbgFault [])

def execDebugReadmem (s : State) : Host.Outcome State Fault Refusal := s.debug (· = 6) debugReadmem

def debugWritemem (_ : Nat) (g : DebugWork) : E Answer := do
  let d := g.data
  if d.length < 16 ∨ (ptrOf? (field d 0 16)).isNone then pure (.reply dbgBad [])
  else
    match (← caught (jobWrite g.core (field d 0 16) (d.drop 16))) with
    | some _ => pure (.reply dbgOk [])
    | none => pure (.reply dbgFault [])

def execDebugWritemem (s : State) : Host.Outcome State Fault Refusal := s.debug (· = 7) debugWritemem

/-! ### Watchpoints and status -/

def debugSetwatch (_ : Nat) (g : DebugWork) : E Answer := do
  let c := g.core
  let d := g.data
  let n := field d 0 1
  if d.length ≠ 40 ∨ 3 < n then pure (.reply dbgBad [])
  else
    let w (i : Nat) : Word := BitVec.ofNat 64 (field d (8 + 8 * i) 8)
    modify fun s => (((s.writeReg c 0 (.wctl n) (w 0)).writeReg c 0 (.wbase n) (w 1)).writeReg c 0 (.wmask n) (w 2)).writeReg c 0 (.wval n) (w 3)
    pure (.reply dbgOk [])

def execDebugSetwatch (s : State) : Host.Outcome State Fault Refusal := s.debug (· = 8) debugSetwatch

/-- The state of a slot: slot 0 runs, since it serves the request. -/
def Ctx.status (x : Ctx) (n : Nat) : Nat :=
  if n = 0 then 1
  else if !x.live then 0
  else if x.halted then 2
  else if x.waiting.isSome || x.trap.isSome then 3
  else 1

def debugStatus (_ : Nat) (g : DebugWork) : E Answer := do
  let s ← get
  if g.code = 9 then pure (.reply dbgOk ((List.range 12).map fun n => BitVec.ofNat 8 (((s.core g.core).ctx n).status n)))
  else pure (.reply dbgBad [])

/-- DEBUG_STATUS, and a request whose code is none of the nine. -/
def execDebugStatus (s : State) : Host.Outcome State Fault Refusal := s.debug (fun code => code = 0 || 9 ≤ code) debugStatus

end Sys2Proof.Machine
end

