-- ==== Sys2Proof/Machine/Launch.lean ====
section
/-! DEFINITION. Launching a job, and its soft pre-emption (R73, R74, R77, R91, R96, R97, R112, R235, R236). -/

namespace Sys2Proof.Machine

/-- A launch header's fields that are not copied whole into the job. -/
def hdrHome (h : List Byte) : Nat × Nat := (field h 36 1, field h 37 1)
def hdrFlags (h : List Byte) : Nat := field h 34 2

/-- The checks of R73 on a header alone: its reserved bytes, WLOG, SPLIT and CODEBASE. Reserved bits of FLAGS and of byte 38 are ignored (R7). -/
def headerOk (h : List Byte) : Bool :=
  let w := field h 32 1
  zeroes h 44 20 && zeroes h 39 1 && 6 ≤ w && w ≤ 47 && field h 33 1 ≤ 11 &&
    (ptrOf? (field h 0 16)).any fun p => p.toNat % 4 = 0

/-- The healthy cores of the map, in logical row-major order. -/
def State.mapped (s : State) (f : FieldSt) : List Nat := f.cores.filter s.healthy

/-- The home: the core that HOMESET names, or the first healthy core in logical row-major order (R74). -/
def State.homeFor (s : State) (f : FieldSt) (h : List Byte) : Option Nat :=
  if field h 38 1 % 2 = 1 then (f.coreAtXY (hdrHome h).1 (hdrHome h).2).filter s.healthy else (s.mapped f).head?

/-- The grid cores (R77, R91). -/
def State.gridCores (s : State) (f : FieldSt) (noMatrix paired : Bool) : List Nat :=
  (s.mapped f).filter fun c =>
    (noMatrix || !s.excluded (clusterOf c)) && (!paired || (isWest c && s.healthy (eastOf c)))

/-! ### Reading what a launch names (R74, R235, R236, R379) -/

/-- The scratch image, or none when its descriptor does not pass. -/
def readScratch (c : Nat) (codebase : Ptr) (split : Nat) : E (Option (List Byte)) := do
  let d ← kRead c codebase 32
  let n := field d 16 4
  match ptrOf? (field d 0 16) with
  | none => pure none
  | some p =>
    if !zeroes d 20 12 || 131072 * split < n then pure none
    else if n = 0 then pure (some [])
    else
      let bs ← kRead c p n
      pure (some bs)

/-- The root entries from an address on, `n` of them. -/
def readRoots (c : Nat) : Nat → Ptr → E (List TaskCopy)
  | 0, _ => pure []
  | n + 1, va => do
    let t := taskOf (← kRead c va 64)
    let more ← if t.records = 1 then pure [] else kRead c (va + 64) (64 * (t.records - 1))
    let roles := (List.range (t.records - 1)).map fun i => taskOf (more.drop (64 * i))
    let rest ← readRoots c n (va + BitVec.ofNat 72 (64 * t.records))
    pure (⟨t, roles, 0, 0, none⟩ :: rest)

/-! ### The launch itself (R74) -/

/-- A core as a launch leaves it to its job: no handler, no command and no copy of an earlier job. What halts, the watchpoints and the
other registers hold stays (R375). -/
def Core.emptied (k : Core) (now : Nat) : Core :=
  let bare (e : Nat × Ctx) : Nat × Ctx :=
    if e.1 = 0 then e else (e.1, { Ctx.reset with gen := e.2.gen, skid := e.2.skid, halted := e.2.halted })
  { k with
    ctxs := k.ctxs.map bare, inbox := [], deflected := [], strays := [], starts := [], bursts := [], requests := [], matq := [],
    matPark := none, msgPort := [], acnq := [], bulkq := [], bulkPark := none, copyq := [], copyPark := none, engineLines := [], engPlaces := [], kernelAt := none, governor := [],
    running := none, pending := [], joinStack := [], release := none, freed := false, succs := [], succAt := [], rot := none, pair := none, hold := [], pipes := [],
    pipemap := 0, lapseLeft := [], held := 0, retain := false, kept := 0, lapsing := 0, fetchBuf := [], tlb := [], idleSince := now, stealNext := none, stealing := false }

/-- The supervisor of a core, which is powered for it, writes SPLIT, zeroes the scratchpad and loads the scratch image. -/
def State.launchCore (s : State) (split : Nat) (image : List Byte) (c : Nat) : State :=
  let s := s.setCore c { (s.core c).emptied s.cycle with gated := false }
  (s.writeSplit c (BitVec.ofNat 64 split)).pokeBytes (keyScratch c 0) image

/-- The job of an accepted launch. -/
def jobOfHeader (h image : List Byte) (home nTasks : Nat) (launch : Ticket) (grid : Option Grid) : Job where
  codebase := BitVec.ofNat 72 (field h 0 16)
  ctlEntry := BitVec.ofNat 32 (field h 16 4)
  strayEntry := BitVec.ofNat 32 (field h 20 4)
  qEntry := BitVec.ofNat 32 (field h 24 4)
  errEntry := BitVec.ofNat 32 (field h 28 4)
  wlog := field h 32 1
  split := field h 33 1
  flags := BitVec.ofNat 16 (hdrFlags h)
  nTasks := nTasks
  home := home
  ended := 0
  taintCount := 0
  taintMask := 0
  armed := false
  writtenOff := 0
  incomplete := false
  pre := .running
  launch := some launch
  pauser := none
  joined := []
  deadline := 0
  parked := []
  overflow := []
  joins := []
  joinFree := []
  joinNext := 0
  snap := none
  snaps := []
  header := h
  grid := grid
  scratch := image
  reserved := []

/-- The job's domain opens at its home with `count` units in the counter; its generation advances (R100). -/
def State.openDomain (s : State) (home wlog count : Nat) : BitVec 24 × State :=
  let k := s.core home
  let gen := (k.domain 0).gen + 1
  (domId (s.lidOf home) 0 gen.toNat, s.setCore home (k.setDomain 0 ⟨gen, true, count, 2 ^ wlog, 0, 0, 0, none⟩))

/-- Every core of the field is made ready, and the field takes its job; a snapshot-enabled one has its reserve pages (R112). -/
def State.acceptJob (s : State) (fid : Nat) (f : FieldSt) (j : Job) : State :=
  let s := (f.allCores.filter s.healthy).foldl (fun s c => s.launchCore j.split j.scratch c) s
  let j := if j.snapJob then { j with reserved := s.reservable f.root [] } else j
  s.setField fid { f with job := some j, serial := f.serial + 1 }

/-- A core takes its copy of a grid launch; one that is fenced has it in its queue (R63, R77, R89). -/
def State.takeInitial (s : State) (fid : Nat) (j : Job) (c : Nat) (t : TaskCopy) : State :=
  if t.malformed j then s.refuseGang fid c t else if s.idle c then s.takeCopy fid c t else s.enqueueCopy fid c t

/-- A launch of initial copies: graph copies enter transit from the home, in order; every grid core takes its copy, all of them before any of
them issues, so that their leases are set (R74, R77, R129). -/
def State.launch (s : State) (fid : Nat) (f : FieldSt) (j : Job) (copies : List (Option Nat × TaskCopy)) : State :=
  let s := s.acceptJob fid f j
  let (dom, s) := s.openDomain j.home j.wlog 0
  (copies.zip (shares (2 ^ j.wlog) copies.length)).foldl (fun s (t, w) =>
    let copy := { t.2 with weight := w, dom := dom }
    match t.1 with
    | some c => s.takeInitial fid j c copy
    | none => s.inject fid j.home copy) s

/-- What both launches check and read: the field, the header, the home, the core whose tables translate, and the scratch image. -/
def launchHead (p : Pkt) : E (Option (FieldSt × List Byte × Nat × Nat × List Byte)) := do
  let s ← get
  match Assoc.find s.fields (field p.bytes 16 1) with
  | none => pure none
  | some f =>
    match (s.mapped f).head? with
    | none => pure none
    | some rc =>
      -- the core whose tables translate reads for this packet, and holds nothing of an earlier one
      if rc ≠ p.core && (s.core p.core).kernelAt ≠ some p.qid then modify fun s => s.letGo rc
      let h ← kRead rc (p.ptr 24) 64
      match (if headerOk h then s.homeFor f h else none) with
      | none => pure none
      | some home =>
        if hdrFlags h / 8 % 2 = 1 ∧ !f.full then pure none
        else
          match (← readScratch rc (BitVec.ofNat 72 (field h 0 16)) (field h 33 1)) with
          | none => pure none
          | some image =>
            let s ← get
            if hdrFlags h / 16 % 2 = 1 ∧ !s.reserveFits f.root then pure none
            else pure (some (f, h, home, rc, image))

/-- The field of a packet is running a job. -/
def State.fieldBusy (s : State) (p : Pkt) : Bool := (Assoc.find s.fields (field p.bytes 16 1)).any FieldSt.busy

/-- LAUNCH_GRAPH. -/
def graphBody (p : Pkt) : E Verdict := do
  let s ← get
  if s.fieldBusy p then pure .hold
  else
    match (← launchHead p) with
    | none => pure (.done stBadBody 0)
    | some (f, h, home, rc, image) =>
      let n := field p.bytes 20 4
      if n = 0 ∨ 65535 < n ∨ 2 ^ field h 32 1 < n then pure (.done stBadBody 0)
      else
        let roots ← readRoots rc n (p.ptr 40)
        let j := jobOfHeader h image home (field h 40 4) p.ticket none
        modify fun s => (s.letGo rc).launch (field p.bytes 16 1) f j (roots.map fun t => (none, t))
        pure .started

def execLaunchGraph (s : State) : Host.Outcome State Fault Refusal := s.packet (ofType 1) graphBody

/-- The copies of a grid launch: the template, with its part of the tiles (R77). -/
def gridCopies (t : TaskRec) (g : Grid) (total : Nat) (cores : List Nat) : List (Option Nat × TaskCopy) :=
  let n := cores.length
  ((List.range n).zip cores).map fun (i, c) =>
    (some c, ⟨{ t with flags := t.flags ||| 0xC, iterLo := BitVec.ofNat 32 (i * total / n), iterHi := BitVec.ofNat 32 ((i + 1) * total / n) },
      [], 0, 0, some g⟩)

/-- LAUNCH_GRID. -/
def gridBody (p : Pkt) : E Verdict := do
  let s ← get
  if s.fieldBusy p then pure .hold
  else
    match (← launchHead p) with
    | none => pure (.done stBadBody 0)
    | some (f, h, home, rc, image) =>
      let x := field p.bytes 56 4
      let y := field p.bytes 60 4
      let tx := field p.bytes 64 2
      let ty := field p.bytes 66 2
      let s ← get
      let cores := s.gridCores f (hdrFlags h % 2 = 1) (hdrFlags h / 2 % 2 = 1)
      if x = 0 ∨ y = 0 ∨ tx = 0 ∨ ty = 0 ∨ cores = [] ∨ 2 ^ field h 32 1 < cores.length then pure (.done stBadBody 0)
      else
        let ntx := (x + tx - 1) / tx
        let total := ntx * ((y + ty - 1) / ty)
        if 2 ^ 32 - 1 < total then pure (.done stBadBody 0)
        else
          let t := taskOf (← kRead rc (p.ptr 40) 64)
          let g : Grid := ⟨ntx, tx, ty, x, y⟩
          let j := jobOfHeader h image home (field h 40 4) p.ticket (some g)
          modify fun s => (s.letGo rc).launch (field p.bytes 16 1) f j (gridCopies t g total cores)
          pure .started

def execLaunchGrid (s : State) : Host.Outcome State Fault Refusal := s.packet (ofType 2) gridBody

/-! ### Soft pre-emption (R96, R97, R114) -/

/-- Every pending copy and every overflow entry of the field is parked, and its weight goes home. -/
def State.parkAll (s : State) (fid : Nat) (f : FieldSt) : State :=
  let s := f.allCores.foldl (fun s c =>
    let ts := (s.core c).pending
    if ts.isEmpty then s else ts.foldl (fun s t => s.park fid c t) (s.setCore c { s.core c with pending := [] })) s
  let ts := (f.job.map (·.overflow)).getD []
  ts.foldl (fun s t => s.park fid t.1 t.2) (s.modJob fid fun j => { j with overflow := [] })

/-- Soft pre-emption begins: for a SNAPSHOT with what its packet asks for. -/
def State.pauseJob (s : State) (fid : Nat) (f : FieldSt) (k : Ticket) (micros : Nat) (snap : Option (Bool × Nat)) : State :=
  let s := s.modJob fid fun j => { j with pre := .pausing snap.isSome, pauser := some k, deadline := s.cycle + 2700 * micros, snap := snap }
  s.parkAll fid f

/-- PAUSE. A field without a job has nothing to pause. Every PAUSE starts at once: one that finds a pause under way waits for the same
quiescence, which the earliest of the deadlines ends; after a SNAPSHOT that it finds, the job stays parked (R42, R97). -/
def pauseBody (p : Pkt) : E Verdict := do
  let s ← get
  let us := field p.bytes 20 4
  let fid := field p.bytes 16 1
  match Assoc.find s.fields fid with
  | none => pure (.done stBadBody 0)
  | some f =>
    match f.job with
    | none => pure (.done stBadBody 0)
    | some j =>
      if us = 0 ∨ 10000000 < us then pure (.done stBadBody 0)
      else
        let join : E Verdict := do
          modify fun s => s.modJob fid fun j => { j with joined := j.joined ++ [p.ticket], deadline := min j.deadline (s.cycle + 2700 * us) }
          pure .started
        match j.pre with
        | .running =>
          modify fun s => s.pauseJob fid f p.ticket us none
          pure .started
        | .pausing _ => join
        | .parked => if j.snap.isSome then join else pure (.done stOk 0)
        | .hardSaved => pure (.done stHardSaved 0)

def execPause (s : State) : Host.Outcome State Fault Refusal := s.packet (ofType 6) pauseBody

end Sys2Proof.Machine
end

