-- ==== Sys2Proof/Machine/LoadStore.lean ====
section
/-! DEFINITION. Groups LD, ST, AMO and SYNC (R274 to R284). -/

namespace Sys2Proof.Machine

/-- The bytes of a register operand that a store of `n` bytes writes. -/
def storeBytes (n : Nat) (x : Nat) : List Byte := bytesOfBits n (x % 2 ^ (8 * n))

/-- `ld` (R274): integers by Ext, floats zero-extended. -/
def execLd (ty : Ty) (m : MQ) (d : GReg) (b : PReg) (off : BitVec 21) (s : State) : Host.Outcome State Fault Refusal :=
  perform .any (.ld ty m d b off) (do
    let p ← regP b
    let _ ← consume [uP b]
    let r ← memRead (ea p off) (ty.width / 8) (ty.width / 8) m
    setG d (extendLoad ty (bitsOfBytes r.1)) r.2
    pure .seq) s
where
  /-- Ext for TY 0 to 7, Zext for TY 8 to 10. -/
  extendLoad (ty : Ty) (x : Nat) : Word := if ty.isInt then ext ty x else BitVec.ofNat 64 x

/-- `ldp`: bits 127:72 are ignored. -/
def execLdp (m : MQ) (d b : PReg) (off : BitVec 21) (s : State) : Host.Outcome State Fault Refusal :=
  perform .any (.ldp m d b off) (do
    let p ← regP b
    let _ ← consume [uP b]
    let r ← memRead (ea p off) 16 16 m
    setP d (BitVec.ofNat 72 (bitsOfBytes r.1)) r.2
    pure .seq) s

/-- `ldq8`: eight registers from D, in one Issue (R275). -/
def execLdq8 (m : MQ) (d : BitVec 2) (b : PReg) (off : BitVec 21) (s : State) : Host.Outcome State Fault Refusal :=
  perform .any (.ldq8 m d b off) (do
    let p ← regP b
    let _ ← consume [uP b]
    let r ← memRead (ea p off) 64 64 m
    (List.range 8).forM fun i =>
      setG (BitVec.ofNat 5 (8 * d.toNat + i)) (BitVec.ofNat 64 (bitsOfBytes ((r.1.drop (8 * i)).take 8))) r.2
    pure .seq) s

/-- An earlier waiter of another context waits on one of the words (R133). -/
def State.earlierWaiter (s : State) (words : List Nat) : Bool :=
  words.any fun w => (s.waiters w).any fun e =>
    !(e.1 = s.curCore && e.2.1 = s.curSlot) &&
      ((s.ctx s.curCore s.curSlot).awaits = [] || e.2.2.arrived < (s.ctx s.curCore s.curSlot).arrived)

/-- Reads full words at their owner and clears their bits in one step: now, when they are full and no earlier waiter stands before, or
when a setting has released them to the context; otherwise the context waits in the order of arrival (R133, R156). -/
def takeFull (va : Nat) (ks : List Nat) : M (List (Byte × Bool)) := do
  drainPicked fun e => e.meets ks
  let _s ← get
  let x ← getCtx
  match x.grant with
  | some bs =>
    if bs.any (·.2) then eat cirPoison
    passLoad (bs.map (·.1))
    pure bs
  | none =>
    (ks.map lineOf).eraseDups.forM chargeLine
    let s ← get
    if !(ks.any s.keyFenced) && (!(ks.all s.fullBit) || s.earlierWaiter ks) then
      modCtx fun x => { x with latch := va, awaits := ks, arrived := if x.awaits = [] then s.cycle else x.arrived }
      waitOn .fullBit (BitVec.ofNat 64 va)
    else
      let bs ← loadBytes true false ks
      modify fun s => (ks.foldl (fun s k => s.setFull k false) s).watchOwner ks .read s.curCore (some s.curSlot)
      modCtx fun x => { x with awaits := ks, grant := some bs, committed := true }
      pure bs

/-- `ldw` (R277): waits at the owner, reads the word and clears its bit in one step. -/
def execLdw (m : MQ) (d : GReg) (b : PReg) (off : BitVec 21) (s : State) : Host.Outcome State Fault Refusal :=
  perform .any (.ldw m d b off) (do
    let p ← regP b
    let _ ← consume [uP b]
    let va := (ea p off).toNat
    aligned va 8
    let key ← translate va 8 .read
    scratchOnly va key
    if releases m.ord then releaseHalf m.scope
    let s ← get
    let ks := s.keysOf key 8
    let bs ← takeFull va ks
    if acquires m.ord then acquireHalf m.scope
    watchAccess va ks (bs.map (·.1)) .read false
    setG d (BitVec.ofNat 64 (bitsOfBytes (bs.map (·.1)))) (bs.any (·.2))
    pure .seq) s

/-- `ldt` (R278): 0, or the cause code of the trap that a load would raise. -/
def execLdt (ty : Ty) (d : GReg) (b : PReg) (off : BitVec 21) (s : State) : Host.Outcome State Fault Refusal :=
  perform .any (.ldt ty d b off) (do
    let p ← regP b
    let mark ← consume [uP b]
    let va := (ea p off).toNat
    if va % (ty.width / 8) ≠ 0 then
      setG d (BitVec.ofNat 64 Cause.misaligned.code) mark
      pure .seq
    else
      let reads ← walkFor va
      let s ← get
      match s.locate s.curCore s.curSlot va (ty.width / 8) .read with
      | (.at_ _, t) =>
        set (t.touchAll s.curCore reads)
        setG d 0 mark
        pure .seq
      | (.bad c, t) =>
        set (t.touchAll s.curCore reads)
        setG d (BitVec.ofNat 64 c.code) mark
        pure .seq
      | (.migrating, t) =>
        set (t.touchAll s.curCore reads)
        waitOn .migration (BitVec.ofNat 64 va)) s

/-- `st`. -/
def execSt (ty : Ty) (m : MQ) (b : PReg) (off : BitVec 21) (a : GReg) (s : State) : Host.Outcome State Fault Refusal :=
  perform .any (.st ty m b off a) (do
    let p ← regP b
    let x ← regG a
    let _ ← consume [uP b]
    let mark ← consume [uG a]
    memWrite (ea p off) (storeBytes (ty.width / 8) x.toNat) (ty.width / 8) m mark
    pure .seq) s

/-- `stp`: the pointer zero-extended to 16 bytes. -/
def execStp (m : MQ) (b : PReg) (off : BitVec 21) (a : PReg) (s : State) : Host.Outcome State Fault Refusal :=
  perform .any (.stp m b off a) (do
    let p ← regP b
    let x ← regP a
    let _ ← consume [uP b]
    let mark ← consume [uP a]
    memWrite (ea p off) (storeBytes 16 x.toNat) 16 m mark
    pure .seq) s

/-- `stq8`: eight registers from A, in one Issue (R275). -/
def execStq8 (m : MQ) (b : PReg) (off : BitVec 21) (a : BitVec 2) (s : State) : Host.Outcome State Fault Refusal :=
  perform .any (.stq8 m b off a) (do
    let p ← regP b
    let c ← getCtx
    let _ ← consume [uP b]
    let mark ← consume ((List.range 8).map fun i => 8 * a.toNat + i)
    memWrite (ea p off) ((List.range 8).flatMap fun i => storeBytes 8 (c.readG (8 * a.toNat + i)).toNat) 64 m mark
    pure .seq) s

/-- The parts of a store with their first addresses and their bytes by key. -/
def partUnits (va : Nat) (ks : List Nat) : List (List Byte × Bool) → List (Nat × List (Nat × Byte) × Bool)
  | [] => []
  | (bs, mark) :: rest => (va, ks.zip bs, mark) :: partUnits (va + bs.length) (ks.drop bs.length) rest

/-- A store that sets the full bits of its words, after every earlier local-space store has drained (R156, R277): its bytes in parts of
whole words, each with its mark (R193). -/
def storeFull (va : Nat) (parts : List (List Byte × Bool)) (m : MQ) : M Unit := do
  aligned va 8
  let bs := parts.flatMap (·.1)
  let key ← translate va bs.length .write
  scratchOnly va key
  if releases m.ord then releaseHalf m.scope
  let (c, n) ← me
  drainPicked fun e => e.cells.any fun y => 3 ≤ keySpace y.1
  let s ← get
  let ks := s.keysOf key bs.length
  if (s.ctx c n).stage = 0 then
    let us := partUnits va ks parts
    if s.holding c n then us.forM fun u => storeBuffered u.1 u.2.1 u.2.2 true false
    else
      chargeLine (lineOf (ks.headD 0))
      modify fun s =>
        if ks.any s.keyFenced then s.lose c n
        else
          let s := us.foldl (fun s u => s.writeH u.2.1 u.2.2) s
          (s.watchOwner ks .write c (some n)).setFulls (ks.map fun k => k / 8 * 8).eraseDups
  if acquires m.ord then
    written
    acquireHalf m.scope
  watchAccess va ks bs .write false
  passStore va bs

/-- `stf` (R277). -/
def execStf (m : MQ) (b : PReg) (off : BitVec 21) (a : GReg) (s : State) : Host.Outcome State Fault Refusal :=
  perform .any (.stf m b off a) (do
    let p ← regP b
    let x ← regG a
    let _ ← consume [uP b]
    let mark ← consume [uG a]
    storeFull (ea p off).toNat [(storeBytes 8 x.toNat, mark)] m
    pure .seq) s

/-! ### Atomics (R279 to R282) -/

/-- An atomic whose operation is made from the register operand; D receives the old value. -/
def amo (op : Ty → Nat → HomeOp) (ty : Ty) (o : Ord) (sc : Scope) (d : GReg) (b : PReg) (off : BitVec 21) (a : GReg) (was : Bool := false) : M Next := do
  let p ← regP b
  let x ← regG a
  let _ ← consume [uP b]
  let mark ← consume [uG a]
  let mark := mark || was
  if (← runAhead (ea p off) (ty.width / 8) (op ty x.toNat) o sc mark (some d) ty) then pure .seq
  else
    let r ← atomic (ea p off) (ty.width / 8) (op ty x.toNat) o sc mark
    setG d (ext ty r.1) r.2
    pure .seq

def execAadd (ty : Ty) (o : Ord) (sc : Scope) (d : GReg) (b : PReg) (off : BitVec 21) (a : GReg) (s : State) : Host.Outcome State Fault Refusal :=
  perform .any (.aadd ty o sc d b off a) (amo (fun _ x => .add x) ty o sc d b off a) s
def execAand (ty : Ty) (o : Ord) (sc : Scope) (d : GReg) (b : PReg) (off : BitVec 21) (a : GReg) (s : State) : Host.Outcome State Fault Refusal :=
  perform .any (.aand ty o sc d b off a) (amo (fun _ x => .and_ x) ty o sc d b off a) s
def execAor (ty : Ty) (o : Ord) (sc : Scope) (d : GReg) (b : PReg) (off : BitVec 21) (a : GReg) (s : State) : Host.Outcome State Fault Refusal :=
  perform .any (.aor ty o sc d b off a) (amo (fun _ x => .or_ x) ty o sc d b off a) s
def execAxor (ty : Ty) (o : Ord) (sc : Scope) (d : GReg) (b : PReg) (off : BitVec 21) (a : GReg) (s : State) : Host.Outcome State Fault Refusal :=
  perform .any (.axor ty o sc d b off a) (amo (fun _ x => .xor_ x) ty o sc d b off a) s
def execAmin (ty : Ty) (o : Ord) (sc : Scope) (d : GReg) (b : PReg) (off : BitVec 21) (a : GReg) (s : State) : Host.Outcome State Fault Refusal :=
  perform .any (.amin ty o sc d b off a) (amo (fun t x => .min_ (signed t) x) ty o sc d b off a) s
def execAmax (ty : Ty) (o : Ord) (sc : Scope) (d : GReg) (b : PReg) (off : BitVec 21) (a : GReg) (s : State) : Host.Outcome State Fault Refusal :=
  perform .any (.amax ty o sc d b off a) (amo (fun t x => .max_ (signed t) x) ty o sc d b off a) s
def execAswp (ty : Ty) (o : Ord) (sc : Scope) (d : GReg) (b : PReg) (off : BitVec 21) (a : GReg) (s : State) : Host.Outcome State Fault Refusal :=
  perform .any (.aswp ty o sc d b off a) (amo (fun _ x => .write x) ty o sc d b off a) s

/-- `acas` reads D as its expected value before it writes D (R280). A mark of D is consumed as one of A is, and marks the word (R193). -/
def execAcas (ty : Ty) (o : Ord) (sc : Scope) (d : GReg) (b : PReg) (off : BitVec 21) (a : GReg) (s : State) : Host.Outcome State Fault Refusal :=
  perform .any (.acas ty o sc d b off a) (do
    let e ← regG d
    let mark ← consume [uG d]
    amo (fun _ x => .cas e.toNat x) ty o sc d b off a mark) s

/-- `aacc` (R281): the operand is Reg(A + 1)·2^64 + Reg(A). -/
def execAacc (o : Ord) (sc : Scope) (b : PReg) (off : BitVec 21) (a : BitVec 4) (s : State) : Host.Outcome State Fault Refusal :=
  perform .any (.aacc o sc b off a) (do
    let p ← regP b
    let c ← getCtx
    let _ ← consume [uP b]
    let mark ← consume [2 * a.toNat, 2 * a.toNat + 1]
    let x := (c.readG (2 * a.toNat + 1)).toNat * 2 ^ 64 + (c.readG (2 * a.toNat)).toNat
    if (← runAhead (ea p off) 16 (.acc x) o sc mark none .i64) then pure .seq
    else
      let _ ← atomic (ea p off) 16 (.acc x) o sc mark
      pure .seq) s

/-! ### Synchronisation (R150 to R152, R283, R284) -/

/-- `fence` (R150, R215): both halves over all memory, behind what a paired interval holds; at cl or wider the core's fetch buffer
empties. -/
def execFence (sc : Scope) (s : State) : Host.Outcome State Fault Refusal :=
  perform .any (.fence sc) (do
    if sc ≠ .cx then agreed
    releaseHalf sc
    acquireHalf sc
    if beyondCore sc then modCore fun k => { k with fetchBuf := [] }
    pure .seq) s

/-- The write of a binding: the release half at s, then one write at the object's home (R284). A paired context's waits with what it
releases (R198). -/
def bindObject (va : Ptr) (sc : Scope) (op : HomeOp) (mark : Bool) : M Next := do
  let ks ← objectKeys va .update
  releaseHalf sc
  let s ← get
  if s.holding s.curCore s.curSlot then emit (.home ks op mark (s.portAt s.curCore s.curSlot (ks.headD 0)) none) id
  else
    let _ ← onObject va ks op mark
  pure .seq

def execBind (sc : Scope) (b : PReg) (off : BitVec 21) (a : PReg) (d : GReg) (s : State) : Host.Outcome State Fault Refusal :=
  perform .any (.bind sc b off a d) (do
    let p ← regP b
    let base ← regP a
    let len ← regG d
    let _ ← consume [uP b]
    let mark ← consume [uP a, uG d]
    bindObject (ea p off) sc (.bind base.toNat (min len.toNat 0xFFFF_FFFF)) mark) s

def execUnbind (sc : Scope) (b : PReg) (off : BitVec 21) (s : State) : Host.Outcome State Fault Refusal :=
  perform .any (.unbind sc b off) (do
    let p ← regP b
    let _ ← consume [uP b]
    bindObject (ea p off) sc .unbind false) s

def execAcq (sc : Scope) (b : PReg) (off : BitVec 21) (s : State) : Host.Outcome State Fault Refusal :=
  perform .any (.acq sc b off) (do
    let p ← regP b
    let _ ← consume [uP b]
    acqObject (ea p off) sc
    pure .seq) s

def execRel (sc : Scope) (b : PReg) (off : BitVec 21) (s : State) : Host.Outcome State Fault Refusal :=
  perform .any (.rel sc b off) (do
    let p ← regP b
    let _ ← consume [uP b]
    relObject (ea p off) sc
    pure .seq) s

end Sys2Proof.Machine
end

