-- ==== Sys2Proof/Machine/Dcf.lean ====
section
/-! DEFINITION. The drain compression format: page records and images, written and read (R115 to R118). -/

namespace Sys2Proof.Machine

/-- Cuts off `n` pieces of `len` bytes each. -/
def cutBytes (len : Nat) : Nat → List Byte → List (List Byte)
  | 0, _ => []
  | n + 1, bs => bs.take len :: cutBytes len n (bs.drop len)

/-- Zero bytes up to a multiple of `n`. -/
def padded (n : Nat) (bs : List Byte) : List Byte := bs ++ zeros ((n - bs.length % n) % n)

def zeroLine : List Byte := zeros 64

/-- The sixteen words of a line. -/
def lineWords (line : List Byte) : List Nat := (cutBytes 4 16 line).map bitsOfBytes

/-! ### Lines (R116, R117) -/

/-- `d` is the residue of a number that `w` bits hold in two's complement. -/
def fitsSigned (w d : Nat) : Bool := d < 2 ^ (w - 1) || 2 ^ 32 - 2 ^ (w - 1) ≤ d

/-- The width of a delta line: the smallest that holds all its fields, at most 32. -/
def deltaWidth (ds : List Nat) : Nat := ((List.range 32).find? fun i => ds.all (fitsSigned (i + 1))).elim 32 (· + 1)

/-- The differences of two lines' words. -/
def deltas (prev line : List Byte) : List Nat := (lineWords line).zipWith (fun a b => (a + 2 ^ 32 - b) % 2 ^ 32) (lineWords prev)

/-- A line's mode and data. -/
def packLine (prev line : List Byte) : Nat × List Byte :=
  if line = zeroLine then (0, [])
  else if line = prev then (1, [])
  else
    let ds := deltas prev line
    let w := deltaWidth ds
    if w = 32 then (3, line)
    else (2, BitVec.ofNat 8 (w - 1) :: bytesOfBits (2 * w) (ds.foldr (fun d a => d % 2 ^ w + a * 2 ^ w) 0))

/-- The modes and data of lines. -/
def packLines : List Byte → List (List Byte) → List (Nat × List Byte)
  | _, [] => []
  | prev, line :: t => packLine prev line :: packLines line t

/-- Extends a field of `w` bits to 32. -/
def extendField (w d : Nat) : Nat := if d < 2 ^ (w - 1) then d else d + 2 ^ 32 - 2 ^ w

/-- A line of a mode from the front of a body, with the rest of the body. -/
def unpackLine (mode : Nat) (prev body : List Byte) : Option (List Byte × List Byte) :=
  match mode with
  | 0 => some (zeroLine, body)
  | 1 => some (prev, body)
  | 2 =>
    match body with
    | [] => none
    | b :: t =>
      let w := b.toNat + 1
      if 32 < w ∨ t.length < 2 * w then none
      else
        let x := bitsOfBytes (t.take (2 * w))
        let ds := (List.range 16).map fun j => extendField w (x / 2 ^ (w * j) % 2 ^ w)
        some (((lineWords prev).zipWith (fun p d => bytesOfBits 4 ((p + d) % 2 ^ 32)) ds).flatten, t.drop (2 * w))
  | _ => if body.length < 64 then none else some (body.take 64, body.drop 64)

/-- The lines of a body; none when it does not hold exactly their data. -/
def unpackLines : List Nat → List Byte → List Byte → Option (List Byte)
  | [], _, body => if body = [] then some [] else none
  | m :: ms, prev, body =>
    match unpackLine m prev body with
    | none => none
    | some (line, rest) => (unpackLines ms line rest).map (line ++ ·)

/-! ### Page records (R115) -/

/-- Two mode bits of each line, four lines a byte. -/
def modeTable (modes : List Nat) : List Byte := bytesOfBits 256 (modes.foldr (fun m a => m + a * 4) 0)

/-- The record of a page whose length is a multiple of 64, with its pad. -/
def pageRecord (paddr : Nat) (bs : List Byte) : List Byte :=
  let ls := packLines zeroLine (cutBytes 64 (bs.length / 64) bs)
  let body := (ls.map (·.2)).flatten
  padded 16 ([0x47, 0x44, 0x43, 0x46] ++ bytesOfBits 4 bs.length ++ bytesOfBits 8 paddr ++ bytesOfBits 4 (crc32c bs).toNat ++
    bytesOfBits 4 body.length ++ zeros 8 ++ modeTable (ls.map (·.1)) ++ body)

/-- A page record from the front of some bytes: its address, its original bytes and the length it takes; none when it does not check. -/
def readPage (bs : List Byte) : Option (Nat × List Byte × Nat) :=
  let olen := field bs 4 4
  let blen := field bs 20 4
  if bs.length < 288 + blen ∨ bs.take 4 ≠ [0x47, 0x44, 0x43, 0x46] ∨ olen % 64 ≠ 0 ∨ olen = 0 ∨ 65536 < olen ∨ !zeroes bs 24 8 then none
  else
    let table := field bs 32 256
    if table / 4 ^ (olen / 64) ≠ 0 then none
    else
      let modes := (List.range (olen / 64)).map fun i => table / 4 ^ i % 4
      match unpackLines modes zeroLine ((bs.drop 288).take blen) with
      | none => none
      | some page =>
        if (crc32c page).toNat ≠ field bs 16 4 then none
        else some (field bs 8 8, page, 288 + (blen + 15) / 16 * 16)

/-! ### Images (R118) -/

structure Segment where
  kind : Nat
  param : Nat
  pages : List (Nat × List Byte)
  deriving DecidableEq, Repr

structure Image where
  hard : Bool
  lw : Nat
  lh : Nat
  pw : Nat
  ph : Nat
  segs : List Segment
  deriving DecidableEq, Repr

/-- A segment other than one of DRAM pages: its bytes, cut into pages. -/
def segmentOf (kind param : Nat) (bs : List Byte) : Segment :=
  let bs := padded 64 bs
  ⟨kind, param, (List.range ((bs.length + 65535) / 65536)).map fun i => (i, (bs.drop (65536 * i)).take 65536)⟩

def Segment.bytes (g : Segment) : List Byte :=
  [0x47, 0x44, 0x43, 0x53, BitVec.ofNat 8 g.kind] ++ zeros 3 ++ bytesOfBits 8 g.pages.length ++ bytesOfBits 8 g.param ++ zeros 8 ++
    (g.pages.map fun p => pageRecord p.1 p.2).flatten

def Image.bytes (i : Image) : List Byte :=
  let body := (i.segs.map Segment.bytes).flatten
  let head (crc : Nat) : List Byte :=
    [0x47, 0x44, 0x43, 0x49] ++ bytesOfBits 2 1 ++ bytesOfBits 2 (if i.hard then 1 else 0) ++ bytesOfBits 8 (64 + body.length) ++
      (bytesOfBits 1 i.lw ++ bytesOfBits 1 i.lh ++ bytesOfBits 1 i.pw ++ bytesOfBits 1 i.ph) ++ bytesOfBits 4 i.segs.length ++
      bytesOfBits 4 crc ++ zeros 36
  head (crc32c (head 0)).toNat ++ body

/-- The first 64 bytes of an image check (R118, R120). Its reserved bytes and bits are ignored (R7). -/
def imageHeadOk (h : List Byte) : Bool :=
  h.length = 64 && h.take 4 = [0x47, 0x44, 0x43, 0x49] && field h 4 2 = 1 &&
    (crc32c (h.take 24 ++ zeros 4 ++ h.drop 28)).toNat = field h 24 4

/-- `n` page records from the front of some bytes, and what follows them. -/
def readPages : Nat → List Byte → Option (List (Nat × List Byte) × List Byte)
  | 0, bs => some ([], bs)
  | n + 1, bs =>
    match readPage bs with
    | none => none
    | some (a, page, len) => (readPages n (bs.drop len)).map fun r => ((a, page) :: r.1, r.2)

/-- `n` segments that fill some bytes whole. -/
def readSegments : Nat → List Byte → Option (List Segment)
  | 0, bs => if bs = [] then some [] else none
  | n + 1, bs =>
    let kind := field bs 4 1
    if bs.length < 32 ∨ bs.take 4 ≠ [0x47, 0x44, 0x43, 0x53] ∨ 4 < kind ∨ !zeroes bs 5 3 ∨ !zeroes bs 24 8 then none
    else if kind ≠ 2 ∧ kind ≠ 3 ∧ field bs 16 8 ≠ 0 then none
    else
      match readPages (field bs 8 8) (bs.drop 32) with
      | none => none
      | some (pages, rest) => (readSegments n rest).map fun gs => ⟨kind, field bs 16 8, pages⟩ :: gs

/-- A whole image; none when it does not check (R120, step 1). -/
def readImage (bs : List Byte) : Option Image :=
  if !imageHeadOk (bs.take 64) ∨ field bs 8 8 ≠ bs.length then none
  else
    (readSegments (field bs 20 4) (bs.drop 64)).map fun gs =>
      ⟨field bs 6 2 % 2 = 1, field bs 16 1, field bs 17 1, field bs 18 1, field bs 19 1, gs⟩

end Sys2Proof.Machine
end

