-- ==== Sys2Proof/Machine/Snapshot.lean ====
section
/-! DEFINITION. Snapshots, hard saves, drains and restores (R97, R111 to R114, R118 to R120, R163). -/

namespace Sys2Proof.Machine

/-! ### The reserves (R111, R113) -/

/-- The state reserve in the vault above a core. -/
def reserveAt (c : Nat) : Nat := keyDram (c * 2 ^ 29 + 0x17B0_0000)
/-- The reserve page with a number, counted down from the state reserve, of a vault. -/
def reservePage (v i : Nat) : Nat := keyDram (v * 2 ^ 29 + 0x17B0_0000 - 65536 * (i + 1))

/-- The scratch ways of a slice, in way order. -/
def State.scratchWays (s : State) (cl : Nat) : List Nat := (List.range 16).filter fun i => bit (s.slice cl).mask i

/-- A task record as its 64 bytes; WEIGHT and DEPCOUNT are zero. -/
def TaskRec.bytes (t : TaskRec) : List Byte :=
  bytesOfBits 4 t.entry.toNat ++ bytesOfBits 4 t.flags.toNat ++ bytesOfBits 16 t.param.toNat ++ bytesOfBits 16 t.succ.toNat ++
    bytesOfBits 4 t.iterLo.toNat ++ bytesOfBits 4 t.iterHi.toNat ++ zeros 6 ++ [t.hintX, t.hintY, t.radius, t.gangPos] ++
    bytesOfBits 2 t.gangId.toNat ++ zeros 4

/-- A join entry as its 32 bytes (R88). -/
def JoinEntry.bytes (i : Nat) (e : JoinEntry) : List Byte :=
  bytesOfBits 16 e.succ.toNat ++ bytesOfBits 4 e.openPieces ++ bytesOfBits 4 i ++ bytesOfBits 1 (if e.countIt then 1 else 0) ++ zeros 7

/-- The cluster map in the layout of R58. -/
def FieldSt.mapBytes (f : FieldSt) : List Byte :=
  bytesOfBits 1 f.lw ++ bytesOfBits 1 f.lh ++ zeros 14 ++ f.map.flatMap (bytesOfBits 2)

/-- The parked records of a job: a parked gang takes the records of all its roles. -/
def Job.parkedRecs (j : Job) : List TaskRec := j.parked.flatMap fun c => c.task :: c.roles

/-- The first 128 bytes of the job-state segment (R118): the launch header and the home state. -/
def homeState (j : Job) (mapLen : Nat) : List Byte :=
  j.header ++ bytesOfBits 8 j.ended ++ bytesOfBits 8 j.writtenOff ++ bytesOfBits 8 j.parkedRecs.length ++ bytesOfBits 8 j.joins.length ++
    bytesOfBits 8 mapLen ++ zeros 24

/-- The bytes of the parked list and of the join list. -/
def Job.lists (j : Job) : List Byte := j.parkedRecs.flatMap TaskRec.bytes ++ j.joins.flatMap fun e => e.2.bytes e.1

/-- The job-state segment's bytes (R118); a HARD image's hold the cluster map. -/
def jobState (f : FieldSt) (j : Job) (hard : Bool) : List Byte :=
  let cmap := if hard then f.mapBytes else []
  homeState j cmap.length ++ j.lists ++ cmap

/-- The pages of a job that have reserve pages, each with its reserve page (R111, R112). -/
def Job.reservePages (j : Job) : List (Nat × Nat) :=
  ((j.reserved.map (· / 8192)).eraseDups).flatMap fun v =>
    let mine := j.reserved.filter fun p => p / 8192 = v
    (mine.zip (List.range mine.length)).map fun (p, i) => (keyDram (p * 65536), reservePage v i)

/-- What a second copy copies: from where, to where, and how many bytes (R113, steps 2 and 3). A page whose dirty bit is clear equals its copy. -/
def State.copies (s : State) (f : FieldSt) (j : Job) : List (Nat × Nat × Nat) :=
  (j.reservePages.map fun p => (p.1, p.2, 65536)) ++
    ((f.allCores.filter s.healthy).map fun c => (keyScratch c 0, reserveAt c, (s.core c).scratchSize)) ++
    f.clusters.flatMap fun cl =>
      let ways := s.scratchWays cl
      ((List.range ways.length).zip ways).map fun (i, w) => (keyL2 cl w 0, reserveAt (coreOf cl 0) + 0x18_0000 + 0x2_0000 * i, 0x2_0000)

/-- The reserve pages of the lists' pages: those that follow the reserve pages of the job's pages in the home's vault, while they are free.
DESIGN CHOICE: R113 has the lists' pages copied into the snapshot reserve and does not say where they lie (assumption 126). -/
def State.listPages (s : State) (j : Job) : List Nat :=
  let n := (j.reserved.filter fun p => p / 8192 = j.home).length
  let taken := s.takenPages
  ((List.range ((j.lists.length + 65535) / 65536)).map fun i => reservePage j.home (n + i)).takeWhile fun k => s.pageFree taken (k / 65536)

/-- The device lines that a second copy reads or writes and that the host holds: it gives them up first (R17). -/
def State.hostHolds (s : State) (f : FieldSt) (j : Job) : List Nat :=
  let spans := (s.copies f j).flatMap (fun (a, b, n) => [(a, n), (b, n)]) ++ [(reserveAt j.home + 0x38_0000, 0x8_0000)] ++
    (s.listPages j).map fun k => (k, 65536)
  (s.directory.map (·.1)).filter fun l => spans.any fun (a, n) => a ≤ 64 * l && 64 * l < a + n

/-- The second copy: every page of the job into its reserve page, the lists' pages behind them, and what the supervisors copy into the state
reserves. -/
def State.secondCopy (s : State) (f : FieldSt) (j : Job) (hard : Bool) : State :=
  let lists := s.listPages j
  let s := (s.copies f j).foldl (fun s (a, b, n) => s.copyKeys a b n) s
  let s := j.reserved.foldl (fun (s : State) p => { s with dirtyPages := Assoc.set false s.dirtyPages p false }) s
  let s := ((List.range lists.length).zip lists).foldl (fun s (i, k) =>
    (s.wipe k 65536).pokeBytes k ((j.lists.drop (65536 * i)).take 65536)) s
  let cmap := if hard then f.mapBytes else []
  (s.wipe (reserveAt j.home + 0x38_0000) 0x8_0000).pokeBytes (reserveAt j.home + 0x38_0000) (homeState j cmap.length ++ cmap)

/-- The image of a second copy that has just been taken (R118). `hard` is the number of the hard state. -/
def State.image (s : State) (f : FieldSt) (j : Job) (hard : Option Nat) : Image :=
  let mine := (s.jobPages f.root).filter fun p => j.reserved.contains (p.2 / 65536)
  let pages := mine.map fun p => (p.1 / 65536, s.peeks (keyDram p.2) 65536)
  let cores := (s.mapped f).filterMap fun c => (f.logicalXY c).map fun p =>
    segmentOf 2 (p.2 * (2 * f.lw) + p.1) (s.peeks (keyScratch c 0) (s.core c).scratchSize)
  let ways := ((List.range f.map.length).zip f.map).map fun (i, cl) =>
    segmentOf 3 i ((s.scratchWays cl).flatMap fun w => s.peeks (keyL2 cl w 0) 0x2_0000)
  let state := match hard with
    | some n => [segmentOf 4 0 (bytesOfBits 8 n ++ (List.range 56).map Config.imageByte)]
    | none => []
  ⟨hard.isSome, f.lw, f.lh, f.w, f.h, [segmentOf 0 0 (jobState f j hard.isSome), ⟨1, 0, pages⟩] ++ cores ++ ways ++ state⟩

/-- What is kept of an image that has no bytes for it (R119, R121). -/
def State.keep (s : State) (f : FieldSt) (j : Job) (image : List Byte) : ImageKeep :=
  let leaves := if f.root = 0 then [] else s.leaves 5 f.root 0
  let perms (a : Nat) : Nat := ((leaves.find? fun e => e.1 ≤ a && a < e.1 + 2 ^ levelShift e.2.2).map fun e => e.2.1 / 4 % 8).getD 0
  ⟨image, j.armed, j.parked.map (·.grid), (s.jobPages f.root).map fun p => (p.1 / 65536, perms p.1)⟩

/-! ### SNAPSHOT (R112, R113) -/

/-- SNAPSHOT. Soft pre-emption begins; one that a PAUSE has begun goes on, for both, until the earlier deadline, and leaves the job parked (R42,
R96). Every SNAPSHOT starts at once: one that finds another one's second copy still to come takes its own after it, in the same pause (R42, R113;
assumption 127). -/
def snapshotBody (p : Pkt) : E Verdict := do
  let s ← get
  let fid := field p.bytes 16 1
  let drain := field p.bytes 17 1 % 2 = 1
  let us := field p.bytes 20 4
  match (Assoc.find s.fields fid).bind fun f => (f.job.filter fun j => j.pre ≠ .parked || j.snap.isSome).map fun j => (f, j) with
  | none => pure (.done stBadBody 0)
  | some (f, j) =>
    if !j.snapJob then pure (.done stNotPermitted 0)
    else if !drain ∧ field p.bytes 24 16 ≠ 0 then pure (.done stBadBody 0)
    else
      let asks := some (decide drain, field p.bytes 24 16)
      match j.pre with
      | .hardSaved => pure (.done stBadBody 0)
      | .pausing true | .parked =>
        modify fun s => s.modJob fid fun j => { j with
          snaps := j.snaps ++ [(p.ticket, decide drain, field p.bytes 24 16)], deadline := min j.deadline (s.cycle + 2700 * us) }
        pure .started
      | .pausing false =>
        modify fun s => s.modJob fid fun j => { j with
          pre := .pausing true, joined := j.pauser.toList ++ j.joined, pauser := some p.ticket, snap := asks, deadline := min j.deadline (s.cycle + 2700 * us) }
        pure .started
      | .running =>
        modify fun s => s.pauseJob fid f p.ticket us asks
        pure .started

def execSnapshot (s : State) : Host.Outcome State Fault Refusal := s.packet (ofType 7) snapshotBody

/-- The second copy of a job is taken, and the drain starts or the SNAPSHOT completes. The job resumes from a quiescent or a hard save; but when
a PAUSE has joined, it stays as it was saved, and the PAUSE and the launch complete (R42, R96, R97, R113, R114). Another SNAPSHOT that has started
takes its copy before that. -/
def State.copied (s : State) (fid : Nat) (f : FieldSt) (j : Job) (hard : Option Nat) : State :=
  let img := (s.image f j hard).bytes
  let keep := s.keep f j img
  let s := s.secondCopy f j hard.isSome
  let status := if hard.isSome then stHardSaved else stOk
  let s :=
    match j.snaps with
    | (t, asks) :: rest => s.modJob fid fun j => { j with snap := some asks, pauser := some t, snaps := rest }
    | [] =>
      let s := s.modJob fid fun j => { j with snap := none, pauser := none, joined := [] }
      if j.joined.isEmpty then s.resume fid
      else
        let s := s.modJob fid fun j => { j with launch := none, pre := if hard.isSome then .hardSaved else .parked }
        (s.completeAll j.home j.launch.toList (if hard.isSome then stHardSaved else stPaused)).completeAll j.home j.joined status
  match j.pauser, j.snap with
  | some t, some (true, target) =>
    { s with snaps := Assoc.put s.snaps fid ⟨t, j.home, target, img, status, 0⟩, kept := keep :: s.kept.filter fun k => k.image ≠ img }
  | some t, _ => s.complete j.home t status 0
  | none, _ => s

/-- The second copy is taken once the host has given up the lines that it needs (R17). -/
def State.copyReady (s : State) (fid : Nat) (f : FieldSt) (j : Job) (act : State) : State :=
  if (Assoc.find s.snaps fid).isSome then s
  else
    match s.hostHolds f j with
    | [] => act
    | ls => ls.foldl State.askHost s

/-- SECOND_COPY_TAKEN of field `fid`: its job is quiescent under a SNAPSHOT, and no earlier drain uses the reserve. -/
def execSecondCopyTaken (s : State) : Host.Outcome State Fault Refusal :=
  let fid := s.input.fid
  match (Assoc.find s.fields fid).bind fun f => f.job.map fun j => (f, j) with
  | none => .next s
  | some (f, j) =>
    if j.pre = .parked ∧ j.snap.isSome then .next (s.copyReady fid f j (s.copied fid f j none)) else .next s

/-! ### A hard save (R97, R114, R163) -/

/-- Every store buffer of the field drains, and every line of its cores leaves CV. -/
def State.settleField (s : State) (f : FieldSt) : State :=
  (f.allCores.filter s.healthy).foldl (fun s c =>
    let s := (List.range 12).foldl (fun s n => s.drainAll c n) s
    s.evictAll c ((s.core c).cv.map (·.1))) s

/-- No core of the field holds outputs of an interval: their stores can drain (R163, R198). -/
def State.intervalsOver (s : State) (f : FieldSt) : Bool := f.allCores.all fun c => (s.core c).settled 1

/-- What a hard image keeps of a field's job. -/
def State.hardState (s : State) (f : FieldSt) (j : Job) : HardCopy :=
  let mine (c : Nat) : Bool := f.allCores.contains c
  ⟨s.cores.filter fun e => mine e.1, s.net.filter fun x => mine x.dst, s.full.filter fun e => mine (keyCore (8 * e.1)),
    s.remote.filter fun r => mine r.core, j⟩

/-- PAUSE_DEADLINE of field `fid`. The field is fenced: nothing in it issues any more, and the intervals of its paired cores end. Then its state is saved in
place. Under a SNAPSHOT the save waits until an earlier drain from the same reserve has finished: DESIGN CHOICE, R113 states that for step 2 and no
rule for R114 (assumption 128). -/
def execPauseDeadline (s : State) : Host.Outcome State Fault Refusal :=
  let fid := s.input.fid
  match (Assoc.find s.fields fid).bind fun f => f.job.map fun j => (f, j) with
  | none => .next s
  | some (f, j) =>
    if s.cycle < j.deadline ∨ !s.intervalsOver f then .next s
    else
      match j.pre with
      | .pausing false =>
        let s := ((s.settleField f).clearPins f).modJob fid fun j => { j with pre := .hardSaved, launch := none, pauser := none, joined := [] }
        .next (s.completeAll j.home (j.launch.toList ++ j.pauser.toList ++ j.joined) stHardSaved)
      | .pausing true =>
        let s := (s.settleField f).clearPins f
        let t := { s with hardCopies := Assoc.put s.hardCopies s.steps (s.hardState f j) }
        .next (s.copyReady fid f j (t.copied fid f j (some s.steps)))
      | .running | .parked | .hardSaved => .next s

/-! ### The drain (R113, R379) -/

/-- Writes the image of a field's drain from its next line on; each line is charged against the drain limit. -/
def writeImage (c fid : Nat) : Nat → E Unit
  | 0 => pure ()
  | k + 1 => do
    let s ← get
    match Assoc.find s.snaps fid with
    | none => pure ()
    | some n =>
      let u := s.core c
      if u.drainLim ≠ 0xFFFF_FFFF && u.drainLim ≤ u.drainUse then later
      let line := (n.image.drop (64 * n.done)).take 64
      kWrite c (BitVec.ofNat 72 (n.target + 64 * n.done)) line
      modify fun s =>
        let u := s.core c
        let s := s.setCore c { u with drainUse := BitVec.ofNat 32 (min (u.drainUse.toNat + line.length) 0xFFFF_FFFF) }
        { s with snaps := Assoc.put s.snaps fid { n with done := n.done + 1 } }
      writeImage c fid k

/-- A drain has ended, and its SNAPSHOT completes. -/
def State.drainOver (s : State) (fid : Nat) (n : Snap) (status : Nat) : State :=
  ({ s with snaps := Assoc.del s.snaps fid } : State).complete n.home n.ticket status 0

/-- DRAIN_COMPLETE of field `fid`: the drain engine of the home goes on, to the end of the image. A destination that cannot be written ends the
drain there. -/
def execDrainComplete (s : State) : Host.Outcome State Fault Refusal :=
  let fid := s.input.fid
  match Assoc.find s.snaps fid with
  | none => .next s
  | some n =>
    .next (kernelWork n.home (1024 + fid) (do
      match (← caught (writeImage n.home fid ((n.image.length + 63) / 64 - n.done))) with
      | none => modify fun s => s.drainOver fid n stBadBody
      | some _ => modify fun s => s.drainOver fid n n.status) s)

/-! ### RESTORE (R119, R120) -/

/-- Tables and pages being laid out for a restored job: the state so far, the pages that are taken, those that need room for a reserve page, what
makes this choice of pages its own, and the lines written. -/
structure Mapping where
  s : State
  taken : List Nat
  room : List Nat
  choice : Nat
  lines : List (Nat × Nat)

/-- A free page in a vault of the field; for a snapshot-enabled job one whose reserve page has room (R111, R112). -/
def Mapping.take (m : Mapping) (f : FieldSt) (snap : Bool) : Option (Nat × Mapping) :=
  (m.s.freePage (fun p => !snap || reserveRoom (m.room ++ [p])) f.allCores m.taken ((m.choice * 2 ^ 32 + m.taken.length) * 2 + 1)).map fun p =>
    (p, { m with s := m.s.wipe (keyDram (p * 65536)) 65536, taken := p :: m.taken, room := m.room ++ [p], lines := (p * 1024, 1024) :: m.lines })

/-- A table entry is written. -/
def Mapping.entry (m : Mapping) (k pte : Nat) : Mapping := { m with s := m.s.pokeNat k 16 pte, lines := (lineOf k, 1) :: m.lines }

/-- Maps a virtual address on a device page, from the table of level `l`, counted down from 5 at the root; missing tables take free pages. -/
def Mapping.map (m : Mapping) (f : FieldSt) (snap : Bool) (perms va page : Nat) : Nat → Nat → Option Mapping
  | 0, _ => some m
  | l + 1, table =>
    let k := keyDram (table + 16 * levelIndex l va)
    let pte := m.s.peekNat k 16
    if l = 0 then some (m.entry k (m.s.tableEntry (some perms) (65536 * page)))
    else if m.s.entryOk l pte && !pteLeaf pte then m.map f snap perms va page l (pteAddr pte)
    else
      match m.take f snap with
      | none => none
      | some (t, m) => (m.entry k (m.s.tableEntry none (65536 * t))).map f snap perms va page l (65536 * t)

/-- Every DRAM page of an image is mapped at its virtual address; none when the vaults have no room. -/
def State.mapPages (s : State) (f : FieldSt) (snap : Bool) (perms : Nat → Nat) (choice : Nat) (pages : List (Nat × List Byte)) : Option Mapping :=
  pages.foldl (fun (acc : Option Mapping) p => acc.bind fun m => (m.take f snap).bind fun (a, m) =>
    { m with s := m.s.pokeBytes (keyDram (a * 65536)) p.2 }.map f snap (perms p.1) (p.1 * 65536) a 5 f.root)
    (some ⟨s, s.takenPages, if snap then s.reservable f.root [] else [], choice, []⟩)

/-- The host gives up the lines that a restore writes, before it writes them (R17). -/
def Mapping.give (m : Mapping) : E Unit := do
  let s ← get
  let held := ((s.directory.map (·.1)) ++ s.biPending.map (·.1)).filter fun l => m.lines.any fun a => a.1 ≤ l && l < a.1 + a.2
  if held ≠ [] then
    held.forM fun l => modify fun s => s.askHost l
    later

/-- The bytes of a segment's pages, in order. -/
def Segment.flat (g : Segment) : List Byte := g.pages.flatMap (·.2)

/-- The parked copies of an image, with their GRID identities: a gang's role-0 record is followed by its other roles. -/
def parkedOf : Nat → List Byte → List (Option Grid) → List TaskCopy
  | 0, _, _ => []
  | n + 1, bs, grids =>
    if bs.length < 64 then []
    else
      let t := taskOf (bs.take 64)
      let roles := (List.range (t.records - 1)).map fun i => taskOf ((bs.drop (64 * (i + 1))).take 64)
      ⟨t, roles, 0, 0, if t.gridded then grids.head?.join else none⟩ :: parkedOf n (bs.drop (64 * t.records)) grids.tail

/-- A job-state segment, read back. -/
structure JobImage where
  header : List Byte
  ended : Nat
  writtenOff : Nat
  parked : List TaskCopy
  joins : Assoc JoinEntry
  cmap : List Byte
  deriving DecidableEq, Repr

/-- What was kept of an image; for one that was drained elsewhere, free values (assumption 94). -/
def State.keepOf (s : State) (pick : Nat) (image : List Byte) (records : Nat) : ImageKeep :=
  let free (i : Nat) : Nat := Config.restored pick i
  (s.kept.find? fun k => k.image = image).getD
    ⟨image, free 7 % 2 = 1, (List.range records).map fun i => some ⟨free (8 * i + 1), free (8 * i + 2), free (8 * i + 3), free (8 * i + 5), free (8 * i + 6)⟩, []⟩

/-- The permissions of a virtual page's leaf. -/
def ImageKeep.permsOf (k : ImageKeep) (now va : Nat) : Nat := ((k.perms.find? fun e => e.1 = va).map (·.2)).getD (Config.restored now (8 * va + 4))

/-- The layout of R118; none when the lists do not fit in the segment. -/
def jobImage (bs : List Byte) (keep : Nat → ImageKeep) : Option JobImage :=
  let n := field bs 80 8
  let m := field bs 88 8
  let len := field bs 96 8
  if bs.length < 128 + 64 * n + 32 * m + len then none
  else
    let js := bs.drop (128 + 64 * n)
    some ⟨bs.take 64, field bs 64 8, field bs 72 8, parkedOf n ((bs.drop 128).take (64 * n)) (keep n).grids,
      (List.range m).foldl (fun a i => Assoc.put a (field js (32 * i + 20) 4)
        ⟨BitVec.ofNat 128 (field js (32 * i) 16), field js (32 * i + 16) 4, field js (32 * i + 24) 1 % 2 = 1⟩) [],
      (js.drop (32 * m)).take len⟩

/-- Bytes of the job's space that an image holds, when its pages hold all of them. -/
def imageRead (pages : List (Nat × List Byte)) (va n : Nat) : Option (List Byte) :=
  ((List.range n).mapM fun i => (pages.find? fun p => p.1 = (va + i) / 65536).map fun p => p.2.getD ((va + i) % 65536) 0)

/-- Bytes that a restored job's code names: from its own pages in the image, or else from supervisor space. -/
def restoredRead (c : Nat) (pages : List (Nat × List Byte)) (va : Ptr) (n : Nat) : E (List Byte) :=
  match imageRead pages va.toNat n with
  | some bs => pure bs
  | none => kRead c va n

/-- The scratch image of a restored job (R235). -/
def restoredScratch (c : Nat) (pages : List (Nat × List Byte)) (codebase : Ptr) (split : Nat) : E (Option (List Byte)) := do
  let d ← restoredRead c pages codebase 32
  let n := field d 16 4
  match ptrOf? (field d 0 16) with
  | none => pure none
  | some p =>
    if !zeroes d 20 12 || 131072 * split < n then pure none
    else if n = 0 then pure (some [])
    else
      let bs ← restoredRead c pages p n
      pure (some bs)

/-- The cluster map of a HARD image is the field's, entry for entry; reserved bytes and bits are ignored (R7, R58, R120). -/
def FieldSt.sameMap (f : FieldSt) (bs : List Byte) : Bool :=
  bs.length = f.mapBytes.length && field bs 0 1 = f.lw && field bs 1 1 = f.lh &&
    ((List.range f.map.length).zip f.map).all fun (i, cl) => field bs (16 + 2 * i) 1 = cl

/-- The scratchpads and L2 scratch ways of an image go back to their logical positions. -/
def State.restoreScratch (s : State) (f : FieldSt) (segs : List Segment) : State :=
  segs.foldl (fun s g =>
    if g.kind = 2 then
      match f.coreAtXY (g.param % (2 * f.lw)) (g.param / (2 * f.lw)) with
      | some c => (s.wipe (keyScratch c 0) (s.core c).scratchSize).pokeBytes (keyScratch c 0) (g.flat.take (s.core c).scratchSize)
      | none => s
    else if g.kind = 3 then
      match f.map[g.param]? with
      | some cl =>
        let ways := s.scratchWays cl
        ((List.range ways.length).zip ways).foldl (fun s (i, w) => s.pokeBytes (keyL2 cl w 0) ((g.flat.drop (0x2_0000 * i)).take 0x2_0000)) s
      | none => s
    else s) s

/-- A core of a hard image on pages that lie elsewhere: what it had translated is translated again, what its engines had
requested is requested again, and a `.pub` copy begins again. -/
def Core.moved (k : Core) : Core :=
  let again (b : BulkCmd) : BulkCmd := if b.fresh.isSome then { b with fresh := none, done := [], asked := [], acks := [] } else { b with asked := [] }
  { k with
    tlb := [], fetchBuf := [], engPlaces := [], bulkq := k.bulkq.map again, copyq := k.copyq.map again
    engineLines := k.engineLines.filter fun x => x.1 % 16 = 4
    ctxs := k.ctxs.map fun (e : Nat × Ctx) => (e.1, ({ e.2 with places := [] } : Ctx)) }

/-- A core takes back what a hard image holds of its job (R97). What belongs to the core itself stays: its own boot state, its micro-kernel's context
and registers, its limits, whether it is halted, and its watchpoints, which a restore does not change (R375). -/
def Core.takesBack (k saved : Core) : Core :=
  { saved.moved with
    bootWord := k.bootWord, bootMaps := k.bootMaps, bootImgs := k.bootImgs, lid := k.lid, bootMode := k.bootMode, bootDone := k.bootDone
    bootHeld := k.bootHeld, bootGo := k.bootGo, gated := k.gated, waking := k.waking, wakes := k.wakes, inReset := k.inReset
    trapSlot := k.trapSlot, delivered := k.delivered, wdctl := k.wdctl, wdSince := k.wdSince, kvec := k.kvec, watches := k.watches
    dramLim := k.dramLim, injLim := k.injLim, podLim := k.podLim, drainLim := k.drainLim, nextLim := k.nextLim, dramUse := k.dramUse
    injUse := k.injUse, podUse := k.podUse, drainUse := k.drainUse, kernelAt := k.kernelAt, stopped := k.stopped, debugged := k.debugged
    ctxs := (List.range 12).foldl (fun m n =>
      let x := k.ctx n
      Assoc.set (Ctx.dflt n) m n
        (if n = 0 then x else { saved.moved.ctx n with halted := x.halted, skid := x.skid, skidLeft := x.skidLeft, stepping := x.stepping })) [] }

/-- The hard state of an image goes back to the cores of the field. -/
def State.restoreHard (s : State) (fid : Nat) (f : FieldSt) (h : HardCopy) (launch : Ticket) : State :=
  let mine (c : Nat) : Bool := f.allCores.contains c
  let s := f.allCores.foldl (fun s c => s.setCore c ((s.core c).takesBack (Assoc.get Core.reset h.cores c))) s
  let s : State := { s with
    net := (s.net.filter fun x => !mine x.dst) ++ h.flights
    remote := (s.remote.filter fun r => !mine r.core) ++ h.remote
    full := h.full.foldl (fun m e => Assoc.set false m e.1 e.2) (s.full.filter fun e => !mine (keyCore (8 * e.1))) }
  s.modJob fid fun j => { h.job with
    launch := some launch, pauser := none, joined := [], snap := none, snaps := [], pre := .running, parked := j.parked, scratch := j.scratch, reserved := j.reserved }

/-- A job that an image describes is made ready on a field (R120, steps 3 and 4). -/
def State.restoreJob (s : State) (fid : Nat) (f : FieldSt) (img : Image) (j : Job) (hard : Option HardCopy) (launch : Ticket) : State :=
  let s := s.acceptJob fid f j
  let s := f.clusters.foldl State.zeroScratchWays s
  let (_, s) := s.openDomain j.home j.wlog (2 ^ j.wlog)
  let s := if img.lw = f.lw ∧ img.lh = f.lh then s.restoreScratch f img.segs else s
  match hard with
  | some h => s.restoreHard fid f h launch
  | none => s

/-- What a RESTORE's free choices go by: its place in its queue, and the queue (assumption 94). -/
def pickOf (p : Pkt) : Nat := p.desc.read * 1024 + p.qid

/-- RESTORE of a drained image. One whose pages find no room in the field's vaults is refused as a launch is (R112; assumption 94). -/
def restoreImage (p : Pkt) (fid : Nat) (f : FieldSt) : E Verdict := do
  let s ← get
  match (s.mapped f).head? with
  | none => pure (.done stBadBody 0)
  | some rc =>
    if rc ≠ p.core && (s.core p.core).kernelAt ≠ some p.qid then modify fun s => s.letGo rc
    let head ← kRead rc (p.ptr 24) 64
    if !imageHeadOk head then pure (.done stImage 0)
    else
      let bs ← kRead rc (p.ptr 24) (field head 8 8)
      match readImage bs with
      | none => pure (.done stImage 0)
      | some img =>
        let s ← get
        match (img.segs.find? fun g => g.kind = 0).bind fun g => jobImage g.flat (s.keepOf (pickOf p) bs) with
        | none => pure (.done stImage 0)
        | some ji =>
          let keep := s.keepOf (pickOf p) bs 0
          let pages := (img.segs.filter fun g => g.kind = 1).flatMap (·.pages)
          let hard := ((img.segs.find? fun g => g.kind = 4).bind fun g => Assoc.find s.hardCopies (field g.flat 0 8)).filter fun _ => img.hard
          if img.hard && (img.pw ≠ f.w || img.ph ≠ f.h || !f.sameMap ji.cmap) then pure (.done stBadBody 0)
          else if img.hard && hard.isNone then pure (.done stImage 0)
          else if f.root = 0 ∧ pages ≠ [] then pure (.done stBadBody 0)
          else
            match (if headerOk ji.header then s.homeFor f ji.header else none) with
            | none => pure (.done stBadBody 0)
            | some home =>
              if hdrFlags ji.header / 8 % 2 = 1 ∧ !f.full then pure (.done stBadBody 0)
              else
                match (← restoredScratch rc pages (BitVec.ofNat 72 (field ji.header 0 16)) (field ji.header 33 1)) with
                | none => pure (.done stBadBody 0)
                | some image =>
                  let grid := (ji.parked.find? fun c => c.grid.isSome).bind (·.grid)
                  let next := (ji.joins.map fun e => e.1 + 1).foldl max 0
                  let j := { jobOfHeader ji.header image home (field ji.header 40 4) p.ticket grid with
                    ended := ji.ended, writtenOff := ji.writtenOff, parked := ji.parked, joins := ji.joins, joinNext := next
                    joinFree := (List.range next).filter fun i => (Assoc.find ji.joins i).isNone
                    armed := keep.armed }
                  let s ← get
                  match s.mapPages f j.snapJob (keep.permsOf (pickOf p)) (pickOf p) pages with
                  | none => pure (.done stBadBody 0)
                  | some m =>
                    m.give
                    set ((m.s.letGo rc).restoreJob fid f img j hard p.ticket)
                    pure (.resumes fid)

/-- RESTORE: of the job that the field has parked or hard-saved in place, when the pointer is zero, or of an image. The field's map is the one that
the job was saved under, since no FIELD packet starts meanwhile (R97, R98, R119). -/
def restoreBody (p : Pkt) : E Verdict := do
  let s ← get
  let fid := field p.bytes 16 1
  match Assoc.find s.fields fid with
  | none => pure (.done stBadBody 0)
  | some f =>
    if field p.bytes 24 16 = 0 then
      match f.job with
      | none => pure (.done stBadBody 0)
      | some j =>
        if j.pre = .hardSaved ∨ (j.pre = .parked ∧ j.snap.isNone) then
          modify fun s => s.modJob fid fun j => { j with launch := some p.ticket, pre := .running }
          pure (.resumes fid)
        else pure .hold
    else if f.busy then pure .hold
    else restoreImage p fid f

def execRestore (s : State) : Host.Outcome State Fault Refusal := s.packet (ofType 8) restoreBody

end Sys2Proof.Machine
end

