-- ==== Sys2Proof/Machine/Plate.lean ====
section
/-! DEFINITION. Plate capture (R209, R375): the words that are shifted out. R209 gives the order of the parts, and R381 the layout of a context;
the layout of the other parts is DESIGN CHOICE (assumption 23): numbers of 64 bits, wider values from their low words up, lists after their
length, and what a map does not list left out. -/

namespace Sys2Proof.Machine

/-- A number as a word. -/
def plateNat (n : Nat) : Word := BitVec.ofNat 64 n
def plateBool (b : Bool) : Word := if b then 1 else 0
/-- A value of some width in `n` words. -/
def plateBits {w : Nat} (n : Nat) (x : BitVec w) : List Word := (List.range n).map fun i => (x >>> (64 * i)).setWidth 64
/-- Bytes in words, the last one filled up with zeros. -/
def plateBytes (bs : List Byte) : List Word := (List.range ((bs.length + 7) / 8)).map fun i => plateNat (field bs (8 * i) 8)
/-- A list of parts after its length. -/
def plateList {α : Type} (f : α → List Word) (l : List α) : List Word := plateNat l.length :: l.flatMap f
/-- A part that may be absent. -/
def plateOpt {α : Type} (f : α → List Word) (x : Option α) : List Word := plateList f x.toList

/-! ### A core -/

/-- The registers that have been written, each with its binding tag: the slot, and the unified number. A context's marks lie beside them. -/
def Core.platePool (k : Core) : List Word :=
  (List.range 12).flatMap fun n =>
    let x := k.ctx n
    plateList (fun e => [plateNat (64 * n + e.1), e.2]) x.g ++ plateList (fun e => plateNat (64 * n + 32 + e.1) :: plateBits 2 e.2) x.p ++
      plateList (fun u => [plateNat u]) x.marks

/-- Vector registers with tags, sidecars and marks; masks with marks; accumulator words with states and row marks. -/
def Core.plateVectors (k : Core) : List Word :=
  ((List.range 16).flatMap fun i =>
    let v := Assoc.get VRegState.reset k.v i
    plateBits 32 v.data ++ [v.tag.setWidth 64] ++ plateBits 8 v.side ++ [v.marks.setWidth 64]) ++
  ((List.range 8).flatMap fun i => plateBits 8 (Assoc.get 0 k.k i) ++ [plateBool ((k.ctx 1).marked (64 + i))]) ++
  ((List.range 4).flatMap fun i =>
    let t := Assoc.get Tile.reset k.tiles i
    ((List.range 1024).flatMap fun j => let a := Assoc.get AccWord.zero t.words j; plateBits 2 a.v ++ [a.st.setWidth 64]) ++
      [t.marks.setWidth 64] ++ plateOpt (fun o => o.1.setWidth 64 :: plateBits 2 o.2) t.opened)

/-- The local array: the scratchpad with its full bits and its marks, a byte for each word, and the lines of L1 with what is present, dirty and marked. -/
def State.plateLocal (s : State) (c : Nat) : List Word :=
  let k := s.core c
  let words := (List.range (k.scratchSize / 8)).map fun i => keyScratch c (8 * i)
  plateBytes (s.peeks (keyScratch c 0) k.scratchSize) ++ plateBytes (words.map fun a => if s.fullBit a then 1 else 0) ++
    plateBytes (words.map fun a => if s.poisoned a then 1 else 0) ++
    plateList (fun l => plateNat l.1 :: plateList (fun e =>
      [plateNat e.1, e.2.val.setWidth 64, plateBool e.2.dirty, plateBool e.2.poison]) l.2) k.cv

/-- An operand of `mma`: its format, its kind of scale and its stride. -/
def plateOperand (x : MmaOperand) : List Word := [x.ty.code.setWidth 64, x.kind.code.setWidth 64, x.base.setWidth 64, x.stride.setWidth 64]

def MatOp.plate : MatOp → List Word
  | .mma d x y a b c bk => [0, d.setWidth 64] ++ plateOperand x ++ plateOperand y ++ plateBits 2 a ++ plateBits 2 b ++ plateOpt (plateBits 2) c ++ [plateBool bk]
  | .mzero d => [1, d.setWidth 64]
  | .mld d va stride => [2, d.setWidth 64] ++ plateBits 2 va ++ [plateNat stride]
  | .mst ty sat rm seed va a stride =>
    [3, ty.code.setWidth 64, plateBool sat, rm.code.setWidth 64, seed.setWidth 64] ++ plateBits 2 va ++ [a.setWidth 64, plateNat stride]

def BulkOp.plate : BulkOp → List Word
  | .bread req base stride rows cols row64 =>
    [0, plateNat req] ++ plateBits 2 base ++ [BitVec.ofInt 64 stride, plateNat rows, plateNat cols, plateNat row64]
  | .copy pub dst src dstride sstride rows cols obj =>
    [1, plateBool pub] ++ plateBits 2 dst ++ plateBits 2 src ++ [BitVec.ofInt 64 dstride, BitVec.ofInt 64 sstride, plateNat rows, plateNat cols] ++
      plateBits 2 obj
  | .copym dst src pitch lx ly esz toMorton obj =>
    [2] ++ plateBits 2 dst ++ plateBits 2 src ++ [plateNat pitch, plateNat lx, plateNat ly, plateNat esz, plateBool toMorton] ++ plateBits 2 obj

def Parked.plate (x : Parked) : List Word := [plateNat x.cause.code, x.addr, plateBool x.told]

/-- A message, as the inbox, the queues and the routers hold it. -/
def Message.plate (m : Message) : List Word :=
  [m.kind.setWidth 64, m.dest.setWidth 64, m.entry.setWidth 64, m.cookie.setWidth 64, m.code.setWidth 64] ++ plateList (fun x => [x]) m.payload ++
    plateList (fun b => [plateBool b]) m.marks ++ [plateNat m.weight, m.dom.setWidth 64, m.sender.setWidth 64, m.sslot.setWidth 64,
      m.sgen.setWidth 64, m.tslot.setWidth 64, m.tgen.setWidth 64] ++ plateOpt (fun o => plateBits 2 o.1 ++ [o.2.code.setWidth 64]) m.obj ++
    [m.reason.setWidth 64] ++ plateOpt (fun t => plateList (fun x => [x.setWidth 64]) t) m.text

/-- A copy in transit or shipped. -/
def TaskCopy.plate (t : TaskCopy) : List Word :=
  plateList (fun r => plateBytes r.bytes) (t.task :: t.roles) ++ [plateNat t.weight, t.dom.setWidth 64] ++
    plateOpt (fun g => [g.ntx, g.tx, g.ty, g.x, g.y].map plateNat) t.grid

def Packet.plate : Packet → List Word
  | .message m => 0 :: m.plate
  | .reply m => 1 :: m.plate
  | .stray m => 2 :: m.plate
  | .weight dom w => [3, dom.setWidth 64, plateNat w]
  | .writeOff dom w cell reporter at_ => [4, dom.setWidth 64, plateNat w, plateNat cell, plateNat reporter, plateNat at_]
  | .arm fid => [5, plateNat fid]
  | .taint fid b => [6, plateNat fid, b.setWidth 64]
  | .transit t path => 7 :: (t.plate ++ plateList (fun c => [plateNat c]) path)
  | .stealAsk thief offset => [8, plateNat thief, plateNat offset]
  | .stealShip t => 9 :: t.plate
  | .noWork offset => [10, plateNat offset]
  | .lapse owner => [11, plateNat owner]
  | .lapseAck peer => [12, plateNat peer]
  | .row src obj slot tile r anchor words mark =>
    [13, plateNat src] ++ plateBits 2 obj ++ [plateNat slot, tile.setWidth 64, plateNat r, anchor.setWidth 64] ++
      plateList (fun a => plateBits 2 a.v ++ [a.st.setWidth 64]) words ++ [plateBool mark]
  | .rowAck slot obj => [14, plateNat slot] ++ plateBits 2 obj
  | .rowNak slot obj cls => [15, plateNat slot] ++ plateBits 2 obj ++ [plateNat cls]
  | .pipeEntry pipe seq data poison => [16, plateNat pipe, plateNat seq, data, plateBool poison]
  | .pipeCredit pipe init => [17, plateNat pipe] ++ plateOpt (fun n => [plateNat n]) init
  | .haltSignal d => [18, if d then 1 else 0]
  | .bootDisc src alongX w => [19, plateNat src, plateBool alongX, w]
  | .bootCast src kind seq data => [20, plateNat src, plateNat kind, plateNat seq] ++ plateBytes data
  | .bootReport src corner w => [21, plateNat src, plateNat corner, w]

/-- A packet in a buffer: where it goes, its class, and what it carries. -/
def Flight.plate (f : Flight) : List Word :=
  [plateNat f.dst, match f.cls with | .xy => 0 | .s0 => 1 | .s1 => 2] ++ f.body.plate

/-- The queue of the bulk or the copy engine, with what is parked. -/
def plateBulk (q : List BulkCmd) (park : Option Parked) : List Word :=
  plateList (fun b => b.op.plate ++ [plateNat b.slot] ++ plateBits 2 b.pc ++ [b.gen.setWidth 64] ++ plateList (fun i => [plateNat i]) b.done ++
      plateList (fun a => [plateNat a.1, plateNat a.2.1] ++ plateList (fun k => [plateNat k]) a.2.2) b.asked ++ [plateBool b.aborted] ++
      plateList (fun a => [plateNat a.1, plateNat a.2]) b.acks ++
      plateOpt (plateList fun x => [plateNat x.1, plateNat x.2.1, plateNat x.2.2]) b.fresh) q ++
    plateOpt Parked.plate park

/-- The queues of the matrix engine, the bulk and copy engines, the accumulate network and the message port, with what is parked. -/
def Core.plateQueues (k : Core) : List Word :=
  plateList (fun m => m.op.plate ++ [m.anchor.setWidth 64] ++ plateBits 2 m.pc ++ [m.gen.setWidth 64] ++
      plateOpt (plateList fun x => plateList (fun n => [plateNat n]) x.1 ++ plateList (fun n => [plateNat n]) x.2.1 ++ [plateBool x.2.2]) m.cols) k.matq ++ plateOpt Parked.plate k.matPark ++
    plateBulk k.bulkq k.bulkPark ++ plateBulk k.copyq k.copyPark ++
    plateList (fun a => [plateNat a.slot, a.gen.setWidth 64, a.tile.setWidth 64] ++ plateBits 2 a.obj ++
      [a.target, plateNat a.r0, plateNat a.r1, a.anchor.setWidth 64, plateNat a.after]) k.acnq ++
    plateList (fun f => plateNat f.1 :: f.2.plate) k.msgPort

/-- One core, healthy or retired (R209, step 1). -/
def State.plateCore (s : State) (c : Nat) : List Word :=
  let k := s.core c
  ((List.range 12).flatMap fun n => plateBytes (k.ctx n).image) ++ k.platePool ++ k.plateVectors ++ s.plateLocal c ++ k.plateQueues ++
    plateList Message.plate k.inbox ++ plateList Flight.plate (s.net.filter fun f => f.at_ = c) ++
    plateList (fun h => [h.1.setWidth 64, plateNat h.2]) k.heldTable

/-- One slice (step 2): its host lines with their data, its scratch ways, its pinned lines with their data, and WAYMASK. Which other lines it holds is no part of the model
(assumption 17). -/
def State.plateSlice (s : State) (cl : Nat) : List Word :=
  let l := s.slice cl
  plateList (fun e => plateNat e.1 :: plateBool e.2 :: plateBytes (s.peeks (64 * e.1) 64)) (s.hostLines.filter fun e => homeCluster (64 * e.1) = cl) ++
    ((s.scratchWays cl).flatMap fun w => plateBytes (s.peeks (keyL2 cl w 0) 0x2_0000)) ++ 
    plateList (fun p => plateNat p :: plateBytes (s.peeks (64 * p) 64)) l.pins ++
    [l.mask.setWidth 64, l.bypass.setWidth 64, plateBool l.clean, plateBool l.err]

/-- Everything that is shifted out, in the order of R209: the cores, the slices, the wake latches, and BAR0 below them. -/
def State.plateWords (s : State) : List Word :=
  (List.range 1024).flatMap s.plateCore ++ (List.range 256).flatMap s.plateSlice ++ (List.range 1024).map (fun q => Assoc.get 0 s.wake q) ++
    (List.range 512).map fun i => s.readBar0 (8 * i)

/-- FREEZE: a low level on the input. -/
def execFreeze (s : State) : Host.Outcome State Fault Refusal := .next { s.capture with plate := s.plateWords }

/-- PLATECTL_CAPTURE: a supervisor write of 1 to PLATECTL.CAPTURE. -/
def execPlatectlCapture (s : State) : Host.Outcome State Fault Refusal := .next { s.capture with plate := s.plateWords }

end Sys2Proof.Machine
end

