-- ==== Sys2Proof/Machine/VectorMem.lean ====
section
/-! DEFINITION. Group VMEM: vector memory and all-or-nothing tiles (R161, R332 to R334). -/

namespace Sys2Proof.Machine

/-! ### Units of an access (R321) -/

/-- Pieces of an access that do not cross a 32-byte sector: for each, its first byte's address and the addresses of its bytes. -/
abbrev Piece := Nat × List Nat

/-- The bytes at `va + o`, for rising offsets `o`, cut at aligned sectors of `size` bytes. -/
def pieces (va : Ptr) (size : Nat) (offs : List Nat) : List Piece :=
  let block (o : Nat) : Nat := (va.toNat % size + o) / size
  let blocks := (offs.map block).eraseDups
  blocks.map fun b =>
    let os := offs.filter fun o => block o = b
    ((va + BitVec.ofNat 72 (os.headD 0)).toNat, os.map fun o => (va + BitVec.ofNat 72 o).toNat)

/-- Translates every piece, before any effect (R332): the keys of its bytes. -/
def locatePieces (ps : List Piece) (k : Access) : M (List (List Nat)) :=
  ps.mapM fun p => do
    let key ← translate p.1 ((p.2.getLastD 0) - p.1 + 1) k
    let s ← get
    let ks := s.keysOf key ((p.2.getLastD 0) - p.1 + 1)
    pure (p.2.map fun a => ks.getD (a - p.1) 0)

/-- The watchpoints of the pieces of an access, with the bytes read or written: each piece is checked at the addresses of its own bytes, with what
the whole instruction leaves; the last of two bytes at one address stays. -/
def watchPieces (ps : List Piece) (kss : List (List Nat)) (bs : List Byte) (k : WatchKind) : M Unit := do
  let new := ((ps.flatMap (·.2)).zip bs).reverse
  (ps.zip kss).forM fun (p, ks) => do
    watchBytes p.2 ks new k
    if k = .read && 3 ≤ keySpace (ks.headD 0) then
      let (c, n) ← me
      modify fun s => s.watchOwner (ks.filter fun x => (sbByte (s.ctx c n).sb x).isNone) k c (some n)

/-- Reads pieces as one Issue (R321): the bytes with their marks. -/
def readPieces (ps : List Piece) (m : MQ) : M (List (Byte × Bool)) := do
  let kss ← locatePieces ps .read
  if releases m.ord then releaseHalf m.scope
  let bs ← loadBytes (bypasses m.ord m.scope) (m.hint = .keep) kss.flatten
  if acquires m.ord then acquireHalf m.scope
  watchPieces ps kss (bs.map (·.1)) .read
  pure bs

/-- Writes pieces as one Issue, each with its bytes and its mark: the store of an instruction to `va`. -/
def writePieces (va : Ptr) (ps : List (Piece × List Byte × Bool)) (m : MQ) : M Unit := do
  let kss ← locatePieces (ps.map (·.1)) .write
  if releases m.ord then releaseHalf m.scope
  let us := (ps.zip kss).map fun (p, ks) => (p.1.1, ks.zip p.2.1, p.2.2)
  let s ← get
  if (s.ctx s.curCore s.curSlot).stage = 0 then
    if bypasses m.ord m.scope && !s.holding s.curCore s.curSlot then storeThrough m.scope (m.hint = .keep) (us.map (·.2))
    else
      us.forM fun u => storeBuffered u.1 u.2.1 u.2.2 false (bypasses m.ord m.scope)
      if m.hint = .keep then pinStore kss.flatten
  if acquires m.ord then
    written
    acquireHalf m.scope
  watchPieces (ps.map (·.1)) kss (ps.flatMap fun p => p.2.1) .write
  passStore va.toNat (us.flatMap fun u => u.2.1.map (·.2))

/-- The bytes of an image given to pieces in their order, each with the mark of its number. -/
def cutPieces (ps : List Piece) (image : List Byte) (mark : Nat → Bool) : List (Piece × List Byte × Bool) :=
  (ps.foldl (fun (acc : List (Piece × List Byte × Bool) × List Byte) p =>
    (acc.1 ++ [(p, acc.2.take p.2.length, mark acc.1.length)], acc.2.drop p.2.length)) ([], image)).1

/-! ### Elements in memory (R165) -/

/-- The bytes of memory that lane `j` touches, an element having `w` bits there. -/
def laneBytes (w j : Nat) : List Nat := (List.range ((w * j + w - 1) / 8 - w * j / 8 + 1)).map (w * j / 8 + ·)

/-- The byte offsets of the lanes that a mask selects, in rising order. -/
def maskBytes (ty : Ty) (m : Mask) : List Nat :=
  if m = allOnes then List.range (ty.width * laneCount ty.laneWidth / 8)
  else ((List.range (laneCount ty.laneWidth)).flatMap fun j => if m.getLsbD j then laneBytes ty.width j else []).eraseDups

/-- A byte that an access read. -/
def byteAt (offs : List Nat) (bs : List (Byte × Bool)) (o : Nat) : Byte × Bool := (Assoc.find (offs.zip bs) o).getD (0, false)

/-- Lanes loaded from the bytes at some offsets, and the marks of the sectors they lie in. -/
def loadLanes (ty : Ty) (m : Mask) (offs : List Nat) (bs : List (Byte × Bool)) : List (Option Nat) × BitVec 8 :=
  let image := (List.range 256).map fun o => byteAt offs bs o
  let n := bitsOfBytes (image.map (·.1))
  let w := ty.width
  let ls := (List.range (laneCount ty.laneWidth)).map fun j =>
    if m.getLsbD j then some (n / 2 ^ (w * j) % 2 ^ w) else none
  (ls, (List.range (laneCount ty.laneWidth)).foldl (fun a j =>
    if m.getLsbD j && (laneBytes w j).any fun o => (image.getD o (0, false)).2 then a ||| (1#8 <<< sectorOf ty.laneWidth j) else a) 0)

/-- The memory image of a register's lanes (R165). -/
def packLanes (ty : Ty) (d : VData) : List Byte :=
  bytesOfBits (ty.width * laneCount ty.laneWidth / 8)
    ((lanes ty.laneWidth d).foldr (fun x acc => x % 2 ^ ty.width + 2 ^ ty.width * acc) 0)

/-- Whether memory sector `i` of a register's image holds a lane of a marked sector. -/
def sectorMark (ty : Ty) (marks : BitVec 8) (lo hi : Nat) : Bool :=
  (List.range (laneCount ty.laneWidth)).any fun j =>
    lo * 8 < ty.width * (j + 1) && ty.width * j < hi * 8 && marks.getLsbD (sectorOf ty.laneWidth j)

def execVld (ty : Ty) (kind : Kind) (m : MQ) (d : VReg) (b : PReg) (off : BitVec 21) (k : KReg) (s : State) : Host.Outcome State Fault Refusal :=
  perform .vector (.vld ty kind m d b off k) (do
    let p ← regP b
    let mk ← getK k
    let q ← consume [uK k]
    let _ ← consume [uP b]
    let va := ea p off
    aligned va.toNat 32
    let offs := maskBytes ty mk
    let bs ← readPieces (pieces va 32 offs) m
    let r := loadLanes ty mk offs bs
    writeLanes d (tagOf kind ty) ty.laneWidth r.1 (if q then 0xFF else r.2) false
    pure .seq) s

def execVst (ty : Ty) (kind : Kind) (m : MQ) (b : PReg) (off : BitVec 21) (a : VReg) (k : KReg) (s : State) : Host.Outcome State Fault Refusal :=
  perform .vector (.vst ty kind m b off a k) (do
    let p ← regP b
    let x ← getV a
    checkTag a x (· = tagOf kind ty)
    let mk ← getK k
    let q ← consume [uK k]
    let _ ← consume [uP b]
    let marks ← eatMarks (sectorsOf ty.laneWidth mk.getLsbD) [x] q
    let va := ea p off
    aligned va.toNat 32
    let offs := maskBytes ty mk
    let image := packLanes ty x.data
    writePieces va ((pieces va 32 offs).map fun pc =>
      let os := offs.filter fun o => pc.2.contains (va + BitVec.ofNat 72 o).toNat
      (pc, os.map fun o => image.getD o 0, sectorMark ty marks (os.headD 0) (os.getLastD 0 + 1))) m
    pure .seq) s

/-- The 32-byte segments of a strided access, and the check of its stride. -/
def segments (va : Ptr) (stride : Word) : M (List Piece) := do
  aligned va.toNat 32
  aligned stride.toNat 32
  pure ((List.range 8).flatMap fun i =>
    pieces (va + BitVec.ofInt 72 (Int.ofNat i * stride.toInt)) 32 (List.range 32))

def execVlds (ty : Ty) (m : MQ) (d : VReg) (b : PReg) (off : BitVec 21) (a : GReg) (s : State) : Host.Outcome State Fault Refusal :=
  perform .vector (.vlds ty m d b off a) (do
    let p ← regP b
    let x ← regG a
    let _ ← consume [uP b, uG a]
    let ps ← segments (ea p off) x
    let bs ← readPieces ps m
    let r := loadLanes ty allOnes (List.range 256) bs
    writeLanes d (plainTag ty) ty.laneWidth r.1 r.2 false
    pure .seq) s

def execVsts (ty : Ty) (m : MQ) (b : PReg) (off : BitVec 21) (a : VReg) (d : GReg) (s : State) : Host.Outcome State Fault Refusal :=
  perform .vector (.vsts ty m b off a d) (do
    let p ← regP b
    let x ← source a ty
    let st ← regG d
    let _ ← consume [uP b, uG d]
    let marks ← eatMarks 0xFF [x] false
    let ps ← segments (ea p off) st
    let image := bytesOfBits 256 x.data.toNat
    writePieces (ea p off) (((List.range 8).zip ps).map fun (i, pc) => (pc, (image.drop (32 * i)).take 32, marks.getLsbD i)) m
    pure .seq) s

/-- The 4-byte accesses of a gather or scatter: an index register of tag (none, i32) or (none, n32). -/
def gatherPieces (va : Ptr) (r : VReg) (x : VRegState) : M (List Piece) := do
  checkTag r x fun t => t = plainTag .i32 || t = plainTag .n32
  aligned va.toNat 4
  let ty := if x.tag = plainTag .i32 then Ty.i32 else .n32
  pure ((List.range 64).flatMap fun j =>
    pieces (va + BitVec.ofInt 72 (4 * valueOf ty (lane 32 x.data j))) 4 (List.range 4))

def execVgath (ty : Ty) (m : MQ) (d : VReg) (b : PReg) (off : BitVec 21) (a : VReg) (s : State) : Host.Outcome State Fault Refusal :=
  perform .vector (.vgath ty m d b off a) (do
    let p ← regP b
    let x ← getV a
    let ps ← gatherPieces (ea p off) a x
    let _ ← consume [uP b]
    let marks ← eatMarks 0xFF [x] false
    let bs ← readPieces ps m
    let r := loadLanes ty allOnes (List.range 256) bs
    writeLanes d (plainTag ty) ty.laneWidth r.1 (r.2 ||| marks) false
    pure .seq) s

/-- `vscat`: lanes in order, so the higher lane wins at a shared address. -/
def execVscat (ty : Ty) (m : MQ) (b : PReg) (off : BitVec 21) (a d : VReg) (s : State) : Host.Outcome State Fault Refusal :=
  perform .vector (.vscat ty m b off a d) (do
    let p ← regP b
    let x ← source a ty
    let i ← getV d
    let ps ← gatherPieces (ea p off) d i
    let _ ← consume [uP b]
    let marks ← eatMarks 0xFF [x, i] false
    writePieces (ea p off) (((List.range 64).zip ps).map fun (j, pc) =>
      (pc, bytesOfBits 4 (lane 32 x.data j), marks.getLsbD (sectorOf 32 j))) m
    pure .seq) s

/-- `vstp` (R156, R333): A holds (none, i8), the tag of its TY 0 (R320). -/
def execVstp (m : MQ) (b : PReg) (off : BitVec 21) (a : VReg) (s : State) : Host.Outcome State Fault Refusal :=
  perform .vector (.vstp m b off a) (do
    let p ← regP b
    let x ← source a .i8
    let _ ← consume [uP b]
    let marks ← eatMarks 0xFF [x] false
    let image := bytesOfBits 256 x.data.toNat
    storeFull (ea p off).toNat ((List.range 8).map fun i => ((image.drop (32 * i)).take 32, marks.getLsbD i)) m
    pure .seq) s

/-- `vldw` (R156, R333): waits for the 32 full bits, reads the words and clears the bits in one step. -/
def execVldw (ty : Ty) (kind : Kind) (m : MQ) (d : VReg) (b : PReg) (off : BitVec 21) (s : State) : Host.Outcome State Fault Refusal :=
  perform .vector (.vldw ty kind m d b off) (do
    let p ← regP b
    let _ ← consume [uP b]
    let va := (ea p off).toNat
    aligned va 8
    let key ← translate va 256 .read
    scratchOnly va key
    if releases m.ord then releaseHalf m.scope
    let s ← get
    let ks := s.keysOf key 256
    let bs ← takeFull va ks
    if acquires m.ord then acquireHalf m.scope
    watchAccess va ks (bs.map (·.1)) .read false
    let r := loadLanes ty allOnes (List.range 256) bs
    writeLanes d (tagOf kind ty) ty.laneWidth r.1 r.2 false
    pure .seq) s

/-! ### Sidecars (R167, R332) -/

/-- The bytes of a sidecar in memory: 16 for E8M0, 64 for binary32. -/
def sideBytes (kind : Kind) (side : BitVec 512) : List Byte :=
  match kind with
  | .mx | .none => (List.range 16).map fun i => BitVec.ofNat 8 (slotE8M0 (slotOf side i))
  | .ws => bytesOfBits 64 side.toNat
def sideLen (kind : Kind) : Nat := match kind with | .mx | .none => 16 | .ws => 64
def sideOf (kind : Kind) (bs : List Byte) : BitVec 512 :=
  match kind with
  | .mx | .none => BitVec.ofNat 512 (bs.foldr (fun b acc => widenE8M0 b.toNat + 2 ^ 32 * acc) 0)
  | .ws => BitVec.ofNat 512 (bitsOfBytes bs)

def execVldsc (kind : Kind) (m : MQ) (d : VReg) (b : PReg) (off : BitVec 21) (s : State) : Host.Outcome State Fault Refusal :=
  perform .vector (.vldsc kind m d b off) (do
    let p ← regP b
    let _ ← consume [uP b]
    let va := ea p off
    aligned va.toNat 16
    let bs ← readPieces (pieces va 32 (List.range (sideLen kind))) m
    let y ← getV d
    putV d.toNat { y with side := sideOf kind (bs.map (·.1)), marks := if bs.any (·.2) then 0xFF else y.marks }
    pure .seq) s

def execVstsc (kind : Kind) (m : MQ) (b : PReg) (off : BitVec 21) (a : VReg) (s : State) : Host.Outcome State Fault Refusal :=
  perform .vector (.vstsc kind m b off a) (do
    let p ← regP b
    let x ← getV a
    checkTag a x fun t => (tagTy t).any fun e => e.1 = kind
    let _ ← consume [uP b]
    let marks ← eatMarks 0xFF [x] false
    let va := ea p off
    aligned va.toNat 16
    let image := sideBytes kind x.side
    writePieces va (cutPieces (pieces va 32 (List.range (sideLen kind))) image fun _ => decide (marks ≠ 0)) m
    pure .seq) s

/-! ### All-or-nothing tiles (R161, R334) -/

/-- The bytes of a tile of registers from byte 8 on: tags, zeros, data and sidecars. -/
def tileImage (xs : List VRegState) : List Byte :=
  (List.range 16).map (fun i => (((xs.map fun x => x.tag).getD i (0 : BitVec 6)).setWidth 8 : Byte)) ++ List.replicate 232 0 ++
    xs.flatMap fun x => bytesOfBits 256 x.data.toNat ++ bytesOfBits 64 x.side.toNat

/-- The mark of the 32-byte sector with a number in a tile: that of the sector of the register stored there, and, for a sidecar, that of any sector of
its register (R193). -/
def tileMark (xs : List VRegState) (i : Nat) : Bool :=
  if i < 8 then false
  else
    let x := xs.getD ((i - 8) / 10) VRegState.reset
    if (i - 8) % 10 < 8 then x.marks.getLsbD ((i - 8) % 10) else x.marks ≠ 0

/-- A failed try: after 64 of them TILE_RETRY (R161). -/
def tileRetry {α : Type} (va : Ptr) : M α := do
  let x ← getCtx
  if 64 ≤ x.tries then trap .tileRetry (va.setWidth 64)
  else
    setCtx { x with tries := x.tries + 1, stage := 0, latch := 0, remote := .idle, fetched := [], places := [], committed := false }
    waitOn .retry (va.setWidth 64)

/-- The next step of the instruction begins; requests of the step before are done. -/
def nextStage (k latch : Nat) : M Unit := modCtx fun x => { x with stage := k, latch := latch, remote := .idle, fetched := [] }

def execTsta (sc : Scope) (h : Hint) (b : PReg) (off : BitVec 32) (a : VReg) (n : BitVec 4) (s : State) : Host.Outcome State Fault Refusal :=
  perform .vector (.tsta sc h b off a n) (do
    let p ← regP b
    let k ← getCore
    let regs := (List.range (n.toNat + 1)).map fun i => a.toNat + i
    let xs := regs.map k.vreg
    regs.forM fun r => checkTag (BitVec.ofNat 4 r) (k.vreg r) (· ≠ emptyTag)
    let _ ← consume [uP b]
    let _ ← eatMarks 0xFF xs false
    let va := ea32 p off
    aligned va.toNat 64
    let bytes := tileImage xs
    let offs := (List.range bytes.length).map (· + 8)
    let ps := pieces va 32 offs
    let vks ← locatePieces [(va.toNat, (List.range 8).map (va.toNat + ·))] .update
    let kss ← locatePieces ps .write
    let x ← getCtx
    if x.stage = 0 then
      releaseHalf sc
      let old ← atHome (vks.headD []) .tileLock false
      if old.1 % 2 = 1 then tileRetry va
      modCtx fun x => { x with committed := true }
      nextStage 1 old.1
    let x ← getCtx
    if x.stage = 1 then
      let us : List Unit_ := ((cutPieces ps bytes (tileMark xs)).zip kss).map fun (p, ks) => (ks.zip p.2.1, p.2.2)
      storeThrough (performed sc) (h = .keep) us
      nextStage 2 x.latch
    let x ← getCtx
    releaseHalf sc
    let last := bytesOfBits 8 (x.latch + 2)
    storeThrough sc false [((vks.headD []).zip last, false)]
    watchAccess va.toNat (vks.headD []) (bytesOfBits 8 (x.latch + 1)) .atomic false
    watchPieces ps kss bytes .write
    watchAccess va.toNat (vks.headD []) last .write false
    passStore va.toNat (last ++ bytes)
    pure .seq) s
where
  /-- The tile's bytes are in H before e + 2 is written, wherever it lies (steps 3 and 4 of R161). -/
  performed (sc : Scope) : Scope := if beyondHost sc then sc else .pd

/-- The register image that a tile holds for register `i`; a tag that R169 does not allow loads as empty. -/
def tileReg (bytes : List Byte) (i : Nat) (old : VRegState) (marked : Bool) : VRegState :=
  let tag := bytes.getD (8 + i) 0
  let t : BitVec 6 := if tag.toNat < 64 ∧ tagValid (tag.setWidth 6) then tag.setWidth 6 else emptyTag
  let body := bytes.drop (256 + 320 * i)
  { old with
    data := BitVec.ofNat 2048 (bitsOfBytes (body.take 256))
    tag := t
    side := BitVec.ofNat 512 (bitsOfBytes ((body.drop 256).take 64))
    marks := if marked then 0xFF else 0 }

def execTlda (sc : Scope) (h : Hint) (d : VReg) (b : PReg) (off : BitVec 32) (n : BitVec 4) (s : State) : Host.Outcome State Fault Refusal :=
  perform .vector (.tlda sc h d b off n) (do
    let p ← regP b
    let _ ← consume [uP b]
    let va := ea32 p off
    aligned va.toNat 64
    let count := n.toNat + 1
    let ps := pieces va 32 (List.range (256 + 320 * count))
    let kss ← locatePieces ps .read
    let vk := ((kss.headD []).take 8)
    let x ← getCtx
    if x.stage = 0 then
      let v ← atHome vk .read false
      if v.1 % 2 = 1 then tileRetry va
      nextStage 1 v.1
    let bs ← loadFrom [] true (h = .keep) kss.flatten
    let x ← getCtx
    -- the version word once more; for another member's tile, by a request of its own
    let v ← atHome vk (if keySpace (vk.headD 0) = 2 then .or_ 0 else .read) false
    if v.1 ≠ x.latch then tileRetry va
    acquireHalf sc
    let k ← getCore
    let bytes := bs.map (·.1)
    (List.range count).forM fun i =>
      let r := d.toNat + i
      putV r (tileReg bytes i (k.vreg r) (((bs.drop (256 + 320 * i)).take 320).any (·.2) || (bs.getD (8 + i) (0, false)).2))
    watchPieces ps kss bytes .read
    pure .seq) s

end Sys2Proof.Machine
end

