-- ==== Sys2Proof/Machine/Dispatch.lean ====
section
/-! DEFINITION. Which meaning an instruction or event has: one arm per constructor of Instr. -/

namespace Sys2Proof.Machine

/-- Performs an instruction of the issuing context, or lets an event happen. -/
def exec (i : Instr) (s : State) : Host.Outcome State Fault Refusal :=
  match i with
  | .udf d a b ty q imm => Sys2Proof.Machine.execUdf d a b ty q imm s
  | .nop => Sys2Proof.Machine.execNop s
  | .trap imm => Sys2Proof.Machine.execTrap imm s
  | .eretResume a step1 => Sys2Proof.Machine.execEretResume a step1 s
  | .eretSkip a => Sys2Proof.Machine.execEretSkip a s
  | .eretForward a => Sys2Proof.Machine.execEretForward a s
  | .eretEnd a => Sys2Proof.Machine.execEretEnd a s
  | .sysr d num => Sys2Proof.Machine.execSysr d num s
  | .sysw num a => Sys2Proof.Machine.execSysw num a s
  | .sysset d num a => Sys2Proof.Machine.execSysset d num a s
  | .sysclr d num a => Sys2Proof.Machine.execSysclr d num a s
  | .chkerr => Sys2Proof.Machine.execChkerr s
  | .idle d a => Sys2Proof.Machine.execIdle d a s
  | .tlbinv a b dev => Sys2Proof.Machine.execTlbinv a b dev s
  | .pair d => Sys2Proof.Machine.execPair d s
  | .unpair d => Sys2Proof.Machine.execUnpair d s
  | .haltx a => Sys2Proof.Machine.execHaltx a s
  | .resumex a => Sys2Proof.Machine.execResumex a s
  | .stepx d a => Sys2Proof.Machine.execStepx d a s
  | .rdcyc d => Sys2Proof.Machine.execRdcyc d s
  | .add ty d a b => Sys2Proof.Machine.execAdd ty d a b s
  | .sub ty d a b => Sys2Proof.Machine.execSub ty d a b s
  | .mul ty d a b => Sys2Proof.Machine.execMul ty d a b s
  | .mulh ty d a b => Sys2Proof.Machine.execMulh ty d a b s
  | .div ty d a b => Sys2Proof.Machine.execDiv ty d a b s
  | .rem ty d a b => Sys2Proof.Machine.execRem ty d a b s
  | .and ty d a b => Sys2Proof.Machine.execAnd ty d a b s
  | .or ty d a b => Sys2Proof.Machine.execOr ty d a b s
  | .xor ty d a b => Sys2Proof.Machine.execXor ty d a b s
  | .andn ty d a b => Sys2Proof.Machine.execAndn ty d a b s
  | .shl ty d a b => Sys2Proof.Machine.execShl ty d a b s
  | .shr ty d a b => Sys2Proof.Machine.execShr ty d a b s
  | .sar ty d a b => Sys2Proof.Machine.execSar ty d a b s
  | .rol ty d a b => Sys2Proof.Machine.execRol ty d a b s
  | .min ty d a b => Sys2Proof.Machine.execMin ty d a b s
  | .max ty d a b => Sys2Proof.Machine.execMax ty d a b s
  | .clz ty d a => Sys2Proof.Machine.execClz ty d a s
  | .ctz ty d a => Sys2Proof.Machine.execCtz ty d a s
  | .popc ty d a => Sys2Proof.Machine.execPopc ty d a s
  | .ext ty d a b c => Sys2Proof.Machine.execExt ty d a b c s
  | .sel ty d a b c => Sys2Proof.Machine.execSel ty d a b c s
  | .slt ty d a b => Sys2Proof.Machine.execSlt ty d a b s
  | .seq ty d a b => Sys2Proof.Machine.execSeq ty d a b s
  | .sne ty d a b => Sys2Proof.Machine.execSne ty d a b s
  | .mov ty d a => Sys2Proof.Machine.execMov ty d a s
  | .aluiAdd ty d a imm => Sys2Proof.Machine.execAluiAdd ty d a imm s
  | .aluiAnd ty d a imm => Sys2Proof.Machine.execAluiAnd ty d a imm s
  | .aluiOr ty d a imm => Sys2Proof.Machine.execAluiOr ty d a imm s
  | .aluiXor ty d a imm => Sys2Proof.Machine.execAluiXor ty d a imm s
  | .aluiShl ty d a imm => Sys2Proof.Machine.execAluiShl ty d a imm s
  | .aluiShr ty d a imm => Sys2Proof.Machine.execAluiShr ty d a imm s
  | .aluiSar ty d a imm => Sys2Proof.Machine.execAluiSar ty d a imm s
  | .aluiRol ty d a imm => Sys2Proof.Machine.execAluiRol ty d a imm s
  | .aluiMin ty d a imm => Sys2Proof.Machine.execAluiMin ty d a imm s
  | .aluiMax ty d a imm => Sys2Proof.Machine.execAluiMax ty d a imm s
  | .aluiSlt ty d a imm => Sys2Proof.Machine.execAluiSlt ty d a imm s
  | .aluiSeq ty d a imm => Sys2Proof.Machine.execAluiSeq ty d a imm s
  | .aluiSne ty d a imm => Sys2Proof.Machine.execAluiSne ty d a imm s
  | .li ty d imm => Sys2Proof.Machine.execLi ty d imm s
  | .addl ty d a imm => Sys2Proof.Machine.execAddl ty d a imm s
  | .lil ty d imm => Sys2Proof.Machine.execLil ty d imm s
  | .lih d a imm => Sys2Proof.Machine.execLih d a imm s
  | .andl ty d a imm => Sys2Proof.Machine.execAndl ty d a imm s
  | .orl ty d a imm => Sys2Proof.Machine.execOrl ty d a imm s
  | .xorl ty d a imm => Sys2Proof.Machine.execXorl ty d a imm s
  | .padd d a b => Sys2Proof.Machine.execPadd d a b s
  | .paddi d a imm => Sys2Proof.Machine.execPaddi d a imm s
  | .paddl d a imm => Sys2Proof.Machine.execPaddl d a imm s
  | .psub d a b => Sys2Proof.Machine.execPsub d a b s
  | .plea d b off => Sys2Proof.Machine.execPlea d b off s
  | .pmov d fromG a => Sys2Proof.Machine.execPmov d fromG a s
  | .plo d a => Sys2Proof.Machine.execPlo d a s
  | .phi d a => Sys2Proof.Machine.execPhi d a s
  | .ploc d hi lo => Sys2Proof.Machine.execPloc d hi lo s
  | .pcmp cond d a b => Sys2Proof.Machine.execPcmp cond d a b s
  | .fadd ty q d a b => Sys2Proof.Machine.execFadd ty q d a b s
  | .fsub ty q d a b => Sys2Proof.Machine.execFsub ty q d a b s
  | .fmul ty q d a b => Sys2Proof.Machine.execFmul ty q d a b s
  | .fma ty q d a b c => Sys2Proof.Machine.execFma ty q d a b c s
  | .fnma ty q d a b c => Sys2Proof.Machine.execFnma ty q d a b c s
  | .fdiv ty q d a b => Sys2Proof.Machine.execFdiv ty q d a b s
  | .fsqrt ty q d a => Sys2Proof.Machine.execFsqrt ty q d a s
  | .fmin ty d a b => Sys2Proof.Machine.execFmin ty d a b s
  | .fmax ty d a b => Sys2Proof.Machine.execFmax ty d a b s
  | .fabs ty d a => Sys2Proof.Machine.execFabs ty d a s
  | .fneg ty d a => Sys2Proof.Machine.execFneg ty d a s
  | .fcmp ty cond d a b => Sys2Proof.Machine.execFcmp ty cond d a b s
  | .fcvt dty sty q d a => Sys2Proof.Machine.execFcvt dty sty q d a s
  | .fclass ty d a => Sys2Proof.Machine.execFclass ty d a s
  | .fmovi ty d lit => Sys2Proof.Machine.execFmovi ty d lit s
  | .fsgn ty d a b => Sys2Proof.Machine.execFsgn ty d a b s
  | .beq ty h a b imm => Sys2Proof.Machine.execBeq ty h a b imm s
  | .bne ty h a b imm => Sys2Proof.Machine.execBne ty h a b imm s
  | .blt ty h a b imm => Sys2Proof.Machine.execBlt ty h a b imm s
  | .bge ty h a b imm => Sys2Proof.Machine.execBge ty h a b imm s
  | .bz ty h a imm => Sys2Proof.Machine.execBz ty h a imm s
  | .bnz ty h a imm => Sys2Proof.Machine.execBnz ty h a imm s
  | .bbs h a n imm => Sys2Proof.Machine.execBbs h a n imm s
  | .bbc h a n imm => Sys2Proof.Machine.execBbc h a n imm s
  | .j imm => Sys2Proof.Machine.execJ imm s
  | .jl imm => Sys2Proof.Machine.execJl imm s
  | .jr a => Sys2Proof.Machine.execJr a s
  | .call imm => Sys2Proof.Machine.execCall imm s
  | .callr a => Sys2Proof.Machine.execCallr a s
  | .ret => Sys2Proof.Machine.execRet s
  | .loop a imm => Sys2Proof.Machine.execLoop a imm s
  | .loopi count imm => Sys2Proof.Machine.execLoopi count imm s
  | .lexit => Sys2Proof.Machine.execLexit s
  | .ld ty m d b off => Sys2Proof.Machine.execLd ty m d b off s
  | .ldp m d b off => Sys2Proof.Machine.execLdp m d b off s
  | .ldq8 m d b off => Sys2Proof.Machine.execLdq8 m d b off s
  | .ldw m d b off => Sys2Proof.Machine.execLdw m d b off s
  | .ldt ty d b off => Sys2Proof.Machine.execLdt ty d b off s
  | .st ty m b off a => Sys2Proof.Machine.execSt ty m b off a s
  | .stp m b off a => Sys2Proof.Machine.execStp m b off a s
  | .stq8 m b off a => Sys2Proof.Machine.execStq8 m b off a s
  | .stf m b off a => Sys2Proof.Machine.execStf m b off a s
  | .aadd ty o sc d b off a => Sys2Proof.Machine.execAadd ty o sc d b off a s
  | .aand ty o sc d b off a => Sys2Proof.Machine.execAand ty o sc d b off a s
  | .aor ty o sc d b off a => Sys2Proof.Machine.execAor ty o sc d b off a s
  | .axor ty o sc d b off a => Sys2Proof.Machine.execAxor ty o sc d b off a s
  | .amin ty o sc d b off a => Sys2Proof.Machine.execAmin ty o sc d b off a s
  | .amax ty o sc d b off a => Sys2Proof.Machine.execAmax ty o sc d b off a s
  | .aswp ty o sc d b off a => Sys2Proof.Machine.execAswp ty o sc d b off a s
  | .acas ty o sc d b off a => Sys2Proof.Machine.execAcas ty o sc d b off a s
  | .aacc o sc b off a => Sys2Proof.Machine.execAacc o sc b off a s
  | .fence sc => Sys2Proof.Machine.execFence sc s
  | .bind sc b off a d => Sys2Proof.Machine.execBind sc b off a d s
  | .unbind sc b off => Sys2Proof.Machine.execUnbind sc b off s
  | .acq sc b off => Sys2Proof.Machine.execAcq sc b off s
  | .rel sc b off => Sys2Proof.Machine.execRel sc b off s
  | .send d a obj entry => Sys2Proof.Machine.execSend d a obj entry s
  | .sendc d a obj c len => Sys2Proof.Machine.execSendc d a obj c len s
  | .reply d a obj code => Sys2Proof.Machine.execReply d a obj code s
  | .start d a b c => Sys2Proof.Machine.execStart d a b c s
  | .halt => Sys2Proof.Machine.execHalt s
  | .wget => Sys2Proof.Machine.execWget s
  | .qarm => Sys2Proof.Machine.execQarm s
  | .tend => Sys2Proof.Machine.execTend s
  | .tnext d => Sys2Proof.Machine.execTnext d s
  | .tspawn a b => Sys2Proof.Machine.execTspawn a b s
  | .bread d a b c bentry centry stride => Sys2Proof.Machine.execBread d a b c bentry centry stride s
  | .copy pub a b c d rowb rows sstr => Sys2Proof.Machine.execCopy pub a b c d rowb rows sstr s
  | .copym a b c d lx ly esz dir => Sys2Proof.Machine.execCopym a b c d lx ly esz dir s
  | .binit b off a => Sys2Proof.Machine.execBinit b off a s
  | .bexp b off a => Sys2Proof.Machine.execBexp b off a s
  | .barr d b off => Sys2Proof.Machine.execBarr d b off s
  | .bwait b off a => Sys2Proof.Machine.execBwait b off a s
  | .btest d b off a => Sys2Proof.Machine.execBtest d b off a s
  | .qinit a b => Sys2Proof.Machine.execQinit a b s
  | .qpush a b => Sys2Proof.Machine.execQpush a b s
  | .qpop d a => Sys2Proof.Machine.execQpop d a s
  | .qavail d a => Sys2Proof.Machine.execQavail d a s
  | .rot a b n => Sys2Proof.Machine.execRot a b n s
  | .aopen d b rows => Sys2Proof.Machine.execAopen d b rows s
  | .asend a b c r0 r1 => Sys2Proof.Machine.execAsend a b c r0 r1 s
  | .aclose d => Sys2Proof.Machine.execAclose d s
  | .vadd ty q d a b k => Sys2Proof.Machine.execVadd ty q d a b k s
  | .vsub ty q d a b k => Sys2Proof.Machine.execVsub ty q d a b k s
  | .vmul ty q d a b k => Sys2Proof.Machine.execVmul ty q d a b k s
  | .vfma ty q d a b c k => Sys2Proof.Machine.execVfma ty q d a b c k s
  | .vfnma ty q d a b c k => Sys2Proof.Machine.execVfnma ty q d a b c k s
  | .vmin ty d a b k => Sys2Proof.Machine.execVmin ty d a b k s
  | .vmax ty d a b k => Sys2Proof.Machine.execVmax ty d a b k s
  | .vabs ty d a k => Sys2Proof.Machine.execVabs ty d a k s
  | .vneg ty d a k => Sys2Proof.Machine.execVneg ty d a k s
  | .vand ty d a b k => Sys2Proof.Machine.execVand ty d a b k s
  | .vor ty d a b k => Sys2Proof.Machine.execVor ty d a b k s
  | .vxor ty d a b k => Sys2Proof.Machine.execVxor ty d a b k s
  | .vshl ty d a b k => Sys2Proof.Machine.execVshl ty d a b k s
  | .vshr ty d a b k => Sys2Proof.Machine.execVshr ty d a b k s
  | .vsar ty d a b k => Sys2Proof.Machine.execVsar ty d a b k s
  | .vmov d a k => Sys2Proof.Machine.execVmov d a k s
  | .vbcast ty d a k => Sys2Proof.Machine.execVbcast ty d a k s
  | .vsel ty d a b k => Sys2Proof.Machine.execVsel ty d a b k s
  | .vidx ty d a k => Sys2Proof.Machine.execVidx ty d a k s
  | .vdiv ty q d a b k => Sys2Proof.Machine.execVdiv ty q d a b k s
  | .vclamp ty d a b c k => Sys2Proof.Machine.execVclamp ty d a b c k s
  | .vcmp ty cond d a b k => Sys2Proof.Machine.execVcmp ty cond d a b k s
  | .kand d a b => Sys2Proof.Machine.execKand d a b s
  | .kor d a b => Sys2Proof.Machine.execKor d a b s
  | .kxor d a b => Sys2Proof.Machine.execKxor d a b s
  | .knot d a => Sys2Proof.Machine.execKnot d a s
  | .kpop d a => Sys2Proof.Machine.execKpop d a s
  | .kset d a b => Sys2Proof.Machine.execKset d a b s
  | .kget d a b => Sys2Proof.Machine.execKget d a b s
  | .vexp2 ty q d a k => Sys2Proof.Machine.execVexp2 ty q d a k s
  | .vlog2 ty q d a k => Sys2Proof.Machine.execVlog2 ty q d a k s
  | .vrcp ty q d a k => Sys2Proof.Machine.execVrcp ty q d a k s
  | .vrsqrt ty q d a k => Sys2Proof.Machine.execVrsqrt ty q d a k s
  | .vsqrt ty q d a k => Sys2Proof.Machine.execVsqrt ty q d a k s
  | .vsinpi ty q d a k => Sys2Proof.Machine.execVsinpi ty q d a k s
  | .vcospi ty q d a k => Sys2Proof.Machine.execVcospi ty q d a k s
  | .vtanh ty q d a k => Sys2Proof.Machine.execVtanh ty q d a k s
  | .vsigm ty q d a k => Sys2Proof.Machine.execVsigm ty q d a k s
  | .verf ty q d a k => Sys2Proof.Machine.execVerf ty q d a k s
  | .vrsum ty q d a k => Sys2Proof.Machine.execVrsum ty q d a k s
  | .vrmax ty d a k => Sys2Proof.Machine.execVrmax ty d a k s
  | .vrmin ty d a k => Sys2Proof.Machine.execVrmin ty d a k s
  | .vperm ty d a b k => Sys2Proof.Machine.execVperm ty d a b k s
  | .vrotl ty d a b k => Sys2Proof.Machine.execVrotl ty d a b k s
  | .vzip ty h d a b k => Sys2Proof.Machine.execVzip ty h d a b k s
  | .vunzip ty h d a b k => Sys2Proof.Machine.execVunzip ty h d a b k s
  | .vext ty d a b => Sys2Proof.Machine.execVext ty d a b s
  | .vins ty d a b => Sys2Proof.Machine.execVins ty d a b s
  | .vcvt dty sty q d a part k => Sys2Proof.Machine.execVcvt dty sty q d a part k s
  | .vqnt ty kind q d a part => Sys2Proof.Machine.execVqnt ty kind q d a part s
  | .vdqnt ty q d a part k => Sys2Proof.Machine.execVdqnt ty q d a part k s
  | .vretag d a tag => Sys2Proof.Machine.execVretag d a tag s
  | .vtag d a => Sys2Proof.Machine.execVtag d a s
  | .vld ty kind m d b off k => Sys2Proof.Machine.execVld ty kind m d b off k s
  | .vst ty kind m b off a k => Sys2Proof.Machine.execVst ty kind m b off a k s
  | .vlds ty m d b off a => Sys2Proof.Machine.execVlds ty m d b off a s
  | .vsts ty m b off a d => Sys2Proof.Machine.execVsts ty m b off a d s
  | .vgath ty m d b off a => Sys2Proof.Machine.execVgath ty m d b off a s
  | .vscat ty m b off a d => Sys2Proof.Machine.execVscat ty m b off a d s
  | .vstp m b off a => Sys2Proof.Machine.execVstp m b off a s
  | .vldw ty kind m d b off => Sys2Proof.Machine.execVldw ty kind m d b off s
  | .tlda sc h d b off n => Sys2Proof.Machine.execTlda sc h d b off n s
  | .tsta sc h b off a n => Sys2Proof.Machine.execTsta sc h b off a n s
  | .vldsc kind m d b off => Sys2Proof.Machine.execVldsc kind m d b off s
  | .vstsc kind m b off a => Sys2Proof.Machine.execVstsc kind m b off a s
  | .mbegin a => Sys2Proof.Machine.execMbegin a s
  | .mend => Sys2Proof.Machine.execMend s
  | .mma d x y c bk => Sys2Proof.Machine.execMma d x y c bk s
  | .mzero d => Sys2Proof.Machine.execMzero d s
  | .mst ty q b off a stride => Sys2Proof.Machine.execMst ty q b off a stride s
  | .mld d b off stride => Sys2Proof.Machine.execMld d b off stride s
  | .mldt ty d b off => Sys2Proof.Machine.execMldt ty d b off s
  | .manch d a b => Sys2Proof.Machine.execManch d a b s
  | .mwait => Sys2Proof.Machine.execMwait s
  | .illegalInstruction bad w => Sys2Proof.Machine.execIllegalInstruction bad w s
  | .deviceReset => Sys2Proof.Machine.execDeviceReset s
  | .kvecWrite => Sys2Proof.Machine.execKvecWrite s
  | .bootDisc => Sys2Proof.Machine.execBootDisc s
  | .bootMap => Sys2Proof.Machine.execBootMap s
  | .bootImg => Sys2Proof.Machine.execBootImg s
  | .bootStage => Sys2Proof.Machine.execBootStage s
  | .bootGo => Sys2Proof.Machine.execBootGo s
  | .bootDiscoveryFlit => Sys2Proof.Machine.execBootDiscoveryFlit s
  | .bootMulticastFlit => Sys2Proof.Machine.execBootMulticastFlit s
  | .bootReport => Sys2Proof.Machine.execBootReport s
  | .bootReportArrival => Sys2Proof.Machine.execBootReportArrival s
  | .spdmGetVersion => Sys2Proof.Machine.execSpdmGetVersion s
  | .spdmGetCapabilities => Sys2Proof.Machine.execSpdmGetCapabilities s
  | .spdmNegotiateAlgorithms => Sys2Proof.Machine.execSpdmNegotiateAlgorithms s
  | .spdmGetDigests => Sys2Proof.Machine.execSpdmGetDigests s
  | .spdmGetCertificate => Sys2Proof.Machine.execSpdmGetCertificate s
  | .spdmChallenge => Sys2Proof.Machine.execSpdmChallenge s
  | .spdmGetMeasurements => Sys2Proof.Machine.execSpdmGetMeasurements s
  | .wakeWrite => Sys2Proof.Machine.execWakeWrite s
  | .wakeComplete => Sys2Proof.Machine.execWakeComplete s
  | .podConfigWrite => Sys2Proof.Machine.execPodConfigWrite s
  | .queuePollScan => Sys2Proof.Machine.execQueuePollScan s
  | .headerReread => Sys2Proof.Machine.execHeaderReread s
  | .queueStall => Sys2Proof.Machine.execQueueStall s
  | .nopPacket => Sys2Proof.Machine.execNopPacket s
  | .launchGraph => Sys2Proof.Machine.execLaunchGraph s
  | .launchGrid => Sys2Proof.Machine.execLaunchGrid s
  | .field => Sys2Proof.Machine.execField s
  | .budget => Sys2Proof.Machine.execBudget s
  | .waymask => Sys2Proof.Machine.execWaymask s
  | .pause => Sys2Proof.Machine.execPause s
  | .snapshot => Sys2Proof.Machine.execSnapshot s
  | .restore => Sys2Proof.Machine.execRestore s
  | .signal => Sys2Proof.Machine.execSignal s
  | .waitValue => Sys2Proof.Machine.execWaitValue s
  | .waitValuePoll => Sys2Proof.Machine.execWaitValuePoll s
  | .skip => Sys2Proof.Machine.execSkip s
  | .debugHalt => Sys2Proof.Machine.execDebugHalt s
  | .debugResume => Sys2Proof.Machine.execDebugResume s
  | .debugStep => Sys2Proof.Machine.execDebugStep s
  | .debugReadctx => Sys2Proof.Machine.execDebugReadctx s
  | .debugWritectx => Sys2Proof.Machine.execDebugWritectx s
  | .debugReadmem => Sys2Proof.Machine.execDebugReadmem s
  | .debugWritemem => Sys2Proof.Machine.execDebugWritemem s
  | .debugSetwatch => Sys2Proof.Machine.execDebugSetwatch s
  | .debugStatus => Sys2Proof.Machine.execDebugStatus s
  | .hostMemoryAccess => Sys2Proof.Machine.execHostMemoryAccess s
  | .backInvalidateAnswer => Sys2Proof.Machine.execBackInvalidateAnswer s
  | .linkRetry => Sys2Proof.Machine.execLinkRetry s
  | .linkTimeout => Sys2Proof.Machine.execLinkTimeout s
  | .remoteResponse => Sys2Proof.Machine.execRemoteResponse s
  | .forward => Sys2Proof.Machine.execForward s
  | .drain => Sys2Proof.Machine.execDrain s
  | .evict => Sys2Proof.Machine.execEvict s
  | .fill => Sys2Proof.Machine.execFill s
  | .budgetPeriodStart => Sys2Proof.Machine.execBudgetPeriodStart s
  | .powerWindow => Sys2Proof.Machine.execPowerWindow s
  | .messageArrival => Sys2Proof.Machine.execMessageArrival s
  | .replyArrival => Sys2Proof.Machine.execReplyArrival s
  | .strayDelivery => Sys2Proof.Machine.execStrayDelivery s
  | .helperGrant => Sys2Proof.Machine.execHelperGrant s
  | .weightReturn => Sys2Proof.Machine.execWeightReturn s
  | .writeOffArrival => Sys2Proof.Machine.execWriteOffArrival s
  | .qarmNotice => Sys2Proof.Machine.execQarmNotice s
  | .taintReport => Sys2Proof.Machine.execTaintReport s
  | .transitVisit => Sys2Proof.Machine.execTransitVisit s
  | .pendingTake => Sys2Proof.Machine.execPendingTake s
  | .overflowRefill => Sys2Proof.Machine.execOverflowRefill s
  | .stealStart => Sys2Proof.Machine.execStealStart s
  | .stealRequest => Sys2Proof.Machine.execStealRequest s
  | .stealArrival => Sys2Proof.Machine.execStealArrival s
  | .leaseLapseNotice => Sys2Proof.Machine.execLeaseLapseNotice s
  | .burstArrival => Sys2Proof.Machine.execBurstArrival s
  | .copySectorWritten => Sys2Proof.Machine.execCopySectorWritten s
  | .publish => Sys2Proof.Machine.execPublish s
  | .engineFault => Sys2Proof.Machine.execEngineFault s
  | .matrixCommandRetire => Sys2Proof.Machine.execMatrixCommandRetire s
  | .acnRowArrival => Sys2Proof.Machine.execAcnRowArrival s
  | .acnAckArrival => Sys2Proof.Machine.execAcnAckArrival s
  | .acnNakArrival => Sys2Proof.Machine.execAcnNakArrival s
  | .pipeEntryLand => Sys2Proof.Machine.execPipeEntryLand s
  | .pipeCreditReturn => Sys2Proof.Machine.execPipeCreditReturn s
  | .rotExchange => Sys2Proof.Machine.execRotExchange s
  | .pairIntervalEnd => Sys2Proof.Machine.execPairIntervalEnd s
  | .cellReset => Sys2Proof.Machine.execCellReset s
  | .fenceFall => Sys2Proof.Machine.execFenceFall s
  | .pauseDeadline => Sys2Proof.Machine.execPauseDeadline s
  | .drainComplete => Sys2Proof.Machine.execDrainComplete s
  | .flushComplete => Sys2Proof.Machine.execFlushComplete s
  | .migrationRewalk => Sys2Proof.Machine.execMigrationRewalk s
  | .barrierStall => Sys2Proof.Machine.execBarrierStall s
  | .stepBlocked => Sys2Proof.Machine.execStepBlocked s
  | .haltSignal => Sys2Proof.Machine.execHaltSignal s
  | .freeze => Sys2Proof.Machine.execFreeze s
  | .platectlCapture => Sys2Proof.Machine.execPlatectlCapture s
  | .splitWrite => Sys2Proof.Machine.execSplitWrite s
  | .swizzleWrite => Sys2Proof.Machine.execSwizzleWrite s
  | .waymaskMaskWrite => Sys2Proof.Machine.execWaymaskMaskWrite s
  | .waymaskFlush => Sys2Proof.Machine.execWaymaskFlush s
  | .fpctlWrite => Sys2Proof.Machine.execFpctlWrite s
  | .wdctlWrite => Sys2Proof.Machine.execWdctlWrite s
  | .mxexclWrite => Sys2Proof.Machine.execMxexclWrite s
  | .mxexclApply => Sys2Proof.Machine.execMxexclApply s
  | .mresumeResume => Sys2Proof.Machine.execMresumeResume s
  | .mresumeAbort => Sys2Proof.Machine.execMresumeAbort s
  | .bresumeResume => Sys2Proof.Machine.execBresumeResume s
  | .bresumeAbort => Sys2Proof.Machine.execBresumeAbort s
  | .registerWrite => Sys2Proof.Machine.execRegisterWrite s
  | .noWorkAnswer => Sys2Proof.Machine.execNoWorkAnswer s
  | .secondCopyTaken => Sys2Proof.Machine.execSecondCopyTaken s
  | .idleTimeout => Sys2Proof.Machine.execIdleTimeout s
  | .joinStackRefill => Sys2Proof.Machine.execJoinStackRefill s
  | .powerGate => Sys2Proof.Machine.execPowerGate s
  | .msixVectorUnmask => Sys2Proof.Machine.execMsixVectorUnmask s
  | .hostSnoop => Sys2Proof.Machine.execHostSnoop s
  | .badTypePacket => Sys2Proof.Machine.execBadTypePacket s

end Sys2Proof.Machine
end

