-- ==== Sys2Proof/Machine/Upset.lean ====
section
/-! DEFINITION. Errors in storage: what is corrected and counted, what becomes poison, and what resets a cell (R191). -/

namespace Sys2Proof.Machine

/-- One more in a counter. -/
def countUp (m : Assoc Nat) (i : Nat) : Assoc Nat := Assoc.put m i (Assoc.get 0 m i + 1)

/-- An error in a line of L1 that cannot be corrected: a clean line is discarded, and of a dirty one the 8-byte word is marked. -/
def State.upsetLine (s : State) (c key : Nat) : State :=
  let k := s.core c
  let l := lineOf key
  let word (i : Nat) : Bool := i / 8 = key % 64 / 8
  let line := k.line l
  if line.any fun e => e.2.dirty then
    s.setCore c { k with cv := Assoc.put k.cv l (line.map fun e => if word e.1 then (e.1, { e.2 with poison := true }) else e) }
  else s.setCore c { k with cv := Assoc.del k.cv l }

/-- An error strikes (R191). Home counters and held-weight tables have two copies, of which the machine's value is the one that both hold: an error in
one of them leaves nothing to see, and the cell is reset when both fail. -/
def State.upset (s : State) : Upset → State
  | .vault v => { s with eccVault := countUp s.eccVault v }
  | .slice cl => { s with eccSlice := countUp s.eccSlice cl }
  | .memory key => { s with poison := Assoc.set false s.poison (key / unitOf key * unitOf key) true }
  | .l1 c key => s.upsetLine c key
  | .register c n u => s.setCtx c n ((s.ctx c n).mark u true)
  | .vector c r sector =>
    let k := s.core c
    let v := Assoc.get VRegState.reset k.v r
    s.setCore c { k with v := Assoc.set VRegState.reset k.v r { v with marks := v.marks ||| (1#8 <<< sector) } }
  | .accumulator c t row =>
    let k := s.core c
    let x := Assoc.get Tile.reset k.tiles t
    s.setCore c { k with tiles := Assoc.set Tile.reset k.tiles t { x with marks := x.marks ||| (1#32 <<< row) } }
  | .tlb c i => s.setCore c { s.core c with tlb := (s.core c).tlb.eraseIdx i }
  | .control c => s.askCellReset c
  | .counters c both => if both then s.askCellReset c else s

end Sys2Proof.Machine
end

