-- ==== Sys2Proof/Machine/Sched.lean ====
section
/-! DEFINITION. Which contexts may issue, how an instruction is fetched and issued, and whose turn it is (R92, R95, R205 to R215;
assumption 1). -/

namespace Sys2Proof.Machine

/-! ### Issue -/

/-- The context is in the middle of an access that its hard save waits for: an interval of its core is not over (R163, R198). -/
def State.mustEnd (s : State) (c n : Nat) : Bool :=
  n = 1 && !(s.core c).settled 1 && (s.ctx c 1).pastIssue

/-- A context that may issue: its core runs, it is live without an outstanding record, no halt or hard save holds it, and a task that
runs paired is paired (R91, R97, R204, R346). Slot 0 issues on while the other slots of its core are halted. -/
def State.canIssue (s : State) (c n : Nat) : Bool :=
  let k := s.core c
  let x := k.ctx n
  s.healthy c && !k.gated && !k.inReset && n < 12 && x.live &&
    (n = 0 || (x.role ≠ .none && x.trap.isNone && (!x.halted || x.stepping || x.skidLeft ≠ 0) && !s.saved c &&
      (!s.saving c || s.mustEnd c n) && (n ≠ 1 || (!s.lapsePending c && (k.pair.isSome || k.running.all fun r => !r.paired)))))

/-- A trap of the fetch, which atomics that the context has run ahead of delay (R25). -/
def State.fetchTrap (s : State) (c n : Nat) (t : TrapRec) : State :=
  if (s.ctx c n).lates.isEmpty then s.takeTrap c n t else s.wait c n .remote 0

/-- Fetches at the program counter and issues what stands there: fill words take no turn, checks 1 to 3 of R213 come first, and an
encoding that is no instruction is issued as such. The number bounds the fill words of one turn. -/
def State.issue (s : State) (c n : Nat) : Nat → Host.Outcome State Fault Refusal
  | 0 => .next s
  | k + 1 =>
    let x := s.ctx c n
    match s.fetchAt c n x.pc with
    | (.bad cause, t) => .next (t.fetchTrap c n (precise x cause (x.pc.setWidth 64) none))
    | (.migrating, t) => .next (t.wait c n .migration (x.pc.setWidth 64))
    | (.held on, t) => .next (t.wait c n on (x.pc.setWidth 64))
    | (.code w room, t) =>
      let t : State := { t with curCore := c, curSlot := n }
      match decode room (BitVec.ofNat 128 w) with
      | .fill => (t.setCtx c n { t.ctx c n with pc := x.pc + 4 }).issue c n k
      | .badLength => exec (.illegalInstruction .length (BitVec.ofNat 64 w)) t
      | .cross =>
        let len := lenBytes (BitVec.ofNat 2 w)
        let (cause, val) := x.runsOn len (BitVec.ofNat 64 (w % 2 ^ 32))
        .next (t.fetchTrap c n (precise x cause val (some len)))
      | .illegal _ => exec (.illegalInstruction .instruction (BitVec.ofNat 64 w)) t
      | .instr i _ => exec i t

/-- How many fill words one turn may skip. -/
def fillLimit : Nat := 1024

/-- An event of the device, which has no encoding. -/
def eventOf (i : Instr) : Bool :=
  match i with
  | .illegalInstruction _ _ => false
  | i => (encode i).isNone

/-- The control context of an east core of a pair, which retires what the west core has retired (R198). -/
def State.follows (s : State) (c n : Nat) : Bool := n = 1 && (s.core c).pair.any fun p => p.east

/-- The accesses under lapsed leases have completed when the next task of a core issues (R131). -/
def State.lapsesOver (s : State) (c n : Nat) : State :=
  if n = 1 && (s.core c).lapsing ≠ 0 then s.setCore c { s.core c with lapsing := 0 } else s

/-- What a turn does. -/
def State.turn (s : State) (t : Turn) : Host.Outcome State Fault Refusal :=
  match t with
  | .issue c n => if s.follows c n then .next (s.eastStep c) else if s.canIssue c n then (s.lapsesOver c n).issue c n fillLimit else .next s
  | .event i x => if eventOf i then exec i { s with input := x } else .next s
  | .kernel c => .next (s.kernelTurn c)
  | .hop i => .next (s.hopTurn i)
  | .depart i => .next (s.departTurn i)
  | .inject c => .next (s.injectTurn c)
  | .rows c => .next (s.rowsTurn c)
  | .upset u => .next (s.upset u)
  | .bar2 off v => .next (s.writeBar2 off v)
  | .hdm base len => .next { s with hdm := ⟨base, len⟩ }
  | .config off v => .next (s.writeConfig off v)

/-! ### Whose turn it is when the agenda is empty (assumption 1) -/

/-- The event by which a packet in flight arrives. -/
def Packet.event : Packet → Instr
  | .message _ => .messageArrival
  | .reply _ => .replyArrival
  | .stray _ => .strayDelivery
  | .weight _ _ => .weightReturn
  | .writeOff _ _ _ _ _ => .writeOffArrival
  | .arm _ => .qarmNotice
  | .taint _ _ => .taintReport
  | .transit _ _ => .transitVisit
  | .stealAsk _ _ => .stealRequest
  | .stealShip _ => .stealArrival
  | .noWork _ => .noWorkAnswer
  | .lapse _ | .lapseAck _ => .leaseLapseNotice
  | .row _ _ _ _ _ _ _ _ => .acnRowArrival
  | .rowAck _ _ => .acnAckArrival
  | .rowNak _ _ _ => .acnNakArrival
  | .pipeEntry _ _ _ _ => .pipeEntryLand
  | .pipeCredit _ _ => .pipeCreditReturn
  | .haltSignal _ => .haltSignal
  | .bootDisc _ _ _ => .bootDiscoveryFlit
  | .bootCast _ _ _ _ => .bootMulticastFlit
  | .bootReport _ _ _ => .bootReportArrival

/-- The next burst or sector of a command: one that awaits an acknowledgement or has been requested, or the first that is still to be done. -/
def BulkCmd.nextUnit (cmd : BulkCmd) : Nat :=
  match cmd.acks.head?, cmd.asked.head? with
  | some a, _ => a.1
  | none, some a => a.1
  | none, none => ((List.range (cmd.done.length + 1)).find? fun i => !cmd.done.contains i).getD 0

/-- What a command of a bulk or copy queue does next. -/
def BulkCmd.dueTurns (cmd : BulkCmd) (at_ : Input) : List Turn :=
  let i := cmd.nextUnit
  match cmd.op with
  | .bread id _ _ _ cols _ => [.event .burstArrival { at_ with index := id, row := i / cols, col := i % cols }]
  | .copy _ _ _ _ _ _ _ _ | .copym _ _ _ _ _ _ _ _ =>
    [.event .copySectorWritten { at_ with index := i }, .event .publish at_]

/-- A command that its engine works on: not parked, or parked with answers still to come. -/
def BulkCmd.works (cmd : BulkCmd) (parked : Bool) : Bool := !parked || !cmd.asked.isEmpty || !cmd.acks.isEmpty

/-- What a core's own parts have to do. `late` says that a hard save waits for its interval. -/
def Core.dueTurns (c : Nat) (k : Core) (late : Bool) : List Turn :=
  let at_ : Input := { Input.zero with core := c }
  let when (b : Bool) (t : Turn) : List Turn := if b then [t] else []
  when (k.recordDue.isSome || !k.notices.isEmpty || k.pair.isSome || k.running.any Running.paired) (.kernel c) ++
    when (!k.matq.isEmpty && k.matPark.isNone) (.event .matrixCommandRetire at_) ++
    when (k.matPark.any fun f => !f.told) (.event .engineFault at_) ++
    ((k.bulkq.filter fun b => b.works k.bulkPark.isSome).flatMap fun b => b.dueTurns at_) ++
    when (k.bulkPark.any fun f => !f.told) (.event .engineFault { at_ with engine := .bulk }) ++
    (((k.copyq.take 1).filter fun b => b.works k.copyPark.isSome).flatMap fun b => b.dueTurns at_) ++
    when (k.copyPark.any fun f => !f.told) (.event .engineFault { at_ with engine := .copy }) ++
    when (!k.msgPort.isEmpty) (.inject c) ++ when (!k.acnq.isEmpty) (.rows c) ++
    when (!(k.bursts.isEmpty && k.starts.isEmpty && k.inbox.isEmpty && k.strays.isEmpty && k.requests.isEmpty)) (.event .helperGrant at_) ++
    when (!k.pending.isEmpty) (.event .pendingTake at_) ++ when k.rot.isSome (.event .rotExchange at_) ++
    when k.waking (.event .wakeComplete at_) ++
    (match k.pair with
      | none => []
      | some p =>
        when (!p.trail.isEmpty) (.issue p.other 1) ++ when (p.leaving ≠ 0 || k.pairDue p late) (.event .pairIntervalEnd at_)) ++
    (k.ctxs.filterMap fun e => e.2.sb.head?.map fun b => .event .drain { at_ with slot := e.1, addr := (b.cells.map (·.1)).headD 0 }) ++
    (k.dirtyLines.take 1).map fun l => .event .evict { at_ with addr := 64 * l }

/-- The event of a DEBUG request by its code. -/
def debugEvent (code : Nat) : Instr :=
  match code with
  | 1 => .debugHalt
  | 2 => .debugResume
  | 3 => .debugStep
  | 4 => .debugReadctx
  | 5 => .debugWritectx
  | 6 => .debugReadmem
  | 7 => .debugWritemem
  | 8 => .debugSetwatch
  | _ => .debugStatus

/-- The event of the packet at the head of a queue. -/
def Pkt.event (p : Pkt) (waits : Bool) : Instr :=
  match p.type with
  | 0 => .nopPacket
  | 1 => .launchGraph
  | 2 => .launchGrid
  | 3 => .field
  | 4 => .budget
  | 5 => .waymask
  | 6 => .pause
  | 7 => .snapshot
  | 8 => .restore
  | 9 => .signal
  | 10 => if waits then .waitValuePoll else .waitValue
  | 11 => .skip
  | 12 => debugEvent p.code
  | _ => .badTypePacket

/-- What the home of a queue has to do for it. -/
def State.queueTurn (s : State) (q : Nat) : Option Turn :=
  let at_ : Input := { Input.zero with qid := q }
  match s.server q with
  | none => none
  | some c =>
    if s.kernelBusy c q then none
    else
      match (if (s.queue q).taken.isSome then none else match readHead c q s with
        | .ok (some p, _) => some (p.event (s.queue q).waitValue.isSome)
        | .ok (none, _) | .error _ => none) with
      | some i => some (.event i at_)
      | none => some (.event .headerReread at_)

/-- What a field's job and its cells have to do. -/
def State.fieldTurns (s : State) (fid : Nat) (f : FieldSt) : List Turn :=
  let at_ : Input := { Input.zero with fid := fid }
  f.fenced.map (fun cell => .event .fenceFall { at_ with cell := cell }) ++
    match f.job with
    | none => []
    | some j =>
      (j.overflow.take 1).map (fun e => .event .overflowRefill { at_ with core := e.1 }) ++
        (if j.pre = .parked && j.snap.isSome then [.event .secondCopyTaken at_] else []) ++
        (if (j.pre = .pausing true || j.pre = .pausing false) && j.deadline ≤ s.cycle then [.event .pauseDeadline at_] else [])

/-- Everything that can move besides issue. -/
def State.dueTurns (s : State) : List Turn :=
  ((List.range s.net.length).zip s.net).map (fun (i, f) =>
      if f.at_ = f.dst then .event f.body.event { Input.zero with index := i } else .hop i) ++
    ((List.range s.remote.length).zip s.remote).map (fun (i, r) =>
      if r.sent.isNone then .depart i else .event (if r.applied then .remoteResponse else .forward) { Input.zero with index := i }) ++
    (s.cores.flatMap fun e => Core.dueTurns e.1 e.2 (s.saving e.1)) ++ (s.reports.map fun r => .kernel r.core) ++
    (s.queues.filterMap fun e => if e.2.awake then s.queueTurn e.1 else none) ++ (s.fields.flatMap fun e => s.fieldTurns e.1 e.2) ++
    (s.snaps.map fun e => .event .drainComplete { Input.zero with fid := e.1 }) ++
    ((List.range s.debugWorks.length).zip s.debugWorks).map (fun (i, g) => .event (debugEvent g.code) { Input.zero with flag := true, index := i }) ++
    (if s.cores.any fun e => !e.2.governor.isEmpty then [.event .budgetPeriodStart Input.zero] else []) ++
    (s.slices.filterMap fun e => if e.2.flush then some (.event .flushComplete { Input.zero with index := e.1 }) else none)

/-- The next context in rotation that may issue; the one whose turn it was when there is none. -/
def State.nextIssue (s : State) : Turn :=
  let here := s.curCore * 12 + s.curSlot
  match (List.range 12288).find? fun i => s.canIssue ((here + 1 + i) % 12288 / 12) ((here + 1 + i) % 12288 % 12) with
  | some i => .issue ((here + 1 + i) % 12288 / 12) ((here + 1 + i) % 12288 % 12)
  | none => .issue s.curCore s.curSlot

/-- The default: issue and other moves by turns, each in rotation. -/
def State.choose (s : State) : Turn :=
  let due := s.dueTurns
  if s.steps % 2 = 0 ∨ due.isEmpty then s.nextIssue else due.getD (s.steps / 2 % due.length) s.nextIssue

/-! ### Time (R4, R209) -/

/-- A step takes one cycle or more. -/
def State.tick (s : State) : State := { s with steps := s.steps + 1, cycle := s.cycle + 1 + Config.extraCycles s.steps }

/-- The turn that a step takes, and the state without it. -/
def State.nextTurn (s : State) : Turn × State :=
  match s.agenda with
  | [] => (s.choose, s)
  | t :: rest => (t, { s with agenda := rest })

/-- A captured device does nothing until it is reset. -/
def Turn.isReset : Turn → Bool
  | .event .deviceReset _ => true
  | .event _ _ | .issue _ _ | .kernel _ | .hop _ | .depart _ | .inject _ | .rows _ | .upset _ | .bar2 _ _ | .hdm _ _ | .config _ _ => false

/-- One turn of the device. A captured device only shifts its state out. -/
def State.advance (s : State) : Host.Outcome State Fault Refusal :=
  let (t, u) := s.nextTurn
  if u.captured && !t.isReset then .next (if u.plate.isEmpty then { u with plate := u.plateWords } else u) else u.tick.turn t

/-! ### Placing one instruction -/

/-- The key at which context `n` of core `c` fetches next. -/
def State.fetchKey (s : State) (c n : Nat) : Nat :=
  match (s.locate c n (s.ctx c n).pc.toNat 4 .fetch).1 with
  | .at_ k => k
  | .bad _ | .migrating => 0

/-- The instruction stands where the context whose turn it was fetches next, and that context's issue is the next turn. -/
def State.placeWord (s : State) (nbits w : Nat) : State :=
  let c := s.curCore
  let s := s.pokeBytes (s.fetchKey c s.curSlot) (bytesOfBits 16 (w % 2 ^ nbits))
  let s := s.setCore c { s.core c with fetchBuf := [] }
  { s with agenda := .issue c s.curSlot :: s.agenda }

end Sys2Proof.Machine
end

