-- ==== Sys2Proof/Machine/Step.lean ====
section
/-! DEFINITION. One step of the device, and the placing of one instruction for it. -/

namespace Sys2Proof.Machine

/-- One step: the next turn of the agenda, or of the default order. -/
def step (s : State) : Host.Outcome State Fault Refusal := s.advance

/-- The state with one instruction of `nbits` bits, zero above them, where the next step fetches (assumption 1). -/
def State.withFetchWord (s : State) (nbits w : Nat) : State := s.placeWord nbits w

end Sys2Proof.Machine
end

