-- ==== Sys2Proof/Safety.lean ====
section
/-! DEFINITION. What statements about the machine are phrased in: the context whose turn it is, what an instruction changes and
what it leaves as it was. -/

namespace Sys2Proof.Machine

/-! ### The context whose turn it is -/

/-- The context whose turn it is. -/
def State.now (s : State) : Ctx := s.ctx s.curCore s.curSlot
/-- Its core. -/
def State.here (s : State) : Core := s.core s.curCore

/-- The instruction that comes is seen alone: no paired interval holds its outputs (R198), no single step ends behind it
(R351), nothing of an instruction in progress is kept from an earlier try (R229), and no atomic on another member's memory is still to
return its value (R25). -/
def State.steady (s : State) : Bool :=
  !s.here.pairedWest s.curSlot && !s.now.step1 && s.now.after.isNone && s.now.eaten = 0 && s.now.tries = 0 && s.now.stage = 0 &&
    s.now.latch = 0 && s.now.fetched = [] && s.now.places = [] && s.now.awaits = [] && s.now.arrived = 0 && s.now.grant.isNone &&
    !s.now.committed && s.now.lates = [] && s.now.remote = .idle

/-! ### What stays as it was -/

/-- A context without what the completion of any instruction changes: where it stands, RETIRED, CIR and SKID, and what an
instruction in progress keeps. -/
def Ctx.aside (x : Ctx) : Ctx :=
  { x with
    pc := 0, loop0 := LoopLevel.reset, loop1 := LoopLevel.reset, retired := 0, cir := 0, skid := 0, skidLeft := 0, eaten := 0,
    tries := 0, stage := 0, latch := 0, waiting := none, fetched := [], places := [], awaits := [], arrived := 0, grant := none, committed := false, remote := .idle,
    stepping := false, step1 := false, after := none }

/-- A core without its contexts. -/
def Core.bare (k : Core) : Core := { k with ctxs := [] }
/-- The machine without its cores. -/
def State.bare (s : State) : State := { s with cores := [] }

/-- Every other context, and every part of the machine that `hide` and `hideCore` do not hide, is unchanged. -/
def SameOutside (hideCore : Core → Core) (hide : State → State) (s t : State) : Prop :=
  (∀ c n, ¬(c = s.curCore ∧ n = s.curSlot) → t.ctx c n = s.ctx c n) ∧
    (∀ c, hideCore (t.core c).bare = hideCore (s.core c).bare) ∧ hide t.bare = hide s.bare

/-- Nothing but the context whose turn it is has changed: no byte of memory, no register of a core or of the device. -/
def OnlyHere (s t : State) : Prop := SameOutside id id s t ∧ ∀ k, t.peek k = s.peek k

/-! ### How an instruction of `bytes` bytes completes -/

/-- RETIRED counts the instruction, a marked source sets CIR.POISON, and a halted context counts it in SKID (R194, R204). -/
def Counted (x y : Ctx) (p : Bool) : Prop :=
  y.retired = x.retired + 1 ∧ y.cir = (if p then (x.cirSet cirPoison).cir else x.cir) ∧
    y.skid = (if x.halted && !x.stepping then x.skid + 1 else x.skid)

/-- The context goes on behind the instruction, or at the start of a hardware loop that ends there (R271). -/
def GoesOn (x y : Ctx) (bytes : Nat) : Prop :=
  (y.loop0, y.loop1, y.pc) = loopBack x.loop0 x.loop1 x.pc (x.pc + BitVec.ofNat 72 bytes)

/-- The context goes on at `pc`, and its loops stay as they are. -/
def GoesTo (x y : Ctx) (pc : Ptr) : Prop := y.pc = pc ∧ y.loop0 = x.loop0 ∧ y.loop1 = x.loop1

/-- Only register `d` and its mark have changed among the g registers, the p registers and their marks; g0 never changes. -/
def GWritten (x y : Ctx) (d : GReg) (v : Word) (p : Bool) : Prop :=
  (∀ r : GReg, y.readG r.toNat = if r = d ∧ d ≠ 0 then v else x.readG r.toNat) ∧
    (∀ r : PReg, y.readP r.toNat = x.readP r.toNat) ∧
    (∀ u, y.marked u = if u = d.toNat then p && d ≠ 0 else x.marked u)

/-- The same of a p register. -/
def PWritten (x y : Ctx) (d : PReg) (v : Ptr) (p : Bool) : Prop :=
  (∀ r : PReg, y.readP r.toNat = if r = d then v else x.readP r.toNat) ∧
    (∀ r : GReg, y.readG r.toNat = x.readG r.toNat) ∧
    (∀ u, y.marked u = if u = 32 + d.toNat then p else x.marked u)

/-- Instruction `i` of `bytes` bytes completes: it writes `v` to g register `d` with mark `p`, ORs `fl` into FPSTAT, and changes
nothing else; `e` tells whether it read something marked. -/
def LoadsG (i : Instr) (bytes : Nat) (d : GReg) (v : Word) (p e : Bool) (fl : Flags) (s : State) : Prop :=
  ∃ t, exec i s = .next t ∧ OnlyHere s t ∧ GWritten s.now t.now d v p ∧
    t.now.fpstat = s.now.fpstat ||| fl.setWidth 64 ∧ Counted s.now t.now e ∧ GoesOn s.now t.now bytes ∧
    ({ t.now.aside with g := [], marks := [], fpstat := 0 } : Ctx) = { s.now.aside with g := [], marks := [], fpstat := 0 }

/-- The same for an instruction whose destination is marked when a source was. -/
def WritesG (i : Instr) (bytes : Nat) (d : GReg) (v : Word) (p : Bool) (fl : Flags) (s : State) : Prop :=
  LoadsG i bytes d v p p fl s

/-- The same of a p register; no flag changes. -/
def WritesP (i : Instr) (bytes : Nat) (d : PReg) (v : Ptr) (p : Bool) (s : State) : Prop :=
  ∃ t, exec i s = .next t ∧ OnlyHere s t ∧ PWritten s.now t.now d v p ∧ Counted s.now t.now p ∧ GoesOn s.now t.now bytes ∧
    ({ t.now.aside with p := [], marks := [] } : Ctx) = { s.now.aside with p := [], marks := [] }

/-- Instruction `i` completes and changes no register: it goes on at `target` when `taken`, and behind itself otherwise. -/
def Moves (i : Instr) (bytes : Nat) (taken : Prop) (target : Ptr) (p : Bool) (s : State) : Prop :=
  ∃ t, exec i s = .next t ∧ OnlyHere s t ∧ (taken → GoesTo s.now t.now target) ∧ (¬taken → GoesOn s.now t.now bytes) ∧
    Counted s.now t.now p ∧ t.now.aside = s.now.aside

/-- Instruction `i` completes as a call: p15 receives `back`, and the context goes on at `target`. -/
def Calls (i : Instr) (target back : Ptr) (p : Bool) (s : State) : Prop :=
  ∃ t, exec i s = .next t ∧ OnlyHere s t ∧ GoesTo s.now t.now target ∧ PWritten s.now t.now 15 back false ∧ Counted s.now t.now p ∧
    ({ t.now.aside with p := [], marks := [] } : Ctx) = { s.now.aside with p := [], marks := [] }

/-- Instruction `i` completes, and changes nothing but the loop levels, which become `l0` and `l1` before the context goes on. -/
def SetsLoops (i : Instr) (bytes : Nat) (l0 l1 : LoopLevel) (p : Bool) (s : State) : Prop :=
  ∃ t, exec i s = .next t ∧ OnlyHere s t ∧ Counted s.now t.now p ∧ t.now.aside = s.now.aside ∧
    (t.now.loop0, t.now.loop1, t.now.pc) = loopBack l0 l1 s.now.pc (s.now.pc + BitVec.ofNat 72 bytes)

/-- The g and p registers of a context and their marks are unchanged. -/
def SameRegs (x y : Ctx) : Prop :=
  (∀ r : GReg, y.readG r.toNat = x.readG r.toNat) ∧ (∀ r : PReg, y.readP r.toNat = x.readP r.toNat) ∧ ∀ u, y.marked u = x.marked u

/-- From `s` to `t` the context whose turn it is has completed an instruction of `bytes` bytes and stands behind it. -/
def Retires (bytes : Nat) (p : Bool) (s t : State) : Prop := Counted s.now t.now p ∧ GoesOn s.now t.now bytes

/-- Nothing waits to be made visible: the context's store buffer and its core's first-level cache are empty, and no write waits for
the host, the host's memory or another member. -/
def State.settled (s : State) (c n : Nat) : Bool :=
  (s.ctx c n).sb = [] && (s.core c).cv = [] && s.hostLines = [] && s.biPending = [] && s.biOps = [] && s.remote = []

/-- Instruction `i` takes a precise trap where it stands: nothing else of it happens (R230, R346, R349). -/
def Traps (i : Instr) (bytes : Nat) (cause : Cause) (val : Word) (s : State) : Prop :=
  exec i s = .next (s.takeTrap s.curCore s.curSlot
    ⟨cause, .p, 0, s.now.text.isSome, s.now.pc, val, s.now.gen, s.now.pc, some bytes⟩)

/-- Some of the registers with these unified numbers are marked. -/
def Ctx.anyMarked (x : Ctx) (us : List Nat) : Bool := us.any x.marked

/-! ### Vector and mask registers (R169, R193, R319) -/

/-- The control context of a core whose instruction comes next, outside the text of a code message (R213). -/
def State.control (s : State) : Bool := s.steady && s.curSlot = 1 && s.now.text.isNone

/-- Some lane of width `w` that `sel` selects lies in 32-byte sector `b` of a register. -/
def touches (w : Nat) (sel : Nat → Bool) (b : Nat) : Bool := (List.range (laneCount w)).any fun j => sel j && w * j / 256 = b

/-- Instruction `i` completes and changes one vector register: `d` holds `tag`, the scale slots `slots`, and in lane `j` what `new j`
says; a lane without a new value keeps its data when the tag has stayed, and is zero otherwise. Sector `b` is marked when
`fresh b` says so, or when it was and keeps a lane. `fl` is ORed into FPSTAT, and `p` tells whether something marked was read. Of the core nothing
changes that `hide` does not hide. -/
def LanesIn (hide : Core → Core) (i : Instr) (bytes : Nat) (d : VReg) (tag : BitVec 6) (w : Nat) (slots : Nat → Nat) (new : Nat → Option Nat)
    (fresh : Nat → Bool) (p : Bool) (fl : Flags) (s : State) : Prop :=
  let old := s.here.vreg d.toNat
  ∃ t, exec i s = .next t ∧ SameOutside hide id s t ∧ (∀ k, t.peek k = s.peek k) ∧
    (∀ r : VReg, r ≠ d → t.here.vreg r.toNat = s.here.vreg r.toNat) ∧
    (let y := t.here.vreg d.toNat
     y.tag = tag ∧ (∀ b < 16, slotOf y.side b = slots b) ∧
       (∀ j < laneCount w, lane w y.data j = match new j with
         | some x => x % 2 ^ w
         | none => if old.tag = tag then lane w old.data j else 0) ∧
       ∀ b < 8, y.marks.getLsbD b =
         (fresh b || (old.tag = tag && touches w (fun j => (new j).isNone) b && old.marks.getLsbD b))) ∧
    t.now.fpstat = s.now.fpstat ||| fl.setWidth 64 ∧ Counted s.now t.now p ∧ GoesOn s.now t.now bytes ∧
    ({ t.now.aside with fpstat := 0 } : Ctx) = { s.now.aside with fpstat := 0 }

/-- The same where nothing of the core changes but its vector registers. -/
def LanesV (i : Instr) (bytes : Nat) (d : VReg) (tag : BitVec 6) (w : Nat) (slots : Nat → Nat) (new : Nat → Option Nat)
    (fresh : Nat → Bool) (p : Bool) (fl : Flags) (s : State) : Prop :=
  LanesIn (fun k => { k with v := [] }) i bytes d tag w slots new fresh p fl s

/-- A lane-wise instruction under mask `k` (R319): the lanes that the mask selects receive `f`, with the flags of all of them; it reads
the vector registers `xs` and the registers with the unified numbers `us`. -/
def LaneWise (i : Instr) (d : VReg) (tag : BitVec 6) (w : Nat) (k : KReg) (xs : List VRegState) (us : List Nat) (f : Nat → Res)
    (s : State) : Prop :=
  let sel (j : Nat) : Bool := (s.here.mask k.toNat).getLsbD j
  let scalar := s.now.anyMarked (uK k :: us)
  let from_ (b : Nat) : Bool := touches w sel b && xs.any fun x => x.marks.getLsbD b
  LanesV i 8 d tag w (slotOf (s.here.vreg d.toNat).side) (fun j => if sel j then some (f j).1 else none)
    (fun b => touches w sel b && scalar || from_ b) (scalar || (List.range 8).any from_)
    ((List.range (laneCount w)).foldl (fun a j => if sel j then a ||| (f j).2 else a) 0) s

/-- A permutation or a conversion under mask `k` (R193, R326, R327): a mark among the sources' sectors that `reads` names marks the
whole destination. -/
def WholeV (i : Instr) (d : VReg) (tag : BitVec 6) (w : Nat) (us : List Nat) (xs : List VRegState) (reads : Nat → Bool)
    (slots : Nat → Nat) (new : Nat → Option Res) (s : State) : Prop :=
  let p := s.now.anyMarked us || (List.range 8).any fun b => reads b && xs.any fun x => x.marks.getLsbD b
  LanesV i 8 d tag w slots (fun j => (new j).map (·.1)) (fun _ => p) p
    ((List.range (laneCount w)).foldl (fun a j => match new j with | some r => a ||| r.2 | none => a) 0) s

/-- Instruction `i` completes and writes one mask register with the bits `f` and the mark `p`; k0 never changes. -/
def WritesK (i : Instr) (d : KReg) (f : Nat → Bool) (p : Bool) (fl : Flags) (s : State) : Prop :=
  ∃ t, exec i s = .next t ∧ SameOutside (fun k => { k with k := [] }) id s t ∧ (∀ k, t.peek k = s.peek k) ∧
    (∀ r : KReg, ∀ j < 512, (t.here.mask r.toNat).getLsbD j = if r = d ∧ d ≠ 0 then f j else (s.here.mask r.toNat).getLsbD j) ∧
    (∀ r : KReg, r ≠ 0 → t.now.marked (uK r) = if r = d then p else s.now.marked (uK r)) ∧
    (∀ r : GReg, t.now.readG r.toNat = s.now.readG r.toNat) ∧ (∀ r : PReg, t.now.readP r.toNat = s.now.readP r.toNat) ∧
    t.now.fpstat = s.now.fpstat ||| fl.setWidth 64 ∧ Counted s.now t.now p ∧ GoesOn s.now t.now 8 ∧
    ({ t.now.aside with marks := [], fpstat := 0 } : Ctx) = { s.now.aside with marks := [], fpstat := 0 }

/-! ### Memory -/

/-- No watchpoint of core `c` selects any kind of access (R203). -/
def State.unwatched (s : State) (c : Nat) : Bool :=
  (List.range 4).all fun i => bits (Assoc.get Watch.reset (s.core c).watches i).ctl 3 0 = 0

/-- An access of `n` bytes at `va` by the context whose turn it is reaches the scratchpad of a core, or a scratch way, at `key`
(R127, R128): the keys of its bytes are `ks`, the field's routes lead there, no fence cuts it off, and no watchpoint looks on. -/
def State.reachesLocal (s : State) (va : Ptr) (n : Nat) (k : Access) (ks : List Nat) : Prop :=
  ∃ key, s.locate s.curCore s.curSlot va.toNat n k = (.at_ key, s) ∧ 3 ≤ keySpace key ∧ ks = s.keysOf key n ∧ ks.Nodup ∧
    (ks.all fun a => 3 ≤ keySpace a && !s.keyFenced a && s.wayTo s.curCore a) = true ∧ s.unwatched s.curCore = true ∧
    s.unwatched (keyCore (ks.headD 0)) = true

/-- No budget holds the context's traffic back (R71). -/
def State.unlimited (s : State) : Prop :=
  s.curSlot = 0 ∨ (s.here.dramLim = 0xFFFF_FFFF ∧ s.here.injLim = 0xFFFF_FFFF ∧ s.here.governor = [])

/-- No budget holds the context's accesses to some keys back: none is limited, or the keys lie in the scratchpad of its own core, for which nothing
leaves the router. -/
def State.unheld (s : State) (ks : List Nat) : Prop := s.unlimited ∨ ∀ k ∈ ks, keySpace k = 3 ∧ keyCore k = s.curCore

/-- The routes of a core's field lead to every router and back (R65). -/
def State.allOpen (s : State) : Prop := ∀ r, s.meshOpen s.curCore r = true

/-- An access of `n` bytes at `va` by the context whose turn it is reaches memory of this device at the keys `ks`, through its field's tables: the host
holds no line of the device, every route leads on, and no watchpoint of the core looks on. -/
def State.reachesDevice (s : State) (va : Ptr) (n : Nat) (k : Access) (ks : List Nat) : Prop :=
  ∃ key u, s.locate s.curCore s.curSlot va.toNat n k = (.at_ key, u) ∧ keySpace key = 0 ∧ ks = (List.range n).map (key + ·) ∧
    s.directory = [] ∧ s.biPending = [] ∧ s.allOpen ∧ s.unwatched s.curCore = true

/-- Local space, or memory of this device. -/
def State.reaches (s : State) (va : Ptr) (n : Nat) (k : Access) (ks : List Nat) : Prop :=
  s.reachesLocal va n k ks ∨ s.reachesDevice va n k ks

/-- The order asks for no move: it is relaxed, or there is nothing to be made visible. -/
def State.unordered (s : State) (o : Ord) : Prop := o = .rlx ∨ s.settled s.curCore s.curSlot = true

/-- What the context whose turn it is sees at a key of local space: its own youngest store, or memory (R145). -/
def State.sees (s : State) (k : Nat) : Byte × Bool := (sbByte s.now.sb k).getD (s.peek k, s.poisoned k)

/-- Ext(x, TY) of a value of Width(TY) bits (R189, R230): sign- or zero-extended to 64 bits. -/
def extended (ty : Ty) (v : BitVec ty.width) : Word := if signed ty then v.signExtend 64 else v.setWidth 64

end Sys2Proof.Machine
end

