-- ==== Sys2Proof/Certificates/Slice0/Obligations.lean ====
section
/-! DEFINITION. The statements for the provers. Every one is a property of the model for all states and operands that meet its
hypotheses; its docstring names the rules of spec/ it rests on. A clause that speaks of an event of the agenda (log entry 1) is about
the model's form of the step that spec/95 names. -/

open Sys2Proof Sys2Proof.Machine

/-! ### Integer instructions (R189, R253 to R257) -/

/-- The result of an integer instruction of two sources, on the values of Width(TY) bits (R253): sums, products, quotients. -/
def intArith (op : AluOp) (ty : Ty) (x y : BitVec ty.width) : BitVec ty.width :=
  let wide (v : BitVec ty.width) : BitVec (2 * ty.width) := if signed ty then v.signExtend _ else v.setWidth _
  let less (a b : BitVec ty.width) : Bool := if signed ty then a.slt b else a.ult b
  match op with
  | .add => x + y
  | .sub => x - y
  | .mul => x * y
  | .mulh => (wide x * wide y).extractLsb' ty.width ty.width
  | .div => if y = 0 then BitVec.allOnes _ else if signed ty then x.sdiv y else x / y
  | .rem => if y = 0 then x else if signed ty then x.srem y else x % y
  | .and_ => x &&& y
  | .or_ => x ||| y
  | .xor_ => x ^^^ y
  | .andn => x &&& ~~~y
  | .shl => x <<< (y.toNat % ty.width)
  | .shr => x >>> (y.toNat % ty.width)
  | .sar => x.sshiftRight (y.toNat % ty.width)
  | .rol => x.rotateLeft (y.toNat % ty.width)
  | .min_ => if less y x then y else x
  | .max_ => if less x y then y else x
  | .slt => if less x y then 1 else 0
  | .seq => if x = y then 1 else 0
  | .sne => if x = y then 0 else 1

/-- The low Width(TY) bits of a register. -/
def low (ty : Ty) (x : Word) : BitVec ty.width := x.setWidth ty.width

/-- R253: an ALU instruction of two sources writes Ext of its result on the low Width(TY) bits of A and B to D, on every
context that may issue, and changes nothing else; a marked source marks D. -/
def Obligations.AluResult : Prop :=
  ∀ s : State, s.steady = true → ∀ (ty : Ty) (d a b : GReg),
    let w (op : AluOp) (i : Instr) : Prop :=
      WritesG i 8 d (extended ty (intArith op ty (low ty (s.now.readG a.toNat)) (low ty (s.now.readG b.toNat))))
        (s.now.anyMarked [uG a, uG b]) 0 s
    w .add (.add ty d a b) ∧ w .sub (.sub ty d a b) ∧ w .mul (.mul ty d a b) ∧ w .mulh (.mulh ty d a b) ∧ w .div (.div ty d a b) ∧
      w .rem (.rem ty d a b) ∧ w .and_ (.and ty d a b) ∧ w .or_ (.or ty d a b) ∧ w .xor_ (.xor ty d a b) ∧
      w .andn (.andn ty d a b) ∧ w .shl (.shl ty d a b) ∧ w .shr (.shr ty d a b) ∧ w .sar (.sar ty d a b) ∧
      w .rol (.rol ty d a b) ∧ w .min_ (.min ty d a b) ∧ w .max_ (.max ty d a b) ∧ w .slt (.slt ty d a b) ∧
      w .seq (.seq ty d a b) ∧ w .sne (.sne ty d a b)

/-- R255, R257: an instruction with an immediate does what the two-source instruction does with the sign-extended immediate as b. -/
def immediateResult : Prop :=
  ∀ s : State, s.steady = true → ∀ (ty : Ty) (d a : GReg) (m : BitVec 24) (n : BitVec 32),
    let w (bytes : Nat) (op : AluOp) (b : Word) (i : Instr) : Prop :=
      WritesG i bytes d (extended ty (intArith op ty (low ty (s.now.readG a.toNat)) (low ty b))) (s.now.anyMarked [uG a]) 0 s
    let short := w 8
    let m64 : Word := m.signExtend 64
    let n64 : Word := n.signExtend 64
    short .add m64 (.aluiAdd ty d a m) ∧ short .and_ m64 (.aluiAnd ty d a m) ∧ short .or_ m64 (.aluiOr ty d a m) ∧
      short .xor_ m64 (.aluiXor ty d a m) ∧ short .shl m64 (.aluiShl ty d a m) ∧ short .shr m64 (.aluiShr ty d a m) ∧
      short .sar m64 (.aluiSar ty d a m) ∧ short .rol m64 (.aluiRol ty d a m) ∧ short .min_ m64 (.aluiMin ty d a m) ∧
      short .max_ m64 (.aluiMax ty d a m) ∧ short .slt m64 (.aluiSlt ty d a m) ∧ short .seq m64 (.aluiSeq ty d a m) ∧
      short .sne m64 (.aluiSne ty d a m) ∧ w 12 .add n64 (.addl ty d a n) ∧ w 12 .and_ n64 (.andl ty d a n) ∧
      w 12 .or_ n64 (.orl ty d a n) ∧ w 12 .xor_ n64 (.xorl ty d a n) ∧
      WritesG (.li ty d m) 8 d (extended ty (low ty m64)) false 0 s ∧
      WritesG (.lil ty d n) 12 d (extended ty (low ty n64)) false 0 s ∧
      WritesG (.lih d a n) 12 d (n ++ (s.now.readG a.toNat).setWidth 32) (s.now.anyMarked [uG a]) 0 s

/-- R254: counts, the bit field, the selection and the copy. -/
def unaryResult : Prop :=
  ∀ s : State, s.steady = true → ∀ (ty : Ty) (d a b c : GReg),
    let x := s.now.readG a.toNat
    let y := s.now.readG b.toNat
    let z := s.now.readG c.toNat
    let v := low ty x
    let mark := s.now.anyMarked [uG a]
    let pos := y.toNat % 64
    let len := min (z.toNat % 128) (64 - pos)
    let f : BitVec len := (x >>> pos).setWidth len
    WritesG (.clz ty d a) 8 d (BitVec.ofNat 64 ((List.range ty.width).findIdx fun i => v.getMsbD i)) mark 0 s ∧
      WritesG (.ctz ty d a) 8 d (BitVec.ofNat 64 ((List.range ty.width).findIdx fun i => v.getLsbD i)) mark 0 s ∧
      WritesG (.popc ty d a) 8 d (BitVec.ofNat 64 ((List.range ty.width).countP fun i => v.getLsbD i)) mark 0 s ∧
      WritesG (.mov ty d a) 8 d (extended ty v) mark 0 s ∧
      WritesG (.ext ty d a b c) 8 d (if signed ty then f.signExtend 64 else f.setWidth 64) (s.now.anyMarked [uG a, uG b, uG c]) 0 s ∧
      WritesG (.sel ty d a b c) 8 d (extended ty (low ty (if z ≠ 0 then x else y))) (s.now.anyMarked [uG a, uG b, uG c]) 0 s

/-- Immediate forms, counts, bit field, selection and copy of the ALU. -/
def Obligations.ImmediateUnaryResult : Prop := immediateResult ∧ unaryResult


/-- A condition between two pointers, which are never unordered (R220, R260). -/
def pointersMeet (c : Cond) (p q : Ptr) : Bool :=
  match c with
  | .eq => p = q
  | .ne => p ≠ q
  | .lt => p.ult q
  | .le => p.ule q
  | .gt => q.ult p
  | .ge => q.ule p
  | .un => false

/-- R258 to R260: the pointer instructions, modulo 2^72. -/
def Obligations.PointerResult : Prop :=
  ∀ s : State, s.steady = true → ∀ (d a b : PReg) (e f : GReg) (m : BitVec 24) (n : BitVec 32) (off : BitVec 21) (hi : Byte) (c : Cond),
    let p := s.now.readP a.toNat
    let q := s.now.readP b.toNat
    let g := s.now.readG f.toNat
    WritesP (.padd d a f) 8 d (p + g.signExtend 72) (s.now.anyMarked [uP a, uG f]) s ∧
      WritesP (.paddi d a m) 8 d (p + m.signExtend 72) (s.now.anyMarked [uP a]) s ∧
      WritesP (.paddl d a n) 12 d (p + n.signExtend 72) (s.now.anyMarked [uP a]) s ∧
      WritesP (.plea d a off) 8 d (p + off.signExtend 72) (s.now.anyMarked [uP a]) s ∧
      WritesP (.pmov d true f) 8 d (s.now.pc.extractLsb' 64 8 ++ g) (s.now.anyMarked [uG f]) s ∧
      WritesP (.pmov d false (a.setWidth 5)) 8 d p (s.now.anyMarked [uP a]) s ∧
      WritesP (.ploc d hi n) 12 d (0xFF#8 ++ 0#24 ++ hi ++ n) false s ∧
      WritesG (.psub e a b) 8 e ((p - q).setWidth 64) (s.now.anyMarked [uP a, uP b]) 0 s ∧
      WritesG (.plo e a) 8 e (p.setWidth 64) (s.now.anyMarked [uP a]) 0 s ∧
      WritesG (.phi e a) 8 e ((p >>> 64).setWidth 64) (s.now.anyMarked [uP a]) 0 s ∧
      WritesG (.pcmp c e a b) 8 e
        (if pointersMeet c p q then 1 else 0) (s.now.anyMarked [uP a, uP b]) 0 s

/-- R262 to R267: a floating-point instruction rounds its exact result once by Mode(Q) and the draw of index 0, and sets its
flags; the results of `fmin`, `fmax`, the sign instructions and `fclass` are exact. -/
def Obligations.FloatResult : Prop :=
  ∀ s : State, s.steady = true → ∀ (ty sty : Ty) (q : FQ) (cond : Cond) (d a b c : GReg) (lit : BitVec 32),
    let n (r : GReg) : Nat := (s.now.readG r.toNat).toNat % 2 ^ ty.width
    let v (r : GReg) : Val := value ty (n r)
    let rd := s.now.rounding q 0
    let ab := s.now.anyMarked [uG a, uG b]
    let abc := s.now.anyMarked [uG a, uG b, uG c]
    let one := s.now.anyMarked [uG a]
    let w (r : Res) (p : Bool) (i : Instr) : Prop := WritesG i 8 d (BitVec.ofNat 64 r.1) p r.2 s
    let round (e : Exact) : Res := roundExact ty rd e
    let exact (e : Exact) : Res := roundExact ty ⟨.rne, false, 0⟩ e
    let src := value sty ((s.now.readG a.toNat).toNat % 2 ^ sty.width)
    let cv := roundTo ty rd src
    w (round (addV rd.rm (v a) (v b))) ab (.fadd ty q d a b) ∧ w (round (addV rd.rm (v a) (v b).neg)) ab (.fsub ty q d a b) ∧
      w (round (mulV (v a) (v b))) ab (.fmul ty q d a b) ∧ w (round (divV (v a) (v b))) ab (.fdiv ty q d a b) ∧
      w (round (fmaV rd.rm (v a) (v b) (v c))) abc (.fma ty q d a b c) ∧
      w (round (fmaV rd.rm (v a).neg (v b) (v c))) abc (.fnma ty q d a b c) ∧ w (round (sqrtV (v a))) one (.fsqrt ty q d a) ∧
      w (exact (pickV false (v a) (v b))) ab (.fmin ty d a b) ∧ w (exact (pickV true (v a) (v b))) ab (.fmax ty d a b) ∧
      w (withSign ty (n a) false) one (.fabs ty d a) ∧ w (withSign ty (n a) (!signBit ty (n a))) one (.fneg ty d a) ∧
      w ((withSign ty (n a) (signBit ty (n b))).1, (withSign ty (n a) (signBit ty (n b))).2 ||| nvOf [v b]) ab (.fsgn ty d a b) ∧
      w (if (fcmpV cond (v a) (v b)).1 then 1 else 0, (fcmpV cond (v a) (v b)).2) ab (.fcmp ty cond d a b) ∧
      WritesG (.fcvt ty sty q d a) 8 d (if ty.isInt then extended ty (BitVec.ofNat _ cv.1) else BitVec.ofNat 64 cv.1) one (cv.2 ||| nvOf [src]) s ∧
      w (2 ^ classOf ty (n a), 0) one (.fclass ty d a) ∧
      WritesG (.fmovi ty d lit) 12 d (BitVec.ofNat 64 (roundTo ty ⟨.rne, false, 0⟩ (decodeFmt (fmtOf .f32) lit.toNat)).1) false 0 s

/-! ### Branches, jumps and loops (R212, R268 to R272) -/

/-- R268: a branch compares the low Width(TY) bits of its sources and goes to the address of the instruction plus four times the
immediate; it changes nothing else. -/
def branchResult : Prop :=
  ∀ s : State, s.steady = true → ∀ (ty : Ty) (h : BrHint) (a b : GReg) (n : BitVec 6) (m : BitVec 24),
    let x := low ty (s.now.readG a.toNat)
    let y := low ty (s.now.readG b.toNat)
    let less : Bool := if signed ty then x.slt y else x.ult y
    let to_ := s.now.pc + m.signExtend 72 * 4
    let ab := s.now.anyMarked [uG a, uG b]
    let one := s.now.anyMarked [uG a]
    Moves (.beq ty h a b m) 8 (x = y) to_ ab s ∧ Moves (.bne ty h a b m) 8 (x ≠ y) to_ ab s ∧
      Moves (.blt ty h a b m) 8 less to_ ab s ∧ Moves (.bge ty h a b m) 8 (¬less) to_ ab s ∧
      Moves (.bz ty h a m) 8 (x = 0) to_ one s ∧ Moves (.bnz ty h a m) 8 (x ≠ 0) to_ one s ∧
      Moves (.bbs h a n m) 8 ((s.now.readG a.toNat).getLsbD n.toNat) to_ one s ∧
      Moves (.bbc h a n m) 8 (¬(s.now.readG a.toNat).getLsbD n.toNat) to_ one s

/-- R212, R269: a jump leaves the loop levels as they are and changes no register but the link register of a call; outside the text
of a code message a jump through a register needs bits 1:0 of its target zero. -/
def jumpResult : Prop :=
  ∀ s : State, s.steady = true → ∀ (a : PReg) (m : BitVec 24) (n : BitVec 32),
    Moves (.j m) 8 True (s.now.pc + m.signExtend 72 * 4) false s ∧ Moves (.jl n) 12 True (s.now.pc + n.signExtend 72 * 4) false s ∧
      Calls (.call m) (s.now.pc + m.signExtend 72 * 4) (s.now.pc + 8) false s ∧
      (s.now.text = none → s.now.readP a.toNat % 4 = 0 →
        Moves (.jr a) 8 True (s.now.readP a.toNat) (s.now.anyMarked [uP a]) s ∧
          Calls (.callr a) (s.now.readP a.toNat) (s.now.pc + 8) (s.now.anyMarked [uP a]) s) ∧
      (s.now.text = none → s.now.readP 15 % 4 = 0 → Moves .ret 8 True (s.now.readP 15) (s.now.anyMarked [uP 15]) s)

/-- Branches and jumps: condition, target, link register, and what stays. -/
def Obligations.BranchJumpResult : Prop := branchResult ∧ jumpResult


/-- R270 to R273: `loop` and `loopi` with a count other than zero open level 0, or level 1 inside it; a level 1 whose end lies behind that of level 0
takes LOOP_OVERFLOW with its end as TRAPVAL; a count of zero goes behind the instruction at the loop's end; `lexit` closes the innermost level. -/
def Obligations.LoopResult : Prop :=
  ∀ s : State, s.steady = true → ∀ (a : GReg) (m : BitVec 24) (c : BitVec 32),
    let e := s.now.pc + m.signExtend 72 * 4
    let one := s.now.anyMarked [uG a]
    let stop := inRegion s.now.pc s.now.loop0.stop
    let opens (bytes : Nat) (c : BitVec 32) (i : Instr) (p : Bool) : Prop :=
      let l : LoopLevel := ⟨true, s.now.pc + BitVec.ofNat 72 bytes, e, c⟩
      (c ≠ 0 → s.now.loop0.active = false → SetsLoops i bytes l s.now.loop1 p s) ∧
        (c ≠ 0 → s.now.loop0.active = true → s.now.loop1.active = false → e ≤ stop → SetsLoops i bytes s.now.loop0 l p s) ∧
        (c ≠ 0 → s.now.loop0.active = true → s.now.loop1.active = false → stop < e → Traps i bytes .loopOverflow (e.setWidth 64) s) ∧
        (∀ w room u, c = 0 → s.fetchAt s.curCore s.curSlot e = (.code w room, u) →
          ∃ t, exec i s = .next t ∧ GoesTo s.now t.now (e + BitVec.ofNat 72 (lenBytes (BitVec.ofNat 2 w))))
    opens 8 ((s.now.readG a.toNat).setWidth 32) (.loop a m) one ∧ opens 12 c (.loopi c m) false ∧
      SetsLoops .lexit 8 (if s.now.loop1.active then s.now.loop0 else { s.now.loop0 with active := false })
        { s.now.loop1 with active := false } false s

/-! ### Which contexts may issue what, and the traps of R213 -/

/-- The instructions that only the supervisor may issue (R354). -/
def supervisorOnly : Instr → Bool
  | .eretResume _ _ | .eretSkip _ | .eretForward _ | .eretEnd _ | .idle _ _ | .tlbinv _ _ _ | .pair _ | .unpair _ | .haltx _
  | .resumex _ | .stepx _ _ => true
  | _ => false

/-- The instructions that only a control context may issue: those that name a vector, mask or accumulator register (R213). -/
def controlOnly : Instr → Bool
  | .aopen _ _ _ | .aclose _ | .vadd _ _ _ _ _ _ | .vsub _ _ _ _ _ _ | .vmul _ _ _ _ _ _ | .vdiv _ _ _ _ _ _ | .vfma _ _ _ _ _ _ _
  | .vfnma _ _ _ _ _ _ _ | .vmin _ _ _ _ _ | .vmax _ _ _ _ _ | .vabs _ _ _ _ | .vneg _ _ _ _ | .vand _ _ _ _ _ | .vor _ _ _ _ _
  | .vxor _ _ _ _ _ | .vshl _ _ _ _ _ | .vshr _ _ _ _ _ | .vsar _ _ _ _ _ | .vmov _ _ _ | .vbcast _ _ _ _ | .vsel _ _ _ _ _
  | .vidx _ _ _ _ | .vclamp _ _ _ _ _ _ | .vcmp _ _ _ _ _ _ | .kand _ _ _ | .kor _ _ _ | .kxor _ _ _ | .knot _ _ | .kpop _ _
  | .kset _ _ _ | .kget _ _ _ | .vexp2 _ _ _ _ _ | .vlog2 _ _ _ _ _ | .vrcp _ _ _ _ _ | .vrsqrt _ _ _ _ _ | .vsqrt _ _ _ _ _
  | .vsinpi _ _ _ _ _ | .vcospi _ _ _ _ _ | .vtanh _ _ _ _ _ | .vsigm _ _ _ _ _ | .verf _ _ _ _ _ | .vrsum _ _ _ _ _
  | .vrmax _ _ _ _ | .vrmin _ _ _ _ | .vperm _ _ _ _ _ | .vrotl _ _ _ _ _ | .vzip _ _ _ _ _ _ | .vunzip _ _ _ _ _ _
  | .vext _ _ _ _ | .vins _ _ _ _ | .vcvt _ _ _ _ _ _ _ | .vqnt _ _ _ _ _ _ | .vdqnt _ _ _ _ _ _ | .vretag _ _ _ | .vtag _ _
  | .vld _ _ _ _ _ _ _ | .vst _ _ _ _ _ _ _ | .vlds _ _ _ _ _ _ | .vsts _ _ _ _ _ _ | .vgath _ _ _ _ _ _ | .vscat _ _ _ _ _ _
  | .vstp _ _ _ _ | .vldw _ _ _ _ _ _ | .tlda _ _ _ _ _ _ | .tsta _ _ _ _ _ _ | .vldsc _ _ _ _ _ | .vstsc _ _ _ _ _ => true
  | _ => false

/-- The instructions of group MTX, which a job with NOMATRIX may not issue (R213, R335). -/
def matrixOnly : Instr → Bool
  | .mbegin _ | .mend | .mma _ _ _ _ _ | .mzero _ | .mst _ _ _ _ _ _ | .mld _ _ _ _ | .mldt _ _ _ _ | .manch _ _ _ | .mwait => true
  | _ => false

/-- R213, R354: a context other than the supervisor that issues a supervisor instruction takes PRIVILEGE with the first 64 bits of
the instruction as TRAPVAL, a context other than the control context that issues a vector, mask, accumulator or matrix
instruction takes ENGINE_NOT_OWNED, and a matrix instruction of a job with NOMATRIX takes MATRIX_UNDECLARED. In the text of a
code message all of them take ILLEGAL_INSTRUCTION (R291). No trap is taken before the values of earlier atomics have come (R25). -/
def Obligations.IssueChecks : Prop :=
  ∀ (i : Instr) (s : State), s.now.lates = [] →
    (supervisorOnly i = true → s.curSlot ≠ 0 → s.now.text = none → Traps i (instrBytes i) .privilege (instrLow i) s) ∧
      (controlOnly i = true ∨ matrixOnly i = true → s.curSlot ≠ 1 → s.now.text = none →
        Traps i (instrBytes i) .engineNotOwned (instrLow i) s) ∧
      (matrixOnly i = true → s.curSlot = 1 → s.now.text = none → (s.jobOf s.curCore).any Job.noMatrix = true →
        Traps i (instrBytes i) .matrixUndeclared (instrLow i) s) ∧
      (supervisorOnly i = true ∨ controlOnly i = true ∨ matrixOnly i = true → s.now.text ≠ none →
        Traps i (instrBytes i) .illegalInstruction (instrLow i) s)

/-- R223, R224, R354: `udf` and the encodings that are no instruction always trap; a 4-byte encoding that is no fill word takes
ILLEGAL_LENGTH with its 32 bits as TRAPVAL. -/
def illegalTraps : Prop :=
  ∀ s : State, s.steady = true → ∀ (d a b : BitVec 6) (ty q : BitVec 4) (m : BitVec 24) (w : Word),
    Traps (.udf d a b ty q m) 8 .illegalInstruction (m ++ q ++ ty ++ 0#6 ++ b ++ a ++ d ++ 0#8) s ∧
      Traps (.illegalInstruction .instruction w) (lenBytes (w.extractLsb' 0 2)) .illegalInstruction w s ∧
      Traps (.illegalInstruction .length w) (lenBytes (w.extractLsb' 0 2)) .illegalLength ((w.setWidth 32).setWidth 64) s

/-- R212, R253, R270, R274, R291: instructions that trap on their operands, before any effect. -/
def operandTraps : Prop :=
  ∀ s : State, s.steady = true → ∀ (a b : PReg) (e : GReg) (m : BitVec 24) (off : BitVec 21) (ty : Ty) (q : MQ),
    let p := s.now.readP a.toNat
    let va := s.now.readP b.toNat + off.signExtend 72
    (s.now.text = none → p.toNat % 4 ≠ 0 → Traps (.jr a) 8 .misaligned (p.setWidth 64) s ∧ Traps (.callr a) 8 .misaligned (p.setWidth 64) s) ∧
      (s.now.text ≠ none → Traps (.jr a) 8 .permission (p.setWidth 64) s) ∧
      ((s.now.readG e.toNat).setWidth 32 ≠ 0#32 → s.now.loop0.active = true → s.now.loop1.active = true →
        Traps (.loop e m) 8 .loopOverflow ((s.now.pc + m.signExtend 72 * 4).setWidth 64) s) ∧
      (va.toNat % (ty.width / 8) ≠ 0 →
        Traps (.ld ty q e b off) 8 .misaligned (va.setWidth 64) s ∧ Traps (.st ty q b off e) 8 .misaligned (va.setWidth 64) s) ∧
      (va.toNat % 16 ≠ 0 → Traps (.ldp q a b off) 8 .misaligned (va.setWidth 64) s ∧ Traps (.stp q b off a) 8 .misaligned (va.setWidth 64) s)

/-- R195, R354: `chkerr` takes ASYNC_ERROR when a bit of CIR 3:0 is set, with bit 63 and CIR as TRAPVAL; otherwise it does nothing. -/
def checkError : Prop :=
  ∀ s : State, s.steady = true → s.now.text = none →
    (s.now.cir.extractLsb' 0 4 ≠ 0 → Traps .chkerr 8 .asyncError (1#1 ++ 0#31 ++ s.now.cir.setWidth 32) s) ∧
      (s.now.cir.extractLsb' 0 4 = 0 → Moves .chkerr 8 False 0 false s) ∧ Moves .nop 8 False 0 false s

/-- R346, R348: a trap of slots 1 to 11 is recorded and the context keeps its registers and its place; a first trap of slot 0 is
recorded, selected, and continues at KVEC + 0x80. The context keeps its registers, its loops, RETIRED, CIR, SKID and all else but what the
instruction in progress had kept, and nothing of the rest of the machine changes but TRAPCTX. A second trap of slot 0 asks for the reset of
its cell. -/
def Obligations.TrapEntry : Prop :=
  ∀ (s : State) (t : TrapRec),
    let same (u : State) : Prop :=
      SameRegs s.now u.now ∧ u.now.loop0 = s.now.loop0 ∧ u.now.loop1 = s.now.loop1 ∧ u.now.retired = s.now.retired ∧ u.now.cir = s.now.cir ∧
        u.now.skid = s.now.skid ∧ ({ u.now.aside with trap := none } : Ctx) = { s.now.aside with trap := none }
    (s.curSlot ≠ 0 →
      let u := s.takeTrap s.curCore s.curSlot t
      OnlyHere s u ∧ u.now.trap = some t ∧ u.now.pc = s.now.pc ∧ u.now.waiting = none ∧ same u) ∧
      (s.curSlot = 0 → s.now.trap = none →
        let u := s.takeTrap s.curCore 0 t
        u.now.trap = some t ∧ u.now.pc = s.here.kvec.setWidth 72 + 0x80 ∧ u.here.trapSlot = 0 ∧
          SameOutside (fun k => { k with trapSlot := 0 }) id s u ∧ (∀ k, u.peek k = s.peek k) ∧ same u) ∧
      (s.curSlot = 0 → s.now.trap ≠ none → s.takeTrap s.curCore 0 t = s.askCellReset s.curCore)

/-! ### Records and notices (R346 to R355) -/

/-- R349, R354: `trap` completes, and then its trap of kind A is recorded with the sign-extended immediate as TRAPVAL: TRAPPC is the
address of the instruction, and the resume point is where the context goes on. -/
def trapInstruction : Prop :=
  ∀ s : State, s.steady = true → s.now.text = none → s.curSlot ≠ 0 → ∀ m : BitVec 24,
    ∃ t, exec (.trap m) s = .next t ∧ OnlyHere s t ∧ Retires 8 false s t ∧ SameRegs s.now t.now ∧
      t.now.trap = some ⟨.trapInstruction, .a, 0, false, s.now.pc, m.signExtend 64, s.now.gen, t.now.pc, none⟩

/-- chkerr, nop and trap. -/
def Obligations.CheckAndTrap : Prop := checkError ∧ trapInstruction


/-- R351: `eret` with mode RESUME lets the context of the record go on at its resume point; with mode SKIP a precise trap's
instruction counts as completed with no effect, which RETIRED does not count (assumption 68, DEDUCED). The record is gone, and the fetch
buffer of the core is empty. The record of a paired context ends when its last interval has agreed (R201). -/
def recordResume : Prop :=
  ∀ s : State, s.steady = true → s.now.text = none → s.curSlot = 0 → ∀ (a : GReg) (n : Nat) (t : TrapRec),
    (s.now.readG a.toNat).toNat % 256 = n → 1 ≤ n → n ≤ 11 → (s.here.ctx n).trap = some t →
    (n = 1 → s.here.settled 1 = true) →
    let x := s.here.ctx n
    let p := s.now.anyMarked [uG a]
    let ends (i : Instr) (y : Ctx) : Prop :=
      ∃ u, exec i s = .next u ∧ u.ctx s.curCore n = y ∧ u.here.fetchBuf = [] ∧ Retires 8 p s u ∧ SameRegs s.now u.now ∧
        ∀ k, u.peek k = s.peek k
    (∀ step1, ends (.eretResume a step1) { x with pc := t.resume, trap := none, step1 := step1 }) ∧
      (∀ b, t.kind = .p → t.bytes = some b →
        let l := loopBack x.loop0 x.loop1 t.pc (t.pc + BitVec.ofNat 72 b)
        ends (.eretSkip a) { x with loop0 := l.1, loop1 := l.2.1, pc := l.2.2, trap := none }) ∧
      (t.kind ≠ .p ∨ t.bytes = none → ends (.eretSkip a) { x with pc := t.resume, trap := none })

/-- R348, R351: the supervisor's own record, that of slot 0: RESUME lets slot 0 go on at the resume point, SKIP behind a precise trap's instruction,
which RETIRED does not count (assumption 68, DEDUCED), and END and FORWARD only end the record. -/
def ownRecord : Prop :=
  ∀ s : State, s.steady = true → s.now.text = none → s.curSlot = 0 → ∀ (a : GReg) (t : TrapRec),
    (s.now.readG a.toNat).toNat % 256 = 0 → s.now.trap = some t →
    let p := s.now.anyMarked [uG a]
    let ends (i : Instr) (q : Ctx → Prop) : Prop :=
      ∃ u, exec i s = .next u ∧ u.now.trap = none ∧ u.here.fetchBuf = [] ∧ SameRegs s.now u.now ∧ Counted s.now u.now p ∧ q u.now ∧
        SameOutside (fun k => { k with fetchBuf := [] }) id s u ∧ ∀ k, u.peek k = s.peek k
    (∀ step1, ends (.eretResume a step1) fun y => y.pc = t.resume ∧ y.step1 = step1 ∧ y.loop0 = s.now.loop0 ∧ y.loop1 = s.now.loop1) ∧
      (∀ b, t.kind = .p → t.bytes = some b →
        ends (.eretSkip a) fun y => (y.loop0, y.loop1, y.pc) = loopBack s.now.loop0 s.now.loop1 t.pc (t.pc + BitVec.ofNat 72 b)) ∧
      (t.kind ≠ .p ∨ t.bytes = none → ends (.eretSkip a) fun y => y.pc = t.resume) ∧
      ends (.eretEnd a) (GoesOn s.now · 8) ∧ ends (.eretForward a) (GoesOn s.now · 8)

/-- R347, R351, R352: `eret` of 0xFF ends the notice that `idle` delivered last; with mode FORWARD the job's error handler is to start, with the notice
in its first three registers and no weight. -/
def noticeEnds : Prop :=
  ∀ s : State, s.steady = true → s.now.text = none → s.curSlot = 0 → ∀ (a : GReg) (t : Notice),
    (s.now.readG a.toNat).toNat % 256 = 255 → s.here.delivered = some t →
    let p := s.now.anyMarked [uG a]
    let ends (i : Instr) (q : State → Prop) : Prop :=
      ∃ u, exec i s = .next u ∧ u.here.delivered = none ∧ u.here.fetchBuf = [] ∧ SameRegs s.now u.now ∧ Retires 8 p s u ∧ q u ∧
        SameOutside (fun k => { k with fetchBuf := [], delivered := none, starts := [] }) id s u ∧ ∀ k, u.peek k = s.peek k
    (∀ step1, ends (.eretResume a step1) fun u => u.here.starts = s.here.starts) ∧ (ends (.eretSkip a) fun u => u.here.starts = s.here.starts) ∧
      (ends (.eretEnd a) fun u => u.here.starts = s.here.starts) ∧
      (s.jobOf s.curCore = none → ends (.eretForward a) fun u => u.here.starts = s.here.starts) ∧
      ∀ j, s.jobOf s.curCore = some j → ends (.eretForward a) fun u => ∃ st, u.here.starts = s.here.starts ++ [st] ∧ st.role = .error ∧
        st.pc = j.codebase + j.errEntry.setWidth 72 ∧ st.g20 = t.causeWord ∧ st.g21 = t.val ∧ st.g22 = t.pc.setWidth 64 ∧ st.weight = 0

/-- R351, R352: `eret` with mode END of the control context's record frees the control context, and its weight leaves for its domain's home; with mode
FORWARD the job's error handler is to start with the record and that weight. -/
def controlEnds : Prop :=
  ∀ s : State, s.steady = true → s.now.text = none → s.curSlot = 0 → ∀ (a : GReg) (t : TrapRec),
    (s.now.readG a.toNat).toNat % 256 = 1 → (s.here.ctx 1).trap = some t → s.here.settled 1 = true → s.settled s.curCore 1 = true →
    (s.here.ctx 1).replies = [] → s.here.deflected = [] → s.here.pipemap = 0 →
    let x := s.here.ctx 1
    let freed (u : State) : Prop :=
      (u.ctx s.curCore 1).live = false ∧ (u.ctx s.curCore 1).trap = none ∧ u.here.running = none ∧ u.here.fetchBuf = [] ∧
        SameRegs s.now u.now ∧ Retires 8 (s.now.anyMarked [uG a]) s u
    (∃ u, exec (.eretEnd a) s = .next u ∧ freed u ∧
        ∀ h, s.coreOfLid (domLid x.whome) = some h → x.wheld ≠ 0 → s.flight s.curCore h (.weight x.whome x.wheld) ∈ u.net) ∧
      ∀ j, s.jobOf s.curCore = some j → ∃ u, exec (.eretForward a) s = .next u ∧ freed u ∧
        ∃ st, u.here.starts = s.here.starts ++ [st] ∧ st.role = .error ∧ st.pc = j.codebase + j.errEntry.setWidth 72 ∧ st.g20 = t.causeWord ∧
          st.g21 = t.val ∧ st.g22 = t.pc.setWidth 64 ∧ st.weight = x.wheld ∧ st.dom = x.whome

/-- R351, R352: `eret` with mode END ends a helper's context, and its weight leaves for its domain's home; with mode FORWARD the
slot comes to life again as the job's error handler, with the record in g20 to g22 and the context's weight and domain. -/
def recordForward : Prop :=
  ∀ s : State, s.steady = true → s.now.text = none → s.curSlot = 0 → ∀ (a : GReg) (n : Nat) (t : TrapRec),
    (s.now.readG a.toNat).toNat % 256 = n → 2 ≤ n → n ≤ 11 → (s.here.ctx n).trap = some t → s.settled s.curCore n = true →
    (s.here.ctx n).replies = [] → (s.here.ctx n).role ≠ .burst → s.here.deflected = [] →
    let x := s.here.ctx n
    (∃ u, exec (.eretEnd a) s = .next u ∧ (u.ctx s.curCore n).live = false ∧ (u.ctx s.curCore n).trap = none ∧
        (∀ h, s.coreOfLid (domLid x.whome) = some h → x.wheld ≠ 0 → u.net = s.net ++ [s.flight s.curCore h (.weight x.whome x.wheld)]) ∧
        Retires 8 (s.now.anyMarked [uG a]) s u ∧ SameRegs s.now u.now ∧ ∀ k, u.peek k = s.peek k) ∧
      (∀ j, s.jobOf s.curCore = some j →
        ∃ u, exec (.eretForward a) s = .next u ∧ (u.ctx s.curCore n).live = true ∧ (u.ctx s.curCore n).role = .error ∧
          (u.ctx s.curCore n).pc = j.codebase + j.errEntry.setWidth 72 ∧ (u.ctx s.curCore n).readG 20 = t.causeWord ∧
          (u.ctx s.curCore n).readG 21 = t.val ∧ (u.ctx s.curCore n).readG 22 = t.pc.setWidth 64 ∧
          (u.ctx s.curCore n).wheld = x.wheld ∧ (u.ctx s.curCore n).whome = x.whome ∧ (u.ctx s.curCore n).trap = none ∧
          Retires 8 (s.now.anyMarked [uG a]) s u ∧ SameRegs s.now u.now ∧ ∀ k, u.peek k = s.peek k)

/-- eret RESUME, SKIP, END and FORWARD. -/
def Obligations.RecordReturn : Prop := recordResume ∧ ownRecord ∧ noticeEnds ∧ controlEnds ∧ recordForward


/-- R348, R355: `idle` with an outstanding record continues at KVEC with that of the lowest slot selected and D zero; without one it
delivers the oldest notice; with neither, a wake event that has come, be it from before the wait (assumption 66, DEDUCED), ends it with 1 in D. An
`idle` that waits, and latched its timeout when the wait began, goes on the same way, and ends with 2 in D when the timeout has passed. D becomes
0 before A is read (R9). -/
def Obligations.IdleResult : Prop :=
  ∀ s : State, s.now.text = none → s.curSlot = 0 → ∀ (d a : GReg),
    let p := a ≠ d && s.now.anyMarked [uG a]
    -- an idle that begins, and one that waits and has latched its timeout
    let begins : Prop := s.steady = true
    let waits (v : Nat) : Prop := (s.setCtx s.curCore 0 { s.now with stage := 0, latch := 0 }).steady = true ∧ s.now.stage = 1 ∧ s.now.latch = 1024 * v + 32 * a.toNat + d.toNat
    (begins ∨ ∃ v, waits v) →
    (∀ n, s.here.firstRecord = some n →
      ∃ u, exec (.idle d a) s = .next u ∧ GoesTo s.now u.now (s.here.kvec.setWidth 72) ∧ u.here.trapSlot = BitVec.ofNat 8 n ∧
        GWritten s.now u.now d 0 false ∧ Counted s.now u.now p ∧ u.here.notices = s.here.notices ∧ ∀ k, u.peek k = s.peek k) ∧
      (∀ t rest, s.here.firstRecord = none → s.here.notices = t :: rest →
        ∃ u, exec (.idle d a) s = .next u ∧ GoesTo s.now u.now (s.here.kvec.setWidth 72) ∧ u.here.trapSlot = 0xFF ∧
          u.here.delivered = some t ∧ GWritten s.now u.now d 0 false ∧ Counted s.now u.now p ∧ ∀ k, u.peek k = s.peek k) ∧
      (s.here.firstRecord = none → s.here.notices = [] → s.here.wakes ≠ 0 →
        ∃ u, exec (.idle d a) s = .next u ∧ u.here.wakes = 0 ∧ GWritten s.now u.now d 1 false ∧ Retires 8 p s u ∧
          ∀ k, u.peek k = s.peek k) ∧
      (∀ w v, s.here.firstRecord = none → s.here.notices = [] → s.here.wakes = 0 → waits v → s.now.waiting = some w → v ≠ 0 →
        w.since + v ≤ s.cycle →
        ∃ u, exec (.idle d a) s = .next u ∧ OnlyHere s u ∧ GWritten s.now u.now d 2 false ∧ Retires 8 p s u)

/-! ### System registers (R356, R6) -/

/-- The context may reach register `r`. -/
def mayReach (s : State) (r : Reg) : Prop := s.now.text = none ∧ (r.supervisor = true → s.curSlot = 0)

/-- R356: `sysr` writes what the register reads as, `rdcyc` CYCLE; nothing else changes. A number that names no register takes
ILLEGAL_INSTRUCTION, and a supervisor register PRIVILEGE in any context but the supervisor's. -/
def sysRead : Prop :=
  ∀ s : State, s.steady = true → ∀ (d : GReg) (num : BitVec 12),
    (∀ r, regOf num.toNat = some r → mayReach s r → WritesG (.sysr d num) 8 d (s.readReg s.curCore s.curSlot r) false 0 s) ∧
      (s.now.text = none → WritesG (.rdcyc d) 8 d (BitVec.ofNat 64 s.cycle) false 0 s) ∧
      (regOf num.toNat = none → s.now.text = none → Traps (.sysr d num) 8 .illegalInstruction (instrLow (.sysr d num)) s) ∧
      (∀ r, regOf num.toNat = some r → r.supervisor = true → s.curSlot ≠ 0 → s.now.text = none →
        Traps (.sysr d num) 8 .privilege (instrLow (.sysr d num)) s ∧ ∀ a, Traps (.sysw num a) 8 .privilege (instrLow (.sysw num a)) s)

/-- Registers whose write has no other effect and stores all 64 bits, or all bits of the field the mask names. -/
def plainMask : Reg → Option Word
  | .kvec => some 0xFFFFFFFFFFFFFF00
  | .wbase _ | .wmask _ | .wval _ => some 0xFFFFFFFFFFFFFFFF
  | .lease => some 1
  | _ => none

/-- R6, R177, R190, R194, R203, R348, R356: what some registers read as after `sysw`, `sysset` and `sysclr`: RW fields take the
value, sysset and sysclr write the old value to D before they read A, and set or clear bits in one step (R9, R354), flags clear where 1 is written, FPCTL.RM keeps
its value for 6 and 7, and read-only registers do not change. -/
def sysWrite : Prop :=
  ∀ s : State, s.steady = true → ∀ (d a : GReg) (num : BitVec 12) (r : Reg), regOf num.toNat = some r → mayReach s r →
    let v := s.now.readG a.toNat
    let old := s.readReg s.curCore s.curSlot r
    let p := s.now.anyMarked [uG a]
    let from_ := if a = d ∧ d ≠ 0 then old else v
    let wrote (i : Instr) (p : Bool) (new : Word) (keep : Word) : Prop :=
      ∃ t, exec i s = .next t ∧ t.readReg s.curCore s.curSlot r &&& keep = new &&& keep ∧ Retires 8 p s t ∧
        (∀ k, t.peek k = s.peek k)
    let q := a ≠ d && p
    (∀ m, plainMask r = some m →
      wrote (.sysw num a) p v m ∧ wrote (.sysset d num a) q (old ||| from_) m ∧ wrote (.sysclr d num a) q (old &&& ~~~from_) m) ∧
      (r = .fpstat → wrote (.sysw num a) p (old &&& ~~~v) 0x3F ∧ wrote (.sysset d num a) q old 0x3F) ∧
      (r = .fpctl → wrote (.sysw num a) p v 0xFFFFFFFF00000000 ∧
        wrote (.sysw num a) p (if 6 ≤ v.toNat % 8 then old else v) 7) ∧
      (r = .trapctx → wrote (.sysw num a) p v 0xFF) ∧
      (r = .coreid ∨ r = .clpos ∨ r = .fieldpos ∨ r = .jobid ∨ r = .codebase ∨ r = .ctxid ∨ r = .wheld ∨ r = .cycle →
        wrote (.sysw num a) p old 0xFFFFFFFFFFFFFFFF)

/-- R356: `sysset` and `sysclr` write the old value of the register to D. -/
def sysModifyOld : Prop :=
  ∀ s : State, s.steady = true → ∀ (d a : GReg) (num : BitVec 12) (r : Reg), regOf num.toNat = some r → mayReach s r →
    (plainMask r).isSome = true →
    ∃ t u, exec (.sysset d num a) s = .next t ∧ exec (.sysclr d num a) s = .next u ∧
      GWritten s.now t.now d (s.readReg s.curCore s.curSlot r) false ∧ GWritten s.now u.now d (s.readReg s.curCore s.curSlot r) false

/-- Reading and writing system registers, and the traps of those that may not be reached. -/
def Obligations.SystemRegisters : Prop := sysRead ∧ sysWrite ∧ sysModifyOld


/-! ### The supervisor's controls (R198, R206, R207, R357 to R359) -/

/-- R357, R358: `tlbinv`, `pair` and `unpair` complete in the supervisor: `tlbinv` once nothing on the cores that it covers goes on with what
it has translated in a covered page (R139), `pair` always, `unpair` once the hold buffers of both cores are empty (R198). -/
def supervisorCompletes : Prop :=
  ∀ s : State, s.steady = true → s.now.text = none → s.curSlot = 0 → ∀ (a : PReg) (b d : GReg) (dev : Bool),
    ((∀ e ∈ s.cores, s.tlbCores s.curCore dev e.1 = true →
        e.2.usesPage (b = 0) (s.now.readP a.toNat).toNat (s.now.readG b.toNat).toNat = false) →
      ∃ t, exec (.tlbinv a b dev) s = .next t ∧ Retires 8 (s.now.anyMarked [uP a, uG b]) s t) ∧
      (∃ t, exec (.pair d) s = .next t ∧ Retires 8 false s t) ∧
      ((∀ p, s.here.pair = some p → s.here.hold = [] ∧ (s.core p.other).hold = []) →
        ∃ t, exec (.unpair d) s = .next t ∧ Retires 8 false s t)

/-- R139, R357: `tlbinv` removes from its own core every entry that meets the range, or every entry with g0, and keeps the others; a core
that it does not cover keeps all. It completes once nothing on the covered cores goes on with what it has translated there. -/
def tlbInvalidate : Prop :=
  ∀ s : State, s.steady = true → s.now.text = none → s.curSlot = 0 → ∀ (a : PReg) (b : GReg) (dev : Bool),
    (∀ e ∈ s.cores, s.tlbCores s.curCore dev e.1 = true →
      e.2.usesPage (b = 0) (s.now.readP a.toNat).toNat (s.now.readG b.toNat).toNat = false) →
    ∃ t, exec (.tlbinv a b dev) s = .next t ∧ Retires 8 (s.now.anyMarked [uP a, uG b]) s t ∧ SameRegs s.now t.now ∧
      (∀ k, t.peek k = s.peek k) ∧
      (∀ e ∈ t.here.tlb, e ∈ s.here.tlb ∧ b ≠ 0 ∧ e.meets (s.now.readP a.toNat).toNat (s.now.readG b.toNat).toNat = false) ∧
      (∀ e ∈ s.here.tlb, b ≠ 0 → e.meets (s.now.readP a.toNat).toNat (s.now.readG b.toNat).toNat = false → e ∈ t.here.tlb) ∧
      (∀ c, s.tlbCores s.curCore dev c = false → (t.core c).tlb = (s.core c).tlb)

/-- R198, R358: `pair` on an east core writes 1 to D, on a west core whose east partner holds no taken copy 2, on a paired core 3,
and otherwise 0, and then both cores are paired; `unpair` ends the pairing when the hold buffers are empty. -/
def pairResult : Prop :=
  ∀ s : State, s.steady = true → s.now.text = none → s.curSlot = 0 → ∀ d : GReg,
    let e := s.ctx (eastOf s.curCore) 1
    let done (i : Instr) (v : Word) (q : State → Prop) : Prop :=
      ∃ t, exec i s = .next t ∧ GWritten s.now t.now d v false ∧ Retires 8 false s t ∧ (∀ k, t.peek k = s.peek k) ∧ q t
    let other (t : State) := (t.core (eastOf s.curCore)).pair
    (coreX s.curCore % 2 = 1 → done (.pair d) 1 fun t => t.here.pair = s.here.pair) ∧
      (coreX s.curCore % 2 = 0 → s.here.pair = none → e.live = true → e.role = .none →
        done (.pair d) 0 fun t => t.here.pair.map PairState.east = some false ∧ (other t).map PairState.east = some true) ∧
      (coreX s.curCore % 2 = 0 → s.here.pair = none → e.live = false → done (.pair d) 2 fun t => t.here.pair = none) ∧
      (coreX s.curCore % 2 = 0 → s.here.pair ≠ none → done (.pair d) 3 fun t => t.here.pair = s.here.pair) ∧
      (s.here.pair = none → done (.unpair d) 1 fun t => t.here.pair = none) ∧
      (∀ p, s.here.pair = some p → s.here.hold = [] → (s.core p.other).hold = [] → p.other ≠ s.curCore →
        done (.unpair d) 0 fun t => t.here.pair = none ∧ (t.core p.other).pair = none)

/-- tlbinv, pair and unpair complete, and what they change. -/
def Obligations.TlbAndPairing : Prop := supervisorCompletes ∧ tlbInvalidate ∧ pairResult


/-- R206, R207, R359: `haltx` of one slot halts it and withdraws its wait, `resumex` lets a halted slot without a record go on, and
`stepx` on a slot that is not halted writes 3 to D. -/
def haltResult : Prop :=
  ∀ s : State, s.steady = true → s.now.text = none → s.curSlot = 0 → ∀ (d a : GReg) (n : Nat),
    (s.now.readG a.toNat).toNat % 256 = n → 1 ≤ n → n ≤ 11 →
    let x := s.here.ctx n
    let p := s.now.anyMarked [uG a]
    let done (i : Instr) (q : State → Prop) : Prop :=
      ∃ t, exec i s = .next t ∧ Retires 8 p s t ∧ (∀ k, t.peek k = s.peek k) ∧ q t
    (x.halted = false → x.waiting = none →
      done (.haltx a) fun t => (t.ctx s.curCore n) = { x with halted := true, skid := 0, skidLeft := 0 } ∧ SameRegs s.now t.now) ∧
      (∀ w, x.halted = false → x.waiting = some w → x.pastIssue = false →
        done (.haltx a) fun t => (t.ctx s.curCore n).halted = true ∧ (t.ctx s.curCore n).waiting = none ∧
          (t.ctx s.curCore n).pc = x.pc ∧ (t.ctx s.curCore n).retired = x.retired) ∧
      (x.halted = true → x.trap = none → done (.resumex a) fun t => (t.ctx s.curCore n).halted = false ∧ SameRegs s.now t.now) ∧
      (x.halted = false → done (.stepx d a) fun t => GWritten s.now t.now d 3 false ∧ t.ctx s.curCore n = x)

/-- R205, R207, R359: `haltx` and `resumex` of 0xFF name slots 1 to 11: `haltx` halts all of them where they stand and stops the core, and
`resumex` lets every one without an outstanding record go on. A value other than 1 to 11 and 0xFF does nothing. -/
def haltEvery : Prop :=
  ∀ s : State, s.steady = true → s.now.text = none → s.curSlot = 0 → ∀ a : GReg,
    let v := (s.now.readG a.toNat).toNat % 256
    let slot (t : State) (n : Nat) : Ctx := t.ctx s.curCore n
    let done (i : Instr) (q : State → Prop) : Prop :=
      ∃ t, exec i s = .next t ∧ Retires 8 (s.now.anyMarked [uG a]) s t ∧ SameRegs s.now t.now ∧ (∀ k, t.peek k = s.peek k) ∧ q t
    (v = 0xFF →
      (done (.haltx a) fun t => t.here.stopped = true ∧
        ∀ n, 1 ≤ n → n ≤ 11 → (slot t n).halted = true ∧ (slot t n).pc = (slot s n).pc ∧ (slot t n).retired = (slot s n).retired) ∧
      done (.resumex a) fun t => ∀ n, 1 ≤ n → n ≤ 11 → (slot s n).trap = none → (slot t n).halted = false) ∧
    (v = 0 ∨ 11 < v ∧ v ≠ 0xFF →
      (done (.haltx a) fun t => ∀ n, 1 ≤ n → slot t n = slot s n) ∧ done (.resumex a) fun t => ∀ n, 1 ≤ n → slot t n = slot s n)

/-- R206: a `stepx` that has let its slot go ends when the slot's instruction has: 0 in D when it has retired, 1 when it was
withdrawn after its wait, 2 when it has trapped. -/
def stepResult : Prop :=
  ∀ s : State, s.curSlot = 0 → s.now.text = none → s.now.lates = [] → s.now.step1 = false → s.now.after = none → s.now.eaten = 0 → s.now.stage = 1 →
    ∀ (d a : GReg) (n r : Nat) (gen : BitVec 12), s.now.latch = r * 2 ^ 16 + gen.toNat * 16 + n → 1 ≤ n → n ≤ 11 →
    let x := s.here.ctx n
    let done (v : Word) : Prop :=
      ∃ t, exec (.stepx d a) s = .next t ∧ GWritten s.now t.now d v false ∧ Retires 8 (s.now.anyMarked [uG a]) s t
    x.stepping = false → x.live = true → x.gen = gen →
      (x.trap = none → x.retired = r + 1 → done 0) ∧ (x.trap = none → x.retired = r → done 1) ∧ (x.trap ≠ none → done 2)

/-- haltx, resumex and stepx. -/
def Obligations.HaltAndStep : Prop := haltResult ∧ haltEvery ∧ stepResult


/-! ### Loads, stores and atomics (R144 to R162, R274 to R284) -/

/-- R145, R274, R275: a load reads, byte by byte, the context's own youngest store, else the core's first-level cache for device memory, else memory,
lowest address first; it marks its destination when a byte it read was marked. From local space nothing else changes but the injection count of a
core that reads elsewhere (R71). From this device's memory, a relaxed load whose line the cache holds whole in the bytes it reads, or not at all,
may also fill the cache, the TLB and the slices, and reserve pages (R69, R71, R112, R138, R144). -/
def loadLocal : Prop :=
  ∀ s : State, s.steady = true → ∀ (ty : Ty) (m : MQ) (d : GReg) (e b : PReg) (q : BitVec 2) (off : BitVec 21) (ks : List Nat),
    let va := s.now.readP b.toNat + off.signExtend 72
    let loads (bs : List (Byte × Bool)) (n : Nat) (frame : State → Prop) : Prop :=
      let v := bitsOfBytes (bs.map (·.1))
      let mark := bs.any (·.2)
      let eaten := s.now.anyMarked [uP b] || mark
      let done (i : Instr) (q : State → Prop) : Prop := ∃ t, exec i s = .next t ∧ frame t ∧ Retires 8 eaten s t ∧ q t
      (n = ty.width / 8 → done (.ld ty m d b off) fun t =>
        GWritten s.now t.now d (if ty.isInt then extended ty (BitVec.ofNat _ v) else BitVec.ofNat 64 v) mark ∧
          ({ t.now.aside with g := [], marks := [] } : Ctx) = { s.now.aside with g := [], marks := [] }) ∧
        (n = 16 → done (.ldp m e b off) fun t => PWritten s.now t.now e (BitVec.ofNat 72 v) mark ∧
          ({ t.now.aside with p := [], marks := [] } : Ctx) = { s.now.aside with p := [], marks := [] }) ∧
        (n = 64 → done (.ldq8 m q b off) fun t =>
          (∀ i < 8, q.toNat * 8 + i ≠ 0 → t.now.readG (q.toNat * 8 + i) = BitVec.ofNat 64 (v / 2 ^ (64 * i))) ∧
          (∀ r : GReg, r.toNat / 8 ≠ q.toNat → t.now.readG r.toNat = s.now.readG r.toNat) ∧
          (∀ r : PReg, t.now.readP r.toNat = s.now.readP r.toNat))
    -- the bytes of a line that the core's first-level cache holds
    let cached (k : Nat) : Option (Byte × Bool) := (Assoc.find (s.here.line (lineOf k)) (k % 64)).map fun x => (x.val, cvMarked (s.here.line (lineOf k)) (k % 64))
    ∀ n, va.toNat % n = 0 →
      (s.unordered m.ord → s.reachesLocal va n .read ks → s.unheld ks →
        loads (ks.map s.sees) n fun t => SameOutside (fun k => { k with injUse := 0 }) id s t ∧ (∀ k, t.peek k = s.peek k) ∧
          ((∀ k ∈ ks, keySpace k = 3 ∧ keyCore k = s.curCore) → OnlyHere s t)) ∧
      (m.ord = .rlx → n ∈ [1, 2, 4, 8, 16, 64] → s.reachesDevice va n .read ks → s.unlimited →
        (∀ k ∈ ks, (cached k).isSome) ∨ Assoc.find s.here.cv (lineOf (ks.headD 0)) = none →
        loads (ks.map fun k => ((sbByte s.now.sb k).orElse fun _ => cached k).getD (s.peek k, s.poisoned k)) n fun t =>
          SameOutside (fun k => { k with tlb := [], dramUse := 0, injUse := 0, cv := [] }) (fun s => { s with fields := [], slices := [] }) s t ∧
            ∀ k, t.peek k = s.peek k)

/-- R144, R274, R275: a store that is not written through to its scope joins the context's store buffer, youngest last, with its
bytes lowest first and its mark; no byte of memory and no register changes until it drains. The walk of its address may fill the TLB,
take budget, touch slices and reserve pages (R67, R71, R112, R138), and the hint keep pins a line (R69). -/
def storeBuffered : Prop :=
  ∀ s : State, s.steady = true → ∀ (ty : Ty) (m : MQ) (b c : PReg) (a : GReg) (q : BitVec 2) (off : BitVec 21) (key : Nat) (u : State),
    let va := s.now.readP b.toNat + off.signExtend 72
    let reads := s.walkReads s.curCore s.curSlot va.toNat
    let but (f : FieldSt) : FieldSt := { f with job := f.job.map fun j => { j with reserved := [] } }
    let done (i : Instr) (n : Nat) (value : Nat) (mark : Bool) : Prop :=
      s.locate s.curCore s.curSlot va.toNat n .write = (.at_ key, u) → va.toNat % n = 0 →
      ∃ t, exec i s = .next t ∧
        SameOutside (fun k => { k with tlb := [], dramUse := 0, injUse := 0 }) (fun s => { s with fields := [], slices := [] }) s t ∧
        (∀ f, (Assoc.find t.fields f).map but = (Assoc.find s.fields f).map but) ∧ (m.hint ≠ .keep → reads = [] → t.slices = s.slices) ∧
        SameRegs s.now t.now ∧
        t.now.sb = s.now.sb ++ [⟨(u.keysOf key n).zip (bytesOfBits n value), mark, false, false, va.toNat, s.now.pc,
          if keySpace key = 2 then s.portOf key else 0⟩] ∧
        Retires 8 (s.now.anyMarked [uP b] || mark) s t ∧ ∀ k, t.peek k = s.peek k
    s.unordered m.ord → s.unlimited → reads.all (s.wayTo s.curCore) = true → bypasses m.ord m.scope = false → s.unwatched s.curCore = true →
      done (.st ty m b off a) (ty.width / 8) (s.now.readG a.toNat).toNat (s.now.anyMarked [uG a]) ∧
        done (.stp m b off c) 16 (s.now.readP c.toNat).toNat (s.now.anyMarked [uP c]) ∧
        done (.stq8 m b off q) 64 (((List.range 8).map fun i => (s.now.readG (8 * q.toNat + i)).toNat * 2 ^ (64 * i)).sum)
          (s.now.anyMarked ((List.range 8).map fun i => 8 * q.toNat + i))

/-- R149: a store to local space with an order and scope cl or wider writes memory itself: the bytes it stores and no others. -/
def storeThrough : Prop :=
  ∀ s : State, s.steady = true → s.settled s.curCore s.curSlot = true →
    ∀ (ty : Ty) (m : MQ) (b : PReg) (a : GReg) (off : BitVec 21) (ks : List Nat),
    let va := s.now.readP b.toNat + off.signExtend 72
    let n := ty.width / 8
    s.reachesLocal va n .write ks → s.unheld ks → va.toNat % n = 0 → bypasses m.ord m.scope = true →
      ∃ t, exec (.st ty m b off a) s = .next t ∧ ks.map t.peek = bytesOfBits n (s.now.readG a.toNat).toNat ∧
        (∀ k, k ∉ ks → t.peek k = s.peek k) ∧ SameRegs s.now t.now ∧ Retires 8 (s.now.anyMarked [uP b, uG a]) s t

/-- Stores: into the store buffer, or through to memory, and every byte that stays. -/
def Obligations.StoreResult : Prop := storeBuffered ∧ storeThrough


/-- R133, R156, R277: `ldw` on a word whose full bit is set, with no earlier waiter, reads it and clears the bit; `stf` writes a word and sets
its bit, when no context waits for it; when one does, the first that waits for this word receives it, and the bit stays clear. -/
def Obligations.FullBits : Prop :=
  ∀ s : State, s.steady = true → s.settled s.curCore s.curSlot = true →
    ∀ (m : MQ) (d a : GReg) (b : PReg) (off : BitVec 21) (ks : List Nat),
    let va := s.now.readP b.toNat + off.signExtend 72
    let word := ks.headD 0 / 8
    va.toNat % 8 = 0 → (∀ k ∈ ks, keySpace k = 3 ∧ k / 8 = word) → s.unheld ks →
      (s.reachesLocal va 8 .read ks → s.fullBit (ks.headD 0) = true → s.earlierWaiter ks = false →
        ∃ t, exec (.ldw m d b off) s = .next t ∧
          GWritten s.now t.now d (BitVec.ofNat 64 (bitsOfBytes (ks.map s.peek))) (ks.any s.poisoned) ∧
          (∀ k, t.fullBit k = if k / 8 = word then false else s.fullBit k) ∧ (∀ k, t.peek k = s.peek k) ∧
          Retires 8 (s.now.anyMarked [uP b] || ks.any s.poisoned) s t) ∧
      (s.reachesLocal va 8 .write ks → s.waiters (ks.headD 0) = [] →
        ∃ t, exec (.stf m b off a) s = .next t ∧ ks.map t.peek = bytesOfBits 8 (s.now.readG a.toNat).toNat ∧
          (∀ k, k ∉ ks → t.peek k = s.peek k) ∧ (∀ k, t.fullBit k = if k / 8 = word then true else s.fullBit k) ∧
          SameRegs s.now t.now ∧ Retires 8 (s.now.anyMarked [uP b, uG a]) s t) ∧
      (∀ c n x, s.reachesLocal va 8 .write ks → s.firstWaiter (ks.headD 0) = some (c, n, x) → x.awaits = ks →
        ∃ t, exec (.stf m b off a) s = .next t ∧ ks.map t.peek = bytesOfBits 8 (s.now.readG a.toNat).toNat ∧
          (∀ k, k ∉ ks → t.peek k = s.peek k) ∧ (t.ctx c n).grant = some (ks.map fun k => (t.peek k, t.poisoned k)) ∧
          (∀ k, t.fullBit k = if k / 8 = word then false else s.fullBit k) ∧ SameRegs s.now t.now ∧
          Retires 8 (s.now.anyMarked [uP b, uG a]) s t)

/-- R278: `ldt` writes 0 when a load would succeed, and otherwise the code of the trap it would raise. A walk that reads no entry changes nothing
else; one that does is charged, and changes no byte of memory. -/
def probeResult : Prop :=
  ∀ s : State, s.steady = true → ∀ (ty : Ty) (d : GReg) (b : PReg) (off : BitVec 21) (key : Nat) (c : Cause),
    let va := s.now.readP b.toNat + off.signExtend 72
    let n := ty.width / 8
    let p := s.now.anyMarked [uP b]
    let reads := s.walkReads s.curCore s.curSlot va.toNat
    let probed (v : Word) : Prop :=
      ∃ t, exec (.ldt ty d b off) s = .next t ∧ GWritten s.now t.now d v p ∧ Retires 8 p s t ∧ ∀ k, t.peek k = s.peek k
    (va.toNat % n ≠ 0 → WritesG (.ldt ty d b off) 8 d 5 p 0 s) ∧
      (va.toNat % n = 0 → reads = [] → s.locate s.curCore s.curSlot va.toNat n .read = (.at_ key, s) → WritesG (.ldt ty d b off) 8 d 0 p 0 s) ∧
      (va.toNat % n = 0 → reads = [] → s.locate s.curCore s.curSlot va.toNat n .read = (.bad c, s) →
        WritesG (.ldt ty d b off) 8 d (BitVec.ofNat 64 c.code) p 0 s) ∧
      (va.toNat % n = 0 → s.unlimited → s.allOpen → ∀ u,
        (s.locate s.curCore s.curSlot va.toNat n .read = (.at_ key, u) → probed 0) ∧
          (s.locate s.curCore s.curSlot va.toNat n .read = (.bad c, u) → probed (BitVec.ofNat 64 c.code)))

/-- Loads from local space and from the memory of this device, and the probe ldt. -/
def Obligations.LoadResult : Prop := loadLocal ∧ probeResult


/-- R154, R279 to R281: an atomic on local space or on this device's memory replaces the word by its operation on the old value and the operand, in one step,
writes the old value to D (`aacc` writes none), and changes no other byte. -/
def Obligations.AtomicResult : Prop :=
  ∀ s : State, s.steady = true → s.settled s.curCore s.curSlot = true → s.unlimited →
    ∀ (ty : Ty) (o : Ord) (sc : Scope) (d a : GReg) (b : PReg) (off : BitVec 21) (h : BitVec 4) (ks : List Nat),
    let va := s.now.readP b.toNat + off.signExtend 72
    let n := ty.width / 8
    let old : BitVec (8 * n) := BitVec.ofNat _ (bitsOfBytes (ks.map s.peek))
    let x : BitVec (8 * n) := (s.now.readG a.toNat).setWidth _
    let less (u v : BitVec (8 * n)) : Bool := if signed ty then u.sle v else u.ule v
    let done (i : Instr) (us : List Nat) (new : BitVec (8 * n)) : Prop :=
      ∃ t, exec i s = .next t ∧ GWritten s.now t.now d (ext ty old.toNat) (ks.any s.poisoned) ∧
        ks.map t.peek = bytesOfBits n new.toNat ∧ (∀ k, k ∉ ks → t.peek k = s.peek k) ∧
        Retires 8 (s.now.anyMarked (us ++ [uP b, uG a]) || ks.any s.poisoned) s t
    (s.reaches va n .update ks → va.toNat % n = 0 → n ≠ 0 →
      done (.aadd ty o sc d b off a) [] (old + x) ∧ done (.aand ty o sc d b off a) [] (old &&& x) ∧
        done (.aor ty o sc d b off a) [] (old ||| x) ∧ done (.axor ty o sc d b off a) [] (old ^^^ x) ∧
        done (.amin ty o sc d b off a) [] (if less old x then old else x) ∧
        done (.amax ty o sc d b off a) [] (if less old x then x else old) ∧ done (.aswp ty o sc d b off a) [] x ∧
        done (.acas ty o sc d b off a) [uG d] (if old = (s.now.readG d.toNat).setWidth _ then x else old)) ∧
      (s.reaches va 16 .update ks → va.toNat % 16 = 0 →
        ∃ t, exec (.aacc o sc b off h) s = .next t ∧ SameRegs s.now t.now ∧
          ks.map t.peek = bytesOfBits 16 (accMemAdd (bitsOfBytes (ks.map s.peek))
            ((s.now.readG (2 * h.toNat + 1)).toNat * 2 ^ 64 + (s.now.readG (2 * h.toNat)).toNat)) ∧
          (∀ k, k ∉ ks → t.peek k = s.peek k) ∧
          Retires 8 (s.now.anyMarked [uP b, 2 * h.toNat, 2 * h.toNat + 1] || ks.any s.poisoned) s t)

/-- R150: `fence` of every scope completes when nothing is left to be made visible; it then changes no byte of memory and no register. -/
def fenceCompletes : Prop :=
  ∀ s : State, s.steady = true → s.settled s.curCore s.curSlot = true → ∀ sc : Scope,
    ∃ t, exec (.fence sc) s = .next t ∧ Retires 8 false s t ∧ SameRegs s.now t.now ∧ ∀ k, t.peek k = s.peek k

/-- R146, R147, R150: `fence` at cl to nd completes whatever the store buffer and the first-level cache hold, when the host holds no line, no
budget or route holds a request back (R17, R65, R71) and no watchpoint looks on: the context's store buffer is then empty, no line of the
core's first-level cache is dirty or, where the scope covers its memory, present, and the core's fetch buffer is empty (R215). -/
def fenceEmpties : Prop :=
  ∀ s : State, s.steady = true → s.directory = [] → s.biPending = [] → (∀ c, s.unwatched c = true) → s.unlimited →
    (s.curSlot = 0 ∨ s.here.podLim = 0xFFFF_FFFF) → s.allOpen →
    ∀ sc : Scope, sc = .cl ∨ sc = .fd ∨ sc = .dv ∨ sc = .nd →
      ∃ t, exec (.fence sc) s = .next t ∧ t.now.sb = [] ∧ t.here.dirtyLines = [] ∧ (∀ e ∈ t.here.cv, discards sc e.1 = false) ∧
        t.here.fetchBuf = [] ∧ SameRegs s.now t.now

/-- fence completes, and empties store buffer, caches and fetch buffer by its scope. -/
def Obligations.FenceResult : Prop := fenceCompletes ∧ fenceEmpties


/-- R151, R152, R284: `bind` sets an object's BASE and LEN, `unbind` clears LEN, `rel` advances SEQ, and `acq` changes nothing; the
object's other fields, every other byte and every register stay. A marked object is consumed (R193). -/
def Obligations.ObjectResult : Prop :=
  ∀ s : State, s.steady = true → s.settled s.curCore s.curSlot = true → s.unlimited →
    ∀ (sc : Scope) (b a : PReg) (d : GReg) (off : BitVec 21) (ks : List Nat),
    let va := s.now.readP b.toNat + off.signExtend 72
    let old : BitVec 128 := BitVec.ofNat 128 (bitsOfBytes (ks.map s.peek))
    let len : BitVec 32 := if (s.now.readG d.toNat).toNat < 2 ^ 32 then (s.now.readG d.toNat).setWidth 32 else BitVec.allOnes 32
    let done (i : Instr) (us : List Nat) (new : BitVec 128) : Prop :=
      ∃ t, exec i s = .next t ∧ SameRegs s.now t.now ∧ ks.map t.peek = bytesOfBits 16 new.toNat ∧
        (∀ k, k ∉ ks → t.peek k = s.peek k) ∧ Retires 8 (s.now.anyMarked us || ks.any s.poisoned) s t
    va.toNat % 16 = 0 →
      (s.reaches va 16 .update ks →
        done (.bind sc b off a d) [uP b, uP a, uG d] (old.extractLsb' 104 24 ++ len ++ s.now.readP a.toNat) ∧
          done (.unbind sc b off) [uP b] (old.extractLsb' 104 24 ++ 0#32 ++ old.extractLsb' 0 72) ∧
          done (.rel sc b off) [uP b] ((old.extractLsb' 104 24 + 1) ++ old.extractLsb' 0 104)) ∧
      (s.reaches va 16 .read ks → done (.acq sc b off) [uP b] old)

/-! ### Messages, replies and helpers (R286 to R296) -/

/-- An instruction's object, if it has one: an aligned object of local space with bytes at `ks`, and nothing waits to be made
visible (R152, R288). -/
def objectAt (s : State) (o : Option (PReg × Scope)) (ks : List Nat) : Prop :=
  match o with
  | none => ks = []
  | some (p, _) => (s.now.readP p.toNat).toNat % 16 = 0 ∧ s.reachesLocal (s.now.readP p.toNat) 16 .update ks ∧
      s.settled s.curCore s.curSlot = true

/-- Nothing of memory has changed but an object, whose SEQ has advanced. -/
def onlyReleased (s t : State) (ks : List Nat) : Prop :=
  (∀ k, k ∉ ks → t.peek k = s.peek k) ∧
    (ks ≠ [] → ks.map t.peek = bytesOfBits 16
      (let old := BitVec.ofNat 128 (bitsOfBytes (ks.map s.peek))
       ((old.extractLsb' 104 24 + 1) ++ old.extractLsb' 0 104 : BitVec 128)).toNat)

/-- A message of the context whose turn it is, by the word `m` of its destination, with `n` words of payload and weight `w`. -/
def outgoing (s : State) (m : Word) (n w : Nat) (kind : BitVec 4) (entry code : BitVec 32) (obj : Option (Ptr × Scope))
    (text : Option (List Byte)) : Message where
  kind := kind
  dest := m.extractLsb' 0 10
  entry := entry
  cookie := m.extractLsb' 32 32
  code := code
  payload := (List.range n).map fun i => s.now.readG (24 + i)
  marks := (List.range n).map fun i => s.now.marked (24 + i)
  weight := w
  dom := s.now.whome
  sender := BitVec.ofNat 10 (s.lidOf s.curCore)
  sslot := BitVec.ofNat 4 s.curSlot
  sgen := s.now.gen
  tslot := m.extractLsb' 10 4
  tgen := m.extractLsb' 14 12
  obj := obj
  reason := 0
  text := text

/-- R285, R286, R288 to R290, R292: with room in the queue of two of the core's message port, `send`, `sendc` and `reply` put one message
into it, with the payload, the weight and the domain of their context, which keeps the rest of its weight; a destination that names no
healthy core sends the message back at once with reason 1. No register changes, and of memory only the object that is named, which is
released. The port then injects its oldest message (R92). -/
def Obligations.MessageResult : Prop :=
  ∀ s : State, s.steady = true → s.unlimited → ∀ (d a : GReg) (o : Option (PReg × Scope)) (entry : BitVec 22) (code : BitVec 32)
    (c : PReg) (len : BitVec 4) (ks : List Nat) (words : List (List Nat)),
    let m := s.now.readG d.toNat
    let w := (s.now.readG a.toNat).toNat % 2 ^ 48
    let count (limit : Nat) := min (min (m.extractLsb' 28 4).toNat 8) limit
    let used (limit : Nat) := s.now.anyMarked ([uG d, uG a] ++ (o.map fun x => uP x.1).toList ++ (List.range (count limit)).map (24 + ·))
    let obj := o.map fun x => (s.now.readP x.1.toNat, x.2)
    let leaves (i : Instr) (bytes : Nat) (x : Message) (p : Bool) : Prop :=
      ∃ t f, exec i s = .next t ∧ t.here.msgPort = s.here.msgPort ++ [(s.curSlot, f)] ∧ t.now.wheld = s.now.wheld - w ∧ SameRegs s.now t.now ∧ Retires bytes p s t ∧
        onlyReleased s t ks ∧
        (∀ e, s.coreOfLid (m.toNat % 1024) = some e → f = s.flight s.curCore e (if x.kind = 1 then .reply x else .message x)) ∧
        (s.coreOfLid (m.toNat % 1024) = none → f = s.flight s.curCore s.curCore (.stray { x with reason := 1 })) ∧
        SameOutside (fun k => { k with msgPort := [], dramUse := 0, injUse := 0 }) (fun s => { s with mem := [], poison := [] }) s t
    0 < w → w < s.now.wheld → s.here.msgPort.length < 2 → objectAt s o ks →
      (∀ n f rest, s.here.msgPort = (n, f) :: rest → n = 0 ∨ (s.here.injLim = 0xFFFF_FFFF ∧ s.here.dramLim = 0xFFFF_FFFF ∧ s.here.governor = []) →
        (s.injectTurn s.curCore).net = s.net ++ [f] ∧ (s.injectTurn s.curCore).here.msgPort = rest) ∧
      leaves (.send d a o entry) 12 (outgoing s m (count 8) w 0 ((entry ++ 0#2).setWidth 32) 0 obj none) (used 8 || ks.any s.poisoned) ∧
      (s.now.text = none → leaves (.reply d a o code) 12 (outgoing s m (count 8) w 1 0 code obj none) (used 8 || ks.any s.poisoned)) ∧
      (s.now.text = none → (s.jobOf s.curCore).any Job.codeMsg = true → (s.now.readP c.toNat).toNat % 4 = 0 →
        words.length = len.toNat →
        (∀ i, i < len.toNat → s.reachesLocal (s.now.readP c.toNat + BitVec.ofNat 72 (4 * i)) 4 .read (words.getD i [])) →
        let limit := (64 - 4 * len.toNat) / 8
        let bytes := words.flatten.map s.sees
        leaves (.sendc d a o c len) 16 (outgoing s m (count limit) w 2 0 0 obj (some (bytes.map (·.1))))
          (used limit || s.now.anyMarked [uP c] || bytes.any (·.2) || ks.any s.poisoned))

/-- R286, R288, R290, R294, R349: a context without weight, a weight of zero, and a weight that would leave it none take
WEIGHT_EXHAUSTED with that weight as TRAPVAL, before any effect. -/
def weightExhausted : Prop :=
  ∀ s : State, s.steady = true → s.now.text = none → ∀ (d a b c : GReg) (entry : BitVec 22) (code : BitVec 32),
    let w := (s.now.readG a.toNat).toNat % 2 ^ 48
    w = 0 ∨ s.now.wheld ≤ w →
      Traps (.send d a none entry) 12 .weightExhausted (BitVec.ofNat 64 w) s ∧
        Traps (.reply d a none code) 12 .weightExhausted (BitVec.ofNat 64 w) s ∧
        (s.curSlot < 2 → (s.now.readG b.toNat).toNat % 4 = 0 →
          Traps (.start d a b c) 8 .weightExhausted (BitVec.ofNat 64 w) s)

/-- R93, R294: `start` on a core that is not stopped brings its lowest free helper slot to life at the entry, with the weight and
domain it is given, its arrival registers and the payload of the issuer; D receives the token of the slot. A halted slot stays halted (log 74,
DEDUCED). With no slot free, D receives 0. -/
def startResult : Prop :=
  ∀ s : State, s.steady = true → s.now.text = none → s.curSlot < 2 → s.here.stopped = false → s.now.waiting = none →
    s.settled s.curCore s.curSlot = true → ∀ (d a b c : GReg),
    let w := (s.now.readG a.toNat).toNat % 2 ^ 48
    let e := s.now.readG b.toNat
    let p := s.now.anyMarked ([uG a, uG b, uG c] ++ (List.range 8).map (24 + ·))
    0 < w → w < s.now.wheld → e.toNat % 4 = 0 →
      (∀ n, s.here.freeHelper = some n →
        ∃ t, exec (.start d a b c) s = .next t ∧
          (let x := s.here.ctx n
           let y := t.ctx s.curCore n
           y.live = true ∧ y.role = .started ∧ y.gen = x.gen + 1 ∧ y.halted = x.halted ∧ y.wheld = w ∧ y.whome = s.now.whome ∧
             y.pc = ((s.jobOf s.curCore).map Job.codebase).getD 0 + BitVec.ofNat 72 (e.toNat % 2 ^ 32) ∧
             y.readG 20 = BitVec.ofNat 64 (s.lidOf s.curCore % 1024) ∧ y.readG 21 = BitVec.ofNat 64 w ∧
             y.readG 22 = BitVec.ofNat 64 (s.now.gen.toNat * 2 ^ 12 + s.curSlot * 2 ^ 8 + 3 * 2 ^ 4 + 8) ∧
             y.readG 23 = s.now.readG c.toNat ∧ y.marked 23 = s.now.marked c.toNat ∧
             (∀ i < 8, y.readG (24 + i) = s.now.readG (24 + i) ∧ y.marked (24 + i) = s.now.marked (24 + i)) ∧
             GWritten s.now t.now d (BitVec.ofNat 64 (y.gen.toNat * 2 ^ 14 + n * 2 ^ 10 + s.lidOf s.curCore)) p) ∧
          t.now.wheld = s.now.wheld - w ∧ Retires 8 p s t ∧ ∀ k, t.peek k = s.peek k) ∧
      (s.here.freeHelper = none → d ≠ 0 →
        ∃ t, exec (.start d a b c) s = .next t ∧ OnlyHere s t ∧ GWritten s.now t.now d 0 p ∧ t.now.wheld = s.now.wheld ∧ Retires 8 p s t)

/-- The weight check of messages, and start of a helper. -/
def Obligations.WeightAndStart : Prop := weightExhausted ∧ startResult


/-- R295: `halt` of a helper frees its slot, which keeps its generation, and its weight goes to the home of its domain; slots 0 and 1
take PRIVILEGE. -/
def helperEnds : Prop :=
  ∀ s : State, s.steady = true →
    (s.curSlot < 2 → Traps .halt 8 .privilege (instrLow .halt) s) ∧
      (2 ≤ s.curSlot → s.settled s.curCore s.curSlot = true → s.now.replies = [] → s.now.role ≠ .burst → s.here.deflected = [] →
        ∃ t, exec .halt s = .next t ∧ t.now.live = false ∧ t.now.gen = s.now.gen ∧ (∀ r, t.now.readG r = 0) ∧ t.now.wheld = 0 ∧
          (∀ h, s.coreOfLid (domLid s.now.whome) = some h → s.now.wheld ≠ 0 →
            t.net = s.net ++ [s.flight s.curCore h (.weight s.now.whome s.now.wheld)]) ∧
          (s.now.wheld = 0 → t.net = s.net) ∧ (∀ k, t.peek k = s.peek k) ∧ SameOutside id (fun s => { s with net := [] }) s t)

/-- R287, R293: `wget` with a reply that waits takes it: g20 to g31 receive what a handler's arrival registers would, and its weight
joins the context's when the domains agree, becomes the context's when it holds none, and otherwise goes home. Burst and
completion handlers take BURST_WAIT. -/
def replyTaken : Prop :=
  ∀ s : State, s.steady = true → s.now.text = none →
    (s.now.role = .burst ∨ s.now.role = .completion → Traps .wget 8 .burstWait 0 s) ∧
      (∀ m rest, s.now.role ≠ .burst → s.now.role ≠ .completion → s.curSlot ≠ 0 → s.now.replies = m :: rest → m.obj = none →
        s.here.deflected = [] →
        ∃ t, exec .wget s = .next t ∧ t.now.replies = rest ∧ t.now.readG 20 = m.sender.setWidth 64 ∧
          t.now.readG 21 = BitVec.ofNat 64 m.weight ∧
          t.now.readG 22 = BitVec.ofNat 64 (m.code.toNat * 2 ^ 32 + m.reason.toNat * 2 ^ 28 + m.sgen.toNat * 2 ^ 12 +
            m.sslot.toNat * 2 ^ 8 + m.kind.toNat * 2 ^ 4 + m.payload.length) ∧
          t.now.readG 23 = m.cookie.setWidth 64 ∧
          (∀ i < 8, t.now.readG (24 + i) = m.payload.getD i 0 ∧ t.now.marked (24 + i) = m.marks.getD i false) ∧
          (∀ r : GReg, r.toNat < 20 → t.now.readG r.toNat = s.now.readG r.toNat) ∧
          (∀ r : PReg, t.now.readP r.toNat = s.now.readP r.toNat) ∧
          (s.now.wheld = 0 → t.now.wheld = m.weight ∧ t.now.whome = m.dom ∧ t.net = s.net) ∧
          (s.now.wheld ≠ 0 → m.dom = s.now.whome → t.now.wheld = s.now.wheld + m.weight ∧ t.net = s.net) ∧
          (∀ h, s.now.wheld ≠ 0 → m.dom ≠ s.now.whome → s.coreOfLid (domLid m.dom) = some h → m.weight ≠ 0 →
            t.now.wheld = s.now.wheld ∧ t.net = s.net ++ [s.flight s.curCore h (.weight m.dom m.weight)]) ∧
          Retires 8 false s t ∧ ∀ k, t.peek k = s.peek k)

/-- R296: `qarm` sends an arm notice to the home of the job. -/
def armSent : Prop :=
  ∀ s : State, s.steady = true → s.now.text = none → s.unlimited → ∀ fid f j, s.fieldOf s.curCore = some (fid, f) → f.job = some j →
    ∃ t, exec .qarm s = .next t ∧ t.net = s.net ++ [s.flight s.curCore j.home (.arm fid)] ∧ SameRegs s.now t.now ∧ Retires 8 false s t ∧
      t.now.aside = s.now.aside ∧ SameOutside (fun k => { k with dramUse := 0, injUse := 0 }) (fun s => { s with net := [] }) s t

/-- halt, wget and qarm. -/
def Obligations.HelperResult : Prop := helperEnds ∧ replyTaken ∧ armSent


/-! ### Tasks (R75, R87, R88, R297 to R299) -/

/-- R75, R129, R132, R297: `tend` of the control context first closes its tiles and begins to release its successors; with none left, its weight
goes home and the job counts the task, unless it was spawned; and then the context is free, and the core holds no
lease but on peers whose own `tend` kept it by RETAIN. -/
def taskEnded : Prop :=
  ∀ s : State, s.steady = true → s.now.text = none → s.curSlot = 1 → s.here.matq = [] → s.settled s.curCore 1 = true →
    ∀ fid f j, s.fieldOf s.curCore = some (fid, f) → Assoc.find s.fields fid = some f → f.job = some j →
      (∀ r, s.here.running = some r → r.join = none → r.task.succ = 0 → s.here.release = none →
        ∃ t, exec .tend s = .next t ∧ t.now.live = s.now.live ∧ t.here.release = some (0, []) ∧ t.here.succs = [] ∧ (∀ a, (t.here.tile a).opened = none) ∧
          t.now.wheld = s.now.wheld ∧ SameRegs s.now t.now ∧ ∀ k, t.peek k = s.peek k) ∧
      (∀ r, s.here.running = some r → s.here.release = some (0, []) → s.here.succs = [] → s.now.replies = [] → s.here.pipemap = 0 →
        s.now.cir.toNat % 16 = 0 →
        (∀ q, q < 4 → coreOf (clusterOf s.curCore) q ≠ s.curCore →
          bit (s.core (coreOf (clusterOf s.curCore) q)).held (posOf s.curCore) = false) →
        ∃ t, exec .tend s = .next t ∧ t.here.running = none ∧ t.now.wheld = 0 ∧
          (∀ h, s.coreOfLid (domLid s.now.whome) = some h → s.now.wheld ≠ 0 →
            t.net = s.net ++ [s.flight s.curCore h (.weight s.now.whome s.now.wheld)]) ∧
          (t.jobOf s.curCore).map Job.ended = some (if r.task.spawned then j.ended else j.ended + 1) ∧ ∀ k, t.peek k = s.peek k) ∧
      (s.here.running = none → s.here.lapseLeft = [] → s.here.pair = none → s.here.deflected = [] →
        ∃ t, exec .tend s = .next t ∧ t.now.live = false ∧ t.now.gen = s.now.gen ∧ t.here.running = none ∧
          (∀ q, q < 4 → bit t.here.held q = (bit s.here.held q && bit (s.core (coreOf (clusterOf s.curCore) q)).kept (posOf s.curCore))) ∧
          t.here.idleSince = s.cycle ∧ t.net = s.net ∧ ∀ k, t.peek k = s.peek k)

/-- R78, R298: `tnext` takes the lowest index of the range that is left, and the tile registers show it; with none left, and in a
task that is no range, D receives all ones; in a soft pre-emption the rest of the range is parked, and D receives all ones less
one. -/
def nextIndex : Prop :=
  ∀ s : State, s.steady = true → s.now.text = none → s.curSlot = 1 → ∀ d : GReg,
    let ones : Word := BitVec.allOnes 64
    let done (v : Word) (q : State → Prop) : Prop :=
      ∃ t, exec (.tnext d) s = .next t ∧ GWritten s.now t.now d v false ∧ Retires 8 false s t ∧ (∀ k, t.peek k = s.peek k) ∧ q t
    let same (t : State) : Prop := t.here.iterLo = s.here.iterLo ∧ t.here.iterHi = s.here.iterHi ∧ t.here.tileIdx = s.here.tileIdx
    (s.here.running = none → done ones same) ∧
      (∀ r, s.here.running = some r → r.task.range = false ∨ s.here.iterLo = s.here.iterHi → done ones same) ∧
      (∀ r, s.here.running = some r → r.task.range = true → s.here.iterLo.toNat < s.here.iterHi.toNat →
        (∀ j, s.jobOf s.curCore = some j → j.pre = .running) →
        done (s.here.iterLo.setWidth 64) fun t => t.here.iterLo = s.here.iterLo + 1 ∧ t.here.iterHi = s.here.iterHi ∧
          t.here.tileIdx = s.here.iterLo ∧
          ∀ g, r.grid = some g →
            let cx := s.here.iterLo.toNat % g.ntx
            let cy := s.here.iterLo.toNat / g.ntx
            t.here.tileOrg = BitVec.ofNat 64 (cx * g.tx % 2 ^ 32 + cy * g.ty % 2 ^ 32 * 2 ^ 32) ∧
              t.here.tileNom = BitVec.ofNat 64 (g.tx + g.ty * 2 ^ 32) ∧
              t.here.tileExt = BitVec.ofNat 64 (min g.tx (g.x - cx * g.tx) + min g.ty (g.y - cy * g.ty) * 2 ^ 32)) ∧
      (∀ r fid f j b i u, s.here.running = some r → r.task.range = true → s.here.iterLo.toNat < s.here.iterHi.toNat →
        s.fieldOf s.curCore = some (fid, f) → Assoc.find s.fields fid = some f → f.job = some j → j.pre = .pausing b →
        s.joinFor fid s.curCore r = some (i, u) →
        done (ones - 1) fun t => t.here.iterLo = s.here.iterHi ∧
          (t.jobOf s.curCore).map (fun j => j.parked.length) = some (j.parked.length + 1))

/-- R76, R80, R285, R299: `tspawn` of a record of local space that is no gang's puts a copy of it, bound for transit, into the queue of the
message port, marked as spawned, with the weight and the domain it is given. -/
def spawnResult : Prop :=
  ∀ s : State, s.steady = true → s.now.text = none → s.unlimited → s.settled s.curCore s.curSlot = true → s.here.msgPort.length < 2 →
    ∀ (a : PReg) (b : GReg) (ks : List Nat) fid f,
    let p := s.now.readP a.toNat
    let w := (s.now.readG b.toNat).toNat % 2 ^ 48
    let r := taskOf (ks.map s.peek)
    let copy : TaskCopy := ⟨{ r with flags := (r.flags ||| 0x80#32) &&& ~~~0x48#32 }, [], w, s.now.whome, none⟩
    p.toNat % 64 = 0 → s.reachesLocal p 64 .read ks → r.gang = false → 0 < w → w < s.now.wheld → s.fieldOf s.curCore = some (fid, f) →
      ∃ t, exec (.tspawn a b) s = .next t ∧ t.now.wheld = s.now.wheld - w ∧ SameRegs s.now t.now ∧
        Retires 8 (s.now.anyMarked [uP a, uG b] || ks.any s.poisoned) s t ∧ (∀ k, t.peek k = s.peek k) ∧ t.net = s.net ∧
        t.here.msgPort = s.here.msgPort ++ [(s.curSlot, s.flight s.curCore s.curCore (.transit copy (f.route s s.curCore copy.task)))]

/-- tnext draws an index, tspawn sends a copy. -/
def Obligations.TaskDraws : Prop := nextIndex ∧ spawnResult


/-! ### Bulk requests (R300 to R306) -/

/-- R92, R300, R301, R304, R306: a command of the bulk or the copy engine with something to do joins that engine's queue of two when it has
room, behind the command that is there, whatever the other queue holds; a `bread` opens a request with its weight. No register and no byte
of memory changes. That the two engines have a queue each is assumption 27. -/
def Obligations.BulkQueued : Prop :=
  ∀ s : State, s.steady = true → s.now.text = none → s.settled s.curCore s.curSlot = true →
    ∀ (a b c : PReg) (d e g : GReg) (bentry centry : BitVec 22) (rowb : BitVec 11) (rows sstr : BitVec 16) (lx ly : BitVec 4)
      (esz : BitVec 2) (pub dir : Bool) (ks : List Nat),
    let dst := s.now.readP a.toNat
    let src := s.now.readP b.toNat
    let obj := s.now.readP c.toNat
    let v := s.now.readG d.toNat
    let queued (i : Instr) (op : BulkOp) (p : Bool) : Prop :=
      ∃ t, exec i s = .next t ∧
        t.here.bulkQueue op.unit = s.here.bulkQueue op.unit ++ [⟨op, s.curSlot, s.now.pc, s.now.gen, [], [], false, [], none⟩] ∧
        (∀ u, u = .bulk ∨ u = .copy → u ≠ op.unit → t.here.bulkQueue u = s.here.bulkQueue u) ∧
        SameRegs s.now t.now ∧ Retires 16 p s t ∧ ∀ k, t.peek k = s.peek k
    let w := (s.now.readG e.toNat).toNat % 2 ^ 48
    let nr := min (v.toNat % 2 ^ 16) (v.toNat / 2 ^ 32 % 2 ^ 16)
    let nc := min (v.toNat / 2 ^ 16 % 2 ^ 16) (v.toNat / 2 ^ 48)
    (s.here.bulkq.length < 2 → dst.toNat % 64 = 0 → 0 < w → w < s.now.wheld → 0 < nr * nc →
      queued (.bread d a e g bentry centry rows) (.bread s.here.nextRequest dst rows.toInt nr nc (v.toNat / 2 ^ 16 % 2 ^ 16))
          (s.now.anyMarked [uG d, uP a, uG e, uG g]) ∧
        ∃ t, exec (.bread d a e g bentry centry rows) s = .next t ∧ t.now.wheld = s.now.wheld - w ∧
          Assoc.find t.here.requests s.here.nextRequest = some ⟨w, s.now.whome, s.now.readG g.toNat, (bentry ++ 0#2).setWidth 32,
            (centry ++ 0#2).setWidth 32, 0, 0, 0, false⟩) ∧
      (s.here.copyq.length < 2 → dst.toNat % 32 = 0 → src.toNat % 32 = 0 → obj.toNat % 16 = 0 → s.reachesLocal obj 16 .update ks →
        let op : BulkOp := .copy pub dst src ((v.extractLsb' 0 16).toInt) sstr.toInt (min rows.toNat (v.toNat / 2 ^ 16 % 2 ^ 16))
          (min rowb.toNat (v.toNat / 2 ^ 32 % 2 ^ 16)) obj
        op.plan.count ≠ 0 → queued (.copy pub a b c d rowb rows sstr) op (s.now.anyMarked [uP a, uP b, uP c, uG d])) ∧
      (s.here.copyq.length < 2 → dst.toNat % 32 = 0 → src.toNat % 32 = 0 → obj.toNat % 16 = 0 → s.reachesLocal obj 16 .update ks →
        let row := 2 ^ lx.toNat * 2 ^ esz.toNat
        v = 0 ∨ (row ≤ v.toNat ∧ v.toNat % 32 = 0 ∧ row % 32 = 0) →
        let op : BulkOp := .copym dst src v.toNat lx.toNat ly.toNat (2 ^ esz.toNat) (!dir) obj
        op.plan.count ≠ 0 → queued (.copym a b c d lx ly esz dir) op (s.now.anyMarked [uP a, uP b, uP c, uG d]))

/-! ### Barrier objects (R307, R308) -/

/-- R307, R308: on an object of local space `binit` sets the expected count and clears the rest but EXP_SET, `bexp` adds to the
expected count in units of 32 bytes, `barr` arrives once and writes the phase from before to D; a count that is reached turns
the phase and starts again at zero. Only the object's sixteen bytes change. -/
def barrierUpdate : Prop :=
  ∀ s : State, s.steady = true → s.now.text = none → s.unlimited → s.settled s.curCore s.curSlot = true →
    ∀ (b : PReg) (off : BitVec 21) (a d : GReg) (ks : List Nat),
    let va := s.now.readP b.toNat + off.signExtend 72
    let old := bitsOfBytes (ks.map s.peek)
    let x := (s.now.readG a.toNat).toNat
    let exp := old % 2 ^ 48
    let arr := old / 2 ^ 48 % 2 ^ 48
    let flags : BitVec 8 := BitVec.ofNat 8 (old / 2 ^ 96)
    let rest := old / 2 ^ 104 % 2 ^ 16
    let object (e n : Nat) (f : BitVec 8) (r : Nat) : Nat := e + n * 2 ^ 48 + f.toNat * 2 ^ 96 + r * 2 ^ 104
    let settled (e n : Nat) (f : BitVec 8) (r : Nat) : Nat :=
      if 0 < e ∧ e ≤ n then object e 0 ((f ^^^ 1) &&& ~~~8) r else object e n f r
    let done (i : Instr) (new : Nat) (p : Bool) (q : State → Prop) : Prop :=
      ∃ t, exec i s = .next t ∧ ks.map t.peek = bytesOfBits 16 new ∧ (∀ k, k ∉ ks → t.peek k = s.peek k) ∧ Retires 8 p s t ∧ q t
    let same (t : State) : Prop := SameRegs s.now t.now
    va.toNat % 16 = 0 → s.reachesLocal va 16 .update ks →
      done (.binit b off a) (object (x % 2 ^ 48) 0 8 0) (s.now.anyMarked [uP b, uG a]) same ∧
      (x % 32 = 0 → done (.bexp b off a) (settled ((exp + x / 32) % 2 ^ 48) arr (flags ||| 8) rest)
        (s.now.anyMarked [uP b, uG a] || ks.any s.poisoned) same) ∧
      done (.barr d b off) (settled exp ((arr + 1) % 2 ^ 48) flags rest) (s.now.anyMarked [uP b] || ks.any s.poisoned)
        fun t => GWritten s.now t.now d ((flags &&& 1).setWidth 64) (ks.any s.poisoned)

/-- R308: `bwait` on an object whose phase differs from bit 0 of A completes; one whose ERR is set takes ASYNC_ERROR with its class
and NAK count; `btest` writes completion, ERR, OVR and phase to D and never waits. -/
def barrierTest : Prop :=
  ∀ s : State, s.steady = true → s.now.text = none → s.unlimited → s.settled s.curCore s.curSlot = true →
    ∀ (b : PReg) (off : BitVec 21) (a d : GReg) (ks : List Nat),
    let va := s.now.readP b.toNat + off.signExtend 72
    let old := bitsOfBytes (ks.map s.peek)
    let phase := old / 2 ^ 96 % 2
    let err := old / 2 ^ 97 % 2
    let ovr := old / 2 ^ 98 % 2
    let mark := ks.any s.poisoned
    let p := s.now.anyMarked [uP b, uG a]
    let turned : Bool := phase ≠ (s.now.readG a.toNat).toNat % 2
    va.toNat % 16 = 0 → s.reachesLocal va 16 .read ks →
      (s.now.role ≠ .burst → s.now.role ≠ .completion →
        (err = 0 → turned = true → ∃ t, exec (.bwait b off a) s = .next t ∧ SameRegs s.now t.now ∧ Retires 8 (p || mark) s t ∧
          ∀ k, t.peek k = s.peek k) ∧
        (err = 1 → Traps (.bwait b off a) 8 .asyncError (BitVec.ofNat 64 (old / 2 ^ 112 % 256 + old / 2 ^ 104 % 256 * 256)) s)) ∧
      ∃ t, exec (.btest d b off a) s = .next t ∧ Retires 8 (p || mark) s t ∧ (∀ k, t.peek k = s.peek k) ∧
        GWritten s.now t.now d (BitVec.ofNat 64 ((if turned then 1 else 0) + 2 * err + 4 * ovr + 8 * phase)) (s.now.anyMarked [uG a] || mark)

/-- Barrier objects: binit, bexp, barr, bwait, btest. -/
def Obligations.BarrierResult : Prop := barrierUpdate ∧ barrierTest


/-! ### Pipes and `rot` (R309 to R311) -/

/-- R309: `qinit` at the consumer's end readies an aligned ring of its scratchpad and gives the producer its credits; `qpush` takes
a credit and sends the entry; `qpop` takes the oldest entry and returns a credit; `qavail` reads credits or entries. The core
has the pipe's byte of PIPEMAP, and the pipe is open. -/
def pipeEnds : Prop :=
  ∀ s : State, s.steady = true → s.now.text = none → s.settled s.curCore s.curSlot = true → (∀ c, s.unwatched c = true) →
    ∀ (a b d : GReg),
    let p := (s.now.readG a.toNat).toNat % 8
    let m := s.here.pipemap.toNat / 2 ^ (8 * p) % 256
    let peer := coreOf (clusterOf s.curCore) (m % 4)
    let e := s.here.pipe p
    let v := s.now.readG b.toNat
    let base := v.toNat % 2 ^ 32
    let depth := v.toNat / 2 ^ 32 % 2 ^ 16
    let slot := s.keysOf (keyScratch s.curCore (e.base + 8 * (e.head % e.depth))) 8
    let waits := s.now.role ≠ .burst ∧ s.now.role ≠ .completion
    let one := s.now.anyMarked [uG a]
    let done (i : Instr) (q : Bool) (r : State → Prop) : Prop :=
      ∃ t, exec i s = .next t ∧ Retires 8 q s t ∧ (∀ k, t.peek k = s.peek k) ∧ r t
    128 ≤ m →
      (m % 128 < 64 → e.closed = false → e.ready = false → base % 8 = 0 → 0 < depth → depth ≤ 4096 →
        base + 8 * depth ≤ s.here.scratchSize →
        done (.qinit a b) (s.now.anyMarked [uG a, uG b]) fun t => SameRegs s.now t.now ∧
          t.here.pipe p = { e with ready := true, base := base, depth := depth, head := 0, count := 0 } ∧
          t.net = s.net ++ [s.flight s.curCore peer (.pipeCredit p (some depth))]) ∧
      (64 ≤ m % 128 → e.closed = false → e.free ≠ 0 → waits → s.unlimited →
        done (.qpush a b) (s.now.anyMarked [uG a, uG b]) fun t => SameRegs s.now t.now ∧
          t.here.pipe p = { e with free := e.free - 1, tail := e.tail + 1 } ∧
          t.net = s.net ++ [s.flight s.curCore peer (.pipeEntry p e.tail v (s.now.marked b.toNat))]) ∧
      (m % 128 < 64 → e.closed = false → e.count ≠ 0 → waits →
        done (.qpop d a) (one || slot.any s.poisoned) fun t =>
          GWritten s.now t.now d (BitVec.ofNat 64 (bitsOfBytes (slot.map s.peek))) (one || slot.any s.poisoned) ∧
          t.here.pipe p = { e with head := e.head + 1, count := e.count - 1 } ∧ t.net = s.net ++ [s.flight s.curCore peer (.pipeCredit p none)]) ∧
      done (.qavail d a) one fun t =>
        GWritten s.now t.now d (BitVec.ofNat 64 (if 64 ≤ m % 128 then e.free else e.count)) one

/-- R311: `rot` checks the alignment of its source, then that both ranges lie in the scratchpad of its own core, and then that a gang of four
control contexts runs; the first that fails is its trap. Once the exchange has been made it completes, and changes no register and no byte of memory
of its own. -/
def rotResult : Prop :=
  ∀ s : State, s.steady = true → s.now.text = none → ∀ (a b : PReg) (n : BitVec 32),
    let gang := s.curSlot = 1 ∧ ∃ r, s.here.running = some r ∧ r.gang.length = 4 ∧ r.paired = false
    let src := s.now.readP a.toNat
    let dst := s.now.readP b.toNat
    let own (x : Ptr) : Prop :=
      x.toNat / 2 ^ 64 = 0xFF ∧ x.toNat % 2 ^ 64 < 2 ^ 32 ∧ x.toNat % 2 ^ 64 + n.toNat ≤ s.here.scratchSize
    let exchanged := s.setCtx s.curCore s.curSlot { s.now with committed := true }
    (src.toNat % 32 ≠ 0 → Traps (.rot a b n) 16 .misaligned (BitVec.ofNat 64 src.toNat) s) ∧
      (src.toNat % 32 = 0 → ¬own src → Traps (.rot a b n) 16 .translation (src.setWidth 64) s) ∧
      (src.toNat % 32 = 0 → own src → ¬own dst → Traps (.rot a b n) 16 .translation (dst.setWidth 64) s) ∧
      (src.toNat % 32 = 0 → own src → own dst → ¬gang → Traps (.rot a b n) 16 .permission 0 s) ∧
      (gang → src.toNat % 32 = 0 → own src → own dst → (∃ r, s.here.rot = some r ∧ r.done = true) →
        ∃ t, exec (.rot a b n) exchanged = .next t ∧ t.here.rot = none ∧ SameRegs s.now t.now ∧
          Retires 16 (s.now.anyMarked [uP a, uP b]) s t ∧ ∀ k, t.peek k = s.peek k)

/-- Pipes, and the gang exchange rot. -/
def Obligations.PipeResult : Prop := pipeEnds ∧ rotResult


/-! ### The accumulate network (R312 to R315) -/

/-- R312, R313, R315: `aopen` opens a tile with MANCHOR and an object, which expects the rows; with room in the queue of two of the
accumulate network `asend` joins it, with MANCHOR and the matrix commands that go before it, and its object expects as many rows; `aclose`
closes a tile. The oldest command then sends rows r0 to r1 − 1, each with the words of its row, to the core that C names; a row for a core
outside the field comes back with class 3 (R314). -/
def Obligations.AccumulateResult : Prop :=
  ∀ s : State, s.steady = true → s.now.text = none → s.unlimited → s.settled s.curCore s.curSlot = true →
    ∀ (x : AccReg) (b : PReg) (c : GReg) (rows : BitVec 16) (r0 r1 : BitVec 6) (ks : List Nat),
    let obj := s.now.readP b.toNat
    let old := bitsOfBytes (ks.map s.peek)
    let to_ := s.now.readG c.toNat
    let expects (i : Instr) (n : Nat) (us : List Nat) (q : State → Prop) : Prop :=
      ∃ t, exec i s = .next t ∧ ks.map t.peek = bytesOfBits 16 ((HomeOp.barExpect n).apply 16 old) ∧
        (∀ k, k ∉ ks → t.peek k = s.peek k) ∧ SameRegs s.now t.now ∧ Retires 16 (s.now.anyMarked us || ks.any s.poisoned) s t ∧ q t
    (s.curSlot = 1 →
        ∃ t, exec (.aclose x) s = .next t ∧ (t.here.tile x.toNat).opened = none ∧
          (t.here.tile x.toNat).words = (s.here.tile x.toNat).words ∧ (∀ y : AccReg, y ≠ x → t.here.tile y.toNat = s.here.tile y.toNat) ∧
          SameRegs s.now t.now ∧ Retires 8 false s t ∧ ∀ k, t.peek k = s.peek k) ∧
      (obj.toNat % 16 = 0 → s.reachesLocal obj 16 .update ks →
        (s.curSlot = 1 →
          expects (.aopen x b rows) rows.toNat [uP b] fun t =>
            t.here.tile x.toNat = { s.here.tile x.toNat with opened := some (s.here.manchor, obj) } ∧
              ∀ y : AccReg, y ≠ x → t.here.tile y.toNat = s.here.tile y.toNat) ∧
        (s.here.acnq.length < 2 →
          expects (.asend x b c r0 r1) (r1.toNat - r0.toNat) [uP b, uG c] fun t =>
            t.net = s.net ∧ t.here.acnq =
              s.here.acnq ++ [⟨s.curSlot, s.now.gen, x, obj, to_, r0.toNat, r1.toNat, s.here.manchor, s.here.matq.length⟩])) ∧
      (∀ cmd rest, s.here.acnq = cmd :: rest → cmd.after = 0 → s.here.engineRuns cmd.slot = true → s.saved s.curCore = false →
        let mine := s.here.tile cmd.tile.toNat
        let sent (f : Nat → Flight) : Prop :=
          (s.rowsTurn s.curCore).here.acnq = rest ∧
            (s.rowsTurn s.curCore).net = s.net ++ (List.range (cmd.r1 - cmd.r0)).map fun i => f (cmd.r0 + i)
        (∀ e g, s.coreOfLid (cmd.target.toNat % 1024) = some e → s.fieldOf s.curCore = some g → g.2.covers (clusterOf e) = true →
          sent fun r => s.flight s.curCore e (.row s.curCore cmd.obj cmd.slot (BitVec.ofNat 2 (cmd.target.toNat / 2 ^ 10 % 4)) r cmd.anchor
            ((List.range 32).map (mine.word r)) (mine.marks.getLsbD r))) ∧
        (s.coreOfLid (cmd.target.toNat % 1024) = none ∨ s.fieldOf s.curCore = none ∨
            (∃ e g, s.coreOfLid (cmd.target.toNat % 1024) = some e ∧ s.fieldOf s.curCore = some g ∧ g.2.covers (clusterOf e) = false) →
          sent fun _ => s.flight s.curCore s.curCore (.rowNak cmd.slot cmd.obj 3)))

/-- R75: before it releases anything `tend` reads the successor list and every record that it names, each translated as the walk will use it; the
release unit then has the list. Stated for lists of up to three records, none a gang's, in local space. -/
def successorsChecked : Prop :=
  ∀ s : State, s.steady = true → s.now.text = none → s.curSlot = 1 → s.here.matq = [] → s.unlimited → s.settled s.curCore 1 = true →
    ∀ fid f j r (q : Ptr) (ps : List Ptr) (kn kl : List Nat) (kr : List (List Nat)),
    s.fieldOf s.curCore = some (fid, f) → f.job = some j → s.here.running = some r → r.join = none → s.here.release = none →
    r.task.succ = q.setWidth 128 → q ≠ 0 → q.toNat % 64 = 0 → s.reachesLocal q 8 .read kn → bitsOfBytes (kn.map s.peek) = ps.length →
    0 < ps.length → ps.length ≤ 3 → s.reachesLocal (q + 16) (16 * ps.length) .read kl →
    (∀ i < ps.length, bitsOfBytes (((kl.map s.peek).drop (16 * i)).take 16) = (ps.getD i 0).toNat ∧ (ps.getD i 0).toNat % 64 = 0 ∧
      s.reachesLocal (ps.getD i 0) 64 .update (kr.getD i []) ∧ (taskOf ((kr.getD i []).map s.peek)).gang = false) →
      ∃ t, exec .tend s = .next t ∧ t.here.release = some (0, []) ∧ t.here.succs = ps ∧ t.now.wheld = s.now.wheld ∧ SameRegs s.now t.now ∧
        t.now.retired = s.now.retired ∧ ∀ k, t.peek k = s.peek k

/-- R75, step 1: the release unit of `tend` lowers DEPCOUNT of one successor by one at its home, and releases the record of one whose
count was 1; nothing else of memory changes. Stated for a record in local space. -/
def successorReleased : Prop :=
  ∀ s : State, s.steady = true → s.now.text = none → s.curSlot = 1 → s.here.matq = [] → s.unlimited → s.settled s.curCore 1 = true →
    ∀ fid f j r (done : Nat) (copies : List TaskCopy) (p : Ptr) (kd kr : List Nat),
    s.fieldOf s.curCore = some (fid, f) → f.job = some j → s.here.running = some r → s.here.release = some (done, copies) → s.here.freed = false →
    s.here.succs[done]? = some p → s.here.succAt = [] → p.toNat % 64 = 0 →
    s.reachesLocal (p + 60) 4 .update kd → s.reachesLocal p 64 .update kr →
    let old := bitsOfBytes (kd.map s.peek)
    let t' := taskOf (kr.map s.peek)
    t'.gang = false → kr.drop 60 = kd →
      ∃ t, exec .tend s = .next t ∧ kd.map t.peek = bytesOfBits 4 (old - 1) ∧ (∀ k, k ∉ kd → t.peek k = s.peek k) ∧
        t.here.release = some (done + 1, if old = 1 then copies ++ [⟨t', [], 0, 0, none⟩] else copies) ∧
        t.here.running = s.here.running ∧ t.now.wheld = s.now.wheld ∧ SameRegs s.now t.now ∧ t.now.retired = s.now.retired

/-- tend: close, release the successors, return the weight, count the task. -/
def Obligations.TaskEnds : Prop := taskEnded ∧ successorsChecked ∧ successorReleased


/-! ### Vector arithmetic (R318 to R323) -/

/-- A condition between two integer elements, which are never unordered (R220, R324). -/
def elementsMeet (c : Cond) (ty : Ty) (x y : BitVec ty.width) : Bool :=
  let less (a b : BitVec ty.width) : Bool := if signed ty then a.slt b else a.ult b
  match c with
  | .eq => x = y
  | .ne => x ≠ y
  | .lt => less x y
  | .le => !less y x
  | .gt => less y x
  | .ge => !less x y
  | .un => false

/-- R319, R322: in each lane that the mask selects a vector instruction writes what its scalar counterpart would: integers modulo
2^width, floats rounded once by Mode(Q) and the draw of their lane. The sources hold the tag (none, TY), and D receives it. -/
def Obligations.VectorArithmetic : Prop :=
  ∀ s : State, s.control = true → ∀ (ty : Ty) (q : FQ) (d a b c : VReg) (k : KReg),
    let x := s.here.vreg a.toNat
    let y := s.here.vreg b.toNat
    let z := s.here.vreg c.toNat
    let w := ty.laneWidth
    let n (r : VRegState) (j : Nat) : BitVec ty.width := BitVec.ofNat _ (lane w r.data j)
    let v (r : VRegState) (j : Nat) : Val := value ty (lane w r.data j)
    let round (j : Nat) (e : Rm → Exact) : Res := roundExact ty (s.now.rounding q j) (e (s.now.rounding q j).rm)
    let exact (e : Exact) : Res := roundExact ty ⟨.rne, false, 0⟩ e
    let two (i : Instr) (op : AluOp) (f : Nat → Res) : Prop :=
      LaneWise i d (tagOf .none ty) w k [x, y] [] (fun j => if ty.isInt then ((intArith op ty (n x j) (n y j)).toNat, 0) else f j) s
    let three (i : Instr) (e : Nat → BitVec ty.width) (f : Nat → Res) : Prop :=
      LaneWise i d (tagOf .none ty) w k [x, y, z] [] (fun j => if ty.isInt then ((e j).toNat, 0) else f j) s
    let one (i : Instr) (e : Nat → BitVec ty.width) (f : Nat → Res) : Prop :=
      LaneWise i d (tagOf .none ty) w k [x] [] (fun j => if ty.isInt then ((e j).toNat, 0) else f j) s
    let tagged (r : VRegState) : Prop := r.tag = tagOf .none ty
    (tagged x → tagged y →
      two (.vadd ty q d a b k) .add (fun j => round j fun rm => addV rm (v x j) (v y j)) ∧
        two (.vsub ty q d a b k) .sub (fun j => round j fun rm => addV rm (v x j) (v y j).neg) ∧
        two (.vmul ty q d a b k) .mul (fun j => round j fun _ => mulV (v x j) (v y j)) ∧
        two (.vdiv ty q d a b k) .div (fun j => round j fun _ => divV (v x j) (v y j)) ∧
        two (.vmin ty d a b k) .min_ (fun j => exact (pickV false (v x j) (v y j))) ∧
        two (.vmax ty d a b k) .max_ (fun j => exact (pickV true (v x j) (v y j))) ∧
        (ty.isInt = true →
          two (.vand ty d a b k) .and_ (fun _ => (0, 0)) ∧ two (.vor ty d a b k) .or_ (fun _ => (0, 0)) ∧
            two (.vxor ty d a b k) .xor_ (fun _ => (0, 0)) ∧ two (.vshl ty d a b k) .shl (fun _ => (0, 0)) ∧
            two (.vshr ty d a b k) .shr (fun _ => (0, 0)) ∧ two (.vsar ty d a b k) .sar (fun _ => (0, 0)))) ∧
      (tagged x → tagged y → tagged z →
        three (.vfma ty q d a b c k) (fun j => n x j * n y j + n z j) (fun j => round j fun rm => fmaV rm (v x j) (v y j) (v z j)) ∧
          three (.vfnma ty q d a b c k) (fun j => n z j - n x j * n y j)
            (fun j => round j fun rm => fmaV rm (v x j).neg (v y j) (v z j)) ∧
          three (.vclamp ty d a b c k) (fun j => intArith .min_ ty (intArith .max_ ty (n x j) (n y j)) (n z j))
            (fun j =>
              let hi := pickV true (v x j) (v y j)
              let lo := pickV false hi.1 (v z j)
              exact (lo.1, hi.2 ||| lo.2))) ∧
      (tagged x →
        one (.vabs ty d a k) (fun j => if signed ty && (n x j).msb then -(n x j) else n x j) (fun j => withSign ty (lane w x.data j) false) ∧
          one (.vneg ty d a k) (fun j => -(n x j)) (fun j => withSign ty (lane w x.data j) (!signBit ty (lane w x.data j))))

/-- R170, R320, R349: a source that does not hold the tag that the instruction needs takes FORMAT_MISMATCH with its unified number as
TRAPVAL, before any effect; the sources are checked in the order A, B, C. -/
def vectorTagTraps : Prop :=
  ∀ s : State, s.control = true → ∀ (ty sty : Ty) (kind : Kind) (q : FQ) (d a b c : VReg) (e : GReg) (k : KReg) (part : BitVec 3),
    let tag (r : VReg) := (s.here.vreg r.toNat).tag
    let bad (r : VReg) (i : Instr) : Prop := Traps i 8 .formatMismatch (BitVec.ofNat 64 (48 + r.toNat)) s
    (tag a ≠ tagOf .none ty →
      bad a (.vadd ty q d a b k) ∧ bad a (.vfma ty q d a b c k) ∧ bad a (.vexp2 ty q d a k) ∧ bad a (.vrsum ty q e a k) ∧
        bad a (.vperm ty d a b k) ∧ bad a (.vext ty e a e)) ∧
      (tag a = tagOf .none ty → tag b ≠ tagOf .none ty → bad b (.vadd ty q d a b k) ∧ bad b (.vfma ty q d a b c k)) ∧
      (tag a = tagOf .none ty → tag b = tagOf .none ty → tag c ≠ tagOf .none ty → bad c (.vfma ty q d a b c k)) ∧
      (tag a ≠ tagOf .none sty → bad a (.vcvt ty sty q d a part k)) ∧
      (tag a ≠ tagOf .none .f32 → tag a ≠ tagOf .none .f16 → tag a ≠ tagOf .none .bf16 → bad a (.vqnt ty kind q d a part)) ∧
      ((tag a).toNat / 16 = 0 ∨ (tag a).toNat / 16 = 3 → bad a (.vdqnt ty q d a part k)) ∧
      ((tag a).toNat / 16 = 3 → k ≠ 0 → bad a (.vmov d a k))

/-- Illegal encodings, misaligned targets and addresses, loop overflow and wrong tags trap before any effect. -/
def Obligations.TrapsBeforeEffect : Prop := illegalTraps ∧ operandTraps ∧ vectorTagTraps


/-- R322, R323: broadcasts, selections and indices, and copies. `vmov` with k0 copies a whole register with its tag, its slots and its marks;
`vsel` writes every lane, and D takes the tag and the slots of A. -/
def Obligations.VectorMoves : Prop :=
  ∀ s : State, s.control = true → ∀ (ty : Ty) (d a b : VReg) (e : GReg) (k : KReg),
    let x := s.here.vreg a.toNat
    let y := s.here.vreg b.toNat
    let old := s.here.vreg d.toNat
    let w := ty.laneWidth
    let g := s.now.readG e.toNat
    let sel (j : Nat) : Bool := (s.here.mask k.toNat).getLsbD j
    let scalar := s.now.anyMarked [uK k]
    let src (b : Nat) : Bool := x.marks.getLsbD b || y.marks.getLsbD b
    (∃ t, exec (.vmov d a 0) s = .next t ∧ SameOutside (fun k => { k with v := [] }) id s t ∧
        (∀ r : VReg, t.here.vreg r.toNat = if r = d then x else s.here.vreg r.toNat) ∧ SameRegs s.now t.now ∧
        t.now.aside = s.now.aside ∧ Retires 8 (x.marks ≠ 0) s t) ∧
      (∀ kind, k ≠ 0 → x.tag = tagOf kind ty →
        let from_ (b : Nat) : Bool := touches w sel b && x.marks.getLsbD b
        LanesV (.vmov d a k) 8 d x.tag w (slotOf (if old.tag = x.tag then x.side else old.side))
          (fun j => if sel j then some (lane w x.data j % 2 ^ ty.width) else none) (fun b => touches w sel b && scalar || from_ b)
          (scalar || (List.range 8).any from_) 0 s) ∧
      LaneWise (.vbcast ty d e k) d (tagOf .none ty) w k [] [uG e] (fun _ => (g.toNat % 2 ^ ty.width, 0)) s ∧
      (∀ kind, x.tag = tagOf kind ty → y.tag = x.tag →
        LanesV (.vsel ty d a b k) 8 d x.tag w (slotOf x.side) (fun j => some (lane w (if sel j then x.data else y.data) j % 2 ^ ty.width))
          (fun b => scalar || src b) (scalar || (List.range 8).any src) 0 s) ∧
      LaneWise (.vidx ty d e k) d (tagOf .none ty) w k [] [uG e] (fun j =>
        if ty.isInt then ((BitVec.ofNat ty.width (g.toNat + j)).toNat, 0)
        else roundTo ty ⟨.rne, false, 0⟩ (.num (g.toInt + j < 0) (g.toInt + j).natAbs 0 false)) s

/-- R188, R325: each lane of a special function is its value rounded once by Mode(Q) and the draw of its lane. The value is the model's fixed-point
one, which stands for the exact one (log 16, DESIGN CHOICE), as is the sign of tanh and erf of a zero (log 146, DESIGN CHOICE). -/
def Obligations.VectorSpecial : Prop :=
  ∀ s : State, s.control = true → ∀ (ty : Ty) (q : FQ) (d a : VReg) (k : KReg),
    let x := s.here.vreg a.toNat
    let w := ty.laneWidth
    let f (fn : Fn) (i : Instr) : Prop :=
      LaneWise i d (tagOf .none ty) w k [x] [] (fun j => roundExact ty (s.now.rounding q j) (fnV fn (value ty (lane w x.data j)))) s
    x.tag = tagOf .none ty →
      f .exp2 (.vexp2 ty q d a k) ∧ f .log2 (.vlog2 ty q d a k) ∧ f .rcp (.vrcp ty q d a k) ∧ f .rsqrt (.vrsqrt ty q d a k) ∧
        f .sqrt (.vsqrt ty q d a k) ∧ f .sinpi (.vsinpi ty q d a k) ∧ f .cospi (.vcospi ty q d a k) ∧ f .tanh (.vtanh ty q d a k) ∧
        f .sigm (.vsigm ty q d a k) ∧ f .erf (.verf ty q d a k)

/-! ### Masks (R319, R324) -/

/-- R319, R324: `vcmp` sets the bit of every selected lane whose elements meet the condition and clears all others; the mask
instructions work on all 512 bits; `kset` and `kget` move 64 of them. k0 reads as ones and discards what is written to it. -/
def maskResult : Prop :=
  ∀ s : State, s.control = true → ∀ (ty : Ty) (cond : Cond) (d a b k : KReg) (x y : VReg) (e f g : GReg),
    let p := s.here.mask a.toNat
    let q := s.here.mask b.toNat
    let w := ty.laneWidth
    let u := s.here.vreg x.toNat
    let v := s.here.vreg y.toNat
    let sel (j : Nat) : Bool := (s.here.mask k.toNat).getLsbD j
    let cmp (j : Nat) : Bool × Flags :=
      if ty.isInt then (elementsMeet cond ty (BitVec.ofNat _ (lane w u.data j)) (BitVec.ofNat _ (lane w v.data j)), 0)
      else fcmpV cond (value ty (lane w u.data j)) (value ty (lane w v.data j))
    let mark := s.now.anyMarked [uK k] || (List.range 8).any fun b => touches w sel b && (u.marks.getLsbD b || v.marks.getLsbD b)
    let ab := s.now.anyMarked [uK a, uK b]
    let part := (s.now.readG f.toNat).toNat % 8
    (u.tag = tagOf .none ty → v.tag = tagOf .none ty →
        WritesK (.vcmp ty cond d x y k) d (fun j => decide (j < laneCount w) && sel j && (cmp j).1) mark
          ((List.range (laneCount w)).foldl (fun fl j => if sel j then fl ||| (cmp j).2 else fl) 0) s) ∧
      WritesK (.kand d a b) d (p &&& q).getLsbD ab 0 s ∧ WritesK (.kor d a b) d (p ||| q).getLsbD ab 0 s ∧
      WritesK (.kxor d a b) d (p ^^^ q).getLsbD ab 0 s ∧ WritesK (.knot d a) d (~~~p).getLsbD (s.now.anyMarked [uK a]) 0 s ∧
      WritesG (.kpop g a) 8 g (BitVec.ofNat 64 ((List.range 512).countP p.getLsbD)) (s.now.anyMarked [uK a]) 0 s ∧
      WritesK (.kset d e f) d
        (fun j => if j / 64 = part then (s.now.readG e.toNat).getLsbD (j % 64) else (s.here.mask d.toNat).getLsbD j)
        (s.now.anyMarked [uG e, uG f, uK d]) 0 s ∧
      WritesG (.kget g a f) 8 g ((p >>> (64 * part)).setWidth 64) (s.now.anyMarked [uK a, uG f]) 0 s

/-! ### Reductions and permutations (R187, R326) -/

/-- R187, R326: a reduction over the selected lanes writes the sum modulo 2^width, the largest or the smallest of integers to D; of
floats the result of the tree of R187, rounded at each node; and +0 over no lane. -/
def vectorReduction : Prop :=
  ∀ s : State, s.control = true → ∀ (ty : Ty) (q : FQ) (d : GReg) (a : VReg) (k : KReg),
    let x := s.here.vreg a.toNat
    let w := ty.laneWidth
    let sel (j : Nat) : Bool := (s.here.mask k.toNat).getLsbD j
    let xs : List (BitVec ty.width) := ((List.range (laneCount w)).filter sel).map fun j => BitVec.ofNat _ (lane w x.data j)
    let p := s.now.anyMarked [uK k] || (List.range 8).any fun b => touches w sel b && x.marks.getLsbD b
    let best (op : AluOp) : BitVec ty.width :=
      match xs with
      | [] => 0
      | h :: t => t.foldl (intArith op ty) h
    let tree (f : Nat → Nat → Nat → Res) : Option Nat × Flags :=
      treeReduce f (Nat.log2 (laneCount w)) 1 ((List.range (laneCount w)).map fun j => if sel j then some (lane w x.data j) else none)
    let done (i : Instr) (n : BitVec ty.width) (f : Nat → Nat → Nat → Res) : Prop :=
      WritesG i 8 d (if ty.isInt then extended ty n else BitVec.ofNat 64 ((tree f).1.getD 0)) p (if ty.isInt then 0 else (tree f).2) s
    x.tag = tagOf .none ty →
      done (.vrsum ty q d a k) (xs.foldl (· + ·) 0) (fun i u v =>
          roundExact ty (s.now.rounding q i) (addV (s.now.rounding q i).rm (value ty u) (value ty v))) ∧
        done (.vrmax ty d a k) (best .max_) (fun _ u v => roundExact ty ⟨.rne, false, 0⟩ (pickV true (value ty u) (value ty v))) ∧
        done (.vrmin ty d a k) (best .min_) (fun _ u v => roundExact ty ⟨.rne, false, 0⟩ (pickV false (value ty u) (value ty v)))

/-- Comparisons into masks, mask instructions and reductions. -/
def Obligations.MaskAndReduction : Prop := maskResult ∧ vectorReduction


/-- R193, R326: permutations write lane `j` of D, where the mask selects it, from the lane of the sources that the instruction names; a
mark of a source marks all of D. `vext` and `vins` move one lane. -/
def vectorPermute : Prop :=
  ∀ s : State, s.control = true → ∀ (ty : Ty) (h : Bool) (d a b : VReg) (e f : GReg) (k : KReg),
    let x := s.here.vreg a.toNat
    let y := s.here.vreg b.toNat
    let w := ty.laneWidth
    let n := laneCount w
    let sel (j : Nat) : Bool := (s.here.mask k.toNat).getLsbD j
    let tag := tagOf .none ty
    let moves (i : Instr) (xs : List VRegState) (us : List Nat) (g : Nat → Nat) : Prop :=
      WholeV i d tag w (uK k :: us) xs (fun _ => true) (slotOf (s.here.vreg d.toNat).side)
        (fun j => if sel j then some (g j % 2 ^ ty.width, 0) else none) s
    let one := (s.now.readG f.toNat).toNat % n
    (x.tag = tag →
      (y.tag = tagOf .none (indexTy w) → moves (.vperm ty d a b k) [x, y] [] fun j => lane w x.data (lane w y.data j % n)) ∧
        moves (.vrotl ty d a f k) [x] [uG f] (fun j => lane w x.data ((j + (s.now.readG f.toNat).toNat) % n)) ∧
        (y.tag = tag →
          moves (.vzip ty h d a b k) [x, y] []
              (fun j => lane w (if j % 2 = 0 then x.data else y.data) (j / 2 + if h then n / 2 else 0)) ∧
            moves (.vunzip ty h d a b k) [x, y] []
              (fun j => if j < n / 2 then lane w x.data (2 * j + if h then 1 else 0)
                else lane w y.data (2 * (j - n / 2) + if h then 1 else 0))) ∧
        (let v := lane w x.data one % 2 ^ ty.width
         WritesG (.vext ty e a f) 8 e (if ty.isInt then extended ty (BitVec.ofNat _ v) else BitVec.ofNat 64 v)
          (s.now.anyMarked [uG f] || x.marks.getLsbD (w * one / 256)) 0 s)) ∧
      (let p := s.now.anyMarked [uG e, uG f]
       LanesV (.vins ty d e f) 8 d tag w (slotOf (s.here.vreg d.toNat).side)
        (fun j => if j = one then some ((s.now.readG e.toNat).toNat % 2 ^ ty.width) else none) (fun b => p && w * one / 256 = b) p 0 s)

/-! ### Conversions (R167, R184, R185, R327 to R331) -/

/-- R327 to R331: conversions of part P, under a mask; `vqnt` scales each block of 32 elements by R184 and fills the slots of its
part, `vdqnt` multiplies by the slots of A, `vretag` and `vtag` move tags; `vtag` of an empty tag takes FORMAT_MISMATCH
(DEDUCED, assumption 130). That the rounding of a scale raises no flag, and i8's largest finite value, are DEDUCED (log 42), and
that a signalling NaN scale raises none is a DESIGN CHOICE (log 147). Lanes of 6-bit formats are read and written in 6 bits (R165). -/
def vectorConvert : Prop :=
  ∀ s : State, s.control = true → ∀ (ty sty : Ty) (kind : Kind) (q : FQ) (d a : VReg) (e : GReg) (part : BitVec 3) (k : KReg)
    (tag : BitVec 6),
    let x := s.here.vreg a.toNat
    let old := s.here.vreg d.toNat
    let ws := sty.laneWidth
    let wd := ty.laneWidth
    let ls := laneCount ws
    let ld := laneCount wd
    let p := part.toNat
    let sel (j : Nat) : Bool := (s.here.mask k.toNat).getLsbD j
    -- the source lane of lane `j` of D, if the part has one
    let from_ (j : Nat) : Option Nat := if ls ≤ ld then (if p * ls ≤ j ∧ j < p * ls + ls then some (j - p * ls) else none) else some (p * ld + j)
    let reads (b : Nat) : Bool := (List.range ld).any fun j => sel j && (from_ j).any fun i => ws * i / 256 = b
    let rd (j : Nat) : Rounding := s.now.rounding q j
    (x.tag = tagOf .none sty → p < max ls ld / min ls ld →
        WholeV (.vcvt ty sty q d a part k) d (tagOf .none ty) wd [uK k] [x] reads (slotOf old.side)
          (fun j => if sel j then (from_ j).map fun i => roundTo ty (rd j) (value sty (lane ws x.data i)) else none) s) ∧
      (kind ≠ .none → x.tag = tagOf kind sty → p < max ls ld / min ls ld →
        WholeV (.vdqnt ty q d a part k) d (tagOf .none ty) wd [uK k] [x] reads (slotOf old.side)
          (fun j => if sel j then (from_ j).map fun i => roundTo ty (rd j) (scaledValue sty (lane ws x.data i) (slotOf x.side (i / 32)))
            else none) s) ∧
      (sty = .f32 ∨ sty = .f16 ∨ sty = .bf16 → x.tag = tagOf .none sty → ls ≤ ld → p < ld / ls →
        let block (b : Nat) : Nat × List Res :=
          quantBlock ty kind ((List.range 32).map fun i => value sty (lane ws x.data (32 * b + i))) fun i => rd (p * ls + 32 * b + i)
        WholeV (.vqnt ty kind q d a part) d (tagOf kind ty) wd [] [x] (fun _ => true)
          (fun b => if p * ls / 32 ≤ b ∧ b < p * ls / 32 + ls / 32 then (block (b - p * ls / 32)).1 else slotOf old.side b)
          (fun j => (from_ j).map fun i => (block (i / 32)).2.getD (i % 32) (0, 0)) s) ∧
      (∃ t, exec (.vretag d a tag) s = .next t ∧ SameOutside (fun k => { k with v := [] }) id s t ∧
        (∀ r : VReg, t.here.vreg r.toNat = if r = d then { x with tag := tag } else s.here.vreg r.toNat) ∧ SameRegs s.now t.now ∧
        t.now.aside = s.now.aside ∧ Retires 8 (x.marks ≠ 0) s t) ∧
      (x.tag ≠ 0x30 → WritesG (.vtag e a) 8 e (x.tag.setWidth 64) false 0 s) ∧
      (x.tag = 0x30 → Traps (.vtag e a) 8 .formatMismatch (BitVec.ofNat 64 (48 + a.toNat)) s)

/-- Permutations and conversions, with tags and scales. -/
def Obligations.PermuteAndConvert : Prop := vectorPermute ∧ vectorConvert


/-! ### Vector memory (R161, R321, R332 to R334) -/

/-- The bytes that lane `j` of `w` bits occupies in memory are among byte `o` (R165). -/
def laneHas (w j o : Nat) : Bool := w * j / 8 ≤ o && o ≤ (w * (j + 1) - 1) / 8

/-- A unit-stride access of the lanes that `sel` selects, at `va`: each 32-byte sector that holds a byte of one is one access, from
its first such byte to its last, and reaches local space; byte `o` lies at `key o` (R165, R321, R332). -/
def sectorsAt (s : State) (va : Ptr) (k : Access) (used : Nat → Bool) (key : Nat → Nat) : Prop :=
  ∀ b lo hi, b < 8 → 32 * b ≤ lo → lo ≤ hi → hi < 32 * (b + 1) → used lo = true → used hi = true →
    (∀ o, 32 * b ≤ o → o < 32 * (b + 1) → used o = true → lo ≤ o ∧ o ≤ hi) →
    s.reachesLocal (va + BitVec.ofNat 72 lo) (hi - lo + 1) k ((List.range (hi - lo + 1)).map fun i => key (lo + i))

/-- The bytes lie in the scratchpad of the core itself, for which nothing leaves its router. -/
def allOwn (s : State) (key : Nat → Nat) : Bool := (List.range 256).all fun o => keySpace (key o) = 3 && keyCore (key o) = s.curCore
/-- No budget holds the accesses to them back (R71). -/
def unheldAt (s : State) (key : Nat → Nat) : Prop := s.unlimited ∨ allOwn s key = true
/-- What a vector load changes of its core: vector registers, and the injection count when it reads elsewhere (R71). -/
def loadHides (s : State) (key : Nat → Nat) (k : Core) : Core := { k with v := [], injUse := if allOwn s key then k.injUse else 0 }

/-- A vector load from local space (R165, R193): the selected lanes receive their bits of the bytes at `key`, and the sectors of lanes
with a marked byte are marked. -/
def loadsLanes (i : Instr) (ty : Ty) (d : VReg) (tag : BitVec 6) (sel : Nat → Bool) (key : Nat → Nat) (scalar all : Bool)
    (extra : Nat → Bool) (s : State) : Prop :=
  let bytes := (List.range 256).map fun o => (s.sees (key o)).1
  let hurt (j : Nat) : Bool := sel j && (List.range 256).any fun o => laneHas ty.width j o && (s.sees (key o)).2
  LanesIn (loadHides s key) i 8 d tag ty.laneWidth (slotOf (s.here.vreg d.toNat).side)
    (fun j => if sel j then some (bitsOfBytes bytes / 2 ^ (ty.width * j) % 2 ^ ty.width) else none)
    (fun b => touches ty.laneWidth sel b && (all || extra b) || touches ty.laneWidth hurt b)
    (scalar || all || (List.range 8).any extra || (List.range (laneCount ty.laneWidth)).any hurt) 0 s

/-- R71, R145, R165, R193, R321, R332: loads from local space. A register's lanes come from consecutive bytes, from eight strided segments of
32 bytes, or from 64 indexed words; a marked mask or index marks what it selects. -/
def lanesLoaded : Prop :=
  ∀ s : State, s.control = true → ∀ (ty : Ty) (kind : Kind) (m : MQ) (d a : VReg) (b : PReg) (off : BitVec 21) (e : GReg) (k : KReg)
    (key : Nat → Nat),
    let va := s.now.readP b.toNat + off.signExtend 72
    let sel (j : Nat) : Bool := decide (j < laneCount ty.laneWidth) && (s.here.mask k.toNat).getLsbD j
    let every (_ : Nat) : Bool := true
    let base := s.now.anyMarked [uP b]
    let x := s.here.vreg a.toNat
    let index (j : Nat) : Int :=
      if x.tag = tagOf .none .i32 then (BitVec.ofNat 32 (lane 32 x.data j)).toInt else (lane 32 x.data j : Int)
    s.unordered m.ord → unheldAt s key →
      (va.toNat % 32 = 0 →
        sectorsAt s va .read (fun o => (List.range (laneCount ty.laneWidth)).any fun j => sel j && laneHas ty.width j o) key →
        loadsLanes (.vld ty kind m d b off k) ty d (tagOf kind ty) sel key base (s.now.anyMarked [uK k]) (fun _ => false) s) ∧
      (let stride := s.now.readG e.toNat
       va.toNat % 32 = 0 → stride.toNat % 32 = 0 →
        (∀ i : Nat, i < 8 → s.reachesLocal (va + BitVec.ofInt 72 (i * stride.toInt)) 32 .read ((List.range 32).map fun o => key (32 * i + o))) →
        loadsLanes (.vlds ty m d b off e) ty d (tagOf .none ty) every key (s.now.anyMarked [uP b, uG e]) false (fun _ => false) s) ∧
      (x.tag = tagOf .none .i32 ∨ x.tag = tagOf .none .n32 → va.toNat % 4 = 0 →
        (∀ j : Nat, j < 64 → s.reachesLocal (va + BitVec.ofInt 72 (4 * index j)) 4 .read ((List.range 4).map fun o => key (4 * j + o))) →
        loadsLanes (.vgath ty m d b off a) ty d (tagOf .none ty) every key base false x.marks.getLsbD s)

/-- The `n` bytes of scale slots at `va`, cut at sectors of 32 bytes, reach local space; byte `o` lies at `key o` (R321, R332). -/
def slotsAt (s : State) (va : Ptr) (k : Access) (n : Nat) (key : Nat → Nat) : Prop :=
  ∀ b < 3,
    let lo := 32 * b - va.toNat % 32
    let hi := min (32 * (b + 1) - va.toNat % 32) n
    lo < hi → s.reachesLocal (va + BitVec.ofNat 72 lo) (hi - lo) k ((List.range (hi - lo)).map fun i => key (lo + i))

/-- A vector store to local space: its bytes `val`, those that `used` names, are what the context sees next at `key`, the later where
two coincide; it sees every other byte as before, and no register changes. An unordered store changes no byte of memory
until it drains, and is seen with its marks. -/
def storesBytes (i : Instr) (n : Nat) (used : Nat → Bool) (key : Nat → Nat) (val : Nat → Byte) (mark : Nat → Option Bool) (m : MQ) (p : Bool)
    (s : State) : Prop :=
  ∃ t, exec i s = .next t ∧ Retires 8 p s t ∧ SameRegs s.now t.now ∧ (∀ r : VReg, t.here.vreg r.toNat = s.here.vreg r.toNat) ∧
    (∀ o, o < n → used o = true → (∀ q, o < q → q < n → used q = true → key q ≠ key o) →
      (t.sees (key o)).1 = val o ∧ (bypasses m.ord m.scope = false → ∀ v, mark o = some v → (t.sees (key o)).2 = v)) ∧
    (∀ k, (∀ o, o < n → used o = true → key o ≠ k) → (t.sees k).1 = (s.sees k).1) ∧
    (bypasses m.ord m.scope = false → ∀ k, t.peek k = s.peek k)

/-- R165, R167, R321, R332: stores to local space, of the selected lanes at consecutive bytes, of eight strided segments, of 64 indexed
words with the higher lane winning, and of the scale slots. -/
def Obligations.VectorStores : Prop :=
  ∀ s : State, s.control = true → ∀ (ty : Ty) (kind : Kind) (m : MQ) (a d : VReg) (b : PReg) (off : BitVec 21) (e : GReg) (k : KReg)
    (key : Nat → Nat),
    let va := s.now.readP b.toNat + off.signExtend 72
    let sel (j : Nat) : Bool := decide (j < laneCount ty.laneWidth) && (s.here.mask k.toNat).getLsbD j
    let base := s.now.anyMarked [uP b]
    let x := s.here.vreg a.toNat
    let i := s.here.vreg d.toNat
    let w := ty.laneWidth
    let index (j : Nat) : Int :=
      if i.tag = tagOf .none .i32 then (BitVec.ofNat 32 (lane 32 i.data j)).toInt else (lane 32 i.data j : Int)
    let byte (n o : Nat) : Byte := BitVec.ofNat 8 (n / 2 ^ (8 * o))
    -- the lanes as they lie in memory, Width(TY) bits each
    let packed : Nat := ((List.range (laneCount w)).map fun j => lane w x.data j % 2 ^ ty.width * 2 ^ (ty.width * j)).sum
    let used (o : Nat) : Bool := (List.range (laneCount w)).any fun j => sel j && laneHas ty.width j o
    s.unordered m.ord → s.unwatched s.curCore = true → (bypasses m.ord m.scope = true → unheldAt s key) →
      (va.toNat % 32 = 0 → x.tag = tagOf kind ty → sectorsAt s va .write used key →
        let p := base || s.now.anyMarked [uK k] || (List.range 8).any fun c => touches w sel c && x.marks.getLsbD c
        storesBytes (.vst ty kind m b off a k) 256 used key (byte packed)
          (fun o => if ty.width = w then some (x.marks.getLsbD (o / 32) || s.now.anyMarked [uK k]) else none) m p s) ∧
      (let stride := s.now.readG e.toNat
       va.toNat % 32 = 0 → stride.toNat % 32 = 0 → x.tag = tagOf .none ty →
        (∀ i : Nat, i < 8 → s.reachesLocal (va + BitVec.ofInt 72 (i * stride.toInt)) 32 .write ((List.range 32).map fun o => key (32 * i + o))) →
        storesBytes (.vsts ty m b off a e) 256 (fun _ => true) key (byte x.data.toNat) (fun o => some (x.marks.getLsbD (o / 32))) m
          (s.now.anyMarked [uP b, uG e] || x.marks != 0) s) ∧
      (i.tag = tagOf .none .i32 ∨ i.tag = tagOf .none .n32 → x.tag = tagOf .none ty → va.toNat % 4 = 0 →
        (∀ j : Nat, j < 64 → s.reachesLocal (va + BitVec.ofInt 72 (4 * index j)) 4 .write ((List.range 4).map fun o => key (4 * j + o))) →
        storesBytes (.vscat ty m b off a d) 256 (fun _ => true) key (byte x.data.toNat)
          (fun o => some (x.marks.getLsbD (o / 32) || i.marks.getLsbD (o / 32))) m (base || x.marks != 0 || i.marks != 0) s) ∧
      (kind ≠ .none → (∃ ty, x.tag = tagOf kind ty) → va.toNat % 16 = 0 →
        let n := if kind = .ws then 64 else 16
        slotsAt s va .write n key →
        storesBytes (.vstsc kind m b off a) n (fun _ => true) key
          (if kind = .ws then byte x.side.toNat else fun o => BitVec.ofNat 8 (slotE8M0 (slotOf x.side o))) (fun _ => some (x.marks != 0)) m
          (base || x.marks != 0) s)

/-- R167, R193, R332: `vldsc` fills the scale slots of D from local space, one byte of E8M0 each or binary32, and changes nothing else of D
but its marks, which a marked byte sets, by sector (log 45, DEDUCED). -/
def scalesLoaded : Prop :=
  ∀ s : State, s.control = true → ∀ (kind : Kind) (m : MQ) (d : VReg) (b : PReg) (off : BitVec 21) (key : Nat → Nat),
    let va := s.now.readP b.toNat + off.signExtend 72
    let old := s.here.vreg d.toNat
    let n := if kind = .ws then 64 else 16
    let read (o : Nat) : Byte := (s.sees (key o)).1
    let bad := (List.range n).any fun o => (s.sees (key o)).2
    s.unordered m.ord → unheldAt s key → va.toNat % 16 = 0 → slotsAt s va .read n key →
      ∃ t, exec (.vldsc kind m d b off) s = .next t ∧
        SameOutside (loadHides s key) id s t ∧ (∀ k, t.peek k = s.peek k) ∧ (∀ r : VReg, r ≠ d → t.here.vreg r.toNat = s.here.vreg r.toNat) ∧
        (let y := t.here.vreg d.toNat
         y.data = old.data ∧ y.tag = old.tag ∧ y.marks = (if bad then BitVec.allOnes 8 else old.marks) ∧
           ∀ c < 16, slotOf y.side c =
             if kind = .ws then bitsOfBytes ((List.range 4).map fun o => read (4 * c + o)) else widenE8M0 (read c).toNat) ∧
        SameRegs s.now t.now ∧ Retires 8 (s.now.anyMarked [uP b] || bad) s t

/-- Vector and scale loads from local space. -/
def Obligations.VectorLoads : Prop := lanesLoaded ∧ scalesLoaded


/-- R133, R156, R333: `vldw` on 32 words of a scratchpad whose full bits are set loads them and clears the bits; `vstp` stores 32 words
and sets their bits. -/
def Obligations.VectorFullBits : Prop :=
  ∀ s : State, s.control = true → s.settled s.curCore 1 = true → ∀ (ty : Ty) (kind : Kind) (m : MQ) (a d : VReg) (b : PReg)
    (off : BitVec 21) (ks : List Nat),
    let va := s.now.readP b.toNat + off.signExtend 72
    let x := s.here.vreg a.toNat
    let words := ks.map (· / 8)
    let bad := ks.any s.poisoned
    va.toNat % 8 = 0 → (∀ k ∈ ks, keySpace k = 3) → s.unheld ks →
      (s.reachesLocal va 256 .read ks → (∀ k ∈ ks, s.fullBit k = true) →
        s.earlierWaiter ks = false →
        ∃ t, exec (.vldw ty kind m d b off) s = .next t ∧ (t.here.vreg d.toNat).tag = tagOf kind ty ∧
            (∀ j < laneCount ty.laneWidth, lane ty.laneWidth (t.here.vreg d.toNat).data j =
              bitsOfBytes (ks.map s.peek) / 2 ^ (ty.width * j) % 2 ^ ty.width) ∧
            (∀ c < 8, (t.here.vreg d.toNat).marks.getLsbD c = touches ty.laneWidth
              (fun j => (List.range 256).any fun o => laneHas ty.width j o && s.poisoned (ks.getD o 0)) c) ∧
            (∀ r : VReg, r ≠ d → t.here.vreg r.toNat = s.here.vreg r.toNat) ∧
            (∀ k, t.fullBit k = if k / 8 ∈ words then false else s.fullBit k) ∧ (∀ k, t.peek k = s.peek k) ∧ SameRegs s.now t.now ∧
            Retires 8 (s.now.anyMarked [uP b] || bad) s t) ∧
      (s.reachesLocal va 256 .write ks → x.tag = tagOf .none .i8 → (∀ k ∈ ks, s.waiters k = []) →
        ∃ t, exec (.vstp m b off a) s = .next t ∧ ks.map t.peek = bytesOfBits 256 x.data.toNat ∧ (∀ k, k ∉ ks → t.peek k = s.peek k) ∧
          (∀ k, t.fullBit k = if k / 8 ∈ words then true else s.fullBit k) ∧ SameRegs s.now t.now ∧
          (∀ r : VReg, t.here.vreg r.toNat = s.here.vreg r.toNat) ∧ Retires 8 (s.now.anyMarked [uP b] || x.marks != 0) s t)

/-- R161, R334: `tsta` on a tile of local space with an even version writes the tags, the data and the slots of its registers, and the
version moves on by two; `tlda` on such a tile loads the registers it holds, an invalid tag as the empty tag. -/
def tileMoved : Prop :=
  ∀ s : State, s.control = true → s.settled s.curCore 1 = true → s.unlimited → ∀ (sc : Scope) (h : Hint) (b : PReg) (off : BitVec 32)
    (a : VReg) (n : BitVec 4) (key : Nat → Nat),
    let va := s.now.readP b.toNat + off.signExtend 72
    let count := n.toNat + 1
    let total := 256 + 320 * count
    let bytes (t : State) (from_ len : Nat) : List Byte := (List.range len).map fun i => t.peek (key (from_ + i))
    let version := bitsOfBytes (bytes s 0 8)
    let reg (t : State) (i : Nat) : VRegState := t.here.vreg (a.toNat + i)
    let hurt (from_ len : Nat) : Bool := (List.range len).any fun i => s.poisoned (key (from_ + i))
    a.toNat + count ≤ 16 → va.toNat % 64 = 0 → version % 2 = 0 → (∀ i j, i < total → j < total → key i = key j → i = j) →
      ((∀ i < count, (reg s i).tag ≠ emptyTag) → s.reachesLocal va 8 .update ((List.range 8).map key) →
        s.reachesLocal (va + 8) 24 .write ((List.range 24).map fun i => key (8 + i)) →
        (∀ c, 1 ≤ c → c < total / 32 → s.reachesLocal (va + BitVec.ofNat 72 (32 * c)) 32 .write ((List.range 32).map fun i => key (32 * c + i))) →
        ∃ t, exec (.tsta sc h b off a n) s = .next t ∧ bytes t 0 8 = bytesOfBits 8 (version + 2) ∧
          (∀ i < 16, t.peek (key (8 + i)) = if i < count then (reg s i).tag.setWidth 8 else 0) ∧
          (∀ o, 24 ≤ o → o < 256 → t.peek (key o) = 0) ∧
          (∀ i < count, bytes t (256 + 320 * i) 256 = bytesOfBits 256 (reg s i).data.toNat ∧
            bytes t (512 + 320 * i) 64 = bytesOfBits 64 (reg s i).side.toNat) ∧
          (∀ k, (∀ o < total, key o ≠ k) → t.peek k = s.peek k) ∧ SameRegs s.now t.now ∧
          (∀ r : VReg, t.here.vreg r.toNat = s.here.vreg r.toNat) ∧
          Retires 12 (s.now.anyMarked [uP b] || hurt 0 8 || (List.range count).any fun i => (reg s i).marks != 0) s t) ∧
      ((∀ c, c < total / 32 → s.reachesLocal (va + BitVec.ofNat 72 (32 * c)) 32 .read ((List.range 32).map fun i => key (32 * c + i))) →
        ∃ t, exec (.tlda sc h a b off n) s = .next t ∧
          (∀ i < count,
            let tag := s.peek (key (8 + i))
            let y := reg t i
            y.tag = (if tag.toNat < 64 ∧ tagValid (tag.setWidth 6) = true then tag.setWidth 6 else emptyTag) ∧
              bytesOfBits 256 y.data.toNat = bytes s (256 + 320 * i) 256 ∧ bytesOfBits 64 y.side.toNat = bytes s (512 + 320 * i) 64 ∧
              y.marks = if hurt (256 + 320 * i) 320 || s.poisoned (key (8 + i)) then BitVec.allOnes 8 else 0) ∧
          (∀ r : VReg, r.toNat < a.toNat ∨ a.toNat + count ≤ r.toNat → t.here.vreg r.toNat = s.here.vreg r.toNat) ∧
          (∀ k, t.peek k = s.peek k) ∧ SameRegs s.now t.now ∧ Retires 12 (s.now.anyMarked [uP b] || hurt 0 total) s t)

/-- R161: a try of `tlda` or `tsta` on a tile whose version is odd fails and is repeated, without any effect; when 64 of them have failed the
instruction takes TILE_RETRY with the low half of the address. -/
def tileRetries : Prop :=
  ∀ s : State, s.curSlot = 1 → s.now.text = none → s.settled s.curCore 1 = true → s.unlimited → s.here.pair = none → s.now.stage = 0 →
    s.now.remote = .idle → s.now.eaten = 0 → s.now.places = [] → s.now.lates = [] →
    ∀ (sc : Scope) (h : Hint) (b : PReg) (off : BitVec 32) (a : VReg) (n : BitVec 4) (key : Nat → Nat),
    let va := s.now.readP b.toNat + off.signExtend 72
    let total := 256 + 320 * (n.toNat + 1)
    va.toNat % 64 = 0 → bitsOfBytes ((List.range 8).map fun i => s.peek (key i)) % 2 = 1 →
      let fails (i : Instr) : Prop :=
        (64 ≤ s.now.tries → Traps i 12 .tileRetry (va.setWidth 64) s) ∧
          (s.now.tries < 64 → s.now.halted = false →
            ∃ t, exec i s = .next t ∧ t.now.tries = s.now.tries + 1 ∧ t.now.pc = s.now.pc ∧ t.now.retired = s.now.retired ∧
              SameRegs s.now t.now ∧ (∀ r : VReg, t.here.vreg r.toNat = s.here.vreg r.toNat) ∧ ∀ k, t.peek k = s.peek k)
      ((∀ c, c < total / 32 → s.reachesLocal (va + BitVec.ofNat 72 (32 * c)) 32 .read ((List.range 32).map fun i => key (32 * c + i))) →
        fails (.tlda sc h a b off n)) ∧
      ((∀ i ≤ n.toNat, (s.here.vreg (a.toNat + i)).tag ≠ emptyTag) → s.reachesLocal va 8 .update ((List.range 8).map key) →
        s.reachesLocal (va + 8) 24 .write ((List.range 24).map fun i => key (8 + i)) →
        (∀ c, 1 ≤ c → c < total / 32 → s.reachesLocal (va + BitVec.ofNat 72 (32 * c)) 32 .write ((List.range 32).map fun i => key (32 * c + i))) →
        fails (.tsta sc h b off a n))

/-- tlda and tsta: the version protocol of tiles. -/
def Obligations.TileResult : Prop := tileMoved ∧ tileRetries


/-! ### The matrix group (R335 to R344) -/

/-- R92, R335 to R337, R340, R341: matrix commands join the engine's queue of two when it has room, with MANCHOR, and what they read at
issue; `mbegin` clamps its anchor to 12 bits and opens a chain, and `mend` closes it. No register and no byte of memory changes. -/
def Obligations.MatrixQueued : Prop :=
  ∀ s : State, s.control = true → (s.jobOf s.curCore).any Job.noMatrix = false → s.settled s.curCore 1 = true →
    ∀ (d : AccReg) (x y : MmaOperand) (c : Option PReg) (bk : Bool) (b : PReg) (off : BitVec 32) (stride : BitVec 16) (ty : Ty) (q : FQ)
      (e : GReg),
    let va := s.now.readP b.toNat + off.signExtend 72
    let base (o : MmaOperand) := s.now.readP o.base.toNat
    let done (i : Instr) (bytes : Nat) (p : Bool) (r : State → Prop) : Prop :=
      ∃ t, exec i s = .next t ∧ SameRegs s.now t.now ∧ Retires bytes p s t ∧ (∀ k, t.peek k = s.peek k) ∧
        (∀ a, t.here.tile a = s.here.tile a) ∧ r t
    let queued (i : Instr) (bytes : Nat) (op : MatOp) (p : Bool) : Prop :=
      s.here.matq.length < 2 →
        done i bytes p fun t => t.here.matq = s.here.matq ++ [⟨op, s.here.manchor, s.now.pc, s.now.gen, none⟩] ∧
          t.here.manchor = s.here.manchor
    let one := s.now.anyMarked [uP b]
    (let v := (s.now.readG e.toNat).toInt
     done (.mbegin e) 8 (s.now.anyMarked [uG e]) fun t => t.here.matq = s.here.matq ∧ t.here.chain = true ∧
        t.here.manchor.toInt = min (max v (-2048)) 2047) ∧
      done .mend 8 false (fun t => t.here.matq = s.here.matq ∧ t.here.chain = false ∧ t.here.manchor = s.here.manchor) ∧
      queued (.mzero d) 8 (.mzero d) false ∧
      ((base x).toNat % 8 = 0 → (base y).toNat % 8 = 0 → x.stride.toNat % 8 = 0 → y.stride.toNat % 8 = 0 →
        (∀ r, c = some r → (s.now.readP r.toNat).toNat % 16 = 0) →
        queued (.mma d x y c bk) 16 (.mma d x y (base x) (base y) (c.map fun r => s.now.readP r.toNat) bk)
          (s.now.anyMarked ([uP x.base, uP y.base] ++ (c.map uP).toList))) ∧
      (va.toNat % 16 = 0 → stride.toNat % 16 = 0 → 512 ≤ stride.toNat →
        queued (.mld d b off stride) 12 (.mld d va stride.toNat) one) ∧
      (va.toNat % 8 = 0 → stride.toNat % 8 = 0 → 32 * ty.width / 8 ≤ stride.toNat →
        queued (.mst ty q b off d stride) 12 (.mst ty q.sat (s.now.mode q.rm) s.now.seed va d stride.toNat) one)

/-- R336: `manch` writes the proposed anchor of a product of types and scales to D, sign-extended; types 1 to 7 count as i8, a count
of zero as one. -/
def anchorProposed : Prop :=
  ∀ s : State, s.control = true → (s.jobOf s.curCore).any Job.noMatrix = false → ∀ d a b : GReg,
    let x := s.now.readG a.toNat
    let y := s.now.readG b.toNat
    let ty (code : Nat) : Ty := tagTy.tyOfCode (BitVec.ofNat 4 (if code < 8 then 0 else code))
    let n := x.toNat / 2 ^ 32
    WritesG (.manch d a b) 8 d
      (BitVec.ofInt 64 (anchorOf (ty (x.toNat % 16)) (ty (x.toNat / 2 ^ 8 % 16)) (y.toNat % 2 ^ 32) (y.toNat / 2 ^ 32) (max n 1)))
      (s.now.anyMarked [uG a, uG b]) 0 s

/-- R343, R344: `mldt` of a tile of 32 rows in the swizzle window of the core's own scratchpad writes it transposed to registers of
tag (none, TY); elsewhere it takes PERMISSION. `mwait` completes when the queue is empty. -/
def transposedLoad : Prop :=
  ∀ s : State, s.control = true → (s.jobOf s.curCore).any Job.noMatrix = false →
    (s.here.matq = [] → s.settled s.curCore 1 = true →
      ∃ t, exec .mwait s = .next t ∧ SameRegs s.now t.now ∧ Retires 8 false s t ∧ ∀ k, t.peek k = s.peek k) ∧
    ∀ (ty : Ty) (d : VReg) (b : PReg) (off : BitVec 32) (key : Nat),
    let va := s.now.readP b.toNat + off.signExtend 72
    let w := ty.width / 8
    let pitch := if s.here.swzCtl.getLsbD 1 then 128 else 64
    let base := s.here.swzBase.toNat / 2 ^ 12 % 2 ^ 9 * 4096
    let size := s.here.swzCtl.toNat / 2 ^ 8 % 2 ^ 9 * 4096
    let o := va.toNat % 2 ^ 24
    let row (i : Nat) : List Nat := s.keysOf (keyScratch s.curCore (o + i * pitch)) (32 * w)
    let elem (i c : Nat) : Nat := bitsOfBytes ((((row i).drop (c * w)).take w).map fun k => (s.sees k).1)
    let bad := (List.range 32).any fun i => (row i).any fun k => (s.sees k).2
    let inside : Prop := s.here.swzCtl.getLsbD 0 = true ∧ 32 * w ≤ pitch ∧ base ≤ o ∧ o + 31 * pitch + 32 * w ≤ base + size
    va.toNat % 4 = 0 → s.locate s.curCore s.curSlot va.toNat 1 .read = (.at_ key, s) → keySpace key = 3 → keyCore key = s.curCore →
      keyAddr key % 2 ^ 24 = o →
      (¬inside → Traps (.mldt ty d b off) 12 .permission (va.setWidth 64) s) ∧
      (inside → ty.width = ty.laneWidth → w ∣ 8 → 0 < w → d.toNat + 4 * w ≤ 16 →
        s.fenced s.curCore = false → s.unwatched s.curCore = true →
        ∃ t, exec (.mldt ty d b off) s = .next t ∧ SameOutside (fun k => { k with v := [] }) id s t ∧
          (∀ q < 4 * w,
            let y := t.here.vreg (d.toNat + q)
            y.tag = tagOf .none ty ∧ (∀ l < 256 / w, lane (8 * w) y.data l = elem (l % 32) (q * (8 / w) + l / 32)) ∧
              y.side = (s.here.vreg (d.toNat + q)).side ∧ y.marks = if bad then BitVec.allOnes 8 else 0) ∧
          (∀ r : VReg, r.toNat < d.toNat ∨ d.toNat + 4 * w ≤ r.toNat → t.here.vreg r.toNat = s.here.vreg r.toNat) ∧
          SameRegs s.now t.now ∧ Retires 12 (s.now.anyMarked [uP b] || bad) s t ∧ ∀ k, t.peek k = s.peek k)

/-- manch, mldt and mwait. -/
def Obligations.AnchorAndTransposed : Prop := anchorProposed ∧ transposedLoad


/-! ### Events of the device -/

/-- An event happens and leaves a state of which `q` holds. -/
def happens (i : Instr) (s : State) (q : State → Prop) : Prop := ∃ t, exec i s = .next t ∧ q t

/-- Nothing but core `c` has changed. -/
def onlyCore (s t : State) (c : Nat) : Prop := t.bare = s.bare ∧ ∀ d, d ≠ c → t.core d = s.core d

/-- No context waits for a word of the core's scratchpad: one that does receives the word when it is set, and the full bit clears (R133). -/
def quietWords (s : State) (c : Nat) : Prop := ∀ o, s.waiters (keyScratch c o) = []

/-- A core whose boot deliveries reach its scratchpad at once (R361). -/
def takesBoot (s : State) (c : Nat) : Prop := s.healthy c = true ∧ (s.core c).split ≠ 0

/-- The flits by which a router with coordinates `w` passes a boot packet on (R365): along the boot corner's row, then along every
column. -/
def castFlits (c : Nat) (w : Word) (kind seq : Nat) (data : List Byte) : List Flight :=
  (if discY w = nearRow w ∧ discX w ≠ farColumn w then [⟨nextX w, .bootCast c kind seq data, nextX w, .xy⟩] else []) ++
    (if discY w = farRow w then [] else [⟨nextY w, .bootCast c kind seq data, nextY w, .xy⟩])

/-- The flits of the flood from a router that has taken its coordinates (R364). -/
def floodFlits (c : Nat) (w : Word) : List Flight :=
  (if discX w = farColumn w then [] else [⟨nextX w, .bootDisc c true w, nextX w, .xy⟩]) ++
    (if discY w = farRow w then [] else [⟨nextY w, .bootDisc c false w, nextY w, .xy⟩])

/-- R361 to R363: what a core puts into its out slot goes out by its kind, and OUTACK becomes full: a discovery word makes the router
take its coordinates and flood, map, image and GO packets are passed on, a stage packet sets BOOTSTAT. Stated where no context waits for a word; what
one that waits receives is a clause of FullBits. -/
def bootOut : Prop :=
  ∀ (s : State) (kind seq : Nat) (pay : List Byte) (t : State), s.outSlot s.input.core = some (kind, seq, pay, t) →
    quietWords s s.input.core →
    let c := s.input.core
    let sent (i : Instr) (q : State → Prop) : Prop :=
      happens i s fun u => (takesBoot s c → u.fullBit (keyScratch c 0x40) = false ∧ u.fullBit (keyScratch c 0x10) = true) ∧ q u
    (kind = 1 →
      let w : Word := BitVec.ofNat 64 (bitsOfBytes (pay.take 8))
      sent .bootDisc fun u => u.bootStage = 2 ∧ (u.core c).bootWord = some w ∧ u.net = s.net ++ floodFlits c w) ∧
      (∀ w, (s.core c).bootWord = some w →
        (kind = 2 → sent .bootMap fun u => u.net = s.net ++ castFlits c w 2 seq pay ∧
          u.bootStage = if seq = 0 then 3 else s.bootStage) ∧
        (kind = 3 → sent .bootImg fun u => u.net = s.net ++ castFlits c w 3 seq pay ∧ u.bootStage = s.bootStage) ∧
        (kind = 5 → sent .bootGo fun u => u.net = s.net ++ castFlits c w 5 0 [] ∧ u.bootStage = s.bootStage)) ∧
      (kind = 4 →
        let v := bitsOfBytes (pay.take 4)
        sent .bootStage fun u => u.bootStage = BitVec.ofNat 4 v ∧ u.bootDetail = BitVec.ofNat 16 (v / 2 ^ 16) ∧ u.net = s.net)

/-- R364 to R366: what a router in boot mode does with a flit: a discovery flit gives it its coordinates, and it floods on; a map packet
goes into its scratchpad, an image packet into its vault (when the host holds the line, once it has given it up, R17), and DONE is reached when every map
packet and every image packet has been delivered; a GO flit goes to its core when DONE has been reached; a report leaves from
STATUS with the core's logical id, goes from router to router, and is stored at the boot corner. -/
def bootFlits : Prop :=
  ∀ s : State,
    let i := s.input.index
    (∀ c src alongX w t, s.bootArrival i = some (c, .bootDisc src alongX w, t) →
      ((s.core c).bootWord.isSome = true → happens .bootDiscoveryFlit s fun u => u = { s with net := s.net.eraseIdx i }) ∧
      ((s.core c).bootWord = none → (s.core c).bootMode = true → quietWords s c →
        let v := if alongX then discAt w (oneOn (bootEast w) (discX w)) (discY w) else discAt w (discX w) (oneOn (bootSouth w) (discY w))
        happens .bootDiscoveryFlit s fun u => (u.core c).bootWord = some v ∧ u.net = s.net.eraseIdx i ++ floodFlits c v ∧
          (takesBoot s c → u.peekNat (keyScratch c 0) 8 = v.toNat ∧ u.fullBit (keyScratch c 0) = true))) ∧
      (∀ c src kind seq data t w, s.bootArrival i = some (c, .bootCast src kind seq data, t) → (s.core c).bootWord = some w →
        (s.core c).bootMode = true → c < 1024 → seq < 512 → data.length = 64 → quietWords s c →
        let key := keyVault c (64 * seq)
        let maps := (s.core c).bootMaps + if kind = 2 then 1 else 0
        let images := (s.core c).bootImgs + if kind = 3 then 1 else 0
        let passed (u : State) : Prop := u.net = s.net.eraseIdx i ++ castFlits c w kind seq data
        let counted (u : State) : Prop := (u.core c).bootMaps = maps ∧ (u.core c).bootImgs = images ∧
          (bootMapTotal w ≤ maps → discImages w ≤ images →
            (∀ e ∈ u.biPending, ¬(keyVault c 0 ≤ e.1 * 64 ∧ e.1 * 64 < keyVault c (64 * discImages w))) → (u.core c).bootDone = true) ∧
          (maps < bootMapTotal w ∨ images < discImages w → (u.core c).bootDone = (s.core c).bootDone)
        (kind = 2 → happens .bootMulticastFlit s fun u => passed u ∧ counted u ∧
          (takesBoot s c → u.peeks (keyScratch c (0x400 + 64 * seq)) 64 = data)) ∧
        (kind = 3 → happens .bootMulticastFlit s fun u => passed u ∧ counted u ∧
          (Assoc.find s.directory (key / 64) = none → u.peeks key 64 = data) ∧
          ((Assoc.find s.directory (key / 64)).isSome = true →
            u.biPending = s.biPending ++ [(key / 64, ((List.range 64).map (key + ·)).zip data, false)] ∧
              ∀ k, keySpace k = 0 → u.peek k = s.peek k)) ∧
        (kind = 5 → happens .bootMulticastFlit s fun u => passed u ∧
          ((s.core c).bootDone = false → (u.core c).bootGo = true) ∧
          ((s.core c).bootDone = true → takesBoot s c → u.fullBit (keyScratch c 0x30) = true))) ∧
      (∀ w, (s.core s.input.core).bootMode = true → s.fullBit (keyScratch s.input.core 0x18) = true →
        (s.core s.input.core).bootWord = some w →
        let r : Word := BitVec.ofNat 64 (s.peekNat (keyScratch s.input.core 0x18) 8)
        let next := xyStep s.input.core (bootCorner w)
        happens .bootReport s fun u => (u.core s.input.core).lid = r.setWidth 10 ∧
          u.net = s.net ++ [⟨next, .bootReport s.input.core (bootCorner w) r, next, .xy⟩] ∧ u.fullBit (keyScratch s.input.core 0x18) = false) ∧
      (∀ c src corner r t, s.bootArrival i = some (c, .bootReport src corner r, t) → (s.core c).bootMode = true →
        (c = corner → takesBoot s c → quietWords s c → happens .bootReportArrival s fun u => u.net = s.net.eraseIdx i ∧
          u.peekNat (keyScratch c (0x800 + 8 * (r.toNat % 1024))) 8 = r.toNat) ∧
        (c ≠ corner → happens .bootReportArrival s fun u =>
          u.net = s.net.eraseIdx i ++ [⟨xyStep c corner, .bootReport c corner r, xyStep c corner, .xy⟩])) ∧
      -- the host gives up the last line that an image packet waits for: DONE is reached
      (let a := s.input.addr
       let c := a / 2 ^ 29
       ∀ w, a < 2 ^ 39 → (Assoc.find s.directory (a / 64)).isSome = true → (s.core c).bootMode = true → (s.core c).bootWord = some w →
        bootMapTotal w ≤ (s.core c).bootMaps → discImages w ≤ (s.core c).bootImgs →
        (∀ e ∈ s.biPending, e.1 ≠ a / 64 → ¬(keyVault c 0 ≤ e.1 * 64 ∧ e.1 * 64 < keyVault c (64 * discImages w))) →
        happens .backInvalidateAnswer s fun u => (u.core c).bootDone = true)

/-- R53, R361: after device reset nothing of the old run is left but memory, the ROM and the flash; the boot ROM verifies the image,
elects the lowest-numbered healthy corner, verifies the bundle, and gives the corner a scratchpad and the image; BOOTSTAT tells how
far it came. That memory stays, and that the places in the scratchpad are those of spec/16, is DEDUCED (log 63). -/
def resetBoots : Prop :=
  ∀ s : State, let f := s.flash
    let fresh (t : State) : Prop := t.captured = false ∧ t.net = [] ∧ t.fields = [] ∧ t.queues = [] ∧ t.remote = [] ∧
      t.podcfg = 0x10000 ∧ t.qErr = 0 ∧ t.flash = f ∧ t.measured = f.measure
    (f.imageGood = false → happens .deviceReset s fun t => fresh t ∧ t.bootStage = 8 ∧ t.cores = []) ∧
      (f.imageGood = true → f.boot = none → happens .deviceReset s fun t => fresh t ∧ t.bootStage = 0xB ∧ t.cores = []) ∧
      (∀ n c, f.imageGood = true → f.boot = some (n, c) → f.bundleGood = false →
        happens .deviceReset s fun t => fresh t ∧ t.bootStage = 9 ∧ t.cores = []) ∧
      (∀ n c, f.imageGood = true → f.boot = some (n, c) → f.bundleGood = true → c < 1024 → f.image.length ≤ 2 ^ 28 →
        happens .deviceReset s fun t => fresh t ∧ t.bootStage = 1 ∧ (t.core c).split = 1 ∧ (∀ d, d ≠ c → t.core d = Core.reset) ∧
          t.peekNat (keyScratch c 0x20) 8 = (f.discWord n c).toNat ∧
          t.peeks (keyDram (c * 2 ^ 29)) f.image.length = f.image ∧
          ∀ k, keySpace k = 0 → ¬(c * 2 ^ 29 ≤ k ∧ k < (c + 1) * 2 ^ 29) → t.peek k = s.peek k)

/-- R361: the first write of KVEC ends boot mode. -/
def kvecEndsBoot : Prop :=
  ∀ s : State, happens .kvecWrite s fun t => onlyCore s t s.input.core ∧
    t.core s.input.core = { s.core s.input.core with kvec := s.input.word &&& ~~~0xFF#64, bootMode := false }

/-- R53, R361 to R366: reset and the boot protocol of the routers. -/
def Obligations.BootProtocol : Prop := bootOut ∧ bootFlits ∧ resetBoots ∧ kvecEndsBoot

/-- R68, R122, R124, R177, R202, R350, R353: what the register writes that are events of their own do, each to the fields of its
register, with the side effects of its rule. That one BRESUME acts on the parked heads of both engines is the model's (DESIGN CHOICE, log 27). -/
def coreRegisters : Prop :=
  ∀ s : State,
    let c := s.input.core
    let n := s.input.slot
    let v := s.input.word
    let k := s.core c
    let x := s.ctx c n
    (12 ≤ v.toNat % 16 → happens .splitWrite s fun t => t = s) ∧
      (v.toNat % 16 < 12 → k.bootHeld = [] → c < 1024 →
        happens .splitWrite s fun t => (t.core c).split = v.setWidth 4 ∧ (t.core c).cv = [] ∧ (t.core c).swzCtl.getLsbD 0 = false ∧
          ∀ o < 2 ^ 24, t.peek (keyScratch c o) = 0 ∧ t.fullBit (keyScratch c o) = false) ∧
      (let size := k.scratchSize
       let base := v.toNat / 2 ^ 12 % 2 ^ 9 * 4096
       (s.input.flag = false → happens .swizzleWrite s fun t => onlyCore s t c ∧ (t.core c).swzBase = v &&& 0x1FF000#64 ∧
          (let m := k.swzCtl.toNat / 2 ^ 8 % 2 ^ 9
           (t.core c).swzCtl = if m = 0 ∨ size < base + m * 4096 then k.swzCtl &&& ~~~1#64 else k.swzCtl)) ∧
        (s.input.flag = true → happens .swizzleWrite s fun t => onlyCore s t c ∧ (t.core c).swzBase = k.swzBase ∧
          (let m := v.toNat / 2 ^ 8 % 2 ^ 9
           (t.core c).swzCtl = if m = 0 ∨ size < k.swzBase.toNat / 2 ^ 12 % 2 ^ 9 * 4096 + m * 4096 then v &&& 0x1FF02#64
            else v &&& 0x1FF03#64))) ∧
      (happens .fpctlWrite s fun t => onlyCore s t c ∧ t.ctx c n = { x with fpctl := (v &&& 0xFFFFFFFF00000000#64) |||
          (if 6 ≤ v.toNat % 8 then x.fpctl &&& 7#64 else v &&& 7#64) }) ∧
      (happens .wdctlWrite s fun t => onlyCore s t c ∧
        t.core c = { k with
          wdctl := (v &&& 0x100#64) ||| (if 16 ≤ v.toNat % 64 ∧ v.toNat % 64 ≤ 40 then v &&& 0x3F#64 else k.wdctl &&& 0x3F#64)
          wdSince := if k.wdctl.getLsbD 8 then k.wdSince else s.cycle }) ∧
      (k.matPark.isSome = true →
        (happens .mresumeResume s fun t => onlyCore s t c ∧ t.core c = { k with matPark := none }) ∧
          happens .mresumeAbort s fun t => onlyCore s t c ∧ (t.core c).matPark = none ∧ (t.core c).matq = [] ∧ (t.core c).chain = false ∧
            (t.core c).tiles = k.tiles) ∧
      (k.matPark = none → (happens .mresumeResume s fun t => t = s) ∧ happens .mresumeAbort s fun t => t = s) ∧
      ((k.bulkPark.isSome = true ∨ k.copyPark.isSome = true) →
        happens .bresumeResume s fun t => onlyCore s t c ∧ t.core c = { k with bulkPark := none, copyPark := none }) ∧
      (∀ cmd rest id base stride rows cols row64 r, k.bulkPark.isSome = true → k.copyPark = none → k.bulkq = cmd :: rest →
        cmd.op = .bread id base stride rows cols row64 → Assoc.find k.requests id = some r →
          (cmd.asked = [] → happens .bresumeAbort s fun t => onlyCore s t c ∧ (t.core c).bulkPark = none ∧ (t.core c).bulkq = rest ∧
            (t.core c).copyq = k.copyq ∧ Assoc.find (t.core c).requests id = some { r with finished := true }) ∧
          (cmd.asked ≠ [] → happens .bresumeAbort s fun t =>
            onlyCore s t c ∧ t.core c = { k with bulkPark := none, bulkq := { cmd with aborted := true } :: rest })) ∧
      (∀ cmd rest, k.copyPark.isSome = true → k.bulkPark = none → k.copyq = cmd :: rest → cmd.op.unit = .copy →
        s.objectWaits (bulkEng c cmd) cmd.op.object = true → happens .bresumeAbort s fun t => (t.core c).copyPark = none ∧
          (t.core c).copyq = { cmd with aborted := true, asked := [], acks := [], fresh := none } :: rest ∧ (∀ k, t.peek k = s.peek k)) ∧
      (∀ cmd rest, k.copyPark.isSome = true → k.bulkPark = none → k.copyq = cmd :: rest → cmd.op.unit = .copy →
        s.objectWaits (bulkEng c cmd) cmd.op.object = false →
        ∃ u : State, (u.core c).copyPark = none ∧ (u.core c).copyq = rest ∧ (u.core c).bulkq = k.bulkq ∧ (∀ k, u.peek k = s.peek k) ∧
          exec .bresumeAbort s = .next (u.atObject (bulkEng c cmd) cmd.op.object (.barError 4)).2) ∧
      (k.bulkPark = none → k.copyPark = none → (happens .bresumeResume s fun t => t = s) ∧ happens .bresumeAbort s fun t => t = s) ∧
      (∀ r, regOf s.input.index = some r → s.input.flag = false → r.ownEvent = false → (r.supervisor = true → n = 0) →
        exec .registerWrite s = .next (s.writeReg c n r v)) ∧
      (s.input.flag = true → s.input.index = 0x10 → exec .registerWrite s = .next { s with qtBase := v &&& 0x7FFFFF0000#64 })

/-- The registers of a slice (R67 to R69, R202), of the pod configuration (R378), of the interrupts (R52), and plate capture (R209,
R381). What the plate holds beside the contexts, and where, is the model's (DESIGN CHOICE, log 23), and so is that the table's bytes that are given
as zero keep what is written (DESIGN CHOICE, log 122). -/
def sharedRegisters : Prop :=
  ∀ s : State,
    let c := s.input.core
    let v := s.input.word
    let cl := clusterOf c
    let l := s.slice cl
    let only (t : State) (cl : Nat) (l : Slice) : Prop := t.slice cl = l ∧ ∀ d, d ≠ cl → t.slice d = s.slice d
    let mask : BitVec 16 := v.setWidth 16
    (l.clean = true → c < 1024 → happens .waymaskMaskWrite s fun t => only t cl { l with mask := mask, clean := false } ∧
        ∀ w < 16, ∀ o < 2 ^ 17, t.peek (keyL2 cl w o) = if mask.getLsbD w = l.mask.getLsbD w then s.peek (keyL2 cl w o) else 0) ∧
      (l.clean = false → happens .waymaskMaskWrite s fun t =>
        only t cl (if mask = l.mask then l else { l with err := true }) ∧ ∀ k, t.peek k = s.peek k) ∧
      (happens .waymaskFlush s fun t => only t cl { l with flush := true, bypass := 0, pins := [] } ∧ ∀ k, t.peek k = s.peek k) ∧
      ((s.slice s.input.index).flush = true → happens .flushComplete s fun t =>
        only t s.input.index { s.slice s.input.index with flush := false, clean := true, pins := [] } ∧
          ∀ e ∈ t.hostLines, homeCluster (e.1 * 64) ≠ s.input.index) ∧
      (v.getLsbD 0 = false → happens .mxexclWrite s fun t => only t cl { l with excl := false, pend := false }) ∧
      (v.getLsbD 0 = true → l.excl = false → happens .mxexclWrite s fun t =>
        only t cl (if s.mxQuiet cl then { l with excl := true, pend := false } else { l with pend := true })) ∧
      ((s.slice s.input.index).pend = true → s.mxQuiet s.input.index = true → happens .mxexclApply s fun t =>
        only t s.input.index { s.slice s.input.index with excl := true, pend := false }) ∧
      (let pods := v.toNat / 2 ^ 16 % 2 ^ 11
       s.input.index = 0x1000 → 1 ≤ pods → pods ≤ 1024 → v.toNat % 1024 < pods →
        exec .podConfigWrite s = .next { s with podcfg := v &&& 0x7FF03FF#64 }) ∧
      (∀ i < 4096, s.input.index = 0x2000 + 8 * i →
        happens .podConfigWrite s fun t => Assoc.get 0 t.members i = v ∧ ∀ j, j ≠ i → Assoc.get 0 t.members j = Assoc.get 0 s.members j) ∧
      (let i := s.input.index % 2048
       let m := s.msixEntry i
       m.masked = true →
        (s.pci.msixMask = false → happens .msixVectorUnmask s fun t => t.msixEntry i = { m with masked := false, pendingBit := false } ∧
          t.msixSent = s.msixSent ++ if m.pendingBit then [(m.addr, m.data)] else []) ∧
        (s.pci.msixMask = true → happens .msixVectorUnmask s fun t => t.msixEntry i = { m with masked := false } ∧ t.msixSent = s.msixSent)) ∧
      (let image (t : State) : Prop := t = { s with captured := true, plate := t.plate } ∧
          -- the cores by their numbers, each beginning with its contexts; the wake latches and BAR0 come last
          (∃ start : Nat → Nat, start 0 = 0 ∧ (∀ d, start d + 12 * 74 ≤ start (d + 1)) ∧ ∀ d < 1024, ∀ n < 12,
            (let at_ := start d + 74 * n
             t.plate.getD at_ 0 = (s.ctx d n).pc.setWidth 64 ∧ t.plate.getD (at_ + 1) 0 = ((s.ctx d n).pc >>> 64).setWidth 64 ∧
              (∀ i < 32, t.plate.getD (at_ + 2 + i) 0 = (s.ctx d n).readG i) ∧ t.plate.getD (at_ + 66) 0 = (s.ctx d n).cir)) ∧
          (∀ q < 1024, t.plate.getD (t.plate.length - 1536 + q) 0 = Assoc.get 0 s.wake q) ∧
          ∀ i < 512, t.plate.getD (t.plate.length - 512 + i) 0 = s.readBar0 (8 * i)
       happens .freeze s image ∧ happens .platectlCapture s image)

/-- R14, R44, R70: every core's uses start again at zero when a budget period starts, and its limits become those that were written;
the power controller delays MMA steps above 2,200 W until its estimate falls below 2,150 W; a core without a job, without a
queue to poll or to serve and without a record to write can be gated. -/
def budgetAndPower : Prop :=
  ∀ s : State,
    (happens .budgetPeriodStart s fun t => t.bare = s.bare ∧ ∀ c,
      let k := s.core c
      t.core c = { k with
        dramUse := 0, injUse := 0, podUse := [], drainUse := 0, dramLim := k.nextLim.1.getD k.dramLim
        injLim := k.nextLim.2.1.getD k.injLim, podLim := k.nextLim.2.2.1.getD k.podLim, drainLim := k.nextLim.2.2.2.getD k.drainLim
        nextLim := (none, none, none, none) }) ∧
      (happens .powerWindow s fun t => t = { s with powerEst := t.powerEst, throttled := t.throttled } ∧
        (2200 < t.powerEst → t.throttled = true) ∧ (t.powerEst < 2150 → t.throttled = false) ∧
        (2150 ≤ t.powerEst → t.powerEst ≤ 2200 → t.throttled = s.throttled)) ∧
      (s.able s.input.core = true → (s.core s.input.core).bootMode = false → s.jobOf s.input.core = none →
        (∀ q < 1024, (s.desc q).enabled = true → (s.desc q).poll = true → s.homeOf q ≠ some s.input.core) →
        (∀ e ∈ s.queues, e.2.awake = true → (s.desc e.1).enabled = true → (s.desc e.1).halted = false → s.homeOf e.1 ≠ some s.input.core) →
        s.reportOf s.input.core = none →
        happens .powerGate s fun t => onlyCore s t s.input.core ∧ t.core s.input.core = { s.core s.input.core with gated := true })

/-- The registers that have an event of their own, budgets and power. -/
def Obligations.RegisterEvents : Prop := coreRegisters ∧ sharedRegisters ∧ budgetAndPower

/-- R54: the SPDM requests in the order of a connection are answered by the mailbox, each by the message of its kind; a request before
those that must come first is answered by an ERROR. The digests are by SHA-384: of the chain that GET_CERTIFICATE gives, and of the
measurements. Which order it enforces, the codes, the answer to an index that names no measurement, and the length of the chain are the
model's (PRESUMED, and DESIGN CHOICE, log 33 and 129). -/
def mailboxAnswers : Prop :=
  ∀ s : State,
    let answered (i : Instr) (code p1 p2 : Nat) (d : Doe) (q : List Byte → Prop) : Prop :=
      ∃ body, exec i s = .next { s with doe := { d with answers := s.doe.answers ++
        [[0x13, BitVec.ofNat 8 code, BitVec.ofNat 8 p1, BitVec.ofNat 8 p2] ++ body] } } ∧ q body
    let error (i : Instr) : Prop := answered i 0x7F 4 0 s.doe fun b => b = []
    -- the blocks of some measurements, and a signature of 96 bytes
    let blocks (is : List Nat) (b : List Byte) : Prop :=
      ∃ sig : List Byte, sig.length = 96 ∧ b = (is.flatMap fun i => BitVec.ofNat 8 i :: s.digestBytes i) ++ sig
    answered .spdmGetVersion 0x04 0 0 { s.doe with versionDone := true, capsDone := false, algsDone := false }
        (fun b => b = [0, 1, 0, 0x13]) ∧
      (s.doe.versionDone = true → answered .spdmGetCapabilities 0x61 0 0 { s.doe with capsDone := true } fun b => b.length = 16) ∧
      (s.doe.versionDone = false → error .spdmGetCapabilities) ∧
      (s.doe.capsDone = true → answered .spdmNegotiateAlgorithms 0x63 0 0 { s.doe with algsDone := true } fun b => b.length = 36) ∧
      (s.doe.capsDone = false → error .spdmNegotiateAlgorithms) ∧
      (s.doe.algsDone = true →
        answered .spdmGetDigests 0x01 0 1 s.doe (fun b => b = sha384 certificates) ∧
          answered .spdmGetCertificate 0x02 0 0 s.doe (fun b => b = bytesOfBits 2 1024 ++ bytesOfBits 2 0 ++ certificates) ∧
          answered .spdmChallenge 0x03 0 1 s.doe (fun b => b.take 48 = sha384 certificates ∧
            (b.drop 80).take 48 = sha384 ([1, 2, 3, 4].flatMap fun i => BitVec.ofNat 8 i :: s.digestBytes i) ∧ b.length = 224) ∧
          (∀ i, s.input.index = i → i = 0 ∨ 4 < i → i ≠ 0xFF → error .spdmGetMeasurements) ∧
          (∀ i, 1 ≤ i → i ≤ 4 → s.input.index = i →
            answered .spdmGetMeasurements 0x60 1 0 s.doe (blocks [i])) ∧
          (s.input.index = 0xFF → answered .spdmGetMeasurements 0x60 4 0 s.doe (blocks [1, 2, 3, 4]))) ∧
      (s.doe.algsDone = false → error .spdmGetDigests ∧ error .spdmGetCertificate ∧ error .spdmChallenge ∧ error .spdmGetMeasurements)

/-- R12, R16, R17, R66: a CXL.mem write of the host changes its own bytes and no others, a read leaves the line with the host; the host
gives a line up with its bytes, and then the device holds it; the home slice writes a changed host line back before the host takes
it. An access outside the exposed memory changes nothing: that is the model's (DESIGN CHOICE, log 88). R31, R52: the host writes the entries of
the MSI-X table, and one that it unmasks sends its pending message. R16, R31: it writes the bases of the BARs and the enable of MSI-X in the
configuration space, and asks the mailbox there; their places are the model's (PRESUMED, log 129). -/
def hostAccesses : Prop :=
  ∀ s : State,
    let a := s.input.addr
    let line := a / 64
    let bs := s.input.data
    (s.exposed a = true →
      (s.input.flag = true → a % 64 + bs.length ≤ 64 → happens .hostMemoryAccess s fun t =>
        t.peeks (keyDram a) bs.length = bs ∧ ∀ k, ¬(a ≤ k ∧ k < a + bs.length) → t.peek k = s.peek k) ∧
      (s.input.flag = false → happens .hostMemoryAccess s fun t =>
        Assoc.find t.directory line = some true ∧ ∀ k, t.peek k = s.peek k)) ∧
      (2 ^ 39 ≤ a ∨ backed a = false ∨ a < s.hdm.base ∨ s.hdm.base + s.hdm.len ≤ a → exec .hostMemoryAccess s = .next s) ∧
      ((s.core (a / 2 ^ 29)).bootMode = false → (Assoc.find s.directory line).isSome = true → bs.length = 64 → (∀ e ∈ s.biPending, e.1 ≠ line) → (∀ e ∈ s.biOps, e.1 ≠ line) →
        happens .backInvalidateAnswer s fun t => Assoc.find t.directory line = none ∧ t.peeks (64 * line) 64 = bs ∧
          ∀ k, k / 64 ≠ line → t.peek k = s.peek k) ∧
      (∀ k b p, (s.core (a / 2 ^ 29)).bootMode = false → (Assoc.find s.directory line).isSome = true → bs = [] → s.biPending = [(line, [(k, b)], p)] → s.biOps = [] →
        happens .backInvalidateAnswer s fun t => t.biPending = [] ∧ t.peek k = b ∧ ∀ j, j ≠ k → t.peek j = s.peek j) ∧
      (a < 2 ^ 51 → bs = [] → s.input.flag = true → Assoc.find s.hostLines (lineOf (keyHost a)) = some true →
        happens .hostSnoop s fun t => Assoc.find t.hostLines (lineOf (keyHost a)) = none ∧
          t.peeks (keyHostMem (64 * line)) 64 = s.peeks (keyHost (64 * line)) 64) ∧
      (∀ n < 2048, ∀ w < 3, ∀ v, (s.writeBar2 (16 * n + 4 * w) v).readBar2 (16 * n + 4 * w) = v) ∧
      (∀ n < 2048, (s.msixEntry n).masked = true → (s.msixEntry n).pendingBit = true → s.pci.msixMask = false →
        let t := s.writeBar2 (16 * n + 12) 0
        t.msixSent = s.msixSent ++ [((s.msixEntry n).addr, (s.msixEntry n).data)] ∧ (t.msixEntry n).masked = false ∧
          (t.msixEntry n).pendingBit = false) ∧
      (∀ v, (s.writeConfig 0x10 v).readConfig 0x10 = (v &&& 0xFF00_0000) ||| 4 ∧
        (s.writeConfig 0x18 v).readConfig 0x18 = (v &&& 0xFFFF_0000) ||| 4 ∧
        ((s.writeConfig 0x80 v).readConfig 0x80).getLsbD 31 = v.getLsbD 31 ∧ ((s.writeConfig 0x80 v).readConfig 0x80).getLsbD 30 = v.getLsbD 30) ∧
      -- the data object of an SPDM GET_VERSION is answered by that of VERSION
      (s.pci.doeIn = [0x10001, 3, 0x8410] → (s.writeConfig 0x148 0x8000_0000).pci.doeOut = doeObject 1 [0x13, 4, 0, 0, 0, 1, 0, 0x13])

/-- R144, R145: `drain` takes the oldest store of a buffer for an address: to local space it writes its bytes and no others, to device and
host memory it makes them dirty in CV, and changes no byte of memory; `evict` writes the dirty bytes of a line and no others; `fill`
brings the line's bytes from memory, but for those that are dirty, when one is absent. -/
def cacheMoves : Prop :=
  ∀ s : State,
    let c := s.input.core
    let n := s.input.slot
    let l := lineOf s.input.addr
    -- the routes and the budgets let the line pass (R65, R71)
    let free : Prop := s.meshOpen c (homeRouter (64 * l)) = true ∧ (s.core c).dramLim = 0xFFFF_FFFF ∧ (s.core c).injLim = 0xFFFF_FFFF ∧
      (s.core c).governor = []
    let dirty (i : Nat) : Option Byte := (Assoc.find ((s.core c).line l) i).bind fun b => if b.dirty then some b.val else none
    (∀ e rest, s.holding c n = false → takeEntry s.input.addr (s.ctx c n).sb = some (e, rest) → (e.cells.map (·.1)).Nodup →
      e.cells ≠ [] →
      (e.setFull = false → s.entryWay c e = true →
        (e.reach c = (0, 0, none) ∨ n = 0 ∨ (s.core c).dramLim = 0xFFFF_FFFF ∧ (s.core c).injLim = 0xFFFF_FFFF ∧ (s.core c).governor = []) →
        (∀ x ∈ e.cells, 3 ≤ keySpace x.1 ∧ s.keyFenced x.1 = false) → (∀ x ∈ e.cells, s.unwatched (keyCore x.1) = true) →
        happens .drain s fun t => (t.ctx c n).sb = rest ∧ (∀ x ∈ e.cells, t.peek x.1 = x.2) ∧
          ∀ k, (∀ x ∈ e.cells, x.1 ≠ k) → t.peek k = s.peek k) ∧
      (e.through = false → (∀ x ∈ e.cells, keySpace x.1 ≤ 1) →
        happens .drain s fun t => (t.ctx c n).sb = rest ∧ (∀ k, t.peek k = s.peek k) ∧
          ∀ x ∈ e.cells, ∃ p, Assoc.find ((t.core c).line (lineOf x.1)) (x.1 % 64) = some ⟨x.2, true, p⟩ ∧ (e.poison = true → p = true) ∧
            ((Assoc.find ((s.core c).line (lineOf x.1)) (x.1 % 64)).any CvByte.poison = false → p = e.poison))) ∧
      ((Assoc.find (s.core c).cv l).isSome = true → keySpace (64 * l) = 0 → Assoc.find s.directory l = none → free →
        (((s.core c).line l).map (·.1)).Nodup → (∀ e ∈ (s.core c).line l, e.1 < 64) →
        happens .evict s fun t => Assoc.find (t.core c).cv l = none ∧
          ∀ k, t.peek k = if k / 64 = l then (dirty (k % 64)).getD (s.peek k) else s.peek k) ∧
      (keySpace (64 * l) = 0 → free → (∀ e ∈ s.biPending, e.1 ≠ l) → (∃ i < 64, Assoc.find ((s.core c).line l) i = none) →
        happens .fill s fun t => (∀ k, t.peek k = s.peek k) ∧
          ∀ i < 64, (Assoc.find ((t.core c).line l) i).map CvByte.val = some ((dirty i).getD (s.peek (64 * l + i))))

/-- R18, R20 to R26: a request to another member is applied whole, oldest of its page first; its answer reaches the context that asked,
and the old value of an atomic that the context has run ahead of its register; one whose 54,000 cycles are over is lost, and a lost atomic counts in LOSTW; a retried flit is counted. -/
def linkEvents : Prop :=
  ∀ s : State,
    let i := s.input.index
    (∀ r, s.remote[i]? = some r →
      let x := s.ctx r.core r.slot
      let l := lineOf r.key
      let asked : Prop := r.slot < 12 ∧ x.live = true ∧ x.gen = r.gen
      (r.applied = false → r.sent ≠ none → (∀ j < i, ∀ q, s.remote[j]? = some q → q.applied = true ∨ q.page ≠ r.page) →
        (r.op = .line → happens .forward s fun t => (∀ k, t.peek k = s.peek k) ∧
          t.remote = s.remote.set i { r with applied := true, data := s.peeks r.key 64, marks := s.lineMarks r.key }) ∧
        (∀ k b p, r.op = .store [(k, b)] p → happens .forward s fun t => t.remote = s.remote.set i { r with applied := true } ∧
          t.peek k = b ∧ ∀ j, j ≠ k → t.peek j = s.peek j)) ∧
      (r.applied = true → asked →
        (∀ keep, r.op = .line → Assoc.find x.fetched l = some ⟨false, false, [], 0, keep⟩ →
          happens .remoteResponse s fun t => t.remote = s.remote.eraseIdx i ∧
            Assoc.find (t.ctx r.core r.slot).fetched l = some ⟨true, false, r.data, r.marks, keep⟩) ∧
        (∀ n op p d ty, r.op = .atomic n op p → x.lates = [⟨r.id, some d, ty⟩] → d ≠ 0 →
          happens .remoteResponse s fun t => t.remote = s.remote.eraseIdx i ∧ (t.ctx r.core r.slot).lates = [] ∧
            (t.ctx r.core r.slot).readG d.toNat = ext ty (bitsOfBytes r.data)) ∧
        (∀ n op p, r.op = .atomic n op p → x.lates = [] → x.remote = .outstanding r.id →
          happens .remoteResponse s fun t => t.remote = s.remote.eraseIdx i ∧
            (t.ctx r.core r.slot).remote = .answered (bitsOfBytes r.data) (r.marks.getLsbD 0))) ∧
      (∀ at_, r.sent = some at_ → at_ + 54000 ≤ s.cycle → asked →
        (∀ keep, r.op = .line → Assoc.find x.fetched l = some ⟨false, false, [], 0, keep⟩ →
          happens .linkTimeout s fun t => t.remote = s.remote.eraseIdx i ∧
            Assoc.find (t.ctx r.core r.slot).fetched l = some ⟨true, true, [], 0, keep⟩) ∧
        (∀ n op p, r.op = .atomic n op p → x.lates = [] → x.remote = .outstanding r.id → x.lostw ≠ 0xFFFF_FFFF →
          happens .linkTimeout s fun t => t.remote = s.remote.eraseIdx i ∧ (t.ctx r.core r.slot).remote = .lost ∧
            (t.ctx r.core r.slot).lostw = x.lostw + 1))) ∧
      happens .linkRetry s fun t => Assoc.get 0 t.linkRetries i = Assoc.get 0 s.linkRetries i + 1 ∧
        t = { s with linkRetries := t.linkRetries }

/-- The host's mailbox, its accesses to memory, the moves of the caches and the links to other members. -/
def Obligations.MemoryEvents : Prop := mailboxAnswers ∧ hostAccesses ∧ cacheMoves ∧ linkEvents

/-! ### Messages, weight and handlers that arrive (R93, R100 to R110, R196, R204, R289 to R292) -/

/-- The packet that the event names may arrive: it has come to core `c`, for which it is bound, and no hard save holds it (R97). -/
def arrives (s : State) (c : Nat) (p : Packet) : Prop :=
  (∃ cls, s.net[s.input.index]? = some ⟨c, p, c, cls⟩) ∧ s.saved c = false

/-- What remains in flight after the arrival. -/
def others (s : State) : List Flight := s.net.eraseIdx s.input.index

/-- A message of the job's own field finds room in the inbox of its core (R289). -/
def roomFor (s : State) (c : Nat) (m : Message) : Prop :=
  s.fenced c = false ∧ (s.jobField c).isSome = true ∧ s.jobField c = s.jobField (s.senderCore m) ∧ (s.core c).deflected = [] ∧
    (s.core c).inboxUsed < 64 ∧ (s.core c).tableFull m.dom = false

/-- R93, R108, R289, R292, R301: a message joins the inbox, a reply waits at its live target, a stray joins the strays; a message at the
head of the inbox comes to life in the lowest free helper slot with its arrival registers, its weight and its domain; a halted slot stays
halted (log 74, DEDUCED). -/
def messageEvents : Prop :=
  ∀ s : State,
    (∀ c m, arrives s c (.message m) → roomFor s c m → m.kind ≠ 1 →
        happens .messageArrival s fun t => onlyCore { s with net := others s } t c ∧
          t.core c = { s.core c with inbox := (s.core c).inbox ++ [m] }) ∧
      (∀ c m, arrives s c (.reply m) → roomFor s c m → m.kind = 1 →
        let n := m.tslot.toNat
        1 ≤ n → n ≤ 11 → (s.ctx c n).live = true → (s.ctx c n).gen = m.tgen →
        happens .replyArrival s fun t => onlyCore { s with net := others s } t c ∧
          t.ctx c n = { s.ctx c n with replies := (s.ctx c n).replies ++ [m] }) ∧
      (∀ c m, arrives s c (.stray m) → (s.core c).strays.length < 512 →
        happens .strayDelivery s fun t => onlyCore { s with net := others s } t c ∧
          t.core c = { s.core c with strays := (s.core c).strays ++ [m] }) ∧
      (let c := s.input.core
       let k := s.core c
       ∀ j n m rest, s.jobOf c = some j → (s.jobField c).isSome = true → k.freeHelper = some n → k.nextSource = some 3 → k.stopped = false → s.able c = true →
        k.bootMode = false → j.pre ≠ .hardSaved → k.strays = [] → k.inbox = m :: rest → m.obj = none → m.reason = 0 → m.text = none →
        k.deflected = [] →
        happens .helperGrant s fun t => onlyCore s t c ∧ (t.core c).inbox = rest ∧
          (let x := t.ctx c n
           x.live = true ∧ x.role = .message ∧ x.gen = (k.ctx n).gen + 1 ∧ x.halted = (k.ctx n).halted ∧ x.wheld = m.weight ∧ x.whome = m.dom ∧
             x.pc = j.codebase + m.entry.setWidth 72 ∧ x.readG 20 = m.sender.setWidth 64 ∧ x.readG 21 = BitVec.ofNat 64 m.weight ∧
             x.readG 23 = m.cookie.setWidth 64 ∧
             ∀ i < 8, x.readG (24 + i) = m.payload.getD i 0 ∧ x.marked (24 + i) = m.marks.getD i false))

/-- R100, R104, R107, R109, R196, R204, R296: weight that returns, or is written off, adds to the counter of its domain, when that is
open and of the same generation; an arm notice and a taint report reach the job; a halt signal halts slots 1 to 11. -/
def homeEvents : Prop :=
  ∀ s : State,
    (∀ h dom w, arrives s h (.weight dom w) → s.overtakes s.input.index h = false →
      let i := domIdx dom
      let d := (s.core h).domain i
      d.isOpen = true → d.gen.toNat = domGen dom → d.count + w ≠ d.total →
        (i ≠ 0 → happens .weightReturn s fun t => onlyCore { s with net := others s } t h ∧
          t.core h = (s.core h).setDomain i { d with count := d.count + w }) ∧
        (∀ fid f j, i = 0 → (s.fields.find? fun e => e.2.job.any fun j => j.home = h) = some (fid, f) → f.job = some j →
          j.parked = [] →
          happens .weightReturn s fun t => onlyCore { s with net := others s } t h ∧
            t.core h = (s.core h).setDomain 0 { d with count := d.count + w })) ∧
      (∀ h dom w cell rep at_, arrives s h (.writeOff dom w cell rep at_) → s.overtakes s.input.index h = false →
        let i := domIdx dom
        let d := (s.core h).domain i
        i ≠ 0 → d.isOpen = true → d.gen.toNat = domGen dom → d.count + w ≠ d.total → d.firstLoss = none →
        happens .writeOffArrival s fun t => onlyCore { s with net := others s } t h ∧
          t.core h = (s.core h).setDomain i
            { d with count := d.count + w, writtenOff := d.writtenOff + w, firstLoss := some (cell, rep, at_) }) ∧
      (∀ c fid f j, arrives s c (.arm fid) → Assoc.find s.fields fid = some f → f.job = some j →
        happens .qarmNotice s fun t => t = { s with net := others s, fields := t.fields } ∧
          Assoc.find t.fields fid = some { f with job := some { j with armed := true } }) ∧
      (∀ c fid b f j, arrives s c (.taint fid b) → Assoc.find s.fields fid = some f → f.job = some j →
        happens .taintReport s fun t => t = { s with net := others s, fields := t.fields } ∧
          Assoc.find t.fields fid = some { f with job := some { j with
            taintCount := min (j.taintCount + 1) 0xFFFF_FFFF, taintMask := j.taintMask ||| b } }) ∧
      (∀ c debug, arrives s c (.haltSignal debug) →
        -- the slots that a DEBUG session has halted are noted
        let noted := if debug then [1, 2, 3, 4, 5, 6, 7, 8, 9, 10, 11] else (s.core c).debugged
        ((s.core c).stopped = true → happens .haltSignal s fun t => onlyCore { s with net := others s } t c ∧
          t.core c = { s.core c with debugged := noted }) ∧
          ((s.core c).stopped = false → happens .haltSignal s fun t => onlyCore { s with net := others s } t c ∧
            (t.core c).stopped = true ∧ (t.core c).debugged = noted ∧ t.ctx c 0 = s.ctx c 0 ∧
            ∀ n, 1 ≤ n → n ≤ 11 → (t.ctx c n).halted = true))

/-- R56, R65, R241, R242: a packet crosses one link in a turn of the mesh: of class XY along x first and then along y, which brings it to
its destination in 62 hops at most; of a stitch class, or of the accumulate network, by the first route entry at its router whose rectangle
holds the destination, and by its XY step when there is none; an entry with DATELINE moves it from S0 to S1. -/
def meshMoves : Prop :=
  (∀ (s : State) (i : Nat) (rest : List Turn), s.captured = false → s.agenda = .hop i :: rest →
    step s = .next (({ s with agenda := rest } : State).tick.hopTurn i)) ∧
  (∀ (s : State) (i : Nat) (f : Flight), s.net[i]? = some f → s.hopTurn i = { s with net := s.net.set i (s.hopped f) } ∧
    (f.at_ = f.dst → s.hopped f = f) ∧
    (f.at_ ≠ f.dst → f.cls = .xy ∨ s.fieldOf f.dst = none → s.hopped f = { f with at_ := xyStep f.at_ f.dst }) ∧
    ∀ fid g, f.at_ ≠ f.dst → f.cls ≠ .xy → s.fieldOf f.dst = some (fid, g) →
      let net := if f.body.network = .accumulate then 1 else 0
      (g.routeAt net f.at_ f.dst = none → s.hopped f = { f with at_ := xyStep f.at_ f.dst }) ∧
        ∀ r n, g.routeAt net f.at_ f.dst = some r → g.portEnd net f.at_ (routePort r) = some n →
          s.hopped f = { f with at_ := n, cls := if net = 0 ∧ routeDateline r = true ∧ f.cls = .s0 then .s1 else f.cls }) ∧
  ∀ r d, r < 1024 → d < 1024 →
    (coreX r ≠ coreX d → coreY (xyStep r d) = coreY r ∧
      (coreX (xyStep r d) = coreX r + 1 ∧ coreX r < coreX d ∨ coreX (xyStep r d) + 1 = coreX r ∧ coreX d < coreX r)) ∧
    (fun q => xyStep q d)^[62] r = d

/-- What arrives at a core for its contexts, its domains and its job, and how it gets there. -/
def Obligations.ArrivalEvents : Prop := messageEvents ∧ homeEvents ∧ meshMoves

/-! ### Copies, steals and leases (R76 to R88, R96, R131) -/

/-- No store of core `p` to the scratchpad of core `c` waits in a store buffer. -/
def noStoresTo (s : State) (p c : Nat) : Prop :=
  ∀ n < 12, ∀ e ∈ (s.ctx p n).sb, ∀ x ∈ e.cells, ¬(keySpace x.1 = 3 ∧ keyCore x.1 = c)

/-- No store to the scratchpad of core `c` waits in a store buffer of its cluster. -/
def noPeerStores (s : State) (c : Nat) : Prop := ∀ q < 4, noStoresTo s (coreOf (clusterOf c) q) c

/-- R76, R81: the control context of core `c` takes a copy that is no gang's, unpaired: it is live with the next generation at the
task's entry, with the copy's weight and domain, PARAM in p1, and every other register zero. -/
def tookCopy (s t : State) (c : Nat) (j : Job) (p : TaskCopy) : Prop :=
  let x := t.ctx c 1
  let r := p.task
  x.live = true ∧ x.role = .task ∧ x.gen = (s.ctx c 1).gen + 1 ∧ x.halted = (s.ctx c 1).halted ∧ x.trap = none ∧
    x.wheld = p.weight ∧ x.whome = p.dom ∧
    x.pc = j.codebase + (if r.entry = 0 then j.ctlEntry else r.entry).setWidth 72 ∧
    (∀ i : PReg, x.readP i.toNat = if i = 1 then r.param.setWidth 72 else 0) ∧ (∀ i : GReg, x.readG i.toNat = 0) ∧
    (t.core c).running = some ⟨r, if r.splitOff then some (r.succ.toNat % 2 ^ 32) else none, p.grid, [], 0, false⟩ ∧
    (t.core c).iterLo = (if r.range then r.iterLo else 0) ∧ (t.core c).iterHi = (if r.range then r.iterHi else 0) ∧ (t.core c).v = []

/-- A copy that one control context takes alone. -/
def single (p : TaskCopy) (j : Job) : Prop := p.task.gang = false ∧ j.pairs = false

/-- R80, R82, R86, R96: a copy in transit is taken by the core it visits when that may, and goes on otherwise; at the end of its path it
waits at its hint core; the head of a pending queue is taken by an idle core; the oldest overflow entry of a core moves into its
queue; a shipped copy is taken or waits; in a soft pre-emption a copy is parked. A halted slot that takes a copy stays halted
(log 74, DEDUCED), and ITERLO and ITERHI are 0 for a task that is not RANGE (log 62, DESIGN CHOICE). -/
def copyEvents : Prop :=
  ∀ (s : State) (c fid : Nat) (f : FieldSt) (j : Job), s.fieldOf c = some (fid, f) → Assoc.find s.fields fid = some f → f.job = some j →
    noPeerStores s c →
    let left : State := { s with net := others s }
    let queued (t : State) (p : TaskCopy) (h : Nat) : Prop :=
      s.fenced h = false → (s.core h).pending.length < 16 →
        t.core h = { s.core h with pending := insertPending p (s.core h).pending, stealing := false, governor := (t.core h).governor }
    (∀ p path, arrives s c (.transit p path) →
        (j.pre = .running → s.takes f j c p = true → single p j →
          happens .transitVisit s fun t => t.net = others s ∧ tookCopy s t c j p) ∧
        (j.pre = .running → p.malformed j = false → s.takes f j c p = false → (s.core c).injLim = 0xFFFF_FFFF →
          (s.core c).governor = [] → ∀ n rest, path.drop 1 = n :: rest →
          happens .transitVisit s fun t => onlyCore { s with net := others s ++ [s.flight c n (.transit p (n :: rest))] } t c ∧
            t.core c = { s.core c with injUse := (t.core c).injUse }) ∧
        (∀ h, j.pre = .running → p.malformed j = false → s.takes f j c p = false → path.drop 1 = [] → f.hintCore s p.task = some h →
          happens .transitVisit s fun t => t.net = others s ∧ queued t p h) ∧
        (∀ b, j.pre = .pausing b → p.malformed j = false → p.weight = 0 →
          happens .transitVisit s fun t => onlyCore { left with fields := t.fields } t c ∧
            t.core c = { s.core c with governor := (t.core c).governor } ∧
            (t.jobOf c).map Job.parked = some (j.parked ++ [{ p with weight := 0 }]))) ∧
      (∀ p rest, s.input.core = c → (s.core c).pending = p :: rest → s.idle c = true → j.pre = .running → single p j →
        (s.setCore c { s.core c with pending := rest }).eligible j c p = true →
        happens .pendingTake s fun t => t.net = s.net ∧ (t.core c).pending = rest ∧ tookCopy s t c j p) ∧
      (∀ e, s.input.core = c → s.fenced c = false → (s.core c).pending.length < 16 → j.pre = .running →
        (j.overflow.find? fun e => e.1 = c) = some e →
        happens .overflowRefill s fun t => t.net = s.net ∧
          t.core c = { s.core c with pending := insertPending e.2 (s.core c).pending, stealing := false } ∧
          (t.jobOf c).map Job.overflow = some (j.overflow.erase e)) ∧
      (∀ p, arrives s c (.stealShip p) → j.pre = .running →
        (s.open_ c = true → s.eligible j c p = true → single p j →
          happens .stealArrival s fun t => t.net = others s ∧ (t.core c).stealBusy = false ∧ tookCopy s t c j p) ∧
        (s.open_ c = false → s.fenced c = false → (s.core c).pending.length < 16 →
          happens .stealArrival s fun t => onlyCore left t c ∧
            t.core c = { s.core c with stealing := false, stealBusy := false, pending := insertPending p (s.core c).pending }))

/-- R84, R85, R87, R88, R131: a thief asks the victims of its round one after the other, and waits 1,024 cycles after it; a victim ships
a pending copy, or the upper half of its range with half of its weight, or answers that it has none; a core's stack of join
indices is filled to sixteen; a peer gives up its lease and acknowledges. -/
def stealEvents : Prop :=
  ∀ s : State,
    -- the budgets of the thief let its request pass (R71), which takes its flits
    let free (c : Nat) : Prop := (s.core c).injLim = 0xFFFF_FFFF ∧ (s.core c).governor = []
    let asks (t : State) (c v k : Nat) (net : List Flight) : Prop := t.net = net ++ [s.flight c v (.stealAsk c k)] ∧
      t.core c = { s.core c with stealing := true, stealBusy := true, stealAt := 0, injUse := (t.core c).injUse }
    let ends (t : State) (c : Nat) (net : List Flight) : Prop := t.net = net ∧
      t.core c = { s.core c with stealing := false, stealBusy := false, stealAt := 0, stealNext := some (s.cycle + 1024) }
    (∀ c f, s.input.core = c → s.maySteal c = some f → (s.core c).stealBusy = false → (s.core c).stealing = false →
        (s.core c).idleSince + 64 ≤ s.cycle → (∀ n, (s.core c).stealNext = some n → n ≤ s.cycle) →
        (∀ k v, s.victim f c 0 = some (k, v) → free c → happens .stealStart s fun t => asks t c v k s.net) ∧
        (s.victim f c 0 = none → happens .stealStart s fun t => ends t c s.net)) ∧
      (∀ c k, arrives s c (.noWork k) →
        ((s.core c).stealing = false ∨ s.maySteal c = none → happens .noWorkAnswer s fun t => t.net = others s ∧
          t.core c = { s.core c with stealing := false, stealBusy := false }) ∧
        (∀ f, (s.core c).stealing = true → s.maySteal c = some f →
          (∀ i v, s.victim f c (k + 1) = some (i, v) → free c → happens .noWorkAnswer s fun t => asks t c v i (others s)) ∧
          (s.victim f c (k + 1) = none → happens .noWorkAnswer s fun t => ends t c (others s)))) ∧
      (∀ v thief k fid f j, arrives s v (.stealAsk thief k) → s.fieldOf v = some (fid, f) → Assoc.find s.fields fid = some f →
        f.job = some j →
        let asked := (s.core v).pending.find? fun p => s.eligible j thief p
        let fine : Prop := s.fenced v = false ∧ j.pre = .running
        (¬fine → happens .stealRequest s fun t => t = { s with net := others s ++ [s.flight v thief (.noWork k)] }) ∧
        (∀ p, fine → asked = some p → happens .stealRequest s fun t => t.net = others s ++ [s.flight v thief (.stealShip p)] ∧
          t.core v = { s.core v with pending := (s.core v).pending.erase p }) ∧
        (fine → asked = none → (s.core v).running = none →
          happens .stealRequest s fun t => t = { s with net := others s ++ [s.flight v thief (.noWork k)] }) ∧
        (∀ r i e, fine → asked = none → (s.core v).running = some r → r.join = some i → Assoc.find j.joins i = some e →
          (s.ctx v 1).live = true → (s.core v).release = none → r.task.range = true → r.task.gang = false → r.paired = false →
          (s.core v).iterLo.toNat + 2 ≤ (s.core v).iterHi.toNat → 2 ≤ (s.ctx v 1).wheld →
          let lo := (s.core v).iterLo.toNat
          let hi := (s.core v).iterHi.toNat
          let mid := lo + (hi - lo + 1) / 2
          let h := (s.ctx v 1).wheld
          happens .stealRequest s fun t =>
            t.net = others s ++ [s.flight v thief
              (.stealShip ⟨pieceOf r (BitVec.ofNat 32 mid) (BitVec.ofNat 32 hi) i, [], h / 2, (s.ctx v 1).whome, r.grid⟩)] ∧
              (t.core v).iterLo = (s.core v).iterLo ∧ (t.core v).iterHi.toNat = mid ∧ (t.ctx v 1).wheld = h - h / 2 ∧
              (t.jobOf v).map (fun j => Assoc.find j.joins i) = some (some { e with openPieces := e.openPieces + 1 }))) ∧
      (∀ c fid f j, s.input.core = c → s.fieldOf c = some (fid, f) → Assoc.find s.fields fid = some f → f.job = some j →
        (s.core c).joinStack.length ≤ 16 →
        happens .joinStackRefill s fun t => (t.core c).joinStack.length = 16 ∧
          (t.core c).joinStack.take (s.core c).joinStack.length = (s.core c).joinStack ∧
          t.core c = { s.core c with joinStack := (t.core c).joinStack }) ∧
      (∀ c owner, arrives s c (.lapse owner) → noStoresTo s c owner →
        -- an access that is on its way to the owner completes first
        (s.peerBusy c owner = true → exec .leaseLapseNotice s = .next s) ∧
        (s.peerBusy c owner = false → (∀ n < 12, ∀ w, (s.ctx c n).waiting = some w → w.on ≠ .fullBit) →
          happens .leaseLapseNotice s fun t => t.net = others s ++ [s.flight c owner (.lapseAck c)] ∧ (∀ n, t.ctx c n = s.ctx c n) ∧
            (t.core c).bare = { (s.core c).bare with held := (s.core c).held &&& ~~~(1#4 <<< posOf owner) }) ∧
        -- what waits for a word of the owner ends
        (∀ n w, s.peerBusy c owner = false → 1 ≤ n → n < 12 → (s.ctx c n).waiting = some w → w.on = .fullBit →
          (∃ k ∈ (s.ctx c n).awaits, keySpace k = 3 ∧ keyCore k = owner) →
          happens .leaseLapseNotice s fun t => t.net = others s ++ [s.flight c owner (.lapseAck c)] ∧ (t.ctx c n).waiting = none ∧
            (t.ctx c n).trap.map (fun r => (r.cause, r.val, r.pc)) = some (.peerExited, w.addr, (s.ctx c n).pc))) ∧
      (∀ c peer, arrives s c (.lapseAck peer) →
        happens .leaseLapseNotice s fun t => t.net = others s ∧ t.core c = { s.core c with lapseLeft := (s.core c).lapseLeft.erase peer })

/-- Copies in transit, pending queues, steals, join indices and leases. -/
def Obligations.TaskEvents : Prop := copyEvents ∧ stealEvents

/-! ### Engines, the accumulate network, pipes, `rot` and pairing (R139, R158, R198 to R201, R301 to R315, R335) -/

/-- R139, R158, R301, R304, R305, R335, R346: a burst of the head `bread` is read and waits for a helper; a destination sector of the head
`copy` is written and counted at the object; a published copy takes its pages' place in one move and every TLB lets go of them; a
matrix command runs and leaves the queue; a fault that is parked is told to its context, or as a notice. -/
def engineEvents : Prop :=
  ∀ s : State,
    let c := s.input.core
    let k := s.core c
    let ended (v : State) (e : EngAt) (ks : List Nat) : State := v.setCore c ((v.core c).linesDone e ks)
    (∀ cmd id base stride rows cols row64 r bs ks v w u, s.breadOf c id = some (cmd, true) →
        cmd.op = .bread id base stride rows cols row64 → s.input.index = id → s.input.flag = false →
        s.input.row < rows → s.input.col < cols → cmd.done = [] → cmd.asked = [] → cmd.aborted = false → 1 < rows * cols → k.burstBuffers < 32 →
        Assoc.find k.requests id = some r →
        let e := bulkEng c cmd
        let i := s.input.row * cols + s.input.col
        let va := offBy base (64 * ((s.input.row : Int) * stride + s.input.col))
        -- it is translated and requested, and has its lines
        engKeys e va.toNat 64 .read s = .ok (ks, v) → ((linesOf ks).forM fun l => engAsk e l.1 l.2) v = .ok ((), w) →
        (w.setBread c { cmd with asked := [(i, 0, [ks.headD 0])] }).keysOf (ks.headD 0) 64 = ks →
        engPieces e [(va, ks.take 32), (va + 32, ks.drop 32)] (w.setBread c { cmd with asked := [(i, 0, [ks.headD 0])] }) = .ok (bs, u) →
        (u.core c).bursts = k.bursts → (u.core c).requests = k.requests →
        happens .burstArrival s fun t =>
          (t.core c).bursts.map (fun b => (b.req, b.g20, b.g21, b.g22, b.data, b.marks)) =
              k.bursts.map (fun b => (b.req, b.g20, b.g21, b.g22, b.data, b.marks)) ++
                [(id, 64 * s.input.col, s.input.row, s.input.row * row64 + s.input.col, bs.map (·.1),
                  (List.range 8).map fun j => ((bs.drop (8 * j)).take 8).any (·.2))] ∧
            (Assoc.find (t.core c).requests id).map Request.asked = some (r.asked + 1) ∧
            (t.core c).bulkq = (u.core c).bulkq.map fun b => if b.op = cmd.op then { cmd with done := [i] } else b) ∧
      (∀ cmd cmd' key o srcs bs v w x y, s.bulkHead c .copy = some (cmd, true) → cmd.op.unit = .copy → cmd.publishes = false → cmd.aborted = false →
        let e := bulkEng c cmd
        let i := s.input.index
        let ps := ((cmd.op.plan.src i).zip srcs).map fun (p, k) => (p.1, v.keysOf k p.2)
        let ks := (List.range 32).map (key + ·)
        i < cmd.op.plan.count → i ∉ cmd.done → (cmd.acks.find? fun a => a.1 = i) = none →
          -- it is translated, requested and charged, and its source is read
          askSector e cmd i s = .ok ((cmd', key, srcs), v) → cmd'.op = cmd.op → cmd'.publishes = false → cmd'.slot = cmd.slot → cmd'.gen = cmd.gen →
          engObject e cmd.op.object v = .ok (some o, w) →
          engCharge e (lineOf key) w = .ok ((), x) → sectorSource e ps x = .ok ((bs, false), y) → bs.length = 32 →
          3 ≤ keySpace key → v.keyFenced key = false → y.keyFenced key = false → y.unwatched c = true → y.unwatched (keyCore key) = true →
          ∃ u : State, ks.map u.peek = bs ∧ (∀ k, k ∉ ks → u.peek k = y.peek k) ∧ u.cores = y.cores ∧
            (let done := cmd'.returned i
             exec .copySectorWritten s =
              .next (ended ((u.sectorDone c done (some o) false).copyOver c done) e (key :: o :: ps.flatMap (·.2))))) ∧
      (∀ cmd x key pte obj v, s.bulkHead c .copy = some (cmd, true) → cmd.publishes = true → cmd.aborted = false →
        cmd.done.length = cmd.op.plan.count → cmd.fresh = some [x] → engObject (bulkEng c cmd) cmd.op.object s = .ok (obj, v) →
        (∀ w ∈ [s, v], w.pageLeaf c x.1 = some (key, pte) ∧ Assoc.find w.directory (lineOf key) = none ∧ ∀ y ∈ w.biPending, y.1 ≠ lineOf key) →
        keyDram (pteAddr pte) = x.2.1 → keySpace key = 0 → key % 16 = 0 →
        let u := v.publish c cmd
        let e := bulkEng c cmd
        exec .publish s = .next (ended ((match obj with
            | some o => u.atKey e cmd.op.object (u.engPort e o) o (.barArrive cmd.op.plan.count true)
            | none => u).bulkPop c .copy) e obj.toList) ∧
          u.peeks key 16 = bytesOfBits 16 (repointed pte x.2.2) ∧
          (∀ d, ∀ e ∈ (u.core d).tlb, e.level = 0 → pteAddr e.pte ≠ x.2.1 ∧ pteAddr e.pte ≠ x.2.2) ∧
          ∀ d, ∀ l ∈ (u.core d).cv, keySpace (l.1 * 64) = 0 → l.1 * 64 / 65536 * 65536 ≠ x.2.1 ∧ l.1 * 64 / 65536 * 65536 ≠ x.2.2) ∧
      (∀ cmd d, s.matHead c = some cmd → cmd.op = .mzero d →
        happens .matrixCommandRetire s fun t => (t.core c).matq = k.matq.drop 1 ∧
          (∀ r < 32, ∀ n < 32, ((t.core c).tile d.toNat).word r n = AccWord.zero) ∧ ((t.core c).tile d.toNat).marks = 0 ∧
          (∀ a, a ≠ d.toNat → (t.core c).tile a = k.tile a) ∧ ∀ k, t.peek k = s.peek k) ∧
      (∀ cmd u, s.matHead c = some cmd → runMat c cmd s = .ok ((), u) → exec .matrixCommandRetire s = .next (u.matPop c)) ∧
      (∀ f cmd rest, s.input.engine = .matrix → k.matPark = some f → k.matq = cmd :: rest → f.told = false →
        let detail := if f.cause = .engineFault then 0 else f.cause.code
        ((s.ctx c 1).live = true → (s.ctx c 1).gen = cmd.gen → (s.ctx c 1).trap = none → (s.ctx c 1).pastIssue = false →
          happens .engineFault s fun t => (t.core c).matPark = some { f with told := true } ∧
            (t.ctx c 1).trap = some ⟨.engineFault, .e, BitVec.ofNat 16 detail, false, cmd.pc, f.addr, cmd.gen, (s.ctx c 1).pc, none⟩) ∧
        ((s.ctx c 1).live = false → k.notices.length < 64 →
          happens .engineFault s fun t => t.core c = { k with matPark := some { f with told := true }, notices := k.notices ++
            [⟨.engineFault, BitVec.ofNat 16 detail, f.addr, true, cmd.pc, cmd.gen, 1⟩] }))

/-- R309, R311, R312 to R315: a row is added to an open tile of its anchor, word by word, and acknowledged, or comes back with a class; an
acknowledgement arrives at the sender's object, and a refusal is recorded there; a pipe's entries land in order and its credits
come back; `rot` moves the four sources to the next core of the ring. -/
def networkEvents : Prop :=
  ∀ s : State,
    let left : State := { s with net := others s }
    (∀ c src obj slot a r anchor ws mark, arrives s c (.row src obj slot a r anchor ws mark) →
      let tile := (s.core c).tile a.toNat
      (∀ n, s.rowRefusal c src tile anchor = some n →
        happens .acnRowArrival s fun t => t = { s with net := others s ++ [s.flight c src (.rowNak slot obj n)] }) ∧
      -- a row waits while its object cannot be reached
      (∀ x o, s.rowRefusal c src tile anchor = none → tile.opened = some (x, o) → left.objectWaits (left.router c 1) o = true →
        exec .acnRowArrival s = .next s) ∧
      (∀ x o, s.rowRefusal c src tile anchor = none → tile.opened = some (x, o) → left.objectWaits (left.router c 1) o = false →
        r < 32 → ws.length = 32 →
        ∃ u : State,
          exec .acnRowArrival s = .next ((u.atObject (left.router c 1) o (.barArrive 1 true)).2.push c src (.rowAck slot obj)) ∧
          onlyCore left u c ∧ (∀ b, b ≠ a.toNat → (u.core c).tile b = (s.core c).tile b) ∧
          (∀ i < 32, ∀ n < 32, ((u.core c).tile a.toNat).word i n =
            if i = r then accMerge (tile.word r n) (ws.getD n AccWord.zero) else tile.word i n) ∧
          ((u.core c).tile a.toNat).marks = if mark then tile.marks ||| (1#32 <<< r) else tile.marks)) ∧
      (∀ c slot obj, arrives s c (.rowAck slot obj) →
        exec .acnAckArrival s =
          .next (if left.objectWaits (left.router c slot) obj then s else (left.atObject (left.router c slot) obj (.barArrive 1 true)).2)) ∧
      (∀ c slot obj n, arrives s c (.rowNak slot obj n) →
        let r := left.atObject (left.router c slot) obj (.barError n)
        exec .acnNakArrival s = .next (if left.objectWaits (left.router c slot) obj then s
          else if r.1 then r.2 else r.2.notice c (plainNotice .acnNak n (obj.setWidth 64)))) ∧
      (∀ c p seq v mark, arrives s c (.pipeEntry p seq v mark) →
        (∀ f ∈ s.net.take s.input.index, f.dst = c → ∀ seq v mark, f.body ≠ .pipeEntry p seq v mark) →
        let e := (s.core c).pipe p
        let ks := s.keysOf (keyScratch c (e.base + 8 * (seq % e.depth))) 8
        e.ready = true → e.closed = false → ks.Nodup → s.unwatched c = true →
        happens .pipeEntryLand s fun t => t.net = others s ∧ ks.map t.peek = bytesOfBits 8 v.toNat ∧ (∀ k, k ∉ ks → t.peek k = s.peek k) ∧
          t.core c = (s.core c).setPipe p { e with count := e.count + 1 }) ∧
      (∀ c p, ((s.core c).pipe p).closed = false →
        (arrives s c (.pipeCredit p none) → happens .pipeCreditReturn s fun t => onlyCore left t c ∧
          t.core c = (s.core c).setPipe p { (s.core c).pipe p with free := ((s.core c).pipe p).free + 1 }) ∧
        (∀ depth, arrives s c (.pipeCredit p (some depth)) → happens .pipeCreditReturn s fun t => onlyCore left t c ∧
          t.core c = (s.core c).setPipe p { (s.core c).pipe p with ready := true, tail := 0, free := depth })) ∧
      (∀ (rs : Nat → RotWait) (n : Nat),
        let cl := clusterOf s.input.core
        let core (q : Nat) := coreOf cl q
        let from_ (q : Nat) := s.keysOf (keyScratch (core q) (rs q).src) n
        let to_ (q : Nat) := s.keysOf (keyScratch (core (rotNext q)) (rs q).dst) n
        (∀ q < 4, (s.core (core q)).rot = some (rs q) ∧ (rs q).done = false ∧ (rs q).n = n ∧ (s.ctx (core q) 1).live = true ∧
          s.unwatched (core q) = true ∧ ∃ w, (s.ctx (core q) 1).waiting = some w ∧ w.on = .rotate) →
        cl < 256 → (∀ q < 4, (to_ q).Nodup ∧ ∀ k ∈ to_ q, keyCore k = core (rotNext q)) →
        happens .rotExchange s fun t => (∀ q < 4, (to_ q).map t.peek = (from_ q).map s.peek ∧
            (t.core (core q)).rot = some { rs q with done := true } ∧ (t.ctx (core q) 1).committed = true) ∧
          ∀ k, (∀ q < 4, k ∉ to_ q) → t.peek k = s.peek k)

/-- R198 to R202: an interval that has agreed starts a new one, and PAIRFP of both cores takes the fingerprint; the first disagreement
discards the held outputs, restores the checkpoint and counts in PAIRCTL of both cores; the second raises PAIR_MISMATCH at the west core,
asks for the reset of the cell, and excludes the cluster when MHALF alone differed. The halves that differ are those of the two cores,
and those that the turn's input says an error has changed. -/
def pairEvents : Prop :=
  ∀ (s : State) (p : PairState),
    let c := s.input.core
    let k := s.core c
    let d := s.differ p s.input.word
    let miss (n : BitVec 16) : BitVec 16 := if n = 0xFFFF then n else n + 1
    k.pair = some p → p.leaving = 0 → k.pairDue p (s.saving c) = true → p.other ≠ c →
      (d = 0 → k.hold = [] →
        let fp : Word := BitVec.ofNat 64 ((~~~p.crcM).toNat * 2 ^ 32 + (~~~p.crcS).toNat)
        happens .pairIntervalEnd s fun t => (t.core c).pairFp = fp ∧ (t.core p.other).pairFp = fp ∧
          (t.core c).pair.map (fun q => (q.retired, q.failed, q.crcS, q.crcM)) = some (0, false, 0xFFFF_FFFF, 0xFFFF_FFFF) ∧
          t.ctx c 1 = s.ctx c 1 ∧ t.net = s.net ∧ ∀ k, t.peek k = s.peek k) ∧
      (d ≠ 0 → p.failed = false →
        happens .pairIntervalEnd s fun t => t.bare = s.bare ∧ (∀ e, e ≠ c → e ≠ p.other → t.core e = s.core e) ∧
          (t.ctx c 1).pc = p.ctl.pc ∧ (t.ctx c 1).retired = p.ctl.retired ∧ (t.ctx c 1).waiting = none ∧ (t.ctx c 1).sb = [] ∧
          -- replies that came within the interval are kept
          (t.ctx c 1).replies = p.ctl.replies ++ p.came ∧ (∀ i, (t.ctx c 1).readG i = p.ctl.readG i) ∧ (t.core c).hold = [] ∧ (t.core c).v = p.v ∧ (t.core c).matq = [] ∧
          (t.core c).misCount = miss k.misCount ∧ (t.core p.other).misCount = miss (s.core p.other).misCount ∧
          (t.core c).pair.map (fun q => (q.failed, q.retired)) = some (true, p.retired0)) ∧
      (d ≠ 0 → p.failed = true → k.notices.length < 64 →
        happens .pairIntervalEnd s fun t => t.net = s.net ∧ (∀ k, t.peek k = s.peek k) ∧
          t.core c = { k with misCount := miss k.misCount, notices := k.notices ++ [⟨.pairMismatch, 0, BitVec.ofNat 64 d, false, 0, 0, 0⟩] } ∧
          (t.core p.other).misCount = miss (s.core p.other).misCount ∧ (∃ i, t.agenda = .event .cellReset i :: s.agenda) ∧
          if d = 2 then (t.slice (clusterOf c)).excl = true ∨ (t.slice (clusterOf c)).pend = true
          else t.slice (clusterOf c) = s.slice (clusterOf c))

/-- What the engines, the networks between cores and a pairing do of their own accord. -/
def Obligations.EngineEvents : Prop := engineEvents ∧ networkEvents ∧ pairEvents

/-! ### Waits that end, cells and snapshots (R62, R97, R110, R113, R140, R206, R348 to R350, R355) -/

/-- R140, R206, R349, R350, R355: the timeout of `idle` writes 2 to D; a stepped instruction that has waited 4,096 cycles is withdrawn; an
instruction whose count has reached 2^LOG traps with BARRIER_STALL; one that is past issue does neither, and completes; an access to a page in
migration walks again. -/
def waitEvents : Prop :=
  ∀ s : State,
    let c := s.input.core
    let n := s.input.slot
    let k := s.core c
    let x := s.ctx c n
    (∀ w v (d a : GReg), n = 0 → x.waiting = some w → w.on = .idle → x.stage = 1 → x.latch = 1024 * v + 32 * a.toNat + d.toNat → v ≠ 0 →
        w.since + v ≤ s.cycle → k.hasItem = false → k.wakes = 0 → x.text = none → x.step1 = false →
        x.after = none → x.lates = [] →
        happens .idleTimeout s fun t => GWritten x (t.ctx c 0) d 2 false ∧ (t.ctx c 0).waiting = none ∧
          (t.ctx c 0).retired = x.retired + 1 ∧ GoesOn x (t.ctx c 0) 8) ∧
      (∀ w, x.waiting = some w → x.stepping = true → w.on.blocks = true → w.since + 4096 ≤ s.cycle → n ≠ 0 → x.committed = false →
        happens .stepBlocked s fun t => t.bare = s.bare ∧
          (let y := t.ctx c n
           y.waiting = none ∧ y.stepping = false ∧ y.pc = x.pc ∧ y.retired = x.retired ∧ y.trap = x.trap ∧ SameRegs x y)) ∧
      (∀ w, x.waiting = some w → k.wdctl.getLsbD 8 = true → w.on ≠ .idle → x.halted = false → x.trap = none → n ≠ 0 → x.pastIssue = false →
        s.fieldHalted c = false → max w.since k.wdSince + 2 ^ (k.wdctl.toNat % 64) ≤ s.cycle →
        happens .barrierStall s fun t =>
          (t.ctx c n).trap.map (fun r => (r.cause, r.kind, r.pc, r.val, r.gen, r.resume)) =
              some (.barrierStall, .p, x.pc, w.addr, x.gen, x.pc) ∧
            (t.ctx c n).waiting = none ∧ (t.ctx c n).retired = x.retired ∧ SameRegs x (t.ctx c n)) ∧
      (x.committed = true → exec .stepBlocked s = .next s ∧ exec .barrierStall s = .next s) ∧
      (∀ w, x.waiting = some w → w.on = .migration → w.since + 1024 ≤ s.cycle →
        exec .migrationRewalk s = .next { s with agenda := .issue c n :: s.agenda })

/-- R62, R97, R110, R197: the reset of a cell fences it and gives its cores back as reset cores keep them, with empty scratchpads;
when the fence falls their supervisors stand at KVEC. What a reset core keeps, and that a core of no field is reset alone, is the model's reading
(log 79). -/
def cellEvents : Prop :=
  ∀ s : State,
    let x := s.input
    (∀ f, Assoc.find s.fields x.fid = some f → x.cell < f.cellCount → f.job = none → (∀ e ∈ s.snaps, e.1 ≠ x.fid) →
        let hit (c : Nat) : Prop := c ∈ f.allCores ∧ f.cellOf (clusterOf c) = x.cell ∧ s.healthy c = true
        happens .cellReset s fun t =>
          (∃ g, Assoc.find t.fields x.fid = some g ∧ x.cell ∈ g.fenced ∧ ∀ i ∈ f.fenced, i ∈ g.fenced) ∧
            (∀ c, hit c → (∀ i, ((s.core c).domain i).isOpen = false) → t.core c = (s.core c).cellReset ∧
              ∀ o < 2 ^ 24, t.peek (keyScratch c o) = 0) ∧
            ∀ c, ¬hit c → t.core c = s.core c) ∧
      (Assoc.find s.fields x.fid = none → s.healthy x.core = true → s.fieldOf x.core = none →
        (∀ i, ((s.core x.core).domain i).isOpen = false) →
        happens .cellReset s fun t => onlyCore { s with mem := t.mem, poison := t.poison, full := t.full } t x.core ∧
          t.core x.core = { (s.core x.core).cellReset with inReset := false } ∧ ∀ o < 2 ^ 24, t.peek (keyScratch x.core o) = 0) ∧
      (∀ f, Assoc.find s.fields x.fid = some f → x.cell ∈ f.fenced → f.job = none →
        happens .fenceFall s fun t =>
          (∃ g, Assoc.find t.fields x.fid = some g ∧ x.cell ∉ g.fenced) ∧
            ∀ c ∈ f.allCores, f.cellOf (clusterOf c) = x.cell → s.healthy c = true →
              (t.core c).inReset = false ∧ (t.ctx c 0).pc = (s.core c).kvec.setWidth 72 ∧ (t.core c).idleSince = s.cycle)

/-- A packet that asks for no record and no interrupt. -/
def quiet (k : Option Ticket) : Prop := ∀ t, k = some t → t.flags.getLsbD 0 = false ∧ t.flags.getLsbD 1 = false

/-- R97, R113, R114: a pause whose deadline has passed is a hard save; when a job is quiescent under a SNAPSHOT its second copy is taken,
the job runs on, and the drain starts; a drain ends with the status of its copy. -/
def snapshotEvents : Prop :=
  ∀ (s : State) (f : FieldSt) (j : Job),
    let fid := s.input.fid
    (Assoc.find s.fields fid = some f → f.job = some j →
      (j.pre = .pausing false → j.deadline ≤ s.cycle → s.intervalsOver f = true → quiet j.launch → quiet j.pauser →
        (∀ k ∈ j.joined, quiet (some k)) →
        happens .pauseDeadline s fun t =>
          ∃ g, Assoc.find t.fields fid = some g ∧ g.job = some { j with pre := .hardSaved, launch := none, pauser := none, joined := [] }) ∧
      (∀ k target, j.pre = .parked → j.snap = some (true, target) → j.pauser = some k → j.joined = [] → j.snaps = [] →
        Assoc.find s.snaps fid = none → s.hostHolds f j = [] → j.parked = [] → (s.homeCounter j).count ≠ (s.homeCounter j).total →
        happens .secondCopyTaken s fun t =>
          (∃ g, Assoc.find t.fields fid = some g ∧ (g.job.map fun i => (i.pre, i.snap, i.pauser)) = some (.running, none, none)) ∧
            Assoc.find t.snaps fid = some ⟨k, j.home, target, (s.image f j none).bytes, 0, 0⟩) ∧
      -- another SNAPSHOT that has started takes its copy next, of the job as it stands
      (∀ k target k' asks rest, j.pre = .parked → j.snap = some (true, target) → j.pauser = some k → j.snaps = (k', asks) :: rest →
        Assoc.find s.snaps fid = none → s.hostHolds f j = [] →
        happens .secondCopyTaken s fun t =>
          (∃ g, Assoc.find t.fields fid = some g ∧ (g.job.map fun i => (i.pre, i.snap, i.pauser, i.snaps)) = some (.parked, some asks, some k', rest)) ∧
            Assoc.find t.snaps fid = some ⟨k, j.home, target, (s.image f j none).bytes, 0, 0⟩)) ∧
      ∀ n, Assoc.find s.snaps fid = some n → s.kernelBusy n.home (1024 + fid) = false → (s.core n.home).kernelAt ≠ some (1024 + fid) →
        let rest := writeImage n.home fid ((n.image.length + 63) / 64 - n.done) (s.letGo n.home)
        (∀ v, rest = .ok ((), v) → exec .drainComplete s = .next ((v.drainOver fid n n.status).letGo n.home)) ∧
          ∀ e a v, rest = .error (.fault e a v) → exec .drainComplete s = .next ((v.drainOver fid n 6).letGo n.home)

/-- R191: errors that are corrected count in the counter of their vault or slice; one that is not marks a unit of memory, or a word of a dirty
line, discards a clean line and a TLB entry, and asks for the reset of the cell when it strikes control state. -/
def errorEvents : Prop :=
  (∀ (s : State) (u : Upset) (rest : List Turn), s.captured = false → s.agenda = .upset u :: rest →
    step s = .next (({ s with agenda := rest } : State).tick.upset u)) ∧
  ∀ s : State,
    (∀ v, let t := s.upset (.vault v)
      t = { s with eccVault := t.eccVault } ∧ Assoc.get 0 t.eccVault v = Assoc.get 0 s.eccVault v + 1) ∧
    (∀ v, let t := s.upset (.slice v)
      t = { s with eccSlice := t.eccSlice } ∧ Assoc.get 0 t.eccSlice v = Assoc.get 0 s.eccSlice v + 1) ∧
    (∀ key, let t := s.upset (.memory key)
      t = { s with poison := t.poison } ∧ t.poisoned key = true ∧
        ∀ k, k / unitOf k * unitOf k ≠ key / unitOf key * unitOf key → t.poisoned k = s.poisoned k) ∧
    (∀ c key, let t := s.upset (.l1 c key)
      let line := (s.core c).line (lineOf key)
      ((∀ e ∈ line, e.2.dirty = false) → Assoc.find (t.core c).cv (lineOf key) = none ∧ ∀ k, t.peek k = s.peek k) ∧
        ((∃ e ∈ line, e.2.dirty = true) → ∀ i < 64, Assoc.find ((t.core c).line (lineOf key)) i =
          (Assoc.find line i).map fun b => if i / 8 = key % 64 / 8 then { b with poison := true } else b)) ∧
    (∀ c i, let t := s.upset (.tlb c i)
      onlyCore s t c ∧ t.core c = { s.core c with tlb := (s.core c).tlb.eraseIdx i }) ∧
    ∀ c, (∃ i, s.upset (.control c) = { s with agenda := .event .cellReset i :: s.agenda }) ∧
      (∃ i, s.upset (.counters c true) = { s with agenda := .event .cellReset i :: s.agenda }) ∧ s.upset (.counters c false) = s

/-- Waits that end by themselves, the reset of cells, snapshots, and errors. -/
def Obligations.WaitEvents : Prop := waitEvents ∧ cellEvents ∧ snapshotEvents ∧ errorEvents

/-! ### Host queues (R33 to R52) -/

/-- The micro-kernel of home `c` is free to work at queue `q`, from which no packet is on its way out. It starts from `atTurn`, and ends with
`turnOver` (R43). -/
def freeHome (s : State) (c q : Nat) : Prop :=
  q < 1024 ∧ s.server q = some c ∧ s.kernelBusy c q = false ∧ (s.core c).kernelAt ≠ some q ∧ (s.queue q).taken = none
def atTurn (s : State) (c q : Nat) : State := (s.setQueue q { s.queue q with turn := false }).letGo c
def turnOver (s : State) (c q : Nat) : State := (s.setQueue q { s.queue q with turn := false }).letGo c

/-- The packet `p` stands at the head of queue `input.qid`, which its home may turn to (R43), no FENCE holds it back, and it has been read and has
taken the queue's turn, which left `u`; it passes the general checks of R41 with `bad`. -/
def servedPacket (s : State) (p : Pkt) (bad : Option Nat) (u : State) : Prop :=
  freeHome s p.core s.input.qid ∧ s.mayVisit p.core s.input.qid = true ∧ p.qid = s.input.qid ∧
    (∃ r, readHead p.core p.qid (atTurn s p.core p.qid) = .ok (some p, r) ∧ turnTo p.core p.qid r = .ok ((), u)) ∧
    (p.flags / 4 % 2 = 0 ∨ (u.queue p.qid).started = []) ∧ u.badPacket p = bad

/-- R36, R38: the event does what the packet asks, which leaves `v`, and the packet leaves its queue with a status. -/
def completes (i : Instr) (s : State) (p : Pkt) (status : Nat) (v : State) : Prop :=
  ∀ w, takePkt p (some (status, 0)) none v = .ok ((), w) → exec i s = .next (turnOver w p.core p.qid)

/-- R36, R42: the event starts the packet, which leaves its queue; its completion comes later. -/
def startsPacket (i : Instr) (s : State) (p : Pkt) (v : State) : Prop :=
  ∀ w, takePkt p none none v = .ok ((), w) → exec i s = .next (turnOver w p.core p.qid)

/-- R33, R36, R43 to R47: a write to a latch raises it and wakes the home of an enabled queue; a gated home that wakes runs again; a poll turns
the home to its queues, to which it turns by priority; an unpublished header is read again, and stalls its queue after 2^26 cycles; a packet
leaves its queue when its unit headers have been zeroed: READ moves on, and then it completes. -/
def wakeEvents : Prop :=
  ∀ s : State,
    let q := s.input.qid
    let d := s.desc q
    (q < 1024 →
      let raised (t : State) : Prop :=
        Assoc.get 0 t.wake q = if Assoc.get 0 s.wake q < s.input.word then s.input.word else Assoc.get 0 s.wake q
      (d.enabled = false → happens .wakeWrite s fun t => raised t ∧ t = { s with wake := t.wake }) ∧
      (∀ c, d.enabled = true → d.halted = false → d.sound q = true → s.homeOf q = some c →
        ((s.core c).gated = false → happens .wakeWrite s fun t => raised t ∧ (t.queue q).awake = true ∧
          t.core c = { s.core c with wakes := (s.core c).wakes + 1 }) ∧
        ((s.core c).gated = true → happens .wakeWrite s fun t => raised t ∧ t.core c = { s.core c with waking := true }))) ∧
      (∀ c, s.input.core = c → (s.core c).waking = true → (∀ e ∈ s.wake, s.homeOf e.1 ≠ some c) →
        happens .wakeComplete s fun t => onlyCore s t c ∧ t.core c = { s.core c with gated := false, waking := false }) ∧
      (∀ c, s.input.core = c → s.able c = true → (s.core c).bootMode = false →
        let mine (i : Nat) : Bool := (s.desc i).enabled && (s.desc i).poll && decide (s.homeOf i = some c)
        (∀ i < 1024, mine i = true → (s.desc i).halted = false ∧ (s.desc i).sound i = true) →
        happens .queuePollScan s fun t => t = { s with queues := t.queues } ∧
          ∀ i < 1024, t.queue i = if mine i then { s.queue i with awake := true, broken := false } else s.queue i) ∧
      -- a home turns to its queues by priority
      (∀ c i, s.server i = some c → s.visited.contains i = false → (s.desc q).prio < (s.desc i).prio → i ∈ s.queues.map (·.1) →
        s.mayVisit c q = false) ∧
      (∀ c, freeHome s c q → s.mayVisit c q = false → exec .headerReread s = .next s) ∧
      (∀ c r v, freeHome s c q → s.mayVisit c q = true → readHead c q (atTurn s c q) = .ok (none, r) → turnTo c q r = .ok ((), v) →
        exec .headerReread s = .next (turnOver v c q)) ∧
      -- a head that the event is not about keeps the queue's turn
      (∀ c p r, freeHome s c q → s.mayVisit c q = true → readHead c q (atTurn s c q) = .ok (some p, r) →
        exec .headerReread s = .next (turnOver r c q)) ∧
      (∀ c h u, freeHome s c q → s.mayVisit c q = true → caught (ringRead c d d.read 8) (atTurn s c q) = .ok (some h, u) →
        bitsOfBytes ((h.drop 4).take 4) ≠ d.read / 2 ^ d.sizeLog % 2 ^ 32 → (u.desc q).read = d.read → u.queue q = { s.queue q with turn := false } →
        (s.queue q).unpublished = none → u.cycle = s.cycle →
        (d.read < (Assoc.get 0 u.wake q).toNat →
          happens .headerReread s fun t => t.queue q = { s.queue q with unpublished := some (d.read, s.cycle), turn := false }) ∧
        ((Assoc.get 0 u.wake q).toNat ≤ d.read →
          happens .headerReread s fun t => t.queue q = { s.queue q with awake := false, turn := false })) ∧
      -- the stall looks at the header once more
      (∀ c r, freeHome s c q → (∀ p, readHead c q (s.letGo c) = .ok (some p, r) → exec .queueStall s = .next (r.letGo c)) ∧
        (readHead c q (s.letGo c) = .ok (none, r) → ∀ since, (r.queue q).unpublished = some ((r.desc q).read, since) → since + 2 ^ 26 ≤ r.cycle →
          (r.desc q).read < (Assoc.get 0 r.wake q).toNat → (r.desc q).stalled = false →
          exec .queueStall s = .next (((r.setStalled q true).queueRecord c q 9).letGo c))) ∧
      -- the packet on its way out
      (∀ c k w, (s.queue q).taken = some k → k.resumes = none →
        (List.range k.len).forM (fun j => kWrite c (d.ringAt (k.ticket.index + 16 * j)) (List.replicate 8 0)) s = .ok ((), w) →
        let x := w.advanceRead q (k.ticket.index + 16 * k.len)
        settlePkt c q s = .ok ((), match k.result with
          | some (st, info) => x.complete c k.ticket st info
          | none => x)) ∧
      -- READ moves on, and nothing else of memory changes but the flags of its descriptor
      ∀ (i n : Nat), s.tableBacked i = true →
        let line := lineOf (s.descAt i)
        (∀ c, Assoc.find (s.core c).cv line = none) → Assoc.find s.directory line = none → (∀ e ∈ s.biPending, e.1 ≠ line) →
        (∀ e ∈ s.biOps, e.1 ≠ line) →
        let t := s.advanceRead i n
        t.peekNat (s.descAt i + 16) 8 = n % 2 ^ 64 ∧ (t.desc i).stalled = false ∧ (t.queue i).waitValue = none ∧ (t.queue i).taken = none ∧
          ∀ k, ¬(s.descAt i + 16 ≤ k ∧ k < s.descAt i + 24) → ¬(s.descAt i + 62 ≤ k ∧ k < s.descAt i + 64) → t.peek k = s.peek k

/-- R36, R40 to R42, R48, R50: NOP completes, a type above 0x0C completes with BAD_TYPE, SIGNAL stores its value and raises its vector, WAIT_VALUE
holds the head while its condition is false, and SKIP moves READ of another queue. -/
def plainPackets : Prop :=
  ∀ (s : State) (p : Pkt) (u : State),
    let a := p.ptr 24
    let num (off n : Nat) : Nat := bitsOfBytes ((p.bytes.drop off).take n)
    (servedPacket s p none u →
      (p.type = 0 → completes .nopPacket s p 0 u) ∧
      (∀ v, p.type = 9 → a.toNat % 8 = 0 → kWrite p.core a ((p.bytes.drop 40).take 8) u = .ok ((), v) →
        completes .signal s p 0 (if num 16 2 / 2 ^ 15 = 0 then v.raise (num 16 2 % 2048) else v)) ∧
      (∀ i m v, i = .waitValue ∧ (s.queue s.input.qid).waitValue = none ∨
          i = .waitValuePoll ∧ (s.queue s.input.qid).waitValue.isSome = true → p.type = 10 → a.toNat % 8 = 0 → num 16 1 ≤ 3 →
        kNat p.core a 8 u = .ok (m, v) →
        let x := m &&& num 48 8
        let y := num 40 8
        let holds : Bool := match num 16 1 with
          | 0 => x = y
          | 1 => x ≠ y
          | 2 => y ≤ x
          | _ => x < y
        (holds = true → completes i s p 0 v) ∧
          (holds = false →
            exec i s = .next (turnOver (v.setQueue p.qid { v.queue p.qid with waitValue := some p.ticket }) p.core p.qid))) ∧
      (p.type = 11 →
        let q := num 16 2
        let d := u.desc q
        (q = p.qid ∨ 1024 ≤ q ∨ u.homeOf q = none ∨ d.enabled = false ∨ d.sound q = false ∨ (d.halted = true ∧ (u.queue q).broken = true) ∨
            d.read ≠ num 24 8 ∨ num 32 8 % 16 ≠ 0 ∨ num 32 8 ≤ num 24 8 ∨ d.reserve < num 32 8 →
          completes .skip s p 10 u) ∧
        ∀ c w, q < 1024 → q ≠ p.qid → u.homeOf q = some c → d.enabled = true → d.sound q = true → (d.halted = false ∨ (u.queue q).broken = false) →
          d.read = num 24 8 → num 32 8 % 16 = 0 → num 24 8 < num 32 8 → num 32 8 ≤ d.reserve → (u.core p.core).kernelAt = none →
          let n := min (num 32 8 - num 24 8) (2 ^ d.sizeLog) / 16
          -- the target's home writes its ring
          let by_ (v : State) : State := if c = p.core then v else v.letGo c
          (List.range n).forM (fun j => kWrite c (d.ringAt (num 24 8 + 16 * j)) (List.replicate 8 0)) (by_ u) = .ok ((), w) →
          let x := ((by_ w).advanceRead q (num 32 8)).setHalted q false
          completes .skip s p 0 (x.setQueue q { x.queue q with awake := true, broken := false }))) ∧
      (servedPacket s p (some 5) u → 0x0D ≤ p.type → completes .badTypePacket s p 5 u)

/-- What a host queue does of its own accord, and the packets that concern no field. -/
def Obligations.QueueEvents : Prop := wakeEvents ∧ plainPackets

/-! ### Packets that concern a field and its job (R58, R68, R70, R74, R77, R96, R112, R119) -/

/-- R58, R68, R70: FIELD without tables defines a field whose map is its own rectangle, BUDGET gives its cores their next limits,
WAYMASK flushes every slice of it and gives it the mask. -/
def fieldPackets : Prop :=
  ∀ (s : State) (p : Pkt) (u : State), servedPacket s p none u →
    let num (off n : Nat) : Nat := bitsOfBytes ((p.bytes.drop off).take n)
    let fid := num 16 1
    (p.type = 3 →
      let x0 := num 17 1
      let y0 := num 18 1
      let w := num 19 1
      let h := num 20 1
      let old := Assoc.find u.fields fid
      fid < 64 → (∀ f, old = some f → f.job = none) → w ≠ 0 → h ≠ 0 → x0 + w ≤ 16 → y0 + h ≤ 16 →
      (∀ e ∈ u.fields, e.1 ≠ fid → e.2.overlaps x0 y0 w h = false) → num 21 1 ≠ 0 → num 22 1 ≠ 0 → w % num 21 1 = 0 → h % num 22 1 = 0 →
      num 23 1 % 2 = 0 → p.ptr 24 = 0 → p.ptr 40 = 0 → num 56 8 % 65536 = 0 → num 56 8 < 2 ^ 39 →
      let f : FieldSt := ⟨x0, y0, w, h, num 21 1, num 22 1, false, w, h,
        (List.range (w * h)).map fun i => (y0 + i / w) * 16 + x0 + i % w, [], [], [], num 56 8, (old.map FieldSt.serial).getD 0, [], [], none⟩
      let t := u.defineField fid f
      completes .field s p 0 t ∧ (∃ fenced, Assoc.find t.fields fid = some { f with fenced := fenced }) ∧
        ∀ c ∈ f.allCores, (t.core c).tlb = []) ∧
      (∀ f, Assoc.find u.fields fid = some f →
        (p.type = 4 → (∀ i < 4, num (20 + 4 * i) 4 ≠ 0) →
          let lim (i : Nat) : BitVec 32 := BitVec.ofNat 32 (num (20 + 4 * i) 4)
          ∃ v : State, v.bare = u.bare ∧ completes .budget s p 0 v ∧
            ∀ c, v.core c = if c ∈ f.allCores then { u.core c with nextLim := (some (lim 0), some (lim 1), some (lim 2), some (lim 3)) }
              else u.core c) ∧
        (p.type = 5 → f.job = none → f.w ≤ 16 →
          ∃ v : State, completes .waymask s p 0 v ∧ ∀ cl ∈ f.clusters, (v.slice cl).mask = BitVec.ofNat 16 (num 18 2) ∧
            (v.slice cl).flush = false ∧ (v.slice cl).pins = [] ∧ (v.slice cl).clean = false))

/-- R74, R77, R100: an accepted launch makes the field's cores ready, opens the job's domain with a new generation (log 78, DEDUCED) and puts the job into
its field; its copies share the weight W; the copies of a grid share the tiles in order, without a gap. -/
def launchPackets : Prop :=
  (∀ (s : State) (p : Pkt) (u v : State) (f : FieldSt) (h image : List Byte) (home rc : Nat), servedPacket s p none u →
    let num (off n : Nat) : Nat := bitsOfBytes ((p.bytes.drop off).take n)
    let head (off n : Nat) : Nat := bitsOfBytes ((h.drop off).take n)
    let fid := num 16 1
    u.fieldBusy p = false → launchHead p u = .ok (some (f, h, home, rc, image), v) →
      (∀ roots w, p.type = 1 → 1 ≤ num 20 4 → num 20 4 ≤ 65535 → num 20 4 ≤ 2 ^ head 32 1 →
        readRoots rc (num 20 4) (p.ptr 40) v = .ok (roots, w) →
        startsPacket .launchGraph s p ((w.letGo rc).launch fid f (jobOfHeader h image home (head 40 4) p.ticket none)
          (roots.map fun t => (none, t)))) ∧
      (∀ t w, p.type = 2 →
        let x := num 56 4
        let y := num 60 4
        let tx := num 64 2
        let ty := num 66 2
        let cores := v.gridCores f (head 34 2 % 2 = 1) (head 34 2 / 2 % 2 = 1)
        let ntx := (x + tx - 1) / tx
        let total := ntx * ((y + ty - 1) / ty)
        x ≠ 0 → y ≠ 0 → tx ≠ 0 → ty ≠ 0 → cores ≠ [] → cores.length ≤ 2 ^ head 32 1 → total < 2 ^ 32 → kRead rc (p.ptr 40) 64 v = .ok (t, w) →
        let g : Grid := ⟨ntx, tx, ty, x, y⟩
        startsPacket .launchGrid s p ((w.letGo rc).launch fid f (jobOfHeader h image home (head 40 4) p.ticket (some g))
          (gridCopies (taskOf t) g total cores)))) ∧
    (∀ (s : State) (fid : Nat) (f : FieldSt) (j : Job) (copies : List (Option Nat × TaskCopy)), j.pre = .running → copies ≠ [] →
      j.home ∈ f.allCores → s.healthy j.home = true → j.snapJob = false → (∀ e ∈ copies, e.2.malformed j = false) →
      let t := s.launch fid f j copies
      -- of a graph
      ((∀ e ∈ copies, e.1 = none) →
        Assoc.find t.fields fid = some { f with job := some j, serial := f.serial + 1 } ∧
          ((t.core j.home).domain 0).gen = ((s.core j.home).domain 0).gen + 1 ∧ ((t.core j.home).domain 0).isOpen = true ∧
          ((t.core j.home).domain 0).total = 2 ^ j.wlog ∧
          ∀ c ∈ f.allCores, s.healthy c = true → (t.core c).running = none ∧ (t.core c).pending = [] ∧ (t.ctx c 1).live = false) ∧
        -- of a grid: every core takes its own copy
        ∀ cores : List Nat, copies.map (·.1) = cores.map some → cores.Nodup → j.pairs = false → (∀ e ∈ copies, e.2.task.gang = false) →
          (∀ c ∈ cores, (s.acceptJob fid f j).idle c = true) →
          ∀ e ∈ copies, ∀ c, e.1 = some c → (t.ctx c 1).live = true ∧ (t.core c).running.map (·.task) = some e.2.task) ∧
    (∀ h n, n ≠ 0 → (shares h n).sum = h ∧ (shares h n).length = n ∧ ∀ w ∈ shares h n, h / n ≤ w ∧ w ≤ h / n + 1) ∧
    ∀ (t : TaskRec) (g : Grid) (total : Nat) (cores : List Nat), total < 2 ^ 32 → cores ≠ [] →
      let cs := gridCopies t g total cores
      cs.map (·.1) = cores.map some ∧ (∀ e ∈ cs, e.2.grid = some g ∧ e.2.task.range = true ∧ e.2.task.gridded = true) ∧
        ∀ i < cores.length, (cs[i]?).map (fun e => (e.2.task.iterLo.toNat, e.2.task.iterHi.toNat)) =
          some (i * total / cores.length, (i + 1) * total / cores.length)

/-- R42, R96, R97, R112, R119: PAUSE and SNAPSHOT of a running job begin its soft pre-emption, with every pending copy parked and its weight
home; a PAUSE that finds one under way joins it, and the earlier deadline stands (log 83, DEDUCED), a SNAPSHOT waits for its turn in it (log 127); a job without
SNAP may not be copied; RESTORE of a parked job lets it run again. -/
def pausePackets : Prop :=
  (∀ (s : State) (p : Pkt) (u : State) (f : FieldSt) (j : Job), servedPacket s p none u →
    let num (off n : Nat) : Nat := bitsOfBytes ((p.bytes.drop off).take n)
    let fid := num 16 1
    Assoc.find u.fields fid = some f → f.job = some j →
      (p.type = 6 → 1 ≤ num 20 4 → num 20 4 ≤ 10000000 →
        (j.pre = .running → startsPacket .pause s p (u.pauseJob fid f p.ticket (num 20 4) none)) ∧
          ∀ b, j.pre = .pausing b → startsPacket .pause s p
            (u.modJob fid fun j => { j with joined := j.joined ++ [p.ticket], deadline := min j.deadline (u.cycle + 2700 * num 20 4) })) ∧
      (p.type = 7 →
        (j.pre ≠ .parked → j.snapJob = false → completes .snapshot s p 11 u) ∧
          (j.pre = .running → j.snapJob = true → num 17 1 % 2 = 1 ∨ num 24 16 = 0 →
            startsPacket .snapshot s p (u.pauseJob fid f p.ticket (num 20 4) (some (decide (num 17 1 % 2 = 1), num 24 16)))) ∧
          (j.pre = .pausing true → j.snapJob = true → num 17 1 % 2 = 1 ∨ num 24 16 = 0 → startsPacket .snapshot s p
            (u.modJob fid fun j => { j with snaps := j.snaps ++ [(p.ticket, decide (num 17 1 % 2 = 1), num 24 16)]
                                            deadline := min j.deadline (u.cycle + 2700 * num 20 4) }))) ∧
      ∀ w, p.type = 8 → j.pre = .parked → j.snap = none → num 24 16 = 0 →
        takePkt p (some (0, 0)) (some fid) (u.modJob fid fun j => { j with launch := some p.ticket, pre := .running }) = .ok ((), w) →
        exec .restore s = .next (turnOver w p.core p.qid)) ∧
    -- what the pause leaves
    ∀ (t : State) (fid : Nat) (f : FieldSt) (j : Job) (k : Ticket) (us : Nat) (snap : Option (Bool × Nat)), Assoc.find t.fields fid = some f →
      f.job = some j → f.allCores.Nodup → (∀ c ∈ f.allCores, ∀ e ∈ (t.core c).pending, e.weight = 0) → (∀ e ∈ j.overflow, e.2.weight = 0) →
      let v := t.pauseJob fid f k us snap
      let after := (Assoc.find v.fields fid).bind FieldSt.job
      (∀ c ∈ f.allCores, (v.core c).pending = []) ∧
        after.map (fun i => (i.pre, i.pauser, i.deadline, i.snap)) = some (.pausing snap.isSome, some k, t.cycle + 2700 * us, snap) ∧
        after.map Job.overflow = some [] ∧
        after.map Job.parked = some (j.parked ++ (f.allCores.flatMap fun c => (t.core c).pending.map fun e => { e with weight := 0 }) ++
          j.overflow.map fun e => { e.2 with weight := 0 })

/-- The packets that concern a field. -/
def Obligations.FieldEvents : Prop := fieldPackets ∧ launchPackets ∧ pausePackets

/-! ### DEBUG (R208, R376, R381) -/

/-- The DEBUG events, each with the code of its requests and what it does with one (R208). -/
def debugKinds : List (Instr × Nat × (Nat → DebugWork → E Answer)) :=
  [(.debugHalt, 1, debugHalt), (.debugResume, 2, debugResume), (.debugStep, 3, debugStep), (.debugReadctx, 4, debugReadctx),
    (.debugWritectx, 5, debugWritectx), (.debugReadmem, 6, debugReadmem), (.debugWritemem, 7, debugWritemem), (.debugSetwatch, 8, debugSetwatch),
    (.debugStatus, 9, debugStatus)]

/-- R42, R208: a DEBUG packet starts at once: its request joins those of its target core, and is worked at. One whose target is no core completes
with BAD_BODY; one whose target does not run holds its queue, which is the model's choice (log 99). -/
def debugStarts : Prop :=
  ∀ (s : State) (p : Pkt) (u w : State) (i : Instr) (code : Nat) (act : Nat → DebugWork → E Answer), (i, code, act) ∈ debugKinds →
    servedPacket s p none u → p.type = 0xC → bitsOfBytes ((p.bytes.drop 18).take 2) = code → s.input.flag = false →
    let target := u.coreOfLid (bitsOfBytes ((p.bytes.drop 16).take 2))
    let data := (p.bytes.drop 40).take (bitsOfBytes ((p.bytes.drop 20).take 4))
    (∀ c, target = some c → u.able c = true →
        takePkt p none none { u with debugWorks := u.debugWorks ++ [⟨p.ticket, p.core, c, code, data, p.ptr 24, false, 0, 0, 0, 0, 0, none⟩] } = .ok ((), w) →
        s.debugWorks.length < w.debugWorks.length → exec i s = .next ((turnOver w p.core p.qid).workTurn s.debugWorks.length act)) ∧
      (∀ c, target = some c → u.able c = false → u.debugWorks.length = s.debugWorks.length → exec i s = .next (turnOver u p.core p.qid)) ∧
      (target = none → w.debugWorks.length = s.debugWorks.length → takePkt p (some (6, 0)) none u = .ok ((), w) →
        exec i s = .next (turnOver w p.core p.qid))

/-- Request `g` of an event with the flag is worked at: it has no answer yet, its core runs and is free for it, and the earlier requests of
that core have taken effect. -/
def requestDue (s : State) (code : Nat) (g : DebugWork) : Prop :=
  s.input.flag = true ∧ s.debugWorks[s.input.index]? = some g ∧ g.code = code ∧ g.answer = none ∧ s.able g.core = true ∧
    (∀ h ∈ s.debugWorks.take s.input.index, h.core ≠ g.core ∨ h.begun = true) ∧ s.kernelBusy g.core g.workId = false ∧
    (s.core g.core).kernelAt = none

/-- The request is answered in state `v` with a status and data, and then its packet completes. -/
def replies (i : Instr) (s : State) (g : DebugWork) (status : Nat) (data : List Byte) (v : State) : Prop :=
  ∀ h x, v.debugWorks[s.input.index]? = some h → { h with begun := true } = { g with begun := true } →
    kWrite g.core g.reply (bytesOfBits 4 status ++ bytesOfBits 4 data.length ++ List.replicate 8 0 ++ data)
      (v.setWork s.input.index { g with answer := some (status, data), begun := true }) = .ok ((), x) →
    exec i s = .next ((({ x with debugWorks := x.debugWorks.eraseIdx s.input.index } : State).complete g.home g.ticket 0 0).letGo g.core)

/-- The reply of a STEP: how many steps have ended as stepped, the status of the last, and the program counter (R376). -/
def stepData (done last : Nat) (pc : Ptr) : List Byte := bytesOfBits 4 done ++ bytesOfBits 4 last ++ bytesOfBits 16 pc.toNat ++ List.replicate 8 0

/-- R208, R376: HALT stops the core and the others of its scope, and answers with the skids when it has come to rest; RESUME lets slots go on; STEP
steps a halted slot, one step after the other. That HALT waits for rest, and that a request about a context which is not at rest waits, is the model's
reading (log 99). -/
def debugControl : Prop :=
  ∀ (s : State) (g : DebugWork),
    let c := g.core
    let i := s.input.index
    let d := g.data
    let n := bitsOfBytes (d.take 1)
    let v := s.letGo c
    let x := v.ctx c n
    (requestDue s 1 g → d ≠ [] → n ≤ 2 →
        let w := if g.begun then v else (v.debugStop c n).setWork i { g with begun := true }
        ((∀ i < 11, (w.ctx c (i + 1)).atRest = true) → replies .debugHalt s g 0 ((List.range 12).map fun i => (w.ctx c i).skid.setWidth 8) w) ∧
          ((∃ i < 11, (w.ctx c (i + 1)).atRest = false) → exec .debugHalt s = .next (w.letGo c))) ∧
      (let w := v.debugStop c n
       (w.core c).debugged = [1, 2, 3, 4, 5, 6, 7, 8, 9, 10, 11] ∧
        ((v.core c).stopped = true → ∀ i, w.ctx c i = v.ctx c i) ∧
        ((v.core c).stopped = false → (w.core c).stopped = true ∧ w.ctx c 0 = v.ctx c 0 ∧ ∀ i, 1 ≤ i → i ≤ 11 → (w.ctx c i).halted = true) ∧
        (n = 0 → w.net = v.net) ∧
        (n = 1 → w.net = v.net ++ ([0, 1, 2, 3].map (coreOf (clusterOf c))).map fun e => v.flight c e (.haltSignal true)) ∧
        ∀ fid f, n = 2 → v.fieldOf c = some (fid, f) → w.net = v.net ++ f.allCores.map fun e => v.flight c e (.haltSignal true)) ∧
      (requestDue s 2 g → d ≠ [] →
        (n = 0xFF → replies .debugResume s g 0 [] (v.resumeSlots c ((List.range 11).map (· + 1)))) ∧
          (1 ≤ n → n ≤ 11 → replies .debugResume s g 0 [] (v.resumeSlots c [n])) ∧
          (n = 0 → replies .debugResume s g 1 [] v)) ∧
      (requestDue s 3 g → g.begun = false → 8 ≤ d.length → n ≠ 0 →
        let count := bitsOfBytes ((d.drop 4).take 4)
        1 ≤ count → count ≤ 64 →
        (n ≤ 11 → x.halted = false → replies .debugStep s g 2 [] v) ∧
          (n ≤ 11 → x.halted = true → x.live = true → x.trap = none → x.atRest = true → x.stepping = false → v.stepped i c n = false →
            let w := v.setCore c { v.core c with debugged := n :: (v.core c).debugged }
            exec .debugStep s = .next (((w.setCtx c n { w.ctx c n with stepping := true }).setWork i
              { g with slot := n, left := count - 1, begun := true, before := x.retired, gen := x.gen }).letGo c))) ∧
      (requestDue s 3 g → g.begun = true → 8 ≤ d.length → n ≠ 0 →
        let count := bitsOfBytes ((d.drop 4).take 4)
        1 ≤ count → count ≤ 64 →
        let y := v.ctx c g.slot
        (y.stepStatus g.before g.gen.toNat = none → exec .debugStep s = .next (v.letGo c)) ∧
          (∀ st, st ≠ 0 → y.stepStatus g.before g.gen.toNat = some st → replies .debugStep s g 0 (stepData g.done st y.pc) v) ∧
          (y.stepStatus g.before g.gen.toNat = some 0 →
            let w := if y.halted then v.skipFills c g.slot 1024 else v
            let z := w.ctx c g.slot
            (g.left = 0 → replies .debugStep s g 0 (stepData (g.done + 1) 0 z.pc) w) ∧
              -- a context that has ended, or has been resumed, has status 3
              (g.left ≠ 0 → z.live = false ∨ z.halted = false → replies .debugStep s g 0 (stepData (g.done + 1) 3 z.pc) w) ∧
              (g.left ≠ 0 → z.live = true → z.halted = true → z.trap = none →
                exec .debugStep s = .next (((w.setCtx c g.slot { z with stepping := true }).setWork i
                  { g with done := g.done + 1, begun := true, left := g.left - 1, before := z.retired, gen := z.gen }).letGo c))))

/-- R208, R381: READCTX and WRITECTX move the 592 bytes of a halted context, READMEM and WRITEMEM move memory of the job's space, SETWATCH sets a
watchpoint, STATUS tells how the slots stand; a request about a context that is not halted answers 2. Which codes STATUS gives slot 0 and a
trapped slot is the model's reading (log 100). -/
def debugAccess : Prop :=
  ∀ (s : State) (g : DebugWork),
    let c := g.core
    let d := g.data
    let n := bitsOfBytes (d.take 1)
    let v := s.letGo c
    let x := v.ctx c n
    let free : Prop := n ≤ 11 ∧ x.halted = true ∧ x.atRest = true
    (requestDue s 4 g → d ≠ [] →
        (n ≤ 11 → x.halted = false → replies .debugReadctx s g 2 [] v) ∧ (free → replies .debugReadctx s g 0 x.image v)) ∧
      (requestDue s 5 g → 8 ≤ d.length →
        let off := bitsOfBytes ((d.drop 4).take 4)
        free → off % 8 = 0 → off + (d.drop 8).length ≤ 592 →
          replies .debugWritectx s g 0 []
            ((v.setCtx c n (x.ofImage (x.image.take off ++ d.drop 8 ++ x.image.drop (off + (d.drop 8).length)))).recheck c n)) ∧
      (requestDue s 6 g → d.length = 20 →
        let va := bitsOfBytes (d.take 16)
        let len := bitsOfBytes ((d.drop 16).take 4)
        va < 2 ^ 72 → 1 ≤ len → len ≤ 4080 →
          (∀ bs w, jobRead c va len v = .ok (bs, w) → replies .debugReadmem s g 0 bs w) ∧
            ∀ e a w, jobRead c va len v = .error (.fault e a w) → replies .debugReadmem s g 3 [] w) ∧
      (requestDue s 7 g → 16 ≤ d.length → bitsOfBytes (d.take 16) < 2 ^ 72 →
        ∀ w, jobWrite c (bitsOfBytes (d.take 16)) (d.drop 16) v = .ok ((), w) → replies .debugWritemem s g 0 [] w) ∧
      (requestDue s 8 g → d.length = 40 → n ≤ 3 →
        let w (i : Nat) : Word := BitVec.ofNat 64 (bitsOfBytes ((d.drop (8 + 8 * i)).take 8))
        ∃ u : State, replies .debugSetwatch s g 0 [] u ∧ onlyCore v u c ∧
          Assoc.get Watch.reset (u.core c).watches n =
            ⟨wctlWrite (Assoc.get Watch.reset (v.core c).watches n).ctl (w 0), w 1, w 2, w 3⟩) ∧
      (requestDue s 9 g → replies .debugStatus s g 0 ((List.range 12).map fun i =>
        let y := v.ctx c i
        BitVec.ofNat 8 (if i = 0 then 1 else if y.live = false then 0 else if y.halted then 2
          else if y.waiting.isSome || y.trap.isSome then 3 else 1)) v) ∧
      -- what an image says is what the context then holds
      ∀ y : Ctx, y.pc.toNat % 4 = 0 → y.cir &&& ~~~0xFFFF000F#64 = 0 → y.fpstat &&& ~~~0x3F#64 = 0 → y.fpctl &&& 0xFFFFFFF8#64 = 0 →
        (y.ofImage y.image).image = y.image

/-- The DEBUG packets of a debugger. -/
def Obligations.DebugEvents : Prop := debugStarts ∧ debugControl ∧ debugAccess

/-! ### The machine as a whole -/

/-- R210, R216 to R225: an encoded well-formed instruction, with any operands, decodes to itself and has the length of its LEN bits. -/
def Obligations.DecodeEncode : Prop :=
  ∀ (i : Instr) (r : Raw), i.wellFormed = true → encode i = some r → decode 32 r.toWord = .instr i (lenBytes r.len)

/-- Memory keeps its canonical form through every step, whatever is done: keys strictly rising, and no byte listed that reads as an
unlisted one. -/
def Obligations.StepKeepsMemory : Prop :=
  ∀ s t : State, Memory.wf s.mem = true → step s = .next t → Memory.wf t.mem = true

/-- The registers that R6 gives a reset value, at reset, and memory in its canonical form; slot 0 of every core is live in boot mode
(R361), every way of the slices is cache and CLEAN (R66), PODCFG has one member (R378), BOOTSTAT is 0 (R53). That the g registers are 0 is the
model's (DESIGN CHOICE, log 12): no rule gives them a value. -/
def Obligations.ResetState : Prop :=
  let s := State.reset
  Memory.wf s.mem = true ∧ s.cycle = 0 ∧ s.captured = false ∧ s.bootStage = 0 ∧ s.podcfg = 0x10000 ∧ (∀ q, Assoc.get 0 s.wake q = 0) ∧
    s.fields = [] ∧ s.net = [] ∧ (∀ cl, (s.slice cl).mask = 0 ∧ (s.slice cl).clean = true ∧ (s.slice cl).flush = false ∧
      (s.slice cl).excl = false) ∧
    ∀ c, (s.core c).bootMode = true ∧ (s.core c).wdctl = 0x11A ∧ (s.core c).split = 0 ∧ (s.core c).dramLim = 0xFFFF_FFFF ∧
      (s.core c).notices = [] ∧ (s.ctx c 0).live = true ∧ (s.ctx c 0).role = .supervisor ∧ (∀ r, (s.core c).vreg r = ⟨0, 0x30, 0, 0⟩) ∧
      ∀ n, n ≠ 0 → (s.ctx c n).live = false ∧ (s.ctx c n).trap = none ∧ ∀ r, (s.ctx c n).readG r = 0

/-- R210, R213, R223: a step whose turn is the issue of a context that may issue fetches at its program counter and runs exactly what
decodes there, on the state after the fetch; an encoding that is no instruction is run as ILLEGAL_INSTRUCTION or ILLEGAL_LENGTH, an
instruction that leaves its fetch block takes FETCH_CROSS, one that runs past the end of a code message PERMISSION (R291), a fetch that faults takes the fault, and one that a budget or its way holds back
waits. The east core of a pair follows its west core. A step whose turn is an event runs
the event. -/
def Obligations.StepRunsDecoded : Prop :=
  ∀ (s : State) (rest : List Turn), s.captured = false →
    let u := ({ s with agenda := rest } : State).tick
    (∀ c n, s.agenda = .issue c n :: rest → u.follows c n = false → u.canIssue c n = true →
      -- accesses under lapsed leases are over when the core's task issues (R131)
      let v := u.lapsesOver c n
      let x := v.ctx c n
      let f := v.fetchAt c n x.pc
      (∀ w room, f.1 = .code w room →
        let t : State := { f.2 with curCore := c, curSlot := n }
        let bits := BitVec.ofNat 128 w
        (∀ i len, decode room bits = .instr i len → step s = exec i t) ∧
          (∀ len, decode room bits = .illegal len → step s = exec (.illegalInstruction .instruction (BitVec.ofNat 64 w)) t) ∧
          (decode room bits = .badLength → step s = exec (.illegalInstruction .length (BitVec.ofNat 64 w)) t) ∧
          (decode room bits = .cross → (t.ctx c n).lates = [] →
            let len := lenBytes (BitVec.ofNat 2 w)
            let code : Nat := 0xFF * 2 ^ 64 + 2 * 2 ^ 32
            (x.text = none → step s = .next (t.takeTrap c n
              ⟨.fetchCross, .p, 0, false, x.pc, BitVec.ofNat 64 (w % 2 ^ 32), x.gen, x.pc, some len⟩)) ∧
            -- in a code message it may be LEN that ends the code
            ∀ bs, x.text = some bs → (x.pc.toNat - code) % 32 + len ≤ 32 → step s = .next (t.takeTrap c n
              ⟨.permission, .p, 0, true, x.pc, BitVec.ofNat 64 (code + bs.length), x.gen, x.pc, some len⟩))) ∧
        (∀ cause, f.1 = .bad cause → (f.2.ctx c n).lates = [] → step s = .next (f.2.takeTrap c n
          ⟨cause, .p, 0, x.text.isSome, x.pc, x.pc.setWidth 64, x.gen, x.pc, none⟩)) ∧
        (f.1 = .migrating → step s = .next (f.2.wait c n .migration (x.pc.setWidth 64))) ∧
        ∀ on, f.1 = .held on → step s = .next (f.2.wait c n on (x.pc.setWidth 64))) ∧
      (∀ c n, s.agenda = .issue c n :: rest → u.follows c n = false → u.canIssue c n = false → step s = .next u) ∧
      (∀ c n, s.agenda = .issue c n :: rest → u.follows c n = true → step s = .next (u.eastStep c)) ∧
      ∀ i x, s.agenda = .event i x :: rest → eventOf i = true → step s = exec i { u with input := x }

/-- R209: a device that has been captured changes nothing but whose turn it is and what it shifts out, which stays once it is there, until it is
reset. -/
def Obligations.CapturedStays : Prop :=
  ∀ s t : State, s.captured = true → step s = .next t →
    (t = { s with agenda := t.agenda, plate := t.plate } ∧ (s.plate ≠ [] → t.plate = s.plate)) ∨ ∃ x rest, s.agenda = .event .deviceReset x :: rest

/-- Words of each group, written out from the encodings of spec/10 to spec/15, decode to their instructions. -/
def Obligations.DecodeWords : Prop :=
  let word (n : Nat) (w : Nat) (i : Instr) : Prop := decode 32 (BitVec.ofNat 128 w) = .instr i n
  word 8 0x000001000C010000 (.eretSkip 4) ∧ word 8 0x0000180010000500 (.sysr 5 0x18) ∧ word 8 0x0000440014018000 (.sysw 0x44 6) ∧
    word 8 0x0000070008000000 (.trap 7) ∧ word 8 0x0000040028588000 (.tlbinv 2 5 true) ∧ word 8 0x000000003C010300 (.stepx 3 4) ∧
    word 8 0x0000000300510304 (.add .i64 3 4 5) ∧ word 8 0x0000000230920704 (.sar .i32 7 8 9) ∧
    word 8 0xFFFFF00300010308 (.aluiAdd .i64 3 4 0xFFFFF0) ∧ word 12 0x000186A0000000030001820D (.addl .i64 2 6 100000) ∧
    word 8 0x0000081230008114 (.fcvt .i32 .f32 ⟨.rtz, false⟩ 1 2) ∧ word 8 0xFFFFF61204010018 (.bne .i32 .tk 4 0 0xFFFFF6) ∧
    word 12 0x00000004000007001C00001D (.loopi 4 7) ∧ word 8 0x0002034502300720 (.ld .n16 ⟨.acq, .normal, .fd⟩ 7 3 0x40) ∧
    word 8 0x0000068022628028 (.aacc .rel .pd 6 0 5) ∧ word 8 0x000003001240002C (.rel .fd 4 0) ∧
    word 12 0x000001400000048002418531 (.send 5 6 (some (4, .dv)) 0x50) ∧
    word 16 0x000400018000010000000A000098883A (.bread 8 2 9 10 0x40 0x60 4) ∧ word 8 0x000000000E71403C (.bwait 7 0 5) ∧
    word 8 0x00008008033CB148 (.vadd .f32 ⟨.rne, false⟩ 1 2 3 2) ∧ word 8 0x0000010B040CB154 (.vqnt .e4m3 .mx ⟨.rne, false⟩ 1 2 0) ∧
    word 8 0x0008000B02623450 (.vld .e4m3 .mx ⟨.rlx, .normal, .cx⟩ 4 6 0x100 0) ∧
    word 16 0x0000005B004000400000240B0A388062 (.mma 0 ⟨.e4m3, .mx, 2, 64⟩ ⟨.e4m3, .mx, 3, 64⟩ (some 4) false) ∧
    word 12 0x000000800812500061 (.mst .f32 ⟨.rne, false⟩ 5 0 0 128) ∧ word 12 0x00000000081A403061 (.mldt .f32 0 4 0)

/-! ### Three rules word for word -/

/-- The states of the words of an accumulator (R171): finite, plus infinity, minus infinity, NaN. -/
def accTable : List (List (BitVec 2)) := [[0, 1, 2, 3], [1, 1, 3, 3], [2, 3, 2, 3], [3, 3, 3, 3]]

/-- R172: two states are combined by the table, and the combination is commutative and associative. -/
def Obligations.AccStates : Prop :=
  (∀ a b : BitVec 2, combine a b = (accTable.getD a.toNat []).getD b.toNat 0) ∧ (∀ a b : BitVec 2, combine a b = combine b a) ∧
    ∀ a b c : BitVec 2, combine (combine a b) c = combine a (combine b c)

/-- R260: `pcmp` with a condition 0 to 5 compares its pointers as unsigned 72-bit values, and its word is an illegal encoding with
condition 6; no translation is looked up. -/
def Obligations.PointerCompare : Prop :=
  (∀ s : State, s.steady = true → ∀ (c : Cond) (d : GReg) (a b : PReg), c ≠ .un →
    WritesG (.pcmp c d a b) 8 d (if pointersMeet c (s.now.readP a.toNat) (s.now.readP b.toNat) then 1 else 0)
      (s.now.anyMarked [uP a, uP b]) 0 s) ∧
    (let word (q : BitVec 4) (d : GReg) (a b : PReg) : BitVec 64 :=
       0#15 ++ 0#3 ++ 0#6 ++ q ++ 0#4 ++ 0x09#6 ++ (2#2 ++ b) ++ (2#2 ++ a) ++ (0#1 ++ d) ++ 0x04#6 ++ 0#2
     ∀ (d : GReg) (a b : PReg),
       decode 32 ((word 6 d a b).setWidth 128) = .illegal 8 ∧
         ∀ q c, (q, c) ∈ [(0#4, Cond.eq), (1#4, .ne), (2#4, .lt), (3#4, .le), (4#4, .gt), (5#4, .ge)] →
           decode 32 ((word q d a b).setWidth 128) = .instr (.pcmp c d a b) 8)

/-- The number that a value without infinity or NaN stands for. -/
def ratOf (neg : Bool) (m : Nat) (e : Int) : ℚ := (if neg then -1 else 1) * m * 2 ^ e

/-- a < b among values that are no NaN. -/
def valueLt : Val → Val → Prop
  | .num s m e _, .num t n f _ => ratOf s m e < ratOf t n f
  | .inf s, .inf t => s = true ∧ t = false
  | .inf s, .num _ _ _ _ => s = true
  | .num _ _ _ _, .inf t => t = false
  | .nan _, _ | _, .nan _ => False

/-- a = b among values that are no NaN; zeros of either sign are equal. -/
def valueEq : Val → Val → Prop
  | .num s m e _, .num t n f _ => ratOf s m e = ratOf t n f
  | .inf s, .inf t => s = t
  | _, _ => False

/-- A condition between two values (R220). -/
def valuesMeet (c : Cond) (x y : Val) : Prop :=
  let un := x.isNaN = true ∨ y.isNaN = true
  match c with
  | .eq => valueEq x y
  | .ne => ¬valueEq x y
  | .lt => valueLt x y
  | .le => valueLt x y ∨ valueEq x y
  | .gt => valueLt y x
  | .ge => valueLt y x ∨ valueEq x y
  | .un => un

/-- R264: `fcmp` writes 1 when the condition of R220 holds between the numbers its sources stand for, and 0 otherwise; zeros of either
sign are equal. Under `.eq`, `.ne` and `.un` only a signalling NaN sets NV, under the other conditions any NaN does. -/
def Obligations.FloatCompare : Prop :=
  ∀ s : State, s.steady = true → ∀ (ty : Ty) (c : Cond) (d a b : GReg), ty = .f32 ∨ ty = .f16 ∨ ty = .bf16 →
    let v (r : GReg) : Val := value ty ((s.now.readG r.toNat).toNat % 2 ^ ty.width)
    let x := v a
    let y := v b
    let quietly : Bool := c = .eq ∨ c = .ne ∨ c = .un
    let nv : Bool := if quietly then x = .nan true ∨ y = .nan true else x.isNaN || y.isNaN
    let fl : Flags := if nv then fNV else 0
    (valuesMeet c x y → WritesG (.fcmp ty c d a b) 8 d 1 (s.now.anyMarked [uG a, uG b]) fl s) ∧
      (¬valuesMeet c x y → WritesG (.fcmp ty c d a b) 8 d 0 (s.now.anyMarked [uG a, uG b]) fl s)
end

