-- ==== Sys2Proof/Laws/State.lean ====
section
/-! SUPPORT. What each update of the state leaves as it was, field by field, and what reads back after a write. -/

namespace Sys2Proof.Machine

/-! ### Maps -/

@[simp] theorem Assoc.get_put {α : Type} (d : α) (m : Assoc α) (k j : Nat) (v : α) :
    Assoc.get d (Assoc.put m k v) j = if j = k then v else Assoc.get d m j := by
  induction m with
  | nil => simp [Assoc.put, Assoc.get, eq_comm]
  | cons e t ih =>
    obtain ⟨i, w⟩ := e
    by_cases h1 : k < i
    · simp [Assoc.put, Assoc.get, h1, eq_comm]
    · by_cases h2 : k = i
      · subst h2
        by_cases h : k = j
        · simp [Assoc.put, Assoc.get, h]
        · simp [Assoc.put, Assoc.get, h, Ne.symm h]
      · by_cases h : i = j
        · subst h
          simp [Assoc.put, Assoc.get, h1, h2, Ne.symm h2]
        · simp [Assoc.put, Assoc.get, h1, h2, h, ih]

@[simp] theorem Assoc.get_del {α : Type} (d : α) (m : Assoc α) (k j : Nat) :
    Assoc.get d (Assoc.del m k) j = if j = k then d else Assoc.get d m j := by
  induction m with
  | nil => simp [Assoc.del, Assoc.get]
  | cons e t ih =>
    obtain ⟨i, w⟩ := e
    by_cases h1 : i = k
    · subst h1
      by_cases h : j = i
      · simp only [h, if_true] at ih ⊢
        simpa [Assoc.del] using ih
      · simp [Assoc.del, Assoc.get, ih, h, Ne.symm h]
    · by_cases h : i = j
      · subst h
        simp [Assoc.del, Assoc.get, h1]
      · simp [Assoc.del, Assoc.get, h1, h, ih]

/-- A read after a write of one key. -/
@[simp] theorem Assoc.get_set {α : Type} [DecidableEq α] (d : α) (m : Assoc α) (k j : Nat) (v : α) :
    Assoc.get d (Assoc.set d m k v) j = if j = k then v else Assoc.get d m j := by
  unfold Assoc.set
  split
  · subst_vars; simp
  · simp

@[simp] theorem Assoc.find_put {α : Type} (m : Assoc α) (k j : Nat) (v : α) :
    Assoc.find (Assoc.put m k v) j = if j = k then some v else Assoc.find m j := by
  induction m with
  | nil => simp [Assoc.put, Assoc.find, eq_comm]
  | cons e t ih =>
    obtain ⟨i, w⟩ := e
    by_cases h1 : k < i
    · simp [Assoc.put, Assoc.find, h1, eq_comm]
    · by_cases h2 : k = i
      · subst h2
        by_cases h : k = j
        · simp [Assoc.put, Assoc.find, h]
        · simp [Assoc.put, Assoc.find, h, Ne.symm h]
      · by_cases h : i = j
        · subst h
          simp [Assoc.put, Assoc.find, h1, h2, Ne.symm h2]
        · simp [Assoc.put, Assoc.find, h1, h2, h, ih]

@[simp] theorem Assoc.find_del {α : Type} (m : Assoc α) (k j : Nat) :
    Assoc.find (Assoc.del m k) j = if j = k then none else Assoc.find m j := by
  induction m with
  | nil => simp [Assoc.del, Assoc.find]
  | cons e t ih =>
    obtain ⟨i, w⟩ := e
    by_cases h1 : i = k
    · subst h1
      by_cases h : j = i
      · simp only [h, if_true] at ih ⊢
        simpa [Assoc.del] using ih
      · simp [Assoc.del, Assoc.find, ih, h, Ne.symm h]
    · by_cases h : i = j
      · subst h
        simp [Assoc.del, Assoc.find, h1]
      · simp [Assoc.del, Assoc.find, h1, h, ih]

/-! ### A core of the state -/

@[simp] theorem State.setCore_agenda (s : State) (c : Nat) (k : Core) : (s.setCore c k).agenda = s.agenda := rfl
@[simp] theorem State.setCore_curCore (s : State) (c : Nat) (k : Core) : (s.setCore c k).curCore = s.curCore := rfl
@[simp] theorem State.setCore_curSlot (s : State) (c : Nat) (k : Core) : (s.setCore c k).curSlot = s.curSlot := rfl
@[simp] theorem State.setCore_input (s : State) (c : Nat) (k : Core) : (s.setCore c k).input = s.input := rfl
@[simp] theorem State.setCore_steps (s : State) (c : Nat) (k : Core) : (s.setCore c k).steps = s.steps := rfl
@[simp] theorem State.setCore_mem (s : State) (c : Nat) (k : Core) : (s.setCore c k).mem = s.mem := rfl
@[simp] theorem State.setCore_poison (s : State) (c : Nat) (k : Core) : (s.setCore c k).poison = s.poison := rfl
@[simp] theorem State.setCore_full (s : State) (c : Nat) (k : Core) : (s.setCore c k).full = s.full := rfl
@[simp] theorem State.setCore_dirtyPages (s : State) (c : Nat) (k : Core) : (s.setCore c k).dirtyPages = s.dirtyPages := rfl
@[simp] theorem State.setCore_cycle (s : State) (c : Nat) (k : Core) : (s.setCore c k).cycle = s.cycle := rfl
@[simp] theorem State.setCore_captured (s : State) (c : Nat) (k : Core) : (s.setCore c k).captured = s.captured := rfl
@[simp] theorem State.setCore_plate (s : State) (c : Nat) (k : Core) : (s.setCore c k).plate = s.plate := rfl
@[simp] theorem State.setCore_net (s : State) (c : Nat) (k : Core) : (s.setCore c k).net = s.net := rfl
@[simp] theorem State.setCore_remote (s : State) (c : Nat) (k : Core) : (s.setCore c k).remote = s.remote := rfl
@[simp] theorem State.setCore_nextRemote (s : State) (c : Nat) (k : Core) : (s.setCore c k).nextRemote = s.nextRemote := rfl
@[simp] theorem State.setCore_linkRetries (s : State) (c : Nat) (k : Core) : (s.setCore c k).linkRetries = s.linkRetries := rfl
@[simp] theorem State.setCore_powerEst (s : State) (c : Nat) (k : Core) : (s.setCore c k).powerEst = s.powerEst := rfl
@[simp] theorem State.setCore_throttled (s : State) (c : Nat) (k : Core) : (s.setCore c k).throttled = s.throttled := rfl
@[simp] theorem State.setCore_flash (s : State) (c : Nat) (k : Core) : (s.setCore c k).flash = s.flash := rfl
@[simp] theorem State.setCore_bootDetail (s : State) (c : Nat) (k : Core) : (s.setCore c k).bootDetail = s.bootDetail := rfl
@[simp] theorem State.setCore_bootStage (s : State) (c : Nat) (k : Core) : (s.setCore c k).bootStage = s.bootStage := rfl
@[simp] theorem State.setCore_qtBase (s : State) (c : Nat) (k : Core) : (s.setCore c k).qtBase = s.qtBase := rfl
@[simp] theorem State.setCore_qErr (s : State) (c : Nat) (k : Core) : (s.setCore c k).qErr = s.qErr := rfl
@[simp] theorem State.setCore_podcfg (s : State) (c : Nat) (k : Core) : (s.setCore c k).podcfg = s.podcfg := rfl
@[simp] theorem State.setCore_members (s : State) (c : Nat) (k : Core) : (s.setCore c k).members = s.members := rfl
@[simp] theorem State.setCore_wake (s : State) (c : Nat) (k : Core) : (s.setCore c k).wake = s.wake := rfl
@[simp] theorem State.setCore_msix (s : State) (c : Nat) (k : Core) : (s.setCore c k).msix = s.msix := rfl
@[simp] theorem State.setCore_msixSent (s : State) (c : Nat) (k : Core) : (s.setCore c k).msixSent = s.msixSent := rfl
@[simp] theorem State.setCore_doe (s : State) (c : Nat) (k : Core) : (s.setCore c k).doe = s.doe := rfl
@[simp] theorem State.setCore_pci (s : State) (c : Nat) (k : Core) : (s.setCore c k).pci = s.pci := rfl
@[simp] theorem State.setCore_hostLines (s : State) (c : Nat) (k : Core) : (s.setCore c k).hostLines = s.hostLines := rfl
@[simp] theorem State.setCore_directory (s : State) (c : Nat) (k : Core) : (s.setCore c k).directory = s.directory := rfl
@[simp] theorem State.setCore_biPending (s : State) (c : Nat) (k : Core) : (s.setCore c k).biPending = s.biPending := rfl
@[simp] theorem State.setCore_biOps (s : State) (c : Nat) (k : Core) : (s.setCore c k).biOps = s.biOps := rfl
@[simp] theorem State.setCore_hdm (s : State) (c : Nat) (k : Core) : (s.setCore c k).hdm = s.hdm := rfl
@[simp] theorem State.setCore_eccVault (s : State) (c : Nat) (k : Core) : (s.setCore c k).eccVault = s.eccVault := rfl
@[simp] theorem State.setCore_eccSlice (s : State) (c : Nat) (k : Core) : (s.setCore c k).eccSlice = s.eccSlice := rfl
@[simp] theorem State.setCore_measured (s : State) (c : Nat) (k : Core) : (s.setCore c k).measured = s.measured := rfl
@[simp] theorem State.setCore_queues (s : State) (c : Nat) (k : Core) : (s.setCore c k).queues = s.queues := rfl
@[simp] theorem State.setCore_reports (s : State) (c : Nat) (k : Core) : (s.setCore c k).reports = s.reports := rfl
@[simp] theorem State.setCore_visited (s : State) (c : Nat) (k : Core) : (s.setCore c k).visited = s.visited := rfl
@[simp] theorem State.setCore_fields (s : State) (c : Nat) (k : Core) : (s.setCore c k).fields = s.fields := rfl
@[simp] theorem State.setCore_slices (s : State) (c : Nat) (k : Core) : (s.setCore c k).slices = s.slices := rfl
@[simp] theorem State.setCore_snaps (s : State) (c : Nat) (k : Core) : (s.setCore c k).snaps = s.snaps := rfl
@[simp] theorem State.setCore_hardCopies (s : State) (c : Nat) (k : Core) : (s.setCore c k).hardCopies = s.hardCopies := rfl
@[simp] theorem State.setCore_kept (s : State) (c : Nat) (k : Core) : (s.setCore c k).kept = s.kept := rfl
@[simp] theorem State.setCore_debugWorks (s : State) (c : Nat) (k : Core) : (s.setCore c k).debugWorks = s.debugWorks := rfl

@[simp] theorem State.setCtx_agenda (s : State) (c : Nat) (n : Nat) (x : Ctx) : (s.setCtx c n x).agenda = s.agenda := rfl
@[simp] theorem State.setCtx_curCore (s : State) (c : Nat) (n : Nat) (x : Ctx) : (s.setCtx c n x).curCore = s.curCore := rfl
@[simp] theorem State.setCtx_curSlot (s : State) (c : Nat) (n : Nat) (x : Ctx) : (s.setCtx c n x).curSlot = s.curSlot := rfl
@[simp] theorem State.setCtx_input (s : State) (c : Nat) (n : Nat) (x : Ctx) : (s.setCtx c n x).input = s.input := rfl
@[simp] theorem State.setCtx_steps (s : State) (c : Nat) (n : Nat) (x : Ctx) : (s.setCtx c n x).steps = s.steps := rfl
@[simp] theorem State.setCtx_mem (s : State) (c : Nat) (n : Nat) (x : Ctx) : (s.setCtx c n x).mem = s.mem := rfl
@[simp] theorem State.setCtx_poison (s : State) (c : Nat) (n : Nat) (x : Ctx) : (s.setCtx c n x).poison = s.poison := rfl
@[simp] theorem State.setCtx_full (s : State) (c : Nat) (n : Nat) (x : Ctx) : (s.setCtx c n x).full = s.full := rfl
@[simp] theorem State.setCtx_dirtyPages (s : State) (c : Nat) (n : Nat) (x : Ctx) : (s.setCtx c n x).dirtyPages = s.dirtyPages := rfl
@[simp] theorem State.setCtx_cycle (s : State) (c : Nat) (n : Nat) (x : Ctx) : (s.setCtx c n x).cycle = s.cycle := rfl
@[simp] theorem State.setCtx_captured (s : State) (c : Nat) (n : Nat) (x : Ctx) : (s.setCtx c n x).captured = s.captured := rfl
@[simp] theorem State.setCtx_plate (s : State) (c : Nat) (n : Nat) (x : Ctx) : (s.setCtx c n x).plate = s.plate := rfl
@[simp] theorem State.setCtx_net (s : State) (c : Nat) (n : Nat) (x : Ctx) : (s.setCtx c n x).net = s.net := rfl
@[simp] theorem State.setCtx_remote (s : State) (c : Nat) (n : Nat) (x : Ctx) : (s.setCtx c n x).remote = s.remote := rfl
@[simp] theorem State.setCtx_nextRemote (s : State) (c : Nat) (n : Nat) (x : Ctx) : (s.setCtx c n x).nextRemote = s.nextRemote := rfl
@[simp] theorem State.setCtx_linkRetries (s : State) (c : Nat) (n : Nat) (x : Ctx) : (s.setCtx c n x).linkRetries = s.linkRetries := rfl
@[simp] theorem State.setCtx_powerEst (s : State) (c : Nat) (n : Nat) (x : Ctx) : (s.setCtx c n x).powerEst = s.powerEst := rfl
@[simp] theorem State.setCtx_throttled (s : State) (c : Nat) (n : Nat) (x : Ctx) : (s.setCtx c n x).throttled = s.throttled := rfl
@[simp] theorem State.setCtx_flash (s : State) (c : Nat) (n : Nat) (x : Ctx) : (s.setCtx c n x).flash = s.flash := rfl
@[simp] theorem State.setCtx_bootDetail (s : State) (c : Nat) (n : Nat) (x : Ctx) : (s.setCtx c n x).bootDetail = s.bootDetail := rfl
@[simp] theorem State.setCtx_bootStage (s : State) (c : Nat) (n : Nat) (x : Ctx) : (s.setCtx c n x).bootStage = s.bootStage := rfl
@[simp] theorem State.setCtx_qtBase (s : State) (c : Nat) (n : Nat) (x : Ctx) : (s.setCtx c n x).qtBase = s.qtBase := rfl
@[simp] theorem State.setCtx_qErr (s : State) (c : Nat) (n : Nat) (x : Ctx) : (s.setCtx c n x).qErr = s.qErr := rfl
@[simp] theorem State.setCtx_podcfg (s : State) (c : Nat) (n : Nat) (x : Ctx) : (s.setCtx c n x).podcfg = s.podcfg := rfl
@[simp] theorem State.setCtx_members (s : State) (c : Nat) (n : Nat) (x : Ctx) : (s.setCtx c n x).members = s.members := rfl
@[simp] theorem State.setCtx_wake (s : State) (c : Nat) (n : Nat) (x : Ctx) : (s.setCtx c n x).wake = s.wake := rfl
@[simp] theorem State.setCtx_msix (s : State) (c : Nat) (n : Nat) (x : Ctx) : (s.setCtx c n x).msix = s.msix := rfl
@[simp] theorem State.setCtx_msixSent (s : State) (c : Nat) (n : Nat) (x : Ctx) : (s.setCtx c n x).msixSent = s.msixSent := rfl
@[simp] theorem State.setCtx_doe (s : State) (c : Nat) (n : Nat) (x : Ctx) : (s.setCtx c n x).doe = s.doe := rfl
@[simp] theorem State.setCtx_pci (s : State) (c : Nat) (n : Nat) (x : Ctx) : (s.setCtx c n x).pci = s.pci := rfl
@[simp] theorem State.setCtx_hostLines (s : State) (c : Nat) (n : Nat) (x : Ctx) : (s.setCtx c n x).hostLines = s.hostLines := rfl
@[simp] theorem State.setCtx_directory (s : State) (c : Nat) (n : Nat) (x : Ctx) : (s.setCtx c n x).directory = s.directory := rfl
@[simp] theorem State.setCtx_biPending (s : State) (c : Nat) (n : Nat) (x : Ctx) : (s.setCtx c n x).biPending = s.biPending := rfl
@[simp] theorem State.setCtx_biOps (s : State) (c : Nat) (n : Nat) (x : Ctx) : (s.setCtx c n x).biOps = s.biOps := rfl
@[simp] theorem State.setCtx_hdm (s : State) (c : Nat) (n : Nat) (x : Ctx) : (s.setCtx c n x).hdm = s.hdm := rfl
@[simp] theorem State.setCtx_eccVault (s : State) (c : Nat) (n : Nat) (x : Ctx) : (s.setCtx c n x).eccVault = s.eccVault := rfl
@[simp] theorem State.setCtx_eccSlice (s : State) (c : Nat) (n : Nat) (x : Ctx) : (s.setCtx c n x).eccSlice = s.eccSlice := rfl
@[simp] theorem State.setCtx_measured (s : State) (c : Nat) (n : Nat) (x : Ctx) : (s.setCtx c n x).measured = s.measured := rfl
@[simp] theorem State.setCtx_queues (s : State) (c : Nat) (n : Nat) (x : Ctx) : (s.setCtx c n x).queues = s.queues := rfl
@[simp] theorem State.setCtx_reports (s : State) (c : Nat) (n : Nat) (x : Ctx) : (s.setCtx c n x).reports = s.reports := rfl
@[simp] theorem State.setCtx_visited (s : State) (c : Nat) (n : Nat) (x : Ctx) : (s.setCtx c n x).visited = s.visited := rfl
@[simp] theorem State.setCtx_fields (s : State) (c : Nat) (n : Nat) (x : Ctx) : (s.setCtx c n x).fields = s.fields := rfl
@[simp] theorem State.setCtx_slices (s : State) (c : Nat) (n : Nat) (x : Ctx) : (s.setCtx c n x).slices = s.slices := rfl
@[simp] theorem State.setCtx_snaps (s : State) (c : Nat) (n : Nat) (x : Ctx) : (s.setCtx c n x).snaps = s.snaps := rfl
@[simp] theorem State.setCtx_hardCopies (s : State) (c : Nat) (n : Nat) (x : Ctx) : (s.setCtx c n x).hardCopies = s.hardCopies := rfl
@[simp] theorem State.setCtx_kept (s : State) (c : Nat) (n : Nat) (x : Ctx) : (s.setCtx c n x).kept = s.kept := rfl
@[simp] theorem State.setCtx_debugWorks (s : State) (c : Nat) (n : Nat) (x : Ctx) : (s.setCtx c n x).debugWorks = s.debugWorks := rfl

@[simp] theorem Core.setCtx_bootWord (s : Core) (n : Nat) (x : Ctx) : (s.setCtx n x).bootWord = s.bootWord := rfl
@[simp] theorem Core.setCtx_bootMaps (s : Core) (n : Nat) (x : Ctx) : (s.setCtx n x).bootMaps = s.bootMaps := rfl
@[simp] theorem Core.setCtx_bootImgs (s : Core) (n : Nat) (x : Ctx) : (s.setCtx n x).bootImgs = s.bootImgs := rfl
@[simp] theorem Core.setCtx_lid (s : Core) (n : Nat) (x : Ctx) : (s.setCtx n x).lid = s.lid := rfl
@[simp] theorem Core.setCtx_bootMode (s : Core) (n : Nat) (x : Ctx) : (s.setCtx n x).bootMode = s.bootMode := rfl
@[simp] theorem Core.setCtx_bootDone (s : Core) (n : Nat) (x : Ctx) : (s.setCtx n x).bootDone = s.bootDone := rfl
@[simp] theorem Core.setCtx_bootHeld (s : Core) (n : Nat) (x : Ctx) : (s.setCtx n x).bootHeld = s.bootHeld := rfl
@[simp] theorem Core.setCtx_bootGo (s : Core) (n : Nat) (x : Ctx) : (s.setCtx n x).bootGo = s.bootGo := rfl
@[simp] theorem Core.setCtx_gated (s : Core) (n : Nat) (x : Ctx) : (s.setCtx n x).gated = s.gated := rfl
@[simp] theorem Core.setCtx_waking (s : Core) (n : Nat) (x : Ctx) : (s.setCtx n x).waking = s.waking := rfl
@[simp] theorem Core.setCtx_wakes (s : Core) (n : Nat) (x : Ctx) : (s.setCtx n x).wakes = s.wakes := rfl
@[simp] theorem Core.setCtx_inReset (s : Core) (n : Nat) (x : Ctx) : (s.setCtx n x).inReset = s.inReset := rfl
@[simp] theorem Core.setCtx_trapSlot (s : Core) (n : Nat) (x : Ctx) : (s.setCtx n x).trapSlot = s.trapSlot := rfl
@[simp] theorem Core.setCtx_notices (s : Core) (n : Nat) (x : Ctx) : (s.setCtx n x).notices = s.notices := rfl
@[simp] theorem Core.setCtx_heldNotices (s : Core) (n : Nat) (x : Ctx) : (s.setCtx n x).heldNotices = s.heldNotices := rfl
@[simp] theorem Core.setCtx_delivered (s : Core) (n : Nat) (x : Ctx) : (s.setCtx n x).delivered = s.delivered := rfl
@[simp] theorem Core.setCtx_wdctl (s : Core) (n : Nat) (x : Ctx) : (s.setCtx n x).wdctl = s.wdctl := rfl
@[simp] theorem Core.setCtx_wdSince (s : Core) (n : Nat) (x : Ctx) : (s.setCtx n x).wdSince = s.wdSince := rfl
@[simp] theorem Core.setCtx_kvec (s : Core) (n : Nat) (x : Ctx) : (s.setCtx n x).kvec = s.kvec := rfl
@[simp] theorem Core.setCtx_watches (s : Core) (n : Nat) (x : Ctx) : (s.setCtx n x).watches = s.watches := rfl
@[simp] theorem Core.setCtx_split (s : Core) (n : Nat) (x : Ctx) : (s.setCtx n x).split = s.split := rfl
@[simp] theorem Core.setCtx_swzBase (s : Core) (n : Nat) (x : Ctx) : (s.setCtx n x).swzBase = s.swzBase := rfl
@[simp] theorem Core.setCtx_swzCtl (s : Core) (n : Nat) (x : Ctx) : (s.setCtx n x).swzCtl = s.swzCtl := rfl
@[simp] theorem Core.setCtx_held (s : Core) (n : Nat) (x : Ctx) : (s.setCtx n x).held = s.held := rfl
@[simp] theorem Core.setCtx_retain (s : Core) (n : Nat) (x : Ctx) : (s.setCtx n x).retain = s.retain := rfl
@[simp] theorem Core.setCtx_kept (s : Core) (n : Nat) (x : Ctx) : (s.setCtx n x).kept = s.kept := rfl
@[simp] theorem Core.setCtx_lapsing (s : Core) (n : Nat) (x : Ctx) : (s.setCtx n x).lapsing = s.lapsing := rfl
@[simp] theorem Core.setCtx_dramLim (s : Core) (n : Nat) (x : Ctx) : (s.setCtx n x).dramLim = s.dramLim := rfl
@[simp] theorem Core.setCtx_injLim (s : Core) (n : Nat) (x : Ctx) : (s.setCtx n x).injLim = s.injLim := rfl
@[simp] theorem Core.setCtx_podLim (s : Core) (n : Nat) (x : Ctx) : (s.setCtx n x).podLim = s.podLim := rfl
@[simp] theorem Core.setCtx_drainLim (s : Core) (n : Nat) (x : Ctx) : (s.setCtx n x).drainLim = s.drainLim := rfl
@[simp] theorem Core.setCtx_nextLim (s : Core) (n : Nat) (x : Ctx) : (s.setCtx n x).nextLim = s.nextLim := rfl
@[simp] theorem Core.setCtx_governor (s : Core) (n : Nat) (x : Ctx) : (s.setCtx n x).governor = s.governor := rfl
@[simp] theorem Core.setCtx_dramUse (s : Core) (n : Nat) (x : Ctx) : (s.setCtx n x).dramUse = s.dramUse := rfl
@[simp] theorem Core.setCtx_injUse (s : Core) (n : Nat) (x : Ctx) : (s.setCtx n x).injUse = s.injUse := rfl
@[simp] theorem Core.setCtx_podUse (s : Core) (n : Nat) (x : Ctx) : (s.setCtx n x).podUse = s.podUse := rfl
@[simp] theorem Core.setCtx_drainUse (s : Core) (n : Nat) (x : Ctx) : (s.setCtx n x).drainUse = s.drainUse := rfl
@[simp] theorem Core.setCtx_misCount (s : Core) (n : Nat) (x : Ctx) : (s.setCtx n x).misCount = s.misCount := rfl
@[simp] theorem Core.setCtx_pairFp (s : Core) (n : Nat) (x : Ctx) : (s.setCtx n x).pairFp = s.pairFp := rfl
@[simp] theorem Core.setCtx_pair (s : Core) (n : Nat) (x : Ctx) : (s.setCtx n x).pair = s.pair := rfl
@[simp] theorem Core.setCtx_hold (s : Core) (n : Nat) (x : Ctx) : (s.setCtx n x).hold = s.hold := rfl
@[simp] theorem Core.setCtx_pipemap (s : Core) (n : Nat) (x : Ctx) : (s.setCtx n x).pipemap = s.pipemap := rfl
@[simp] theorem Core.setCtx_pipes (s : Core) (n : Nat) (x : Ctx) : (s.setCtx n x).pipes = s.pipes := rfl
@[simp] theorem Core.setCtx_v (s : Core) (n : Nat) (x : Ctx) : (s.setCtx n x).v = s.v := rfl
@[simp] theorem Core.setCtx_k (s : Core) (n : Nat) (x : Ctx) : (s.setCtx n x).k = s.k := rfl
@[simp] theorem Core.setCtx_tiles (s : Core) (n : Nat) (x : Ctx) : (s.setCtx n x).tiles = s.tiles := rfl
@[simp] theorem Core.setCtx_manchor (s : Core) (n : Nat) (x : Ctx) : (s.setCtx n x).manchor = s.manchor := rfl
@[simp] theorem Core.setCtx_chain (s : Core) (n : Nat) (x : Ctx) : (s.setCtx n x).chain = s.chain := rfl
@[simp] theorem Core.setCtx_matq (s : Core) (n : Nat) (x : Ctx) : (s.setCtx n x).matq = s.matq := rfl
@[simp] theorem Core.setCtx_mrowp (s : Core) (n : Nat) (x : Ctx) : (s.setCtx n x).mrowp = s.mrowp := rfl
@[simp] theorem Core.setCtx_matPark (s : Core) (n : Nat) (x : Ctx) : (s.setCtx n x).matPark = s.matPark := rfl
@[simp] theorem Core.setCtx_msgPort (s : Core) (n : Nat) (x : Ctx) : (s.setCtx n x).msgPort = s.msgPort := rfl
@[simp] theorem Core.setCtx_acnq (s : Core) (n : Nat) (x : Ctx) : (s.setCtx n x).acnq = s.acnq := rfl
@[simp] theorem Core.setCtx_bulkq (s : Core) (n : Nat) (x : Ctx) : (s.setCtx n x).bulkq = s.bulkq := rfl
@[simp] theorem Core.setCtx_bulkPark (s : Core) (n : Nat) (x : Ctx) : (s.setCtx n x).bulkPark = s.bulkPark := rfl
@[simp] theorem Core.setCtx_copyq (s : Core) (n : Nat) (x : Ctx) : (s.setCtx n x).copyq = s.copyq := rfl
@[simp] theorem Core.setCtx_copyPark (s : Core) (n : Nat) (x : Ctx) : (s.setCtx n x).copyPark = s.copyPark := rfl
@[simp] theorem Core.setCtx_engineLines (s : Core) (n : Nat) (x : Ctx) : (s.setCtx n x).engineLines = s.engineLines := rfl
@[simp] theorem Core.setCtx_engPlaces (s : Core) (n : Nat) (x : Ctx) : (s.setCtx n x).engPlaces = s.engPlaces := rfl
@[simp] theorem Core.setCtx_kernelAt (s : Core) (n : Nat) (x : Ctx) : (s.setCtx n x).kernelAt = s.kernelAt := rfl
@[simp] theorem Core.setCtx_stopped (s : Core) (n : Nat) (x : Ctx) : (s.setCtx n x).stopped = s.stopped := rfl
@[simp] theorem Core.setCtx_debugged (s : Core) (n : Nat) (x : Ctx) : (s.setCtx n x).debugged = s.debugged := rfl
@[simp] theorem Core.setCtx_requests (s : Core) (n : Nat) (x : Ctx) : (s.setCtx n x).requests = s.requests := rfl
@[simp] theorem Core.setCtx_nextRequest (s : Core) (n : Nat) (x : Ctx) : (s.setCtx n x).nextRequest = s.nextRequest := rfl
@[simp] theorem Core.setCtx_bursts (s : Core) (n : Nat) (x : Ctx) : (s.setCtx n x).bursts = s.bursts := rfl
@[simp] theorem Core.setCtx_inbox (s : Core) (n : Nat) (x : Ctx) : (s.setCtx n x).inbox = s.inbox := rfl
@[simp] theorem Core.setCtx_deflected (s : Core) (n : Nat) (x : Ctx) : (s.setCtx n x).deflected = s.deflected := rfl
@[simp] theorem Core.setCtx_strays (s : Core) (n : Nat) (x : Ctx) : (s.setCtx n x).strays = s.strays := rfl
@[simp] theorem Core.setCtx_starts (s : Core) (n : Nat) (x : Ctx) : (s.setCtx n x).starts = s.starts := rfl
@[simp] theorem Core.setCtx_rotation (s : Core) (n : Nat) (x : Ctx) : (s.setCtx n x).rotation = s.rotation := rfl
@[simp] theorem Core.setCtx_running (s : Core) (n : Nat) (x : Ctx) : (s.setCtx n x).running = s.running := rfl
@[simp] theorem Core.setCtx_iterLo (s : Core) (n : Nat) (x : Ctx) : (s.setCtx n x).iterLo = s.iterLo := rfl
@[simp] theorem Core.setCtx_iterHi (s : Core) (n : Nat) (x : Ctx) : (s.setCtx n x).iterHi = s.iterHi := rfl
@[simp] theorem Core.setCtx_tileIdx (s : Core) (n : Nat) (x : Ctx) : (s.setCtx n x).tileIdx = s.tileIdx := rfl
@[simp] theorem Core.setCtx_tileOrg (s : Core) (n : Nat) (x : Ctx) : (s.setCtx n x).tileOrg = s.tileOrg := rfl
@[simp] theorem Core.setCtx_tileExt (s : Core) (n : Nat) (x : Ctx) : (s.setCtx n x).tileExt = s.tileExt := rfl
@[simp] theorem Core.setCtx_tileNom (s : Core) (n : Nat) (x : Ctx) : (s.setCtx n x).tileNom = s.tileNom := rfl
@[simp] theorem Core.setCtx_pending (s : Core) (n : Nat) (x : Ctx) : (s.setCtx n x).pending = s.pending := rfl
@[simp] theorem Core.setCtx_joinStack (s : Core) (n : Nat) (x : Ctx) : (s.setCtx n x).joinStack = s.joinStack := rfl
@[simp] theorem Core.setCtx_release (s : Core) (n : Nat) (x : Ctx) : (s.setCtx n x).release = s.release := rfl
@[simp] theorem Core.setCtx_freed (s : Core) (n : Nat) (x : Ctx) : (s.setCtx n x).freed = s.freed := rfl
@[simp] theorem Core.setCtx_succs (s : Core) (n : Nat) (x : Ctx) : (s.setCtx n x).succs = s.succs := rfl
@[simp] theorem Core.setCtx_succAt (s : Core) (n : Nat) (x : Ctx) : (s.setCtx n x).succAt = s.succAt := rfl
@[simp] theorem Core.setCtx_idleSince (s : Core) (n : Nat) (x : Ctx) : (s.setCtx n x).idleSince = s.idleSince := rfl
@[simp] theorem Core.setCtx_stealNext (s : Core) (n : Nat) (x : Ctx) : (s.setCtx n x).stealNext = s.stealNext := rfl
@[simp] theorem Core.setCtx_stealBusy (s : Core) (n : Nat) (x : Ctx) : (s.setCtx n x).stealBusy = s.stealBusy := rfl
@[simp] theorem Core.setCtx_stealing (s : Core) (n : Nat) (x : Ctx) : (s.setCtx n x).stealing = s.stealing := rfl
@[simp] theorem Core.setCtx_stealAt (s : Core) (n : Nat) (x : Ctx) : (s.setCtx n x).stealAt = s.stealAt := rfl
@[simp] theorem Core.setCtx_lapseLeft (s : Core) (n : Nat) (x : Ctx) : (s.setCtx n x).lapseLeft = s.lapseLeft := rfl
@[simp] theorem Core.setCtx_rot (s : Core) (n : Nat) (x : Ctx) : (s.setCtx n x).rot = s.rot := rfl
@[simp] theorem Core.setCtx_cv (s : Core) (n : Nat) (x : Ctx) : (s.setCtx n x).cv = s.cv := rfl
@[simp] theorem Core.setCtx_tlb (s : Core) (n : Nat) (x : Ctx) : (s.setCtx n x).tlb = s.tlb := rfl
@[simp] theorem Core.setCtx_fetchBuf (s : Core) (n : Nat) (x : Ctx) : (s.setCtx n x).fetchBuf = s.fetchBuf := rfl
@[simp] theorem Core.setCtx_domains (s : Core) (n : Nat) (x : Ctx) : (s.setCtx n x).domains = s.domains := rfl

@[simp] theorem State.core_setCore (s : State) (c d : Nat) (k : Core) : (s.setCore c k).core d = if d = c then k else s.core d := by
  simp [State.core, State.setCore]

@[simp] theorem Core.ctx_setCtx (k : Core) (n m : Nat) (x : Ctx) : (k.setCtx n x).ctx m = if m = n then x else k.ctx m := by
  simp only [Core.ctx, Core.setCtx]
  by_cases h : m = n
  · subst h; simp
  · unfold Assoc.set
    split <;> simp [h]

@[simp] theorem State.core_setCtx (s : State) (c d n : Nat) (x : Ctx) :
    (s.setCtx c n x).core d = if d = c then (s.core c).setCtx n x else s.core d := by
  simp [State.setCtx]

@[simp] theorem State.ctx_setCtx (s : State) (c d n m : Nat) (x : Ctx) :
    (s.setCtx c n x).ctx d m = if d = c ∧ m = n then x else s.ctx d m := by
  by_cases h : d = c
  · subst h; simp [State.ctx]
  · simp [State.ctx, h]

/-! ### Registers of a context -/

@[simp] theorem Ctx.writeG_live (x : Ctx) (r : Nat) (v : Word) : (x.writeG r v).live = x.live := by unfold Ctx.writeG; split <;> rfl
@[simp] theorem Ctx.writeG_role (x : Ctx) (r : Nat) (v : Word) : (x.writeG r v).role = x.role := by unfold Ctx.writeG; split <;> rfl
@[simp] theorem Ctx.writeG_gen (x : Ctx) (r : Nat) (v : Word) : (x.writeG r v).gen = x.gen := by unfold Ctx.writeG; split <;> rfl
@[simp] theorem Ctx.writeG_pc (x : Ctx) (r : Nat) (v : Word) : (x.writeG r v).pc = x.pc := by unfold Ctx.writeG; split <;> rfl
@[simp] theorem Ctx.writeG_p (x : Ctx) (r : Nat) (v : Word) : (x.writeG r v).p = x.p := by unfold Ctx.writeG; split <;> rfl
@[simp] theorem Ctx.writeG_marks (x : Ctx) (r : Nat) (v : Word) : (x.writeG r v).marks = x.marks := by unfold Ctx.writeG; split <;> rfl
@[simp] theorem Ctx.writeG_loop0 (x : Ctx) (r : Nat) (v : Word) : (x.writeG r v).loop0 = x.loop0 := by unfold Ctx.writeG; split <;> rfl
@[simp] theorem Ctx.writeG_loop1 (x : Ctx) (r : Nat) (v : Word) : (x.writeG r v).loop1 = x.loop1 := by unfold Ctx.writeG; split <;> rfl
@[simp] theorem Ctx.writeG_wheld (x : Ctx) (r : Nat) (v : Word) : (x.writeG r v).wheld = x.wheld := by unfold Ctx.writeG; split <;> rfl
@[simp] theorem Ctx.writeG_whome (x : Ctx) (r : Nat) (v : Word) : (x.writeG r v).whome = x.whome := by unfold Ctx.writeG; split <;> rfl
@[simp] theorem Ctx.writeG_cir (x : Ctx) (r : Nat) (v : Word) : (x.writeG r v).cir = x.cir := by unfold Ctx.writeG; split <;> rfl
@[simp] theorem Ctx.writeG_lostw (x : Ctx) (r : Nat) (v : Word) : (x.writeG r v).lostw = x.lostw := by unfold Ctx.writeG; split <;> rfl
@[simp] theorem Ctx.writeG_eaten (x : Ctx) (r : Nat) (v : Word) : (x.writeG r v).eaten = x.eaten := by unfold Ctx.writeG; split <;> rfl
@[simp] theorem Ctx.writeG_tries (x : Ctx) (r : Nat) (v : Word) : (x.writeG r v).tries = x.tries := by unfold Ctx.writeG; split <;> rfl
@[simp] theorem Ctx.writeG_stage (x : Ctx) (r : Nat) (v : Word) : (x.writeG r v).stage = x.stage := by unfold Ctx.writeG; split <;> rfl
@[simp] theorem Ctx.writeG_latch (x : Ctx) (r : Nat) (v : Word) : (x.writeG r v).latch = x.latch := by unfold Ctx.writeG; split <;> rfl
@[simp] theorem Ctx.writeG_fpctl (x : Ctx) (r : Nat) (v : Word) : (x.writeG r v).fpctl = x.fpctl := by unfold Ctx.writeG; split <;> rfl
@[simp] theorem Ctx.writeG_fpstat (x : Ctx) (r : Nat) (v : Word) : (x.writeG r v).fpstat = x.fpstat := by unfold Ctx.writeG; split <;> rfl
@[simp] theorem Ctx.writeG_retired (x : Ctx) (r : Nat) (v : Word) : (x.writeG r v).retired = x.retired := by unfold Ctx.writeG; split <;> rfl
@[simp] theorem Ctx.writeG_sb (x : Ctx) (r : Nat) (v : Word) : (x.writeG r v).sb = x.sb := by unfold Ctx.writeG; split <;> rfl
@[simp] theorem Ctx.writeG_trap (x : Ctx) (r : Nat) (v : Word) : (x.writeG r v).trap = x.trap := by unfold Ctx.writeG; split <;> rfl
@[simp] theorem Ctx.writeG_step1 (x : Ctx) (r : Nat) (v : Word) : (x.writeG r v).step1 = x.step1 := by unfold Ctx.writeG; split <;> rfl
@[simp] theorem Ctx.writeG_after (x : Ctx) (r : Nat) (v : Word) : (x.writeG r v).after = x.after := by unfold Ctx.writeG; split <;> rfl
@[simp] theorem Ctx.writeG_halted (x : Ctx) (r : Nat) (v : Word) : (x.writeG r v).halted = x.halted := by unfold Ctx.writeG; split <;> rfl
@[simp] theorem Ctx.writeG_skid (x : Ctx) (r : Nat) (v : Word) : (x.writeG r v).skid = x.skid := by unfold Ctx.writeG; split <;> rfl
@[simp] theorem Ctx.writeG_skidLeft (x : Ctx) (r : Nat) (v : Word) : (x.writeG r v).skidLeft = x.skidLeft := by unfold Ctx.writeG; split <;> rfl
@[simp] theorem Ctx.writeG_stepping (x : Ctx) (r : Nat) (v : Word) : (x.writeG r v).stepping = x.stepping := by unfold Ctx.writeG; split <;> rfl
@[simp] theorem Ctx.writeG_waiting (x : Ctx) (r : Nat) (v : Word) : (x.writeG r v).waiting = x.waiting := by unfold Ctx.writeG; split <;> rfl
@[simp] theorem Ctx.writeG_replies (x : Ctx) (r : Nat) (v : Word) : (x.writeG r v).replies = x.replies := by unfold Ctx.writeG; split <;> rfl
@[simp] theorem Ctx.writeG_text (x : Ctx) (r : Nat) (v : Word) : (x.writeG r v).text = x.text := by unfold Ctx.writeG; split <;> rfl
@[simp] theorem Ctx.writeG_remote (x : Ctx) (r : Nat) (v : Word) : (x.writeG r v).remote = x.remote := by unfold Ctx.writeG; split <;> rfl
@[simp] theorem Ctx.writeG_fetched (x : Ctx) (r : Nat) (v : Word) : (x.writeG r v).fetched = x.fetched := by unfold Ctx.writeG; split <;> rfl
@[simp] theorem Ctx.writeG_places (x : Ctx) (r : Nat) (v : Word) : (x.writeG r v).places = x.places := by unfold Ctx.writeG; split <;> rfl
@[simp] theorem Ctx.writeG_awaits (x : Ctx) (r : Nat) (v : Word) : (x.writeG r v).awaits = x.awaits := by unfold Ctx.writeG; split <;> rfl
@[simp] theorem Ctx.writeG_arrived (x : Ctx) (r : Nat) (v : Word) : (x.writeG r v).arrived = x.arrived := by unfold Ctx.writeG; split <;> rfl
@[simp] theorem Ctx.writeG_grant (x : Ctx) (r : Nat) (v : Word) : (x.writeG r v).grant = x.grant := by unfold Ctx.writeG; split <;> rfl
@[simp] theorem Ctx.writeG_lates (x : Ctx) (r : Nat) (v : Word) : (x.writeG r v).lates = x.lates := by unfold Ctx.writeG; split <;> rfl
@[simp] theorem Ctx.writeG_request (x : Ctx) (r : Nat) (v : Word) : (x.writeG r v).request = x.request := by unfold Ctx.writeG; split <;> rfl

@[simp] theorem Ctx.writeP_live (x : Ctx) (r : Nat) (v : Ptr) : (x.writeP r v).live = x.live := rfl
@[simp] theorem Ctx.writeP_role (x : Ctx) (r : Nat) (v : Ptr) : (x.writeP r v).role = x.role := rfl
@[simp] theorem Ctx.writeP_gen (x : Ctx) (r : Nat) (v : Ptr) : (x.writeP r v).gen = x.gen := rfl
@[simp] theorem Ctx.writeP_pc (x : Ctx) (r : Nat) (v : Ptr) : (x.writeP r v).pc = x.pc := rfl
@[simp] theorem Ctx.writeP_g (x : Ctx) (r : Nat) (v : Ptr) : (x.writeP r v).g = x.g := rfl
@[simp] theorem Ctx.writeP_marks (x : Ctx) (r : Nat) (v : Ptr) : (x.writeP r v).marks = x.marks := rfl
@[simp] theorem Ctx.writeP_loop0 (x : Ctx) (r : Nat) (v : Ptr) : (x.writeP r v).loop0 = x.loop0 := rfl
@[simp] theorem Ctx.writeP_loop1 (x : Ctx) (r : Nat) (v : Ptr) : (x.writeP r v).loop1 = x.loop1 := rfl
@[simp] theorem Ctx.writeP_wheld (x : Ctx) (r : Nat) (v : Ptr) : (x.writeP r v).wheld = x.wheld := rfl
@[simp] theorem Ctx.writeP_whome (x : Ctx) (r : Nat) (v : Ptr) : (x.writeP r v).whome = x.whome := rfl
@[simp] theorem Ctx.writeP_cir (x : Ctx) (r : Nat) (v : Ptr) : (x.writeP r v).cir = x.cir := rfl
@[simp] theorem Ctx.writeP_lostw (x : Ctx) (r : Nat) (v : Ptr) : (x.writeP r v).lostw = x.lostw := rfl
@[simp] theorem Ctx.writeP_eaten (x : Ctx) (r : Nat) (v : Ptr) : (x.writeP r v).eaten = x.eaten := rfl
@[simp] theorem Ctx.writeP_tries (x : Ctx) (r : Nat) (v : Ptr) : (x.writeP r v).tries = x.tries := rfl
@[simp] theorem Ctx.writeP_stage (x : Ctx) (r : Nat) (v : Ptr) : (x.writeP r v).stage = x.stage := rfl
@[simp] theorem Ctx.writeP_latch (x : Ctx) (r : Nat) (v : Ptr) : (x.writeP r v).latch = x.latch := rfl
@[simp] theorem Ctx.writeP_fpctl (x : Ctx) (r : Nat) (v : Ptr) : (x.writeP r v).fpctl = x.fpctl := rfl
@[simp] theorem Ctx.writeP_fpstat (x : Ctx) (r : Nat) (v : Ptr) : (x.writeP r v).fpstat = x.fpstat := rfl
@[simp] theorem Ctx.writeP_retired (x : Ctx) (r : Nat) (v : Ptr) : (x.writeP r v).retired = x.retired := rfl
@[simp] theorem Ctx.writeP_sb (x : Ctx) (r : Nat) (v : Ptr) : (x.writeP r v).sb = x.sb := rfl
@[simp] theorem Ctx.writeP_trap (x : Ctx) (r : Nat) (v : Ptr) : (x.writeP r v).trap = x.trap := rfl
@[simp] theorem Ctx.writeP_step1 (x : Ctx) (r : Nat) (v : Ptr) : (x.writeP r v).step1 = x.step1 := rfl
@[simp] theorem Ctx.writeP_after (x : Ctx) (r : Nat) (v : Ptr) : (x.writeP r v).after = x.after := rfl
@[simp] theorem Ctx.writeP_halted (x : Ctx) (r : Nat) (v : Ptr) : (x.writeP r v).halted = x.halted := rfl
@[simp] theorem Ctx.writeP_skid (x : Ctx) (r : Nat) (v : Ptr) : (x.writeP r v).skid = x.skid := rfl
@[simp] theorem Ctx.writeP_skidLeft (x : Ctx) (r : Nat) (v : Ptr) : (x.writeP r v).skidLeft = x.skidLeft := rfl
@[simp] theorem Ctx.writeP_stepping (x : Ctx) (r : Nat) (v : Ptr) : (x.writeP r v).stepping = x.stepping := rfl
@[simp] theorem Ctx.writeP_waiting (x : Ctx) (r : Nat) (v : Ptr) : (x.writeP r v).waiting = x.waiting := rfl
@[simp] theorem Ctx.writeP_replies (x : Ctx) (r : Nat) (v : Ptr) : (x.writeP r v).replies = x.replies := rfl
@[simp] theorem Ctx.writeP_text (x : Ctx) (r : Nat) (v : Ptr) : (x.writeP r v).text = x.text := rfl
@[simp] theorem Ctx.writeP_remote (x : Ctx) (r : Nat) (v : Ptr) : (x.writeP r v).remote = x.remote := rfl
@[simp] theorem Ctx.writeP_fetched (x : Ctx) (r : Nat) (v : Ptr) : (x.writeP r v).fetched = x.fetched := rfl
@[simp] theorem Ctx.writeP_places (x : Ctx) (r : Nat) (v : Ptr) : (x.writeP r v).places = x.places := rfl
@[simp] theorem Ctx.writeP_awaits (x : Ctx) (r : Nat) (v : Ptr) : (x.writeP r v).awaits = x.awaits := rfl
@[simp] theorem Ctx.writeP_arrived (x : Ctx) (r : Nat) (v : Ptr) : (x.writeP r v).arrived = x.arrived := rfl
@[simp] theorem Ctx.writeP_grant (x : Ctx) (r : Nat) (v : Ptr) : (x.writeP r v).grant = x.grant := rfl
@[simp] theorem Ctx.writeP_lates (x : Ctx) (r : Nat) (v : Ptr) : (x.writeP r v).lates = x.lates := rfl
@[simp] theorem Ctx.writeP_request (x : Ctx) (r : Nat) (v : Ptr) : (x.writeP r v).request = x.request := rfl

@[simp] theorem Ctx.mark_live (x : Ctx) (u : Nat) (b : Bool) : (x.mark u b).live = x.live := rfl
@[simp] theorem Ctx.mark_role (x : Ctx) (u : Nat) (b : Bool) : (x.mark u b).role = x.role := rfl
@[simp] theorem Ctx.mark_gen (x : Ctx) (u : Nat) (b : Bool) : (x.mark u b).gen = x.gen := rfl
@[simp] theorem Ctx.mark_pc (x : Ctx) (u : Nat) (b : Bool) : (x.mark u b).pc = x.pc := rfl
@[simp] theorem Ctx.mark_g (x : Ctx) (u : Nat) (b : Bool) : (x.mark u b).g = x.g := rfl
@[simp] theorem Ctx.mark_p (x : Ctx) (u : Nat) (b : Bool) : (x.mark u b).p = x.p := rfl
@[simp] theorem Ctx.mark_loop0 (x : Ctx) (u : Nat) (b : Bool) : (x.mark u b).loop0 = x.loop0 := rfl
@[simp] theorem Ctx.mark_loop1 (x : Ctx) (u : Nat) (b : Bool) : (x.mark u b).loop1 = x.loop1 := rfl
@[simp] theorem Ctx.mark_wheld (x : Ctx) (u : Nat) (b : Bool) : (x.mark u b).wheld = x.wheld := rfl
@[simp] theorem Ctx.mark_whome (x : Ctx) (u : Nat) (b : Bool) : (x.mark u b).whome = x.whome := rfl
@[simp] theorem Ctx.mark_cir (x : Ctx) (u : Nat) (b : Bool) : (x.mark u b).cir = x.cir := rfl
@[simp] theorem Ctx.mark_lostw (x : Ctx) (u : Nat) (b : Bool) : (x.mark u b).lostw = x.lostw := rfl
@[simp] theorem Ctx.mark_eaten (x : Ctx) (u : Nat) (b : Bool) : (x.mark u b).eaten = x.eaten := rfl
@[simp] theorem Ctx.mark_tries (x : Ctx) (u : Nat) (b : Bool) : (x.mark u b).tries = x.tries := rfl
@[simp] theorem Ctx.mark_stage (x : Ctx) (u : Nat) (b : Bool) : (x.mark u b).stage = x.stage := rfl
@[simp] theorem Ctx.mark_latch (x : Ctx) (u : Nat) (b : Bool) : (x.mark u b).latch = x.latch := rfl
@[simp] theorem Ctx.mark_fpctl (x : Ctx) (u : Nat) (b : Bool) : (x.mark u b).fpctl = x.fpctl := rfl
@[simp] theorem Ctx.mark_fpstat (x : Ctx) (u : Nat) (b : Bool) : (x.mark u b).fpstat = x.fpstat := rfl
@[simp] theorem Ctx.mark_retired (x : Ctx) (u : Nat) (b : Bool) : (x.mark u b).retired = x.retired := rfl
@[simp] theorem Ctx.mark_sb (x : Ctx) (u : Nat) (b : Bool) : (x.mark u b).sb = x.sb := rfl
@[simp] theorem Ctx.mark_trap (x : Ctx) (u : Nat) (b : Bool) : (x.mark u b).trap = x.trap := rfl
@[simp] theorem Ctx.mark_step1 (x : Ctx) (u : Nat) (b : Bool) : (x.mark u b).step1 = x.step1 := rfl
@[simp] theorem Ctx.mark_after (x : Ctx) (u : Nat) (b : Bool) : (x.mark u b).after = x.after := rfl
@[simp] theorem Ctx.mark_halted (x : Ctx) (u : Nat) (b : Bool) : (x.mark u b).halted = x.halted := rfl
@[simp] theorem Ctx.mark_skid (x : Ctx) (u : Nat) (b : Bool) : (x.mark u b).skid = x.skid := rfl
@[simp] theorem Ctx.mark_skidLeft (x : Ctx) (u : Nat) (b : Bool) : (x.mark u b).skidLeft = x.skidLeft := rfl
@[simp] theorem Ctx.mark_stepping (x : Ctx) (u : Nat) (b : Bool) : (x.mark u b).stepping = x.stepping := rfl
@[simp] theorem Ctx.mark_waiting (x : Ctx) (u : Nat) (b : Bool) : (x.mark u b).waiting = x.waiting := rfl
@[simp] theorem Ctx.mark_replies (x : Ctx) (u : Nat) (b : Bool) : (x.mark u b).replies = x.replies := rfl
@[simp] theorem Ctx.mark_text (x : Ctx) (u : Nat) (b : Bool) : (x.mark u b).text = x.text := rfl
@[simp] theorem Ctx.mark_remote (x : Ctx) (u : Nat) (b : Bool) : (x.mark u b).remote = x.remote := rfl
@[simp] theorem Ctx.mark_fetched (x : Ctx) (u : Nat) (b : Bool) : (x.mark u b).fetched = x.fetched := rfl
@[simp] theorem Ctx.mark_places (x : Ctx) (u : Nat) (b : Bool) : (x.mark u b).places = x.places := rfl
@[simp] theorem Ctx.mark_awaits (x : Ctx) (u : Nat) (b : Bool) : (x.mark u b).awaits = x.awaits := rfl
@[simp] theorem Ctx.mark_arrived (x : Ctx) (u : Nat) (b : Bool) : (x.mark u b).arrived = x.arrived := rfl
@[simp] theorem Ctx.mark_grant (x : Ctx) (u : Nat) (b : Bool) : (x.mark u b).grant = x.grant := rfl
@[simp] theorem Ctx.mark_lates (x : Ctx) (u : Nat) (b : Bool) : (x.mark u b).lates = x.lates := rfl
@[simp] theorem Ctx.mark_request (x : Ctx) (u : Nat) (b : Bool) : (x.mark u b).request = x.request := rfl

/-- g0 reads as zero, whatever was written (R218). -/
@[simp] theorem Ctx.readG_zero (x : Ctx) : x.readG 0 = 0 := rfl

@[simp] theorem Ctx.readG_writeG (x : Ctx) (r i : Nat) (v : Word) :
    (x.writeG r v).readG i = if i = r ∧ r ≠ 0 then v else x.readG i := by
  unfold Ctx.readG Ctx.writeG
  by_cases h : r = 0
  · subst h
    by_cases hi : i = 0 <;> simp [hi]
  · by_cases hi : i = 0
    · subst hi
      simp [h, Ne.symm h]
    · simp only [h, hi, if_false, Assoc.get_set]
      split <;> simp_all

@[simp] theorem Ctx.readP_writeP (x : Ctx) (r i : Nat) (v : Ptr) : (x.writeP r v).readP i = if i = r then v else x.readP i := by
  simp [Ctx.readP, Ctx.writeP]

@[simp] theorem Ctx.readP_writeG (x : Ctx) (r i : Nat) (v : Word) : (x.writeG r v).readP i = x.readP i := by
  simp [Ctx.readP]

@[simp] theorem Ctx.readG_writeP (x : Ctx) (r i : Nat) (v : Ptr) : (x.writeP r v).readG i = x.readG i := rfl

@[simp] theorem Ctx.readG_mark (x : Ctx) (u i : Nat) (b : Bool) : (x.mark u b).readG i = x.readG i := rfl

@[simp] theorem Ctx.readP_mark (x : Ctx) (u i : Nat) (b : Bool) : (x.mark u b).readP i = x.readP i := rfl

/-! ### Bytes of H -/

@[simp] theorem State.poke_agenda (s : State) (k : Nat) (b : Byte) : (s.poke k b).agenda = s.agenda := rfl
@[simp] theorem State.poke_curCore (s : State) (k : Nat) (b : Byte) : (s.poke k b).curCore = s.curCore := rfl
@[simp] theorem State.poke_curSlot (s : State) (k : Nat) (b : Byte) : (s.poke k b).curSlot = s.curSlot := rfl
@[simp] theorem State.poke_input (s : State) (k : Nat) (b : Byte) : (s.poke k b).input = s.input := rfl
@[simp] theorem State.poke_steps (s : State) (k : Nat) (b : Byte) : (s.poke k b).steps = s.steps := rfl
@[simp] theorem State.poke_poison (s : State) (k : Nat) (b : Byte) : (s.poke k b).poison = s.poison := rfl
@[simp] theorem State.poke_full (s : State) (k : Nat) (b : Byte) : (s.poke k b).full = s.full := rfl
@[simp] theorem State.poke_cycle (s : State) (k : Nat) (b : Byte) : (s.poke k b).cycle = s.cycle := rfl
@[simp] theorem State.poke_captured (s : State) (k : Nat) (b : Byte) : (s.poke k b).captured = s.captured := rfl
@[simp] theorem State.poke_plate (s : State) (k : Nat) (b : Byte) : (s.poke k b).plate = s.plate := rfl
@[simp] theorem State.poke_cores (s : State) (k : Nat) (b : Byte) : (s.poke k b).cores = s.cores := rfl
@[simp] theorem State.poke_net (s : State) (k : Nat) (b : Byte) : (s.poke k b).net = s.net := rfl
@[simp] theorem State.poke_remote (s : State) (k : Nat) (b : Byte) : (s.poke k b).remote = s.remote := rfl
@[simp] theorem State.poke_nextRemote (s : State) (k : Nat) (b : Byte) : (s.poke k b).nextRemote = s.nextRemote := rfl
@[simp] theorem State.poke_linkRetries (s : State) (k : Nat) (b : Byte) : (s.poke k b).linkRetries = s.linkRetries := rfl
@[simp] theorem State.poke_powerEst (s : State) (k : Nat) (b : Byte) : (s.poke k b).powerEst = s.powerEst := rfl
@[simp] theorem State.poke_throttled (s : State) (k : Nat) (b : Byte) : (s.poke k b).throttled = s.throttled := rfl
@[simp] theorem State.poke_flash (s : State) (k : Nat) (b : Byte) : (s.poke k b).flash = s.flash := rfl
@[simp] theorem State.poke_bootDetail (s : State) (k : Nat) (b : Byte) : (s.poke k b).bootDetail = s.bootDetail := rfl
@[simp] theorem State.poke_bootStage (s : State) (k : Nat) (b : Byte) : (s.poke k b).bootStage = s.bootStage := rfl
@[simp] theorem State.poke_qtBase (s : State) (k : Nat) (b : Byte) : (s.poke k b).qtBase = s.qtBase := rfl
@[simp] theorem State.poke_qErr (s : State) (k : Nat) (b : Byte) : (s.poke k b).qErr = s.qErr := rfl
@[simp] theorem State.poke_podcfg (s : State) (k : Nat) (b : Byte) : (s.poke k b).podcfg = s.podcfg := rfl
@[simp] theorem State.poke_members (s : State) (k : Nat) (b : Byte) : (s.poke k b).members = s.members := rfl
@[simp] theorem State.poke_wake (s : State) (k : Nat) (b : Byte) : (s.poke k b).wake = s.wake := rfl
@[simp] theorem State.poke_msix (s : State) (k : Nat) (b : Byte) : (s.poke k b).msix = s.msix := rfl
@[simp] theorem State.poke_msixSent (s : State) (k : Nat) (b : Byte) : (s.poke k b).msixSent = s.msixSent := rfl
@[simp] theorem State.poke_doe (s : State) (k : Nat) (b : Byte) : (s.poke k b).doe = s.doe := rfl
@[simp] theorem State.poke_pci (s : State) (k : Nat) (b : Byte) : (s.poke k b).pci = s.pci := rfl
@[simp] theorem State.poke_hostLines (s : State) (k : Nat) (b : Byte) : (s.poke k b).hostLines = s.hostLines := rfl
@[simp] theorem State.poke_directory (s : State) (k : Nat) (b : Byte) : (s.poke k b).directory = s.directory := rfl
@[simp] theorem State.poke_biPending (s : State) (k : Nat) (b : Byte) : (s.poke k b).biPending = s.biPending := rfl
@[simp] theorem State.poke_biOps (s : State) (k : Nat) (b : Byte) : (s.poke k b).biOps = s.biOps := rfl
@[simp] theorem State.poke_hdm (s : State) (k : Nat) (b : Byte) : (s.poke k b).hdm = s.hdm := rfl
@[simp] theorem State.poke_eccVault (s : State) (k : Nat) (b : Byte) : (s.poke k b).eccVault = s.eccVault := rfl
@[simp] theorem State.poke_eccSlice (s : State) (k : Nat) (b : Byte) : (s.poke k b).eccSlice = s.eccSlice := rfl
@[simp] theorem State.poke_measured (s : State) (k : Nat) (b : Byte) : (s.poke k b).measured = s.measured := rfl
@[simp] theorem State.poke_queues (s : State) (k : Nat) (b : Byte) : (s.poke k b).queues = s.queues := rfl
@[simp] theorem State.poke_reports (s : State) (k : Nat) (b : Byte) : (s.poke k b).reports = s.reports := rfl
@[simp] theorem State.poke_visited (s : State) (k : Nat) (b : Byte) : (s.poke k b).visited = s.visited := rfl
@[simp] theorem State.poke_fields (s : State) (k : Nat) (b : Byte) : (s.poke k b).fields = s.fields := rfl
@[simp] theorem State.poke_slices (s : State) (k : Nat) (b : Byte) : (s.poke k b).slices = s.slices := rfl
@[simp] theorem State.poke_snaps (s : State) (k : Nat) (b : Byte) : (s.poke k b).snaps = s.snaps := rfl
@[simp] theorem State.poke_hardCopies (s : State) (k : Nat) (b : Byte) : (s.poke k b).hardCopies = s.hardCopies := rfl
@[simp] theorem State.poke_kept (s : State) (k : Nat) (b : Byte) : (s.poke k b).kept = s.kept := rfl
@[simp] theorem State.poke_debugWorks (s : State) (k : Nat) (b : Byte) : (s.poke k b).debugWorks = s.debugWorks := rfl

/-- A read after a write of one byte. -/
@[simp] theorem State.peek_poke (s : State) (k j : Nat) (b : Byte) : (s.poke k b).peek j = if j = k then b else s.peek j := by
  unfold State.peek State.poke Memory.read Memory.write
  by_cases h : b = Memory.unlisted k <;> by_cases hj : j = k <;> simp_all

@[simp] theorem State.peek_setCore (s : State) (c j : Nat) (k : Core) : (s.setCore c k).peek j = s.peek j := rfl

@[simp] theorem State.peek_setCtx (s : State) (c n j : Nat) (x : Ctx) : (s.setCtx c n x).peek j = s.peek j := rfl

/-! ### Fields, slices, queues and vectors -/

@[simp] theorem State.setField_agenda (s : State) (i : Nat) (f : FieldSt) : (s.setField i f).agenda = s.agenda := rfl
@[simp] theorem State.setField_curCore (s : State) (i : Nat) (f : FieldSt) : (s.setField i f).curCore = s.curCore := rfl
@[simp] theorem State.setField_curSlot (s : State) (i : Nat) (f : FieldSt) : (s.setField i f).curSlot = s.curSlot := rfl
@[simp] theorem State.setField_input (s : State) (i : Nat) (f : FieldSt) : (s.setField i f).input = s.input := rfl
@[simp] theorem State.setField_steps (s : State) (i : Nat) (f : FieldSt) : (s.setField i f).steps = s.steps := rfl
@[simp] theorem State.setField_mem (s : State) (i : Nat) (f : FieldSt) : (s.setField i f).mem = s.mem := rfl
@[simp] theorem State.setField_poison (s : State) (i : Nat) (f : FieldSt) : (s.setField i f).poison = s.poison := rfl
@[simp] theorem State.setField_full (s : State) (i : Nat) (f : FieldSt) : (s.setField i f).full = s.full := rfl
@[simp] theorem State.setField_dirtyPages (s : State) (i : Nat) (f : FieldSt) : (s.setField i f).dirtyPages = s.dirtyPages := rfl
@[simp] theorem State.setField_cycle (s : State) (i : Nat) (f : FieldSt) : (s.setField i f).cycle = s.cycle := rfl
@[simp] theorem State.setField_captured (s : State) (i : Nat) (f : FieldSt) : (s.setField i f).captured = s.captured := rfl
@[simp] theorem State.setField_plate (s : State) (i : Nat) (f : FieldSt) : (s.setField i f).plate = s.plate := rfl
@[simp] theorem State.setField_cores (s : State) (i : Nat) (f : FieldSt) : (s.setField i f).cores = s.cores := rfl
@[simp] theorem State.setField_net (s : State) (i : Nat) (f : FieldSt) : (s.setField i f).net = s.net := rfl
@[simp] theorem State.setField_remote (s : State) (i : Nat) (f : FieldSt) : (s.setField i f).remote = s.remote := rfl
@[simp] theorem State.setField_nextRemote (s : State) (i : Nat) (f : FieldSt) : (s.setField i f).nextRemote = s.nextRemote := rfl
@[simp] theorem State.setField_linkRetries (s : State) (i : Nat) (f : FieldSt) : (s.setField i f).linkRetries = s.linkRetries := rfl
@[simp] theorem State.setField_powerEst (s : State) (i : Nat) (f : FieldSt) : (s.setField i f).powerEst = s.powerEst := rfl
@[simp] theorem State.setField_throttled (s : State) (i : Nat) (f : FieldSt) : (s.setField i f).throttled = s.throttled := rfl
@[simp] theorem State.setField_flash (s : State) (i : Nat) (f : FieldSt) : (s.setField i f).flash = s.flash := rfl
@[simp] theorem State.setField_bootDetail (s : State) (i : Nat) (f : FieldSt) : (s.setField i f).bootDetail = s.bootDetail := rfl
@[simp] theorem State.setField_bootStage (s : State) (i : Nat) (f : FieldSt) : (s.setField i f).bootStage = s.bootStage := rfl
@[simp] theorem State.setField_qtBase (s : State) (i : Nat) (f : FieldSt) : (s.setField i f).qtBase = s.qtBase := rfl
@[simp] theorem State.setField_qErr (s : State) (i : Nat) (f : FieldSt) : (s.setField i f).qErr = s.qErr := rfl
@[simp] theorem State.setField_podcfg (s : State) (i : Nat) (f : FieldSt) : (s.setField i f).podcfg = s.podcfg := rfl
@[simp] theorem State.setField_members (s : State) (i : Nat) (f : FieldSt) : (s.setField i f).members = s.members := rfl
@[simp] theorem State.setField_wake (s : State) (i : Nat) (f : FieldSt) : (s.setField i f).wake = s.wake := rfl
@[simp] theorem State.setField_msix (s : State) (i : Nat) (f : FieldSt) : (s.setField i f).msix = s.msix := rfl
@[simp] theorem State.setField_msixSent (s : State) (i : Nat) (f : FieldSt) : (s.setField i f).msixSent = s.msixSent := rfl
@[simp] theorem State.setField_doe (s : State) (i : Nat) (f : FieldSt) : (s.setField i f).doe = s.doe := rfl
@[simp] theorem State.setField_pci (s : State) (i : Nat) (f : FieldSt) : (s.setField i f).pci = s.pci := rfl
@[simp] theorem State.setField_hostLines (s : State) (i : Nat) (f : FieldSt) : (s.setField i f).hostLines = s.hostLines := rfl
@[simp] theorem State.setField_directory (s : State) (i : Nat) (f : FieldSt) : (s.setField i f).directory = s.directory := rfl
@[simp] theorem State.setField_biPending (s : State) (i : Nat) (f : FieldSt) : (s.setField i f).biPending = s.biPending := rfl
@[simp] theorem State.setField_biOps (s : State) (i : Nat) (f : FieldSt) : (s.setField i f).biOps = s.biOps := rfl
@[simp] theorem State.setField_hdm (s : State) (i : Nat) (f : FieldSt) : (s.setField i f).hdm = s.hdm := rfl
@[simp] theorem State.setField_eccVault (s : State) (i : Nat) (f : FieldSt) : (s.setField i f).eccVault = s.eccVault := rfl
@[simp] theorem State.setField_eccSlice (s : State) (i : Nat) (f : FieldSt) : (s.setField i f).eccSlice = s.eccSlice := rfl
@[simp] theorem State.setField_measured (s : State) (i : Nat) (f : FieldSt) : (s.setField i f).measured = s.measured := rfl
@[simp] theorem State.setField_queues (s : State) (i : Nat) (f : FieldSt) : (s.setField i f).queues = s.queues := rfl
@[simp] theorem State.setField_reports (s : State) (i : Nat) (f : FieldSt) : (s.setField i f).reports = s.reports := rfl
@[simp] theorem State.setField_visited (s : State) (i : Nat) (f : FieldSt) : (s.setField i f).visited = s.visited := rfl
@[simp] theorem State.setField_slices (s : State) (i : Nat) (f : FieldSt) : (s.setField i f).slices = s.slices := rfl
@[simp] theorem State.setField_snaps (s : State) (i : Nat) (f : FieldSt) : (s.setField i f).snaps = s.snaps := rfl
@[simp] theorem State.setField_hardCopies (s : State) (i : Nat) (f : FieldSt) : (s.setField i f).hardCopies = s.hardCopies := rfl
@[simp] theorem State.setField_kept (s : State) (i : Nat) (f : FieldSt) : (s.setField i f).kept = s.kept := rfl
@[simp] theorem State.setField_debugWorks (s : State) (i : Nat) (f : FieldSt) : (s.setField i f).debugWorks = s.debugWorks := rfl

@[simp] theorem State.setSlice_agenda (s : State) (cl : Nat) (l : Slice) : (s.setSlice cl l).agenda = s.agenda := rfl
@[simp] theorem State.setSlice_curCore (s : State) (cl : Nat) (l : Slice) : (s.setSlice cl l).curCore = s.curCore := rfl
@[simp] theorem State.setSlice_curSlot (s : State) (cl : Nat) (l : Slice) : (s.setSlice cl l).curSlot = s.curSlot := rfl
@[simp] theorem State.setSlice_input (s : State) (cl : Nat) (l : Slice) : (s.setSlice cl l).input = s.input := rfl
@[simp] theorem State.setSlice_steps (s : State) (cl : Nat) (l : Slice) : (s.setSlice cl l).steps = s.steps := rfl
@[simp] theorem State.setSlice_mem (s : State) (cl : Nat) (l : Slice) : (s.setSlice cl l).mem = s.mem := rfl
@[simp] theorem State.setSlice_poison (s : State) (cl : Nat) (l : Slice) : (s.setSlice cl l).poison = s.poison := rfl
@[simp] theorem State.setSlice_full (s : State) (cl : Nat) (l : Slice) : (s.setSlice cl l).full = s.full := rfl
@[simp] theorem State.setSlice_dirtyPages (s : State) (cl : Nat) (l : Slice) : (s.setSlice cl l).dirtyPages = s.dirtyPages := rfl
@[simp] theorem State.setSlice_cycle (s : State) (cl : Nat) (l : Slice) : (s.setSlice cl l).cycle = s.cycle := rfl
@[simp] theorem State.setSlice_captured (s : State) (cl : Nat) (l : Slice) : (s.setSlice cl l).captured = s.captured := rfl
@[simp] theorem State.setSlice_plate (s : State) (cl : Nat) (l : Slice) : (s.setSlice cl l).plate = s.plate := rfl
@[simp] theorem State.setSlice_cores (s : State) (cl : Nat) (l : Slice) : (s.setSlice cl l).cores = s.cores := rfl
@[simp] theorem State.setSlice_net (s : State) (cl : Nat) (l : Slice) : (s.setSlice cl l).net = s.net := rfl
@[simp] theorem State.setSlice_remote (s : State) (cl : Nat) (l : Slice) : (s.setSlice cl l).remote = s.remote := rfl
@[simp] theorem State.setSlice_nextRemote (s : State) (cl : Nat) (l : Slice) : (s.setSlice cl l).nextRemote = s.nextRemote := rfl
@[simp] theorem State.setSlice_linkRetries (s : State) (cl : Nat) (l : Slice) : (s.setSlice cl l).linkRetries = s.linkRetries := rfl
@[simp] theorem State.setSlice_powerEst (s : State) (cl : Nat) (l : Slice) : (s.setSlice cl l).powerEst = s.powerEst := rfl
@[simp] theorem State.setSlice_throttled (s : State) (cl : Nat) (l : Slice) : (s.setSlice cl l).throttled = s.throttled := rfl
@[simp] theorem State.setSlice_flash (s : State) (cl : Nat) (l : Slice) : (s.setSlice cl l).flash = s.flash := rfl
@[simp] theorem State.setSlice_bootDetail (s : State) (cl : Nat) (l : Slice) : (s.setSlice cl l).bootDetail = s.bootDetail := rfl
@[simp] theorem State.setSlice_bootStage (s : State) (cl : Nat) (l : Slice) : (s.setSlice cl l).bootStage = s.bootStage := rfl
@[simp] theorem State.setSlice_qtBase (s : State) (cl : Nat) (l : Slice) : (s.setSlice cl l).qtBase = s.qtBase := rfl
@[simp] theorem State.setSlice_qErr (s : State) (cl : Nat) (l : Slice) : (s.setSlice cl l).qErr = s.qErr := rfl
@[simp] theorem State.setSlice_podcfg (s : State) (cl : Nat) (l : Slice) : (s.setSlice cl l).podcfg = s.podcfg := rfl
@[simp] theorem State.setSlice_members (s : State) (cl : Nat) (l : Slice) : (s.setSlice cl l).members = s.members := rfl
@[simp] theorem State.setSlice_wake (s : State) (cl : Nat) (l : Slice) : (s.setSlice cl l).wake = s.wake := rfl
@[simp] theorem State.setSlice_msix (s : State) (cl : Nat) (l : Slice) : (s.setSlice cl l).msix = s.msix := rfl
@[simp] theorem State.setSlice_msixSent (s : State) (cl : Nat) (l : Slice) : (s.setSlice cl l).msixSent = s.msixSent := rfl
@[simp] theorem State.setSlice_doe (s : State) (cl : Nat) (l : Slice) : (s.setSlice cl l).doe = s.doe := rfl
@[simp] theorem State.setSlice_pci (s : State) (cl : Nat) (l : Slice) : (s.setSlice cl l).pci = s.pci := rfl
@[simp] theorem State.setSlice_hostLines (s : State) (cl : Nat) (l : Slice) : (s.setSlice cl l).hostLines = s.hostLines := rfl
@[simp] theorem State.setSlice_directory (s : State) (cl : Nat) (l : Slice) : (s.setSlice cl l).directory = s.directory := rfl
@[simp] theorem State.setSlice_biPending (s : State) (cl : Nat) (l : Slice) : (s.setSlice cl l).biPending = s.biPending := rfl
@[simp] theorem State.setSlice_biOps (s : State) (cl : Nat) (l : Slice) : (s.setSlice cl l).biOps = s.biOps := rfl
@[simp] theorem State.setSlice_hdm (s : State) (cl : Nat) (l : Slice) : (s.setSlice cl l).hdm = s.hdm := rfl
@[simp] theorem State.setSlice_eccVault (s : State) (cl : Nat) (l : Slice) : (s.setSlice cl l).eccVault = s.eccVault := rfl
@[simp] theorem State.setSlice_eccSlice (s : State) (cl : Nat) (l : Slice) : (s.setSlice cl l).eccSlice = s.eccSlice := rfl
@[simp] theorem State.setSlice_measured (s : State) (cl : Nat) (l : Slice) : (s.setSlice cl l).measured = s.measured := rfl
@[simp] theorem State.setSlice_queues (s : State) (cl : Nat) (l : Slice) : (s.setSlice cl l).queues = s.queues := rfl
@[simp] theorem State.setSlice_reports (s : State) (cl : Nat) (l : Slice) : (s.setSlice cl l).reports = s.reports := rfl
@[simp] theorem State.setSlice_visited (s : State) (cl : Nat) (l : Slice) : (s.setSlice cl l).visited = s.visited := rfl
@[simp] theorem State.setSlice_fields (s : State) (cl : Nat) (l : Slice) : (s.setSlice cl l).fields = s.fields := rfl
@[simp] theorem State.setSlice_snaps (s : State) (cl : Nat) (l : Slice) : (s.setSlice cl l).snaps = s.snaps := rfl
@[simp] theorem State.setSlice_hardCopies (s : State) (cl : Nat) (l : Slice) : (s.setSlice cl l).hardCopies = s.hardCopies := rfl
@[simp] theorem State.setSlice_kept (s : State) (cl : Nat) (l : Slice) : (s.setSlice cl l).kept = s.kept := rfl
@[simp] theorem State.setSlice_debugWorks (s : State) (cl : Nat) (l : Slice) : (s.setSlice cl l).debugWorks = s.debugWorks := rfl

@[simp] theorem State.setQueue_agenda (s : State) (q : Nat) (x : QueueSt) : (s.setQueue q x).agenda = s.agenda := rfl
@[simp] theorem State.setQueue_curCore (s : State) (q : Nat) (x : QueueSt) : (s.setQueue q x).curCore = s.curCore := rfl
@[simp] theorem State.setQueue_curSlot (s : State) (q : Nat) (x : QueueSt) : (s.setQueue q x).curSlot = s.curSlot := rfl
@[simp] theorem State.setQueue_input (s : State) (q : Nat) (x : QueueSt) : (s.setQueue q x).input = s.input := rfl
@[simp] theorem State.setQueue_steps (s : State) (q : Nat) (x : QueueSt) : (s.setQueue q x).steps = s.steps := rfl
@[simp] theorem State.setQueue_mem (s : State) (q : Nat) (x : QueueSt) : (s.setQueue q x).mem = s.mem := rfl
@[simp] theorem State.setQueue_poison (s : State) (q : Nat) (x : QueueSt) : (s.setQueue q x).poison = s.poison := rfl
@[simp] theorem State.setQueue_full (s : State) (q : Nat) (x : QueueSt) : (s.setQueue q x).full = s.full := rfl
@[simp] theorem State.setQueue_dirtyPages (s : State) (q : Nat) (x : QueueSt) : (s.setQueue q x).dirtyPages = s.dirtyPages := rfl
@[simp] theorem State.setQueue_cycle (s : State) (q : Nat) (x : QueueSt) : (s.setQueue q x).cycle = s.cycle := rfl
@[simp] theorem State.setQueue_captured (s : State) (q : Nat) (x : QueueSt) : (s.setQueue q x).captured = s.captured := rfl
@[simp] theorem State.setQueue_plate (s : State) (q : Nat) (x : QueueSt) : (s.setQueue q x).plate = s.plate := rfl
@[simp] theorem State.setQueue_cores (s : State) (q : Nat) (x : QueueSt) : (s.setQueue q x).cores = s.cores := rfl
@[simp] theorem State.setQueue_net (s : State) (q : Nat) (x : QueueSt) : (s.setQueue q x).net = s.net := rfl
@[simp] theorem State.setQueue_remote (s : State) (q : Nat) (x : QueueSt) : (s.setQueue q x).remote = s.remote := rfl
@[simp] theorem State.setQueue_nextRemote (s : State) (q : Nat) (x : QueueSt) : (s.setQueue q x).nextRemote = s.nextRemote := rfl
@[simp] theorem State.setQueue_linkRetries (s : State) (q : Nat) (x : QueueSt) : (s.setQueue q x).linkRetries = s.linkRetries := rfl
@[simp] theorem State.setQueue_powerEst (s : State) (q : Nat) (x : QueueSt) : (s.setQueue q x).powerEst = s.powerEst := rfl
@[simp] theorem State.setQueue_throttled (s : State) (q : Nat) (x : QueueSt) : (s.setQueue q x).throttled = s.throttled := rfl
@[simp] theorem State.setQueue_flash (s : State) (q : Nat) (x : QueueSt) : (s.setQueue q x).flash = s.flash := rfl
@[simp] theorem State.setQueue_bootDetail (s : State) (q : Nat) (x : QueueSt) : (s.setQueue q x).bootDetail = s.bootDetail := rfl
@[simp] theorem State.setQueue_bootStage (s : State) (q : Nat) (x : QueueSt) : (s.setQueue q x).bootStage = s.bootStage := rfl
@[simp] theorem State.setQueue_qtBase (s : State) (q : Nat) (x : QueueSt) : (s.setQueue q x).qtBase = s.qtBase := rfl
@[simp] theorem State.setQueue_qErr (s : State) (q : Nat) (x : QueueSt) : (s.setQueue q x).qErr = s.qErr := rfl
@[simp] theorem State.setQueue_podcfg (s : State) (q : Nat) (x : QueueSt) : (s.setQueue q x).podcfg = s.podcfg := rfl
@[simp] theorem State.setQueue_members (s : State) (q : Nat) (x : QueueSt) : (s.setQueue q x).members = s.members := rfl
@[simp] theorem State.setQueue_wake (s : State) (q : Nat) (x : QueueSt) : (s.setQueue q x).wake = s.wake := rfl
@[simp] theorem State.setQueue_msix (s : State) (q : Nat) (x : QueueSt) : (s.setQueue q x).msix = s.msix := rfl
@[simp] theorem State.setQueue_msixSent (s : State) (q : Nat) (x : QueueSt) : (s.setQueue q x).msixSent = s.msixSent := rfl
@[simp] theorem State.setQueue_doe (s : State) (q : Nat) (x : QueueSt) : (s.setQueue q x).doe = s.doe := rfl
@[simp] theorem State.setQueue_pci (s : State) (q : Nat) (x : QueueSt) : (s.setQueue q x).pci = s.pci := rfl
@[simp] theorem State.setQueue_hostLines (s : State) (q : Nat) (x : QueueSt) : (s.setQueue q x).hostLines = s.hostLines := rfl
@[simp] theorem State.setQueue_directory (s : State) (q : Nat) (x : QueueSt) : (s.setQueue q x).directory = s.directory := rfl
@[simp] theorem State.setQueue_biPending (s : State) (q : Nat) (x : QueueSt) : (s.setQueue q x).biPending = s.biPending := rfl
@[simp] theorem State.setQueue_biOps (s : State) (q : Nat) (x : QueueSt) : (s.setQueue q x).biOps = s.biOps := rfl
@[simp] theorem State.setQueue_hdm (s : State) (q : Nat) (x : QueueSt) : (s.setQueue q x).hdm = s.hdm := rfl
@[simp] theorem State.setQueue_eccVault (s : State) (q : Nat) (x : QueueSt) : (s.setQueue q x).eccVault = s.eccVault := rfl
@[simp] theorem State.setQueue_eccSlice (s : State) (q : Nat) (x : QueueSt) : (s.setQueue q x).eccSlice = s.eccSlice := rfl
@[simp] theorem State.setQueue_measured (s : State) (q : Nat) (x : QueueSt) : (s.setQueue q x).measured = s.measured := rfl
@[simp] theorem State.setQueue_reports (s : State) (q : Nat) (x : QueueSt) : (s.setQueue q x).reports = s.reports := rfl
@[simp] theorem State.setQueue_visited (s : State) (q : Nat) (x : QueueSt) : (s.setQueue q x).visited = s.visited := rfl
@[simp] theorem State.setQueue_fields (s : State) (q : Nat) (x : QueueSt) : (s.setQueue q x).fields = s.fields := rfl
@[simp] theorem State.setQueue_slices (s : State) (q : Nat) (x : QueueSt) : (s.setQueue q x).slices = s.slices := rfl
@[simp] theorem State.setQueue_snaps (s : State) (q : Nat) (x : QueueSt) : (s.setQueue q x).snaps = s.snaps := rfl
@[simp] theorem State.setQueue_hardCopies (s : State) (q : Nat) (x : QueueSt) : (s.setQueue q x).hardCopies = s.hardCopies := rfl
@[simp] theorem State.setQueue_kept (s : State) (q : Nat) (x : QueueSt) : (s.setQueue q x).kept = s.kept := rfl
@[simp] theorem State.setQueue_debugWorks (s : State) (q : Nat) (x : QueueSt) : (s.setQueue q x).debugWorks = s.debugWorks := rfl

@[simp] theorem State.setMsix_agenda (s : State) (v : Nat) (m : Msix) : (s.setMsix v m).agenda = s.agenda := rfl
@[simp] theorem State.setMsix_curCore (s : State) (v : Nat) (m : Msix) : (s.setMsix v m).curCore = s.curCore := rfl
@[simp] theorem State.setMsix_curSlot (s : State) (v : Nat) (m : Msix) : (s.setMsix v m).curSlot = s.curSlot := rfl
@[simp] theorem State.setMsix_input (s : State) (v : Nat) (m : Msix) : (s.setMsix v m).input = s.input := rfl
@[simp] theorem State.setMsix_steps (s : State) (v : Nat) (m : Msix) : (s.setMsix v m).steps = s.steps := rfl
@[simp] theorem State.setMsix_mem (s : State) (v : Nat) (m : Msix) : (s.setMsix v m).mem = s.mem := rfl
@[simp] theorem State.setMsix_poison (s : State) (v : Nat) (m : Msix) : (s.setMsix v m).poison = s.poison := rfl
@[simp] theorem State.setMsix_full (s : State) (v : Nat) (m : Msix) : (s.setMsix v m).full = s.full := rfl
@[simp] theorem State.setMsix_dirtyPages (s : State) (v : Nat) (m : Msix) : (s.setMsix v m).dirtyPages = s.dirtyPages := rfl
@[simp] theorem State.setMsix_cycle (s : State) (v : Nat) (m : Msix) : (s.setMsix v m).cycle = s.cycle := rfl
@[simp] theorem State.setMsix_captured (s : State) (v : Nat) (m : Msix) : (s.setMsix v m).captured = s.captured := rfl
@[simp] theorem State.setMsix_plate (s : State) (v : Nat) (m : Msix) : (s.setMsix v m).plate = s.plate := rfl
@[simp] theorem State.setMsix_cores (s : State) (v : Nat) (m : Msix) : (s.setMsix v m).cores = s.cores := rfl
@[simp] theorem State.setMsix_net (s : State) (v : Nat) (m : Msix) : (s.setMsix v m).net = s.net := rfl
@[simp] theorem State.setMsix_remote (s : State) (v : Nat) (m : Msix) : (s.setMsix v m).remote = s.remote := rfl
@[simp] theorem State.setMsix_nextRemote (s : State) (v : Nat) (m : Msix) : (s.setMsix v m).nextRemote = s.nextRemote := rfl
@[simp] theorem State.setMsix_linkRetries (s : State) (v : Nat) (m : Msix) : (s.setMsix v m).linkRetries = s.linkRetries := rfl
@[simp] theorem State.setMsix_powerEst (s : State) (v : Nat) (m : Msix) : (s.setMsix v m).powerEst = s.powerEst := rfl
@[simp] theorem State.setMsix_throttled (s : State) (v : Nat) (m : Msix) : (s.setMsix v m).throttled = s.throttled := rfl
@[simp] theorem State.setMsix_flash (s : State) (v : Nat) (m : Msix) : (s.setMsix v m).flash = s.flash := rfl
@[simp] theorem State.setMsix_bootDetail (s : State) (v : Nat) (m : Msix) : (s.setMsix v m).bootDetail = s.bootDetail := rfl
@[simp] theorem State.setMsix_bootStage (s : State) (v : Nat) (m : Msix) : (s.setMsix v m).bootStage = s.bootStage := rfl
@[simp] theorem State.setMsix_qtBase (s : State) (v : Nat) (m : Msix) : (s.setMsix v m).qtBase = s.qtBase := rfl
@[simp] theorem State.setMsix_qErr (s : State) (v : Nat) (m : Msix) : (s.setMsix v m).qErr = s.qErr := rfl
@[simp] theorem State.setMsix_podcfg (s : State) (v : Nat) (m : Msix) : (s.setMsix v m).podcfg = s.podcfg := rfl
@[simp] theorem State.setMsix_members (s : State) (v : Nat) (m : Msix) : (s.setMsix v m).members = s.members := rfl
@[simp] theorem State.setMsix_wake (s : State) (v : Nat) (m : Msix) : (s.setMsix v m).wake = s.wake := rfl
@[simp] theorem State.setMsix_msixSent (s : State) (v : Nat) (m : Msix) : (s.setMsix v m).msixSent = s.msixSent := rfl
@[simp] theorem State.setMsix_doe (s : State) (v : Nat) (m : Msix) : (s.setMsix v m).doe = s.doe := rfl
@[simp] theorem State.setMsix_pci (s : State) (v : Nat) (m : Msix) : (s.setMsix v m).pci = s.pci := rfl
@[simp] theorem State.setMsix_hostLines (s : State) (v : Nat) (m : Msix) : (s.setMsix v m).hostLines = s.hostLines := rfl
@[simp] theorem State.setMsix_directory (s : State) (v : Nat) (m : Msix) : (s.setMsix v m).directory = s.directory := rfl
@[simp] theorem State.setMsix_biPending (s : State) (v : Nat) (m : Msix) : (s.setMsix v m).biPending = s.biPending := rfl
@[simp] theorem State.setMsix_biOps (s : State) (v : Nat) (m : Msix) : (s.setMsix v m).biOps = s.biOps := rfl
@[simp] theorem State.setMsix_hdm (s : State) (v : Nat) (m : Msix) : (s.setMsix v m).hdm = s.hdm := rfl
@[simp] theorem State.setMsix_eccVault (s : State) (v : Nat) (m : Msix) : (s.setMsix v m).eccVault = s.eccVault := rfl
@[simp] theorem State.setMsix_eccSlice (s : State) (v : Nat) (m : Msix) : (s.setMsix v m).eccSlice = s.eccSlice := rfl
@[simp] theorem State.setMsix_measured (s : State) (v : Nat) (m : Msix) : (s.setMsix v m).measured = s.measured := rfl
@[simp] theorem State.setMsix_queues (s : State) (v : Nat) (m : Msix) : (s.setMsix v m).queues = s.queues := rfl
@[simp] theorem State.setMsix_reports (s : State) (v : Nat) (m : Msix) : (s.setMsix v m).reports = s.reports := rfl
@[simp] theorem State.setMsix_visited (s : State) (v : Nat) (m : Msix) : (s.setMsix v m).visited = s.visited := rfl
@[simp] theorem State.setMsix_fields (s : State) (v : Nat) (m : Msix) : (s.setMsix v m).fields = s.fields := rfl
@[simp] theorem State.setMsix_slices (s : State) (v : Nat) (m : Msix) : (s.setMsix v m).slices = s.slices := rfl
@[simp] theorem State.setMsix_snaps (s : State) (v : Nat) (m : Msix) : (s.setMsix v m).snaps = s.snaps := rfl
@[simp] theorem State.setMsix_hardCopies (s : State) (v : Nat) (m : Msix) : (s.setMsix v m).hardCopies = s.hardCopies := rfl
@[simp] theorem State.setMsix_kept (s : State) (v : Nat) (m : Msix) : (s.setMsix v m).kept = s.kept := rfl
@[simp] theorem State.setMsix_debugWorks (s : State) (v : Nat) (m : Msix) : (s.setMsix v m).debugWorks = s.debugWorks := rfl

/-! ### Notices, packets and time -/

@[simp] theorem State.notice_agenda (s : State) (c : Nat) (n : Notice) : (s.notice c n).agenda = s.agenda := rfl
@[simp] theorem State.notice_curCore (s : State) (c : Nat) (n : Notice) : (s.notice c n).curCore = s.curCore := rfl
@[simp] theorem State.notice_curSlot (s : State) (c : Nat) (n : Notice) : (s.notice c n).curSlot = s.curSlot := rfl
@[simp] theorem State.notice_input (s : State) (c : Nat) (n : Notice) : (s.notice c n).input = s.input := rfl
@[simp] theorem State.notice_steps (s : State) (c : Nat) (n : Notice) : (s.notice c n).steps = s.steps := rfl
@[simp] theorem State.notice_mem (s : State) (c : Nat) (n : Notice) : (s.notice c n).mem = s.mem := rfl
@[simp] theorem State.notice_poison (s : State) (c : Nat) (n : Notice) : (s.notice c n).poison = s.poison := rfl
@[simp] theorem State.notice_full (s : State) (c : Nat) (n : Notice) : (s.notice c n).full = s.full := rfl
@[simp] theorem State.notice_dirtyPages (s : State) (c : Nat) (n : Notice) : (s.notice c n).dirtyPages = s.dirtyPages := rfl
@[simp] theorem State.notice_cycle (s : State) (c : Nat) (n : Notice) : (s.notice c n).cycle = s.cycle := rfl
@[simp] theorem State.notice_captured (s : State) (c : Nat) (n : Notice) : (s.notice c n).captured = s.captured := rfl
@[simp] theorem State.notice_plate (s : State) (c : Nat) (n : Notice) : (s.notice c n).plate = s.plate := rfl
@[simp] theorem State.notice_net (s : State) (c : Nat) (n : Notice) : (s.notice c n).net = s.net := rfl
@[simp] theorem State.notice_remote (s : State) (c : Nat) (n : Notice) : (s.notice c n).remote = s.remote := rfl
@[simp] theorem State.notice_nextRemote (s : State) (c : Nat) (n : Notice) : (s.notice c n).nextRemote = s.nextRemote := rfl
@[simp] theorem State.notice_linkRetries (s : State) (c : Nat) (n : Notice) : (s.notice c n).linkRetries = s.linkRetries := rfl
@[simp] theorem State.notice_powerEst (s : State) (c : Nat) (n : Notice) : (s.notice c n).powerEst = s.powerEst := rfl
@[simp] theorem State.notice_throttled (s : State) (c : Nat) (n : Notice) : (s.notice c n).throttled = s.throttled := rfl
@[simp] theorem State.notice_flash (s : State) (c : Nat) (n : Notice) : (s.notice c n).flash = s.flash := rfl
@[simp] theorem State.notice_bootDetail (s : State) (c : Nat) (n : Notice) : (s.notice c n).bootDetail = s.bootDetail := rfl
@[simp] theorem State.notice_bootStage (s : State) (c : Nat) (n : Notice) : (s.notice c n).bootStage = s.bootStage := rfl
@[simp] theorem State.notice_qtBase (s : State) (c : Nat) (n : Notice) : (s.notice c n).qtBase = s.qtBase := rfl
@[simp] theorem State.notice_qErr (s : State) (c : Nat) (n : Notice) : (s.notice c n).qErr = s.qErr := rfl
@[simp] theorem State.notice_podcfg (s : State) (c : Nat) (n : Notice) : (s.notice c n).podcfg = s.podcfg := rfl
@[simp] theorem State.notice_members (s : State) (c : Nat) (n : Notice) : (s.notice c n).members = s.members := rfl
@[simp] theorem State.notice_wake (s : State) (c : Nat) (n : Notice) : (s.notice c n).wake = s.wake := rfl
@[simp] theorem State.notice_msix (s : State) (c : Nat) (n : Notice) : (s.notice c n).msix = s.msix := rfl
@[simp] theorem State.notice_msixSent (s : State) (c : Nat) (n : Notice) : (s.notice c n).msixSent = s.msixSent := rfl
@[simp] theorem State.notice_doe (s : State) (c : Nat) (n : Notice) : (s.notice c n).doe = s.doe := rfl
@[simp] theorem State.notice_pci (s : State) (c : Nat) (n : Notice) : (s.notice c n).pci = s.pci := rfl
@[simp] theorem State.notice_hostLines (s : State) (c : Nat) (n : Notice) : (s.notice c n).hostLines = s.hostLines := rfl
@[simp] theorem State.notice_directory (s : State) (c : Nat) (n : Notice) : (s.notice c n).directory = s.directory := rfl
@[simp] theorem State.notice_biPending (s : State) (c : Nat) (n : Notice) : (s.notice c n).biPending = s.biPending := rfl
@[simp] theorem State.notice_biOps (s : State) (c : Nat) (n : Notice) : (s.notice c n).biOps = s.biOps := rfl
@[simp] theorem State.notice_hdm (s : State) (c : Nat) (n : Notice) : (s.notice c n).hdm = s.hdm := rfl
@[simp] theorem State.notice_eccVault (s : State) (c : Nat) (n : Notice) : (s.notice c n).eccVault = s.eccVault := rfl
@[simp] theorem State.notice_eccSlice (s : State) (c : Nat) (n : Notice) : (s.notice c n).eccSlice = s.eccSlice := rfl
@[simp] theorem State.notice_measured (s : State) (c : Nat) (n : Notice) : (s.notice c n).measured = s.measured := rfl
@[simp] theorem State.notice_queues (s : State) (c : Nat) (n : Notice) : (s.notice c n).queues = s.queues := rfl
@[simp] theorem State.notice_reports (s : State) (c : Nat) (n : Notice) : (s.notice c n).reports = s.reports := rfl
@[simp] theorem State.notice_visited (s : State) (c : Nat) (n : Notice) : (s.notice c n).visited = s.visited := rfl
@[simp] theorem State.notice_fields (s : State) (c : Nat) (n : Notice) : (s.notice c n).fields = s.fields := rfl
@[simp] theorem State.notice_slices (s : State) (c : Nat) (n : Notice) : (s.notice c n).slices = s.slices := rfl
@[simp] theorem State.notice_snaps (s : State) (c : Nat) (n : Notice) : (s.notice c n).snaps = s.snaps := rfl
@[simp] theorem State.notice_hardCopies (s : State) (c : Nat) (n : Notice) : (s.notice c n).hardCopies = s.hardCopies := rfl
@[simp] theorem State.notice_kept (s : State) (c : Nat) (n : Notice) : (s.notice c n).kept = s.kept := rfl
@[simp] theorem State.notice_debugWorks (s : State) (c : Nat) (n : Notice) : (s.notice c n).debugWorks = s.debugWorks := rfl

@[simp] theorem State.push_agenda (s : State) (src : Nat) (dst : Nat) (p : Packet) : (s.push src dst p).agenda = s.agenda := rfl
@[simp] theorem State.push_curCore (s : State) (src : Nat) (dst : Nat) (p : Packet) : (s.push src dst p).curCore = s.curCore := rfl
@[simp] theorem State.push_curSlot (s : State) (src : Nat) (dst : Nat) (p : Packet) : (s.push src dst p).curSlot = s.curSlot := rfl
@[simp] theorem State.push_input (s : State) (src : Nat) (dst : Nat) (p : Packet) : (s.push src dst p).input = s.input := rfl
@[simp] theorem State.push_steps (s : State) (src : Nat) (dst : Nat) (p : Packet) : (s.push src dst p).steps = s.steps := rfl
@[simp] theorem State.push_mem (s : State) (src : Nat) (dst : Nat) (p : Packet) : (s.push src dst p).mem = s.mem := rfl
@[simp] theorem State.push_poison (s : State) (src : Nat) (dst : Nat) (p : Packet) : (s.push src dst p).poison = s.poison := rfl
@[simp] theorem State.push_full (s : State) (src : Nat) (dst : Nat) (p : Packet) : (s.push src dst p).full = s.full := rfl
@[simp] theorem State.push_dirtyPages (s : State) (src : Nat) (dst : Nat) (p : Packet) : (s.push src dst p).dirtyPages = s.dirtyPages := rfl
@[simp] theorem State.push_cycle (s : State) (src : Nat) (dst : Nat) (p : Packet) : (s.push src dst p).cycle = s.cycle := rfl
@[simp] theorem State.push_captured (s : State) (src : Nat) (dst : Nat) (p : Packet) : (s.push src dst p).captured = s.captured := rfl
@[simp] theorem State.push_plate (s : State) (src : Nat) (dst : Nat) (p : Packet) : (s.push src dst p).plate = s.plate := rfl
@[simp] theorem State.push_cores (s : State) (src : Nat) (dst : Nat) (p : Packet) : (s.push src dst p).cores = s.cores := rfl
@[simp] theorem State.push_remote (s : State) (src : Nat) (dst : Nat) (p : Packet) : (s.push src dst p).remote = s.remote := rfl
@[simp] theorem State.push_nextRemote (s : State) (src : Nat) (dst : Nat) (p : Packet) : (s.push src dst p).nextRemote = s.nextRemote := rfl
@[simp] theorem State.push_linkRetries (s : State) (src : Nat) (dst : Nat) (p : Packet) : (s.push src dst p).linkRetries = s.linkRetries := rfl
@[simp] theorem State.push_powerEst (s : State) (src : Nat) (dst : Nat) (p : Packet) : (s.push src dst p).powerEst = s.powerEst := rfl
@[simp] theorem State.push_throttled (s : State) (src : Nat) (dst : Nat) (p : Packet) : (s.push src dst p).throttled = s.throttled := rfl
@[simp] theorem State.push_flash (s : State) (src : Nat) (dst : Nat) (p : Packet) : (s.push src dst p).flash = s.flash := rfl
@[simp] theorem State.push_bootDetail (s : State) (src : Nat) (dst : Nat) (p : Packet) : (s.push src dst p).bootDetail = s.bootDetail := rfl
@[simp] theorem State.push_bootStage (s : State) (src : Nat) (dst : Nat) (p : Packet) : (s.push src dst p).bootStage = s.bootStage := rfl
@[simp] theorem State.push_qtBase (s : State) (src : Nat) (dst : Nat) (p : Packet) : (s.push src dst p).qtBase = s.qtBase := rfl
@[simp] theorem State.push_qErr (s : State) (src : Nat) (dst : Nat) (p : Packet) : (s.push src dst p).qErr = s.qErr := rfl
@[simp] theorem State.push_podcfg (s : State) (src : Nat) (dst : Nat) (p : Packet) : (s.push src dst p).podcfg = s.podcfg := rfl
@[simp] theorem State.push_members (s : State) (src : Nat) (dst : Nat) (p : Packet) : (s.push src dst p).members = s.members := rfl
@[simp] theorem State.push_wake (s : State) (src : Nat) (dst : Nat) (p : Packet) : (s.push src dst p).wake = s.wake := rfl
@[simp] theorem State.push_msix (s : State) (src : Nat) (dst : Nat) (p : Packet) : (s.push src dst p).msix = s.msix := rfl
@[simp] theorem State.push_msixSent (s : State) (src : Nat) (dst : Nat) (p : Packet) : (s.push src dst p).msixSent = s.msixSent := rfl
@[simp] theorem State.push_doe (s : State) (src : Nat) (dst : Nat) (p : Packet) : (s.push src dst p).doe = s.doe := rfl
@[simp] theorem State.push_pci (s : State) (src : Nat) (dst : Nat) (p : Packet) : (s.push src dst p).pci = s.pci := rfl
@[simp] theorem State.push_hostLines (s : State) (src : Nat) (dst : Nat) (p : Packet) : (s.push src dst p).hostLines = s.hostLines := rfl
@[simp] theorem State.push_directory (s : State) (src : Nat) (dst : Nat) (p : Packet) : (s.push src dst p).directory = s.directory := rfl
@[simp] theorem State.push_biPending (s : State) (src : Nat) (dst : Nat) (p : Packet) : (s.push src dst p).biPending = s.biPending := rfl
@[simp] theorem State.push_biOps (s : State) (src : Nat) (dst : Nat) (p : Packet) : (s.push src dst p).biOps = s.biOps := rfl
@[simp] theorem State.push_hdm (s : State) (src : Nat) (dst : Nat) (p : Packet) : (s.push src dst p).hdm = s.hdm := rfl
@[simp] theorem State.push_eccVault (s : State) (src : Nat) (dst : Nat) (p : Packet) : (s.push src dst p).eccVault = s.eccVault := rfl
@[simp] theorem State.push_eccSlice (s : State) (src : Nat) (dst : Nat) (p : Packet) : (s.push src dst p).eccSlice = s.eccSlice := rfl
@[simp] theorem State.push_measured (s : State) (src : Nat) (dst : Nat) (p : Packet) : (s.push src dst p).measured = s.measured := rfl
@[simp] theorem State.push_queues (s : State) (src : Nat) (dst : Nat) (p : Packet) : (s.push src dst p).queues = s.queues := rfl
@[simp] theorem State.push_reports (s : State) (src : Nat) (dst : Nat) (p : Packet) : (s.push src dst p).reports = s.reports := rfl
@[simp] theorem State.push_visited (s : State) (src : Nat) (dst : Nat) (p : Packet) : (s.push src dst p).visited = s.visited := rfl
@[simp] theorem State.push_fields (s : State) (src : Nat) (dst : Nat) (p : Packet) : (s.push src dst p).fields = s.fields := rfl
@[simp] theorem State.push_slices (s : State) (src : Nat) (dst : Nat) (p : Packet) : (s.push src dst p).slices = s.slices := rfl
@[simp] theorem State.push_snaps (s : State) (src : Nat) (dst : Nat) (p : Packet) : (s.push src dst p).snaps = s.snaps := rfl
@[simp] theorem State.push_hardCopies (s : State) (src : Nat) (dst : Nat) (p : Packet) : (s.push src dst p).hardCopies = s.hardCopies := rfl
@[simp] theorem State.push_kept (s : State) (src : Nat) (dst : Nat) (p : Packet) : (s.push src dst p).kept = s.kept := rfl
@[simp] theorem State.push_debugWorks (s : State) (src : Nat) (dst : Nat) (p : Packet) : (s.push src dst p).debugWorks = s.debugWorks := rfl

@[simp] theorem State.tick_agenda (s : State) : s.tick.agenda = s.agenda := rfl
@[simp] theorem State.tick_curCore (s : State) : s.tick.curCore = s.curCore := rfl
@[simp] theorem State.tick_curSlot (s : State) : s.tick.curSlot = s.curSlot := rfl
@[simp] theorem State.tick_input (s : State) : s.tick.input = s.input := rfl
@[simp] theorem State.tick_mem (s : State) : s.tick.mem = s.mem := rfl
@[simp] theorem State.tick_poison (s : State) : s.tick.poison = s.poison := rfl
@[simp] theorem State.tick_full (s : State) : s.tick.full = s.full := rfl
@[simp] theorem State.tick_dirtyPages (s : State) : s.tick.dirtyPages = s.dirtyPages := rfl
@[simp] theorem State.tick_captured (s : State) : s.tick.captured = s.captured := rfl
@[simp] theorem State.tick_plate (s : State) : s.tick.plate = s.plate := rfl
@[simp] theorem State.tick_cores (s : State) : s.tick.cores = s.cores := rfl
@[simp] theorem State.tick_net (s : State) : s.tick.net = s.net := rfl
@[simp] theorem State.tick_remote (s : State) : s.tick.remote = s.remote := rfl
@[simp] theorem State.tick_nextRemote (s : State) : s.tick.nextRemote = s.nextRemote := rfl
@[simp] theorem State.tick_linkRetries (s : State) : s.tick.linkRetries = s.linkRetries := rfl
@[simp] theorem State.tick_powerEst (s : State) : s.tick.powerEst = s.powerEst := rfl
@[simp] theorem State.tick_throttled (s : State) : s.tick.throttled = s.throttled := rfl
@[simp] theorem State.tick_flash (s : State) : s.tick.flash = s.flash := rfl
@[simp] theorem State.tick_bootDetail (s : State) : s.tick.bootDetail = s.bootDetail := rfl
@[simp] theorem State.tick_bootStage (s : State) : s.tick.bootStage = s.bootStage := rfl
@[simp] theorem State.tick_qtBase (s : State) : s.tick.qtBase = s.qtBase := rfl
@[simp] theorem State.tick_qErr (s : State) : s.tick.qErr = s.qErr := rfl
@[simp] theorem State.tick_podcfg (s : State) : s.tick.podcfg = s.podcfg := rfl
@[simp] theorem State.tick_members (s : State) : s.tick.members = s.members := rfl
@[simp] theorem State.tick_wake (s : State) : s.tick.wake = s.wake := rfl
@[simp] theorem State.tick_msix (s : State) : s.tick.msix = s.msix := rfl
@[simp] theorem State.tick_msixSent (s : State) : s.tick.msixSent = s.msixSent := rfl
@[simp] theorem State.tick_doe (s : State) : s.tick.doe = s.doe := rfl
@[simp] theorem State.tick_pci (s : State) : s.tick.pci = s.pci := rfl
@[simp] theorem State.tick_hostLines (s : State) : s.tick.hostLines = s.hostLines := rfl
@[simp] theorem State.tick_directory (s : State) : s.tick.directory = s.directory := rfl
@[simp] theorem State.tick_biPending (s : State) : s.tick.biPending = s.biPending := rfl
@[simp] theorem State.tick_biOps (s : State) : s.tick.biOps = s.biOps := rfl
@[simp] theorem State.tick_hdm (s : State) : s.tick.hdm = s.hdm := rfl
@[simp] theorem State.tick_eccVault (s : State) : s.tick.eccVault = s.eccVault := rfl
@[simp] theorem State.tick_eccSlice (s : State) : s.tick.eccSlice = s.eccSlice := rfl
@[simp] theorem State.tick_measured (s : State) : s.tick.measured = s.measured := rfl
@[simp] theorem State.tick_queues (s : State) : s.tick.queues = s.queues := rfl
@[simp] theorem State.tick_reports (s : State) : s.tick.reports = s.reports := rfl
@[simp] theorem State.tick_visited (s : State) : s.tick.visited = s.visited := rfl
@[simp] theorem State.tick_fields (s : State) : s.tick.fields = s.fields := rfl
@[simp] theorem State.tick_slices (s : State) : s.tick.slices = s.slices := rfl
@[simp] theorem State.tick_snaps (s : State) : s.tick.snaps = s.snaps := rfl
@[simp] theorem State.tick_hardCopies (s : State) : s.tick.hardCopies = s.hardCopies := rfl
@[simp] theorem State.tick_kept (s : State) : s.tick.kept = s.kept := rfl
@[simp] theorem State.tick_debugWorks (s : State) : s.tick.debugWorks = s.debugWorks := rfl

end Sys2Proof.Machine
end

