-- ==== Sys2Proof/Laws/Ops.lean ====
section
/-! SUPPORT. What the shared operations can do: the steps of an instruction's effect, and how an instruction ends. -/

namespace Sys2Proof.Machine

/-! ### The steps of an effect, one after the other -/

/-- The rest of an effect after an outcome of its first part. -/
def M.andThen {α β : Type} (r : Except Stop (α × State)) (f : α → M β) : Except Stop (β × State) :=
  match r with
  | .ok (a, t) => f a t
  | .error e => .error e

@[simp] theorem M.andThen_ok {α β : Type} (a : α) (t : State) (f : α → M β) : M.andThen (.ok (a, t)) f = f a t := rfl
@[simp] theorem M.andThen_error {α β : Type} (e : Stop) (f : α → M β) : M.andThen (.error e) f = .error e := rfl

@[simp] theorem M.bind_apply {α β : Type} (x : M α) (f : α → M β) (s : State) : (x >>= f) s = M.andThen (x s) f := by
  show StateT.bind x f s = _
  unfold StateT.bind M.andThen
  cases x s <;> rfl
@[simp] theorem M.pure_apply {α : Type} (a : α) (s : State) : (pure a : M α) s = .ok (a, s) := rfl
@[simp] theorem M.get_apply (s : State) : (get : M State) s = .ok (s, s) := rfl
@[simp] theorem M.set_apply (t s : State) : (set t : M Unit) s = .ok ((), t) := rfl
@[simp] theorem M.modify_apply (f : State → State) (s : State) : (modify f : M Unit) s = .ok ((), f s) := rfl
@[simp] theorem M.map_apply {α β : Type} (f : α → β) (x : M α) (s : State) :
    (f <$> x) s = M.andThen (x s) fun a => pure (f a) := by
  show StateT.map f x s = _
  unfold StateT.map M.andThen
  cases x s <;> rfl
@[simp] theorem M.throw_apply {α : Type} (e : Stop) (s : State) : (throw e : M α) s = .error e := rfl
@[simp] theorem M.ite_apply {α : Type} (c : Prop) [Decidable c] (x y : M α) (s : State) :
    (if c then x else y) s = if c then x s else y s := by split <;> rfl
@[simp] theorem M.dite_apply {α : Type} (c : Prop) [Decidable c] (x : c → M α) (y : ¬c → M α) (s : State) :
    (dite c x y) s = if h : c then x h s else y h s := by split <;> rfl

@[simp] theorem trap_apply {α : Type} (c : Cause) (v : Word) (s : State) : (trap c v : M α) s = .error (.trap c v) := rfl
@[simp] theorem waitOn_apply {α : Type} (on : WaitOn) (a : Word) (s : State) : (waitOn on a : M α) s = .error (.wait on a s) := rfl
@[simp] theorem me_apply (s : State) : me s = .ok ((s.curCore, s.curSlot), s) := rfl
@[simp] theorem getCtx_apply (s : State) : getCtx s = .ok (s.ctx s.curCore s.curSlot, s) := rfl
@[simp] theorem setCtx_apply (x : Ctx) (s : State) : setCtx x s = .ok ((), s.setCtx s.curCore s.curSlot x) := rfl
@[simp] theorem modCtx_apply (f : Ctx → Ctx) (s : State) :
    modCtx f s = .ok ((), s.setCtx s.curCore s.curSlot (f (s.ctx s.curCore s.curSlot))) := rfl
@[simp] theorem getCore_apply (s : State) : getCore s = .ok (s.core s.curCore, s) := rfl
@[simp] theorem modCore_apply (f : Core → Core) (s : State) :
    modCore f s = .ok ((), s.setCore s.curCore (f (s.core s.curCore))) := rfl
@[simp] theorem regG_apply (r : GReg) (s : State) : regG r s = .ok ((s.ctx s.curCore s.curSlot).readG r.toNat, s) := rfl
@[simp] theorem regP_apply (r : PReg) (s : State) : regP r s = .ok ((s.ctx s.curCore s.curSlot).readP r.toNat, s) := rfl
@[simp] theorem setG_apply (r : GReg) (v : Word) (p : Bool) (s : State) :
    setG r v p s = .ok ((), s.setCtx s.curCore s.curSlot (((s.ctx s.curCore s.curSlot).writeG r.toNat v).mark r.toNat p)) := rfl
@[simp] theorem setP_apply (r : PReg) (v : Ptr) (p : Bool) (s : State) :
    setP r v p s = .ok ((), s.setCtx s.curCore s.curSlot (((s.ctx s.curCore s.curSlot).writeP r.toNat v).mark (32 + r.toNat) p)) := rfl
@[simp] theorem setFlags_apply (f : Flags) (s : State) :
    setFlags f s = .ok ((), s.setCtx s.curCore s.curSlot
      { s.ctx s.curCore s.curSlot with fpstat := (s.ctx s.curCore s.curSlot).fpstat ||| f.setWidth 64 }) := rfl
@[simp] theorem consume_apply (us : List Nat) (s : State) :
    consume us s = .ok (us.any (s.ctx s.curCore s.curSlot).marked,
      if us.any (s.ctx s.curCore s.curSlot).marked then
        s.setCtx s.curCore s.curSlot { s.ctx s.curCore s.curSlot with eaten := (s.ctx s.curCore s.curSlot).eaten ||| cirPoison }
      else s) := by
  unfold consume
  simp only [M.bind_apply, getCtx_apply, M.andThen_ok, M.ite_apply, setCtx_apply, M.pure_apply]
  split <;> simp_all

/-! ### Marks -/

@[simp] theorem Ctx.marked_mark (x : Ctx) (u : Nat) (b : Bool) (j : Nat) :
    (x.mark u b).marked j = if j = u then b && u ≠ 0 else x.marked j := by
  unfold Ctx.mark Ctx.marked
  by_cases hu : u = 0 <;> by_cases hj : j = u <;> cases b <;> simp_all
  all_goals (try split) <;> simp_all
  all_goals grind

/-! ### How an instruction ends -/

/-- A context without a single step and without a trap of its own retires (R349, R351). -/
theorem State.retire_plain (t : State) (c n bytes : Nat) (k : Next) (h1 : (t.ctx c n).step1 = false)
    (h2 : (t.ctx c n).after = none) (hk : k ≠ .gone) :
    t.retire c n bytes k = t.setCtx c n ((t.ctx c n).retired' bytes k) := by
  unfold State.retire
  cases k <;> simp_all [Ctx.afterTrap]

/-- Without atomics to come no instruction is held back for them (R25). -/
theorem Ctx.heldByLates_none {x : Ctx} (h : x.lates = []) (i : Instr) : x.heldByLates i = false := by
  simp [Ctx.heldByLates, h]

theorem State.pairBegin_unpaired {s : State} {c n : Nat} (h : (s.core c).pairedWest n = false) (i : Instr) : s.pairBegin c n i = s := by
  unfold State.pairBegin
  split <;> simp [h]

theorem State.pairRetire_unpaired {s : State} {c n : Nat} (h : (s.core c).pairedWest n = false) (i : Instr) : s.pairRetire c n i = s := by
  unfold State.pairRetire
  simp only
  split <;> simp [h]

/-- An instruction whose checks pass and whose effect completes retires. -/
theorem perform_ok {who : Who} {i : Instr} {body : M Next} {s t : State} {k : Next}
    (h : (s.core s.curCore).pairedWest s.curSlot = false) (hl : (s.ctx s.curCore s.curSlot).lates = []) (hr : s.refusal s.curCore s.curSlot who = none)
    (hb : body s = .ok (k, t)) (hk : k ≠ .gone) (h1 : (t.ctx s.curCore s.curSlot).step1 = false)
    (h2 : (t.ctx s.curCore s.curSlot).after = none) (ht : (t.core s.curCore).pairedWest s.curSlot = false) :
    perform who i body s =
      .next (t.setCtx s.curCore s.curSlot ((t.ctx s.curCore s.curSlot).retired' (instrBytes i) k)) := by
  have hret : ∀ u, ((State.setCtx t s.curCore s.curSlot u).core s.curCore).pairedWest s.curSlot = false := fun u => by
    simpa [Core.pairedWest] using ht
  simp [perform, Ctx.heldByLates_none hl, hr, Core.intervalOver, Core.loadsFull, h, State.pairBegin_unpaired h, hb,
    State.retire_plain _ _ _ _ _ h1 h2 hk, State.pairRetire_unpaired (hret _)]

/-- The first check of R213 that fails ends an instruction with its trap. -/
theorem perform_refused {who : Who} {i : Instr} {body : M Next} {s : State} {cause : Cause} (hl : (s.ctx s.curCore s.curSlot).lates = [])
    (hr : s.refusal s.curCore s.curSlot who = some cause) :
    perform who i body s = .next (s.takeTrap s.curCore s.curSlot
      (precise (s.ctx s.curCore s.curSlot) cause (instrLow i) (some (instrBytes i)))) := by
  simp [perform, Ctx.heldByLates_none hl, hr, hl]

/-- An effect that traps changes nothing else (R230). -/
theorem perform_trap {who : Who} {i : Instr} {body : M Next} {s : State} {cause : Cause} {v : Word}
    (h : (s.core s.curCore).pairedWest s.curSlot = false) (hl : (s.ctx s.curCore s.curSlot).lates = []) (hr : s.refusal s.curCore s.curSlot who = none)
    (hb : body s = .error (.trap cause v)) :
    perform who i body s = .next (s.takeTrap s.curCore s.curSlot
      (precise (s.ctx s.curCore s.curSlot) cause v (some (instrBytes i)))) := by
  simp [perform, Ctx.heldByLates_none hl, hl, hr, Core.intervalOver, Core.loadsFull, h, State.pairBegin_unpaired h, hb]

/-- No instruction that `perform` runs ends in a fault or a refusal. -/
theorem perform_next (who : Who) (i : Instr) (body : M Next) (s : State) : ∃ t, perform who i body s = .next t := by
  unfold perform
  simp only
  repeat' split
  all_goals exact ⟨_, rfl⟩

/-! ### Effects on the context that issues and on the registers of its core -/

/-- `t` differs from `s` in the context whose turn it is, which is now `y`, and in the registers of its core, which are now
those of `k`. -/
structure Local (s t : State) (k : Core) (y : Ctx) : Prop where
  curCore : t.curCore = s.curCore
  curSlot : t.curSlot = s.curSlot
  bare : t.bare = s.bare
  others : ∀ c, c ≠ s.curCore → t.core c = s.core c
  core : (t.core s.curCore).bare = k.bare
  slots : ∀ n, n ≠ s.curSlot → (t.core s.curCore).ctx n = (s.core s.curCore).ctx n
  ctx : (t.core s.curCore).ctx s.curSlot = y

theorem Local.refl (s : State) : Local s s s.here s.now :=
  ⟨rfl, rfl, rfl, fun _ _ => rfl, rfl, fun _ _ => rfl, rfl⟩

/-- The effect `m`, begun with registers `k` and context `y`, answers `a` and leaves `k'` and `y'`. -/
def Runs {α : Type} (m : M α) (s : State) (k : Core) (y : Ctx) (a : α) (k' : Core) (y' : Ctx) : Prop :=
  ∀ t, Local s t k y → ∃ u, m t = .ok (a, u) ∧ Local s u k' y'

variable {s : State} {k k' k'' : Core} {y y' y'' : Ctx}

theorem Runs.bind {α β : Type} {m : M α} {f : α → M β} {a : α} {b : β} (h : Runs m s k y a k' y')
    (h' : Runs (f a) s k' y' b k'' y'') : Runs (m >>= f) s k y b k'' y'' := by
  intro t ht
  obtain ⟨u, hu, hl⟩ := h t ht
  obtain ⟨v, hv, hw⟩ := h' u hl
  exact ⟨v, by rw [M.bind_apply, hu]; exact hv, hw⟩

theorem Runs.pure {α : Type} (a : α) : Runs (Pure.pure a : M α) s k y a k y := fun t h => ⟨t, rfl, h⟩

theorem Runs.getCtx : Runs getCtx s k y y k y := fun t h => ⟨t, by
  rw [getCtx_apply]; simp [State.ctx, h.curCore, h.curSlot, h.ctx], h⟩

theorem Local.setCtx {t : State} (h : Local s t k y) (z : Ctx) : Local s (t.setCtx t.curCore t.curSlot z) k z := by
  refine ⟨h.curCore, h.curSlot, h.bare, fun c hc => ?_, ?_, fun n hn => ?_, ?_⟩
  · simp [h.curCore, hc, h.others c hc]
  · simp only [State.core_setCtx, h.curCore, if_true]
    exact h.core
  · simp [h.curCore, h.curSlot, hn, h.slots n hn]
  · simp [h.curCore, h.curSlot]

theorem Runs.setCtx (z : Ctx) : Runs (Machine.setCtx z) s k y () k z := fun t h =>
  ⟨_, setCtx_apply z t, h.setCtx z⟩

theorem Runs.modCtx (f : Ctx → Ctx) : Runs (Machine.modCtx f) s k y () k (f y) := Runs.bind Runs.getCtx (Runs.setCtx _)

theorem Runs.regG (r : GReg) : Runs (Machine.regG r) s k y (y.readG r.toNat) k y := Runs.bind Runs.getCtx (Runs.pure _)
theorem Runs.regP (r : PReg) : Runs (Machine.regP r) s k y (y.readP r.toNat) k y := Runs.bind Runs.getCtx (Runs.pure _)
theorem Runs.setG (r : GReg) (v : Word) (p : Bool) :
    Runs (Machine.setG r v p) s k y () k ((y.writeG r.toNat v).mark r.toNat p) := Runs.modCtx _
theorem Runs.setP (r : PReg) (v : Ptr) (p : Bool) :
    Runs (Machine.setP r v p) s k y () k ((y.writeP r.toNat v).mark (32 + r.toNat) p) := Runs.modCtx _
theorem Runs.setFlags (f : Flags) : Runs (Machine.setFlags f) s k y () k { y with fpstat := y.fpstat ||| f.setWidth 64 } := Runs.modCtx _

/-- A context that has taken a marked source. -/
def Ctx.tasted (x : Ctx) (p : Bool) : Ctx := { x with eaten := if p then x.eaten ||| cirPoison else x.eaten }

theorem Runs.consume (us : List Nat) : Runs (Machine.consume us) s k y (us.any y.marked) k (y.tasted (us.any y.marked)) := by
  unfold Machine.consume
  refine Runs.bind Runs.getCtx ?_
  by_cases h : us.any y.marked = true
  · simp only [h, if_true, Ctx.tasted]
    exact Runs.bind (Runs.setCtx _) (Runs.pure _)
  · simp only [h, if_false, Ctx.tasted, Bool.false_eq_true]
    exact Runs.pure _

theorem Runs.ite {α : Type} {c : Prop} [Decidable c] {m n : M α} {a b : α} {k₁ k₂ : Core} {y₁ y₂ : Ctx}
    (h : c → Runs m s k y a k₁ y₁) (h' : ¬c → Runs n s k y b k₂ y₂) :
    Runs (if c then m else n) s k y (if c then a else b) (if c then k₁ else k₂) (if c then y₁ else y₂) := by
  by_cases hc : c
  · simpa [hc] using h hc
  · simpa [hc] using h' hc

/-! ### From an effect to what the instruction does -/

theorem State.steady_iff {s : State} (h : s.steady = true) :
    (s.core s.curCore).pairedWest s.curSlot = false ∧ s.now.step1 = false ∧ s.now.after = none ∧ s.now.eaten = 0 ∧ s.now.lates = [] := by
  simp [State.steady, State.here] at h; simp [h]

/-- An effect on the context that issues and its core completes the instruction. -/
theorem Runs.completes {who : Who} {i : Instr} {body : M Next} {nx : Next} (h : s.steady = true)
    (he : exec i s = perform who i body s) (hr : s.refusal s.curCore s.curSlot who = none)
    (hb : Runs body s s.here s.now nx k y) (hn : nx ≠ .gone) (hk : k.pair = s.here.pair) (h1 : y.step1 = false)
    (h2 : y.after = none) : ∃ t, exec i s = .next t ∧ Local s t k (y.retired' (instrBytes i) nx) := by
  obtain ⟨hp, -, -, -, hlates⟩ := State.steady_iff h
  obtain ⟨u, hu, hl⟩ := hb s (Local.refl s)
  have hx : u.ctx s.curCore s.curSlot = y := hl.ctx
  have hpair : (u.core s.curCore).pair = s.here.pair := by
    have := congrArg Core.pair hl.core
    exact this.trans hk
  refine ⟨_, he.trans (perform_ok hp hlates hr hu hn (by rw [hx, h1]) (by rw [hx, h2]) ?_), ?_⟩
  · simpa [Core.pairedWest, hpair, State.here] using hp
  · rw [hx]
    have := hl.setCtx (y.retired' (instrBytes i) nx)
    rwa [hl.curCore, hl.curSlot] at this

theorem Local.sameOutside {t : State} (h : Local s t k y) (hide : Core → Core) (hk : hide k.bare = hide s.here.bare) :
    SameOutside hide id s t := by
  refine ⟨fun c n hn => ?_, fun c => ?_, h.bare⟩
  · by_cases hc : c = s.curCore
    · subst hc
      have : n ≠ s.curSlot := fun e => hn ⟨rfl, e⟩
      exact h.slots n this
    · simp only [State.ctx, h.others c hc]
  · by_cases hc : c = s.curCore
    · subst hc; rw [h.core, hk]; rfl
    · rw [h.others c hc]

theorem Local.onlyHere {t : State} (h : Local s t k y) (hk : k.bare = s.here.bare) : OnlyHere s t := by
  refine ⟨h.sameOutside id hk, fun a => ?_⟩
  have := congrArg State.mem h.bare
  simp only [State.peek]
  exact congrArg (Memory.read · a) this

theorem Local.now {t : State} (h : Local s t k y) : t.now = y := by
  simp only [State.now, State.ctx, h.curCore, h.curSlot, h.ctx]

/-- What the completion of an instruction makes of a context. -/
theorem Ctx.retired'_facts (x y : Ctx) (bytes : Nat) (nx : Next) (p : Bool) (he : y.eaten = if p then 1 else 0)
    (hc : y.cir = x.cir) (hr : y.retired = x.retired) (hh : y.halted = x.halted) (hs : y.stepping = x.stepping)
    (hk : y.skid = x.skid) : Counted x (y.retired' bytes nx) p := by
  obtain ⟨live, role, gen, pc, g, p', marks, l0, l1, wheld, whome, cir, lostw, eaten, tries, stage, latch, fpctl, fpstat, retired, sb, trap,
    step1, after, halted, skid, skidLeft, stepping, waiting, replies, text, remote, fetched, places, awaits, arrived, grant, lates, committed, request⟩ := y
  simp only at he hc hr hh hs hk
  subst he hc hr hh hs hk
  cases nx <;> cases p <;> simp [Counted, Ctx.retired', Ctx.digest, Ctx.advance, Ctx.cirSet]

theorem Ctx.digest_eq (y : Ctx) : y.digest = { y with cir := y.digest.cir, eaten := 0 } := by
  unfold Ctx.digest
  simp only [Ctx.cirSet]
  split <;> split <;> rfl
theorem Ctx.advance_eq (y : Ctx) (bytes : Nat) (nx : Next) :
    y.advance bytes nx =
      { y with pc := (y.advance bytes nx).pc, loop0 := (y.advance bytes nx).loop0, loop1 := (y.advance bytes nx).loop1 } := by
  cases nx <;> rfl

/-- What completion changes, field by field. -/
theorem Ctx.retired'_eq (y : Ctx) (bytes : Nat) (nx : Next) :
    y.retired' bytes nx = { y with
      pc := (y.advance bytes nx).pc, loop0 := (y.advance bytes nx).loop0, loop1 := (y.advance bytes nx).loop1,
      cir := ((y.advance bytes nx).digest).cir, eaten := 0,
      skid := if y.halted && !y.stepping then y.skid + 1 else y.skid,
      skidLeft := if y.halted && !y.stepping then y.skidLeft - 1 else y.skidLeft,
      retired := y.retired + 1, waiting := none, fetched := [], places := [], awaits := [], arrived := 0, grant := none, committed := false,
      remote := .idle, stepping := false,
      step1 := false, after := none, tries := 0, stage := 0, latch := 0 } := by
  unfold Ctx.retired'
  rw [Ctx.digest_eq (y.advance bytes nx), Ctx.advance_eq]

theorem Ctx.retired'_goesOn (x y : Ctx) (bytes : Nat) (h0 : y.loop0 = x.loop0) (h1 : y.loop1 = x.loop1) (hp : y.pc = x.pc) :
    GoesOn x (y.retired' bytes .seq) bytes := by
  rw [Ctx.retired'_eq]
  simp only [GoesOn, Ctx.advance, h0, h1, hp]
theorem Ctx.retired'_readG (y : Ctx) (bytes : Nat) (nx : Next) (r : Nat) : (y.retired' bytes nx).readG r = y.readG r := by
  rw [Ctx.retired'_eq]; rfl
theorem Ctx.retired'_readP (y : Ctx) (bytes : Nat) (nx : Next) (r : Nat) : (y.retired' bytes nx).readP r = y.readP r := by
  rw [Ctx.retired'_eq]; rfl
theorem Ctx.retired'_marked (y : Ctx) (bytes : Nat) (nx : Next) (u : Nat) : (y.retired' bytes nx).marked u = y.marked u := by
  rw [Ctx.retired'_eq]; rfl
theorem Ctx.retired'_aside (y : Ctx) (bytes : Nat) (nx : Next) : (y.retired' bytes nx).aside = y.aside := by
  rw [Ctx.retired'_eq]; rfl
theorem Ctx.retired'_fpstat (y : Ctx) (bytes : Nat) (nx : Next) : (y.retired' bytes nx).fpstat = y.fpstat := by
  rw [Ctx.retired'_eq]

/-- The context after a write of one g register. -/
def Ctx.gDone (x : Ctx) (p : Bool) (d : GReg) (v : Word) (fl : Flags) : Ctx :=
  { ((x.tasted p).writeG d.toNat v).mark d.toNat p with fpstat := x.fpstat ||| fl.setWidth 64 }
/-- The context after a write of one p register. -/
def Ctx.pDone (x : Ctx) (p : Bool) (d : PReg) (v : Ptr) : Ctx := ((x.tasted p).writeP d.toNat v).mark (32 + d.toNat) p

theorem Ctx.gDone_written (x : Ctx) (p : Bool) (d : GReg) (v : Word) (fl : Flags) : GWritten x (x.gDone p d v fl) d v p := by
  have hd : (d.toNat ≠ 0) = (d ≠ 0) := by simp [← BitVec.toNat_inj]
  refine ⟨fun r => ?_, fun r => ?_, fun u => ?_⟩
  · show (((x.tasted p).writeG d.toNat v).mark d.toNat p).readG r.toNat = _
    simp only [Ctx.readG_mark, Ctx.readG_writeG, hd, BitVec.toNat_inj]
    rfl
  · show (((x.tasted p).writeG d.toNat v).mark d.toNat p).readP r.toNat = _
    simp only [Ctx.readP_mark, Ctx.readP_writeG]
    rfl
  · show (((x.tasted p).writeG d.toNat v).mark d.toNat p).marked u = _
    rw [Ctx.marked_mark]
    simp only [hd]
    split
    · rfl
    · simp only [Ctx.marked, Ctx.writeG_marks, Ctx.tasted]

theorem Ctx.pDone_written (x : Ctx) (p : Bool) (d : PReg) (v : Ptr) : PWritten x (x.pDone p d v) d v p := by
  refine ⟨fun r => ?_, fun r => ?_, fun u => ?_⟩
  · simp only [Ctx.pDone, Ctx.readP_mark, Ctx.readP_writeP, BitVec.toNat_inj]
    rfl
  · rfl
  · rw [Ctx.pDone, Ctx.marked_mark]
    split
    · simp
    · rfl

theorem Runs.writesG {who : Who} {i : Instr} {body : M Next} {bytes : Nat} {d : GReg} {v : Word} {p : Bool} {fl : Flags}
    (h : s.steady = true) (he : exec i s = perform who i body s) (hr : s.refusal s.curCore s.curSlot who = none)
    (hl : instrBytes i = bytes) (hb : Runs body s s.here s.now .seq s.here (s.now.gDone p d v fl)) :
    WritesG i bytes d v p fl s := by
  obtain ⟨-, h1, h2, h3, -⟩ := State.steady_iff h
  obtain ⟨t, ht, hT⟩ := hb.completes h he hr (by simp) rfl (by simpa [Ctx.gDone, Ctx.tasted] using h1)
    (by simpa [Ctx.gDone, Ctx.tasted] using h2)
  unfold WritesG LoadsG
  refine ⟨t, ht, hT.onlyHere rfl, ?_⟩
  rw [hT.now, ← hl]
  obtain ⟨w1, w2, w3⟩ := Ctx.gDone_written s.now p d v fl
  refine ⟨⟨?_, ?_, ?_⟩, ?_, ?_, ?_, ?_⟩
  · intro r; rw [Ctx.retired'_readG, w1]
  · intro r; rw [Ctx.retired'_readP, w2]
  · intro u; rw [Ctx.retired'_marked, w3]
  · rw [Ctx.retired'_fpstat]; rfl
  · apply Ctx.retired'_facts <;> simp [Ctx.gDone, Ctx.tasted, h3, cirPoison]
  · apply Ctx.retired'_goesOn <;> simp [Ctx.gDone, Ctx.tasted]
  · rw [Ctx.retired'_aside]
    simp only [Ctx.gDone, Ctx.aside, Ctx.tasted, Ctx.writeG, Ctx.mark]
    split <;> rfl

theorem Runs.writesP {who : Who} {i : Instr} {body : M Next} {bytes : Nat} {d : PReg} {v : Ptr} {p : Bool}
    (h : s.steady = true) (he : exec i s = perform who i body s) (hr : s.refusal s.curCore s.curSlot who = none)
    (hl : instrBytes i = bytes) (hb : Runs body s s.here s.now .seq s.here (s.now.pDone p d v)) : WritesP i bytes d v p s := by
  obtain ⟨-, h1, h2, h3, -⟩ := State.steady_iff h
  obtain ⟨t, ht, hT⟩ := hb.completes h he hr (by simp) rfl (by simpa [Ctx.pDone, Ctx.tasted] using h1)
    (by simpa [Ctx.pDone, Ctx.tasted] using h2)
  refine ⟨t, ht, hT.onlyHere rfl, ?_⟩
  rw [hT.now, ← hl]
  obtain ⟨w1, w2, w3⟩ := Ctx.pDone_written s.now p d v
  refine ⟨⟨?_, ?_, ?_⟩, ?_, ?_, ?_⟩
  · intro r; rw [Ctx.retired'_readP, w1]
  · intro r; rw [Ctx.retired'_readG, w2]
  · intro u; rw [Ctx.retired'_marked, w3]
  · apply Ctx.retired'_facts <;> simp [Ctx.pDone, Ctx.tasted, h3, cirPoison]
  · apply Ctx.retired'_goesOn <;> simp [Ctx.pDone, Ctx.tasted]
  · rw [Ctx.retired'_aside]; rfl

end Sys2Proof.Machine
end

