-- ==== Sys2Proof/Laws/Alu.lean ====
section
/-! SUPPORT. What the shared operations of the scalar groups do: integer, pointer and floating-point. -/

namespace Sys2Proof.Machine

variable {s : State} {k : Core} {y : Ctx}

theorem Ctx.gDone_noFlags (x : Ctx) (p : Bool) (d : GReg) (v : Word) :
    ((x.tasted p).writeG d.toNat v).mark d.toNat p = x.gDone p d v 0 := by
  unfold Ctx.gDone Ctx.tasted Ctx.writeG Ctx.mark
  split <;> simp

theorem Ctx.gDone_flags (x : Ctx) (p : Bool) (d : GReg) (v : Word) (fl : Flags) :
    ({ ((x.tasted p).writeG d.toNat v).mark d.toNat p with
      fpstat := (((x.tasted p).writeG d.toNat v).mark d.toNat p).fpstat ||| fl.setWidth 64 } : Ctx) = x.gDone p d v fl := by
  simp [Ctx.gDone, Ctx.tasted]

theorem Ctx.tasted_false (x : Ctx) : x.tasted false = x := rfl

/-- An instruction that reads two g registers and writes a third. -/
theorem aluRegs_runs (op : AluOp) (ty : Ty) (d a b : GReg) :
    Runs (aluRegs op ty d a b) s k y .seq k
      (y.gDone (y.anyMarked [uG a, uG b]) d (aluResult op ty (y.readG a.toNat) (y.readG b.toNat)) 0) := by
  unfold aluRegs
  rw [← Ctx.gDone_noFlags]
  exact .bind (.regG a) (.bind (.regG b) (.bind (.consume _) (.bind (.setG d _ _) (.pure _))))

theorem aluImm_runs (op : AluOp) (ty : Ty) (d a : GReg) (imm : Int) :
    Runs (aluImm op ty d a imm) s k y .seq k
      (y.gDone (y.anyMarked [uG a]) d (aluResult op ty (y.readG a.toNat) (ext ty imm)) 0) := by
  unfold aluImm
  rw [← Ctx.gDone_noFlags]
  exact .bind (.regG a) (.bind (.consume _) (.bind (.setG d _ _) (.pure _)))

theorem unaryG_runs (d a : GReg) (f : Word → Word) :
    Runs (unaryG d a f) s k y .seq k (y.gDone (y.anyMarked [uG a]) d (f (y.readG a.toNat)) 0) := by
  unfold unaryG
  rw [← Ctx.gDone_noFlags]
  exact .bind (.regG a) (.bind (.consume _) (.bind (.setG d _ _) (.pure _)))

/-- An instruction that writes a constant to a g register. -/
theorem constG_runs (d : GReg) (v : Word) : Runs (do setG d v false; pure Next.seq) s k y Next.seq k (y.gDone false d v 0) := by
  rw [← Ctx.gDone_noFlags]
  exact .bind (.setG d _ _) (.pure _)

theorem fpu2_runs (f : Rm → Val → Val → Exact) (ty : Ty) (q : FQ) (d a b : GReg) :
    let r := roundExact ty (y.rounding q 0)
      (f (y.rounding q 0).rm (value ty (elem ty (y.readG a.toNat))) (value ty (elem ty (y.readG b.toNat))))
    Runs (fpu2 f ty q d a b) s k y .seq k (y.gDone (y.anyMarked [uG a, uG b]) d (BitVec.ofNat 64 r.1) r.2) := by
  intro r
  unfold fpu2
  rw [← Ctx.gDone_flags]
  exact .bind .getCtx (.bind (.regG a) (.bind (.regG b) (.bind (.consume _) (.bind (.setG d _ _) (.bind (.setFlags _) (.pure _))))))

theorem fpu3_runs (negate : Bool) (ty : Ty) (q : FQ) (d a b c : GReg) :
    let va := value ty (elem ty (y.readG a.toNat))
    let r := roundExact ty (y.rounding q 0)
      (fmaV (y.rounding q 0).rm (if negate then va.neg else va) (value ty (elem ty (y.readG b.toNat))) (value ty (elem ty (y.readG c.toNat))))
    Runs (fpu3 negate ty q d a b c) s k y .seq k (y.gDone (y.anyMarked [uG a, uG b, uG c]) d (BitVec.ofNat 64 r.1) r.2) := by
  intro va r
  unfold fpu3
  rw [← Ctx.gDone_flags]
  exact .bind .getCtx (.bind (.regG a) (.bind (.regG b) (.bind (.regG c) (.bind (.consume _)
    (.bind (.setG d _ _) (.bind (.setFlags _) (.pure _)))))))

theorem fpuPick_runs (wantMax : Bool) (ty : Ty) (d a b : GReg) :
    let r := roundExact ty ⟨.rne, false, 0⟩
      (pickV wantMax (value ty (elem ty (y.readG a.toNat))) (value ty (elem ty (y.readG b.toNat))))
    Runs (fpuPick wantMax ty d a b) s k y .seq k (y.gDone (y.anyMarked [uG a, uG b]) d (BitVec.ofNat 64 r.1) r.2) := by
  intro r
  unfold fpuPick
  rw [← Ctx.gDone_flags]
  exact .bind (.regG a) (.bind (.regG b) (.bind (.consume _) (.bind (.setG d _ _) (.bind (.setFlags _) (.pure _)))))

theorem fpuSign_runs (f : Nat → Res) (ty : Ty) (d a : GReg) :
    let r := f (elem ty (y.readG a.toNat))
    Runs (fpuSign f ty d a) s k y .seq k (y.gDone (y.anyMarked [uG a]) d (BitVec.ofNat 64 r.1) r.2) := by
  intro r
  unfold fpuSign
  rw [← Ctx.gDone_flags]
  exact .bind (.regG a) (.bind (.consume _) (.bind (.setG d _ _) (.bind (.setFlags _) (.pure _))))

/-! ### Integer values as bit vectors -/

theorem valueOf_setWidth (ty : Ty) (x : Word) :
    valueOf ty x.toNat = if signed ty then (x.setWidth ty.width).toInt else ((x.setWidth ty.width).toNat : Int) := by
  unfold valueOf
  split
  · congr 1
    apply BitVec.eq_of_toNat_eq
    simp
  · simp

theorem ofInt_valueOf (ty : Ty) (x : Word) : BitVec.ofInt ty.width (valueOf ty x.toNat) = x.setWidth ty.width := by
  rw [valueOf_setWidth]
  split
  · rw [BitVec.ofInt_toInt]
  · rw [BitVec.ofInt_natCast, BitVec.ofNat_toNat, BitVec.setWidth_eq]

theorem ext_eq_extended (ty : Ty) (x : Int) : ext ty x = extended ty (BitVec.ofInt ty.width x) := rfl

end Sys2Proof.Machine
end

