-- ==== Sys2Proof/Laws/Codec.lean ====
section
/-! SUPPORT. Each field of an encoding reads back what was written into it. -/

namespace Sys2Proof

@[simp] theorem gReg?_gEnc (r : GReg) : gReg? (gEnc r) = some r := by revert r; decide
@[simp] theorem pReg?_pEnc (r : PReg) : pReg? (pEnc r) = some r := by revert r; decide
@[simp] theorem vReg?_vEnc (r : VReg) : vReg? (vEnc r) = some r := by revert r; decide
@[simp] theorem kField?_kEnc (k : BitVec 3) : kField? (kEnc k) = some k := by revert k; decide
@[simp] theorem accField?_accEnc (a : AccReg) : accField? (accEnc a) = some a := by revert a; decide
@[simp] theorem raw4?_raw4Enc (n : BitVec 4) : raw4? (raw4Enc n) = some n := by revert n; decide
@[simp] theorem g8?_g8Enc (g : BitVec 2) : g8? (g8Enc g) = some g := by revert g; decide
@[simp] theorem g2?_g2Enc (g : BitVec 4) : g2? (g2Enc g) = some g := by revert g; decide
@[simp] theorem bitField?_bitEnc (b : Bool) : bitField? (bitEnc b) = some b := by cases b <;> rfl
@[simp] theorem Ty.ofCode_code (t : Ty) : Ty.ofCode t.code = t := by cases t <;> rfl
@[simp] theorem Scope.ofCode_code (s : Scope) : Scope.ofCode s.code = s := by cases s <;> rfl
@[simp] theorem kind2?_code (k : Kind) : kind2? k.code = some k := by cases k <;> rfl
@[simp] theorem tyField?_tyEnc (t : Ty) : tyField? (tyEnc t) = some t := by cases t <;> rfl
@[simp] theorem kindField?_kindEnc (k : Kind) : kindField? (kindEnc k) = some k := by cases k <;> rfl
@[simp] theorem sel?_selEnc (k : Kind) (m : KReg) : sel? (selEnc k m) = some (k, m) := by cases k <;> revert m <;> decide
@[simp] theorem kindSel0?_selEnc (k : Kind) : kindSel0? (selEnc k 0#3) = some k := by cases k <;> rfl
@[simp] theorem fq?_fqEnc (q : FQ) : fq? (fqEnc q) = some q := by obtain ⟨rm, sat⟩ := q; cases rm <;> cases sat <;> rfl
@[simp] theorem cond?_condEnc (c : Cond) : cond? (condEnc c) = some c := by cases c <;> rfl
@[simp] theorem brh?_brhEnc (h : BrHint) : brh? (brhEnc h) = some h := by cases h <;> rfl
@[simp] theorem ordQ?_ordEnc (o : Ord) : ordQ? (ordEnc o) = some o := by cases o <;> rfl
@[simp] theorem hintQ?_hintEnc (h : Hint) : hintQ? (hintEnc h) = some h := by cases h <;> rfl
@[simp] theorem mq?_mqEnc (m : MQ) : mq? (mqEnc m) m.scope.code = some m := by
  obtain ⟨o, h, s⟩ := m
  cases o <;> cases h <;> cases s <;> rfl

@[simp] theorem gpReg?_gEnc (a : GReg) : gpReg? (gpEnc true a) = some (true, a) := by revert a; decide
theorem gpReg?_gpEnc (f : Bool) (a : GReg) (h : f = true ∨ a.toNat < 16) : gpReg? (gpEnc f a) = some (f, a) := by
  cases f
  · revert a; decide
  · exact gpReg?_gEnc a

@[simp] theorem hiC_hiR (k : BitVec 3) (c : BitVec 6) : hiC (hiR k c) = c := by revert k c; decide
@[simp] theorem hiK_hiR (k : BitVec 3) (c : BitVec 6) : hiK (hiR k c) = k := by revert k c; decide
@[simp] theorem hiZ_hiR (k : BitVec 3) (c : BitVec 6) : hiZ (hiR k c) = 0 := by revert k c; decide

/-- A part of the high side of an append. -/
theorem ext_high {m w : Nat} (x : BitVec m) (y : BitVec w) (a n : Nat) (h : w ≤ a) :
    (x ++ y).extractLsb' a n = x.extractLsb' (a - w) n := by
  apply BitVec.eq_of_getLsbD_eq
  intro i hi
  have : ¬(a + i < w) := by omega
  have h2 : a + i - w = a - w + i := by omega
  simp [BitVec.getLsbD_append, hi, this, h2]

/-- A part of the low side of an append. -/
theorem ext_low {m w : Nat} (x : BitVec m) (y : BitVec w) (a n : Nat) (h : a + n ≤ w) :
    (x ++ y).extractLsb' a n = y.extractLsb' a n := by
  apply BitVec.eq_of_getLsbD_eq
  intro i hi
  have : a + i < w := by omega
  simp [BitVec.getLsbD_append, hi, this]

/-- The whole of a word. -/
theorem ext_all {w : Nat} (x : BitVec w) : x.extractLsb' 0 w = x := by
  apply BitVec.eq_of_getLsbD_eq
  intro i hi
  simp [hi]

theorem ofBool_eq_one (b : Bool) : decide (BitVec.ofBool b = 1#1) = b := by cases b <;> rfl

@[simp] theorem hiOff_hiM (o : BitVec 21) (s : BitVec 3) : hiOff (hiM o s) = o := by
  unfold hiOff hiM
  rw [ext_high _ _ _ _ (by decide)]
  exact ext_all o
@[simp] theorem hiScope_hiM (o : BitVec 21) (s : BitVec 3) : hiScope (hiM o s) = s := by
  unfold hiScope hiM
  rw [ext_low _ _ _ _ (by decide)]
  exact ext_all s

@[simp] theorem num?_setWidth (n : BitVec 12) : num? (n.setWidth 24) = some n := by
  unfold num?
  rw [if_pos]
  · simp
  · have := n.isLt
    simp only [BitVec.toNat_setWidth]
    omega
@[simp] theorem imm8?_setWidth (n : Byte) : imm8? (n.setWidth 24) = some n := by revert n; decide
@[simp] theorem imm16?_setWidth (n : BitVec 16) : imm16? (n.setWidth 24) = some n := by
  unfold imm16?
  rw [if_pos]
  · simp
  · have := n.isLt
    simp only [BitVec.toNat_setWidth]
    omega

@[simp] theorem obj?_enc (o : Option (PReg × Scope)) : obj? (objQ o) (objB o) (objS o) = some o := by
  cases o with
  | none => rfl
  | some o => simp [obj?, objQ, objB, objS]

@[simp] theorem optP?_optPEnc (p : Option PReg) : optP? (optPEnc p) = some p := by
  cases p with
  | none => rfl
  | some p => revert p; decide

@[simp] theorem entry?_entry32 (e : BitVec 22) : entry? ((entry32 e).setWidth 32) = some e := by
  have h : (entry32 e).setWidth 32 = (0#8 ++ e ++ 0#2 : BitVec 32) := by
    apply BitVec.eq_of_getLsbD_eq
    intro i hi
    simp only [entry32, BitVec.getLsbD_setWidth, BitVec.getLsbD_append]
    simp
    omega
  have hn : (0#8 ++ e ++ 0#2).toNat = e.toNat * 4 := by
    rw [BitVec.toNat_append, BitVec.toNat_append]
    simp [Nat.shiftLeft_eq]
  have := e.isLt
  rw [h, entry?]
  have hc : (0#8 ++ e ++ 0#2).toNat % 4 = 0 ∧ (0#8 ++ e ++ 0#2).toNat < 2 ^ 24 := by omega
  rw [if_pos hc, ext_high _ _ _ _ (by decide), ext_low _ _ _ _ (by decide), ext_all]

@[simp] theorem sendcExt?_sendcExt (n : BitVec 4) (s : BitVec 3) : sendcExt? (sendcExt n s) = some (n, s) := by
  revert n s; decide

@[simp] theorem setWidth_setWidth_32 (x : BitVec 32) : (x.setWidth 64).setWidth 32 = x := by simp

end Sys2Proof
end

