-- ==== Sys2Proof/Laws/Memory.lean ====
section
/-! SUPPORT. The canonical form of maps and memory, and that every memory operation keeps it. -/

namespace Sys2Proof.Machine

/-! ### Maps -/

@[simp] theorem Assoc.wf_nil {α : Type} [DecidableEq α] (d : α) : Assoc.wf d ([] : Assoc α) = true := rfl

theorem Assoc.wf_cons {α : Type} [DecidableEq α] (d : α) (j : Nat) (v : α) (t : Assoc α) :
    Assoc.wf d ((j, v) :: t) = true ↔ v ≠ d ∧ (∀ e ∈ t, j < e.1) ∧ Assoc.wf d t = true := by
  simp [Assoc.wf, List.all_eq_true, and_assoc]

theorem Assoc.mem_put {α : Type} (m : Assoc α) (k : Nat) (v : α) (e : Nat × α) (h : e ∈ Assoc.put m k v) : e = (k, v) ∨ e ∈ m := by
  induction m with
  | nil => simpa [Assoc.put] using h
  | cons x t ih =>
    obtain ⟨j, w⟩ := x
    simp only [Assoc.put] at h
    split at h
    · simpa using h
    · split at h
      · rcases List.mem_cons.1 h with h | h
        · exact .inl h
        · exact .inr (List.mem_cons_of_mem _ h)
      · rcases List.mem_cons.1 h with h | h
        · exact .inr (h ▸ List.mem_cons_self)
        · rcases ih h with h | h
          · exact .inl h
          · exact .inr (List.mem_cons_of_mem _ h)

theorem Assoc.mem_del {α : Type} (m : Assoc α) (k : Nat) (e : Nat × α) (h : e ∈ Assoc.del m k) : e ∈ m := by
  induction m with
  | nil => simp [Assoc.del] at h
  | cons x t ih =>
    obtain ⟨j, w⟩ := x
    simp only [Assoc.del] at h
    split at h
    · exact List.mem_cons_of_mem _ (ih h)
    · rcases List.mem_cons.1 h with h | h
      · exact h ▸ List.mem_cons_self
      · exact List.mem_cons_of_mem _ (ih h)

theorem Assoc.wf_put {α : Type} [DecidableEq α] (d : α) (m : Assoc α) (k : Nat) (v : α) (hv : v ≠ d) (h : Assoc.wf d m = true) :
    Assoc.wf d (Assoc.put m k v) = true := by
  induction m with
  | nil => simp [Assoc.put, Assoc.wf, hv]
  | cons x t ih =>
    obtain ⟨j, w⟩ := x
    obtain ⟨hw, hlt, ht⟩ := (Assoc.wf_cons d j w t).1 h
    simp only [Assoc.put]
    split
    · rename_i hk
      refine (Assoc.wf_cons d k v _).2 ⟨hv, ?_, h⟩
      intro e he
      rcases List.mem_cons.1 he with he | he
      · exact he ▸ hk
      · exact Nat.lt_trans hk (hlt e he)
    · split
      · rename_i hk
        exact (Assoc.wf_cons d k v t).2 ⟨hv, fun e he => hk ▸ hlt e he, ht⟩
      · rename_i h1 h2
        refine (Assoc.wf_cons d j w _).2 ⟨hw, ?_, ih ht⟩
        intro e he
        rcases Assoc.mem_put t k v e he with he | he
        · subst he
          show j < k
          omega
        · exact hlt e he

theorem Assoc.wf_del {α : Type} [DecidableEq α] (d : α) (m : Assoc α) (k : Nat) (h : Assoc.wf d m = true) :
    Assoc.wf d (Assoc.del m k) = true := by
  induction m with
  | nil => rfl
  | cons x t ih =>
    obtain ⟨j, w⟩ := x
    obtain ⟨hw, hlt, ht⟩ := (Assoc.wf_cons d j w t).1 h
    simp only [Assoc.del]
    split
    · exact ih ht
    · exact (Assoc.wf_cons d j w _).2 ⟨hw, fun e he => hlt e (Assoc.mem_del t k e he), ih ht⟩

theorem Assoc.wf_set {α : Type} [DecidableEq α] (d : α) (m : Assoc α) (k : Nat) (v : α) (h : Assoc.wf d m = true) :
    Assoc.wf d (Assoc.set d m k v) = true := by
  unfold Assoc.set
  split
  · exact Assoc.wf_del d m k h
  · exact Assoc.wf_put d m k v ‹_› h

/-- Entries taken out of a canonical map leave one. -/
theorem Assoc.wf_filter {α : Type} [DecidableEq α] (d : α) (m : Assoc α) (p : Nat × α → Bool) (h : Assoc.wf d m = true) :
    Assoc.wf d (m.filter p) = true := by
  induction m with
  | nil => rfl
  | cons x t ih =>
    obtain ⟨j, w⟩ := x
    obtain ⟨hw, hlt, ht⟩ := (Assoc.wf_cons d j w t).1 h
    rw [List.filter_cons]
    split
    · exact (Assoc.wf_cons d j w _).2 ⟨hw, fun e he => hlt e (List.mem_filter.1 he).1, ih ht⟩
    · exact ih ht

theorem Assoc.wf_clear {α : Type} [DecidableEq α] (d : α) (m : Assoc α) (lo hi : Nat) (h : Assoc.wf d m = true) :
    Assoc.wf d (Assoc.clear m lo hi) = true := Assoc.wf_filter d m _ h

/-- What a key below every listed key reads as. -/
theorem Assoc.get_below {α : Type} (d : α) (m : Assoc α) (k : Nat) (h : ∀ e ∈ m, k < e.1) : Assoc.get d m k = d := by
  induction m with
  | nil => rfl
  | cons x t ih =>
    obtain ⟨j, w⟩ := x
    have hj : k < j := h (j, w) List.mem_cons_self
    rw [Assoc.get, if_neg (by omega)]
    exact ih fun e he => h e (List.mem_cons_of_mem _ he)

/-- Equal maps are equal data: canonical maps that read alike are the same list. -/
theorem Assoc.wf_ext {α : Type} [DecidableEq α] (d : α) (m n : Assoc α) (hm : Assoc.wf d m = true) (hn : Assoc.wf d n = true)
    (h : ∀ k, Assoc.get d m k = Assoc.get d n k) : m = n := by
  induction m generalizing n with
  | nil =>
    cases n with
    | nil => rfl
    | cons y u =>
      obtain ⟨i, v⟩ := y
      obtain ⟨hv, -, -⟩ := (Assoc.wf_cons d i v u).1 hn
      exact absurd (by simpa [Assoc.get] using (h i).symm) hv
  | cons x t ih =>
    obtain ⟨j, w⟩ := x
    obtain ⟨hw, hlt, ht⟩ := (Assoc.wf_cons d j w t).1 hm
    cases n with
    | nil => exact absurd (by simpa [Assoc.get] using h j) hw
    | cons y u =>
      obtain ⟨i, v⟩ := y
      obtain ⟨hv, hlu, hu⟩ := (Assoc.wf_cons d i v u).1 hn
      have hji : j = i := by
        rcases Nat.lt_trichotomy j i with hlt' | heq | hgt
        · have := h j
          rw [Assoc.get_below d ((i, v) :: u) j] at this
          · exact absurd (by simpa [Assoc.get] using this) hw
          · intro e he
            rcases List.mem_cons.1 he with he | he
            · exact he ▸ hlt'
            · exact Nat.lt_trans hlt' (hlu e he)
        · exact heq
        · have := h i
          rw [Assoc.get_below d ((j, w) :: t) i] at this
          · exact absurd (by simpa [Assoc.get] using this.symm) hv
          · intro e he
            rcases List.mem_cons.1 he with he | he
            · exact he ▸ hgt
            · exact Nat.lt_trans hgt (hlt e he)
      subst hji
      have hwv : w = v := by simpa [Assoc.get] using h j
      subst hwv
      congr 1
      refine ih u ht hu fun k => ?_
      by_cases hk : j = k
      · subst hk
        rw [Assoc.get_below d t j hlt, Assoc.get_below d u j hlu]
      · simpa [Assoc.get, hk] using h k

/-! ### Memory -/

theorem Memory.wf_cons (j : Nat) (v : Byte) (t : Memory) :
    Memory.wf ((j, v) :: t) = true ↔ v ≠ Memory.unlisted j ∧ (∀ e ∈ t, j < e.1) ∧ Memory.wf t = true := by
  simp [Memory.wf, List.all_eq_true, and_assoc]

theorem Memory.wf_put (m : Memory) (k : Nat) (v : Byte) (hv : v ≠ Memory.unlisted k) (h : m.wf = true) :
    Memory.wf (Assoc.put m k v) = true := by
  induction m with
  | nil => simp [Assoc.put, Memory.wf, hv]
  | cons x t ih =>
    obtain ⟨j, w⟩ := x
    obtain ⟨hw, hlt, ht⟩ := (Memory.wf_cons j w t).1 h
    simp only [Assoc.put]
    split
    · rename_i hk
      refine (Memory.wf_cons k v _).2 ⟨hv, fun e he => ?_, h⟩
      rcases List.mem_cons.1 he with he | he
      · exact he ▸ hk
      · exact Nat.lt_trans hk (hlt e he)
    · split
      · rename_i hk
        exact (Memory.wf_cons k v t).2 ⟨hv, fun e he => hk ▸ hlt e he, ht⟩
      · refine (Memory.wf_cons j w _).2 ⟨hw, fun e he => ?_, ih ht⟩
        rcases Assoc.mem_put t k v e he with he | he
        · subst he
          show j < k
          omega
        · exact hlt e he

/-- Entries taken out of a canonical memory leave one. -/
theorem Memory.wf_filter (m : Memory) (p : Nat × Byte → Bool) (h : m.wf = true) : Memory.wf (m.filter p) = true := by
  induction m with
  | nil => rfl
  | cons x t ih =>
    obtain ⟨j, w⟩ := x
    obtain ⟨hw, hlt, ht⟩ := (Memory.wf_cons j w t).1 h
    rw [List.filter_cons]
    split
    · exact (Memory.wf_cons j w _).2 ⟨hw, fun e he => hlt e (List.mem_filter.1 he).1, ih ht⟩
    · exact ih ht

theorem Memory.wf_del (m : Memory) (k : Nat) (h : m.wf = true) : Memory.wf (Assoc.del m k) = true := by
  induction m with
  | nil => rfl
  | cons x t ih =>
    obtain ⟨j, w⟩ := x
    obtain ⟨hw, hlt, ht⟩ := (Memory.wf_cons j w t).1 h
    simp only [Assoc.del]
    split
    · exact ih ht
    · exact (Memory.wf_cons j w _).2 ⟨hw, fun e he => hlt e (Assoc.mem_del t k e he), ih ht⟩

theorem Memory.wf_write (m : Memory) (k : Nat) (b : Byte) (h : m.wf = true) : (Memory.write m k b).wf = true := by
  unfold Memory.write
  split
  · exact Memory.wf_del m k h
  · exact Memory.wf_put m k b ‹_› h

/-- A read after a write to memory. -/
@[simp] theorem Memory.read_write (m : Memory) (k j : Nat) (b : Byte) : (Memory.write m k b).read j = if j = k then b else m.read j := by
  unfold Memory.read Memory.write
  by_cases h : b = Memory.unlisted k <;> by_cases hj : j = k <;> simp_all

/-- A byte that no entry lists. -/
theorem Memory.read_absent (m : Memory) (k : Nat) (h : ∀ e ∈ m, e.1 ≠ k) : m.read k = Memory.unlisted k := by
  unfold Memory.read
  induction m with
  | nil => rfl
  | cons x t ih =>
    obtain ⟨j, w⟩ := x
    have hj : j ≠ k := h (j, w) List.mem_cons_self
    simpa [Assoc.find, hj] using ih fun e he => h e (List.mem_cons_of_mem _ he)

theorem Memory.read_head (j : Nat) (w : Byte) (t : Memory) : Memory.read ((j, w) :: t) j = w := by simp [Memory.read, Assoc.find]

theorem Memory.read_tail (j k : Nat) (w : Byte) (t : Memory) (h : j ≠ k) : Memory.read ((j, w) :: t) k = t.read k := by
  simp [Memory.read, Assoc.find, h]

/-- Two canonical memories that read alike are equal. -/
theorem Memory.ext (m n : Memory) (hm : m.wf = true) (hn : n.wf = true) (h : ∀ k, m.read k = n.read k) : m = n := by
  induction m generalizing n with
  | nil =>
    cases n with
    | nil => rfl
    | cons y u =>
      obtain ⟨i, v⟩ := y
      obtain ⟨hv, -, -⟩ := (Memory.wf_cons i v u).1 hn
      exact absurd ((h i).symm.trans (Memory.read_absent [] i (by simp))) (by rwa [Memory.read_head])
  | cons x t ih =>
    obtain ⟨j, w⟩ := x
    obtain ⟨hw, hlt, ht⟩ := (Memory.wf_cons j w t).1 hm
    cases n with
    | nil => exact absurd ((h j).trans (Memory.read_absent [] j (by simp))) (by rwa [Memory.read_head])
    | cons y u =>
      obtain ⟨i, v⟩ := y
      obtain ⟨hv, hlu, hu⟩ := (Memory.wf_cons i v u).1 hn
      have hji : j = i := by
        rcases Nat.lt_trichotomy j i with hlt' | heq | hgt
        · refine absurd ((h j).trans (Memory.read_absent _ j fun e he => ?_)) (by rwa [Memory.read_head])
          rcases List.mem_cons.1 he with he | he
          · subst he
            show i ≠ j
            omega
          · have := hlu e he
            omega
        · exact heq
        · refine absurd ((h i).symm.trans (Memory.read_absent _ i fun e he => ?_)) (by rwa [Memory.read_head])
          rcases List.mem_cons.1 he with he | he
          · subst he
            show j ≠ i
            omega
          · have := hlt e he
            omega
      subst hji
      have hwv : w = v := by simpa [Memory.read_head] using h j
      subst hwv
      congr 1
      refine ih u ht hu fun k => ?_
      by_cases hk : j = k
      · subst hk
        rw [Memory.read_absent t j fun e he => Nat.ne_of_gt (hlt e he), Memory.read_absent u j fun e he => Nat.ne_of_gt (hlu e he)]
      · simpa [Memory.read_tail j k w _ hk] using h k

theorem State.wf_poke (s : State) (k : Nat) (b : Byte) (h : Memory.wf s.mem = true) : Memory.wf (s.poke k b).mem = true :=
  Memory.wf_write s.mem k b h

theorem State.wf_pokes (cells : List (Nat × Byte)) : ∀ s : State, Memory.wf s.mem = true → Memory.wf (s.pokes cells).mem = true := by
  induction cells with
  | nil => exact fun _ h => h
  | cons e t ih => exact fun s h => ih (s.poke e.1 e.2) (s.wf_poke e.1 e.2 h)

theorem State.wf_pokeBytes (bs : List Byte) : ∀ (s : State) (k : Nat), Memory.wf s.mem = true → Memory.wf (s.pokeBytes k bs).mem = true := by
  induction bs with
  | nil => exact fun _ _ h => h
  | cons b t ih => exact fun s k h => ih (s.poke k b) (k + 1) (s.wf_poke k b h)

theorem State.wf_pokeNat (s : State) (k n x : Nat) (h : Memory.wf s.mem = true) : Memory.wf (s.pokeNat k n x).mem = true :=
  State.wf_pokeBytes _ s k h

@[simp] theorem State.markWrite_mem (s : State) (ks : List Nat) (p : Bool) : (s.markWrite ks p).mem = s.mem := rfl

@[simp] theorem State.setFull_mem (s : State) (k : Nat) (b : Bool) : (s.setFull k b).mem = s.mem := rfl

theorem State.wf_writeH (s : State) (cells : List (Nat × Byte)) (p : Bool) (h : Memory.wf s.mem = true) : Memory.wf (s.writeH cells p).mem = true :=
  State.wf_pokes cells s h

theorem State.wf_wipe (s : State) (lo n : Nat) (h : Memory.wf s.mem = true) : Memory.wf (s.wipe lo n).mem = true :=
  Memory.wf_filter s.mem _ h

theorem State.wf_copyKeys (s : State) (src dst n : Nat) (h : Memory.wf s.mem = true) : Memory.wf (s.copyKeys src dst n).mem = true :=
  State.wf_pokes _ (s.wipe dst n) (s.wf_wipe dst n h)

theorem State.wf_takeHost (s : State) (line : Nat) (h : Memory.wf s.mem = true) : Memory.wf (s.takeHost line).mem = true := by
  unfold State.takeHost
  split
  · exact State.wf_pokeBytes _ s _ h
  · exact h

theorem State.wf_flushHost (s : State) (line : Nat) (h : Memory.wf s.mem = true) : Memory.wf (s.flushHost line).mem = true :=
  State.wf_pokeBytes _ s _ h

theorem State.wf_homeWrite (s : State) (cells : List (Nat × Byte)) (p : Bool) (h : Memory.wf s.mem = true) :
    Memory.wf (s.homeWrite cells p).mem = true := by
  unfold State.homeWrite
  split
  · exact h
  · rename_i k b t
    simp only
    split
    · exact h
    · have := State.wf_writeH (s.takeHost (k / 64)) ((k, b) :: t) p (State.wf_takeHost s (k / 64) h)
      split <;> exact this

theorem State.wf_touchSlice (s : State) (c key : Nat) (keep : Bool) : (s.touchSlice c key keep).mem = s.mem := by
  unfold State.touchSlice
  split
  · simp only
    split
    · rfl
    · split <;> rfl
  · rfl

theorem State.reset_wf : Memory.wf State.reset.mem = true := rfl

/-! ### Reading back -/

/-- What a byte reads as after a list of bytes was written from a key on: the byte at its place, or what it was. -/
theorem State.peek_pokeBytes (bs : List Byte) : ∀ (s : State) (k j : Nat),
    (s.pokeBytes k bs).peek j = if k ≤ j ∧ j < k + bs.length then bs.getD (j - k) 0 else s.peek j := by
  induction bs with
  | nil =>
    intro s k j
    have h : ¬(k ≤ j ∧ j < k + ([] : List Byte).length) := by
      simp only [List.length_nil]
      omega
    rw [if_neg h]
    rfl
  | cons b t ih =>
    intro s k j
    rw [State.pokeBytes, ih]
    simp only [List.length_cons, State.peek_poke]
    by_cases h1 : j = k
    · subst h1
      rw [if_neg (by omega), if_pos rfl, if_pos (by omega)]
      simp
    · by_cases h2 : k + 1 ≤ j ∧ j < k + 1 + t.length
      · rw [if_pos h2, if_pos (by omega)]
        obtain ⟨i, hi⟩ : ∃ i, j - k = i + 1 := ⟨j - k - 1, by omega⟩
        rw [hi]
        have : j - (k + 1) = i := by omega
        simp [this]
      · rw [if_neg h2, if_neg h1, if_neg (by omega)]

end Sys2Proof.Machine
end

