-- ==== Sys2Proof/Laws/PerInstr.lean ====
section
/-! SUPPORT. Per instruction: the fields that the encoder writes decode to the instruction again. An event has no encoding. -/

namespace Sys2Proof.Laws.Fields

set_option Elab.async false

/-- Decoding the fields of an encoded well-formed instruction gives the instruction. -/
def Statement (i : Instr) : Prop := i.wellFormed = true → ∀ r, encode i = some r → decodeFields r = some i

theorem udf (d a b ty q imm) : Statement (.udf d a b ty q imm) := by
  intro _ r h; simp only [encode, Option.some.injEq] at h; subst h; simp [decodeFields, decodeSys]
theorem nop : Statement .nop := by
  intro _ r h; simp only [encode, Option.some.injEq] at h; subst h; simp [decodeFields, decodeSys]
theorem trap (imm) : Statement (.trap imm) := by
  intro _ r h; simp only [encode, Option.some.injEq] at h; subst h; simp [decodeFields, decodeSys]
theorem eretResume (a step1) : Statement (.eretResume a step1) := by
  cases step1 <;> (intro _ r h; simp only [encode, Option.some.injEq] at h; subst h; simp [decodeFields, decodeSys])
theorem eretSkip (a) : Statement (.eretSkip a) := by
  intro _ r h; simp only [encode, Option.some.injEq] at h; subst h; simp [decodeFields, decodeSys]
theorem eretForward (a) : Statement (.eretForward a) := by
  intro _ r h; simp only [encode, Option.some.injEq] at h; subst h; simp [decodeFields, decodeSys]
theorem eretEnd (a) : Statement (.eretEnd a) := by
  intro _ r h; simp only [encode, Option.some.injEq] at h; subst h; simp [decodeFields, decodeSys]
theorem sysr (d num) : Statement (.sysr d num) := by
  intro _ r h; simp only [encode, Option.some.injEq] at h; subst h; simp [decodeFields, decodeSys]
theorem sysw (num a) : Statement (.sysw num a) := by
  intro _ r h; simp only [encode, Option.some.injEq] at h; subst h; simp [decodeFields, decodeSys]
theorem sysset (d num a) : Statement (.sysset d num a) := by
  intro _ r h; simp only [encode, Option.some.injEq] at h; subst h; simp [decodeFields, decodeSys]
theorem sysclr (d num a) : Statement (.sysclr d num a) := by
  intro _ r h; simp only [encode, Option.some.injEq] at h; subst h; simp [decodeFields, decodeSys]
theorem chkerr : Statement .chkerr := by
  intro _ r h; simp only [encode, Option.some.injEq] at h; subst h; simp [decodeFields, decodeSys]
theorem idle (d a) : Statement (.idle d a) := by
  intro _ r h; simp only [encode, Option.some.injEq] at h; subst h; simp [decodeFields, decodeSys]
theorem tlbinv (a b dev) : Statement (.tlbinv a b dev) := by
  cases dev <;> (intro _ r h; simp only [encode, Option.some.injEq] at h; subst h; simp [decodeFields, decodeSys])
theorem pair (d) : Statement (.pair d) := by
  intro _ r h; simp only [encode, Option.some.injEq] at h; subst h; simp [decodeFields, decodeSys]
theorem unpair (d) : Statement (.unpair d) := by
  intro _ r h; simp only [encode, Option.some.injEq] at h; subst h; simp [decodeFields, decodeSys]
theorem haltx (a) : Statement (.haltx a) := by
  intro _ r h; simp only [encode, Option.some.injEq] at h; subst h; simp [decodeFields, decodeSys]
theorem resumex (a) : Statement (.resumex a) := by
  intro _ r h; simp only [encode, Option.some.injEq] at h; subst h; simp [decodeFields, decodeSys]
theorem stepx (d a) : Statement (.stepx d a) := by
  intro _ r h; simp only [encode, Option.some.injEq] at h; subst h; simp [decodeFields, decodeSys]
theorem rdcyc (d) : Statement (.rdcyc d) := by
  intro _ r h; simp only [encode, Option.some.injEq] at h; subst h; simp [decodeFields, decodeSys]
theorem add (ty d a b) : Statement (.add ty d a b) := by
  intro _ r h; simp only [encode, Option.some.injEq] at h; subst h; simp [decodeFields, decodeAlu]
theorem sub (ty d a b) : Statement (.sub ty d a b) := by
  intro _ r h; simp only [encode, Option.some.injEq] at h; subst h; simp [decodeFields, decodeAlu]
theorem mul (ty d a b) : Statement (.mul ty d a b) := by
  intro _ r h; simp only [encode, Option.some.injEq] at h; subst h; simp [decodeFields, decodeAlu]
theorem mulh (ty d a b) : Statement (.mulh ty d a b) := by
  intro _ r h; simp only [encode, Option.some.injEq] at h; subst h; simp [decodeFields, decodeAlu]
theorem div (ty d a b) : Statement (.div ty d a b) := by
  intro _ r h; simp only [encode, Option.some.injEq] at h; subst h; simp [decodeFields, decodeAlu]
theorem rem (ty d a b) : Statement (.rem ty d a b) := by
  intro _ r h; simp only [encode, Option.some.injEq] at h; subst h; simp [decodeFields, decodeAlu]
theorem and (ty d a b) : Statement (.and ty d a b) := by
  intro _ r h; simp only [encode, Option.some.injEq] at h; subst h; simp [decodeFields, decodeAlu]
theorem or (ty d a b) : Statement (.or ty d a b) := by
  intro _ r h; simp only [encode, Option.some.injEq] at h; subst h; simp [decodeFields, decodeAlu]
theorem xor (ty d a b) : Statement (.xor ty d a b) := by
  intro _ r h; simp only [encode, Option.some.injEq] at h; subst h; simp [decodeFields, decodeAlu]
theorem andn (ty d a b) : Statement (.andn ty d a b) := by
  intro _ r h; simp only [encode, Option.some.injEq] at h; subst h; simp [decodeFields, decodeAlu]
theorem shl (ty d a b) : Statement (.shl ty d a b) := by
  intro _ r h; simp only [encode, Option.some.injEq] at h; subst h; simp [decodeFields, decodeAlu]
theorem shr (ty d a b) : Statement (.shr ty d a b) := by
  intro _ r h; simp only [encode, Option.some.injEq] at h; subst h; simp [decodeFields, decodeAlu]
theorem sar (ty d a b) : Statement (.sar ty d a b) := by
  intro _ r h; simp only [encode, Option.some.injEq] at h; subst h; simp [decodeFields, decodeAlu]
theorem rol (ty d a b) : Statement (.rol ty d a b) := by
  intro _ r h; simp only [encode, Option.some.injEq] at h; subst h; simp [decodeFields, decodeAlu]
theorem min (ty d a b) : Statement (.min ty d a b) := by
  intro _ r h; simp only [encode, Option.some.injEq] at h; subst h; simp [decodeFields, decodeAlu]
theorem max (ty d a b) : Statement (.max ty d a b) := by
  intro _ r h; simp only [encode, Option.some.injEq] at h; subst h; simp [decodeFields, decodeAlu]
theorem clz (ty d a) : Statement (.clz ty d a) := by
  intro _ r h; simp only [encode, Option.some.injEq] at h; subst h; simp [decodeFields, decodeAlu]
theorem ctz (ty d a) : Statement (.ctz ty d a) := by
  intro _ r h; simp only [encode, Option.some.injEq] at h; subst h; simp [decodeFields, decodeAlu]
theorem popc (ty d a) : Statement (.popc ty d a) := by
  intro _ r h; simp only [encode, Option.some.injEq] at h; subst h; simp [decodeFields, decodeAlu]
theorem ext (ty d a b c) : Statement (.ext ty d a b c) := by
  intro _ r h; simp only [encode, Option.some.injEq] at h; subst h; simp [decodeFields, decodeAlu]
theorem sel (ty d a b c) : Statement (.sel ty d a b c) := by
  intro _ r h; simp only [encode, Option.some.injEq] at h; subst h; simp [decodeFields, decodeAlu]
theorem slt (ty d a b) : Statement (.slt ty d a b) := by
  intro _ r h; simp only [encode, Option.some.injEq] at h; subst h; simp [decodeFields, decodeAlu]
theorem seq (ty d a b) : Statement (.seq ty d a b) := by
  intro _ r h; simp only [encode, Option.some.injEq] at h; subst h; simp [decodeFields, decodeAlu]
theorem sne (ty d a b) : Statement (.sne ty d a b) := by
  intro _ r h; simp only [encode, Option.some.injEq] at h; subst h; simp [decodeFields, decodeAlu]
theorem mov (ty d a) : Statement (.mov ty d a) := by
  intro _ r h; simp only [encode, Option.some.injEq] at h; subst h; simp [decodeFields, decodeAlu]
theorem aluiAdd (ty d a imm) : Statement (.aluiAdd ty d a imm) := by
  intro _ r h; simp only [encode, Option.some.injEq] at h; subst h; simp [decodeFields, decodeAlui]
theorem aluiAnd (ty d a imm) : Statement (.aluiAnd ty d a imm) := by
  intro _ r h; simp only [encode, Option.some.injEq] at h; subst h; simp [decodeFields, decodeAlui]
theorem aluiOr (ty d a imm) : Statement (.aluiOr ty d a imm) := by
  intro _ r h; simp only [encode, Option.some.injEq] at h; subst h; simp [decodeFields, decodeAlui]
theorem aluiXor (ty d a imm) : Statement (.aluiXor ty d a imm) := by
  intro _ r h; simp only [encode, Option.some.injEq] at h; subst h; simp [decodeFields, decodeAlui]
theorem aluiShl (ty d a imm) : Statement (.aluiShl ty d a imm) := by
  intro _ r h; simp only [encode, Option.some.injEq] at h; subst h; simp [decodeFields, decodeAlui]
theorem aluiShr (ty d a imm) : Statement (.aluiShr ty d a imm) := by
  intro _ r h; simp only [encode, Option.some.injEq] at h; subst h; simp [decodeFields, decodeAlui]
theorem aluiSar (ty d a imm) : Statement (.aluiSar ty d a imm) := by
  intro _ r h; simp only [encode, Option.some.injEq] at h; subst h; simp [decodeFields, decodeAlui]
theorem aluiRol (ty d a imm) : Statement (.aluiRol ty d a imm) := by
  intro _ r h; simp only [encode, Option.some.injEq] at h; subst h; simp [decodeFields, decodeAlui]
theorem aluiMin (ty d a imm) : Statement (.aluiMin ty d a imm) := by
  intro _ r h; simp only [encode, Option.some.injEq] at h; subst h; simp [decodeFields, decodeAlui]
theorem aluiMax (ty d a imm) : Statement (.aluiMax ty d a imm) := by
  intro _ r h; simp only [encode, Option.some.injEq] at h; subst h; simp [decodeFields, decodeAlui]
theorem aluiSlt (ty d a imm) : Statement (.aluiSlt ty d a imm) := by
  intro _ r h; simp only [encode, Option.some.injEq] at h; subst h; simp [decodeFields, decodeAlui]
theorem aluiSeq (ty d a imm) : Statement (.aluiSeq ty d a imm) := by
  intro _ r h; simp only [encode, Option.some.injEq] at h; subst h; simp [decodeFields, decodeAlui]
theorem aluiSne (ty d a imm) : Statement (.aluiSne ty d a imm) := by
  intro _ r h; simp only [encode, Option.some.injEq] at h; subst h; simp [decodeFields, decodeAlui]
theorem li (ty d imm) : Statement (.li ty d imm) := by
  intro _ r h; simp only [encode, Option.some.injEq] at h; subst h; simp [decodeFields, decodeAlui]
theorem addl (ty d a imm) : Statement (.addl ty d a imm) := by
  intro _ r h; simp only [encode, Option.some.injEq] at h; subst h; simp [decodeFields, decodeAlul]
theorem lil (ty d imm) : Statement (.lil ty d imm) := by
  intro _ r h; simp only [encode, Option.some.injEq] at h; subst h; simp [decodeFields, decodeAlul]
theorem lih (d a imm) : Statement (.lih d a imm) := by
  intro _ r h; simp only [encode, Option.some.injEq] at h; subst h; simp [decodeFields, decodeAlul]
theorem andl (ty d a imm) : Statement (.andl ty d a imm) := by
  intro _ r h; simp only [encode, Option.some.injEq] at h; subst h; simp [decodeFields, decodeAlul]
theorem orl (ty d a imm) : Statement (.orl ty d a imm) := by
  intro _ r h; simp only [encode, Option.some.injEq] at h; subst h; simp [decodeFields, decodeAlul]
theorem xorl (ty d a imm) : Statement (.xorl ty d a imm) := by
  intro _ r h; simp only [encode, Option.some.injEq] at h; subst h; simp [decodeFields, decodeAlul]
theorem padd (d a b) : Statement (.padd d a b) := by
  intro _ r h; simp only [encode, Option.some.injEq] at h; subst h; simp [decodeFields, decodeAdr]
theorem paddi (d a imm) : Statement (.paddi d a imm) := by
  intro _ r h; simp only [encode, Option.some.injEq] at h; subst h; simp [decodeFields, decodeAdr]
theorem paddl (d a imm) : Statement (.paddl d a imm) := by
  intro _ r h; simp only [encode, Option.some.injEq] at h; subst h; simp [decodeFields, decodeAdr]
theorem psub (d a b) : Statement (.psub d a b) := by
  intro _ r h; simp only [encode, Option.some.injEq] at h; subst h; simp [decodeFields, decodeAdr]
theorem plea (d b off) : Statement (.plea d b off) := by
  intro _ r h; simp only [encode, Option.some.injEq] at h; subst h; simp [decodeFields, decodeAdr]
theorem pmov (d fromG a) : Statement (.pmov d fromG a) := by
  intro hw r h; simp only [encode, Option.some.injEq] at h; subst h
  have hw : fromG = true ∨ a.toNat < 16 := by simpa [Instr.wellFormed] using hw
  simp [decodeFields, decodeAdr, gpReg?_gpEnc _ _ hw]
theorem plo (d a) : Statement (.plo d a) := by
  intro _ r h; simp only [encode, Option.some.injEq] at h; subst h; simp [decodeFields, decodeAdr]
theorem phi (d a) : Statement (.phi d a) := by
  intro _ r h; simp only [encode, Option.some.injEq] at h; subst h; simp [decodeFields, decodeAdr]
theorem ploc (d hi lo) : Statement (.ploc d hi lo) := by
  intro _ r h; simp only [encode, Option.some.injEq] at h; subst h; simp [decodeFields, decodeAdr]
theorem pcmp (cond d a b) : Statement (.pcmp cond d a b) := by
  intro _ r h; simp only [encode, Option.some.injEq] at h; subst h; simp [decodeFields, decodeAdr]
theorem fadd (ty q d a b) : Statement (.fadd ty q d a b) := by
  intro _ r h; simp only [encode, Option.some.injEq] at h; subst h; simp [decodeFields, decodeFpu]
theorem fsub (ty q d a b) : Statement (.fsub ty q d a b) := by
  intro _ r h; simp only [encode, Option.some.injEq] at h; subst h; simp [decodeFields, decodeFpu]
theorem fmul (ty q d a b) : Statement (.fmul ty q d a b) := by
  intro _ r h; simp only [encode, Option.some.injEq] at h; subst h; simp [decodeFields, decodeFpu]
theorem fma (ty q d a b c) : Statement (.fma ty q d a b c) := by
  intro _ r h; simp only [encode, Option.some.injEq] at h; subst h; simp [decodeFields, decodeFpu]
theorem fnma (ty q d a b c) : Statement (.fnma ty q d a b c) := by
  intro _ r h; simp only [encode, Option.some.injEq] at h; subst h; simp [decodeFields, decodeFpu]
theorem fdiv (ty q d a b) : Statement (.fdiv ty q d a b) := by
  intro _ r h; simp only [encode, Option.some.injEq] at h; subst h; simp [decodeFields, decodeFpu]
theorem fsqrt (ty q d a) : Statement (.fsqrt ty q d a) := by
  intro _ r h; simp only [encode, Option.some.injEq] at h; subst h; simp [decodeFields, decodeFpu]
theorem fmin (ty d a b) : Statement (.fmin ty d a b) := by
  intro _ r h; simp only [encode, Option.some.injEq] at h; subst h; simp [decodeFields, decodeFpu]
theorem fmax (ty d a b) : Statement (.fmax ty d a b) := by
  intro _ r h; simp only [encode, Option.some.injEq] at h; subst h; simp [decodeFields, decodeFpu]
theorem fabs (ty d a) : Statement (.fabs ty d a) := by
  intro _ r h; simp only [encode, Option.some.injEq] at h; subst h; simp [decodeFields, decodeFpu]
theorem fneg (ty d a) : Statement (.fneg ty d a) := by
  intro _ r h; simp only [encode, Option.some.injEq] at h; subst h; simp [decodeFields, decodeFpu]
theorem fcmp (ty cond d a b) : Statement (.fcmp ty cond d a b) := by
  intro _ r h; simp only [encode, Option.some.injEq] at h; subst h; simp [decodeFields, decodeFpu]
theorem fcvt (dty sty q d a) : Statement (.fcvt dty sty q d a) := by
  intro _ r h; simp only [encode, Option.some.injEq] at h; subst h; simp [decodeFields, decodeFpu]
theorem fclass (ty d a) : Statement (.fclass ty d a) := by
  intro _ r h; simp only [encode, Option.some.injEq] at h; subst h; simp [decodeFields, decodeFpu]
theorem fmovi (ty d lit) : Statement (.fmovi ty d lit) := by
  intro _ r h; simp only [encode, Option.some.injEq] at h; subst h; simp [decodeFields, decodeFpu]
theorem fsgn (ty d a b) : Statement (.fsgn ty d a b) := by
  intro _ r h; simp only [encode, Option.some.injEq] at h; subst h; simp [decodeFields, decodeFpu]
theorem beq (ty h a b imm) : Statement (.beq ty h a b imm) := by
  intro _ r h; simp only [encode, Option.some.injEq] at h; subst h; simp [decodeFields, decodeBr]
theorem bne (ty h a b imm) : Statement (.bne ty h a b imm) := by
  intro _ r h; simp only [encode, Option.some.injEq] at h; subst h; simp [decodeFields, decodeBr]
theorem blt (ty h a b imm) : Statement (.blt ty h a b imm) := by
  intro _ r h; simp only [encode, Option.some.injEq] at h; subst h; simp [decodeFields, decodeBr]
theorem bge (ty h a b imm) : Statement (.bge ty h a b imm) := by
  intro _ r h; simp only [encode, Option.some.injEq] at h; subst h; simp [decodeFields, decodeBr]
theorem bz (ty h a imm) : Statement (.bz ty h a imm) := by
  intro _ r h; simp only [encode, Option.some.injEq] at h; subst h; simp [decodeFields, decodeBr]
theorem bnz (ty h a imm) : Statement (.bnz ty h a imm) := by
  intro _ r h; simp only [encode, Option.some.injEq] at h; subst h; simp [decodeFields, decodeBr]
theorem bbs (h a n imm) : Statement (.bbs h a n imm) := by
  intro _ r h; simp only [encode, Option.some.injEq] at h; subst h; simp [decodeFields, decodeBr]
theorem bbc (h a n imm) : Statement (.bbc h a n imm) := by
  intro _ r h; simp only [encode, Option.some.injEq] at h; subst h; simp [decodeFields, decodeBr]
theorem j (imm) : Statement (.j imm) := by
  intro _ r h; simp only [encode, Option.some.injEq] at h; subst h; simp [decodeFields, decodeJmp]
theorem jl (imm) : Statement (.jl imm) := by
  intro _ r h; simp only [encode, Option.some.injEq] at h; subst h; simp [decodeFields, decodeJmp]
theorem jr (a) : Statement (.jr a) := by
  intro _ r h; simp only [encode, Option.some.injEq] at h; subst h; simp [decodeFields, decodeJmp]
theorem call (imm) : Statement (.call imm) := by
  intro _ r h; simp only [encode, Option.some.injEq] at h; subst h; simp [decodeFields, decodeJmp]
theorem callr (a) : Statement (.callr a) := by
  intro _ r h; simp only [encode, Option.some.injEq] at h; subst h; simp [decodeFields, decodeJmp]
theorem ret : Statement .ret := by
  intro _ r h; simp only [encode, Option.some.injEq] at h; subst h; simp [decodeFields, decodeJmp]
theorem loop (a imm) : Statement (.loop a imm) := by
  intro _ r h; simp only [encode, Option.some.injEq] at h; subst h; simp [decodeFields, decodeJmp]
theorem loopi (count imm) : Statement (.loopi count imm) := by
  intro _ r h; simp only [encode, Option.some.injEq] at h; subst h; simp [decodeFields, decodeJmp]
theorem lexit : Statement .lexit := by
  intro _ r h; simp only [encode, Option.some.injEq] at h; subst h; simp [decodeFields, decodeJmp]
theorem ld (ty m d b off) : Statement (.ld ty m d b off) := by
  intro _ r h; simp only [encode, Option.some.injEq] at h; subst h; simp [decodeFields, decodeLd]
theorem ldp (m d b off) : Statement (.ldp m d b off) := by
  intro _ r h; simp only [encode, Option.some.injEq] at h; subst h; simp [decodeFields, decodeLd]
theorem ldq8 (m d b off) : Statement (.ldq8 m d b off) := by
  intro _ r h; simp only [encode, Option.some.injEq] at h; subst h; simp [decodeFields, decodeLd]
theorem ldw (m d b off) : Statement (.ldw m d b off) := by
  intro _ r h; simp only [encode, Option.some.injEq] at h; subst h; simp [decodeFields, decodeLd]
theorem ldt (ty d b off) : Statement (.ldt ty d b off) := by
  intro _ r h; simp only [encode, Option.some.injEq] at h; subst h; simp [decodeFields, decodeLd]
theorem st (ty m b off a) : Statement (.st ty m b off a) := by
  intro _ r h; simp only [encode, Option.some.injEq] at h; subst h; simp [decodeFields, decodeSt]
theorem stp (m b off a) : Statement (.stp m b off a) := by
  intro _ r h; simp only [encode, Option.some.injEq] at h; subst h; simp [decodeFields, decodeSt]
theorem stq8 (m b off a) : Statement (.stq8 m b off a) := by
  intro _ r h; simp only [encode, Option.some.injEq] at h; subst h; simp [decodeFields, decodeSt]
theorem stf (m b off a) : Statement (.stf m b off a) := by
  intro _ r h; simp only [encode, Option.some.injEq] at h; subst h; simp [decodeFields, decodeSt]
theorem aadd (ty o sc d b off a) : Statement (.aadd ty o sc d b off a) := by
  intro _ r h; simp only [encode, Option.some.injEq] at h; subst h; simp [decodeFields, decodeAmo]
theorem aand (ty o sc d b off a) : Statement (.aand ty o sc d b off a) := by
  intro _ r h; simp only [encode, Option.some.injEq] at h; subst h; simp [decodeFields, decodeAmo]
theorem aor (ty o sc d b off a) : Statement (.aor ty o sc d b off a) := by
  intro _ r h; simp only [encode, Option.some.injEq] at h; subst h; simp [decodeFields, decodeAmo]
theorem axor (ty o sc d b off a) : Statement (.axor ty o sc d b off a) := by
  intro _ r h; simp only [encode, Option.some.injEq] at h; subst h; simp [decodeFields, decodeAmo]
theorem amin (ty o sc d b off a) : Statement (.amin ty o sc d b off a) := by
  intro _ r h; simp only [encode, Option.some.injEq] at h; subst h; simp [decodeFields, decodeAmo]
theorem amax (ty o sc d b off a) : Statement (.amax ty o sc d b off a) := by
  intro _ r h; simp only [encode, Option.some.injEq] at h; subst h; simp [decodeFields, decodeAmo]
theorem aswp (ty o sc d b off a) : Statement (.aswp ty o sc d b off a) := by
  intro _ r h; simp only [encode, Option.some.injEq] at h; subst h; simp [decodeFields, decodeAmo]
theorem acas (ty o sc d b off a) : Statement (.acas ty o sc d b off a) := by
  intro _ r h; simp only [encode, Option.some.injEq] at h; subst h; simp [decodeFields, decodeAmo]
theorem aacc (o sc b off a) : Statement (.aacc o sc b off a) := by
  intro _ r h; simp only [encode, Option.some.injEq] at h; subst h; simp [decodeFields, decodeAmo]
theorem fence (sc) : Statement (.fence sc) := by
  intro _ r h; simp only [encode, Option.some.injEq] at h; subst h; simp [decodeFields, decodeSync]
theorem bind (sc b off a d) : Statement (.bind sc b off a d) := by
  intro _ r h; simp only [encode, Option.some.injEq] at h; subst h; simp [decodeFields, decodeSync]
theorem unbind (sc b off) : Statement (.unbind sc b off) := by
  intro _ r h; simp only [encode, Option.some.injEq] at h; subst h; simp [decodeFields, decodeSync]
theorem acq (sc b off) : Statement (.acq sc b off) := by
  intro _ r h; simp only [encode, Option.some.injEq] at h; subst h; simp [decodeFields, decodeSync]
theorem rel (sc b off) : Statement (.rel sc b off) := by
  intro _ r h; simp only [encode, Option.some.injEq] at h; subst h; simp [decodeFields, decodeSync]
theorem send (d a obj entry) : Statement (.send d a obj entry) := by
  intro _ r h; simp only [encode, Option.some.injEq] at h; subst h; simp [decodeFields, decodeMsg]
theorem sendc (d a obj c len) : Statement (.sendc d a obj c len) := by
  intro _ r h; simp only [encode, Option.some.injEq] at h; subst h; simp [decodeFields, decodeMsg]
theorem reply (d a obj code) : Statement (.reply d a obj code) := by
  intro _ r h; simp only [encode, Option.some.injEq] at h; subst h; simp [decodeFields, decodeMsg]
theorem start (d a b c) : Statement (.start d a b c) := by
  intro _ r h; simp only [encode, Option.some.injEq] at h; subst h; simp [decodeFields, decodeMsg]
theorem halt : Statement .halt := by
  intro _ r h; simp only [encode, Option.some.injEq] at h; subst h; simp [decodeFields, decodeMsg]
theorem wget : Statement .wget := by
  intro _ r h; simp only [encode, Option.some.injEq] at h; subst h; simp [decodeFields, decodeMsg]
theorem qarm : Statement .qarm := by
  intro _ r h; simp only [encode, Option.some.injEq] at h; subst h; simp [decodeFields, decodeMsg]
theorem tend : Statement .tend := by
  intro _ r h; simp only [encode, Option.some.injEq] at h; subst h; simp [decodeFields, decodeTask]
theorem tnext (d) : Statement (.tnext d) := by
  intro _ r h; simp only [encode, Option.some.injEq] at h; subst h; simp [decodeFields, decodeTask]
theorem tspawn (a b) : Statement (.tspawn a b) := by
  intro _ r h; simp only [encode, Option.some.injEq] at h; subst h; simp [decodeFields, decodeTask]
theorem bread (d a b c bentry centry stride) : Statement (.bread d a b c bentry centry stride) := by
  intro _ r h; simp only [encode, Option.some.injEq] at h; subst h; simp [decodeFields, decodeBulk]
  all_goals (repeat' apply And.intro)
  all_goals (repeat (first | rw [ext_high _ _ _ _ (by decide)] | rw [ext_low _ _ _ _ (by decide)]))
  all_goals first | rfl | exact ext_all _ | (rw [ext_all]; exact ofBool_eq_one _)
theorem copy (pub a b c d rowb rows sstr) : Statement (.copy pub a b c d rowb rows sstr) := by
  intro _ r h; simp only [encode, Option.some.injEq] at h; subst h; simp [decodeFields, decodeBulk]
  all_goals (repeat' apply And.intro)
  all_goals (repeat (first | rw [ext_high _ _ _ _ (by decide)] | rw [ext_low _ _ _ _ (by decide)]))
  all_goals first | rfl | exact ext_all _ | (rw [ext_all]; exact ofBool_eq_one _)
theorem copym (a b c d lx ly esz dir) : Statement (.copym a b c d lx ly esz dir) := by
  intro _ r h; simp only [encode, Option.some.injEq] at h; subst h; simp [decodeFields, decodeBulk]
  all_goals (repeat' apply And.intro)
  all_goals (repeat (first | rw [ext_high _ _ _ _ (by decide)] | rw [ext_low _ _ _ _ (by decide)]))
  all_goals first | rfl | exact ext_all _ | (rw [ext_all]; exact ofBool_eq_one _)
theorem binit (b off a) : Statement (.binit b off a) := by
  intro _ r h; simp only [encode, Option.some.injEq] at h; subst h; simp [decodeFields, decodeBar]
theorem bexp (b off a) : Statement (.bexp b off a) := by
  intro _ r h; simp only [encode, Option.some.injEq] at h; subst h; simp [decodeFields, decodeBar]
theorem barr (d b off) : Statement (.barr d b off) := by
  intro _ r h; simp only [encode, Option.some.injEq] at h; subst h; simp [decodeFields, decodeBar]
theorem bwait (b off a) : Statement (.bwait b off a) := by
  intro _ r h; simp only [encode, Option.some.injEq] at h; subst h; simp [decodeFields, decodeBar]
theorem btest (d b off a) : Statement (.btest d b off a) := by
  intro _ r h; simp only [encode, Option.some.injEq] at h; subst h; simp [decodeFields, decodeBar]
theorem qinit (a b) : Statement (.qinit a b) := by
  intro _ r h; simp only [encode, Option.some.injEq] at h; subst h; simp [decodeFields, decodePipe]
theorem qpush (a b) : Statement (.qpush a b) := by
  intro _ r h; simp only [encode, Option.some.injEq] at h; subst h; simp [decodeFields, decodePipe]
theorem qpop (d a) : Statement (.qpop d a) := by
  intro _ r h; simp only [encode, Option.some.injEq] at h; subst h; simp [decodeFields, decodePipe]
theorem qavail (d a) : Statement (.qavail d a) := by
  intro _ r h; simp only [encode, Option.some.injEq] at h; subst h; simp [decodeFields, decodePipe]
theorem rot (a b n) : Statement (.rot a b n) := by
  intro _ r h; simp only [encode, Option.some.injEq] at h; subst h; simp [decodeFields, decodePipe]
  all_goals (repeat' apply And.intro)
  all_goals (repeat (first | rw [ext_high _ _ _ _ (by decide)] | rw [ext_low _ _ _ _ (by decide)]))
  all_goals first | rfl | exact ext_all _ | (rw [ext_all]; exact ofBool_eq_one _)
theorem aopen (d b rows) : Statement (.aopen d b rows) := by
  intro _ r h; simp only [encode, Option.some.injEq] at h; subst h; simp [decodeFields, decodeAcn]
  all_goals (repeat' apply And.intro)
  all_goals (repeat (first | rw [ext_high _ _ _ _ (by decide)] | rw [ext_low _ _ _ _ (by decide)]))
  all_goals first | rfl | exact ext_all _ | (rw [ext_all]; exact ofBool_eq_one _)
theorem asend (a b c r0 r1) : Statement (.asend a b c r0 r1) := by
  intro _ r h; simp only [encode, Option.some.injEq] at h; subst h; simp [decodeFields, decodeAcn]
  all_goals (repeat' apply And.intro)
  all_goals (repeat (first | rw [ext_high _ _ _ _ (by decide)] | rw [ext_low _ _ _ _ (by decide)]))
  all_goals first | rfl | exact ext_all _ | (rw [ext_all]; exact ofBool_eq_one _)
theorem aclose (d) : Statement (.aclose d) := by
  intro _ r h; simp only [encode, Option.some.injEq] at h; subst h; simp [decodeFields, decodeAcn]
theorem vadd (ty q d a b k) : Statement (.vadd ty q d a b k) := by
  intro _ r h; simp only [encode, Option.some.injEq] at h; subst h; simp [decodeFields, decodeValu]
theorem vsub (ty q d a b k) : Statement (.vsub ty q d a b k) := by
  intro _ r h; simp only [encode, Option.some.injEq] at h; subst h; simp [decodeFields, decodeValu]
theorem vmul (ty q d a b k) : Statement (.vmul ty q d a b k) := by
  intro _ r h; simp only [encode, Option.some.injEq] at h; subst h; simp [decodeFields, decodeValu]
theorem vfma (ty q d a b c k) : Statement (.vfma ty q d a b c k) := by
  intro _ r h; simp only [encode, Option.some.injEq] at h; subst h; simp [decodeFields, decodeValu]
theorem vfnma (ty q d a b c k) : Statement (.vfnma ty q d a b c k) := by
  intro _ r h; simp only [encode, Option.some.injEq] at h; subst h; simp [decodeFields, decodeValu]
theorem vmin (ty d a b k) : Statement (.vmin ty d a b k) := by
  intro _ r h; simp only [encode, Option.some.injEq] at h; subst h; simp [decodeFields, decodeValu]
theorem vmax (ty d a b k) : Statement (.vmax ty d a b k) := by
  intro _ r h; simp only [encode, Option.some.injEq] at h; subst h; simp [decodeFields, decodeValu]
theorem vabs (ty d a k) : Statement (.vabs ty d a k) := by
  intro _ r h; simp only [encode, Option.some.injEq] at h; subst h; simp [decodeFields, decodeValu]
theorem vneg (ty d a k) : Statement (.vneg ty d a k) := by
  intro _ r h; simp only [encode, Option.some.injEq] at h; subst h; simp [decodeFields, decodeValu]
theorem vand (ty d a b k) : Statement (.vand ty d a b k) := by
  intro _ r h; simp only [encode, Option.some.injEq] at h; subst h; simp [decodeFields, decodeValu]
theorem vor (ty d a b k) : Statement (.vor ty d a b k) := by
  intro _ r h; simp only [encode, Option.some.injEq] at h; subst h; simp [decodeFields, decodeValu]
theorem vxor (ty d a b k) : Statement (.vxor ty d a b k) := by
  intro _ r h; simp only [encode, Option.some.injEq] at h; subst h; simp [decodeFields, decodeValu]
theorem vshl (ty d a b k) : Statement (.vshl ty d a b k) := by
  intro _ r h; simp only [encode, Option.some.injEq] at h; subst h; simp [decodeFields, decodeValu]
theorem vshr (ty d a b k) : Statement (.vshr ty d a b k) := by
  intro _ r h; simp only [encode, Option.some.injEq] at h; subst h; simp [decodeFields, decodeValu]
theorem vsar (ty d a b k) : Statement (.vsar ty d a b k) := by
  intro _ r h; simp only [encode, Option.some.injEq] at h; subst h; simp [decodeFields, decodeValu]
theorem vmov (d a k) : Statement (.vmov d a k) := by
  intro _ r h; simp only [encode, Option.some.injEq] at h; subst h; simp [decodeFields, decodeValu]
theorem vbcast (ty d a k) : Statement (.vbcast ty d a k) := by
  intro _ r h; simp only [encode, Option.some.injEq] at h; subst h; simp [decodeFields, decodeValu]
theorem vsel (ty d a b k) : Statement (.vsel ty d a b k) := by
  intro _ r h; simp only [encode, Option.some.injEq] at h; subst h; simp [decodeFields, decodeValu]
theorem vidx (ty d a k) : Statement (.vidx ty d a k) := by
  intro _ r h; simp only [encode, Option.some.injEq] at h; subst h; simp [decodeFields, decodeValu]
theorem vdiv (ty q d a b k) : Statement (.vdiv ty q d a b k) := by
  intro _ r h; simp only [encode, Option.some.injEq] at h; subst h; simp [decodeFields, decodeValu]
theorem vclamp (ty d a b c k) : Statement (.vclamp ty d a b c k) := by
  intro _ r h; simp only [encode, Option.some.injEq] at h; subst h; simp [decodeFields, decodeValu]
theorem vcmp (ty cond d a b k) : Statement (.vcmp ty cond d a b k) := by
  intro _ r h; simp only [encode, Option.some.injEq] at h; subst h; simp [decodeFields, decodeVmask]
theorem kand (d a b) : Statement (.kand d a b) := by
  intro _ r h; simp only [encode, Option.some.injEq] at h; subst h; simp [decodeFields, decodeVmask]
theorem kor (d a b) : Statement (.kor d a b) := by
  intro _ r h; simp only [encode, Option.some.injEq] at h; subst h; simp [decodeFields, decodeVmask]
theorem kxor (d a b) : Statement (.kxor d a b) := by
  intro _ r h; simp only [encode, Option.some.injEq] at h; subst h; simp [decodeFields, decodeVmask]
theorem knot (d a) : Statement (.knot d a) := by
  intro _ r h; simp only [encode, Option.some.injEq] at h; subst h; simp [decodeFields, decodeVmask]
theorem kpop (d a) : Statement (.kpop d a) := by
  intro _ r h; simp only [encode, Option.some.injEq] at h; subst h; simp [decodeFields, decodeVmask]
theorem kset (d a b) : Statement (.kset d a b) := by
  intro _ r h; simp only [encode, Option.some.injEq] at h; subst h; simp [decodeFields, decodeVmask]
theorem kget (d a b) : Statement (.kget d a b) := by
  intro _ r h; simp only [encode, Option.some.injEq] at h; subst h; simp [decodeFields, decodeVmask]
theorem vexp2 (ty q d a k) : Statement (.vexp2 ty q d a k) := by
  intro _ r h; simp only [encode, Option.some.injEq] at h; subst h; simp [decodeFields, decodeVsf]
theorem vlog2 (ty q d a k) : Statement (.vlog2 ty q d a k) := by
  intro _ r h; simp only [encode, Option.some.injEq] at h; subst h; simp [decodeFields, decodeVsf]
theorem vrcp (ty q d a k) : Statement (.vrcp ty q d a k) := by
  intro _ r h; simp only [encode, Option.some.injEq] at h; subst h; simp [decodeFields, decodeVsf]
theorem vrsqrt (ty q d a k) : Statement (.vrsqrt ty q d a k) := by
  intro _ r h; simp only [encode, Option.some.injEq] at h; subst h; simp [decodeFields, decodeVsf]
theorem vsqrt (ty q d a k) : Statement (.vsqrt ty q d a k) := by
  intro _ r h; simp only [encode, Option.some.injEq] at h; subst h; simp [decodeFields, decodeVsf]
theorem vsinpi (ty q d a k) : Statement (.vsinpi ty q d a k) := by
  intro _ r h; simp only [encode, Option.some.injEq] at h; subst h; simp [decodeFields, decodeVsf]
theorem vcospi (ty q d a k) : Statement (.vcospi ty q d a k) := by
  intro _ r h; simp only [encode, Option.some.injEq] at h; subst h; simp [decodeFields, decodeVsf]
theorem vtanh (ty q d a k) : Statement (.vtanh ty q d a k) := by
  intro _ r h; simp only [encode, Option.some.injEq] at h; subst h; simp [decodeFields, decodeVsf]
theorem vsigm (ty q d a k) : Statement (.vsigm ty q d a k) := by
  intro _ r h; simp only [encode, Option.some.injEq] at h; subst h; simp [decodeFields, decodeVsf]
theorem verf (ty q d a k) : Statement (.verf ty q d a k) := by
  intro _ r h; simp only [encode, Option.some.injEq] at h; subst h; simp [decodeFields, decodeVsf]
theorem vrsum (ty q d a k) : Statement (.vrsum ty q d a k) := by
  intro _ r h; simp only [encode, Option.some.injEq] at h; subst h; simp [decodeFields, decodeVperm]
theorem vrmax (ty d a k) : Statement (.vrmax ty d a k) := by
  intro _ r h; simp only [encode, Option.some.injEq] at h; subst h; simp [decodeFields, decodeVperm]
theorem vrmin (ty d a k) : Statement (.vrmin ty d a k) := by
  intro _ r h; simp only [encode, Option.some.injEq] at h; subst h; simp [decodeFields, decodeVperm]
theorem vperm (ty d a b k) : Statement (.vperm ty d a b k) := by
  intro _ r h; simp only [encode, Option.some.injEq] at h; subst h; simp [decodeFields, decodeVperm]
theorem vrotl (ty d a b k) : Statement (.vrotl ty d a b k) := by
  intro _ r h; simp only [encode, Option.some.injEq] at h; subst h; simp [decodeFields, decodeVperm]
theorem vzip (ty h d a b k) : Statement (.vzip ty h d a b k) := by
  intro _ r h; simp only [encode, Option.some.injEq] at h; subst h; simp [decodeFields, decodeVperm]
theorem vunzip (ty h d a b k) : Statement (.vunzip ty h d a b k) := by
  intro _ r h; simp only [encode, Option.some.injEq] at h; subst h; simp [decodeFields, decodeVperm]
theorem vext (ty d a b) : Statement (.vext ty d a b) := by
  intro _ r h; simp only [encode, Option.some.injEq] at h; subst h; simp [decodeFields, decodeVperm]
theorem vins (ty d a b) : Statement (.vins ty d a b) := by
  intro _ r h; simp only [encode, Option.some.injEq] at h; subst h; simp [decodeFields, decodeVperm]
theorem vcvt (dty sty q d a part k) : Statement (.vcvt dty sty q d a part k) := by
  intro _ r h; simp only [encode, Option.some.injEq] at h; subst h; simp [decodeFields, decodeVcvt]
theorem vqnt (ty kind q d a part) : Statement (.vqnt ty kind q d a part) := by
  intro _ r h; simp only [encode, Option.some.injEq] at h; subst h; simp [decodeFields, decodeVcvt]
theorem vdqnt (ty q d a part k) : Statement (.vdqnt ty q d a part k) := by
  intro _ r h; simp only [encode, Option.some.injEq] at h; subst h; simp [decodeFields, decodeVcvt]
theorem vretag (d a tag) : Statement (.vretag d a tag) := by
  intro _ r h; simp only [encode, Option.some.injEq] at h; subst h; simp [decodeFields, decodeVcvt]
theorem vtag (d a) : Statement (.vtag d a) := by
  intro _ r h; simp only [encode, Option.some.injEq] at h; subst h; simp [decodeFields, decodeVcvt]
theorem vld (ty kind m d b off k) : Statement (.vld ty kind m d b off k) := by
  intro _ r h; simp only [encode, Option.some.injEq] at h; subst h; simp [decodeFields, decodeVmem]
theorem vst (ty kind m b off a k) : Statement (.vst ty kind m b off a k) := by
  intro _ r h; simp only [encode, Option.some.injEq] at h; subst h; simp [decodeFields, decodeVmem]
theorem vlds (ty m d b off a) : Statement (.vlds ty m d b off a) := by
  intro _ r h; simp only [encode, Option.some.injEq] at h; subst h; simp [decodeFields, decodeVmem]
theorem vsts (ty m b off a d) : Statement (.vsts ty m b off a d) := by
  intro _ r h; simp only [encode, Option.some.injEq] at h; subst h; simp [decodeFields, decodeVmem]
theorem vgath (ty m d b off a) : Statement (.vgath ty m d b off a) := by
  intro _ r h; simp only [encode, Option.some.injEq] at h; subst h; simp [decodeFields, decodeVmem]
theorem vscat (ty m b off a d) : Statement (.vscat ty m b off a d) := by
  intro _ r h; simp only [encode, Option.some.injEq] at h; subst h; simp [decodeFields, decodeVmem]
theorem vstp (m b off a) : Statement (.vstp m b off a) := by
  intro _ r h; simp only [encode, Option.some.injEq] at h; subst h; simp [decodeFields, decodeVmem]
theorem vldw (ty kind m d b off) : Statement (.vldw ty kind m d b off) := by
  intro _ r h; simp only [encode, Option.some.injEq] at h; subst h; simp [decodeFields, decodeVmem]
theorem tlda (sc h d b off n) : Statement (.tlda sc h d b off n) := by
  intro _ r h; simp only [encode, Option.some.injEq] at h; subst h; simp [decodeFields, decodeVmem]
theorem tsta (sc h b off a n) : Statement (.tsta sc h b off a n) := by
  intro _ r h; simp only [encode, Option.some.injEq] at h; subst h; simp [decodeFields, decodeVmem]
theorem vldsc (kind m d b off) : Statement (.vldsc kind m d b off) := by
  intro _ r h; simp only [encode, Option.some.injEq] at h; subst h; simp [decodeFields, decodeVmem]
theorem vstsc (kind m b off a) : Statement (.vstsc kind m b off a) := by
  intro _ r h; simp only [encode, Option.some.injEq] at h; subst h; simp [decodeFields, decodeVmem]
theorem mbegin (a) : Statement (.mbegin a) := by
  intro _ r h; simp only [encode, Option.some.injEq] at h; subst h; simp [decodeFields, decodeMtx]
theorem mend : Statement .mend := by
  intro _ r h; simp only [encode, Option.some.injEq] at h; subst h; simp [decodeFields, decodeMtx]
theorem mma (d x y c bk) : Statement (.mma d x y c bk) := by
  intro _ r h; simp only [encode, Option.some.injEq] at h; subst h
  have h1 : BitVec.extractLsb' 36 2 (0#23 ++ BitVec.ofBool bk ++ y.kind.code ++ x.kind.code ++ y.ty.code ++ y.stride ++ x.stride : BitVec 64) = x.kind.code := by
    repeat (first | rw [ext_high _ _ _ _ (by decide)] | rw [ext_low _ _ _ _ (by decide)])
    exact ext_all _
  have h2 : BitVec.extractLsb' 38 2 (0#23 ++ BitVec.ofBool bk ++ y.kind.code ++ x.kind.code ++ y.ty.code ++ y.stride ++ x.stride : BitVec 64) = y.kind.code := by
    repeat (first | rw [ext_high _ _ _ _ (by decide)] | rw [ext_low _ _ _ _ (by decide)])
    exact ext_all _
  have h3 : BitVec.extractLsb' 41 23 (0#23 ++ BitVec.ofBool bk ++ y.kind.code ++ x.kind.code ++ y.ty.code ++ y.stride ++ x.stride : BitVec 64) = 0#23 := by
    repeat (first | rw [ext_high _ _ _ _ (by decide)] | rw [ext_low _ _ _ _ (by decide)])
    first | rfl | exact ext_all _
  have h4 : BitVec.extractLsb' 0 16 (0#23 ++ BitVec.ofBool bk ++ y.kind.code ++ x.kind.code ++ y.ty.code ++ y.stride ++ x.stride : BitVec 64) = x.stride := by
    repeat (first | rw [ext_high _ _ _ _ (by decide)] | rw [ext_low _ _ _ _ (by decide)])
    exact ext_all _
  have h5 : BitVec.extractLsb' 16 16 (0#23 ++ BitVec.ofBool bk ++ y.kind.code ++ x.kind.code ++ y.ty.code ++ y.stride ++ x.stride : BitVec 64) = y.stride := by
    repeat (first | rw [ext_high _ _ _ _ (by decide)] | rw [ext_low _ _ _ _ (by decide)])
    exact ext_all _
  have h6 : BitVec.extractLsb' 32 4 (0#23 ++ BitVec.ofBool bk ++ y.kind.code ++ x.kind.code ++ y.ty.code ++ y.stride ++ x.stride : BitVec 64) = y.ty.code := by
    repeat (first | rw [ext_high _ _ _ _ (by decide)] | rw [ext_low _ _ _ _ (by decide)])
    exact ext_all _
  have h7 : BitVec.extractLsb' 40 1 (0#23 ++ BitVec.ofBool bk ++ y.kind.code ++ x.kind.code ++ y.ty.code ++ y.stride ++ x.stride : BitVec 64) = BitVec.ofBool bk := by
    repeat (first | rw [ext_high _ _ _ _ (by decide)] | rw [ext_low _ _ _ _ (by decide)])
    exact ext_all _
  simp [decodeFields, decodeMtx, h1, h2, h3, h4, h5, h6, h7, ofBool_eq_one]
theorem mzero (d) : Statement (.mzero d) := by
  intro _ r h; simp only [encode, Option.some.injEq] at h; subst h; simp [decodeFields, decodeMtx]
theorem mst (ty q b off a stride) : Statement (.mst ty q b off a stride) := by
  intro _ r h; simp only [encode, Option.some.injEq] at h; subst h; simp [decodeFields, decodeMtx]
theorem mld (d b off stride) : Statement (.mld d b off stride) := by
  intro _ r h; simp only [encode, Option.some.injEq] at h; subst h; simp [decodeFields, decodeMtx]
theorem mldt (ty d b off) : Statement (.mldt ty d b off) := by
  intro _ r h; simp only [encode, Option.some.injEq] at h; subst h; simp [decodeFields, decodeMtx]
theorem manch (d a b) : Statement (.manch d a b) := by
  intro _ r h; simp only [encode, Option.some.injEq] at h; subst h; simp [decodeFields, decodeMtx]
theorem mwait : Statement .mwait := by
  intro _ r h; simp only [encode, Option.some.injEq] at h; subst h; simp [decodeFields, decodeMtx]
theorem illegalInstruction (bad w) : Statement (.illegalInstruction bad w) := by intro _ r h; exact absurd h (by simp [encode])
theorem deviceReset : Statement .deviceReset := by intro _ r h; exact absurd h (by simp [encode])
theorem kvecWrite : Statement .kvecWrite := by intro _ r h; exact absurd h (by simp [encode])
theorem bootDisc : Statement .bootDisc := by intro _ r h; exact absurd h (by simp [encode])
theorem bootMap : Statement .bootMap := by intro _ r h; exact absurd h (by simp [encode])
theorem bootImg : Statement .bootImg := by intro _ r h; exact absurd h (by simp [encode])
theorem bootStage : Statement .bootStage := by intro _ r h; exact absurd h (by simp [encode])
theorem bootGo : Statement .bootGo := by intro _ r h; exact absurd h (by simp [encode])
theorem bootDiscoveryFlit : Statement .bootDiscoveryFlit := by intro _ r h; exact absurd h (by simp [encode])
theorem bootMulticastFlit : Statement .bootMulticastFlit := by intro _ r h; exact absurd h (by simp [encode])
theorem bootReport : Statement .bootReport := by intro _ r h; exact absurd h (by simp [encode])
theorem bootReportArrival : Statement .bootReportArrival := by intro _ r h; exact absurd h (by simp [encode])
theorem spdmGetVersion : Statement .spdmGetVersion := by intro _ r h; exact absurd h (by simp [encode])
theorem spdmGetCapabilities : Statement .spdmGetCapabilities := by intro _ r h; exact absurd h (by simp [encode])
theorem spdmNegotiateAlgorithms : Statement .spdmNegotiateAlgorithms := by intro _ r h; exact absurd h (by simp [encode])
theorem spdmGetDigests : Statement .spdmGetDigests := by intro _ r h; exact absurd h (by simp [encode])
theorem spdmGetCertificate : Statement .spdmGetCertificate := by intro _ r h; exact absurd h (by simp [encode])
theorem spdmChallenge : Statement .spdmChallenge := by intro _ r h; exact absurd h (by simp [encode])
theorem spdmGetMeasurements : Statement .spdmGetMeasurements := by intro _ r h; exact absurd h (by simp [encode])
theorem wakeWrite : Statement .wakeWrite := by intro _ r h; exact absurd h (by simp [encode])
theorem wakeComplete : Statement .wakeComplete := by intro _ r h; exact absurd h (by simp [encode])
theorem podConfigWrite : Statement .podConfigWrite := by intro _ r h; exact absurd h (by simp [encode])
theorem queuePollScan : Statement .queuePollScan := by intro _ r h; exact absurd h (by simp [encode])
theorem headerReread : Statement .headerReread := by intro _ r h; exact absurd h (by simp [encode])
theorem queueStall : Statement .queueStall := by intro _ r h; exact absurd h (by simp [encode])
theorem nopPacket : Statement .nopPacket := by intro _ r h; exact absurd h (by simp [encode])
theorem launchGraph : Statement .launchGraph := by intro _ r h; exact absurd h (by simp [encode])
theorem launchGrid : Statement .launchGrid := by intro _ r h; exact absurd h (by simp [encode])
theorem field : Statement .field := by intro _ r h; exact absurd h (by simp [encode])
theorem budget : Statement .budget := by intro _ r h; exact absurd h (by simp [encode])
theorem waymask : Statement .waymask := by intro _ r h; exact absurd h (by simp [encode])
theorem pause : Statement .pause := by intro _ r h; exact absurd h (by simp [encode])
theorem snapshot : Statement .snapshot := by intro _ r h; exact absurd h (by simp [encode])
theorem restore : Statement .restore := by intro _ r h; exact absurd h (by simp [encode])
theorem signal : Statement .signal := by intro _ r h; exact absurd h (by simp [encode])
theorem waitValue : Statement .waitValue := by intro _ r h; exact absurd h (by simp [encode])
theorem waitValuePoll : Statement .waitValuePoll := by intro _ r h; exact absurd h (by simp [encode])
theorem skip : Statement .skip := by intro _ r h; exact absurd h (by simp [encode])
theorem debugHalt : Statement .debugHalt := by intro _ r h; exact absurd h (by simp [encode])
theorem debugResume : Statement .debugResume := by intro _ r h; exact absurd h (by simp [encode])
theorem debugStep : Statement .debugStep := by intro _ r h; exact absurd h (by simp [encode])
theorem debugReadctx : Statement .debugReadctx := by intro _ r h; exact absurd h (by simp [encode])
theorem debugWritectx : Statement .debugWritectx := by intro _ r h; exact absurd h (by simp [encode])
theorem debugReadmem : Statement .debugReadmem := by intro _ r h; exact absurd h (by simp [encode])
theorem debugWritemem : Statement .debugWritemem := by intro _ r h; exact absurd h (by simp [encode])
theorem debugSetwatch : Statement .debugSetwatch := by intro _ r h; exact absurd h (by simp [encode])
theorem debugStatus : Statement .debugStatus := by intro _ r h; exact absurd h (by simp [encode])
theorem hostMemoryAccess : Statement .hostMemoryAccess := by intro _ r h; exact absurd h (by simp [encode])
theorem backInvalidateAnswer : Statement .backInvalidateAnswer := by intro _ r h; exact absurd h (by simp [encode])
theorem linkRetry : Statement .linkRetry := by intro _ r h; exact absurd h (by simp [encode])
theorem linkTimeout : Statement .linkTimeout := by intro _ r h; exact absurd h (by simp [encode])
theorem remoteResponse : Statement .remoteResponse := by intro _ r h; exact absurd h (by simp [encode])
theorem forward : Statement .forward := by intro _ r h; exact absurd h (by simp [encode])
theorem drain : Statement .drain := by intro _ r h; exact absurd h (by simp [encode])
theorem evict : Statement .evict := by intro _ r h; exact absurd h (by simp [encode])
theorem fill : Statement .fill := by intro _ r h; exact absurd h (by simp [encode])
theorem budgetPeriodStart : Statement .budgetPeriodStart := by intro _ r h; exact absurd h (by simp [encode])
theorem powerWindow : Statement .powerWindow := by intro _ r h; exact absurd h (by simp [encode])
theorem messageArrival : Statement .messageArrival := by intro _ r h; exact absurd h (by simp [encode])
theorem replyArrival : Statement .replyArrival := by intro _ r h; exact absurd h (by simp [encode])
theorem strayDelivery : Statement .strayDelivery := by intro _ r h; exact absurd h (by simp [encode])
theorem helperGrant : Statement .helperGrant := by intro _ r h; exact absurd h (by simp [encode])
theorem weightReturn : Statement .weightReturn := by intro _ r h; exact absurd h (by simp [encode])
theorem writeOffArrival : Statement .writeOffArrival := by intro _ r h; exact absurd h (by simp [encode])
theorem qarmNotice : Statement .qarmNotice := by intro _ r h; exact absurd h (by simp [encode])
theorem taintReport : Statement .taintReport := by intro _ r h; exact absurd h (by simp [encode])
theorem transitVisit : Statement .transitVisit := by intro _ r h; exact absurd h (by simp [encode])
theorem pendingTake : Statement .pendingTake := by intro _ r h; exact absurd h (by simp [encode])
theorem overflowRefill : Statement .overflowRefill := by intro _ r h; exact absurd h (by simp [encode])
theorem stealStart : Statement .stealStart := by intro _ r h; exact absurd h (by simp [encode])
theorem stealRequest : Statement .stealRequest := by intro _ r h; exact absurd h (by simp [encode])
theorem stealArrival : Statement .stealArrival := by intro _ r h; exact absurd h (by simp [encode])
theorem leaseLapseNotice : Statement .leaseLapseNotice := by intro _ r h; exact absurd h (by simp [encode])
theorem burstArrival : Statement .burstArrival := by intro _ r h; exact absurd h (by simp [encode])
theorem copySectorWritten : Statement .copySectorWritten := by intro _ r h; exact absurd h (by simp [encode])
theorem publish : Statement .publish := by intro _ r h; exact absurd h (by simp [encode])
theorem engineFault : Statement .engineFault := by intro _ r h; exact absurd h (by simp [encode])
theorem matrixCommandRetire : Statement .matrixCommandRetire := by intro _ r h; exact absurd h (by simp [encode])
theorem acnRowArrival : Statement .acnRowArrival := by intro _ r h; exact absurd h (by simp [encode])
theorem acnAckArrival : Statement .acnAckArrival := by intro _ r h; exact absurd h (by simp [encode])
theorem acnNakArrival : Statement .acnNakArrival := by intro _ r h; exact absurd h (by simp [encode])
theorem pipeEntryLand : Statement .pipeEntryLand := by intro _ r h; exact absurd h (by simp [encode])
theorem pipeCreditReturn : Statement .pipeCreditReturn := by intro _ r h; exact absurd h (by simp [encode])
theorem rotExchange : Statement .rotExchange := by intro _ r h; exact absurd h (by simp [encode])
theorem pairIntervalEnd : Statement .pairIntervalEnd := by intro _ r h; exact absurd h (by simp [encode])
theorem cellReset : Statement .cellReset := by intro _ r h; exact absurd h (by simp [encode])
theorem fenceFall : Statement .fenceFall := by intro _ r h; exact absurd h (by simp [encode])
theorem pauseDeadline : Statement .pauseDeadline := by intro _ r h; exact absurd h (by simp [encode])
theorem drainComplete : Statement .drainComplete := by intro _ r h; exact absurd h (by simp [encode])
theorem flushComplete : Statement .flushComplete := by intro _ r h; exact absurd h (by simp [encode])
theorem migrationRewalk : Statement .migrationRewalk := by intro _ r h; exact absurd h (by simp [encode])
theorem barrierStall : Statement .barrierStall := by intro _ r h; exact absurd h (by simp [encode])
theorem stepBlocked : Statement .stepBlocked := by intro _ r h; exact absurd h (by simp [encode])
theorem haltSignal : Statement .haltSignal := by intro _ r h; exact absurd h (by simp [encode])
theorem freeze : Statement .freeze := by intro _ r h; exact absurd h (by simp [encode])
theorem platectlCapture : Statement .platectlCapture := by intro _ r h; exact absurd h (by simp [encode])
theorem splitWrite : Statement .splitWrite := by intro _ r h; exact absurd h (by simp [encode])
theorem swizzleWrite : Statement .swizzleWrite := by intro _ r h; exact absurd h (by simp [encode])
theorem waymaskMaskWrite : Statement .waymaskMaskWrite := by intro _ r h; exact absurd h (by simp [encode])
theorem waymaskFlush : Statement .waymaskFlush := by intro _ r h; exact absurd h (by simp [encode])
theorem fpctlWrite : Statement .fpctlWrite := by intro _ r h; exact absurd h (by simp [encode])
theorem wdctlWrite : Statement .wdctlWrite := by intro _ r h; exact absurd h (by simp [encode])
theorem mxexclWrite : Statement .mxexclWrite := by intro _ r h; exact absurd h (by simp [encode])
theorem mxexclApply : Statement .mxexclApply := by intro _ r h; exact absurd h (by simp [encode])
theorem mresumeResume : Statement .mresumeResume := by intro _ r h; exact absurd h (by simp [encode])
theorem mresumeAbort : Statement .mresumeAbort := by intro _ r h; exact absurd h (by simp [encode])
theorem bresumeResume : Statement .bresumeResume := by intro _ r h; exact absurd h (by simp [encode])
theorem bresumeAbort : Statement .bresumeAbort := by intro _ r h; exact absurd h (by simp [encode])
theorem registerWrite : Statement .registerWrite := by intro _ r h; exact absurd h (by simp [encode])
theorem noWorkAnswer : Statement .noWorkAnswer := by intro _ r h; exact absurd h (by simp [encode])
theorem secondCopyTaken : Statement .secondCopyTaken := by intro _ r h; exact absurd h (by simp [encode])
theorem idleTimeout : Statement .idleTimeout := by intro _ r h; exact absurd h (by simp [encode])
theorem joinStackRefill : Statement .joinStackRefill := by intro _ r h; exact absurd h (by simp [encode])
theorem powerGate : Statement .powerGate := by intro _ r h; exact absurd h (by simp [encode])
theorem msixVectorUnmask : Statement .msixVectorUnmask := by intro _ r h; exact absurd h (by simp [encode])
theorem hostSnoop : Statement .hostSnoop := by intro _ r h; exact absurd h (by simp [encode])
theorem badTypePacket : Statement .badTypePacket := by intro _ r h; exact absurd h (by simp [encode])

end Sys2Proof.Laws.Fields
end

