-- ==== Sys2Proof/Tests/Slice0.lean ====
section
/-! SUPPORT. Tests: ill-formed terms that the check refuses, words written out from the encodings of the spec, worked examples of the
spec, and, for every obligation with hypotheses, states and operands that meet them. -/

set_option Elab.async false

open Sys2Proof Sys2Proof.Machine

namespace Sys2Proof.Tests
/-! ### Well-formedness: a term for each check, which the check refuses (R223 and the rows of spec/12 to spec/15) -/

def refusesAll (l : List Instr) : Bool := l.all fun i => !i.wellFormed

/-- The check of integer types. -/
theorem test_illFormed_integerTypes : refusesAll [
    .add .f32 1 1 1,
    .sub .f32 1 1 1,
    .mul .f32 1 1 1,
    .mulh .f32 1 1 1,
    .div .f32 1 1 1,
    .rem .f32 1 1 1,
    .and .f32 1 1 1,
    .or .f32 1 1 1,
    .xor .f32 1 1 1,
    .andn .f32 1 1 1,
    .shl .f32 1 1 1,
    .shr .f32 1 1 1,
    .sar .f32 1 1 1,
    .rol .f32 1 1 1,
    .min .f32 1 1 1,
    .max .f32 1 1 1,
    .clz .f32 1 1,
    .ctz .f32 1 1,
    .popc .f32 1 1,
    .sel .f32 1 1 1 1,
    .slt .f32 1 1 1,
    .seq .f32 1 1 1,
    .sne .f32 1 1 1,
    .mov .f32 1 1,
    .aluiAdd .f32 1 1 1,
    .aluiAnd .f32 1 1 1,
    .aluiOr .f32 1 1 1,
    .aluiXor .f32 1 1 1,
    .aluiShl .f32 1 1 1,
    .aluiShr .f32 1 1 1,
    .aluiSar .f32 1 1 1,
    .aluiRol .f32 1 1 1,
    .aluiMin .f32 1 1 1,
    .aluiMax .f32 1 1 1,
    .aluiSlt .f32 1 1 1,
    .aluiSeq .f32 1 1 1,
    .aluiSne .f32 1 1 1,
    .li .f32 1 1,
    .addl .f32 1 1 1,
    .lil .f32 1 1,
    .andl .f32 1 1 1,
    .orl .f32 1 1 1,
    .xorl .f32 1 1 1,
    .beq .f32 .static 1 1 1,
    .bne .f32 .static 1 1 1,
    .blt .f32 .static 1 1 1,
    .bge .f32 .static 1 1 1,
    .bz .f32 .static 1 1,
    .bnz .f32 .static 1 1,
    .ldt .f32 1 1 1,
    .vand .f32 1 1 1 1,
    .vor .f32 1 1 1 1,
    .vxor .f32 1 1 1 1,
    .vshl .f32 1 1 1 1,
    .vshr .f32 1 1 1 1,
    .vsar .f32 1 1 1 1] = true := by decide +kernel

/-- The check of other checks. -/
theorem test_illFormed_otherChecks : refusesAll [
    .ext .i32 1 1 1 1,
    .pmov 1 false 16,
    .pcmp .un 1 1 1,
    .loop 1 1,
    .loop 1 0xFFFFFF,
    .loopi 1 2,
    .sendc 1 1 none 1 1,
    .sendc 1 1 none 1 13,
    .copym 1 1 1 1 13 1 0 false,
    .copym 1 1 1 1 1 13 0 false,
    .copym 1 1 1 1 2 1 1 false,
    .rot 1 1 33,
    .rot 1 1 0,
    .aopen 1 1 0,
    .asend 1 1 1 32 33,
    .asend 1 1 1 0 33,
    .asend 1 1 1 5 5,
    .vcmp .i32 .un 1 1 1 1,
    .vretag 1 1 0x31,
    .vretag 1 1 0x1A,
    .tlda .cx .normal 12 1 1 4,
    .tsta .cx .normal 1 1 12 4,
    .mldt .i64 0 1 1,
    .mldt .f32 1 1 1,
    .mldt .e2m1 0 1 1] = true := by decide +kernel

/-- The check of float types. -/
theorem test_illFormed_floatTypes : refusesAll [
    .fadd .i32 ⟨.rne, false⟩ 1 1 1,
    .fsub .i32 ⟨.rne, false⟩ 1 1 1,
    .fmul .i32 ⟨.rne, false⟩ 1 1 1,
    .fma .i32 ⟨.rne, false⟩ 1 1 1 1,
    .fnma .i32 ⟨.rne, false⟩ 1 1 1 1,
    .fdiv .i32 ⟨.rne, false⟩ 1 1 1,
    .fsqrt .i32 ⟨.rne, false⟩ 1 1,
    .fmin .i32 1 1 1,
    .fmax .i32 1 1 1,
    .fabs .i32 1 1,
    .fneg .i32 1 1,
    .fcmp .i32 .eq 1 1 1,
    .fclass .i32 1 1,
    .fmovi .i32 1 1,
    .fsgn .i32 1 1 1,
    .vexp2 .i32 ⟨.rne, false⟩ 1 1 1,
    .vlog2 .i32 ⟨.rne, false⟩ 1 1 1,
    .vrcp .i32 ⟨.rne, false⟩ 1 1 1,
    .vrsqrt .i32 ⟨.rne, false⟩ 1 1 1,
    .vsqrt .i32 ⟨.rne, false⟩ 1 1 1,
    .vsinpi .i32 ⟨.rne, false⟩ 1 1 1,
    .vcospi .i32 ⟨.rne, false⟩ 1 1 1,
    .vtanh .i32 ⟨.rne, false⟩ 1 1 1,
    .vsigm .i32 ⟨.rne, false⟩ 1 1 1,
    .verf .i32 ⟨.rne, false⟩ 1 1 1,
    .vdqnt .i32 ⟨.rne, false⟩ 1 1 1 1] = true := by decide +kernel

/-- The check of conversion types. -/
theorem test_illFormed_conversionTypes : refusesAll [
    .fcvt .i32 .n8 ⟨.rne, false⟩ 1 1,
    .fcvt .e4m3 .f32 ⟨.rne, false⟩ 1 1,
    .fcvt .f32 .e2m1 ⟨.rne, false⟩ 1 1,
    .vcvt .i8 .i32 ⟨.rne, false⟩ 1 1 0 1,
    .vcvt .f32 .f16 ⟨.rne, false⟩ 1 1 2 1] = true := by decide +kernel

/-- The check of plain types. -/
theorem test_illFormed_plainTypes : refusesAll [
    .ld .e4m3 ⟨.rlx, .normal, .cx⟩ 1 1 1,
    .st .e4m3 ⟨.rlx, .normal, .cx⟩ 1 1 1,
    .vmin .e4m3 1 1 1 1,
    .vmax .e4m3 1 1 1 1,
    .vabs .e4m3 1 1 1,
    .vneg .e4m3 1 1 1,
    .vbcast .e4m3 1 1 1,
    .vidx .e4m3 1 1 1,
    .vclamp .e4m3 1 1 1 1 1,
    .vcmp .e4m3 .eq 1 1 1 1,
    .vrmax .e4m3 1 1 1,
    .vrmin .e4m3 1 1 1,
    .vext .e4m3 1 1 1,
    .vins .e4m3 1 1 1] = true := by decide +kernel

/-- The check of atomic types. -/
theorem test_illFormed_atomicTypes : refusesAll [
    .aadd .f32 .rlx .cx 1 1 1 1,
    .aadd .n16 .rlx .cx 1 1 1 1,
    .aand .f32 .rlx .cx 1 1 1 1,
    .aand .n16 .rlx .cx 1 1 1 1,
    .aor .f32 .rlx .cx 1 1 1 1,
    .aor .n16 .rlx .cx 1 1 1 1,
    .axor .f32 .rlx .cx 1 1 1 1,
    .axor .n16 .rlx .cx 1 1 1 1,
    .amin .f32 .rlx .cx 1 1 1 1,
    .amin .n16 .rlx .cx 1 1 1 1,
    .amax .f32 .rlx .cx 1 1 1 1,
    .amax .n16 .rlx .cx 1 1 1 1,
    .aswp .f32 .rlx .cx 1 1 1 1,
    .aswp .n16 .rlx .cx 1 1 1 1,
    .acas .f32 .rlx .cx 1 1 1 1,
    .acas .n16 .rlx .cx 1 1 1 1] = true := by decide +kernel

/-- The check of vector types and rounding. -/
theorem test_illFormed_vectorTypesAndRounding : refusesAll [
    .vadd .e4m3 ⟨.rne, false⟩ 1 1 1 1,
    .vadd .i32 ⟨.rtz, false⟩ 1 1 1 1,
    .vsub .e4m3 ⟨.rne, false⟩ 1 1 1 1,
    .vsub .i32 ⟨.rtz, false⟩ 1 1 1 1,
    .vmul .e4m3 ⟨.rne, false⟩ 1 1 1 1,
    .vmul .i32 ⟨.rtz, false⟩ 1 1 1 1,
    .vfma .e4m3 ⟨.rne, false⟩ 1 1 1 1 1,
    .vfma .i32 ⟨.rtz, false⟩ 1 1 1 1 1,
    .vfnma .e4m3 ⟨.rne, false⟩ 1 1 1 1 1,
    .vfnma .i32 ⟨.rtz, false⟩ 1 1 1 1 1,
    .vdiv .e4m3 ⟨.rne, false⟩ 1 1 1 1,
    .vdiv .i32 ⟨.rtz, false⟩ 1 1 1 1,
    .vrsum .e4m3 ⟨.rne, false⟩ 1 1 1,
    .vrsum .i32 ⟨.rtz, false⟩ 1 1 1] = true := by decide +kernel

/-- The check of types of permutations. -/
theorem test_illFormed_typesOfPermutations : refusesAll [
    .vsel .e2m1 1 1 1 1,
    .vperm .e2m1 1 1 1 1,
    .vzip .e2m1 false 1 1 1 1,
    .vunzip .e2m1 false 1 1 1 1] = true := by decide +kernel

/-- The check of masks that are written. -/
theorem test_illFormed_masksThatAreWritten : refusesAll [
    .vcmp .i32 .eq 0 1 1 1,
    .kand 0 1 1,
    .kor 0 1 1,
    .kxor 0 1 1,
    .knot 0 1,
    .kset 0 1 1] = true := by decide +kernel

/-- The check of scaling kinds. -/
theorem test_illFormed_scalingKinds : refusesAll [
    .vqnt .f32 .mx ⟨.rne, false⟩ 1 1 1,
    .vqnt .e4m3 .none ⟨.rne, false⟩ 1 1 1,
    .vld .f32 .ws ⟨.rlx, .normal, .cx⟩ 1 1 1 1,
    .vst .f32 .mx ⟨.rlx, .normal, .cx⟩ 1 1 1 0,
    .vldw .f32 .ws ⟨.rlx, .normal, .cx⟩ 1 1 1,
    .vldsc .none ⟨.rlx, .normal, .cx⟩ 1 1 1,
    .vstsc .none ⟨.rlx, .normal, .cx⟩ 1 1 1] = true := by decide +kernel

/-- The check of types that share bytes. -/
theorem test_illFormed_typesThatShareBytes : refusesAll [
    .vst .e2m1 .none ⟨.rlx, .normal, .cx⟩ 1 1 1 1,
    .vlds .e2m3 ⟨.rlx, .normal, .cx⟩ 1 1 1 1,
    .vsts .e2m3 ⟨.rlx, .normal, .cx⟩ 1 1 1 1] = true := by decide +kernel

/-- The check of gather types. -/
theorem test_illFormed_gatherTypes : refusesAll [
    .vgath .i64 ⟨.rlx, .normal, .cx⟩ 1 1 1 1,
    .vscat .i64 ⟨.rlx, .normal, .cx⟩ 1 1 1 1] = true := by decide +kernel

/-- The check of mma operands. -/
theorem test_illFormed_mmaOperands : refusesAll [
    .mma 1 ⟨.i32, .none, 1, 64⟩ ⟨.i32, .none, 2, 64⟩ none false,
    .mma 1 ⟨.e4m3, .none, 1, 64⟩ ⟨.f32, .none, 2, 64⟩ none false,
    .mma 1 ⟨.f32, .mx, 1, 64⟩ ⟨.f32, .none, 2, 64⟩ (some 3) false,
    .mma 1 ⟨.e4m3, .none, 1, 64⟩ ⟨.e4m3, .mx, 2, 64⟩ none false,
    .mma 1 ⟨.e4m3, .none, 1, 64⟩ ⟨.e4m3, .none, 1, 64⟩ (some 3) false] = true := by decide +kernel

/-- Boundary values that the checks let through. -/
theorem test_wellFormed_boundaries : ([
    .sendc 1 1 none 1 2, .sendc 1 1 none 1 12, .loop 1 2, .loopi 1 3, .rot 1 2 32, .asend 1 1 1 31 32, .copym 1 1 1 1 12 12 3 true,
    .copym 1 1 1 1 5 0 0 false, .tlda .cx .normal 0 1 0 15, .tlda .cx .normal 15 1 0 0, .mldt .f32 0 1 0, .mldt .i8 12 1 0,
    .vcvt .f32 .f16 ⟨.rne, false⟩ 1 1 1 0, .vretag 1 1 0x30, .vretag 1 1 0x2F, .vst .e2m1 .mx ⟨.rlx, .normal, .cx⟩ 1 0 1 0,
    .pmov 1 true 31, .pmov 1 false 15, .aopen 0 1 0xFFFF, .acas .i32 .rlx .cx 1 1 0 1, .vadd .i32 ⟨.rne, false⟩ 1 1 1 0,
    .vadd .f32 ⟨.sr, true⟩ 1 1 1 0, .mma 1 ⟨.e4m3, .mx, 1, 64⟩ ⟨.e2m1, .none, 2, 64⟩ (some 3) true] : List Instr).all Instr.wellFormed = true := by
  decide +kernel
/-! ### Decoding: one word for each constructor, its fields laid out as the field rows of spec/10 and spec/12 to spec/15 say -/

/-- R216: the R format. -/
def formR (maj min : BitVec 6) (ty q : BitVec 4) (d a b c : BitVec 6) (k : BitVec 3) : Nat :=
  (0#15 ++ k ++ c ++ q ++ ty ++ min ++ b ++ a ++ d ++ maj ++ 0#2).toNat
/-- R216: the I format. -/
def formI (maj min : BitVec 6) (ty q : BitVec 4) (d a b : BitVec 6) (imm : BitVec 24) : Nat :=
  (imm ++ q ++ ty ++ min ++ b ++ a ++ d ++ maj ++ 0#2).toNat
/-- R216: the M format. -/
def formM (maj min : BitVec 6) (ty q : BitVec 4) (d a b : BitVec 6) (scope : BitVec 3) (off : BitVec 21) : Nat :=
  (off ++ scope ++ q ++ ty ++ min ++ b ++ a ++ d ++ maj ++ 0#2).toNat
/-- R216: the L format. -/
def formL (maj min : BitVec 6) (ty q : BitVec 4) (d a b : BitVec 6) (imm : BitVec 24) (ext : BitVec 32) : Nat :=
  (ext ++ imm ++ q ++ ty ++ min ++ b ++ a ++ d ++ maj ++ 1#2).toNat
/-- R216: the E format. -/
def formE (maj min : BitVec 6) (ty q : BitVec 4) (d a b c : BitVec 6) (k : BitVec 3) (ext : BitVec 64) : Nat :=
  (ext ++ 0#15 ++ k ++ c ++ q ++ ty ++ min ++ b ++ a ++ d ++ maj ++ 2#2).toNat

/-- Each word decodes to its instruction, and has its length. -/
def decodesTo (len : Nat) (rows : List (Nat × Instr)) : Bool :=
  rows.all fun e => decide (decode 32 (BitVec.ofNat 128 e.1) = .instr e.2 len)

/-- R351, R354, R357. -/
theorem test_decode_sys :
    decodesTo 8 [
      (formI 0x0 0x0 3 5 63 1 2 0x800001, .udf 63 1 2 3 5 0x800001),
      (formR 0x0 0x1 0 0 0 0 0 0 0, .nop),
      (formI 0x0 0x2 0 0 0 0 0 0xffffff, .trap 0xFFFFFF),
      (formR 0x0 0x3 0 0 0 4 0 4 0, .eretResume 4 true),
      (formR 0x0 0x3 0 0 0 4 0 0 0, .eretResume 4 false),
      (formR 0x0 0x3 0 0 0 4 0 1 0, .eretSkip 4),
      (formR 0x0 0x3 0 0 0 4 0 2 0, .eretForward 4),
      (formR 0x0 0x3 0 0 0 4 0 3 0, .eretEnd 4),
      (formI 0x0 0x4 0 0 5 0 0 0x18, .sysr 5 0x18),
      (formI 0x0 0x5 0 0 0 6 0 0x44, .sysw 0x44 6),
      (formI 0x0 0x6 0 0 5 6 0 0x44, .sysset 5 0x44 6),
      (formI 0x0 0x7 0 0 5 6 0 0x44, .sysclr 5 0x44 6),
      (formR 0x0 0x8 0 0 0 0 0 0 0, .chkerr),
      (formR 0x0 0x9 0 0 3 4 0 0 0, .idle 3 4),
      (formR 0x0 0xa 0 0 0 34 5 3 0, .tlbinv 2 5 false),
      (formR 0x0 0xa 0 0 0 34 5 4 0, .tlbinv 2 5 true),
      (formR 0x0 0xb 0 0 3 0 0 0 0, .pair 3),
      (formR 0x0 0xc 0 0 3 0 0 0 0, .unpair 3),
      (formR 0x0 0xd 0 0 0 4 0 0 0, .haltx 4),
      (formR 0x0 0xe 0 0 0 4 0 0 0, .resumex 4),
      (formR 0x0 0xf 0 0 3 4 0 0 0, .stepx 3 4),
      (formR 0x0 0x10 0 0 3 0 0 0 0, .rdcyc 3)] = true := by decide +kernel

/-- R222, R252, R254. -/
theorem test_decode_alu :
    decodesTo 8 [
      (formR 0x1 0x0 0 0 3 4 5 0 0, .add .i8 3 4 5),
      (formR 0x1 0x1 1 0 3 4 5 0 0, .sub .i16 3 4 5),
      (formR 0x1 0x2 2 0 3 4 5 0 0, .mul .i32 3 4 5),
      (formR 0x1 0x3 3 0 3 4 5 0 0, .mulh .i64 3 4 5),
      (formR 0x1 0x4 4 0 3 4 5 0 0, .div .n8 3 4 5),
      (formR 0x1 0x5 5 0 3 4 5 0 0, .rem .n16 3 4 5),
      (formR 0x1 0x6 6 0 3 4 5 0 0, .and .n32 3 4 5),
      (formR 0x1 0x7 7 0 3 4 5 0 0, .or .n64 3 4 5),
      (formR 0x1 0x8 0 0 3 4 5 0 0, .xor .i8 3 4 5),
      (formR 0x1 0x9 1 0 3 4 5 0 0, .andn .i16 3 4 5),
      (formR 0x1 0xa 2 0 3 4 5 0 0, .shl .i32 3 4 5),
      (formR 0x1 0xb 3 0 3 4 5 0 0, .shr .i64 3 4 5),
      (formR 0x1 0xc 4 0 3 4 5 0 0, .sar .n8 3 4 5),
      (formR 0x1 0xd 5 0 3 4 5 0 0, .rol .n16 3 4 5),
      (formR 0x1 0xe 6 0 3 4 5 0 0, .min .n32 3 4 5),
      (formR 0x1 0xf 7 0 3 4 5 0 0, .max .n64 3 4 5),
      (formR 0x1 0x15 5 0 3 4 5 0 0, .slt .n16 3 4 5),
      (formR 0x1 0x16 6 0 3 4 5 0 0, .seq .n32 3 4 5),
      (formR 0x1 0x17 7 0 3 4 5 0 0, .sne .n64 3 4 5),
      (formR 0x1 0x10 2 0 3 4 0 0 0, .clz .i32 3 4),
      (formR 0x1 0x11 6 0 3 4 0 0 0, .ctz .n32 3 4),
      (formR 0x1 0x12 7 0 3 4 0 0 0, .popc .n64 3 4),
      (formR 0x1 0x13 3 0 3 4 5 6 0, .ext .i64 3 4 5 6),
      (formR 0x1 0x14 1 0 3 4 5 6 0, .sel .i16 3 4 5 6),
      (formR 0x1 0x18 4 0 3 4 0 0 0, .mov .n8 3 4)] = true := by decide +kernel

/-- R222, R255, R256. -/
theorem test_decode_alui :
    decodesTo 8 [
      (formI 0x2 0x0 3 0 3 4 0 0xfffff0, .aluiAdd .i64 3 4 0xFFFFF0),
      (formI 0x2 0x6 3 0 3 4 0 0xfffff0, .aluiAnd .i64 3 4 0xFFFFF0),
      (formI 0x2 0x7 3 0 3 4 0 0xfffff0, .aluiOr .i64 3 4 0xFFFFF0),
      (formI 0x2 0x8 3 0 3 4 0 0xfffff0, .aluiXor .i64 3 4 0xFFFFF0),
      (formI 0x2 0xa 3 0 3 4 0 0xfffff0, .aluiShl .i64 3 4 0xFFFFF0),
      (formI 0x2 0xb 3 0 3 4 0 0xfffff0, .aluiShr .i64 3 4 0xFFFFF0),
      (formI 0x2 0xc 3 0 3 4 0 0xfffff0, .aluiSar .i64 3 4 0xFFFFF0),
      (formI 0x2 0xd 3 0 3 4 0 0xfffff0, .aluiRol .i64 3 4 0xFFFFF0),
      (formI 0x2 0xe 3 0 3 4 0 0xfffff0, .aluiMin .i64 3 4 0xFFFFF0),
      (formI 0x2 0xf 3 0 3 4 0 0xfffff0, .aluiMax .i64 3 4 0xFFFFF0),
      (formI 0x2 0x15 3 0 3 4 0 0xfffff0, .aluiSlt .i64 3 4 0xFFFFF0),
      (formI 0x2 0x16 3 0 3 4 0 0xfffff0, .aluiSeq .i64 3 4 0xFFFFF0),
      (formI 0x2 0x17 3 0 3 4 0 0xfffff0, .aluiSne .i64 3 4 0xFFFFF0),
      (formI 0x2 0x1f 2 0 3 0 0 0x123456, .li .i32 3 0x123456)] = true := by decide +kernel

/-- R257. -/
theorem test_decode_alul :
    decodesTo 12 [
      (formL 0x3 0x0 3 0 2 6 0 0x0 0x186a0, .addl .i64 2 6 100000),
      (formL 0x3 0x1 3 0 2 0 0 0x0 0x80000000, .lil .i64 2 0x80000000),
      (formL 0x3 0x2 3 0 2 6 0 0x0 0x1234, .lih 2 6 0x1234),
      (formL 0x3 0x3 2 0 2 6 0 0x0 0x5, .andl .i32 2 6 5),
      (formL 0x3 0x4 2 0 2 6 0 0x0 0x5, .orl .i32 2 6 5),
      (formL 0x3 0x5 2 0 2 6 0 0x0 0x5, .xorl .i32 2 6 5)] = true := by decide +kernel

/-- R258 to R260. -/
theorem test_decode_adr :
    decodesTo 8 [
      (formR 0x4 0x0 0 0 33 34 5 0 0, .padd 1 2 5),
      (formI 0x4 0x1 0 0 33 34 0 0x10, .paddi 1 2 0x10),
      (formR 0x4 0x3 0 0 3 34 36 0 0, .psub 3 2 4),
      (formM 0x4 0x4 0 0 33 0 34 0 0x1fffff, .plea 1 2 0x1FFFFF),
      (formR 0x4 0x5 0 0 33 34 0 0 0, .pmov 1 false 2),
      (formR 0x4 0x5 0 0 33 20 0 0 0, .pmov 1 true 20),
      (formR 0x4 0x6 0 0 3 34 0 0 0, .plo 3 2),
      (formR 0x4 0x7 0 0 3 34 0 0 0, .phi 3 2),
      (formR 0x4 0x9 0 5 3 34 36 0 0, .pcmp .ge 3 2 4)] = true ∧
    decodesTo 12 [
      (formL 0x4 0x2 0 0 33 34 0 0x0 0x10, .paddl 1 2 0x10),
      (formL 0x4 0x8 0 0 35 0 0 0x1 0x1000000, .ploc 3 1 0x01000000)] = true := by decide +kernel

/-- R261 to R267. -/
theorem test_decode_fpu :
    decodesTo 8 [
      (formR 0x5 0x0 8 11 3 4 5 0 0, .fadd .f32 ⟨.rup, true⟩ 3 4 5),
      (formR 0x5 0x1 8 11 3 4 5 0 0, .fsub .f32 ⟨.rup, true⟩ 3 4 5),
      (formR 0x5 0x2 8 11 3 4 5 0 0, .fmul .f32 ⟨.rup, true⟩ 3 4 5),
      (formR 0x5 0x5 8 11 3 4 5 0 0, .fdiv .f32 ⟨.rup, true⟩ 3 4 5),
      (formR 0x5 0x3 9 6 3 4 5 6 0, .fma .f16 ⟨.dyn, false⟩ 3 4 5 6),
      (formR 0x5 0x4 9 6 3 4 5 6 0, .fnma .f16 ⟨.dyn, false⟩ 3 4 5 6),
      (formR 0x5 0x6 8 5 3 4 0 0 0, .fsqrt .f32 ⟨.sr, false⟩ 3 4),
      (formR 0x5 0x7 10 0 3 4 5 0 0, .fmin .bf16 3 4 5),
      (formR 0x5 0x8 10 0 3 4 5 0 0, .fmax .bf16 3 4 5),
      (formR 0x5 0x9 8 0 3 4 0 0 0, .fabs .f32 3 4),
      (formR 0x5 0xa 8 0 3 4 0 0 0, .fneg .f32 3 4),
      (formR 0x5 0xb 8 6 3 4 5 0 0, .fcmp .f32 .un 3 4 5),
      (formR 0x5 0xc 2 1 1 2 0 8 0, .fcvt .i32 .f32 ⟨.rtz, false⟩ 1 2),
      (formR 0x5 0xd 8 0 3 4 0 0 0, .fclass .f32 3 4),
      (formR 0x5 0xf 8 0 3 4 5 0 0, .fsgn .f32 3 4 5)] = true ∧
    decodesTo 12 [
      (formL 0x5 0xe 10 0 3 0 0 0x0 0x3dcccccd, .fmovi .bf16 3 0x3DCCCCCD)] = true := by decide +kernel

/-- R268. -/
theorem test_decode_br :
    decodesTo 8 [
      (formI 0x6 0x0 2 1 0 4 5 0xfffff6, .beq .i32 .tk 4 5 0xFFFFF6),
      (formI 0x6 0x1 2 1 0 4 5 0xfffff6, .bne .i32 .tk 4 5 0xFFFFF6),
      (formI 0x6 0x2 2 1 0 4 5 0xfffff6, .blt .i32 .tk 4 5 0xFFFFF6),
      (formI 0x6 0x3 2 1 0 4 5 0xfffff6, .bge .i32 .tk 4 5 0xFFFFF6),
      (formI 0x6 0x4 3 2 0 4 0 0x4, .bz .i64 .nt 4 4),
      (formI 0x6 0x5 3 0 0 4 0 0x4, .bnz .i64 .static 4 4),
      (formI 0x6 0x6 0 0 0 4 63 0x4, .bbs .static 4 63 4),
      (formI 0x6 0x7 0 0 0 4 63 0x4, .bbc .static 4 63 4)] = true := by decide +kernel

/-- R269, R270, R272. -/
theorem test_decode_jmp :
    decodesTo 8 [
      (formI 0x7 0x0 0 0 0 0 0 0x10, .j 0x10),
      (formR 0x7 0x2 0 0 0 47 0 0 0, .jr 15),
      (formI 0x7 0x3 0 0 0 0 0 0x10, .call 0x10),
      (formR 0x7 0x4 0 0 0 35 0 0 0, .callr 3),
      (formR 0x7 0x5 0 0 0 0 0 0 0, .ret),
      (formI 0x7 0x6 0 0 0 4 0 0x2, .loop 4 2),
      (formR 0x7 0x8 0 0 0 0 0 0 0, .lexit)] = true ∧
    decodesTo 12 [
      (formL 0x7 0x1 0 0 0 0 0 0x0 0xfffffff0, .jl 0xFFFFFFF0),
      (formL 0x7 0x7 0 0 0 0 0 0x3 0xffffffff, .loopi 0xFFFFFFFF 3)] = true := by decide +kernel

/-- R220, R274. -/
theorem test_decode_ld :
    decodesTo 8 [
      (formM 0x8 0x0 7 4 7 0 35 3 0x40, .ld .n64 ⟨.acq, .normal, .fd⟩ 7 3 0x40),
      (formM 0x8 0x1 0 1 39 0 35 0 0x40, .ldp ⟨.rlx, .strm, .cx⟩ 7 3 0x40),
      (formM 0x8 0x2 0 2 24 0 35 0 0x40, .ldq8 ⟨.rlx, .keep, .cx⟩ 3 3 0x40),
      (formM 0x8 0x3 0 4 7 0 35 2 0x40, .ldw ⟨.acq, .normal, .cl⟩ 7 3 0x40),
      (formM 0x8 0x4 2 0 7 0 35 0 0x40, .ldt .i32 7 3 0x40)] = true := by decide +kernel

/-- R220, R274. -/
theorem test_decode_st :
    decodesTo 8 [
      (formM 0x9 0x0 10 8 0 7 35 7 0x40, .st .bf16 ⟨.rel, .normal, .sy⟩ 3 0x40 7),
      (formM 0x9 0x1 0 0 0 39 35 0 0x40, .stp ⟨.rlx, .normal, .cx⟩ 3 0x40 7),
      (formM 0x9 0x2 0 0 0 16 35 0 0x40, .stq8 ⟨.rlx, .normal, .cx⟩ 3 0x40 2),
      (formM 0x9 0x3 0 12 0 7 35 6 0x40, .stf ⟨.acqrel, .normal, .pd⟩ 3 0x40 7)] = true := by decide +kernel

/-- R279 to R281. -/
theorem test_decode_amo :
    decodesTo 8 [
      (formM 0xa 0x0 6 12 7 8 35 4 0x8, .aadd .n32 .acqrel .dv 7 3 8 8),
      (formM 0xa 0x1 6 12 7 8 35 4 0x8, .aand .n32 .acqrel .dv 7 3 8 8),
      (formM 0xa 0x2 6 12 7 8 35 4 0x8, .aor .n32 .acqrel .dv 7 3 8 8),
      (formM 0xa 0x3 6 12 7 8 35 4 0x8, .axor .n32 .acqrel .dv 7 3 8 8),
      (formM 0xa 0x4 6 12 7 8 35 4 0x8, .amin .n32 .acqrel .dv 7 3 8 8),
      (formM 0xa 0x5 6 12 7 8 35 4 0x8, .amax .n32 .acqrel .dv 7 3 8 8),
      (formM 0xa 0x6 6 12 7 8 35 4 0x8, .aswp .n32 .acqrel .dv 7 3 8 8),
      (formM 0xa 0x7 6 12 7 8 35 4 0x8, .acas .n32 .acqrel .dv 7 3 8 8),
      (formM 0xa 0x8 0 8 0 10 38 6 0x0, .aacc .rel .pd 6 0 5)] = true := by decide +kernel

/-- R283. -/
theorem test_decode_sync :
    decodesTo 8 [
      (formM 0xb 0x0 0 0 0 0 0 5 0x0, .fence .nd),
      (formM 0xb 0x1 0 0 3 36 37 1 0x10, .bind .co 5 16 4 3),
      (formM 0xb 0x2 0 0 0 0 37 2 0x10, .unbind .cl 5 16),
      (formM 0xb 0x3 0 0 0 0 37 3 0x10, .acq .fd 5 16),
      (formM 0xb 0x4 0 0 0 0 36 3 0x0, .rel .fd 4 0)] = true := by decide +kernel

/-- R288 to R296. -/
theorem test_decode_msg :
    decodesTo 12 [
      (formL 0xc 0x0 0 8 5 6 36 0x4 0x140, .send 5 6 (some (4, .dv)) 0x50),
      (formL 0xc 0x0 0 0 5 6 0 0x0 0x140, .send 5 6 none 0x50),
      (formL 0xc 0x2 0 0 5 6 0 0x0 0xffffffff, .reply 5 6 none 0xFFFFFFFF),
      (formL 0xc 0x2 0 8 5 6 36 0x7 0x1, .reply 5 6 (some (4, .sy)) 1)] = true ∧
    decodesTo 16 [
      (formE 0xc 0x1 0 0 5 6 0 35 0 0x30, .sendc 5 6 none 3 12),
      (formE 0xc 0x1 0 8 5 6 36 35 0 0x208, .sendc 5 6 (some (4, .cl)) 3 2)] = true ∧
    decodesTo 8 [
      (formR 0xc 0x3 0 0 3 4 5 6 0, .start 3 4 5 6),
      (formR 0xc 0x4 0 0 0 0 0 0 0, .halt),
      (formR 0xc 0x5 0 0 0 0 0 0 0, .wget),
      (formR 0xc 0x6 0 0 0 0 0 0 0, .qarm)] = true := by decide +kernel

/-- R297 to R299. -/
theorem test_decode_task :
    decodesTo 8 [
      (formR 0xd 0x0 0 0 0 0 0 0 0, .tend),
      (formR 0xd 0x1 0 0 3 0 0 0 0, .tnext 3),
      (formR 0xd 0x2 0 0 0 36 5 0 0, .tspawn 4 5)] = true := by decide +kernel

/-- R300, R304, R306. -/
theorem test_decode_bulk :
    decodesTo 16 [
      (formE 0xe 0x0 0 0 8 34 9 0 0 0x4000180000100, .bread 8 2 9 0 0x40 0x60 4),
      (formE 0xe 0x1 0 0 8 34 35 36 0 0x1ffff00070040, .copy true 2 3 4 8 2 7 0xFFFF),
      (formE 0xe 0x2 0 0 8 34 35 36 0 0x656, .copym 2 3 4 8 6 5 2 true)] = true := by decide +kernel

/-- R308. -/
theorem test_decode_bar :
    decodesTo 8 [
      (formM 0xf 0x0 0 0 0 4 35 0 0x10, .binit 3 16 4),
      (formM 0xf 0x1 0 0 0 4 35 0 0x10, .bexp 3 16 4),
      (formM 0xf 0x2 0 0 4 0 35 0 0x10, .barr 4 3 16),
      (formM 0xf 0x3 0 0 0 4 35 0 0x10, .bwait 3 16 4),
      (formM 0xf 0x4 0 0 5 4 35 0 0x10, .btest 5 3 16 4)] = true := by decide +kernel

/-- R309, R311. -/
theorem test_decode_pipe :
    decodesTo 8 [
      (formR 0x10 0x0 0 0 0 4 5 0 0, .qinit 4 5),
      (formR 0x10 0x1 0 0 0 4 5 0 0, .qpush 4 5),
      (formR 0x10 0x2 0 0 3 4 0 0 0, .qpop 3 4),
      (formR 0x10 0x3 0 0 3 4 0 0 0, .qavail 3 4)] = true ∧
    decodesTo 16 [
      (formE 0x10 0x4 0 0 0 36 37 0 0 0x40, .rot 4 5 64)] = true := by decide +kernel

/-- R312, R313, R315. -/
theorem test_decode_acn :
    decodesTo 16 [
      (formE 0x11 0x0 0 0 3 0 36 0 0 0x60, .aopen 3 4 96),
      (formE 0x11 0x1 0 0 0 2 36 6 0 0x2003, .asend 2 4 6 3 32)] = true ∧
    decodesTo 8 [
      (formR 0x11 0x2 0 0 1 0 0 0 0, .aclose 1)] = true := by decide +kernel

/-- R322. -/
theorem test_decode_valu :
    decodesTo 8 [
      (formR 0x12 0x0 8 9 49 50 51 0 4, .vadd .f32 ⟨.rtz, true⟩ 1 2 3 4),
      (formR 0x12 0x1 8 9 49 50 51 0 4, .vsub .f32 ⟨.rtz, true⟩ 1 2 3 4),
      (formR 0x12 0x2 8 9 49 50 51 0 4, .vmul .f32 ⟨.rtz, true⟩ 1 2 3 4),
      (formR 0x12 0x13 8 9 49 50 51 0 4, .vdiv .f32 ⟨.rtz, true⟩ 1 2 3 4),
      (formR 0x12 0x3 9 0 49 50 51 52 5, .vfma .f16 ⟨.rne, false⟩ 1 2 3 4 5),
      (formR 0x12 0x4 9 0 49 50 51 52 5, .vfnma .f16 ⟨.rne, false⟩ 1 2 3 4 5),
      (formR 0x12 0x5 3 0 49 50 51 0 4, .vmin .i64 1 2 3 4),
      (formR 0x12 0x6 3 0 49 50 51 0 4, .vmax .i64 1 2 3 4),
      (formR 0x12 0x9 3 0 49 50 51 0 4, .vand .i64 1 2 3 4),
      (formR 0x12 0xa 3 0 49 50 51 0 4, .vor .i64 1 2 3 4),
      (formR 0x12 0xb 3 0 49 50 51 0 4, .vxor .i64 1 2 3 4),
      (formR 0x12 0xc 3 0 49 50 51 0 4, .vshl .i64 1 2 3 4),
      (formR 0x12 0xd 3 0 49 50 51 0 4, .vshr .i64 1 2 3 4),
      (formR 0x12 0xe 3 0 49 50 51 0 4, .vsar .i64 1 2 3 4),
      (formR 0x12 0x11 3 0 49 50 51 0 4, .vsel .i64 1 2 3 4),
      (formR 0x12 0x7 2 0 49 50 0 0 4, .vabs .i32 1 2 4),
      (formR 0x12 0x8 2 0 49 50 0 0 4, .vneg .i32 1 2 4),
      (formR 0x12 0xf 0 0 63 50 0 0 4, .vmov 15 2 4),
      (formR 0x12 0x10 10 0 49 31 0 0 4, .vbcast .bf16 1 31 4),
      (formR 0x12 0x12 4 0 49 31 0 0 4, .vidx .n8 1 31 4),
      (formR 0x12 0x14 2 0 49 50 51 52 5, .vclamp .i32 1 2 3 4 5)] = true := by decide +kernel

/-- R319, R324. -/
theorem test_decode_vmask :
    decodesTo 8 [
      (formR 0x13 0x0 8 2 5 50 51 0 4, .vcmp .f32 .lt 5 2 3 4),
      (formR 0x13 0x1 0 0 5 6 7 0 0, .kand 5 6 7),
      (formR 0x13 0x2 0 0 5 6 7 0 0, .kor 5 6 7),
      (formR 0x13 0x3 0 0 5 6 7 0 0, .kxor 5 6 7),
      (formR 0x13 0x4 0 0 5 6 0 0 0, .knot 5 6),
      (formR 0x13 0x5 0 0 25 6 0 0 0, .kpop 25 6),
      (formR 0x13 0x6 0 0 5 26 27 0 0, .kset 5 26 27),
      (formR 0x13 0x7 0 0 25 6 27 0 0, .kget 25 6 27)] = true := by decide +kernel

/-- R332 to R334. -/
theorem test_decode_vmem :
    decodesTo 8 [
      (formM 0x14 0x0 15 5 49 11 35 3 0x20, .vld .e2m1 .mx ⟨.acq, .strm, .fd⟩ 1 3 32 3),
      (formM 0x14 0x1 11 0 18 49 35 0 0x20, .vst .e4m3 .ws ⟨.rlx, .normal, .cx⟩ 3 32 1 2),
      (formM 0x14 0x2 2 0 49 4 35 0 0x20, .vlds .i32 ⟨.rlx, .normal, .cx⟩ 1 3 32 4),
      (formM 0x14 0x3 2 0 4 49 35 0 0x20, .vsts .i32 ⟨.rlx, .normal, .cx⟩ 3 32 1 4),
      (formM 0x14 0x4 8 0 49 50 35 0 0x20, .vgath .f32 ⟨.rlx, .normal, .cx⟩ 1 3 32 2),
      (formM 0x14 0x5 8 0 50 49 35 0 0x20, .vscat .f32 ⟨.rlx, .normal, .cx⟩ 3 32 1 2),
      (formM 0x14 0x6 0 0 0 49 35 0 0x20, .vstp ⟨.rlx, .normal, .cx⟩ 3 32 1),
      (formM 0x14 0x7 2 0 49 0 35 0 0x20, .vldw .i32 .none ⟨.rlx, .normal, .cx⟩ 1 3 32),
      (formM 0x14 0xa 0 0 49 2 35 0 0x20, .vldsc .ws ⟨.rlx, .normal, .cx⟩ 1 3 32),
      (formM 0x14 0xb 0 0 1 49 35 0 0x20, .vstsc .mx ⟨.rlx, .normal, .cx⟩ 3 32 1)] = true ∧
    decodesTo 12 [
      (formL 0x14 0x8 0 1 49 14 35 0x4 0x40, .tlda .dv .strm 1 3 64 14),
      (formL 0x14 0x9 0 0 3 60 35 0x2 0x40, .tsta .cl .normal 3 64 12 3)] = true := by decide +kernel

/-- R328 to R331. -/
theorem test_decode_vcvt :
    decodesTo 8 [
      (formR 0x15 0x0 8 0 49 50 1 9 3, .vcvt .f32 .f16 ⟨.rne, false⟩ 1 2 1 3),
      (formR 0x15 0x1 11 0 49 50 0 1 0, .vqnt .e4m3 .mx ⟨.rne, false⟩ 1 2 0),
      (formR 0x15 0x2 10 3 49 50 1 0 3, .vdqnt .bf16 ⟨.rup, false⟩ 1 2 1 3),
      (formR 0x15 0x3 0 0 49 50 27 0 0, .vretag 1 2 0x1B),
      (formR 0x15 0x4 0 0 3 50 0 0 0, .vtag 3 2)] = true := by decide +kernel

/-- R325. -/
theorem test_decode_vsf :
    decodesTo 8 [
      (formR 0x16 0x0 8 4 49 50 0 0 3, .vexp2 .f32 ⟨.rna, false⟩ 1 2 3),
      (formR 0x16 0x1 8 4 49 50 0 0 3, .vlog2 .f32 ⟨.rna, false⟩ 1 2 3),
      (formR 0x16 0x2 8 4 49 50 0 0 3, .vrcp .f32 ⟨.rna, false⟩ 1 2 3),
      (formR 0x16 0x3 8 4 49 50 0 0 3, .vrsqrt .f32 ⟨.rna, false⟩ 1 2 3),
      (formR 0x16 0x4 8 4 49 50 0 0 3, .vsqrt .f32 ⟨.rna, false⟩ 1 2 3),
      (formR 0x16 0x5 8 4 49 50 0 0 3, .vsinpi .f32 ⟨.rna, false⟩ 1 2 3),
      (formR 0x16 0x6 8 4 49 50 0 0 3, .vcospi .f32 ⟨.rna, false⟩ 1 2 3),
      (formR 0x16 0x7 8 4 49 50 0 0 3, .vtanh .f32 ⟨.rna, false⟩ 1 2 3),
      (formR 0x16 0x8 8 4 49 50 0 0 3, .vsigm .f32 ⟨.rna, false⟩ 1 2 3),
      (formR 0x16 0x9 8 4 49 50 0 0 3, .verf .f32 ⟨.rna, false⟩ 1 2 3)] = true := by decide +kernel

/-- R326. -/
theorem test_decode_vperm :
    decodesTo 8 [
      (formR 0x17 0x0 8 5 3 50 0 0 4, .vrsum .f32 ⟨.sr, false⟩ 3 2 4),
      (formR 0x17 0x1 3 0 3 50 0 0 4, .vrmax .i64 3 2 4),
      (formR 0x17 0x2 3 0 3 50 0 0 4, .vrmin .i64 3 2 4),
      (formR 0x17 0x3 14 0 49 50 51 0 4, .vperm .e2m3 1 2 3 4),
      (formR 0x17 0x4 15 0 49 50 5 0 4, .vrotl .e2m1 1 2 5 4),
      (formR 0x17 0x5 2 0 49 50 51 1 4, .vzip .i32 true 1 2 3 4),
      (formR 0x17 0x6 2 0 49 50 51 0 4, .vunzip .i32 false 1 2 3 4),
      (formR 0x17 0x7 2 0 3 50 5 0 0, .vext .i32 3 2 5),
      (formR 0x17 0x8 2 0 49 4 5 0 0, .vins .i32 1 4 5)] = true := by decide +kernel

/-- R335 to R344. -/
theorem test_decode_mtx :
    decodesTo 8 [
      (formR 0x18 0x0 0 0 0 4 0 0 0, .mbegin 4),
      (formR 0x18 0x1 0 0 0 0 0 0 0, .mend),
      (formR 0x18 0x3 0 0 3 0 0 0 0, .mzero 3),
      (formR 0x18 0x7 0 0 3 4 5 0 0, .manch 3 4 5),
      (formR 0x18 0x8 0 0 0 0 0 0 0, .mwait)] = true ∧
    decodesTo 16 [
      (formE 0x18 0x2 11 0 2 35 36 37 0 0x19d00800040, .mma 2 ⟨.e4m3, .mx, 3, 0x40⟩ ⟨.e3m2, .ws, 4, 0x80⟩ (some 5) true),
      (formE 0x18 0x2 8 0 2 35 36 0 0 0x800800040, .mma 2 ⟨.f32, .none, 3, 0x40⟩ ⟨.f32, .none, 4, 0x80⟩ none false)] = true ∧
    decodesTo 12 [
      (formL 0x18 0x4 8 8 0 1 37 0x80 0x10, .mst .f32 ⟨.rne, true⟩ 5 0x10 1 0x80),
      (formL 0x18 0x5 0 0 1 0 37 0x200 0x10, .mld 1 5 0x10 0x200),
      (formL 0x18 0x6 8 0 48 0 36 0x0 0x10, .mldt .f32 0 4 0x10)] = true := by decide +kernel

/-! ### Results: worked examples of the spec -/

/-- A context of core 0 with registers of its own, whose turn it is; the core has 512 KiB of scratchpad and is not in boot mode. -/
def on (n : Nat) (g : Assoc Word) (p : Assoc Ptr) (f : Core → Core) (h : Ctx → Ctx) : State :=
  let k := { State.reset.core 0 with split := 4, bootMode := false }
  let x := { k.ctx n with g := g, p := p, live := true, pc := 0x100000 }
  let s := { State.reset with curCore := 0, curSlot := n }
  (s.setCore 0 (f k)).setCtx 0 n (h x)

/-- The same without any change to core or context. -/
def plainOn (n : Nat) (g : Assoc Word) (p : Assoc Ptr) : State := on n g p id id

/-- A value of the next state; 0xDEAD where there is none. -/
def nextOf (o : Host.Outcome State Fault Refusal) (f : State → Nat) : Nat :=
  match o with
  | .next t => f t
  | .fault _ | .refused _ => 0xDEAD

/-- Whether an instruction with g2 and g3 writes `v` to g1 and sets the flags `fl`. -/
def gives (i : Instr) (x y : Word) (v : Nat) (fl : Flags) : Bool :=
  nextOf (exec i (plainOn 2 [(2, x), (3, y)] [])) (fun t => (t.now.readG 1).toNat) = v &&
    nextOf (exec i (plainOn 2 [(2, x), (3, y)] [])) (fun t => t.now.fpstat.toNat) = fl.toNat

/-- The table of edge values of R254. -/
theorem test_alu_edges :
    gives (.div .i32 1 2 3) 7 0 0xFFFFFFFFFFFFFFFF 0 = true ∧ gives (.div .n32 1 2 3) 7 0 0x00000000FFFFFFFF 0 = true ∧
      gives (.rem .i32 1 2 3) 7 0 7 0 = true ∧ gives (.div .i8 1 2 3) 0x80 0xFF 0xFFFFFFFFFFFFFF80 0 = true ∧
      gives (.rem .i64 1 2 3) 0x8000000000000000 0xFFFFFFFFFFFFFFFF 0 0 = true ∧ gives (.shl .i32 1 2 3) 1 33 2 0 = true ∧
      gives (.sar .i16 1 2 3) 0x8000 4 0xFFFFFFFFFFFFF800 0 = true ∧ gives (.shr .i16 1 2 3) 0x8000 4 0x800 0 = true ∧
      gives (.mulh .n64 1 2 3) 0xFFFFFFFFFFFFFFFF 2 1 0 = true ∧
      gives (.mulh .i64 1 2 3) 0xFFFFFFFFFFFFFFFF 2 0xFFFFFFFFFFFFFFFF 0 = true ∧ gives (.rol .n8 1 2 3) 0x81 1 3 0 = true ∧
      gives (.clz .n32 1 2) 0xFFFFFFFF00000000 0 0x20 0 = true := by decide +kernel

/-- The table of `fcvt` examples of R265. -/
theorem test_fcvt_examples :
    gives (.fcvt .i32 .f32 ⟨.rtz, false⟩ 1 2) 0xC0200000 0 0xFFFFFFFFFFFFFFFE fNX = true ∧
      gives (.fcvt .i32 .f32 ⟨.rne, false⟩ 1 2) 0x4F32D05E 0 0x7FFFFFFF fNV = true ∧
      gives (.fcvt .i32 .f32 ⟨.rne, false⟩ 1 2) 0x7FC00000 0 0 fNV = true ∧
      gives (.fcvt .bf16 .f32 ⟨.rne, false⟩ 1 2) 0x3F808000 0 0x3F80 fNX = true ∧
      gives (.fcvt .f32 .n64 ⟨.rne, false⟩ 1 2) 0xFFFFFFFFFFFFFFFF 0 0x5F800000 fNX = true := by decide +kernel

/-- R263, R267: `fabs.bf16` of a subnormal gives zero, and `fmovi.bf16 g3, 0.1` writes 0x3DCD. -/
theorem test_float_examples :
    gives (.fabs .bf16 1 2) 0x8001 0 0 0 = true ∧ gives (.fmovi .bf16 1 0x3DCCCCCD) 0 0 0x3DCD 0 = true ∧
      gives (.fcmp .f32 .eq 1 2 3) 0x80000000 0 1 0 = true ∧ gives (.fcmp .f32 .lt 1 2 3) 0x7FC00000 0 0 fNV = true ∧
      gives (.fcmp .f32 .eq 1 2 3) 0x7F800001 0 0 fNV = true ∧ gives (.fcmp .f32 .ne 1 2 3) 0x7FC00000 0 1 0 = true := by decide +kernel

/-- R257: the constant 0x0000_1234_8000_0000 in two instructions. -/
theorem test_long_constant :
    gives (.lil .i64 1 0x80000000) 0 0 0xFFFFFFFF80000000 0 = true ∧ gives (.lih 1 2 0x1234) 0xFFFFFFFF80000000 0 0x123480000000 0 = true := by
  decide +kernel

/-- R259: the pointer of `ploc p3, 0x1_0100_0000`. -/
theorem test_ploc : nextOf (exec (.ploc 3 1 0x01000000) (plainOn 2 [] [])) (fun t => (t.now.readP 3).toNat) = 0xFF0000000101000000 := by decide +kernel

/-- R176: with e4m3 on both sides, SA = 1, SB = 8 and n = 256 the proposal is 22. -/
theorem test_manch :
    nextOf (exec (.manch 1 2 3) (plainOn 1 [(2, 0x00000100_00000B0B), (3, 0x41000000_3F800000)] [])) (fun t => (t.now.readG 1).toNat) = 22 := by
  decide +kernel

/-- R115: the check value of CRC-32C. -/
theorem test_crc : crc32c [0x31, 0x32, 0x33, 0x34, 0x35, 0x36, 0x37, 0x38, 0x39] = 0xE3069283 := by decide +kernel

/-- R117: the lines of the example page. -/
theorem test_drain_lines :
    let words (l : List Nat) : List Byte := l.flatMap fun n => bytesOfBits 4 n
    packLine (zeros 64) (zeros 64) = (0, []) ∧
      packLine (zeros 64) (words (List.range 16)) = (2, [0x04, 0x20, 0x88, 0x41, 0x8A, 0x39, 0x28, 0xA9, 0xC5, 0x9A, 0x7B]) ∧
      packLine (words (List.range 16)) (words ((List.range 16).map (· + 1))) = (2, [0x01, 0x55, 0x55, 0x55, 0x55]) ∧
      packLine (words ((List.range 16).map (· + 1))) (words ((List.range 16).map (· + 1))) = (1, []) := by decide +kernel

/-- R184: the block that `vqnt.e4m3.mx` quantises: 120, 100, 3.25, −0.0078125 and zeros. -/
theorem test_vqnt :
    let a : VRegState := ⟨0xBC000000_40500000_42C80000_42F00000, 8, 0, 0⟩
    let s := on 1 [] [] (fun k => { k with v := [(2, a)] }) id
    nextOf (exec (.vqnt .e4m3 .mx ⟨.rne, false⟩ 1 2 0) s) (fun t => (t.here.vreg 1).data.toNat) = 0x90557C7E ∧
      nextOf (exec (.vqnt .e4m3 .mx ⟨.rne, false⟩ 1 2 0) s) (fun t => (t.here.vreg 1).tag.toNat) = 0x1B ∧
      nextOf (exec (.vqnt .e4m3 .mx ⟨.rne, false⟩ 1 2 0) s) (fun t => slotOf (t.here.vreg 1).side 0) = 0x3E800000 ∧
      nextOf (exec (.vqnt .e4m3 .mx ⟨.rne, false⟩ 1 2 0) s) (fun t => t.now.fpstat.toNat) = 0x14 := by decide +kernel

/-- R254: `ext.i64` sign-extends its field. -/
theorem test_ext : gives (.ext .i64 1 2 3 4) 0 0 0 0 = true ∧
    nextOf (exec (.ext .i64 1 2 3 4) (plainOn 2 [(2, 0xF0), (3, 4), (4, 4)] [])) (fun t => (t.now.readG 1).toNat) = 0xFFFFFFFFFFFFFFFF ∧
    nextOf (exec (.ext .n64 1 2 3 4) (plainOn 2 [(2, 0xF0), (3, 4), (4, 4)] [])) (fun t => (t.now.readG 1).toNat) = 0xF := by decide +kernel

/-! ### Witnesses: states and operands that meet the hypotheses of the statements, for each clause -/

/-- Whether an access reaches local space at `key`, as `reachesLocal` asks. -/
def localAt (s : State) (va : Ptr) (n : Nat) (k : Access) (key : Nat) : Bool :=
  decide (s.locate s.curCore s.curSlot va.toNat n k = (.at_ key, s)) && decide (3 ≤ keySpace key) && decide (s.keysOf key n).Nodup &&
    ((s.keysOf key n).all fun a => 3 ≤ keySpace a && !s.keyFenced a && s.wayTo s.curCore a) &&
    s.unwatched s.curCore &&
    s.unwatched (keyCore ((s.keysOf key n).headD 0))

theorem localAt_reaches {s : State} {va : Ptr} {n : Nat} {k : Access} {key : Nat} (h : localAt s va n k key = true) :
    s.reachesLocal va n k (s.keysOf key n) := by
  simp only [localAt, Bool.and_eq_true, decide_eq_true_eq] at h
  obtain ⟨⟨⟨⟨⟨h1, h2⟩, h3⟩, h4⟩, h5⟩, h6⟩ := h
  exact ⟨key, h1, h2, rfl, h3, h4, h5, h6⟩

/-- A job whose flags are those of its header, with home core 0. -/
def testJob (flags : BitVec 16) : Job where
  codebase := 0x100000
  ctlEntry := 0
  strayEntry := 0x40
  qEntry := 0x80
  errEntry := 0xC0
  wlog := 8
  split := 4
  flags := flags
  nTasks := 2
  home := 0
  ended := 0
  taintCount := 0
  taintMask := 0
  armed := false
  writtenOff := 0
  incomplete := false
  pre := .running
  launch := none
  pauser := none
  joined := []
  deadline := 0
  parked := []
  overflow := []
  joins := []
  joinFree := []
  joinNext := 0
  snap := none
  snaps := []
  header := zeros 64
  grid := none
  scratch := []
  reserved := []

/-- Field 0 with cluster 0 and a job. -/
def testField (j : Option Job) : FieldSt := ⟨0, 0, 1, 1, 1, 1, false, 1, 1, [0], [], [], [], 0, 0, [], [], j⟩

/-- The state with field 0. -/
def inField (s : State) (j : Option Job) : State := { s with fields := [(0, testField j)] }

/-- A vector register with a tag, all lanes zero. -/
def tagged (t : BitVec 6) : VRegState := ⟨0, t, 0, 0⟩

/-- A record of slot 2. -/
def testRecord (kind : TrapKind) (bytes : Option Nat) : TrapRec := ⟨.misaligned, kind, 0, false, 0x100000, 5, 0, 0x100008, bytes⟩

/-- Slot 0 with a record in slot 2. -/
def withRecord (r : TrapRec) : State := inField ((plainOn 0 [(4, 2)] []).setCtx 0 2 { State.reset.ctx 0 2 with trap := some r, wheld := 5 })
  (some (testJob 0))

/-- AluResult, ImmediateUnaryResult, PointerResult, FloatResult, PointerCompare, SystemRegisters' first part: any context that issues. -/
theorem witness_steady : (plainOn 2 [(4, 7)] []).steady = true ∧ (plainOn 1 [] []).control = true := by decide +kernel

theorem witness_FloatCompare :
    valuesMeet .lt (value .f32 0x3F800000) (value .f32 0x40000000) ∧ ¬valuesMeet .gt (value .f32 0x3F800000) (value .f32 0x40000000) := by
  have a : value .f32 0x3F800000 = .num false 8388608 (-23) false := by decide +kernel
  have b : value .f32 0x40000000 = .num false 8388608 (-22) false := by decide +kernel
  rw [a, b]
  constructor <;> norm_num [valuesMeet, valueLt, ratOf]

theorem witness_BranchJumpResult :
    let s := plainOn 2 [] [(3, 0x1000), (15, 0xFF000000000000000C)]
    s.steady = true ∧ s.now.text = none ∧ s.now.readP 3 % 4 = 0 ∧ s.now.readP 15 % 4 = 0 := by decide +kernel

theorem witness_LoopResult :
    let l : LoopLevel := ⟨true, 0x100000, 0x100008, 3⟩
    let s := plainOn 0 [(4, 1)] []
    let s1 := on 0 [(4, 0xFFFFFFFF)] [] id fun x => { x with loop0 := l }
    s.steady = true ∧ s.now.loop0.active = false ∧ (s.now.readG 4).setWidth 32 ≠ 0#32 ∧ s1.steady = true ∧ s1.now.loop0.active = true ∧
      s1.now.loop1.active = false ∧ s1.now.pc + (2 : BitVec 24).signExtend 72 * 4 ≤ s1.now.loop0.stop ∧
      s1.now.loop0.stop < s1.now.pc + (3 : BitVec 24).signExtend 72 * 4 ∧ inRegion s1.now.pc s1.now.loop0.stop = s1.now.loop0.stop ∧
      (s.now.readG 5).setWidth 32 = 0#32 ∧ ∃ w room u, s.fetchAt 0 0 (s.now.pc + 8) = (.code w room, u) := by
  refine ⟨by decide +kernel, by decide +kernel, by decide +kernel, by decide +kernel, by decide +kernel, by decide +kernel,
    by decide +kernel, by decide +kernel, by decide +kernel, by decide +kernel, _, _, _, rfl⟩

theorem witness_IssueChecks :
    let s := plainOn 2 [] []
    let m := inField (plainOn 1 [] []) (some (testJob 1))
    let c := on 2 [] [] id fun x => { x with text := some [] }
    (s.now.lates = [] ∧ m.now.lates = [] ∧ c.now.lates = []) ∧ (supervisorOnly (.haltx 1) = true ∧ s.curSlot ≠ 0 ∧ s.now.text = none) ∧ (controlOnly (.vmov 1 2 0) = true ∧ s.curSlot ≠ 1) ∧
      matrixOnly .mend = true ∧ (m.curSlot = 1 ∧ m.now.text = none ∧ (m.jobOf m.curCore).any Job.noMatrix = true) ∧ c.now.text ≠ none := by
  decide +kernel

theorem witness_TrapsBeforeEffect :
    let s := plainOn 2 [] [(3, 0x1002), (4, 0xFF0000000000000041)]
    let c := on 2 [] [] id fun x => { x with text := some [] }
    let l : LoopLevel := ⟨true, 0x100000, 0x100008, 3⟩
    let o := on 2 [(4, 1)] [] id fun x => { x with loop0 := l, loop1 := l }
    let v := on 1 [] [] (fun k => { k with v := [(1, tagged 8), (2, tagged 9), (3, tagged 0x1B)] }) id
    (s.steady = true ∧ s.now.text = none ∧ (s.now.readP 3).toNat % 4 ≠ 0 ∧ (s.now.readP 4).toNat % 8 ≠ 0) ∧
      (c.steady = true ∧ c.now.text ≠ none) ∧
      (o.steady = true ∧ (o.now.readG 4).setWidth 32 ≠ 0#32 ∧ o.now.loop0.active = true ∧ o.now.loop1.active = true) ∧ v.control = true ∧
      (v.here.vreg 1).tag = tagOf .none .f32 ∧ (v.here.vreg 2).tag ≠ tagOf .none .f32 ∧ (v.here.vreg 3).tag ≠ tagOf .none .f32 ∧
      (v.here.vreg 3).tag ≠ tagOf .none .f16 ∧ (v.here.vreg 3).tag ≠ tagOf .none .bf16 ∧ (v.here.vreg 1).tag.toNat / 16 = 0 ∧
      (v.here.vreg 0).tag.toNat / 16 = 3 := by decide +kernel

theorem witness_CheckAndTrap :
    let s := plainOn 2 [] []
    let e := on 2 [] [] id fun x => { x with cir := 8 }
    (s.steady = true ∧ s.now.text = none ∧ s.curSlot ≠ 0 ∧ s.now.cir.extractLsb' 0 4 = 0) ∧
      e.steady = true ∧ e.now.text = none ∧ e.now.cir.extractLsb' 0 4 ≠ 0 := by decide +kernel

theorem witness_TrapEntry :
    (plainOn 11 [] []).curSlot ≠ 0 ∧ ((plainOn 0 [] []).curSlot = 0 ∧ (plainOn 0 [] []).now.trap = none) ∧
      (on 0 [] [] id fun x => { x with trap := some (testRecord .p none) }).now.trap ≠ none := by decide +kernel

theorem witness_RecordReturn :
    let p := withRecord (testRecord .p (some 8))
    let a := withRecord (testRecord .a none)
    let meets (s : State) (r : TrapRec) : Prop :=
      s.steady = true ∧ s.now.text = none ∧ s.curSlot = 0 ∧ (s.now.readG 4).toNat % 256 = 2 ∧ (s.here.ctx 2).trap = some r ∧
        s.settled s.curCore 2 = true ∧ (s.here.ctx 2).replies = [] ∧ (s.here.ctx 2).role ≠ .burst ∧ s.here.deflected = [] ∧
        (s.jobOf s.curCore).isSome = true ∧ s.coreOfLid (domLid (s.here.ctx 2).whome) = some 0 ∧ (s.here.ctx 2).wheld ≠ 0
    let c := (plainOn 0 [(4, 1)] []).setCtx 0 1 { State.reset.ctx 0 1 with trap := some (testRecord .p (some 8)) }
    meets p (testRecord .p (some 8)) ∧ meets a (testRecord .a none) ∧
      (c.steady = true ∧ c.now.text = none ∧ c.curSlot = 0 ∧ (c.now.readG 4).toNat % 256 = 1 ∧
        (c.here.ctx 1).trap = some (testRecord .p (some 8)) ∧ c.here.settled 1 = true) := by decide +kernel

/-- RecordReturn: slot 0's own record, a notice that is delivered, and the record of a control context with weight. -/
theorem witness_RecordReturn_ends :
    let base (s : State) (code : Nat) : Prop := s.steady = true ∧ s.now.text = none ∧ s.curSlot = 0 ∧ (s.now.readG 4).toNat % 256 = code
    let own (r : TrapRec) : State := on 0 [] [] id fun x => { x with trap := some r }
    let told (j : Option Job) : State := inField (on 0 [(4, 0xFF)] [] (fun k => { k with delivered := some ⟨.cellReset, 0, 1, false, 0, 0, 0⟩ }) id) j
    let c : State := inField ((plainOn 0 [(4, 1)] []).setCtx 0 1
      { State.reset.ctx 0 1 with live := true, trap := some (testRecord .p (some 8)), wheld := 5 }) (some (testJob 0))
    (base (own (testRecord .p (some 8))) 0 ∧ (own (testRecord .p (some 8))).now.trap = some (testRecord .p (some 8))) ∧
      (base (own (testRecord .a none)) 0 ∧ (own (testRecord .a none)).now.trap = some (testRecord .a none)) ∧
      (base (told none) 255 ∧ (told none).here.delivered.isSome = true ∧ (told none).jobOf 0 = none) ∧
      (base (told (some (testJob 0))) 255 ∧ (told (some (testJob 0))).here.delivered.isSome = true ∧ ((told (some (testJob 0))).jobOf 0).isSome = true) ∧
      base c 1 ∧ (c.here.ctx 1).trap.isSome = true ∧ c.here.settled 1 = true ∧ c.settled c.curCore 1 = true ∧ (c.here.ctx 1).replies = [] ∧
        c.here.deflected = [] ∧ c.here.pipemap = 0 ∧ c.coreOfLid (domLid (c.here.ctx 1).whome) = some 0 ∧ (c.here.ctx 1).wheld ≠ 0 ∧
        (c.jobOf c.curCore).isSome = true := by decide +kernel

theorem witness_IdleResult :
    let n : Notice := ⟨.cellReset, 0, 1, false, 0, 0, 0⟩
    let r := withRecord (testRecord .p none)
    let t := on 0 [] [] (fun k => { k with notices := [n] }) id
    let w := on 0 [] [] (fun k => { k with wakes := 1 }) id
    let late : State :=
      { on 0 [(4, 3)] [] id (fun x => { x with waiting := some ⟨.idle, 0, 7⟩, stage := 1, latch := 1024 * 3 + 32 * 4 + 1 }) with cycle := 10 }
    let base (s : State) : Prop := s.steady = true ∧ s.now.text = none ∧ s.curSlot = 0
    let waits (s : State) (v : Nat) (d a : GReg) : Prop := (s.setCtx s.curCore 0 { s.now with stage := 0, latch := 0 }).steady = true ∧
      s.now.stage = 1 ∧ s.now.latch = 1024 * v + 32 * a.toNat + d.toNat
    (base r ∧ r.here.firstRecord = some 2) ∧ (base t ∧ t.here.firstRecord = none ∧ t.here.notices = [n]) ∧
      (base w ∧ w.here.firstRecord = none ∧ w.here.notices = [] ∧ w.here.wakes ≠ 0) ∧
      waits late 3 1 4 ∧ late.now.text = none ∧ late.curSlot = 0 ∧ late.here.firstRecord = none ∧ late.here.notices = [] ∧ late.here.wakes = 0 ∧
        late.now.waiting = some ⟨.idle, 0, 7⟩ ∧ 7 + 3 ≤ late.cycle := by
  decide +kernel

theorem witness_SystemRegisters :
    let s := plainOn 0 [(5, 3)] []
    let u := plainOn 2 [] []
    (s.steady = true ∧ s.now.text = none ∧ s.curSlot = 0) ∧ u.curSlot ≠ 0 ∧ (regOf 0x0FF = none ∧ u.now.text = none) ∧
      (regOf 0x047 = some .kvec ∧ regOf 0x06F = some (.wval 3) ∧ regOf 0x083 = some .lease ∧ regOf 0x021 = some .fpstat ∧
        regOf 0x020 = some .fpctl ∧ regOf 0x043 = some .trapctx ∧ regOf 0x0F0 = some .cycle) ∧
      (plainMask .kvec).isSome = true ∧ (plainMask (.wval 3)).isSome = true ∧ (plainMask .lease).isSome = true ∧
      Reg.supervisor .kvec = true ∧ Reg.supervisor .fpctl = false := by decide +kernel

/-- A core other than 0 in turn; core 1 is east of core 0. -/
def withCore (s : State) (c : Nat) (f : Core → Core) : State := s.setCore c (f (s.core c))

/-- The keys of the own scratchpad of core 0. -/
def scratchKey (o : Nat) : Nat := keyScratch 0 o

theorem witness_TlbAndPairing :
    let live (x : Ctx) : Ctx := { x with live := true }
    let w := plainOn 0 [] []
    let e := (plainOn 0 [] []).setCtx 1 1 (live (State.reset.ctx 1 1))
    let p : PairState :=
      ⟨1, false, 0, false, false, 0, false, 0, 0, 0, 0, 0, [], [], [], State.reset.ctx 0 1, [], [], [], 0, false, [], [], [], []⟩
    let covered (s : State) (a : Ptr) (b : Word) (dev : Bool) : Prop :=
      ∀ e ∈ s.cores, s.tlbCores s.curCore dev e.1 = true → e.2.usesPage (decide (b = 0)) a.toNat b.toNat = false
    let held := on 0 [(4, 0x10000)] [(4, 0x20000)] (fun k => { k with tlb := [⟨0, 2, 1⟩, ⟨0, 5, 1⟩] }) id
    let s3 := on 0 [] [] (fun k => { k with pair := some p }) id
    let east : State := { plainOn 0 [] [] with curCore := 1 }
    let base (s : State) : Prop := s.steady = true ∧ s.now.text = none ∧ s.curSlot = 0
    (base east ∧ coreX east.curCore % 2 = 1) ∧
      (base e ∧ coreX e.curCore % 2 = 0 ∧ e.here.pair = none ∧ (e.ctx (eastOf e.curCore) 1).live = true ∧
        (e.ctx (eastOf e.curCore) 1).role = .none) ∧
      (base w ∧ w.here.pair = none ∧ (w.ctx (eastOf w.curCore) 1).live = false) ∧
      (base s3 ∧ s3.here.pair = some p ∧ s3.here.hold = [] ∧ (s3.core p.other).hold = [] ∧ p.other ≠ s3.curCore ∧
        coreX s3.curCore % 2 = 0) ∧
      (base held ∧ covered held (held.now.readP 4) (held.now.readG 4) true ∧ covered held (held.now.readP 4) 0 false ∧
        (⟨0, 2, 1⟩ : TlbEntry).meets 0x20000 0x10000 = true ∧ (⟨0, 5, 1⟩ : TlbEntry).meets 0x20000 0x10000 = false ∧
        held.tlbCores held.curCore false 1 = false) := by decide +kernel

theorem witness_HaltAndStep :
    let base (s : State) : Prop := s.steady = true ∧ s.now.text = none ∧ s.curSlot = 0 ∧ (s.now.readG 4).toNat % 256 = 2
    let other (f : Ctx → Ctx) : State := (plainOn 0 [(4, 2)] []).setCtx 0 2 (f (State.reset.ctx 0 2))
    let run := other id
    let waits := other fun x => { x with waiting := some ⟨.barrier, 0, 0⟩ }
    let halted := other fun x => { x with halted := true }
    (base run ∧ (run.here.ctx 2).halted = false ∧ (run.here.ctx 2).waiting = none) ∧
      (base waits ∧ (waits.here.ctx 2).halted = false ∧ (waits.here.ctx 2).waiting = some ⟨.barrier, 0, 0⟩ ∧
        WaitOn.pastIssue .barrier = false) ∧
      (base halted ∧ (halted.here.ctx 2).halted = true ∧ (halted.here.ctx 2).trap = none) := by decide +kernel

theorem witness_HaltAndStep_every :
    let base (s : State) (v : Nat) : Prop :=
      s.steady = true ∧ s.now.text = none ∧ s.curSlot = 0 ∧ (s.now.readG 4).toNat % 256 = v
    let naming (v : Word) : State := (plainOn 0 [(4, v)] []).setCtx 0 1 { State.reset.ctx 0 1 with halted := true }
    base (naming 0xFF) 0xFF ∧ ((naming 0xFF).ctx 0 1).trap = none ∧ base (naming 0) 0 ∧ base (naming 12) 12 ∧ base (naming 0xFE) 0xFE ∧
      base (naming 11) 11 ∧ base (naming 1) 1 := by decide +kernel

/-- A `stepx` of slot 2 that has let it go, with what has become of the slot. -/
def stepping (f : Ctx → Ctx) : State :=
  (on 0 [(4, 2)] [] id fun x => { x with stage := 1, latch := 7 * 2 ^ 16 + 3 * 16 + 2 }).setCtx 0 2
    (f { State.reset.ctx 0 2 with live := true, gen := 3, retired := 7 })

theorem witness_HaltAndStep_end :
    let base (s : State) : Prop := s.curSlot = 0 ∧ s.now.text = none ∧ s.now.lates = [] ∧ s.now.step1 = false ∧ s.now.after = none ∧
      s.now.eaten = 0 ∧ s.now.stage = 1 ∧ s.now.latch = 7 * 2 ^ 16 + (3 : BitVec 12).toNat * 16 + 2 ∧ (s.here.ctx 2).stepping = false ∧
      (s.here.ctx 2).live = true ∧ (s.here.ctx 2).gen = 3
    let retired := stepping fun x => { x with retired := 8 }
    let withdrawn := stepping id
    let trapped := stepping fun x => { x with trap := some (testRecord .p none) }
    (base retired ∧ (retired.here.ctx 2).trap = none ∧ (retired.here.ctx 2).retired = 7 + 1) ∧
      (base withdrawn ∧ (withdrawn.here.ctx 2).trap = none ∧ (withdrawn.here.ctx 2).retired = 7) ∧
      (base trapped ∧ (trapped.here.ctx 2).trap ≠ none) := by decide +kernel

/-! #### Memory -/

/-- A helper with a pointer to the last 64 bytes of its scratchpad, and one beyond its end. -/
def memState : State := plainOn 2 [(5, 7)] [(4, 0xFF000000000007FFC0), (5, 0xFF0000000000080000)]

theorem witness_LoadResult :
    memState.steady = true ∧ memState.unordered .acq ∧ memState.unlimited ∧
      (∀ n ∈ [1, 2, 4, 8, 16, 64], memState.reachesLocal (memState.now.readP 4 + (0 : BitVec 21).signExtend 72) n .read
        (memState.keysOf (scratchKey 0x7FFC0) n)) ∧
      memState.locate 0 2 (memState.now.readP 5).toNat 8 .read = (.bad .translation, memState) ∧
      memState.locate 0 2 (memState.now.readP 4).toNat 8 .read = (.at_ (scratchKey 0x7FFC0), memState) ∧
      (memState.now.readP 4 + (1 : BitVec 21).signExtend 72).toNat % 8 ≠ 0 := by
  refine ⟨by decide +kernel, .inr (by decide +kernel), .inr (by decide +kernel), ?_, by decide +kernel, by decide +kernel, by decide +kernel⟩
  intro n hn
  fin_cases hn <;> exact localAt_reaches (by decide +kernel)

theorem witness_StoreResult :
    memState.steady = true ∧ memState.unordered .rlx ∧ memState.unlimited ∧
      (memState.walkReads 0 2 (memState.now.readP 4 + (0 : BitVec 21).signExtend 72).toNat).all (memState.wayTo 0) = true ∧ bypasses .rlx .cx = false ∧ bypasses .rel .cl = true ∧
      memState.unwatched memState.curCore = true ∧ memState.settled memState.curCore memState.curSlot = true ∧
      memState.locate 0 2 (memState.now.readP 4 + (0 : BitVec 21).signExtend 72).toNat 64 .write = (.at_ (scratchKey 0x7FFC0), memState) ∧
      memState.reachesLocal (memState.now.readP 4 + (0 : BitVec 21).signExtend 72) 8 .write (memState.keysOf (scratchKey 0x7FFC0) 8) := by
  exact ⟨by decide +kernel, .inl rfl, .inr (by decide +kernel), by decide +kernel, by decide +kernel, by decide +kernel, by decide +kernel, by decide +kernel,
    by decide +kernel, localAt_reaches (by decide +kernel)⟩

/-- FullBits: slot 3 waits for the word first. -/
theorem witness_FullBits_waiter :
    let ks := memState.keysOf (scratchKey 0x7FFC0) 8
    let x : Ctx := { State.reset.ctx 0 3 with live := true, waiting := some ⟨.fullBit, 0, 0⟩, awaits := ks, arrived := 1 }
    let s := memState.setCtx 0 3 x
    s.steady = true ∧ s.settled s.curCore s.curSlot = true ∧ (∀ k ∈ ks, keySpace k = 3 ∧ k / 8 = ks.headD 0 / 8) ∧ s.unheld ks ∧
      s.reachesLocal (s.now.readP 4 + (0 : BitVec 21).signExtend 72) 8 .write ks ∧ s.firstWaiter (ks.headD 0) = some (0, 3, x) ∧ x.awaits = ks := by
  exact ⟨by decide +kernel, by decide +kernel, by decide +kernel, .inr (by decide +kernel), localAt_reaches (by decide +kernel), by decide +kernel, rfl⟩

theorem witness_FullBits :
    let s : State := { memState with full := [(scratchKey 0x7FFC0 / 8, true)] }
    let ks := s.keysOf (scratchKey 0x7FFC0) 8
    s.steady = true ∧ s.settled s.curCore s.curSlot = true ∧ (∀ k ∈ ks, keySpace k = 3 ∧ k / 8 = ks.headD 0 / 8) ∧ s.unheld ks ∧
      s.reachesLocal (s.now.readP 4 + (0 : BitVec 21).signExtend 72) 8 .read ks ∧
      s.reachesLocal (s.now.readP 4 + (0 : BitVec 21).signExtend 72) 8 .write ks ∧ s.fullBit (ks.headD 0) = true ∧
      s.earlierWaiter ks = false ∧ s.waiters (ks.headD 0) = [] := by
  exact ⟨by decide +kernel, by decide +kernel, by decide +kernel, .inr (by decide +kernel), localAt_reaches (by decide +kernel),
    localAt_reaches (by decide +kernel), by decide +kernel, by decide +kernel, by decide +kernel⟩

/-- AtomicResult, ObjectResult, BarrierResult. -/
theorem witness_AtomicResult :
    memState.steady = true ∧ memState.settled memState.curCore memState.curSlot = true ∧ memState.unlimited ∧ memState.now.text = none ∧
      (memState.now.readP 4 + (0 : BitVec 21).signExtend 72).toNat % 16 = 0 ∧
      (∀ n ∈ [4, 8, 16], memState.reachesLocal (memState.now.readP 4 + (0 : BitVec 21).signExtend 72) n .update
        (memState.keysOf (scratchKey 0x7FFC0) n)) ∧
      memState.reachesLocal (memState.now.readP 4 + (0 : BitVec 21).signExtend 72) 16 .read (memState.keysOf (scratchKey 0x7FFC0) 16) := by
  refine ⟨by decide +kernel, by decide +kernel, .inr (by decide +kernel), by decide +kernel, by decide +kernel, ?_,
    localAt_reaches (by decide +kernel)⟩
  intro n hn
  fin_cases hn <;> exact localAt_reaches (by decide +kernel)

theorem witness_FenceResult :
    let s := State.reset
    s.steady = true ∧ s.directory = [] ∧ s.biPending = [] ∧ (∀ c, s.unwatched c = true) ∧ s.unlimited ∧ s.curSlot = 0 ∧
      (∀ r, s.meshOpen s.curCore r = true) ∧ s.settled s.curCore s.curSlot = true := by
  refine ⟨by decide +kernel, by decide +kernel, by decide +kernel, fun c => ?_, .inl (by decide +kernel), by decide +kernel, fun _ => rfl,
    by decide +kernel⟩
  have r : State.reset.core c = Core.reset := rfl
  simp only [State.unwatched, r]
  decide +kernel

/-! #### Barriers, messages, tasks -/

theorem witness_BarrierResult :
    let s := memState
    let o : State := { memState with mem := [⟨scratchKey 0x7FFCC, 3⟩] }
    let va := s.now.readP 4 + (0 : BitVec 21).signExtend 72
    let old (s : State) := bitsOfBytes ((s.keysOf (scratchKey 0x7FFC0) 16).map s.peek)
    (s.now.role ≠ .burst ∧ s.now.role ≠ .completion ∧ old s / 2 ^ 97 % 2 = 0 ∧
        decide (old s / 2 ^ 96 % 2 ≠ (s.now.readG 5).toNat % 2) = true) ∧
      old o / 2 ^ 97 % 2 = 1 ∧ o.reachesLocal va 16 .read (o.keysOf (scratchKey 0x7FFC0) 16) ∧ (s.now.readG 6).toNat % 32 = 0 := by
  exact ⟨by decide +kernel, by decide +kernel, localAt_reaches (by decide +kernel), by decide +kernel⟩

/-- A helper with weight, in a job that may send code. -/
def sender : State :=
  inField (on 2 [(3, 0x0000000220000000), (4, 1), (6, 0x3FF), (7, 0)] [(4, 0xFF0000000000000040)] id fun x => { x with wheld := 2 })
    (some (testJob 4))

/-- One core is retired, so that the highest logical id names no core. -/
def holed (s : State) : State := { s with flash := { s.flash with retired := [1000] } }

theorem witness_MessageResult :
    sender.steady = true ∧ sender.unlimited ∧ sender.now.text = none ∧
      (let w := (sender.now.readG 4).toNat % 2 ^ 48
       0 < w ∧ w < sender.now.wheld) ∧
      objectAt sender none [] ∧ objectAt sender (some (4, .dv)) (sender.keysOf (scratchKey 0x40) 16) ∧
      (sender.jobOf sender.curCore).any Job.codeMsg = true ∧ (sender.now.readP 4).toNat % 4 = 0 ∧
      ((List.range 2).map fun i => sender.keysOf (scratchKey (0x40 + 4 * i)) 4).length = (2 : BitVec 4).toNat ∧
      (∀ i, i < 2 → sender.reachesLocal (sender.now.readP 4 + BitVec.ofNat 72 (4 * i)) 4 .read
        (((List.range 2).map fun i => sender.keysOf (scratchKey (0x40 + 4 * i)) 4).getD i [])) ∧
      (∃ c, sender.coreOfLid ((sender.now.readG 3).toNat % 1024) = some c) ∧ (holed sender).coreOfLid ((holed sender).now.readG 6).toNat = none ∧
      sender.here.msgPort.length < 2 ∧
      (let f : Flight := sender.flight 0 1 (.weight 0 1)
       let waits : State := sender.setCore 0 { sender.here with msgPort := [(2, f)] }
       waits.steady = true ∧ waits.here.msgPort = (2, f) :: [] ∧ waits.here.injLim = 0xFFFF_FFFF ∧ waits.here.dramLim = 0xFFFF_FFFF ∧
         waits.here.governor = []) := by
  refine ⟨by decide +kernel, .inr (by decide +kernel), by decide +kernel, by decide +kernel, rfl,
    ⟨by decide +kernel, localAt_reaches (by decide +kernel), by decide +kernel⟩, by decide +kernel, by decide +kernel, by decide +kernel, ?_,
    ⟨0, by decide +kernel⟩, by decide +kernel, by decide +kernel, by decide +kernel⟩
  intro i hi
  interval_cases i <;> exact localAt_reaches (by decide +kernel)

/-- A destination beyond the healthy cores, and the borders of the weight check. -/
theorem witness_WeightAndStart :
    let s := on 1 [(4, 1), (5, 8)] [] id fun x => { x with wheld := 2 }
    let full : State := (List.range 10).foldl (fun u i => u.setCtx 0 (i + 2) { State.reset.ctx 0 0 with live := true }) s
    (s.steady = true ∧ s.now.text = none ∧ (s.now.readG 0).toNat % 2 ^ 48 = 0) ∧ (s.now.wheld ≤ (s.now.readG 5).toNat % 2 ^ 48) ∧
      (s.curSlot < 2 ∧ s.here.stopped = false ∧ s.now.waiting = none ∧ s.settled s.curCore s.curSlot = true ∧
        0 < (s.now.readG 4).toNat % 2 ^ 48 ∧ (s.now.readG 4).toNat % 2 ^ 48 < s.now.wheld ∧ (s.now.readG 5).toNat % 4 = 0) ∧
      s.here.freeHelper = some 2 ∧ full.steady = true ∧ full.here.freeHelper = none := by decide +kernel

theorem witness_HelperResult :
    let m : Message := ⟨1, 0, 0, 7, 9, [5], [false], 3, 0, 1, 2, 0, 2, 0, none, 0, none⟩
    let h := inField (on 2 [] [] id fun x => { x with wheld := 2 }) (some (testJob 0))
    let z := plainOn 2 [] []
    let r (w : Nat) (d : BitVec 24) := on 2 [] [] id fun x => { x with replies := [{ m with dom := d }], wheld := w }
    let b := on 2 [] [] id fun x => { x with role := .burst }
    (h.steady = true ∧ 2 ≤ h.curSlot ∧ h.settled h.curCore h.curSlot = true ∧ h.now.replies = [] ∧ h.now.role ≠ .burst ∧
        h.here.deflected = [] ∧ h.coreOfLid (domLid h.now.whome) = some 0 ∧ h.now.wheld ≠ 0) ∧
      z.now.wheld = 0 ∧ (plainOn 1 [] []).curSlot < 2 ∧ (b.steady = true ∧ b.now.text = none ∧ b.now.role = .burst) ∧
      ((r 0 0).steady = true ∧ (r 0 0).now.text = none ∧ (r 0 0).now.role ≠ .burst ∧ (r 0 0).now.role ≠ .completion ∧ (r 0 0).curSlot ≠ 0 ∧
        (r 0 0).now.replies = [{ m with dom := 0 }] ∧ m.obj = none ∧ (r 0 0).here.deflected = [] ∧ (r 0 0).now.wheld = 0) ∧
      ((r 4 0).now.wheld ≠ 0 ∧ (0 : BitVec 24) = (r 4 0).now.whome) ∧
      ((r 4 0x400).now.wheld ≠ 0 ∧ (0x400 : BitVec 24) ≠ (r 4 0x400).now.whome ∧ (r 4 0x400).coreOfLid (domLid 0x400) = some 0 ∧ m.weight ≠ 0) ∧
      (h.fieldOf h.curCore).isSome = true ∧ (h.jobOf h.curCore).isSome = true := by decide +kernel

/-- A task record without successors. -/
def testTask (flags : BitVec 32) (succ : BitVec 128) : TaskRec := ⟨0x100, flags, 0, succ, 3, 5, 0, 0, 0, 0, 0⟩

/-- The control context of core 0 runs a task. -/
def runs (r : Option Running) (f : Core → Core) (h : Ctx → Ctx) (j : Job) : State :=
  inField (on 1 [(4, 1)] [(4, 0xFF0000000000000040), (5, 0xFF0000000000000400)]
    (fun k => f { k with running := r, iterLo := 3, iterHi := 5 }) fun x => h { x with wheld := 4 }) (some j)

theorem witness_TaskEnds :
    let r : Running := ⟨testTask 0 0, none, none, [], 0, false⟩
    let base (s : State) : Prop := s.steady = true ∧ s.now.text = none ∧ s.curSlot = 1 ∧ s.here.matq = [] ∧ s.settled s.curCore 1 = true ∧
      s.fieldOf s.curCore = some (0, testField (some (testJob 0))) ∧ Assoc.find s.fields 0 = some (testField (some (testJob 0)))
    let first := runs (some r) id id (testJob 0)
    let last := runs (some r) (fun k => { k with release := some (0, []) }) id (testJob 0)
    let free := runs none id id (testJob 0)
    (base first ∧ first.here.running = some r ∧ r.join = none ∧ r.task.succ = 0 ∧ first.here.release = none) ∧
      (base last ∧ last.here.running = some r ∧ last.here.release = some (0, []) ∧ last.here.succs = [] ∧ last.now.replies = [] ∧ last.here.pipemap = 0 ∧
        last.now.cir.toNat % 16 = 0 ∧
        (∀ q, q < 4 → coreOf (clusterOf last.curCore) q ≠ last.curCore →
          bit (last.core (coreOf (clusterOf last.curCore) q)).held (posOf last.curCore) = false) ∧
        last.coreOfLid (domLid last.now.whome) = some 0 ∧ last.now.wheld ≠ 0) ∧
      (base free ∧ free.here.running = none ∧ free.here.lapseLeft = [] ∧ free.here.pair = none ∧ free.here.deflected = []) := by
  decide +kernel

theorem get_listed {α : Type} (d : α) (m : Assoc α) (c : Nat) : Assoc.get d m c = d ∨ ∃ v, (c, v) ∈ m := by
  induction m with
  | nil => exact .inl rfl
  | cons e m ih =>
    obtain ⟨j, v⟩ := e
    simp only [Assoc.get]
    split
    · rename_i h
      exact .inr ⟨v, by simp [h]⟩
    · exact ih.imp id fun ⟨w, hw⟩ => ⟨w, List.mem_cons_of_mem _ hw⟩

/-- No core watches when none that is listed does. -/
theorem unwatched_all {s : State} (h : (s.cores.all fun e => s.unwatched e.1) = true) : ∀ c, s.unwatched c = true := by
  intro c
  rcases get_listed Core.reset s.cores c with hc | ⟨k, hk⟩
  · simp only [State.unwatched, State.core, hc]
    decide +kernel
  · exact List.all_eq_true.mp h _ hk

/-- TaskEnds, the successors: the list at 0x400 names one record, at 0x800, which waits for one task. -/
theorem witness_TaskEnds_successor :
    let r : Running := ⟨testTask 0 0xFF0000000000000400, none, none, [], 0, false⟩
    let mem : List Host.Cell := [⟨scratchKey 0x400, 1⟩, ⟨scratchKey 0x411, 8⟩, ⟨scratchKey 0x418, 0xFF⟩, ⟨scratchKey 0x83C, 1⟩]
    let q : Ptr := 0xFF0000000000000400
    let p : Ptr := 0xFF0000000000000800
    let first : State := { runs (some r) id id (testJob 0) with mem := mem }
    let next : State := { runs (some r) (fun k => { k with release := some (0, []), succs := [p] }) id (testJob 0) with mem := mem }
    let base (s : State) : Prop := s.steady = true ∧ s.now.text = none ∧ s.curSlot = 1 ∧ s.here.matq = [] ∧ s.settled s.curCore 1 = true ∧
      (s.fieldOf s.curCore).isSome = true ∧ s.here.running = some r ∧ r.join = none
    (base first ∧ first.here.release = none ∧ r.task.succ = q.setWidth 128 ∧ q ≠ 0 ∧ q.toNat % 64 = 0 ∧
        bitsOfBytes ((first.keysOf (scratchKey 0x400) 8).map first.peek) = 1 ∧
        bitsOfBytes ((((first.keysOf (scratchKey 0x410) 16).map first.peek).drop 0).take 16) = p.toNat ∧ p.toNat % 64 = 0 ∧
        (taskOf ((first.keysOf (scratchKey 0x800) 64).map first.peek)).gang = false) ∧
      first.unlimited ∧ first.reachesLocal q 8 .read (first.keysOf (scratchKey 0x400) 8) ∧
      first.reachesLocal (q + 16) (16 * 1) .read (first.keysOf (scratchKey 0x410) 16) ∧
      first.reachesLocal p 64 .update (first.keysOf (scratchKey 0x800) 64) ∧
      (base next ∧ next.here.release = some (0, []) ∧ next.here.freed = false ∧ next.here.succs[0]? = some p ∧ next.here.succAt = [] ∧
        (taskOf ((next.keysOf (scratchKey 0x800) 64).map next.peek)).gang = false ∧
        (next.keysOf (scratchKey 0x800) 64).drop 60 = next.keysOf (scratchKey 0x83C) 4) ∧
      next.unlimited ∧ next.reachesLocal (p + 60) 4 .update (next.keysOf (scratchKey 0x83C) 4) ∧
      next.reachesLocal p 64 .update (next.keysOf (scratchKey 0x800) 64) := by
  exact ⟨by decide +kernel, .inr (by decide +kernel), localAt_reaches (by decide +kernel), localAt_reaches (by decide +kernel),
    localAt_reaches (by decide +kernel), by decide +kernel, .inr (by decide +kernel), localAt_reaches (by decide +kernel),
    localAt_reaches (by decide +kernel)⟩

theorem witness_TaskDraws :
    let range : Running := ⟨testTask 4 0, some 9, none, [], 0, false⟩
    let pausing := { testJob 0 with pre := .pausing false }
    let n := runs none id id (testJob 0)
    let s := runs (some range) id id (testJob 0)
    let p := runs (some range) id id pausing
    let base (s : State) : Prop := s.steady = true ∧ s.now.text = none ∧ s.curSlot = 1
    (base n ∧ n.here.running = none) ∧
      (base s ∧ s.here.running = some range ∧ range.task.range = true ∧ s.here.iterLo.toNat < s.here.iterHi.toNat ∧
        ((s.jobOf s.curCore).map Job.pre) = some .running) ∧
      (runs (some range) (fun k => { k with iterLo := 5 }) id (testJob 0)).here.iterLo = 5 ∧
      (base p ∧ p.fieldOf p.curCore = some (0, testField (some pausing)) ∧ Assoc.find p.fields 0 = some (testField (some pausing)) ∧
        p.joinFor 0 p.curCore range = some (9, p)) ∧
      (s.unlimited ∧ s.settled s.curCore s.curSlot = true ∧ s.reachesLocal (s.now.readP 4) 64 .read (s.keysOf (scratchKey 0x40) 64) ∧
        (taskOf ((s.keysOf (scratchKey 0x40) 64).map s.peek)).gang = false ∧ (s.now.readP 4).toNat % 64 = 0 ∧
        0 < (s.now.readG 4).toNat % 2 ^ 48 ∧ (s.now.readG 4).toNat % 2 ^ 48 < s.now.wheld ∧ s.here.msgPort.length < 2) := by
  refine ⟨by decide +kernel, by decide +kernel, by decide +kernel, by decide +kernel, .inr (by decide +kernel), by decide +kernel,
    localAt_reaches (by decide +kernel), by decide +kernel, by decide +kernel, by decide +kernel, by decide +kernel⟩

theorem witness_BulkQueued :
    let s := on 1 [(4, 0x0001000100010001), (5, 1)] [(4, 0xFF0000000000000040), (6, 0xFF0000000000000400), (7, 0xFF0000000000000800)] id
      fun x => { x with wheld := 2 }
    let op : BulkOp := .copy false (s.now.readP 4) (s.now.readP 6) 1 1 1 1 (s.now.readP 7)
    let opm : BulkOp := .copym (s.now.readP 4) (s.now.readP 6) 0 5 0 1 true (s.now.readP 7)
    (s.steady = true ∧ s.now.text = none ∧ s.settled s.curCore s.curSlot = true ∧ s.here.bulkq.length < 2 ∧ s.here.copyq.length < 2 ∧ (s.now.readP 4).toNat % 64 = 0 ∧
      0 < (s.now.readG 5).toNat % 2 ^ 48 ∧ (s.now.readG 5).toNat % 2 ^ 48 < s.now.wheld ∧ (s.now.readP 6).toNat % 32 = 0 ∧
      (s.now.readP 7).toNat % 16 = 0 ∧ op.plan.count ≠ 0 ∧ opm.plan.count ≠ 0 ∧ s.now.readG 0 = 0) ∧
      s.reachesLocal (s.now.readP 7) 16 .update (s.keysOf (scratchKey 0x800) 16) := by
  exact ⟨by decide +kernel, localAt_reaches (by decide +kernel)⟩

theorem witness_PipeResult :
    let pipe (m : Word) (e : PipeEnd) : State :=
      on 2 [(4, 0), (5, 0x0000000400000040)] [] (fun k => { k with pipemap := m, pipes := [(0, e)] }) id
    let base (s : State) : Prop := s.steady = true ∧ s.now.text = none ∧ s.settled s.curCore s.curSlot = true
    let fresh := pipe 0x81 ⟨false, false, 0, 0, 0, 0, 0, 0⟩
    let send := pipe 0xC1 ⟨false, false, 0, 0, 0, 0, 0, 3⟩
    let take := pipe 0x81 ⟨true, false, 0x40, 4, 1, 2, 0, 0⟩
    (base fresh ∧ 128 ≤ 0x81 ∧ (fresh.here.pipe 0).closed = false ∧ (fresh.here.pipe 0).ready = false ∧
        (let v := (fresh.now.readG 5).toNat
         v % 2 ^ 32 % 8 = 0 ∧ 0 < v / 2 ^ 32 % 2 ^ 16 ∧ v / 2 ^ 32 % 2 ^ 16 ≤ 4096 ∧ v % 2 ^ 32 + 8 * (v / 2 ^ 32 % 2 ^ 16) ≤ fresh.here.scratchSize)) ∧
      (base send ∧ (64 ≤ 0xC1 % 128 ∧ (send.here.pipe 0).closed = false ∧ (send.here.pipe 0).free ≠ 0 ∧ send.now.role ≠ .burst ∧
        send.now.role ≠ .completion)) ∧
      (base take ∧ 0x81 % 128 < 64 ∧ (take.here.pipe 0).count ≠ 0) := by decide +kernel

/-- PipeResult: no core watches. -/
theorem witness_PipeResult_unwatched : ∀ c, (on 2 [(4, 0)] [] (fun k => { k with pipemap := 0x81 }) id).unwatched c = true :=
  unwatched_all (by decide +kernel)

theorem witness_PipeResult_rot :
    let r : Running := ⟨testTask 0 0, none, none, [0, 1, 2, 3], 0, false⟩
    let s := runs (some r) (fun k => { k with rot := some ⟨0x40, 0x400, 64, true⟩ }) id (testJob 0)
    let own (s : State) (p : PReg) : Prop := (s.now.readP p.toNat).toNat / 2 ^ 64 = 0xFF ∧ (s.now.readP p.toNat).toNat % 2 ^ 64 < 2 ^ 32 ∧
      (s.now.readP p.toNat).toNat % 2 ^ 64 + (64 : BitVec 32).toNat ≤ s.here.scratchSize
    let bad := on 2 [] [(4, 0xFF0000000000000041), (5, 0xFF0000000000080000)] id id
    s.steady = true ∧ s.now.text = none ∧ (s.curSlot = 1 ∧ ∃ r, s.here.running = some r ∧ r.gang.length = 4 ∧ r.paired = false) ∧
      ((s.now.readP 4).toNat % 32 = 0 ∧ own s 4 ∧ own s 5) ∧ (∃ r, s.here.rot = some r ∧ r.done = true) ∧
      ((plainOn 2 [] []).curSlot ≠ 1 ∧ bad.steady = true ∧ bad.now.text = none ∧ (bad.now.readP 4).toNat % 32 ≠ 0 ∧ (bad.now.readP 5).toNat % 32 = 0 ∧
        ¬own bad 5) := by
  exact ⟨by decide +kernel, by decide +kernel, ⟨by decide +kernel, _, rfl, by decide +kernel, by decide +kernel⟩, by decide +kernel,
    ⟨_, rfl, by decide +kernel⟩, by decide +kernel⟩

theorem witness_AccumulateResult :
    let s := inField (on 1 [(4, 1), (5, 0x3FF)] [(4, 0xFF0000000000000040)] id id) (some (testJob 0))
    (s.steady = true ∧ s.now.text = none ∧ s.curSlot = 1 ∧ s.settled s.curCore s.curSlot = true ∧ s.here.matq = [] ∧
      (s.now.readP 4).toNat % 16 = 0 ∧ s.coreOfLid ((s.now.readG 4).toNat % 1024) = some 1 ∧
      s.fieldOf s.curCore = some (0, testField (some (testJob 0))) ∧ (testField (some (testJob 0))).covers (clusterOf 1) = true) ∧
      s.unlimited ∧ s.reachesLocal (s.now.readP 4) 16 .update (s.keysOf (scratchKey 0x40) 16) ∧ s.here.acnq.length < 2 ∧
      (let cmd (to_ : Word) : AcnCmd := ⟨1, 0, 2, 0x40, to_, 3, 5, 7, 0⟩
       let holds (to_ : Word) (j : Option Job) : State := inField (on 1 [] [] (fun k => { k with acnq := [cmd to_] }) id) j
       let base (to_ : Word) (s : State) : Prop := s.steady = true ∧ s.now.text = none ∧ s.settled s.curCore s.curSlot = true ∧
         s.here.acnq = cmd to_ :: [] ∧ (cmd to_).after = 0 ∧ s.here.engineRuns (cmd to_).slot = true ∧ s.saved s.curCore = false
       (base 1 (holds 1 (some (testJob 0))) ∧ (holds 1 (some (testJob 0))).coreOfLid 1 = some 1 ∧
           ((holds 1 (some (testJob 0))).fieldOf 0).isSome = true) ∧
         base 0x3FF (holed (holds 0x3FF none)) ∧ (holed (holds 0x3FF none)).coreOfLid 0x3FF = none) := by
  exact ⟨by decide +kernel, .inr (by decide +kernel), localAt_reaches (by decide +kernel), by decide +kernel, by decide +kernel⟩

/-! #### Vectors, tiles and the matrix engine -/

theorem localAll_reaches {s : State} {va : Nat → Ptr} {n : Nat} {k : Access} (key : Nat → Nat) {ks : Nat → List Nat} {m : Nat}
    (h : ((List.range m).all fun j => localAt s (va j) n k (key j) && decide (ks j = s.keysOf (key j) n)) = true) :
    ∀ j, j < m → s.reachesLocal (va j) n k (ks j) := by
  intro j hj
  have := List.all_eq_true.mp h j (List.mem_range.mpr hj)
  simp only [Bool.and_eq_true, decide_eq_true_eq] at this
  rw [this.2]
  exact localAt_reaches this.1

/-- The control context of core 0 with registers of several tags, and pointers to its scratchpad. -/
def vecState : State :=
  inField (on 1 [(4, 0x40)] [(4, 0xFF0000000000000040)]
    (fun k => { k with
      v := [(1, tagged 8), (2, tagged 8), (3, tagged 8), (4, tagged 0x1B), (5, tagged 0x1B), (6, tagged 2), (7, tagged 6), (8, tagged 0)]
      k := [(1, 0xFFFF)] }) id) (some (testJob 0))

/-- VectorArithmetic, VectorSpecial, MaskAndReduction, PermuteAndConvert's permutations, VectorMoves. -/
theorem witness_VectorArithmetic :
    vecState.control = true ∧ (∀ r ∈ [1, 2, 3], (vecState.here.vreg r).tag = tagOf .none .f32) ∧ Ty.isInt .i32 = true ∧
      (vecState.here.vreg 6).tag = tagOf .none .i32 ∧ (1 : KReg) ≠ 0 ∧ (vecState.here.vreg 4).tag = tagOf .mx .e4m3 ∧
      (vecState.here.vreg 5).tag = (vecState.here.vreg 4).tag ∧ (vecState.here.vreg 4).tag ≠ 0x30 ∧ (vecState.here.vreg 9).tag = 0x30 ∧ (vecState.here.vreg 7).tag = tagOf .none (indexTy (Ty.laneWidth .f32)) := by
  decide +kernel

theorem witness_PermuteAndConvert :
    (vecState.control = true ∧ (vecState.here.vreg 1).tag = tagOf .none .f32 ∧
      (1 : BitVec 3).toNat < max (laneCount (Ty.laneWidth .f32)) (laneCount (Ty.laneWidth .f16)) /
        min (laneCount (Ty.laneWidth .f32)) (laneCount (Ty.laneWidth .f16))) ∧
      ((vecState.here.vreg 4).tag = tagOf .mx .e4m3 ∧
        (3 : BitVec 3).toNat < max (laneCount (Ty.laneWidth .e4m3)) (laneCount (Ty.laneWidth .f32)) /
          min (laneCount (Ty.laneWidth .e4m3)) (laneCount (Ty.laneWidth .f32))) ∧
      (laneCount (Ty.laneWidth .f32) ≤ laneCount (Ty.laneWidth .e4m3) ∧
        (3 : BitVec 3).toNat < laneCount (Ty.laneWidth .e4m3) / laneCount (Ty.laneWidth .f32)) := by decide +kernel

/-- All 256 bytes at 0x40 of the scratchpad, sector by sector. -/
theorem vecState_sectors {k : Access} (hk : ((List.range 8).all fun b =>
      localAt vecState (vecState.now.readP 4 + (0 : BitVec 21).signExtend 72 + BitVec.ofNat 72 (32 * b)) 32 k (scratchKey (0x40 + 32 * b)) &&
        decide ((List.range 32).map (fun i => scratchKey (0x40 + (32 * b + i))) = vecState.keysOf (scratchKey (0x40 + 32 * b)) 32)) = true)
    {used : Nat → Bool} (hu : ∀ o < 256, used o = true) :
    sectorsAt vecState (vecState.now.readP 4 + (0 : BitVec 21).signExtend 72) k used fun o => scratchKey (0x40 + o) := by
  intro b lo hi hb h1 h2 h3 _ _ h
  have first := (h (32 * b) (by omega) (by omega) (hu _ (by omega))).1
  have last := (h (32 * b + 31) (by omega) (by omega) (hu _ (by omega))).2
  have e1 : lo = 32 * b := by omega
  have e2 : hi - lo + 1 = 32 := by omega
  rw [e2, e1]
  exact localAll_reaches (va := fun b => vecState.now.readP 4 + (0 : BitVec 21).signExtend 72 + BitVec.ofNat 72 (32 * b))
    (ks := fun b => (List.range 32).map fun i => scratchKey (0x40 + (32 * b + i))) (fun b => scratchKey (0x40 + 32 * b)) hk b hb

theorem witness_VectorLoads :
    let s := vecState
    let va := s.now.readP 4 + (0 : BitVec 21).signExtend 72
    s.control = true ∧ s.unordered .acqrel ∧ va.toNat % 32 = 0 ∧
      sectorsAt s va .read (fun o => (List.range (laneCount (Ty.laneWidth .i8))).any fun j =>
        (decide (j < laneCount (Ty.laneWidth .i8)) && (s.here.mask 0).getLsbD j) && laneHas (Ty.width .i8) j o) (fun o => scratchKey (0x40 + o)) ∧
      (s.now.readG 4).toNat % 32 = 0 ∧
      (∀ i : Nat, i < 8 → s.reachesLocal (va + BitVec.ofInt 72 (i * (s.now.readG 4).toInt)) 32 .read
        ((List.range 32).map fun o => (fun n => scratchKey (0x40 + n / 32 * 64 + n % 32)) (32 * i + o))) ∧
      (s.here.vreg 6).tag = tagOf .none .i32 ∧
      (∀ j : Nat, j < 64 → s.reachesLocal (va + BitVec.ofInt 72 (4 * (BitVec.ofNat 32 (lane 32 (s.here.vreg 6).data j)).toInt)) 4 .read
        ((List.range 4).map fun o => (fun n => scratchKey (0x40 + n % 4)) (4 * j + o))) := by
  refine ⟨by decide +kernel, .inr (by decide +kernel), by decide +kernel, vecState_sectors (by decide +kernel) (by decide +kernel),
    by decide +kernel, ?_, by decide +kernel, ?_⟩
  · exact localAll_reaches (fun i => scratchKey (0x40 + i * 64)) (by decide +kernel)
  · exact localAll_reaches (fun _ => scratchKey 0x40) (by decide +kernel)

theorem witness_VectorLoads_scales :
    let s := vecState
    let va := s.now.readP 4 + (0 : BitVec 21).signExtend 72
    s.unordered .rlx ∧ va.toNat % 16 = 0 ∧
      ∀ c, c < 64 / 16 → s.reachesLocal (va + BitVec.ofNat 72 (16 * c)) 16 .read ((List.range 16).map fun o => (fun n => scratchKey (0x40 + n)) (16 * c + o)) :=
  ⟨.inl rfl, by decide +kernel, localAll_reaches (fun c => scratchKey (0x40 + 16 * c)) (by decide +kernel)⟩

theorem witness_VectorStores :
    let s := vecState
    let va := s.now.readP 4 + (0 : BitVec 21).signExtend 72
    s.control = true ∧ s.unwatched s.curCore = true ∧ va.toNat % 32 = 0 ∧ (s.here.vreg 8).tag = tagOf .none .i8 ∧
      sectorsAt s va .write (fun o => (List.range (laneCount (Ty.laneWidth .i8))).any fun j =>
        (decide (j < laneCount (Ty.laneWidth .i8)) && (s.here.mask 0).getLsbD j) && laneHas (Ty.width .i8) j o) (fun o => scratchKey (0x40 + o)) ∧
      (s.here.vreg 1).tag = tagOf .none .f32 ∧
      (∀ i : Nat, i < 8 → s.reachesLocal (va + BitVec.ofInt 72 (i * (s.now.readG 4).toInt)) 32 .write
        ((List.range 32).map fun o => (fun n => scratchKey (0x40 + n / 32 * 64 + n % 32)) (32 * i + o))) ∧
      (∀ j : Nat, j < 64 → s.reachesLocal (va + BitVec.ofInt 72 (4 * (BitVec.ofNat 32 (lane 32 (s.here.vreg 6).data j)).toInt)) 4 .write
        ((List.range 4).map fun o => (fun n => scratchKey (0x40 + n % 4)) (4 * j + o))) ∧
      (∃ ty, (s.here.vreg 4).tag = tagOf .mx ty) ∧
      ∀ c, c < 16 / 16 → s.reachesLocal (va + BitVec.ofNat 72 (16 * c)) 16 .write ((List.range 16).map fun o => (fun n => scratchKey (0x40 + n)) (16 * c + o)) := by
  refine ⟨by decide +kernel, by decide +kernel, by decide +kernel, by decide +kernel, vecState_sectors (by decide +kernel) (by decide +kernel),
    by decide +kernel, ?_, ?_, ⟨.e4m3, by decide +kernel⟩, ?_⟩
  · exact localAll_reaches (fun i => scratchKey (0x40 + i * 64)) (by decide +kernel)
  · exact localAll_reaches (fun _ => scratchKey 0x40) (by decide +kernel)
  · exact localAll_reaches (fun c => scratchKey (0x40 + 16 * c)) (by decide +kernel)

theorem witness_VectorFullBits :
    let s : State := { vecState with full := (List.range 32).map fun i => (scratchKey 0x40 / 8 + i, true) }
    let ks := s.keysOf (scratchKey 0x40) 256
    (s.control = true ∧ s.settled s.curCore 1 = true ∧ (s.now.readP 4).toNat % 8 = 0 ∧ (∀ k ∈ ks, keySpace k = 3) ∧
      (∀ k ∈ ks, s.fullBit k = true) ∧ s.earlierWaiter ks = false ∧
      (∀ k ∈ ks, s.waiters k = []) ∧ (s.here.vreg 8).tag = tagOf .none .i8) ∧
      s.reachesLocal (s.now.readP 4) 256 .read ks ∧ s.reachesLocal (s.now.readP 4) 256 .write ks := by
  exact ⟨by decide +kernel, localAt_reaches (by decide +kernel), localAt_reaches (by decide +kernel)⟩

theorem witness_TileResult :
    let s := vecState
    let va := s.now.readP 4
    let key (n : Nat) : Nat := scratchKey (0x40 + n)
    (s.control = true ∧ s.settled s.curCore 1 = true ∧ va.toNat % 64 = 0 ∧ (15 : VReg).toNat + ((0 : BitVec 4).toNat + 1) ≤ 16 ∧
      bitsOfBytes ((List.range 8).map fun i => s.peek (key i)) % 2 = 0 ∧ (s.here.vreg 1).tag ≠ emptyTag ∧
      (∀ i j, i < 576 → j < 576 → key i = key j → i = j)) ∧ s.unlimited ∧
      s.reachesLocal va 8 .update ((List.range 8).map key) ∧ s.reachesLocal (va + 8) 24 .write ((List.range 24).map fun i => key (8 + i)) ∧
      (∀ c, c < 18 → s.reachesLocal (va + BitVec.ofNat 72 (32 * c)) 32 .write ((List.range 32).map fun i => key (32 * c + i))) ∧
      ∀ c, c < 18 → s.reachesLocal (va + BitVec.ofNat 72 (32 * c)) 32 .read ((List.range 32).map fun i => key (32 * c + i)) := by
  refine ⟨⟨by decide +kernel, by decide +kernel, by decide +kernel, by decide +kernel, by decide +kernel, by decide +kernel, ?_⟩,
    .inr (by decide +kernel), ?_, ?_, ?_, ?_⟩
  · intro i j _ _ h; simp only [scratchKey, keyScratch] at h; omega
  · have e : ((List.range 8).map fun n => scratchKey (0x40 + n)) = vecState.keysOf (scratchKey 0x40) 8 := by decide +kernel
    simp only [e]
    exact localAt_reaches (by decide +kernel)
  · have e : ((List.range 24).map fun i => scratchKey (0x40 + (8 + i))) = vecState.keysOf (scratchKey 0x48) 24 := by decide +kernel
    simp only [e]
    exact localAt_reaches (by decide +kernel)
  · exact localAll_reaches (fun c => scratchKey (0x40 + 32 * c)) (by decide +kernel)
  · exact localAll_reaches (fun c => scratchKey (0x40 + 32 * c)) (by decide +kernel)

theorem witness_TileResult_retries :
    let s (n : Nat) : State :=
      { (inField (on 1 [] [(4, 0xFF0000000000000040)] id fun x => { x with tries := n }) none) with mem := [⟨scratchKey 0x40, 1⟩] }
    let base (s : State) : Prop := s.curSlot = 1 ∧ s.now.text = none ∧ s.settled s.curCore 1 = true ∧ s.here.pair = none ∧ s.now.stage = 0 ∧
      s.now.remote = .idle ∧ s.now.eaten = 0 ∧ s.now.places = [] ∧ s.now.lates = [] ∧
      s.here.dramLim = 0xFFFF_FFFF ∧ s.here.injLim = 0xFFFF_FFFF ∧ s.here.governor = [] ∧ bitsOfBytes ((List.range 8).map fun i => s.peek (scratchKey (0x40 + i))) % 2 = 1
    (base (s 64) ∧ 64 ≤ (s 64).now.tries) ∧ (base (s 63) ∧ (s 63).now.tries < 64 ∧ (s 63).now.halted = false) ∧
      ∀ c, c < 18 → (s 63).reachesLocal ((s 63).now.readP 4 + BitVec.ofNat 72 (32 * c)) 32 .read
        ((List.range 32).map fun i => (fun n => scratchKey (0x40 + n)) (32 * c + i)) := by
  exact ⟨by decide +kernel, by decide +kernel, localAll_reaches (fun c => scratchKey (0x40 + 32 * c)) (by decide +kernel)⟩

theorem witness_MatrixQueued :
    let s := vecState
    s.control = true ∧ (s.jobOf s.curCore).any Job.noMatrix = false ∧ s.settled s.curCore 1 = true ∧ s.here.matq.length < 2 ∧
      (s.now.readP 4).toNat % 16 = 0 ∧ (64 : BitVec 16).toNat % 8 = 0 ∧ 512 ≤ (512 : BitVec 16).toNat ∧
      32 * Ty.width .f32 / 8 ≤ (128 : BitVec 16).toNat ∧ s.here.matq = [] := by decide +kernel

/-- A swizzle window of 4 KiB at the start of the scratchpad, with rows of 128 bytes. -/
theorem witness_AnchorAndTransposed :
    let s := inField (on 1 [] [(4, 0xFF0000000000000000), (5, 0xFF0000000000000004)] (fun k => { k with swzCtl := 0x103 }) id) (some (testJob 0))
    let inside (o w : Nat) : Prop := s.here.swzCtl.getLsbD 0 = true ∧ 32 * w ≤ 128 ∧ s.here.swzBase.toNat / 2 ^ 12 % 2 ^ 9 * 4096 ≤ o ∧
      o + 31 * 128 + 32 * w ≤ s.here.swzBase.toNat / 2 ^ 12 % 2 ^ 9 * 4096 + s.here.swzCtl.toNat / 2 ^ 8 % 2 ^ 9 * 4096
    s.control = true ∧ (s.jobOf s.curCore).any Job.noMatrix = false ∧ s.here.swzCtl.getLsbD 1 = true ∧
      s.locate s.curCore s.curSlot (s.now.readP 4).toNat 1 .read = (.at_ (scratchKey 0), s) ∧
      s.locate s.curCore s.curSlot (s.now.readP 5).toNat 1 .read = (.at_ (scratchKey 4), s) ∧ keySpace (scratchKey 4) = 3 ∧
      keyCore (scratchKey 4) = s.curCore ∧ keyAddr (scratchKey 4) % 2 ^ 24 = 4 ∧ inside 0 4 ∧ ¬inside 4 4 ∧ s.fenced s.curCore = false ∧
      Ty.width .f32 = Ty.laneWidth .f32 ∧ (0 : VReg).toNat + 4 * 4 ≤ 16 := by decide +kernel

/-! #### Events: boot, registers, memory -/

/-- A core in boot mode at column 0, row 0 of a 32 by 32 region, with an out slot of a kind. -/
def bootState (kind : Nat) : State :=
  (on 0 [] [] (fun k => { k with bootMode := true, bootWord := some (discAt 0x1F1FFC00000000 0 0) }) id).pokeBytes (keyScratch 0 0x40) [BitVec.ofNat 8 kind]
    |>.setFull (keyScratch 0 0x40) true

theorem witness_BootProtocol_out :
    (∀ kind ∈ [1, 2, 3, 4, 5], ((bootState kind).outSlot (bootState kind).input.core).map (fun e => (e.1, e.2.1)) = some (kind, 0)) ∧
      takesBoot (bootState 1) 0 ∧ ((bootState 1).core 0).bootWord.isSome = true := by unfold takesBoot; decide +kernel

theorem witness_BootProtocol_flits :
    let at_ (p : Packet) (f : Core → Core) : State := { on 0 [] [] (fun k => f { k with bootMode := true }) id with net := [⟨0, p, 0, .xy⟩] }
    let disc := at_ (.bootDisc 1 true 5) id
    let known := at_ (.bootDisc 1 true 5) fun k => { k with bootWord := some 5 }
    let cast (kind : Nat) := at_ (.bootCast 1 kind 3 (zeros 64)) fun k => { k with bootWord := some 5 }
    let report := at_ (.bootReport 0 0 5) id
    let status := (known.setFull (keyScratch 0 0x18) true)
    ((disc.bootArrival 0).map (fun e => (e.1, e.2.1)) = some (0, .bootDisc 1 true 5) ∧ (disc.core 0).bootWord = none ∧
        (disc.core 0).bootMode = true ∧ takesBoot disc 0) ∧
      (known.core 0).bootWord.isSome = true ∧
      (∀ kind ∈ [2, 3, 5], ((cast kind).bootArrival 0).map (fun e => (e.1, e.2.1)) = some (0, .bootCast 1 kind 3 (zeros 64)) ∧
        ((cast kind).core 0).bootWord = some 5 ∧ ((cast kind).core 0).bootMode = true ∧ (zeros 64).length = 64 ∧
        Assoc.find (cast kind).directory ((0 * 2 ^ 29 + 64 * 3) / 64) = none) ∧
      (report.net[0]? = some ⟨0, .bootReport 0 0 5, 0, .xy⟩ ∧ (report.core 0).bootMode = true) ∧
      ((status.core status.input.core).bootMode = true ∧ status.fullBit (keyScratch status.input.core 0x18) = true ∧
        (status.core status.input.core).bootWord = some 5) := by unfold takesBoot; decide +kernel

theorem witness_BootProtocol_reset :
    let f : Flash := State.reset.flash
    let holed : Flash := { f with retired := f.corners }
    let bad : Flash := { f with imageGood := false }
    let bundle : Flash := { f with bundleGood := false }
    bad.imageGood = false ∧ (holed.imageGood = true ∧ holed.boot = none) ∧
      (bundle.imageGood = true ∧ bundle.boot = some (0, 0) ∧ bundle.bundleGood = false) ∧
      (f.imageGood = true ∧ f.boot = some (0, 0) ∧ f.bundleGood = true ∧ f.image.length ≤ 2 ^ 28) := by decide +kernel

/-- Core 0, with the operands of an event. -/
def event (f : Core → Core) (h : Ctx → Ctx) (x : Input) : State := { on 1 [] [] f h with input := x }

theorem witness_RegisterEvents_core :
    let e (f : Core → Core) (x : Input) := event f id x
    let v (n : Nat) : Input := { Input.zero with word := BitVec.ofNat 64 n }
    let park : Parked := ⟨.misaligned, 0, false⟩
    let cmd : BulkCmd := ⟨.bread 7 0xFF0000000000000000 1 1 2 2, 1, 0, 0, [], [], false, [], none⟩
    12 ≤ (e id (v 12)).input.word.toNat % 16 ∧ ((e id (v 11)).input.word.toNat % 16 < 12 ∧ ((e id (v 11)).core 0).bootHeld = []) ∧
      (e (fun k => { k with matPark := some park }) (v 0)).here.matPark.isSome = true ∧ (e id (v 0)).here.matPark = none ∧
      (let s := e (fun k => { k with bulkPark := some park, bulkq := [cmd], requests := [(7, ⟨1, 0, 0, 0, 0, 0, 0, 0, false⟩)] }) (v 0)
       s.here.bulkPark.isSome = true ∧ s.here.copyPark = none ∧ s.here.bulkq = [cmd] ∧ cmd.op = .bread 7 0xFF0000000000000000 1 1 2 2 ∧
         (Assoc.find s.here.requests 7).isSome = true) ∧
      (let cmd : BulkCmd := ⟨.copy false 0xFF0000000000000400 0xFF0000000000000040 1 1 1 2 0xFF0000000000000800, 1, 0, 0, [], [], false, [], none⟩
       let s := e (fun k => { k with copyPark := some park, copyq := [cmd] }) (v 0)
       s.here.copyPark.isSome = true ∧ s.here.bulkPark = none ∧ s.here.copyq = [cmd] ∧ cmd.op.unit = .copy) ∧
      ((e id (v 0)).here.bulkPark = none ∧ (e id (v 0)).here.copyPark = none) ∧
      (let s := e id { v 0 with index := 0x47 }
       regOf s.input.index = some .kvec ∧ s.input.flag = false ∧ Reg.ownEvent .fpctl = true ∧ Reg.ownEvent .lease = false ∧
         regOf 0x83 = some .lease ∧ (Reg.supervisor .lease = true → s.input.slot = 0)) ∧
      (e id { v 0 with index := 0x10, flag := true }).input.flag = true := by decide +kernel

theorem witness_RegisterEvents_shared :
    let e (l : Slice) (x : Input) : State := { event id id x with slices := [(0, l)] }
    let v (n i : Nat) : Input := { Input.zero with word := BitVec.ofNat 64 n, index := i }
    let l : Slice := ⟨3, false, false, false, 1, [], false, false⟩
    (State.reset.slice 0).clean = true ∧ ((e l (v 0 0)).slice (clusterOf 0)).clean = false ∧ ((e { l with flush := true } (v 0 0)).slice 0).flush = true ∧
      ((v 0 0).word.getLsbD 0 = false ∧ (v 1 0).word.getLsbD 0 = true ∧ ((e l (v 1 0)).slice (clusterOf 0)).excl = false) ∧
      (((e { l with pend := true } (v 1 0)).slice 0).pend = true ∧ (e { l with pend := true } (v 1 0)).mxQuiet 0 = true) ∧
      (let w := (v (2 ^ 16 + 0) 0x1000).word
       1 ≤ w.toNat / 2 ^ 16 % 2 ^ 11 ∧ w.toNat / 2 ^ 16 % 2 ^ 11 ≤ 1024 ∧ w.toNat % 1024 < w.toNat / 2 ^ 16 % 2 ^ 11) ∧
      (v 5 (0x2000 + 8 * 4095)).index = 0x2000 + 8 * 4095 ∧ (State.reset.msixEntry 5).masked = true := by decide +kernel

theorem witness_RegisterEvents_power :
    let s := on 0 [] [] id id
    s.able s.input.core = true ∧ (s.core s.input.core).bootMode = false ∧ s.jobOf s.input.core = none ∧ s.queues = [] ∧
      s.reportOf s.input.core = none ∧
      (∀ q < 1024, (s.desc q).enabled = true → (s.desc q).poll = true → s.homeOf q ≠ some s.input.core) := by
  have h : ∀ q < 1024, ((on 0 [] [] id id).desc q).enabled = false := by decide +kernel
  exact ⟨by decide +kernel, by decide +kernel, by decide +kernel, by decide +kernel, by decide +kernel, fun q hq e => by simp [h q hq] at e⟩

/-- Whether a part of an event's work succeeds. -/
def okay {ε α : Type} (x : Except ε α) : Bool :=
  match x with
  | .ok _ => true
  | .error _ => false

theorem okay_some {ε α : Type} {x : Except ε α} (h : okay x = true) : ∃ r, x = .ok r := by
  cases x with
  | ok r => exact ⟨r, rfl⟩
  | error _ => simp [okay] at h

theorem witness_MemoryEvents_host :
    let s (a : Nat) (bs : List Byte) (f : Bool) : State :=
      { on 1 [] [] id id with input := { Input.zero with addr := a, data := bs, flag := f }, directory := [(4, true)], hostLines := [(lineOf (keyHost 0x1C0), true)] }
    let top := s (0x1800_0000 - 1) [7] true
    let hidden : State := { s 0x100 [] false with hdm := ⟨0x1000, 0x1000⟩ }
    let low := s 0x100 (zeros 64) false
    let waits : State := { s 0x100 [] true with biPending := [(4, [(0x105, 9)], false)] }
    let snoop := s 0x1C0 [] true
    (State.reset.doe.algsDone = false ∧ (⟨true, true, true, []⟩ : Doe).algsDone = true) ∧
      (top.exposed top.input.addr = true ∧ top.input.addr % 64 + top.input.data.length ≤ 64) ∧ low.exposed low.input.addr = true ∧
      backed (s 0x1800_0000 [] false).input.addr = false ∧ hidden.input.addr < hidden.hdm.base ∧
      (let m : State := { State.reset with msix := [(7, ⟨0xFEE00000, 5, true, true⟩)] }
       (m.msixEntry 7).masked = true ∧ (m.msixEntry 7).pendingBit = true) ∧
      ((Assoc.find low.directory (low.input.addr / 64)).isSome = true ∧ low.input.data.length = 64 ∧ low.biPending = [] ∧
        low.biOps = []) ∧
      ((Assoc.find waits.directory (waits.input.addr / 64)).isSome = true ∧ waits.biPending = [(waits.input.addr / 64, [(0x105, 9)], false)] ∧
        waits.biOps = []) ∧
      (snoop.input.addr < 2 ^ 51 ∧ Assoc.find snoop.hostLines (lineOf (keyHost snoop.input.addr)) = some true) := by decide +kernel

theorem witness_MemoryEvents_cache :
    let entry (k : Nat) : SbEntry := ⟨[(k, 7), (k + 1, 8)], false, false, false, 0, 0, 0⟩
    let s (k : Nat) (f : Core → Core) : State :=
      { on 1 [] [] f (fun x => { x with sb := [entry k] }) with input := { Input.zero with slot := 1, addr := k } }
    let here := s (keyScratch 0 0x40) id
    let dram := s 0x40 fun k => { k with cv := [(1, [(3, ⟨9, true, false⟩)])] }
    (here.holding 0 1 = false ∧ takeEntry here.input.addr (here.ctx 0 1).sb = some (entry (keyScratch 0 0x40), []) ∧
      ((entry (keyScratch 0 0x40)).cells.map (·.1)).Nodup ∧ (entry (keyScratch 0 0x40)).cells ≠ [] ∧ (entry (keyScratch 0 0x40)).setFull = false ∧
        here.entryWay 0 (entry (keyScratch 0 0x40)) = true ∧ (entry (keyScratch 0 0x40)).reach 0 = (0, 0, none) ∧
        ∀ x ∈ (entry (keyScratch 0 0x40)).cells, 3 ≤ keySpace x.1 ∧ here.keyFenced x.1 = false ∧ here.unwatched (keyCore x.1) = true) ∧
      (let far := entry (keyScratch 4 0x40)
       far.reach 0 ≠ (0, 0, none) ∧ here.entryWay 0 far = true ∧ here.here.dramLim = 0xFFFF_FFFF ∧ here.here.injLim = 0xFFFF_FFFF ∧
         here.here.governor = []) ∧
      (takeEntry dram.input.addr (dram.ctx 0 1).sb = some (entry 0x40, []) ∧ ∀ x ∈ (entry 0x40).cells, keySpace x.1 ≤ 1) ∧
      ((Assoc.find (dram.core 0).cv (lineOf dram.input.addr)).isSome = true ∧ keySpace (64 * lineOf dram.input.addr) = 0 ∧
        Assoc.find dram.directory (lineOf dram.input.addr) = none ∧ dram.meshOpen 0 (homeRouter (64 * lineOf dram.input.addr)) = true ∧
        (dram.core 0).dramLim = 0xFFFF_FFFF ∧ (dram.core 0).injLim = 0xFFFF_FFFF ∧ (dram.core 0).governor = [] ∧ dram.biPending = [] ∧
        Assoc.find ((dram.core 0).line (lineOf dram.input.addr)) 5 = none ∧ (((dram.core 0).line (lineOf dram.input.addr)).map (·.1)).Nodup ∧
        ∀ e ∈ (dram.core 0).line (lineOf dram.input.addr), e.1 < 64) := by decide +kernel

theorem witness_MemoryEvents_links :
    let r (op : RemoteOp) (applied : Bool) : RemoteReq := ⟨3, 0, 0, 1, 0, keyRemote 0x40, op, applied, zeros 64, 0, some 0⟩
    let s (op : RemoteOp) (applied : Bool) (lates : List Late) : State :=
      { on 1 [] [] id (fun x => { x with
          remote := .outstanding 3, fetched := [(lineOf (keyRemote 0x40), ⟨false, false, [], 0, true⟩)], lates := lates }) with
        remote := [r op applied], cycle := 54000 }
    let meets (op : RemoteOp) : Prop :=
      ((s op false []).remote[0]? = some (r op false) ∧ (r op false).applied = false ∧ (r op false).sent = some 0) ∧
        (s op true []).remote[0]? = some (r op true) ∧ (r op true).slot < 12 ∧ ((s op true []).ctx 0 1).gen = (r op true).gen ∧
        0 + 54000 ≤ (s op true []).cycle ∧
        Assoc.find ((s op true []).ctx 0 1).fetched (lineOf (r op true).key) = some ⟨false, false, [], 0, true⟩ ∧
        ((s op true []).ctx 0 1).remote = .outstanding (r op true).id ∧ ((s op true []).ctx 0 1).live = true ∧
        ((s op true []).ctx 0 1).lates = [] ∧ ((s op true []).ctx 0 1).lostw ≠ 0xFFFF_FFFF
    let ahead := s (.atomic 8 (.add 1) false) true [⟨3, some 5, .i64⟩]
    meets .line ∧ meets (.store [(keyRemote 0x40, 5)] false) ∧ meets (.atomic 8 (.add 1) false) ∧
      ((ahead.ctx 0 1).lates = [⟨3, some 5, .i64⟩] ∧ (5 : GReg) ≠ 0) := by decide +kernel

/-! #### Events: what arrives -/

/-- Core 0 in field 0 with a job, and one packet bound for it. -/
def arriving (p : Packet) (f : Core → Core) (h : Ctx → Ctx) (j : Job) : State :=
  { inField (on 1 [] [] f h) (some j) with net := [⟨0, p, 0, .xy⟩] }

theorem arrives_iff {s : State} {c : Nat} {p : Packet} :
    arrives s c p ↔ ((s.net[s.input.index]?).any fun f => f.dst = c && f.at_ = c && f.body = p) = true ∧ s.saved c = false := by
  unfold arrives
  cases h : s.net[s.input.index]? with
  | none => simp
  | some f =>
    obtain ⟨d, b, a, k⟩ := f
    simp only [Option.some.injEq, Flight.mk.injEq, Option.any_some, Bool.and_eq_true, decide_eq_true_eq, exists_and_left, exists_eq', and_true]
    tauto

/-- A message to core 0 in the domain of its own job. -/
def testMessage (kind : BitVec 4) : Message := ⟨kind, 0, 0x40, 7, 9, [5], [false], 3, 0, 0, 1, 0, 1, 0, none, 0, none⟩

theorem witness_ArrivalEvents_messages :
    let meets (p : Packet) (m : Message) : Prop := arrives (arriving p id id (testJob 0)) 0 p ∧ roomFor (arriving p id id (testJob 0)) 0 m
    (meets (.message (testMessage 0)) (testMessage 0) ∧ (testMessage 0).kind ≠ 1) ∧
      (meets (.reply (testMessage 1)) (testMessage 1) ∧ (testMessage 1).kind = 1 ∧ 1 ≤ (testMessage 1).tslot.toNat ∧
        (testMessage 1).tslot.toNat ≤ 11 ∧ ((arriving (.reply (testMessage 1)) id id (testJob 0)).ctx 0 (testMessage 1).tslot.toNat).live = true ∧
        ((arriving (.reply (testMessage 1)) id id (testJob 0)).ctx 0 (testMessage 1).tslot.toNat).gen = (testMessage 1).tgen) ∧
      (arrives (arriving (.stray (testMessage 0)) id id (testJob 0)) 0 (.stray (testMessage 0)) ∧
        ((arriving (.stray (testMessage 0)) id id (testJob 0)).core 0).strays.length < 512) ∧
      (let s := arriving (.message (testMessage 0)) (fun k => { k with inbox := [testMessage 0] }) id (testJob 0)
       (s.jobOf 0).isSome = true ∧ (s.core 0).freeHelper = some 2 ∧ (s.core 0).nextSource = some 3 ∧ (s.core 0).stopped = false ∧
         s.able 0 = true ∧ (s.core 0).bootMode = false ∧ (testJob 0).pre ≠ .hardSaved ∧ (s.core 0).strays = [] ∧
         (s.core 0).inbox = [testMessage 0] ∧ (testMessage 0).obj = none ∧ (testMessage 0).reason = 0 ∧ (testMessage 0).text = none ∧
         (s.core 0).deflected = []) := by
  simp only [arrives_iff, roomFor]; decide +kernel

theorem witness_ArrivalEvents_homes :
    let d : Domain := ⟨3, true, 10, 256, 0, 0, 0, none⟩
    let home (p : Packet) := arriving p (fun k => { k with domains := [(0, d), (5, d)] }) id (testJob 0)
    let dom (i : Nat) : BitVec 24 := domId 0 i 3
    let weight (i : Nat) := home (.weight (dom i) 7)
    let lost := home (.writeOff (dom 5) 7 0 2 9)
    let counted (s : State) (i : Nat) : Prop :=
      domIdx (dom i) = i ∧ ((s.core 0).domain i).isOpen = true ∧
        ((s.core 0).domain i).gen.toNat = domGen (dom i) ∧ ((s.core 0).domain i).count + 7 ≠ ((s.core 0).domain i).total
    (arrives (weight 5) 0 (.weight (dom 5) 7) ∧ (weight 5).overtakes 0 0 = false ∧ counted (weight 5) 5) ∧
      (arrives (weight 0) 0 (.weight (dom 0) 7) ∧ (weight 0).overtakes 0 0 = false ∧ counted (weight 0) 0 ∧
        ((weight 0).fields.find? fun e => e.2.job.any fun j => j.home = 0) = some (0, testField (some (testJob 0))) ∧ (testJob 0).parked = []) ∧
      (arrives lost 0 (.writeOff (dom 5) 7 0 2 9) ∧ lost.overtakes 0 0 = false ∧ counted lost 5 ∧ ((lost.core 0).domain 5).firstLoss = none) ∧
      (arrives (home (.arm 0)) 0 (.arm 0) ∧ arrives (home (.taint 0 2)) 0 (.taint 0 2) ∧ arrives (home (.haltSignal true)) 0 (.haltSignal true) ∧
        Assoc.find (home (.arm 0)).fields 0 = some (testField (some (testJob 0))) ∧ ((home (.haltSignal true)).core 0).stopped = false ∧
        ((arriving (.haltSignal true) (fun k => { k with stopped := true }) id (testJob 0)).core 0).stopped = true) := by
  simp only [arrives_iff]; decide +kernel

/-- ArrivalEvents, the mesh: on its way by XY; in a field without an entry for it; and by an entry that goes east of router 0 (R242). -/
theorem witness_ArrivalEvents_mesh :
    let f (cls : MeshClass) : Flight := ⟨3, .message (testMessage 0), 0, cls⟩
    let s (cls : MeshClass) (j : Option (List Nat)) : State :=
      { on 1 [] [] id id with
        net := [f cls], agenda := [.hop 0], fields := (j.map fun r => (0, { testField none with w := 2, map := [0, 1], routes := r })).toList }
    ((s .xy none).captured = false ∧ (s .xy none).net[0]? = some (f .xy) ∧ (f .xy).at_ ≠ (f .xy).dst) ∧
      ((s .s0 (some [])).fieldOf (f .s0).dst = some (0, { testField none with w := 2, map := [0, 1], routes := [] }) ∧ (f .s0).cls ≠ .xy ∧
        (testField none).routeAt 0 0 3 = none) ∧
      (let r := 3 * 2 ^ 11 + 3 * 2 ^ 16 + 2 * 2 ^ 31 + 2 ^ 34
       let g : FieldSt := { testField none with routes := [r] }
       g.routeAt 0 0 3 = some r ∧ g.portEnd 0 0 (routePort r) = some (coreAt 0 1) ∧ routeDateline r = true) := by decide +kernel

/-! #### Events: tasks -/

/-- A copy without successors. -/
def testCopy (flags : BitVec 32) (w : Nat) : TaskCopy := ⟨testTask flags 0, [], w, 0, none⟩

/-- Core 0 with an idle control context. -/
def idling (p : Packet) (f : Core → Core) (j : Job) : State :=
  { inField (on 2 [] [] (fun k => f { k with idleSince := 0 }) id) (some j) with net := [⟨0, p, 0, .xy⟩], cycle := 64 }

theorem noStoresTo_iff {s : State} {p c : Nat} :
    noStoresTo s p c ↔ ((List.range 12).all fun n => (s.ctx p n).sb.all fun e => e.cells.all fun x => !(keySpace x.1 == 3 && keyCore x.1 == c)) = true := by
  simp [noStoresTo, imp_iff_not_or]

theorem noPeerStores_iff {s : State} {c : Nat} :
    noPeerStores s c ↔ ((List.range 4).all fun q => (List.range 12).all fun n => (s.ctx (coreOf (clusterOf c) q) n).sb.all fun e =>
      e.cells.all fun x => !(keySpace x.1 == 3 && keyCore x.1 == c)) = true := by
  simp [noPeerStores, noStoresTo, imp_iff_not_or]

/-- The first hypotheses of the statement about copies. -/
def copyBase (s : State) (j : Job) : Prop :=
  s.fieldOf 0 = some (0, testField (some j)) ∧ Assoc.find s.fields 0 = some (testField (some j)) ∧ noPeerStores s 0

theorem witness_TaskEvents_transit :
    let f := testField (some (testJob 0))
    let p := testCopy 0 4
    let taken := idling (.transit p [0]) id (testJob 0)
    let busy (path : List Nat) := idling (.transit p path) (fun k => k.setCtx 1 { k.ctx 1 with live := true }) (testJob 0)
    let pausing : Job := { testJob 0 with pre := .pausing false }
    let parked := idling (.transit (testCopy 0 0) [0]) id pausing
    let free (s : State) : Prop := p.malformed (testJob 0) = false ∧ (s.core 0).injLim = 0xFFFF_FFFF ∧ (s.core 0).governor = []
    (copyBase taken (testJob 0) ∧ arrives taken 0 (.transit p [0]) ∧ (testJob 0).pre = .running ∧ taken.takes f (testJob 0) 0 p = true ∧
        single p (testJob 0)) ∧
      (copyBase (busy [0, 1]) (testJob 0) ∧ arrives (busy [0, 1]) 0 (.transit p [0, 1]) ∧ (busy [0, 1]).takes f (testJob 0) 0 p = false ∧
        free (busy [0, 1])) ∧
      (arrives (busy [0]) 0 (.transit p [0]) ∧ (busy [0]).takes f (testJob 0) 0 p = false ∧ f.hintCore (busy [0]) p.task = some 0 ∧
        (busy [0]).fenced 0 = false ∧ ((busy [0]).core 0).pending.length < 16) ∧
      (copyBase parked pausing ∧ arrives parked 0 (.transit (testCopy 0 0) [0]) ∧ pausing.pre = .pausing false ∧ (testCopy 0 0).weight = 0 ∧
        (testCopy 0 0).malformed pausing = false) := by
  simp only [copyBase, noPeerStores_iff, single, arrives_iff]; decide +kernel

theorem witness_TaskEvents_queues :
    let p := testCopy 0 4
    let waiting := idling (.haltSignal true) (fun k => { k with pending := [p] }) (testJob 0)
    let spilt : Job := { testJob 0 with overflow := [(0, p)] }
    let spill := idling (.haltSignal true) id spilt
    let ship (g : Core → Core) := idling (.stealShip p) g (testJob 0)
    let full := ship fun k => { k with pending := [p] }
    (copyBase waiting (testJob 0) ∧ waiting.input.core = 0 ∧ (waiting.core 0).pending = [p] ∧ waiting.idle 0 = true ∧
        (waiting.setCore 0 { waiting.core 0 with pending := [] }).eligible (testJob 0) 0 p = true) ∧
      (copyBase spill spilt ∧ spill.fenced 0 = false ∧ (spilt.overflow.find? fun e => e.1 = 0) = some (0, p)) ∧
      (copyBase (ship id) (testJob 0) ∧ arrives (ship id) 0 (.stealShip p) ∧ (ship id).open_ 0 = true ∧
        (ship id).eligible (testJob 0) 0 p = true) ∧
      (arrives full 0 (.stealShip p) ∧ full.open_ 0 = false ∧ full.fenced 0 = false ∧ (full.core 0).pending.length < 16) := by
  simp only [copyBase, noPeerStores_iff, arrives_iff]; decide +kernel

theorem witness_TaskEvents_thief :
    let f := testField (some (testJob 0))
    let idle := idling (.haltSignal true) id (testJob 0)
    let holed : State := { idle with flash := { idle.flash with retired := [coreOf 0 1, coreOf 0 2, coreOf 0 3] } }
    let noWork (k : Nat) := idling (.noWork k) (fun k => { k with stealing := true, stealBusy := true }) (testJob 0)
    let busy : State := idling (.noWork 3) (fun k => k.setCtx 1 { k.ctx 1 with live := true }) (testJob 0)
    (idle.maySteal 0 = some f ∧ (idle.core 0).stealBusy = false ∧ (idle.core 0).stealing = false ∧ (idle.core 0).injLim = 0xFFFF_FFFF ∧
        (idle.core 0).governor = [] ∧ (idle.core 0).idleSince + 64 ≤ idle.cycle ∧ (idle.core 0).stealNext = none ∧
        (idle.victim f 0 0).isSome = true) ∧
      (holed.maySteal 0 = some f ∧ holed.victim f 0 0 = none) ∧
      (arrives (noWork 0) 0 (.noWork 0) ∧ (noWork 0).maySteal 0 = some f ∧ ((noWork 0).core 0).stealing = true ∧ ((noWork 0).victim f 0 (0 + 1)).isSome = true) ∧
      (arrives (noWork 11) 0 (.noWork 11) ∧ (noWork 11).victim f 0 (11 + 1) = none) ∧ (arrives busy 0 (.noWork 3) ∧ busy.maySteal 0 = none) ∧
      (idle.core 0).joinStack.length ≤ 16 ∧
      (let lapse (h : Ctx → Ctx) : State := idling (.lapse 1) (fun k => k.setCtx 3 (h (k.ctx 3))) (testJob 0)
       let waits := lapse fun x => { x with waiting := some ⟨.fullBit, 0, 0⟩, awaits := [keyScratch 1 0x40] }
       let busy := lapse fun x => { x with committed := true, waiting := some ⟨.budget, 0, 0⟩, awaits := [keyScratch 1 0x40] }
       (arrives (lapse id) 0 (.lapse 1) ∧ noStoresTo (lapse id) 0 1 ∧ (lapse id).peerBusy 0 1 = false ∧ ∀ n < 12, ((lapse id).ctx 0 n).waiting = none) ∧
         (arrives waits 0 (.lapse 1) ∧ noStoresTo waits 0 1 ∧ waits.peerBusy 0 1 = false ∧ (waits.ctx 0 3).waiting = some ⟨.fullBit, 0, 0⟩ ∧
           (waits.ctx 0 3).awaits = [keyScratch 1 0x40]) ∧
         (arrives busy 0 (.lapse 1) ∧ noStoresTo busy 0 1 ∧ busy.peerBusy 0 1 = true)) ∧
      arrives (idling (.lapseAck 1) id (testJob 0)) 0 (.lapseAck 1) := by
  simp only [arrives_iff, noStoresTo_iff]; decide +kernel

theorem witness_TaskEvents_victim :
    let p := testCopy 0 4
    let awake (s : State) : State := withCore s 1 fun k => { k with split := 4, bootMode := false }
    let job : Job := { testJob 0 with joins := [(9, ⟨0, 1, true⟩)] }
    let ask (g : Core → Core) (h : Ctx → Ctx) : State := awake { inField (on 1 [] [] g h) (some job) with net := [⟨0, .stealAsk 1 0, 0, .xy⟩] }
    let ships := ask (fun k => { k with pending := [p] }) id
    let r : Running := ⟨testTask 4 0, some 9, none, [], 0, false⟩
    let splits := ask (fun k => { k with running := some r, iterLo := 3, iterHi := 5 }) fun x => { x with wheld := 2 }
    let asked (s : State) : Option TaskCopy := (s.core 0).pending.find? fun p => s.eligible job 1 p
    let fine (s : State) : Prop := arrives s 0 (.stealAsk 1 0) ∧ s.fieldOf 0 = some (0, testField (some job)) ∧
      Assoc.find s.fields 0 = some (testField (some job)) ∧ s.fenced 0 = false ∧ s.fenced 1 = false ∧ job.pre = .running
    (fine ships ∧ asked ships = some p) ∧ (fine (ask id id) ∧ asked (ask id id) = none ∧ ((ask id id).core 0).running = none) ∧
      (fine splits ∧ asked splits = none ∧ (splits.core 0).running = some r ∧ r.join = some 9 ∧ Assoc.find job.joins 9 = some ⟨0, 1, true⟩ ∧
        (splits.ctx 0 1).live = true ∧ (splits.core 0).release = none ∧ r.task.range = true ∧ r.task.gang = false ∧ r.paired = false ∧
        (splits.core 0).iterLo.toNat + 2 ≤ (splits.core 0).iterHi.toNat ∧ 2 ≤ (splits.ctx 0 1).wheld) := by
  simp only [arrives_iff]; decide +kernel

/-! #### Events: engines, networks, pairing -/

/-- Whether a part of an event's work leaves the state as it is, with a result of which `q` holds. -/
def leaves (s : State) {α : Type} (x : Except EngStop (α × State)) (q : α → Bool) : Bool :=
  match x with
  | .ok (a, t) => decide (t = s) && q a
  | .error _ => false

theorem leaves_some {s : State} {α : Type} {x : Except EngStop (α × State)} {q : α → Bool} (h : leaves s x q = true) :
    ∃ a, x = .ok (a, s) ∧ q a = true := by
  unfold leaves at h
  split at h
  · simp only [Bool.and_eq_true, decide_eq_true_eq] at h
    obtain ⟨rfl, hq⟩ := h
    exact ⟨_, rfl, hq⟩
  · simp at h

/-- What `p` holds of the result and of the state that a part of an event's work leaves. -/
def ran {α : Type} (x : Except EngStop (α × State)) (p : α → State → Bool) : Bool :=
  match x with
  | .ok (a, u) => p a u
  | .error _ => false

/-- EngineEvents, a burst: the lines of a request are translated, asked for and read, and the core's bursts and requests stay. -/
theorem witness_EngineEvents_bursts :
    let op : BulkOp := .bread 7 0xFF0000000000000040 2 2 2 2
    let cmd : BulkCmd := ⟨op, 1, 0x100000, 0, [], [], false, [], none⟩
    let s : State := { on 1 [] [] (fun k => { k with bulkq := [cmd], requests := [(7, ⟨1, 0, 0, 0, 0, 0, 0, 0, false⟩)] }) id with
      input := { Input.zero with index := 7, row := 1, col := 1 } }
    let e := bulkEng 0 cmd
    let va := offBy 0xFF0000000000000040 (64 * ((s.input.row : Int) * 2 + s.input.col))
    (s.breadOf 0 7 = some (cmd, true) ∧ s.input.index = 7 ∧ s.input.flag = false ∧ s.input.row < 2 ∧ s.input.col < 2 ∧ cmd.done = [] ∧
      cmd.asked = [] ∧ cmd.aborted = false ∧ s.here.burstBuffers < 32 ∧ (Assoc.find s.here.requests 7).isSome = true) ∧
      ran (engKeys e va.toNat 64 .read s) (fun ks v => ran ((linesOf ks).forM (fun l => engAsk e l.1 l.2) v) fun _ w =>
        let w' := w.setBread 0 { cmd with asked := [(3, 0, [ks.headD 0])] }
        decide (w'.keysOf (ks.headD 0) 64 = ks) && ran (engPieces e [(va, ks.take 32), (va + 32, ks.drop 32)] w') fun _ u =>
          decide ((u.core 0).bursts = s.here.bursts ∧ (u.core 0).requests = s.here.requests)) = true := by
  decide +kernel

/-- EngineEvents, a sector of a copy from the scratchpad to the scratchpad, with its object there as well. -/
theorem witness_EngineEvents_sectors :
    let op : BulkOp := .copy false 0xFF0000000000000400 0xFF0000000000000040 1 1 1 2 0xFF0000000000000800
    let cmd : BulkCmd := ⟨op, 1, 0x100000, 0, [0], [], false, [], none⟩
    let s : State := { on 1 [] [] (fun k => { k with copyq := [cmd] }) id with input := { Input.zero with index := 1 } }
    let e := bulkEng 0 cmd
    (s.bulkHead 0 .copy = some (cmd, true) ∧ cmd.op.unit = .copy ∧ cmd.publishes = false ∧ cmd.aborted = false ∧
      s.input.index < cmd.op.plan.count ∧ s.input.index ∉ cmd.done ∧ (cmd.acks.find? fun a => a.1 = s.input.index) = none) ∧
      ran (askSector e cmd 1 s) (fun r v =>
        let ps := ((cmd.op.plan.src 1).zip r.2.2).map fun (p, k) => (p.1, v.keysOf k p.2)
        decide (r.1.op = cmd.op ∧ r.1.publishes = false ∧ r.1.slot = cmd.slot ∧ r.1.gen = cmd.gen ∧ 3 ≤ keySpace r.2.1 ∧ v.keyFenced r.2.1 = false) &&
          ran (engObject e cmd.op.object v) fun o w => o.isSome && ran (engCharge e (lineOf r.2.1) w) fun _ x => ran (sectorSource e ps x) fun d y =>
            decide (d.2 = false ∧ d.1.length = 32 ∧ y.keyFenced r.2.1 = false ∧ y.unwatched 0 = true ∧ y.unwatched (keyCore r.2.1) = true)) = true := by
  decide +kernel

/-- Five tables of a field that map virtual page 3 to the device page at 0x200000. -/
def withPage (s : State) : State :=
  let entry (a flags : Nat) : List Byte := bytesOfBits 16 (a / 65536 * 2 ^ 32 + flags)
  let f : FieldSt := { testField none with root := 0x100000 }
  let s : State := { s with fields := [(0, f)] }
  ((((s.pokeBytes 0x100000 (entry 0x110000 1)).pokeBytes 0x110000 (entry 0x120000 1)).pokeBytes 0x120000 (entry 0x130000 1)).pokeBytes 0x130000
    (entry 0x140000 1)).pokeBytes 0x140030 (entry 0x200000 0x1F)

theorem witness_EngineEvents_publish :
    let pub : BulkCmd := ⟨.copy true 0x30000 0x40 1 1 1 2 0x800, 1, 0, 0, [1, 0], [], false, [], some [(3, 0x200000, 0x210000)]⟩
    let s := withPage (on 1 [] [] (fun k => { k with copyq := [pub] }) id)
    s.bulkHead 0 .copy = some (pub, true) ∧ pub.publishes = true ∧ pub.aborted = false ∧
      ran (engObject (bulkEng 0 pub) pub.op.object s) (fun _ v => decide (v.pageLeaf 0 3 = some (0x140030, 0x200000 / 65536 * 2 ^ 32 + 0x1F) ∧
        Assoc.find v.directory (lineOf 0x140030) = none ∧ v.biPending = [])) = true ∧ pub.done.length = pub.op.plan.count ∧ pub.fresh = some [(3, 0x200000, 0x210000)] ∧
      s.pageLeaf 0 3 = some (0x140030, 0x200000 / 65536 * 2 ^ 32 + 0x1F) ∧ keyDram (pteAddr (0x200000 / 65536 * 2 ^ 32 + 0x1F)) = 0x200000 ∧
      keySpace 0x140030 = 0 ∧ 0x140030 % 16 = 0 ∧ Assoc.find s.directory (lineOf 0x140030) = none ∧ s.biPending = [] := by decide +kernel

theorem witness_EngineEvents_commands :
    let zero : MatCmd := ⟨.mzero 2, 0, 0x100000, 0, none⟩
    let park : Parked := ⟨.misaligned, 0, false⟩
    let m := on 1 [] [] (fun k => { k with matq := [zero] }) id
    let p := on 1 [] [] (fun k => { k with matq := [zero], matPark := some park }) id
    let gone := on 1 [] [] (fun k => { k with matq := [zero], matPark := some park }) fun x => { x with live := false }
    (m.matHead 0 = some zero ∧ zero.op = .mzero 2 ∧ okay (runMat 0 zero m) = true) ∧
      (p.input.engine = .matrix ∧ p.here.matPark = some park ∧ p.here.matq = [zero] ∧ park.told = false ∧ p.now.live = true ∧
        p.now.gen = zero.gen ∧ p.now.trap = none ∧ p.now.pastIssue = false) ∧
      gone.now.live = false ∧ gone.here.notices.length < 64 := by decide +kernel

theorem witness_NetworkEvents :
    let tile (x : Option (BitVec 12 × Ptr)) (k : Core) : Core := k.setTile 3 { k.tile 3 with opened := x }
    let row : Packet := .row 1 0xFF0000000000000040 1 3 31 9 (List.replicate 32 AccWord.zero) true
    let good := arriving row (tile (some (9, 0xFF0000000000000800))) id (testJob 0)
    let shut := arriving row id id (testJob 0)
    let pipe (p : Packet) (e : PipeEnd) := arriving p (fun k => { k with pipemap := 0x81, pipes := [(0, e)] }) id (testJob 0)
    let entry := pipe (.pipeEntry 0 5 77 true) ⟨true, false, 0x40, 4, 1, 2, 0, 0⟩
    let ack (p : Packet) := arriving p id id (testJob 0)
    (arrives good 0 row ∧ good.rowRefusal 0 1 ((good.core 0).tile 3) 9 = none ∧
        ((good.core 0).tile 3).opened = some (9, 0xFF0000000000000800)) ∧
      (arrives shut 0 row ∧ shut.rowRefusal 0 1 ((shut.core 0).tile 3) 9 = some 1) ∧
      (arrives (ack (.rowAck 1 0xFF0000000000000040)) 0 (.rowAck 1 0xFF0000000000000040) ∧
        arrives (ack (.rowNak 1 0xFF0000000000000040 2)) 0 (.rowNak 1 0xFF0000000000000040 2)) ∧
      (arrives entry 0 (.pipeEntry 0 5 77 true) ∧ entry.input.index = 0 ∧ ((entry.core 0).pipe 0).ready = true ∧
        ((entry.core 0).pipe 0).closed = false ∧ (entry.keysOf (keyScratch 0 (0x40 + 8 * (5 % 4))) 8).Nodup ∧ entry.unwatched 0 = true) ∧
      (arrives (pipe (.pipeCredit 0 none) PipeEnd.reset) 0 (.pipeCredit 0 none) ∧
        arrives (pipe (.pipeCredit 0 (some 4)) PipeEnd.reset) 0 (.pipeCredit 0 (some 4)) ∧ PipeEnd.reset.closed = false) := by
  simp only [arrives_iff]; decide +kernel

theorem witness_NetworkEvents_rotation :
    let r (q : Nat) : RotWait := ⟨0x40, 0x400 + 64 * q, 64, false⟩
    let k (q : Nat) : Core := { Core.reset with split := 4, bootMode := false, rot := some (r q),
                                                ctxs := [(1, { Ctx.reset with live := true, waiting := some ⟨.rotate, 0, 0⟩ })] }
    let s : State := { State.reset with cores := [(coreOf 0 0, k 0), (coreOf 0 1, k 1), (coreOf 0 2, k 2), (coreOf 0 3, k 3)] }
    clusterOf s.input.core < 256 ∧
      ∀ q < 4, ((s.core (coreOf (clusterOf s.input.core) q)).rot = some (r q) ∧ (r q).done = false ∧ (r q).n = 64 ∧
        (s.ctx (coreOf (clusterOf s.input.core) q) 1).live = true ∧ s.unwatched (coreOf (clusterOf s.input.core) q) = true ∧
        ((s.ctx (coreOf (clusterOf s.input.core) q) 1).waiting.map Waiting.on) = some .rotate) ∧
        (s.keysOf (keyScratch (coreOf 0 (rotNext q)) (r q).dst) 64).Nodup ∧
        ∀ key ∈ s.keysOf (keyScratch (coreOf 0 (rotNext q)) (r q).dst) 64, keyCore key = coreOf 0 (rotNext q) := by decide +kernel

theorem witness_PairEvents :
    let p (failed : Bool) : PairState :=
      ⟨1, false, 1024, failed, false, 0, false, 0, 0, 0, 5, 6, [], [], [], State.reset.ctx 0 1, [], [], [], 0, false, [], [], [], []⟩
    let s (w : Nat) (failed : Bool) : State := event (fun k => { k with pair := some (p failed) }) id { Input.zero with word := BitVec.ofNat 64 w }
    ((s 4 false).here.pair = some (p false) ∧ (p false).leaving = 0 ∧ (s 4 false).here.pairDue (p false) ((s 4 false).saving 0) = true ∧
      (s 4 false).differ (p false) (s 4 false).input.word = 0 ∧ (s 4 false).here.hold = [] ∧ (p false).other ≠ 0) ∧
      ((s 3 false).differ (p false) (s 3 false).input.word ≠ 0 ∧ (p false).failed = false) ∧
      ((s 2 true).here.pair = some (p true) ∧ (s 2 true).here.pairDue (p true) ((s 2 true).saving 0) = true ∧
        (s 2 true).differ (p true) (s 2 true).input.word = 2 ∧ (p true).failed = true ∧ (s 2 true).here.notices.length < 64) := by decide +kernel

/-! #### Events: waits, cells, snapshots -/

theorem witness_WaitEvents :
    let w (on_ : WaitOn) : Waiting := ⟨on_, 0x40, 5⟩
    let idle : State := { on 0 [] [] id (fun x => { x with waiting := some (w .idle), stage := 1, latch := 1024 * 100 + 32 * 3 + 4 }) with
      cycle := 105 }
    let late (on_ : WaitOn) (f : Ctx → Ctx) : State :=
      { on 2 [] [] (fun k => { k with wdctl := 0x110 }) (fun x => f { x with waiting := some (w on_) }) with
        cycle := 2 ^ 16 + 5, input := { Input.zero with slot := 2 } }
    let step := late .barrier fun x => { x with stepping := true }
    let stall := late .barrier id
    let walk := late .migration id
    (idle.input.slot = 0 ∧ (idle.ctx 0 0).waiting = some (w .idle) ∧ (idle.ctx 0 0).stage = 1 ∧
        (idle.ctx 0 0).latch = 1024 * 100 + 32 * (3 : GReg).toNat + (4 : GReg).toNat ∧ (w .idle).since + 100 ≤ idle.cycle ∧
        idle.here.hasItem = false ∧ idle.here.wakes = 0 ∧ (idle.ctx 0 0).text = none ∧ (idle.ctx 0 0).step1 = false ∧
        (idle.ctx 0 0).after = none ∧ (idle.ctx 0 0).lates = []) ∧
      ((step.ctx 0 2).waiting = some (w .barrier) ∧ (step.ctx 0 2).stepping = true ∧ (w .barrier).since + 4096 ≤ step.cycle ∧ step.input.slot ≠ 0 ∧
        WaitOn.blocks .barrier = true ∧ (step.ctx 0 2).grant = none) ∧
      ((stall.ctx 0 2).waiting = some (w .barrier) ∧ (stall.core 0).wdctl.getLsbD 8 = true ∧ (stall.ctx 0 2).halted = false ∧
        (stall.ctx 0 2).trap = none ∧ stall.fieldHalted 0 = false ∧
        max (w .barrier).since (stall.core 0).wdSince + 2 ^ ((stall.core 0).wdctl.toNat % 64) ≤ stall.cycle) ∧
      ((walk.ctx 0 2).waiting = some (w .migration) ∧ (w .migration).since + 1024 ≤ walk.cycle) := by decide +kernel

theorem witness_CellEvents :
    let s : State := inField (on 1 [] [] id id) none
    let fenced : State := { on 1 [] [] id id with fields := [(0, { testField none with fenced := [0] })] }
    let alone : State := on 1 [] [] id id
    (Assoc.find s.fields s.input.fid = some (testField none) ∧ s.input.cell < (testField none).cellCount ∧ (testField none).job = none ∧ s.snaps = []) ∧
      (0 ∈ (testField none).allCores ∧ (testField none).cellOf (clusterOf 0) = s.input.cell ∧ s.healthy 0 = true ∧ (s.core 0).domains = []) ∧
      (Assoc.find alone.fields alone.input.fid = none ∧ alone.healthy 0 = true ∧ alone.fieldOf 0 = none) ∧
      ((Assoc.find fenced.fields fenced.input.fid).map FieldSt.fenced = some [0] ∧ fenced.input.cell = 0) := by decide +kernel

theorem witness_SnapshotEvents :
    let pausing : Job := { testJob 0 with pre := .pausing false, deadline := 100 }
    let k : Ticket := ⟨0, 0, 7, 5, 0⟩
    let parked : Job := { testJob 16 with pre := .parked, snap := some (true, 0xFF0000000000000040), pauser := some k }
    let d : Domain := ⟨3, true, 10, 256, 0, 0, 0, none⟩
    let s (j : Job) : State := { inField (on 1 [] [] (fun k => { k with domains := [(0, d)] }) id) (some j) with cycle := 100 }
    let drain (a : Nat) : State := { inField (on 1 [] [] id id) none with snaps := [(0, ⟨k, 0, a, List.replicate 64 7, 0, 0⟩)] }
    let here := drain 0xFF0000000000000040
    let lost := drain 0xFF00000000FF000000
    let faults : Bool := match writeImage 0 0 1 (lost.letGo 0) with
      | .error (.fault _ _ _) => true
      | _ => false
    (Assoc.find (s pausing).fields (s pausing).input.fid = some (testField (some pausing)) ∧ pausing.deadline ≤ (s pausing).cycle ∧
        (s pausing).intervalsOver (testField (some pausing)) = true ∧ pausing.launch = none ∧ pausing.pauser = none ∧ pausing.joined = []) ∧
      (parked.pre = .parked ∧ parked.snap = some (true, 0xFF0000000000000040) ∧ parked.pauser = some k ∧ (s parked).snaps = [] ∧
        parked.joined = [] ∧ (s parked).hostHolds (testField (some parked)) parked = [] ∧ parked.parked = [] ∧
        ((s parked).homeCounter parked).count ≠ ((s parked).homeCounter parked).total) ∧
      ((Assoc.find here.snaps here.input.fid).isSome = true ∧ here.kernelBusy 0 1024 = false ∧ (here.core 0).kernelAt ≠ some 1024 ∧
        okay (writeImage 0 0 1 (here.letGo 0)) = true ∧ faults = true) := by decide +kernel

/-- WaitEvents, the errors: a line of L1 with a dirty word and one without. -/
theorem witness_WaitEvents_errors :
    let s := on 1 [] [] (fun k => { k with cv := [(1, [(3, ⟨9, true, false⟩)]), (2, [(3, ⟨9, false, false⟩)])] }) id
    (State.reset.captured = false ∧ { State.reset with agenda := [Turn.upset (.vault 3)] }.agenda = .upset (.vault 3) :: []) ∧
      (∃ e ∈ (s.core 0).line (lineOf 0x40), e.2.dirty = true) ∧ ∀ e ∈ (s.core 0).line (lineOf 0x80), e.2.dirty = false := by decide +kernel

/-! #### Events: queues -/

/-- Queue 1, privileged, with its ring at 0x1000 of the scratchpad of core 0 and its completion ring at 0x2000; READ is `read`, RESERVE
0x1000, and a packet stands at READ. -/
def queued (read : Nat) (pkt : List Nat) (f : FieldSt) : State :=
  let s : State := { on 0 [] [] id id with input := { Input.zero with qid := 1 }, queues := [(1, ⟨[], none, none, none, true, false, false⟩)], fields := [(0, f)] }
  let s := s.pokeBytes 0x40 (bytesOfBits 16 0xFF0000000000001000 ++ bytesOfBits 8 read ++ bytesOfBits 8 0x1000 ++
    bytesOfBits 16 0xFF0000000000002000 ++ bytesOfBits 8 0 ++ [0, 0, 12, 4, 0, 0xFF, 0, 8])
  s.pokeBytes (scratchKey (0x1000 + read)) (pkt.map (BitVec.ofNat 8))

/-- What stands at the head of queue 1 is served, with the outcome of the general checks, and `q` holds of the packet and of the state in
which it has been read. -/
def serves (s : State) (bad : Option Nat) (q : Pkt → State → Bool) : Bool :=
  let n := s.input.qid
  decide (n < 1024) &&
    match s.server n with
    | none => false
    | some c =>
      match readHead c n (atTurn s c n) with
      | .ok (some p, r) =>
       match turnTo c n r with
       | .ok ((), u) =>
        !s.kernelBusy c n && decide ((s.core c).kernelAt ≠ some n) && decide ((s.queue n).taken = none) && s.mayVisit c n && decide (p.core = c) &&
          decide (p.qid = n) && (decide (p.flags / 4 % 2 = 0) || decide ((u.queue p.qid).started = [])) && decide (u.badPacket p = bad) && q p u
       | .error _ => false
      | _ => false

theorem serves_packet {s : State} {bad : Option Nat} {q : Pkt → State → Bool} (h : serves s bad q = true) :
    ∃ p u, servedPacket s p bad u ∧ q p u = true := by
  simp only [serves, Bool.and_eq_true, decide_eq_true_eq] at h
  obtain ⟨h1, h2⟩ := h
  split at h2
  · simp at h2
  · rename_i c hc
    split at h2
    · rename_i p r hr
      split at h2
      · rename_i u ht
        simp only [Bool.and_eq_true, Bool.not_eq_true', Bool.or_eq_true, decide_eq_true_eq] at h2
        obtain ⟨⟨⟨⟨⟨⟨⟨⟨ha, hb⟩, hd⟩, hv⟩, hp⟩, hn⟩, hf⟩, hx⟩, hq⟩ := h2
        subst hp
        exact ⟨p, u, ⟨⟨h1, hc, ha, hb, hd⟩, hv, hn, ⟨r, by rw [hn]; exact hr, by rw [hn]; exact ht⟩, hf, hx⟩, hq⟩
      · simp at h2
    · simp at h2

theorem witness_QueueEvents_wake :
    let s := queued 0 [] (testField none)
    let bad : State := s.pokeBytes 0x7E [0, 0]
    let gated : State := withCore s 0 fun k => { k with gated := true }
    let waking : State := withCore s 0 fun k => { k with waking := true }
    let late : State := { s with cycle := 2 ^ 26, wake := [(1, 16)], queues := [(1, ⟨[], none, none, some (0, 0), true, false, false⟩)] }
    ((s.desc 1).enabled = true ∧ (s.desc 1).halted = false ∧ (s.desc 1).sound 1 = true ∧ s.homeOf 1 = some 0 ∧ (s.core 0).gated = false) ∧
      (bad.desc 1).enabled = false ∧ (gated.core 0).gated = true ∧ (waking.core 0).waking = true ∧ waking.wake = [] ∧
      (s.able 0 = true ∧ (s.core 0).bootMode = false) ∧
      (s.server 1 = some 0 ∧ s.kernelBusy 0 1 = false ∧ (s.core 0).kernelAt ≠ some 1 ∧ (s.queue 1).taken = none ∧ s.mayVisit 0 1 = true ∧
        okay (readHead 0 1 (atTurn s 0 1)) = true) ∧
      (let s := queued 0 [0, 0, 1] (testField none)
       ran (readHead 0 1 (atTurn s 0 1)) (fun p _ => p.isSome) = true ∧ ran (readHead 0 1 (s.letGo 0)) (fun p _ => p.isSome) = true) ∧
      -- nothing is published
      (let none_ : State := queued 0x1000 [] (testField none)
       ran (readHead 0 1 (atTurn none_ 0 1)) (fun p r => p.isNone && okay (turnTo 0 1 r)) = true ∧ none_.mayVisit 0 1 = true) ∧
      (late.server 1 = some 0 ∧ (late.queue 1).unpublished = some ((late.desc 1).read, 0) ∧ 0 + 2 ^ 26 ≤ late.cycle ∧
        (late.desc 1).read < (Assoc.get 0 late.wake 1).toNat ∧ (late.desc 1).stalled = false ∧
        ran (readHead 0 1 ((late.pokeBytes (scratchKey 0x1004) [9]).letGo 0)) (fun p r => p.isNone && decide ((r.queue 1).unpublished = some ((r.desc 1).read, 0) ∧
          0 + 2 ^ 26 ≤ r.cycle ∧ (r.desc 1).read < (Assoc.get 0 r.wake 1).toNat ∧ (r.desc 1).stalled = false)) = true) ∧
      (s.tableBacked 1 = true ∧ (∀ e ∈ s.cores, Assoc.find (s.core e.1).cv (lineOf (s.descAt 1)) = none) ∧ s.directory = [] ∧
        s.biPending = [] ∧ s.biOps = []) := by decide +kernel

/-- A packet of two units is on its way out, with its completion and without. -/
theorem witness_QueueEvents_settles :
    let s (r : Option (Nat × Nat)) : State :=
      { queued 0 [] (testField none) with queues := [(1, ⟨[], none, some ⟨⟨1, 0, 9, 5, 0⟩, 2, r, none⟩, none, true, false, false⟩)] }
    ∀ r ∈ [none, some (0, 0)],
      okay ((List.range 2).forM (fun j => kWrite 0 (((s r).desc 1).ringAt (0 + 16 * j)) (List.replicate 8 0)) (s r)) = true ∧
        ((s r).queue 1).taken.isSome = true := by decide +kernel

/-- Queue 1 has priority 0 and queue 2 has priority 3: the home turns to queue 2 first, and then to queue 1 (R43). -/
theorem witness_QueueEvents_priority :
    let s : State := queued 0 [] (testField none)
    let s : State := { s with queues := [(1, ⟨[], none, none, none, true, false, false⟩), (2, ⟨[], none, none, none, true, false, false⟩)] }
    let s := s.pokeBytes 0x80 (bytesOfBits 16 0xFF0000000000001000 ++ bytesOfBits 8 0 ++ bytesOfBits 8 0x1000 ++
      bytesOfBits 16 0xFF0000000000002000 ++ bytesOfBits 8 0 ++ [0, 0, 12, 4, 3, 0xFF, 0, 8])
    (s.server 1 = some 0 ∧ s.server 2 = some 0 ∧ s.visited.contains 2 = false ∧ (s.desc 1).prio < (s.desc 2).prio ∧
      2 ∈ s.queues.map (·.1)) ∧ s.mayVisit 0 1 = false ∧ s.mayVisit 0 2 = true ∧ (s.visit 0 2).mayVisit 0 1 = true ∧
      (s.visit 0 2).mayVisit 0 2 = false := by decide +kernel

/-- A published header that is not yet there: the latch has passed READ, or not. -/
theorem witness_QueueEvents_unpublished :
    let s : State := queued 0x1000 [] (testField none)
    s.mayVisit 0 1 = true ∧ (match caught (ringRead 0 (s.desc 1) (s.desc 1).read 8) (atTurn s 0 1) with
     | .ok (some h, u) => decide (bitsOfBytes ((h.drop 4).take 4) ≠ (s.desc 1).read / 2 ^ (s.desc 1).sizeLog % 2 ^ 32 ∧
         (u.desc 1).read = (s.desc 1).read ∧ u.queue 1 = { s.queue 1 with turn := false } ∧ (s.queue 1).unpublished = none ∧ u.cycle = s.cycle)
     | _ => false) = true := by decide +kernel

/-- The first 16 bytes of a packet of the first pass: type, no flags, length. -/
def head16 (type len : Nat) : List Nat := [type, 0, len, 0, 0, 0, 0, 0, 9, 0, 0, 0, 0, 0, 0, 0]

/-- A pointer to an offset of the scratchpad, as 16 bytes. -/
def local16 (lo hi : Nat) : List Nat := [lo, hi, 0, 0, 0, 0, 0, 0, 0xFF, 0, 0, 0, 0, 0, 0, 0]

theorem witness_QueueEvents_plain :
    serves (queued 0 (head16 0 1) (testField none)) none (fun p _ => p.type = 0) = true ∧
      serves (queued 0 (head16 0xD 1) (testField none)) (some 5) (fun p _ => 0xD ≤ p.type) = true ∧
      serves (queued 0 (head16 9 3 ++ [0, 0, 0, 0, 0, 0, 0, 0] ++ local16 0x40 0 ++ [5, 0, 0, 0, 0, 0, 0, 0]) (testField none)) none
        (fun p u => p.type = 9 ∧ (p.ptr 24).toNat % 8 = 0 ∧ okay (kWrite p.core (p.ptr 24) ((p.bytes.drop 40).take 8) u) = true) = true := by
  decide +kernel

theorem witness_QueueEvents_waits :
    let pkt (c : Nat) : List Nat := head16 10 4 ++ [c, 0, 0, 0, 0, 0, 0, 0] ++ local16 0x40 0 ++ [5, 0, 0, 0, 0, 0, 0, 0] ++
      [255, 255, 255, 255, 255, 255, 255, 255] ++ [0, 0, 0, 0, 0, 0, 0, 0]
    let s (c : Nat) := queued 0 (pkt c) (testField none)
    let again : State := { s 0 with queues := [(1, ⟨[], some ⟨1, 0, 10, 9, 0⟩, none, none, true, false, false⟩)] }
    let read (p : Pkt) (u : State) : Bool := p.type = 10 ∧ (p.ptr 24).toNat % 8 = 0 ∧ bitsOfBytes ((p.bytes.drop 16).take 1) ≤ 3 ∧
      okay (kNat p.core (p.ptr 24) 8 u) = true
    (serves (s 1) none read = true ∧ ((s 1).queue 1).waitValue = none) ∧ (serves (s 3) none read = true) ∧
      (serves again none read = true ∧ (again.queue 1).waitValue.isSome = true) := by decide +kernel

theorem witness_QueueEvents_skip :
    let pkt (q : Nat) (to_ : Nat) : List Nat := head16 11 3 ++ [q, 0, 0, 0, 0, 0, 0, 0] ++ [0, 0, 0, 0, 0, 0, 0, 0] ++ [to_, 0, 0, 0, 0, 0, 0, 0] ++
      [0, 0, 0, 0, 0, 0, 0, 0]
    let other (s : State) : State := s.pokeBytes 0x80 (bytesOfBits 16 0xFF0000000000003000 ++ bytesOfBits 8 0 ++ bytesOfBits 8 0x1000 ++
      bytesOfBits 16 0xFF0000000000002000 ++ bytesOfBits 8 0 ++ [0, 0, 12, 4, 0, 0xFF, 0, 8])
    let s := other (queued 0 (pkt 2 32) (testField none))
    let halted : State :=
      { s.pokeBytes 0xBF [0x28] with queues := [(1, ⟨[], none, none, none, true, false, false⟩), (2, ⟨[], none, none, none, false, true, false⟩)] }
    serves (queued 0 (pkt 1 32) (testField none)) none (fun p _ => p.type = 11 ∧ bitsOfBytes ((p.bytes.drop 16).take 2) = p.qid) = true ∧
      serves halted none (fun p u => p.type = 11 ∧ (u.desc 2).halted = true ∧ (u.queue 2).broken = true) = true ∧
      serves s none (fun p u => p.type = 11 ∧ u.homeOf 2 = some 0 ∧ (u.desc 2).enabled = true ∧ (u.desc 2).sound 2 = true ∧
        (u.queue 2).broken = false ∧ (u.core p.core).kernelAt = none ∧ (u.desc 2).read = 0 ∧ bitsOfBytes ((p.bytes.drop 32).take 8) = 32 ∧ 32 ≤ (u.desc 2).reserve ∧
        okay ((List.range 2).forM (fun j => kWrite 0 ((u.desc 2).ringAt (0 + 16 * j)) (List.replicate 8 0)) u) = true) = true := by decide +kernel

/-! #### Events: packets of fields -/

theorem witness_FieldEvents_fields :
    let field : List Nat := head16 3 4 ++ [1, 2, 0, 2, 1, 1, 1, 0] ++ List.replicate 40 0
    let budget : List Nat := head16 4 3 ++ [0, 0, 0, 0, 5, 0, 0, 0, 6, 0, 0, 0, 7, 0, 0, 0, 8, 0, 0, 0] ++ List.replicate 12 0
    let ways : List Nat := head16 5 2 ++ [0, 0, 3, 0] ++ List.replicate 12 0
    let num (p : Pkt) (off n : Nat) : Nat := bitsOfBytes ((p.bytes.drop off).take n)
    serves (queued 0 field (testField none)) none (fun p u => p.type = 3 ∧ num p 16 1 = 1 ∧ Assoc.find u.fields 1 = none ∧ num p 19 1 = 2 ∧
        num p 17 1 + num p 19 1 ≤ 16 ∧ (∀ e ∈ u.fields, e.2.overlaps (num p 17 1) (num p 18 1) (num p 19 1) (num p 20 1) = false) ∧
        num p 19 1 % num p 21 1 = 0 ∧ num p 22 1 ≠ 0 ∧ num p 23 1 % 2 = 0 ∧ p.ptr 24 = 0 ∧ p.ptr 40 = 0 ∧ num p 56 8 = 0) = true ∧
      serves (queued 0 budget (testField (some (testJob 0)))) none (fun p u => decide (p.type = 4 ∧ (Assoc.find u.fields (num p 16 1)).isSome = true ∧
        (List.range 4).all (fun i => num p (20 + 4 * i) 4 ≠ 0) = true)) = true ∧
      serves (queued 0 ways (testField none)) none (fun p u => p.type = 5 ∧ Assoc.find u.fields (num p 16 1) = some (testField none)) = true := by
  decide +kernel

/-- A launch header at 0x100 of the scratchpad: CODEBASE 0x400, W = 2^8, SPLIT 4. -/
def withHeader (s : State) : State := s.pokeBytes (scratchKey 0x100) ((local16 0 4 ++ List.replicate 16 0 ++ [8, 4]).map (BitVec.ofNat 8))

theorem witness_FieldEvents_launches :
    let graph : List Nat := head16 1 4 ++ [0, 0, 0, 0, 1, 0, 0, 0] ++ local16 0 1 ++ local16 0 2 ++ List.replicate 8 0
    let grid : List Nat := head16 2 5 ++ List.replicate 8 0 ++ local16 0 1 ++ local16 0 2 ++ [100, 0, 0, 0, 9, 0, 0, 0, 10, 0, 10, 0] ++
      List.replicate 12 0
    let accepted (n : Nat) (p : Pkt) (u : State) : Bool := decide (p.type = n) && !u.fieldBusy p &&
      match launchHead p u with
      | .ok (some (_, h, _, rc, _), v) =>
        decide (bitsOfBytes ((h.drop 32).take 1) = 8) &&
          if n = 1 then okay (readRoots rc 1 (p.ptr 40) v) else okay (kRead rc (p.ptr 40) 64 v) && !(v.gridCores (testField none) false false).isEmpty
      | _ => false
    serves (withHeader (queued 0 graph (testField none))) none (accepted 1) = true ∧
      serves (withHeader (queued 0 grid (testField none))) none (accepted 2) = true := by decide +kernel

theorem witness_FieldEvents_pauses :
    let pause : List Nat := head16 6 2 ++ [0, 0, 0, 0, 100, 0, 0, 0] ++ List.replicate 8 0
    let snap : List Nat := head16 7 3 ++ [0, 1, 0, 0, 100, 0, 0, 0] ++ local16 0 8 ++ List.replicate 8 0
    let restore : List Nat := head16 8 3 ++ List.replicate 32 0
    let f (j : Job) : FieldSt := testField (some j)
    let parked := { testJob 0 with pre := .parked }
    let joining := { testJob 0 with pre := .pausing false }
    serves (queued 0 pause (f joining)) none (fun p u => p.type = 6 ∧ Assoc.find u.fields 0 = some (f joining)) = true ∧
      serves (queued 0 snap (f (testJob 0))) none (fun p u => p.type = 7 ∧ Assoc.find u.fields 0 = some (f (testJob 0)) ∧
        (testJob 0).snapJob = false ∧ (testJob 0).pre ≠ .parked) = true ∧
      serves (queued 0 pause (f (testJob 0))) none (fun p u => p.type = 6 ∧ Assoc.find u.fields 0 = some (f (testJob 0)) ∧
        bitsOfBytes ((p.bytes.drop 20).take 4) = 100) = true ∧
      serves (queued 0 snap (f (testJob 16))) none (fun p u => p.type = 7 ∧ Assoc.find u.fields 0 = some (f (testJob 16)) ∧
        (testJob 16).snapJob = true ∧ bitsOfBytes ((p.bytes.drop 17).take 1) % 2 = 1) = true ∧
      serves (queued 0 snap (f { testJob 16 with pre := .pausing true })) none (fun p u => p.type = 7 ∧
        Assoc.find u.fields 0 = some (f { testJob 16 with pre := .pausing true }) ∧ bitsOfBytes ((p.bytes.drop 17).take 1) % 2 = 1) = true ∧
      serves (queued 0 restore (f parked)) none (fun p u => p.type = 8 ∧ Assoc.find u.fields 0 = some (f parked) ∧ parked.snap = none ∧
        okay (takePkt p (some (0, 0)) (some 0) (u.modJob 0 fun j => { j with launch := some p.ticket, pre := .running })) = true) = true ∧
      ((f (testJob 0)).allCores.Nodup ∧ ∀ c ∈ (f (testJob 0)).allCores,
        ((queued 0 pause (f (testJob 0))).core c).pending = []) := by decide +kernel

/-! #### Events: DEBUG -/

/-- A DEBUG packet for the core with logical id `lid`. -/
def debugPacket (lid code dlen : Nat) (data : List Nat) : List Nat :=
  head16 12 (3 + (dlen + 15) / 16) ++ [lid % 256, lid / 256, code, 0, dlen % 256, dlen / 256, 0, 0] ++ local16 0 5 ++ data

theorem witness_DebugEvents_starts :
    let is (p : Pkt) (code : Nat) : Bool := decide (p.type = 0xC ∧ bitsOfBytes ((p.bytes.drop 18).take 2) = code)
    let target (p : Pkt) (u : State) : Option Nat := u.coreOfLid (bitsOfBytes ((p.bytes.drop 16).take 2))
    let s := queued 0 (debugPacket 0 9 0 []) (testField none)
    let gated : State := withCore (queued 0 (debugPacket 1 9 0 []) (testField none)) 1 fun k => { k with gated := true }
    let nobody : State := holed (queued 0 (debugPacket 0x3FF 9 0 []) (testField none))
    s.input.flag = false ∧
      serves s none (fun p u => is p 9 && decide (target p u = some 0 ∧ u.able 0 = true) &&
        ran (takePkt p none none { u with debugWorks := u.debugWorks ++ [⟨p.ticket, p.core, 0, 9, [], p.ptr 24, false, 0, 0, 0, 0, 0, none⟩] })
          fun _ w => decide (s.debugWorks.length < w.debugWorks.length)) = true ∧
      serves gated none (fun p u => is p 9 && decide (target p u = some 1 ∧ u.able 1 = false ∧ u.debugWorks.length = gated.debugWorks.length)) = true ∧
      serves nobody none (fun p u => is p 9 && decide (target p u = none) &&
        ran (takePkt p (some (6, 0)) none u) fun _ w => decide (w.debugWorks.length = nobody.debugWorks.length)) = true := by decide +kernel

/-- A request about core 0, which is stopped and whose slot 2 is halted, is worked at. -/
def working (code : Nat) (data : List Nat) (f : DebugWork → DebugWork) (h : Ctx → Ctx) : State :=
  let s : State := inField (on 0 [] [] (fun k => { k with stopped := true }) id) (some (testJob 0))
  let s := s.setCtx 0 2 (h { Ctx.reset with live := true, halted := true, gen := 3, pc := 0x100000 })
  { s with
    input := { Input.zero with flag := true }
    debugWorks := [f ⟨⟨1, 0, 9, 12, 0⟩, 0, 0, code, data.map (BitVec.ofNat 8), 0xFF0000000000000500, false, 0, 0, 0, 0, 0, none⟩] }

/-- The request at work. -/
def workOf (s : State) : DebugWork := s.debugWorks.headD ⟨⟨0, 0, 0, 0, 0⟩, 0, 0, 0, [], 0, false, 0, 0, 0, 0, 0, none⟩

theorem requestDue_iff {s : State} {code : Nat} {g : DebugWork} :
    requestDue s code g ↔ (s.input.flag && decide (s.debugWorks[s.input.index]? = some g) && decide (g.code = code) && decide (g.answer = none) &&
      s.able g.core && ((s.debugWorks.take s.input.index).all fun h => decide (h.core ≠ g.core) || h.begun) && !s.kernelBusy g.core g.workId &&
      decide ((s.core g.core).kernelAt = none)) = true := by
  simp [requestDue, and_assoc]

/-- Its reply can be written. -/
def answers (s : State) (status : Nat) (data : List Byte) (v : State) : Bool :=
  let g := workOf s
  (v.debugWorks[0]?).any (fun h => decide ({ h with begun := true } = { g with begun := true })) &&
    okay (kWrite g.core g.reply (bytesOfBits 4 status ++ bytesOfBits 4 data.length ++ List.replicate 8 0 ++ data)
      (v.setWork 0 { g with answer := some (status, data), begun := true }))

theorem witness_DebugEvents_control :
    let due (s : State) (code : Nat) : Prop := s.input.index = 0 ∧ requestDue s code (workOf s)
    let v (s : State) : State := s.letGo 0
    let all := List.replicate 12 (0 : Byte)
    let halt := working 1 [1] id id
    let begun := working 1 [0] (fun g => { g with begun := true }) fun x => { x with waiting := some ⟨.barrier, 0, 0⟩ }
    let running : State := withCore halt 0 fun k => { k with stopped := false }
    let resume (n : Nat) := working 2 [n] id id
    let step (h : Ctx → Ctx) := working 3 [2, 0, 0, 0, 64, 0, 0, 0] id h
    let next (left : Nat) (h : Ctx → Ctx) := working 3 [2, 0, 0, 0, 64, 0, 0, 0] (fun g => { g with begun := true, slot := 2, left := left, gen := 3 }) h
    let status (s : State) : Option Nat := ((v s).ctx 0 2).stepStatus 0 3
    (due halt 1 ∧ (∀ i < 11, (((v halt).debugStop 0 1).ctx 0 (i + 1)).atRest = true) ∧
        answers halt 0 all (((v halt).debugStop 0 1).setWork 0 { workOf halt with begun := true }) = true) ∧
      (due begun 1 ∧ ((v begun).ctx 0 2).atRest = false) ∧ ((v halt).core 0).stopped = true ∧ ((v running).core 0).stopped = false ∧
      (due (resume 0xFF) 2 ∧ due (resume 2) 2 ∧ due (resume 0) 2 ∧ answers (resume 2) 0 [] ((v (resume 2)).resumeSlots 0 [2]) = true ∧
        answers (resume 0) 1 [] (v (resume 0)) = true) ∧
      (due (step id) 3 ∧ ((v (step id)).ctx 0 2).atRest = true ∧ (v (step id)).stepped 0 0 2 = false) ∧
      (due (step fun x => { x with halted := false }) 3 ∧ answers (step fun x => { x with halted := false }) 2 [] (v (step fun x => { x with halted := false })) = true) ∧
      (due (next 5 id) 3 ∧ status (next 5 fun x => { x with stepping := true }) = none ∧ status (next 5 id) = some 1 ∧
        answers (next 5 id) 0 (stepData 0 1 0x100000) (v (next 5 id)) = true) ∧
      (status (next 0 fun x => { x with retired := 1 }) = some 0 ∧ due (next 0 fun x => { x with retired := 1 }) 3 ∧
        status (next 5 fun x => { x with live := false }) = some 0 ∧
        status (next 5 fun x => { x with retired := 1 }) = some 0) := by
  simp only [requestDue_iff]; decide +kernel

theorem witness_DebugEvents_state :
    let due (s : State) (code : Nat) : Prop := s.input.index = 0 ∧ requestDue s code (workOf s)
    let v (s : State) : State := s.letGo 0
    let rctx (h : Ctx → Ctx) := working 4 [2] id h
    let wctx := working 5 [2, 0, 0, 0, 0x48, 2, 0, 0, 1, 2, 3, 4, 5, 6, 7, 8] id id
    let rmem := working 6 (local16 0x40 0 ++ [4, 0, 0, 0]) id id
    let lost := working 6 ([0, 0, 0, 0xFF, 0, 0, 0, 0, 0xFF, 0, 0, 0, 0, 0, 0, 0] ++ [4, 0, 0, 0]) id id
    let wmem := working 7 (local16 0x40 0 ++ [4, 3, 2, 1]) id id
    let watch := working 8 (List.replicate 40 0) id id
    let stat := working 9 [] id id
    (due (rctx id) 4 ∧ ((v (rctx id)).ctx 0 2).halted = true ∧ ((v (rctx id)).ctx 0 2).atRest = true ∧
        answers (rctx id) 0 ((v (rctx id)).ctx 0 2).image (v (rctx id)) = true) ∧
      (due (rctx fun x => { x with halted := false }) 4 ∧ answers (rctx fun x => { x with halted := false }) 2 [] (v (rctx id)) = true) ∧
      (due wctx 5 ∧ ((workOf wctx).data.drop 8).length = 8 ∧ bitsOfBytes (((workOf wctx).data.drop 4).take 4) = 592 - 8) ∧
      (due rmem 6 ∧ (workOf rmem).data.length = 20 ∧ okay (jobRead 0 0xFF0000000000000040 4 (v rmem)) = true) ∧
      (due lost 6 ∧ (workOf lost).data.length = 20 ∧ (match jobRead 0 (bitsOfBytes ((workOf lost).data.take 16)) 4 (v lost) with
        | .error (.fault _ _ _) => true
        | _ => false) = true) ∧
      (due wmem 7 ∧ okay (jobWrite 0 0xFF0000000000000040 [4, 3, 2, 1] (v wmem)) = true) ∧
      (due watch 8 ∧ (workOf watch).data.length = 40 ∧ answers watch 0 [] (v watch) = true) ∧ due stat 9 := by
  simp only [requestDue_iff]; decide +kernel

theorem witness_DebugEvents_image :
    (plainOn 2 [(4, 5)] [(4, 5)]).now.pc.toNat % 4 = 0 ∧ (plainOn 2 [] []).now.cir &&& ~~~0xFFFF000F#64 = 0 ∧
      (plainOn 2 [] []).now.fpstat &&& ~~~0x3F#64 = 0 ∧ (plainOn 2 [] []).now.fpctl &&& 0xFFFFFFF8#64 = 0 := by decide +kernel

/-! #### The machine as a whole -/

theorem witness_DecodeEncode : (Instr.add .i64 3 4 5).wellFormed = true ∧ (encode (.add .i64 3 4 5)).isSome = true := by decide +kernel

theorem witness_StepKeepsMemory : Memory.wf State.reset.mem = true ∧ ∃ t, step { State.reset with agenda := [.issue 0 0] } = .next t := by
  refine ⟨by decide +kernel, ?_⟩
  have h : (match step { State.reset with agenda := [.issue 0 0] } with
    | .next _ => true
    | _ => false) = true := by decide +kernel
  split at h
  · exact ⟨_, by assumption⟩
  · simp at h

/-- A word at the program counter of slot 0 of core 0, whose turn it is. -/
def fetching (w : Word) (f : Ctx → Ctx) : State :=
  let s : State := { on 0 [] [] id (fun x => f { x with pc := 0x100040 }) with agenda := [.issue 0 0] }
  s.pokeBytes (0x100040) (bytesOfBits 8 w.toNat)

theorem witness_StepRunsDecoded :
    let u (s : State) : State := ({ s with agenda := [] } : State).tick
    let v (s : State) : State := (u s).lapsesOver 0 0
    let found (s : State) : Found := ((v s).fetchAt 0 0 ((v s).ctx 0 0).pc).1
    let decoded (s : State) (q : Fetched → Bool) : Bool := match found s with
      | .code w room => q (decode room (BitVec.ofNat 128 w))
      | .bad _ | .migrating | .held _ => false
    let s := fetching 0x0000000300510304 id
    let held : State := withCore s 0 fun k => { k with dramLim := 1, dramUse := 1 }
    let tight : State := withPage
      { held with agenda := [.issue 0 2], cores := (held.setCtx 0 2 { held.ctx 0 0 with live := true, pc := 0x30000 }).cores }
    let p : PairState :=
      ⟨1, true, 0, false, false, 0, false, 0, 0, 0, 5, 6, [], [], [], State.reset.ctx 0 1, [], [], [], 0, false, [], [], [], []⟩
    let east : State := withCore s 0 fun k => { k with pair := some p }
    (s.captured = false ∧ (u s).follows 0 0 = false ∧ (u s).canIssue 0 0 = true ∧ ((u s).ctx 0 0).lates = [] ∧
        decoded s (fun d => d = .instr (.add .i64 3 4 5) 8) = true) ∧
      decoded (fetching 0x8000000300510304 id) (fun d => match d with
        | .illegal _ => true
        | _ => false) = true ∧
      decoded (fetching 0x103 id) (fun d => d = .badLength) = true ∧
      (match found (fetching 0 fun x => { x with pc := 0x1F000000 }) with
        | .bad _ => true
        | _ => false) = true ∧
      (match ((u tight).fetchAt 0 2 ((u tight).ctx 0 2).pc).1 with
        | .held _ => true
        | _ => false) = true ∧
      decoded (fetching 0 fun x => { x with pc := 0x10005C }) (fun d => d = .cross) = true ∧
      (match ((u (tight.pokeBytes 0x140030 [0x3F])).fetchAt 0 2 0x30000).1 with
        | .migrating => true
        | _ => false) = true ∧
      (u east).follows 0 1 = true ∧ (u (fetching 0 fun x => { x with live := false })).canIssue 0 0 = false ∧
      eventOf .budgetPeriodStart = true := by decide +kernel

theorem witness_CapturedStays :
    let s : State := { State.reset with captured := true, agenda := [.issue 0 0], plate := [5] }
    s.captured = true ∧ s.plate ≠ [] ∧ ∃ t, step s = .next t := by
  refine ⟨rfl, by decide +kernel, _, rfl⟩

/-! #### Clauses that concern translated memory, boot traffic that waits, and requests in progress -/

/-- No context of any core waits. -/
theorem quiet_words {s : State} (h : (s.cores.all fun e => e.2.ctxs.all fun f => f.2.waiting.isNone) = true) (c : Nat) : quietWords s c := by
  intro o
  simp only [State.waiters, List.flatMap_eq_nil_iff, List.filterMap_eq_nil_iff]
  intro e he f hf
  have := List.all_eq_true.mp (List.all_eq_true.mp h e he) f hf
  simp only [Option.isNone_iff_eq_none] at this
  simp [this]

/-- A helper of core 0 with a pointer to a page of the device. -/
def devState (f : Core → Core) : State := withPage (on 2 [(5, 7)] [(4, 0x30040)] f id)

/-- Whether an access reaches the device's memory at `key`, as `reachesDevice` asks, but for the routes. -/
def deviceAt (s : State) (va : Ptr) (n : Nat) (k : Access) (key : Nat) : Bool :=
  (match (s.locate s.curCore s.curSlot va.toNat n k).1 with
    | .at_ j => decide (j = key)
    | .bad _ | .migrating => false) && decide (keySpace key = 0 ∧ s.directory = [] ∧ s.biPending = []) && s.unwatched s.curCore

theorem deviceAt_reaches {s : State} {va : Ptr} {n : Nat} {k : Access} {key : Nat} (h : deviceAt s va n k key = true) (ho : s.allOpen) :
    s.reachesDevice va n k ((List.range n).map (key + ·)) := by
  simp only [deviceAt, Bool.and_eq_true, decide_eq_true_eq] at h
  obtain ⟨⟨h1, h2, h3, h4⟩, h5⟩ := h
  rcases e : s.locate s.curCore s.curSlot va.toNat n k with ⟨l, u⟩
  rw [e] at h1
  cases l with
  | at_ j =>
    simp only [decide_eq_true_eq] at h1
    exact ⟨key, u, by rw [e, h1], h2, rfl, h3, h4, ho, h5⟩
  | bad _ => simp at h1
  | migrating => simp at h1

/-- LoadResult, AtomicResult, ObjectResult: memory of the device, with nothing of the line in the cache, and with all that is read. -/
theorem witness_LoadResult_device :
    let line : Assoc CvByte := (List.range 64).map fun i => (i, ⟨9, false, false⟩)
    let some_ (f : Core → Core) : Prop := (devState f).steady = true ∧ (devState f).unlimited ∧ (devState f).allOpen ∧
      ∀ n ∈ [4, 8, 16, 64], (devState f).reachesDevice ((devState f).now.readP 4 + (0 : BitVec 21).signExtend 72) n .read ((List.range n).map (0x200040 + ·))
    some_ id ∧ Assoc.find (devState id).here.cv (lineOf 0x200040) = none ∧
      some_ (fun k => { k with cv := [(lineOf 0x200040, line)] }) ∧
      (∀ i < 64, (Assoc.find ((devState fun k => { k with cv := [(lineOf 0x200040, line)] }).here.line (lineOf (0x200040 + i)))
        ((0x200040 + i) % 64)).isSome = true) ∧
      ((devState id).settled 0 2 = true ∧ ∀ n ∈ [4, 8, 16],
        (devState id).reaches ((devState id).now.readP 4 + (0 : BitVec 21).signExtend 72) n .update ((List.range n).map (0x200040 + ·))) := by
  have reads : ∀ f : Core → Core, (f = id ∨ f = fun k => { k with cv := [(lineOf 0x200040, (List.range 64).map fun i => (i, ⟨9, false, false⟩))] }) →
      ∀ n ∈ [4, 8, 16, 64], (devState f).reachesDevice ((devState f).now.readP 4 + (0 : BitVec 21).signExtend 72) n .read
        ((List.range n).map (0x200040 + ·)) := by
    rintro f (rfl | rfl) n hn <;> fin_cases hn <;> exact deviceAt_reaches (by decide +kernel) fun _ => rfl
  refine ⟨⟨by decide +kernel, .inr (by decide +kernel), fun _ => rfl, reads _ (.inl rfl)⟩, by decide +kernel,
    ⟨by decide +kernel, .inr (by decide +kernel), fun _ => rfl, reads _ (.inr rfl)⟩, by decide +kernel, by decide +kernel, ?_⟩
  intro n hn
  fin_cases hn <;> exact .inr (deviceAt_reaches (by decide +kernel) fun _ => rfl)

/-- LoadResult, the probe: a walk that reads entries, to a page and to none. -/
theorem witness_LoadResult_probe :
    let s := devState id
    s.unlimited ∧ s.allOpen ∧ (s.now.readP 4).toNat % 8 = 0 ∧ s.walkReads 0 2 (s.now.readP 4).toNat ≠ [] ∧
      ((match (s.locate 0 2 0x30040 8 .read).1 with
        | .at_ key => decide (key = 0x200040)
        | .bad _ | .migrating => false) = true) ∧
      ((match (s.locate 0 2 0x40040 8 .read).1 with
        | .bad c => decide (c = .translation)
        | .at_ _ | .migrating => false) = true) := by
  exact ⟨.inr (by decide +kernel), fun _ => rfl, by decide +kernel, by decide +kernel, by decide +kernel, by decide +kernel⟩

/-- BootProtocol: no context waits for a word; an image packet for a line that the host holds; a report on its way; the host's answer for the last
image packet. -/
theorem witness_BootProtocol_waits :
    let at_ (p : Packet) (f : Core → Core) : State := { on 0 [] [] (fun k => f { k with bootMode := true }) id with net := [⟨0, p, 0, .xy⟩] }
    let word (k : Core) : Core := { k with bootWord := some 5 }
    let image : State := { at_ (.bootCast 1 3 3 (zeros 64)) word with directory := [(keyVault 0 (64 * 3) / 64, true)] }
    let go := at_ (.bootCast 1 5 0 (zeros 64)) fun k => { word k with bootDone := true }
    let passes := at_ (.bootReport 0 3 5) id
    let answer : State := { at_ (.bootDisc 1 true 5) (fun k => { word k with bootMaps := 1, bootImgs := 1 }) with
      input := { Input.zero with addr := 64 }, directory := [(1, true)] }
    (∀ k ∈ [1, 2, 3, 4, 5], quietWords (bootState k) 0) ∧ quietWords image 0 ∧
      (((image.bootArrival 0).map (fun e => (e.1, e.2.1)) = some (0, .bootCast 1 3 3 (zeros 64)) ∧ (image.core 0).bootMode = true ∧
          (Assoc.find image.directory (keyVault 0 (64 * 3) / 64)).isSome = true) ∧
        bootMapTotal 5 = 1 ∧ discImages 5 = 1 ∧ ((go.bootArrival 0).map (fun e => (e.1, e.2.1)) = some (0, .bootCast 1 5 0 (zeros 64)) ∧
          (go.core 0).bootDone = true) ∧
        ((passes.bootArrival 0).map (fun e => (e.1, e.2.1)) = some (0, .bootReport 0 3 5) ∧ (0 : Nat) ≠ 3) ∧
        (answer.input.addr < 2 ^ 39 ∧ (Assoc.find answer.directory (answer.input.addr / 64)).isSome = true ∧ (answer.core 0).bootMode = true ∧
          (answer.core 0).bootWord = some 5 ∧ bootMapTotal 5 ≤ (answer.core 0).bootMaps ∧ discImages 5 ≤ (answer.core 0).bootImgs ∧
          answer.biPending = [])) :=
  ⟨fun k hk => quiet_words (by fin_cases hk <;> decide +kernel) 0, quiet_words (by decide +kernel) 0, by decide +kernel⟩

/-- RegisterEvents: BRESUME aborts a `bread` that has asked for a burst, and a `copy` whose object is in a page in migration. -/
theorem witness_RegisterEvents_aborts :
    let park : Parked := ⟨.misaligned, 0, false⟩
    let read : BulkCmd := ⟨.bread 7 0xFF0000000000000000 1 1 2 2, 1, 0, 0, [], [(0, 0, [scratchKey 0])], false, [], none⟩
    let copy (obj : Ptr) : BulkCmd := ⟨.copy false 0xFF0000000000000400 0xFF0000000000000040 1 1 1 2 obj, 1, 0, 0, [], [], false, [], none⟩
    let reads := event (fun k => { k with bulkPark := some park, bulkq := [read], requests := [(7, ⟨1, 0, 0, 0, 0, 0, 0, 0, false⟩)] }) id Input.zero
    let copies (obj : Ptr) : State := (withPage (event (fun k => { k with copyPark := some park, copyq := [copy obj] }) id Input.zero)).pokeBytes
      0x140030 [0x3F]
    (reads.here.bulkPark.isSome = true ∧ reads.here.copyPark = none ∧ reads.here.bulkq = [read] ∧ read.asked ≠ [] ∧
        (Assoc.find reads.here.requests 7).isSome = true) ∧
      (let s := copies 0x30000
       s.here.copyPark.isSome = true ∧ s.here.bulkPark = none ∧ s.here.copyq = [copy 0x30000] ∧ (copy 0x30000).op.unit = .copy ∧
         s.objectWaits (bulkEng 0 (copy 0x30000)) 0x30000 = true) ∧
      (let s := copies 0xFF0000000000000800
       s.here.copyPark.isSome = true ∧ s.here.copyq = [copy 0xFF0000000000000800] ∧
         s.objectWaits (bulkEng 0 (copy 0xFF0000000000000800)) 0xFF0000000000000800 = false) := by decide +kernel

/-- EngineEvents, the network: a row for a tile whose object is in a page in migration, and one whose object can be reached. -/
theorem witness_NetworkEvents_waits :
    let tile (o : Ptr) (k : Core) : Core := k.setTile 3 { k.tile 3 with opened := some (9, o) }
    let row : Packet := .row 1 0xFF0000000000000040 1 3 31 9 (List.replicate 32 AccWord.zero) true
    let s (o : Ptr) : State :=
      let u := (withPage (on 1 [] [] (tile o) id)).pokeBytes 0x140030 [0x3F]
      { u with net := [⟨0, row, 0, .xy⟩], fields := u.fields.map fun e => (e.1, { e.2 with job := some (testJob 0) }) }
    let left (o : Ptr) : State := { s o with net := others (s o) }
    arrives (s 0x30000) 0 row ∧ arrives (s 0xFF0000000000000800) 0 row ∧
      ((s 0x30000).rowRefusal 0 1 (((s 0x30000).core 0).tile 3) 9 = none ∧ (left 0x30000).objectWaits ((left 0x30000).router 0 1) 0x30000 = true) ∧
      (left 0xFF0000000000000800).objectWaits ((left 0xFF0000000000000800).router 0 1) 0xFF0000000000000800 = false := by
  simp only [arrives_iff]; decide +kernel

/-- WaitEvents: another SNAPSHOT takes its copy next; an instruction that is past issue. -/
theorem witness_WaitEvents_more :
    let k : Ticket := ⟨0, 0, 7, 5, 0⟩
    let j : Job := { testJob 16 with pre := .parked, snap := some (true, 0xFF0000000000000040), pauser := some k,
                                     snaps := [(⟨0, 1, 7, 6, 0⟩, true, 0xFF0000000000000400)] }
    let s : State := inField (on 1 [] [] id id) (some j)
    let past := on 2 [] [] id fun x => { x with committed := true }
    let plain := on 2 [] [] id fun x => { x with waiting := some ⟨.barrier, 0, 0⟩ }
    (Assoc.find s.fields s.input.fid = some (testField (some j)) ∧ Assoc.find s.snaps s.input.fid = none ∧
        s.hostHolds (testField (some j)) j = []) ∧
      past.now.committed = true ∧ plain.now.committed = false ∧ plain.now.pastIssue = false := by decide +kernel

/-- MemoryEvents: an SPDM GET_VERSION stands in the mailbox of the configuration space; an index that names no measurement. -/
theorem witness_MemoryEvents_mailbox :
    let s : State := { State.reset with pci := { State.reset.pci with doeIn := [0x10001, 3, 0x8410] } }
    s.pci.doeIn = [0x10001, 3, 0x8410] ∧ s.input.index = 0 ∧ (∀ n < 2048, (s.msixEntry n).masked = true) ∧ s.pci.msixMask = false ∧
      { s.pci with msixMask := true }.msixMask = true := by decide +kernel

/-- StepRunsDecoded: LEN ends a code message inside its instruction. -/
theorem witness_StepRunsDecoded_text :
    let bs : List Byte := bytesOfBits 4 0x00510304
    let s : State := { on 2 [] [] id (fun x => { x with role := .message, text := some bs, pc := 0xFF0000000200000000 }) with agenda := [.issue 0 2] }
    let v : State := (({ s with agenda := [] } : State).tick).lapsesOver 0 2
    (v.ctx 0 2).text = some bs ∧ (v.ctx 0 2).lates = [] ∧ (({ s with agenda := [] } : State).tick).canIssue 0 2 = true ∧
      (match (v.fetchAt 0 2 (v.ctx 0 2).pc).1 with
        | .code w room => decide (decode room (BitVec.ofNat 128 w) = .cross ∧ lenBytes (BitVec.ofNat 2 w) = 8)
        | .bad _ | .migrating | .held _ => false) = true := by decide +kernel

end Sys2Proof.Tests
end

section
/-! SUPPORT. The state after reset (R6). -/

namespace Sys2Proof.Machine

theorem State.reset_core (c : Nat) : State.reset.core c = Core.reset := rfl
theorem State.reset_slice (cl : Nat) : State.reset.slice cl = Slice.reset := rfl
theorem State.reset_ctx (c n : Nat) : State.reset.ctx c n = Ctx.dflt n := rfl
theorem Core.reset_vreg (r : Nat) : Core.reset.vreg r = VRegState.reset := rfl

theorem Ctx.dflt_ne_zero {n : Nat} (h : n ≠ 0) : Ctx.dflt n = Ctx.reset := if_neg h

theorem Ctx.reset_readG (r : Nat) : Ctx.reset.readG r = 0 := by
  unfold Ctx.readG
  split <;> rfl

/-- Settles O54: the maps of the reset state list nothing, so every core, slice and context is the default one, read field by field. -/
theorem resetState : Obligations.ResetState := by
  unfold Obligations.ResetState
  refine ⟨rfl, rfl, rfl, rfl, rfl, fun q => rfl, rfl, rfl, fun cl => ?_, fun c => ?_⟩
  · rw [State.reset_slice]
    exact ⟨rfl, rfl, rfl, rfl⟩
  · rw [State.reset_core, State.reset_ctx]
    refine ⟨rfl, rfl, rfl, rfl, rfl, rfl, rfl, fun r => Core.reset_vreg r, fun n hn => ?_⟩
    rw [State.reset_ctx, Ctx.dflt_ne_zero hn]
    exact ⟨rfl, rfl, Ctx.reset_readG⟩

end Sys2Proof.Machine
end

section
/-! SUPPORT. Effects that read the state or change the issuing core, and what an instruction that writes g registers leaves of its context. -/

namespace Sys2Proof.Machine

variable {s : State} {k k' : Core} {y y' : Ctx}

/-! ### Fields that a bare core or state keeps -/

theorem Core.eq_of_bare {α : Type} (f : Core → α) {j k : Core} (h : j.bare = k.bare) (hf : ∀ b : Core, f b.bare = f b := by intro; rfl) :
    f j = f k := by
  rw [← hf j, h, hf]

theorem State.eq_of_bare {α : Type} (f : State → α) {t u : State} (h : t.bare = u.bare) (hf : ∀ b : State, f b.bare = f b := by intro; rfl) :
    f t = f u := by
  rw [← hf t, h, hf]

/-! ### Effects that read the state or change the core -/

theorem Runs.me : Runs Machine.me s k y (s.curCore, s.curSlot) k y := fun t h =>
  ⟨t, by rw [me_apply, h.curCore, h.curSlot], h⟩

/-- An effect that goes on by what it reads of the whole state. -/
theorem Runs.get_bind {α : Type} {f : State → M α} {a : α} (h : ∀ u, Local s u k y → Runs (f u) s k y a k' y') :
    Runs (get >>= f) s k y a k' y' := by
  intro t ht
  rw [M.bind_apply, M.get_apply]
  exact h t ht t ht

/-- An effect that goes on by what it reads of the core. -/
theorem Runs.getCore_bind {α : Type} {f : Core → M α} {a : α}
    (h : ∀ u, Local s u k y → Runs (f (u.core s.curCore)) s k y a k' y') : Runs (getCore >>= f) s k y a k' y' := by
  intro t ht
  rw [M.bind_apply, getCore_apply, ht.curCore]
  exact h t ht t ht

/-- The core of the issuing context gets new registers; its contexts stay. -/
theorem Local.setCore {t : State} {j : Core} (h : Local s t k y) (hb : j.bare = k'.bare) (hx : j.ctxs = (t.core s.curCore).ctxs) :
    Local s (t.setCore s.curCore j) k' y := by
  have hctx (n : Nat) : j.ctx n = (t.core s.curCore).ctx n := by rw [Core.ctx, hx]; rfl
  refine ⟨h.curCore, h.curSlot, h.bare, fun c hc => ?_, ?_, fun n hn => ?_, ?_⟩
  · rw [State.core_setCore, if_neg hc, h.others c hc]
  · rw [State.core_setCore, if_pos rfl, hb]
  · rw [State.core_setCore, if_pos rfl, hctx, h.slots n hn]
  · rw [State.core_setCore, if_pos rfl, hctx, h.ctx]

theorem Runs.modCore {f : Core → Core} (hb : ∀ u, Local s u k y → (f (u.core s.curCore)).bare = k'.bare) (hx : ∀ j, (f j).ctxs = j.ctxs) :
    Runs (Machine.modCore f) s k y () k' y := by
  intro t ht
  refine ⟨_, modCore_apply f t, ?_⟩
  rw [ht.curCore]
  exact ht.setCore (hb t ht) (hx _)

theorem Local.here {t : State} (h : Local s t k y) : t.here.bare = k.bare := by rw [State.here, h.curCore, h.core]

theorem Local.peek {t : State} (h : Local s t k y) (a : Nat) : t.peek a = s.peek a :=
  State.eq_of_bare (State.peek · a) h.bare

/-! ### Instructions seen alone -/

/-- What `State.steady` asks of the issuing context that an `idle` in its wait has as well: no paired interval, no single step, no
atomic's value to come, and nothing consumed before. -/
structure State.Alone (s : State) : Prop where
  unpaired : (s.core s.curCore).pairedWest s.curSlot = false
  step1 : s.now.step1 = false
  after : s.now.after = none
  eaten : s.now.eaten = 0
  lates : s.now.lates = []

theorem State.alone_of_steady (h : s.steady = true) : s.Alone := by
  obtain ⟨h1, h2, h3, h4, h5⟩ := State.steady_iff h
  exact ⟨h1, h2, h3, h4, h5⟩

/-- An instruction of slot 0 in its wait, which has kept a step and a latch. -/
theorem State.alone_of_waiting (h0 : s.curSlot = 0)
    (h : (s.setCtx s.curCore 0 { s.now with stage := 0, latch := 0 }).steady = true) : s.Alone := by
  obtain ⟨-, h2, h3, h4, h5⟩ := State.steady_iff h
  simp only [State.now, State.setCtx_curCore, State.setCtx_curSlot, h0, State.ctx_setCtx, and_self, if_true] at h2 h3 h4 h5
  exact ⟨by simp [Core.pairedWest, h0], by rwa [State.now, h0], by rwa [State.now, h0], by rwa [State.now, h0], by rwa [State.now, h0]⟩

/-! ### What writes of g registers and of the float registers leave of a context -/

/-- A context without its g registers, marks, float registers, and what the instruction in progress has consumed. -/
def Ctx.course (x : Ctx) : Ctx := { x with g := [], marks := [], fpctl := 0, fpstat := 0, eaten := 0 }

/-- A field that `Ctx.course` does not hide. -/
theorem Ctx.eq_of_course {α : Type} {x y : Ctx} (f : Ctx → α) (h : y.course = x.course) (hf : ∀ z : Ctx, f z.course = f z := by intro; rfl) :
    f y = f x := by
  rw [← hf y, h, hf]

theorem Ctx.course_gDone (x : Ctx) (p : Bool) (d : GReg) (v : Word) (fl : Flags) : (x.gDone p d v fl).course = x.course := by
  unfold Ctx.gDone Ctx.writeG
  split <;> rfl

theorem Ctx.course_tasted (x : Ctx) (p : Bool) : (x.tasted p).course = x.course := rfl

theorem Ctx.gDone_eaten (x : Ctx) (d : GReg) (v : Word) (fl : Flags) : (x.gDone false d v fl).eaten = x.eaten := by
  unfold Ctx.gDone Ctx.writeG
  split <;> rfl

theorem Ctx.tasted_eaten {x : Ctx} (h : x.eaten = 0) (p : Bool) : (x.tasted p).eaten = if p then 1 else 0 := by
  simp [Ctx.tasted, h, cirPoison]

theorem Ctx.counted_of_course {x y : Ctx} (h : y.course = x.course) {p : Bool} (he : y.eaten = if p then 1 else 0) (bytes : Nat) (nx : Next) :
    Counted x (y.retired' bytes nx) p :=
  Ctx.retired'_facts x y bytes nx p he (Ctx.eq_of_course Ctx.cir h) (Ctx.eq_of_course Ctx.retired h) (Ctx.eq_of_course Ctx.halted h)
    (Ctx.eq_of_course Ctx.stepping h)
    (Ctx.eq_of_course Ctx.skid h)

theorem Ctx.goesOn_of_course {x y : Ctx} (h : y.course = x.course) (bytes : Nat) : GoesOn x (y.retired' bytes .seq) bytes :=
  Ctx.retired'_goesOn x y bytes (Ctx.eq_of_course Ctx.loop0 h) (Ctx.eq_of_course Ctx.loop1 h) (Ctx.eq_of_course Ctx.pc h)

theorem Ctx.goesTo_of_course {x y : Ctx} (h : y.course = x.course) (bytes : Nat) (pc : Ptr) : GoesTo x (y.retired' bytes (.jump pc)) pc := by
  have h0 := Ctx.eq_of_course Ctx.loop0 h
  have h1 := Ctx.eq_of_course Ctx.loop1 h
  rw [Ctx.retired'_eq]
  exact ⟨rfl, h0, h1⟩

/-! ### One g register written -/

theorem GWritten.of_regs {x y z : Ctx} {d : GReg} {v : Word} {p : Bool} (h : GWritten x y d v p) (hg : z.g = y.g) (hp : z.p = y.p)
    (hm : z.marks = y.marks) : GWritten x z d v p := by
  obtain ⟨h1, h2, h3⟩ := h
  exact ⟨fun r => by rw [← h1, Ctx.readG, Ctx.readG, hg], fun r => by rw [← h2, Ctx.readP, Ctx.readP, hp],
    fun u => by rw [← h3, Ctx.marked, Ctx.marked, hm]⟩

theorem GWritten.retired {x y : Ctx} {d : GReg} {v : Word} {p : Bool} (h : GWritten x y d v p) (bytes : Nat) (nx : Next) :
    GWritten x (y.retired' bytes nx) d v p :=
  h.of_regs (by rw [Ctx.retired'_eq]) (by rw [Ctx.retired'_eq]) (by rw [Ctx.retired'_eq])

/-- A second write of the same register takes the place of the first. -/
theorem GWritten.again {x y : Ctx} {d : GReg} {v : Word} {p : Bool} (h : GWritten x y d v p) (q : Bool) (w : Word) (fl : Flags) :
    GWritten x (y.gDone q d w fl) d w q := by
  obtain ⟨h1, h2, h3⟩ := h
  obtain ⟨w1, w2, w3⟩ := Ctx.gDone_written y q d w fl
  refine ⟨fun r => ?_, fun r => by rw [w2, h2], fun u => ?_⟩
  · rw [w1, h1]
    split <;> rfl
  · rw [w3, h3]
    split <;> rfl

/-- D is written without a mark before A is read (R9): A is marked then when it was and is another register. -/
theorem Ctx.anyMarked_gDone (x : Ctx) (d a : GReg) (v : Word) (fl : Flags) :
    [uG a].any (x.gDone false d v fl).marked = (decide (a ≠ d) && x.anyMarked [uG a]) := by
  obtain ⟨-, -, h⟩ := Ctx.gDone_written x false d v fl
  by_cases hd : a = d <;> simp [Ctx.anyMarked, uG, h, hd, BitVec.toNat_inj]

/-! ### From an effect to the end of the instruction -/

/-- An instruction that is seen alone completes with its effect, when that has changed nothing of the context but what `Ctx.course` hides. -/
theorem Runs.completesAlone {who : Who} {i : Instr} {body : M Next} {nx : Next} (h : s.Alone)
    (he : exec i s = perform who i body s) (hr : s.refusal s.curCore s.curSlot who = none)
    (hb : Runs body s s.here s.now nx k y) (hn : nx ≠ .gone) (hk : k.pair = s.here.pair) (hc : y.course = s.now.course) :
    ∃ t, exec i s = .next t ∧ Local s t k (y.retired' (instrBytes i) nx) := by
  obtain ⟨u, hu, hl⟩ := hb s (Local.refl s)
  have hx : u.ctx s.curCore s.curSlot = y := hl.ctx
  have hpair : (u.core s.curCore).pair = s.here.pair := (Core.eq_of_bare Core.pair hl.core).trans hk
  refine ⟨_, he.trans (perform_ok h.unpaired h.lates hr hu hn ?_ ?_ ?_), ?_⟩
  · rw [hx, ← h.step1]
    exact Ctx.eq_of_course Ctx.step1 hc
  · rw [hx, ← h.after]
    exact Ctx.eq_of_course Ctx.after hc
  · simpa [Core.pairedWest, hpair, State.here] using h.unpaired
  · rw [hx]
    have := hl.setCtx (y.retired' (instrBytes i) nx)
    rwa [hl.curCore, hl.curSlot] at this

end Sys2Proof.Machine
end

section
/-! SUPPORT. `idle` (R348, R355): what each of its ends does. -/

namespace Sys2Proof.Machine

section
variable {s : State} {k : Core} {y : Ctx}

/-! ### The next item -/

theorem Core.firstRecord_congr {j k : Core} (h : ∀ n, n ≠ 0 → j.ctx n = k.ctx n) : j.firstRecord = k.firstRecord := by
  have heq : ∀ n, n ∈ (List.range 11).map (· + 1) → (j.ctx n).trap.isSome = (k.ctx n).trap.isSome := by
    intro n hn
    obtain ⟨m, -, rfl⟩ := List.mem_map.mp hn
    rw [h _ (Nat.succ_ne_zero m)]
  exact List.find?_congr heq

/-- Slot 0's own instruction has changed no record of the others. -/
theorem Local.firstRecord {t : State} (h0 : s.curSlot = 0) (h : Local s t k y) : (t.core s.curCore).firstRecord = s.here.firstRecord :=
  Core.firstRecord_congr fun n hn => h.slots n (h0 ▸ hn)

theorem Local.hasItem {t : State} (h0 : s.curSlot = 0) (h : Local s t s.here y) : (t.core s.curCore).hasItem = s.here.hasItem := by
  rw [Core.hasItem, h.firstRecord h0, Core.eq_of_bare Core.notices h.core, Core.hasItem]

theorem Core.hasItem_eq_false {k : Core} (h : k.firstRecord = none) (hn : k.notices = []) : k.hasItem = false := by
  simp [Core.hasItem, h, hn]

theorem Core.deliver_record {k : Core} {n : Nat} (h : k.firstRecord = some n) : k.deliver = { k with trapSlot := BitVec.ofNat 8 n } := by
  rw [Core.deliver, h]

theorem Core.deliver_notice {k : Core} {t : Notice} {rest : List Notice} (h : k.firstRecord = none) (hn : k.notices = t :: rest) :
    k.deliver = { k.dropNotice with delivered := some t, trapSlot := 0xFF } := by
  rw [Core.deliver, h, hn]

theorem Core.deliver_nothing {k : Core} (h : k.firstRecord = none) (hn : k.notices = []) : k.deliver = k := by
  rw [Core.deliver, h, hn]

theorem Core.deliver_ctxs (k : Core) : k.deliver.ctxs = k.ctxs := by
  unfold Core.deliver
  split
  · rfl
  · split <;> rfl

theorem Core.deliver_pair (k : Core) : k.deliver.pair = k.pair := by
  unfold Core.deliver
  split
  · rfl
  · split <;> rfl

/-- Delivery goes by the records and by the registers of the core. -/
theorem Core.deliver_bare {j k : Core} (hb : j.bare = k.bare) (hr : j.firstRecord = k.firstRecord) : j.deliver.bare = k.deliver.bare := by
  have hn := Core.eq_of_bare Core.notices hb
  cases h : k.firstRecord with
  | some n =>
    rw [Core.deliver_record h, Core.deliver_record (hr.trans h)]
    exact congrArg (fun b : Core => { b with trapSlot := BitVec.ofNat 8 n }) hb
  | none =>
    cases hk : k.notices with
    | nil => rwa [Core.deliver_nothing h hk, Core.deliver_nothing (hr.trans h) (hn.trans hk)]
    | cons t rest =>
      rw [Core.deliver_notice h hk, Core.deliver_notice (hr.trans h) (hn.trans hk)]
      exact congrArg (fun b : Core => { b.dropNotice with delivered := some t, trapSlot := 0xFF }) hb

/-! ### The effect of `idle` -/

/-- The issuing context when `idle` has made D zero and then read A (R9). -/
def Ctx.idled (x : Ctx) (d a : GReg) : Ctx := (x.gDone false d 0 0).tasted (decide (a ≠ d) && x.anyMarked [uG a])

theorem Ctx.idled_eq (x : Ctx) (d a : GReg) :
    ((x.writeG d.toNat 0).mark d.toNat false).tasted ([uG a].any ((x.writeG d.toNat 0).mark d.toNat false).marked) = x.idled d a := by
  have h := Ctx.gDone_noFlags x false d 0
  rw [Ctx.tasted_false] at h
  rw [h, Ctx.anyMarked_gDone]
  rfl

theorem Ctx.course_idled (x : Ctx) (d a : GReg) : (x.idled d a).course = x.course := Ctx.course_gDone x false d 0 0

theorem Ctx.idled_eaten {x : Ctx} (h : x.eaten = 0) (d a : GReg) :
    (x.idled d a).eaten = if decide (a ≠ d) && x.anyMarked [uG a] then 1 else 0 :=
  Ctx.tasted_eaten ((Ctx.gDone_eaten x d 0 0).trans h) _

theorem Ctx.idled_written (x : Ctx) (d a : GReg) : GWritten x (x.idled d a) d 0 false :=
  (Ctx.gDone_written x false d 0 0).of_regs rfl rfl rfl

/-- `idle` finds an item: it delivers it and continues at KVEC (R348). -/
theorem idleBody_item (h0 : s.curSlot = 0) (hi : s.here.hasItem = true) (d a : GReg) :
    Runs (idleBody d a) s s.here s.now (.jump (s.here.kvec.setWidth 72)) s.here.deliver (s.now.idled d a) := by
  unfold idleBody
  rw [← Ctx.idled_eq]
  refine .bind .getCtx (.get_bind fun t _ => .bind (.setG d 0 false) (.bind .getCtx (.bind (.consume _) (.getCore_bind fun u hu => ?_))))
  rw [hu.hasItem h0, if_pos hi, Core.eq_of_bare Core.kvec hu.core]
  exact .bind (.modCore (fun v hv => Core.deliver_bare hv.core (hv.firstRecord h0)) Core.deliver_ctxs) (.pure _)

/-- `idle` without an item finds a wake event that has come, and takes it (R355). -/
theorem idleBody_woken (h0 : s.curSlot = 0) (hi : s.here.hasItem = false) (hw : s.here.wakes ≠ 0) (d a : GReg) :
    Runs (idleBody d a) s s.here s.now .seq { s.here with wakes := 0 } ((s.now.idled d a).gDone false d 1 0) := by
  unfold idleBody
  rw [← Ctx.idled_eq, ← Ctx.gDone_noFlags, Ctx.tasted_false]
  refine .bind .getCtx (.get_bind fun t _ => .bind (.setG d 0 false) (.bind .getCtx (.bind (.consume _) (.getCore_bind fun u hu => ?_))))
  rw [hu.hasItem h0, if_neg (by simp [hi]), Core.eq_of_bare Core.wakes hu.core, if_pos hw]
  refine .bind (.modCore (fun v hv => ?_) fun _ => rfl) (.bind (.setG d 1 false) (.pure _))
  exact congrArg (fun b : Core => { b with wakes := 0 }) hv.core

/-- `idle` in its wait finds neither, and its latched timeout has passed (R355). -/
theorem idleBody_late (h0 : s.curSlot = 0) (hi : s.here.hasItem = false) (hw : s.here.wakes = 0) {v : Nat} {w : Waiting}
    (hs : s.now.stage = 1) {d a : GReg} (hl : s.now.latch = 1024 * v + 32 * a.toNat + d.toNat) (hwait : s.now.waiting = some w)
    (hv : v ≠ 0) (hlate : w.since + v ≤ s.cycle) :
    Runs (idleBody d a) s s.here s.now .seq s.here ((s.now.idled d a).gDone false d 2 0) := by
  have hlatch : s.now.latch / 1024 = v := by
    have := a.isLt
    have := d.isLt
    omega
  unfold idleBody
  rw [← Ctx.idled_eq, ← Ctx.gDone_noFlags, Ctx.tasted_false]
  refine .bind .getCtx (.get_bind fun t ht => .bind (.setG d 0 false) (.bind .getCtx (.bind (.consume _) (.getCore_bind fun u hu => ?_))))
  have hcycle : t.cycle = s.cycle := State.eq_of_bare State.cycle ht.bare
  rw [hu.hasItem h0, if_neg (by simp [hi]), Core.eq_of_bare Core.wakes hu.core, if_neg (by simp [hw])]
  simp only [hs, hwait, hlatch, hcycle, hv, hlate, ne_eq, not_false_eq_true, and_self, if_true, one_ne_zero, if_false]
  exact .bind (.setG d 2 false) (.pure _)

/-- An end of `idle`: what its effect does to the core and the context is what the instruction does. -/
theorem idle_completes (ha : s.Alone) (htext : s.now.text = none) (h0 : s.curSlot = 0) {d a : GReg} {nx : Next}
    (hb : Runs (idleBody d a) s s.here s.now nx k y) (hn : nx ≠ .gone) (hk : k.pair = s.here.pair) (hc : y.course = s.now.course) :
    ∃ u, exec (.idle d a) s = .next u ∧ Local s u k (y.retired' 8 nx) := by
  have hr : s.refusal s.curCore s.curSlot .supervisor = none := by
    simp only [State.now, h0] at htext
    simp [State.refusal, h0, htext]
  exact hb.completesAlone ha rfl hr hn hk hc

/-- `idle` that finds an item continues at KVEC, with D zero. -/
theorem idle_delivers (ha : s.Alone) (htext : s.now.text = none) (h0 : s.curSlot = 0) (hi : s.here.hasItem = true) (d a : GReg) :
    ∃ u, exec (.idle d a) s = .next u ∧ u.here.bare = s.here.deliver.bare ∧ GoesTo s.now u.now (s.here.kvec.setWidth 72) ∧
      GWritten s.now u.now d 0 false ∧ Counted s.now u.now (decide (a ≠ d) && s.now.anyMarked [uG a]) ∧ ∀ k, u.peek k = s.peek k := by
  have hcourse := Ctx.course_idled s.now d a
  obtain ⟨u, hu, hl⟩ := idle_completes ha htext h0 (idleBody_item h0 hi d a) (by simp) s.here.deliver_pair hcourse
  refine ⟨u, hu, hl.here, ?_, ?_, ?_, hl.peek⟩ <;> rw [hl.now]
  · exact Ctx.goesTo_of_course hcourse 8 _
  · exact (Ctx.idled_written s.now d a).retired 8 _
  · exact Ctx.counted_of_course hcourse (Ctx.idled_eaten ha.eaten d a) 8 _

/-- `idle` that ends without an item goes on behind itself, with its reason in D. -/
theorem idle_ends (ha : s.Alone) (htext : s.now.text = none) (h0 : s.curSlot = 0) {d a : GReg} {v : Word}
    (hb : Runs (idleBody d a) s s.here s.now .seq k ((s.now.idled d a).gDone false d v 0)) (hk : k.pair = s.here.pair) :
    ∃ u, exec (.idle d a) s = .next u ∧ Local s u k u.now ∧ GWritten s.now u.now d v false ∧
      Retires 8 (decide (a ≠ d) && s.now.anyMarked [uG a]) s u := by
  have hcourse := (Ctx.course_gDone (s.now.idled d a) false d v 0).trans (Ctx.course_idled s.now d a)
  have heaten := (Ctx.gDone_eaten (s.now.idled d a) d v 0).trans (Ctx.idled_eaten ha.eaten d a)
  obtain ⟨u, hu, hl⟩ := idle_completes ha htext h0 hb (by simp) hk hcourse
  refine ⟨u, hu, by rwa [hl.now], ?_, ?_, ?_⟩ <;> rw [hl.now]
  · exact ((Ctx.idled_written s.now d a).again false v 0).retired 8 _
  · exact Ctx.counted_of_course hcourse heaten 8 _
  · exact Ctx.goesOn_of_course hcourse 8

end

/-- Settles O12: an `idle` that begins and one that waits run the same effect, whose end the items and wakes of the core and the latched
timeout choose. -/
theorem idleResult : Obligations.IdleResult := by
  unfold Obligations.IdleResult
  intro s htext h0 d a p begins waits hstart
  have ha : s.Alone := by
    obtain hb | ⟨v, hw, -, -⟩ := hstart
    · exact State.alone_of_steady hb
    · exact State.alone_of_waiting h0 hw
  refine ⟨fun n hn => ?_, fun t rest hn ht => ?_, fun hn ht hw => ?_, fun w v hn ht hw hwaits hwait hv hlate => ?_⟩
  · obtain ⟨u, hu, hcore, hgo, hd, hc, hpeek⟩ := idle_delivers ha htext h0 (by simp [Core.hasItem, hn]) d a
    rw [Core.deliver_record hn] at hcore
    have hslot := Core.eq_of_bare Core.trapSlot hcore
    have hnotices := Core.eq_of_bare Core.notices hcore
    exact ⟨u, hu, hgo, hslot, hd, hc, hnotices, hpeek⟩
  · obtain ⟨u, hu, hcore, hgo, hd, hc, hpeek⟩ := idle_delivers ha htext h0 (by simp [Core.hasItem, ht]) d a
    rw [Core.deliver_notice hn ht] at hcore
    have hslot := Core.eq_of_bare Core.trapSlot hcore
    have hdelivered := Core.eq_of_bare Core.delivered hcore
    exact ⟨u, hu, hgo, hslot, hdelivered, hd, hc, hpeek⟩
  · obtain ⟨u, hu, hl, hd, hr⟩ := idle_ends ha htext h0 (idleBody_woken h0 (Core.hasItem_eq_false hn ht) hw d a) rfl
    have hwakes := Core.eq_of_bare Core.wakes hl.here
    exact ⟨u, hu, hwakes, hd, hr, hl.peek⟩
  · obtain ⟨-, hstage, hlatch⟩ := hwaits
    obtain ⟨u, hu, hl, hd, hr⟩ :=
      idle_ends ha htext h0 (idleBody_late h0 (Core.hasItem_eq_false hn ht) hw hstage hlatch hwait hv hlate) rfl
    exact ⟨u, hu, hl.onlyHere rfl, hd, hr⟩

end Sys2Proof.Machine
end

section
/-! SUPPORT. Fields of register words. -/

namespace Sys2Proof.Machine

/-! ### Bits of fields -/

theorem testBit_bits {w : Nat} (x : BitVec w) (hi lo i : Nat) :
    (bits x hi lo).testBit i = (decide (i < hi - lo + 1) && x.getLsbD (lo + i)) := by
  rw [bits, Nat.testBit_mod_two_pow, Nat.testBit_div_two_pow, ← BitVec.testBit_toNat, Nat.add_comm lo i]

/-- A field at the low end of a word: the bits of the value in it, and those of the word above it. -/
theorem getLsbD_putBits_below {w : Nat} (x : BitVec w) (hi v i : Nat) (h : i < w) :
    (putBits x hi 0 v).getLsbD i = if i < hi + 1 then v.testBit i else x.getLsbD i := by
  have hx := Nat.div_add_mod x.toNat (2 ^ (hi + 1))
  have hn : x.toNat - bits x hi 0 * 2 ^ 0 + v % 2 ^ (hi - 0 + 1) * 2 ^ 0 = 2 ^ (hi + 1) * (x.toNat / 2 ^ (hi + 1)) + v % 2 ^ (hi + 1) := by
    simp only [bits, Nat.pow_zero, Nat.div_one, Nat.mul_one, Nat.sub_zero]
    omega
  rw [putBits, hn, BitVec.getLsbD_ofNat, Nat.testBit_two_pow_mul_add _ (Nat.mod_lt _ (Nat.two_pow_pos _)), Nat.testBit_mod_two_pow,
    Nat.testBit_div_two_pow, BitVec.testBit_toNat]
  by_cases hi' : i < hi + 1
  · simp [h, hi']
  · rw [if_neg hi', if_neg hi', Nat.sub_add_cancel (Nat.le_of_not_lt hi')]
    simp [h]

/-- Words agree on their upper bits. -/
theorem and_upper_eq {x v : Word} (n : Nat) (h : ∀ i, n ≤ i → i < 64 → x.getLsbD i = v.getLsbD i) :
    x &&& (BitVec.allOnes 64 <<< n) = v &&& (BitVec.allOnes 64 <<< n) := by
  refine BitVec.eq_of_getLsbD_eq fun i hi => ?_
  by_cases hn : n ≤ i
  · simp [h i hn hi]
  · simp [Nat.lt_of_not_le hn]

/-- Words agree on their lower bits. -/
theorem and_lower_eq {x v : Word} {n : Nat} (h : x.toNat % 2 ^ n = v.toNat % 2 ^ n) (hn : n ≤ 64) :
    x &&& BitVec.ofNat 64 (2 ^ n - 1) = v &&& BitVec.ofNat 64 (2 ^ n - 1) := by
  apply BitVec.eq_of_toNat_eq
  have hlt : 2 ^ n - 1 < 2 ^ 64 := Nat.lt_of_lt_of_le (Nat.sub_lt (Nat.two_pow_pos n) Nat.one_pos) (Nat.pow_le_pow_right (by decide) hn)
  rw [BitVec.toNat_and, BitVec.toNat_and, BitVec.toNat_ofNat, Nat.mod_eq_of_lt hlt, Nat.and_two_pow_sub_one_eq_mod,
    Nat.and_two_pow_sub_one_eq_mod, h]

/-- VEC is all of KVEC but its low byte (R348). -/
theorem kvec_written (v : Word) : putBits v 7 0 0 &&& 0xFFFFFFFFFFFFFF00 = v &&& 0xFFFFFFFFFFFFFF00 :=
  and_upper_eq 8 fun i h8 h64 => by rw [getLsbD_putBits_below v 7 0 i h64, if_neg (by omega)]

/-- RETAIN is bit 0 of LEASE (R131). -/
theorem lease_written (held : Nat) (v : Word) : packed [(held, 4), (boolNat (bit v 0), 0)] &&& 1 = v &&& 1 := by
  refine and_lower_eq (n := 1) ?_ (by decide)
  have hb : boolNat (bit v 0) = v.toNat % 2 := by
    rw [bit, ← BitVec.testBit_toNat, Nat.testBit_zero, boolNat]
    split <;> simp_all
  simp only [packed, List.foldl, hb, BitVec.toNat_ofNat]
  omega

/-- The slot is the low byte of TRAPCTX (R350). -/
theorem trapctx_written (pending : Bool) (gen : Nat) (v : Word) :
    packed [(boolNat pending, 20), (gen, 8), ((v.setWidth 8).toNat, 0)] &&& 0xFF = v &&& 0xFF := by
  refine and_lower_eq (n := 8) ?_ (by decide)
  simp only [packed, List.foldl, BitVec.toNat_ofNat, BitVec.toNat_setWidth]
  omega

/-- Writing 1 clears a flag (R190). -/
theorem fpstat_written (x v : Word) : putBits x 5 0 (bits x 5 0 &&& (63 - bits v 5 0)) &&& 0x3F = (x &&& ~~~v) &&& 0x3F := by
  refine and_lower_eq (n := 6) (Nat.eq_of_testBit_eq fun i => ?_) (by decide)
  rw [Nat.testBit_mod_two_pow, Nat.testBit_mod_two_pow, BitVec.testBit_toNat, BitVec.testBit_toNat]
  by_cases hi : i < 6
  · have hv : bits v 5 0 < 2 ^ 6 := Nat.mod_lt _ (by decide)
    have h63 : 63 - bits v 5 0 = 2 ^ 6 - (bits v 5 0 + 1) := by omega
    rw [getLsbD_putBits_below x 5 _ i (by omega), if_pos hi, Nat.testBit_and, h63, Nat.testBit_two_pow_sub_succ hv, testBit_bits, testBit_bits]
    simp [hi, show i < 64 by omega]
  · simp [hi]

/-- The upper half of FPCTL takes the value (R177). -/
theorem fpctl_written_upper (old v : Word) : fpctlWrite old v &&& 0xFFFFFFFF00000000 = v &&& 0xFFFFFFFF00000000 := by
  refine and_upper_eq 32 fun i h32 h64 => ?_
  have hlow : (if 6 ≤ bits v 2 0 then bits old 2 0 else bits v 2 0) < 2 ^ 32 := by
    unfold bits
    split <;> omega
  have hn (a b : Nat) : 0 + a * 2 ^ 32 + b * 2 ^ 0 = 2 ^ 32 * a + b := by omega
  simp only [fpctlWrite, packed, List.foldl]
  rw [hn, BitVec.getLsbD_ofNat, Nat.testBit_two_pow_mul_add _ hlow, if_neg (by omega), testBit_bits,
    Nat.add_sub_cancel' h32]
  simp [h64, show i - 32 < 32 by omega]

/-- RM takes the value, but keeps its own for 6 and 7 (R177). -/
theorem fpctl_written_rm (old v : Word) : fpctlWrite old v &&& 7 = (if 6 ≤ v.toNat % 8 then old else v) &&& 7 := by
  refine and_lower_eq (n := 3) ?_ (by decide)
  have hv : bits v 2 0 = v.toNat % 8 := by simp [bits]
  have ho : bits old 2 0 = old.toNat % 8 := by simp [bits]
  simp only [fpctlWrite, packed, List.foldl, hv, ho, BitVec.toNat_ofNat]
  split <;> omega

/-- A word without its flags clears none of them. -/
theorem flags_kept (old x keep : Word) : (old &&& ~~~(x &&& ~~~keep)) &&& keep = old &&& keep := by
  ext i
  simp only [BitVec.getElem_and, BitVec.getElem_not]
  cases keep[i] <;> simp

end Sys2Proof.Machine
end

section
/-! SUPPORT. System registers (R356): reading, writing, and reading what was written. -/

namespace Sys2Proof.Machine

section
variable {s : State} {k : Core} {y : Ctx}

/-! ### The registers whose write has no effect beyond the register -/

/-- Registers without a writable field, which a write leaves as they are (R6). -/
def Reg.readOnly : Reg → Bool
  | .coreid | .clpos | .fieldpos | .jobid | .codebase | .ctxid | .wheld | .cycle => true
  | _ => false

/-- Registers whose write changes at most the issuing context's float registers or one register of the core. -/
def Reg.quiet (r : Reg) : Bool := (plainMask r).isSome || r.readOnly || r = .fpstat || r = .fpctl || r = .trapctx

theorem Reg.quiet_of_plain {r : Reg} {m : Word} (h : plainMask r = some m) : r.quiet = true := by simp [Reg.quiet, h]

/-- No bit of a plain register is cleared by writing 1. -/
theorem Reg.w1c_of_plain {r : Reg} {m : Word} (h : plainMask r = some m) : r.w1c = 0 := by
  cases r
  case kvec | wbase | wmask | wval | lease => rfl
  all_goals cases h

theorem State.writeReg_readOnly {r : Reg} (h : r.readOnly = true) (u : State) (c n : Nat) (v : Word) : u.writeReg c n r v = u := by
  cases r
  case coreid | clpos | fieldpos | jobid | codebase | ctxid | wheld | cycle => rfl
  all_goals cases h

/-- What the write of a quiet register can do. -/
theorem State.writeReg_quiet {r : Reg} (h : r.quiet = true) (u : State) (c n : Nat) (v : Word) :
    (∃ j, u.writeReg c n r v = u.setCore c j ∧ j.ctxs = (u.core c).ctxs ∧ j.pair = (u.core c).pair) ∨
      (∃ ctl stat, u.writeReg c n r v = u.setCtx c n { u.ctx c n with fpctl := ctl, fpstat := stat }) ∨ u.writeReg c n r v = u := by
  cases r
  case kvec | wbase | wmask | wval | lease | trapctx => exact .inl ⟨_, rfl, rfl, rfl⟩
  case fpctl | fpstat => exact .inr (.inl ⟨_, _, rfl⟩)
  case coreid | clpos | fieldpos | jobid | codebase | ctxid | wheld | cycle => exact .inr (.inr rfl)
  all_goals cases h

/-! ### What a quiet register reads as -/

theorem Ctx.gDone_fpctl (x : Ctx) (d : GReg) (v : Word) : (x.gDone false d v 0).fpctl = x.fpctl :=
  Ctx.writeG_fpctl (x.tasted false) d.toNat v

theorem Ctx.gDone_fpstat (x : Ctx) (d : GReg) (v : Word) : (x.gDone false d v 0).fpstat = x.fpstat := by
  simp [Ctx.gDone]

theorem Core.trap_setCtx {k : Core} {n : Nat} {z : Ctx} (hz : z.trap = (k.ctx n).trap) (m : Nat) : ((k.setCtx n z).ctx m).trap = (k.ctx m).trap := by
  rw [Core.ctx_setCtx]
  split
  · rw [hz, ‹m = n›]
  · rfl

/-- TRAPCTX sees of a context only its record. -/
theorem State.trapctx_setCtx {u : State} {c n : Nat} {z : Ctx} (hz : z.trap = (u.ctx c n).trap) :
    (u.setCtx c n z).readReg c n .trapctx = u.readReg c n .trapctx := by
  have htrap := Core.trap_setCtx hz
  simp only [State.readReg, State.core_setCtx, if_true, Core.othersPending, Core.selected, Core.setCtx_trapSlot, Core.setCtx_notices,
    Core.setCtx_delivered, htrap]

/-- Completion of an instruction is not seen in a quiet register. -/
theorem State.readReg_retired {r : Reg} (h : r.quiet = true) (u : State) (c n bytes : Nat) (nx : Next) :
    (u.setCtx c n ((u.ctx c n).retired' bytes nx)).readReg c n r = u.readReg c n r := by
  rw [Ctx.retired'_eq]
  cases r
  case kvec | wbase | wmask | wval | lease | coreid | clpos =>
    simp only [State.readReg, State.core_setCtx, if_true, Core.setCtx_kvec, Core.setCtx_watches, Core.setCtx_held, Core.setCtx_retain,
      Core.setCtx_lid]
  case fieldpos | jobid | codebase | cycle =>
    simp only [State.readReg, State.jobOf, State.fieldOf, State.setCtx_fields, State.setCtx_cycle]
  case ctxid | wheld | fpctl | fpstat =>
    simp only [State.readReg, State.core_setCtx, if_true, Core.ctx_setCtx, State.ctx]
  case trapctx => exact State.trapctx_setCtx rfl
  all_goals cases h

/-- Registers that read as they did before an effect that has kept what they show. -/
theorem Local.readReg {t : State} (h : Local s t s.here y) (hc : y.course = s.now.course) (hctl : y.fpctl = s.now.fpctl)
    (hstat : y.fpstat = s.now.fpstat) {r : Reg} (hr : r.readOnly = true ∨ r = .fpctl ∨ r = .fpstat) :
    t.readReg s.curCore s.curSlot r = s.readReg s.curCore s.curSlot r := by
  have hgen : y.gen = s.now.gen := Ctx.eq_of_course Ctx.gen hc
  have hwheld : y.wheld = s.now.wheld := Ctx.eq_of_course Ctx.wheld hc
  have hlid : (t.core s.curCore).lid = (s.core s.curCore).lid := Core.eq_of_bare Core.lid h.core
  have hfield : t.fieldOf s.curCore = s.fieldOf s.curCore := State.eq_of_bare (State.fieldOf · s.curCore) h.bare
  have hjob : t.jobOf s.curCore = s.jobOf s.curCore := State.eq_of_bare (State.jobOf · s.curCore) h.bare
  have hcycle : t.cycle = s.cycle := State.eq_of_bare State.cycle h.bare
  cases r
  case ctxid | wheld | fpctl | fpstat => simp only [State.readReg, h.ctx, hgen, hwheld, hctl, hstat, State.now, State.ctx]
  case coreid | clpos | cycle => simp only [State.readReg, hlid, hcycle]
  case fieldpos | jobid => simp only [State.readReg, hfield]
  case codebase => simp only [State.readReg, hjob]
  all_goals simp [Reg.readOnly] at hr

/-! ### What a register reads as after its write -/

theorem State.readReg_writeReg_plain {r : Reg} {m : Word} (h : plainMask r = some m) (u : State) (c n : Nat) (v : Word) :
    (u.writeReg c n r v).readReg c n r &&& m = v &&& m := by
  cases r
  case kvec =>
    cases h
    simp only [State.writeReg, State.writeKvec, State.readReg, State.core_setCore, if_true]
    exact kvec_written v
  case lease =>
    cases h
    simp only [State.writeReg, State.readReg, State.core_setCore, if_true]
    exact lease_written _ v
  case wbase | wmask | wval => simp only [State.writeReg, State.setWatch, State.readReg, State.core_setCore, if_true, Assoc.get_set]
  all_goals cases h

theorem State.readReg_writeReg_fpstat (u : State) (c n : Nat) (v : Word) :
    (u.writeReg c n .fpstat v).readReg c n .fpstat &&& 0x3F = (u.readReg c n .fpstat &&& ~~~v) &&& 0x3F := by
  simp only [State.writeReg, State.readReg, State.core_setCtx, if_true, Core.ctx_setCtx]
  exact fpstat_written _ v

theorem State.readReg_writeReg_fpctl (u : State) (c n : Nat) (v : Word) :
    (u.writeReg c n .fpctl v).readReg c n .fpctl = fpctlWrite (u.readReg c n .fpctl) v := by
  simp only [State.writeReg, State.readReg, State.core_setCtx, if_true, Core.ctx_setCtx]

theorem State.readReg_writeReg_trapctx (u : State) (c n : Nat) (v : Word) :
    (u.writeReg c n .trapctx v).readReg c n .trapctx &&& 0xFF = v &&& 0xFF := by
  simp only [State.writeReg, State.readReg, State.core_setCore, if_true]
  exact trapctx_written _ _ v

/-! ### The effects of `sysr`, `rdcyc`, `sysw`, `sysset` and `sysclr` -/

theorem exec_rdcyc (d : GReg) (s : State) :
    exec (.rdcyc d) s = perform .noText (.rdcyc d) (do
      let t ← get
      passLoad (bytesOfBits 8 t.cycle)
      setG d (BitVec.ofNat 64 t.cycle) false
      pure .seq) s := rfl

/-- Only the effect in the state at hand matters to an instruction of a context that is not paired. -/
theorem perform_congr {who : Who} {i : Instr} {m m' : M Next} (ha : s.Alone) (h : m s = m' s) : perform who i m s = perform who i m' s := by
  unfold perform
  simp only [State.pairBegin_unpaired ha.unpaired, h]

/-- Outside a pair no value is passed to an east core (R198). -/
theorem passLoad_unpaired (ha : s.Alone) (bs : List Byte) : passLoad bs s = .ok ((), s) := by
  simp [passLoad, ha.unpaired]

theorem refusal_noText (h : s.now.text = none) : s.refusal s.curCore s.curSlot .noText = none := by
  simp only [State.now] at h
  simp [State.refusal, h]

theorem sysReg_named {num : BitVec 12} {r : Reg} (h : regOf num.toNat = some r) (hm : mayReach s r) (i : Instr) :
    sysReg num i s = .ok (r, s) := by
  obtain ⟨-, hslot⟩ := hm
  by_cases hr : r.supervisor = true <;> simp [sysReg, h, hr, hslot]

theorem sysReg_unnamed {num : BitVec 12} (h : regOf num.toNat = none) (i : Instr) :
    sysReg num i s = .error (.trap .illegalInstruction (instrLow i)) := by
  simp [sysReg, h]

theorem sysReg_privileged {num : BitVec 12} {r : Reg} (h : regOf num.toNat = some r) (hr : r.supervisor = true) (hs : s.curSlot ≠ 0) (i : Instr) :
    sysReg num i s = .error (.trap .privilege (instrLow i)) := by
  simp [sysReg, h, hr, hs]

/-- An instruction whose effect comes to a write of one g register. -/
theorem writesG_of_const {i : Instr} {m : M Next} {d : GReg} {v : Word} (h : s.steady = true) (he : exec i s = perform .noText i m s)
    (hl : instrBytes i = 8) (ht : s.now.text = none) (hm : m s = (do setG d v false; pure Next.seq) s) : WritesG i 8 d v false 0 s :=
  Runs.writesG h (he.trans (perform_congr (State.alone_of_steady h) hm)) (refusal_noText ht) hl (constG_runs d v)

/-- An instruction that traps on the number of its register. -/
theorem traps_of_body {i : Instr} {m : M Next} {cause : Cause} {v : Word} (ha : s.Alone) (he : exec i s = perform .noText i m s)
    (hl : instrBytes i = 8) (ht : s.now.text = none) (hm : m s = .error (.trap cause v)) : Traps i 8 cause v s := by
  rw [Traps, he, perform_trap ha.unpaired ha.lates (refusal_noText ht) hm, hl]
  rfl

/-- Instruction `i` retires and has written `v` to register `r`, where the issuing context had become `y` before. -/
def SetsReg (i : Instr) (r : Reg) (v : Word) (p : Bool) (y : Ctx) (s : State) : Prop :=
  ∃ t u, exec i s = .next t ∧ Local s u s.here y ∧ (∀ k, t.peek k = s.peek k) ∧ Retires 8 p s t ∧
    t.readReg s.curCore s.curSlot r = (u.writeReg s.curCore s.curSlot r v).readReg s.curCore s.curSlot r ∧
    t.now.g = y.g ∧ t.now.p = y.p ∧ t.now.marks = y.marks

/-- The write of a quiet register keeps to the issuing context and its core, and to the context's float registers. -/
theorem Local.writeReg {u : State} (h : Local s u s.here y) {r : Reg} (hr : r.quiet = true) (v : Word) :
    ∃ k ctl stat, k.pair = s.here.pair ∧ Local s (u.writeReg s.curCore s.curSlot r v) k { y with fpctl := ctl, fpstat := stat } := by
  obtain ⟨j, hj, hx, hp⟩ | ⟨ctl, stat, hc⟩ | hu := State.writeReg_quiet hr u s.curCore s.curSlot v
  · exact ⟨j, y.fpctl, y.fpstat, hp.trans (Core.eq_of_bare Core.pair h.core), hj ▸ h.setCore rfl hx⟩
  · have hset := h.setCtx { y with fpctl := ctl, fpstat := stat }
    rw [h.curCore, h.curSlot] at hset
    refine ⟨s.here, ctl, stat, rfl, ?_⟩
    rw [hc, State.ctx, h.ctx]
    exact hset
  · exact ⟨s.here, y.fpctl, y.fpstat, rfl, hu.symm ▸ h⟩

/-- An effect that ends with the write of a quiet register. -/
theorem setsReg_of_body {i : Instr} {m : M Next} {r : Reg} {v : Word} {p : Bool} {u : State} (ha : s.Alone) (ht : s.now.text = none)
    (he : exec i s = perform .noText i m s) (hl : instrBytes i = 8) (hr : r.quiet = true) (hu : Local s u s.here y)
    (hm : m s = .ok (.seq, u.writeReg s.curCore s.curSlot r v)) (hc : y.course = s.now.course) (hp : y.eaten = if p then 1 else 0) :
    SetsReg i r v p y s := by
  obtain ⟨k, ctl, stat, hk, hw⟩ := hu.writeReg hr v
  have hx : (u.writeReg s.curCore s.curSlot r v).ctx s.curCore s.curSlot = _ := hw.ctx
  have hpair := (Core.eq_of_bare Core.pair hw.core).trans hk
  have hz : ({ y with fpctl := ctl, fpstat := stat } : Ctx).course = s.now.course := hc
  have hend := hw.setCtx (({ y with fpctl := ctl, fpstat := stat } : Ctx).retired' 8 .seq)
  rw [hw.curCore, hw.curSlot] at hend
  refine ⟨_, u, he.trans (perform_ok ha.unpaired ha.lates (refusal_noText ht) hm (by simp) ?_ ?_ ?_), hu, ?_, ⟨?_, ?_⟩, ?_, ?_⟩
  · rw [hx, ← ha.step1]
    exact Ctx.eq_of_course Ctx.step1 hz
  · rw [hx, ← ha.after]
    exact Ctx.eq_of_course Ctx.after hz
  · simpa [Core.pairedWest, hpair, State.here] using ha.unpaired
  all_goals rw [hl]
  · rw [hx]
    exact hend.peek
  · rw [hx, hend.now]
    exact Ctx.counted_of_course hz hp 8 _
  · rw [hx, hend.now]
    exact Ctx.goesOn_of_course hz 8
  · exact State.readReg_retired hr _ _ _ _ _
  · rw [hx, hend.now, Ctx.retired'_eq]
    exact ⟨rfl, rfl, rfl⟩

/-- `sysw` writes Reg(A). -/
theorem sysw_setsReg (ha : s.Alone) {num : BitVec 12} {r : Reg} (hreg : regOf num.toNat = some r) (hm : mayReach s r) (hr : r.quiet = true)
    (a : GReg) :
    SetsReg (.sysw num a) r (s.now.readG a.toNat) (s.now.anyMarked [uG a]) (s.now.tasted (s.now.anyMarked [uG a])) s := by
  obtain ⟨u, hu, hl⟩ := Runs.consume [uG a] s (Local.refl s)
  refine setsReg_of_body ha hm.1 rfl rfl hr hl ?_ (Ctx.course_tasted _ _) (Ctx.tasted_eaten ha.eaten _)
  simp only [M.bind_apply, sysReg_named hreg hm, M.andThen_ok, me_apply, regG_apply, hu, M.modify_apply, M.pure_apply]
  rfl

/-- What `sysset` and `sysclr` read of A: D has taken the register's old value before (R9). -/
def sysSource (s : State) (r : Reg) (d a : GReg) : Word :=
  if a = d ∧ d ≠ 0 then s.readReg s.curCore s.curSlot r else s.now.readG a.toNat

/-- `sysset` and `sysclr` write the old value to D, then the new value without its W1C bits to the register (R354, R356). -/
theorem sysModify_setsReg {i : Instr} {f : Word → Word → Word} {num : BitVec 12} {r : Reg} {d a : GReg} (ha : s.Alone)
    (he : exec i s = perform .noText i (sysModify f d num a i) s) (hlen : instrBytes i = 8) (hreg : regOf num.toNat = some r)
    (hm : mayReach s r) (hr : r.quiet = true) :
    let old := s.readReg s.curCore s.curSlot r
    let q := decide (a ≠ d) && s.now.anyMarked [uG a]
    SetsReg i r (f old (sysSource s r d a) &&& ~~~BitVec.ofNat 64 r.w1c) q ((s.now.gDone false d old 0).tasted q) s := by
  intro old q
  obtain ⟨t, ht, hlt⟩ := Runs.setG d old false s (Local.refl s)
  have hg : (s.now.writeG d.toNat old).mark d.toNat false = s.now.gDone false d old 0 := Ctx.gDone_noFlags s.now false d old
  rw [hg] at hlt
  obtain ⟨u, hu, hlu⟩ := Runs.consume [uG a] t hlt
  rw [Ctx.anyMarked_gDone] at hu hlu
  have hsource : (s.now.gDone false d old 0).readG a.toNat = sysSource s r d a := (Ctx.gDone_written s.now false d old 0).1 a
  have hnow : t.ctx t.curCore t.curSlot = s.now.gDone false d old 0 := hlt.now
  refine setsReg_of_body ha hm.1 he hlen hr hlu ?_ (Ctx.course_gDone s.now false d old 0)
    (Ctx.tasted_eaten ((Ctx.gDone_eaten s.now d old 0).trans ha.eaten) q)
  simp only [sysModify, M.bind_apply, sysReg_named hreg hm, M.andThen_ok, me_apply, M.get_apply]
  rw [ht]
  simp only [M.bind_apply, M.andThen_ok, regG_apply, hnow, hsource, hu, M.modify_apply, M.pure_apply]
  rfl

theorem sysset_setsReg (ha : s.Alone) {num : BitVec 12} {r : Reg} (hreg : regOf num.toNat = some r) (hm : mayReach s r) (hr : r.quiet = true)
    (d a : GReg) :
    let old := s.readReg s.curCore s.curSlot r
    let q := decide (a ≠ d) && s.now.anyMarked [uG a]
    SetsReg (.sysset d num a) r ((old ||| sysSource s r d a) &&& ~~~BitVec.ofNat 64 r.w1c) q ((s.now.gDone false d old 0).tasted q) s :=
  sysModify_setsReg (f := fun old v => old ||| v) ha rfl rfl hreg hm hr

theorem sysclr_setsReg (ha : s.Alone) {num : BitVec 12} {r : Reg} (hreg : regOf num.toNat = some r) (hm : mayReach s r) (hr : r.quiet = true)
    (d a : GReg) :
    let old := s.readReg s.curCore s.curSlot r
    let q := decide (a ≠ d) && s.now.anyMarked [uG a]
    SetsReg (.sysclr d num a) r ((old &&& ~~~sysSource s r d a) &&& ~~~BitVec.ofNat 64 r.w1c) q ((s.now.gDone false d old 0).tasted q) s :=
  sysModify_setsReg (f := fun old v => old &&& ~~~v) ha rfl rfl hreg hm hr

/-- What the register then reads as, in the bits of `keep`. -/
theorem SetsReg.reads {i : Instr} {r : Reg} {v new keep : Word} {p : Bool} (h : SetsReg i r v p y s)
    (hv : ∀ u, Local s u s.here y →
      (u.writeReg s.curCore s.curSlot r v).readReg s.curCore s.curSlot r &&& keep = new &&& keep) :
    ∃ t, exec i s = .next t ∧ t.readReg s.curCore s.curSlot r &&& keep = new &&& keep ∧ Retires 8 p s t ∧ ∀ k, t.peek k = s.peek k := by
  obtain ⟨t, u, ht, hu, hpeek, hret, hread, -⟩ := h
  exact ⟨t, ht, by rw [hread, hv u hu], hret, hpeek⟩

/-- A register all of whose masked bits take the value. -/
theorem SetsReg.reads_plain {i : Instr} {r : Reg} {v m : Word} {p : Bool} (h : SetsReg i r v p y s) (hm : plainMask r = some m) :
    ∃ t, exec i s = .next t ∧ t.readReg s.curCore s.curSlot r &&& m = v &&& m ∧ Retires 8 p s t ∧ ∀ k, t.peek k = s.peek k :=
  h.reads fun u _ => State.readReg_writeReg_plain hm u _ _ v

/-- Without W1C bits every bit of the new value is written. -/
theorem keeps_all_of_plain {r : Reg} {m : Word} (h : plainMask r = some m) (x : Word) : x &&& ~~~BitVec.ofNat 64 r.w1c = x := by
  rw [Reg.w1c_of_plain h]
  exact BitVec.and_allOnes

/-- D holds the old value, without a mark. -/
theorem SetsReg.old_written {i : Instr} {r : Reg} {v old : Word} {d : GReg} {p q : Bool}
    (h : SetsReg i r v p ((s.now.gDone false d old 0).tasted q) s) : ∃ t, exec i s = .next t ∧ GWritten s.now t.now d old false := by
  obtain ⟨t, -, ht, -, -, -, -, hg, hp, hm⟩ := h
  exact ⟨t, ht, (Ctx.gDone_written s.now false d old 0).of_regs hg hp hm⟩

end

/-! ### The three parts of the statement -/

theorem sysRead_holds : sysRead := by
  intro s hs d num
  have ha := State.alone_of_steady hs
  refine ⟨fun r hreg hm => ?_, fun ht => ?_, fun hreg ht => ?_, fun r hreg hsup hslot ht => ⟨?_, fun a => ?_⟩⟩
  · refine writesG_of_const hs rfl rfl hm.1 ?_
    simp only [M.bind_apply, sysReg_named hreg hm, M.andThen_ok, me_apply, M.get_apply, passLoad_unpaired ha]
  · refine writesG_of_const hs (exec_rdcyc d s) rfl ht ?_
    simp only [M.bind_apply, M.andThen_ok, M.get_apply, passLoad_unpaired ha]
  · refine traps_of_body ha rfl rfl ht ?_
    simp only [M.bind_apply, sysReg_unnamed hreg, M.andThen_error]
  · refine traps_of_body ha rfl rfl ht ?_
    simp only [M.bind_apply, sysReg_privileged hreg hsup hslot, M.andThen_error]
  · refine traps_of_body ha rfl rfl ht ?_
    simp only [M.bind_apply, sysReg_privileged hreg hsup hslot, M.andThen_error]

theorem sysWrite_holds : sysWrite := by
  intro s hs d a num r hreg hm v old p from_ wrote q
  have ha := State.alone_of_steady hs
  have hsysw (hr : r.quiet = true) := sysw_setsReg ha hreg hm hr a
  have hset (hr : r.quiet = true) := sysset_setsReg ha hreg hm hr d a
  have hclr (hr : r.quiet = true) := sysclr_setsReg ha hreg hm hr d a
  refine ⟨fun m hp => ?_, ?_, ?_, ?_, fun hro => ?_⟩
  · have hr := Reg.quiet_of_plain hp
    simp only [keeps_all_of_plain hp] at hset hclr
    exact ⟨(hsysw hr).reads_plain hp, (hset hr).reads_plain hp, (hclr hr).reads_plain hp⟩
  · rintro rfl
    refine ⟨(hsysw rfl).reads fun u hu => ?_, (hset rfl).reads fun u hu => ?_⟩
    · rw [State.readReg_writeReg_fpstat, hu.readReg (Ctx.course_tasted _ _) rfl rfl (.inr (.inr rfl))]
    · rw [State.readReg_writeReg_fpstat, hu.readReg (Ctx.course_gDone s.now false d old 0) (Ctx.gDone_fpctl s.now d old)
        (Ctx.gDone_fpstat s.now d old) (.inr (.inr rfl))]
      exact flags_kept old _ 0x3F
  · rintro rfl
    refine ⟨(hsysw rfl).reads fun u hu => ?_, (hsysw rfl).reads fun u hu => ?_⟩
    · rw [State.readReg_writeReg_fpctl]
      exact fpctl_written_upper _ v
    · rw [State.readReg_writeReg_fpctl, hu.readReg (Ctx.course_tasted _ _) rfl rfl (.inr (.inl rfl))]
      exact fpctl_written_rm old v
  · rintro rfl
    exact (hsysw rfl).reads fun u _ => State.readReg_writeReg_trapctx u _ _ v
  · have hread : r.readOnly = true := by
      obtain rfl | rfl | rfl | rfl | rfl | rfl | rfl | rfl := hro <;> rfl
    refine (hsysw (by simp [Reg.quiet, hread])).reads fun u hu => ?_
    rw [State.writeReg_readOnly hread, hu.readReg (Ctx.course_tasted _ _) rfl rfl (.inl hread)]

theorem sysModifyOld_holds : sysModifyOld := by
  intro s hs d a num r hreg hm hp
  have ha := State.alone_of_steady hs
  obtain ⟨m, hp⟩ := Option.isSome_iff_exists.mp hp
  have hr := Reg.quiet_of_plain hp
  obtain ⟨t, ht, hold⟩ := (sysset_setsReg ha hreg hm hr d a).old_written
  obtain ⟨u, hu, hold'⟩ := (sysclr_setsReg ha hreg hm hr d a).old_written
  exact ⟨t, u, ht, hu, hold, hold'⟩

/-- Settles O13: a read comes to a write of D, and the write of each register of the statement is seen through what the register reads
as on the state that the effect has written it in. -/
theorem systemRegisters : Obligations.SystemRegisters := ⟨sysRead_holds, sysWrite_holds, sysModifyOld_holds⟩

end Sys2Proof.Machine
end

section
/-! SUPPORT. Which checks of R213 an instruction is performed behind. -/

namespace Sys2Proof.Machine

/-- Instruction `i` is performed behind the checks of `who`. -/
def PerformedAs (who : Who) (i : Instr) : Prop := ∀ s, ∃ body, exec i s = perform who i body s

theorem performedAs_supervisor {i : Instr} (h : supervisorOnly i = true) : PerformedAs .supervisor i := by
  intro s
  unfold supervisorOnly at h
  split at h
  case h_7 d => exact ⟨_, (rfl : _ = execPair d s).trans (execPair.eq_1 ..)⟩
  case h_12 => cases h
  all_goals exact ⟨_, rfl⟩

theorem performedAs_matrix {i : Instr} (h : matrixOnly i = true) : PerformedAs .matrix i := by
  intro s
  cases i
  case mbegin | mma | mzero | mst | mld | mldt | manch | mwait => exact ⟨_, rfl⟩
  case mend => exact ⟨_, (rfl : _ = execMend s).trans (execMend.eq_1 ..)⟩
  all_goals cases h

theorem performedAs_vector {i : Instr} (h : controlOnly i = true) : PerformedAs .vector i := by
  intro s
  unfold controlOnly at h
  split at h
  case h_2 d => exact ⟨_, (rfl : _ = execAclose d s).trans (execAclose.eq_1 ..)⟩
  case h_68 => cases h
  all_goals exact ⟨_, rfl⟩

/-- An instruction whose check fails takes the trap of that check, with its first 64 bits as TRAPVAL. -/
theorem PerformedAs.traps {who : Who} {i : Instr} {cause : Cause} {s : State} (h : PerformedAs who i) (hl : s.now.lates = [])
    (hr : s.refusal s.curCore s.curSlot who = some cause) : Traps i (instrBytes i) cause (instrLow i) s := by
  obtain ⟨body, he⟩ := h s
  rw [Traps, he, perform_refused hl hr]
  rfl

section
variable {s : State}

theorem refusal_text {who : Who} (hw : who = .supervisor ∨ who = .vector ∨ who = .matrix) (h : s.now.text ≠ none) :
    s.refusal s.curCore s.curSlot who = some .illegalInstruction := by
  have ht : (s.ctx s.curCore s.curSlot).text.isSome = true := Option.isSome_iff_ne_none.2 h
  obtain rfl | rfl | rfl := hw <;> simp [State.refusal, ht]

theorem refusal_notSupervisor (h : s.now.text = none) (hn : s.curSlot ≠ 0) : s.refusal s.curCore s.curSlot .supervisor = some .privilege := by
  rw [State.now] at h
  simp [State.refusal, h, hn]

theorem refusal_notControl {who : Who} (hw : who = .vector ∨ who = .matrix) (h : s.now.text = none) (hn : s.curSlot ≠ 1) :
    s.refusal s.curCore s.curSlot who = some .engineNotOwned := by
  rw [State.now] at h
  obtain rfl | rfl := hw <;> simp [State.refusal, h, hn]

theorem refusal_noMatrix (h : s.now.text = none) (hn : s.curSlot = 1) (hj : (s.jobOf s.curCore).any Job.noMatrix = true) :
    s.refusal s.curCore s.curSlot .matrix = some .matrixUndeclared := by
  rw [State.now, hn] at h
  simp [State.refusal, h, hn, hj]

end

/-- Settles O7: each class of instructions is performed behind its own checks, and the first of them that fails gives the trap. -/
theorem issueChecks : Obligations.IssueChecks := by
  unfold Obligations.IssueChecks
  intro i s hl
  refine ⟨fun hi hn ht => ?_, fun hi hn ht => ?_, fun hi hn ht hj => ?_, fun hi ht => ?_⟩
  · exact (performedAs_supervisor hi).traps hl (refusal_notSupervisor ht hn)
  · obtain hi | hi := hi
    · exact (performedAs_vector hi).traps hl (refusal_notControl (.inl rfl) ht hn)
    · exact (performedAs_matrix hi).traps hl (refusal_notControl (.inr rfl) ht hn)
  · exact (performedAs_matrix hi).traps hl (refusal_noMatrix ht hn hj)
  · obtain hi | hi | hi := hi
    · exact (performedAs_supervisor hi).traps hl (refusal_text (.inl rfl) ht)
    · exact (performedAs_vector hi).traps hl (refusal_text (.inr (.inl rfl)) ht)
    · exact (performedAs_matrix hi).traps hl (refusal_text (.inr (.inr rfl)) ht)

end Sys2Proof.Machine
end

section
/-! SUPPORT. Frames of the moves of bytes: what a write to memory leaves as it was, and what reads back after it. -/

namespace Sys2Proof.Machine

/-! ### Entries of a map -/

theorem Assoc.find_eq_none {α : Type} {m : Assoc α} {k : Nat} : Assoc.find m k = none ↔ ∀ e ∈ m, e.1 ≠ k := by
  induction m with
  | nil => simp [Assoc.find]
  | cons e t ih =>
    obtain ⟨j, v⟩ := e
    by_cases h : j = k <;> simp [Assoc.find, h, ih]

theorem Assoc.mem_of_find {α : Type} {m : Assoc α} {k : Nat} {v : α} (h : Assoc.find m k = some v) : (k, v) ∈ m := by
  induction m with
  | nil => cases h
  | cons e t ih =>
    obtain ⟨j, w⟩ := e
    rw [Assoc.find] at h
    split at h
    · cases h
      subst_vars
      exact List.mem_cons_self
    · exact List.mem_cons_of_mem _ (ih h)

/-- An entry whose key is listed once is what its key finds. -/
theorem Assoc.find_of_mem {α : Type} {m : Assoc α} {k : Nat} {v : α} (hn : (m.map (·.1)).Nodup) (h : (k, v) ∈ m) : Assoc.find m k = some v := by
  induction m with
  | nil => cases h
  | cons e t ih =>
    obtain ⟨j, w⟩ := e
    obtain ⟨hj, ht⟩ := List.nodup_cons.1 hn
    rw [Assoc.find]
    obtain h | h := List.mem_cons.1 h
    · cases h
      exact if_pos rfl
    · rw [if_neg fun e => hj (List.mem_map.2 ⟨(k, v), h, e.symm⟩), ih ht h]

theorem Assoc.get_eq_find {α : Type} (d : α) (m : Assoc α) (k : Nat) : Assoc.get d m k = (Assoc.find m k).getD d := by
  induction m with
  | nil => rfl
  | cons e t ih =>
    obtain ⟨j, v⟩ := e
    by_cases h : j = k <;> simp [Assoc.get, Assoc.find, h, ih]

/-- What keys of one kind find is not changed by taking entries of another out. -/
theorem Assoc.find_filter {α : Type} (m : Assoc α) (p : Nat → Bool) {k : Nat} (h : p k = true) :
    Assoc.find (m.filter fun e => p e.1) k = Assoc.find m k := by
  induction m with
  | nil => rfl
  | cons e t ih =>
    obtain ⟨j, v⟩ := e
    by_cases hj : j = k
    · subst hj
      simp [Assoc.find, h]
    · by_cases hp : p j = true <;> simp [Assoc.find, hj, hp, ih]

/-- A part of the entries that a change of all of them keeps. -/
theorem Assoc.get_map {α β : Type} (g : α → α) (f : α → β) (hf : ∀ x, f (g x) = f x) (d : α) (m : Assoc α) (k : Nat) :
    f (Assoc.get d (m.map fun e => (e.1, g e.2)) k) = f (Assoc.get d m k) := by
  induction m with
  | nil => rfl
  | cons e m ih =>
    obtain ⟨j, v⟩ := e
    by_cases hj : j = k <;> simp [Assoc.get, hj, hf, ih]

/-- Keys that have been taken out of a map: what is in it was in it before, and has none of them. -/
theorem Assoc.mem_foldl_del {α : Type} (ls : List Nat) : ∀ {m : Assoc α} {e : Nat × α}, e ∈ ls.foldl Assoc.del m → e ∈ m ∧ e.1 ∉ ls := by
  induction ls with
  | nil => exact fun h => ⟨h, List.not_mem_nil⟩
  | cons l ls ih =>
    intro m e h
    obtain ⟨hm, hl⟩ := ih h
    refine ⟨Assoc.mem_del m l e hm, fun hc => (List.mem_cons.1 hc).elim (fun he => ?_) hl⟩
    have hnone : Assoc.find (Assoc.del m l) l = none := by rw [Assoc.find_del, if_pos rfl]
    exact Assoc.find_eq_none.1 hnone e hm he

/-! ### Everything but memory and its homes -/

/-- The machine without what writes of bytes at their homes change: memory with its marks and bits, the home slices, and which lines of
host memory these hold. -/
def State.still (s : State) : State := { s with mem := [], poison := [], full := [], dirtyPages := [], slices := [], hostLines := [] }

/-- A part of the machine that `State.still` does not hide. -/
theorem State.eq_of_still {α : Type} (f : State → α) {s t : State} (h : t.still = s.still) (hf : ∀ b : State, f b.still = f b := by intro; rfl) :
    f t = f s := by
  rw [← hf t, h, hf]

@[simp] theorem State.still_hostLines (s : State) (m : Assoc Bool) : ({ s with hostLines := m } : State).still = s.still := rfl
@[simp] theorem State.still_poke (s : State) (k : Nat) (b : Byte) : (s.poke k b).still = s.still := rfl
@[simp] theorem State.still_markWrite (s : State) (ks : List Nat) (p : Bool) : (s.markWrite ks p).still = s.still := rfl
@[simp] theorem State.still_setSlice (s : State) (cl : Nat) (l : Slice) : (s.setSlice cl l).still = s.still := rfl

@[simp] theorem State.still_pokes (cells : List (Nat × Byte)) : ∀ s : State, (s.pokes cells).still = s.still := by
  induction cells with
  | nil => exact fun _ => rfl
  | cons e t ih => exact fun s => (ih (s.poke e.1 e.2)).trans (s.still_poke e.1 e.2)

@[simp] theorem State.still_pokeBytes (bs : List Byte) : ∀ (s : State) (k : Nat), (s.pokeBytes k bs).still = s.still := by
  induction bs with
  | nil => exact fun _ _ => rfl
  | cons b t ih => exact fun s k => (ih (s.poke k b) (k + 1)).trans (s.still_poke k b)

@[simp] theorem State.still_writeH (s : State) (cells : List (Nat × Byte)) (p : Bool) : (s.writeH cells p).still = s.still := by
  rw [State.writeH, State.still_markWrite, State.still_pokes]

@[simp] theorem State.still_touchSlice (s : State) (c key : Nat) (keep : Bool) : (s.touchSlice c key keep).still = s.still := by
  simp only [State.touchSlice]
  split_ifs <;> rfl

@[simp] theorem State.still_takeHost (s : State) (line : Nat) : (s.takeHost line).still = s.still := by
  unfold State.takeHost
  split
  · rw [State.still_hostLines, State.still_pokeBytes]
  · rfl

@[simp] theorem State.still_flushHost (s : State) (line : Nat) : (s.flushHost line).still = s.still := by
  rw [State.flushHost, State.still_hostLines, State.still_pokeBytes]

/-- A write of bytes to lines that the host does not hold. -/
theorem State.still_homeWrite {s : State} {cells : List (Nat × Byte)} (h : ∀ e ∈ cells, keySpace e.1 = 0 → Assoc.find s.directory (e.1 / 64) = none) (p : Bool) :
    (s.homeWrite cells p).still = s.still := by
  unfold State.homeWrite
  split
  · rfl
  · rename_i k b t
    have hk := h (k, b) List.mem_cons_self
    rw [if_neg (by simpa using hk)]
    dsimp only
    split
    · rw [State.still_hostLines, State.still_writeH, State.still_takeHost]
    · rw [State.still_writeH, State.still_takeHost]

/-! ### The cores -/

theorem State.cores_writeH (s : State) (cells : List (Nat × Byte)) (p : Bool) : (s.writeH cells p).cores = s.cores :=
  State.eq_of_still State.cores (s.still_writeH cells p)

theorem State.cores_homeWrite (s : State) (cells : List (Nat × Byte)) (p : Bool) : (s.homeWrite cells p).cores = s.cores := by
  cases cells with
  | nil => rfl
  | cons e cells =>
    have hw (l : Nat) := ((s.takeHost l).cores_writeH (e :: cells) p).trans (State.eq_of_still State.cores (s.still_takeHost l))
    dsimp only [State.homeWrite]
    split
    · rfl
    · split <;> exact hw _

/-- What an eviction changes of the cores: the line leaves CV. -/
theorem State.cores_evict (s : State) (c line : Nat) :
    (s.evict c line).cores = (s.setCore c { s.core c with cv := Assoc.del (s.core c).cv line }).cores := by
  dsimp only [State.evict]
  split
  · rw [State.cores_homeWrite, State.cores_homeWrite]
  · rw [State.eq_of_still State.cores (State.still_touchSlice ..), State.cores_homeWrite, State.cores_homeWrite]

theorem State.core_evict (s : State) (c line d : Nat) :
    (s.evict c line).core d = if d = c then { s.core c with cv := Assoc.del (s.core c).cv line } else s.core d := by
  rw [State.core, State.cores_evict]
  exact State.core_setCore s c d _

/-! ### Full bits -/

@[simp] theorem State.full_pokes (cells : List (Nat × Byte)) : ∀ s : State, (s.pokes cells).full = s.full := by
  induction cells with
  | nil => exact fun _ => rfl
  | cons e t ih => exact fun s => ih (s.poke e.1 e.2)

@[simp] theorem State.fullBit_writeH (s : State) (cells : List (Nat × Byte)) (p : Bool) (k : Nat) : (s.writeH cells p).fullBit k = s.fullBit k :=
  congrArg (Assoc.get false · (k / 8)) (State.full_pokes cells s)

theorem State.fullBit_setFull (s : State) (k j : Nat) (b : Bool) : (s.setFull k b).fullBit j = if j / 8 = k / 8 then b else s.fullBit j := by
  simp [State.fullBit, State.setFull]

/-! ### Bytes that are read back -/

theorem State.peek_of_mem {s t : State} (h : t.mem = s.mem) (k : Nat) : t.peek k = s.peek k := by rw [State.peek, h, State.peek]

@[simp] theorem State.peek_touchSlice (s : State) (c key j : Nat) (keep : Bool) : (s.touchSlice c key keep).peek j = s.peek j :=
  State.peek_of_mem (s.wf_touchSlice c key keep) j

/-- What a byte reads as after some cells were written, each once. -/
theorem State.peek_pokes (cells : List (Nat × Byte)) : ∀ s : State, (cells.map (·.1)).Nodup → ∀ k : Nat,
    (s.pokes cells).peek k = (Assoc.find cells k).getD (s.peek k) := by
  induction cells with
  | nil => exact fun _ _ _ => rfl
  | cons e t ih =>
    intro s hn k
    obtain ⟨j, b⟩ := e
    obtain ⟨hj, ht⟩ := List.nodup_cons.1 hn
    rw [State.pokes, ih _ ht, State.peek_poke, Assoc.find]
    by_cases h : j = k
    · subst h
      have hnone : Assoc.find t j = none := Assoc.find_eq_none.2 fun e he hk => hj (List.mem_map.2 ⟨e, he, hk⟩)
      rw [hnone, if_pos rfl, if_pos rfl]
      rfl
    · rw [if_neg h, if_neg (Ne.symm h)]

theorem State.peek_writeH {cells : List (Nat × Byte)} (hn : (cells.map (·.1)).Nodup) (s : State) (p : Bool) (k : Nat) :
    (s.writeH cells p).peek k = (Assoc.find cells k).getD (s.peek k) := State.peek_pokes cells s hn k

/-- Bytes that no cell names stay. -/
theorem State.peek_pokes_other {cells : List (Nat × Byte)} {k : Nat} (h : ∀ e ∈ cells, e.1 ≠ k) (s : State) : (s.pokes cells).peek k = s.peek k := by
  induction cells generalizing s with
  | nil => rfl
  | cons e t ih =>
    rw [State.pokes, ih (fun e he => h e (List.mem_cons_of_mem _ he)), State.peek_poke, if_neg (Ne.symm (h e List.mem_cons_self))]

theorem State.peek_writeH_other {cells : List (Nat × Byte)} {k : Nat} (h : ∀ e ∈ cells, e.1 ≠ k) (s : State) (p : Bool) :
    (s.writeH cells p).peek k = s.peek k := State.peek_pokes_other h s

theorem State.peek_writeH_mem {cells : List (Nat × Byte)} (hn : (cells.map (·.1)).Nodup) {e : Nat × Byte} (h : e ∈ cells) (s : State) (p : Bool) :
    (s.writeH cells p).peek e.1 = e.2 := by
  rw [State.peek_writeH hn, Assoc.find_of_mem hn h]
  rfl

theorem State.peeks_eq_map (s : State) (n : Nat) : ∀ k : Nat, s.peeks k n = (List.range n).map fun i => s.peek (k + i) := by
  induction n with
  | zero => exact fun _ => rfl
  | succ n ih =>
    intro k
    rw [State.peeks, ih, List.range_succ_eq_map, List.map_cons, List.map_map]
    simp only [Function.comp_def, Nat.add_zero, Nat.add_assoc, Nat.add_comm 1]

theorem State.peeks_length (s : State) (k n : Nat) : (s.peeks k n).length = n := by simp [State.peeks_eq_map]

/-- The same bytes are read where memory has not changed. -/
theorem State.peeks_congr {s t : State} {k n : Nat} (h : ∀ i < n, t.peek (k + i) = s.peek (k + i)) : t.peeks k n = s.peeks k n := by
  rw [State.peeks_eq_map, State.peeks_eq_map]
  exact List.map_congr_left fun i hi => h i (List.mem_range.1 hi)

/-- Some bytes are read back where each of them lies. -/
theorem State.peeks_eq {s : State} {k : Nat} {bs : List Byte} (h : ∀ i (hi : i < bs.length), s.peek (k + i) = bs[i]) : s.peeks k bs.length = bs := by
  refine List.ext_getElem (s.peeks_length k _) fun i h1 h2 => ?_
  simp only [State.peeks_eq_map, List.getElem_map, List.getElem_range]
  exact h i h2

/-- The cells of consecutive bytes. -/
def consecutive (k : Nat) (bs : List Byte) : List (Nat × Byte) := ((List.range bs.length).map (k + ·)).zip bs

theorem consecutive_keys (k : Nat) (bs : List Byte) : (consecutive k bs).map (·.1) = (List.range bs.length).map (k + ·) :=
  List.map_fst_zip (by simp)

theorem consecutive_nodup (k : Nat) (bs : List Byte) : ((consecutive k bs).map (·.1)).Nodup := by
  rw [consecutive_keys]
  exact List.nodup_range.map (fun a b h => Nat.add_left_cancel h)

theorem mem_consecutive {k : Nat} {bs : List Byte} {i : Nat} (hi : i < bs.length) : (k + i, bs[i]) ∈ consecutive k bs := by
  refine List.mem_iff_getElem.2 ⟨i, by simpa [consecutive] using hi, ?_⟩
  simp [consecutive]

theorem consecutive_range {k : Nat} {bs : List Byte} {e : Nat × Byte} (h : e ∈ consecutive k bs) : k ≤ e.1 ∧ e.1 < k + bs.length := by
  have hk : e.1 ∈ (List.range bs.length).map (k + ·) := consecutive_keys k bs ▸ List.mem_map_of_mem h
  obtain ⟨i, hi, he⟩ := List.mem_map.1 hk
  have := List.mem_range.1 hi
  omega

/-- Consecutive bytes that were written read back. -/
theorem State.peeks_writeH (s : State) (k : Nat) (bs : List Byte) (p : Bool) : (s.writeH (consecutive k bs) p).peeks k bs.length = bs :=
  State.peeks_eq fun _ hi => State.peek_writeH_mem (consecutive_nodup k bs) (mem_consecutive hi) s p

theorem State.peek_consecutive_other {k j : Nat} {bs : List Byte} (h : ¬(k ≤ j ∧ j < k + bs.length)) (s : State) (p : Bool) :
    (s.writeH (consecutive k bs) p).peek j = s.peek j :=
  State.peek_writeH_other (fun _ he hj => h (hj ▸ consecutive_range he :)) s p

/-- Consecutive bytes that were written read back. -/
theorem State.peeks_pokeBytes (s : State) (k : Nat) (bs : List Byte) : (s.pokeBytes k bs).peeks k bs.length = bs := by
  refine State.peeks_eq fun i hi => ?_
  rw [State.peek_pokeBytes, if_pos (by omega), Nat.add_sub_cancel_left, List.getD_eq_getElem _ _ hi]

/-! ### Little-endian numbers -/

theorem bytesOfBits_length (n : Nat) : ∀ x : Nat, (bytesOfBits n x).length = n := by
  induction n with
  | zero => exact fun _ => rfl
  | succ n ih => exact fun x => congrArg (· + 1) (ih (x / 256))

theorem bitsOfBytes_bytesOfBits (n : Nat) : ∀ x : Nat, bitsOfBytes (bytesOfBits n x) = x % 256 ^ n := by
  induction n with
  | zero => exact fun x => (Nat.mod_one x).symm
  | succ n ih =>
    intro x
    have hp : (256 : Nat) ^ (n + 1) = 256 * 256 ^ n := Nat.pow_succ'
    rw [bytesOfBits, bitsOfBytes, ih, BitVec.toNat_ofNat, hp, Nat.mod_mul]

theorem bitsOfBytes_word (w : Word) : bitsOfBytes (bytesOfBits 8 w.toNat) = w.toNat := by
  rw [bitsOfBytes_bytesOfBits]
  exact Nat.mod_eq_of_lt w.isLt

end Sys2Proof.Machine
end

section
/-! SUPPORT. Watchpoints that do not look on, and budgets that hold nothing back (R71, R203). -/

namespace Sys2Proof.Machine

/-! ### Watchpoints -/

theorem watchMatch_unselected {w : Watch} (h : bits w.ctl 3 0 = 0) (space : Nat) (k : WatchKind) (src : WatchSrc) (hi : Nat) (addrs : List Nat)
    (unit : Nat → Nat → Nat) : watchMatch w space k src hi addrs unit = none := by
  simp [watchMatch, h]

theorem State.watch_unwatched {s : State} {c : Nat} (h : s.unwatched c = true) (space : Nat) (k : WatchKind) (src : WatchSrc) (hi : Nat)
    (addrs : List Nat) (unit : Nat → Nat → Nat) (who : Option Nat) : s.watch c space k src hi addrs unit who = s := by
  have hw : ∀ n ∈ List.range 4, bits (Assoc.get Watch.reset (s.core c).watches n).ctl 3 0 = 0 := by
    simpa [State.unwatched] using h
  unfold State.watch
  generalize List.range 4 = l at hw
  induction l with
  | nil => rfl
  | cons n l ih =>
    rw [List.foldl_cons, watchMatch_unselected (hw n List.mem_cons_self)]
    exact ih fun m hm => hw m (List.mem_cons_of_mem _ hm)

/-- The owner of scratchpad bytes has no watchpoint that selects anything. -/
theorem State.watchOwner_unwatched {s : State} {keys : List Nat} (h : ∀ key ∈ keys, s.unwatched (keyCore key) = true) (k : WatchKind) (by_ : Nat)
    (who : Option Nat) : s.watchOwner keys k by_ who = s := by
  unfold State.watchOwner
  split
  · rfl
  · split
    · exact State.watch_unwatched (h _ List.mem_cons_self) ..
    · rfl

theorem State.unwatched_congr {s t : State} {c : Nat} (h : (t.core c).watches = (s.core c).watches) : t.unwatched c = s.unwatched c := by
  rw [State.unwatched, h, State.unwatched]

/-! ### Budgets -/

/-- A core without what it has used of its budgets. -/
def Core.uncharged (k : Core) : Core := { k with dramUse := 0, injUse := 0, podUse := [] }

/-- `t` differs from `s` at most in what cores have used of their budgets. -/
structure Charged (s t : State) : Prop where
  bare : t.bare = s.bare
  core : ∀ c, (t.core c).uncharged = (s.core c).uncharged

theorem Charged.refl (s : State) : Charged s s := ⟨rfl, fun _ => rfl⟩

/-- A part of a core that `Core.uncharged` does not hide. -/
theorem Charged.eq_core {α : Type} {s t : State} (h : Charged s t) (f : Core → α) (c : Nat) (hf : ∀ k : Core, f k.uncharged = f k := by intro; rfl) :
    f (t.core c) = f (s.core c) := by
  rw [← hf (t.core c), h.core c, hf]

theorem Charged.peek {s t : State} (h : Charged s t) (k : Nat) : t.peek k = s.peek k := State.eq_of_bare (State.peek · k) h.bare

theorem Charged.ctx {s t : State} (h : Charged s t) (c n : Nat) : t.ctx c n = s.ctx c n := h.eq_core (Core.ctx · n) c

/-- Nothing holds the traffic of `who` back: it is the supervisor's, or the core has no limit that it would meet, and nothing waits at its
governor. -/
def Core.ample (k : Core) (who : Nat) (pod : Option (Nat × Nat)) : Prop :=
  who = 0 ∨ k.dramLim = 0xFFFF_FFFF ∧ k.injLim = 0xFFFF_FFFF ∧ k.governor = [] ∧ (pod ≠ none → k.podLim = 0xFFFF_FFFF)

theorem State.meter_ample {s : State} {c who : Nat} {pod : Option (Nat × Nat)} (h : (s.core c).ample who pod) (lines flits : Nat) :
    ∃ t, s.meter c who lines flits pod = (true, t) ∧ Charged s t := by
  rw [State.meter.eq_def]
  by_cases h0 : who = 0
  · exact ⟨s, if_pos h0, .refl s⟩
  obtain h | ⟨hd, hi, hg, hp⟩ := h
  · exact absurd h h0
  have hb (kind : Nat) : (s.core c).heldBefore kind who = false := by simp [Core.heldBefore, hg]
  rw [if_neg h0]
  dsimp only
  rw [if_neg]
  · refine ⟨_, rfl, rfl, fun d => ?_⟩
    rw [State.core_setCore]
    split
    · subst_vars
      simp [Core.uncharged, hg]
    · rfl
  · cases pod with
    | none => simp [hb, hd, hi]
    | some p => simp [hb, hd, hi, hp]

end Sys2Proof.Machine
end

section
/-! SUPPORT. `fence` (R146, R147, R150): what the moves of its two halves leave as it was. -/

namespace Sys2Proof.Machine

section
variable {s t u : State} {sb : List SbEntry}

/-! ### What the moves of a half keep -/

/-- A core without what drains and evictions change. -/
def Core.unmoved (k : Core) : Core := { k with ctxs := [], cv := [], dramUse := 0, injUse := 0, podUse := [] }

/-- What drains and evictions leave of the context that issues a fence: its registers and marks, its store buffer, and what ends an instruction. -/
def Ctx.lasting (x : Ctx) : Ctx := { Ctx.reset with g := x.g, p := x.p, marks := x.marks, sb := x.sb, step1 := x.step1, after := x.after }

/-- From `s` to `t` entries have drained and lines have been evicted; the context's store buffer still holds `sb`. -/
structure HalfMoves (s : State) (sb : List SbEntry) (t : State) : Prop where
  curCore : t.curCore = s.curCore
  curSlot : t.curSlot = s.curSlot
  directory : t.directory = s.directory
  biPending : t.biPending = s.biPending
  fields : t.fields = s.fields
  core : ∀ c, (t.core c).unmoved = (s.core c).unmoved
  ctx : (t.ctx s.curCore s.curSlot).lasting = { s.now.lasting with sb := sb }

theorem HalfMoves.refl (s : State) : HalfMoves s s.now.sb s := ⟨rfl, rfl, rfl, rfl, rfl, fun _ => rfl, rfl⟩

/-- A part of a core that `Core.unmoved` does not hide. -/
theorem HalfMoves.eq_core {α : Type} (h : HalfMoves s sb t) (f : Core → α) (c : Nat) (hf : ∀ k : Core, f k.unmoved = f k := by intro; rfl) :
    f (t.core c) = f (s.core c) := by
  rw [← hf (t.core c), h.core c, hf]

theorem HalfMoves.eq_ctx {α : Type} (h : HalfMoves s sb t) (f : Ctx → α) (hf : ∀ x : Ctx, f { x.lasting with sb := sb } = f x := by intro; rfl)
    (hl : ∀ x : Ctx, f x.lasting = f x := by intro; rfl) :
    f (t.ctx s.curCore s.curSlot) = f s.now := by
  rw [← hl, h.ctx, hf]

theorem HalfMoves.sb_eq (h : HalfMoves s sb t) : (t.ctx s.curCore s.curSlot).sb = sb := congrArg Ctx.sb h.ctx

theorem HalfMoves.still (h : HalfMoves s sb t) (hu : u.still = t.still) : HalfMoves s sb u :=
  ⟨(State.eq_of_still State.curCore hu).trans h.curCore, (State.eq_of_still State.curSlot hu).trans h.curSlot,
    (State.eq_of_still State.directory hu).trans h.directory, (State.eq_of_still State.biPending hu).trans h.biPending,
    (State.eq_of_still State.fields hu).trans h.fields, fun c => (State.eq_of_still (State.core · c) hu) ▸ h.core c,
    (State.eq_of_still (State.ctx · s.curCore s.curSlot) hu) ▸ h.ctx⟩

theorem HalfMoves.setCore (h : HalfMoves s sb t) {c : Nat} {k : Core} (hk : k.unmoved = (t.core c).unmoved)
    (hx : (k.ctx s.curSlot).lasting = (t.ctx c s.curSlot).lasting) : HalfMoves s sb (t.setCore c k) := by
  refine ⟨h.curCore, h.curSlot, h.directory, h.biPending, h.fields, fun d => ?_, ?_⟩
  · rw [State.core_setCore]
    split
    · subst_vars
      exact hk.trans (h.core d)
    · exact h.core d
  · rw [State.ctx, State.core_setCore]
    split
    · subst_vars
      exact hx.trans h.ctx
    · exact h.ctx

theorem HalfMoves.setCtx (h : HalfMoves s sb t) {c n : Nat} {x : Ctx} (hx : x.lasting = (t.ctx c n).lasting) :
    HalfMoves s sb (t.setCtx c n x) := by
  refine h.setCore rfl ?_
  rw [Core.ctx_setCtx]
  split
  · subst_vars
    exact hx
  · rfl

theorem HalfMoves.charged (h : HalfMoves s sb t) (hc : Charged t u) : HalfMoves s sb u :=
  ⟨(State.eq_of_bare State.curCore hc.bare).trans h.curCore, (State.eq_of_bare State.curSlot hc.bare).trans h.curSlot,
    (State.eq_of_bare State.directory hc.bare).trans h.directory, (State.eq_of_bare State.biPending hc.bare).trans h.biPending,
    (State.eq_of_bare State.fields hc.bare).trans h.fields,
    fun c => (hc.eq_core Core.unmoved c).trans (h.core c), (hc.ctx _ _) ▸ h.ctx⟩

/-! ### The hypotheses of a fence that nothing holds back -/

/-- Nothing holds the moves of a fence back: it is seen alone, the host holds no line, no watchpoint looks on, and the budgets and routes
of its core take everything. -/
structure State.FenceFree (s : State) : Prop where
  alone : s.Alone
  directory : s.directory = []
  biPending : s.biPending = []
  unwatched : ∀ c, s.unwatched c = true
  ample : ∀ pod, s.here.ample s.curSlot pod
  allOpen : s.allOpen

theorem State.fenceFree (hs : s.steady = true) (hd : s.directory = []) (hb : s.biPending = []) (hw : ∀ c, s.unwatched c = true) (hu : s.unlimited)
    (hp : s.curSlot = 0 ∨ s.here.podLim = 0xFFFF_FFFF) (ho : s.allOpen) : s.FenceFree := by
  refine ⟨State.alone_of_steady hs, hd, hb, hw, fun pod => ?_, ho⟩
  obtain h0 | ⟨h1, h2, h3⟩ := hu
  · exact .inl h0
  · exact hp.imp id fun h => ⟨h1, h2, h3, fun _ => h⟩

variable (f : s.FenceFree) (h : HalfMoves s sb t)
include f h

theorem HalfMoves.unwatched (c : Nat) : t.unwatched c = true :=
  (State.unwatched_congr (h.eq_core Core.watches c)).trans (f.unwatched c)

theorem HalfMoves.unpaired : (t.core s.curCore).pairedWest s.curSlot = false := by
  rw [Core.pairedWest, h.eq_core Core.pair]
  exact f.alone.unpaired

theorem HalfMoves.meshOpen (r : Nat) : t.meshOpen s.curCore r = true := by
  rw [State.meshOpen, State.fieldOf, h.fields]
  exact f.allOpen r

theorem HalfMoves.wayTo (key : Nat) : t.wayTo s.curCore key = true := by
  unfold State.wayTo
  split <;> simp [h.meshOpen f]

theorem HalfMoves.ample (pod : Option (Nat × Nat)) : (t.core s.curCore).ample s.curSlot pod := by
  have hk := f.ample pod
  rwa [State.here, ← h.eq_core (fun k => k.ample s.curSlot pod) s.curCore] at hk

/-! ### The moves -/

theorem HalfMoves.homeWrite (cells : List (Nat × Byte)) (p : Bool) : HalfMoves s sb (t.homeWrite cells p) :=
  h.still (State.still_homeWrite (fun e _ _ => by rw [h.directory, f.directory]; rfl) p)

theorem HalfMoves.evict (c line : Nat) : HalfMoves s sb (t.evict c line) := by
  unfold State.evict
  have hdel : HalfMoves s sb (t.setCore c { t.core c with cv := Assoc.del (t.core c).cv line }) := h.setCore rfl rfl
  have hhome := fun a b p q => ((hdel.homeWrite f a p).homeWrite f b q)
  dsimp only
  split
  · exact hhome _ _ _ _
  · exact (hhome _ _ _ _).still (State.still_touchSlice ..)

omit h in
theorem HalfMoves.evictAll (c : Nat) (ls : List Nat) : ∀ {t : State}, HalfMoves s sb t → HalfMoves s sb (t.evictAll c ls) := by
  induction ls with
  | nil => exact id
  | cons l ls ih => exact fun h => ih (h.evict f c l)

omit f h in
/-- Moves one after the other. -/
theorem HalfMoves.foldl {β : Type} {move : State → β → State} (hm : ∀ t b, HalfMoves s sb t → HalfMoves s sb (move t b)) (bs : List β) :
    ∀ {t : State}, HalfMoves s sb t → HalfMoves s sb (bs.foldl move t) := by
  induction bs with
  | nil => exact id
  | cons b bs ih => exact fun h => ih (hm _ b h)

omit f in
theorem HalfMoves.dirtyCv (c : Nat) (cells : List (Nat × Byte)) (p : Bool) : HalfMoves s sb (t.dirtyCv c cells p) :=
  HalfMoves.foldl (fun _ _ h => by exact h.setCore rfl rfl) cells h

omit f in
theorem HalfMoves.post (c n port key : Nat) (op : RemoteOp) : HalfMoves s sb (t.post c n port key op) :=
  ⟨h.curCore, h.curSlot, h.directory, h.biPending, h.fields, h.core, h.ctx⟩

omit f in
theorem HalfMoves.refetch (c n line : Nat) : HalfMoves s sb (t.refetch c n line) := by
  unfold State.refetch
  dsimp only
  split
  · exact h
  · have hr (l : List RemoteReq) : HalfMoves s sb { t with remote := l } :=
      ⟨h.curCore, h.curSlot, h.directory, h.biPending, h.fields, h.core, h.ctx⟩
    exact (hr _).setCtx rfl

omit f h in
/-- A context whose fetched copy of a line may no longer enter CV. -/
def Ctx.stale (x : Ctx) (line : Nat) : Ctx :=
  { x with fetched := x.fetched.map fun f => if f.1 = line then (f.1, { f.2 with keep := false }) else f }

omit f in
theorem HalfMoves.dropRemote (c line : Nat) : HalfMoves s sb (t.dropRemote c line) := by
  refine h.setCore rfl ?_
  exact Assoc.get_map (Ctx.stale · line) Ctx.lasting (fun _ => rfl) (Ctx.dflt s.curSlot) (t.core c).ctxs s.curSlot

theorem HalfMoves.watchOwner (keys : List Nat) (k : WatchKind) (by_ : Nat) (who : Option Nat) : HalfMoves s sb (t.watchOwner keys k by_ who) := by
  rw [State.watchOwner_unwatched fun key _ => h.unwatched f (keyCore key)]
  exact h

theorem HalfMoves.grantFull (w : Nat) : HalfMoves s sb (t.grantFull w) := by
  unfold State.grantFull
  split
  · dsimp only
    split
    · have hf : ∀ {t : State}, HalfMoves s sb t → ∀ ks : List Nat, HalfMoves s sb (ks.foldl (fun s k => s.setFull k false) t) :=
        fun h ks => HalfMoves.foldl (fun _ _ h => by exact h.still rfl) ks h
      exact ((hf h _).setCtx (by rfl)).watchOwner f _ _ _ _
    · exact h
  · exact h

theorem HalfMoves.setFulls (ws : List Nat) : HalfMoves s sb (t.setFulls ws) :=
  HalfMoves.foldl (fun _ w h => h.grantFull f w) ws (HalfMoves.foldl (fun _ _ h => by exact h.still rfl) ws h)

theorem HalfMoves.lose : HalfMoves s sb (t.lose s.curCore s.curSlot) := by
  have hl : HalfMoves s sb (t.setCtx s.curCore s.curSlot (t.ctx s.curCore s.curSlot).lose) := h.setCtx rfl
  rw [State.lose, State.pairKeeps, if_neg]
  · exact hl
  · rw [hl.unpaired f]
    exact Bool.false_ne_true

/-- An entry that leaves the context's store buffer. -/
theorem HalfMoves.applyEntry (e : SbEntry) : HalfMoves s sb (t.applyEntry s.curCore s.curSlot e) := by
  unfold State.applyEntry
  split
  · exact h
  · split
    · split
      · exact (((h.evictAll f _ _).homeWrite f _ _)).still (State.still_touchSlice ..)
      · exact h.dirtyCv _ _ _
    · split
      · exact (((h.evictAll f _ _).homeWrite f _ _)).still (State.still_touchSlice ..)
      · exact h.dirtyCv _ _ _
    · exact ((h.refetch _ _ _).dropRemote _ _).post _ _ _ _ _
    · split
      · exact h.lose f
      · dsimp only
        have hw := (h.still (State.still_writeH t e.cells e.poison)).watchOwner f (e.cells.map (·.1)) .write s.curCore (some s.curSlot)
        split
        · exact hw.setFulls f _
        · exact hw

omit h in
theorem HalfMoves.drainHead {e : SbEntry} (h : HalfMoves s (e :: sb) t) : HalfMoves s sb (t.drainHits s.curCore s.curSlot [e]) := by
  have hsb : [e].foldl List.erase (t.ctx s.curCore s.curSlot).sb = sb := by
    rw [h.sb_eq, List.foldl_cons, List.foldl_nil, List.erase_cons_head]
  have hset : HalfMoves s sb (t.setCtx s.curCore s.curSlot { t.ctx s.curCore s.curSlot with sb := sb }) := by
    refine ⟨h.curCore, h.curSlot, h.directory, h.biPending, h.fields, fun c => ?_, ?_⟩
    · rw [State.core_setCtx]
      split
      · subst_vars
        exact h.core _
      · exact h.core c
    · rw [State.ctx_setCtx, if_pos ⟨rfl, rfl⟩]
      exact congrArg (fun x : Ctx => { x with sb := sb }) h.ctx
  rw [State.drainHits, hsb]
  exact hset.applyEntry f e

/-! ### The halves as effects -/

theorem HalfMoves.budgetFor (lines flits : Nat) (pod : Option (Nat × Nat)) :
    ∃ u, Machine.budgetFor lines flits pod t = .ok ((), u) ∧ Charged t u := by
  obtain ⟨u, hu, hc⟩ := State.meter_ample (h.ample f pod) lines flits
  refine ⟨u, ?_, hc⟩
  simp [Machine.budgetFor, h.curCore, h.curSlot, hu]

omit h in
theorem HalfMoves.drainOne {e : SbEntry} (h : HalfMoves s (e :: sb) t) : ∃ u, Machine.drainOne e t = .ok ((), u) ∧ HalfMoves s sb u := by
  have hway : t.entryWay s.curCore e = true := by simp [State.entryWay, h.wayTo f]
  obtain ⟨v, hv, hc⟩ := h.budgetFor f (e.reach s.curCore).1 (e.reach s.curCore).2.1 (e.reach s.curCore).2.2
  by_cases hr : e.reach s.curCore = (0, 0, none)
  · exact ⟨_, by simp [Machine.drainOne, h.curCore, h.curSlot, hway, hr], h.drainHead f⟩
  · exact ⟨_, by simp [Machine.drainOne, h.curCore, h.curSlot, hway, hr, hv], (h.charged hc).drainHead f⟩

omit h in
/-- The whole store buffer drains. -/
theorem HalfMoves.drainAll (sb : List SbEntry) : ∀ {t : State}, HalfMoves s sb t → ∃ u, forM sb Machine.drainOne t = .ok ((), u) ∧ HalfMoves s [] u := by
  induction sb with
  | nil => exact fun h => ⟨_, rfl, h⟩
  | cons e sb ih =>
    intro t h
    obtain ⟨v, hv, h⟩ := h.drainOne f
    obtain ⟨u, hu, h⟩ := ih h
    exact ⟨u, by rw [List.forM_cons, M.bind_apply, hv, M.andThen_ok, hu], h⟩

/-- One line leaves the first-level cache. -/
theorem HalfMoves.evictOne (line : Nat) : ∃ u, Machine.evictOne line t = .ok ((), u) ∧ HalfMoves s sb u ∧
    (u.core s.curCore).cv = Assoc.del (t.core s.curCore).cv line := by
  obtain ⟨v, hv, hc⟩ := h.budgetFor f 1 2 none
  have hcv := hc.eq_core Core.cv s.curCore
  have hvc : v.curCore = s.curCore := (h.charged hc).curCore
  by_cases hl : (t.core s.curCore).dirtyLines.contains line = true
  · refine ⟨v.evict s.curCore line, ?_, (h.charged hc).evict f _ _, ?_⟩
    · rw [Machine.evictOne, M.bind_apply, M.get_apply, M.andThen_ok, h.curCore, if_pos hl]
      simp [Machine.meshWay, h.curCore, h.wayTo f, Machine.budget, hv, hvc]
    · rw [State.core_evict, if_pos rfl, hcv]
  · refine ⟨t.evict s.curCore line, ?_, h.evict f _ _, ?_⟩
    · rw [Machine.evictOne, M.bind_apply, M.get_apply, M.andThen_ok, h.curCore, if_neg hl]
      simp [h.curCore]
    · rw [State.core_evict, if_pos rfl]

omit h in
/-- Lines leave the first-level cache, one after the other. -/
theorem HalfMoves.evictLines (ls : List Nat) : ∀ {t : State}, HalfMoves s sb t → ∃ u, forM ls Machine.evictOne t = .ok ((), u) ∧ HalfMoves s sb u ∧
    (u.core s.curCore).cv = ls.foldl Assoc.del (t.core s.curCore).cv := by
  induction ls with
  | nil => exact fun h => ⟨_, rfl, h, rfl⟩
  | cons l ls ih =>
    intro t h
    obtain ⟨v, hv, h, hcv⟩ := h.evictOne f l
    obtain ⟨u, hu, h, hcu⟩ := ih h
    exact ⟨u, by rw [List.forM_cons, M.bind_apply, hv, M.andThen_ok, hu], h, by rw [hcu, hcv, List.foldl_cons]⟩

omit f h in
theorem splitSb_all (sb : List SbEntry) : (splitSb (fun _ => true) sb).1 = sb := by
  induction sb with
  | nil => rfl
  | cons e sb ih => simp [splitSb, ih]

omit f h in
/-- A cache without the lines that had a dirty byte has no dirty line. -/
theorem Core.dirtyLines_cleaned {k j : Core} (hj : j.cv = k.dirtyLines.foldl Assoc.del k.cv) : j.dirtyLines = [] := by
  rw [Core.dirtyLines, List.map_eq_nil_iff, List.filter_eq_nil_iff]
  intro e he hd
  obtain ⟨hm, hl⟩ := Assoc.mem_foldl_del k.dirtyLines (hj ▸ he)
  exact hl (List.mem_map.2 ⟨e, List.mem_filter.2 ⟨hm, hd⟩, rfl⟩)

omit f h in
theorem Core.dirtyLines_of_subset {k j : Core} (hk : k.dirtyLines = []) (hj : ∀ e ∈ j.cv, e ∈ k.cv) : j.dirtyLines = [] := by
  rw [Core.dirtyLines, List.map_eq_nil_iff, List.filter_eq_nil_iff] at hk ⊢
  exact fun e he => hk e (hj e he)

omit f h in
theorem agreed_unpaired (hp : (t.core t.curCore).pairedWest t.curSlot = false) : agreed t = .ok ((), t) := by
  simp [agreed, State.holding, Core.holding, hp]

omit h in
/-- The release half of a fence at a scope that awaits no other member: the store buffer has drained, and no line is dirty. -/
theorem HalfMoves.releaseHalf {sc : Scope} (hsc : beyondCore sc = true) (hnd : beyondHost sc = false) (h : HalfMoves s sb t) :
    ∃ u, Machine.releaseHalf sc t = .ok ((), u) ∧ HalfMoves s [] u ∧ (u.core s.curCore).dirtyLines = [] := by
  obtain ⟨v, hv, h1⟩ := HalfMoves.drainAll f sb h
  obtain ⟨u, hu, h2, hcv⟩ := HalfMoves.evictLines f (v.core s.curCore).dirtyLines h1
  refine ⟨u, ?_, h2, Core.dirtyLines_cleaned hcv⟩
  have hcx : sc ≠ .cx := by rintro rfl; cases hsc
  have hsy : sc ≠ .sy := by rintro rfl; cases hnd
  have hhold : t.holding s.curCore s.curSlot = false := by simp [State.holding, Core.holding, h.unpaired f]
  have hcov (x : State) (c n : Nat) : x.coversLine c n none = fun _ => true := rfl
  have hent (x : State) (c n : Nat) : x.coversEntry c n none = fun _ => true := rfl
  have hbi : u.biPending = [] := h2.biPending.trans f.biPending
  simp [Machine.releaseHalf, releaseOver, h.curCore, h.curSlot, hhold, hcx, hsy, hsc, hnd, hcov, hent, drainPicked, splitSb_all, h.sb_eq, hv, hu, hbi]

/-- The acquire half of a fence: no line is present that the scope discards, and none is in the cache that was not. -/
theorem HalfMoves.acquireHalf (sc : Scope) : ∃ u, Machine.acquireHalf sc t = .ok ((), u) ∧ HalfMoves s sb u ∧
    ∀ e ∈ (u.core s.curCore).cv, e ∈ (t.core s.curCore).cv ∧ discards sc e.1 = false := by
  obtain ⟨u, hu, h2, hcv⟩ := HalfMoves.evictLines f (((t.core s.curCore).cv.map (·.1)).filter (discards sc)) h
  refine ⟨u, ?_, h2, fun e he => ?_⟩
  · have hcov (x : State) (c n : Nat) : x.coversLine c n none = fun _ => true := rfl
    simp [Machine.acquireHalf, acquireOver, h.curCore, h.curSlot, hcov, hu]
  · obtain ⟨hm, hl⟩ := Assoc.mem_foldl_del _ (hcv ▸ he)
    refine ⟨hm, Bool.eq_false_iff.2 fun hd => hl (List.mem_filter.2 ⟨List.mem_map.2 ⟨e, hm, rfl⟩, hd⟩)⟩

end

/-! ### The obligation -/

theorem SameRegs.retired {x y : Ctx} (hg : y.g = x.g) (hp : y.p = x.p) (hm : y.marks = x.marks) (bytes : Nat) (nx : Next) :
    SameRegs x (y.retired' bytes nx) := by
  refine ⟨fun r => ?_, fun r => ?_, fun u => ?_⟩
  · rw [Ctx.retired'_readG, Ctx.readG, hg, Ctx.readG]
  · rw [Ctx.retired'_readP, Ctx.readP, hp, Ctx.readP]
  · rw [Ctx.retired'_marked, Ctx.marked, hm, Ctx.marked]

section
variable {t : State} (hp : (t.core t.curCore).pairedWest t.curSlot = false) (hs : t.settled t.curCore t.curSlot = true)
include hs

theorem acquireHalf_settled (sc : Scope) : acquireHalf sc t = .ok ((), t) := by
  simp only [State.settled, Bool.and_eq_true, decide_eq_true_eq] at hs
  obtain ⟨⟨⟨⟨⟨-, hcv⟩, -⟩, -⟩, -⟩, -⟩ := hs
  simp [acquireHalf, acquireOver, hcv]

include hp in
/-- Nothing is left to be made visible: the release half has nothing to do. -/
theorem releaseHalf_settled (sc : Scope) : releaseHalf sc t = .ok ((), t) := by
  simp only [State.settled, Bool.and_eq_true, decide_eq_true_eq] at hs
  obtain ⟨⟨⟨⟨⟨hsb, hcv⟩, hhost⟩, hbi⟩, -⟩, hrem⟩ := hs
  simp [releaseHalf, releaseOver, State.holding, Core.holding, hp, drainPicked, hsb, splitSb, Core.dirtyLines, hcv, hbi, State.awaitsAck, hrem, hhost]

end

/-- The effect of a fence. -/
def fenceBody (sc : Scope) : M Next := do
  if sc ≠ .cx then agreed
  releaseHalf sc
  acquireHalf sc
  if beyondCore sc then modCore fun k => { k with fetchBuf := [] }
  pure .seq

theorem exec_fence (sc : Scope) (s : State) : exec (.fence sc) s = perform .any (.fence sc) (fenceBody sc) s := rfl

/-- A fence is its two halves, after which the core's fetch buffer is empty when the scope reaches beyond the core (R215). -/
theorem fenceBody_apply {sc : Scope} {t u v : State} (hp : (t.core t.curCore).pairedWest t.curSlot = false) (hr : releaseHalf sc t = .ok ((), u))
    (ha : acquireHalf sc u = .ok ((), v)) :
    fenceBody sc t = .ok (.seq, if beyondCore sc then v.setCore v.curCore { v.core v.curCore with fetchBuf := [] } else v) := by
  unfold fenceBody
  by_cases hb : beyondCore sc = true
  · obtain rfl | hcx := eq_or_ne sc .cx
    · cases hb
    · simp [hcx, hb, agreed_unpaired hp, hr, ha]
  · obtain rfl | hcx := eq_or_ne sc .cx
    · simp [hb, hr, ha]
    · simp [hcx, hb, agreed_unpaired hp, hr, ha]

/-- The core behind a fence on a machine that is settled. -/
def Core.fencedOff (k : Core) (sc : Scope) : Core := if beyondCore sc then { k with fetchBuf := [] } else k

/-- The effect on a machine that is settled: at most the core's fetch buffer is emptied. -/
theorem fenceBody_settled {s : State} (hp : s.here.pairedWest s.curSlot = false) (hs : s.settled s.curCore s.curSlot = true) (sc : Scope) :
    Runs (fenceBody sc) s s.here s.now .seq (s.here.fencedOff sc) s.now := by
  intro t ht
  have hpt : (t.core t.curCore).pairedWest t.curSlot = false := by
    rw [ht.curCore, ht.curSlot, Core.pairedWest, Core.eq_of_bare Core.pair ht.core]
    exact hp
  have hst : t.settled t.curCore t.curSlot = true := by
    rw [← hs, State.settled, State.settled, ht.curCore, ht.curSlot, Core.eq_of_bare Core.cv ht.core, State.eq_of_bare State.hostLines ht.bare,
      State.eq_of_bare State.biPending ht.bare, State.eq_of_bare State.biOps ht.bare, State.eq_of_bare State.remote ht.bare, State.ctx, ht.ctx]
    rfl
  refine ⟨_, fenceBody_apply hpt (releaseHalf_settled hpt hst sc) (acquireHalf_settled hst sc), ?_⟩
  unfold Core.fencedOff
  split
  · rw [ht.curCore]
    exact ht.setCore (congrArg (fun b : Core => { b with fetchBuf := [] }) ht.core) rfl
  · exact ht

theorem fenceCompletes_holds : fenceCompletes := by
  intro s hs hset sc
  obtain ⟨hp, h1, h2, heaten, -⟩ := State.steady_iff hs
  obtain ⟨t, ht, hl⟩ := (fenceBody_settled hp hset sc).completes hs (exec_fence sc s) rfl (by simp) (by unfold Core.fencedOff; split <;> rfl) h1 h2
  refine ⟨t, ht, ⟨?_, ?_⟩, ?_, hl.peek⟩ <;> rw [hl.now]
  · exact Ctx.counted_of_course rfl heaten 8 .seq
  · exact Ctx.goesOn_of_course rfl 8
  · exact SameRegs.retired rfl rfl rfl 8 .seq

/-- The effect at a scope from cl to nd, whatever the store buffer and the first-level cache hold. -/
theorem fenceBody_empties {s : State} (f : s.FenceFree) {sc : Scope} (hsc : beyondCore sc = true) (hnd : beyondHost sc = false) :
    ∃ v, fenceBody sc s = .ok (.seq, v.setCore s.curCore { v.core s.curCore with fetchBuf := [] }) ∧ HalfMoves s [] v ∧
      (v.core s.curCore).dirtyLines = [] ∧ ∀ e ∈ (v.core s.curCore).cv, discards sc e.1 = false := by
  obtain ⟨u, hu, h1, hclean⟩ := (HalfMoves.refl s).releaseHalf f hsc hnd
  obtain ⟨v, hv, h2, hcv⟩ := h1.acquireHalf f sc
  refine ⟨v, ?_, h2, Core.dirtyLines_of_subset hclean fun e he => (hcv e he).1, fun e he => (hcv e he).2⟩
  rw [fenceBody_apply f.alone.unpaired hu hv, if_pos hsc, h2.curCore]

theorem fenceEmpties_holds : fenceEmpties := by
  intro s hs hd hb hw hu hp ho sc hsc
  have f := State.fenceFree hs hd hb hw hu hp ho
  have hscope : beyondCore sc = true ∧ beyondHost sc = false := by
    obtain rfl | rfl | rfl | rfl := hsc <;> exact ⟨rfl, rfl⟩
  obtain ⟨v, hv, hm, hclean, hcv⟩ := fenceBody_empties f hscope.1 hscope.2
  have hctx : (v.setCore s.curCore { v.core s.curCore with fetchBuf := [] }).ctx s.curCore s.curSlot = v.ctx s.curCore s.curSlot := by
    rw [State.ctx, State.core_setCore, if_pos rfl]
    rfl
  have hex := (exec_fence sc s).trans (perform_ok f.alone.unpaired f.alone.lates rfl hv (by simp)
    (by rw [hctx, hm.eq_ctx Ctx.step1, f.alone.step1]) (by rw [hctx, hm.eq_ctx Ctx.after, f.alone.after])
    (by rw [State.core_setCore, if_pos rfl]; exact hm.unpaired f))
  refine ⟨_, hex, ?_⟩
  rw [hctx]
  simp only [State.now, State.here, State.setCtx_curCore, State.setCtx_curSlot, State.setCore_curCore, State.setCore_curSlot, hm.curCore, hm.curSlot,
    State.ctx_setCtx, State.core_setCtx, State.core_setCore, and_self, if_true]
  refine ⟨?_, hclean, hcv, rfl, SameRegs.retired (hm.eq_ctx Ctx.g) (hm.eq_ctx Ctx.p) (hm.eq_ctx Ctx.marks) _ _⟩
  rw [Ctx.retired'_eq]
  exact hm.sb_eq

/-- Settles O20: on a settled machine the halves of a fence find nothing to do; otherwise its drains and evictions keep what lets the next
one pass, until the store buffer is empty and no line is left that the scope names. -/
theorem fenceResult : Obligations.FenceResult := ⟨fenceCompletes_holds, fenceEmpties_holds⟩

end Sys2Proof.Machine
end

section
/-! SUPPORT. Words with full bits that nobody waits for, and what a router's delivery to its core changes (R133, R361, R362). -/

namespace Sys2Proof.Machine

/-! ### Words that nobody waits for -/

theorem Assoc.get_mem {α : Type} (d : α) (m : Assoc α) (k : Nat) : Assoc.get d m k = d ∨ (k, Assoc.get d m k) ∈ m := by
  rw [Assoc.get_eq_find]
  cases h : Assoc.find m k with
  | none => exact .inl rfl
  | some v => exact .inr (Assoc.mem_of_find h)

theorem Assoc.mem_set {α : Type} [DecidableEq α] {d : α} {m : Assoc α} {k : Nat} {v : α} {e : Nat × α} (h : e ∈ Assoc.set d m k v) :
    e = (k, v) ∨ e ∈ m := by
  unfold Assoc.set at h
  split at h
  · exact .inr (Assoc.mem_del m k e h)
  · exact Assoc.mem_put m k v e h

theorem State.waiters_of_cores {s t : State} (h : t.cores = s.cores) (w : Nat) : t.waiters w = s.waiters w := by
  rw [State.waiters, h, State.waiters]

/-- New registers of a core bring no waiter. -/
theorem State.waiters_setCore {s : State} {w : Nat} (h : s.waiters w = []) {c : Nat} {k : Core} (hk : k.ctxs = (s.core c).ctxs) :
    (s.setCore c k).waiters w = [] := by
  rw [State.waiters, List.flatMap_eq_nil_iff] at h ⊢
  intro e he
  obtain rfl | he := Assoc.mem_set he
  · obtain hr | hm := Assoc.get_mem Core.reset s.cores c
    · rw [show k.ctxs = [] from hk.trans (congrArg Core.ctxs hr)]
      rfl
    · rw [hk]
      exact h _ hm
  · exact h e he

theorem State.grantFull_quiet {s : State} {w : Nat} (h : s.waiters w = []) : s.grantFull w = s := by
  rw [State.grantFull, State.firstWaiter, h]
  rfl

/-- Bits of words are set, and nobody is released. -/
def State.markFulls (s : State) (ws : List Nat) : State := ws.foldl (fun s w => s.setFull w true) s

theorem State.still_markFulls (ws : List Nat) : ∀ s : State, (s.markFulls ws).still = s.still := by
  induction ws with
  | nil => exact fun _ => rfl
  | cons w ws ih => exact fun s => ih (s.setFull w true)

theorem State.peek_markFulls (ws : List Nat) (k : Nat) : ∀ s : State, (s.markFulls ws).peek k = s.peek k := by
  induction ws with
  | nil => exact fun _ => rfl
  | cons w ws ih => exact fun s => ih (s.setFull w true)

theorem State.fullBit_markFulls (ws : List Nat) (k : Nat) : ∀ s : State,
    (s.markFulls ws).fullBit k = (ws.any (fun w => k / 8 = w / 8) || s.fullBit k) := by
  induction ws with
  | nil => exact fun _ => rfl
  | cons w ws ih =>
    intro s
    rw [State.markFulls, List.foldl_cons, ← State.markFulls, ih, State.fullBit_setFull, List.any_cons]
    by_cases h : k / 8 = w / 8 <;> simp [h]

theorem State.setFulls_quiet {s : State} {ws : List Nat} (h : ∀ w ∈ ws, s.waiters w = []) : s.setFulls ws = s.markFulls ws := by
  have hm : ∀ w ∈ ws, (s.markFulls ws).waiters w = [] := fun w hw =>
    (State.waiters_of_cores (State.eq_of_still State.cores (s.still_markFulls ws)) w).trans (h w hw)
  rw [State.setFulls, ← State.markFulls]
  generalize s.markFulls ws = t at hm
  induction ws with
  | nil => rfl
  | cons w ws ih =>
    rw [List.foldl_cons, State.grantFull_quiet (hm w List.mem_cons_self)]
    exact ih (fun v hv => h v (List.mem_cons_of_mem _ hv)) (fun v hv => hm v (List.mem_cons_of_mem _ hv))

theorem quietWords_of_cores {s t : State} {c : Nat} (hq : quietWords s c) (h : t.cores = s.cores) : quietWords t c := fun o =>
  (State.waiters_of_cores h _).trans (hq o)

theorem quietWords_setCore {s : State} {c d : Nat} {k : Core} (hq : quietWords s c) (hk : k.ctxs = (s.core d).ctxs) : quietWords (s.setCore d k) c :=
  fun o => State.waiters_setCore (hq o) hk

/-! ### What boot keeps of a core -/

/-- What the boot protocol keeps in a core. -/
def Core.booting (k : Core) : Core :=
  { Core.reset with
    bootWord := k.bootWord, bootMaps := k.bootMaps, bootImgs := k.bootImgs, bootMode := k.bootMode, bootDone := k.bootDone, bootGo := k.bootGo
    split := k.split, lid := k.lid }

/-- `t` differs from `s` in nothing that the boot protocol keeps in cores. -/
structure SameBooting (s t : State) : Prop where
  core : ∀ d, (t.core d).booting = (s.core d).booting

theorem SameBooting.eq_core {α : Type} {s t : State} (h : SameBooting s t) (f : Core → α) (d : Nat) (hf : ∀ k : Core, f k.booting = f k := by intro; rfl) :
    f (t.core d) = f (s.core d) := by
  rw [← hf (t.core d), h.core d, hf]

theorem SameBooting.refl (s : State) : SameBooting s s := ⟨fun _ => rfl⟩
theorem SameBooting.trans {s t u : State} (h : SameBooting s t) (h' : SameBooting t u) : SameBooting s u :=
  ⟨fun d => (h'.core d).trans (h.core d)⟩

theorem SameBooting.of_cores {s t : State} (h : t.cores = s.cores) : SameBooting s t :=
  ⟨fun d => by rw [State.core, h, State.core]⟩

theorem SameBooting.setCore {s : State} {c : Nat} {k : Core} (h : k.booting = (s.core c).booting) : SameBooting s (s.setCore c k) := by
  refine ⟨fun d => ?_⟩
  rw [State.core_setCore]
  split
  · subst_vars
    exact h
  · rfl

theorem SameBooting.foldl {β : Type} {move : State → β → State} (hm : ∀ t b, SameBooting t (move t b)) (bs : List β) :
    ∀ s : State, SameBooting s (bs.foldl move s) := by
  induction bs with
  | nil => exact .refl
  | cons b bs ih => exact fun s => (hm s b).trans (ih _)

theorem SameBooting.fire (s : State) (c n a : Nat) (who : Option Nat) : SameBooting s (s.fire c n a who) := by
  have hw : ∀ ws, SameBooting s (s.setCore c { s.core c with watches := ws }) := fun ws => .setCore (by rfl)
  dsimp only [State.fire]
  generalize hu : s.setCore c _ = u
  have hu' : SameBooting s u := hu ▸ hw _
  refine hu'.trans ?_
  split
  · split
    · exact .setCore (by rfl)
    · refine .setCore ?_
      unfold Core.notice
      split <;> rfl
  · exact .of_cores (by rfl)

theorem SameBooting.watchOwner (s : State) (keys : List Nat) (k : WatchKind) (by_ : Nat) (who : Option Nat) :
    SameBooting s (s.watchOwner keys k by_ who) := by
  unfold State.watchOwner
  split
  · exact .refl s
  · split
    · refine SameBooting.foldl (fun t n => ?_) _ s
      split
      · exact .fire ..
      · exact .refl t
    · exact .refl s

theorem SameBooting.grantFull (s : State) (w : Nat) : SameBooting s (s.grantFull w) := by
  have hf (ks : List Nat) : SameBooting s (ks.foldl (fun s k => s.setFull k false) s) := .foldl (fun t _ => .of_cores (by rfl)) ks s
  unfold State.grantFull
  split
  · dsimp only
    split
    · exact (hf _).trans (.trans (t := State.setCtx _ _ _ _) (.setCore (by rfl)) (.watchOwner ..))
    · exact .refl s
  · exact .refl s

theorem SameBooting.setFulls (s : State) (ws : List Nat) : SameBooting s (s.setFulls ws) := by
  have hm : SameBooting s (s.markFulls ws) := .of_cores (State.eq_of_still State.cores (s.still_markFulls ws))
  exact hm.trans (.foldl .grantFull ws _)

theorem SameBooting.bootWrite (s : State) (c off : Nat) (bs : List Byte) : SameBooting s (s.bootWrite c off bs) :=
  .trans (t := s.writeH _ false) (.of_cores (s.cores_writeH ..)) (.setFulls ..)

/-- A delivery changes nothing that boot keeps of a core but what the router holds for it. -/
theorem SameBooting.bootPut (s : State) (c off : Nat) (bs : List Byte) : SameBooting s (s.bootPut c off bs) := by
  unfold State.bootPut
  split
  · exact .refl s
  · split
    · exact .setCore rfl
    · exact .bootWrite ..

/-! ### Deliveries to a core -/

/-- The keys of the words that some bytes from an offset on reach into. -/
def wordsAt (c off n : Nat) : List Nat := (List.range ((n + 7) / 8)).map fun i => keyScratch c (off + 8 * i)

theorem keyScratch_add (c off i : Nat) : keyScratch c (off + i) = keyScratch c off + i := by
  simp only [keyScratch]
  omega

theorem State.bootWrite_quiet {s : State} {c : Nat} (hq : quietWords s c) (off : Nat) (bs : List Byte) :
    s.bootWrite c off bs = (s.writeH (consecutive (keyScratch c off) bs) false).markFulls (wordsAt c off bs.length) := by
  have hc : ((List.range bs.length).map fun i => keyScratch c (off + i)).zip bs = consecutive (keyScratch c off) bs := by
    simp only [consecutive, keyScratch_add]
  rw [State.bootWrite, hc]
  refine State.setFulls_quiet fun w hw => ?_
  obtain ⟨i, -, rfl⟩ := List.mem_map.1 hw
  exact quietWords_of_cores hq (State.cores_writeH ..) _

/-- What a delivery to core `c`, for whose words nobody waits, leaves as it was: all but the bytes and the full bits of its scratchpad, and
what the router holds for it. -/
structure Delivers (c : Nat) (s t : State) : Prop where
  bare : t.bare.still = s.bare.still
  booting : SameBooting s t
  quiet : quietWords s c → quietWords t c

/-- A part of the machine outside its cores that a delivery keeps. -/
theorem Delivers.eq {α : Type} {c : Nat} {s t : State} (h : Delivers c s t) (f : State → α) (hf : ∀ b : State, f b.bare.still = f b := by intro; rfl) :
    f t = f s := by
  rw [← hf t, h.bare, hf]

theorem Delivers.takesBoot {c : Nat} {s t : State} (h : Delivers c s t) (ht : takesBoot s c) : takesBoot t c :=
  ⟨(h.eq (State.healthy · c)).trans ht.1, (h.booting.eq_core Core.split c) ▸ ht.2⟩

theorem State.bootPut_delivers {s : State} {c : Nat} (hq : quietWords s c) (off : Nat) (bs : List Byte) : Delivers c s (s.bootPut c off bs) := by
  refine ⟨?_, .bootPut .., fun _ => ?_⟩ <;> unfold State.bootPut <;> split
  · rfl
  · split
    · rfl
    · rw [State.bootWrite_quiet hq]
      exact congrArg State.bare ((State.still_markFulls _ _).trans (State.still_writeH ..))
  · exact hq
  · split
    · exact quietWords_setCore hq rfl
    · rw [State.bootWrite_quiet hq]
      exact quietWords_of_cores hq (State.eq_of_still State.cores ((State.still_markFulls _ _).trans (State.still_writeH ..)))

theorem State.bootPut_takes {s : State} {c : Nat} (hq : quietWords s c) (ht : takesBoot s c) (off : Nat) (bs : List Byte) :
    s.bootPut c off bs = (s.writeH (consecutive (keyScratch c off) bs) false).markFulls (wordsAt c off bs.length) := by
  rw [State.bootPut, if_neg (by simp [ht.1]), if_neg ht.2, State.bootWrite_quiet hq]

/-- Bytes beside those that are delivered stay. -/
theorem State.peek_bootPut_other {s : State} {c : Nat} (hq : quietWords s c) {off k : Nat} {bs : List Byte}
    (h : ¬(keyScratch c off ≤ k ∧ k < keyScratch c off + bs.length)) : (s.bootPut c off bs).peek k = s.peek k := by
  unfold State.bootPut
  split
  · rfl
  · split
    · rfl
    · rw [State.bootWrite_quiet hq, State.peek_markFulls, State.peek_consecutive_other h]

theorem State.fullBit_bootPut_other {s : State} {c : Nat} (hq : quietWords s c) {off k : Nat} {bs : List Byte}
    (h : ∀ w ∈ wordsAt c off bs.length, k / 8 ≠ w / 8) : (s.bootPut c off bs).fullBit k = s.fullBit k := by
  unfold State.bootPut
  split
  · rfl
  · split
    · rfl
    · have hany : ((wordsAt c off bs.length).any fun w => k / 8 = w / 8) = false := by
        simpa using fun w hw => h w hw
      rw [State.bootWrite_quiet hq, State.fullBit_markFulls, hany, State.fullBit_writeH, Bool.false_or]

/-- What is delivered reads back, and its words are full. -/
theorem State.peeks_bootPut {s : State} {c : Nat} (hq : quietWords s c) (ht : takesBoot s c) (off : Nat) (bs : List Byte) :
    (s.bootPut c off bs).peeks (keyScratch c off) bs.length = bs := by
  rw [State.bootPut_takes hq ht, State.peeks_congr fun i _ => State.peek_markFulls _ _ _]
  exact State.peeks_writeH ..

theorem State.fullBit_bootPut {s : State} {c : Nat} (hq : quietWords s c) (ht : takesBoot s c) {off : Nat} {bs : List Byte} (hb : bs ≠ []) :
    (s.bootPut c off bs).fullBit (keyScratch c off) = true := by
  have hl : 0 < bs.length := List.length_pos_iff.2 hb
  have hany : ((wordsAt c off bs.length).any fun w => keyScratch c off / 8 = w / 8) = true :=
    List.any_eq_true.2 ⟨keyScratch c off, List.mem_map.2 ⟨0, List.mem_range.2 (by omega), rfl⟩, by simp⟩
  rw [State.bootPut_takes hq ht, State.fullBit_markFulls, hany, Bool.true_or]

end Sys2Proof.Machine
end

section
/-! SUPPORT. What cores send through their out slots at boot (R361 to R363, R365). -/

namespace Sys2Proof.Machine

theorem State.outSlot_eq {s t : State} {c kind seq : Nat} {pay : List Byte} (h : s.outSlot c = some (kind, seq, pay, t)) :
    t = s.setFull (keyScratch c 0x40) false := by
  unfold State.outSlot at h
  dsimp only at h
  split at h
  · simp only [Option.some.injEq, Prod.mk.injEq] at h
    exact h.2.2.2.symm
  · cases h

theorem State.fullBit_outSlot {s t : State} {c kind seq : Nat} {pay : List Byte} (h : s.outSlot c = some (kind, seq, pay, t)) :
    t.fullBit (keyScratch c 0x40) = false := by
  rw [State.outSlot_eq h, State.fullBit_setFull, if_pos rfl]

theorem State.castOut_eq {s : State} {c : Nat} {w : Word} (hw : (s.core c).bootWord = some w) (kind seq : Nat) (pay : List Byte) :
    s.castOut c kind seq pay = State.outAck { s with net := s.net ++ castFlits c w kind seq pay } c := by
  rw [State.castOut, hw]
  rfl

theorem takesBoot_of_core {s t : State} {c : Nat} (hf : t.flash = s.flash) (hs : (t.core c).split = (s.core c).split) (h : takesBoot s c) :
    takesBoot t c :=
  ⟨by rw [State.healthy, hf]; exact h.1, hs ▸ h.2⟩

/-- OUTACK becomes full, and OUTHDR stays empty. -/
theorem State.fullBit_outAck {s : State} {c : Nat} (hq : quietWords s c) (hf : s.fullBit (keyScratch c 0x40) = false) (ht : takesBoot s c) :
    (s.outAck c).fullBit (keyScratch c 0x40) = false ∧ (s.outAck c).fullBit (keyScratch c 0x10) = true := by
  refine ⟨(State.fullBit_bootPut_other hq fun w hw => ?_).trans hf, State.fullBit_bootPut hq ht (by simp)⟩
  obtain ⟨i, hi, rfl⟩ := List.mem_map.1 hw
  have hi : i < 1 := List.mem_range.1 hi
  simp only [keyScratch, bootOUTACK]
  omega

/-- What goes out of a slot: `v` is the state that OUTACK is delivered in. -/
theorem happens_outAck {i : Instr} {s t v : State} {c kind seq : Nat} {pay : List Byte} {q : State → Prop}
    (ho : s.outSlot c = some (kind, seq, pay, t)) (hx : exec i s = .next (v.outAck c)) (hfull : v.full = t.full)
    (hflash : v.flash = s.flash) (hcore : quietWords v c ∧ (v.core c).split = (s.core c).split) (h : Delivers c v (v.outAck c) → q (v.outAck c)) :
    happens i s fun u => (takesBoot s c → u.fullBit (keyScratch c 0x40) = false ∧ u.fullBit (keyScratch c 0x10) = true) ∧ q u := by
  obtain ⟨hqv, hs⟩ := hcore
  have hf : v.fullBit (keyScratch c 0x40) = false := by
    rw [State.fullBit, hfull]
    exact State.fullBit_outSlot ho
  exact ⟨_, hx, fun ht => State.fullBit_outAck hqv hf (takesBoot_of_core hflash hs ht), h (State.bootPut_delivers hqv ..)⟩

/-- A router takes its coordinates. -/
def State.takeWord (s : State) (c : Nat) (w : Word) : State := s.setCore c { s.core c with bootWord := some w }

theorem State.core_setCore_same (s : State) (c : Nat) (k : Core) : (s.setCore c k).core c = k := by simp

section
variable (s : State) (c : Nat) (w : Word)

theorem State.bootWord_takeWord : ((s.takeWord c w).core c).bootWord = some w := by
  rw [State.takeWord, State.core_setCore_same]

theorem State.split_takeWord : ((s.takeWord c w).core c).split = (s.core c).split := by
  rw [State.takeWord, State.core_setCore_same]

theorem quietWords_takeWord {s : State} {c : Nat} (hq : quietWords s c) (w : Word) : quietWords (s.takeWord c w) c := quietWords_setCore hq rfl

end

section
variable {s t : State} {seq : Nat} {pay : List Byte}

theorem exec_bootDisc (ho : s.outSlot s.input.core = some (1, seq, pay, t)) :
    let c := s.input.core
    let w : Word := BitVec.ofNat 64 (bitsOfBytes (pay.take 8))
    exec .bootDisc s =
      .next (State.outAck { t.takeWord c w with bootStage := 2, net := t.net ++ floodFlits c w } c) := by
  show execBootDisc s = _
  rw [execBootDisc]
  dsimp only
  rw [ho]
  rfl

variable {w : Word} (hw : (t.core s.input.core).bootWord = some w)
include hw

theorem exec_bootMap (ho : s.outSlot s.input.core = some (2, seq, pay, t)) :
    exec .bootMap s = .next (State.outAck { t with
      bootStage := if seq = 0 then 3 else t.bootStage, net := t.net ++ castFlits s.input.core w 2 seq pay } s.input.core) := by
  show execBootMap s = _
  rw [execBootMap]
  rw [ho]
  exact congrArg Host.Outcome.next (State.castOut_eq (s := { t with bootStage := if seq = 0 then 3 else t.bootStage }) hw 2 seq pay)

theorem exec_bootImg (ho : s.outSlot s.input.core = some (3, seq, pay, t)) :
    exec .bootImg s = .next (State.outAck { t with net := t.net ++ castFlits s.input.core w 3 seq pay } s.input.core) := by
  show execBootImg s = _
  rw [execBootImg]
  rw [ho]
  exact congrArg Host.Outcome.next (State.castOut_eq hw 3 seq pay)

theorem exec_bootGo (ho : s.outSlot s.input.core = some (5, seq, pay, t)) :
    exec .bootGo s = .next (State.outAck { t with net := t.net ++ castFlits s.input.core w 5 0 [] } s.input.core) := by
  show execBootGo s = _
  rw [execBootGo]
  rw [ho]
  exact congrArg Host.Outcome.next (State.castOut_eq hw 5 0 [])

end

theorem exec_bootStage {s t : State} {seq : Nat} {pay : List Byte} (ho : s.outSlot s.input.core = some (4, seq, pay, t)) :
    let v := bitsOfBytes (pay.take 4)
    exec .bootStage s = .next (State.outAck { t with bootDetail := BitVec.ofNat 16 (v / 2 ^ 16), bootStage := BitVec.ofNat 4 v } s.input.core) := by
  show execBootStage s = _
  rw [execBootStage]
  dsimp only
  rw [ho]
  rfl

/-- R361 to R363: what a core puts into its out slot goes out by its kind. -/
theorem bootOut_holds : bootOut := by
  intro s kind seq pay t ho hq c
  have ht := State.outSlot_eq ho
  have hqt {v : State} (h : v.cores = t.cores) : quietWords v c ∧ (v.core c).split = (s.core c).split := by
    have hc : v.cores = s.cores := h.trans (by rw [ht]; rfl)
    exact ⟨quietWords_of_cores hq hc, by rw [State.core, hc, State.core]⟩
  have hw : (t.core c).bootWord = (s.core c).bootWord := by rw [ht]; rfl
  have hn : t.net = s.net := by rw [ht]; rfl
  have hs : t.bootStage = s.bootStage := by rw [ht]; rfl
  have hf : t.flash = s.flash := by rw [ht]; rfl
  refine ⟨?_, fun w hw' => ⟨?_, ?_, ?_⟩, ?_⟩ <;> rintro rfl
  case _ =>
    refine happens_outAck ho (exec_bootDisc ho) rfl hf ⟨?_, ?_⟩ fun hd => ⟨hd.eq State.bootStage, ?_, ?_⟩
    · exact quietWords_of_cores (quietWords_takeWord (hqt rfl).1 _) rfl
    · exact (t.split_takeWord c _).trans (hqt rfl).2
    · exact (hd.booting.eq_core Core.bootWord c).trans (t.bootWord_takeWord c _)
    · exact (hd.eq State.net).trans (congrArg (· ++ floodFlits c _) hn)
  case _ =>
    refine happens_outAck ho (exec_bootMap (hw.trans hw') ho) rfl hf (hqt rfl) fun hd => ⟨?_, ?_⟩
    · exact (hd.eq State.net).trans (congrArg (· ++ castFlits c w 2 seq pay) hn)
    · exact (hd.eq State.bootStage).trans (congrArg (if seq = 0 then 3 else ·) hs)
  case _ =>
    refine happens_outAck ho (exec_bootImg (hw.trans hw') ho) rfl hf (hqt rfl) fun hd => ⟨?_, (hd.eq State.bootStage).trans hs⟩
    exact (hd.eq State.net).trans (congrArg (· ++ castFlits c w 3 seq pay) hn)
  case _ =>
    refine happens_outAck ho (exec_bootGo (hw.trans hw') ho) rfl hf (hqt rfl) fun hd => ⟨?_, (hd.eq State.bootStage).trans hs⟩
    exact (hd.eq State.net).trans (congrArg (· ++ castFlits c w 5 0 []) hn)
  case _ =>
    exact happens_outAck ho (exec_bootStage ho) rfl hf (hqt rfl) fun hd =>
      ⟨hd.eq State.bootStage, hd.eq State.bootDetail, (hd.eq State.net).trans hn⟩

end Sys2Proof.Machine
end

section
/-! SUPPORT. When DONE is reached, and what a router does with the flits of boot (R364 to R366, R17). -/

namespace Sys2Proof.Machine

/-! ### DONE (R364, R365) -/

/-- The packets of a router with discovery word `w` are there, and the host holds back none of its image. -/
def State.bootReady (s : State) (c : Nat) (w : Word) : Prop :=
  bootMapTotal w ≤ (s.core c).bootMaps ∧ discImages w ≤ (s.core c).bootImgs ∧
    ∀ e ∈ s.biPending, ¬(keyVault c 0 ≤ e.1 * 64 ∧ e.1 * 64 < keyVault c (64 * discImages w))

/-- DONE, for a router whose packets are there. -/
def State.bootFinish (s : State) (c : Nat) (w : Word) : State :=
  let t := (s.setCore c { s.core c with bootDone := true, bootGo := false }).bootPut c bootDONE (bytesOfBits 8 (bootMapTotal w + discImages w))
  if (s.core c).bootGo then t.bootPut c bootGO (List.replicate 8 0) else t

theorem State.bootSettle_done {s : State} {c : Nat} {w : Word} (hw : (s.core c).bootWord = some w) (hd : (s.core c).bootDone = true) :
    s.bootSettle c = s := by
  simp [State.bootSettle, hw, hd]

theorem State.bootSettle_ready {s : State} {c : Nat} {w : Word} (hw : (s.core c).bootWord = some w) (hm : (s.core c).bootMode = true)
    (hd : (s.core c).bootDone = false) (hr : s.bootReady c w) : s.bootSettle c = s.bootFinish c w := by
  obtain ⟨hmaps, himgs, hb⟩ := hr
  have hl : (s.biPending.any fun e => keyVault c 0 ≤ e.1 * 64 && e.1 * 64 < keyVault c (64 * discImages w)) = false := by
    simpa using hb
  dsimp only [State.bootSettle]
  split
  case _ h => rw [hw] at h; cases h
  case _ v h =>
    obtain rfl : w = v := Option.some.inj (hw.symm.trans h)
    rw [hl, if_pos (by simp [hm, hd, hmaps, himgs])]
    rfl

theorem State.bootSettle_waits {s : State} {c : Nat} {w : Word} (hw : (s.core c).bootWord = some w) (hr : ¬s.bootReady c w) :
    s.bootSettle c = s := by
  rw [State.bootSettle]
  dsimp only
  rw [hw]
  dsimp only
  refine if_neg fun h => hr ?_
  simp only [Bool.and_eq_true, decide_eq_true_eq, Bool.not_eq_true', List.any_eq_false] at h
  obtain ⟨⟨⟨-, hmaps⟩, himgs⟩, hb⟩ := h
  exact ⟨hmaps, himgs, hb⟩

theorem SameBooting.bootFinish (s : State) (c : Nat) (w : Word) :
    SameBooting (s.setCore c { s.core c with bootDone := true, bootGo := false }) (s.bootFinish c w) := by
  unfold State.bootFinish
  dsimp only
  split
  · exact (SameBooting.bootPut ..).trans (.bootPut ..)
  · exact .bootPut ..

/-- A router whose packets are there has reached DONE. -/
theorem State.bootDone_bootSettle {s : State} {c : Nat} {w : Word} (hw : (s.core c).bootWord = some w) (hm : (s.core c).bootMode = true)
    (hr : s.bootReady c w) : ((s.bootSettle c).core c).bootDone = true := by
  cases hd : (s.core c).bootDone with
  | true => rw [State.bootSettle_done hw hd, hd]
  | false =>
    rw [State.bootSettle_ready hw hm hd hr, (SameBooting.bootFinish s c w).eq_core Core.bootDone c, State.core_setCore_same]

/-- What DONE leaves as it was: everything beside the boot words below 0x38 in the core's scratchpad, and what the router itself remembers. -/
structure Settles (c : Nat) (s t : State) : Prop where
  bare : t.bare.still = s.bare.still
  maps : (t.core c).bootMaps = (s.core c).bootMaps
  images : (t.core c).bootImgs = (s.core c).bootImgs
  quiet : quietWords s c → quietWords t c
  peek : ∀ k, ¬(keyScratch c 0 ≤ k ∧ k < keyScratch c 0x38) → t.peek k = s.peek k

theorem Settles.refl (c : Nat) (s : State) : Settles c s s := ⟨rfl, rfl, rfl, id, fun _ _ => rfl⟩

theorem Settles.trans {c : Nat} {s t u : State} (h : Settles c s t) (h' : Settles c t u) : Settles c s u :=
  ⟨h'.bare.trans h.bare, h'.maps.trans h.maps, h'.images.trans h.images, fun hq => h'.quiet (h.quiet hq),
    fun k hk => (h'.peek k hk).trans (h.peek k hk)⟩

theorem Settles.eq {α : Type} {c : Nat} {s t : State} (h : Settles c s t) (f : State → α) (hf : ∀ b : State, f b.bare.still = f b := by intro; rfl) :
    f t = f s := by
  rw [← hf t, h.bare, hf]

theorem Settles.bootPut {s : State} {c off : Nat} (hq : quietWords s c) {bs : List Byte} (h : off + bs.length ≤ 0x38) :
    Settles c s (s.bootPut c off bs) := by
  have hd := State.bootPut_delivers hq off bs
  refine ⟨hd.bare, hd.booting.eq_core Core.bootMaps c, hd.booting.eq_core Core.bootImgs c, hd.quiet, fun k hk => State.peek_bootPut_other hq ?_⟩
  simp only [keyScratch] at hk ⊢
  omega

theorem Settles.bootFinish {s : State} {c : Nat} (hq : quietWords s c) (w : Word) : Settles c s (s.bootFinish c w) := by
  have hset : Settles c s (s.setCore c { s.core c with bootDone := true, bootGo := false }) :=
    ⟨rfl, by rw [State.core_setCore_same], by rw [State.core_setCore_same], fun hq => quietWords_setCore hq rfl, fun _ _ => rfl⟩
  have hdone := hset.trans (.bootPut (off := bootDONE) (hset.quiet hq) (bs := bytesOfBits 8 (bootMapTotal w + discImages w))
    (by rw [bytesOfBits_length]; decide))
  unfold State.bootFinish
  dsimp only
  split
  · exact hdone.trans (.bootPut (hdone.quiet hq) (by decide))
  · exact hdone

theorem Settles.bootSettle {s : State} {c : Nat} {w : Word} (hq : quietWords s c) (hw : (s.core c).bootWord = some w)
    (hm : (s.core c).bootMode = true) : Settles c s (s.bootSettle c) := by
  by_cases hr : s.bootReady c w
  · cases hd : (s.core c).bootDone with
    | true => rw [State.bootSettle_done hw hd]; exact .refl c s
    | false => rw [State.bootSettle_ready hw hm hd hr]; exact .bootFinish hq w
  · rw [State.bootSettle_waits hw hr]
    exact .refl c s

/-- A router that has counted `maps` map packets and `images` image packets, and has reached DONE if that was the last of them. -/
def bootCounted (s : State) (c : Nat) (w : Word) (maps images : Nat) (u : State) : Prop :=
  (u.core c).bootMaps = maps ∧ (u.core c).bootImgs = images ∧
    (bootMapTotal w ≤ maps → discImages w ≤ images →
      (∀ e ∈ u.biPending, ¬(keyVault c 0 ≤ e.1 * 64 ∧ e.1 * 64 < keyVault c (64 * discImages w))) → (u.core c).bootDone = true) ∧
    (maps < bootMapTotal w ∨ images < discImages w → (u.core c).bootDone = (s.core c).bootDone)

theorem bootCounted_bootSettle {s v : State} {c : Nat} {w : Word} (hq : quietWords v c) (hw : (v.core c).bootWord = some w)
    (hm : (v.core c).bootMode = true) (hd : (v.core c).bootDone = (s.core c).bootDone) :
    bootCounted s c w (v.core c).bootMaps (v.core c).bootImgs (v.bootSettle c) := by
  have h := Settles.bootSettle hq hw hm
  refine ⟨h.maps, h.images, fun hmaps himgs hb => ?_, fun hless => ?_⟩
  · exact State.bootDone_bootSettle hw hm ⟨hmaps, himgs, h.eq State.biPending ▸ hb⟩
  · rw [State.bootSettle_waits hw fun ⟨hmaps, himgs, _⟩ => by omega, hd]

end Sys2Proof.Machine
end

section
/-! SUPPORT. What a router in boot mode does with a flit (R364 to R366, R17). -/

namespace Sys2Proof.Machine

theorem not_bnot {b : Bool} (h : b = true) : ¬(!b) = true := by simp [h]

theorem State.bootArrival_eq {s t : State} {i c : Nat} {p : Packet} (h : s.bootArrival i = some (c, p, t)) :
    t = { s with net := s.net.eraseIdx i } := by
  unfold State.bootArrival at h
  split at h
  · obtain ⟨f, -, hf⟩ := Option.map_eq_some_iff.1 h
    simp only [Prod.mk.injEq] at hf
    exact hf.2.2.symm
  · cases h

/-! ### Discovery (R364) -/

/-- The discovery word of a router that the flood reaches by a flit with the word `w` of its sender. -/
def discOn (alongX : Bool) (w : Word) : Word :=
  if alongX then discAt w (oneOn (bootEast w) (discX w)) (discY w) else discAt w (discX w) (oneOn (bootSouth w) (discY w))

section
variable {s t : State} {c src : Nat} {alongX : Bool} {w : Word} (ha : s.bootArrival s.input.index = some (c, .bootDisc src alongX w, t))
include ha

/-- A router that has its coordinates drops a discovery flit. -/
theorem exec_bootDiscoveryFlit_known (hw : (t.core c).bootWord.isSome = true) : exec .bootDiscoveryFlit s = .next t := by
  show execBootDiscoveryFlit s = _
  rw [execBootDiscoveryFlit, ha]
  exact if_pos (by simp [hw])

theorem exec_bootDiscoveryFlit_new (hw : (t.core c).bootWord = none) (hm : (t.core c).bootMode = true) :
    let v := discOn alongX w
    exec .bootDiscoveryFlit s =
      .next (State.bootPut { t.takeWord c v with net := t.net ++ floodFlits c v } c bootDISC (bytesOfBits 8 v.toNat)) := by
  show execBootDiscoveryFlit s = _
  rw [execBootDiscoveryFlit, ha]
  exact if_neg (by simp [hw, hm])

end

/-! ### Map packets, image packets and GO (R365) -/

/-- The flit that an event takes out of the net goes on from its router. -/
def State.passOn (s : State) (c : Nat) (w : Word) (kind seq : Nat) (data : List Byte) : State :=
  { s with net := s.net.eraseIdx s.input.index ++ castFlits c w kind seq data }

section
variable {s t : State} {c src kind seq : Nat} {data : List Byte} {w : Word}

theorem exec_bootMulticastFlit_map (ha : s.bootArrival s.input.index = some (c, .bootCast src 2 seq data, t))
    (hw : (s.core c).bootWord = some w) (hm : (s.core c).bootMode = true) :
    let put := (s.passOn c w 2 seq data).bootPut c (bootMAP + 64 * seq) data
    exec .bootMulticastFlit s = .next ((put.setCore c { put.core c with bootMaps := (put.core c).bootMaps + 1 }).bootSettle c) := by
  obtain rfl := State.bootArrival_eq ha
  show execBootMulticastFlit s = _
  rw [execBootMulticastFlit, ha]
  dsimp only
  rw [show (State.core { s with net := s.net.eraseIdx s.input.index } c).bootWord = some w from hw]
  exact if_neg (not_bnot hm)

theorem exec_bootMulticastFlit_image (ha : s.bootArrival s.input.index = some (c, .bootCast src 3 seq data, t))
    (hw : (s.core c).bootWord = some w) (hm : (s.core c).bootMode = true) :
    let key := keyVault c (64 * seq)
    let put := ((s.passOn c w 3 seq data).homeWrite (((List.range 64).map (key + ·)).zip data) false).touchSlice c key false
    exec .bootMulticastFlit s = .next ((put.setCore c { put.core c with bootImgs := (put.core c).bootImgs + 1 }).bootSettle c) := by
  obtain rfl := State.bootArrival_eq ha
  show execBootMulticastFlit s = _
  rw [execBootMulticastFlit, ha]
  dsimp only
  rw [show (State.core { s with net := s.net.eraseIdx s.input.index } c).bootWord = some w from hw]
  exact if_neg (not_bnot hm)

theorem exec_bootMulticastFlit_go (ha : s.bootArrival s.input.index = some (c, .bootCast src 5 seq data, t))
    (hw : (s.core c).bootWord = some w) (hm : (s.core c).bootMode = true) :
    let on := s.passOn c w 5 seq data
    exec .bootMulticastFlit s = .next (if (s.core c).bootDone then on.bootPut c bootGO (List.replicate 8 0)
      else on.setCore c { on.core c with bootGo := true }) := by
  obtain rfl := State.bootArrival_eq ha
  show execBootMulticastFlit s = _
  rw [execBootMulticastFlit, ha]
  dsimp only
  rw [show (State.core { s with net := s.net.eraseIdx s.input.index } c).bootWord = some w from hw]
  refine (if_neg (not_bnot hm)).trans ?_
  exact (apply_ite Host.Outcome.next _ _ _).symm

end

/-- A map packet that is delivered goes into its place, and the router counts it. -/
theorem mapPacket_delivered {s : State} {c seq : Nat} {data : List Byte} {w : Word} (hw : (s.core c).bootWord = some w)
    (hm : (s.core c).bootMode = true) (hq : quietWords s c) :
    let put := s.bootPut c (bootMAP + 64 * seq) data
    let u := (put.setCore c { put.core c with bootMaps := (put.core c).bootMaps + 1 }).bootSettle c
    u.net = s.net ∧ bootCounted s c w ((s.core c).bootMaps + 1) (s.core c).bootImgs u ∧
      (takesBoot s c → u.peeks (keyScratch c (0x400 + 64 * seq)) data.length = data) := by
  intro put u
  have hd := State.bootPut_delivers hq (bootMAP + 64 * seq) data
  have hsame {α : Type} (f : Core → α) (hf : ∀ k : Core, f k.booting = f k := by intro; rfl) : f (put.core c) = f (s.core c) :=
    hd.booting.eq_core f c hf
  let v := put.setCore c { put.core c with bootMaps := (put.core c).bootMaps + 1 }
  have hv : v.core c = { put.core c with bootMaps := (put.core c).bootMaps + 1 } := State.core_setCore_same ..
  have hqv : quietWords v c := quietWords_setCore (hd.quiet hq) rfl
  have hwv : (v.core c).bootWord = some w := by rw [hv]; exact (hsame Core.bootWord).trans hw
  have hmv : (v.core c).bootMode = true := by rw [hv]; exact (hsame Core.bootMode).trans hm
  have hdv : (v.core c).bootDone = (s.core c).bootDone := by rw [hv]; exact hsame Core.bootDone
  have hs : Settles c v u := .bootSettle hqv hwv hmv
  refine ⟨(hs.eq State.net).trans (hd.eq State.net), ?_, fun ht => ?_⟩
  · have hcount := bootCounted_bootSettle (s := s) hqv hwv hmv hdv
    rwa [hv, show (put.core c).bootMaps + 1 = _ from congrArg (· + 1) (hsame Core.bootMaps), hsame Core.bootImgs] at hcount
  · have hp (i : Nat) : u.peek (keyScratch c (bootMAP + 64 * seq) + i) = put.peek (keyScratch c (bootMAP + 64 * seq) + i) := by
      refine hs.peek _ ?_
      simp only [keyScratch, bootMAP]
      omega
    exact (State.peeks_congr fun i _ => hp i).trans (State.peeks_bootPut hq ht (bootMAP + 64 * seq) data)

/-- An image packet that has been written, or waits for the host, is counted. -/
theorem imagePacket_counted {s put : State} {c : Nat} {w : Word} (hc : put.cores = s.cores) (hw : (s.core c).bootWord = some w)
    (hm : (s.core c).bootMode = true) (hq : quietWords s c) :
    let u := (put.setCore c { put.core c with bootImgs := (put.core c).bootImgs + 1 }).bootSettle c
    u.net = put.net ∧ u.biPending = put.biPending ∧ bootCounted s c w (s.core c).bootMaps ((s.core c).bootImgs + 1) u ∧
      ∀ k, keySpace k = 0 → u.peek k = put.peek k := by
  intro u
  have hk : put.core c = s.core c := by rw [State.core, hc, State.core]
  let v := put.setCore c { put.core c with bootImgs := (put.core c).bootImgs + 1 }
  have hv : v.core c = { s.core c with bootImgs := (s.core c).bootImgs + 1 } := (State.core_setCore_same ..).trans (by rw [hk])
  have hqv : quietWords v c := quietWords_setCore (quietWords_of_cores hq hc) rfl
  have hwv : (v.core c).bootWord = some w := by rw [hv]; exact hw
  have hmv : (v.core c).bootMode = true := by rw [hv]; exact hm
  have hdv : (v.core c).bootDone = (s.core c).bootDone := by rw [hv]
  have hs : Settles c v u := .bootSettle hqv hwv hmv
  refine ⟨hs.eq State.net, hs.eq State.biPending, ?_, fun k h0 => hs.peek k ?_⟩
  · have hcount := bootCounted_bootSettle (s := s) hqv hwv hmv hdv
    rwa [hv] at hcount
  · simp only [keySpace, keyScratch] at h0 ⊢
    omega

/-- A device line that the host does not hold takes bytes at once. -/
theorem State.homeWrite_device {s : State} {k : Nat} {b : Byte} {cells : List (Nat × Byte)} (hs : keySpace k = 0)
    (hd : Assoc.find s.directory (k / 64) = none) (p : Bool) : s.homeWrite ((k, b) :: cells) p = s.writeH ((k, b) :: cells) p := by
  have ht : s.takeHost (k / 64) = s := if_neg fun h => by
    simp only [keySpace] at hs
    omega
  rw [State.homeWrite]
  dsimp only
  rw [if_neg (by simp [hd]), ht, if_neg (by simp [hs])]

/-- A write to a device line that the host holds waits. -/
theorem State.homeWrite_held {s : State} {k : Nat} {b : Byte} {cells : List (Nat × Byte)} (hs : keySpace k = 0)
    (hd : (Assoc.find s.directory (k / 64)).isSome = true) (p : Bool) :
    s.homeWrite ((k, b) :: cells) p = { s with biPending := s.biPending ++ [(k / 64, (k, b) :: cells, p)] } := by
  rw [State.homeWrite]
  exact if_pos ⟨hs, hd⟩

theorem consecutive_eq_cons {k n : Nat} {bs : List Byte} (h : bs.length = n + 1) :
    ∃ b cells, consecutive k bs = (k, b) :: cells := by
  cases bs with
  | nil => cases h
  | cons b bs =>
    refine ⟨b, ?_, ?_⟩
    rotate_left
    · rw [consecutive, List.length_cons, List.range_succ_eq_map, List.map_cons, List.zip_cons_cons, Nat.add_zero]

/-! ### The clauses -/

theorem discoveryFlit_holds (s : State) (c src : Nat) (alongX : Bool) (w : Word) (t : State)
    (ha : s.bootArrival s.input.index = some (c, .bootDisc src alongX w, t)) :
    ((s.core c).bootWord.isSome = true → happens .bootDiscoveryFlit s fun u => u = { s with net := s.net.eraseIdx s.input.index }) ∧
      ((s.core c).bootWord = none → (s.core c).bootMode = true → quietWords s c →
        let v := discOn alongX w
        happens .bootDiscoveryFlit s fun u => (u.core c).bootWord = some v ∧ u.net = s.net.eraseIdx s.input.index ++ floodFlits c v ∧
          (takesBoot s c → u.peekNat (keyScratch c 0) 8 = v.toNat ∧ u.fullBit (keyScratch c 0) = true)) := by
  obtain rfl := State.bootArrival_eq ha
  refine ⟨fun hw => ⟨_, exec_bootDiscoveryFlit_known ha hw, rfl⟩, fun hw hm hq => ?_⟩
  intro v
  refine ⟨_, exec_bootDiscoveryFlit_new ha hw hm, ?_⟩
  generalize hon : ({ State.takeWord _ c _ with net := _ } : State) = on
  have hc : on.cores = (s.takeWord c v).cores := by rw [← hon]; rfl
  have hcore : on.core c = (s.takeWord c v).core c := by rw [State.core, hc, State.core]
  have hqo : quietWords on c := quietWords_of_cores (quietWords_takeWord hq v) hc
  have hd := State.bootPut_delivers hqo bootDISC (bytesOfBits 8 v.toNat)
  refine ⟨?_, ?_, fun ht => ?_⟩
  · exact (hd.booting.eq_core Core.bootWord c).trans (by rw [hcore]; exact s.bootWord_takeWord c v)
  · exact (hd.eq State.net).trans (by rw [← hon])
  · have hto : takesBoot on c := takesBoot_of_core (by rw [← hon]; rfl) (by rw [hcore]; exact s.split_takeWord c v) ht
    have hp := State.peeks_bootPut hqo hto bootDISC (bytesOfBits 8 v.toNat)
    rw [bytesOfBits_length] at hp
    refine ⟨(congrArg bitsOfBytes hp).trans (bitsOfBytes_word v), State.fullBit_bootPut hqo hto ?_⟩
    exact List.ne_nil_of_length_eq_add_one (bytesOfBits_length 8 _)

section
variable {s t : State} {c src kind seq : Nat} {data : List Byte} {w : Word} (hw : (s.core c).bootWord = some w)
  (hm : (s.core c).bootMode = true) (hq : quietWords s c)
include hw hm hq

theorem mapFlit_holds (ha : s.bootArrival s.input.index = some (c, .bootCast src 2 seq data, t)) :
    happens .bootMulticastFlit s fun u => u.net = s.net.eraseIdx s.input.index ++ castFlits c w 2 seq data ∧
      bootCounted s c w ((s.core c).bootMaps + 1) (s.core c).bootImgs u ∧
      (takesBoot s c → u.peeks (keyScratch c (0x400 + 64 * seq)) data.length = data) := by
  obtain rfl := State.bootArrival_eq ha
  refine ⟨_, exec_bootMulticastFlit_map ha hw hm, ?_⟩
  exact mapPacket_delivered (s := s.passOn c w 2 seq data) hw hm hq

theorem imageFlit_holds (ha : s.bootArrival s.input.index = some (c, .bootCast src 3 seq data, t)) (hc : c < 1024) (hseq : seq < 512)
    (hl : data.length = 64) :
    let key := keyVault c (64 * seq)
    happens .bootMulticastFlit s fun u => u.net = s.net.eraseIdx s.input.index ++ castFlits c w 3 seq data ∧
      bootCounted s c w (s.core c).bootMaps ((s.core c).bootImgs + 1) u ∧
      (Assoc.find s.directory (key / 64) = none → u.peeks key 64 = data) ∧
      ((Assoc.find s.directory (key / 64)).isSome = true →
        u.biPending = s.biPending ++ [(key / 64, ((List.range 64).map (key + ·)).zip data, false)] ∧ ∀ k, keySpace k = 0 → u.peek k = s.peek k) := by
  obtain rfl := State.bootArrival_eq ha
  intro key
  have h0 (i : Nat) (hi : i < 64) : keySpace (key + i) = 0 := by
    simp only [key, keySpace, keyVault, keyDram]
    omega
  have h00 : keySpace key = 0 := by simpa only [Nat.add_zero] using h0 0 (by decide)
  have hcells : ((List.range 64).map (key + ·)).zip data = consecutive key data := by rw [consecutive, hl]
  obtain ⟨b, cells, hcons⟩ := consecutive_eq_cons (k := key) hl
  refine ⟨_, exec_bootMulticastFlit_image ha hw hm, ?_⟩
  rw [hcells]
  generalize hon : s.passOn c w 3 seq data = on
  have hnet' : on.net = s.net.eraseIdx s.input.index ++ castFlits c w 3 seq data := by rw [← hon]; rfl
  have hrest {α : Type} (f : State → α) (hf : ∀ (b : State) (n : List Flight), f { b with net := n } = f b := by intros; rfl) : f on = f s := by
    rw [← hon]
    exact hf s _
  have hdir : on.directory = s.directory := hrest State.directory
  have hput : ((on.homeWrite (consecutive key data) false).touchSlice c key false).cores = s.cores := by
    rw [State.eq_of_still State.cores (State.still_touchSlice ..), State.cores_homeWrite]
    exact hrest State.cores
  obtain ⟨hnet, hbi, hcount, hpeek⟩ := imagePacket_counted hput hw hm hq
  have htouch {α : Type} (f : State → α) (hf : ∀ b : State, f b.still = f b := by intro; rfl) :
      f ((on.homeWrite (consecutive key data) false).touchSlice c key false) = f (on.homeWrite (consecutive key data) false) :=
    State.eq_of_still f (State.still_touchSlice ..) hf
  rw [htouch State.net] at hnet
  rw [htouch State.biPending] at hbi
  have hunheld (hd : Assoc.find s.directory (key / 64) = none) :
      on.homeWrite (consecutive key data) false = on.writeH (consecutive key data) false := by
    rw [hcons]
    exact State.homeWrite_device h00 (hdir ▸ hd) false
  have hheld (hd : (Assoc.find s.directory (key / 64)).isSome = true) :
      on.homeWrite (consecutive key data) false = { on with biPending := on.biPending ++ [(key / 64, consecutive key data, false)] } := by
    rw [hcons]
    exact State.homeWrite_held h00 (hdir ▸ hd) false
  refine ⟨?_, hcount, fun hd => ?_, fun hd => ⟨?_, fun k hk => ?_⟩⟩
  · rw [hnet, ← hnet']
    cases hd : Assoc.find s.directory (key / 64) with
    | none => rw [hunheld hd, State.eq_of_still State.net (on.still_writeH (consecutive key data) false)]
    | some x => rw [hheld (by rw [hd]; rfl)]
  · have hp := on.peeks_writeH key data false
    rw [hl] at hp
    refine (State.peeks_congr fun i hi => ?_).trans hp
    rw [hpeek _ (h0 i hi), State.peek_touchSlice, hunheld hd]
  · rw [hbi, hheld hd]
    exact congrArg (· ++ _) (hrest State.biPending)
  · rw [hpeek k hk, State.peek_touchSlice, hheld hd]
    exact State.peek_of_mem (hrest State.mem) k

theorem goFlit_holds (ha : s.bootArrival s.input.index = some (c, .bootCast src 5 seq data, t)) :
    happens .bootMulticastFlit s fun u => u.net = s.net.eraseIdx s.input.index ++ castFlits c w 5 seq data ∧
      ((s.core c).bootDone = false → (u.core c).bootGo = true) ∧
      ((s.core c).bootDone = true → takesBoot s c → u.fullBit (keyScratch c 0x30) = true) := by
  obtain rfl := State.bootArrival_eq ha
  refine ⟨_, exec_bootMulticastFlit_go ha hw hm, ?_⟩
  cases hd : (s.core c).bootDone with
  | false =>
    refine ⟨rfl, fun _ => ?_, fun h => (by cases h)⟩
    rw [if_neg Bool.false_ne_true, State.core_setCore_same]
  | true =>
    have hdel := State.bootPut_delivers (s := s.passOn c w 5 seq data) hq bootGO (List.replicate 8 0)
    exact ⟨hdel.eq State.net, fun h => (by cases h), fun _ ht => State.fullBit_bootPut (s := s.passOn c w 5 seq data) hq ht (by decide)⟩

end

/-! ### Reports (R366) -/

theorem report_holds (s : State) (w : Word) (hm : (s.core s.input.core).bootMode = true)
    (hf : s.fullBit (keyScratch s.input.core 0x18) = true) (hw : (s.core s.input.core).bootWord = some w) :
    let r : Word := BitVec.ofNat 64 (s.peekNat (keyScratch s.input.core 0x18) 8)
    let next := xyStep s.input.core (bootCorner w)
    happens .bootReport s fun u => (u.core s.input.core).lid = r.setWidth 10 ∧
      u.net = s.net ++ [⟨next, .bootReport s.input.core (bootCorner w) r, next, .xy⟩] ∧ u.fullBit (keyScratch s.input.core 0x18) = false := by
  intro r next
  let k : Core := { s.core s.input.core with lid := BitVec.ofNat 10 (bits r 9 0) }
  have hx : exec .bootReport s =
      .next (((s.setFull (keyScratch s.input.core bootSTATUS) false).setCore s.input.core k).reportOn s.input.core (bootCorner w) r) := by
    show execBootReport s = _
    rw [execBootReport]
    dsimp only
    rw [if_pos (by rw [hm]; exact hf)]
    split
    case _ v h =>
      obtain rfl : w = v := Option.some.inj (hw.symm.trans h)
      rfl
    case _ h => cases hw.symm.trans h
  have hfull : (s.setFull (keyScratch s.input.core 0x18) false).fullBit (keyScratch s.input.core 0x18) = false :=
    (State.fullBit_setFull ..).trans (if_pos rfl)
  refine ⟨_, hx, ?_, rfl, hfull⟩
  refine (congrArg Core.lid (State.core_setCore_same _ _ k)).trans (BitVec.eq_of_toNat_eq ?_)
  simp [k, bits]

theorem reportArrival_holds (s : State) (c src corner : Nat) (r : Word) (t : State)
    (ha : s.bootArrival s.input.index = some (c, .bootReport src corner r, t)) (hm : (s.core c).bootMode = true) :
    (c = corner → takesBoot s c → quietWords s c → happens .bootReportArrival s fun u => u.net = s.net.eraseIdx s.input.index ∧
        u.peekNat (keyScratch c (0x800 + 8 * (r.toNat % 1024))) 8 = r.toNat) ∧
      (c ≠ corner → happens .bootReportArrival s fun u =>
        u.net = s.net.eraseIdx s.input.index ++ [⟨xyStep c corner, .bootReport c corner r, xyStep c corner, .xy⟩]) := by
  obtain rfl := State.bootArrival_eq ha
  have hx : exec .bootReportArrival s = .next (
      if c = corner then State.bootPut { s with net := s.net.eraseIdx s.input.index } c (bootREPORT + 8 * bits r 9 0) (bytesOfBits 8 r.toNat)
      else State.reportOn { s with net := s.net.eraseIdx s.input.index } c corner r) := by
    show execBootReportArrival s = _
    rw [execBootReportArrival, ha]
    exact congrArg Host.Outcome.next (if_neg (not_bnot hm))
  refine ⟨fun hc ht hq => ⟨_, hx, ?_⟩, fun hc => ⟨_, hx, ?_⟩⟩
  · rw [if_pos hc]
    generalize hon : ({ s with net := _ } : State) = on
    have hcores : on.cores = s.cores := by rw [← hon]
    have hqo : quietWords on c := quietWords_of_cores hq hcores
    have hto : takesBoot on c := takesBoot_of_core (by rw [← hon]) (by rw [State.core, hcores, State.core]) ht
    have hp := State.peeks_bootPut hqo hto (bootREPORT + 8 * bits r 9 0) (bytesOfBits 8 r.toNat)
    rw [bytesOfBits_length] at hp
    have hb : bits r 9 0 = r.toNat % 1024 := by simp [bits]
    refine ⟨((State.bootPut_delivers hqo ..).eq State.net).trans (by rw [← hon]), ?_⟩
    rw [hb] at hp ⊢
    exact (congrArg bitsOfBytes hp).trans (bitsOfBytes_word r)
  · rw [if_neg hc]
    rfl

/-! ### The host gives a line up (R17) -/

theorem State.still_homeOp (s : State) (ks : List Nat) (op : HomeOp) (p : Bool) : (s.homeOp ks op p).2.2.still = s.still := by
  unfold State.homeOp
  dsimp only
  split
  · rfl
  · dsimp only
    split
    · exact (State.still_hostLines ..).trans (State.still_writeH ..)
    · exact State.still_writeH ..

theorem State.still_foldl {β : Type} {move : State → β → State} (hm : ∀ t b, (move t b).still = t.still) (bs : List β) :
    ∀ s : State, (bs.foldl move s).still = s.still := by
  induction bs with
  | nil => exact fun _ => rfl
  | cons b bs ih => exact fun s => (ih _).trans (hm s b)

@[simp] theorem State.still_ahead (s : State) (line : Nat) : (s.ahead line).still = s.still := by
  unfold State.ahead
  dsimp only
  rw [State.still_foldl fun t e => State.still_homeOp .., State.still_foldl fun t e => State.still_writeH ..]

/-- The line is the device's again, and nothing waits for it any more. -/
def State.giveUp (s : State) (line : Nat) : State :=
  { s with
    directory := Assoc.del s.directory line, biPending := s.biPending.filter fun e => e.1 ≠ line, biOps := s.biOps.filter fun e => e.1 ≠ line }

theorem exec_backInvalidateAnswer {s : State} (h : (Assoc.find s.directory (lineOf (keyDram s.input.addr))).isSome = true) :
    let line := lineOf (keyDram s.input.addr)
    exec .backInvalidateAnswer s = .next (State.bootSettle
      (((s.writeH (((List.range 64).map (line * 64 + ·)).zip s.input.data) false).ahead line).giveUp line) (line * 64 / 2 ^ 29)) := by
  show execBackInvalidateAnswer s = _
  rw [execBackInvalidateAnswer]
  dsimp only
  rw [if_neg (by rw [Option.isNone_iff_eq_none, ← Option.not_isSome_iff_eq_none]; exact not_not_intro h)]
  rfl

theorem lastLine_holds (s : State) (w : Word) :
    let a := s.input.addr
    let c := a / 2 ^ 29
    a < 2 ^ 39 → (Assoc.find s.directory (a / 64)).isSome = true → (s.core c).bootMode = true → (s.core c).bootWord = some w →
      bootMapTotal w ≤ (s.core c).bootMaps → discImages w ≤ (s.core c).bootImgs →
      (∀ e ∈ s.biPending, e.1 ≠ a / 64 → ¬(keyVault c 0 ≤ e.1 * 64 ∧ e.1 * 64 < keyVault c (64 * discImages w))) →
      happens .backInvalidateAnswer s fun u => (u.core c).bootDone = true := by
  intro a c _ hd hm hw hmaps himgs hb
  refine ⟨_, exec_backInvalidateAnswer hd, ?_⟩
  have hc : lineOf (keyDram s.input.addr) * 64 / 2 ^ 29 = c := by
    simp only [lineOf, keyDram, c, a]
    omega
  rw [hc]
  generalize ht : State.ahead _ _ = t
  have hstill : t.still = s.still := by rw [← ht, State.still_ahead, State.still_writeH]
  have hcore : (t.giveUp (lineOf (keyDram s.input.addr))).core c = s.core c := by
    rw [← State.eq_of_still (State.core · c) hstill]
    rfl
  refine State.bootDone_bootSettle (w := w) (by rw [hcore]; exact hw) (by rw [hcore]; exact hm) ⟨by rw [hcore]; exact hmaps, by rw [hcore]; exact himgs, ?_⟩
  intro e he
  obtain ⟨he, hne⟩ := List.mem_filter.1 he
  exact hb e (State.eq_of_still State.biPending hstill ▸ he) (of_decide_eq_true hne)

end Sys2Proof.Machine
end

section
/-! SUPPORT. Device reset (R53, R361), the write of KVEC that ends boot mode (R361), and O42. -/

namespace Sys2Proof.Machine

/-- A word whose low bits have been written with zeros. -/
theorem putBits_low_zero (v : Word) (n : Nat) : putBits v n 0 0 = v &&& ~~~BitVec.ofNat 64 (2 ^ (n + 1) - 1) := by
  refine BitVec.eq_of_getLsbD_eq fun i hi => ?_
  rw [getLsbD_putBits_below v n 0 i hi, BitVec.getLsbD_and, BitVec.getLsbD_not, BitVec.getLsbD_ofNat, Nat.testBit_two_pow_sub_one]
  by_cases h : i < n + 1 <;> simp [h, hi]

theorem bootFlits_holds : bootFlits := by
  intro s i
  refine ⟨discoveryFlit_holds s, fun c src kind seq data t w ha hw hm hc hseq hl hq => ?_, report_holds s,
    fun c src corner r t ha hm => reportArrival_holds s c src corner r t ha hm, lastLine_holds s⟩
  refine ⟨?_, ?_, ?_⟩ <;> rintro rfl
  · have h := mapFlit_holds hw hm hq ha
    rw [hl] at h
    exact h
  · exact imageFlit_holds hw hm hq ha hc hseq hl
  · exact goFlit_holds hw hm hq ha

/-! ### Device reset -/

/-- What the machine keeps over a reset, once the boot ROM has told how far it came. -/
structure ResetTo (s t : State) : Prop where
  captured : t.captured = false
  net : t.net = []
  fields : t.fields = []
  queues : t.queues = []
  remote : t.remote = []
  podcfg : t.podcfg = 0x10000
  qErr : t.qErr = 0
  flash : t.flash = s.flash
  measured : t.measured = s.flash.measure

theorem resetTo_of_bare {s t : State} (h : t.bare.still = s.deviceReset.bare.still) (b : BitVec 4) : ResetTo s { t with bootStage := b } := by
  have hf {α : Type} (f : State → α) (hf : ∀ b : State, f b.bare.still = f b := by intro; rfl) : f t = f s.deviceReset := by
    rw [← hf t, h, hf]
  exact ⟨hf State.captured, hf State.net, hf State.fields, hf State.queues, hf State.remote, hf State.podcfg, hf State.qErr, hf State.flash,
    hf State.measured⟩

/-- Bytes of device memory stay over a reset (R53). -/
theorem State.peek_deviceReset (s : State) {k : Nat} (hk : keySpace k = 0) : s.deviceReset.peek k = s.peek k := by
  have hfind := Assoc.find_filter s.mem (fun k => keySpace k = 0 || keySpace k = 5 || keySpace k = 6) (k := k) (by simp [hk])
  rw [State.peek, State.peek, Memory.read, Memory.read, show Assoc.find s.deviceReset.mem k = Assoc.find s.mem k from hfind]

theorem Flash.padded_length (f : Flash) : f.image.length ≤ f.padded.length ∧ f.padded.length ≤ f.image.length + 64 := by
  simp only [Flash.padded, List.length_append, List.length_replicate]
  omega

theorem Flash.take_padded (f : Flash) {i : Nat} (hi : i < f.image.length) : f.padded.getD i 0 = f.image[i] := by
  rw [Flash.padded, List.getD_append _ _ _ _ hi, List.getD_eq_getElem _ _ hi]

/-! ### The reset of the boot corner -/

/-- The boot corner after a verified reset: its scratchpad has a size, and it runs strand C of the boot ROM. -/
def State.resetCorner (s : State) (c : Nat) : State :=
  let s := s.deviceReset
  let s := s.setCore c { s.core c with split := 1 }
  s.setCtx c 0 { s.ctx c 0 with pc := Ctx.boot.pc + BitVec.ofNat 72 romCornerAt }

/-- What the boot ROM leaves in the corner's scratchpad and vault. -/
def State.bootLoad (s : State) (f : Flash) (number c : Nat) : State :=
  let s := s.pokeBytes (keyScratch c 0x20) (bytesOfBits 8 (f.discWord number c).toNat)
  let s := s.pokeBytes (keyScratch c bootMAP) f.mapBytes
  s.pokeBytes (keyDram (c * 2 ^ 29)) f.padded

theorem State.still_bootLoad (s : State) (f : Flash) (number c : Nat) : (s.bootLoad f number c).still = s.still := by
  rw [State.bootLoad, State.still_pokeBytes, State.still_pokeBytes, State.still_pokeBytes]

theorem State.core_resetCorner (s : State) (c d : Nat) :
    ((s.resetCorner c).core c).split = 1 ∧ (d ≠ c → (s.resetCorner c).core d = Core.reset) := by
  unfold State.resetCorner State.setCtx
  refine ⟨?_, fun hd => ?_⟩
  · rw [State.core_setCore_same]
    exact congrArg Core.split (State.core_setCore_same s.deviceReset c { s.deviceReset.core c with split := 1 })
  · dsimp only
    rw [State.core_setCore, if_neg hd, State.core_setCore, if_neg hd]
    rfl

theorem State.peeks_bootLoad (s : State) (f : Flash) (number c : Nat) :
    (s.bootLoad f number c).peeks (keyDram (c * 2 ^ 29)) f.image.length = f.image := by
  have hp := f.padded_length
  refine State.peeks_eq fun i hi => ?_
  rw [State.bootLoad, State.peek_pokeBytes, if_pos (by omega), Nat.add_sub_cancel_left, Flash.take_padded f hi]

section
variable {s : State} {f : Flash} {number c : Nat}

theorem State.peekNat_bootLoad (hc : c < 1024) (hl : f.image.length ≤ 2 ^ 28) :
    (s.bootLoad f number c).peekNat (keyScratch c 0x20) 8 = (f.discWord number c).toNat := by
  have hp : f.padded.length ≤ 2 ^ 28 + 64 := by have := f.padded_length; omega
  have h : (s.bootLoad f number c).peeks (keyScratch c 0x20) 8 = bytesOfBits 8 (f.discWord number c).toNat := by
    have hread := State.peeks_pokeBytes s (keyScratch c 0x20) (bytesOfBits 8 (f.discWord number c).toNat)
    rw [bytesOfBits_length] at hread
    refine (State.peeks_congr fun i hi => ?_).trans hread
    rw [State.bootLoad, State.peek_pokeBytes, if_neg ?_, State.peek_pokeBytes, if_neg ?_]
    all_goals
      simp only [keyScratch, keyDram, bootMAP]
      omega
  exact (congrArg bitsOfBytes h).trans (bitsOfBytes_word _)

theorem State.peek_bootLoad_other (hl : f.image.length ≤ 2 ^ 28) {k : Nat} (hk : keySpace k = 0) (h : ¬(c * 2 ^ 29 ≤ k ∧ k < (c + 1) * 2 ^ 29)) :
    (s.bootLoad f number c).peek k = s.peek k := by
  have hp : f.padded.length ≤ 2 ^ 28 + 64 := by have := f.padded_length; omega
  simp only [keySpace] at hk
  have h3 : k < 3 * 2 ^ 64 := by omega
  have hbelow (o : Nat) : k < keyScratch c o := Nat.lt_of_lt_of_le h3 (by rw [keyScratch, Nat.add_assoc]; exact Nat.le_add_right _ _)
  have hscratch (o : Nat) (bs : List Byte) : ¬(keyScratch c o ≤ k ∧ k < keyScratch c o + bs.length) := fun h => by
    have := hbelow o
    omega
  have hvault : ¬(keyDram (c * 2 ^ 29) ≤ k ∧ k < keyDram (c * 2 ^ 29) + f.padded.length) := by
    simp only [keyDram]
    omega
  rw [State.bootLoad, State.peek_pokeBytes, if_neg hvault, State.peek_pokeBytes, if_neg (hscratch _ _), State.peek_pokeBytes, if_neg (hscratch _ _)]

end

/-- R53, R361: what is left after device reset, and how far the boot ROM comes. -/
theorem resetBoots_holds : resetBoots := by
  intro s f fresh
  have hfresh {t : State} (h : ResetTo s t) : fresh t :=
    ⟨h.captured, h.net, h.fields, h.queues, h.remote, h.podcfg, h.qErr, h.flash, h.measured⟩
  have hstop (b : BitVec 4) : fresh { s.deviceReset with bootStage := b } := hfresh (resetTo_of_bare rfl b)
  have hx : exec .deviceReset s = execDeviceReset s := rfl
  refine ⟨fun hi => ?_, fun hi hb => ?_, fun n c hi hb hv => ?_, fun n c hi hb hv hc hl => ?_⟩
  · refine ⟨{ s.deviceReset with bootStage := 8 }, hx.trans ?_, hstop 8, rfl, rfl⟩
    rw [execDeviceReset]
    exact if_pos (by rw [show s.deviceReset.flash.imageGood = false from hi]; rfl)
  · refine ⟨{ s.deviceReset with bootStage := 0xB }, hx.trans ?_, hstop 0xB, rfl, rfl⟩
    rw [execDeviceReset]
    refine (if_neg (not_bnot hi)).trans ?_
    rw [show s.deviceReset.flash.boot = none from hb]
  · refine ⟨{ s.deviceReset with bootStage := 9 }, hx.trans ?_, hstop 9, rfl, rfl⟩
    rw [execDeviceReset]
    refine (if_neg (not_bnot hi)).trans ?_
    rw [show s.deviceReset.flash.boot = some (n, c) from hb]
    exact if_pos (by rw [show s.deviceReset.flash.bundleGood = false from hv]; rfl)
  · refine ⟨{ (s.resetCorner c).bootLoad f n c with bootStage := 1 }, hx.trans ?_, ?_⟩
    · rw [execDeviceReset]
      refine (if_neg (not_bnot hi)).trans ?_
      rw [show s.deviceReset.flash.boot = some (n, c) from hb]
      exact if_neg (not_bnot hv)
    · have hstill : ((s.resetCorner c).bootLoad f n c).still = (s.resetCorner c).still := State.still_bootLoad ..
      have hcore (d : Nat) : ((s.resetCorner c).bootLoad f n c).core d = (s.resetCorner c).core d := State.eq_of_still (State.core · d) hstill
      refine ⟨hfresh (resetTo_of_bare (s := s) (by exact congrArg State.bare hstill) 1), rfl, ?_, fun d hd => ?_, State.peekNat_bootLoad hc hl, ?_,
        fun k hk h => (State.peek_bootLoad_other hl hk h).trans (s.peek_deviceReset hk)⟩
      · exact (congrArg Core.split (hcore c)).trans (s.core_resetCorner c c).1
      · exact (hcore d).trans ((s.core_resetCorner c d).2 hd)
      · refine Eq.trans (State.peeks_congr fun i _ => ?_) (State.peeks_bootLoad (s.resetCorner c) f n c)
        rfl

/-- R361: the first write of KVEC ends boot mode. -/
theorem kvecEndsBoot_holds : kvecEndsBoot := by
  intro s
  refine ⟨_, rfl, ⟨rfl, fun d hd => ?_⟩, ?_⟩
  · exact (State.core_setCore ..).trans (if_neg hd)
  · refine (State.core_setCore_same ..).trans ?_
    rw [putBits_low_zero]
    rfl

/-- Settles O42. -/
theorem bootProtocol : Obligations.BootProtocol := ⟨bootOut_holds, bootFlits_holds, resetBoots_holds, kvecEndsBoot_holds⟩

end Sys2Proof.Machine
end

section
/-! SUPPORT. The answers of the mailbox (R54). -/

namespace Sys2Proof.Machine

/-! ### How long a digest is -/

theorem shaInit_length : shaInit.length = 8 := by
  have hp : smallPrimes.length = 80 := by decide +kernel
  rw [shaInit, List.length_map, List.length_take, List.length_drop, hp]
  decide

theorem shaRounds_length (ks : List (BitVec 64)) : ∀ v w : List (BitVec 64), v.length = 8 → (shaRounds ks v w).length = 8 := by
  induction ks with
  | nil => exact fun _ _ h => h
  | cons k ks ih => exact fun v w _ => ih _ _ rfl

theorem shaBlocks_length (n : Nat) : ∀ (h : List (BitVec 64)) (bs : List Byte), h.length = 8 → (shaBlocks n h bs).length = 8 := by
  induction n with
  | zero => exact fun _ _ hh => hh
  | succ n ih =>
    intro h bs hh
    refine ih _ _ ?_
    rw [List.length_map, List.length_zip, hh, shaRounds_length _ _ _ hh]
    decide

theorem sha384_length (m : List Byte) : (sha384 m).length = 48 := by
  have h8 (x : BitVec 64) : (bytesOfBits 8 x.toNat).reverse.length = 8 := by rw [List.length_reverse, bytesOfBits_length]
  rw [sha384, List.length_flatMap]
  simp only [h8, List.map_const', List.sum_replicate, List.length_take, shaBlocks_length _ _ _ shaInit_length]
  decide

/-! ### The answers -/

theorem openBytes_length (at_ n : Nat) : (openBytes at_ n).length = n := by simp [openBytes]

theorem signature_length (at_ : Nat) : (signature at_).length = 96 := by simp [signature]

theorem certificates_length : certificates.length = 1024 := by simp [certificates]

/-- The block of a measurement, by its digest in an answer. -/
theorem State.measurement_eq (s : State) {i : Nat} (h : 1 ≤ i) (h4 : i ≤ 4) : s.measurement i = BitVec.ofNat 8 i :: s.digestBytes i := by
  rw [State.measurement, State.digestBytes, if_neg (by omega), if_pos h4]

theorem State.measurements_eq (s : State) :
    [1, 2, 3, 4].flatMap s.measurement = [1, 2, 3, 4].flatMap fun i => BitVec.ofNat 8 i :: s.digestBytes i := by
  refine List.flatMap_congr fun i hi => s.measurement_eq ?_ ?_ <;> fin_cases hi <;> decide

/-- The body of CHALLENGE_AUTH: the digest of the chain, a nonce, the digest of the measurements, and a signature. -/
theorem challenge_body (s : State) :
    let b := s.digestBytes 0 ++ openBytes s.steps 32 ++ s.digestBytes 5 ++ signature s.steps
    b.take 48 = sha384 certificates ∧
      (b.drop 80).take 48 = sha384 ([1, 2, 3, 4].flatMap fun i => BitVec.ofNat 8 i :: s.digestBytes i) ∧ b.length = 224 := by
  have h0 : s.digestBytes 0 = sha384 certificates := if_pos rfl
  have h5 : s.digestBytes 5 = sha384 ([1, 2, 3, 4].flatMap s.measurement) :=
    (if_neg (by decide)).trans (if_neg (by decide))
  have hn := openBytes_length s.steps 32
  have h48 := sha384_length certificates
  have hm := sha384_length ([1, 2, 3, 4].flatMap s.measurement)
  rw [h0, h5, ← s.measurements_eq]
  generalize sha384 certificates = d0 at *
  generalize sha384 _ = d5 at *
  generalize openBytes s.steps 32 = nonce at *
  refine ⟨?_, ?_, ?_⟩
  · rw [List.append_assoc, List.append_assoc, List.take_left' h48]
  · have h80 : (d0 ++ nonce).length = 80 := by rw [List.length_append, h48, hn]
    rw [List.append_assoc, List.drop_left' h80, List.take_left' hm]
  · simp only [List.length_append, h48, hn, hm, signature_length]

theorem algorithmsBody_length (at_ : Nat) : (algorithmsBody at_).length = 36 := by
  simp only [algorithmsBody, List.length_append, List.length_replicate, bytesOfBits_length, openBytes_length, List.length_cons, List.length_nil]

section
variable {s : State} (ha : s.doe.algsDone = true)
include ha

theorem exec_spdmGetCertificate :
    exec .spdmGetCertificate s = .next (s.spdm s.doe 0x02 0 0 (bytesOfBits 2 ((certificates.drop 0).take 1024).length ++
      bytesOfBits 2 (certificates.length - 0 - ((certificates.drop 0).take 1024).length) ++ (certificates.drop 0).take 1024)) :=
  congrArg Host.Outcome.next (if_pos ha)

theorem exec_spdmGetMeasurements :
    exec .spdmGetMeasurements s = .next (
      if s.input.index = 0xFF then s.spdm s.doe 0x60 4 0 ([1, 2, 3, 4].flatMap s.measurement ++ signature s.steps)
      else if 1 ≤ s.input.index ∧ s.input.index ≤ 4 then s.spdm s.doe 0x60 1 0 (s.measurement s.input.index ++ signature s.steps)
      else s.spdmError) :=
  congrArg Host.Outcome.next (if_neg (not_bnot ha))

end

theorem certificate_body :
    bytesOfBits 2 ((certificates.drop 0).take 1024).length ++ bytesOfBits 2 (certificates.length - 0 - ((certificates.drop 0).take 1024).length) ++
      (certificates.drop 0).take 1024 = bytesOfBits 2 1024 ++ bytesOfBits 2 0 ++ certificates := by
  have h : (certificates.drop 0).take 1024 = certificates := List.take_of_length_le (by rw [List.drop_zero, certificates_length])
  rw [h, certificates_length]

/-- R54: the answers of the mailbox. -/
theorem mailboxAnswers_holds : mailboxAnswers := by
  intro s answered error blocks
  have hx (i : Instr) {b : Bool} {t : State} (hb : b = false) (h : exec i s = .next (if b = true then t else s.spdmError)) : error i :=
    ⟨[], h.trans (by rw [hb]; rfl), rfl⟩
  have hy {i : Instr} {b : Bool} {t : State} (hb : b = true) (h : exec i s = .next (if b = true then t else s.spdmError)) : exec i s = .next t :=
    h.trans (by rw [hb]; rfl)
  refine ⟨⟨[0, 1, 0, 0x13], rfl, rfl⟩, fun hv => ?_, fun hv => hx .spdmGetCapabilities hv rfl, fun hc => ?_,
    fun hc => hx .spdmNegotiateAlgorithms hc rfl, fun ha => ⟨?_, ?_, ?_, ?_, ?_, ?_⟩,
    fun ha => ⟨hx .spdmGetDigests ha rfl, ?_, hx .spdmChallenge ha rfl, ?_⟩⟩
  · exact ⟨openBytes s.steps 16, hy hv rfl, openBytes_length ..⟩
  · exact ⟨algorithmsBody s.steps, hy hc rfl, algorithmsBody_length _⟩
  · exact ⟨s.digestBytes 0, hy ha rfl, if_pos rfl⟩
  · exact ⟨_, exec_spdmGetCertificate ha, certificate_body⟩
  · exact ⟨_, hy ha rfl, challenge_body s⟩
  · intro i hi hout hff
    subst hi
    exact ⟨[], (exec_spdmGetMeasurements ha).trans (congrArg Host.Outcome.next ((if_neg hff).trans (if_neg (by omega)))), rfl⟩
  · intro i h1 h4 hi
    subst hi
    refine ⟨_, (exec_spdmGetMeasurements ha).trans (congrArg Host.Outcome.next ((if_neg (by omega)).trans (if_pos ⟨h1, h4⟩))),
      signature s.steps, signature_length _, ?_⟩
    rw [s.measurement_eq h1 h4, List.flatMap_singleton]
  · intro hi
    refine ⟨_, (exec_spdmGetMeasurements ha).trans (congrArg Host.Outcome.next (if_pos hi)), signature s.steps, signature_length _, ?_⟩
    rw [s.measurements_eq]
  · exact ⟨[], congrArg Host.Outcome.next (if_neg (by simp [ha])), rfl⟩
  · exact ⟨[], congrArg Host.Outcome.next (if_pos (by simp [ha])), rfl⟩

end Sys2Proof.Machine
end

section
/-! SUPPORT. The host's accesses to memory, to the MSI-X table and to the configuration space (R12, R16, R17, R31, R52, R66). -/

namespace Sys2Proof.Machine

/-! ### Halves of a word -/

theorem putBits_low_half (x : Word) (v : BitVec 32) : (putBits x 31 0 v.toNat).setWidth 32 = v := by
  have hv := v.isLt
  apply BitVec.eq_of_toNat_eq
  simp only [putBits, bits, BitVec.toNat_setWidth, BitVec.toNat_ofNat]
  omega

theorem putBits_high_half (x : Word) (v : BitVec 32) : (putBits x 63 32 v.toNat >>> 32).setWidth 32 = v := by
  have hv := v.isLt
  have hx := x.isLt
  apply BitVec.eq_of_toNat_eq
  simp only [putBits, bits, BitVec.toNat_setWidth, BitVec.toNat_ofNat, BitVec.toNat_ushiftRight, Nat.shiftRight_eq_div_pow]
  omega

/-! ### CXL.mem (R12, R16, R17, R66) -/

theorem exec_hostMemoryAccess {s : State} (h : s.exposed s.input.addr = true) :
    exec .hostMemoryAccess s = .next (
      if s.input.flag then (s.writeH (((List.range (min s.input.data.length (64 - s.input.addr % 64))).map (keyDram s.input.addr + ·)).zip s.input.data) false).touchSlice
        0 (keyDram s.input.addr) false
      else ({ s with directory := Assoc.put s.directory (lineOf (keyDram s.input.addr)) true } : State).touchSlice 0 (keyDram s.input.addr) false) := by
  show execHostMemoryAccess s = _
  rw [execHostMemoryAccess]
  refine (if_neg (not_bnot h)).trans ?_
  exact (apply_ite Host.Outcome.next _ _ _).symm

theorem hostWrite_holds (s : State) (h : s.exposed s.input.addr = true) (hf : s.input.flag = true)
    (hl : s.input.addr % 64 + s.input.data.length ≤ 64) :
    happens .hostMemoryAccess s fun t => t.peeks (keyDram s.input.addr) s.input.data.length = s.input.data ∧
      ∀ k, ¬(s.input.addr ≤ k ∧ k < s.input.addr + s.input.data.length) → t.peek k = s.peek k := by
  have hc : ((List.range (min s.input.data.length (64 - s.input.addr % 64))).map (keyDram s.input.addr + ·)).zip s.input.data =
      consecutive (keyDram s.input.addr) s.input.data := by
    rw [Nat.min_eq_left (by omega)]
    rfl
  refine ⟨_, exec_hostMemoryAccess h, ?_⟩
  rw [if_pos hf, hc]
  refine ⟨?_, fun k hk => ?_⟩
  · exact (State.peeks_congr fun i _ => State.peek_touchSlice ..).trans (s.peeks_writeH _ _ false)
  · rw [State.peek_touchSlice]
    exact s.peek_consecutive_other hk false

theorem hostRead_holds (s : State) (h : s.exposed s.input.addr = true) (hf : s.input.flag = false) :
    happens .hostMemoryAccess s fun t => Assoc.find t.directory (s.input.addr / 64) = some true ∧ ∀ k, t.peek k = s.peek k := by
  refine ⟨_, exec_hostMemoryAccess h, ?_⟩
  rw [if_neg (by rw [hf]; exact Bool.false_ne_true)]
  refine ⟨?_, fun k => State.peek_touchSlice ..⟩
  rw [State.eq_of_still State.directory (State.still_touchSlice ..)]
  exact (Assoc.find_put ..).trans (if_pos rfl)

theorem hostOutside_holds (s : State)
    (h : 2 ^ 39 ≤ s.input.addr ∨ backed s.input.addr = false ∨ s.input.addr < s.hdm.base ∨ s.hdm.base + s.hdm.len ≤ s.input.addr) :
    exec .hostMemoryAccess s = .next s := by
  have he : s.exposed s.input.addr = false := by
    rw [State.exposed, Bool.eq_false_iff]
    intro he
    simp only [Bool.and_eq_true, decide_eq_true_eq] at he
    obtain ⟨⟨⟨h39, hb⟩, hlo⟩, hhi⟩ := he
    rcases h with h | h | h | h
    · omega
    · rw [hb] at h
      cases h
    · omega
    · omega
  show execHostMemoryAccess s = _
  rw [execHostMemoryAccess]
  exact if_pos (by rw [he]; rfl)

/-! ### The host gives a line up (R17) -/

theorem State.bootSettle_off {s : State} {c : Nat} (h : (s.core c).bootMode = false) : s.bootSettle c = s := by
  rw [State.bootSettle]
  dsimp only
  split
  · rfl
  · exact if_neg (by simp [h])

theorem State.ahead_quiet {s : State} {line : Nat} (hb : ∀ e ∈ s.biPending, e.1 ≠ line) (ho : ∀ e ∈ s.biOps, e.1 ≠ line) : s.ahead line = s := by
  have hb' : (s.biPending.filter fun e => e.1 = line) = [] := List.filter_eq_nil_iff.2 fun e he => by simpa using hb e he
  have ho' : (s.biOps.filter fun e => e.1 = line) = [] := List.filter_eq_nil_iff.2 fun e he => by simpa using ho e he
  rw [State.ahead, hb', ho']
  rfl

/-- A line is given up in the vault of a core that boots no more. -/
theorem exec_backInvalidateAnswer_booted {s : State} (hm : (s.core (s.input.addr / 2 ^ 29)).bootMode = false)
    (h : (Assoc.find s.directory (s.input.addr / 64)).isSome = true) :
    exec .backInvalidateAnswer s = .next (((s.writeH (((List.range 64).map (s.input.addr / 64 * 64 + ·)).zip s.input.data) false).ahead
      (s.input.addr / 64)).giveUp (s.input.addr / 64)) := by
  refine (exec_backInvalidateAnswer h).trans (congrArg Host.Outcome.next (State.bootSettle_off ?_))
  have hc : lineOf (keyDram s.input.addr) * 64 / 2 ^ 29 = s.input.addr / 2 ^ 29 := by
    simp only [lineOf, keyDram]
    omega
  rw [hc]
  generalize ht : State.ahead _ _ = t
  have hstill : t.still = s.still := by rw [← ht, State.still_ahead, State.still_writeH]
  exact (congrArg Core.bootMode (State.eq_of_still (State.core · _) hstill)).trans hm

theorem giveUp_holds (s : State) (hm : (s.core (s.input.addr / 2 ^ 29)).bootMode = false)
    (h : (Assoc.find s.directory (s.input.addr / 64)).isSome = true) (hl : s.input.data.length = 64)
    (hb : ∀ e ∈ s.biPending, e.1 ≠ s.input.addr / 64) (ho : ∀ e ∈ s.biOps, e.1 ≠ s.input.addr / 64) :
    happens .backInvalidateAnswer s fun t => Assoc.find t.directory (s.input.addr / 64) = none ∧
      t.peeks (64 * (s.input.addr / 64)) 64 = s.input.data ∧ ∀ k, k / 64 ≠ s.input.addr / 64 → t.peek k = s.peek k := by
  refine ⟨_, exec_backInvalidateAnswer_booted hm h, ?_⟩
  have hc : ((List.range 64).map (s.input.addr / 64 * 64 + ·)).zip s.input.data = consecutive (s.input.addr / 64 * 64) s.input.data := by
    rw [consecutive, hl]
  rw [hc]
  generalize ht : s.writeH (consecutive (s.input.addr / 64 * 64) s.input.data) false = t
  have hstill : t.still = s.still := by rw [← ht, State.still_writeH]
  rw [State.ahead_quiet (State.eq_of_still State.biPending hstill ▸ hb) (State.eq_of_still State.biOps hstill ▸ ho)]
  refine ⟨(Assoc.find_del ..).trans (if_pos rfl), ?_, fun k hk => ?_⟩
  · have hp := s.peeks_writeH (s.input.addr / 64 * 64) s.input.data false
    rw [hl, ht, Nat.mul_comm] at hp
    exact hp
  · refine Eq.trans ?_ (s.peek_consecutive_other (k := s.input.addr / 64 * 64) (bs := s.input.data) (by omega) false)
    rw [ht]
    rfl

theorem giveUpPending_holds (s : State) (k : Nat) (b : Byte) (p : Bool) (hm : (s.core (s.input.addr / 2 ^ 29)).bootMode = false)
    (h : (Assoc.find s.directory (s.input.addr / 64)).isSome = true) (hd : s.input.data = [])
    (hb : s.biPending = [(s.input.addr / 64, [(k, b)], p)]) (ho : s.biOps = []) :
    happens .backInvalidateAnswer s fun t => t.biPending = [] ∧ t.peek k = b ∧ ∀ j, j ≠ k → t.peek j = s.peek j := by
  refine ⟨_, exec_backInvalidateAnswer_booted hm h, ?_⟩
  rw [hd, List.zip_nil_right]
  generalize ht : s.writeH [] false = t
  have hstill : t.still = s.still := by rw [← ht, State.still_writeH]
  have hb' : t.biPending = [(s.input.addr / 64, [(k, b)], p)] := (State.eq_of_still State.biPending hstill).trans hb
  have ho' : t.biOps = [] := (State.eq_of_still State.biOps hstill).trans ho
  have ha : t.ahead (s.input.addr / 64) = t.writeH [(k, b)] p := by
    rw [State.ahead, hb', ho', List.filter_cons_of_pos (by simp)]
    rfl
  rw [ha]
  have hpend : (t.writeH [(k, b)] p).biPending = [(s.input.addr / 64, [(k, b)], p)] :=
    (State.eq_of_still State.biPending (t.still_writeH _ p)).trans hb'
  have hn : (([(k, b)] : List (Nat × Byte)).map (·.1)).Nodup := by simp
  refine ⟨?_, ?_, fun j hj => ?_⟩
  · show (t.writeH [(k, b)] p).biPending.filter _ = []
    rw [hpend]
    simp
  · exact State.peek_writeH_mem hn List.mem_cons_self t p
  · refine (State.peek_writeH_other (cells := [(k, b)]) (by simpa using Ne.symm hj) t p).trans ?_
    rw [← ht]
    rfl

/-- The home slice writes a changed host line back, and gives it up. -/
theorem hostSnoop_holds (s : State) (ha : s.input.addr < 2 ^ 51) (hd : s.input.data = []) (hf : s.input.flag = true)
    (hl : Assoc.find s.hostLines (lineOf (keyHost s.input.addr)) = some true) :
    happens .hostSnoop s fun t => Assoc.find t.hostLines (lineOf (keyHost s.input.addr)) = none ∧
      t.peeks (keyHostMem (64 * (s.input.addr / 64))) 64 = s.peeks (keyHost (64 * (s.input.addr / 64))) 64 := by
  have hline : lineOf (keyHost s.input.addr) * 64 = keyHost (64 * (s.input.addr / 64)) := by
    simp only [lineOf, keyHost]
    omega
  have haddr : keyAddr (keyHost (64 * (s.input.addr / 64))) = 64 * (s.input.addr / 64) := by
    simp only [keyAddr, keyHost]
    omega
  have hin : (s.flushHost (lineOf (keyHost s.input.addr))).input = s.input := State.eq_of_still State.input (s.still_flushHost _)
  have hx : exec .hostSnoop s = .next { s.flushHost (lineOf (keyHost s.input.addr)) with
      hostLines := Assoc.del (s.flushHost (lineOf (keyHost s.input.addr))).hostLines (lineOf (keyHost s.input.addr)) } := by
    show execHostSnoop s = _
    rw [execHostSnoop]
    dsimp only
    rw [Nat.mod_eq_of_lt ha, if_pos hl, if_pos (by rw [hin]; exact hf)]
    refine congrArg Host.Outcome.next ?_
    show State.pokes _ (List.zip _ (s.flushHost (lineOf (keyHost s.input.addr))).input.data) = _
    rw [hin, hd, List.zip_nil_right]
    rfl
  refine ⟨_, hx, (Assoc.find_del ..).trans (if_pos rfl), ?_⟩
  have hmem : (s.flushHost (lineOf (keyHost s.input.addr))).mem =
      (s.pokeBytes (keyHostMem (64 * (s.input.addr / 64))) (s.peeks (keyHost (64 * (s.input.addr / 64))) 64)).mem := by
    rw [State.flushHost, hline, haddr]
  have hp := State.peeks_pokeBytes s (keyHostMem (64 * (s.input.addr / 64))) (s.peeks (keyHost (64 * (s.input.addr / 64))) 64)
  rw [State.peeks_length] at hp
  refine Eq.trans (State.peeks_congr fun i _ => ?_) hp
  rw [State.peek, State.peek]
  exact congrArg (Memory.read · _) hmem

end Sys2Proof.Machine
end

section
/-! SUPPORT. The MSI-X table and the configuration space, and the clause of the host's accesses (R16, R31, R52). -/

namespace Sys2Proof.Machine

/-! ### The MSI-X table (R31, R52) -/

@[simp] theorem State.msixEntry_setMsix (s : State) (v : Nat) (m : Msix) : (s.setMsix v m).msixEntry v = m := by
  simp [State.msixEntry, State.setMsix]

/-- The three words of an entry that hold its address and its data read as they were written. -/
theorem msixWord_holds (s : State) {n w : Nat} (hn : n < 2048) (hw : w < 3) (v : BitVec 32) :
    (s.writeBar2 (16 * n + 4 * w) v).readBar2 (16 * n + 4 * w) = v := by
  have hoff : 16 * n + 4 * w < 0x8000 := by omega
  have hent : (16 * n + 4 * w) / 16 = n := by omega
  have hword : (16 * n + 4 * w) % 16 / 4 = w := by omega
  rw [State.readBar2, if_pos hoff, State.writeBar2, if_pos hoff, hent, hword]
  match w, hw with
  | 0, _ => simpa using putBits_low_half (s.msixEntry n).addr v
  | 1, _ => simpa using putBits_high_half (s.msixEntry n).addr v
  | 2, _ => simp

/-- An entry that is unmasked sends the message that it held back. -/
theorem msixUnmask_holds (s : State) {n : Nat} (hn : n < 2048) (hm : (s.msixEntry n).masked = true) (hp : (s.msixEntry n).pendingBit = true)
    (hf : s.pci.msixMask = false) :
    let t := s.writeBar2 (16 * n + 12) 0
    t.msixSent = s.msixSent ++ [((s.msixEntry n).addr, (s.msixEntry n).data)] ∧ (t.msixEntry n).masked = false ∧ (t.msixEntry n).pendingBit = false := by
  let m : Msix := { s.msixEntry n with masked := false, pendingBit := false }
  have ht : s.writeBar2 (16 * n + 12) 0 = { s.setMsix n m with msixSent := s.msixSent ++ [(m.addr, m.data)] } := by
    have hoff : 16 * n + 12 < 0x8000 := by omega
    have hent : (16 * n + 12) / 16 = n := by omega
    have hword : (16 * n + 12) % 16 / 4 = 3 := by omega
    rw [State.writeBar2, if_pos hoff, hent, hword]
    show s.maskMsix n false = _
    rw [State.maskMsix, if_neg Bool.false_ne_true, hm, hp]
    show State.raise (s.setMsix n m) n = _
    rw [State.raise, State.msixEntry_setMsix]
    exact if_neg (by simp [m, hf])
  intro t
  have he : t.msixEntry n = m := (congrArg (State.msixEntry · n) ht).trans (s.msixEntry_setMsix n m)
  exact ⟨congrArg State.msixSent ht, congrArg Msix.masked he, congrArg Msix.pendingBit he⟩

/-! ### The configuration space (R16, R31) -/

theorem State.pci_raise (s : State) (v : Nat) : (s.raise v).pci = s.pci := by
  unfold State.raise
  dsimp only
  split <;> rfl

theorem State.pci_maskFunction (s : State) (b : Bool) : (s.maskFunction b).pci = { s.pci with msixMask := b } := by
  have hfold (es : List (Nat × Msix)) : ∀ t : State,
      (es.foldl (fun s e => if e.2.pendingBit && !e.2.masked then (s.setMsix e.1 { e.2 with pendingBit := false }).raise e.1 else s) t).pci = t.pci := by
    induction es with
    | nil => exact fun _ => rfl
    | cons e es ih =>
      intro t
      rw [List.foldl_cons, ih]
      split
      · exact State.pci_raise ..
      · rfl
  unfold State.maskFunction
  dsimp only
  split
  · rfl
  · exact hfold _ _

/-- The control word of the MSI-X capability holds the enable and the function mask. -/
theorem msixControl_bits (mask on : Bool) :
    let r := (BitVec.ofNat 16 (2047 + (if mask then 2 ^ 14 else 0) + (if on then 2 ^ 15 else 0))) ++ 0x0011#16
    r.getLsbD 31 = on ∧ r.getLsbD 30 = mask := by
  cases mask <;> cases on <;> decide

theorem config_holds (s : State) (v : BitVec 32) :
    (s.writeConfig 0x10 v).readConfig 0x10 = (v &&& 0xFF00_0000) ||| 4 ∧
      (s.writeConfig 0x18 v).readConfig 0x18 = (v &&& 0xFFFF_0000) ||| 4 ∧
      ((s.writeConfig 0x80 v).readConfig 0x80).getLsbD 31 = v.getLsbD 31 ∧ ((s.writeConfig 0x80 v).readConfig 0x80).getLsbD 30 = v.getLsbD 30 := by
  have hbar (x : Word) (mask : BitVec 32) : ((putBits x 31 0 (v &&& mask).toNat).setWidth 32 &&& mask) ||| 4 = (v &&& mask) ||| 4 := by
    rw [putBits_low_half, BitVec.and_assoc, BitVec.and_self]
  have hpci : (s.writeConfig 0x80 v).pci = { s.pci with msixOn := bit v 31, msixMask := bit v 30 } := State.pci_maskFunction _ _
  have hctl := msixControl_bits (s.writeConfig 0x80 v).pci.msixMask (s.writeConfig 0x80 v).pci.msixOn
  obtain ⟨hon, hmask⟩ := hctl
  exact ⟨hbar _ _, hbar _ _, hon.trans (congrArg Pci.msixOn hpci), hmask.trans (congrArg Pci.msixMask hpci)⟩

/-- GET_VERSION, with its two reserved bytes, is answered by VERSION. -/
theorem State.spdmRequest_version (s : State) :
    s.spdmRequest [0x10, 0x84, 0, 0] = s.spdm ⟨true, false, false, s.doe.answers⟩ 0x04 0 0 [0, 1, 0, 0x13] := by
  rw [State.spdmRequest]
  exact if_pos (by decide)

/-- The data object of GET_VERSION is answered by that of VERSION. -/
theorem doeVersion_holds (s : State) (h : s.pci.doeIn = [0x10001, 3, 0x8410]) :
    (s.writeConfig 0x148 0x8000_0000).pci.doeOut = doeObject 1 [0x13, 4, 0, 0, 0, 1, 0, 0x13] := by
  have hgo : s.writeConfig 0x148 0x8000_0000 = s.doeGo := rfl
  have hbs : (([0x10001, 3, 0x8410] : List (BitVec 32)).drop 2).flatMap (fun w => bytesOfBits 4 w.toNat) = [0x10, 0x84, 0, 0] := by decide
  rw [hgo, State.doeGo]
  dsimp only
  rw [h, hbs, if_neg (by decide), if_neg (by decide), if_pos (by decide), State.spdmRequest_version]
  show doeObject 1 (((s.doe.answers ++ [[0x13, 4, 0, 0, 0, 1, 0, 0x13]]).drop s.doe.answers.length).headD []) = _
  rw [List.drop_left]
  rfl

/-- R12, R16, R17, R31, R52, R66: the host's accesses. -/
theorem hostAccesses_holds : hostAccesses := fun s =>
  ⟨fun h => ⟨hostWrite_holds s h, hostRead_holds s h⟩, hostOutside_holds s, giveUp_holds s, giveUpPending_holds s, hostSnoop_holds s,
    fun _ hn _ hw v => msixWord_holds s hn hw v, fun _ hn => msixUnmask_holds s hn, config_holds s, doeVersion_holds s⟩

end Sys2Proof.Machine
end

section
/-! SUPPORT. Drains, evictions and fills as events (R144, R145). -/

namespace Sys2Proof.Machine

/-! ### Entries by what they hold -/

theorem Assoc.find_filter_val {α : Type} (p : α → Bool) {m : Assoc α} (hn : (m.map (·.1)).Nodup) (k : Nat) :
    Assoc.find (m.filter fun e => p e.2) k = (Assoc.find m k).filter p := by
  induction m with
  | nil => rfl
  | cons e t ih =>
    obtain ⟨j, v⟩ := e
    obtain ⟨hj, ht⟩ := List.nodup_cons.1 hn
    by_cases h : j = k
    · subst h
      have hnone : Assoc.find t j = none := Assoc.find_eq_none.2 fun e he hk => hj (List.mem_map.2 ⟨e, he, hk⟩)
      cases hv : p v <;> simp [Assoc.find, Option.filter, hv, ih ht, hnone]
    · cases hv : p v <;> simp [Assoc.find, hv, ih ht, h]

/-- The bytes of a line as cells of memory. -/
def lineCells (l : Nat) (m : Assoc CvByte) : List (Nat × Byte) := m.map fun e => (l * 64 + e.1, e.2.val)

theorem find_lineCells {l : Nat} {m : Assoc CvByte} (k : Nat) (h : ∀ e ∈ m, e.1 < 64) :
    Assoc.find (lineCells l m) k = if k / 64 = l then (Assoc.find m (k % 64)).map CvByte.val else none := by
  induction m with
  | nil => simp [lineCells, Assoc.find]
  | cons e t ih =>
    obtain ⟨j, b⟩ := e
    have hj : j < 64 := h (j, b) List.mem_cons_self
    have ht := ih fun e he => h e (List.mem_cons_of_mem _ he)
    rw [lineCells, List.map_cons, Assoc.find, ← lineCells]
    by_cases hk : k = l * 64 + j
    · have h1 : k / 64 = l := by omega
      have h2 : k % 64 = j := by omega
      rw [if_pos hk.symm, if_pos h1, h2, Assoc.find, if_pos rfl]
      rfl
    · rw [if_neg (Ne.symm hk), ht, Assoc.find]
      by_cases h1 : k / 64 = l
      · rw [if_pos h1, if_pos h1, if_neg (by omega)]
      · rw [if_neg h1, if_neg h1]

theorem lineCells_nodup {l : Nat} {m : Assoc CvByte} (hn : (m.map (·.1)).Nodup) : ((lineCells l m).map (·.1)).Nodup := by
  have hm : (lineCells l m).map (·.1) = (m.map (·.1)).map (l * 64 + ·) := by simp [lineCells, Function.comp_def]
  rw [hm]
  exact hn.map fun a b h => Nat.add_left_cancel h

/-! ### Writes at the home of a device line -/

theorem State.peek_homeWrite_device {s : State} {l : Nat} {cells : List (Nat × Byte)} (hl : keySpace (64 * l) = 0)
    (hd : Assoc.find s.directory l = none) (hc : ∀ e ∈ cells, e.1 / 64 = l) (hn : (cells.map (·.1)).Nodup) (p : Bool) (k : Nat) :
    (s.homeWrite cells p).peek k = (Assoc.find cells k).getD (s.peek k) := by
  cases cells with
  | nil => rfl
  | cons e t =>
    obtain ⟨j, b⟩ := e
    have hj : j / 64 = l := hc (j, b) List.mem_cons_self
    have hs : keySpace j = 0 := by
      simp only [keySpace] at hl ⊢
      omega
    rw [State.homeWrite_device hs (hj ▸ hd), State.peek_writeH hn]

theorem lineCells_line {l : Nat} {m : Assoc CvByte} (h : ∀ e ∈ m, e.1 < 64) : ∀ e ∈ lineCells l m, e.1 / 64 = l := by
  intro e he
  obtain ⟨x, hx, rfl⟩ := List.mem_map.1 he
  have := h x hx
  dsimp only
  omega

/-! ### Evictions -/

/-- The dirty byte of a line at an offset. -/
def Core.dirtyByte (k : Core) (l i : Nat) : Option Byte := (Assoc.find (k.line l) i).bind fun b => if b.dirty then some b.val else none

/-- A dirty byte leaves with the marked bytes or with the others. -/
theorem evicted_byte (o : Option CvByte) (d : Byte) :
    (((o.filter CvByte.dirty).filter CvByte.poison).map CvByte.val).getD ((((o.filter CvByte.dirty).filter fun b => !b.poison).map CvByte.val).getD d) =
      (o.bind fun b => if b.dirty then some b.val else none).getD d := by
  cases o with
  | none => rfl
  | some b => cases hdirty : b.dirty <;> cases hpoison : b.poison <;> simp [Option.filter, hdirty, hpoison]

/-- An eviction writes the dirty bytes of the line and no others. -/
theorem State.peek_evict {s : State} {c l : Nat} (hl : keySpace (64 * l) = 0) (hd : Assoc.find s.directory l = none)
    (hn : (((s.core c).line l).map (·.1)).Nodup) (h64 : ∀ e ∈ (s.core c).line l, e.1 < 64) (k : Nat) :
    (s.evict c l).peek k = if k / 64 = l then ((s.core c).dirtyByte l (k % 64)).getD (s.peek k) else s.peek k := by
  let m := (s.core c).line l
  let bytes := m.filter fun e => e.2.dirty
  let plain := bytes.filter fun e => !e.2.poison
  let bad := bytes.filter fun e => e.2.poison
  let s1 := s.setCore c { s.core c with cv := Assoc.del (s.core c).cv l }
  let s2 := s1.homeWrite (lineCells l plain) false
  have hnb : (bytes.map (·.1)).Nodup := hn.sublist (List.filter_sublist.map _)
  have hnp : (plain.map (·.1)).Nodup := hnb.sublist (List.filter_sublist.map _)
  have hnd : (bad.map (·.1)).Nodup := hnb.sublist (List.filter_sublist.map _)
  have hp64 : ∀ e ∈ plain, e.1 < 64 := fun e he => h64 e (List.mem_of_mem_filter (List.mem_of_mem_filter he))
  have hb64 : ∀ e ∈ bad, e.1 < 64 := fun e he => h64 e (List.mem_of_mem_filter (List.mem_of_mem_filter he))
  have hd2 : Assoc.find s2.directory l = none := by
    have hstill : s2.still = s1.still := State.still_homeWrite (fun e he _ => by rw [lineCells_line hp64 e he]; exact hd) false
    rw [State.eq_of_still State.directory hstill]
    exact hd
  have hpeek : (s.evict c l).peek k = (s2.homeWrite (lineCells l bad) true).peek k := by
    unfold State.evict
    dsimp only
    split
    · rfl
    · exact State.peek_touchSlice ..
  rw [hpeek, State.peek_homeWrite_device hl hd2 (lineCells_line hb64) (lineCells_nodup hnd),
    State.peek_homeWrite_device (s := s1) hl hd (lineCells_line hp64) (lineCells_nodup hnp), find_lineCells k hb64, find_lineCells k hp64]
  by_cases hk : k / 64 = l
  · rw [if_pos hk, if_pos hk, if_pos hk, Assoc.find_filter_val CvByte.poison hnb, Assoc.find_filter_val (fun b => !b.poison) hnb,
      Assoc.find_filter_val CvByte.dirty hn, Core.dirtyByte]
    exact evicted_byte ..
  · rw [if_neg hk, if_neg hk, if_neg hk]
    rfl

/-- Routes and budgets let a line of device memory pass between a core's L1 and its home (R65, R71). -/
structure LinePasses (s : State) (c l : Nat) : Prop where
  device : keySpace (64 * l) = 0
  route : s.meshOpen c (homeRouter (64 * l)) = true
  ample : (s.core c).ample l1Who none

theorem LinePasses.l1Access {s : State} {c l : Nat} (h : LinePasses s c l) : ∃ t, s.l1Access c l = (true, t) ∧ Charged s t := by
  obtain ⟨t, ht, hc⟩ := State.meter_ample h.ample 1 2
  have hw : s.wayTo c (l * 64) = true := by
    rw [State.wayTo, Nat.mul_comm, h.device]
    exact h.route
  refine ⟨t, ?_, hc⟩
  rw [State.l1Access, if_neg (not_bnot hw)]
  exact ht

theorem exec_evict {s : State} (hp : LinePasses s s.input.core (lineOf s.input.addr))
    (h : (Assoc.find (s.core s.input.core).cv (lineOf s.input.addr)).isSome = true) :
    ∃ t, exec .evict s = .next (t.evict s.input.core (lineOf s.input.addr)) ∧ Charged s t := by
  obtain ⟨t, ht, hc⟩ := hp.l1Access
  have hx : exec .evict s = execEvict s := rfl
  rw [hx, execEvict, if_neg (by rw [Option.isNone_iff_eq_none, ← Option.not_isSome_iff_eq_none]; exact not_not_intro h)]
  split
  · exact ⟨s, rfl, .refl s⟩
  · rw [ht]
    exact ⟨t, rfl, hc⟩

theorem evict_holds (s : State) (hp : LinePasses s s.input.core (lineOf s.input.addr))
    (h : (Assoc.find (s.core s.input.core).cv (lineOf s.input.addr)).isSome = true)
    (hd : Assoc.find s.directory (lineOf s.input.addr) = none) (hn : (((s.core s.input.core).line (lineOf s.input.addr)).map (·.1)).Nodup)
    (h64 : ∀ e ∈ (s.core s.input.core).line (lineOf s.input.addr), e.1 < 64) :
    happens .evict s fun t => Assoc.find (t.core s.input.core).cv (lineOf s.input.addr) = none ∧
      ∀ k, t.peek k = if k / 64 = lineOf s.input.addr then
        ((s.core s.input.core).dirtyByte (lineOf s.input.addr) (k % 64)).getD (s.peek k) else s.peek k := by
  obtain ⟨t, ht, hc⟩ := exec_evict hp h
  have hline : (t.core s.input.core).line (lineOf s.input.addr) = (s.core s.input.core).line (lineOf s.input.addr) :=
    hc.eq_core (Core.line · _) _
  have hdir : Assoc.find t.directory (lineOf s.input.addr) = none := (congrArg (Assoc.find · _) (State.eq_of_bare State.directory hc.bare)).trans hd
  refine ⟨_, ht, ?_, fun k => ?_⟩
  · rw [State.core_evict, if_pos rfl]
    exact (Assoc.find_del ..).trans (if_pos rfl)
  · rw [State.peek_evict hp.device hdir (hline ▸ hn) (hline ▸ h64), hc.peek, Core.dirtyByte, hline, Core.dirtyByte]

/-! ### Fills -/

theorem Assoc.find_range_map {α : Type} (g : Nat → α) {n i : Nat} (hi : i < n) :
    Assoc.find ((List.range n).map fun i => (i, g i)) i = some (g i) := by
  refine Assoc.find_of_mem ?_ (List.mem_map.2 ⟨i, List.mem_range.2 hi, rfl⟩)
  simpa [Function.comp_def] using List.nodup_range

/-- A byte of a line after a fill. -/
def State.filledByte (s : State) (c l i : Nat) : CvByte :=
  let clean : CvByte := ⟨s.peek (l * 64 + i), false, s.poisoned (l * 64 + i)⟩
  match Assoc.find ((s.core c).line l) i with
  | some b => if b.dirty then b else clean
  | none => clean

theorem State.filledByte_val (s : State) (c l i : Nat) :
    (s.filledByte c l i).val = ((s.core c).dirtyByte l i).getD (s.peek (64 * l + i)) := by
  rw [State.filledByte, Core.dirtyByte, Nat.mul_comm l]
  cases Assoc.find ((s.core c).line l) i with
  | none => rfl
  | some b => cases h : b.dirty <;> simp [h]

theorem State.fill_eq {s : State} {l : Nat} (hl : keySpace (64 * l) = 0) (c : Nat) :
    s.fill c l = s.setCore c { s.core c with cv := Assoc.put (s.core c).cv l ((List.range 64).map fun i => (i, s.filledByte c l i)) } := by
  have hth : s.takeHost l = s := if_neg fun h => by
    simp only [keySpace] at hl
    omega
  rw [State.fill, hth]
  dsimp only
  refine congrArg (fun m => s.setCore c { s.core c with cv := Assoc.put (s.core c).cv l m }) (List.map_congr_left fun i _ => ?_)
  rw [State.filledByte]
  cases Assoc.find ((s.core c).line l) i with
  | none => rfl
  | some b => exact (apply_ite (fun b => (i, b)) _ _ _).symm

/-- A filled line holds its dirty bytes, and for the others what memory holds. -/
theorem State.line_fill {s : State} {l i : Nat} (hl : keySpace (64 * l) = 0) (c : Nat) (hi : i < 64) :
    (Assoc.find (((s.fill c l).core c).line l) i).map CvByte.val = some (((s.core c).dirtyByte l i).getD (s.peek (64 * l + i))) := by
  rw [State.fill_eq hl, State.core_setCore_same, Core.line, Assoc.find_put, if_pos rfl, Option.getD_some, Assoc.find_range_map _ hi,
    Option.map_some, State.filledByte_val]

theorem exec_fill {s : State} (hp : LinePasses s s.input.core (lineOf s.input.addr)) (hb : ∀ e ∈ s.biPending, e.1 ≠ lineOf s.input.addr)
    (h : ∃ i < 64, Assoc.find ((s.core s.input.core).line (lineOf s.input.addr)) i = none) :
    ∃ t, exec .fill s = .next ((t.fill s.input.core (lineOf s.input.addr)).touchSlice s.input.core (lineOf s.input.addr * 64) false) ∧ Charged s t := by
  obtain ⟨t, ht, hc⟩ := hp.l1Access
  obtain ⟨i, hi, hnone⟩ := h
  have hdev : keySpace (lineOf s.input.addr * 64) = 0 := (congrArg keySpace (Nat.mul_comm ..)).trans hp.device
  have habsent : ((List.range 64).any fun i => (Assoc.find ((s.core s.input.core).line (lineOf s.input.addr)) i).isNone) = true :=
    List.any_eq_true.2 ⟨i, List.mem_range.2 hi, by rw [hnone]; rfl⟩
  have hpend : (s.biPending.any fun e => e.1 = lineOf s.input.addr) = false := by simpa using hb
  have hx : exec .fill s = execFill s := rfl
  rw [hx, execFill]
  rw [if_neg (by rw [hdev, habsent, hpend]; decide), if_neg (by rw [hdev]; decide), ht]
  exact ⟨t, rfl, hc⟩

theorem fill_holds (s : State) (hp : LinePasses s s.input.core (lineOf s.input.addr)) (hb : ∀ e ∈ s.biPending, e.1 ≠ lineOf s.input.addr)
    (h : ∃ i < 64, Assoc.find ((s.core s.input.core).line (lineOf s.input.addr)) i = none) :
    happens .fill s fun t => (∀ k, t.peek k = s.peek k) ∧ ∀ i < 64,
      (Assoc.find ((t.core s.input.core).line (lineOf s.input.addr)) i).map CvByte.val =
        some (((s.core s.input.core).dirtyByte (lineOf s.input.addr) i).getD (s.peek (64 * lineOf s.input.addr + i))) := by
  obtain ⟨t, ht, hc⟩ := exec_fill hp hb h
  refine ⟨_, ht, fun k => ?_, fun i hi => ?_⟩
  · rw [State.peek_touchSlice, State.fill_eq hp.device]
    exact hc.peek k
  · rw [State.eq_of_still (State.core · _) (State.still_touchSlice ..), State.line_fill hp.device _ hi, hc.peek]
    exact congrArg (fun o => some (Option.getD o _)) (hc.eq_core (Core.dirtyByte · _ i) _)

end Sys2Proof.Machine
end

section
/-! SUPPORT. Stores that leave a store buffer as an event (R143, R144). -/

namespace Sys2Proof.Machine

/-! ### Stores that become dirty in CV -/

/-- The byte of a key in the first-level cache of a core. -/
def Core.cvByte (k : Core) (key : Nat) : Option CvByte := Assoc.find (k.line (lineOf key)) (key % 64)

/-- One byte of a store becomes dirty. -/
def Core.dirtied (k : Core) (whole : Nat → Bool) (p : Bool) (e : Nat × Byte) : Core :=
  { k with
    cv := Assoc.put k.cv (lineOf e.1)
      (Assoc.put (k.line (lineOf e.1)) (e.1 % 64) ⟨e.2, true, p || ((k.cvByte e.1).any CvByte.poison && !whole e.1)⟩) }

theorem Core.cvByte_dirtied (k : Core) (whole : Nat → Bool) (p : Bool) (e : Nat × Byte) (j : Nat) :
    (k.dirtied whole p e).cvByte j =
      if j = e.1 then some ⟨e.2, true, p || ((k.cvByte e.1).any CvByte.poison && !whole e.1)⟩ else k.cvByte j := by
  rw [Core.cvByte, Core.line, Core.dirtied, Assoc.find_put]
  by_cases hl : lineOf j = lineOf e.1
  · rw [if_pos hl, Option.getD_some, Assoc.find_put]
    simp only [lineOf] at hl
    by_cases hj : j = e.1
    · rw [if_pos hj, if_pos (by rw [hj])]
    · rw [if_neg hj, if_neg (by omega), Core.cvByte, lineOf, lineOf, hl]
  · rw [if_neg hl, if_neg fun h => hl (congrArg lineOf h)]
    rfl

/-- What a store that becomes dirty leaves of the state: all but the cache of its core. -/
structure Dirties (c : Nat) (s t : State) : Prop where
  bare : t.bare = s.bare
  sb : ∀ n, (t.ctx c n).sb = (s.ctx c n).sb

theorem State.dirtyCv_eq (s : State) (c : Nat) (cells : List (Nat × Byte)) (p : Bool) :
    s.dirtyCv c cells p = cells.foldl (fun s e => s.setCore c ((s.core c).dirtied
      (fun k => (List.range 32).all fun i => cells.any fun e => e.1 = k / 32 * 32 + i) p e)) s := rfl

section
variable (c : Nat) (whole : Nat → Bool) (p : Bool)

theorem Dirties.foldl (cells : List (Nat × Byte)) : ∀ s : State,
    Dirties c s (cells.foldl (fun s e => s.setCore c ((s.core c).dirtied whole p e)) s) := by
  induction cells with
  | nil => exact fun s => ⟨rfl, fun _ => rfl⟩
  | cons e cells ih =>
    intro s
    have h := ih (s.setCore c ((s.core c).dirtied whole p e))
    refine ⟨h.bare, fun n => (h.sb n).trans ?_⟩
    rw [State.ctx, State.core_setCore_same]
    rfl

theorem cvByte_foldl_other (cells : List (Nat × Byte)) {j : Nat} (h : ∀ e ∈ cells, e.1 ≠ j) : ∀ s : State,
    ((cells.foldl (fun s e => s.setCore c ((s.core c).dirtied whole p e)) s).core c).cvByte j = (s.core c).cvByte j := by
  induction cells with
  | nil => exact fun _ => rfl
  | cons e cells ih =>
    intro s
    rw [List.foldl_cons, ih (fun x hx => h x (List.mem_cons_of_mem _ hx)), State.core_setCore_same, Core.cvByte_dirtied,
      if_neg (Ne.symm (h e List.mem_cons_self))]

/-- Every byte of a store becomes dirty, with the mark that it had unless the store covers its sector. -/
theorem cvByte_foldl (cells : List (Nat × Byte)) (hn : (cells.map (·.1)).Nodup) : ∀ (s : State), ∀ x ∈ cells,
    ((cells.foldl (fun s e => s.setCore c ((s.core c).dirtied whole p e)) s).core c).cvByte x.1 =
      some ⟨x.2, true, p || (((s.core c).cvByte x.1).any CvByte.poison && !whole x.1)⟩ := by
  induction cells with
  | nil => exact fun _ _ hx => absurd hx List.not_mem_nil
  | cons e cells ih =>
    intro s x hx
    obtain ⟨he, hcells⟩ := List.nodup_cons.1 hn
    have hne : ∀ y ∈ cells, y.1 ≠ e.1 := fun y hy h => he (List.mem_map.2 ⟨y, hy, h⟩)
    rw [List.foldl_cons]
    obtain rfl | hx := List.mem_cons.1 hx
    · rw [cvByte_foldl_other c whole p cells hne, State.core_setCore_same, Core.cvByte_dirtied, if_pos rfl]
    · rw [ih hcells _ x hx, State.core_setCore_same, Core.cvByte_dirtied, if_neg (hne x hx)]

end

/-! ### The event -/

/-- The state in which an entry that has left the store buffer is applied. -/
def State.dropEntry (s : State) (c n : Nat) (rest : List SbEntry) : State := s.setCtx c n { s.ctx c n with sb := rest }

theorem State.sb_dropEntry (s : State) (c n : Nat) (rest : List SbEntry) : ((s.dropEntry c n rest).ctx c n).sb = rest := by
  rw [State.dropEntry, State.ctx_setCtx, if_pos ⟨rfl, rfl⟩]

section
variable {s : State} {e : SbEntry} {rest : List SbEntry} (hh : s.holding s.input.core s.input.slot = false)
  (he : takeEntry s.input.addr (s.ctx s.input.core s.input.slot).sb = some (e, rest)) (hw : s.entryWay s.input.core e = true)
include hh he hw

theorem exec_drain (hr : e.reach s.input.core = (0, 0, none) ∨
      (s.core s.input.core).ample s.input.slot (e.reach s.input.core).2.2) :
    ∃ t, exec .drain s = .next ((t.dropEntry s.input.core s.input.slot rest).applyEntry s.input.core s.input.slot e) ∧ Charged s t := by
  have hx : exec .drain s = execDrain s := rfl
  rw [hx, execDrain, if_neg (by rw [hh]; exact Bool.false_ne_true), he]
  dsimp only
  rw [if_neg (not_bnot hw)]
  by_cases hz : e.reach s.input.core = (0, 0, none)
  · rw [if_pos hz]
    exact ⟨s, rfl, .refl s⟩
  · obtain ⟨t, ht, hc⟩ := State.meter_ample (hr.resolve_left hz) (e.reach s.input.core).1 (e.reach s.input.core).2.1
    rw [if_neg hz, ht]
    exact ⟨t, rfl, hc⟩

end

/-- A store to local space that no fence cuts off and no watchpoint sees is written. -/
theorem State.applyEntry_local {s : State} {e : SbEntry} (hne : e.cells ≠ []) (hf : e.setFull = false)
    (hk : ∀ x ∈ e.cells, 3 ≤ keySpace x.1 ∧ s.keyFenced x.1 = false) (hw : ∀ x ∈ e.cells, s.unwatched (keyCore x.1) = true) (c n : Nat) :
    s.applyEntry c n e = s.writeH e.cells e.poison := by
  obtain ⟨⟨k, b⟩, cells, hc⟩ := List.exists_cons_of_ne_nil hne
  obtain ⟨h3, hfence⟩ : 3 ≤ keySpace k ∧ s.keyFenced k = false := hk (k, b) (hc ▸ List.mem_cons_self)
  have hun : ∀ key ∈ e.cells.map (·.1), (s.writeH e.cells e.poison).unwatched (keyCore key) = true := by
    intro key hkey
    obtain ⟨x, hx, rfl⟩ := List.mem_map.1 hkey
    exact (State.eq_of_still (State.unwatched · _) (s.still_writeH ..)).trans (hw x hx)
  unfold State.applyEntry
  split
  · exact absurd ‹_› hne
  · rename_i j v t hj
    obtain rfl : k = j := congrArg Prod.fst (List.cons.inj (hc.symm.trans hj)).1
    split
    · omega
    · omega
    · omega
    · rw [if_neg (by rw [hfence]; exact Bool.false_ne_true)]
      dsimp only
      rw [if_neg (by rw [hf]; exact Bool.false_ne_true), State.watchOwner_unwatched hun]

/-- A store to device or host memory that is not written through becomes dirty in CV. -/
theorem State.applyEntry_cached {s : State} {e : SbEntry} (hne : e.cells ≠ []) (ht : e.through = false) (hk : ∀ x ∈ e.cells, keySpace x.1 ≤ 1)
    (c n : Nat) : s.applyEntry c n e = s.dirtyCv c e.cells e.poison := by
  obtain ⟨⟨k, b⟩, cells, hc⟩ := List.exists_cons_of_ne_nil hne
  have h1 : keySpace k ≤ 1 := hk (k, b) (hc ▸ List.mem_cons_self)
  unfold State.applyEntry
  split
  · exact absurd ‹_› hne
  · rename_i j v t hj
    obtain rfl : k = j := congrArg Prod.fst (List.cons.inj (hc.symm.trans hj)).1
    have hif : ¬e.through = true := by rw [ht]; exact Bool.false_ne_true
    split
    · exact if_neg hif
    · exact if_neg hif
    · omega
    · rename_i h0 h1' _
      obtain h | h : keySpace k = 0 ∨ keySpace k = 1 := by omega
      · exact (h0 h).elim
      · exact (h1' h).elim

theorem SbEntry.reach_local {e : SbEntry} (hne : e.cells ≠ []) (hk : ∀ x ∈ e.cells, 3 ≤ keySpace x.1) (c : Nat) : (e.reach c).2.2 = none := by
  obtain ⟨⟨k, b⟩, cells, hc⟩ := List.exists_cons_of_ne_nil hne
  have h3 : 3 ≤ keySpace k := hk (k, b) (hc ▸ List.mem_cons_self)
  rw [SbEntry.reach, hc]
  show (if (keySpace k ≤ 1 && !e.through) = true then _ else Sys2Proof.Machine.reach c k e.port).2.2 = none
  rw [if_neg (by simp; omega), Sys2Proof.Machine.reach.eq_def]
  split
  · omega
  · omega
  · omega
  · split <;> rfl
  · rfl
  · rfl

theorem drainLocal_holds (s : State) (e : SbEntry) (rest : List SbEntry) (hh : s.holding s.input.core s.input.slot = false)
    (he : takeEntry s.input.addr (s.ctx s.input.core s.input.slot).sb = some (e, rest)) (hn : (e.cells.map (·.1)).Nodup) (hne : e.cells ≠ [])
    (hf : e.setFull = false) (hway : s.entryWay s.input.core e = true)
    (hr : e.reach s.input.core = (0, 0, none) ∨ s.input.slot = 0 ∨
      (s.core s.input.core).dramLim = 0xFFFF_FFFF ∧ (s.core s.input.core).injLim = 0xFFFF_FFFF ∧ (s.core s.input.core).governor = [])
    (hk : ∀ x ∈ e.cells, 3 ≤ keySpace x.1 ∧ s.keyFenced x.1 = false) (hw : ∀ x ∈ e.cells, s.unwatched (keyCore x.1) = true) :
    happens .drain s fun t => (t.ctx s.input.core s.input.slot).sb = rest ∧ (∀ x ∈ e.cells, t.peek x.1 = x.2) ∧
      ∀ k, (∀ x ∈ e.cells, x.1 ≠ k) → t.peek k = s.peek k := by
  have hpod := SbEntry.reach_local hne (fun x hx => (hk x hx).1) s.input.core
  have hample : e.reach s.input.core = (0, 0, none) ∨ (s.core s.input.core).ample s.input.slot (e.reach s.input.core).2.2 :=
    hr.imp id fun h => h.imp id fun ⟨hd, hi, hg⟩ => ⟨hd, hi, hg, fun h => absurd hpod h⟩
  obtain ⟨t, ht, hc⟩ := exec_drain hh he hway hample
  let u := t.dropEntry s.input.core s.input.slot rest
  have hpeek (k : Nat) : u.peek k = s.peek k := hc.peek k
  have hku : ∀ x ∈ e.cells, 3 ≤ keySpace x.1 ∧ u.keyFenced x.1 = false := fun x hx =>
    ⟨(hk x hx).1, (State.eq_of_bare (State.keyFenced · x.1) (show u.bare = s.bare from hc.bare)).trans (hk x hx).2⟩
  have hwu : ∀ x ∈ e.cells, u.unwatched (keyCore x.1) = true := by
    intro x hx
    refine (State.unwatched_congr ?_).trans (hw x hx)
    refine Eq.trans ?_ (hc.eq_core Core.watches _)
    rw [show u = t.setCtx _ _ _ from rfl, State.core_setCtx]
    split
    · rename_i hcore
      rw [hcore]
      rfl
    · rfl
  rw [State.applyEntry_local hne hf hku hwu] at ht
  refine ⟨_, ht, ?_, fun x hx => State.peek_writeH_mem hn hx u e.poison, fun k hk => ?_⟩
  · rw [State.eq_of_still (State.ctx · s.input.core s.input.slot) (State.still_writeH ..), State.sb_dropEntry]
  · rw [State.peek_writeH_other hk]
    exact hpeek k

theorem drainCached_holds (s : State) (e : SbEntry) (rest : List SbEntry) (hh : s.holding s.input.core s.input.slot = false)
    (he : takeEntry s.input.addr (s.ctx s.input.core s.input.slot).sb = some (e, rest)) (hn : (e.cells.map (·.1)).Nodup) (hne : e.cells ≠ [])
    (hth : e.through = false) (hk : ∀ x ∈ e.cells, keySpace x.1 ≤ 1) :
    happens .drain s fun t => (t.ctx s.input.core s.input.slot).sb = rest ∧ (∀ k, t.peek k = s.peek k) ∧
      ∀ x ∈ e.cells, ∃ p, (t.core s.input.core).cvByte x.1 = some ⟨x.2, true, p⟩ ∧ (e.poison = true → p = true) ∧
        (((s.core s.input.core).cvByte x.1).any CvByte.poison = false → p = e.poison) := by
  obtain ⟨⟨k, b⟩, cells, hcells⟩ := List.exists_cons_of_ne_nil hne
  have h1 : keySpace k ≤ 1 := hk (k, b) (hcells ▸ List.mem_cons_self)
  have hhead : (e.cells.map (·.1)).headD 0 = k := by rw [hcells]; rfl
  have hway : s.entryWay s.input.core e = true := by
    rw [State.entryWay, hhead]
    simp [h1, hth]
  have hreach : e.reach s.input.core = (0, 0, none) := by
    rw [SbEntry.reach, hhead]
    simp [h1, hth]
  obtain ⟨t, ht, hc⟩ := exec_drain hh he hway (.inl hreach)
  rw [State.applyEntry_cached hne hth hk, State.dirtyCv_eq] at ht
  let u := t.dropEntry s.input.core s.input.slot rest
  generalize hwhole : (fun k => (List.range 32).all fun i => e.cells.any fun e => e.1 = k / 32 * 32 + i) = whole at ht
  have hd := Dirties.foldl s.input.core whole e.poison e.cells u
  have hcv : ∀ x, (u.core s.input.core).cvByte x = (s.core s.input.core).cvByte x := by
    intro x
    refine Eq.trans ?_ (hc.eq_core (Core.cvByte · x) s.input.core)
    rw [show u = t.setCtx _ _ _ from rfl, State.core_setCtx, if_pos rfl]
    rfl
  refine ⟨_, ht, (hd.sb _).trans (State.sb_dropEntry ..), fun k => ?_, fun x hx => ⟨_, cvByte_foldl s.input.core whole e.poison e.cells hn u x hx, ?_, ?_⟩⟩
  · exact (State.eq_of_bare (State.peek · k) hd.bare).trans (hc.peek k)
  · intro hp
    rw [hp, Bool.true_or]
  · intro hp
    rw [hcv, hp, Bool.false_and, Bool.or_false]

/-- R144, R145: the moves of the caches. -/
theorem cacheMoves_holds : cacheMoves := by
  intro s c n l free dirty
  have hpass (h0 : keySpace (64 * l) = 0) (hfree : free) : LinePasses s c l := by
    obtain ⟨hroute, hd, hi, hg⟩ := hfree
    exact ⟨h0, hroute, .inr ⟨hd, hi, hg, fun h => absurd rfl h⟩⟩
  refine ⟨fun e rest hh he hn hne => ⟨?_, drainCached_holds s e rest hh he hn hne⟩, fun h h0 hd hfree => evict_holds s (hpass h0 hfree) h hd,
    fun h0 hfree => fill_holds s (hpass h0 hfree)⟩
  exact drainLocal_holds s e rest hh he hn hne

end Sys2Proof.Machine
end

section
/-! SUPPORT. The links to other members (R18, R20 to R26), and O44. -/

namespace Sys2Proof.Machine

/-! ### Requests that are applied (R20, R22) -/

section
variable {s : State} {r : RemoteReq} (hr : s.remote[s.input.index]? = some r)
include hr

/-- Request `index` is applied, when it has left and every earlier one of its page has been applied. -/
theorem exec_forward (ha : r.applied = false) (hs : r.sent ≠ none)
    (hf : ∀ j < s.input.index, ∀ q, s.remote[j]? = some q → q.applied = true ∨ q.page ≠ r.page) :
    exec .forward s = .next { (s.applyRemote r).2 with remote := s.remote.set s.input.index (s.applyRemote r).1 } := by
  have hfirst : s.firstOfPage s.input.index r (fun q => !q.applied) = true := by
    rw [State.firstOfPage, Bool.not_eq_true', List.any_eq_false]
    intro q hq
    obtain ⟨j, hj, hjq⟩ := List.mem_iff_getElem.1 hq
    rw [List.length_take] at hj
    have hget : s.remote[j]? = some q := by
      rw [← hjq, List.getElem_take, List.getElem?_eq_getElem (by omega)]
    obtain h | h := hf j (by omega) q hget
    · simp [h]
    · simp [h]
  have hsome : r.sent.isNone = false := Option.isNone_eq_false_iff.2 (Option.isSome_iff_ne_none.2 hs)
  show execForward s = _
  rw [execForward, hr]
  dsimp only
  rw [ha, hsome, hfirst]
  rfl

theorem exec_remoteResponse (ha : r.applied = true) :
    exec .remoteResponse s = .next (State.answer { s with remote := s.remote.eraseIdx s.input.index } r) := by
  show execRemoteResponse s = _
  rw [execRemoteResponse, hr]
  exact if_pos ha

theorem exec_linkTimeout {at_ : Nat} (hs : r.sent = some at_) (ht : at_ + 54000 ≤ s.cycle) :
    exec .linkTimeout s = .next (State.expire { s with remote := s.remote.eraseIdx s.input.index } r) := by
  show execLinkTimeout s = _
  rw [execLinkTimeout, hr]
  exact if_pos (by simp [hs, ht])

end

theorem forwardLine_holds {s : State} {r : RemoteReq} (hop : r.op = .line) :
    s.applyRemote r = ({ r with applied := true, data := s.peeks r.key 64, marks := s.lineMarks r.key }, s) := by
  rw [State.applyRemote, hop]

theorem forwardStore_holds {s : State} {r : RemoteReq} {cells : List (Nat × Byte)} {p : Bool} (hop : r.op = .store cells p) :
    s.applyRemote r = ({ r with applied := true }, s.writeH cells p) := by
  rw [State.applyRemote, hop]

/-! ### Answers that reach a context (R21, R23 to R25) -/

/-- The context that a request was made for still runs. -/
structure Asked (s : State) (r : RemoteReq) : Prop where
  slot : r.slot < 12
  live : (s.ctx r.core r.slot).live = true
  gen : (s.ctx r.core r.slot).gen = r.gen

theorem Asked.asks {s : State} {r : RemoteReq} (h : Asked s r) : r.asks = r.slot := by
  have := h.slot
  rw [RemoteReq.asks, if_pos (by omega)]

theorem Asked.asker {s : State} {r : RemoteReq} (h : Asked s r) : s.asker r = true := by
  rw [State.asker, h.asks]
  simp [h.live, h.gen]

theorem State.remote_fill (s : State) (c l : Nat) : (s.fill c l).remote = s.remote := by
  show (s.takeHost l).remote = s.remote
  exact State.eq_of_still State.remote (s.still_takeHost l)

theorem State.ctx_fill (s : State) (c l d n : Nat) : (s.fill c l).ctx d n = s.ctx d n := by
  have htake (d : Nat) : (s.takeHost l).core d = s.core d := State.eq_of_still (State.core · d) (s.still_takeHost l)
  rw [State.ctx, State.fill]
  dsimp only
  rw [State.core_setCore]
  split
  · rename_i hd
    rw [hd]
    show ((s.takeHost l).core c).ctx n = _
    rw [htake]
    rfl
  · rw [htake]
    rfl

theorem State.remote_lose (s : State) (c n : Nat) : (s.lose c n).remote = s.remote := by
  unfold State.lose State.pairKeeps
  dsimp only
  split <;> rfl

theorem State.ctx_lose (s : State) (c n : Nat) : (s.lose c n).ctx c n = (s.ctx c n).lose := by
  have h : (s.setCtx c n (s.ctx c n).lose).ctx c n = (s.ctx c n).lose := (State.ctx_setCtx ..).trans (if_pos ⟨rfl, rfl⟩)
  unfold State.lose State.pairKeeps
  dsimp only
  split
  · rw [State.ctx, State.core_setCore_same]
    exact h
  · exact h

/-- A line that its context awaits arrives. -/
theorem State.lineArrives_awaited {s : State} {r : RemoteReq} {keep : Bool} (f : Fetch)
    (h : Assoc.find (s.ctx r.core r.slot).fetched (lineOf r.key) = some ⟨false, false, [], 0, keep⟩) :
    (s.lineArrives r f).remote = s.remote ∧
      Assoc.find ((s.lineArrives r f).ctx r.core r.slot).fetched (lineOf r.key) = some { f with keep := keep } := by
  let x := s.ctx r.core r.slot
  let y : Ctx := { x with fetched := Assoc.put x.fetched (lineOf r.key) { f with keep := keep } }
  let t := s.setCtx r.core r.slot y
  have hl : s.lineArrives r f = if keep && !f.lost then t.fill r.core (lineOf r.key) else t := by
    rw [State.lineArrives]
    dsimp only
    rw [h]
    rfl
  have hy : Assoc.find y.fetched (lineOf r.key) = some { f with keep := keep } := (Assoc.find_put ..).trans (if_pos rfl)
  have ht : t.ctx r.core r.slot = y := (State.ctx_setCtx ..).trans (if_pos ⟨rfl, rfl⟩)
  rw [hl]
  split
  · rw [State.remote_fill, State.ctx_fill, ht]
    exact ⟨rfl, hy⟩
  · rw [ht]
    exact ⟨rfl, hy⟩

/-- The only atomic that a context has run ahead of is answered. -/
theorem Ctx.lateArrives_only {x : Ctx} {id : Nat} {d : GReg} {ty : Ty} (hl : x.lates = [⟨id, some d, ty⟩]) (old : Nat) (mark : Bool) :
    x.lateArrives id old mark = some ((Ctx.writeG { x with lates := [] } d.toNat (ext ty old)).mark d.toNat mark) := by
  have hf : ([⟨id, some d, ty⟩] : List Late).filter (fun e => e.id ≠ id) = [] := by simp
  rw [Ctx.lateArrives, hl, List.find?_cons_of_pos (by simp), Option.map_some, hf]

section
variable {s : State} {r : RemoteReq} (ha : Asked s r)
include ha

theorem answer_line {keep : Bool} (hop : r.op = .line) (h : Assoc.find (s.ctx r.core r.slot).fetched (lineOf r.key) = some ⟨false, false, [], 0, keep⟩) :
    (s.answer r).remote = s.remote ∧
      Assoc.find ((s.answer r).ctx r.core r.slot).fetched (lineOf r.key) = some ⟨true, false, r.data, r.marks, keep⟩ := by
  have hslot := ha.slot
  have hx : s.answer r = s.lineArrives r ⟨true, false, r.data, r.marks, false⟩ := by
    rw [State.answer, if_neg (by omega), if_neg (not_bnot ha.asker)]
    dsimp only
    rw [hop]
  rw [hx]
  exact State.lineArrives_awaited _ h

theorem expire_line {keep : Bool} (hop : r.op = .line) (h : Assoc.find (s.ctx r.core r.slot).fetched (lineOf r.key) = some ⟨false, false, [], 0, keep⟩) :
    (s.expire r).remote = s.remote ∧
      Assoc.find ((s.expire r).ctx r.core r.slot).fetched (lineOf r.key) = some ⟨true, true, [], 0, keep⟩ := by
  have hslot := ha.slot
  have hx : s.expire r = s.lineArrives r ⟨true, true, [], 0, false⟩ := by
    rw [State.expire]
    dsimp only
    rw [if_neg (by omega), if_neg (not_bnot ha.asker), hop]
  rw [hx]
  exact State.lineArrives_awaited _ h

theorem State.loseFor_asked : s.loseFor r = s.lose r.core r.slot := by
  rw [State.loseFor, ha.asks, if_pos]
  simp [ha.asker, show r.slot < 16 from Nat.lt_of_lt_of_le ha.slot (by decide)]

variable {n : Nat} {op : HomeOp} {p : Bool} (hop : r.op = .atomic n op p)
include hop

/-- The answer to an atomic that the context has run ahead of. -/
theorem answer_atomic_late {y : Ctx} (h : (s.ctx r.core r.slot).lateArrives r.id (bitsOfBytes r.data) (bit r.marks 0) = some y) :
    s.answer r = s.setCtx r.core r.slot (if bit r.marks 0 then y.cirSet cirPoison else y) := by
  have hslot := ha.slot
  rw [State.answer, if_neg (by omega), if_neg (not_bnot ha.asker)]
  dsimp only
  rw [hop]
  dsimp only
  rw [h]

/-- The answer to an atomic that the context waits for. -/
theorem answer_atomic_waiting (h : (s.ctx r.core r.slot).lateArrives r.id (bitsOfBytes r.data) (bit r.marks 0) = none)
    (hw : (s.ctx r.core r.slot).remote = .outstanding r.id) :
    s.answer r = s.setCtx r.core r.slot { s.ctx r.core r.slot with remote := .answered (bitsOfBytes r.data) (bit r.marks 0) } := by
  have hslot := ha.slot
  rw [State.answer, if_neg (by omega), if_neg (not_bnot ha.asker)]
  dsimp only
  rw [hop]
  dsimp only
  rw [h]
  exact if_pos hw

/-- The old value of an atomic reaches the register that its context has named, and the context runs ahead of nothing more. -/
theorem answer_late {d : GReg} {ty : Ty} (hl : (s.ctx r.core r.slot).lates = [⟨r.id, some d, ty⟩]) (hd : d ≠ 0) :
    (s.answer r).remote = s.remote ∧ ((s.answer r).ctx r.core r.slot).lates = [] ∧
      ((s.answer r).ctx r.core r.slot).readG d.toNat = ext ty (bitsOfBytes r.data) := by
  let y : Ctx := (Ctx.writeG { s.ctx r.core r.slot with lates := [] } d.toNat (ext ty (bitsOfBytes r.data))).mark d.toNat (bit r.marks 0)
  have hlate : (s.ctx r.core r.slot).lateArrives r.id (bitsOfBytes r.data) (bit r.marks 0) = some y := Ctx.lateArrives_only hl ..
  have hd0 : d.toNat ≠ 0 := fun h => hd (BitVec.eq_of_toNat_eq h)
  have hlates : y.lates = [] := by
    show Ctx.lates (Ctx.writeG _ _ _) = []
    rw [Ctx.writeG, if_neg hd0]
  have hread : y.readG d.toNat = ext ty (bitsOfBytes r.data) :=
    (Ctx.readG_mark ..).trans ((Ctx.readG_writeG ..).trans (if_pos ⟨rfl, hd0⟩))
  have hx := answer_atomic_late ha hop hlate
  have hctx : (s.answer r).ctx r.core r.slot = if bit r.marks 0 then y.cirSet cirPoison else y := by
    rw [hx]
    exact (State.ctx_setCtx ..).trans (if_pos ⟨rfl, rfl⟩)
  have hcir : (y.cirSet cirPoison).lates = [] ∧ (y.cirSet cirPoison).readG d.toNat = ext ty (bitsOfBytes r.data) := ⟨hlates, hread⟩
  refine ⟨by rw [hx]; rfl, ?_⟩
  rw [hctx]
  split
  · exact hcir
  · exact ⟨hlates, hread⟩

theorem answer_waiting (hl : (s.ctx r.core r.slot).lates = []) (hw : (s.ctx r.core r.slot).remote = .outstanding r.id) :
    (s.answer r).remote = s.remote ∧
      ((s.answer r).ctx r.core r.slot).remote = .answered (bitsOfBytes r.data) (r.marks.getLsbD 0) := by
  have hlate : (s.ctx r.core r.slot).lateArrives r.id (bitsOfBytes r.data) (bit r.marks 0) = none := by
    rw [Ctx.lateArrives, hl]
    rfl
  rw [answer_atomic_waiting ha hop hlate hw, State.ctx_setCtx, if_pos ⟨rfl, rfl⟩]
  exact ⟨rfl, rfl⟩

/-- A lost atomic that its context waits for counts in LOSTW (R26). -/
theorem expire_waiting (hl : (s.ctx r.core r.slot).lates = []) (hw : (s.ctx r.core r.slot).remote = .outstanding r.id)
    (hm : (s.ctx r.core r.slot).lostw ≠ 0xFFFF_FFFF) :
    (s.expire r).remote = s.remote ∧ ((s.expire r).ctx r.core r.slot).remote = .lost ∧
      ((s.expire r).ctx r.core r.slot).lostw = (s.ctx r.core r.slot).lostw + 1 := by
  have hslot := ha.slot
  have hctx : (s.lose r.core r.slot).ctx r.core r.slot = (s.ctx r.core r.slot).lose := State.ctx_lose ..
  have hlate (old : Nat) : ((s.lose r.core r.slot).ctx r.core r.slot).lateArrives r.id old true = none := by
    rw [hctx, Ctx.lateArrives, show (s.ctx r.core r.slot).lose.lates = [] from hl]
    rfl
  have hx : s.expire r = (s.lose r.core r.slot).setCtx r.core r.slot { (s.ctx r.core r.slot).lose with remote := .lost } := by
    rw [State.expire]
    dsimp only
    rw [if_neg (by omega), if_neg (not_bnot ha.asker), hop]
    dsimp only
    rw [State.loseFor_asked ha, hlate]
    dsimp only
    rw [hctx]
    exact if_pos hw
  rw [hx, State.ctx_setCtx, if_pos ⟨rfl, rfl⟩]
  exact ⟨State.remote_lose .., rfl, if_neg hm⟩

end

/-- R18, R20 to R26: the links to other members. -/
theorem linkEvents_holds : linkEvents := by
  intro s i
  refine ⟨fun r hr => ?_, ?_⟩
  · intro x l asked
    have hask (h : asked) : Asked { s with remote := s.remote.eraseIdx i } r := ⟨h.1, h.2.1, h.2.2⟩
    refine ⟨fun ha hs hf => ⟨fun hop => ?_, fun k b p hop => ?_⟩, fun ha h => ⟨fun keep hop hl => ?_, fun n op p d ty hop hl hd => ?_, fun n op p hop hl hw => ?_⟩,
      fun at_ hs ht h => ⟨fun keep hop hl => ?_, fun n op p hop hl hw hm => ?_⟩⟩
    · refine ⟨_, exec_forward hr ha hs hf, ?_⟩
      rw [forwardLine_holds hop]
      exact ⟨fun _ => rfl, rfl⟩
    · refine ⟨_, exec_forward hr ha hs hf, ?_⟩
      rw [forwardStore_holds hop]
      refine ⟨rfl, State.peek_writeH_mem (by simp) List.mem_cons_self s p, fun j hj => State.peek_writeH_other (cells := [(k, b)]) ?_ s p⟩
      simpa using Ne.symm hj
    · exact ⟨_, exec_remoteResponse hr ha, answer_line (hask h) hop hl⟩
    · exact ⟨_, exec_remoteResponse hr ha, answer_late (hask h) hop hl hd⟩
    · exact ⟨_, exec_remoteResponse hr ha, answer_waiting (hask h) hop hl hw⟩
    · exact ⟨_, exec_linkTimeout hr hs ht, expire_line (hask h) hop hl⟩
    · exact ⟨_, exec_linkTimeout hr hs ht, expire_waiting (hask h) hop hl hw hm⟩
  · exact ⟨_, rfl, (Assoc.get_put ..).trans (if_pos rfl), rfl⟩

/-- Settles O44. -/
theorem memoryEvents : Obligations.MemoryEvents := ⟨mailboxAnswers_holds, hostAccesses_holds, cacheMoves_holds, linkEvents_holds⟩

end Sys2Proof.Machine
end

section
/-! SUPPORT. Fields of register words by masks. -/

namespace Sys2Proof.Machine

theorem ofNat_field (v : Word) (n lo : Nat) :
    BitVec.ofNat 64 (v.toNat / 2 ^ lo % 2 ^ n * 2 ^ lo) = v &&& BitVec.ofNat 64 ((2 ^ n - 1) * 2 ^ lo) := by
  refine BitVec.eq_of_getLsbD_eq fun i hi => ?_
  simp only [BitVec.getLsbD_and, BitVec.getLsbD_ofNat, hi, decide_true, Bool.true_and, Nat.testBit_mul_two_pow, Nat.testBit_mod_two_pow,
    Nat.testBit_div_two_pow, Nat.testBit_two_pow_sub_one]
  by_cases hlo : lo ≤ i
  · have hadd : i - lo + lo = i := by omega
    by_cases hn : i - lo < n <;> simp [hlo, hn, hadd, BitVec.testBit_toNat]
  · simp [hlo]

/-- A field that is kept in its place. -/
theorem packed_field (v : Word) (hi lo : Nat) :
    packed [(bits v hi lo, lo)] = v &&& BitVec.ofNat 64 ((2 ^ (hi - lo + 1) - 1) * 2 ^ lo) := by
  rw [← ofNat_field v]
  exact congrArg (BitVec.ofNat 64) (Nat.zero_add _)

/-- A field above another value. -/
theorem packed_above (v : Word) (hi : Nat) {lo x : Nat} (hx : x < 2 ^ lo) :
    packed [(bits v hi lo, lo), (x, 0)] = v &&& BitVec.ofNat 64 ((2 ^ (hi - lo + 1) - 1) * 2 ^ lo) ||| BitVec.ofNat 64 x := by
  have hor : bits v hi lo * 2 ^ lo + x = bits v hi lo * 2 ^ lo ||| x := by
    rw [Nat.mul_comm]
    exact Nat.two_pow_add_eq_or_of_lt hx _
  rw [← ofNat_field v]
  show BitVec.ofNat 64 (0 + bits v hi lo * 2 ^ lo + x * 2 ^ 0) = BitVec.ofNat 64 (bits v hi lo * 2 ^ lo) ||| BitVec.ofNat 64 x
  rw [Nat.zero_add, Nat.pow_zero, Nat.mul_one, hor, BitVec.ofNat_or]

/-- A field at the low end. -/
theorem ofNat_low (v : Word) (n : Nat) : BitVec.ofNat 64 (v.toNat % 2 ^ n) = v &&& BitVec.ofNat 64 (2 ^ n - 1) := by
  have hf := ofNat_field v n 0
  rwa [Nat.pow_zero, Nat.div_one, Nat.mul_one, Nat.mul_one] at hf

theorem bits_low {w : Nat} (v : BitVec w) (n : Nat) : bits v n 0 = v.toNat % 2 ^ (n + 1) := by
  rw [bits, Nat.pow_zero, Nat.div_one, Nat.sub_zero]

end Sys2Proof.Machine
end

section
/-! SUPPORT. Register writes of a core that are events of their own (R122, R124, R177, R350, R353). -/

namespace Sys2Proof.Machine

/-! ### A core alone -/

theorem onlyCore_setCore (s : State) (c : Nat) (k : Core) : onlyCore s (s.setCore c k) c :=
  ⟨rfl, fun _ hd => (State.core_setCore ..).trans (if_neg hd)⟩

theorem onlyCore_trans {s t u : State} {c : Nat} (h : onlyCore s t c) (h' : onlyCore t u c) : onlyCore s u c :=
  ⟨h'.1.trans h.1, fun d hd => (h'.2 d hd).trans (h.2 d hd)⟩

theorem happens_setCore {i : Instr} {s : State} {c : Nat} {k : Core} (h : exec i s = .next (s.setCore c k)) {q : Core → Prop} (hq : q k) :
    happens i s fun t => onlyCore s t c ∧ q (t.core c) :=
  ⟨_, h, onlyCore_setCore s c k, (State.core_setCore_same s c k).symm ▸ hq⟩

/-! ### SPLIT (R122) -/

theorem Assoc.find_clear {α : Type} (m : Assoc α) {lo hi k : Nat} (h1 : lo ≤ k) (h2 : k < hi) : Assoc.find (Assoc.clear m lo hi) k = none := by
  refine Assoc.find_eq_none.2 fun e he hk => ?_
  have hc := (List.mem_filter.1 he).2
  simp only [Bool.or_eq_true, decide_eq_true_eq] at hc
  omega

theorem State.core_evictAll (s : State) (c : Nat) (ls : List Nat) :
    (s.evictAll c ls).core c = { s.core c with cv := ls.foldl Assoc.del (s.core c).cv } := by
  induction ls generalizing s with
  | nil => rfl
  | cons l ls ih =>
    rw [State.evictAll, ih, State.core_evict, if_pos rfl]
    rfl

/-- Nothing is left of a cache whose lines have all been evicted. -/
theorem State.cv_evictAll (s : State) (c : Nat) : ((s.evictAll c ((s.core c).cv.map (·.1))).core c).cv = [] := by
  rw [State.core_evictAll]
  refine List.eq_nil_iff_forall_not_mem.2 fun e he => ?_
  obtain ⟨hm, hn⟩ := Assoc.mem_foldl_del _ he
  exact hn (List.mem_map_of_mem hm)

/-- The scratchpad of a core is zeroed, and its full bits clear. -/
def State.zeroScratch (s : State) (c : Nat) : State :=
  let lo := keyScratch c 0
  let hi := keyScratch (c + 1) 0
  { s with mem := Assoc.clear s.mem lo hi, poison := Assoc.clear s.poison lo hi, full := Assoc.clear s.full (lo / 8) (hi / 8) }

theorem State.zeroScratch_reads (s : State) {c o : Nat} (hc : c < 1024) (ho : o < 2 ^ 24) :
    (s.zeroScratch c).peek (keyScratch c o) = 0 ∧ (s.zeroScratch c).fullBit (keyScratch c o) = false := by
  have hspace : keySpace (keyScratch c o) ≠ 5 := by
    simp only [keySpace, keyScratch]
    omega
  have hlo : keyScratch c 0 ≤ keyScratch c o := by
    simp only [keyScratch]
    omega
  have hhi : keyScratch c o < keyScratch (c + 1) 0 := by
    simp only [keyScratch]
    omega
  have hfull : keyScratch c o / 8 < keyScratch (c + 1) 0 / 8 := by
    simp only [keyScratch] at hhi ⊢
    omega
  constructor
  · rw [State.peek, Memory.read, show Assoc.find (s.zeroScratch c).mem (keyScratch c o) = none from Assoc.find_clear _ hlo hhi]
    exact if_neg hspace
  · rw [State.fullBit, Assoc.get_eq_find,
      show Assoc.find (s.zeroScratch c).full (keyScratch c o / 8) = none from Assoc.find_clear _ (Nat.div_le_div_right hlo) hfull]
    rfl

theorem State.writeSplit_refused (s : State) (c : Nat) {v : Word} (h : 12 ≤ v.toNat % 16) : s.writeSplit c v = s :=
  if_pos (by rw [bits_low]; exact h)

/-- An accepted write of SPLIT, when the router holds nothing for the core. -/
theorem State.writeSplit_accepted {s : State} {c : Nat} {v : Word} (h : v.toNat % 16 < 12) (hb : (s.core c).bootHeld = []) :
    ∃ (u : State) (k : Core), s.writeSplit c v = u.setCore c k ∧ u.bare = ((s.evictAll c ((s.core c).cv.map (·.1))).zeroScratch c).bare ∧
      k.split = v.setWidth 4 ∧ k.cv = [] ∧ k.swzCtl.getLsbD 0 = false := by
  let t := (s.evictAll c ((s.core c).cv.map (·.1))).zeroScratch c
  let k : Core := { t.core c with split := BitVec.ofNat 4 (bits v 3 0), swzCtl := putBits (t.core c).swzCtl 0 0 0 }
  have hcore : (t.setCore c k).core c = k := State.core_setCore_same ..
  have hx : s.writeSplit c v = (t.setCore c k).bootRelease c := if_neg (by rw [bits_low]; exact Nat.not_le.2 h)
  have hheld : k.bootHeld = [] := by
    show ((s.evictAll c ((s.core c).cv.map (·.1))).core c).bootHeld = []
    rw [State.core_evictAll]
    exact hb
  have hsplit : k.split = v.setWidth 4 := by
    refine BitVec.eq_of_toNat_eq ?_
    simp [k, bits]
  have hcv : k.cv = [] := s.cv_evictAll c
  have hswz : k.swzCtl.getLsbD 0 = false := by
    show (putBits _ 0 0 0).getLsbD 0 = false
    rw [getLsbD_putBits_below _ 0 0 0 (by decide)]
    rfl
  by_cases h0 : k.split = 0
  · refine ⟨t, k, ?_, rfl, hsplit, hcv, hswz⟩
    rw [hx, State.bootRelease, hcore]
    exact if_pos h0
  · refine ⟨t.setCore c k, { k with bootHeld := [] }, ?_, rfl, hsplit, hcv, hswz⟩
    rw [hx, State.bootRelease, hcore]
    refine (if_neg h0).trans ?_
    rw [hheld]
    rfl

theorem splitWrite_holds (s : State) (h : s.input.word.toNat % 16 < 12) (hb : (s.core s.input.core).bootHeld = []) (hc : s.input.core < 1024) :
    happens .splitWrite s fun t => (t.core s.input.core).split = s.input.word.setWidth 4 ∧ (t.core s.input.core).cv = [] ∧
      (t.core s.input.core).swzCtl.getLsbD 0 = false ∧
      ∀ o < 2 ^ 24, t.peek (keyScratch s.input.core o) = 0 ∧ t.fullBit (keyScratch s.input.core o) = false := by
  obtain ⟨u, k, hx, hbare, hk⟩ := State.writeSplit_accepted h hb
  refine ⟨_, congrArg Host.Outcome.next hx, ?_⟩
  dsimp only
  rw [State.core_setCore_same]
  obtain ⟨hsplit, hcv, hswz⟩ := hk
  refine ⟨hsplit, hcv, hswz, fun o ho => ?_⟩
  have hz := State.zeroScratch_reads (s.evictAll s.input.core ((s.core s.input.core).cv.map (·.1))) hc ho
  exact ⟨(State.eq_of_bare (State.peek · _) hbare).trans hz.1, (State.eq_of_bare (State.fullBit · _) hbare).trans hz.2⟩

/-! ### SWZBASE and SWZCTL (R124) -/

theorem swzBase_written (v : Word) : packed [(bits v 20 12, 12)] = v &&& 0x1FF000#64 := packed_field v 20 12

theorem swzCtl_written (v : Word) : packed [(bits v 16 8, 8), (bits v 1 0, 0)] = v &&& 0x1FF03#64 := by
  have hb : bits v 1 0 < 2 ^ 8 := Nat.lt_of_lt_of_le (Nat.mod_lt _ (by decide)) (by decide)
  rw [packed_above v 16 hb, bits_low, ofNat_low, ← BitVec.and_or_distrib_left]
  rfl

theorem swzCtl_cleared (v : Word) : v &&& 0x1FF03#64 &&& ~~~1#64 = v &&& 0x1FF02#64 := by
  rw [BitVec.and_assoc]
  rfl

/-- The length and the base of the window, as the written words give them. -/
theorem swzFields (v : Word) : bits (v &&& 0x1FF000#64) 20 12 = v.toNat / 2 ^ 12 % 2 ^ 9 ∧ bits (v &&& 0x1FF03#64) 16 8 = v.toNat / 2 ^ 8 % 2 ^ 9 := by
  have hb : bits v 20 12 < 2 ^ 9 := Nat.mod_lt _ (by decide)
  have hm : bits v 16 8 < 2 ^ 9 := Nat.mod_lt _ (by decide)
  have hl : bits v 1 0 < 4 := Nat.mod_lt _ (by decide)
  rw [← swzBase_written, ← swzCtl_written]
  refine ⟨Eq.trans ?_ (show bits v 20 12 = _ from rfl), Eq.trans ?_ (show bits v 16 8 = _ from rfl)⟩
  · rw [bits.eq_def (packed _), packed, BitVec.toNat_ofNat]
    simp only [List.foldl]
    omega
  · rw [bits.eq_def (packed _), packed, BitVec.toNat_ofNat]
    simp only [List.foldl]
    omega

theorem Core.swzBase_swzCheck (k : Core) : k.swzCheck.swzBase = k.swzBase := by
  unfold Core.swzCheck
  dsimp only
  split <;> rfl

theorem Core.swzCtl_swzCheck {k : Core} {m base : Nat} (hm : bits k.swzCtl 16 8 = m) (hb : bits k.swzBase 20 12 = base) :
    k.swzCheck.swzCtl = if m = 0 ∨ k.scratchSize < base * 4096 + m * 4096 then k.swzCtl &&& ~~~1#64 else k.swzCtl := by
  subst hm hb
  unfold Core.swzCheck
  dsimp only
  split
  · exact putBits_low_zero k.swzCtl 0
  · rfl

theorem swizzleBase_holds (s : State) (hf : s.input.flag = false) :
    let c := s.input.core
    let v := s.input.word
    happens .swizzleWrite s fun t => onlyCore s t c ∧ (t.core c).swzBase = v &&& 0x1FF000#64 ∧
      (t.core c).swzCtl = if (s.core c).swzCtl.toNat / 2 ^ 8 % 2 ^ 9 = 0 ∨ (s.core c).scratchSize <
        v.toNat / 2 ^ 12 % 2 ^ 9 * 4096 + (s.core c).swzCtl.toNat / 2 ^ 8 % 2 ^ 9 * 4096 then (s.core c).swzCtl &&& ~~~1#64 else (s.core c).swzCtl := by
  intro c v
  have hx : exec .swizzleWrite s = .next (s.setCore c ((s.core c).writeSwzBase v)) := by
    show execSwizzleWrite s = _
    rw [execSwizzleWrite]
    rw [if_neg (by rw [hf]; exact Bool.false_ne_true)]
  refine happens_setCore (q := fun k => k.swzBase = v &&& 0x1FF000#64 ∧ k.swzCtl = _) hx ?_
  rw [Core.writeSwzBase, swzBase_written]
  exact ⟨Core.swzBase_swzCheck _, Core.swzCtl_swzCheck rfl (swzFields v).1⟩

theorem swizzleCtl_holds (s : State) (hf : s.input.flag = true) :
    let c := s.input.core
    let v := s.input.word
    happens .swizzleWrite s fun t => onlyCore s t c ∧ (t.core c).swzBase = (s.core c).swzBase ∧
      (t.core c).swzCtl = if v.toNat / 2 ^ 8 % 2 ^ 9 = 0 ∨ (s.core c).scratchSize <
        (s.core c).swzBase.toNat / 2 ^ 12 % 2 ^ 9 * 4096 + v.toNat / 2 ^ 8 % 2 ^ 9 * 4096 then v &&& 0x1FF02#64 else v &&& 0x1FF03#64 := by
  intro c v
  have hx : exec .swizzleWrite s = .next (s.setCore c ((s.core c).writeSwzCtl v)) := by
    show execSwizzleWrite s = _
    rw [execSwizzleWrite]
    rw [if_pos hf]
  refine happens_setCore (q := fun k => k.swzBase = (s.core c).swzBase ∧ k.swzCtl = _) hx ?_
  rw [Core.writeSwzCtl, swzCtl_written, ← swzCtl_cleared]
  exact ⟨Core.swzBase_swzCheck _, Core.swzCtl_swzCheck (swzFields v).2 rfl⟩

/-! ### FPCTL and WDCTL (R177, R350) -/

theorem fpctl_written (old v : Word) :
    fpctlWrite old v = (v &&& 0xFFFFFFFF00000000#64) ||| (if 6 ≤ v.toNat % 8 then old &&& 7#64 else v &&& 7#64) := by
  have hv : bits v 2 0 = v.toNat % 8 := bits_low v 2
  have ho : bits old 2 0 = old.toNat % 8 := bits_low old 2
  have h : (if 6 ≤ bits v 2 0 then bits old 2 0 else bits v 2 0) < 2 ^ 32 := by
    rw [hv, ho]
    split <;> omega
  rw [fpctlWrite, packed_above v 63 h, hv, ho, apply_ite (BitVec.ofNat 64)]
  exact congrArg (_ ||| ·) (congrArg₂ (ite _) (ofNat_low old 3) (ofNat_low v 3))

theorem wdctl_written (old v : Word) :
    wdctlWrite old v = (v &&& 0x100#64) ||| (if 16 ≤ v.toNat % 64 ∧ v.toNat % 64 ≤ 40 then v &&& 0x3F#64 else old &&& 0x3F#64) := by
  have hv : bits v 5 0 = v.toNat % 64 := bits_low v 5
  have ho : bits old 5 0 = old.toNat % 64 := bits_low old 5
  have h : (if 16 ≤ bits v 5 0 ∧ bits v 5 0 ≤ 40 then bits v 5 0 else bits old 5 0) < 2 ^ 8 := by
    rw [hv, ho]
    split <;> omega
  rw [wdctlWrite, packed_above v 8 h, hv, ho, apply_ite (BitVec.ofNat 64)]
  exact congrArg (_ ||| ·) (congrArg₂ (ite _) (ofNat_low v 6) (ofNat_low old 6))

theorem fpctlWrite_holds (s : State) :
    let c := s.input.core
    let n := s.input.slot
    let v := s.input.word
    let x := s.ctx c n
    happens .fpctlWrite s fun t => onlyCore s t c ∧ t.ctx c n = { x with fpctl := (v &&& 0xFFFFFFFF00000000#64) |||
      (if 6 ≤ v.toNat % 8 then x.fpctl &&& 7#64 else v &&& 7#64) } := by
  intro c n v x
  refine ⟨_, rfl, onlyCore_setCore s c _, ?_⟩
  rw [State.ctx_setCtx, if_pos ⟨rfl, rfl⟩, fpctl_written]

theorem wdctlWrite_holds (s : State) :
    let c := s.input.core
    let v := s.input.word
    let k := s.core c
    happens .wdctlWrite s fun t => onlyCore s t c ∧ t.core c = { k with
      wdctl := (v &&& 0x100#64) ||| (if 16 ≤ v.toNat % 64 ∧ v.toNat % 64 ≤ 40 then v &&& 0x3F#64 else k.wdctl &&& 0x3F#64)
      wdSince := if k.wdctl.getLsbD 8 then k.wdSince else s.cycle } := by
  intro c v k
  refine ⟨s.writeWdctl c v, rfl, ?_⟩
  rw [State.writeWdctl, wdctl_written]
  dsimp only
  generalize hw : (v &&& 0x100#64) ||| (if 16 ≤ v.toNat % 64 ∧ v.toNat % 64 ≤ 40 then v &&& 0x3F#64 else k.wdctl &&& 0x3F#64) = w
  have ht : onlyCore s (s.setCore c { k with wdctl := w }) c := onlyCore_setCore ..
  have hk : (s.setCore c { k with wdctl := w }).core c = { k with wdctl := w } := State.core_setCore_same ..
  have hcy : (s.setCore c { k with wdctl := w }).cycle = s.cycle := rfl
  generalize s.setCore c { k with wdctl := w } = t at ht hk hcy
  cases h : k.wdctl.getLsbD 8 with
  | true =>
    rw [if_pos (by exact h)]
    exact ⟨ht, hk⟩
  | false =>
    rw [if_neg (by rw [bit, h]; exact Bool.false_ne_true), State.wdRestart, hk, hcy]
    exact ⟨onlyCore_trans ht (onlyCore_setCore ..), State.core_setCore_same ..⟩

end Sys2Proof.Machine
end

section
/-! SUPPORT. MRESUME and BRESUME (R353), and the clause of the core's registers. -/

namespace Sys2Proof.Machine

/-! ### MRESUME -/

theorem State.matResume_parked {s : State} {c : Nat} (h : (s.core c).matPark.isSome = true) :
    s.matResume c = s.setCore c { s.core c with matPark := none } :=
  if_pos (if_pos h)

theorem State.matAbort_parked {s : State} {c : Nat} (h : (s.core c).matPark.isSome = true) :
    s.matAbort c = s.setCore c { (s.core c).unitOver .matrix with
      matPark := none, matq := [], chain := false, acnq := (s.core c).acnq.map fun x => { x with after := 0 } } :=
  if_pos (if_pos h)

theorem Core.matState_unparked {k : Core} (h : k.matPark = none) : k.matState ≠ 2 := by
  rw [Core.matState, h, if_neg (by decide)]
  split <;> decide

/-! ### BRESUME -/

theorem Core.bulkState_parked {k : Core} : k.bulkState = 2 ↔ (k.bulkPark.isSome || k.copyPark.isSome) = true := by
  unfold Core.bulkState
  split
  · simp_all
  · split <;> simp_all

/-- The head command of an engine that has not parked goes on. -/
theorem State.headAbort_unparked {s : State} {c : Nat} {u : EngUnit} (h : (s.core c).bulkParked u = none) : s.headAbort c u = s := by
  unfold State.headAbort
  dsimp only
  split
  · rfl
  · exact if_pos (by rw [h]; rfl)

/-- A copy that has been parked, taken back: what it has asked for is not awaited any more, and its fresh pages are in the pool again. -/
def State.takeBack (s : State) (c : Nat) (cmd : BulkCmd) : State :=
  let s := s.setCore c { s.core c with copyPark := none }
  let s := s.giveShadow c ((cmd.fresh.getD []).map fun x => x.2.2)
  s.setCore c { s.core c with engineLines := (s.core c).engineLines.filter fun x => !(cmd.acks.map fun a => ackKey a.2).contains x.1 }

theorem State.cores_giveShadow (s : State) (c : Nat) (pages : List Nat) : (s.giveShadow c pages).cores = s.cores := by
  unfold State.giveShadow
  split <;> rfl

theorem State.mem_giveShadow (s : State) (c : Nat) (pages : List Nat) : (s.giveShadow c pages).mem = s.mem := by
  unfold State.giveShadow
  split <;> rfl

theorem State.mem_takeBack (s : State) (c : Nat) (cmd : BulkCmd) : (s.takeBack c cmd).mem = s.mem := State.mem_giveShadow ..

theorem State.core_takeBack (s : State) (c : Nat) (cmd : BulkCmd) :
    (s.takeBack c cmd).core c = { s.core c with
      copyPark := none
      engineLines := (s.core c).engineLines.filter fun x => !(cmd.acks.map fun a => ackKey a.2).contains x.1 } := by
  have hg : ∀ t : State, (t.giveShadow c ((cmd.fresh.getD []).map fun x => x.2.2)).core c = t.core c := fun t => by
    rw [State.core, State.cores_giveShadow, State.core]
  rw [State.takeBack]
  dsimp only
  rw [State.core_setCore_same, hg, State.core_setCore_same]

section
variable {s : State} {c : Nat} {cmd : BulkCmd} {rest : List BulkCmd}

/-- A parked copy ends: SECTOR_LOST is recorded at its object, now or when the object can be reached. -/
theorem State.headAbort_copy (hp : (s.core c).copyPark.isSome = true) (hq : (s.core c).copyq = cmd :: rest) (hu : cmd.op.unit = .copy) :
    s.headAbort c .copy =
      if s.objectWaits (bulkEng c cmd) cmd.op.object then
        ((s.takeBack c cmd).setHead c { cmd with aborted := true, asked := [], acks := [], fresh := none }).unitOver c .copy
      else ((((s.takeBack c cmd).bulkPop c .copy).unitOver c .copy).atObject (bulkEng c cmd) cmd.op.object (.barError 4)).2 := by
  have hq' : (s.core c).bulkQueue .copy = cmd :: rest := hq
  have hp' : ¬((s.core c).bulkParked .copy).isNone = true := by
    show ¬(s.core c).copyPark.isNone = true
    rw [Option.isNone_iff_eq_none, ← Option.not_isSome_iff_eq_none]
    exact not_not_intro hp
  unfold State.headAbort
  dsimp only
  rw [hq']
  dsimp only
  rw [if_neg hp']
  cases hop : cmd.op with
  | bread =>
    rw [hop] at hu
    cases hu
  | copy => rfl
  | copym => rfl

/-- A core whose copy engine has let go of its head command. -/
def Core.popCopy (k : Core) (rest : List BulkCmd) (p : Assoc (List Place)) : Core :=
  Core.unitOver { k.setBulkQueue .copy rest with engPlaces := p } .copy

theorem Core.copyPark_popCopy (k : Core) (rest : List BulkCmd) (p : Assoc (List Place)) : (k.popCopy rest p).copyPark = k.copyPark := rfl
theorem Core.copyq_popCopy (k : Core) (rest : List BulkCmd) (p : Assoc (List Place)) : (k.popCopy rest p).copyq = rest := rfl
theorem Core.bulkq_popCopy (k : Core) (rest : List BulkCmd) (p : Assoc (List Place)) : (k.popCopy rest p).bulkq = k.bulkq := rfl

theorem State.bulkQueue_takeBack (hq : (s.core c).copyq = cmd :: rest) : ((s.takeBack c cmd).core c).bulkQueue .copy = cmd :: rest := by
  rw [State.core_takeBack]
  exact hq

theorem abortCopyWaits_holds (hp : (s.core c).copyPark.isSome = true) (hb : (s.core c).bulkPark = none) (hq : (s.core c).copyq = cmd :: rest)
    (hu : cmd.op.unit = .copy) (hw : s.objectWaits (bulkEng c cmd) cmd.op.object = true) :
    ((s.bulkAbort c).core c).copyPark = none ∧
      ((s.bulkAbort c).core c).copyq = { cmd with aborted := true, asked := [], acks := [], fresh := none } :: rest ∧
      ∀ k, (s.bulkAbort c).peek k = s.peek k := by
  have hx : s.bulkAbort c = _ := (congrArg (State.headAbort · c .copy) (State.headAbort_unparked (u := .bulk) hb)).trans
    ((State.headAbort_copy hp hq hu).trans (if_pos hw))
  have hk : (s.bulkAbort c).core c =
      (((s.takeBack c cmd).core c).setBulkQueue .copy ({ cmd with aborted := true, asked := [], acks := [], fresh := none } :: rest)).unitOver .copy := by
    rw [hx, State.unitOver, State.core_setCore_same, State.setHead, State.core_setCore_same]
    show Core.unitOver (Core.setBulkQueue _ cmd.op.unit (_ :: (Core.bulkQueue _ cmd.op.unit).drop 1)) _ = _
    rw [hu, State.bulkQueue_takeBack hq]
    rfl
  refine ⟨?_, congrArg Core.copyq hk, fun k => ?_⟩
  · rw [hk, State.core_takeBack]
    rfl
  · rw [hx]
    exact State.peek_of_mem (s.mem_takeBack c cmd) k

theorem abortCopyReached_holds (hp : (s.core c).copyPark.isSome = true) (hb : (s.core c).bulkPark = none) (hq : (s.core c).copyq = cmd :: rest)
    (hu : cmd.op.unit = .copy) (hw : s.objectWaits (bulkEng c cmd) cmd.op.object = false) :
    ∃ u : State, (u.core c).copyPark = none ∧ (u.core c).copyq = rest ∧ (u.core c).bulkq = (s.core c).bulkq ∧ (∀ k, u.peek k = s.peek k) ∧
      s.bulkAbort c = (u.atObject (bulkEng c cmd) cmd.op.object (.barError 4)).2 := by
  have hx : s.bulkAbort c = _ := (congrArg (State.headAbort · c .copy) (State.headAbort_unparked (u := .bulk) hb)).trans
    ((State.headAbort_copy hp hq hu).trans (if_neg (by rw [hw]; exact Bool.false_ne_true)))
  have hk : ∃ p, (((s.takeBack c cmd).bulkPop c .copy).unitOver c .copy).core c = ((s.takeBack c cmd).core c).popCopy rest p := by
    rw [State.unitOver, State.core_setCore_same, State.bulkPop, State.bulkOver, State.core_setCore_same, State.bulkQueue_takeBack hq]
    exact ⟨_, rfl⟩
  obtain ⟨p, hk⟩ := hk
  have htb := s.core_takeBack c cmd
  refine ⟨((s.takeBack c cmd).bulkPop c .copy).unitOver c .copy, ?_, ?_, ?_, fun k => State.peek_of_mem (Eq.trans ?_ (s.mem_takeBack c cmd)) k, hx⟩
  · rw [hk, Core.copyPark_popCopy, htb]
  · rw [hk, Core.copyq_popCopy]
  · rw [hk, Core.bulkq_popCopy, htb]
  · rfl

/-! ### A parked `bread` -/

/-- The request of a `bread` is over. -/
def State.finishRequest (s : State) (c id : Nat) : State :=
  match Assoc.find (s.core c).requests id with
  | some r => s.setCore c { s.core c with requests := Assoc.put (s.core c).requests id { r with finished := true } }
  | none => s

theorem State.finishRequest_found {s : State} {c id : Nat} {r : Request} (h : Assoc.find (s.core c).requests id = some r) :
    s.finishRequest c id = s.setCore c { s.core c with requests := Assoc.put (s.core c).requests id { r with finished := true } } := by
  rw [State.finishRequest, h]

variable {id rows cols row64 : Nat} {base : Ptr} {stride : Int} (hp : (s.core c).bulkPark.isSome = true) (hc : (s.core c).copyPark = none)
  (hq : (s.core c).bulkq = cmd :: rest) (hop : cmd.op = .bread id base stride rows cols row64)
include hp hc hq hop

omit hc in
theorem State.headAbort_bread :
    let t := s.setCore c { s.core c with bulkPark := none }
    s.headAbort c .bulk = if !cmd.asked.isEmpty then t.setHead c { cmd with aborted := true }
      else (t.bulkPop c .bulk).finishRequest c id := by
  have hq' : (s.core c).bulkQueue .bulk = cmd :: rest := hq
  have hp' : ¬((s.core c).bulkParked .bulk).isNone = true := by
    show ¬(s.core c).bulkPark.isNone = true
    rw [Option.isNone_iff_eq_none, ← Option.not_isSome_iff_eq_none]
    exact not_not_intro hp
  unfold State.headAbort
  dsimp only
  rw [hq']
  dsimp only
  rw [if_neg hp', hop]
  rfl

/-- A parked `bread` that still waits for bursts ends once they have come. -/
theorem bulkAbort_asked (ha : cmd.asked ≠ []) :
    onlyCore s (s.bulkAbort c) c ∧
      (s.bulkAbort c).core c = { s.core c with bulkPark := none, bulkq := { cmd with aborted := true } :: rest } := by
  let k : Core := { s.core c with bulkPark := none }
  let k' : Core := { s.core c with bulkPark := none, bulkq := { cmd with aborted := true } :: rest }
  have hhead : s.headAbort c .bulk = (s.setCore c k).setCore c k' := by
    refine (State.headAbort_bread hp hq hop).trans ((if_pos (by simpa using ha)).trans ?_)
    rw [State.setHead, State.core_setCore_same]
    show State.setCore _ _ (Core.setBulkQueue k cmd.op.unit (_ :: (Core.bulkQueue k cmd.op.unit).drop 1)) = _
    rw [show cmd.op.unit = .bulk by rw [hop]; rfl]
    show State.setCore _ _ (Core.setBulkQueue k .bulk (_ :: (s.core c).bulkq.drop 1)) = _
    rw [hq]
    rfl
  have hk : ((s.setCore c k).setCore c k').core c = k' := State.core_setCore_same ..
  have hx : s.bulkAbort c = (s.setCore c k).setCore c k' := by
    rw [State.bulkAbort, hhead]
    exact State.headAbort_unparked (by rw [hk]; exact hc)
  rw [hx]
  exact ⟨onlyCore_trans (onlyCore_setCore ..) (onlyCore_setCore ..), hk⟩

/-- A parked `bread` that waits for no burst leaves its queue, and its request is over. -/
theorem bulkAbort_unasked {r : Request} (hr : Assoc.find (s.core c).requests id = some r) (ha : cmd.asked = []) :
    onlyCore s (s.bulkAbort c) c ∧ ((s.bulkAbort c).core c).bulkPark = none ∧ ((s.bulkAbort c).core c).bulkq = rest ∧
      ((s.bulkAbort c).core c).copyq = (s.core c).copyq ∧ Assoc.find ((s.bulkAbort c).core c).requests id = some { r with finished := true } := by
  let k : Core := { s.core c with bulkPark := none }
  have hpop : ∃ p, (s.setCore c k).bulkPop c .bulk = (s.setCore c k).setCore c { s.core c with bulkPark := none, bulkq := rest, engPlaces := p } := by
    rw [State.bulkPop, State.bulkOver, State.core_setCore_same, show Core.bulkQueue k .bulk = cmd :: rest from hq]
    exact ⟨_, rfl⟩
  obtain ⟨p, hpop⟩ := hpop
  let k' : Core := { s.core c with
    bulkPark := none, bulkq := rest, engPlaces := p, requests := Assoc.put (s.core c).requests id { r with finished := true } }
  have hhead : s.headAbort c .bulk = ((s.setCore c k).bulkPop c .bulk).setCore c k' := by
    refine (State.headAbort_bread hp hq hop).trans ((if_neg (by simp [ha])).trans ?_)
    have hreq : (((s.setCore c k).bulkPop c .bulk).core c).requests = (s.core c).requests := by
      rw [hpop, State.core_setCore_same]
    rw [State.finishRequest_found (hreq ▸ hr), hpop, State.core_setCore_same]
  have hk : (((s.setCore c k).bulkPop c .bulk).setCore c k').core c = k' := State.core_setCore_same ..
  have hx : s.bulkAbort c = ((s.setCore c k).bulkPop c .bulk).setCore c k' := by
    rw [State.bulkAbort, hhead]
    exact State.headAbort_unparked (by rw [hk]; exact hc)
  have honly : onlyCore s ((s.setCore c k).bulkPop c .bulk) c := hpop ▸ onlyCore_trans (onlyCore_setCore ..) (onlyCore_setCore ..)
  rw [hx, hk]
  exact ⟨onlyCore_trans honly (onlyCore_setCore ..), rfl, rfl, rfl, (Assoc.find_put ..).trans (if_pos rfl)⟩

end

end Sys2Proof.Machine
end

section
/-! SUPPORT. The registers of a core that have an event of their own, together. -/

namespace Sys2Proof.Machine

/-! ### MRESUME and BRESUME by what is parked -/

/-- What OP 2 leaves of a core whose matrix engine has parked. -/
def Core.matAborted (k : Core) : Core :=
  { k.unitOver .matrix with matPark := none, matq := [], chain := false, acnq := k.acnq.map fun x => { x with after := 0 } }

theorem Core.matAborted_fields (k : Core) :
    k.matAborted.matPark = none ∧ k.matAborted.matq = [] ∧ k.matAborted.chain = false ∧ k.matAborted.tiles = k.tiles := ⟨rfl, rfl, rfl, rfl⟩

theorem mresumeParked_holds (s : State) (h : (s.core s.input.core).matPark.isSome = true) :
    let c := s.input.core
    (happens .mresumeResume s fun t => onlyCore s t c ∧ t.core c = { s.core c with matPark := none }) ∧
      happens .mresumeAbort s fun t => onlyCore s t c ∧ (t.core c).matPark = none ∧ (t.core c).matq = [] ∧ (t.core c).chain = false ∧
        (t.core c).tiles = (s.core c).tiles := by
  intro c
  have hr : exec .mresumeResume s = _ := congrArg Host.Outcome.next (State.matResume_parked h)
  have ha : exec .mresumeAbort s = .next (s.setCore c (s.core c).matAborted) := congrArg Host.Outcome.next (State.matAbort_parked h)
  exact ⟨happens_setCore (q := (· = { s.core c with matPark := none })) hr rfl,
    happens_setCore (q := fun k => k.matPark = none ∧ k.matq = [] ∧ k.chain = false ∧ k.tiles = (s.core c).tiles) ha (Core.matAborted_fields _)⟩

theorem mresumeUnparked_holds (s : State) (h : (s.core s.input.core).matPark = none) :
    (happens .mresumeResume s fun t => t = s) ∧ happens .mresumeAbort s fun t => t = s :=
  ⟨⟨_, rfl, if_neg (Core.matState_unparked h)⟩, ⟨_, rfl, if_neg (Core.matState_unparked h)⟩⟩

theorem bresumeResume_parked (s : State) (h : (s.core s.input.core).bulkPark.isSome = true ∨ (s.core s.input.core).copyPark.isSome = true) :
    let c := s.input.core
    happens .bresumeResume s fun t => onlyCore s t c ∧ t.core c = { s.core c with bulkPark := none, copyPark := none } := by
  intro c
  have hx : s.bulkResume c = s.setCore c { s.core c with bulkPark := none, copyPark := none } :=
    if_pos (Core.bulkState_parked.2 (Bool.or_eq_true_iff.2 h))
  exact happens_setCore (q := (· = { s.core c with bulkPark := none, copyPark := none })) (congrArg _ hx) rfl

theorem bresumeUnparked_holds (s : State) (hb : (s.core s.input.core).bulkPark = none) (hc : (s.core s.input.core).copyPark = none) :
    (happens .bresumeResume s fun t => t = s) ∧ happens .bresumeAbort s fun t => t = s := by
  refine ⟨⟨_, rfl, if_neg fun h => ?_⟩, ⟨_, rfl, ?_⟩⟩
  · have hp := Core.bulkState_parked.1 h
    rw [hb, hc] at hp
    cases hp
  · rw [State.bulkAbort, State.headAbort_unparked (u := .bulk) hb]
    exact State.headAbort_unparked (u := .copy) hc

/-! ### Writes by number -/

theorem registerWrite_numbered {s : State} {r : Reg} (hr : regOf s.input.index = some r) (hf : s.input.flag = false) (ho : r.ownEvent = false)
    (hs : r.supervisor = true → s.input.slot = 0) :
    exec .registerWrite s = .next (s.writeReg s.input.core s.input.slot r s.input.word) := by
  have hn : ¬(r.ownEvent || (r.supervisor && decide (s.input.slot ≠ 0))) = true := by
    simpa [ho] using hs
  show execRegisterWrite s = _
  rw [execRegisterWrite]
  rw [if_neg (by rw [hf]; exact Bool.false_ne_true), hr]
  exact if_neg hn

theorem registerWrite_qtBase {s : State} (hf : s.input.flag = true) (hi : s.input.index = 0x10) :
    exec .registerWrite s = .next { s with qtBase := s.input.word &&& 0x7FFFFF0000#64 } := by
  have hw : s.writeBar0 s.input.index s.input.word = { s with qtBase := s.input.word &&& 0x7FFFFF0000#64 } := by
    rw [State.writeBar0, if_pos hi, packed_field]
    rfl
  show execRegisterWrite s = _
  rw [execRegisterWrite]
  rw [if_pos hf, hw]

theorem coreRegisters_holds : coreRegisters := by
  intro s
  refine ⟨fun h => ⟨_, rfl, State.writeSplit_refused s _ h⟩, splitWrite_holds s, ⟨swizzleBase_holds s, swizzleCtl_holds s⟩, fpctlWrite_holds s,
    wdctlWrite_holds s, mresumeParked_holds s, mresumeUnparked_holds s, bresumeResume_parked s, ?_, ?_, ?_, bresumeUnparked_holds s,
    fun r => registerWrite_numbered, registerWrite_qtBase⟩
  · exact fun cmd rest id base stride rows cols row64 r hp hc hq hop hr =>
      ⟨fun ha => ⟨_, rfl, bulkAbort_unasked hp hc hq hop hr ha⟩, fun ha => ⟨_, rfl, bulkAbort_asked hp hc hq hop ha⟩⟩
  · exact fun cmd rest hp hb hq hu hw => ⟨_, rfl, abortCopyWaits_holds hp hb hq hu hw⟩
  · intro cmd rest hp hb hq hu hw
    obtain ⟨u, hpark, hcopy, hbulk, hpeek, hx⟩ := abortCopyReached_holds hp hb hq hu hw
    exact ⟨u, hpark, hcopy, hbulk, hpeek, congrArg Host.Outcome.next hx⟩

end Sys2Proof.Machine
end

section
/-! SUPPORT. The registers of a slice, of the pod configuration and of the interrupts (R52, R67 to R69, R202, R378). -/

namespace Sys2Proof.Machine

/-! ### A slice alone -/

theorem State.slice_setSlice (s : State) (cl d : Nat) (l : Slice) : (s.setSlice cl l).slice d = if d = cl then l else s.slice d := by
  by_cases hd : d = cl
  · subst hd
    exact Assoc.get_set ..
  · rw [if_neg hd]
    show Assoc.get _ (Assoc.set _ s.slices cl l) d = Assoc.get _ s.slices d
    rw [Assoc.set]
    split
    · exact (Assoc.get_del ..).trans (if_neg hd)
    · exact (Assoc.get_put ..).trans (if_neg hd)

/-- Slice `cl` has become `l`, and every other slice is as it was. -/
def onlySlice (s t : State) (cl : Nat) (l : Slice) : Prop := t.slice cl = l ∧ ∀ d, d ≠ cl → t.slice d = s.slice d

theorem onlySlice_setSlice {s t : State} (h : t.slice = s.slice) (cl : Nat) (l : Slice) : onlySlice s (t.setSlice cl l) cl l :=
  ⟨(State.slice_setSlice ..).trans (if_pos rfl), fun d hd => ((State.slice_setSlice ..).trans (if_neg hd)).trans (congrFun h d)⟩

theorem State.slice_of_slices {s t : State} (hs : t.slices = s.slices) (hf : t.flash = s.flash) : t.slice = s.slice := by
  funext cl
  rw [State.slice, State.slice, hs, hf]

/-! ### WAYMASK (R68) -/

theorem Assoc.find_clear_outside {α : Type} (m : Assoc α) {lo hi k : Nat} (h : k < lo ∨ hi ≤ k) : Assoc.find (Assoc.clear m lo hi) k = Assoc.find m k :=
  Assoc.find_filter m (fun j => decide (j < lo) || decide (hi ≤ j)) (by simpa using h)

/-- The way of a slice is zeroed, and its marks clear. -/
def State.zeroWay (cl : Nat) (s : State) (w : Nat) : State :=
  let lo := keyL2 cl w 0
  { s with mem := Assoc.clear s.mem lo (lo + 0x20000), poison := Assoc.clear s.poison lo (lo + 0x20000) }

theorem State.slice_zeroWays (cl : Nat) (ws : List Nat) (s : State) : (ws.foldl (State.zeroWay cl) s).slice = s.slice := by
  induction ws generalizing s with
  | nil => rfl
  | cons w ws ih => exact ih _

theorem keyL2_inside (cl : Nat) {w x o : Nat} (ho : o < 2 ^ 17) :
    keyL2 cl x 0 ≤ keyL2 cl w o ∧ keyL2 cl w o < keyL2 cl x 0 + 0x20000 ↔ w = x := by
  simp only [keyL2]
  omega

theorem State.find_zeroWays (cl : Nat) (ws : List Nat) (s : State) {w o : Nat} (ho : o < 2 ^ 17) :
    Assoc.find (ws.foldl (State.zeroWay cl) s).mem (keyL2 cl w o) = if w ∈ ws then none else Assoc.find s.mem (keyL2 cl w o) := by
  induction ws generalizing s with
  | nil => rfl
  | cons x ws ih =>
    rw [List.foldl_cons, ih]
    by_cases hx : w = x
    · obtain ⟨h1, h2⟩ := (keyL2_inside cl ho).2 hx
      rw [show Assoc.find (s.zeroWay cl x).mem (keyL2 cl w o) = none from Assoc.find_clear _ h1 h2, if_pos (List.mem_cons.2 (.inl hx)), ite_self]
    · have hout : keyL2 cl w o < keyL2 cl x 0 ∨ keyL2 cl x 0 + 0x20000 ≤ keyL2 cl w o := by
        have hin := mt (keyL2_inside cl ho).1 hx
        omega
      rw [show Assoc.find (s.zeroWay cl x).mem (keyL2 cl w o) = Assoc.find s.mem _ from Assoc.find_clear_outside _ hout]
      simp [hx]

/-- The ways whose bits of MASK change. -/
def changedWays (old new : BitVec 16) : List Nat := (List.range 16).filter fun i => bit new i && !bit old i || bit old i && !bit new i

theorem mem_changedWays {old new : BitVec 16} {w : Nat} (hw : w < 16) : w ∈ changedWays old new ↔ new.getLsbD w ≠ old.getLsbD w := by
  rw [changedWays, List.mem_filter, List.mem_range, bit, bit]
  cases new.getLsbD w <;> cases old.getLsbD w <;> simp [hw]

theorem State.peek_l2 (s : State) {cl w o : Nat} (hcl : cl < 256) (hw : w < 16) (ho : o < 2 ^ 17) :
    s.peek (keyL2 cl w o) = (Assoc.find s.mem (keyL2 cl w o)).getD 0 := by
  have hspace : keySpace (keyL2 cl w o) ≠ 5 := by
    simp only [keySpace, keyL2]
    omega
  rw [State.peek, Memory.read]
  cases Assoc.find s.mem (keyL2 cl w o) with
  | some b => rfl
  | none => exact if_neg hspace

theorem mask_of_word (v : Word) : BitVec.ofNat 16 (bits v 15 0) = v.setWidth 16 := by
  refine BitVec.eq_of_toNat_eq ?_
  simp [bits]

theorem clusterOf_lt {c : Nat} (h : c < 1024) : clusterOf c < 256 := by
  simp only [clusterOf, coreX, coreY]
  omega

theorem State.writeMask_clean {s : State} {cl : Nat} (h : (s.slice cl).clean = true) (v : Word) :
    s.writeMask cl (bits v 15 0) = ((changedWays (s.slice cl).mask (v.setWidth 16)).foldl (State.zeroWay cl) s).setSlice cl
      { s.slice cl with mask := v.setWidth 16, clean := false } := by
  rw [State.writeMask, mask_of_word]
  exact if_neg (by rw [h]; decide)

theorem State.writeMask_unclean {s : State} {cl : Nat} (h : (s.slice cl).clean = false) (v : Word) :
    s.writeMask cl (bits v 15 0) = s.setSlice cl (if v.setWidth 16 = (s.slice cl).mask then s.slice cl else { s.slice cl with err := true }) := by
  rw [State.writeMask, mask_of_word]
  exact if_pos (by rw [h]; rfl)

theorem waymaskMask_clean (s : State) (h : (s.slice (clusterOf s.input.core)).clean = true) (hc : s.input.core < 1024) :
    let cl := clusterOf s.input.core
    let l := s.slice cl
    let mask : BitVec 16 := s.input.word.setWidth 16
    happens .waymaskMaskWrite s fun t => onlySlice s t cl { l with mask := mask, clean := false } ∧
      ∀ w < 16, ∀ o < 2 ^ 17, t.peek (keyL2 cl w o) = if mask.getLsbD w = l.mask.getLsbD w then s.peek (keyL2 cl w o) else 0 := by
  intro cl l mask
  refine ⟨_, congrArg Host.Outcome.next (State.writeMask_clean h s.input.word), onlySlice_setSlice (State.slice_zeroWays ..) _ _, fun w hw o ho => ?_⟩
  have hcl : cl < 256 := clusterOf_lt hc
  show State.peek ((changedWays l.mask mask).foldl (State.zeroWay cl) s) (keyL2 cl w o) = _
  rw [State.peek_l2 _ hcl hw ho, State.peek_l2 _ hcl hw ho, State.find_zeroWays cl _ s ho]
  by_cases hm : mask.getLsbD w = l.mask.getLsbD w
  · rw [if_neg fun hin => (mem_changedWays hw).1 hin hm, if_pos hm]
  · rw [if_pos ((mem_changedWays hw).2 hm), if_neg hm]
    rfl

theorem waymaskMask_unclean (s : State) (h : (s.slice (clusterOf s.input.core)).clean = false) :
    let cl := clusterOf s.input.core
    let l := s.slice cl
    happens .waymaskMaskWrite s fun t =>
      onlySlice s t cl (if s.input.word.setWidth 16 = l.mask then l else { l with err := true }) ∧ ∀ k, t.peek k = s.peek k :=
  ⟨_, congrArg Host.Outcome.next (State.writeMask_unclean h s.input.word), onlySlice_setSlice rfl _ _, fun _ => rfl⟩

theorem waymaskFlush_holds (s : State) :
    let cl := clusterOf s.input.core
    happens .waymaskFlush s fun t => onlySlice s t cl { s.slice cl with flush := true, bypass := 0, pins := [] } ∧ ∀ k, t.peek k = s.peek k :=
  ⟨_, rfl, onlySlice_setSlice rfl _ _, fun _ => rfl⟩

/-! ### The end of a flush (R67) -/

theorem State.slices_pokeBytes (bs : List Byte) : ∀ (s : State) (k : Nat), (s.pokeBytes k bs).slices = s.slices := by
  induction bs with
  | nil => exact fun _ _ => rfl
  | cons b bs ih => exact fun s k => (ih (s.poke k b) (k + 1)).trans rfl

theorem State.slice_flushHost (s : State) (line : Nat) : (s.flushHost line).slice = s.slice := by
  have hs : (s.flushHost line).slices = s.slices := by
    have hp := State.slices_pokeBytes (s.peeks (line * 64) 64) s (keyHostMem (keyAddr (line * 64)))
    rw [State.flushHost]
    generalize s.pokeBytes (keyHostMem (keyAddr (line * 64))) (s.peeks (line * 64) 64) = t at hp ⊢
    exact hp
  exact State.slice_of_slices hs (State.eq_of_still State.flash (s.still_flushHost line))

theorem State.hostLines_flushHost (s : State) (line : Nat) : (s.flushHost line).hostLines = Assoc.put s.hostLines line false := by
  rw [State.flushHost]

/-- Changed host lines of a slice have been written back. -/
def State.flushLines (s : State) (es : Assoc Bool) : State := es.foldl (fun s e => s.flushHost e.1) s

theorem State.flushLines_cons (s : State) (e : Nat × Bool) (es : Assoc Bool) : s.flushLines (e :: es) = (s.flushHost e.1).flushLines es := by
  rw [State.flushLines, List.foldl_cons, State.flushLines]

theorem State.slice_flushLines (es : Assoc Bool) (s : State) : (s.flushLines es).slice = s.slice := by
  induction es generalizing s with
  | nil => rfl
  | cons e es ih => rw [State.flushLines_cons, ih, State.slice_flushHost]

/-- Lines that are written back stay listed, and no others come to them. -/
theorem State.mem_flushLines (es : Assoc Bool) (s : State) {e : Nat × Bool} (h : e ∈ (s.flushLines es).hostLines) :
    e.1 ∈ es.map (·.1) ∨ e ∈ s.hostLines := by
  induction es generalizing s with
  | nil => exact .inr h
  | cons x es ih =>
    rw [State.flushLines_cons] at h
    rcases ih (s.flushHost x.1) h with hin | hin
    · exact .inl (List.mem_cons_of_mem _ hin)
    · rw [State.hostLines_flushHost] at hin
      rcases Assoc.mem_put _ _ _ _ hin with rfl | hm
      · exact .inl List.mem_cons_self
      · exact .inr hm

/-- Lines of host memory are given up. -/
def State.dropLines (s : State) (es : Assoc Bool) : State := es.foldl (fun s e => { s with hostLines := Assoc.del s.hostLines e.1 }) s

theorem State.dropLines_eq (es : Assoc Bool) (s : State) :
    s.dropLines es = { s with hostLines := (es.map (·.1)).foldl Assoc.del s.hostLines } := by
  induction es generalizing s with
  | nil => rfl
  | cons e es ih => exact ih _

/-- The host lines whose home is a slice. -/
def State.homeLines (s : State) (cl : Nat) : Assoc Bool := s.hostLines.filter fun e => homeCluster (e.1 * 64) = cl

theorem State.endFlush_eq (s : State) (cl : Nat) :
    s.endFlush cl = ((s.flushLines ((s.homeLines cl).filter fun e => e.2)).dropLines (s.homeLines cl)).setSlice cl
      { s.slice cl with flush := false, clean := true, pins := [] } := by
  have hs : ((s.flushLines ((s.homeLines cl).filter fun e => e.2)).dropLines (s.homeLines cl)).slice cl = s.slice cl := by
    rw [State.dropLines_eq]
    exact congrFun (State.slice_flushLines ..) cl
  rw [← hs]
  rfl

theorem State.endFlush_lines (s : State) (cl : Nat) {e : Nat × Bool} (h : e ∈ (s.endFlush cl).hostLines) : homeCluster (e.1 * 64) ≠ cl := by
  rw [State.endFlush_eq, State.dropLines_eq] at h
  obtain ⟨hin, hout⟩ := Assoc.mem_foldl_del _ h
  intro hc
  have hhome : e ∉ s.hostLines := fun hm => hout (List.mem_map_of_mem (List.mem_filter.2 ⟨hm, decide_eq_true hc⟩))
  obtain ⟨x, hx, hk⟩ := List.mem_map.1 ((State.mem_flushLines _ _ hin).resolve_right hhome)
  exact hout (List.mem_map.2 ⟨x, List.mem_of_mem_filter hx, hk⟩)

theorem flushComplete_holds (s : State) (h : (s.slice s.input.index).flush = true) :
    happens .flushComplete s fun t =>
      onlySlice s t s.input.index { s.slice s.input.index with flush := false, clean := true, pins := [] } ∧
        ∀ e ∈ t.hostLines, homeCluster (e.1 * 64) ≠ s.input.index := by
  refine ⟨s.endFlush s.input.index, if_pos h, ?_, fun e => s.endFlush_lines s.input.index⟩
  rw [State.endFlush_eq, State.dropLines_eq]
  exact onlySlice_setSlice (t := { State.flushLines s _ with hostLines := _ }) (State.slice_flushLines ..) _ _

/-! ### MXEXCL (R202) -/

theorem mxexclWrite_clear (s : State) (h : s.input.word.getLsbD 0 = false) :
    let cl := clusterOf s.input.core
    happens .mxexclWrite s fun t => onlySlice s t cl { s.slice cl with excl := false, pend := false } :=
  ⟨_, congrArg Host.Outcome.next (if_pos (by rw [bit, h]; rfl)), onlySlice_setSlice rfl _ _⟩

theorem mxexclWrite_set (s : State) (h : s.input.word.getLsbD 0 = true) (hx : (s.slice (clusterOf s.input.core)).excl = false) :
    let cl := clusterOf s.input.core
    happens .mxexclWrite s fun t => onlySlice s t cl
      (if s.mxQuiet cl then { s.slice cl with excl := true, pend := false } else { s.slice cl with pend := true }) := by
  intro cl
  have hw : s.writeExcl cl (bit s.input.word 0) =
      s.setSlice cl (if s.mxQuiet cl then { s.slice cl with excl := true, pend := false } else { s.slice cl with pend := true }) := by
    rw [State.writeExcl, if_neg (by rw [bit, h]; decide), if_neg (by rw [hx]; decide), apply_ite (s.setSlice cl)]
  exact ⟨_, congrArg Host.Outcome.next hw, onlySlice_setSlice rfl _ _⟩

theorem mxexclApply_holds (s : State) (hp : (s.slice s.input.index).pend = true) (hq : s.mxQuiet s.input.index = true) :
    happens .mxexclApply s fun t => onlySlice s t s.input.index { s.slice s.input.index with excl := true, pend := false } :=
  ⟨_, if_pos (by rw [hp, hq]; rfl), onlySlice_setSlice rfl _ _⟩

/-! ### The pod configuration (R378) -/

theorem podConfigWrite_accepted {s : State} (hi : s.input.index = 0x1000) (h1 : 1 ≤ s.input.word.toNat / 2 ^ 16 % 2 ^ 11)
    (h2 : s.input.word.toNat / 2 ^ 16 % 2 ^ 11 ≤ 1024) (h3 : s.input.word.toNat % 1024 < s.input.word.toNat / 2 ^ 16 % 2 ^ 11) :
    exec .podConfigWrite s = .next { s with podcfg := s.input.word &&& 0x7FF03FF#64 } := by
  have hself : bits s.input.word 9 0 = s.input.word.toNat % 1024 := bits_low _ 9
  have hpack : packed [(bits s.input.word 26 16, 16), (bits s.input.word 9 0, 0)] = s.input.word &&& 0x7FF03FF#64 := by
    have hb : bits s.input.word 9 0 < 2 ^ 16 := by omega
    rw [packed_above _ 26 hb, bits_low, ofNat_low, ← BitVec.and_or_distrib_left]
    rfl
  show execPodConfigWrite s = _
  rw [execPodConfigWrite, if_pos hi]
  dsimp only
  rw [hpack]
  exact if_pos ⟨h1, h2, by rw [hself]; exact h3⟩

theorem podConfigWrite_member {s : State} {i : Nat} (h : i < 4096) (hi : s.input.index = 0x2000 + 8 * i) :
    happens .podConfigWrite s fun t => Assoc.get 0 t.members i = s.input.word ∧ ∀ j, j ≠ i → Assoc.get 0 t.members j = Assoc.get 0 s.members j := by
  have hn : (s.input.index - 0x2000) / 8 = i := by omega
  refine ⟨{ s with members := Assoc.set 0 s.members i s.input.word }, ?_, ?_, fun j hj => ?_⟩
  · show execPodConfigWrite s = _
    rw [execPodConfigWrite, if_neg (by omega), if_pos (by omega), hn]
  · exact (Assoc.get_set ..).trans (if_pos rfl)
  · exact (Assoc.get_set ..).trans (if_neg hj)

/-! ### MSI-X (R52) -/

theorem State.maskMsix_unmask {s : State} {i : Nat} (hm : (s.msixEntry i).masked = true) :
    s.maskMsix i false =
      let t := s.setMsix i { s.msixEntry i with masked := false, pendingBit := false }
      if (s.msixEntry i).pendingBit then t.raise i else t := by
  rw [State.maskMsix, if_neg Bool.false_ne_true, hm, Bool.true_and]

theorem msixVectorUnmask_sends (s : State) (hm : (s.msixEntry (s.input.index % 2048)).masked = true) (hf : s.pci.msixMask = false) :
    let i := s.input.index % 2048
    let m := s.msixEntry i
    happens .msixVectorUnmask s fun t => t.msixEntry i = { m with masked := false, pendingBit := false } ∧
      t.msixSent = s.msixSent ++ if m.pendingBit then [(m.addr, m.data)] else [] := by
  intro i m
  let t := s.setMsix i { m with masked := false, pendingBit := false }
  have ht : t.msixEntry i = { m with masked := false, pendingBit := false } := s.msixEntry_setMsix i _
  refine ⟨_, congrArg Host.Outcome.next (State.maskMsix_unmask hm), ?_⟩
  show (ite (m.pendingBit = true) (t.raise i) t).msixEntry i = _ ∧ (ite (m.pendingBit = true) (t.raise i) t).msixSent = _
  by_cases hp : m.pendingBit = true
  · have hr : t.raise i = { t with msixSent := t.msixSent ++ [(m.addr, m.data)] } := by
      rw [State.raise, ht]
      exact if_neg (by simp [t, hf])
    rw [if_pos hp, if_pos hp, hr]
    exact ⟨ht, rfl⟩
  · rw [if_neg hp, if_neg hp, List.append_nil]
    exact ⟨ht, rfl⟩

theorem msixVectorUnmask_held (s : State) (hm : (s.msixEntry (s.input.index % 2048)).masked = true) (hf : s.pci.msixMask = true) :
    let i := s.input.index % 2048
    let m := s.msixEntry i
    happens .msixVectorUnmask s fun t => t.msixEntry i = { m with masked := false } ∧ t.msixSent = s.msixSent := by
  intro i m
  let t := s.setMsix i { m with masked := false, pendingBit := false }
  have ht : t.msixEntry i = { m with masked := false, pendingBit := false } := s.msixEntry_setMsix i _
  refine ⟨_, congrArg Host.Outcome.next (State.maskMsix_unmask hm), ?_⟩
  show (ite (m.pendingBit = true) (t.raise i) t).msixEntry i = _ ∧ (ite (m.pendingBit = true) (t.raise i) t).msixSent = _
  by_cases hp : m.pendingBit = true
  · have hr : t.raise i = t.setMsix i { m with masked := false, pendingBit := true } := by
      rw [State.raise, ht]
      exact if_pos (by simp [t, hf])
    rw [if_pos hp, hr, State.msixEntry_setMsix, ← hp]
    exact ⟨rfl, rfl⟩
  · rw [if_neg hp, ht, ← Bool.eq_false_iff.2 hp]
    exact ⟨rfl, rfl⟩

end Sys2Proof.Machine
end

section
/-! SUPPORT. Where plate capture puts the contexts, the wake latches and BAR0 (R209, R381). -/

namespace Sys2Proof.Machine

/-! ### Parts of a list -/

theorem length_flatMap_range {α : Type} (f : Nat → List α) {l : Nat} (h : ∀ i, (f i).length = l) (n : Nat) : ((List.range n).flatMap f).length = l * n := by
  induction n with
  | zero => rfl
  | succ n ih => rw [List.range_succ, List.flatMap_append, List.length_append, ih, List.flatMap_singleton, h, Nat.mul_succ]

/-- One part of a list, between those before it and those after it. -/
theorem flatMap_range_split {α : Type} (f : Nat → List α) {n d : Nat} (hd : d < n) :
    ∃ rest, (List.range n).flatMap f = (List.range d).flatMap f ++ (f d ++ rest) := by
  obtain ⟨m, rfl⟩ : ∃ m, n = d + (m + 1) := ⟨n - d - 1, by omega⟩
  refine ⟨((List.range m).map fun i => d + (i + 1)).flatMap f, ?_⟩
  rw [List.range_add, List.flatMap_append, List.range_succ_eq_map, List.map_cons, List.flatMap_cons, List.map_map]
  rfl

/-- An element of one part, by where the part begins. -/
theorem getD_flatMap_range {α : Type} (f : Nat → List α) (x : α) {n d j : Nat} (hd : d < n) (hj : j < (f d).length) (rest : List α) :
    ((List.range n).flatMap f ++ rest).getD (((List.range d).flatMap f).length + j) x = (f d).getD j x := by
  obtain ⟨after, hs⟩ := flatMap_range_split f hd
  rw [hs, List.append_assoc, List.append_assoc, List.getD_append_right _ _ _ _ (Nat.le_add_right ..), Nat.add_sub_cancel_left,
    List.getD_append _ _ _ _ hj]

/-! ### Bytes and words -/

/-- The eight bytes of a word. -/
def wordBytes (w : Word) : List Byte := bytesOfBits 8 w.toNat

theorem wordBytes_length (w : Word) : (wordBytes w).length = 8 := bytesOfBits_length ..

theorem bytesOfBits_add (m n : Nat) : ∀ x : Nat, bytesOfBits (m + n) x = bytesOfBits m x ++ bytesOfBits n (x / 256 ^ m) := by
  induction m with
  | zero => simp [bytesOfBits]
  | succ m ih =>
    intro x
    rw [Nat.succ_add, bytesOfBits, bytesOfBits, ih, List.cons_append, Nat.div_div_eq_div_mul, Nat.pow_succ', ]

theorem bytesOfBits_mod (n : Nat) : ∀ x : Nat, bytesOfBits n (x % 256 ^ n) = bytesOfBits n x := by
  induction n with
  | zero => exact fun _ => rfl
  | succ n ih =>
    intro x
    have hhead : BitVec.ofNat 8 (x % 256 ^ (n + 1)) = BitVec.ofNat 8 x := by
      refine BitVec.eq_of_toNat_eq ?_
      rw [BitVec.toNat_ofNat, BitVec.toNat_ofNat]
      exact Nat.mod_mod_of_dvd x (Dvd.intro_left (256 ^ n) rfl)
    rw [bytesOfBits, bytesOfBits, hhead, Nat.pow_succ', Nat.mod_mul_right_div_self, ih]

theorem bytesOfBits_two_words {n : Nat} (x : BitVec n) :
    bytesOfBits 16 x.toNat = wordBytes (x.setWidth 64) ++ wordBytes ((x >>> 64).setWidth 64) := by
  rw [wordBytes, wordBytes, BitVec.toNat_setWidth, BitVec.toNat_setWidth, BitVec.toNat_ushiftRight, Nat.shiftRight_eq_div_pow]
  exact (bytesOfBits_add 8 8 x.toNat).trans (congrArg₂ _ (bytesOfBits_mod 8 _).symm (bytesOfBits_mod 8 _).symm)

theorem field_words (ws : List Word) : ∀ {i : Nat} (h : i < ws.length), field (ws.flatMap wordBytes) (8 * i) 8 = ws[i].toNat := by
  induction ws with
  | nil => exact fun h => absurd h (Nat.not_lt_zero _)
  | cons w ws ih =>
    intro i h
    rw [field, List.flatMap_cons]
    cases i with
    | zero =>
      rw [Nat.mul_zero, List.drop_zero, List.take_left' (wordBytes_length w)]
      exact bitsOfBytes_word w
    | succ i =>
      rw [Nat.mul_succ, Nat.add_comm, ← List.drop_drop, List.drop_left' (wordBytes_length w)]
      exact ih (Nat.lt_of_succ_lt_succ h)

theorem plateBytes_words (ws : List Word) : plateBytes (ws.flatMap wordBytes) = ws := by
  have hl : ((ws.flatMap wordBytes).length + 7) / 8 = ws.length := by
    have hs : (ws.flatMap wordBytes).length = 8 * ws.length := by
      simp [List.length_flatMap, wordBytes_length, Nat.mul_comm]
    omega
  refine List.ext_getElem (by rw [plateBytes, List.length_map, List.length_range, hl]) fun i h1 h2 => ?_
  simp only [plateBytes, List.getElem_map, List.getElem_range, field_words ws h2]
  exact BitVec.ofNat_toNat ..

/-! ### A context -/

/-- The two words of a wide register. -/
def wordPair {n : Nat} (x : BitVec n) : List Word := [x.setWidth 64, (x >>> 64).setWidth 64]

/-- The words of a context on the plate. -/
def Ctx.plateWords (x : Ctx) : List Word :=
  wordPair x.pc ++ ((List.range 32).map x.readG ++ (((List.range 16).flatMap fun i => wordPair (x.readP i)) ++
    (x.cir :: [x.lostw.setWidth 64, x.fpctl, x.fpstat] ++ (List.range 4).map x.loopWord)))

theorem wordBytes_wordPair {n : Nat} (x : BitVec n) : (wordPair x).flatMap wordBytes = bytesOfBits 16 x.toNat := by
  rw [bytesOfBits_two_words, wordPair, List.flatMap_cons, List.flatMap_singleton]

theorem bytesOfBits_narrow {n : Nat} (hn : n ≤ 64) (x : BitVec n) : bytesOfBits 8 x.toNat = wordBytes (x.setWidth 64) := by
  rw [wordBytes, BitVec.toNat_setWidth_of_le hn]

theorem Ctx.image_words (x : Ctx) : x.image = x.plateWords.flatMap wordBytes := by
  rw [Ctx.image, Ctx.plateWords, bytesOfBits_narrow (by decide) x.lostw]
  simp only [List.flatMap_append, wordBytes_wordPair, List.flatMap_map, List.flatMap_assoc, List.flatMap_cons,
    List.append_assoc, List.cons_append, List.nil_append, wordBytes]

theorem Ctx.pairs_length (x : Ctx) : ((List.range 16).flatMap fun i => wordPair (x.readP i)).length = 32 :=
  length_flatMap_range (fun i => wordPair (x.readP i)) (l := 2) (fun _ => rfl) 16

theorem Ctx.plateWords_length (x : Ctx) : x.plateWords.length = 74 := by
  simp only [Ctx.plateWords, List.length_append, Ctx.pairs_length]
  simp [wordPair]

theorem Ctx.plateBytes_image (x : Ctx) : plateBytes x.image = x.plateWords := by
  rw [Ctx.image_words, plateBytes_words]

theorem Ctx.plateWords_readG (x : Ctx) {i : Nat} (h : i < 32) : x.plateWords.getD (2 + i) 0 = x.readG i := by
  have hpc : (wordPair x.pc).length = 2 := rfl
  rw [Ctx.plateWords, List.getD_append_right _ _ _ _ (by omega), hpc, Nat.add_sub_cancel_left, List.getD_append _ _ _ _ (by simpa using h)]
  simp [h]

theorem Ctx.plateWords_cir (x : Ctx) : x.plateWords.getD 66 0 = x.cir := by
  have hpc : (wordPair x.pc).length = 2 := rfl
  have hg : ((List.range 32).map x.readG).length = 32 := by simp
  have hp := x.pairs_length
  rw [Ctx.plateWords, List.getD_append_right _ _ _ _ (by omega), List.getD_append_right _ _ _ _ (by omega),
    List.getD_append_right _ _ _ _ (by omega), hpc, hg, hp]
  rfl

/-! ### A core and the device -/

/-- Where a core begins on the plate. -/
def State.plateStart (s : State) (d : Nat) : Nat := ((List.range d).flatMap s.plateCore).length

/-- The contexts of a core on the plate. -/
def State.plateCtxs (s : State) (c : Nat) : List Word := (List.range 12).flatMap fun n => (s.ctx c n).plateWords

theorem State.plateCtxs_length (s : State) (c : Nat) : (s.plateCtxs c).length = 12 * 74 := length_flatMap_range _ (fun _ => Ctx.plateWords_length _) 12

theorem State.plateCore_ctxs (s : State) (c : Nat) : ∃ rest, s.plateCore c = s.plateCtxs c ++ rest := by
  have hctx : ((List.range 12).flatMap fun n => plateBytes ((s.core c).ctx n).image) = s.plateCtxs c := by
    simp only [Ctx.plateBytes_image]
    rfl
  rw [State.plateCore, hctx]
  simp only [List.append_assoc]
  exact ⟨_, rfl⟩

theorem State.plateStart_succ (s : State) (d : Nat) : s.plateStart d + 12 * 74 ≤ s.plateStart (d + 1) := by
  obtain ⟨rest, hr⟩ := s.plateCore_ctxs d
  rw [State.plateStart, State.plateStart, List.range_succ, List.flatMap_append, List.length_append, List.flatMap_singleton, hr, List.length_append,
    State.plateCtxs_length]
  omega

theorem State.plateCore_ctx (s : State) (c : Nat) {n j : Nat} (hn : n < 12) (hj : j < 74) :
    (s.plateCore c).getD (74 * n + j) 0 = (s.ctx c n).plateWords.getD j 0 := by
  obtain ⟨rest, hr⟩ := s.plateCore_ctxs c
  have hlen : ∀ i, ((s.ctx c i).plateWords).length = 74 := fun i => Ctx.plateWords_length _
  have hget := getD_flatMap_range (fun i => (s.ctx c i).plateWords) 0 hn (by rw [hlen]; exact hj) rest
  rwa [length_flatMap_range _ hlen, ← State.plateCtxs, ← hr] at hget

theorem State.plateWords_ctx (s : State) {d n j : Nat} (hd : d < 1024) (hn : n < 12) (hj : j < 74) :
    s.plateWords.getD (s.plateStart d + 74 * n + j) 0 = (s.ctx d n).plateWords.getD j 0 := by
  obtain ⟨rest, hr⟩ := s.plateCore_ctxs d
  have hcore : 74 * n + j < (s.plateCore d).length := by
    rw [hr, List.length_append, State.plateCtxs_length]
    omega
  rw [Nat.add_assoc, State.plateWords, List.append_assoc, List.append_assoc, State.plateStart, getD_flatMap_range s.plateCore 0 hd hcore]
  exact s.plateCore_ctx d hn hj

/-- The registers of a context, by where the context begins. -/
theorem State.plateWords_regs (s : State) {d n : Nat} (hd : d < 1024) (hn : n < 12) :
    let at_ := s.plateStart d + 74 * n
    s.plateWords.getD at_ 0 = (s.ctx d n).pc.setWidth 64 ∧ s.plateWords.getD (at_ + 1) 0 = ((s.ctx d n).pc >>> 64).setWidth 64 ∧
      (∀ i < 32, s.plateWords.getD (at_ + 2 + i) 0 = (s.ctx d n).readG i) ∧ s.plateWords.getD (at_ + 66) 0 = (s.ctx d n).cir := by
  intro at_
  have hlo : s.plateWords.getD at_ 0 = _ := s.plateWords_ctx hd hn (j := 0) (by decide)
  have hhi : s.plateWords.getD (at_ + 1) 0 = _ := s.plateWords_ctx hd hn (j := 1) (by decide)
  have hcir : s.plateWords.getD (at_ + 66) 0 = _ := s.plateWords_ctx hd hn (j := 66) (by decide)
  rw [hlo, hhi, hcir, Ctx.plateWords_cir]
  refine ⟨rfl, rfl, fun i hi => ?_, rfl⟩
  have hg : s.plateWords.getD (at_ + (2 + i)) 0 = _ := s.plateWords_ctx hd hn (by omega)
  rw [Nat.add_assoc, hg, Ctx.plateWords_readG _ hi]

/-- What the plate ends with: the wake latches, then BAR0. -/
theorem State.plateWords_end (s : State) : ∃ start, s.plateWords = start ++ ((List.range 1024).map (fun q => Assoc.get 0 s.wake q) ++
    (List.range 512).map fun i => s.readBar0 (8 * i)) :=
  ⟨_, List.append_assoc ..⟩

theorem State.plateWords_wake (s : State) {q : Nat} (hq : q < 1024) : s.plateWords.getD (s.plateWords.length - 1536 + q) 0 = Assoc.get 0 s.wake q := by
  obtain ⟨start, h⟩ := s.plateWords_end
  have hl : s.plateWords.length = start.length + 1536 := by simp [h]
  rw [hl, Nat.add_sub_cancel, h, List.getD_append_right _ _ _ _ (Nat.le_add_right ..), Nat.add_sub_cancel_left,
    List.getD_append _ _ _ _ (by simpa using hq)]
  simp [hq]

theorem State.plateWords_bar0 (s : State) {i : Nat} (hi : i < 512) : s.plateWords.getD (s.plateWords.length - 512 + i) 0 = s.readBar0 (8 * i) := by
  obtain ⟨start, h⟩ := s.plateWords_end
  have hl : s.plateWords.length = start.length + 1024 + 512 := by simp [h]
  rw [hl, Nat.add_sub_cancel, h, ← List.append_assoc, List.getD_append_right _ _ _ _ (by simp), List.length_append, List.length_map,
    List.length_range, Nat.add_sub_cancel_left]
  simp [hi]

/-- What plate capture leaves of a state. -/
def plateImage (s t : State) : Prop :=
  t = { s with captured := true, plate := t.plate } ∧
    (∃ start : Nat → Nat, start 0 = 0 ∧ (∀ d, start d + 12 * 74 ≤ start (d + 1)) ∧ ∀ d < 1024, ∀ n < 12,
      (let at_ := start d + 74 * n
       t.plate.getD at_ 0 = (s.ctx d n).pc.setWidth 64 ∧ t.plate.getD (at_ + 1) 0 = ((s.ctx d n).pc >>> 64).setWidth 64 ∧
        (∀ i < 32, t.plate.getD (at_ + 2 + i) 0 = (s.ctx d n).readG i) ∧ t.plate.getD (at_ + 66) 0 = (s.ctx d n).cir)) ∧
    (∀ q < 1024, t.plate.getD (t.plate.length - 1536 + q) 0 = Assoc.get 0 s.wake q) ∧
    ∀ i < 512, t.plate.getD (t.plate.length - 512 + i) 0 = s.readBar0 (8 * i)

theorem plateImage_of_plate {s t : State} (ht : t = { s with captured := true, plate := t.plate }) (hp : t.plate = s.plateWords) : plateImage s t := by
  refine ⟨ht, ?_⟩
  rw [hp]
  exact ⟨⟨s.plateStart, rfl, s.plateStart_succ, fun d hd n hn => s.plateWords_regs hd hn⟩, fun q => s.plateWords_wake, fun i => s.plateWords_bar0⟩

theorem plateCapture_holds (s : State) : happens .freeze s (plateImage s) ∧ happens .platectlCapture s (plateImage s) := by
  have h : plateImage s { s.capture with plate := s.plateWords } := plateImage_of_plate rfl rfl
  exact ⟨⟨_, rfl, h⟩, ⟨_, rfl, h⟩⟩

theorem sharedRegisters_holds : sharedRegisters := by
  intro s
  exact ⟨waymaskMask_clean s, waymaskMask_unclean s, waymaskFlush_holds s, flushComplete_holds s, mxexclWrite_clear s, mxexclWrite_set s,
    mxexclApply_holds s, podConfigWrite_accepted, fun i => podConfigWrite_member, fun hm => ⟨msixVectorUnmask_sends s hm, msixVectorUnmask_held s hm⟩,
    plateCapture_holds s⟩

/-! ### Budgets and power (R14, R44, R70) -/

theorem State.core_newPeriod (s : State) (c : Nat) :
    ({ s with cores := s.cores.map fun (e : Nat × Core) => (e.1, e.2.newPeriod) } : State).core c = (s.core c).newPeriod := by
  show Assoc.get Core.reset _ c = (Assoc.get Core.reset s.cores c).newPeriod
  induction s.cores with
  | nil => rfl
  | cons e es ih =>
    obtain ⟨j, k⟩ := e
    by_cases hj : j = c <;> simp [Assoc.get, hj, ih]

theorem budgetPeriodStart_holds (s : State) :
    happens .budgetPeriodStart s fun t => t.bare = s.bare ∧ ∀ c, t.core c = (s.core c).newPeriod :=
  ⟨_, rfl, rfl, s.core_newPeriod⟩

theorem powerWindow_holds (s : State) :
    happens .powerWindow s fun t => t = { s with powerEst := t.powerEst, throttled := t.throttled } ∧
      (2200 < t.powerEst → t.throttled = true) ∧ (t.powerEst < 2150 → t.throttled = false) ∧
      (2150 ≤ t.powerEst → t.powerEst ≤ 2200 → t.throttled = s.throttled) := by
  refine ⟨_, rfl, rfl, ?_⟩
  show (2200 < Config.power s.steps → ite _ _ _ = _) ∧ (Config.power s.steps < 2150 → ite _ _ _ = _) ∧
    (2150 ≤ Config.power s.steps → Config.power s.steps ≤ 2200 → ite _ _ _ = _)
  refine ⟨fun h => if_pos h, fun h => ?_, fun h1 h2 => ?_⟩
  · rw [if_neg (by omega), if_pos h]
  · rw [if_neg (by omega), if_neg (by omega)]

/-- A core that nothing needs is gated. -/
theorem powerGate_holds (s : State) (ha : s.able s.input.core = true) (hb : (s.core s.input.core).bootMode = false)
    (hj : s.jobOf s.input.core = none)
    (hpoll : ∀ q < 1024, (s.desc q).enabled = true → (s.desc q).poll = true → s.homeOf q ≠ some s.input.core)
    (hwake : ∀ e ∈ s.queues, e.2.awake = true → (s.desc e.1).enabled = true → (s.desc e.1).halted = false → s.homeOf e.1 ≠ some s.input.core)
    (hr : s.reportOf s.input.core = none) :
    happens .powerGate s fun t => onlyCore s t s.input.core ∧ t.core s.input.core = { s.core s.input.core with gated := true } := by
  have hpolls : ((List.range 1024).any fun q => (s.desc q).enabled && (s.desc q).poll && s.homeOf q = some s.input.core) = false := by
    simp only [List.any_eq_false, List.mem_range, Bool.and_eq_true, decide_eq_true_eq, not_and]
    exact fun q hq ⟨he, hp⟩ => hpoll q hq he hp
  have hawake : (s.queues.any fun e => e.2.awake && (s.desc e.1).enabled && !(s.desc e.1).halted && s.homeOf e.1 = some s.input.core) = false := by
    simp only [List.any_eq_false, Bool.and_eq_true, Bool.not_eq_true', decide_eq_true_eq, not_and]
    exact fun e he ⟨⟨hw, hen⟩, hh⟩ => hwake e he hw hen hh
  have hx : exec .powerGate s = .next (s.setCore s.input.core { s.core s.input.core with gated := true }) := by
    show execPowerGate s = _
    rw [execPowerGate]
    dsimp only
    rw [hpolls, hawake, ha, hb, hj, hr]
    rfl
  exact happens_setCore (q := (· = { s.core s.input.core with gated := true })) hx rfl

theorem budgetAndPower_holds : budgetAndPower := fun s => ⟨budgetPeriodStart_holds s, powerWindow_holds s, powerGate_holds s⟩

/-- Settles O43: each register that has an event of its own is written by its rule, and plate capture, budget periods and the power unit do what
R14, R44, R70 and R209 say. -/
theorem registerEvents : Obligations.RegisterEvents := ⟨coreRegisters_holds, sharedRegisters_holds, budgetAndPower_holds⟩

end Sys2Proof.Machine
end

section
/-! SUPPORT. The work of a micro-kernel, step by step, and the table of the host queues (R32, R36, R43). -/

namespace Sys2Proof.Machine

/-! ### The steps of the work, one after the other -/

/-- The rest of a work after an outcome of its first part. -/
def E.andThen {α β : Type} (r : Except EngStop (α × State)) (f : α → E β) : Except EngStop (β × State) :=
  match r with
  | .ok (a, t) => f a t
  | .error e => .error e

@[simp] theorem E.andThen_ok {α β : Type} (a : α) (t : State) (f : α → E β) : E.andThen (.ok (a, t)) f = f a t := rfl

@[simp] theorem E.bind_apply {α β : Type} (x : E α) (f : α → E β) (s : State) : (x >>= f) s = E.andThen (x s) f := by
  show StateT.bind x f s = _
  unfold StateT.bind E.andThen
  cases x s <;> rfl
@[simp] theorem E.pure_apply {α : Type} (a : α) (s : State) : (pure a : E α) s = .ok (a, s) := rfl
@[simp] theorem E.get_apply (s : State) : (get : E State) s = .ok (s, s) := rfl
@[simp] theorem E.modify_apply (f : State → State) (s : State) : (modify f : E Unit) s = .ok ((), f s) := rfl
@[simp] theorem E.ite_apply {α : Type} (c : Prop) [Decidable c] (x y : E α) (s : State) :
    (if c then x else y) s = if c then x s else y s := by split <;> rfl

theorem caught_ok {α : Type} {x : E α} {s t : State} {a : α} (h : x s = .ok (a, t)) : caught x s = .ok (some a, t) := by
  rw [caught, h]

theorem caught_fault {α : Type} {x : E α} {s t : State} {c : Cause} {a : Nat} (h : x s = .error (.fault c a t)) :
    caught x s = .ok (none, t) := by
  rw [caught, h]

/-! ### What the host queues' table shows -/

/-- What shows in the descriptors of the host queues: where the table lies, memory, and what the host's hold of lines keeps back. -/
structure SameTable (s t : State) : Prop where
  mem : t.mem = s.mem
  qtBase : t.qtBase = s.qtBase
  biPending : t.biPending = s.biPending
  biOps : t.biOps = s.biOps

theorem SameTable.setCore (s : State) (c : Nat) (k : Core) : SameTable s (s.setCore c k) := ⟨rfl, rfl, rfl, rfl⟩
theorem SameTable.setQueue (s : State) (q : Nat) (x : QueueSt) : SameTable s (s.setQueue q x) := ⟨rfl, rfl, rfl, rfl⟩

theorem State.mem_pokes_congr (cells : List (Nat × Byte)) : ∀ {s t : State}, t.mem = s.mem → (t.pokes cells).mem = (s.pokes cells).mem := by
  induction cells with
  | nil => exact id
  | cons e cells ih => exact fun h => ih (congrArg (Memory.write · e.1 e.2) h)

theorem State.peekNat_of_mem {s t : State} (h : t.mem = s.mem) (k n : Nat) : t.peekNat k n = s.peekNat k n :=
  congrArg bitsOfBytes (State.peeks_congr fun i _ => State.peek_of_mem h (k + i))

theorem State.mem_homeOp_congr {s t : State} (h : t.mem = s.mem) (ks : List Nat) (op : HomeOp) (p : Bool) :
    (t.homeOp ks op p).2.2.mem = (s.homeOp ks op p).2.2.mem := by
  unfold State.homeOp
  rw [show t.peek = s.peek from funext (State.peek_of_mem h)]
  dsimp only
  split
  · exact h
  · dsimp only
    split <;> exact State.mem_pokes_congr _ h

theorem State.mem_ahead_congr {s t : State} (h : SameTable s t) (line : Nat) : (t.ahead line).mem = (s.ahead line).mem := by
  unfold State.ahead
  rw [h.biPending, h.biOps]
  have hw : ∀ (e : Nat × List (Nat × Byte) × Bool) (u v : State), u.mem = v.mem → (u.writeH e.2.1 e.2.2).mem = (v.writeH e.2.1 e.2.2).mem :=
    fun e _ _ => State.mem_pokes_congr e.2.1
  have ho : ∀ (e : Nat × List Nat × HomeOp × Bool) (u v : State), u.mem = v.mem →
      (u.homeOp e.2.1 e.2.2.1 e.2.2.2).2.2.mem = (v.homeOp e.2.1 e.2.2.1 e.2.2.2).2.2.mem :=
    fun e _ _ hm => State.mem_homeOp_congr hm ..
  exact List.foldl_rel (r := fun u v : State => u.mem = v.mem) (List.foldl_rel (r := fun u v : State => u.mem = v.mem) h.mem fun e _ => hw e)
    fun e _ => ho e

theorem SameTable.descAt {s t : State} (h : SameTable s t) : t.descAt = s.descAt := by
  funext q
  rw [State.descAt, h.qtBase, State.descAt]

theorem SameTable.tableBacked {s t : State} (h : SameTable s t) : t.tableBacked = s.tableBacked := by
  funext q
  rw [State.tableBacked, h.descAt, State.tableBacked]

theorem State.tableBacked_ahead (s : State) (line : Nat) : (s.ahead line).tableBacked = s.tableBacked :=
  State.eq_of_still State.tableBacked (s.still_ahead line)

theorem SameTable.desc {s t : State} (h : SameTable s t) : t.desc = s.desc := by
  funext q
  have hnum (l a n : Nat) : (t.ahead l).peekNat a n = (s.ahead l).peekNat a n := State.peekNat_of_mem (State.mem_ahead_congr h l) a n
  unfold State.desc
  simp only [State.tableBacked_ahead, h.descAt, h.tableBacked, hnum]

theorem SameTable.homeOf {s t : State} (h : SameTable s t) (hf : t.flash = s.flash) : t.homeOf = s.homeOf := by
  funext q
  unfold State.homeOf State.coreOfLid State.healthyCount State.place
  rw [h.desc, hf]

/-! ### The state of a queue -/

@[simp] theorem State.queue_setQueue (s : State) (q i : Nat) (x : QueueSt) : (s.setQueue q x).queue i = if i = q then x else s.queue i := by
  simp [State.queue, State.setQueue]

@[simp] theorem State.queue_setCore (s : State) (c : Nat) (k : Core) : (s.setCore c k).queue = s.queue := rfl
@[simp] theorem State.queue_letGo (s : State) (c : Nat) : (s.letGo c).queue = s.queue := rfl
@[simp] theorem State.desc_setQueue (s : State) (q : Nat) (x : QueueSt) : (s.setQueue q x).desc = s.desc := (SameTable.setQueue s q x).desc
@[simp] theorem State.desc_setCore (s : State) (c : Nat) (k : Core) : (s.setCore c k).desc = s.desc := (SameTable.setCore s c k).desc
@[simp] theorem State.desc_letGo (s : State) (c : Nat) : (s.letGo c).desc = s.desc := State.desc_setCore ..
@[simp] theorem State.homeOf_setQueue (s : State) (q : Nat) (x : QueueSt) : (s.setQueue q x).homeOf = s.homeOf :=
  (SameTable.setQueue s q x).homeOf rfl

/-- The packet at the head of a queue has not had the queue's turn. -/
def State.unturned (s : State) (q : Nat) : State := s.setQueue q { s.queue q with turn := false }

theorem State.server_unturned (s : State) (q : Nat) : (s.unturned q).server = s.server := by
  funext i
  have hq : ((s.unturned q).queue i).awake = (s.queue i).awake := by
    rw [State.unturned, State.queue_setQueue]
    split
    · subst_vars
      rfl
    · rfl
  unfold State.server
  rw [hq, State.unturned, State.desc_setQueue, State.homeOf_setQueue]
  rfl

theorem State.kernelBusy_unturned (s : State) (c q id : Nat) : (s.unturned q).kernelBusy c id = s.kernelBusy c id := by
  unfold State.kernelBusy State.workLive
  rw [State.server_unturned]
  rfl

/-! ### A home works at a queue -/

/-- Work that is begun afresh, and is done. -/
theorem kernelWork_done {c id : Nat} {body : E Unit} {s t : State} (hb : s.kernelBusy c id = false) (hk : (s.core c).kernelAt ≠ some id)
    (h : body (s.letGo c) = .ok ((), t)) : kernelWork c id body s = t.letGo c := by
  rw [kernelWork, hb]
  simp only [hk, h, Bool.false_eq_true, if_false]

theorem State.atQueue_turn {s w : State} {c q : Nat} {want : Pkt → Bool} {act : Pkt → E Unit} (hf : freeHome s c q)
    (hv : s.mayVisit c q = true) (hw : headWork c q want act (atTurn s c q) = .ok ((), w)) : s.atQueue c q want act = w.letGo c := by
  obtain ⟨-, -, hbusy, hat, htaken⟩ := hf
  rw [State.atQueue, hbusy, htaken, hv, if_neg Bool.false_ne_true, if_neg (by simp), if_neg hat, if_pos rfl]
  exact kernelWork_done ((s.kernelBusy_unturned c q q).trans hbusy) hat hw

theorem State.atQueue_waits {s : State} {c q : Nat} {want : Pkt → Bool} {act : Pkt → E Unit} (hf : freeHome s c q)
    (hv : s.mayVisit c q = false) : s.atQueue c q want act = s := by
  obtain ⟨-, -, hbusy, hat, htaken⟩ := hf
  rw [State.atQueue, hbusy, htaken, hv, if_neg Bool.false_ne_true, if_neg (by simp), if_neg hat, if_neg Bool.false_ne_true]

section
variable {c q : Nat} {want : Pkt → Bool} {act : Pkt → E Unit} {t r v w : State} {p : Pkt}

theorem headWork_unpublished (hr : readHead c q t = .ok (none, r)) (hv : turnTo c q r = .ok ((), v)) :
    headWork c q want act t = .ok ((), v.unturned q) := by
  rw [headWork]
  simp [hr, hv, State.unturned]

theorem headWork_other (hr : readHead c q t = .ok (some p, r)) (hw : want p = false) : headWork c q want act t = .ok ((), r.unturned q) := by
  rw [headWork]
  simp [hr, hw, State.unturned]

theorem headWork_wanted (hr : readHead c q t = .ok (some p, r)) (hw : want p = true) (hv : turnTo c q r = .ok ((), v))
    (ha : act p v = .ok ((), w)) : headWork c q want act t = .ok ((), w.unturned q) := by
  rw [headWork]
  simp [hr, hw, hv, ha, State.unturned]

end

/-! ### The packet at the head of a queue -/

/-- What becomes of a packet that passes the general checks. -/
def Verdict.work (p : Pkt) : Verdict → E Unit
  | .hold => pure ()
  | .done st info => takePkt p (some (st, info)) none
  | .started => takePkt p none none
  | .resumes fid => takePkt p (some (stOk, 0)) (some fid)

section
variable {s u t w : State} {p : Pkt} {want : Pkt → Bool} {act : Pkt → E Verdict}

theorem State.packet_serves {bad : Option Nat} (h : servedPacket s p bad u) (hw : want p = true) (ha : servePkt p act u = .ok ((), w)) :
    s.packet want act = .next (turnOver w p.core p.qid) := by
  obtain ⟨hf, hv, hq, ⟨r, hr, ht⟩, -, -⟩ := h
  obtain ⟨hlt, hs, -⟩ := id hf
  rw [State.packet, if_neg (by omega), hs]
  rw [← hq] at hf hv ⊢
  exact congrArg Host.Outcome.next (State.atQueue_turn hf hv (headWork_wanted hr hw ht ha))

theorem servedPacket_unfenced {bad : Option Nat} (h : servedPacket s p bad u) : ¬(p.flags / 4 % 2 = 1 ∧ (u.queue p.qid).started ≠ []) := by
  obtain ⟨-, -, -, -, hfence, -⟩ := h
  rintro ⟨h1, h2⟩
  exact hfence.elim (fun h => by omega) h2

theorem State.packet_bad {st : Nat} (h : servedPacket s p (some st) u) (hw : want p = true) (ht : takePkt p (some (st, 0)) none u = .ok ((), w)) :
    s.packet want act = .next (turnOver w p.core p.qid) := by
  refine State.packet_serves h hw ?_
  obtain ⟨-, -, -, -, -, hbad⟩ := id h
  rw [servePkt]
  simp only [E.bind_apply, E.get_apply, E.andThen_ok, if_neg (servedPacket_unfenced h), hbad, ht]

theorem State.packet_verdict {d : Verdict} (h : servedPacket s p none u) (hw : want p = true) (ha : act p u = .ok (d, t))
    (ht : d.work p t = .ok ((), w)) : s.packet want act = .next (turnOver w p.core p.qid) := by
  refine State.packet_serves h hw ?_
  obtain ⟨-, -, -, -, -, hbad⟩ := id h
  rw [servePkt]
  simp only [E.bind_apply, E.get_apply, E.andThen_ok, if_neg (servedPacket_unfenced h), hbad, caught_ok ha]
  cases d <;> exact ht

/-- An event that does what the packet asks. -/
theorem completes_of_done {i : Instr} {st : Nat} (hi : exec i s = s.packet want act) (h : servedPacket s p none u) (hw : want p = true)
    (ha : act p u = .ok (.done st 0, t)) : completes i s p st t := fun _ ht => hi.trans (State.packet_verdict h hw ha ht)

theorem startsPacket_of_started {i : Instr} (hi : exec i s = s.packet want act) (h : servedPacket s p none u) (hw : want p = true)
    (ha : act p u = .ok (.started, t)) : startsPacket i s p t := fun _ ht => hi.trans (State.packet_verdict h hw ha ht)

theorem ofType_of_type {n : Nat} (h : p.type = n) : ofType n p = true := decide_eq_true h

end

end Sys2Proof.Machine
end

section
/-! SUPPORT. What a host queue does of its own accord (R33, R36, R43 to R47). -/

namespace Sys2Proof.Machine

/-- Moves that leave a state as it is do so one after the other. -/
theorem foldl_fixed {α β : Type} {move : α → β → α} {a : α} : ∀ {bs : List β}, (∀ b ∈ bs, move a b = a) → bs.foldl move a = a
  | [], _ => rfl
  | b :: bs, h => by
    rw [List.foldl_cons, h b List.mem_cons_self]
    exact foldl_fixed fun x hx => h x (List.mem_cons_of_mem b hx)

@[simp] theorem State.core_setQueue (s : State) (q : Nat) (x : QueueSt) : (s.setQueue q x).core = s.core := rfl
@[simp] theorem State.homeOf_setCore (s : State) (c : Nat) (k : Core) : (s.setCore c k).homeOf = s.homeOf := (SameTable.setCore s c k).homeOf rfl

/-! ### Wakes and polls -/

/-- A home turns to a queue that passes the checks of R33. -/
theorem State.attend_sound {s : State} {q : Nat} (he : (s.desc q).enabled = true) (hh : (s.desc q).halted = false) (hs : (s.desc q).sound q = true) :
    s.attend q = s.setQueue q { s.queue q with awake := true, broken := false } := by
  simp [State.attend, he, hh, hs]

/-- The latch of a queue after a write to it. -/
def State.raiseLatch (s : State) (q : Nat) (w : Word) : State :=
  { s with wake := Assoc.put s.wake q (if Assoc.get 0 s.wake q < w then w else Assoc.get 0 s.wake q) }

theorem SameTable.raiseLatch (s : State) (q : Nat) (w : Word) : SameTable s (s.raiseLatch q w) := ⟨rfl, rfl, rfl, rfl⟩
@[simp] theorem State.desc_raiseLatch (s : State) (q : Nat) (w : Word) : (s.raiseLatch q w).desc = s.desc := (SameTable.raiseLatch s q w).desc
@[simp] theorem State.homeOf_raiseLatch (s : State) (q : Nat) (w : Word) : (s.raiseLatch q w).homeOf = s.homeOf :=
  (SameTable.raiseLatch s q w).homeOf rfl
@[simp] theorem State.core_raiseLatch (s : State) (q : Nat) (w : Word) : (s.raiseLatch q w).core = s.core := rfl

theorem State.wake_raiseLatch (s : State) (q : Nat) (w : Word) :
    Assoc.get 0 (s.raiseLatch q w).wake q = if Assoc.get 0 s.wake q < w then w else Assoc.get 0 s.wake q := by
  rw [State.raiseLatch, Assoc.get_put, if_pos rfl]

section
variable {s : State}

theorem exec_wakeWrite (h : s.input.qid < 1024) :
    exec .wakeWrite s =
      let t := s.raiseLatch s.input.qid s.input.word
      if !(s.desc s.input.qid).enabled then .next t
      else
        match s.homeOf s.input.qid with
        | none => if (s.desc s.input.qid).halted then .next t else .next (t.badDescriptor s.input.qid)
        | some c => if (s.core c).gated then .next (t.setCore c { s.core c with waking := true }) else .next (t.wakeEvent c s.input.qid) := by
  show execWakeWrite s = _
  rw [execWakeWrite, if_neg (by omega)]
  rw [← s.desc_raiseLatch s.input.qid s.input.word, ← s.homeOf_raiseLatch s.input.qid s.input.word]
  rfl

theorem wakeWrite_disabled (h : s.input.qid < 1024) (he : (s.desc s.input.qid).enabled = false) :
    exec .wakeWrite s = .next (s.raiseLatch s.input.qid s.input.word) := by
  rw [exec_wakeWrite h]
  simp [he]

theorem wakeWrite_running {c : Nat} (h : s.input.qid < 1024) (he : (s.desc s.input.qid).enabled = true) (hc : s.homeOf s.input.qid = some c)
    (hg : (s.core c).gated = false) : exec .wakeWrite s = .next ((s.raiseLatch s.input.qid s.input.word).wakeEvent c s.input.qid) := by
  rw [exec_wakeWrite h]
  simp [he, hc, hg]

theorem wakeWrite_gated {c : Nat} (h : s.input.qid < 1024) (he : (s.desc s.input.qid).enabled = true) (hc : s.homeOf s.input.qid = some c)
    (hg : (s.core c).gated = true) :
    exec .wakeWrite s = .next ((s.raiseLatch s.input.qid s.input.word).setCore c { s.core c with waking := true }) := by
  rw [exec_wakeWrite h]
  simp [he, hc, hg]

end

theorem State.wakeEvent_sound {s : State} {c q : Nat} (he : (s.desc q).enabled = true) (hh : (s.desc q).halted = false)
    (hs : (s.desc q).sound q = true) :
    s.wakeEvent c q = (s.setCore c { s.core c with wakes := (s.core c).wakes + 1 }).setQueue q { s.queue q with awake := true, broken := false } := by
  rw [State.wakeEvent, State.attend_sound] <;> simp [he, hh, hs]

theorem exec_wakeComplete {s : State} (hw : (s.core s.input.core).waking = true) (hq : ∀ e ∈ s.wake, s.homeOf e.1 ≠ some s.input.core) :
    exec .wakeComplete s = .next (s.setCore s.input.core { s.core s.input.core with gated := false, waking := false }) := by
  show execWakeComplete s = _
  rw [execWakeComplete]
  simp only [hw, if_true]
  refine congrArg Host.Outcome.next (foldl_fixed fun q hm => if_neg ?_)
  obtain ⟨e, he, rfl⟩ := List.mem_map.1 hm
  simp [hq e he]

/-- Core `c` polls queue `i`. -/
def State.polls (s : State) (c i : Nat) : Bool := (s.desc i).enabled && (s.desc i).poll && decide (s.homeOf i = some c)

/-- The first `n` queues have been polled. -/
theorem State.poll_queues {s : State} {c : Nat} (h : ∀ i < 1024, s.polls c i = true → (s.desc i).halted = false ∧ (s.desc i).sound i = true) (n : Nat)
    (hn : n ≤ 1024) :
    ∃ qs, (List.range n).foldl (fun s q =>
        let d := s.desc q
        if d.enabled && d.poll && s.homeOf q = some c then s.attend q else s) s = { s with queues := qs } ∧
      ∀ i, ({ s with queues := qs } : State).queue i =
        if i < n ∧ s.polls c i = true then { s.queue i with awake := true, broken := false } else s.queue i := by
  induction n with
  | zero => exact ⟨s.queues, rfl, fun i => by simp⟩
  | succ n ih =>
    obtain ⟨qs, hqs, hi⟩ := ih (by omega)
    have htable : SameTable s { s with queues := qs } := ⟨rfl, rfl, rfl, rfl⟩
    rw [List.range_succ, List.foldl_append, hqs, List.foldl_cons, List.foldl_nil]
    dsimp only
    rw [htable.desc, htable.homeOf rfl]
    change ∃ qs', (if s.polls c n = true then _ else _) = _ ∧ _
    by_cases hp : s.polls c n = true
    · obtain ⟨hh, hs⟩ := h n (by omega) hp
      have he : (s.desc n).enabled = true := by
        rw [State.polls, Bool.and_eq_true, Bool.and_eq_true] at hp
        exact hp.1.1
      rw [if_pos hp, State.attend_sound (by rwa [htable.desc]) (by rwa [htable.desc]) (by rwa [htable.desc])]
      refine ⟨_, rfl, fun i => ?_⟩
      refine (State.queue_setQueue _ n i _).trans ?_
      rw [hi n, hi i]
      by_cases hin : i = n
      · subst hin
        simp [hp]
      · simp only [hin, if_false, show i < n + 1 ↔ i < n from by omega]
    · rw [if_neg hp]
      refine ⟨qs, rfl, fun i => (hi i).trans ?_⟩
      by_cases hin : i = n
      · subst hin
        simp [hp]
      · simp only [show i < n + 1 ↔ i < n from by omega]

theorem exec_queuePollScan {s : State} (ha : s.able s.input.core = true) (hb : (s.core s.input.core).bootMode = false) :
    exec .queuePollScan s = .next ((List.range 1024).foldl (fun t q =>
      let d := t.desc q
      if d.enabled && d.poll && t.homeOf q = some s.input.core then t.attend q else t) s) := by
  show execQueuePollScan s = _
  rw [execQueuePollScan]
  simp [ha, hb]

/-! ### The turn of a home -/

/-- A queue that the home has still to turn to is among those that are due. -/
theorem State.mem_due {s : State} {c i : Nat} (hs : s.server i = some c) (hv : s.visited.contains i = false) (hi : i ∈ s.queues.map (·.1)) :
    i ∈ s.due c := by
  have hleft : i ∈ (s.ready c).filter fun q => !s.visited.contains q :=
    List.mem_filter.2 ⟨List.mem_filter.2 ⟨hi, decide_eq_true hs⟩, by rw [hv]; rfl⟩
  unfold State.due
  dsimp only
  rw [if_neg]
  · exact hleft
  · rw [List.isEmpty_iff]
    exact List.ne_nil_of_mem hleft

theorem State.mayVisit_outranked {s : State} {c q i : Nat} (hi : i ∈ s.due c) (hp : (s.desc q).prio < (s.desc i).prio) : s.mayVisit c q = false := by
  have hall : ((s.due c).all fun i => decide ((s.desc i).prio ≤ (s.desc q).prio)) = false :=
    List.all_eq_false.2 ⟨i, hi, by simpa using hp⟩
  rw [State.mayVisit, hall, Bool.and_false]

theorem exec_headerReread {s : State} {c : Nat} (h : freeHome s c s.input.qid) :
    exec .headerReread s = .next (s.atQueue c s.input.qid (fun _ => false) fun _ => pure ()) := by
  obtain ⟨hlt, hs, -⟩ := h
  show execHeaderReread s = _
  rw [execHeaderReread, if_neg (by omega), hs]

/-! ### A header that is not published -/

theorem readHead_unpublished {s u : State} {c q : Nat} {h : List Byte} (hr : caught (ringRead c (s.desc q) (s.desc q).read 8) s = .ok (some h, u))
    (hs : field h 4 4 ≠ (s.desc q).read / 2 ^ (s.desc q).sizeLog % 2 ^ 32) : readHead c q s = .ok (none, u.notPublished q) := by
  rw [readHead]
  simp only [E.bind_apply, E.get_apply, E.andThen_ok, hr, E.ite_apply, E.modify_apply, E.pure_apply]
  exact if_pos (Or.inl hs)

/-- The home has looked at the header of a queue, in its turn. -/
theorem turnTo_queue {c q : Nat} {u : State} : ∃ v, turnTo c q u = .ok ((), v) ∧ v.queue q = { u.queue q with turn := true } := by
  refine ⟨_, rfl, ?_⟩
  dsimp only
  split
  · rename_i ht
    rw [← ht]
  · rw [State.queue_setQueue, if_pos rfl]

theorem headerReread_unpublished {s u : State} {c : Nat} {h : List Byte} (hf : freeHome s c s.input.qid) (hv : s.mayVisit c s.input.qid = true)
    (hr : caught (ringRead c (s.desc s.input.qid) (s.desc s.input.qid).read 8) (atTurn s c s.input.qid) = .ok (some h, u))
    (hs : field h 4 4 ≠ (s.desc s.input.qid).read / 2 ^ (s.desc s.input.qid).sizeLog % 2 ^ 32) :
    happens .headerReread s fun t => t.queue s.input.qid = { (u.notPublished s.input.qid).queue s.input.qid with turn := false } := by
  have hdesc : (atTurn s c s.input.qid).desc = s.desc := by simp [atTurn]
  obtain ⟨v, hv', hq⟩ := turnTo_queue (c := c) (q := s.input.qid) (u := u.notPublished s.input.qid)
  have hread := readHead_unpublished (by rwa [hdesc]) (by rwa [hdesc])
  refine ⟨_, (exec_headerReread hf).trans (congrArg Host.Outcome.next (State.atQueue_turn hf hv (headWork_unpublished hread hv'))), ?_⟩
  simp [State.unturned, hq]

theorem State.notPublished_again {u : State} {q : Nat} (hn : (u.queue q).unpublished = none) (hw : (u.desc q).read < (Assoc.get 0 u.wake q).toNat) :
    (u.notPublished q).queue q = { u.queue q with unpublished := some ((u.desc q).read, u.cycle) } := by
  rw [State.notPublished, hn]
  dsimp only
  rw [if_pos hw, State.queue_setQueue, if_pos rfl]

theorem State.notPublished_empty {u : State} {q : Nat} (hw : (Assoc.get 0 u.wake q).toNat ≤ (u.desc q).read) :
    (u.notPublished q).queue q = { u.queue q with awake := false, unpublished := none } := by
  rw [State.notPublished]
  dsimp only
  rw [if_neg (Nat.not_lt.2 hw), State.queue_setQueue, if_pos rfl]

/-! ### Stalls -/

theorem exec_queueStall {s r : State} {c : Nat} {p : Option Pkt} (h : freeHome s c s.input.qid)
    (hr : readHead c s.input.qid (s.letGo c) = .ok (p, r)) :
    exec .queueStall s = .next ((if p.isSome then r else r.stallOver c s.input.qid).letGo c) := by
  obtain ⟨hlt, hs, hbusy, hat, htaken⟩ := h
  show execQueueStall s = _
  rw [execQueueStall, if_neg (by omega), hs]
  dsimp only
  rw [hbusy, htaken, if_neg (by simp)]
  refine congrArg Host.Outcome.next (kernelWork_done hbusy hat ?_)
  rw [E.bind_apply, hr]
  cases p <;> rfl

theorem State.stallOver_late {r : State} {c q since : Nat} (hu : (r.queue q).unpublished = some ((r.desc q).read, since))
    (ht : since + 2 ^ 26 ≤ r.cycle) (hw : (r.desc q).read < (Assoc.get 0 r.wake q).toNat) (hs : (r.desc q).stalled = false) :
    r.stallOver c q = (r.setStalled q true).queueRecord c q 9 := by
  rw [State.stallOver, hu]
  exact if_pos ⟨rfl, ht, hw, by rw [hs]; rfl⟩

/-! ### A packet leaves its queue -/

theorem settlePkt_zeroed {s w : State} {c q : Nat} {k : Taken} (hk : (s.queue q).taken = some k) (hn : k.resumes = none)
    (hz : (List.range k.len).forM (fun j => kWrite c ((s.desc q).ringAt (k.ticket.index + 16 * j)) (List.replicate 8 0)) s = .ok ((), w)) :
    settlePkt c q s = .ok ((), match k.result with
      | some (st, info) => (w.advanceRead q (k.ticket.index + 16 * k.len)).complete c k.ticket st info
      | none => w.advanceRead q (k.ticket.index + 16 * k.len)) := by
  rw [settlePkt]
  simp only [E.bind_apply, E.get_apply, E.andThen_ok, hk, zeros, caught_ok hz, E.modify_apply, hn]
  cases k.result <;> rfl

end Sys2Proof.Machine
end

section
/-! SUPPORT. READ of a queue moves on, and nothing else of memory changes but the flags of its descriptor (R17, R36, R47). -/

namespace Sys2Proof.Machine

/-- A line of device memory that no CV and not the host holds, and for which nothing waits. -/
structure QuietLine (s : State) (line : Nat) : Prop where
  cv : ∀ c, Assoc.find (s.core c).cv line = none
  directory : Assoc.find s.directory line = none
  biPending : ∀ e ∈ s.biPending, e.1 ≠ line
  biOps : ∀ e ∈ s.biOps, e.1 ≠ line

/-- Only memory, and what CVs hold, may differ between the states. -/
structure OnlyMemory (s t : State) : Prop where
  bare : t.bare.still = s.bare.still

theorem OnlyMemory.refl (s : State) : OnlyMemory s s := ⟨rfl⟩
theorem OnlyMemory.trans {s t u : State} (h : OnlyMemory s t) (h' : OnlyMemory t u) : OnlyMemory s u := ⟨h'.bare.trans h.bare⟩
theorem OnlyMemory.eq {α : Type} {s t : State} (h : OnlyMemory s t) (f : State → α) (hf : ∀ b : State, f b.bare.still = f b := by intro; rfl) :
    f t = f s := by
  rw [← hf t, h.bare, hf]

theorem QuietLine.congr {s t : State} {line : Nat} (h : QuietLine s line) (ht : OnlyMemory s t) (hcv : ∀ c, Assoc.find (t.core c).cv line = none) :
    QuietLine t line where
  cv := hcv
  directory := (ht.eq fun b => Assoc.find b.directory line).trans h.directory
  biPending := by
    rw [ht.eq State.biPending]
    exact h.biPending
  biOps := by
    rw [ht.eq State.biOps]
    exact h.biOps

/-- A line that is not in CV leaves it, which changes no memory. -/
theorem State.evict_absent {s : State} {c line : Nat} (h : Assoc.find (s.core c).cv line = none) :
    s.evict c line = s.setCore c { s.core c with cv := Assoc.del (s.core c).cv line } := by
  have hl : (s.core c).line line = [] := by rw [Core.line, h]; rfl
  simp only [State.evict, hl, List.filter_nil, List.map_nil, State.homeWrite, List.isEmpty_nil, if_true]

theorem State.evict_everywhere {line : Nat} (es : Assoc Core) : ∀ {s : State}, (∀ c, Assoc.find (s.core c).cv line = none) →
    let t := es.foldl (fun s e => s.evict e.1 line) s
    t.bare = s.bare ∧ ∀ c, Assoc.find (t.core c).cv line = none := by
  induction es with
  | nil => exact fun h => ⟨rfl, h⟩
  | cons e es ih =>
    intro s h
    have hev := State.evict_absent (h e.1)
    have hcv : ∀ c, Assoc.find ((s.evict e.1 line).core c).cv line = none := by
      intro c
      rw [hev, State.core_setCore]
      split
      · rw [Assoc.find_del]
        split
        · rfl
        · exact h e.1
      · exact h c
    obtain ⟨hb, hc⟩ := ih hcv
    exact ⟨hb.trans (by rw [hev]; rfl), hc⟩

/-- The place of some bytes of a queue's descriptor. -/
theorem State.lineOf_desc (s : State) {q off : Nat} (h : off < 64) : lineOf (keyDram (s.descAt q + off)) = lineOf (s.descAt q) := by
  simp only [lineOf, keyDram, State.descAt]
  omega

theorem State.tableBacked_lt {s : State} {q : Nat} (h : s.tableBacked q = true) : s.descAt q < 2 ^ 39 := by
  rw [State.tableBacked, Bool.and_eq_true] at h
  exact of_decide_eq_true h.1

/-- An operation on bytes of memory that are not the host's. -/
theorem State.homeOp_device (s : State) {k n : Nat} {op : HomeOp} (hop : op ≠ .read) (hk : k < 2 ^ 40) :
    (s.homeOp ((List.range n).map (k + ·)) op false).2.2 =
      s.writeH (consecutive k (bytesOfBits n (op.apply n (s.peekNat k n)))) (((List.range n).map (k + ·)).any s.poisoned && op.reads) := by
  have hold : bitsOfBytes (((List.range n).map (k + ·)).map s.peek) = s.peekNat k n := by
    rw [State.peekNat, State.peeks_eq_map, List.map_map]
    rfl
  have hlen : ((List.range n).map (k + ·)).length = n := by simp
  have hspace : keySpace (((List.range n).map (k + ·)).headD 0) ≠ 1 := by
    cases n with
    | zero => simp [keySpace]
    | succ n =>
      simp only [List.range_succ_eq_map, List.map_cons, List.headD_cons, keySpace]
      omega
  unfold State.homeOp
  rw [hold, hlen]
  dsimp only
  split
  · exact absurd rfl hop
  · dsimp only
    rw [if_neg hspace, Bool.false_or, consecutive, bytesOfBits_length]

/-- What a write of some bytes of a descriptor leaves: their new value, and everything else as it was. -/
structure DescWritten (s t : State) (q off n new : Nat) : Prop where
  only : OnlyMemory s t
  quiet : QuietLine t (lineOf (s.descAt q))
  value : t.peekNat (s.descAt q + off) n = new % 256 ^ n
  others : ∀ k, ¬(s.descAt q + off ≤ k ∧ k < s.descAt q + off + n) → t.peek k = s.peek k

theorem State.descOp_quiet {s : State} {q off n : Nat} {op : HomeOp} (hb : s.tableBacked q = true) (hq : QuietLine s (lineOf (s.descAt q)))
    (hoff : off < 64) (hop : op ≠ .read) :
    DescWritten s (s.descOp q off n op) q off n (op.apply n (s.peekNat (s.descAt q + off) n)) := by
  have hev := State.evict_everywhere s.cores hq.cv
  generalize hu : s.cores.foldl (fun t e => t.evict e.1 (lineOf (s.descAt q))) s = u at hev
  obtain ⟨hbare, hcv⟩ := hev
  have hlt := State.tableBacked_lt hb
  have hsu : OnlyMemory s u := ⟨congrArg State.still hbare⟩
  have hmem : u.mem = s.mem := State.eq_of_bare State.mem hbare
  have hdir : Assoc.find u.directory (lineOf (s.descAt q)) = none := (hq.congr hsu hcv).directory
  have ht : s.descOp q off n op =
      u.writeH (consecutive (s.descAt q + off) (bytesOfBits n (op.apply n (s.peekNat (s.descAt q + off) n))))
        (((List.range n).map (s.descAt q + off + ·)).any u.poisoned && op.reads) := by
    rw [State.descOp, hb]
    simp only [Bool.not_true, Bool.false_eq_true, if_false, s.lineOf_desc hoff, hu, hdir, Option.isSome_none]
    rw [keyDram, u.homeOp_device hop (by omega), State.peekNat_of_mem hmem]
  rw [ht]
  generalize (((List.range n).map (s.descAt q + off + ·)).any u.poisoned && op.reads) = p
  generalize op.apply n (s.peekNat (s.descAt q + off) n) = new
  have hut : OnlyMemory u (u.writeH (consecutive (s.descAt q + off) (bytesOfBits n new)) p) := ⟨by
    show State.bare (State.still _) = State.bare (State.still u)
    rw [State.still_writeH]⟩
  refine ⟨hsu.trans hut, hq.congr (hsu.trans hut) fun c => ?_, ?_, fun k hk => ?_⟩
  · rw [State.core, State.cores_writeH]
    exact hcv c
  · have hbytes := u.peeks_writeH (s.descAt q + off) (bytesOfBits n new) p
    rw [bytesOfBits_length] at hbytes
    rw [State.peekNat, hbytes, bitsOfBytes_bytesOfBits]
  · rw [State.peek_consecutive_other (by rwa [bytesOfBits_length])]
    exact State.peek_of_mem hmem k

/-- STALLED of a descriptor for which nothing waits. -/
theorem State.stalled_quiet {s : State} {q : Nat} (hb : s.tableBacked q = true) (hq : QuietLine s (lineOf (s.descAt q))) :
    (s.desc q).stalled = (s.peekNat (s.descAt q + 62) 2).testBit 14 := by
  have hahead : s.ahead (lineOf (s.descAt q)) = s := State.ahead_quiet hq.biPending hq.biOps
  have hflags : (s.desc q).flags = s.peekNat (s.descAt q + 62) 2 := by
    rw [State.desc]
    simp only [keyDram, hahead, hb, if_true]
  rw [Desc.stalled, hflags, Nat.testBit_eq_decide_div_mod_eq]

/-- STALLED is cleared, and memory changes in the flags only. -/
theorem State.unstall_quiet {s : State} {q : Nat} (hb : s.tableBacked q = true) (hq : QuietLine s (lineOf (s.descAt q))) :
    let t := if (s.desc q).stalled then s.setStalled q false else s
    (t.desc q).stalled = false ∧ ∀ k, ¬(s.descAt q + 62 ≤ k ∧ k < s.descAt q + 64) → t.peek k = s.peek k := by
  dsimp only
  split
  · have h : DescWritten s (s.setStalled q false) q 62 2 _ := State.descOp_quiet hb hq (by omega) (op := .and_ (2 ^ 16 - 1 - 2 ^ 14)) (by simp)
    have hat : (s.setStalled q false).descAt q = s.descAt q := h.only.eq fun b => b.descAt q
    refine ⟨?_, h.others⟩
    rw [State.stalled_quiet ((h.only.eq fun b => b.tableBacked q).trans hb) (by rw [hat]; exact h.quiet), hat, h.value]
    have hbit : Nat.testBit ((2 ^ 16 - 1 - 2 ^ 14) % 2 ^ (8 * 2)) 14 = false := by decide
    rw [show (256 : Nat) ^ 2 = 2 ^ 16 from rfl, Nat.testBit_mod_two_pow, HomeOp.apply, Nat.testBit_and, hbit, Bool.and_false, Bool.and_false]
  · rename_i hst
    exact ⟨Bool.eq_false_iff.2 hst, fun _ _ => rfl⟩

theorem State.advanceRead_quiet {s : State} {q : Nat} (n : Nat) (hb : s.tableBacked q = true) (hq : QuietLine s (lineOf (s.descAt q))) :
    let t := s.advanceRead q n
    t.peekNat (s.descAt q + 16) 8 = n % 2 ^ 64 ∧ (t.desc q).stalled = false ∧ (t.queue q).waitValue = none ∧ (t.queue q).taken = none ∧
      ∀ k, ¬(s.descAt q + 16 ≤ k ∧ k < s.descAt q + 24) → ¬(s.descAt q + 62 ≤ k ∧ k < s.descAt q + 64) → t.peek k = s.peek k := by
  have h : DescWritten s (s.descOp q 16 8 (.write n)) q 16 8 _ := State.descOp_quiet hb hq (by omega) (by simp)
  have hat : (s.descOp q 16 8 (.write n)).descAt q = s.descAt q := h.only.eq fun b => b.descAt q
  obtain ⟨hst, hpeek⟩ := State.unstall_quiet ((h.only.eq fun b => b.tableBacked q).trans hb) (by rw [hat]; exact h.quiet)
  rw [hat] at hpeek
  unfold State.advanceRead
  dsimp only
  generalize (if ((s.descOp q 16 8 (.write n)).desc q).stalled = true then _ else _ : State) = u at hst hpeek
  refine ⟨?_, by rwa [State.desc_setQueue], by simp, by simp, fun k h1 h2 => (hpeek k h2).trans (h.others k h1)⟩
  have hread : u.peekNat (s.descAt q + 16) 8 = (s.descOp q 16 8 (.write n)).peekNat (s.descAt q + 16) 8 :=
    congrArg bitsOfBytes (State.peeks_congr fun i hi => hpeek _ (by omega))
  refine hread.trans (h.value.trans ?_)
  simp only [HomeOp.apply]
  omega

/-! ### The obligation's first part -/

theorem wakeWrite_holds (s : State) (hq : s.input.qid < 1024) :
    let q := s.input.qid
    let d := s.desc q
    let raised (t : State) : Prop :=
      Assoc.get 0 t.wake q = if Assoc.get 0 s.wake q < s.input.word then s.input.word else Assoc.get 0 s.wake q
    (d.enabled = false → happens .wakeWrite s fun t => raised t ∧ t = { s with wake := t.wake }) ∧
      (∀ c, d.enabled = true → d.halted = false → d.sound q = true → s.homeOf q = some c →
        ((s.core c).gated = false → happens .wakeWrite s fun t => raised t ∧ (t.queue q).awake = true ∧
          t.core c = { s.core c with wakes := (s.core c).wakes + 1 }) ∧
        ((s.core c).gated = true → happens .wakeWrite s fun t => raised t ∧ t.core c = { s.core c with waking := true })) := by
  refine ⟨fun he => ⟨_, wakeWrite_disabled hq he, s.wake_raiseLatch .., rfl⟩, fun c he hh hs hc => ⟨fun hg => ⟨_, wakeWrite_running hq he hc hg, ?_⟩,
    fun hg => ⟨_, wakeWrite_gated hq he hc hg, s.wake_raiseLatch .., by rw [State.core_setCore, if_pos rfl]⟩⟩⟩
  rw [State.wakeEvent_sound (by rwa [State.desc_raiseLatch]) (by rwa [State.desc_raiseLatch]) (by rwa [State.desc_raiseLatch])]
  exact ⟨s.wake_raiseLatch .., by simp, by simp⟩

theorem wakeComplete_holds (s : State) (c : Nat) (hc : s.input.core = c) (hw : (s.core c).waking = true)
    (hq : ∀ e ∈ s.wake, s.homeOf e.1 ≠ some c) :
    happens .wakeComplete s fun t => onlyCore s t c ∧ t.core c = { s.core c with gated := false, waking := false } := by
  subst hc
  exact happens_setCore (q := (· = { s.core s.input.core with gated := false, waking := false })) (exec_wakeComplete hw hq) rfl

theorem queuePollScan_holds (s : State) (c : Nat) (hc : s.input.core = c) (ha : s.able c = true) (hb : (s.core c).bootMode = false)
    (hm : ∀ i < 1024, s.polls c i = true → (s.desc i).halted = false ∧ (s.desc i).sound i = true) :
    happens .queuePollScan s fun t => t = { s with queues := t.queues } ∧
      ∀ i < 1024, t.queue i = if s.polls c i then { s.queue i with awake := true, broken := false } else s.queue i := by
  subst hc
  obtain ⟨qs, hqs, hi⟩ := State.poll_queues hm 1024 (Nat.le_refl _)
  refine ⟨_, (exec_queuePollScan ha hb).trans (congrArg Host.Outcome.next hqs), rfl, fun i hlt => (hi i).trans ?_⟩
  simp only [hlt, true_and]

theorem unpublished_holds (s : State) (c : Nat) (h : List Byte) (u : State) (hf : freeHome s c s.input.qid) (hv : s.mayVisit c s.input.qid = true)
    (hr : caught (ringRead c (s.desc s.input.qid) (s.desc s.input.qid).read 8) (atTurn s c s.input.qid) = .ok (some h, u))
    (hs : field h 4 4 ≠ (s.desc s.input.qid).read / 2 ^ (s.desc s.input.qid).sizeLog % 2 ^ 32)
    (hread : (u.desc s.input.qid).read = (s.desc s.input.qid).read)
    (hqueue : u.queue s.input.qid = { s.queue s.input.qid with turn := false }) (hn : (s.queue s.input.qid).unpublished = none)
    (hcycle : u.cycle = s.cycle) :
    let q := s.input.qid
    ((s.desc q).read < (Assoc.get 0 u.wake q).toNat →
        happens .headerReread s fun t => t.queue q = { s.queue q with unpublished := some ((s.desc q).read, s.cycle), turn := false }) ∧
      ((Assoc.get 0 u.wake q).toNat ≤ (s.desc q).read →
        happens .headerReread s fun t => t.queue q = { s.queue q with awake := false, turn := false }) := by
  obtain ⟨t, hx, ht⟩ := headerReread_unpublished hf hv hr hs
  refine ⟨fun hw => ⟨t, hx, ht.trans ?_⟩, fun hw => ⟨t, hx, ht.trans ?_⟩⟩
  · rw [State.notPublished_again (by rw [hqueue]; exact hn) (by rwa [hread]), hqueue, hread, hcycle]
  · rw [State.notPublished_empty (by rwa [hread]), hqueue, ← hn]

theorem queueStall_holds (s : State) (c : Nat) (r : State) (hf : freeHome s c s.input.qid) :
    let q := s.input.qid
    (∀ p, readHead c q (s.letGo c) = .ok (some p, r) → exec .queueStall s = .next (r.letGo c)) ∧
      (readHead c q (s.letGo c) = .ok (none, r) → ∀ since, (r.queue q).unpublished = some ((r.desc q).read, since) → since + 2 ^ 26 ≤ r.cycle →
        (r.desc q).read < (Assoc.get 0 r.wake q).toNat → (r.desc q).stalled = false →
        exec .queueStall s = .next (((r.setStalled q true).queueRecord c q 9).letGo c)) := by
  refine ⟨fun p hr => exec_queueStall hf hr, fun hr since hu ht hw hs => ?_⟩
  rw [← State.stallOver_late hu ht hw hs]
  exact exec_queueStall hf hr

theorem wakeEvents_holds : wakeEvents := by
  intro s q d
  refine ⟨wakeWrite_holds s, wakeComplete_holds s, fun c hc ha hb hm => queuePollScan_holds s c hc ha hb hm, fun c i hi hv hp hm =>
    State.mayVisit_outranked (State.mem_due hi hv hm) hp, fun c hf hv => ?_, fun c r v hf hv hr ht => ?_, fun c p r hf hv hr => ?_,
    unpublished_holds s, queueStall_holds s, fun c k w hk hn hz => settlePkt_zeroed hk hn hz, fun i n hb hcv hd hp ho =>
    State.advanceRead_quiet n hb ⟨hcv, hd, hp, ho⟩⟩
  · rw [exec_headerReread hf, State.atQueue_waits hf hv]
  · exact (exec_headerReread hf).trans (congrArg Host.Outcome.next (State.atQueue_turn hf hv (headWork_unpublished hr ht)))
  · exact (exec_headerReread hf).trans (congrArg Host.Outcome.next (State.atQueue_turn hf hv (headWork_other hr rfl)))

end Sys2Proof.Machine
end

section
/-! SUPPORT. The packets that concern no field (R36, R40 to R42, R48, R50). -/

namespace Sys2Proof.Machine

section
variable {s u v w : State} {p : Pkt}

/-! ### SIGNAL and WAIT_VALUE -/

theorem signalBody_signals (ha : (p.ptr 24).toNat % 8 = 0) (hw : kWrite p.core (p.ptr 24) ((p.bytes.drop 40).take 8) u = .ok ((), v)) :
    signalBody p u = .ok (.done 0 0, if field p.bytes 16 2 / 2 ^ 15 = 0 then v.raise (field p.bytes 16 2 % 2048) else v) := by
  rw [signalBody]
  dsimp only
  rw [if_neg (not_not_intro ha)]
  simp only [E.bind_apply, hw, E.andThen_ok, E.ite_apply]
  split <;> rfl

/-- Every condition from 0 to 3 exists. -/
theorem waitHolds_of_le (cond x v : Nat) : cond ≤ 3 → waitHolds cond x v = some (match cond with
      | 0 => x = v
      | 1 => x ≠ v
      | 2 => v ≤ x
      | _ => x < v : Bool) :=
  match cond with
  | 0 | 1 | 2 | 3 => fun _ => rfl
  | n + 4 => fun h => absurd h (by omega)

section
variable {m : Nat}

theorem waitBody_reads {b : Bool} (ha : (p.ptr 24).toNat % 8 = 0) (hc : field p.bytes 16 1 ≤ 3) (hm : kNat p.core (p.ptr 24) 8 u = .ok (m, v))
    (hb : waitHolds (field p.bytes 16 1) (m &&& field p.bytes 48 8) (field p.bytes 40 8) = some b) :
    waitBody p u = if b then .ok (.done 0 0, v) else .ok (.hold, v.setQueue p.qid { v.queue p.qid with waitValue := some p.ticket }) := by
  have hok : ¬((p.ptr 24).toNat % 8 ≠ 0 ∨ (waitHolds (field p.bytes 16 1) 0 0).isNone = true) := by
    rw [waitHolds_of_le _ _ _ hc]
    simp [ha]
  rw [waitBody]
  dsimp only
  rw [if_neg hok]
  simp only [E.bind_apply, hm, E.andThen_ok, hb]
  cases b <;> rfl

end

/-! ### SKIP -/

/-- The queue that a SKIP names cannot be advanced as it asks (R48). -/
def Pkt.skipRefused (p : Pkt) (s : State) : Prop :=
  let q := field p.bytes 16 2
  let d := s.desc q
  q = p.qid ∨ 1024 ≤ q ∨ s.homeOf q = none ∨ d.enabled = false ∨ d.sound q = false ∨ (d.halted = true ∧ (s.queue q).broken = true) ∨
    d.read ≠ field p.bytes 24 8 ∨ field p.bytes 32 8 % 16 ≠ 0 ∨ field p.bytes 32 8 ≤ field p.bytes 24 8 ∨ d.reserve < field p.bytes 32 8

theorem skipBody_refused (h : p.skipRefused u) : skipBody p u = .ok (.done 10 0, u) := by
  rw [skipBody]
  simp only [E.bind_apply, E.get_apply, E.andThen_ok]
  by_cases h1 : 1024 ≤ field p.bytes 16 2 ∨ field p.bytes 16 2 = p.qid
  · rw [if_pos h1]
    rfl
  · rw [if_neg h1]
    obtain ⟨hlt, hq⟩ := not_or.1 h1
    cases hc : u.homeOf (field p.bytes 16 2) with
    | none => rfl
    | some c =>
      simp only [Pkt.skipRefused, hc, hlt, hq, false_or, reduceCtorEq] at h
      exact congrFun (if_pos (by simpa [or_assoc] using h)) u

/-- The target's home lets go of what it holds of an earlier packet, when it is another core. -/
def State.letGoBut (s : State) (c d : Nat) : State := if d = c then s else s.letGo d

theorem skipBody_advances {c : Nat} (hn : ¬p.skipRefused u) (hc : u.homeOf (field p.bytes 16 2) = some c) (hk : (u.core p.core).kernelAt = none)
    (hz : (List.range (min (field p.bytes 32 8 - field p.bytes 24 8) (2 ^ (u.desc (field p.bytes 16 2)).sizeLog) / 16)).forM (fun j =>
      kWrite c ((u.desc (field p.bytes 16 2)).ringAt (field p.bytes 24 8 + 16 * j)) (List.replicate 8 0)) (u.letGoBut p.core c) = .ok ((), w)) :
    let x := ((w.letGoBut p.core c).advanceRead (field p.bytes 16 2) (field p.bytes 32 8)).setHalted (field p.bytes 16 2) false
    skipBody p u = .ok (.done 0 0, x.setQueue (field p.bytes 16 2) { x.queue (field p.bytes 16 2) with awake := true, broken := false }) := by
  simp only [Pkt.skipRefused, not_or] at hn
  obtain ⟨h1, h2, -, hn⟩ := hn
  rw [skipBody]
  simp only [E.bind_apply, E.get_apply, E.andThen_ok]
  rw [if_neg (by simp [h1, h2]), hc]
  dsimp only
  rw [if_neg (by simpa [or_assoc] using hn), hk]
  by_cases hcp : c = p.core
  · subst hcp
    simp only [State.letGoBut, if_true] at hz ⊢
    simp only [ne_eq, not_true_eq_false, decide_false, Bool.false_and, Bool.false_eq_true, if_false, zeros, E.bind_apply, caught_ok hz,
      E.andThen_ok, E.modify_apply, E.pure_apply, stOk]
  · simp only [State.letGoBut, hcp, if_false] at hz ⊢
    simp only [ne_eq, hcp, not_false_eq_true, decide_true, reduceCtorEq, Bool.and_true, if_true, zeros, E.bind_apply, caught_ok hz,
      E.andThen_ok, E.modify_apply, E.pure_apply, stOk]

/-- The work of a SKIP that does not fault. -/
theorem skipBody_served {t : State} {d : Verdict} (h : skipBody p u = .ok (d, t)) :
    (do match (← caught (skipBody p)) with
        | some v => pure v
        | none => pure (.done stSkip 0) : E Verdict) u = .ok (d, t) := by
  rw [E.bind_apply, caught_ok h]
  rfl

/-! ### The obligation's second part -/

theorem nopPacket_holds (h : servedPacket s p none u) (ht : p.type = 0) : completes .nopPacket s p 0 u :=
  completes_of_done rfl h (ofType_of_type ht) rfl

theorem signal_holds (h : servedPacket s p none u) (ht : p.type = 9) (ha : (p.ptr 24).toNat % 8 = 0)
    (hw : kWrite p.core (p.ptr 24) ((p.bytes.drop 40).take 8) u = .ok ((), v)) :
    completes .signal s p 0 (if field p.bytes 16 2 / 2 ^ 15 = 0 then v.raise (field p.bytes 16 2 % 2048) else v) :=
  completes_of_done rfl h (ofType_of_type ht) (signalBody_signals ha hw)

/-- Either event of a WAIT_VALUE, where the other does nothing. -/
theorem exec_waitValue {i : Instr}
    (hi : i = .waitValue ∧ (s.queue s.input.qid).waitValue = none ∨ i = .waitValuePoll ∧ (s.queue s.input.qid).waitValue.isSome = true) :
    exec i s = s.packet (ofType 10) waitBody := by
  obtain ⟨rfl, hn⟩ | ⟨rfl, hn⟩ := hi
  · exact if_neg (by rw [hn]; simp)
  · exact if_neg (by rw [← Option.not_isSome, hn]; simp)

theorem waitValue_holds {i : Instr} {m : Nat} {b : Bool} (h : servedPacket s p none u)
    (hi : i = .waitValue ∧ (s.queue s.input.qid).waitValue = none ∨ i = .waitValuePoll ∧ (s.queue s.input.qid).waitValue.isSome = true)
    (ht : p.type = 10) (ha : (p.ptr 24).toNat % 8 = 0) (hc : field p.bytes 16 1 ≤ 3) (hm : kNat p.core (p.ptr 24) 8 u = .ok (m, v))
    (hb : waitHolds (field p.bytes 16 1) (m &&& field p.bytes 48 8) (field p.bytes 40 8) = some b) :
    (b = true → completes i s p 0 v) ∧ (b = false →
      exec i s = .next (turnOver (v.setQueue p.qid { v.queue p.qid with waitValue := some p.ticket }) p.core p.qid)) := by
  have hbody := waitBody_reads ha hc hm hb
  refine ⟨fun hb => completes_of_done (exec_waitValue hi) h (ofType_of_type ht) (hbody.trans (if_pos hb)), fun hb => ?_⟩
  exact (exec_waitValue hi).trans
    (State.packet_verdict h (ofType_of_type ht) (hbody.trans (if_neg (Bool.eq_false_iff.1 hb))) rfl)

theorem skip_holds (h : servedPacket s p none u) (ht : p.type = 11) {d : Verdict} (hd : skipBody p u = .ok (d, v)) (hw : d.work p v = .ok ((), w)) :
    exec .skip s = .next (turnOver w p.core p.qid) :=
  State.packet_verdict h (ofType_of_type ht) (skipBody_served hd) hw

theorem plainPackets_holds : plainPackets := by
  intro s p u a num
  refine ⟨fun h => ⟨nopPacket_holds h, fun v ht ha hw => signal_holds h ht ha hw, fun i m v hi ht ha hc hm =>
    waitValue_holds h hi ht ha hc hm (waitHolds_of_le _ _ _ hc), fun ht => ⟨fun hr w hw => skip_holds h ht (skipBody_refused hr) hw,
      fun c w hlt hq hc he hs hh hr h16 hfrom hres hk hz v hv => ?_⟩⟩, fun h ht w hw => State.packet_bad h (decide_eq_true ht) hw⟩
  have hn : ¬p.skipRefused u := by
    simp only [Pkt.skipRefused, not_or]
    exact ⟨hq, Nat.not_le.2 hlt, fun e => Option.some_ne_none c (hc.symm.trans e), fun e => Bool.noConfusion (he.symm.trans e),
      fun e => Bool.noConfusion (hs.symm.trans e), fun ⟨hhalt, hbroken⟩ => hh.elim (fun e => Bool.noConfusion (hhalt.symm.trans e))
        fun e => Bool.noConfusion (hbroken.symm.trans e), not_not_intro hr, not_not_intro h16, Nat.not_le.2 hfrom, Nat.not_lt.2 hres⟩
  exact skip_holds h ht (skipBody_advances hn hc hk hz) hv

/-- Settles O49: a turn of a home is its work at the head of one queue, whose outcomes are the reading of the header and what the packet asks. -/
theorem queueEvents : Obligations.QueueEvents := ⟨wakeEvents_holds, plainPackets_holds⟩

end

end Sys2Proof.Machine
end

section
/-! SUPPORT. DEBUG requests: how one starts, is worked at and is answered (R42, R208). -/

namespace Sys2Proof.Machine

/-! ### A packet becomes a request -/

/-- Every DEBUG event serves the requests of its code. -/
theorem debugKinds_exec {i : Instr} {code : Nat} {act : Nat → DebugWork → E Answer} (h : (i, code, act) ∈ debugKinds) :
    ∃ is : Nat → Bool, is code = true ∧ ∀ s, exec i s = s.debug is act := by
  simp only [debugKinds, List.mem_cons, Prod.mk.injEq, List.not_mem_nil, or_false] at h
  rcases h with ⟨rfl, rfl, rfl⟩ | ⟨rfl, rfl, rfl⟩ | ⟨rfl, rfl, rfl⟩ | ⟨rfl, rfl, rfl⟩ | ⟨rfl, rfl, rfl⟩ | ⟨rfl, rfl, rfl⟩ | ⟨rfl, rfl, rfl⟩ |
    ⟨rfl, rfl, rfl⟩ | ⟨rfl, rfl, rfl⟩
  · exact ⟨(· = 1), rfl, fun _ => by rfl⟩
  · exact ⟨(· = 2), rfl, fun _ => by rfl⟩
  · exact ⟨(· = 3), rfl, fun _ => by rfl⟩
  · exact ⟨(· = 4), rfl, fun _ => by rfl⟩
  · exact ⟨(· = 5), rfl, fun _ => by rfl⟩
  · exact ⟨(· = 6), rfl, fun _ => by rfl⟩
  · exact ⟨(· = 7), rfl, fun _ => by rfl⟩
  · exact ⟨(· = 8), rfl, fun _ => by rfl⟩
  · exact ⟨fun code => code = 0 || 9 ≤ code, rfl, fun _ => by rfl⟩

section
variable {s u w : State} {p : Pkt}

theorem State.debug_packet {t : State} {is : Nat → Bool} {act : Nat → DebugWork → E Answer} (hf : s.input.flag = false)
    (hp : s.packet (fun p => p.type = 0xC && is p.code) debugBody = .next t) :
    s.debug is act = .next (if s.debugWorks.length < t.debugWorks.length then t.workTurn s.debugWorks.length act else t) := by
  rw [State.debug, hf, if_neg Bool.false_ne_true, hp]
  dsimp only
  split <;> rfl

theorem debugBody_absent (h : u.coreOfLid p.target = none) : debugBody p u = .ok (.done 6 0, u) := by
  simp only [debugBody, E.bind_apply, E.get_apply, E.andThen_ok, h]
  rfl

theorem debugBody_unable {c : Nat} (h : u.coreOfLid p.target = some c) (ha : u.able c = false) : debugBody p u = .ok (.hold, u) := by
  simp only [debugBody, E.bind_apply, E.get_apply, E.andThen_ok, h, ha, Bool.not_false, if_true, E.pure_apply]

theorem debugBody_starts {c : Nat} (h : u.coreOfLid p.target = some c) (ha : u.able c = true) :
    debugBody p u =
      .ok (.started, { u with debugWorks := u.debugWorks ++ [⟨p.ticket, p.core, c, p.code, p.data, p.ptr 24, false, 0, 0, 0, 0, 0, none⟩] }) := by
  simp only [debugBody, E.bind_apply, E.get_apply, E.andThen_ok, h, ha, Bool.not_true, Bool.false_eq_true, if_false, E.modify_apply, E.pure_apply]

/-- A DEBUG packet whose code an event serves, and what its start leaves. -/
theorem debugPacket {i : Instr} {code : Nat} {act : Nat → DebugWork → E Answer} {d : Verdict} {t : State} (hk : (i, code, act) ∈ debugKinds)
    (h : servedPacket s p none u) (ht : p.type = 0xC) (hc : p.code = code) (hf : s.input.flag = false) (hb : debugBody p u = .ok (d, t))
    (hw : d.work p t = .ok ((), w)) :
    exec i s = .next (if s.debugWorks.length < w.debugWorks.length then (turnOver w p.core p.qid).workTurn s.debugWorks.length act
      else turnOver w p.core p.qid) := by
  obtain ⟨is, hcode, hi⟩ := debugKinds_exec hk
  have hwant : (decide (p.type = 0xC) && is p.code) = true := by rw [hc, hcode, decide_eq_true ht]; rfl
  rw [hi]
  exact State.debug_packet hf (State.packet_verdict h hwant hb hw)

end

theorem debugStarts_holds : debugStarts := by
  intro s p u w i code act hk h ht hc hf target data
  refine ⟨fun c hc' ha hw hlt => ?_, fun c hc' ha hlen => ?_, fun hc' hlen hw => ?_⟩
  · subst hc
    exact (debugPacket hk h ht rfl hf (debugBody_starts hc' ha) hw).trans (by rw [if_pos hlt])
  · exact (debugPacket hk h ht hc hf (debugBody_unable hc' ha) rfl).trans (by rw [if_neg (by omega)])
  · exact (debugPacket hk h ht hc hf (debugBody_absent hc') hw).trans (by rw [if_neg (by omega)])

/-! ### A request is worked at -/

section
variable {s w : State} {g : DebugWork} {i : Instr} {code : Nat} {act : Nat → DebugWork → E Answer}

theorem requestDue_workTurn {t : State} (h : requestDue s code g)
    (ha : (do
      match (← act s.input.index g) with
      | .wait => pure ()
      | .reply st data =>
        let s' ← get
        answerWork s.input.index ((s'.debugWorks[s.input.index]?).getD g) st data : E Unit) (s.letGo g.core) = .ok ((), t)) :
    s.workTurn s.input.index act = t.letGo g.core := by
  obtain ⟨-, hg, -, hans, hable, hready, hbusy, hat⟩ := h
  have hr : s.workReady s.input.index g = true := by
    rw [State.workReady, Bool.or_eq_true, List.all_eq_true]
    exact Or.inr fun x hx => by simpa using hready x hx
  rw [State.workTurn, hg]
  dsimp only
  rw [hable, hr, hans, if_neg (by simp)]
  exact kernelWork_done hbusy (by rw [hat]; simp) ha

theorem requestDue_exec (hk : (i, code, act) ∈ debugKinds) (h : requestDue s code g) : exec i s = .next (s.workTurn s.input.index act) := by
  obtain ⟨is, hcode, hi⟩ := debugKinds_exec hk
  obtain ⟨hf, hg, hc, -⟩ := h
  rw [hi, State.debug, hf, if_pos rfl, hg]
  dsimp only
  rw [hc, hcode, if_pos rfl]

/-- A request that waits. -/
theorem debug_waits (hk : (i, code, act) ∈ debugKinds) (h : requestDue s code g) (ha : act s.input.index g (s.letGo g.core) = .ok (.wait, w)) :
    exec i s = .next (w.letGo g.core) := by
  rw [requestDue_exec hk h, requestDue_workTurn h (t := w)]
  rw [E.bind_apply, ha]
  rfl

/-- Two requests that differ in no more than whether they have taken effect. -/
theorem DebugWork.eq_of_begun {x : DebugWork} (h : { x with begun := true } = { g with begun := true }) : x = { g with begun := x.begun } := by
  cases x
  cases g
  simpa using h

/-- A request that is answered. -/
theorem debug_replies {st : Nat} {data : List Byte} (hk : (i, code, act) ∈ debugKinds) (h : requestDue s code g)
    (ha : act s.input.index g (s.letGo g.core) = .ok (.reply st data, w)) : replies i s g st data w := by
  intro x y hx hxg hy
  rw [requestDue_exec hk h, requestDue_workTurn h]
  rw [E.bind_apply, ha, E.andThen_ok]
  dsimp only
  rw [E.bind_apply, E.get_apply, E.andThen_ok, hx, Option.getD_some, DebugWork.eq_of_begun hxg, answerWork]
  simp only [E.bind_apply, E.modify_apply, E.andThen_ok]
  rw [caught_ok (x := writeReply g.core g.reply st data) (a := ()) hy]
  rfl

end

end Sys2Proof.Machine
end

section
/-! SUPPORT. DEBUG requests that halt, resume and step slots (R208, R376). -/

namespace Sys2Proof.Machine

/-! ### Slots halt -/

/-- Some slots of a core halt: no other slot and nothing else that a session looks at changes. -/
structure Halts (c : Nat) (ns : List Nat) (s t : State) : Prop where
  bare : t.bare = s.bare
  debugged : (t.core c).debugged = (s.core c).debugged
  stopped : (t.core c).stopped = (s.core c).stopped
  other : ∀ m, m ∉ ns → t.ctx c m = s.ctx c m
  halted : ∀ m ∈ ns, (t.ctx c m).halted = true

theorem State.ctx_setCore_same (s : State) (c m : Nat) (k : Core) : (s.setCore c k).ctx c m = k.ctx m := by
  rw [State.ctx, State.core_setCore_same]

theorem State.bare_setCore (s : State) (c : Nat) (k : Core) : (s.setCore c k).bare = s.bare := rfl

theorem State.bare_setCtx (s : State) (c n : Nat) (x : Ctx) : (s.setCtx c n x).bare = s.bare := rfl

theorem Halts.nil (c : Nat) (s : State) : Halts c [] s s :=
  ⟨rfl, rfl, rfl, fun _ _ => rfl, fun _ hm => absurd hm List.not_mem_nil⟩

theorem Halts.cons {c n : Nat} {ns : List Nat} {s t u : State} (h : Halts c [n] s t) (h' : Halts c ns t u) : Halts c (n :: ns) s u := by
  refine ⟨h'.bare.trans h.bare, h'.debugged.trans h.debugged, h'.stopped.trans h.stopped, fun m hm => ?_, fun m hm => ?_⟩
  · obtain ⟨hne, hns⟩ : m ≠ n ∧ m ∉ ns := by simpa using hm
    rw [h'.other m hns, h.other m (by simpa using hne)]
  · by_cases hmem : m ∈ ns
    · exact h'.halted m hmem
    · rw [h'.other m hmem]
      exact h.halted m (by simpa [hmem] using hm)

/-- How a slot halts: it stays as it is, or its context is replaced, with its wait withdrawn before that or not. -/
theorem State.haltSlot_cases {P : State → Prop} (s : State) (c n l : Nat) (hkeep : (s.ctx c n).halted = true → P s)
    (hset : ∀ x : Ctx, x.halted = true → P (s.setCtx c n x)) (hdrop : ∀ x : Ctx, x.halted = true → P ((s.withdraw c n).setCtx c n x)) :
    P (s.haltSlot c n l) := by
  unfold State.haltSlot
  dsimp only
  split
  next h => exact hkeep h
  next =>
    split
    next =>
      split
      · exact hset _ rfl
      · exact hdrop _ rfl
    next => exact hset _ rfl

theorem Halts.setCtx {c n : Nat} {s t : State} {x : Ctx} (hx : x.halted = true) (hb : t.bare = s.bare)
    (hd : (t.core c).debugged = (s.core c).debugged) (hs : (t.core c).stopped = (s.core c).stopped) (ho : ∀ m, m ≠ n → t.ctx c m = s.ctx c m) :
    Halts c [n] s (t.setCtx c n x) := by
  refine ⟨hb, ?_, ?_, fun m hm => ?_, fun m hm => ?_⟩
  · rw [State.core_setCtx, if_pos rfl]
    exact hd
  · rw [State.core_setCtx, if_pos rfl]
    exact hs
  · have hne : m ≠ n := by simpa using hm
    rw [State.ctx_setCtx, if_neg (by simp [hne])]
    exact ho m hne
  · rw [State.ctx_setCtx, if_pos ⟨rfl, by simpa using hm⟩]
    exact hx

/-- A withdrawn wait changes the context of its slot, and whether the core rotates. -/
theorem State.withdraw_keeps (s : State) (c n : Nat) :
    (s.withdraw c n).bare = s.bare ∧ ((s.withdraw c n).core c).debugged = (s.core c).debugged ∧
      ((s.withdraw c n).core c).stopped = (s.core c).stopped ∧ ∀ m, m ≠ n → (s.withdraw c n).ctx c m = s.ctx c m := by
  unfold State.withdraw
  dsimp only
  generalize { (s.ctx c n).dropped with skidLeft := 0 } = x
  have hcore : (s.setCtx c n x).core c = (s.core c).setCtx n x := by rw [State.core_setCtx, if_pos rfl]
  have hctx : ∀ m, m ≠ n → (s.setCtx c n x).ctx c m = s.ctx c m := fun m hm => by rw [State.ctx_setCtx, if_neg (by simp [hm])]
  split
  · refine ⟨(State.bare_setCore ..).trans (State.bare_setCtx ..), ?_, ?_, fun m hm => (State.ctx_setCore_same ..).trans (hctx m hm)⟩
    · rw [State.core_setCore_same, hcore]
      rfl
    · rw [State.core_setCore_same, hcore]
      rfl
  · refine ⟨State.bare_setCtx .., ?_, ?_, hctx⟩
    · rw [hcore]
      rfl
    · rw [hcore]
      rfl

theorem State.haltSlot_halts (s : State) (c n l : Nat) : Halts c [n] s (s.haltSlot c n l) := by
  refine State.haltSlot_cases s c n l (fun h => ⟨rfl, rfl, rfl, fun _ _ => rfl, fun m hm => ?_⟩)
    (fun x hx => Halts.setCtx hx rfl rfl rfl fun _ _ => rfl) (fun x hx => ?_)
  · rw [List.mem_singleton.1 hm]
    exact h
  · obtain ⟨hb, hd, hs, ho⟩ := State.withdraw_keeps s c n
    exact Halts.setCtx hx hb hd hs ho

theorem State.haltSlot_foldl (c : Nat) : ∀ (ns : List Nat) (s : State), Halts c ns s (ns.foldl (fun s n => s.haltSlot c n 0) s)
  | [], s => Halts.nil c s
  | n :: ns, s => (State.haltSlot_halts s c n 0).cons (State.haltSlot_foldl c ns _)

/-! ### A session halts a core -/

/-- The job slots of a core. -/
abbrev jobSlots : List Nat := (List.range 11).map (· + 1)

theorem State.haltSlots_of_all {s t : State} {c : Nat} {ns : List Nat} (ht : ns.foldl (fun s n => s.haltSlot c n 0) s = t)
    (h : (t.core c).allHalted = true) : s.haltSlots c ns = t.setCore c { t.core c with stopped := true } := by
  rw [State.haltSlots, ht]
  exact if_pos h

theorem Core.allHalted_of {k : Core} (h : ∀ m ∈ jobSlots, (k.ctx m).halted = true) : k.allHalted = true := List.all_eq_true.2 h

theorem State.haltSlots_all (s : State) (c : Nat) :
    (s.haltSlots c jobSlots).bare = s.bare ∧ ((s.haltSlots c jobSlots).core c).debugged = (s.core c).debugged ∧
      ((s.haltSlots c jobSlots).core c).stopped = true ∧ (s.haltSlots c jobSlots).ctx c 0 = s.ctx c 0 ∧
      ∀ m, 1 ≤ m → m ≤ 11 → ((s.haltSlots c jobSlots).ctx c m).halted = true := by
  obtain ⟨t, ht⟩ : ∃ t, jobSlots.foldl (fun s n => s.haltSlot c n 0) s = t := ⟨_, rfl⟩
  have h : Halts c jobSlots s t := ht ▸ State.haltSlot_foldl c jobSlots s
  rw [State.haltSlots_of_all ht (Core.allHalted_of h.halted)]
  refine ⟨h.bare, ?_, ?_, (State.ctx_setCore_same ..).trans (h.other 0 (by decide)), fun m h1 h11 => ?_⟩
  · rw [State.core_setCore_same]
    exact h.debugged
  · rw [State.core_setCore_same]
  · rw [State.ctx_setCore_same]
    exact h.halted m (List.mem_map.2 ⟨m - 1, List.mem_range.2 (by omega), by omega⟩)

/-- A core whose job slots a session holds. -/
def State.hold (s : State) (c : Nat) : State := s.setCore c { s.core c with debugged := jobSlots }

theorem State.hold_ctx (s : State) (c m : Nat) : (s.hold c).ctx c m = s.ctx c m := State.ctx_setCore_same ..

theorem State.hold_stopped (s : State) (c : Nat) : ((s.hold c).core c).stopped = (s.core c).stopped := by
  rw [State.hold, State.core_setCore_same]

theorem State.hold_debugged (s : State) (c : Nat) : ((s.hold c).core c).debugged = jobSlots := by
  rw [State.hold, State.core_setCore_same]

/-- The core as a session holds it, before signals leave. -/
def State.sessionHalts (s : State) (c : Nat) : State := if ((s.hold c).core c).stopped then s.hold c else (s.hold c).haltSlots c jobSlots

theorem State.sessionHalts_stopped {s : State} {c : Nat} (h : (s.core c).stopped = true) : s.sessionHalts c = s.hold c := by
  rw [State.sessionHalts, State.hold_stopped, if_pos h]

theorem State.sessionHalts_running {s : State} {c : Nat} (h : (s.core c).stopped = false) :
    s.sessionHalts c = (s.hold c).haltSlots c jobSlots := by
  rw [State.sessionHalts, State.hold_stopped, h, if_neg Bool.false_ne_true]

theorem State.debugStop_eq (s : State) (c n : Nat) :
    s.debugStop c n = if n ≠ 0 then (s.sessionHalts c).sendHalt c (n + 1) true else s.sessionHalts c := rfl

theorem State.sessionHalts_bare (s : State) (c : Nat) : (s.sessionHalts c).bare = s.bare := by
  cases h : (s.core c).stopped
  · rw [State.sessionHalts_running h, (State.haltSlots_all _ c).1]
    rfl
  · rw [State.sessionHalts_stopped h]
    rfl

theorem State.sessionHalts_debugged (s : State) (c : Nat) : ((s.sessionHalts c).core c).debugged = jobSlots := by
  cases h : (s.core c).stopped
  · rw [State.sessionHalts_running h, (State.haltSlots_all _ c).2.1, State.hold_debugged]
  · rw [State.sessionHalts_stopped h, State.hold_debugged]

theorem State.debugStop_core (s : State) (c n : Nat) : (s.debugStop c n).core c = (s.sessionHalts c).core c := by
  rw [State.debugStop_eq]
  split <;> rfl

theorem State.debugStop_ctx (s : State) (c n m : Nat) : (s.debugStop c n).ctx c m = (s.sessionHalts c).ctx c m := by
  rw [State.ctx, State.debugStop_core]
  rfl

theorem State.debugStop_net (s : State) (c n : Nat) :
    (s.debugStop c n).net = if n ≠ 0 then s.net ++ ((s.sessionHalts c).haltTargets c (n + 1)).map fun e => s.flight c e (.haltSignal true) else s.net := by
  have hnet : (s.sessionHalts c).net = s.net := State.eq_of_bare State.net (State.sessionHalts_bare s c)
  rw [State.debugStop_eq]
  split
  · rw [State.sendHalt, hnet]
    rfl
  · exact hnet

theorem debugStop_facts (v : State) (c n : Nat) :
    let w := v.debugStop c n
    (w.core c).debugged = [1, 2, 3, 4, 5, 6, 7, 8, 9, 10, 11] ∧
      ((v.core c).stopped = true → ∀ i, w.ctx c i = v.ctx c i) ∧
      ((v.core c).stopped = false → (w.core c).stopped = true ∧ w.ctx c 0 = v.ctx c 0 ∧ ∀ i, 1 ≤ i → i ≤ 11 → (w.ctx c i).halted = true) ∧
      (n = 0 → w.net = v.net) ∧
      (n = 1 → w.net = v.net ++ ([0, 1, 2, 3].map (coreOf (clusterOf c))).map fun e => v.flight c e (.haltSignal true)) ∧
      ∀ fid f, n = 2 → v.fieldOf c = some (fid, f) → w.net = v.net ++ f.allCores.map fun e => v.flight c e (.haltSignal true) := by
  simp only [State.debugStop_core, State.debugStop_ctx, State.debugStop_net]
  refine ⟨State.sessionHalts_debugged v c, fun h i => ?_, fun h => ?_, fun h => ?_, fun h => ?_, fun fid f h hf => ?_⟩
  · rw [State.sessionHalts_stopped h, State.hold_ctx]
  · obtain ⟨-, -, hs, h0, hm⟩ := State.haltSlots_all (v.hold c) c
    rw [State.sessionHalts_running h]
    exact ⟨hs, h0.trans (State.hold_ctx v c 0), hm⟩
  · rw [h]
    rfl
  · rw [h]
    rfl
  · have hfield : (v.sessionHalts c).fieldOf c = some (fid, f) := by
      rw [← hf]
      exact State.eq_of_bare (State.fieldOf · c) (State.sessionHalts_bare v c)
    rw [h, if_pos (by decide)]
    simp only [State.haltTargets, hfield]

/-! ### HALT and RESUME -/

section
variable {i : Nat} {g : DebugWork} {v : State}

/-- What HALT finds once it has taken effect. -/
theorem debugHalt_apply {w : State} (hd : g.data ≠ []) (hn : field g.data 0 1 ≤ 2)
    (hw : w = if g.begun then v else (v.debugStop g.core (field g.data 0 1)).setWork i { g with begun := true }) :
    debugHalt i g v = .ok (if (List.range 11).all (fun n => (w.ctx g.core (n + 1)).atRest) then .reply dbgOk (w.core g.core).skids else .wait, w) := by
  subst hw
  have hcond : ¬(g.data = [] ∨ 2 < field g.data 0 1) := by
    rintro (h | h)
    · exact hd h
    · omega
  rw [debugHalt, if_neg hcond]
  cases hb : g.begun
  · simp only [Bool.not_false, if_true, began, E.bind_apply, E.modify_apply, E.andThen_ok, E.get_apply, E.ite_apply, E.pure_apply]
    exact (apply_ite (fun a => Except.ok (a, _)) ..).symm
  · simp only [Bool.not_true, Bool.false_eq_true, if_false, E.bind_apply, E.pure_apply, E.andThen_ok, E.get_apply, E.ite_apply]
    exact (apply_ite (fun a => Except.ok (a, _)) ..).symm

theorem debugResume_bad (h : g.data = [] ∨ (field g.data 0 1 ≠ 0xFF ∧ (field g.data 0 1 = 0 ∨ 11 < field g.data 0 1))) :
    debugResume i g v = .ok (.reply 1 [], v) := by
  rw [debugResume, if_pos h]
  rfl

theorem debugResume_apply (hd : g.data ≠ []) (hn : field g.data 0 1 = 0xFF ∨ (1 ≤ field g.data 0 1 ∧ field g.data 0 1 ≤ 11)) :
    debugResume i g v = .ok (.reply 0 [], v.resumeSlots g.core (if field g.data 0 1 = 0xFF then jobSlots else [field g.data 0 1])) := by
  rw [debugResume, if_neg]
  · rfl
  · rintro (h | ⟨h, h0⟩)
    · exact hd h
    · omega

end

/-! ### STEP -/

section
variable {i : Nat} {g : DebugWork} {v : State}

theorem State.haltedSlot_running {c n : Nat} (hn : n ≤ 11) (h : (v.ctx c n).halted = false) : v.haltedSlot c n = some (.reply dbgNotHalted []) := by
  rw [State.haltedSlot, if_neg (by omega), if_pos (by rw [State.ctx] at h; rw [h]; rfl)]

theorem State.haltedSlot_free {c n : Nat} (hn : n ≤ 11) (h : (v.ctx c n).halted = true) (hr : (v.ctx c n).atRest = true) : v.haltedSlot c n = none := by
  rw [State.ctx] at h hr
  rw [State.haltedSlot, if_neg (by omega), if_neg (by rw [h]; decide), if_neg (by rw [hr]; decide)]

theorem stepNext_steps (hl : (v.ctx g.core g.slot).live = true) (hh : (v.ctx g.core g.slot).halted = true) (ht : (v.ctx g.core g.slot).trap = none) :
    stepNext i g v = .ok (.wait, (v.setCtx g.core g.slot { v.ctx g.core g.slot with stepping := true }).setWork i
      { g with begun := true, left := g.left - 1, before := (v.ctx g.core g.slot).retired, gen := (v.ctx g.core g.slot).gen }) := by
  simp only [stepNext, E.bind_apply, E.get_apply, E.andThen_ok]
  rw [if_neg (by simp [hl, hh, ht])]
  rfl

theorem stepNext_ended (h : (v.ctx g.core g.slot).live = false ∨ (v.ctx g.core g.slot).halted = false) :
    stepNext i g v = .ok (.reply 0 (stepData g.done 3 (v.ctx g.core g.slot).pc), v) := by
  simp only [stepNext, E.bind_apply, E.get_apply, E.andThen_ok]
  rw [if_pos (by rcases h with h | h <;> simp [h])]
  rfl

/-- The data of a STEP that can be carried out (R376). -/
def stepForm (d : List Byte) : Prop := 8 ≤ d.length ∧ field d 0 1 ≠ 0 ∧ 1 ≤ field d 4 4 ∧ field d 4 4 ≤ 64

theorem stepForm.sound {d : List Byte} (h : stepForm d) : ¬(d.length < 8 ∨ field d 0 1 = 0 ∨ field d 4 4 = 0 ∨ 64 < field d 4 4) := by
  obtain ⟨hlen, hn, h1, h64⟩ := h
  omega

theorem debugStep_turnedAway {a : Answer} (hd : stepForm g.data) (hb : g.begun = false) (h : v.haltedSlot g.core (field g.data 0 1) = some a) :
    debugStep i g v = .ok (a, v) := by
  simp only [debugStep, E.bind_apply, E.get_apply, E.andThen_ok]
  rw [if_neg hd.sound, hb, h]
  rfl

theorem debugStep_begins (hd : stepForm g.data) (hb : g.begun = false) (h : v.haltedSlot g.core (field g.data 0 1) = none)
    (hs : (v.ctx g.core (field g.data 0 1)).stepping = false) (hw : v.stepped i g.core (field g.data 0 1) = false) :
    debugStep i g v = stepNext i { g with slot := field g.data 0 1, left := field g.data 4 4 }
      (v.setCore g.core { v.core g.core with debugged := field g.data 0 1 :: (v.core g.core).debugged }) := by
  rw [State.ctx] at hs
  simp only [debugStep, E.bind_apply, E.get_apply, E.andThen_ok]
  rw [if_neg hd.sound, hb, h]
  dsimp only
  rw [hs, hw]
  rfl

theorem debugStep_underWay (hd : stepForm g.data) (hb : g.begun = true)
    (h : (v.ctx g.core g.slot).stepStatus g.before g.gen.toNat = none) : debugStep i g v = .ok (.wait, v) := by
  simp only [debugStep, E.bind_apply, E.get_apply, E.andThen_ok]
  rw [if_neg hd.sound, hb, h]
  rfl

theorem debugStep_otherStatus {st : Nat} (hd : stepForm g.data) (hb : g.begun = true) (hst : st ≠ 0)
    (h : (v.ctx g.core g.slot).stepStatus g.before g.gen.toNat = some st) :
    debugStep i g v = .ok (.reply 0 (stepData g.done st (v.ctx g.core g.slot).pc), v) := by
  obtain ⟨k, rfl⟩ := Nat.exists_eq_succ_of_ne_zero hst
  simp only [debugStep, E.bind_apply, E.get_apply, E.andThen_ok]
  rw [if_neg hd.sound, hb, h]
  rfl

/-- A step has ended as stepped: the context stands past the fill words, and the next step follows unless this was the last. -/
theorem debugStep_stepped {w : State} (hd : stepForm g.data) (hb : g.begun = true)
    (h : (v.ctx g.core g.slot).stepStatus g.before g.gen.toNat = some 0)
    (hw : w = if (v.ctx g.core g.slot).halted then v.skipFills g.core g.slot 1024 else v) :
    debugStep i g v = if g.left = 0 then .ok (.reply 0 (stepData (g.done + 1) 0 (w.ctx g.core g.slot).pc), w)
      else stepNext i { g with done := g.done + 1 } w := by
  simp only [debugStep, E.bind_apply, E.get_apply, E.andThen_ok]
  rw [if_neg hd.sound, hb, if_neg (by decide), h, hw]
  by_cases hl : g.left = 0
  · rw [if_pos hl]
    cases (v.ctx g.core g.slot).halted <;> simp only [hl, E.bind_apply, E.ite_apply] <;> rfl
  · rw [if_neg hl]
    cases (v.ctx g.core g.slot).halted <;> simp only [hl, E.bind_apply, E.ite_apply] <;> rfl

end

/-! ### What a session does with a core -/

theorem debugHalt_holds {s : State} {g : DebugWork} (h : requestDue s 1 g) (hd : g.data ≠ []) (hn : field g.data 0 1 ≤ 2) {w : State}
    (hw : w = if g.begun then s.letGo g.core else ((s.letGo g.core).debugStop g.core (field g.data 0 1)).setWork s.input.index { g with begun := true }) :
    ((∀ i < 11, (w.ctx g.core (i + 1)).atRest = true) → replies .debugHalt s g 0 ((List.range 12).map fun i => (w.ctx g.core i).skid.setWidth 8) w) ∧
      ((∃ i < 11, (w.ctx g.core (i + 1)).atRest = false) → exec .debugHalt s = .next (w.letGo g.core)) := by
  have hk : (Instr.debugHalt, 1, debugHalt) ∈ debugKinds := by simp [debugKinds]
  have happly := debugHalt_apply (i := s.input.index) hd hn hw
  refine ⟨fun hrest => debug_replies hk h ?_, fun ⟨j, hj, hbusy⟩ => debug_waits hk h ?_⟩
  · rw [if_pos (List.all_eq_true.2 fun j hj => hrest j (List.mem_range.1 hj))] at happly
    exact happly
  · rw [if_neg fun hall => ?_] at happly
    · exact happly
    · have := List.all_eq_true.1 hall j (List.mem_range.2 hj)
      rw [hbusy] at this
      exact absurd this Bool.false_ne_true

theorem debugResume_holds {s : State} {g : DebugWork} (h : requestDue s 2 g) (hd : g.data ≠ []) :
    (field g.data 0 1 = 0xFF → replies .debugResume s g 0 [] ((s.letGo g.core).resumeSlots g.core jobSlots)) ∧
      (1 ≤ field g.data 0 1 → field g.data 0 1 ≤ 11 →
        replies .debugResume s g 0 [] ((s.letGo g.core).resumeSlots g.core [field g.data 0 1])) ∧
      (field g.data 0 1 = 0 → replies .debugResume s g 1 [] (s.letGo g.core)) := by
  have hk : (Instr.debugResume, 2, debugResume) ∈ debugKinds := by simp [debugKinds]
  refine ⟨fun hn => debug_replies hk h ?_, fun h1 h11 => debug_replies hk h ?_, fun h0 => debug_replies hk h (debugResume_bad ?_)⟩
  · rw [debugResume_apply hd (Or.inl hn), if_pos hn]
  · rw [debugResume_apply hd (Or.inr ⟨h1, h11⟩), if_neg (by omega)]
  · omega

theorem debugStep_first {s : State} {g : DebugWork} (h : requestDue s 3 g) (hb : g.begun = false) (hd : stepForm g.data)
    (hn : field g.data 0 1 ≤ 11) :
    let v := s.letGo g.core
    let x := v.ctx g.core (field g.data 0 1)
    let w := v.setCore g.core { v.core g.core with debugged := field g.data 0 1 :: (v.core g.core).debugged }
    (x.halted = false → replies .debugStep s g 2 [] v) ∧
      (x.halted = true → x.live = true → x.trap = none → x.atRest = true → x.stepping = false →
        v.stepped s.input.index g.core (field g.data 0 1) = false →
        exec .debugStep s = .next (((w.setCtx g.core (field g.data 0 1) { w.ctx g.core (field g.data 0 1) with stepping := true }).setWork s.input.index
          { g with slot := field g.data 0 1, left := field g.data 4 4 - 1, begun := true, before := x.retired, gen := x.gen }).letGo g.core)) := by
  intro v x w
  have hk : (Instr.debugStep, 3, debugStep) ∈ debugKinds := by simp [debugKinds]
  have hctx : w.ctx g.core (field g.data 0 1) = x := State.ctx_setCore_same ..
  refine ⟨fun hh => debug_replies hk h (debugStep_turnedAway hd hb (State.haltedSlot_running hn hh)), fun hh hl ht hr hs hw => ?_⟩
  refine debug_waits hk h ((debugStep_begins hd hb (State.haltedSlot_free hn hh hr) hs hw).trans ?_)
  rw [← hctx] at hl hh ht ⊢
  exact stepNext_steps hl hh ht

theorem debugStep_later {s : State} {g : DebugWork} (h : requestDue s 3 g) (hb : g.begun = true) (hd : stepForm g.data) :
    let v := s.letGo g.core
    let y := v.ctx g.core g.slot
    (y.stepStatus g.before g.gen.toNat = none → exec .debugStep s = .next (v.letGo g.core)) ∧
      (∀ st, st ≠ 0 → y.stepStatus g.before g.gen.toNat = some st → replies .debugStep s g 0 (stepData g.done st y.pc) v) ∧
      (y.stepStatus g.before g.gen.toNat = some 0 →
        let w := if y.halted then v.skipFills g.core g.slot 1024 else v
        let z := w.ctx g.core g.slot
        (g.left = 0 → replies .debugStep s g 0 (stepData (g.done + 1) 0 z.pc) w) ∧
          (g.left ≠ 0 → z.live = false ∨ z.halted = false → replies .debugStep s g 0 (stepData (g.done + 1) 3 z.pc) w) ∧
          (g.left ≠ 0 → z.live = true → z.halted = true → z.trap = none →
            exec .debugStep s = .next (((w.setCtx g.core g.slot { z with stepping := true }).setWork s.input.index
              { g with done := g.done + 1, begun := true, left := g.left - 1, before := z.retired, gen := z.gen }).letGo g.core))) := by
  intro v y
  have hk : (Instr.debugStep, 3, debugStep) ∈ debugKinds := by simp [debugKinds]
  refine ⟨fun h0 => debug_waits hk h (debugStep_underWay hd hb h0), fun st hst h0 => debug_replies hk h (debugStep_otherStatus hd hb hst h0), ?_⟩
  intro h0 w z
  have happly := debugStep_stepped (i := s.input.index) (w := w) hd hb h0 rfl
  refine ⟨fun hl => debug_replies hk h ?_, fun hl he => debug_replies hk h ?_, fun hl hlive hh ht => debug_waits hk h ?_⟩
  · exact happly.trans (if_pos hl)
  · exact (happly.trans (if_neg hl)).trans (stepNext_ended (g := { g with done := g.done + 1 }) he)
  · exact (happly.trans (if_neg hl)).trans (stepNext_steps (g := { g with done := g.done + 1 }) hlive hh ht)

theorem debugControl_holds : debugControl := by
  intro s g c i d n v x
  refine ⟨fun h hd hn => debugHalt_holds h hd hn rfl, debugStop_facts v c n, fun h hd => debugResume_holds h hd,
    fun h hb hlen hn h1 h64 => ?_, fun h hb hlen hn h1 h64 => debugStep_later h hb ⟨hlen, hn, h1, h64⟩⟩
  have hd : stepForm g.data := ⟨hlen, hn, h1, h64⟩
  exact ⟨fun hn hh => (debugStep_first h hb hd hn).1 hh, fun hn => (debugStep_first h hb hd hn).2⟩

end Sys2Proof.Machine
end

section
/-! SUPPORT. The context layout, and DEBUG requests that read and write contexts, memory and watchpoints (R208, R381). -/

namespace Sys2Proof.Machine

/-! ### Places of a structure of bytes -/

theorem field_skip {bs cs : List Byte} {l : Nat} (h : bs.length = l) (k n : Nat) : field (bs ++ cs) (l + k) n = field cs k n := by
  rw [field, field, ← List.drop_drop, List.drop_left' h]

theorem field_head (n x : Nat) (cs : List Byte) : field (bytesOfBits n x ++ cs) 0 n = x % 256 ^ n := by
  rw [field, List.drop_zero, List.take_left' (bytesOfBits_length n x), bitsOfBytes_bytesOfBits]

/-- One of several numbers of the same size that follow each other. -/
theorem field_flatMap (n : Nat) (f : Nat → Nat) {m i : Nat} (hi : i < m) (cs : List Byte) :
    field (((List.range m).flatMap fun i => bytesOfBits n (f i)) ++ cs) (n * i) n = f i % 256 ^ n := by
  obtain ⟨rest, hs⟩ := flatMap_range_split (fun i => bytesOfBits n (f i)) hi
  rw [hs, List.append_assoc, List.append_assoc, ← Nat.add_zero (n * i),
    field_skip (length_flatMap_range _ (fun i => bytesOfBits_length n (f i)) i), field_head]

/-! ### The context layout -/

section
variable (y : Ctx)

/-- The layout, part after part. -/
theorem Ctx.image_parts : y.image =
    bytesOfBits 16 y.pc.toNat ++ (((List.range 32).flatMap fun i => bytesOfBits 8 (y.readG i).toNat) ++
      (((List.range 16).flatMap fun i => bytesOfBits 16 (y.readP i).toNat) ++ (bytesOfBits 8 y.cir.toNat ++ (bytesOfBits 8 y.lostw.toNat ++
        (bytesOfBits 8 y.fpctl.toNat ++ (bytesOfBits 8 y.fpstat.toNat ++
          (((List.range 4).flatMap fun i => bytesOfBits 8 (y.loopWord i).toNat) ++ []))))))) := by
  rw [Ctx.image]
  simp only [List.append_assoc, List.append_nil]

theorem Ctx.field_pc : field y.image 0 16 = y.pc.toNat := by
  rw [Ctx.image_parts, field_head]
  exact Nat.mod_eq_of_lt (lt_of_lt_of_le y.pc.isLt (by decide))

theorem Ctx.field_readG {i : Nat} (hi : i < 32) : field y.image (16 + 8 * i) 8 = (y.readG i).toNat := by
  rw [Ctx.image_parts, field_skip (bytesOfBits_length ..), field_flatMap 8 _ hi]
  exact Nat.mod_eq_of_lt (y.readG i).isLt

theorem Ctx.field_afterG (k n : Nat) : field y.image (272 + k) n =
    field (((List.range 16).flatMap fun i => bytesOfBits 16 (y.readP i).toNat) ++ (bytesOfBits 8 y.cir.toNat ++ (bytesOfBits 8 y.lostw.toNat ++
        (bytesOfBits 8 y.fpctl.toNat ++ (bytesOfBits 8 y.fpstat.toNat ++
          (((List.range 4).flatMap fun i => bytesOfBits 8 (y.loopWord i).toNat) ++ [])))))) k n := by
  rw [Ctx.image_parts, show 272 + k = 16 + (8 * 32 + k) by omega, field_skip (bytesOfBits_length ..),
    field_skip (length_flatMap_range _ (fun _ => bytesOfBits_length ..) 32)]

theorem Ctx.field_readP {i : Nat} (hi : i < 16) : field y.image (272 + 16 * i) 16 = (y.readP i).toNat := by
  rw [Ctx.field_afterG, field_flatMap 16 _ hi]
  exact Nat.mod_eq_of_lt (lt_of_lt_of_le (y.readP i).isLt (by decide))

theorem Ctx.field_afterP (k n : Nat) : field y.image (528 + k) n =
    field (bytesOfBits 8 y.cir.toNat ++ (bytesOfBits 8 y.lostw.toNat ++ (bytesOfBits 8 y.fpctl.toNat ++ (bytesOfBits 8 y.fpstat.toNat ++
          (((List.range 4).flatMap fun i => bytesOfBits 8 (y.loopWord i).toNat) ++ []))))) k n := by
  rw [show 528 + k = 272 + (16 * 16 + k) by omega, Ctx.field_afterG, field_skip (length_flatMap_range _ (fun _ => bytesOfBits_length ..) 16)]

theorem Ctx.field_cir : field y.image 528 8 = y.cir.toNat := by
  rw [← Nat.add_zero 528, Ctx.field_afterP, field_head]
  exact Nat.mod_eq_of_lt y.cir.isLt

theorem Ctx.field_lostw : field y.image 536 8 = y.lostw.toNat := by
  rw [show 536 = 528 + (8 + 0) from rfl, Ctx.field_afterP, field_skip (bytesOfBits_length ..), field_head]
  exact Nat.mod_eq_of_lt (lt_of_lt_of_le y.lostw.isLt (by decide))

theorem Ctx.field_fpctl : field y.image 544 8 = y.fpctl.toNat := by
  rw [show 544 = 528 + (8 + (8 + 0)) from rfl, Ctx.field_afterP, field_skip (bytesOfBits_length ..), field_skip (bytesOfBits_length ..), field_head]
  exact Nat.mod_eq_of_lt y.fpctl.isLt

theorem Ctx.field_fpstat : field y.image 552 8 = y.fpstat.toNat := by
  rw [show 552 = 528 + (8 + (8 + (8 + 0))) from rfl, Ctx.field_afterP, field_skip (bytesOfBits_length ..), field_skip (bytesOfBits_length ..),
    field_skip (bytesOfBits_length ..), field_head]
  exact Nat.mod_eq_of_lt y.fpstat.isLt

theorem Ctx.field_loopWord {i : Nat} (hi : i < 4) : field y.image (560 + 8 * i) 8 = (y.loopWord i).toNat := by
  rw [show 560 + 8 * i = 528 + (8 + (8 + (8 + (8 + 8 * i)))) by omega, Ctx.field_afterP, field_skip (bytesOfBits_length ..),
    field_skip (bytesOfBits_length ..), field_skip (bytesOfBits_length ..), field_skip (bytesOfBits_length ..), field_flatMap 8 _ hi]
  exact Nat.mod_eq_of_lt (y.loopWord i).isLt

end

/-! ### What an image says is what the context then holds -/

/-- Two contexts hold the same state of the layout. -/
structure SameLayout (x y : Ctx) : Prop where
  pc : x.pc = y.pc
  readG : ∀ r, x.readG r = y.readG r
  readP : ∀ r, x.readP r = y.readP r
  cir : x.cir = y.cir
  lostw : x.lostw = y.lostw
  fpctl : x.fpctl = y.fpctl
  fpstat : x.fpstat = y.fpstat
  loop0 : x.loop0 = y.loop0
  loop1 : x.loop1 = y.loop1

section
variable {x y : Ctx}

theorem SameLayout.loopWord (h : SameLayout x y) (i : Nat) : x.loopWord i = y.loopWord i := by
  rw [Ctx.loopWord, Ctx.loopWord, h.loop0, h.loop1]

theorem SameLayout.image (h : SameLayout x y) : x.image = y.image := by
  have hg : x.readG = y.readG := funext h.readG
  have hp : x.readP = y.readP := funext h.readP
  have hl : x.loopWord = y.loopWord := funext h.loopWord
  rw [Ctx.image, Ctx.image, h.pc, hg, hp, h.cir, h.lostw, h.fpctl, h.fpstat, hl]

theorem SameLayout.writeG (h : SameLayout x y) (i : Nat) : SameLayout (x.writeG i (y.readG i)) y := by
  by_cases hi : i = 0
  · rw [Ctx.writeG, if_pos hi]
    exact h
  · rw [Ctx.writeG, if_neg hi]
    refine { h with readG := fun r => ?_ }
    have hr := h.readG r
    by_cases hri : r = i
    · subst hri
      simp [Ctx.readG, hi]
    · simpa [Ctx.readG, hri] using hr

theorem SameLayout.writeP (h : SameLayout x y) (i : Nat) : SameLayout (x.writeP i (y.readP i)) y := by
  refine { h with readP := fun r => ?_ }
  have hr := h.readP r
  by_cases hri : r = i
  · subst hri
    simp [Ctx.readP, Ctx.writeP]
  · simpa [Ctx.readP, Ctx.writeP, hri] using hr

theorem and_of_and_not {n : Nat} {v m : BitVec n} (h : v &&& ~~~m = 0) : v &&& m = v := by
  calc v &&& m = (v &&& m) ||| (v &&& ~~~m) := by rw [h]; exact BitVec.or_zero.symm
    _ = v &&& (m ||| ~~~m) := BitVec.and_or_distrib_left.symm
    _ = v := by simp

theorem fpctlWrite_self {v : Word} (h : v &&& 0xFFFFFFF8#64 = 0) : fpctlWrite v v = v := by
  rw [fpctl_written, ite_self, ← BitVec.and_or_distrib_left]
  exact and_of_and_not (m := 0xFFFFFFFF00000000#64 ||| 7#64) h

/-- The g registers are taken from the image. -/
theorem SameLayout.takeG (h : SameLayout x y) :
    SameLayout ((List.range 32).foldl (fun x i => x.writeG i (BitVec.ofNat 64 (field y.image (16 + 8 * i) 8))) x) y := by
  refine List.foldlRecOn (motive := fun x => SameLayout x y) _ _ h fun x hx i hi => ?_
  rw [Ctx.field_readG y (List.mem_range.1 hi), BitVec.ofNat_toNat, BitVec.setWidth_eq]
  exact hx.writeG i

/-- The p registers are taken from the image. -/
theorem SameLayout.takeP (h : SameLayout x y) :
    SameLayout ((List.range 16).foldl (fun x i => x.writeP i (BitVec.ofNat 72 (field y.image (272 + 16 * i) 16))) x) y := by
  refine List.foldlRecOn (motive := fun x => SameLayout x y) _ _ h fun x hx i hi => ?_
  rw [Ctx.field_readP y (List.mem_range.1 hi), BitVec.ofNat_toNat, BitVec.setWidth_eq]
  exact hx.writeP i

/-- LOOPSTATE is written where it differs only, so that here it stays. -/
theorem SameLayout.takeLoops (h : SameLayout x y) (w : Nat → Word) :
    SameLayout ((List.range 4).foldl (fun x i => if field y.image (560 + 8 * i) 8 = (x.loopWord i).toNat then x else x.loopWrite i (w i)) x) y := by
  refine List.foldlRecOn (motive := fun x => SameLayout x y) _ _ h fun x hx i hi => ?_
  rw [if_pos]
  · exact hx
  · rw [Ctx.field_loopWord y (List.mem_range.1 hi), hx.loopWord]

/-- The registers between the pointers and the loops are taken from the image. -/
theorem SameLayout.takeControl (h : SameLayout x y) (hcir : y.cir &&& ~~~0xFFFF000F#64 = 0) (hstat : y.fpstat &&& ~~~0x3F#64 = 0)
    (hctl : y.fpctl &&& 0xFFFFFFF8#64 = 0) {w : Nat → Word} (hw : ∀ k, w k = BitVec.ofNat 64 (field y.image (528 + 8 * k) 8)) :
    SameLayout { x with
      cir := w 0 &&& 0xFFFF_000F, lostw := (w 1).setWidth 32, fpctl := fpctlWrite x.fpctl (w 2), fpstat := w 3 &&& 0x3F } y := by
  have h0 : w 0 = y.cir := by
    rw [hw, Nat.mul_zero, Nat.add_zero, Ctx.field_cir, BitVec.ofNat_toNat, BitVec.setWidth_eq]
  have h1 : w 1 = y.lostw.setWidth 64 := by
    rw [hw, Nat.mul_one, Ctx.field_lostw, BitVec.ofNat_toNat]
  have h2 : w 2 = y.fpctl := by
    rw [hw, show 528 + 8 * 2 = 544 from rfl, Ctx.field_fpctl, BitVec.ofNat_toNat, BitVec.setWidth_eq]
  have h3 : w 3 = y.fpstat := by
    rw [hw, show 528 + 8 * 3 = 552 from rfl, Ctx.field_fpstat, BitVec.ofNat_toNat, BitVec.setWidth_eq]
  rw [h0, h1, h2, h3, h.fpctl, fpctlWrite_self hctl]
  exact { h with
    cir := and_of_and_not hcir, lostw := BitVec.setWidth_setWidth_of_le (x := y.lostw) (by decide : 32 ≤ 64), fpctl := rfl
    fpstat := and_of_and_not hstat }

theorem Ctx.ofImage_image (hpc : y.pc.toNat % 4 = 0) (hcir : y.cir &&& ~~~0xFFFF000F#64 = 0) (hstat : y.fpstat &&& ~~~0x3F#64 = 0)
    (hctl : y.fpctl &&& 0xFFFFFFF8#64 = 0) : SameLayout (y.ofImage y.image) y := by
  have h0 : SameLayout { y with pc := BitVec.ofNat 72 (field y.image 0 16 / 4 * 4) } y := by
    rw [Ctx.field_pc, Nat.div_mul_cancel (Nat.dvd_of_mod_eq_zero hpc), BitVec.ofNat_toNat, BitVec.setWidth_eq]
    exact ⟨rfl, fun _ => rfl, fun _ => rfl, rfl, rfl, rfl, rfl, rfl, rfl⟩
  rw [Ctx.ofImage]
  exact SameLayout.takeLoops (SameLayout.takeControl (SameLayout.takeP (SameLayout.takeG h0)) hcir hstat hctl fun _ => rfl) _

end

end Sys2Proof.Machine
end

section
/-! SUPPORT. DEBUG requests that read and write contexts, memory and watchpoints (R208, R381). -/

namespace Sys2Proof.Machine

/-! ### Contexts -/

section
variable {i : Nat} {g : DebugWork} {v : State}

theorem debugReadctx_turnedAway {a : Answer} (hd : g.data ≠ []) (h : v.haltedSlot g.core (field g.data 0 1) = some a) :
    debugReadctx i g v = .ok (a, v) := by
  simp only [debugReadctx, E.bind_apply, E.get_apply, E.andThen_ok]
  rw [if_neg hd, h]
  rfl

theorem debugReadctx_reads (hd : g.data ≠ []) (h : v.haltedSlot g.core (field g.data 0 1) = none) :
    debugReadctx i g v = .ok (.reply 0 (v.ctx g.core (field g.data 0 1)).image, v) := by
  simp only [debugReadctx, E.bind_apply, E.get_apply, E.andThen_ok]
  rw [if_neg hd, h]
  rfl

theorem debugWritectx_writes {c n : Nat} (hc : g.core = c) (hn : field g.data 0 1 = n) (hd : 8 ≤ g.data.length) (h : v.haltedSlot c n = none)
    (ho : field g.data 4 4 % 8 = 0) (hl : field g.data 4 4 + (g.data.drop 8).length ≤ 592) :
    debugWritectx i g v =
      .ok (.reply 0 [], (v.setCtx c n ((v.ctx c n).ofImage (splice (v.ctx c n).image (field g.data 4 4) (g.data.drop 8)))).recheck c n) := by
  subst hc hn
  simp only [debugWritectx, E.bind_apply, E.get_apply, E.andThen_ok]
  rw [if_neg (by omega), h]
  dsimp only
  rw [if_neg (by omega)]
  rfl

end

theorem debugReadctx_holds {s : State} {g : DebugWork} (h : requestDue s 4 g) (hd : g.data ≠ []) :
    let v := s.letGo g.core
    let n := field g.data 0 1
    let x := v.ctx g.core n
    (n ≤ 11 → x.halted = false → replies .debugReadctx s g 2 [] v) ∧
      (n ≤ 11 ∧ x.halted = true ∧ x.atRest = true → replies .debugReadctx s g 0 x.image v) := by
  intro v n x
  have hk : (Instr.debugReadctx, 4, debugReadctx) ∈ debugKinds := by simp [debugKinds]
  exact ⟨fun hn hh => debug_replies hk h (debugReadctx_turnedAway hd (State.haltedSlot_running hn hh)),
    fun ⟨hn, hh, hr⟩ => debug_replies hk h (debugReadctx_reads hd (State.haltedSlot_free hn hh hr))⟩

theorem debugWritectx_holds {s : State} {g : DebugWork} (h : requestDue s 5 g) (hd : 8 ≤ g.data.length) :
    let v := s.letGo g.core
    let n := field g.data 0 1
    let x := v.ctx g.core n
    n ≤ 11 ∧ x.halted = true ∧ x.atRest = true → field g.data 4 4 % 8 = 0 → field g.data 4 4 + (g.data.drop 8).length ≤ 592 →
      replies .debugWritectx s g 0 []
        ((v.setCtx g.core n (x.ofImage (splice x.image (field g.data 4 4) (g.data.drop 8)))).recheck g.core n) := by
  intro v n x ⟨hn, hh, hr⟩ ho hl
  have hk : (Instr.debugWritectx, 5, debugWritectx) ∈ debugKinds := by simp [debugKinds]
  exact debug_replies hk h (debugWritectx_writes rfl rfl hd (State.haltedSlot_free hn hh hr) ho hl)

/-! ### Memory of the job's space -/

section
variable {i : Nat} {g : DebugWork} {v : State}

theorem ptrOf?_small {a : Nat} (h : a < 2 ^ 72) : ptrOf? a = some (BitVec.ofNat 72 a) := by
  rw [ptrOf?, if_pos (Nat.div_eq_of_lt h)]

theorem memRequest_sound {d : List Byte} (hl : d.length = 20) (ha : field d 0 16 < 2 ^ 72) (h1 : 1 ≤ field d 16 4) (h2 : field d 16 4 ≤ 4080) :
    memRequest d = some (field d 0 16, field d 16 4) := by
  rw [memRequest, if_pos ⟨hl, by rw [ptrOf?_small ha]; rfl, h1, h2⟩]

theorem debugReadmem_reads {va n : Nat} {bs : List Byte} {w : State} (h : memRequest g.data = some (va, n))
    (hr : jobRead g.core va n v = .ok (bs, w)) : debugReadmem i g v = .ok (.reply 0 bs, w) := by
  rw [debugReadmem, h]
  dsimp only
  rw [E.bind_apply, caught_ok hr]
  rfl

theorem debugReadmem_faults {va n a : Nat} {e : Cause} {w : State} (h : memRequest g.data = some (va, n))
    (hr : jobRead g.core va n v = .error (.fault e a w)) : debugReadmem i g v = .ok (.reply 3 [], w) := by
  rw [debugReadmem, h]
  dsimp only
  rw [E.bind_apply, caught_fault hr]
  rfl

theorem debugWritemem_writes {w : State} (hl : 16 ≤ g.data.length) (ha : field g.data 0 16 < 2 ^ 72)
    (hw : jobWrite g.core (field g.data 0 16) (g.data.drop 16) v = .ok ((), w)) : debugWritemem i g v = .ok (.reply 0 [], w) := by
  have hcond : ¬(g.data.length < 16 ∨ (ptrOf? (field g.data 0 16)).isNone) := by
    rw [ptrOf?_small ha]
    rintro (h | h)
    · omega
    · simp at h
  rw [debugWritemem, if_neg hcond, E.bind_apply, caught_ok hw]
  rfl

end

/-! ### Watchpoints and status -/

section
variable {i : Nat} {g : DebugWork} {v : State}

theorem State.setWatch_onlyCore (s : State) (c n : Nat) (f : Watch → Watch) : onlyCore s (s.setWatch c n f) c := onlyCore_setCore s c _

theorem State.watch_setWatch (s : State) (c n : Nat) (f : Watch → Watch) :
    Assoc.get Watch.reset ((s.setWatch c n f).core c).watches n = f (Assoc.get Watch.reset (s.core c).watches n) := by
  rw [State.setWatch, State.core_setCore_same]
  exact (Assoc.get_set ..).trans (if_pos rfl)

/-- The state in which the four registers of a watchpoint are written. -/
def State.rewatch (s : State) (c n : Nat) (w : Nat → Word) : State :=
  (((s.writeReg c 0 (.wctl n) (w 0)).writeReg c 0 (.wbase n) (w 1)).writeReg c 0 (.wmask n) (w 2)).writeReg c 0 (.wval n) (w 3)

theorem State.rewatch_onlyCore (s : State) (c n : Nat) (w : Nat → Word) : onlyCore s (s.rewatch c n w) c := by
  simp only [State.rewatch, State.writeReg]
  exact onlyCore_trans (onlyCore_trans (onlyCore_trans (State.setWatch_onlyCore ..) (State.setWatch_onlyCore ..)) (State.setWatch_onlyCore ..))
    (State.setWatch_onlyCore ..)

theorem State.watch_rewatch (s : State) (c n : Nat) (w : Nat → Word) :
    Assoc.get Watch.reset ((s.rewatch c n w).core c).watches n = ⟨wctlWrite (Assoc.get Watch.reset (s.core c).watches n).ctl (w 0), w 1, w 2, w 3⟩ := by
  simp only [State.rewatch, State.writeReg, State.watch_setWatch]

theorem debugSetwatch_writes (hl : g.data.length = 40) (hn : field g.data 0 1 ≤ 3) :
    debugSetwatch i g v = .ok (.reply 0 [], v.rewatch g.core (field g.data 0 1) fun i => BitVec.ofNat 64 (field g.data (8 + 8 * i) 8)) := by
  rw [debugSetwatch, if_neg (by omega)]
  rfl

theorem debugStatus_tells (hc : g.code = 9) :
    debugStatus i g v = .ok (.reply 0 ((List.range 12).map fun n => BitVec.ofNat 8 ((v.ctx g.core n).status n)), v) := by
  simp only [debugStatus, E.bind_apply, E.get_apply, E.andThen_ok]
  rw [if_pos hc]
  rfl

theorem Ctx.status_eq (x : Ctx) (n : Nat) :
    x.status n = if n = 0 then 1 else if x.live = false then 0 else if x.halted then 2 else if x.waiting.isSome || x.trap.isSome then 3 else 1 := by
  rw [Ctx.status]
  cases x.live <;> rfl

end

theorem debugAccess_holds : debugAccess := by
  intro s g c d n v x free
  refine ⟨fun h hd => debugReadctx_holds h hd, fun h hd => debugWritectx_holds h hd, fun h hl ha h1 h2 => ?_, fun h hl ha w hw => ?_,
    fun h hl hn => ?_, fun h => ?_, fun y hpc hcir hstat hctl => (Ctx.ofImage_image hpc hcir hstat hctl).image⟩
  · have hk : (Instr.debugReadmem, 6, debugReadmem) ∈ debugKinds := by simp [debugKinds]
    have hm : memRequest g.data = some (field g.data 0 16, field g.data 16 4) := memRequest_sound hl ha h1 h2
    exact ⟨fun bs w hr => debug_replies hk h (debugReadmem_reads hm hr), fun e a w hr => debug_replies hk h (debugReadmem_faults hm hr)⟩
  · have hk : (Instr.debugWritemem, 7, debugWritemem) ∈ debugKinds := by simp [debugKinds]
    exact debug_replies hk h (debugWritemem_writes hl ha hw)
  · have hk : (Instr.debugSetwatch, 8, debugSetwatch) ∈ debugKinds := by simp [debugKinds]
    exact ⟨_, debug_replies hk h (debugSetwatch_writes hl hn), State.rewatch_onlyCore .., State.watch_rewatch ..⟩
  · have hk : (Instr.debugStatus, 9, debugStatus) ∈ debugKinds := by simp [debugKinds]
    have hcode : g.code = 9 := h.2.2.1
    have happly := debugStatus_tells (i := s.input.index) (v := v) hcode
    simp only [Ctx.status_eq] at happly
    exact debug_replies hk h happly

/-- Settles O51: a request that starts joins those of its core, one that is worked at is answered or waits, each as its event does; the image of a
context is read back as it was written. -/
theorem debugEvents : Obligations.DebugEvents := ⟨debugStarts_holds, debugControl_holds, debugAccess_holds⟩

end Sys2Proof.Machine
end

section
/-! SUPPORT. Packets that define a field and set its budgets and masks (R58, R68, R70). -/

namespace Sys2Proof.Machine

/-- What one move over a list makes true, and every move keeps. -/
theorem foldl_makes {α β : Type} {P : α → Prop} {move : α → β → α} {b : β} (hmake : ∀ a, P (move a b)) (hkeep : ∀ a x, P a → P (move a x)) :
    ∀ {bs : List β}, b ∈ bs → ∀ a, P (bs.foldl move a)
  | x :: bs, hb, a => by
    rw [List.foldl_cons]
    rcases List.mem_cons.1 hb with rfl | h
    · exact List.foldlRecOn bs move (hmake a) fun a ha x _ => hkeep a x ha
    · exact foldl_makes hmake hkeep h _

theorem bitsOfBytes_lt : ∀ bs : List Byte, bitsOfBytes bs < 256 ^ bs.length
  | [] => Nat.one_pos
  | b :: bs => by
    have hb := b.isLt
    have ih := bitsOfBytes_lt bs
    rw [bitsOfBytes, List.length_cons, Nat.pow_succ]
    omega

theorem field_lt (bs : List Byte) (a n : Nat) : field bs a n < 256 ^ n :=
  lt_of_lt_of_le (bitsOfBytes_lt _) (Nat.pow_le_pow_right (by decide) (List.length_take_le ..))

/-! ### FIELD -/

section
variable {p : Pkt} {u : State}

theorem readMap_absent (c x0 y0 w h : Nat) :
    readMap c 0 x0 y0 w h u = .ok (some (w, h, (List.range (w * h)).map fun i => (y0 + i / w) * 16 + x0 + i % w), u) := by
  rw [readMap, if_pos rfl]
  rfl

theorem readStitch_absent (c x0 y0 w h : Nat) : readStitch c 0 x0 y0 w h u = .ok (some ([], [], []), u) := by
  rw [readStitch, if_pos rfl]
  rfl

/-- The field that a FIELD packet without tables asks for. -/
def Pkt.plainField (p : Pkt) (old : Option FieldSt) : FieldSt :=
  ⟨field p.bytes 17 1, field p.bytes 18 1, field p.bytes 19 1, field p.bytes 20 1, field p.bytes 21 1, field p.bytes 22 1, false,
    field p.bytes 19 1, field p.bytes 20 1,
    (List.range (field p.bytes 19 1 * field p.bytes 20 1)).map fun i =>
      (field p.bytes 18 1 + i / field p.bytes 19 1) * 16 + field p.bytes 17 1 + i % field p.bytes 19 1,
    [], [], [], field p.bytes 56 8, (old.map FieldSt.serial).getD 0, [], [], none⟩

theorem any_busy_of_idle {old : Option FieldSt} (h : ∀ f, old = some f → f.job = none) : old.any FieldSt.busy = false := by
  cases old with
  | none => rfl
  | some f => rw [Option.any_some, FieldSt.busy, h f rfl]; rfl

theorem bind_job_of_idle {old : Option FieldSt} (h : ∀ f, old = some f → f.job = none) : old.bind FieldSt.job = none := by
  cases old with
  | none => rfl
  | some f => exact h f rfl

theorem fieldBody_defines (hid : field p.bytes 16 1 < 64) (hold : ∀ f, Assoc.find u.fields (field p.bytes 16 1) = some f → f.job = none)
    (hrect : (field p.bytes 19 1 = 0 || field p.bytes 20 1 = 0 || 16 < field p.bytes 17 1 + field p.bytes 19 1 ||
      16 < field p.bytes 18 1 + field p.bytes 20 1 || (u.fields.any fun e => e.1 ≠ field p.bytes 16 1 &&
        e.2.overlaps (field p.bytes 17 1) (field p.bytes 18 1) (field p.bytes 19 1) (field p.bytes 20 1)) ||
      field p.bytes 21 1 = 0 || field p.bytes 22 1 = 0 || field p.bytes 19 1 % field p.bytes 21 1 ≠ 0 ||
      field p.bytes 20 1 % field p.bytes 22 1 ≠ 0 || field p.bytes 56 8 % 65536 ≠ 0 || 2 ^ 39 ≤ field p.bytes 56 8) = false)
    (hfull : field p.bytes 23 1 % 2 = 0) (hmap : p.ptr 24 = 0) (hstitch : p.ptr 40 = 0) :
    fieldBody p u = .ok (.done 0 0, u.defineField (field p.bytes 16 1) (p.plainField (Assoc.find u.fields (field p.bytes 16 1)))) := by
  simp only [fieldBody, E.bind_apply, E.get_apply, E.andThen_ok]
  rw [if_neg (by omega), any_busy_of_idle hold, if_neg Bool.false_ne_true, hrect, if_neg Bool.false_ne_true, hmap, hstitch]
  simp only [E.bind_apply, readMap_absent, readStitch_absent, E.andThen_ok]
  rw [hfull, if_neg (by simp)]
  simp only [E.bind_apply, E.modify_apply, E.andThen_ok, bind_job_of_idle hold]
  rfl

end

theorem State.find_setField (s : State) (fid i : Nat) (f : FieldSt) :
    Assoc.find (s.setField fid f).fields i = if i = fid then some f else Assoc.find s.fields i := Assoc.find_put ..

/-- What a new definition does to a core: it translates afresh. -/
def Core.redefined (k : Core) (f : FieldSt) (c : Nat) : Core := { k with tlb := [], inReset := k.inReset && f.covers (clusterOf c) }

theorem State.defineField_eq (s : State) (fid : Nat) (f : FieldSt) : ∃ fenced cs,
    s.defineField fid f = (cs ++ f.allCores).foldl (fun s c => s.setCore c ((s.core c).redefined f c)) (s.setField fid { f with fenced := fenced }) :=
  ⟨_, _, rfl⟩

theorem State.defineField_facts (s : State) (fid : Nat) (f : FieldSt) :
    (∃ fenced, Assoc.find (s.defineField fid f).fields fid = some { f with fenced := fenced }) ∧
      ∀ c ∈ f.allCores, ((s.defineField fid f).core c).tlb = [] := by
  obtain ⟨fenced, cs, h⟩ := s.defineField_eq fid f
  rw [h]
  refine ⟨⟨fenced, ?_⟩, fun c hc => ?_⟩
  · refine List.foldlRecOn (motive := fun t : State => Assoc.find t.fields fid = some { f with fenced := fenced }) _ _ ?_ fun t ht c _ => ht
    rw [State.find_setField, if_pos rfl]
  · refine foldl_makes (P := fun t : State => (t.core c).tlb = []) (fun t => ?_) (fun t d ht => ?_) (List.mem_append_right cs hc) _
    · rw [State.core_setCore_same]
      rfl
    · rw [State.core_setCore]
      split
      · rfl
      · exact ht

/-! ### BUDGET -/

section
variable {p : Pkt} {u : State} {f : FieldSt}

/-- A core with its next four limits. -/
def Core.budgeted (k : Core) (l0 l1 l2 l3 : BitVec 32) : Core := { k with nextLim := (some l0, some l1, some l2, some l3) }

theorem State.core_budget (l0 l1 l2 l3 : BitVec 32) (c : Nat) : ∀ (cs : List Nat) (s : State),
    (cs.foldl (fun s c => s.setCore c ((s.core c).budgeted l0 l1 l2 l3)) s).core c = if c ∈ cs then (s.core c).budgeted l0 l1 l2 l3 else s.core c
  | [], s => by simp
  | d :: cs, s => by
    rw [List.foldl_cons, State.core_budget l0 l1 l2 l3 c cs, State.core_setCore]
    by_cases hd : c = d
    · subst hd
      by_cases hc : c ∈ cs <;> simp [hc, Core.budgeted]
    · simp [hd]

theorem limit_ne_zero {n : Nat} (h : n ≠ 0) (hlt : n < 2 ^ 32) : BitVec.ofNat 32 n ≠ 0 := by
  intro h0
  have hn := congrArg BitVec.toNat h0
  rw [BitVec.toNat_ofNat, Nat.mod_eq_of_lt hlt] at hn
  exact h hn

theorem budgetBody_sets (hf : Assoc.find u.fields (field p.bytes 16 1) = some f) (hl : ∀ i < 4, field p.bytes (20 + 4 * i) 4 ≠ 0) :
    let lim (i : Nat) : BitVec 32 := BitVec.ofNat 32 (field p.bytes (20 + 4 * i) 4)
    budgetBody p u = .ok (.done 0 0, f.allCores.foldl (fun s c => s.setCore c ((s.core c).budgeted (lim 0) (lim 1) (lim 2) (lim 3))) u) := by
  intro lim
  have hany : ((List.range 4).any fun i => decide (BitVec.ofNat 32 (field p.bytes (20 + 4 * i) 4) = 0)) = false := by
    rw [List.any_eq_false]
    intro i hi
    simpa using limit_ne_zero (hl i (List.mem_range.1 hi)) (field_lt ..)
  simp only [budgetBody, E.bind_apply, E.get_apply, E.andThen_ok]
  rw [hany, if_neg Bool.false_ne_true, hf]
  rfl

/-! ### WAYMASK -/

/-- A slice is flushed, and takes a mask. -/
def State.maskSlice (m : Nat) (s : State) (cl : Nat) : State := ((s.startFlush cl).endFlush cl).writeMask cl m

/-- A slice that has been flushed and has taken a mask. -/
structure Masked (m cl : Nat) (t : State) : Prop where
  mask : (t.slice cl).mask = BitVec.ofNat 16 m
  flush : (t.slice cl).flush = false
  pins : (t.slice cl).pins = []
  clean : (t.slice cl).clean = false

theorem State.slice_flushed (s : State) (cl d : Nat) : ((s.startFlush cl).endFlush cl).slice d =
    if d = cl then { s.slice cl with flush := false, bypass := 0, clean := true, pins := [] } else s.slice d := by
  have hd : ∀ t : State, ((t.flushLines ((t.homeLines cl).filter fun e => e.2)).dropLines (t.homeLines cl)).slice = t.slice := fun t => by
    rw [State.dropLines_eq]
    exact State.slice_flushLines ..
  rw [State.endFlush_eq, State.slice_setSlice, hd, State.startFlush, State.slice_setSlice, State.slice_setSlice, if_pos rfl]
  split <;> rfl

theorem State.slice_maskSlice {m : Nat} (hm : m < 2 ^ 16) (s : State) (cl d : Nat) : (s.maskSlice m cl).slice d =
    if d = cl then { s.slice cl with flush := false, bypass := 0, pins := [], mask := BitVec.ofNat 16 m, clean := false } else s.slice d := by
  have hbits : bits (BitVec.ofNat 64 m) 15 0 = m := by
    rw [bits_low, BitVec.toNat_ofNat]
    omega
  have hw : (BitVec.ofNat 64 m).setWidth 16 = BitVec.ofNat 16 m := by
    rw [← mask_of_word, hbits]
  have hclean : (((s.startFlush cl).endFlush cl).slice cl).clean = true := by
    rw [State.slice_flushed, if_pos rfl]
  have hmask := State.writeMask_clean hclean (BitVec.ofNat 64 m)
  rw [hbits] at hmask
  rw [State.maskSlice, hmask, State.slice_setSlice, hw, State.slice_zeroWays, State.slice_flushed, State.slice_flushed, if_pos rfl]
  split <;> rfl

theorem State.maskSlice_masked {m : Nat} (hm : m < 2 ^ 16) (s : State) (cl : Nat) : Masked m cl (s.maskSlice m cl) := by
  have h := State.slice_maskSlice hm s cl cl
  rw [if_pos rfl] at h
  constructor <;> rw [h]

theorem Masked.maskSlice {m cl d : Nat} {s : State} (hm : m < 2 ^ 16) (h : Masked m cl s) : Masked m cl (s.maskSlice m d) := by
  by_cases hd : cl = d
  · subst hd
    exact State.maskSlice_masked hm s cl
  · have hs := State.slice_maskSlice hm s d cl
    rw [if_neg hd] at hs
    exact ⟨hs ▸ h.mask, hs ▸ h.flush, hs ▸ h.pins, hs ▸ h.clean⟩

theorem waymaskBody_masks (hf : Assoc.find u.fields (field p.bytes 16 1) = some f) (hb : f.busy = false) :
    waymaskBody p u = .ok (.done 0 0, f.clusters.foldl (State.maskSlice (field p.bytes 18 2)) u) := by
  simp only [waymaskBody, E.bind_apply, E.get_apply, E.andThen_ok, hf, hb, Bool.false_eq_true, if_false]
  rfl

theorem FieldSt.busy_of_idle (h : f.job = none) : f.busy = false := by
  rw [FieldSt.busy, h]
  rfl

end

theorem fieldPackets_holds : fieldPackets := by
  intro s p u hserve num fid
  refine ⟨?_, fun f hf => ⟨?_, ?_⟩⟩
  · intro ht x0 y0 w h old hid hold hw hh hx hy hover hcw hch hwm hhm hfull hmap hstitch hroot hrlt f t
    have hany : (u.fields.any fun e => decide (e.1 ≠ fid) && e.2.overlaps x0 y0 w h) = false := by
      rw [List.any_eq_false]
      intro e he
      by_cases hne : e.1 = fid
      · simp [hne]
      · simp [hover e he hne]
    have hrect : (w = 0 || h = 0 || 16 < x0 + w || 16 < y0 + h || (u.fields.any fun e => e.1 ≠ fid && e.2.overlaps x0 y0 w h) ||
        num 21 1 = 0 || num 22 1 = 0 || w % num 21 1 ≠ 0 || h % num 22 1 ≠ 0 || num 56 8 % 65536 ≠ 0 || 2 ^ 39 ≤ num 56 8) = false := by
      rw [hany]
      simp [hw, hh, hcw, hch, hwm, hhm, hroot, hx, hy]
      exact hrlt
    exact ⟨completes_of_done rfl hserve (ofType_of_type ht) (fieldBody_defines hid hold hrect hfull hmap hstitch), State.defineField_facts u fid f⟩
  · intro ht hl lim
    refine ⟨_, ?_, completes_of_done rfl hserve (ofType_of_type ht) (budgetBody_sets hf hl), fun c => State.core_budget _ _ _ _ c _ u⟩
    exact List.foldlRecOn (motive := fun t : State => t.bare = u.bare) _ _ rfl fun t ht c _ => ht
  · intro ht hj hw
    refine ⟨_, completes_of_done rfl hserve (ofType_of_type ht) (waymaskBody_masks hf (FieldSt.busy_of_idle hj)), fun cl hcl => ?_⟩
    have hm : num 18 2 < 2 ^ 16 := field_lt p.bytes 18 2
    obtain ⟨hmask, hflush, hpins, hclean⟩ := foldl_makes (P := Masked (num 18 2) cl) (fun t => State.maskSlice_masked hm t cl)
      (fun t d h => h.maskSlice hm) hcl u
    exact ⟨hmask, hflush, hpins, hclean⟩

end Sys2Proof.Machine
end

section
/-! SUPPORT. PAUSE, SNAPSHOT and RESTORE packets, and what a soft pre-emption leaves of a job (R42, R96, R97, R112, R119). -/

namespace Sys2Proof.Machine

/-! ### What the packets do -/

section
variable {p : Pkt} {u : State} {f : FieldSt} {j : Job}

theorem pauseBody_begins (hf : Assoc.find u.fields (field p.bytes 16 1) = some f) (hj : f.job = some j) (h1 : 1 ≤ field p.bytes 20 4)
    (h2 : field p.bytes 20 4 ≤ 10000000) (hp : j.pre = .running) :
    pauseBody p u = .ok (.started, u.pauseJob (field p.bytes 16 1) f p.ticket (field p.bytes 20 4) none) := by
  simp only [pauseBody, E.bind_apply, E.get_apply, E.andThen_ok, hf, hj, hp]
  rw [if_neg (by omega)]
  rfl

theorem pauseBody_joins {b : Bool} (hf : Assoc.find u.fields (field p.bytes 16 1) = some f) (hj : f.job = some j) (h1 : 1 ≤ field p.bytes 20 4)
    (h2 : field p.bytes 20 4 ≤ 10000000) (hp : j.pre = .pausing b) :
    pauseBody p u = .ok (.started, u.modJob (field p.bytes 16 1) fun j =>
      { j with joined := j.joined ++ [p.ticket], deadline := min j.deadline (u.cycle + 2700 * field p.bytes 20 4) }) := by
  simp only [pauseBody, E.bind_apply, E.get_apply, E.andThen_ok, hf, hj, hp]
  rw [if_neg (by omega)]
  rfl

/-- The job that a SNAPSHOT is about. -/
theorem snapshot_job (hf : Assoc.find u.fields (field p.bytes 16 1) = some f) (hj : f.job = some j) (hp : j.pre ≠ .parked) :
    ((Assoc.find u.fields (field p.bytes 16 1)).bind fun f => (f.job.filter fun j => j.pre ≠ .parked || j.snap.isSome).map fun j => (f, j)) =
      some (f, j) := by
  simp [hf, hj, hp, Option.filter]

theorem snapshotBody_refused (hf : Assoc.find u.fields (field p.bytes 16 1) = some f) (hj : f.job = some j) (hp : j.pre ≠ .parked)
    (hs : j.snapJob = false) : snapshotBody p u = .ok (.done 11 0, u) := by
  simp only [snapshotBody, E.bind_apply, E.get_apply, E.andThen_ok]
  rw [snapshot_job hf hj hp]
  dsimp only
  rw [hs, if_pos (by decide)]
  rfl

/-- A SNAPSHOT drains, or names no place to drain to. -/
theorem drains_or_nowhere {a b : Nat} (h : a % 2 = 1 ∨ b = 0) : ¬((!decide (a % 2 = 1)) = true ∧ b ≠ 0) := by
  rcases h with h | h <;> simp [h]

theorem snapshotBody_begins (hf : Assoc.find u.fields (field p.bytes 16 1) = some f) (hj : f.job = some j) (hp : j.pre = .running)
    (hs : j.snapJob = true) (hd : field p.bytes 17 1 % 2 = 1 ∨ field p.bytes 24 16 = 0) :
    snapshotBody p u = .ok (.started, u.pauseJob (field p.bytes 16 1) f p.ticket (field p.bytes 20 4)
      (some (decide (field p.bytes 17 1 % 2 = 1), field p.bytes 24 16))) := by
  simp only [snapshotBody, E.bind_apply, E.get_apply, E.andThen_ok]
  rw [snapshot_job hf hj (by rw [hp]; decide)]
  dsimp only
  rw [hs, hp, if_neg (by decide), if_neg (drains_or_nowhere hd)]
  rfl

theorem snapshotBody_waits (hf : Assoc.find u.fields (field p.bytes 16 1) = some f) (hj : f.job = some j) (hp : j.pre = .pausing true)
    (hs : j.snapJob = true) (hd : field p.bytes 17 1 % 2 = 1 ∨ field p.bytes 24 16 = 0) :
    snapshotBody p u = .ok (.started, u.modJob (field p.bytes 16 1) fun j =>
      { j with snaps := j.snaps ++ [(p.ticket, decide (field p.bytes 17 1 % 2 = 1), field p.bytes 24 16)]
               deadline := min j.deadline (u.cycle + 2700 * field p.bytes 20 4) }) := by
  simp only [snapshotBody, E.bind_apply, E.get_apply, E.andThen_ok]
  rw [snapshot_job hf hj (by rw [hp]; decide)]
  dsimp only
  rw [hs, hp, if_neg (by decide), if_neg (drains_or_nowhere hd)]
  rfl

theorem restoreBody_resumes (hf : Assoc.find u.fields (field p.bytes 16 1) = some f) (hj : f.job = some j) (hp : j.pre = .parked)
    (hs : j.snap = none) (ha : field p.bytes 24 16 = 0) :
    restoreBody p u = .ok (.resumes (field p.bytes 16 1),
      u.modJob (field p.bytes 16 1) fun j => { j with launch := some p.ticket, pre := .running }) := by
  simp only [restoreBody, E.bind_apply, E.get_apply, E.andThen_ok, hf, hj]
  rw [if_pos ha, if_pos (Or.inr ⟨hp, by rw [hs]; rfl⟩)]
  rfl

end

/-! ### What a pause leaves -/

/-- The field has a job, and is otherwise as `f` says. -/
def HasJob (s : State) (fid : Nat) (f : FieldSt) (j : Job) : Prop := Assoc.find s.fields fid = some { f with job := some j }

/-- A parked copy, whose weight has gone home. -/
def TaskCopy.home (t : TaskCopy) : TaskCopy := { t with weight := 0 }

section
variable {s : State} {fid : Nat} {f : FieldSt} {j : Job}

theorem HasJob.modJob (h : HasJob s fid f j) (g : Job → Job) : HasJob (s.modJob fid g) fid f (g j) := by
  rw [HasJob, State.modJob, h]
  exact (State.find_setField ..).trans (if_pos rfl)

theorem State.core_modJob (s : State) (fid : Nat) (g : Job → Job) : (s.modJob fid g).core = s.core := by
  rw [State.modJob]
  split <;> rfl

theorem State.park_weightless {t : TaskCopy} (hw : t.weight = 0) (c : Nat) :
    s.park fid c t = s.modJob fid fun j => { j with parked := j.parked ++ [t.home] } := by
  rw [State.park, State.returnWeight, if_pos hw]
  rfl

/-- Copies without weight are parked one after the other. -/
theorem HasJob.parks {α : Type} (at_ : α → Nat) (copy : α → TaskCopy) : ∀ (ts : List α) {s : State} {j : Job}, HasJob s fid f j →
    (∀ t ∈ ts, (copy t).weight = 0) →
    HasJob (ts.foldl (fun s t => s.park fid (at_ t) (copy t)) s) fid f { j with parked := j.parked ++ ts.map fun t => (copy t).home } ∧
      (ts.foldl (fun s t => s.park fid (at_ t) (copy t)) s).core = s.core
  | [], s, j, h, _ => by simpa using h
  | t :: ts, s, j, h, hw => by
    have hpark := State.park_weightless (s := s) (fid := fid) (hw t List.mem_cons_self) (at_ t)
    have ih := (h.modJob fun j => { j with parked := j.parked ++ [(copy t).home] }).parks at_ copy ts fun x hx => hw x (List.mem_cons_of_mem t hx)
    rw [List.foldl_cons, hpark]
    rw [State.core_modJob] at ih
    refine ⟨?_, ih.2⟩
    have h1 := ih.1
    rwa [List.append_assoc] at h1

/-- The pending copies of a core are parked. -/
def State.parkPending (fid : Nat) (s : State) (c : Nat) : State :=
  let ts := (s.core c).pending
  if ts.isEmpty then s else ts.foldl (fun s t => s.park fid c t) (s.setCore c { s.core c with pending := [] })

theorem HasJob.parkPending {c : Nat} (h : HasJob s fid f j) (hw : ∀ e ∈ (s.core c).pending, e.weight = 0) :
    HasJob (s.parkPending fid c) fid f { j with parked := j.parked ++ (s.core c).pending.map TaskCopy.home } ∧
      ((s.parkPending fid c).core c).pending = [] ∧ ∀ d, d ≠ c → (s.parkPending fid c).core d = s.core d := by
  rw [State.parkPending]
  dsimp only
  split
  next he =>
    rw [List.isEmpty_iff] at he
    refine ⟨?_, he, fun _ _ => rfl⟩
    rw [he]
    simpa using h
  next =>
    have hset : HasJob (s.setCore c { s.core c with pending := [] }) fid f j := h
    obtain ⟨hjob, hcore⟩ := hset.parks (fun _ => c) id (s.core c).pending hw
    refine ⟨hjob, ?_, fun d hd => ?_⟩
    · exact (congrArg (fun k => (k c).pending) hcore).trans (by rw [State.core_setCore_same])
    · exact (congrFun hcore d).trans ((State.core_setCore ..).trans (if_neg hd))

/-- The pending copies of some cores are parked, core after core. -/
theorem HasJob.parkCores : ∀ (cs : List Nat) {s : State} {j : Job}, HasJob s fid f j → cs.Nodup →
    (∀ c ∈ cs, ∀ e ∈ (s.core c).pending, e.weight = 0) →
    HasJob (cs.foldl (State.parkPending fid) s) fid f
        { j with parked := j.parked ++ cs.flatMap fun c => (s.core c).pending.map TaskCopy.home } ∧
      (∀ c ∈ cs, ((cs.foldl (State.parkPending fid) s).core c).pending = []) ∧
      ∀ d, d ∉ cs → (cs.foldl (State.parkPending fid) s).core d = s.core d
  | [], s, j, h, _, _ => ⟨by simpa using h, fun _ hc => absurd hc List.not_mem_nil, fun _ _ => rfl⟩
  | c :: cs, s, j, h, hn, hw => by
    obtain ⟨hc, hn⟩ := List.nodup_cons.1 hn
    obtain ⟨hjob, hnone, hother⟩ := h.parkPending (hw c List.mem_cons_self)
    have hsame : ∀ d ∈ cs, (s.parkPending fid c).core d = s.core d := fun d hd => hother d fun he => hc (he ▸ hd)
    obtain ⟨ihjob, ihnone, ihother⟩ := hjob.parkCores cs hn fun d hd => by
      rw [hsame d hd]
      exact hw d (List.mem_cons_of_mem c hd)
    have hflat : (cs.flatMap fun d => ((s.parkPending fid c).core d).pending.map TaskCopy.home) =
        cs.flatMap fun d => (s.core d).pending.map TaskCopy.home := List.flatMap_congr fun d hd => by rw [hsame d hd]
    rw [List.foldl_cons]
    refine ⟨?_, fun d hd => ?_, fun d hd => ?_⟩
    · rw [hflat, List.append_assoc] at ihjob
      exact ihjob
    · rcases List.mem_cons.1 hd with rfl | hd
      · rw [ihother d hc]
        exact hnone
      · exact ihnone d hd
    · have hne : d ≠ c := fun he => hd (he ▸ List.mem_cons_self)
      rw [ihother d fun hm => hd (List.mem_cons_of_mem c hm), hother d hne]

/-- A job whose pause has begun. -/
def Job.pausedBy (j : Job) (k : Ticket) (deadline : Nat) (snap : Option (Bool × Nat)) : Job :=
  { j with pre := .pausing snap.isSome, pauser := some k, deadline := deadline, snap := snap }

theorem State.pauseJob_eq (s : State) (fid : Nat) (f : FieldSt) (k : Ticket) (us : Nat) (snap : Option (Bool × Nat)) :
    s.pauseJob fid f k us snap =
      ((f.job.map (·.overflow)).getD []).foldl (fun s t => s.park fid t.1 t.2)
        ((f.allCores.foldl (State.parkPending fid) (s.modJob fid fun j => j.pausedBy k (s.cycle + 2700 * us) snap)).modJob fid
          fun j => { j with overflow := [] }) := rfl

/-- The pause leaves no copy pending, and the job with every copy parked. -/
theorem HasJob.pauseJob {k : Ticket} {us : Nat} {snap : Option (Bool × Nat)} (h : HasJob s fid f j) (hj : f.job = some j)
    (hn : f.allCores.Nodup) (hw : ∀ c ∈ f.allCores, ∀ e ∈ (s.core c).pending, e.weight = 0) (ho : ∀ e ∈ j.overflow, e.2.weight = 0) :
    HasJob (s.pauseJob fid f k us snap) fid f { j.pausedBy k (s.cycle + 2700 * us) snap with
        overflow := []
        parked := j.parked ++ (f.allCores.flatMap fun c => (s.core c).pending.map TaskCopy.home) ++ j.overflow.map fun e => e.2.home } ∧
      ∀ c ∈ f.allCores, ((s.pauseJob fid f k us snap).core c).pending = [] := by
  have hcore := State.core_modJob s fid fun j => j.pausedBy k (s.cycle + 2700 * us) snap
  obtain ⟨hjob, hnone, -⟩ := (h.modJob fun j => j.pausedBy k (s.cycle + 2700 * us) snap).parkCores f.allCores hn (by rwa [hcore])
  obtain ⟨hpark, hkeep⟩ := (hjob.modJob fun j => { j with overflow := [] }).parks (fun e => e.1) (fun e => e.2) j.overflow ho
  rw [hcore] at hpark
  rw [State.pauseJob_eq, hj, Option.map_some, Option.getD_some]
  refine ⟨hpark, fun c hc => ?_⟩
  exact (congrArg (fun k => (k c).pending) (hkeep.trans (State.core_modJob ..))).trans (hnone c hc)

end

theorem pausePackets_holds : pausePackets := by
  refine ⟨?_, ?_⟩
  · intro s p u f j hserve num fid hf hj
    refine ⟨fun ht h1 h2 => ⟨fun hp => ?_, fun b hp => ?_⟩, fun ht => ⟨fun hp hs => ?_, fun hp hs hd => ?_, fun hp hs hd => ?_⟩,
      fun w ht hp hs ha htake => ?_⟩
    · exact startsPacket_of_started rfl hserve (ofType_of_type ht) (pauseBody_begins hf hj h1 h2 hp)
    · exact startsPacket_of_started rfl hserve (ofType_of_type ht) (pauseBody_joins hf hj h1 h2 hp)
    · exact completes_of_done rfl hserve (ofType_of_type ht) (snapshotBody_refused hf hj hp hs)
    · exact startsPacket_of_started rfl hserve (ofType_of_type ht) (snapshotBody_begins hf hj hp hs hd)
    · exact startsPacket_of_started rfl hserve (ofType_of_type ht) (snapshotBody_waits hf hj hp hs hd)
    · exact State.packet_verdict hserve (ofType_of_type ht) (restoreBody_resumes hf hj hp hs ha) htake
  · intro t fid f j k us snap hf hj hn hw ho v after
    have hjob : HasJob t fid f j := by
      rw [HasJob, hf, ← hj]
    obtain ⟨hafter, hnone⟩ := hjob.pauseJob (k := k) (us := us) (snap := snap) hj hn hw ho
    have hv : after = some _ := congrArg (·.bind FieldSt.job) hafter
    refine ⟨hnone, ?_, ?_, ?_⟩ <;> rw [hv] <;> rfl

end Sys2Proof.Machine
end

section
/-! SUPPORT. Launch packets, and the shares of a launch (R74, R77). -/

namespace Sys2Proof.Machine

/-! ### What the packets do -/

section
variable {p : Pkt} {u v w : State} {f : FieldSt} {h image : List Byte} {home rc : Nat}

theorem graphBody_launches {roots : List TaskCopy} (hb : u.fieldBusy p = false) (hh : launchHead p u = .ok (some (f, h, home, rc, image), v))
    (h1 : 1 ≤ field p.bytes 20 4) (h2 : field p.bytes 20 4 ≤ 65535) (hw : field p.bytes 20 4 ≤ 2 ^ field h 32 1)
    (hr : readRoots rc (field p.bytes 20 4) (p.ptr 40) v = .ok (roots, w)) :
    graphBody p u = .ok (.started, (w.letGo rc).launch (field p.bytes 16 1) f (jobOfHeader h image home (field h 40 4) p.ticket none)
      (roots.map fun t => (none, t))) := by
  have hn : ¬(field p.bytes 20 4 = 0 ∨ 65535 < field p.bytes 20 4 ∨ 2 ^ field h 32 1 < field p.bytes 20 4) := by
    rintro (hz | hz | hz)
    · omega
    · omega
    · exact absurd hw (Nat.not_le.2 hz)
  simp only [graphBody, E.bind_apply, E.get_apply, E.andThen_ok, hb, Bool.false_eq_true, if_false, hh]
  rw [if_neg hn]
  simp only [E.bind_apply, hr, E.andThen_ok]
  rfl

theorem gridBody_launches {t : List Byte} {g : Grid} {cores : List Nat} {total : Nat} (hb : u.fieldBusy p = false)
    (hh : launchHead p u = .ok (some (f, h, home, rc, image), v)) (hx : field p.bytes 56 4 ≠ 0) (hy : field p.bytes 60 4 ≠ 0)
    (htx : field p.bytes 64 2 ≠ 0) (hty : field p.bytes 66 2 ≠ 0)
    (hcores : cores = v.gridCores f (field h 34 2 % 2 = 1) (field h 34 2 / 2 % 2 = 1)) (hne : cores ≠ []) (hlen : cores.length ≤ 2 ^ field h 32 1)
    (hg : g = ⟨(field p.bytes 56 4 + field p.bytes 64 2 - 1) / field p.bytes 64 2, field p.bytes 64 2, field p.bytes 66 2, field p.bytes 56 4,
      field p.bytes 60 4⟩)
    (htotal : total = (field p.bytes 56 4 + field p.bytes 64 2 - 1) / field p.bytes 64 2 *
      ((field p.bytes 60 4 + field p.bytes 66 2 - 1) / field p.bytes 66 2)) (hlt : total < 2 ^ 32)
    (hr : kRead rc (p.ptr 40) 64 v = .ok (t, w)) :
    gridBody p u = .ok (.started, (w.letGo rc).launch (field p.bytes 16 1) f (jobOfHeader h image home (field h 40 4) p.ticket (some g))
      (gridCopies (taskOf t) g total cores)) := by
  have hn : ¬(field p.bytes 56 4 = 0 ∨ field p.bytes 60 4 = 0 ∨ field p.bytes 64 2 = 0 ∨ field p.bytes 66 2 = 0 ∨
      v.gridCores f (hdrFlags h % 2 = 1) (hdrFlags h / 2 % 2 = 1) = [] ∨
      2 ^ field h 32 1 < (v.gridCores f (hdrFlags h % 2 = 1) (hdrFlags h / 2 % 2 = 1)).length) := by
    rintro (hz | hz | hz | hz | hz | hz)
    · exact hx hz
    · exact hy hz
    · exact htx hz
    · exact hty hz
    · exact hne (hcores.trans hz)
    · exact absurd hlen (Nat.not_le.2 (hcores ▸ hz))
  have ht : ¬2 ^ 32 - 1 < (field p.bytes 56 4 + field p.bytes 64 2 - 1) / field p.bytes 64 2 *
      ((field p.bytes 60 4 + field p.bytes 66 2 - 1) / field p.bytes 66 2) := by
    rw [← htotal]
    omega
  simp only [gridBody, E.bind_apply, E.get_apply, E.andThen_ok, hb, Bool.false_eq_true, if_false, hh]
  rw [if_neg hn, if_neg ht]
  simp only [E.bind_apply, hr, E.andThen_ok]
  rw [htotal, hg, hcores]
  rfl

end

/-! ### Shares (R74, R100) -/

theorem sum_first_shares (q r : Nat) : ∀ m, ((List.range m).map fun i => q + if i < r then 1 else 0).sum = m * q + min m r
  | 0 => by simp
  | m + 1 => by
    rw [List.range_succ, List.map_append, List.sum_append, sum_first_shares q r m, List.map_singleton, List.sum_singleton, Nat.succ_mul]
    split <;> omega

theorem shares_facts (h n : Nat) (hn : n ≠ 0) :
    (shares h n).sum = h ∧ (shares h n).length = n ∧ ∀ w ∈ shares h n, h / n ≤ w ∧ w ≤ h / n + 1 := by
  refine ⟨?_, by simp [shares], fun w hw => ?_⟩
  · have hlt : h % n < n := Nat.mod_lt h (Nat.pos_of_ne_zero hn)
    rw [shares, sum_first_shares, Nat.min_eq_right (Nat.le_of_lt hlt)]
    exact Nat.div_add_mod h n
  · obtain ⟨i, -, rfl⟩ := List.mem_map.1 hw
    split <;> omega

/-! ### The copies of a grid (R77) -/

section
variable (t : TaskRec) (g : Grid) (total : Nat) (cores : List Nat)

/-- The copy of the core at position `i`. -/
def gridCopy (t : TaskRec) (g : Grid) (total n i : Nat) : TaskCopy :=
  ⟨{ t with flags := t.flags ||| 0xC, iterLo := BitVec.ofNat 32 (i * total / n), iterHi := BitVec.ofNat 32 ((i + 1) * total / n) }, [], 0, 0, some g⟩

theorem gridCopies_eq :
    gridCopies t g total cores = ((List.range cores.length).zip cores).map fun e => (some e.2, gridCopy t g total cores.length e.1) := rfl

theorem gridCopies_cores : (gridCopies t g total cores).map (·.1) = cores.map some := by
  rw [gridCopies_eq, List.map_map]
  have hsnd : ((List.range cores.length).zip cores).map Prod.snd = cores := List.map_snd_zip (by simp)
  conv_rhs => rw [← hsnd, List.map_map]
  rfl

theorem gridCopies_getElem {i : Nat} (hi : i < cores.length) :
    (gridCopies t g total cores)[i]? = some (some cores[i], gridCopy t g total cores.length i) := by
  rw [gridCopies_eq, List.getElem?_map, List.getElem?_eq_getElem (by simpa using hi)]
  simp

theorem gridCopy_bound {i n total : Nat} (hi : i ≤ n) (hlt : total < 2 ^ 32) :
    (BitVec.ofNat 32 (i * total / n)).toNat = i * total / n := by
  have hle : i * total / n ≤ total := Nat.div_le_of_le_mul (Nat.mul_le_mul_right total hi)
  rw [BitVec.toNat_ofNat]
  exact Nat.mod_eq_of_lt (lt_of_le_of_lt hle hlt)

theorem gridCopies_facts (hlt : total < 2 ^ 32) :
    let cs := gridCopies t g total cores
    cs.map (·.1) = cores.map some ∧ (∀ e ∈ cs, e.2.grid = some g ∧ e.2.task.range = true ∧ e.2.task.gridded = true) ∧
      ∀ i < cores.length, (cs[i]?).map (fun e => (e.2.task.iterLo.toNat, e.2.task.iterHi.toNat)) =
        some (i * total / cores.length, (i + 1) * total / cores.length) := by
  refine ⟨gridCopies_cores t g total cores, fun e he => ?_, fun i hi => ?_⟩
  · rw [gridCopies_eq] at he
    obtain ⟨x, -, rfl⟩ := List.mem_map.1 he
    simp [gridCopy, TaskRec.range, TaskRec.gridded, bit]
  · rw [gridCopies_getElem t g total cores hi]
    exact congrArg some (Prod.ext (gridCopy_bound (Nat.le_of_lt hi) hlt) (gridCopy_bound hi hlt))

end

end Sys2Proof.Machine
end

section
/-! SUPPORT. What accesses under way leave of the tasks of cores: stores that drain, watchpoints that fire, full bits that release waiters, and leases
that lapse start and end none (R129 to R133, R144, R203). -/

namespace Sys2Proof.Machine

/-! ### The tasks of cores -/

/-- What a core shows of its task, of the copies that wait for it and of its domains. -/
structure TaskView where
  gated : Bool
  inReset : Bool
  running : Option Running
  pending : List TaskCopy
  domains : Assoc Domain
  paired : Bool
  live : Bool

def Core.tasks (k : Core) : TaskView := ⟨k.gated, k.inReset, k.running, k.pending, k.domains, k.pair.isSome, (k.ctx 1).live⟩

/-- `t` differs from `s` in no field and in no task of a core. -/
structure SameTasks (s t : State) : Prop where
  flash : t.flash = s.flash
  fields : t.fields = s.fields
  core : ∀ d, (t.core d).tasks = (s.core d).tasks

section
variable {s t u : State}

theorem SameTasks.refl (s : State) : SameTasks s s := ⟨rfl, rfl, fun _ => rfl⟩

theorem SameTasks.trans (h : SameTasks s t) (h' : SameTasks t u) : SameTasks s u :=
  ⟨h'.flash.trans h.flash, h'.fields.trans h.fields, fun d => (h'.core d).trans (h.core d)⟩

theorem SameTasks.of_cores (hl : t.flash = s.flash) (hf : t.fields = s.fields) (hc : t.cores = s.cores) : SameTasks s t :=
  ⟨hl, hf, fun d => by rw [State.core, hc, State.core]⟩

theorem SameTasks.of_still (h : t.still = s.still) : SameTasks s t :=
  .of_cores (State.eq_of_still State.flash h) (State.eq_of_still State.fields h) (State.eq_of_still State.cores h)

theorem SameTasks.setCore {c : Nat} {k : Core} (h : k.tasks = (s.core c).tasks) : SameTasks s (s.setCore c k) := by
  refine ⟨rfl, rfl, fun d => ?_⟩
  rw [State.core_setCore]
  split
  · subst_vars
    exact h
  · rfl

theorem SameTasks.setCtx {c n : Nat} {x : Ctx} (h : x.live = (s.ctx c n).live) : SameTasks s (s.setCtx c n x) := by
  refine .setCore ?_
  have hlive : (((s.core c).setCtx n x).ctx 1).live = ((s.core c).ctx 1).live := by
    rw [Core.ctx_setCtx]
    split
    · subst_vars
      exact h
    · rfl
  rw [Core.tasks, hlive]
  rfl

theorem SameTasks.foldl {β : Type} {move : State → β → State} (hm : ∀ t b, SameTasks t (move t b)) (bs : List β) :
    ∀ s : State, SameTasks s (bs.foldl move s) := by
  induction bs with
  | nil => exact .refl
  | cons b bs ih => exact fun s => (hm s b).trans (ih _)

theorem State.idle_of_tasks {c : Nat} (hl : t.flash = s.flash) (hf : t.fields = s.fields) (hc : (t.core c).tasks = (s.core c).tasks) :
    t.idle c = s.idle c := by
  have hgated : (t.core c).gated = (s.core c).gated := congrArg TaskView.gated hc
  have hreset : (t.core c).inReset = (s.core c).inReset := congrArg TaskView.inReset hc
  have hpair : (t.core c).pair.isSome = (s.core c).pair.isSome := congrArg TaskView.paired hc
  have hlive : (t.ctx c 1).live = (s.ctx c 1).live := congrArg TaskView.live hc
  have hable : t.able c = s.able c := by
    simp only [State.able, State.healthy, State.fenced, State.fieldOf, hl, hf, hgated, hreset]
  rw [State.idle, State.idle, hable, hlive, ← Option.not_isSome, hpair, Option.not_isSome]

end

/-! ### Watchpoints and full bits -/

theorem SameTasks.notice (s : State) (c : Nat) (n : Notice) : SameTasks s (s.notice c n) := by
  refine .setCore ?_
  unfold Core.notice
  split <;> rfl

theorem SameTasks.fire (s : State) (c n a : Nat) (who : Option Nat) : SameTasks s (s.fire c n a who) := by
  have hw : ∀ ws, SameTasks s (s.setCore c { s.core c with watches := ws }) := fun ws => .setCore rfl
  dsimp only [State.fire]
  generalize hu : s.setCore c _ = u
  have hu' : SameTasks s u := hu ▸ hw _
  refine hu'.trans ?_
  split
  · split
    · exact .setCtx rfl
    · exact .notice ..
  · exact .of_cores rfl rfl rfl

theorem SameTasks.watchOwner (s : State) (keys : List Nat) (k : WatchKind) (by_ : Nat) (who : Option Nat) :
    SameTasks s (s.watchOwner keys k by_ who) := by
  unfold State.watchOwner
  split
  · exact .refl s
  · split
    · refine SameTasks.foldl (fun t n => ?_) _ s
      split
      · exact .fire ..
      · exact .refl t
    · exact .refl s

theorem SameTasks.setFull (s : State) (w : Nat) (b : Bool) : SameTasks s (s.setFull w b) := .of_cores rfl rfl rfl

theorem SameTasks.grantFull (s : State) (w : Nat) : SameTasks s (s.grantFull w) := by
  unfold State.grantFull
  split
  next c n x _ =>
    dsimp only
    split
    · exact (SameTasks.foldl (fun t k => .setFull t k false) _ s).trans (.trans (t := State.setCtx _ c n _) (.setCtx (by rfl)) (.watchOwner ..))
    · exact .refl s
  next => exact .refl s

theorem SameTasks.setFulls (s : State) (ws : List Nat) : SameTasks s (s.setFulls ws) :=
  .trans (SameTasks.foldl (fun t w => .setFull t w true) ws s) (.foldl .grantFull ws _)

/-! ### Writes at their homes -/

theorem SameTasks.homeWrite (s : State) (cells : List (Nat × Byte)) (p : Bool) : SameTasks s (s.homeWrite cells p) := by
  unfold State.homeWrite
  split
  · exact .refl s
  next k b es =>
    have hw : SameTasks s ((s.takeHost (k / 64)).writeH ((k, b) :: es) p) :=
      .of_still ((State.still_writeH ..).trans (State.still_takeHost ..))
    dsimp only
    split
    · exact .of_cores rfl rfl rfl
    · split
      · exact hw.trans (.of_still (by rfl))
      · exact hw

theorem SameTasks.evict (s : State) (c line : Nat) : SameTasks s (s.evict c line) := by
  have h : SameTasks s (s.setCore c { s.core c with cv := Assoc.del (s.core c).cv line }) := .setCore rfl
  rw [State.evict]
  dsimp only
  split
  · exact h.trans (.trans (.homeWrite ..) (.homeWrite ..))
  · exact (h.trans (.trans (.homeWrite ..) (.homeWrite ..))).trans (.of_still (State.still_touchSlice ..))

theorem SameTasks.evictAll (c : Nat) : ∀ (ls : List Nat) (s : State), SameTasks s (s.evictAll c ls)
  | [], s => .refl s
  | l :: ls, s => (SameTasks.evict s c l).trans (SameTasks.evictAll c ls _)

theorem SameTasks.dirtyCv (s : State) (c : Nat) (cells : List (Nat × Byte)) (p : Bool) : SameTasks s (s.dirtyCv c cells p) :=
  SameTasks.foldl (fun _ _ => .setCore (by rfl)) cells s

/-! ### Stores that drain -/

theorem SameTasks.lose (s : State) (c n : Nat) : SameTasks s (s.lose c n) := by
  have h : SameTasks s (s.setCtx c n (s.ctx c n).lose) := .setCtx rfl
  unfold State.lose State.pairKeeps
  dsimp only
  split
  · refine h.trans (.setCore ?_)
    unfold Core.tasks
    rw [Option.isSome_map]
    rfl
  · exact h

theorem SameTasks.setRemote (s : State) (rs : List RemoteReq) : SameTasks s { s with remote := rs } := .of_cores rfl rfl rfl

theorem SameTasks.refetch (s : State) (c n line : Nat) : SameTasks s (s.refetch c n line) := by
  unfold State.refetch
  dsimp only
  split
  · exact .refl s
  · exact (SameTasks.setRemote s _).trans (.setCtx (by rfl))

/-- Contexts that change in a part on which no task rests. -/
theorem live_map (g : Ctx → Ctx) (hg : ∀ x, (g x).live = x.live) (d : Ctx) (n : Nat) : ∀ xs : Assoc Ctx,
    (Assoc.get d (xs.map fun e => (e.1, g e.2)) n).live = (Assoc.get d xs n).live
  | [] => rfl
  | (m, x) :: xs => by
    rw [List.map_cons, Assoc.get, Assoc.get]
    split
    · exact hg x
    · exact live_map g hg d n xs

/-- A context whose requests for a line of another member are not kept. -/
def Ctx.forgets (line : Nat) (x : Ctx) : Ctx :=
  { x with fetched := x.fetched.map fun f => if f.1 = line then (f.1, { f.2 with keep := false }) else f }

theorem SameTasks.dropRemote (s : State) (c line : Nat) : SameTasks s (s.dropRemote c line) := by
  have hlive := live_map (Ctx.forgets line) (fun _ => rfl) (Ctx.dflt 1) 1 (s.core c).ctxs
  refine .setCore ?_
  unfold Core.tasks
  exact congrArg (TaskView.mk _ _ _ _ _ _) hlive

theorem SameTasks.applyEntry (s : State) (c n : Nat) (e : SbEntry) : SameTasks s (s.applyEntry c n e) := by
  unfold State.applyEntry
  split
  next => exact .refl s
  next k b cells _ =>
    have hthrough : ∀ ls, SameTasks s (((s.evictAll c ls).homeWrite e.cells e.poison).touchSlice c k false) := fun ls =>
      ((SameTasks.evictAll c ls s).trans (.homeWrite ..)).trans (.of_still (State.still_touchSlice ..))
    have hlocal : SameTasks s ((s.writeH e.cells e.poison).watchOwner (e.cells.map (·.1)) .write c (some n)) :=
      .trans (.of_still (State.still_writeH ..)) (.watchOwner ..)
    split
    · split
      · exact hthrough _
      · exact .dirtyCv ..
    · split
      · exact hthrough _
      · exact .dirtyCv ..
    · exact ((SameTasks.refetch ..).trans (.dropRemote ..)).trans (.of_cores rfl rfl rfl)
    · split
      · exact .lose ..
      · dsimp only
        split
        · exact hlocal.trans (.setFulls ..)
        · exact hlocal

theorem SameTasks.drainList (c n : Nat) : ∀ (es : List SbEntry) (s : State), SameTasks s (s.drainList c n es)
  | [], s => .refl s
  | e :: es, s => (SameTasks.applyEntry s c n e).trans (SameTasks.drainList c n es _)

theorem SameTasks.drainKeys (s : State) (c n : Nat) (ks : List Nat) : SameTasks s (s.drainKeys c n ks) := by
  unfold State.drainKeys
  split
  · exact .refl s
  · exact .trans (t := State.setCtx s c n _) (.setCtx (by rfl)) (.drainList ..)

/-! ### Leases (R129 to R132) -/

theorem SameTasks.drainPeer (s : State) (p c : Nat) : SameTasks s (s.drainPeer p c) := .foldl (fun _ _ => .drainKeys ..) _ s

theorem SameTasks.unlease (s : State) (p c : Nat) : SameTasks s (s.unlease p c) := .setCore (by rfl)

theorem SameTasks.askCellReset (s : State) (c : Nat) : SameTasks s (s.askCellReset c) := by
  unfold State.askCellReset
  split <;> exact .of_cores rfl rfl rfl

theorem SameTasks.takeTrap (s : State) (c n : Nat) (r : TrapRec) : SameTasks s (s.takeTrap c n r) := by
  unfold State.takeTrap
  dsimp only
  split
  · split
    · exact .askCellReset ..
    · subst_vars
      exact .trans (t := State.setCtx s c 0 _) (.setCtx (by rfl)) (.setCore (by rfl))
  · exact .setCtx (by rfl)

theorem SameTasks.endWaits (s : State) (p c : Nat) : SameTasks s (s.endWaits p c) := by
  refine .foldl (fun t n => ?_) _ s
  dsimp only
  split
  · split
    · exact .takeTrap ..
    · exact .refl t
  · exact .refl t

theorem SameTasks.lapseOn (s : State) (c : Nat) : SameTasks s (s.lapseOn c) := by
  refine .trans (t := State.setCore s c _) (.setCore (by rfl)) (.foldl (fun t q => ?_) _ _)
  dsimp only
  split
  · exact .refl t
  · have h : SameTasks t (((t.drainPeer (coreOf (clusterOf c) q) c).unlease (coreOf (clusterOf c) q) c).endWaits (coreOf (clusterOf c) q) c) :=
      ((SameTasks.drainPeer ..).trans (.unlease ..)).trans (.endWaits ..)
    revert h
    generalize State.endWaits _ _ _ = u
    intro h
    split
    · exact h.trans (.setCore (by rfl))
    · exact h

theorem SameTasks.leaseBoth (s : State) (a b : Nat) : SameTasks s (s.leaseBoth a b) :=
  .trans (t := State.setCore s a _) (.setCore (by rfl)) (.setCore (by rfl))

theorem SameTasks.lease (s : State) (c : Nat) : SameTasks s (s.lease c) := by
  unfold State.lease
  split
  · exact .refl s
  · refine .foldl (fun t q => ?_) _ s
    dsimp only
    split
    · exact .refl t
    · split
      · exact .refl t
      · split
        · exact .leaseBoth ..
        · exact .refl t

end Sys2Proof.Machine
end

section
/-! SUPPORT. A launch: its field's cores are made ready, its job's domain opens, and its copies start (R74, R77, R100). -/

namespace Sys2Proof.Machine

/-! ### A core is made ready -/

theorem SameTasks.bootWrite (s : State) (c off : Nat) (bs : List Byte) : SameTasks s (s.bootWrite c off bs) :=
  .trans (t := State.writeH s _ false) (.of_still (State.still_writeH ..)) (.setFulls ..)

theorem SameTasks.bootRelease (s : State) (c : Nat) : SameTasks s (s.bootRelease c) := by
  unfold State.bootRelease
  dsimp only
  split
  · exact .refl s
  · exact .trans (t := State.setCore s c _) (.setCore (by rfl)) (.foldl (fun _ _ => .bootWrite ..) _ _)

theorem SameTasks.zeroScratch (s : State) (c : Nat) : SameTasks s (s.zeroScratch c) := .of_cores rfl rfl rfl

theorem SameTasks.resplit (s : State) (c : Nat) (x : BitVec 4) (y : Word) :
    SameTasks s (s.setCore c { s.core c with split := x, swzCtl := y }) := .setCore rfl

theorem SameTasks.writeSplit (s : State) (c : Nat) (v : Word) : SameTasks s (s.writeSplit c v) := by
  unfold State.writeSplit
  split
  · exact .refl s
  · exact (((SameTasks.evictAll c _ s).trans (.zeroScratch _ c)).trans (.resplit ..)).trans (.bootRelease ..)

/-- The tasks of a core that is ready for a job. -/
structure Ready (k : Core) : Prop where
  running : k.running = none
  pending : k.pending = []
  live : (k.ctx 1).live = false

theorem Ready.of_tasks {j k : Core} (h : Ready j) (he : k.tasks = j.tasks) : Ready k :=
  ⟨(congrArg TaskView.running he).trans h.running, (congrArg TaskView.pending he).trans h.pending, (congrArg TaskView.live he).trans h.live⟩

/-- The core that its supervisor leaves to a job, powered. -/
def Core.prepared (k : Core) (now : Nat) : Core := { k.emptied now with gated := false }

/-- Only the context of slot 0 outlives a launch. -/
def Ctx.vacated (e : Nat × Ctx) : Nat × Ctx :=
  if e.1 = 0 then e else (e.1, { Ctx.reset with gen := e.2.gen, skid := e.2.skid, halted := e.2.halted })

theorem live_vacated : ∀ xs : Assoc Ctx, (Assoc.get (Ctx.dflt 1) (xs.map Ctx.vacated) 1).live = false
  | [] => rfl
  | (m, x) :: xs => by
    by_cases h0 : m = 0
    · subst h0
      exact live_vacated xs
    · rw [List.map_cons, Ctx.vacated, if_neg h0, Assoc.get]
      split
      · rfl
      · exact live_vacated xs

theorem Core.prepared_ready (k : Core) (now : Nat) : Ready (k.prepared now) := ⟨rfl, rfl, live_vacated k.ctxs⟩

theorem State.launchCore_tasks (s : State) (split : Nat) (image : List Byte) (c : Nat) :
    SameTasks (s.setCore c ((s.core c).prepared s.cycle)) (s.launchCore split image c) :=
  .trans (.writeSplit ..) (.of_still (State.still_pokeBytes ..))

/-- What the cores of a launch keep. -/
structure KeepsDomains (s t : State) : Prop where
  flash : t.flash = s.flash
  fields : t.fields = s.fields
  domains : ∀ d, (t.core d).domains = (s.core d).domains

theorem KeepsDomains.trans {s t u : State} (h : KeepsDomains s t) (h' : KeepsDomains t u) : KeepsDomains s u :=
  ⟨h'.flash.trans h.flash, h'.fields.trans h.fields, fun d => (h'.domains d).trans (h.domains d)⟩

theorem State.launchCore_keeps (s : State) (split : Nat) (image : List Byte) (c : Nat) : KeepsDomains s (s.launchCore split image c) := by
  have h := s.launchCore_tasks split image c
  refine ⟨h.flash, h.fields, fun d => (congrArg TaskView.domains (h.core d)).trans ?_⟩
  show ((s.setCore c ((s.core c).prepared s.cycle)).core d).domains = _
  rw [State.core_setCore]
  split
  · subst_vars
    rfl
  · rfl

theorem State.launchCore_ready (s : State) (split : Nat) (image : List Byte) (c : Nat) : Ready ((s.launchCore split image c).core c) := by
  refine (Core.prepared_ready (s.core c) s.cycle).of_tasks (((s.launchCore_tasks split image c).core c).trans ?_)
  rw [State.core_setCore_same]

theorem Ready.launchCore {s : State} {c : Nat} (h : Ready (s.core c)) (split : Nat) (image : List Byte) (d : Nat) :
    Ready ((s.launchCore split image d).core c) := by
  by_cases hd : c = d
  · subst hd
    exact s.launchCore_ready split image c
  · refine h.of_tasks (((s.launchCore_tasks split image d).core c).trans ?_)
    rw [State.core_setCore, if_neg hd]

/-! ### The field takes its job, and the domain opens -/

section
variable {s : State} {fid : Nat} {f : FieldSt} {j : Job}

/-- The healthy cores of a field are made ready. -/
def State.launchCores (s : State) (f : FieldSt) (j : Job) : State :=
  (f.allCores.filter s.healthy).foldl (fun s c => s.launchCore j.split j.scratch c) s

theorem State.launchCores_keeps (s : State) (f : FieldSt) (j : Job) : KeepsDomains s (s.launchCores f j) :=
  List.foldlRecOn (motive := KeepsDomains s) _ _ ⟨rfl, rfl, fun _ => rfl⟩ fun t ht _ _ => ht.trans (t.launchCore_keeps ..)

theorem State.launchCores_ready {c : Nat} (hc : c ∈ f.allCores) (hh : s.healthy c = true) : Ready ((s.launchCores f j).core c) :=
  foldl_makes (P := fun t : State => Ready (t.core c)) (fun t => t.launchCore_ready ..) (fun _ d h => h.launchCore _ _ d)
    (List.mem_filter.2 ⟨hc, hh⟩) s

/-- A field that has accepted a job. -/
def FieldSt.accepting (f : FieldSt) : FieldSt := { f with serial := f.serial + 1 }

theorem State.acceptJob_eq (h : j.snapJob = false) :
    s.acceptJob fid f j = (s.launchCores f j).setField fid { f.accepting with job := some j } := by
  unfold State.acceptJob
  dsimp only
  rw [h]
  rfl

theorem State.acceptJob_hasJob (h : j.snapJob = false) : HasJob (s.acceptJob fid f j) fid f.accepting j := by
  rw [State.acceptJob_eq h]
  exact (State.find_setField ..).trans (if_pos rfl)

theorem State.acceptJob_core (h : j.snapJob = false) : (s.acceptJob fid f j).core = (s.launchCores f j).core := by
  rw [State.acceptJob_eq h]
  rfl

/-- The state in which the copies of a launch start: the field has its job, whose domain is open. -/
def State.opened (s : State) (fid : Nat) (f : FieldSt) (j : Job) : State := ((s.acceptJob fid f j).openDomain j.home j.wlog 0).2

/-- The domain of a launch. -/
def State.launchDom (s : State) (fid : Nat) (f : FieldSt) (j : Job) : BitVec 24 := ((s.acceptJob fid f j).openDomain j.home j.wlog 0).1

theorem State.opened_hasJob (h : j.snapJob = false) : HasJob (s.opened fid f j) fid f.accepting j := State.acceptJob_hasJob h

theorem State.opened_core (c : Nat) : (s.opened fid f j).core c =
    if c = j.home then ((s.acceptJob fid f j).core j.home).setDomain 0
      ⟨(((s.acceptJob fid f j).core j.home).domain 0).gen + 1, true, 0, 2 ^ j.wlog, 0, 0, 0, none⟩
    else (s.acceptJob fid f j).core c := State.core_setCore ..

theorem State.opened_domain (h : j.snapJob = false) : ((s.opened fid f j).core j.home).domain 0 =
    ⟨((s.core j.home).domain 0).gen + 1, true, 0, 2 ^ j.wlog, 0, 0, 0, none⟩ := by
  have hd : ((s.acceptJob fid f j).core j.home).domain 0 = (s.core j.home).domain 0 := by
    rw [Core.domain, State.acceptJob_core h, (s.launchCores_keeps f j).domains, Core.domain]
  rw [State.opened_core, if_pos rfl, hd]
  exact (Assoc.get_set ..).trans (if_pos rfl)

theorem Ready.setDomain {k : Core} (h : Ready k) (i : Nat) (d : Domain) : Ready (k.setDomain i d) := ⟨h.running, h.pending, h.live⟩

theorem State.opened_ready (h : j.snapJob = false) {c : Nat} (hc : c ∈ f.allCores) (hh : s.healthy c = true) :
    Ready ((s.opened fid f j).core c) := by
  have hr : Ready ((s.acceptJob fid f j).core c) := by
    rw [State.acceptJob_core h]
    exact State.launchCores_ready hc hh
  rw [State.opened_core]
  split
  next he =>
    subst he
    exact hr.setDomain 0 _
  next => exact hr

theorem State.opened_idle (s : State) (fid : Nat) (f : FieldSt) (j : Job) (c : Nat) :
    (s.opened fid f j).idle c = (s.acceptJob fid f j).idle c := by
  have hcore := s.opened_core (fid := fid) (f := f) (j := j) c
  by_cases he : c = j.home
  · subst he
    rw [if_pos rfl] at hcore
    unfold State.idle State.able State.ctx
    rw [hcore]
    rfl
  · rw [if_neg he] at hcore
    unfold State.idle State.able State.ctx
    rw [hcore]
    rfl

end

/-! ### The copies start -/

/-- A copy starts, with its share of the weight. -/
def State.startCopy (fid : Nat) (j : Job) (dom : BitVec 24) (s : State) (e : (Option Nat × TaskCopy) × Nat) : State :=
  match e.1.1 with
  | some c => s.takeInitial fid j c { e.1.2 with weight := e.2, dom := dom }
  | none => s.inject fid j.home { e.1.2 with weight := e.2, dom := dom }

theorem State.launch_eq (s : State) (fid : Nat) (f : FieldSt) (j : Job) (copies : List (Option Nat × TaskCopy)) :
    s.launch fid f j copies =
      (copies.zip (shares (2 ^ j.wlog) copies.length)).foldl (State.startCopy fid j (s.launchDom fid f j)) (s.opened fid f j) := rfl

section
variable {s : State} {fid : Nat} {f : FieldSt} {j : Job} {dom : BitVec 24} {e : (Option Nat × TaskCopy) × Nat}

/-- A copy of a graph goes into transit. -/
theorem State.startCopy_transit (hjob : HasJob s fid f j) (hrun : j.pre = .running) (he : e.1.1 = none) (hm : e.1.2.malformed j = false) :
    ∃ p, s.startCopy fid j dom e = s.push j.home j.home p := by
  have hmal : TaskCopy.malformed { e.1.2 with weight := e.2, dom := dom } j = false := hm
  rw [State.startCopy, he]
  dsimp only
  rw [State.inject, hjob]
  dsimp only
  rw [hmal, if_neg Bool.false_ne_true, hrun]
  exact ⟨_, rfl⟩

/-- Nothing but packets that leave. -/
structure SameButNet (s t : State) : Prop where
  fields : t.fields = s.fields
  core : t.core = s.core

theorem State.startCopies_transit (hjob : HasJob s fid f j) (hrun : j.pre = .running) (es : List ((Option Nat × TaskCopy) × Nat))
    (h : ∀ e ∈ es, e.1.1 = none ∧ e.1.2.malformed j = false) : SameButNet s (es.foldl (State.startCopy fid j dom) s) := by
  refine List.foldlRecOn (motive := SameButNet s) _ _ ⟨rfl, rfl⟩ fun t ht e he => ?_
  have hj : HasJob t fid f j := by
    rw [HasJob, ht.fields]
    exact hjob
  obtain ⟨p, hp⟩ := State.startCopy_transit (dom := dom) hj hrun (h e he).1 (h e he).2
  rw [hp]
  exact ⟨ht.fields, ht.core⟩

/-- Core `c` has started a task, and no other task of a core has changed. -/
structure Starts (c : Nat) (t : TaskRec) (s u : State) : Prop where
  flash : u.flash = s.flash
  fields : u.fields = s.fields
  other : ∀ d, d ≠ c → (u.core d).tasks = (s.core d).tasks
  task : (u.core c).running.map (·.task) = some t
  live : (u.ctx c 1).live = true

theorem Starts.andSame {c : Nat} {t : TaskRec} {u v : State} (h : Starts c t s u) (h' : SameTasks u v) : Starts c t s v := by
  have hrun : (v.core c).running = (u.core c).running := congrArg TaskView.running (h'.core c)
  have hlive : (v.ctx c 1).live = (u.ctx c 1).live := congrArg TaskView.live (h'.core c)
  exact ⟨h'.flash.trans h.flash, h'.fields.trans h.fields, fun d hd => (h'.core d).trans (h.other d hd), hrun ▸ h.task, hlive ▸ h.live⟩

theorem Core.live_of_ctxs {i k : Core} {x : Ctx} (h : i.ctxs = (k.setCtx 1 x).ctxs) (hx : x.live = true) : (i.ctx 1).live = true := by
  have hset : (k.setCtx 1 x).ctx 1 = x := (Core.ctx_setCtx k 1 1 x).trans (if_pos rfl)
  rw [Core.ctx, h, ← Core.ctx, hset]
  exact hx

/-- The context of a task that starts. -/
def Ctx.started (x : Ctx) (pc : Ptr) (t : TaskRec) (role w : Nat) (dom : BitVec 24) : Ctx :=
  { ((x.fresh .task pc).writeP 1 (t.param.setWidth 72)).writeG 1 (BitVec.ofNat 64 role) with wheld := w, whome := dom }

theorem Ctx.started_live (x : Ctx) (pc : Ptr) (t : TaskRec) (role w : Nat) (dom : BitVec 24) : (x.started pc t role w dom).live = true :=
  Ctx.writeG_live ..

theorem State.startTask_starts (s : State) (j : Job) (c : Nat) (t : TaskRec) (grid : Option Grid) (w : Nat) (dom : BitVec 24) (gang : List Nat)
    (role : Nat) (paired : Bool) : Starts c t s (s.startTask j c t grid w dom gang role paired) := by
  have hl := SameTasks.lapseOn s c
  unfold State.startTask
  dsimp only
  revert hl
  generalize s.lapseOn c = u
  intro hl
  refine ⟨hl.flash, hl.fields, fun d hd => ?_, ?_, ?_⟩
  · rw [State.core_setCore, if_neg hd]
    exact hl.core d
  · rw [State.core_setCore_same]
    rfl
  · rw [State.ctx_setCore_same]
    exact Core.live_of_ctxs (k := u.core c)
      (x := ((u.core c).ctx 1).started (j.codebase + (if t.entry = 0 then j.ctlEntry else t.entry).setWidth 72) t role w dom) rfl
      (Ctx.started_live ..)

/-- An idle core takes a copy that is no gang's. -/
theorem State.takeInitial_starts {c : Nat} {t : TaskCopy} (hjob : HasJob s fid f j) (hm : t.malformed j = false) (hi : s.idle c = true)
    (hp : j.pairs = false) (hg : t.task.gang = false) : Starts c t.task s (s.takeInitial fid j c t) := by
  have hbind : (Assoc.find s.fields fid).bind FieldSt.job = some j := by
    rw [hjob]
    rfl
  rw [State.takeInitial, hm, hi, if_neg Bool.false_ne_true, if_pos rfl, State.takeCopy, hbind]
  dsimp only
  rw [hg, hp, if_neg Bool.false_ne_true, if_neg Bool.false_ne_true]
  exact (State.startTask_starts ..).andSame (.lease ..)

/-- Every core of a grid takes its copy. -/
theorem State.startCopies_taken (hp : j.pairs = false) : ∀ (es : List ((Option Nat × TaskCopy) × Nat)) (cs : List Nat) {s : State},
    HasJob s fid f j → es.map (fun e => e.1.1) = cs.map some → cs.Nodup → (∀ c ∈ cs, s.idle c = true) →
    (∀ e ∈ es, e.1.2.malformed j = false ∧ e.1.2.task.gang = false) →
    (∀ d, d ∉ cs → ((es.foldl (State.startCopy fid j dom) s).core d).tasks = (s.core d).tasks) ∧
      ∀ e ∈ es, ∀ c, e.1.1 = some c → ((es.foldl (State.startCopy fid j dom) s).core c).running.map (·.task) = some e.1.2.task ∧
        ((es.foldl (State.startCopy fid j dom) s).ctx c 1).live = true
  | [], cs, s, _, _, _, _, _ => ⟨fun _ _ => rfl, fun _ he => absurd he List.not_mem_nil⟩
  | e :: es, [], s, _, hcs, _, _, _ => (List.cons_ne_nil _ _ hcs).elim
  | e :: es, c :: cs, s, hjob, hcs, hn, hi, he => by
    rw [List.map_cons, List.map_cons, List.cons.injEq] at hcs
    obtain ⟨hc, hcs⟩ := hcs
    obtain ⟨hnc, hn⟩ := List.nodup_cons.1 hn
    obtain ⟨hm, hg⟩ := he e List.mem_cons_self
    have hstart : Starts c e.1.2.task s (s.startCopy fid j dom e) := by
      rw [State.startCopy, hc]
      exact State.takeInitial_starts (t := { e.1.2 with weight := e.2, dom := dom }) hjob hm (hi c List.mem_cons_self) hp hg
    have hjob' : HasJob (s.startCopy fid j dom e) fid f j := by
      rw [HasJob, hstart.fields]
      exact hjob
    obtain ⟨hother, htaken⟩ := State.startCopies_taken hp es cs hjob' hcs hn
      (fun d hd => by
        rw [State.idle_of_tasks hstart.flash hstart.fields (hstart.other d fun h => hnc (h ▸ hd))]
        exact hi d (List.mem_cons_of_mem c hd))
      fun x hx => he x (List.mem_cons_of_mem e hx)
    rw [List.foldl_cons]
    refine ⟨fun d hd => ?_, fun x hx d hd => ?_⟩
    · have hne : d ≠ c := fun h => hd (h ▸ List.mem_cons_self)
      exact (hother d fun h => hd (List.mem_cons_of_mem c h)).trans (hstart.other d hne)
    · rcases List.mem_cons.1 hx with rfl | hx
      · obtain rfl : c = d := Option.some.inj (hc.symm.trans hd)
        have htasks := hother c hnc
        exact ⟨(congrArg (fun v => v.running.map (·.task)) htasks).trans hstart.task, (congrArg TaskView.live htasks).trans hstart.live⟩
      · exact htaken x hx d hd

end

/-! ### What a launch leaves -/

section
variable {s : State} {fid : Nat} {f : FieldSt} {j : Job} {copies : List (Option Nat × TaskCopy)}

theorem launch_graph (hrun : j.pre = .running) (hs : j.snapJob = false)
    (hm : ∀ e ∈ copies, e.2.malformed j = false) (hg : ∀ e ∈ copies, e.1 = none) :
    let t := s.launch fid f j copies
    Assoc.find t.fields fid = some { f with job := some j, serial := f.serial + 1 } ∧
      ((t.core j.home).domain 0).gen = ((s.core j.home).domain 0).gen + 1 ∧ ((t.core j.home).domain 0).isOpen = true ∧
      ((t.core j.home).domain 0).total = 2 ^ j.wlog ∧
      ∀ c ∈ f.allCores, s.healthy c = true → (t.core c).running = none ∧ (t.core c).pending = [] ∧ (t.ctx c 1).live = false := by
  intro t
  have hsame : SameButNet (s.opened fid f j) t := by
    rw [show t = _ from State.launch_eq ..]
    exact State.startCopies_transit (State.opened_hasJob hs) hrun _ fun e he => ⟨hg e.1 (List.of_mem_zip he).1, hm e.1 (List.of_mem_zip he).1⟩
  have hdom : (t.core j.home).domain 0 = _ := (congrArg (fun k => (k j.home).domain 0) hsame.core).trans (State.opened_domain hs)
  refine ⟨?_, by rw [hdom], by rw [hdom], by rw [hdom], fun c hc hh => ?_⟩
  · rw [hsame.fields]
    exact State.opened_hasJob hs
  · have hready : Ready (t.core c) := by
      rw [hsame.core]
      exact State.opened_ready hs hc hh
    exact ⟨hready.running, hready.pending, hready.live⟩

theorem launch_grid (hne : copies ≠ []) (hs : j.snapJob = false) (hm : ∀ e ∈ copies, e.2.malformed j = false) {cores : List Nat}
    (hc : copies.map (·.1) = cores.map some) (hn : cores.Nodup) (hp : j.pairs = false) (hg : ∀ e ∈ copies, e.2.task.gang = false)
    (hi : ∀ c ∈ cores, (s.acceptJob fid f j).idle c = true) :
    let t := s.launch fid f j copies
    ∀ e ∈ copies, ∀ c, e.1 = some c → (t.ctx c 1).live = true ∧ (t.core c).running.map (·.task) = some e.2.task := by
  intro t e he c hec
  have hzip : (copies.zip (shares (2 ^ j.wlog) copies.length)).map Prod.fst = copies :=
    List.map_fst_zip (by rw [(shares_facts _ _ fun h => hne (List.length_eq_zero_iff.1 h)).2.1])
  have hcores : (copies.zip (shares (2 ^ j.wlog) copies.length)).map (fun e => e.1.1) = cores.map some := by
    rw [← hc]
    conv_rhs => rw [← hzip, List.map_map]
    rfl
  obtain ⟨-, htaken⟩ := State.startCopies_taken (dom := s.launchDom fid f j) hp _ cores (State.opened_hasJob hs) hcores hn
    (fun d hd => by
      rw [State.opened_idle]
      exact hi d hd)
    fun x hx => ⟨hm x.1 (List.of_mem_zip hx).1, hg x.1 (List.of_mem_zip hx).1⟩
  rw [← State.launch_eq] at htaken
  obtain ⟨x, hx, rfl⟩ := List.mem_map.1 (hzip ▸ he)
  exact (htaken x hx c hec).symm

end

theorem launchPackets_holds : launchPackets := by
  refine ⟨?_, fun s fid f j copies hrun hne _ _ hs hm => ⟨fun hg => launch_graph hrun hs hm hg, fun cores hc hn hp hg hi => ?_⟩,
    shares_facts, fun t g total cores hlt hne => gridCopies_facts t g total cores hlt⟩
  · intro s p u v f h image home rc hserve num head fid hb hh
    refine ⟨fun roots w ht h1 h2 hw hr => ?_, ?_⟩
    · exact startsPacket_of_started rfl hserve (ofType_of_type ht) (graphBody_launches hb hh h1 h2 hw hr)
    · intro t w ht x y tx ty cores ntx total hx hy htx hty hne hlen hlt hr g
      exact startsPacket_of_started rfl hserve (ofType_of_type ht) (gridBody_launches hb hh hx hy htx hty rfl hne hlen rfl rfl hlt hr)
  · exact launch_grid hne hs hm hc hn hp hg hi

/-- Settles O50: each packet's event does what its body does, and the launch and the pause are followed core by core and copy by copy. -/
theorem fieldEvents : Obligations.FieldEvents := ⟨fieldPackets_holds, launchPackets_holds, pausePackets_holds⟩

end Sys2Proof.Machine
end

section
/-! SUPPORT. Statements that fail at the edge of what they quantify over: stores and loads of types that fill no whole bytes (R274, R332), and cores
whose scratchpad would lie beyond the space of scratchpads (R127). -/

namespace Sys2Proof.Machine

/-- A part of the state that an instruction or event leaves. -/
def partAfter {α : Type} (i : Instr) (s : State) (f : State → α) : Option α :=
  match exec i s with
  | .next t => some (f t)
  | .fault _ | .refused _ => none

theorem partAfter_next {α : Type} {i : Instr} {s t : State} (h : exec i s = .next t) (f : State → α) : partAfter i s f = some (f t) := by
  rw [partAfter, h]

/-! ### A store of no byte to another member -/

/-- A field of the whole device, with page tables. -/
def tabledField : FieldSt where
  x0 := 0
  y0 := 0
  w := 16
  h := 16
  cw := 16
  ch := 16
  full := true
  lw := 1
  lh := 1
  map := [0]
  muxes := []
  routes := []
  chain := []
  root := 0x100000
  serial := 1
  fenced := []
  shadow := []
  job := none

/-- A helper whose TLB maps address 0 to the first byte of member 1, which is reached over port 5. -/
def remotePageState : State :=
  { State.reset with
    cores := [(0, { Core.reset with tlb := [⟨4, 0, 1⟩, ⟨3, 0, 1⟩, ⟨2, 0, 0x1000F⟩] })]
    curCore := 0, curSlot := 2, fields := [(0, tabledField)], podcfg := 0x20000, members := [(4, 0x101), (5, 5)] }

/-- The port of the youngest entry of the store buffer of the context whose turn it is. -/
def State.lastPort (s : State) : Nat := (s.now.sb.getLast?.map SbEntry.port).getD 0

/-- An entry without bytes has no port. -/
theorem lastPort_emptyStore : partAfter (.st .e2m1 ⟨.rlx, .normal, .cx⟩ 4 0 3) remotePageState State.lastPort = some 0 := by decide +kernel

theorem remotePage_located :
    remotePageState.locate 0 2 0 0 .write = (.at_ (keyRemote (2 ^ 52)), remotePageState) := by decide +kernel

/-- Refutes O17: TY e2m1 has Width 4, so that its `st` stores no byte; the entry of no byte takes no port, and the statement gives it the port of the
page of its address. -/
theorem not_storeResult : ¬ Obligations.StoreResult := by
  unfold Obligations.StoreResult
  rintro ⟨h, -⟩
  obtain ⟨hst, -⟩ := h remotePageState (by decide +kernel) .e2m1 ⟨.rlx, .normal, .cx⟩ 4 0 3 0 0 (keyRemote (2 ^ 52)) remotePageState
    (.inl rfl) (.inr (by decide +kernel)) (by decide +kernel) rfl (by decide +kernel)
  obtain ⟨t, ht, -, -, -, -, hsb, -⟩ := hst remotePage_located rfl
  have hport := partAfter_next ht State.lastPort
  rw [lastPort_emptyStore, State.lastPort, hsb, List.getLast?_append] at hport
  revert hport
  decide +kernel

/-! ### A vector load of six-bit lanes -/

/-- A control context with a pointer to its scratchpad, of which the word behind the first 192 bytes is marked. -/
def markedTailState : State :=
  { State.reset with
    cores := [(0, { Core.reset with split := 1, ctxs := [(1, { Ctx.reset with g := [(3, 32)], p := [(4, 0xFF0000000000000000)] })] })]
    curCore := 0, curSlot := 1, poison := [(keyScratch 0 192, true)] }

/-- The keys of segment `i` of the strided access. -/
def segmentKeys (i : Nat) : List Nat := (List.range 32).map fun o => keyScratch 0 (32 * i + o)

theorem segment_reached {i : Nat} (hi : i < 8) :
    markedTailState.reachesLocal (0xFF0000000000000000 + BitVec.ofInt 72 (i * (32 : Word).toInt)) 32 .read (segmentKeys i) := by
  have h : ∀ i : Nat, i < 8 →
      markedTailState.locate 0 1 ((0xFF0000000000000000 : Ptr) + BitVec.ofInt 72 (i * (32 : Word).toInt)).toNat 32 .read =
          (.at_ (keyScratch 0 (32 * i)), markedTailState) ∧
        3 ≤ keySpace (keyScratch 0 (32 * i)) ∧ segmentKeys i = markedTailState.keysOf (keyScratch 0 (32 * i)) 32 ∧ (segmentKeys i).Nodup ∧
        ((segmentKeys i).all fun a => 3 ≤ keySpace a && !markedTailState.keyFenced a && markedTailState.wayTo 0 a) = true ∧
        markedTailState.unwatched 0 = true ∧ markedTailState.unwatched (keyCore ((segmentKeys i).headD 0)) = true := by decide +kernel
  exact ⟨_, h i hi⟩

/-- The load of all 256 bytes reads the marked word. -/
theorem cir_markedTail : partAfter (.vlds .e3m2 ⟨.rlx, .normal, .cx⟩ 1 4 0 3) markedTailState (fun t => t.now.cir) = some 0x10001 := by decide +kernel

/-- Refutes O36: 256 lanes of TY e3m2 take 192 bytes of memory, `vlds` loads 256, and a mark in the rest of them sets CIR.POISON. -/
theorem not_vectorLoads : ¬ Obligations.VectorLoads := by
  unfold Obligations.VectorLoads
  rintro ⟨h, -⟩
  obtain ⟨-, hlds, -⟩ := h markedTailState (by decide +kernel) .e3m2 .none ⟨.rlx, .normal, .cx⟩ 1 0 4 0 3 0 (keyScratch 0) (.inl rfl) (.inr (by decide +kernel))
  obtain ⟨t, ht, -, -, -, -, -, ⟨-, hcir, -⟩, -⟩ := hlds (by decide +kernel) (by decide +kernel) fun i hi => segment_reached hi
  have hpart := partAfter_next ht fun t => t.now.cir
  rw [cir_markedTail, hcir] at hpart
  revert hpart
  decide +kernel

/-! ### A core beyond the space of scratchpads -/

/-- A device of so many rows that the scratchpad of its core 2^41 would lie where the boot ROM does. -/
def tallState : State := { State.reset with flash := { State.reset.flash with width := 1, height := 2 ^ 37, retired := [] }, input := { Input.zero with core := 2 ^ 41 } }

theorem peek_tallReset : partAfter .cellReset tallState (fun t => t.peek (keyScratch (2 ^ 41) 0)) = some (romByte 0) := by decide +kernel

/-- Refutes O48: nothing bounds the rows of a device, and what a core with a number from 2^41 on would keep in its scratchpad has keys of the boot
ROM, whose bytes no reset clears. -/
theorem not_waitEvents : ¬ Obligations.WaitEvents := by
  unfold Obligations.WaitEvents
  rintro ⟨-, h, -, -⟩
  obtain ⟨-, hreset, -⟩ := h tallState
  obtain ⟨t, ht, -, -, hzero⟩ := hreset (by decide +kernel) (by decide +kernel) (by decide +kernel) (fun _ => rfl)
  have hpart := partAfter_next ht fun t => t.peek (keyScratch (2 ^ 41) 0)
  rw [peek_tallReset] at hpart
  have hrom : romByte 0 = 0 := (Option.some.inj hpart).trans (hzero 0 (by decide))
  revert hrom
  decide +kernel

end Sys2Proof.Machine
end

section
/-! SUPPORT. What arrives from the network: messages, replies, strays, and the helper that a message gets (R93, R108, R289, R292). -/

namespace Sys2Proof.Machine

/-! ### Packets that arrive -/

section
variable {s t : State} {c : Nat} {m : Message}

/-- A packet that may arrive leaves the network. -/
theorem State.arrival_of_arrives {p : Packet} (h : arrives s c p) : s.arrival s.input.index = some (c, p, { s with net := others s }) := by
  obtain ⟨⟨cls, hnet⟩, hsaved⟩ := h
  simp [State.arrival, hnet, hsaved, others]

theorem State.arrive_of_room (h : roomFor t c m) : t.arrive c m = t.settleIn c m := by
  obtain ⟨hfence, hjob, hsame, hdeflected, hused, htable⟩ := h
  have hfield : ¬((t.jobField c).isNone = true ∨ t.jobField c ≠ t.jobField (t.senderCore m)) := by
    simp [Option.isSome_iff_ne_none.1 hjob, ← hsame]
  rw [State.arrive, if_neg (by simp [hfence]), if_neg hfield, if_pos (by simp [hdeflected, hused, htable])]

theorem State.settleIn_message (h : m.kind ≠ 1) : t.settleIn c m = t.setCore c { t.core c with inbox := (t.core c).inbox ++ [m] } := if_neg h

theorem onlyCore_setCtx (t : State) (c n : Nat) (x : Ctx) : onlyCore t (t.setCtx c n x) c := onlyCore_setCore t c _

/-- What is noted for a rollback is noted in the core alone. -/
theorem State.pairKeeps_local (t : State) (c n : Nat) (f : PairState → PairState) :
    onlyCore t (t.pairKeeps c n f) c ∧ (t.pairKeeps c n f).ctx c n = t.ctx c n := by
  unfold State.pairKeeps
  dsimp only
  split
  · exact ⟨onlyCore_setCore t c _, State.ctx_setCore_same ..⟩
  · exact ⟨⟨rfl, fun _ _ => rfl⟩, rfl⟩

theorem State.settleIn_reply (hk : m.kind = 1) (h1 : 1 ≤ m.tslot.toNat) (h11 : m.tslot.toNat ≤ 11) (hl : (t.ctx c m.tslot.toNat).live = true)
    (hg : (t.ctx c m.tslot.toNat).gen = m.tgen) :
    onlyCore t (t.settleIn c m) c ∧
      (t.settleIn c m).ctx c m.tslot.toNat = { t.ctx c m.tslot.toNat with replies := (t.ctx c m.tslot.toNat).replies ++ [m] } := by
  rw [State.settleIn, if_pos hk]
  dsimp only
  rw [if_pos ⟨h1, h11, hl, hg⟩]
  obtain ⟨hcore, hctx⟩ := State.pairKeeps_local
    (t.setCtx c m.tslot.toNat { t.ctx c m.tslot.toNat with replies := (t.ctx c m.tslot.toNat).replies ++ [m] }) c m.tslot.toNat
    fun p => { p with came := p.came ++ [m] }
  exact ⟨onlyCore_trans (onlyCore_setCtx t c _ _) hcore, hctx.trans (by rw [State.ctx_setCtx, if_pos ⟨rfl, rfl⟩])⟩

theorem messageArrival_happens (h : arrives s c (.message m)) (hr : roomFor s c m) (hk : m.kind ≠ 1) :
    happens .messageArrival s fun t => onlyCore { s with net := others s } t c ∧
      t.core c = { s.core c with inbox := (s.core c).inbox ++ [m] } := by
  have hroom : roomFor { s with net := others s } c m := hr
  refine ⟨({ s with net := others s } : State).settleIn c m, ?_, ?_⟩
  · show execMessageArrival s = _
    simp only [execMessageArrival, State.arrival_of_arrives h, State.arrive_of_room hroom]
  · rw [State.settleIn_message hk]
    exact ⟨onlyCore_setCore _ c _, State.core_setCore_same ..⟩

theorem replyArrival_happens (h : arrives s c (.reply m)) (hr : roomFor s c m) (hk : m.kind = 1) (h1 : 1 ≤ m.tslot.toNat) (h11 : m.tslot.toNat ≤ 11)
    (hl : (s.ctx c m.tslot.toNat).live = true) (hg : (s.ctx c m.tslot.toNat).gen = m.tgen) :
    happens .replyArrival s fun t => onlyCore { s with net := others s } t c ∧
      t.ctx c m.tslot.toNat = { s.ctx c m.tslot.toNat with replies := (s.ctx c m.tslot.toNat).replies ++ [m] } := by
  have hroom : roomFor { s with net := others s } c m := hr
  refine ⟨({ s with net := others s } : State).settleIn c m, ?_, State.settleIn_reply (t := { s with net := others s }) hk h1 h11 hl hg⟩
  show execReplyArrival s = _
  simp only [execReplyArrival, State.arrival_of_arrives h, State.arrive_of_room hroom]

theorem strayDelivery_happens (h : arrives s c (.stray m)) (hs : (s.core c).strays.length < 512) :
    happens .strayDelivery s fun t => onlyCore { s with net := others s } t c ∧
      t.core c = { s.core c with strays := (s.core c).strays ++ [m] } := by
  refine ⟨_, ?_, onlyCore_setCore { s with net := others s } c _, State.core_setCore_same ..⟩
  show execStrayDelivery s = _
  simp only [execStrayDelivery, State.arrival_of_arrives h]
  exact if_pos hs

end

/-! ### A message's handler starts (R93, R287) -/

/-- Some registers from g20 on are written, each with its mark. -/
def Ctx.receives (x : Ctx) (l : List (Nat × Word × Bool)) : Ctx := l.foldl (fun x e => (x.writeG (20 + e.1) e.2.1).mark (20 + e.1) e.2.2) x

theorem Ctx.course_receives (l : List (Nat × Word × Bool)) : ∀ x : Ctx, (x.receives l).course = x.course := by
  induction l with
  | nil => exact fun _ => rfl
  | cons e l ih =>
    refine fun x => (ih _).trans ?_
    show ({ (x.writeG (20 + e.1) e.2.1) with marks := _ } : Ctx).course = x.course
    unfold Ctx.writeG
    split <;> rfl

/-- Registers that none of the writes names stay. -/
theorem Ctx.receives_other {l : List (Nat × Word × Bool)} {i : Nat} (h : ∀ e ∈ l, e.1 ≠ i) (x : Ctx) :
    (x.receives l).readG (20 + i) = x.readG (20 + i) ∧ (x.receives l).marked (20 + i) = x.marked (20 + i) := by
  induction l generalizing x with
  | nil => exact ⟨rfl, rfl⟩
  | cons e l ih =>
    obtain ⟨hr, hm⟩ := ih (fun e he => h e (List.mem_cons_of_mem _ he)) ((x.writeG (20 + e.1) e.2.1).mark (20 + e.1) e.2.2)
    have hne : 20 + i ≠ 20 + e.1 := fun he => h e List.mem_cons_self (by omega)
    refine ⟨hr.trans ?_, hm.trans ?_⟩
    · rw [Ctx.readG_mark, Ctx.readG_writeG, if_neg fun hi => hne hi.1]
    · rw [Ctx.marked_mark, if_neg hne, Ctx.marked, Ctx.writeG_marks, Ctx.marked]

theorem Ctx.receives_mem {l : List (Nat × Word × Bool)} (hn : (l.map (·.1)).Nodup) {e : Nat × Word × Bool} (he : e ∈ l) (x : Ctx) :
    (x.receives l).readG (20 + e.1) = e.2.1 ∧ (x.receives l).marked (20 + e.1) = e.2.2 := by
  induction l generalizing x with
  | nil => cases he
  | cons a l ih =>
    obtain ⟨ha, hl⟩ := List.nodup_cons.1 hn
    obtain rfl | he := List.mem_cons.1 he
    · obtain ⟨hr, hm⟩ := Ctx.receives_other (fun b hb hk => ha (List.mem_map.2 ⟨b, hb, hk⟩)) ((x.writeG (20 + e.1) e.2.1).mark (20 + e.1) e.2.2)
      refine ⟨hr.trans ?_, hm.trans ?_⟩
      · simp [Ctx.readG_mark, Ctx.readG_writeG]
      · simp
    · exact ih hl he _

/-- The arrival registers of a message, each of them written once (R287, R288). -/
theorem Ctx.receives_message (x : Ctx) (m : Message) :
    let y := x.receives ((List.range 12).zip m.regs)
    y.readG 20 = m.sender.setWidth 64 ∧ y.readG 21 = BitVec.ofNat 64 m.weight ∧ y.readG 23 = m.cookie.setWidth 64 ∧
      ∀ i < 8, y.readG (24 + i) = m.payload.getD i 0 ∧ y.marked (24 + i) = m.marks.getD i false := by
  have hn : (((List.range 12).zip m.regs).map (·.1)).Nodup := by
    rw [List.map_fst_zip (by simp [Message.regs])]
    exact List.nodup_range
  have hreg {i : Nat} {v : Word × Bool} (hv : m.regs[i]? = some v) (hi : i < 12) :
      (x.receives ((List.range 12).zip m.regs)).readG (20 + i) = v.1 ∧ (x.receives ((List.range 12).zip m.regs)).marked (20 + i) = v.2 :=
    Ctx.receives_mem hn (e := (i, v)) (List.mem_iff_getElem?.2 ⟨i, List.getElem?_zip_eq_some.2 ⟨by simp [hi], hv⟩⟩) x
  refine ⟨(hreg (i := 0) rfl (by decide)).1, (hreg (i := 1) rfl (by decide)).1, (hreg (i := 3) rfl (by decide)).1, fun i hi => ?_⟩
  have hv : m.regs[4 + i]? = some (m.payload.getD i 0, m.marks.getD i false) := by
    rw [Message.regs, List.getElem?_append_right (by simp)]
    simp [hi]
  have h := hreg hv (by omega)
  rwa [← Nat.add_assoc] at h

/-- The context with which a helper comes to life. -/
def Ctx.helps (x : Ctx) (role : Role) (pc : Ptr) (regs : List (Word × Bool)) (w : Nat) (dom : BitVec 24) : Ctx :=
  { (x.fresh role pc).receives ((List.range 12).zip regs) with wheld := w, whome := dom }

theorem Ctx.helps_facts (x : Ctx) (role : Role) (pc : Ptr) (regs : List (Word × Bool)) (w : Nat) (dom : BitVec 24) :
    let y := x.helps role pc regs w dom
    y.live = true ∧ y.role = role ∧ y.gen = x.gen + 1 ∧ y.halted = x.halted ∧ y.wheld = w ∧ y.whome = dom ∧ y.pc = pc := by
  have h := Ctx.course_receives ((List.range 12).zip regs) (x.fresh role pc)
  have hlive := Ctx.eq_of_course Ctx.live h
  have hrole := Ctx.eq_of_course Ctx.role h
  have hgen := Ctx.eq_of_course Ctx.gen h
  have hhalted := Ctx.eq_of_course Ctx.halted h
  have hpc := Ctx.eq_of_course Ctx.pc h
  exact ⟨hlive, hrole, hgen, hhalted, rfl, rfl, hpc⟩

theorem Ctx.readG_weighs (y : Ctx) (w : Nat) (dom : BitVec 24) (r : Nat) : ({ y with wheld := w, whome := dom } : Ctx).readG r = y.readG r := rfl

theorem Ctx.marked_weighs (y : Ctx) (w : Nat) (dom : BitVec 24) (u : Nat) : ({ y with wheld := w, whome := dom } : Ctx).marked u = y.marked u := rfl

theorem Ctx.readG_helps (x : Ctx) (role : Role) (pc : Ptr) (regs : List (Word × Bool)) (w : Nat) (dom : BitVec 24) (r : Nat) :
    (x.helps role pc regs w dom).readG r = ((x.fresh role pc).receives ((List.range 12).zip regs)).readG r := by
  rw [Ctx.helps, Ctx.readG_weighs]

theorem Ctx.marked_helps (x : Ctx) (role : Role) (pc : Ptr) (regs : List (Word × Bool)) (w : Nat) (dom : BitVec 24) (r : Nat) :
    (x.helps role pc regs w dom).marked r = ((x.fresh role pc).receives ((List.range 12).zip regs)).marked r := by
  rw [Ctx.helps, Ctx.marked_weighs]

theorem State.startHelper_eq (s : State) (c n : Nat) (role : Role) (pc : Ptr) (regs : List (Word × Bool)) (w : Nat) (dom : BitVec 24) :
    s.startHelper c n role pc regs w dom = s.setCore c ((s.core c).setCtx n (((s.core c).ctx n).helps role pc regs w dom)) := rfl

section
variable {s : State} {c n : Nat} {j : Job} {m : Message} {rest : List Message}

/-- The core on which the message at the head of the inbox has got a helper. -/
def Core.helped (k : Core) (n : Nat) (j : Job) (m : Message) (rest : List Message) : Core :=
  { k.setCtx n ((k.ctx n).helps .message (j.codebase + m.entry.setWidth 72) m.regs m.weight m.dom) with rotation := 0, inbox := rest }

/-- The handler of the message at the head of the inbox starts, and the source after messages comes next. -/
def State.messageGranted (s : State) (c n : Nat) (j : Job) (m : Message) (rest : List Message) : State :=
  let u := s.startMessage c n j m
  let v := u.setCore c { u.core c with rotation := 0 }
  v.setCore c { v.core c with inbox := rest }

theorem State.startMessage_eq (hreason : m.reason = 0) (htext : m.text = none) :
    s.startMessage c n j m = s.startHelper c n .message (j.codebase + m.entry.setWidth 72) m.regs m.weight m.dom := by
  simp [State.startMessage, hreason, htext]

theorem State.messageGranted_local (hreason : m.reason = 0) (htext : m.text = none) :
    onlyCore s (s.messageGranted c n j m rest) c ∧ (s.messageGranted c n j m rest).core c = (s.core c).helped n j m rest := by
  unfold State.messageGranted
  rw [State.startMessage_eq hreason htext, State.startHelper_eq]
  refine ⟨onlyCore_trans (onlyCore_trans (onlyCore_setCore ..) (onlyCore_setCore ..)) (onlyCore_setCore ..), ?_⟩
  simp only [State.core_setCore_same]
  rfl

/-- The unit that starts handlers gives a message its helper. -/
theorem grantTo_message (hstrays : (s.core c).strays = []) (hinbox : (s.core c).inbox = m :: rest) (hobj : m.obj = none) (hreason : m.reason = 0)
    (htext : m.text = none) (hdefl : (s.core c).deflected = []) :
    grantTo ⟨c, n, 0, .start⟩ j 3 s = .ok ((), s.messageGranted c n j m rest) := by
  have hrefill : (s.messageGranted c n j m rest).refillInbox c = s.messageGranted c n j m rest := by
    have : ((s.messageGranted c n j m rest).core c).deflected = [] := by
      rw [(State.messageGranted_local hreason htext).2]
      exact hdefl
    simp [State.refillInbox, this]
  simp only [grantTo, E.bind_apply, E.get_apply, E.andThen_ok, hstrays, hinbox, beginMessage, hobj, E.modify_apply]
  exact congrArg (fun t => Except.ok ((), t)) hrefill

theorem helperGrant_happens {s : State} {j : Job} {n : Nat} {m : Message} {rest : List Message} (hj : s.jobOf s.input.core = some j)
    (hfield : (s.jobField s.input.core).isSome = true) (hfree : (s.core s.input.core).freeHelper = some n)
    (hsrc : (s.core s.input.core).nextSource = some 3) (hrun : (s.core s.input.core).stopped = false) (hable : s.able s.input.core = true)
    (hboot : (s.core s.input.core).bootMode = false) (hpre : j.pre ≠ .hardSaved) (hstrays : (s.core s.input.core).strays = [])
    (hinbox : (s.core s.input.core).inbox = m :: rest) (hobj : m.obj = none) (hreason : m.reason = 0) (htext : m.text = none)
    (hdefl : (s.core s.input.core).deflected = []) :
    happens .helperGrant s fun t => onlyCore s t s.input.core ∧ (t.core s.input.core).inbox = rest ∧
      t.ctx s.input.core n = ((s.core s.input.core).ctx n).helps .message (j.codebase + m.entry.setWidth 72) m.regs m.weight m.dom := by
  obtain ⟨hlocal, hcore⟩ := State.messageGranted_local (s := s) (c := s.input.core) (n := n) (j := j) (rest := rest) hreason htext
  refine ⟨(s.messageGranted s.input.core n j m rest).unitOver s.input.core .start, ?_,
    onlyCore_trans hlocal (onlyCore_setCore ..), ?_, ?_⟩
  · show execHelperGrant s = _
    have hgo : ¬((s.core s.input.core).stopped || !s.able s.input.core || (s.core s.input.core).bootMode || decide (j.pre = .hardSaved) ||
        (s.jobField s.input.core).isNone) = true := by
      simp [hrun, hable, hboot, hpre, Option.isSome_iff_ne_none.1 hfield]
    simp only [execHelperGrant, hj, hfree, hsrc]
    rw [if_neg hgo, grantTo_message hstrays hinbox hobj hreason htext hdefl]
  · rw [State.unitOver, State.core_setCore_same, hcore]
    rfl
  · rw [State.unitOver, State.ctx_setCore_same, hcore]
    exact (Core.ctx_setCtx _ n n _).trans (if_pos rfl)

end

theorem messageEvents_holds : messageEvents := by
  intro s
  refine ⟨fun c m => messageArrival_happens, fun c m h hr hk h1 h11 hl hg => replyArrival_happens h hr hk h1 h11 hl hg,
    fun c m => strayDelivery_happens, ?_⟩
  intro c k j n m rest hj hfield hfree hsrc hrun hable hboot hpre hstrays hinbox hobj hreason htext hdefl
  obtain ⟨t, ht, hlocal, hin, hctx⟩ :=
    helperGrant_happens hj hfield hfree hsrc hrun hable hboot hpre hstrays hinbox hobj hreason htext hdefl
  refine ⟨t, ht, hlocal, hin, ?_⟩
  rw [hctx]
  obtain ⟨hlive, hrole, hgen, hhalted, hw, hdom, hpc⟩ :=
    Ctx.helps_facts ((s.core s.input.core).ctx n) .message (j.codebase + m.entry.setWidth 72) m.regs m.weight m.dom
  obtain ⟨h20, h21, h23, hwords⟩ := Ctx.receives_message (((s.core s.input.core).ctx n).fresh .message (j.codebase + m.entry.setWidth 72)) m
  simp only [← Ctx.readG_helps _ _ _ _ m.weight m.dom, ← Ctx.marked_helps _ _ _ _ m.weight m.dom] at h20 h21 h23 hwords
  exact ⟨hlive, hrole, hgen, hhalted, hw, hdom, hpc, h20, h21, h23, hwords⟩

end Sys2Proof.Machine
end

section
/-! SUPPORT. Weight, notices and halt signals that arrive (R100, R104, R107, R109, R196, R204, R296). -/

namespace Sys2Proof.Machine

/-! ### Weight (R100, R104, R107, R109) -/

section
variable {s t : State} {h w : Nat} {dom : BitVec 24}

/-- Weight for an open child domain of the core adds to its counter, which stays open when something is still out. -/
theorem State.credit_child {loss : Option (Nat × Nat × Nat)} {d : Domain} (hd : (t.core h).domain (domIdx dom) = d) (ho : d.isOpen = true)
    (hg : d.gen.toNat = domGen dom) (hne : d.count + w ≠ d.total) (hi : domIdx dom ≠ 0) :
    t.credit h dom w loss = t.setCore h ((t.core h).setDomain (domIdx dom)
      { d with count := d.count + w, writtenOff := d.writtenOff + (if loss.isSome then w else 0),
               firstLoss := if d.firstLoss.isSome then d.firstLoss else loss }) := by
  rw [State.credit]
  dsimp only
  rw [hd, if_neg (by simp [ho, hg]), if_neg hi, if_neg hne]

theorem State.credit_returned {d : Domain} (hd : (t.core h).domain (domIdx dom) = d) (ho : d.isOpen = true) (hg : d.gen.toNat = domGen dom)
    (hne : d.count + w ≠ d.total) (hi : domIdx dom ≠ 0) :
    t.credit h dom w none = t.setCore h ((t.core h).setDomain (domIdx dom) { d with count := d.count + w }) := by
  have hfirst : (if d.firstLoss.isSome then d.firstLoss else none) = d.firstLoss := by cases d.firstLoss <;> rfl
  rw [State.credit_child hd ho hg hne hi, hfirst]
  rfl

theorem State.credit_lost {d : Domain} {cell rep at_ : Nat} (hd : (t.core h).domain (domIdx dom) = d) (ho : d.isOpen = true)
    (hg : d.gen.toNat = domGen dom) (hne : d.count + w ≠ d.total) (hi : domIdx dom ≠ 0) (hl : d.firstLoss = none) :
    t.credit h dom w (some (cell, rep, at_)) = t.setCore h ((t.core h).setDomain (domIdx dom)
      { d with count := d.count + w, writtenOff := d.writtenOff + w, firstLoss := some (cell, rep, at_) }) := by
  rw [State.credit_child hd ho hg hne hi, hl]
  rfl

/-- Weight for the job's own domain, of which no record is parked. -/
theorem State.credit_own {fid : Nat} {f : FieldSt} {j : Job} {d : Domain} (hd : (t.core h).domain 0 = d) (ho : d.isOpen = true)
    (hg : d.gen.toNat = domGen dom) (hne : d.count + w ≠ d.total) (hi : domIdx dom = 0)
    (hf : (t.fields.find? fun e => e.2.job.any fun j => j.home = h) = some (fid, f)) (hj : f.job = some j) (hp : j.parked = []) :
    t.credit h dom w none = t.setCore h ((t.core h).setDomain 0 { d with count := d.count + w }) := by
  have hgive : (if j.pre = .running then min w j.parked.length else 0) = 0 := by simp [hp]
  rw [State.credit]
  dsimp only
  rw [hi, hd, if_neg (by simp [ho, hg]), if_pos rfl, hf]
  dsimp only
  rw [hj]
  dsimp only
  rw [hgive, if_pos rfl, Nat.sub_zero, if_neg hne]
  rfl

theorem weightReturn_happens {u : State} (ha : arrives s h (.weight dom w)) (hover : s.overtakes s.input.index h = false) {q : State → Prop}
    (hc : ({ s with net := others s } : State).credit h dom w none = u) (hq : q u) : happens .weightReturn s q := by
  refine ⟨u, ?_, hq⟩
  show execWeightReturn s = _
  simp only [execWeightReturn, State.arrival_of_arrives ha, hover, hc]
  rfl

theorem writeOffArrival_happens {u : State} {cell rep at_ : Nat} (ha : arrives s h (.writeOff dom w cell rep at_))
    (hover : s.overtakes s.input.index h = false) (hi : domIdx dom ≠ 0) {q : State → Prop}
    (hc : ({ s with net := others s } : State).credit h dom w (some (cell, rep, at_)) = u) (hq : q u) : happens .writeOffArrival s q := by
  refine ⟨u, ?_, hq⟩
  show execWriteOffArrival s = _
  simp [execWriteOffArrival, State.arrival_of_arrives ha, hover, hi, hc]

/-! ### Notices (R104, R196, R296) -/

/-- A change of a field's job changes the fields alone. -/
theorem State.modJob_found {fid : Nat} {f : FieldSt} {j : Job} (hf : Assoc.find t.fields fid = some f) (hj : f.job = some j) (g : Job → Job) :
    t.modJob fid g = { t with fields := (t.modJob fid g).fields } ∧ Assoc.find (t.modJob fid g).fields fid = some { f with job := some (g j) } := by
  rw [State.modJob, hf]
  refine ⟨rfl, ?_⟩
  show Assoc.find (Assoc.put t.fields fid { f with job := f.job.map g }) fid = _
  rw [Assoc.find_put, if_pos rfl, hj]
  rfl

end

/-! ### Halt signals (R204) -/

theorem State.core_haltSlot_other (s : State) {c d : Nat} (h : d ≠ c) (n l : Nat) : (s.haltSlot c n l).core d = s.core d := by
  have hset (t : State) (x : Ctx) (ht : t.core d = s.core d) : (t.setCtx c n x).core d = s.core d := by
    rw [State.core_setCtx, if_neg h, ht]
  refine State.haltSlot_cases (P := fun t => t.core d = s.core d) s c n l (fun _ => rfl) (fun x _ => hset s x rfl) fun x _ => hset _ x ?_
  unfold State.withdraw
  dsimp only
  split
  · rw [State.core_setCore, if_neg h]
    exact hset s _ rfl
  · exact hset s _ rfl

/-- Slots halt one after the other, with what each may still retire. -/
theorem State.haltSlots_skids (c : Nat) (left : State → Nat → Nat) : ∀ (ns : List Nat) (s : State),
    Halts c ns s (ns.foldl (fun t n => t.haltSlot c n (left t n)) s) ∧
      ∀ d, d ≠ c → (ns.foldl (fun t n => t.haltSlot c n (left t n)) s).core d = s.core d
  | [], s => ⟨Halts.nil c s, fun _ _ => rfl⟩
  | n :: ns, s => by
    obtain ⟨hh, ho⟩ := State.haltSlots_skids c left ns (s.haltSlot c n (left s n))
    exact ⟨(State.haltSlot_halts s c n _).cons hh, fun d hd => (ho d hd).trans (State.core_haltSlot_other s hd n _)⟩

/-- The core that a halt signal reaches, with what a DEBUG session notes. -/
def State.signalled (s : State) (c : Nat) (debug : Bool) : State :=
  if debug then ({ s with net := others s } : State).hold c else { s with net := others s }

section
variable {s : State} {c : Nat} {debug : Bool}

theorem State.signalled_local : onlyCore { s with net := others s } (s.signalled c debug) c ∧
    (s.signalled c debug).core c = { s.core c with debugged := if debug then jobSlots else (s.core c).debugged } := by
  unfold State.signalled
  cases debug
  · exact ⟨⟨rfl, fun _ _ => rfl⟩, rfl⟩
  · exact ⟨onlyCore_setCore .., State.core_setCore_same ..⟩

theorem exec_haltSignal (h : arrives s c (.haltSignal debug)) :
    exec .haltSignal s = .next (if ((s.signalled c debug).core c).stopped then s.signalled c debug
      else
        let t := jobSlots.foldl (fun t n => t.haltSlot c n (Config.skid (t.steps * 16 + n)).val) (s.signalled c debug)
        t.setCore c { t.core c with stopped := true }) := by
  show execHaltSignal s = _
  simp only [execHaltSignal, State.arrival_of_arrives h]
  exact (apply_ite Host.Outcome.next _ _ _).symm

theorem haltSignal_stopped (h : arrives s c (.haltSignal debug)) (hs : (s.core c).stopped = true) :
    happens .haltSignal s fun t => onlyCore { s with net := others s } t c ∧
      t.core c = { s.core c with debugged := if debug then jobSlots else (s.core c).debugged } := by
  obtain ⟨hlocal, hcore⟩ := State.signalled_local (s := s) (c := c) (debug := debug)
  exact ⟨s.signalled c debug, by rw [exec_haltSignal h, hcore, if_pos hs], hlocal, hcore⟩

theorem haltSignal_running (h : arrives s c (.haltSignal debug)) (hs : (s.core c).stopped = false) :
    happens .haltSignal s fun t => onlyCore { s with net := others s } t c ∧ (t.core c).stopped = true ∧
      (t.core c).debugged = (if debug then jobSlots else (s.core c).debugged) ∧ t.ctx c 0 = s.ctx c 0 ∧
      ∀ n, 1 ≤ n → n ≤ 11 → (t.ctx c n).halted = true := by
  obtain ⟨hlocal, hcore⟩ := State.signalled_local (s := s) (c := c) (debug := debug)
  obtain ⟨t, ht⟩ : ∃ t, jobSlots.foldl (fun t n => t.haltSlot c n (Config.skid (t.steps * 16 + n)).val) (s.signalled c debug) = t := ⟨_, rfl⟩
  obtain ⟨hh, ho⟩ : Halts c jobSlots (s.signalled c debug) t ∧ ∀ d, d ≠ c → t.core d = (s.signalled c debug).core d :=
    ht ▸ State.haltSlots_skids c (fun t n => (Config.skid (t.steps * 16 + n)).val) jobSlots (s.signalled c debug)
  refine ⟨t.setCore c { t.core c with stopped := true }, ?_, onlyCore_trans hlocal (onlyCore_trans ⟨hh.bare, ho⟩ (onlyCore_setCore ..)), ?_, ?_, ?_,
    fun n h1 h11 => ?_⟩
  · rw [exec_haltSignal h, ht, hcore, hs]
    rfl
  · rw [State.core_setCore_same]
  · rw [State.core_setCore_same]
    exact hh.debugged.trans (by rw [hcore])
  · rw [State.ctx_setCore_same]
    refine (hh.other 0 (by decide)).trans ?_
    rw [State.ctx, hcore]
    rfl
  · rw [State.ctx_setCore_same]
    exact hh.halted n (List.mem_map.2 ⟨n - 1, List.mem_range.2 (by omega), by omega⟩)

end

theorem homeEvents_holds : homeEvents := by
  intro s
  refine ⟨fun h dom w ha hover => ?_, fun h dom w cell rep at_ ha hover => ?_, fun c fid f j ha hf hj => ?_, fun c fid b f j ha hf hj => ?_,
    fun c debug ha => ?_⟩
  · intro i d ho hg hne
    refine ⟨fun hi => ?_, fun fid f j hi hf hj hp => ?_⟩
    · exact weightReturn_happens ha hover (State.credit_returned rfl ho hg hne hi) ⟨onlyCore_setCore .., State.core_setCore_same ..⟩
    · have hd : (s.core h).domain 0 = d := congrArg (s.core h).domain hi.symm
      exact weightReturn_happens ha hover (State.credit_own hd ho hg hne hi hf hj hp) ⟨onlyCore_setCore .., State.core_setCore_same ..⟩
  · intro i d hi ho hg hne hloss
    exact writeOffArrival_happens ha hover hi (State.credit_lost rfl ho hg hne hi hloss) ⟨onlyCore_setCore .., State.core_setCore_same ..⟩
  · obtain ⟨ht, hfind⟩ := State.modJob_found (t := { s with net := others s }) hf hj fun j => { j with armed := true }
    exact ⟨_, by show execQarmNotice s = _; simp only [execQarmNotice, State.arrival_of_arrives ha], ht, hfind⟩
  · obtain ⟨ht, hfind⟩ := State.modJob_found (t := { s with net := others s }) hf hj fun j =>
      { j with taintCount := min (j.taintCount + 1) 0xFFFF_FFFF, taintMask := j.taintMask ||| b }
    exact ⟨_, by show execTaintReport s = _; simp only [execTaintReport, State.arrival_of_arrives ha], ht, hfind⟩
  · exact ⟨haltSignal_stopped ha, haltSignal_running ha⟩

end Sys2Proof.Machine
end

section
/-! SUPPORT. How packets cross the mesh (R56, R65, R241, R242), and arrivals together. -/

namespace Sys2Proof.Machine

/-! ### The XY step (R56) -/

@[simp] theorem coreX_coreAt {x y : Nat} (hx : x < 32) : coreX (coreAt x y) = x := by simp only [coreX, coreAt]; omega
@[simp] theorem coreY_coreAt {x y : Nat} (hx : x < 32) : coreY (coreAt x y) = y := by simp only [coreY, coreAt]; omega

theorem coreX_lt (r : Nat) : coreX r < 32 := Nat.mod_lt _ (by decide)
theorem coreY_lt {r : Nat} (hr : r < 1024) : coreY r < 32 := by simp only [coreY]; omega

theorem core_eq_of_coords {r d : Nat} (hx : coreX r = coreX d) (hy : coreY r = coreY d) : r = d := by
  simp only [coreX, coreY] at hx hy
  omega

/-- How many links lie between two routers. -/
def meshDistance (r d : Nat) : Nat :=
  (coreX r - coreX d) + (coreX d - coreX r) + ((coreY r - coreY d) + (coreY d - coreY r))

theorem eq_of_meshDistance_zero {r d : Nat} (h : meshDistance r d = 0) : r = d := by
  simp only [meshDistance] at h
  exact core_eq_of_coords (by omega) (by omega)

theorem meshDistance_le {r d : Nat} (hr : r < 1024) (hd : d < 1024) : meshDistance r d ≤ 62 := by
  have := coreX_lt r
  have := coreX_lt d
  have := coreY_lt hr
  have := coreY_lt hd
  simp only [meshDistance]
  omega

/-- Off its destination's column, a packet moves one router along x, towards it. -/
theorem xyStep_along_x {r d : Nat} (hne : coreX r ≠ coreX d) : coreY (xyStep r d) = coreY r ∧
    (coreX (xyStep r d) = coreX r + 1 ∧ coreX r < coreX d ∨ coreX (xyStep r d) + 1 = coreX r ∧ coreX d < coreX r) := by
  have hr := coreX_lt r
  have hd := coreX_lt d
  rcases Nat.lt_or_gt_of_ne hne with hlt | hgt
  · rw [xyStep, if_pos hlt, coreX_coreAt (by omega), coreY_coreAt (by omega)]
    exact ⟨rfl, .inl ⟨rfl, hlt⟩⟩
  · rw [xyStep, if_neg (by omega), if_pos hgt, coreX_coreAt (by omega), coreY_coreAt (by omega)]
    exact ⟨rfl, .inr ⟨by omega, hgt⟩⟩

/-- In its destination's column, a packet moves one router along y, towards it, or stays when it is there. -/
theorem xyStep_along_y {r d : Nat} (hx : coreX r = coreX d) : coreX (xyStep r d) = coreX r ∧
    coreY (xyStep r d) = if coreY r < coreY d then coreY r + 1 else if coreY d < coreY r then coreY r - 1 else coreY r := by
  have hr := coreX_lt r
  rw [xyStep, if_neg (by omega), if_neg (by omega)]
  split
  · rw [coreX_coreAt hr, coreY_coreAt hr]
    exact ⟨rfl, rfl⟩
  · split
    · rw [coreX_coreAt hr, coreY_coreAt hr]
      exact ⟨rfl, rfl⟩
    · exact ⟨rfl, rfl⟩

/-- A step shortens the way by one link. -/
theorem meshDistance_xyStep (r d : Nat) : meshDistance (xyStep r d) d = meshDistance r d - 1 := by
  by_cases hx : coreX r = coreX d
  · obtain ⟨hx', hy'⟩ := xyStep_along_y hx
    simp only [meshDistance, hx', hy']
    split
    · omega
    · split <;> omega
  · obtain ⟨hy', hx'⟩ := xyStep_along_x hx
    simp only [meshDistance, hy']
    omega

theorem meshDistance_iterate (r d n : Nat) : meshDistance ((fun q => xyStep q d)^[n] r) d = meshDistance r d - n := by
  induction n with
  | zero => rfl
  | succ n ih => rw [Function.iterate_succ_apply', meshDistance_xyStep, ih]; omega

/-- 62 hops bring a packet from any router to any other. -/
theorem xyStep_arrives {r d : Nat} (hr : r < 1024) (hd : d < 1024) : (fun q => xyStep q d)^[62] r = d := by
  refine eq_of_meshDistance_zero ?_
  have := meshDistance_le hr hd
  rw [meshDistance_iterate]
  omega

/-! ### One hop of a packet (R65, R242) -/

section
variable {s : State} {f : Flight}

theorem State.hopped_arrived (h : f.at_ = f.dst) : s.hopped f = f := by rw [State.hopped, if_pos h]

theorem State.hopped_xy (hne : f.at_ ≠ f.dst) (h : f.cls = .xy ∨ s.fieldOf f.dst = none) :
    s.hopped f = { f with at_ := xyStep f.at_ f.dst } := by
  rw [State.hopped, if_neg hne]
  rcases h with h | h
  · rw [h]
  · rw [h]
    split
    · rfl
    · rfl
    · contradiction

/-- A packet of a stitch class goes as the field of its destination routes it. -/
theorem State.hopped_stitch {e : Nat × FieldSt} (hne : f.at_ ≠ f.dst) (hc : f.cls ≠ .xy) (hf : s.fieldOf f.dst = some e) :
    s.hopped f = { f with
      at_ := (e.2.hop (if f.body.network = .accumulate then 1 else 0) f.cls f.at_ f.dst).1,
      cls := (e.2.hop (if f.body.network = .accumulate then 1 else 0) f.cls f.at_ f.dst).2 } := by
  rw [State.hopped, if_neg hne, hf]
  split
  · contradiction
  · contradiction
  · next heq _ => cases heq; rfl

end

section
variable {g : FieldSt} {net r d : Nat} {cls : MeshClass}

theorem FieldSt.hop_unrouted (h : g.routeAt net r d = none) : g.hop net cls r d = (xyStep r d, cls) := by rw [FieldSt.hop, h]

theorem FieldSt.hop_routed {e n : Nat} (h : g.routeAt net r d = some e) (hp : g.portEnd net r (routePort e) = some n) :
    g.hop net cls r d = (n, if net = 0 ∧ routeDateline e = true ∧ cls = .s0 then .s1 else cls) := by
  simp only [FieldSt.hop, h, hp, Bool.and_eq_true, decide_eq_true_eq, and_assoc]

end

/-- A turn of the mesh on the agenda is the next step of a device that runs. -/
theorem step_hop {s : State} {i : Nat} {rest : List Turn} (hc : s.captured = false) (ha : s.agenda = .hop i :: rest) :
    step s = .next (({ s with agenda := rest } : State).tick.hopTurn i) := by
  simp only [step, State.advance, State.nextTurn, ha, hc, Bool.false_and, Bool.false_eq_true, if_false]
  rfl

theorem State.hopTurn_of_flight {s : State} {i : Nat} {f : Flight} (h : s.net[i]? = some f) :
    s.hopTurn i = { s with net := s.net.set i (s.hopped f) } := by
  rw [State.hopTurn, h]

theorem meshMoves_holds : meshMoves := by
  refine ⟨fun s i rest hc ha => step_hop hc ha, fun s i f hf => ⟨State.hopTurn_of_flight hf, State.hopped_arrived, State.hopped_xy, ?_⟩,
    fun r d hr hd => ⟨xyStep_along_x, xyStep_arrives hr hd⟩⟩
  intro fid g hne hc hg net
  refine ⟨fun hroute => ?_, fun r n hroute hport => ?_⟩
  · rw [State.hopped_stitch hne hc hg, FieldSt.hop_unrouted hroute]
  · rw [State.hopped_stitch hne hc hg, FieldSt.hop_routed hroute hport]

/-- Settles O45: messages and replies by the state of their core, weight and notices by the domain or job they reach, and the mesh by the
number of links that a step leaves. -/
theorem arrivalEvents : Obligations.ArrivalEvents := ⟨messageEvents_holds, homeEvents_holds, meshMoves_holds⟩

end Sys2Proof.Machine
end

section
/-! SUPPORT. Where an address leads (R127 to R140): what a walk depends on, and what it leaves unchanged. -/

namespace Sys2Proof.Machine

/-! ### States that a walk cannot tell apart -/

/-- `t` has what a translation reads as `s` has it: the tables and their cached entries, the fields, the slices' masks, the package and the
other members. -/
structure Alike (s t : State) : Prop where
  flash : t.flash = s.flash
  fields : t.fields = s.fields
  slices : t.slices = s.slices
  mem : t.mem = s.mem
  podcfg : t.podcfg = s.podcfg
  members : t.members = s.members
  split : ∀ c, (t.core c).split = (s.core c).split
  held : ∀ c, (t.core c).held = (s.core c).held
  bootMode : ∀ c, (t.core c).bootMode = (s.core c).bootMode
  tlb : ∀ c, (t.core c).tlb = (s.core c).tlb

namespace Alike

theorem refl (s : State) : Alike s s := ⟨rfl, rfl, rfl, rfl, rfl, rfl, fun _ => rfl, fun _ => rfl, fun _ => rfl, fun _ => rfl⟩

variable {s t : State} (h : Alike s t)
include h

theorem fieldOf (c : Nat) : t.fieldOf c = s.fieldOf c := by rw [State.fieldOf, h.fields, State.fieldOf]
theorem slice (cl : Nat) : t.slice cl = s.slice cl := by rw [State.slice, h.slices, h.flash, State.slice]
theorem healthy (c : Nat) : t.healthy c = s.healthy c := by rw [State.healthy, h.flash, State.healthy]
theorem scratchSize (c : Nat) : (t.core c).scratchSize = (s.core c).scratchSize := by rw [Core.scratchSize, h.split, Core.scratchSize]
theorem mayPeer (c n q : Nat) : t.mayPeer c n q = s.mayPeer c n q := by rw [State.mayPeer, h.healthy, h.held, State.mayPeer]
theorem selfMember : t.selfMember = s.selfMember := by rw [State.selfMember, h.podcfg, State.selfMember]
theorem memberCount : t.memberCount = s.memberCount := by rw [State.memberCount, h.podcfg, State.memberCount]
theorem memberPresent (m : Nat) : t.memberPresent m = s.memberPresent m := by simp only [State.memberPresent, h.members]

theorem globalPlace (m : Nat) (hostwin : Bool) (a : Nat) : t.globalPlace m hostwin a = s.globalPlace m hostwin a := by
  simp only [State.globalPlace, h.memberCount, h.selfMember, h.memberPresent]

theorem localPlace (c n off bytes : Nat) : t.localPlace c n off bytes = s.localPlace c n off bytes := by
  simp only [State.localPlace, h.scratchSize, h.mayPeer, h.fieldOf, h.slice]

theorem peekNat (k n : Nat) : t.peekNat k n = s.peekNat k n :=
  congrArg bitsOfBytes (State.peeks_congr fun _ _ => State.peek_of_mem h.mem _)

theorem entryOk (l pte : Nat) : t.entryOk l pte = s.entryOk l pte := by rw [State.entryOk, h.selfMember, State.entryOk]

/-- Both cores enter the same entries. -/
theorem enter (c : Nat) (e : TlbEntry) :
    Alike (s.setCore c { s.core c with tlb := e :: (s.core c).tlb }) (t.setCore c { t.core c with tlb := e :: (t.core c).tlb }) := by
  refine ⟨h.flash, h.fields, h.slices, h.mem, h.podcfg, h.members, fun d => ?_, fun d => ?_, fun d => ?_, fun d => ?_⟩ <;>
    rw [State.core_setCore, State.core_setCore] <;> split
  · exact h.split c
  · exact h.split d
  · exact h.held c
  · exact h.held d
  · exact h.bootMode c
  · exact h.bootMode d
  · exact congrArg (e :: ·) (h.tlb c)
  · exact h.tlb d

end Alike

/-! ### One level of a walk -/

/-- The entry of a level that the TLB of core `c` holds. -/
def State.tlbEntry (s : State) (c va l : Nat) : Option TlbEntry := (s.core c).tlb.find? fun e => e.level = l && e.tag = va / 2 ^ levelShift l

/-- The entry of a level: from the TLB, or from memory. -/
def State.pteOf (s : State) (c va l table : Nat) : Nat :=
  match s.tlbEntry c va l with
  | some e => e.pte
  | none => if backed (table + 16 * levelIndex l va) then s.peekNat (keyDram (table + 16 * levelIndex l va)) 16 else 0

/-- The TLB after a level whose entry may be used (R138, R140). -/
def State.entered (s : State) (c va l pte : Nat) : State :=
  if (s.tlbEntry c va l).isSome || (pteLeaf pte && pteMig pte) then s
  else s.setCore c { s.core c with tlb := ⟨l, va / 2 ^ levelShift l, pte⟩ :: (s.core c).tlb }

theorem State.walk_succ (s : State) (c va l table : Nat) : s.walk c va (l + 1) table =
    if s.entryOk l (s.pteOf c va l table) then
      if pteLeaf (s.pteOf c va l table) then (.leaf (s.pteOf c va l table) l, s.entered c va l (s.pteOf c va l table))
      else (s.entered c va l (s.pteOf c va l table)).walk c va l (pteAddr (s.pteOf c va l table))
    else (.none, s) := rfl

theorem State.walkFrom_succ (s : State) (c va l table : Nat) : s.walkFrom c va (l + 1) table =
    if s.entryOk l (s.pteOf c va l table) && !pteLeaf (s.pteOf c va l table) then
      (if (s.tlbEntry c va l).isNone && backed (table + 16 * levelIndex l va) then [keyDram (table + 16 * levelIndex l va)] else []) ++
        s.walkFrom c va l (pteAddr (s.pteOf c va l table))
    else if (s.tlbEntry c va l).isNone && backed (table + 16 * levelIndex l va) then [keyDram (table + 16 * levelIndex l va)] else [] := rfl

namespace Alike
variable {s t : State} (h : Alike s t)
include h

theorem tlbEntry (c va l : Nat) : t.tlbEntry c va l = s.tlbEntry c va l := by rw [State.tlbEntry, h.tlb, State.tlbEntry]

theorem pteOf (c va l table : Nat) : t.pteOf c va l table = s.pteOf c va l table := by
  simp only [State.pteOf, h.tlbEntry, h.peekNat]

theorem entered (c va l pte : Nat) : Alike (s.entered c va l pte) (t.entered c va l pte) := by
  rw [State.entered, State.entered, h.tlbEntry]
  split
  · exact h
  · exact h.enter ..

omit h in
/-- Walks of states that are alike find the same, and leave states that are alike. -/
theorem walk (c va l : Nat) : ∀ {s t : State}, Alike s t → ∀ table, (t.walk c va l table).1 = (s.walk c va l table).1 ∧
    Alike (s.walk c va l table).2 (t.walk c va l table).2 := by
  induction l with
  | zero => exact fun h table => ⟨rfl, h⟩
  | succ l ih =>
    intro s t h table
    rw [State.walk_succ, State.walk_succ, h.pteOf, h.entryOk]
    split
    · split
      · exact ⟨rfl, h.entered ..⟩
      · exact ih (h.entered ..) _
    · exact ⟨rfl, h⟩

theorem walkFrom (c va l table : Nat) : t.walkFrom c va l table = s.walkFrom c va l table := by
  induction l generalizing table with
  | zero => rfl
  | succ l ih => rw [State.walkFrom_succ, State.walkFrom_succ, h.pteOf, h.entryOk, h.tlbEntry, ih]

theorem walkReads (c n va : Nat) : t.walkReads c n va = s.walkReads c n va := by
  simp only [State.walkReads, h.fieldOf, h.walkFrom]

theorem barred (p : Nat) : t.barred p = s.barred p := by rw [State.barred, h.fields, State.barred]
theorem snapAllows (c a : Nat) : t.snapAllows c a = s.snapAllows c a := by rw [State.snapAllows, h.fieldOf, State.snapAllows]

theorem modJob (fid : Nat) (g : Job → Job) : Alike (s.modJob fid g) (t.modJob fid g) := by
  rw [State.modJob, State.modJob, h.fields]
  split
  · exact ⟨h.flash, congrArg (Assoc.put · fid _) h.fields, h.slices, h.mem, h.podcfg, h.members, h.split, h.held, h.bootMode, h.tlb⟩
  · exact h

/-- The pages of a leaf are reserved in both, or in neither. -/
theorem reserveLeaf (c pte l : Nat) : (s.reserveLeaf c pte l = none ∧ t.reserveLeaf c pte l = none) ∨
    ∃ u v, s.reserveLeaf c pte l = some u ∧ t.reserveLeaf c pte l = some v ∧ Alike u v := by
  rw [State.reserveLeaf, State.reserveLeaf, h.fieldOf]
  split
  · split
    · split
      · exact .inr ⟨_, _, rfl, rfl, h⟩
      · split
        · exact .inl ⟨rfl, rfl⟩
        · dsimp only
          split
          · exact .inr ⟨_, _, rfl, rfl, h⟩
          · split
            · exact .inr ⟨_, _, rfl, rfl, h.modJob ..⟩
            · exact .inl ⟨rfl, rfl⟩
    · exact .inr ⟨_, _, rfl, rfl, h⟩
  · exact .inr ⟨_, _, rfl, rfl, h⟩

end Alike

/-! ### The checks of a leaf -/

/-- The leaf's checks, once it is known where it leads (R111, R112, R137, R140): `s` is the state before the walk, `t` the one after it. -/
def State.leafChecks (s t : State) (c a pte l key : Nat) (k : Access) : Where × State :=
  if keySpace key = 0 ∧ (s.barred (a / 65536) ∨ !t.snapAllows c a) then (.bad .translation, t)
  else if keySpace key = 2 ∧ vaultPages ≤ a / 65536 % 8192 then (.bad .translation, t)
  else
    match (if keySpace key = 0 then t.reserveLeaf c pte l else some t) with
    | none => (.bad .translation, t)
    | some t =>
      if !grants pte k then (.bad .permission, t)
      else if pteMig pte then (.migrating, t)
      else (.at_ key, t)

/-- What follows the walk. -/
def State.leafPlace (s : State) (c va : Nat) (k : Access) : Walked × State → Where × State
  | (.none, t) => (.bad .translation, t)
  | (.leaf pte l, t) =>
    match t.globalPlace (pteMember pte) (pteHost pte) (pteAddr pte + va % 2 ^ levelShift l) with
    | .at_ key => s.leafChecks t c (pteAddr pte + va % 2 ^ levelShift l) pte l key k
    | w => (w, t)

theorem State.tables_none {s : State} {c : Nat} (h : s.fieldOf c = none) (va : Nat) (k : Access) : s.tables c va k = (.bad .translation, s) := by
  rw [State.tables, h]

theorem State.tables_some {s : State} {c : Nat} {e : Nat × FieldSt} (h : s.fieldOf c = some e) (va : Nat) (k : Access) :
    s.tables c va k = if e.2.root = 0 then (.bad .translation, s) else s.leafPlace c va k (s.walk c va 5 e.2.root) := by
  rw [State.tables, h]
  dsimp only
  split
  · rfl
  · split <;> rename_i heq <;> rw [heq]
    · rfl
    · rfl

namespace Alike
variable {s t : State} (h : Alike s t)
include h

theorem leafChecks {u v : State} (h' : Alike u v) (c a pte l key : Nat) (k : Access) :
    (t.leafChecks v c a pte l key k).1 = (s.leafChecks u c a pte l key k).1 ∧
      Alike (s.leafChecks u c a pte l key k).2 (t.leafChecks v c a pte l key k).2 := by
  rw [State.leafChecks, State.leafChecks, h.barred, h'.snapAllows]
  split
  · exact ⟨rfl, h'⟩
  · split
    · exact ⟨rfl, h'⟩
    · have hres : ((if keySpace key = 0 then u.reserveLeaf c pte l else some u) = none ∧
          (if keySpace key = 0 then v.reserveLeaf c pte l else some v) = none) ∨
          ∃ u' v', (if keySpace key = 0 then u.reserveLeaf c pte l else some u) = some u' ∧
            (if keySpace key = 0 then v.reserveLeaf c pte l else some v) = some v' ∧ Alike u' v' := by
        split
        · exact h'.reserveLeaf c pte l
        · exact .inr ⟨u, v, rfl, rfl, h'⟩
      obtain ⟨hu, hv⟩ | ⟨u', v', hu, hv, h''⟩ := hres
      · rw [hu, hv]
        exact ⟨rfl, h'⟩
      · rw [hu, hv]
        dsimp only
        split
        · exact ⟨rfl, h''⟩
        · split
          · exact ⟨rfl, h''⟩
          · exact ⟨rfl, h''⟩

theorem tables (c va : Nat) (k : Access) : (t.tables c va k).1 = (s.tables c va k).1 ∧ Alike (s.tables c va k).2 (t.tables c va k).2 := by
  cases hf : s.fieldOf c with
  | none =>
    rw [State.tables_none hf, State.tables_none ((h.fieldOf c).trans hf)]
    exact ⟨rfl, h⟩
  | some e =>
    rw [State.tables_some hf, State.tables_some ((h.fieldOf c).trans hf)]
    split
    · exact ⟨rfl, h⟩
    · obtain ⟨h1, h2⟩ := Alike.walk c va 5 h e.2.root
      generalize s.walk c va 5 e.2.root = x at h1 h2 ⊢
      generalize t.walk c va 5 e.2.root = y at h1 h2 ⊢
      obtain ⟨w, u⟩ := x
      obtain ⟨w', v⟩ := y
      obtain rfl : w' = w := h1
      have h2 : Alike u v := h2
      cases w' with
      | none => exact ⟨rfl, h2⟩
      | leaf pte l =>
        rw [State.leafPlace, State.leafPlace, h2.globalPlace]
        cases u.globalPlace (pteMember pte) (pteHost pte) (pteAddr pte + va % 2 ^ levelShift l) with
        | at_ key => exact h.leafChecks h2 ..
        | bad _ => exact ⟨rfl, h2⟩
        | migrating => exact ⟨rfl, h2⟩

end Alike

/-! ### Accesses that take no tables (R127, R134) -/

/-- Where an access leads that is not translated: to local space, or through the supervisor's forms. -/
def State.direct (s : State) (c n va bytes : Nat) (k : Access) : Option Where :=
  if va / 2 ^ 64 = 0xFF then some (if k = .fetch then .bad .permission else s.localPlace c n (va % 2 ^ 64) bytes)
  else if n = 0 ∧ va / 2 ^ 64 ≤ 2 then some (s.supervisor c va bytes k).1
  else none

theorem State.supervisor_state {s : State} {c va bytes : Nat} {k : Access} (h : va / 2 ^ 64 ≤ 2) : (s.supervisor c va bytes k).2 = s := by
  have hff : va / 2 ^ 64 ≠ 0xFF := by omega
  have htab : va / 2 ^ 64 = 0 ∨ va / 2 ^ 64 = 1 ∨ va / 2 ^ 64 = 2 := by omega
  obtain h | h | h := htab <;> simp only [State.supervisor, h] <;> norm_num
  split_ifs <;> rfl

theorem State.locate_direct {s : State} {c n va bytes : Nat} {k : Access} {w : Where} (h : s.direct c n va bytes k = some w) :
    s.locate c n va bytes k = (w, s) := by
  rw [State.direct] at h
  split at h
  · next hff =>
    obtain rfl := Option.some.inj h
    by_cases hn : n = 0
    · rw [State.locate, if_pos hn, State.supervisor, hn]
      simp only [hff]
      norm_num
    · rw [State.locate, if_neg hn, if_pos hff]
  · split at h
    · next hlow =>
      obtain rfl := Option.some.inj h
      rw [State.locate, if_pos hlow.1]
      exact Prod.ext rfl (State.supervisor_state hlow.2)
    · cases h

theorem State.locate_tables {s : State} {c n va bytes : Nat} {k : Access} (h : s.direct c n va bytes k = none) :
    s.locate c n va bytes k = s.tables c va k := by
  rw [State.direct] at h
  split at h
  · cases h
  · next hff =>
    split at h
    · cases h
    · next hlow =>
      by_cases hn : n = 0
      · have h0 : va / 2 ^ 64 ≠ 0 := by omega
        have h1 : va / 2 ^ 64 ≠ 1 := by omega
        have h2 : va / 2 ^ 64 ≠ 2 := by omega
        rw [State.locate, if_pos hn, State.supervisor, if_neg h0, if_neg h1, if_neg h2, if_neg hff]
      · rw [State.locate, if_neg hn, if_neg hff]

theorem State.walkReads_direct {s : State} {c n va bytes : Nat} {k : Access} {w : Where} (h : s.direct c n va bytes k = some w) :
    s.walkReads c n va = [] := by
  refine if_pos ?_
  simp only [Bool.or_eq_true, Bool.and_eq_true, decide_eq_true_eq]
  rw [State.direct] at h
  split at h
  · next hff => exact .inl hff
  · split at h
    · next hlow => exact .inr hlow
    · cases h

namespace Alike
variable {s t : State} (h : Alike s t)
include h

theorem direct (c n va bytes : Nat) (k : Access) : t.direct c n va bytes k = s.direct c n va bytes k := by
  have hsup : (t.supervisor c va bytes k).1 = (s.supervisor c va bytes k).1 := by
    simp only [State.supervisor, h.globalPlace, h.localPlace, h.bootMode, apply_ite Prod.fst, (h.tables c va k).1]
  rw [State.direct, State.direct, h.localPlace, hsup]

/-- An access leads to the same place in states that are alike, and leaves states that are alike. -/
theorem locate (c n va bytes : Nat) (k : Access) :
    (t.locate c n va bytes k).1 = (s.locate c n va bytes k).1 ∧ Alike (s.locate c n va bytes k).2 (t.locate c n va bytes k).2 := by
  cases hd : s.direct c n va bytes k with
  | none =>
    rw [State.locate_tables hd, State.locate_tables ((h.direct ..).trans hd)]
    exact h.tables c va k
  | some w =>
    rw [State.locate_direct hd, State.locate_direct ((h.direct ..).trans hd)]
    exact ⟨rfl, h⟩

end Alike

/-! ### Tables never lead to local space -/

theorem levelShift_le (l : Nat) : levelShift l ≤ 60 := by unfold levelShift; split <;> omega

theorem keySpace_globalPlace {s : State} {m a key : Nat} {hostwin : Bool} (hm : m < 1024) (ha : a < 2 ^ 64)
    (h : s.globalPlace m hostwin a = .at_ key) : keySpace key ≤ 2 := by
  simp only [State.globalPlace] at h
  split_ifs at h <;> obtain rfl := Where.at_.inj h <;> simp only [keySpace, keyHost, keyDram, keyRemote] <;> omega

theorem State.leafChecks_key {s t : State} {c a pte l key j : Nat} {k : Access} (h : (s.leafChecks t c a pte l key k).1 = .at_ j) : j = key := by
  rw [State.leafChecks] at h
  split at h
  · cases h
  · split at h
    · cases h
    · split at h
      · cases h
      · split at h
        · cases h
        · split at h
          · cases h
          · exact (Where.at_.inj h).symm

/-- Tables lead to a global physical address: the target of a leaf with the offset within its page. -/
theorem State.tables_leads {s : State} {c va key : Nat} {k : Access} (h : (s.tables c va k).1 = .at_ key) :
    ∃ (t : State) (pte l : Nat), t.globalPlace (pteMember pte) (pteHost pte) (pteAddr pte + va % 2 ^ levelShift l) = .at_ key := by
  cases hf : s.fieldOf c with
  | none =>
    rw [State.tables_none hf] at h
    cases h
  | some e =>
    rw [State.tables_some hf] at h
    split at h
    · cases h
    · generalize s.walk c va 5 e.2.root = x at h
      obtain ⟨w, u⟩ := x
      cases w with
      | none => cases h
      | leaf pte l =>
        rw [State.leafPlace] at h
        split at h
        · next key' hplace =>
          obtain rfl := State.leafChecks_key h
          exact ⟨u, pte, l, hplace⟩
        · next hno => exact absurd h (hno key)

theorem State.keySpace_tables {s : State} {c va key : Nat} {k : Access} (h : (s.tables c va k).1 = .at_ key) : keySpace key ≤ 2 := by
  obtain ⟨t, pte, l, hplace⟩ := State.tables_leads h
  have hoff : va % 2 ^ levelShift l < 2 ^ 60 := (Nat.mod_lt _ (by positivity)).trans_le (Nat.pow_le_pow_right (by decide) (levelShift_le l))
  refine keySpace_globalPlace (Nat.mod_lt _ (by decide)) ?_ hplace
  simp only [pteAddr]
  omega

/-- An access that leads to local space changes nothing, and its walk reads no entry. -/
theorem State.locate_local {s : State} {c n va bytes key : Nat} {k : Access} (h : (s.locate c n va bytes k).1 = .at_ key)
    (hk : 3 ≤ keySpace key) : (s.locate c n va bytes k).2 = s ∧ s.walkReads c n va = [] := by
  cases hd : s.direct c n va bytes k with
  | none =>
    rw [State.locate_tables hd] at h
    have := State.keySpace_tables h
    omega
  | some w =>
    rw [State.locate_direct hd]
    exact ⟨rfl, State.walkReads_direct hd⟩

end Sys2Proof.Machine
end

section
/-! SUPPORT. What a translation leaves unchanged (R112, R136, R138): all but the TLB of its core and the reserved pages of its field's job. -/

namespace Sys2Proof.Machine

/-! ### A field whose job changes -/

/-- The first entry that `p` selects is the one listed under its key, when that one is selected. -/
theorem Assoc.find?_eq_find {α : Type} {p : Nat × α → Bool} {m : Assoc α} {k : Nat} {v v' : α} (h : m.find? p = some (k, v))
    (hf : Assoc.find m k = some v') (hp : p (k, v') = true) : v = v' := by
  induction m with
  | nil => cases h
  | cons e m ih =>
    obtain ⟨j, x⟩ := e
    rw [List.find?_cons] at h
    rw [Assoc.find] at hf
    cases hj : p (j, x) with
    | true =>
      rw [hj] at h
      obtain ⟨rfl, rfl⟩ := Prod.mk.inj (Option.some.inj h)
      rw [if_pos rfl] at hf
      exact Option.some.inj hf
    | false =>
      rw [hj] at h
      by_cases hk : j = k
      · rw [if_pos hk] at hf
        obtain rfl := Option.some.inj hf
        rw [hk, hp] at hj
        cases hj
      · rw [if_neg hk] at hf
        exact ih h hf

/-- The first entry that `p` selects stays, or is the one that has changed. -/
theorem Assoc.find?_put {α : Type} {p : Nat × α → Bool} {m : Assoc α} {k : Nat} {v v' w : α} (h : m.find? p = some (k, v))
    (hf : Assoc.find m k = some v') (hp : p (k, w) = p (k, v')) :
    (Assoc.put m k w).find? p = some (k, v) ∨ v = v' ∧ (Assoc.put m k w).find? p = some (k, w) := by
  induction m with
  | nil => cases h
  | cons e m ih =>
    obtain ⟨j, x⟩ := e
    have hfind := Assoc.find?_eq_find h hf
    rw [List.find?_cons] at h
    rw [Assoc.find] at hf
    rw [Assoc.put]
    cases hj : p (j, x) with
    | true =>
      rw [hj] at h
      obtain ⟨rfl, rfl⟩ := Prod.mk.inj (Option.some.inj h)
      rw [if_pos rfl] at hf
      obtain rfl := Option.some.inj hf
      rw [if_neg (lt_irrefl _), if_pos rfl, List.find?_cons, hp, hj]
      exact .inr ⟨rfl, rfl⟩
    | false =>
      rw [hj] at h
      split
      · next hlt =>
        rw [List.find?_cons, List.find?_cons, hp, hj]
        cases hv : p (k, v') with
        | true => exact .inr ⟨hfind hv, rfl⟩
        | false => exact .inl h
      · split
        · next heq =>
          rw [if_pos heq.symm] at hf
          obtain rfl := Option.some.inj hf
          rw [List.find?_cons, hp, heq, hj]
          exact .inl (heq ▸ h)
        · next hne =>
          rw [if_neg (Ne.symm hne)] at hf
          rw [List.find?_cons, hj]
          exact ih h hf

theorem State.fieldOf_modJob {s : State} {c fid : Nat} {f : FieldSt} (h : s.fieldOf c = some (fid, f)) (g : Job → Job) :
    (s.modJob fid g).fieldOf c = some (fid, f) ∨ (s.modJob fid g).fieldOf c = some (fid, { f with job := f.job.map g }) := by
  rw [State.modJob]
  split
  · next f' hf =>
    have hfirst : List.find? (fun e : Nat × FieldSt => e.2.covers (clusterOf c)) s.fields = some (fid, f) := h
    obtain hsame | ⟨rfl, hnew⟩ := Assoc.find?_put (w := { f' with job := f'.job.map g }) hfirst hf rfl
    · exact .inl hsame
    · exact .inr hnew
  · exact .inl h

theorem FieldSt.reaches_job (f : FieldSt) (j : Option Job) (n : Nat) (cls : MeshClass) (r d : Nat) :
    ({ f with job := j } : FieldSt).reaches n cls r d = f.reaches n cls r d := by
  induction n generalizing cls r with
  | zero => rfl
  | succ n ih =>
    rw [FieldSt.reaches, FieldSt.reaches, ih]
    rfl

theorem State.meshOpen_modJob {s : State} {c fid : Nat} {f : FieldSt} (h : s.fieldOf c = some (fid, f)) (g : Job → Job) (r : Nat) :
    (s.modJob fid g).meshOpen c r = s.meshOpen c r := by
  obtain h' | h' := State.fieldOf_modJob h g
  · rw [State.meshOpen, h', State.meshOpen, h]
  · rw [State.meshOpen, h', State.meshOpen, h]
    simp only [FieldSt.reaches_job]
    rfl

/-! ### The frame of a translation -/

/-- From `s` to `t` core `c` has at most filled its TLB, and the job of its field has at most reserved pages. -/
structure Walks (c : Nat) (s t : State) : Prop where
  rest : ({ t with cores := [], fields := [] } : State) = { s with cores := [], fields := [] }
  core : ∀ d, ({ t.core d with tlb := [] } : Core) = { s.core d with tlb := [] }
  meshOpen : ∀ r, t.meshOpen c r = s.meshOpen c r

namespace Walks
variable {c : Nat} {s t u : State}

theorem refl (c : Nat) (s : State) : Walks c s s := ⟨rfl, fun _ => rfl, fun _ => rfl⟩

theorem trans (h : Walks c s t) (h' : Walks c t u) : Walks c s u :=
  ⟨h'.rest.trans h.rest, fun d => (h'.core d).trans (h.core d), fun r => (h'.meshOpen r).trans (h.meshOpen r)⟩

theorem entered (c va l pte : Nat) (s : State) : Walks c s (s.entered c va l pte) := by
  rw [State.entered]
  split
  · exact refl c s
  · refine ⟨rfl, fun d => ?_, fun _ => rfl⟩
    rw [State.core_setCore]
    split
    · subst_vars
      rfl
    · rfl

theorem walk (c va l : Nat) : ∀ (s : State) (table : Nat), Walks c s (s.walk c va l table).2 := by
  induction l with
  | zero => exact fun s _ => refl c s
  | succ l ih =>
    intro s table
    rw [State.walk_succ]
    split
    · split
      · exact entered ..
      · exact (entered ..).trans (ih _ _)
    · exact refl c s

theorem reserveLeaf {pte l : Nat} (h : s.reserveLeaf c pte l = some t) : Walks c s t := by
  rw [State.reserveLeaf] at h
  split at h
  · next fid f hf =>
    split at h
    · split at h
      · exact Option.some.inj h ▸ refl c s
      · split at h
        · cases h
        · dsimp only at h
          split at h
          · exact Option.some.inj h ▸ refl c s
          · split at h
            · obtain rfl := Option.some.inj h
              refine ⟨?_, fun d => ?_, State.meshOpen_modJob hf _⟩
              · rw [State.modJob]
                split <;> rfl
              · rw [State.modJob]
                split <;> rfl
            · cases h
    · exact Option.some.inj h ▸ refl c s
  · exact Option.some.inj h ▸ refl c s

theorem leafChecks (s : State) (a pte l key : Nat) (k : Access) : Walks c t (s.leafChecks t c a pte l key k).2 := by
  rw [State.leafChecks]
  split
  · exact refl c t
  · split
    · exact refl c t
    · split
      · exact refl c t
      · next u hu =>
        have hres : Walks c t u := by
          split at hu
          · exact reserveLeaf hu
          · exact Option.some.inj hu ▸ refl c t
        split
        · exact hres
        · split
          · exact hres
          · exact hres

theorem tables (s : State) (c va : Nat) (k : Access) : Walks c s (s.tables c va k).2 := by
  cases hf : s.fieldOf c with
  | none =>
    rw [State.tables_none hf]
    exact refl c s
  | some e =>
    rw [State.tables_some hf]
    split
    · exact refl c s
    · have hw := walk c va 5 s e.2.root
      generalize s.walk c va 5 e.2.root = x at hw ⊢
      obtain ⟨w, u⟩ := x
      have hw : Walks c s u := hw
      cases w with
      | none => exact hw
      | leaf pte l =>
        rw [State.leafPlace]
        cases u.globalPlace (pteMember pte) (pteHost pte) (pteAddr pte + va % 2 ^ levelShift l) with
        | at_ key => exact hw.trans (leafChecks ..)
        | bad _ => exact hw
        | migrating => exact hw

theorem locate (s : State) (c n va bytes : Nat) (k : Access) : Walks c s (s.locate c n va bytes k).2 := by
  cases hd : s.direct c n va bytes k with
  | none =>
    rw [State.locate_tables hd]
    exact tables ..
  | some w =>
    rw [State.locate_direct hd]
    exact refl c s

end Walks
end Sys2Proof.Machine
end

section
/-! SUPPORT. Loads (R145, R149, R230): the steps of a load, whatever frame its accesses keep. -/

namespace Sys2Proof.Machine

/-! ### What an effect does from every state with a property -/

/-- From every state with `P` the effect `m` answers `a` and leaves a state with `Q`. -/
def Does {α : Type} (P : State → Prop) (m : M α) (a : α) (Q : State → Prop) : Prop := ∀ t, P t → ∃ u, m t = .ok (a, u) ∧ Q u

namespace Does
variable {α β : Type} {P Q R : State → Prop}

theorem bind {m : M α} {f : α → M β} {a : α} {b : β} (h : Does P m a Q) (h' : Does Q (f a) b R) : Does P (m >>= f) b R := by
  intro t ht
  obtain ⟨u, hu, hq⟩ := h t ht
  obtain ⟨v, hv, hr⟩ := h' u hq
  exact ⟨v, by rw [M.bind_apply, hu]; exact hv, hr⟩

theorem pure (a : α) : Does P (Pure.pure a : M α) a P := fun t h => ⟨t, rfl, h⟩

/-- An effect that leaves every state with `P` as it is. -/
theorem of_apply {m : M α} {a : α} (h : ∀ t, P t → m t = .ok (a, t)) : Does P m a P := fun t ht => ⟨t, h t ht, ht⟩

theorem get_bind {f : State → M α} {a : α} (h : ∀ t, P t → Does P (f t) a Q) : Does P (get >>= f) a Q := by
  intro t ht
  rw [M.bind_apply, M.get_apply]
  exact h t ht t ht

theorem modify {f : State → State} (h : ∀ t, P t → Q (f t)) : Does P (modify f : M Unit) () Q := fun t ht => ⟨f t, rfl, h t ht⟩

theorem forM {f : β → M PUnit} {l : List β} (h : ∀ b ∈ l, Does P (f b) () P) : Does P (l.forM f) () P := by
  induction l with
  | nil => exact pure ()
  | cons b l ih => exact (h b List.mem_cons_self).bind (ih fun x hx => h x (List.mem_cons_of_mem _ hx))

/-- A step that is only taken under a condition, and what follows it. -/
theorem when_then {c : Prop} [Decidable c] {m : M PUnit} {f : PUnit → M α} {a : α} (h : c → Does P m () P) (hf : Does P (f ()) a Q) :
    Does P (if c then m >>= f else f ()) a Q := by
  by_cases hc : c
  · rw [if_pos hc]
    exact (h hc).bind hf
  · rw [if_neg hc]
    exact hf

theorem when {c : Prop} [Decidable c] {m : M PUnit} (h : c → Does P m () P) : Does P (if c then m else Pure.pure ()) () P := by
  by_cases hc : c
  · rw [if_pos hc]
    exact h hc
  · rw [if_neg hc]
    exact pure ()

end Does

/-! ### Frames around the issuing context -/

/-- A context without the lines that its instruction has fetched. -/
def Ctx.untried (x : Ctx) : Ctx := { x with fetched := [] }

theorem Ctx.digest_untried (x : Ctx) : x.untried.digest = x.digest.untried := by
  by_cases h1 : x.eaten % 2 = 1 <;> by_cases h2 : x.eaten / 2 % 2 = 1 <;> simp [Ctx.digest, Ctx.untried, Ctx.cirSet, h1, h2]

/-- The completion of an instruction forgets what it has fetched. -/
theorem Ctx.retired'_untried (x : Ctx) (bytes : Nat) (nx : Next) : x.untried.retired' bytes nx = x.retired' bytes nx := by
  have hadv : x.untried.advance bytes nx = (x.advance bytes nx).untried := by cases nx <;> rfl
  unfold Ctx.retired'
  rw [hadv, Ctx.digest_untried]
  rfl

/-- `R t y`: `t` is `s` but for what the accesses of the instruction move, and its issuing context is `y`, whatever lines it has fetched. -/
structure Framed (s : State) (R : State → Ctx → Prop) : Prop where
  curCore : ∀ {t y}, R t y → t.curCore = s.curCore
  curSlot : ∀ {t y}, R t y → t.curSlot = s.curSlot
  ctx : ∀ {t y}, R t y → (t.ctx s.curCore s.curSlot).untried = y
  pair : ∀ {t y}, R t y → (t.core s.curCore).pair = s.here.pair
  watches : ∀ {t y}, R t y → ∀ c, (t.core c).watches = (s.core c).watches
  setCtx : ∀ {t y}, R t y → ∀ z, R (t.setCtx s.curCore s.curSlot z) z.untried

namespace Framed
variable {s t : State} {R R' : State → Ctx → Prop} {y : Ctx} (F : Framed s R)
include F

theorem unpaired (hp : s.here.pairedWest s.curSlot = false) (h : R t y) : (t.core t.curCore).pairedWest t.curSlot = false := by
  rw [F.curCore h, F.curSlot h, Core.pairedWest, F.pair h]
  exact hp

theorem unwatched {c : Nat} (hw : s.unwatched c = true) (h : R t y) : t.unwatched c = true :=
  (State.unwatched_congr (F.watches h c)).trans hw

theorem getCtx_bind {α : Type} {f : Ctx → M α} {a : α} {Q : State → Prop} (h : ∀ x : Ctx, x.untried = y → Does (R · y) (f x) a Q) :
    Does (R · y) (getCtx >>= f) a Q := by
  intro t ht
  rw [M.bind_apply, getCtx_apply, F.curCore ht, F.curSlot ht]
  exact h _ (F.ctx ht) t ht

theorem me_bind {α : Type} {f : Nat × Nat → M α} {a : α} {Q : State → Prop} (h : Does (R · y) (f (s.curCore, s.curSlot)) a Q) :
    Does (R · y) (me >>= f) a Q := by
  intro t ht
  rw [M.bind_apply, me_apply, F.curCore ht, F.curSlot ht]
  exact h t ht

theorem modCtx {f : Ctx → Ctx} {y' : Ctx} (hf : ∀ x : Ctx, x.untried = y → (f x).untried = y') :
    Does (R · y) (Machine.modCtx f) () (R · y') := by
  intro t ht
  refine ⟨_, modCtx_apply f t, ?_⟩
  rw [F.curCore ht, F.curSlot ht]
  exact hf _ (F.ctx ht) ▸ F.setCtx ht _

theorem regP (r : PReg) : Does (R · y) (Machine.regP r) (y.readP r.toNat) (R · y) :=
  F.getCtx_bind fun x hx => by
    have : x.readP r.toNat = y.readP r.toNat := by rw [← hx]; rfl
    rw [this]
    exact .pure _

/-- A marked source is consumed, if there is one, before the rest of the effect. -/
theorem eat_then {α : Type} {p : Bool} {f : PUnit → M α} {a : α} {Q : State → Prop} (h : Does (R · (y.tasted p)) (f ()) a Q) :
    Does (R · y) (if p = true then Machine.eat cirPoison >>= f else f ()) a Q := by
  cases p with
  | false => exact h
  | true => exact (F.modCtx fun x hx => hx ▸ rfl : Does (R · y) (Machine.eat cirPoison) () (R · (y.tasted true))).bind h

theorem consume (us : List Nat) : Does (R · y) (Machine.consume us) (us.any y.marked) (R · (y.tasted (us.any y.marked))) := by
  refine F.getCtx_bind fun x hx => ?_
  have hm : us.any x.marked = us.any y.marked := by rw [← hx]; rfl
  rw [hm]
  cases us.any y.marked with
  | false => exact .pure _
  | true =>
    have hset : Does (R · y) (Machine.setCtx { x with eaten := x.eaten ||| cirPoison }) () (R · (y.tasted true)) := by
      intro t ht
      refine ⟨_, setCtx_apply _ t, ?_⟩
      rw [F.curCore ht, F.curSlot ht]
      exact hx ▸ F.setCtx ht { x with eaten := x.eaten ||| cirPoison }
    exact hset.bind (.pure _)

theorem setG (r : GReg) (v : Word) (p : Bool) : Does (R · y) (Machine.setG r v p) () (R · ((y.writeG r.toNat v).mark r.toNat p)) :=
  F.modCtx fun x hx => by
    rw [← hx]
    unfold Ctx.writeG
    split <;> rfl

theorem setP (r : PReg) (v : Ptr) (p : Bool) : Does (R · y) (Machine.setP r v p) () (R · ((y.writeP r.toNat v).mark (32 + r.toNat) p)) :=
  F.modCtx fun _ hx => hx ▸ rfl

/-! ### How the instruction ends -/

/-- An effect that ends within a frame completes the instruction. -/
theorem completes {P : State → Prop} {i : Instr} {body : M Next} (hs : s.steady = true) (he : exec i s = perform .any i body s) (h0 : P s)
    (hb : Does P body .seq (R · y)) (h1 : y.step1 = false) (h2 : y.after = none) :
    ∃ t, exec i s = .next t ∧ R t (y.retired' (instrBytes i) .seq) ∧ t.now = y.retired' (instrBytes i) .seq := by
  obtain ⟨hp, -, -, -, hl⟩ := State.steady_iff hs
  obtain ⟨u, hu, hR⟩ := hb s h0
  have hx := F.ctx hR
  have hret : (u.ctx s.curCore s.curSlot).retired' (instrBytes i) .seq = y.retired' (instrBytes i) .seq := by
    rw [← hx, Ctx.retired'_untried]
  have hun : (y.retired' (instrBytes i) .seq).untried = y.retired' (instrBytes i) .seq := by rw [Ctx.retired'_eq]; rfl
  refine ⟨_, he.trans (perform_ok hp hl rfl hu (by simp) ?_ ?_ ?_), ?_, ?_⟩
  · rw [← h1, ← hx]; rfl
  · rw [← h2, ← hx]; rfl
  · rw [Core.pairedWest, F.pair hR]; exact hp
  · rw [hret]
    exact hun ▸ F.setCtx hR _
  · rw [hret]
    simp only [State.now, State.setCtx_curCore, State.setCtx_curSlot, F.curCore hR, F.curSlot hR, State.ctx_setCtx, and_self, if_true]

end Framed

/-! ### Steps of a load that do nothing for a context without partner and watchpoints -/

theorem homesAgreed_unpaired {t : State} (hp : (t.core t.curCore).pairedWest t.curSlot = false) (ks : List Nat) : homesAgreed ks t = .ok ((), t) := by
  simp [homesAgreed, State.holding, Core.holding, hp]

theorem passLoad_of_unpaired {t : State} (hp : (t.core t.curCore).pairedWest t.curSlot = false) (bs : List Byte) : passLoad bs t = .ok ((), t) := by
  simp [passLoad, hp]

/-- Only the owner of a scratchpad looks on. -/
theorem State.watchOwner_quiet {t : State} {keys : List Nat} (h : ∀ key ∈ keys, keySpace key = 3 → t.unwatched (keyCore key) = true) (k : WatchKind)
    (by_ : Nat) (who : Option Nat) : t.watchOwner keys k by_ who = t := by
  unfold State.watchOwner
  split
  · rfl
  · split
    · next hk => exact State.watch_unwatched (h _ List.mem_cons_self hk) ..
    · rfl

namespace Framed
variable {s t : State} {R R' R'' : State → Ctx → Prop} {y y' y'' : Ctx}

theorem watchAccess (F : Framed s R) {now : Bool} {ks : List Nat} (hw : s.unwatched s.curCore = true)
    (ho : now = true → ∀ k ∈ ks, keySpace k = 3 → s.unwatched (keyCore k) = true) (va : Nat) (bs : List Byte) (k : WatchKind) :
    Does (R · y) (Machine.watchAccess va ks bs k now) () (R · y) := by
  have hbytes (as : List Nat) (new : List (Nat × Byte)) : Does (R · y) (Machine.watchBytes as ks new k) () (R · y) := by
    refine F.me_bind (Does.of_apply fun t ht => ?_)
    have hnone : ((List.range 4).any fun i => bits (Assoc.get Watch.reset (t.core s.curCore).watches i).ctl 3 0 ≠ 0) = false := by
      have := F.unwatched hw ht
      simpa [State.unwatched] using this
    dsimp only
    rw [M.modify_apply, hnone]
    rfl
  refine F.me_bind ((hbytes _ _).bind (Does.when fun hn => Does.of_apply fun t ht => ?_))
  rw [M.modify_apply, State.watchOwner_quiet fun key hkey h3 => F.unwatched (ho hn key (List.mem_of_mem_filter hkey) h3) ht]

/-- A load within frames: once the lines are ready, the bytes are what the state then gives, and nothing else changes. -/
theorem loadBytes (F : Framed s R) (F' : Framed s R') (hp : s.here.pairedWest s.curSlot = false) {bypass keep : Bool} {ks : List Nat} {val : Nat → Byte × Bool}
    (hl : Does (R · y) ((ks.map lineOf).eraseDups.forM fun l =>
      readyLine y.sb bypass keep l ((ks.filter fun k => lineOf k = l).map (· % 64))) () (R' · y'))
    (hv : ∀ u, R' u y' → ∀ k ∈ ks, readByte u y.sb bypass k = val k ∧ u.keyFenced k = false ∧ u.gone y.sb bypass k = false) :
    Does (R · y) (Machine.loadBytes bypass keep ks) (ks.map val) (R' · (y'.tasted ((ks.map val).any (·.2)))) := by
  refine F.getCtx_bind fun x hx => ?_
  have hsb : x.sb = y.sb := by rw [← hx]; rfl
  rw [hsb]
  refine Does.bind (.of_apply fun t ht => homesAgreed_unpaired (F.unpaired hp ht) ks) (hl.bind (Does.get_bind fun u hu => ?_))
  have hbs : ks.map (readByte u y.sb bypass) = ks.map val := List.map_congr_left fun k hk => (hv u hu k hk).1
  have hfenced : ks.any u.keyFenced = false := List.any_eq_false.2 fun k hk => by rw [(hv u hu k hk).2.1]; exact Bool.false_ne_true
  have hmark : ((ks.zip (ks.map val)).any fun b => b.2.2 && !u.gone y.sb bypass b.1) = (ks.map val).any (·.2) := by
    have hzip : ks.zip (ks.map val) = ks.map fun k => (k, val k) := by
      simpa using List.zip_map' (f := id) (g := val) (l := ks)
    have hseen : ∀ k ∈ ks, ((val k).2 && !u.gone y.sb bypass k) = (val k).2 := fun k hk => by simp [(hv u hu k hk).2.2]
    have hmarks := congrArg (List.any · id) (List.map_congr_left hseen)
    rw [List.any_map, List.any_map] at hmarks
    rw [hzip, List.any_map, List.any_map]
    exact hmarks
  dsimp only
  rw [hbs, hfenced, hmark]
  refine Does.when_then (fun hf => absurd hf Bool.false_ne_true) (F'.eat_then ?_)
  exact Does.bind (.of_apply fun v hv => passLoad_of_unpaired (F'.unpaired hp hv) _) (.pure _)

/-- A load within frames (R230): its address is translated, its halves find nothing to do, its lines are made ready, and its bytes read. -/
theorem memRead (F' : Framed s R') (F'' : Framed s R'') (hp : s.here.pairedWest s.curSlot = false) {va : Ptr} {n key : Nat} {m : MQ} {ks : List Nat}
    {val : Nat → Byte × Bool} (ha : va.toNat % n = 0) (ht : Does (R · y) (translate va.toNat n .read) key (R' · y'))
    (hrel : releases m.ord = true → ∀ u, R' u y' → u.settled u.curCore u.curSlot = true)
    (hks : ∀ u, R' u y' → u.keysOf key n = ks)
    (hl : Does (R' · y') ((ks.map lineOf).eraseDups.forM fun l =>
      readyLine y'.sb (bypasses m.ord m.scope) (m.hint = .keep) l ((ks.filter fun k => lineOf k = l).map (· % 64))) () (R'' · y''))
    (hv : ∀ u, R'' u y'' → ∀ k ∈ ks, readByte u y'.sb (bypasses m.ord m.scope) k = val k ∧ u.keyFenced k = false ∧
      u.gone y'.sb (bypasses m.ord m.scope) k = false)
    (hacq : acquires m.ord = true → ∀ u, R'' u (y''.tasted ((ks.map val).any (·.2))) → u.settled u.curCore u.curSlot = true)
    (hw : s.unwatched s.curCore = true) (ho : 3 ≤ keySpace key → ∀ k ∈ ks, keySpace k = 3 → s.unwatched (keyCore k) = true) :
    Does (R · y) (Machine.memRead va n n m) ((ks.map val).map (·.1), (ks.map val).any (·.2)) (R'' · (y''.tasted ((ks.map val).any (·.2)))) := by
  have halign : Does (R · y) (aligned va.toNat n) () (R · y) := by
    rw [aligned, if_pos ha]
    exact .pure ()
  refine halign.bind (ht.bind (Does.when_then (fun hr => .of_apply fun u hu => releaseHalf_settled (F'.unpaired hp hu) (hrel hr u hu) _)
    (Does.get_bind fun u hu => ?_)))
  rw [hks u hu]
  have hload := F'.loadBytes F'' hp hl hv
  refine Does.bind (a := ((ks.map val).map (·.1), (ks.map val).any (·.2))) (hload.bind (.pure _))
    (Does.when_then (fun hr => .of_apply fun u hu => acquireHalf_settled (hacq hr u hu) _) ?_)
  exact (F''.watchAccess hw (fun hn => ho (of_decide_eq_true hn)) _ _ _).bind (.pure _)

end Framed

end Sys2Proof.Machine
end

section
/-! SUPPORT. Loads from local space (R71, R127, R128, R145). -/

namespace Sys2Proof.Machine

/-! ### Requests that nothing holds back (R65, R71) -/

/-- Nothing holds requests of context `who` that leave no link back. -/
def Core.unlimited (k : Core) (who : Nat) : Prop := who = 0 ∨ k.dramLim = 0xFFFF_FFFF ∧ k.injLim = 0xFFFF_FFFF ∧ k.governor = []

/-- What is used of a budget after `x` more (R71). -/
def spend (use : BitVec 32) (x : Nat) : BitVec 32 := BitVec.ofNat 32 (min (use.toNat + x) 0xFFFF_FFFF)

theorem spend_zero (use : BitVec 32) : spend use 0 = use := by
  apply BitVec.eq_of_toNat_eq
  have := use.isLt
  simp only [spend, BitVec.toNat_ofNat]
  omega

/-- A charged request of an unlimited context passes; what is counted are its lines and flits. -/
theorem State.meter_unlimited {t : State} {c who : Nat} (h : (t.core c).unlimited who) (lines flits : Nat) :
    ∃ u, t.meter c who lines flits none = (true, u) ∧
      (u = t ∨ u = t.setCore c { t.core c with dramUse := spend (t.core c).dramUse lines, injUse := spend (t.core c).injUse flits }) := by
  rw [State.meter.eq_def]
  by_cases h0 : who = 0
  · exact ⟨t, if_pos h0, .inl rfl⟩
  obtain h | ⟨hd, hi, hg⟩ := h
  · exact absurd h h0
  have hb (kind : Nat) : (t.core c).heldBefore kind who = false := by simp [Core.heldBefore, hg]
  rw [if_neg h0]
  dsimp only
  rw [if_neg (by simp [hb, hd, hi])]
  refine ⟨_, rfl, .inr ?_⟩
  rw [hg, List.filter_nil, ← hg]
  rfl

theorem budgetFor_apply {t u : State} {lines flits : Nat} {pod : Option (Nat × Nat)} (h : t.meter t.curCore t.curSlot lines flits pod = (true, u)) :
    budgetFor lines flits pod t = .ok ((), u) := by
  simp [budgetFor, h]

theorem meshWay_apply {t : State} {key : Nat} (h : t.wayTo t.curCore key = true) : meshWay key t = .ok ((), t) := by
  simp [meshWay, h]

/-! ### A key and its line -/

theorem keySpace_line (k : Nat) : keySpace (lineOf k * 64) = keySpace k := by simp only [keySpace, lineOf]; omega
theorem keyCore_line (k : Nat) : keyCore (lineOf k * 64) = keyCore k := by simp only [keyCore, keyAddr, lineOf]; omega

theorem homeRouter_line (k : Nat) : homeRouter (lineOf k * 64) = homeRouter k := by
  have hvault : keyAddr (lineOf k * 64) / 2 ^ 29 = keyAddr k / 2 ^ 29 := by simp only [keyAddr, lineOf]; omega
  have hline : keyAddr (lineOf k * 64) / 64 = keyAddr k / 64 := by simp only [keyAddr, lineOf]; omega
  have hcl : keyAddr (lineOf k * 64) / 2 ^ 24 = keyAddr k / 2 ^ 24 := keyCore_line k
  simp only [homeRouter, keySpace_line, keyCore_line, hvault, hline, hcl]

theorem State.wayTo_line (s : State) (c k : Nat) : s.wayTo c (lineOf k * 64) = s.wayTo c k := by
  simp only [State.wayTo, keySpace_line, keyCore_line, homeRouter_line]

theorem reach_local {c k : Nat} (hk : 3 ≤ keySpace k) (port : Nat) :
    reach c k port = (0, 0, none) ∨ reach c k port = (0, 2, none) ∧ ¬(keySpace k = 3 ∧ keyCore k = c) := by
  unfold reach
  split <;> try omega
  · next h3 =>
    split
    · exact .inl rfl
    · next hc => exact .inr ⟨rfl, fun h => hc h.2⟩
  · next h4 => exact .inr ⟨rfl, fun h => by omega⟩
  · exact .inl rfl

/-! ### The keys of an access to a scratchpad lie in it -/

theorem Core.swizzle_lt (k : Core) {off : Nat} (h : off < 2 ^ 21) : k.swizzle off < 2 ^ 24 := by
  unfold Core.swizzle
  dsimp only
  split
  · next hin =>
    obtain ⟨-, hbase, -⟩ := hin
    generalize bits k.swzBase 20 12 * 4096 = base at hbase ⊢
    have hunit : (off - base) % 128 / 4 < 2 ^ 5 := by omega
    have hline : (off - base) / 128 % 32 < 2 ^ 5 := Nat.mod_lt _ (by decide)
    have hx := Nat.xor_lt_two_pow hunit hline
    omega
  · omega

theorem keyCore_keysOf {s : State} {key n k : Nat} (h3 : keySpace key = 3) (hn : keyAddr key % 2 ^ 24 + n ≤ 2 ^ 21) (hk : k ∈ s.keysOf key n) :
    keyCore k = keyCore key := by
  obtain ⟨i, hi, rfl⟩ := List.mem_map.1 hk
  have hsw := (s.core (keyCore key)).swizzle_lt (off := keyAddr key % 2 ^ 24 + i) (by have := List.mem_range.1 hi; omega)
  rw [if_pos h3]
  simp only [keyCore, keyScratch, keyAddr] at *
  generalize (s.core (key % 2 ^ 64 / 2 ^ 24)).swizzle (key % 2 ^ 64 % 2 ^ 24 + i) = o at *
  omega

/-- A byte of an access that does not start in a scratchpad lies in none. -/
theorem keySpace_keysOf {s : State} {key n k : Nat} (h3 : 3 < keySpace key) (hk : k ∈ s.keysOf key n) : keySpace k ≠ 3 := by
  obtain ⟨i, hi, rfl⟩ := List.mem_map.1 hk
  rw [if_neg (by omega)]
  simp only [keySpace] at *
  omega

/-! ### Where an access leads, case by case -/

/-- Local space is scratchpads, which an access does not leave, and scratch ways (R122, R127, R128). -/
theorem State.localPlace_leads {s : State} {c n off bytes key : Nat} (h : s.localPlace c n off bytes = .at_ key) :
    (∃ pid o, key = keyScratch pid o ∧ o + bytes ≤ (s.core pid).scratchSize) ∨ ∃ cl way o, key = keyL2 cl way o := by
  have hscr (o pid : Nat) (h : (if o + bytes ≤ (s.core pid).scratchSize then Where.at_ (keyScratch pid o) else .bad .translation) = .at_ key) :
      ∃ pid o, key = keyScratch pid o ∧ o + bytes ≤ (s.core pid).scratchSize := by
    split at h
    · next hle => exact ⟨pid, o, (Where.at_.inj h).symm, hle⟩
    · cases h
  simp only [State.localPlace] at h
  split at h
  · exact .inl (hscr _ _ h)
  · split at h
    · split at h
      · split at h
        · exact .inl (hscr _ _ h)
        · cases h
      · cases h
    · split at h
      · split at h
        · cases h
        · split at h
          · cases h
          · split at h
            · exact .inr ⟨_, _, _, (Where.at_.inj h).symm⟩
            · cases h
      · cases h

/-- The supervisor's forms 0x00 to 0x02 (R134). -/
theorem State.supervisor_leads {s : State} {c va bytes key : Nat} {k : Access} (hva : va / 2 ^ 64 ≤ 2)
    (h : (s.supervisor c va bytes k).1 = .at_ key) : (key = va % 2 ^ 64 ∧ key < 2 ^ 39) ∨ (∃ o, key = keyRom o) ∨ (∃ a < 2 ^ 51, key = keyHost a) ∨
      ∃ m < 1024, ∃ hostwin, s.globalPlace m hostwin (va % 2 ^ 64 % 2 ^ 51) = .at_ key := by
  have hform : va / 2 ^ 64 = 0 ∨ va / 2 ^ 64 = 1 ∨ va / 2 ^ 64 = 2 := by omega
  generalize hl : va % 2 ^ 64 = lo
  obtain hform | hform | hform := hform <;> simp only [State.supervisor, hform, hl] at h <;> norm_num at h
  · split at h
    · next hlt =>
      split at h
      · obtain rfl := Where.at_.inj h
        exact .inl ⟨rfl, hlt⟩
      · cases h
    · split at h
      · split at h
        · exact .inr (.inl ⟨_, (Where.at_.inj h).symm⟩)
        · cases h
      · cases h
  · split at h
    · next hlt => exact .inr (.inr (.inl ⟨lo, hlt.1, (Where.at_.inj h).symm⟩))
    · cases h
  · split at h
    · next hlt =>
      split at h
      · cases h
      · exact .inr (.inr (.inr ⟨lo / 2 ^ 52, by omega, _, h⟩))
    · cases h

/-- Local space, the supervisor's forms, or tables. -/
theorem State.locate_leads {s : State} {c n va bytes key : Nat} {k : Access} (h : (s.locate c n va bytes k).1 = .at_ key) :
    (∃ off, s.localPlace c n off bytes = .at_ key) ∨ (va / 2 ^ 64 ≤ 2 ∧ (s.supervisor c va bytes k).1 = .at_ key) ∨
      (s.tables c va k).1 = .at_ key := by
  cases hd : s.direct c n va bytes k with
  | none =>
    rw [State.locate_tables hd] at h
    exact .inr (.inr h)
  | some w =>
    rw [State.locate_direct hd] at h
    obtain rfl : w = .at_ key := h
    rw [State.direct] at hd
    split at hd
    · have hplace := Option.some.inj hd
      split at hplace
      · cases hplace
      · exact .inl ⟨_, hplace⟩
    · split at hd
      · next hlow => exact .inr (.inl ⟨hlow.2, Option.some.inj hd⟩)
      · cases hd

/-- An access to a scratchpad ends within it. -/
theorem State.locate_bound {s : State} {c n va bytes key : Nat} {k : Access} (h : (s.locate c n va bytes k).1 = .at_ key) (h3 : keySpace key = 3) :
    keyAddr key % 2 ^ 24 + bytes ≤ 2 ^ 21 := by
  obtain ⟨off, hplace⟩ | ⟨hva, hsup⟩ | htab := State.locate_leads h
  · obtain ⟨pid, o, rfl, hle⟩ | ⟨cl, way, o, rfl⟩ := State.localPlace_leads hplace
    · have hsplit := (s.core pid).split.isLt
      simp only [Core.scratchSize] at hle
      simp only [keyAddr, keyScratch]
      omega
    · simp only [keySpace, keyL2] at h3
      omega
  · exfalso
    obtain ⟨-, hlt⟩ | ⟨o, rfl⟩ | ⟨a, ha, rfl⟩ | ⟨m, hm, hostwin, hplace⟩ := State.supervisor_leads hva hsup
    · simp only [keySpace] at h3
      omega
    · simp only [keySpace, keyRom] at h3
      omega
    · simp only [keySpace, keyHost] at h3
      omega
    · have := keySpace_globalPlace hm ((Nat.mod_lt _ (by decide)).trans (by decide)) hplace
      omega
  · have := State.keySpace_tables htab
    omega

end Sys2Proof.Machine
end

section
/-! SUPPORT. Loads from local space (R71, R145), as effects of the issuing context. -/

namespace Sys2Proof.Machine

/-! ### Translations -/

theorem walkFor_unread {t : State} {va : Nat} (h : t.walkReads t.curCore t.curSlot va = []) : walkFor va t = .ok ([], t) := by
  simp [walkFor, h]

/-- The place that a translation notes with its instruction (R27). -/
def State.noted (t : State) (p : Place) : State :=
  t.setCtx t.curCore t.curSlot { t.ctx t.curCore t.curSlot with places := (t.ctx t.curCore t.curSlot).places ++ [p] }

theorem translate_apply {t u v : State} {va n key : Nat} {k : Access} {reads : List Nat} (hp : (t.ctx t.curCore t.curSlot).places = [])
    (hw : walkFor va t = .ok (reads, u)) (hl : u.locate t.curCore t.curSlot va n k = (.at_ key, v)) :
    translate va n k t = .ok (key, if keySpace key ≤ 2 then
      (v.touchAll t.curCore reads).noted ⟨va, k, key, if keySpace key = 2 then u.portOf key else 0⟩ else v.touchAll t.curCore reads) := by
  simp only [translate, M.bind_apply, M.get_apply, M.andThen_ok, me_apply, hp, List.find?_nil, hw, hl, M.set_apply, modCtx_apply, M.pure_apply,
    M.ite_apply]
  split <;> rfl

/-! ### The frame of a load from local space -/

/-- Only the issuing context has changed from `s`, and the injection count of its core, which stays when `own` holds. -/
def LocalReads (s : State) (own : Prop) (t : State) (y : Ctx) : Prop :=
  ∃ v x, Local s t { s.here with injUse := v } x ∧ x.untried = y ∧ (own → v = s.here.injUse)

section
variable {s t u : State} {own : Prop} {y : Ctx} {k : Core} {x : Ctx}

theorem LocalReads.refl (hf : s.now.fetched = []) : LocalReads s own s s.now := by
  refine ⟨s.here.injUse, s.now, .refl s, ?_, fun _ => rfl⟩
  rw [Ctx.untried, ← hf]

theorem Local.core_part {α : Type} (h : Local s t k x) (f : Core → α) (hk : f k = f s.here) (c : Nat) (hf : ∀ j : Core, f j.bare = f j := by intro; rfl) :
    f (t.core c) = f (s.core c) := by
  by_cases hc : c = s.curCore
  · rw [hc, Core.eq_of_bare f h.core hf, hk, State.here]
  · rw [h.others c hc]

theorem LocalReads.framed (s : State) (own : Prop) : Framed s (LocalReads s own) where
  curCore := fun ⟨_, _, h, _, _⟩ => h.curCore
  curSlot := fun ⟨_, _, h, _, _⟩ => h.curSlot
  ctx := fun ⟨_, _, h, hx, _⟩ => (congrArg Ctx.untried h.ctx).trans hx
  pair := fun ⟨_, _, h, _, _⟩ => h.core_part Core.pair rfl s.curCore
  watches := fun ⟨_, _, h, _, _⟩ c => h.core_part Core.watches rfl c
  setCtx := fun ⟨v, _, h, _, hown⟩ z => ⟨v, z, by have := h.setCtx z; rwa [h.curCore, h.curSlot] at this, rfl, hown⟩

/-- A part of a core that does not say what the core has sent. -/
theorem LocalReads.core_part {α : Type} (h : LocalReads s own t y) (f : Core → α) (c : Nat) (hf : ∀ j : Core, f j.bare = f j := by intro; rfl)
    (hi : ∀ (j : Core) (v : BitVec 32), f { j with injUse := v } = f j := by intros; rfl) : f (t.core c) = f (s.core c) := by
  obtain ⟨v, x, h, -, -⟩ := h
  exact h.core_part f (hi _ _) c hf

theorem LocalReads.bare (h : LocalReads s own t y) : t.bare = s.bare := by
  obtain ⟨v, x, h, -, -⟩ := h
  exact h.bare

theorem LocalReads.state_part {α : Type} (h : LocalReads s own t y) (f : State → α) (hf : ∀ b : State, f b.bare = f b := by intro; rfl) : f t = f s :=
  State.eq_of_bare f h.bare hf

theorem LocalReads.alike (h : LocalReads s own t y) : Alike s t :=
  ⟨h.state_part State.flash, h.state_part State.fields, h.state_part State.slices, h.state_part State.mem, h.state_part State.podcfg,
    h.state_part State.members, h.core_part Core.split, h.core_part Core.held, h.core_part Core.bootMode, h.core_part Core.tlb⟩

theorem LocalReads.keysOf (h : LocalReads s own t y) (key n : Nat) : t.keysOf key n = s.keysOf key n := by
  have hsw (c off : Nat) : (t.core c).swizzle off = (s.core c).swizzle off := h.core_part (Core.swizzle · off) c
  simp only [State.keysOf, hsw]

theorem LocalReads.wayTo (h : LocalReads s own t y) (c key : Nat) : t.wayTo c key = s.wayTo c key :=
  h.state_part (State.wayTo · c key)

theorem LocalReads.settled (h : LocalReads s own t y) (hy : y.sb = s.now.sb) (hs : s.settled s.curCore s.curSlot = true) :
    t.settled t.curCore t.curSlot = true := by
  have hsb : (t.ctx s.curCore s.curSlot).sb = s.now.sb := (congrArg Ctx.sb ((LocalReads.framed s own).ctx h)).trans hy
  rw [← hs, State.settled, State.settled, (LocalReads.framed s own).curCore h, (LocalReads.framed s own).curSlot h, hsb, h.core_part Core.cv,
    h.state_part State.hostLines, h.state_part State.biPending, h.state_part State.biOps, h.state_part State.remote]
  rfl

/-! ### The lines of a load from local space -/

/-- Nothing holds back a request for `key`: the way is open, and no budget is limited, or nothing leaves the router. -/
structure State.LocalPasses (s : State) (own : Prop) (key : Nat) : Prop where
  space : 3 ≤ keySpace key
  way : s.wayTo s.curCore key = true
  unheld : s.here.unlimited s.curSlot ∨ keySpace key = 3 ∧ keyCore key = s.curCore
  own : own → keySpace key = 3 ∧ keyCore key = s.curCore

theorem State.LocalPasses.line {key : Nat} (h : s.LocalPasses own key) : s.LocalPasses own (lineOf key * 64) := by
  obtain ⟨h1, h2, h3, h4⟩ := h
  exact ⟨by rwa [keySpace_line], by rwa [State.wayTo_line], by rwa [keySpace_line, keyCore_line], by rwa [keySpace_line, keyCore_line]⟩

theorem LocalReads.request {key : Nat} (hk : s.LocalPasses own key) : Does (LocalReads s own · y) (request key) () (LocalReads s own · y) := by
  intro t ht
  have hc := (LocalReads.framed s own).curCore ht
  have hn := (LocalReads.framed s own).curSlot ht
  have hway : t.wayTo t.curCore key = true := by rw [hc, ht.wayTo, hk.way]
  obtain hr | ⟨hr, hfar⟩ := reach_local (c := s.curCore) hk.space (t.portAt s.curCore s.curSlot key)
  · exact ⟨t, by simp [Machine.request, meshWay_apply hway, hc, hn, hr], ht⟩
  · have hun : (t.core t.curCore).unlimited t.curSlot := by
      rw [hc, hn, ht.core_part (Core.unlimited · s.curSlot)]
      exact hk.unheld.resolve_right hfar
    obtain ⟨u, hu, hor⟩ := State.meter_unlimited hun 0 2
    refine ⟨u, by simp [Machine.request, meshWay_apply hway, hc, hn, hr, budgetFor_apply hu], ?_⟩
    obtain rfl | rfl := hor
    · exact ht
    · obtain ⟨v, x, hl, hx, -⟩ := ht
      rw [spend_zero, hc]
      refine ⟨spend (t.core s.curCore).injUse 2, x, hl.setCore ?_ rfl, hx, fun ho => absurd (hk.own ho) hfar⟩
      exact congrArg (fun b : Core => { b with injUse := spend (t.core s.curCore).injUse 2 }) hl.core

theorem LocalReads.chargeLine {line : Nat} (hk : s.LocalPasses own (line * 64)) :
    Does (LocalReads s own · y) (chargeLine line) () (LocalReads s own · y) := by
  refine (LocalReads.framed s own).getCtx_bind fun x _ => (LocalReads.framed s own).me_bind ?_
  refine Does.when fun _ => (LocalReads.request hk).bind (Does.when fun _ => ?_)
  exact (LocalReads.framed s own).modCtx fun z hz => hz

theorem readyLine_local {line : Nat} (hk : 3 ≤ keySpace (line * 64)) (sb : List SbEntry) (bypass keep : Bool) (offs : List Nat) (t : State) :
    readyLine sb bypass keep line offs t =
      if (offs.all fun o => (sbByte sb (line * 64 + o)).isSome) = true then .ok ((), t) else Machine.chargeLine line t := by
  obtain ⟨m, hm⟩ : ∃ m, keySpace (line * 64) = m + 3 := ⟨keySpace (line * 64) - 3, by omega⟩
  simp only [readyLine, M.bind_apply, M.get_apply, M.andThen_ok, M.ite_apply, M.pure_apply, hm]
  cases offs.all fun o => (sbByte sb (line * 64 + o)).isSome <;> rfl

/-- The lines of keys in local space are charged, if anything. -/
theorem LocalReads.readyLines {ks : List Nat} (hk : ∀ k ∈ ks, s.LocalPasses own k) (sb : List SbEntry) (bypass keep : Bool) :
    Does (LocalReads s own · y) ((ks.map lineOf).eraseDups.forM fun l =>
      readyLine sb bypass keep l ((ks.filter fun k => lineOf k = l).map (· % 64))) () (LocalReads s own · y) := by
  refine Does.forM fun l hl => ?_
  obtain ⟨k, hmem, rfl⟩ := List.mem_map.1 (List.mem_eraseDups.1 hl)
  have hpass := (hk k hmem).line
  intro t ht
  rw [readyLine_local hpass.space]
  split
  · exact ⟨t, rfl, ht⟩
  · exact LocalReads.chargeLine hpass t ht

/-- The bytes of local space after these moves. -/
theorem LocalReads.readByte {k : Nat} (h : LocalReads s own t y) (hk : 3 ≤ keySpace k) (hf : s.keyFenced k = false) (bypass : Bool) :
    readByte t s.now.sb bypass k = s.sees k ∧ t.keyFenced k = false ∧ t.gone s.now.sb bypass k = false := by
  have hfence : t.keyFenced k = false := (h.state_part (State.keyFenced · k)).trans hf
  obtain ⟨m, hm⟩ : ∃ m, keySpace k = m + 3 := ⟨keySpace k - 3, by omega⟩
  have hpeek : t.peek k = s.peek k := h.state_part (State.peek · k)
  have hpoison : t.poisoned k = s.poisoned k := h.state_part (State.poisoned · k)
  refine ⟨?_, hfence, ?_⟩
  · rw [Machine.readByte, State.sees]
    cases sbByte s.now.sb k with
    | some b => rfl
    | none =>
      simp only [hm, hfence, hpeek, hpoison]
      rfl
  · rw [State.gone, hfence, hm]
    split
    · rfl
    · rfl

/-- Nothing is noted of a translation that leads to local space, and it changes nothing. -/
theorem LocalReads.translate {va n key : Nat} {k : Access} (hp : y.places = []) (hl : s.locate s.curCore s.curSlot va n k = (.at_ key, s))
    (hk : 3 ≤ keySpace key) : Does (LocalReads s own · y) (translate va n k) key (LocalReads s own · y) := by
  refine Does.of_apply fun t ht => ?_
  have hc := (LocalReads.framed s own).curCore ht
  have hn := (LocalReads.framed s own).curSlot ht
  have hplace : (t.locate t.curCore t.curSlot va n k).1 = .at_ key := by rw [hc, hn, (ht.alike.locate ..).1, hl]
  obtain ⟨hsame, hreads⟩ := State.locate_local hplace hk
  have hplaces : (t.ctx t.curCore t.curSlot).places = [] := by
    have hx := congrArg Ctx.places ((LocalReads.framed s own).ctx ht)
    rw [hc, hn, ← hp]
    exact hx
  rw [translate_apply hplaces (walkFor_unread hreads) (Prod.ext hplace hsame), if_neg (by omega)]
  rfl

end

/-! ### A load from local space -/

/-- A load whose bytes lie in local space reads what its context sees there; at most the injection count of its core rises. -/
theorem LocalReads.memRead {s : State} {own : Prop} {va : Ptr} {n : Nat} {ks : List Nat} {m : MQ} {y : Ctx} (hs : s.steady = true)
    (ha : va.toNat % n = 0) (ho : s.unordered m.ord) (hr : s.reachesLocal va n .read ks) (hu : s.unheld ks)
    (hown : own → ∀ k ∈ ks, keySpace k = 3 ∧ keyCore k = s.curCore) (hsb : y.sb = s.now.sb) (hp : y.places = []) :
    Does (LocalReads s own · y) (memRead va n n m) (((ks.map s.sees).map (·.1)), (ks.map s.sees).any (·.2))
      (LocalReads s own · (y.tasted ((ks.map s.sees).any (·.2)))) := by
  obtain ⟨key, hl, hkey, rfl, -, hall, hwatch, howner⟩ := hr
  obtain ⟨hpair, -, -, -, -⟩ := State.steady_iff hs
  have hks : ∀ k ∈ s.keysOf key n, 3 ≤ keySpace k ∧ s.keyFenced k = false ∧ s.wayTo s.curCore k = true := by
    simpa [and_assoc] using hall
  have hpass : ∀ k ∈ s.keysOf key n, s.LocalPasses own k := fun k hk =>
    ⟨(hks k hk).1, (hks k hk).2.2, hu.imp id fun h => h k hk, fun h => hown h k hk⟩
  have hsettled : m.ord ≠ .rlx → s.settled s.curCore s.curSlot = true := fun h => ho.resolve_left h
  have F := LocalReads.framed s own
  refine F.memRead F hpair ha (LocalReads.translate hp hl hkey) (fun h u hR => hR.settled hsb (hsettled fun he => ?_))
    (fun u hR => hR.keysOf key n) (LocalReads.readyLines hpass _ _ _) (fun u hR k hk => ?_) (fun h u hR => hR.settled hsb (hsettled fun he => ?_))
    hwatch fun _ k hk h3 => ?_
  · rw [he] at h
    cases h
  · rw [hsb]
    exact hR.readByte (hks k hk).1 (hks k hk).2.1 _
  · rw [he] at h
    cases h
  · have hkey3 : keySpace key = 3 := by
      by_contra hne
      exact keySpace_keysOf (by omega) hk h3
    have hbound := State.locate_bound (congrArg Prod.fst hl) hkey3
    obtain ⟨j, l, hlist⟩ := List.exists_cons_of_ne_nil (List.ne_nil_of_mem hk)
    have hj : j ∈ s.keysOf key n := hlist ▸ List.mem_cons_self
    rw [hlist, List.headD_cons, keyCore_keysOf hkey3 hbound hj] at howner
    rw [keyCore_keysOf hkey3 hbound hk]
    exact howner

end Sys2Proof.Machine
end

section
/-! SUPPORT. `ld`, `ldp` and `ldq8` (R274, R275): what they make of the bytes that their access has read. -/

namespace Sys2Proof.Machine

/-! ### The context behind a load -/

/-- A context whose instruction has read its base, marked when `p` holds, noted its place, and read bytes, one of them marked when `q` holds. -/
def Ctx.loading (x : Ctx) (p q : Bool) (ps : List Place) : Ctx := ({ x.tasted p with places := ps } : Ctx).tasted q

/-- A context without what a load changes of it before the instruction ends. -/
def Ctx.errand (x : Ctx) : Ctx := { x with g := [], p := [], marks := [], eaten := 0, places := [] }

/-- A field that `Ctx.errand` does not hide. -/
theorem Ctx.eq_of_errand {α : Type} {x y : Ctx} (f : Ctx → α) (h : y.errand = x.errand) (hf : ∀ z : Ctx, f z.errand = f z := by intro; rfl) :
    f y = f x := by
  rw [← hf y, h, hf]

theorem Ctx.loading_eaten {x : Ctx} (h : x.eaten = 0) (p q : Bool) (ps : List Place) : (x.loading p q ps).eaten = if p || q then 1 else 0 := by
  cases p <;> cases q <;> simp [Ctx.loading, Ctx.tasted, h, cirPoison]

theorem Ctx.errand_writeG (y : Ctx) (r : Nat) (v : Word) (p : Bool) : ((y.writeG r v).mark r p).errand = y.errand := by
  unfold Ctx.writeG
  split <;> rfl

theorem Ctx.eaten_writeG (y : Ctx) (r : Nat) (v : Word) (p : Bool) : ((y.writeG r v).mark r p).eaten = y.eaten := by
  unfold Ctx.writeG
  split <;> rfl

theorem Ctx.errand_writeP (y : Ctx) (r u : Nat) (v : Ptr) (p : Bool) : ((y.writeP r v).mark u p).errand = y.errand := rfl
theorem Ctx.eaten_writeP (y : Ctx) (r u : Nat) (v : Ptr) (p : Bool) : ((y.writeP r v).mark u p).eaten = y.eaten := rfl

theorem Ctx.p_writeG (y : Ctx) (r : Nat) (v : Word) (p : Bool) : ((y.writeG r v).mark r p).p = y.p := by
  unfold Ctx.writeG
  split <;> rfl

/-- How a load ends: its context counts it and goes on behind it. -/
theorem Ctx.retires_of_errand {x y : Ctx} {e : Bool} (h : y.errand = x.errand) (he : y.eaten = if e then 1 else 0) (bytes : Nat) :
    Counted x (y.retired' bytes .seq) e ∧ GoesOn x (y.retired' bytes .seq) bytes :=
  ⟨Ctx.retired'_facts x y bytes .seq e he (Ctx.eq_of_errand Ctx.cir h) (Ctx.eq_of_errand Ctx.retired h) (Ctx.eq_of_errand Ctx.halted h)
      (Ctx.eq_of_errand Ctx.stepping h) (Ctx.eq_of_errand Ctx.skid h),
    Ctx.retired'_goesOn x y bytes (Ctx.eq_of_errand Ctx.loop0 h) (Ctx.eq_of_errand Ctx.loop1 h) (Ctx.eq_of_errand Ctx.pc h)⟩

theorem PWritten.of_regs {x y z : Ctx} {d : PReg} {v : Ptr} {p : Bool} (h : PWritten x y d v p) (hp : z.p = y.p) (hg : z.g = y.g)
    (hm : z.marks = y.marks) : PWritten x z d v p := by
  obtain ⟨h1, h2, h3⟩ := h
  exact ⟨fun r => by rw [← h1, Ctx.readP, Ctx.readP, hp], fun r => by rw [← h2, Ctx.readG, Ctx.readG, hg],
    fun u => by rw [← h3, Ctx.marked, Ctx.marked, hm]⟩

/-! ### Registers written one after the other -/

/-- A context whose g registers `r i` have received `v i`, for the `i` of a list in order, each with mark `p`. -/
def Ctx.writeGs {ι : Type} (y : Ctx) (r : ι → GReg) (v : ι → Word) (p : Bool) (l : List ι) : Ctx :=
  l.foldl (fun y i => (y.writeG (r i).toNat (v i)).mark (r i).toNat p) y

section
variable {ι : Type} {r : ι → GReg} {v : ι → Word} {p : Bool}

theorem Ctx.errand_writeGs (l : List ι) : ∀ y : Ctx, (y.writeGs r v p l).errand = y.errand := by
  induction l with
  | nil => exact fun _ => rfl
  | cons i l ih => exact fun y => (ih _).trans (y.errand_writeG ..)

theorem Ctx.eaten_writeGs (l : List ι) : ∀ y : Ctx, (y.writeGs r v p l).eaten = y.eaten := by
  induction l with
  | nil => exact fun _ => rfl
  | cons i l ih => exact fun y => (ih _).trans (y.eaten_writeG ..)

theorem Ctx.p_writeGs (l : List ι) : ∀ y : Ctx, (y.writeGs r v p l).p = y.p := by
  induction l with
  | nil => exact fun _ => rfl
  | cons i l ih =>
    exact fun y => (ih _).trans (y.p_writeG ..)

theorem Ctx.readG_writeGs_other {l : List ι} {j : Nat} (h : ∀ i ∈ l, (r i).toNat ≠ j) : ∀ y : Ctx, (y.writeGs r v p l).readG j = y.readG j := by
  induction l with
  | nil => exact fun _ => rfl
  | cons i l ih =>
    refine fun y => (ih (fun a ha => h a (List.mem_cons_of_mem _ ha)) _).trans ?_
    rw [Ctx.readG_mark, Ctx.readG_writeG, if_neg]
    exact fun he => h i List.mem_cons_self he.1.symm

/-- A register that is written holds its value, when no other value is written to it. -/
theorem Ctx.readG_writeGs {l : List ι} {i : ι} (hi : i ∈ l) (h0 : (r i).toNat ≠ 0) (hv : ∀ j ∈ l, (r j).toNat = (r i).toNat → v j = v i) :
    ∀ y : Ctx, (y.writeGs r v p l).readG (r i).toNat = v i := by
  induction l generalizing i with
  | nil => cases hi
  | cons a l ih =>
    intro y
    by_cases hlater : ∃ j ∈ l, (r j).toNat = (r i).toNat
    · obtain ⟨j, hj, hji⟩ := hlater
      have hvj := hv j (List.mem_cons_of_mem _ hj) hji
      have := ih hj (hji ▸ h0) (fun b hb he => (hv b (List.mem_cons_of_mem _ hb) (he.trans hji)).trans hvj.symm)
        ((y.writeG (r a).toNat (v a)).mark (r a).toNat p)
      rw [hji, hvj] at this
      exact this
    · obtain rfl | hi := List.mem_cons.1 hi
      · refine (Ctx.readG_writeGs_other (fun b hb he => hlater ⟨b, hb, he⟩) _).trans ?_
        rw [Ctx.readG_mark, Ctx.readG_writeG, if_pos ⟨rfl, h0⟩]
      · exact absurd ⟨i, hi, rfl⟩ hlater

end

namespace Framed
variable {s : State} {R R' : State → Ctx → Prop}

theorem setGs {ι : Type} (F : Framed s R) (r : ι → GReg) (v : ι → Word) (p : Bool) (l : List ι) :
    ∀ y : Ctx, Does (R · y) (l.forM fun i => Machine.setG (r i) (v i) p) () (R · (y.writeGs r v p l)) := by
  induction l with
  | nil => exact fun y => .pure ()
  | cons i l ih => exact fun y => (F.setG (r i) (v i) p).bind (ih _)

/-! ### The loads -/

end Framed

/-- The effect of `ld` (R274). -/
def ldBody (ty : Ty) (m : MQ) (d : GReg) (b : PReg) (off : BitVec 21) : M Next := do
  let p ← regP b
  let _ ← consume [uP b]
  let r ← memRead (ea p off) (ty.width / 8) (ty.width / 8) m
  setG d (execLd.extendLoad ty (bitsOfBytes r.1)) r.2
  pure .seq

/-- The effect of `ldp` (R275). -/
def ldpBody (m : MQ) (d b : PReg) (off : BitVec 21) : M Next := do
  let p ← regP b
  let _ ← consume [uP b]
  let r ← memRead (ea p off) 16 16 m
  setP d (BitVec.ofNat 72 (bitsOfBytes r.1)) r.2
  pure .seq

/-- The register of `ldq8` for word `i`. -/
def ldq8Reg (d : BitVec 2) (i : Nat) : GReg := BitVec.ofNat 5 (8 * d.toNat + i)
/-- Word `i` of some bytes. -/
def wordOf (bs : List Byte) (i : Nat) : Word := BitVec.ofNat 64 (bitsOfBytes ((bs.drop (8 * i)).take 8))

/-- The effect of `ldq8` (R275). -/
def ldq8Body (m : MQ) (d : BitVec 2) (b : PReg) (off : BitVec 21) : M Next := do
  let p ← regP b
  let _ ← consume [uP b]
  let r ← memRead (ea p off) 64 64 m
  (List.range 8).forM fun i => setG (ldq8Reg d i) (wordOf r.1 i) r.2
  pure .seq

theorem exec_ld (ty : Ty) (m : MQ) (d : GReg) (b : PReg) (off : BitVec 21) (s : State) :
    exec (.ld ty m d b off) s = perform .any (.ld ty m d b off) (ldBody ty m d b off) s := rfl
theorem exec_ldp (m : MQ) (d b : PReg) (off : BitVec 21) (s : State) :
    exec (.ldp m d b off) s = perform .any (.ldp m d b off) (ldpBody m d b off) s := rfl
theorem exec_ldq8 (m : MQ) (d : BitVec 2) (b : PReg) (off : BitVec 21) (s : State) :
    exec (.ldq8 m d b off) s = perform .any (.ldq8 m d b off) (ldq8Body m d b off) s := rfl

/-- The value of an integer load is Ext of its bytes, of another its bytes (R189, R274). -/
theorem extendLoad_eq (ty : Ty) (x : Nat) :
    execLd.extendLoad ty x = if ty.isInt then extended ty (BitVec.ofNat _ x) else BitVec.ofNat 64 x := by
  simp only [execLd.extendLoad, ext, extended, BitVec.ofInt_natCast]

/-! ### Words of bytes -/

theorem bitsOfBytes_append (xs ys : List Byte) : bitsOfBytes (xs ++ ys) = bitsOfBytes xs + 256 ^ xs.length * bitsOfBytes ys := by
  induction xs with
  | nil => simp [bitsOfBytes]
  | cons b xs ih =>
    rw [List.cons_append, bitsOfBytes, ih, bitsOfBytes, List.length_cons, Nat.pow_succ]
    ring

theorem bitsOfBytes_drop (bs : List Byte) (n : Nat) : bitsOfBytes (bs.drop n) = bitsOfBytes bs / 256 ^ n := by
  by_cases hn : n ≤ bs.length
  · have hsplit := bitsOfBytes_append (bs.take n) (bs.drop n)
    have hlt := bitsOfBytes_lt (bs.take n)
    rw [List.take_append_drop, List.length_take, Nat.min_eq_left hn] at hsplit
    rw [List.length_take, Nat.min_eq_left hn] at hlt
    rw [hsplit, Nat.add_mul_div_left _ _ (by positivity), Nat.div_eq_of_lt hlt, Nat.zero_add]
  · have hlt := (bitsOfBytes_lt bs).trans_le (Nat.pow_le_pow_right (by decide) (le_of_not_ge hn))
    rw [Nat.div_eq_of_lt hlt, List.drop_eq_nil_of_le (le_of_not_ge hn)]
    rfl

theorem bitsOfBytes_take (bs : List Byte) (n : Nat) : bitsOfBytes (bs.take n) = bitsOfBytes bs % 256 ^ n := by
  by_cases hn : n ≤ bs.length
  · have hsplit := bitsOfBytes_append (bs.take n) (bs.drop n)
    have hlt := bitsOfBytes_lt (bs.take n)
    rw [List.take_append_drop, List.length_take, Nat.min_eq_left hn] at hsplit
    rw [List.length_take, Nat.min_eq_left hn] at hlt
    rw [hsplit, Nat.add_mul_mod_self_left, Nat.mod_eq_of_lt hlt]
  · have hlt := (bitsOfBytes_lt bs).trans_le (Nat.pow_le_pow_right (by decide) (le_of_not_ge hn))
    rw [Nat.mod_eq_of_lt hlt, List.take_of_length_le (le_of_not_ge hn)]

theorem wordOf_eq (bs : List Byte) (i : Nat) : wordOf bs i = BitVec.ofNat 64 (bitsOfBytes bs / 2 ^ (64 * i)) := by
  apply BitVec.eq_of_toNat_eq
  have hpow : (256 : Nat) ^ (8 * i) = 2 ^ (64 * i) := by
    rw [show (256 : Nat) = 2 ^ 8 from rfl, ← pow_mul]
    congr 1
    omega
  rw [wordOf, bitsOfBytes_take, bitsOfBytes_drop, hpow, BitVec.toNat_ofNat, BitVec.toNat_ofNat]
  exact Nat.mod_mod _ _

theorem ldq8Reg_toNat (d : BitVec 2) {i : Nat} (hi : i < 8) : (ldq8Reg d i).toNat = 8 * d.toNat + i := by
  have := d.isLt
  rw [ldq8Reg, BitVec.toNat_ofNat]
  omega

/-! ### What the loads do -/

namespace Framed

/-- A load, or a probe, that ends with a write of one g register. -/
theorem endsG {s : State} {R : State → Ctx → Prop} (F : Framed s R) (hs : s.steady = true) {P : State → Prop} {i : Instr} {body : M Next} {d : GReg}
    {v : Word} {p q mark : Bool} {ps : List Place} (he : exec i s = perform .any i body s) (h0 : P s)
    (hb : Does P body .seq (R · (((s.now.loading p q ps).writeG d.toNat v).mark d.toNat mark))) :
    ∃ t, exec i s = .next t ∧ (∃ y, R t y) ∧ Retires (instrBytes i) (p || q) s t ∧ GWritten s.now t.now d v mark ∧
      t.now.fpstat = s.now.fpstat ∧ ({ t.now.aside with g := [], marks := [] } : Ctx) = { s.now.aside with g := [], marks := [] } := by
  obtain ⟨-, h1, h2, h3, -⟩ := State.steady_iff hs
  have herr : (((s.now.loading p q ps).writeG d.toNat v).mark d.toNat mark).errand = s.now.errand := Ctx.errand_writeG ..
  have heaten := (Ctx.eaten_writeG (s.now.loading p q ps) d.toNat v mark).trans (Ctx.loading_eaten h3 _ _ _)
  obtain ⟨t, ht, hR, hnow⟩ := F.completes hs he h0 hb ((Ctx.eq_of_errand Ctx.step1 herr).trans h1) ((Ctx.eq_of_errand Ctx.after herr).trans h2)
  refine ⟨t, ht, ⟨_, hR⟩, ?_, ?_, ?_, ?_⟩
  · rw [Retires, hnow]
    exact Ctx.retires_of_errand herr heaten _
  · rw [hnow]
    refine GWritten.retired ((Ctx.gDone_written s.now mark d v 0).of_regs ?_ ?_ ?_) _ _ <;> rw [Ctx.gDone] <;> unfold Ctx.writeG <;>
      split <;> rfl
  · rw [hnow, Ctx.retired'_fpstat]
    exact Ctx.eq_of_errand Ctx.fpstat herr
  · rw [hnow, Ctx.retired'_aside]
    unfold Ctx.writeG
    split <;> rfl

section
variable {s : State} {R R' : State → Ctx → Prop} (F : Framed s R) (F' : Framed s R') (hs : s.steady = true) (h0 : R s s.now) {b : PReg}
  {off : BitVec 21} {m : MQ} {ps : List Place} {bs : List (Byte × Bool)}
include F F' hs h0

theorem ld {ty : Ty} {d : GReg}
    (hm : Does (R · (s.now.tasted (s.now.anyMarked [uP b]))) (Machine.memRead (ea (s.now.readP b.toNat) off) (ty.width / 8) (ty.width / 8) m)
      (bs.map (·.1), bs.any (·.2)) (R' · (s.now.loading (s.now.anyMarked [uP b]) (bs.any (·.2)) ps))) :
    ∃ t, exec (.ld ty m d b off) s = .next t ∧ (∃ y, R' t y) ∧ Retires 8 (s.now.anyMarked [uP b] || bs.any (·.2)) s t ∧
      GWritten s.now t.now d (if ty.isInt then extended ty (BitVec.ofNat _ (bitsOfBytes (bs.map (·.1)))) else
        BitVec.ofNat 64 (bitsOfBytes (bs.map (·.1)))) (bs.any (·.2)) ∧
      ({ t.now.aside with g := [], marks := [] } : Ctx) = { s.now.aside with g := [], marks := [] } := by
  generalize hv : execLd.extendLoad ty (bitsOfBytes (bs.map (·.1))) = v
  rw [← extendLoad_eq, hv]
  have hbody : Does (R · s.now) (ldBody ty m d b off) .seq (R' · (((s.now.loading (s.now.anyMarked [uP b]) (bs.any (·.2)) ps).writeG d.toNat v).mark
      d.toNat (bs.any (·.2)))) := by
    refine (F.regP b).bind ((F.consume [uP b]).bind (hm.bind ?_))
    dsimp only
    rw [hv]
    exact (F'.setG d v _).bind (.pure _)
  obtain ⟨t, ht, hR, hret, hw, -, haside⟩ := F'.endsG hs (exec_ld ty m d b off s) h0 hbody
  exact ⟨t, ht, hR, hret, hw, haside⟩

theorem ldp {d : PReg}
    (hm : Does (R · (s.now.tasted (s.now.anyMarked [uP b]))) (Machine.memRead (ea (s.now.readP b.toNat) off) 16 16 m)
      (bs.map (·.1), bs.any (·.2)) (R' · (s.now.loading (s.now.anyMarked [uP b]) (bs.any (·.2)) ps))) :
    ∃ t, exec (.ldp m d b off) s = .next t ∧ (∃ y, R' t y) ∧ Retires 8 (s.now.anyMarked [uP b] || bs.any (·.2)) s t ∧
      PWritten s.now t.now d (BitVec.ofNat 72 (bitsOfBytes (bs.map (·.1)))) (bs.any (·.2)) ∧
      ({ t.now.aside with p := [], marks := [] } : Ctx) = { s.now.aside with p := [], marks := [] } := by
  obtain ⟨-, h1, h2, h3, -⟩ := State.steady_iff hs
  generalize hv : BitVec.ofNat 72 (bitsOfBytes (bs.map (·.1))) = v
  have hbody : Does (R · s.now) (ldpBody m d b off) .seq (R' · (((s.now.loading (s.now.anyMarked [uP b]) (bs.any (·.2)) ps).writeP d.toNat
      v).mark (32 + d.toNat) (bs.any (·.2)))) := by
    refine (F.regP b).bind ((F.consume [uP b]).bind (hm.bind ?_))
    dsimp only
    rw [hv]
    exact (F'.setP d _ _).bind (.pure _)
  have herr : (((s.now.loading (s.now.anyMarked [uP b]) (bs.any (·.2)) ps).writeP d.toNat
      v).mark (32 + d.toNat) (bs.any (·.2))).errand = s.now.errand := Ctx.errand_writeP ..
  obtain ⟨t, ht, hR, hnow⟩ := F'.completes hs (exec_ldp m d b off s) h0 hbody ((Ctx.eq_of_errand Ctx.step1 herr).trans h1)
    ((Ctx.eq_of_errand Ctx.after herr).trans h2)
  refine ⟨t, ht, ⟨_, hR⟩, ?_, ?_, ?_⟩
  · rw [Retires, hnow]
    exact Ctx.retires_of_errand herr ((Ctx.eaten_writeP ..).trans (Ctx.loading_eaten h3 _ _ _)) 8
  · rw [hnow]
    refine (Ctx.pDone_written s.now (bs.any (·.2)) d v).of_regs ?_ ?_ ?_ <;> rw [Ctx.retired'_eq] <;> rfl
  · rw [hnow, Ctx.retired'_aside]
    simp only [Ctx.aside, Ctx.mark, Ctx.writeP, Ctx.loading, Ctx.tasted]

theorem ldq8 {q : BitVec 2}
    (hm : Does (R · (s.now.tasted (s.now.anyMarked [uP b]))) (Machine.memRead (ea (s.now.readP b.toNat) off) 64 64 m)
      (bs.map (·.1), bs.any (·.2)) (R' · (s.now.loading (s.now.anyMarked [uP b]) (bs.any (·.2)) ps))) :
    ∃ t, exec (.ldq8 m q b off) s = .next t ∧ (∃ y, R' t y) ∧ Retires 8 (s.now.anyMarked [uP b] || bs.any (·.2)) s t ∧
      (∀ i < 8, q.toNat * 8 + i ≠ 0 → t.now.readG (q.toNat * 8 + i) = BitVec.ofNat 64 (bitsOfBytes (bs.map (·.1)) / 2 ^ (64 * i))) ∧
      (∀ r : GReg, r.toNat / 8 ≠ q.toNat → t.now.readG r.toNat = s.now.readG r.toNat) ∧
      ∀ r : PReg, t.now.readP r.toNat = s.now.readP r.toNat := by
  obtain ⟨-, h1, h2, h3, -⟩ := State.steady_iff hs
  have hbody : Does (R · s.now) (ldq8Body m q b off) .seq (R' · ((s.now.loading (s.now.anyMarked [uP b]) (bs.any (·.2)) ps).writeGs (ldq8Reg q)
      (wordOf (bs.map (·.1))) (bs.any (·.2)) (List.range 8))) := by
    refine (F.regP b).bind ((F.consume [uP b]).bind (hm.bind ?_))
    dsimp only
    exact (F'.setGs (ldq8Reg q) _ _ (List.range 8) _).bind (.pure _)
  have herr : ((s.now.loading (s.now.anyMarked [uP b]) (bs.any (·.2)) ps).writeGs (ldq8Reg q) (wordOf (bs.map (·.1))) (bs.any (·.2))
    (List.range 8)).errand = s.now.errand := Ctx.errand_writeGs ..
  have heaten := (Ctx.eaten_writeGs (r := ldq8Reg q) (v := wordOf (bs.map (·.1))) (p := bs.any (·.2)) (List.range 8)
    (s.now.loading (s.now.anyMarked [uP b]) (bs.any (·.2)) ps)).trans (Ctx.loading_eaten h3 _ _ _)
  obtain ⟨t, ht, hR, hnow⟩ := F'.completes hs (exec_ldq8 m q b off s) h0 hbody ((Ctx.eq_of_errand Ctx.step1 herr).trans h1)
    ((Ctx.eq_of_errand Ctx.after herr).trans h2)
  have hreg : ∀ i ∈ List.range 8, (ldq8Reg q i).toNat = 8 * q.toNat + i := fun i hi => ldq8Reg_toNat q (List.mem_range.1 hi)
  refine ⟨t, ht, ⟨_, hR⟩, ?_, fun i hi hne => ?_, fun r hr => ?_, fun r => ?_⟩
  · rw [Retires, hnow]
    exact Ctx.retires_of_errand herr heaten 8
  · have hmem := List.mem_range.2 hi
    rw [hnow, Ctx.retired'_readG, ← wordOf_eq, Nat.mul_comm, ← hreg i hmem]
    refine Ctx.readG_writeGs hmem (by rw [hreg i hmem]; omega) (fun j hj he => ?_) _
    rw [hreg i hmem, hreg j hj] at he
    rw [Nat.add_left_cancel he]
  · rw [hnow, Ctx.retired'_readG, Ctx.readG_writeGs_other fun i hi => ?_]
    · rfl
    · rw [hreg i hi]
      have := List.mem_range.1 hi
      omega
  · rw [hnow, Ctx.retired'_readP, Ctx.readP, Ctx.p_writeGs]
    rfl

/-- The three loads of an access of `n` bytes at `va`, with what `frame` says of the machine behind them. -/
theorem loads {va : Ptr} {n : Nat} {frame : State → Prop} (hva : va = ea (s.now.readP b.toNat) off) (hfr : ∀ t y, R' t y → frame t)
    (hm : Does (R · (s.now.tasted (s.now.anyMarked [uP b]))) (Machine.memRead va n n m) (bs.map (·.1), bs.any (·.2))
      (R' · (s.now.loading (s.now.anyMarked [uP b]) (bs.any (·.2)) ps))) (ty : Ty) (d : GReg) (e : PReg) (q : BitVec 2) :
    (n = ty.width / 8 → ∃ t, exec (.ld ty m d b off) s = .next t ∧ frame t ∧ Retires 8 (s.now.anyMarked [uP b] || bs.any (·.2)) s t ∧
      GWritten s.now t.now d (if ty.isInt then extended ty (BitVec.ofNat _ (bitsOfBytes (bs.map (·.1)))) else
        BitVec.ofNat 64 (bitsOfBytes (bs.map (·.1)))) (bs.any (·.2)) ∧
      ({ t.now.aside with g := [], marks := [] } : Ctx) = { s.now.aside with g := [], marks := [] }) ∧
    (n = 16 → ∃ t, exec (.ldp m e b off) s = .next t ∧ frame t ∧ Retires 8 (s.now.anyMarked [uP b] || bs.any (·.2)) s t ∧
      PWritten s.now t.now e (BitVec.ofNat 72 (bitsOfBytes (bs.map (·.1)))) (bs.any (·.2)) ∧
      ({ t.now.aside with p := [], marks := [] } : Ctx) = { s.now.aside with p := [], marks := [] }) ∧
    (n = 64 → ∃ t, exec (.ldq8 m q b off) s = .next t ∧ frame t ∧ Retires 8 (s.now.anyMarked [uP b] || bs.any (·.2)) s t ∧
      (∀ i < 8, q.toNat * 8 + i ≠ 0 → t.now.readG (q.toNat * 8 + i) = BitVec.ofNat 64 (bitsOfBytes (bs.map (·.1)) / 2 ^ (64 * i))) ∧
      (∀ r : GReg, r.toNat / 8 ≠ q.toNat → t.now.readG r.toNat = s.now.readG r.toNat) ∧
      ∀ r : PReg, t.now.readP r.toNat = s.now.readP r.toNat) := by
  subst hva
  refine ⟨fun hn => ?_, fun hn => ?_, fun hn => ?_⟩ <;> subst hn
  · obtain ⟨t, ht, ⟨y, hR⟩, hrest⟩ := ld F F' hs h0 hm
    exact ⟨t, ht, hfr t y hR, hrest⟩
  · obtain ⟨t, ht, ⟨y, hR⟩, hrest⟩ := ldp F F' hs h0 hm
    exact ⟨t, ht, hfr t y hR, hrest⟩
  · obtain ⟨t, ht, ⟨y, hR⟩, hrest⟩ := ldq8 F F' hs h0 hm
    exact ⟨t, ht, hfr t y hR, hrest⟩

end
end Framed

end Sys2Proof.Machine
end

section
/-! SUPPORT. Loads from local space (R274, R275): the frame of their statement. -/

namespace Sys2Proof.Machine

section
variable {s t : State} {own : Prop} {y : Ctx}

/-- What a steady context keeps from no earlier try (R229). -/
theorem State.steady_fresh (h : s.steady = true) : s.now.fetched = [] ∧ s.now.places = [] := by
  simp [State.steady] at h
  simp [h]

theorem LocalReads.sameOutside (h : LocalReads s own t y) : SameOutside (fun k => { k with injUse := 0 }) id s t := by
  obtain ⟨v, x, h, -, -⟩ := h
  exact h.sameOutside _ rfl

theorem LocalReads.onlyHere (h : LocalReads s own t y) (ho : own) : OnlyHere s t := by
  obtain ⟨v, x, h, -, hv⟩ := h
  refine h.onlyHere ?_
  rw [hv ho]

theorem LocalReads.peek (h : LocalReads s own t y) (k : Nat) : t.peek k = s.peek k := h.state_part (State.peek · k)

end

end Sys2Proof.Machine
end

section
/-! SUPPORT. Loads from the memory of this device (R69, R71, R112, R138, R144, R145), as effects of the issuing context. -/

namespace Sys2Proof.Machine

/-! ### The frame of an access through the tables -/

/-- A core without its TLB, its first-level cache, and what it has used of its budgets. -/
def Core.unread (k : Core) : Core := { k with tlb := [], dramUse := 0, injUse := 0, cv := [] }
/-- The machine without its fields and slices. -/
def State.unread (s : State) : State := { s with fields := [], slices := [] }

/-- From `s` to `t` the issuing context has become `y`, and accesses through the tables have been made; the first-level cache of the core holds
`cv`. -/
structure DeviceReads (s : State) (cv : Assoc (Assoc CvByte)) (t : State) (y : Ctx) : Prop where
  outside : SameOutside Core.unread State.unread s t
  ctx : (t.ctx s.curCore s.curSlot).untried = y
  meshOpen : ∀ r, t.meshOpen s.curCore r = s.meshOpen s.curCore r
  cv : (t.core s.curCore).cv = cv

section
variable {s t u : State} {cv cv' : Assoc (Assoc CvByte)} {y : Ctx}

/-- A part of a core that accesses through the tables leave alone. -/
theorem DeviceReads.core_part {α : Type} (h : DeviceReads s cv t y) (f : Core → α) (c : Nat)
    (hf : ∀ k : Core, f k.bare.unread = f k := by intro; rfl) : f (t.core c) = f (s.core c) := by
  obtain ⟨-, hcore, -⟩ := h.outside
  rw [← hf (t.core c), hcore c, hf]

/-- A part of the machine that they leave alone. -/
theorem DeviceReads.state_part {α : Type} (h : DeviceReads s cv t y) (f : State → α) (hf : ∀ b : State, f b.bare.unread = f b := by intro; rfl) :
    f t = f s := by
  obtain ⟨-, -, hrest⟩ := h.outside
  rw [← hf t, hrest, hf]

theorem DeviceReads.curCore (h : DeviceReads s cv t y) : t.curCore = s.curCore := h.state_part State.curCore
theorem DeviceReads.curSlot (h : DeviceReads s cv t y) : t.curSlot = s.curSlot := h.state_part State.curSlot
theorem DeviceReads.peek (h : DeviceReads s cv t y) (k : Nat) : t.peek k = s.peek k := h.state_part (State.peek · k)
theorem DeviceReads.poisoned (h : DeviceReads s cv t y) (k : Nat) : t.poisoned k = s.poisoned k := h.state_part (State.poisoned · k)

theorem DeviceReads.refl (hf : s.now.fetched = []) : DeviceReads s s.here.cv s s.now := by
  refine ⟨⟨fun _ _ _ => rfl, fun _ => rfl, rfl⟩, ?_, fun _ => rfl, rfl⟩
  rw [Ctx.untried, ← hf]
  rfl

/-- The core gets another TLB, another first-level cache, or has used more of its budgets. -/
theorem DeviceReads.setCore (h : DeviceReads s cv t y) {k : Core} (hk : k.unread = (t.core s.curCore).unread) (hcv : k.cv = cv') :
    DeviceReads s cv' (t.setCore s.curCore k) y := by
  obtain ⟨hctx, hcore, hrest⟩ := h.outside
  have hslots : k.ctxs = (t.core s.curCore).ctxs := by
    have := congrArg Core.ctxs hk
    exact this
  have hslot (n : Nat) : k.ctx n = (t.core s.curCore).ctx n := by rw [Core.ctx, hslots, Core.ctx]
  refine ⟨⟨fun c n hn => ?_, fun c => ?_, hrest⟩, ?_, h.meshOpen, ?_⟩
  · rw [State.ctx, State.core_setCore]
    split
    · next hc =>
      rw [hslot, ← hctx c n hn, hc]
      rfl
    · exact hctx c n hn
  · rw [State.core_setCore]
    split
    · next hc =>
      rw [hc, ← hcore]
      exact congrArg Core.bare hk
    · exact hcore c
  · rw [State.ctx, State.core_setCore_same, hslot]
    exact h.ctx
  · rw [State.core_setCore_same, hcv]

theorem DeviceReads.setCtx (h : DeviceReads s cv t y) (z : Ctx) : DeviceReads s cv (t.setCtx s.curCore s.curSlot z) z.untried := by
  obtain ⟨hctx, hcore, hrest⟩ := h.outside
  refine ⟨⟨fun c n hn => ?_, fun c => ?_, hrest⟩, ?_, h.meshOpen, ?_⟩
  · rw [State.ctx_setCtx, if_neg hn]
    exact hctx c n hn
  · rw [State.core_setCtx]
    split
    · next hc =>
      rw [hc, ← hcore]
      rfl
    · exact hcore c
  · rw [State.ctx_setCtx, if_pos ⟨rfl, rfl⟩]
  · rw [State.core_setCtx, if_pos rfl]
    exact h.cv

theorem DeviceReads.framed (s : State) (cv : Assoc (Assoc CvByte)) : Framed s (DeviceReads s cv) where
  curCore := DeviceReads.curCore
  curSlot := DeviceReads.curSlot
  ctx := DeviceReads.ctx
  pair := fun h => h.core_part Core.pair s.curCore
  watches := fun h => h.core_part Core.watches
  setCtx := DeviceReads.setCtx

/-- A translation from there. -/
theorem DeviceReads.walks (h : DeviceReads s cv t y) (hw : Walks s.curCore t u) : DeviceReads s cv u y := by
  obtain ⟨hctx, hcore, hrest⟩ := h.outside
  have hslots (c : Nat) : (u.core c).ctxs = (t.core c).ctxs := by
    have := congrArg Core.ctxs (hw.core c)
    exact this
  have hslot (c n : Nat) : u.ctx c n = t.ctx c n := by rw [State.ctx, Core.ctx, hslots]; rfl
  refine ⟨⟨fun c n hn => (hslot c n).trans (hctx c n hn), fun c => ?_, ?_⟩, (congrArg Ctx.untried (hslot _ _)).trans h.ctx,
    fun r => (hw.meshOpen r).trans (h.meshOpen r), ?_⟩
  · have := congrArg (fun k : Core => k.bare.unread) (hw.core c)
    rw [← hcore]
    exact this
  · have := congrArg (fun s : State => s.bare.unread) hw.rest
    rw [← hrest]
    exact this
  · rw [← h.cv]
    have := congrArg Core.cv (hw.core s.curCore)
    exact this

/-- A change of the slices. -/
theorem DeviceReads.slices (h : DeviceReads s cv t y) (l : Assoc Slice) : DeviceReads s cv { t with slices := l } y :=
  ⟨h.outside, h.ctx, h.meshOpen, h.cv⟩

theorem State.touchSlice_slices (t : State) (c key : Nat) (keep : Bool) : ∃ l, t.touchSlice c key keep = { t with slices := l } := by
  simp only [State.touchSlice]
  split_ifs <;> exact ⟨_, rfl⟩

theorem DeviceReads.touchSlice (h : DeviceReads s cv t y) (c key : Nat) (keep : Bool) : DeviceReads s cv (t.touchSlice c key keep) y := by
  obtain ⟨l, hl⟩ := t.touchSlice_slices c key keep
  rw [hl]
  exact h.slices l

theorem DeviceReads.touchAll (c : Nat) (ks : List Nat) : ∀ {t : State}, DeviceReads s cv t y → DeviceReads s cv (t.touchAll c ks) y := by
  induction ks with
  | nil => exact id
  | cons k ks ih => exact fun h => ih (h.touchSlice c k false)

/-! ### Charges -/

/-- A charge that nothing holds back, which no walk can tell. -/
theorem DeviceReads.charge (ht : DeviceReads s cv t y) (hu : s.here.unlimited s.curSlot) (lines flits : Nat) :
    ∃ u, Machine.budgetFor lines flits none t = .ok ((), u) ∧ DeviceReads s cv u y ∧
      ∃ k : Core, (u = t ∨ u = t.setCore s.curCore k) ∧ k.split = (t.core s.curCore).split ∧ k.held = (t.core s.curCore).held ∧
        k.bootMode = (t.core s.curCore).bootMode ∧ k.tlb = (t.core s.curCore).tlb := by
  have hun : (t.core t.curCore).unlimited t.curSlot := by
    rw [ht.curCore, ht.curSlot, ht.core_part (Core.unlimited · s.curSlot)]
    exact hu
  obtain ⟨u, hm, hor⟩ := State.meter_unlimited hun lines flits
  refine ⟨u, budgetFor_apply hm, ?_⟩
  obtain rfl | rfl := hor
  · exact ⟨ht, u.core s.curCore, .inl rfl, rfl, rfl, rfl, rfl⟩
  · rw [ht.curCore]
    exact ⟨ht.setCore rfl ht.cv, _, .inr rfl, rfl, rfl, rfl, rfl⟩

theorem DeviceReads.budgetFor (hu : s.here.unlimited s.curSlot) (lines flits : Nat) :
    Does (DeviceReads s cv · y) (Machine.budgetFor lines flits none) () (DeviceReads s cv · y) := by
  intro t ht
  obtain ⟨u, hb, hR, -⟩ := ht.charge hu lines flits
  exact ⟨u, hb, hR⟩

theorem DeviceReads.wayTo (h : DeviceReads s cv t y) (ho : s.allOpen) (key : Nat) : t.wayTo t.curCore key = true := by
  have hopen (r : Nat) : t.meshOpen t.curCore r = true := by rw [h.curCore, h.meshOpen, ho]
  unfold State.wayTo
  split <;> simp [hopen]

theorem DeviceReads.meshWay (ho : s.allOpen) (key : Nat) : Does (DeviceReads s cv · y) (meshWay key) () (DeviceReads s cv · y) :=
  Does.of_apply fun _ ht => meshWay_apply (ht.wayTo ho key)

/-! ### Translations -/

/-- Before its address is translated, an instruction has read no more than registers, and been charged. -/
structure Fresh (s t : State) (y : Ctx) : Prop where
  reads : DeviceReads s s.here.cv t y
  alike : Alike s t

theorem Alike.of_cores (h : Alike s t) (hf : u.flash = t.flash) (hfi : u.fields = t.fields) (hsl : u.slices = t.slices) (hm : u.mem = t.mem)
    (hp : u.podcfg = t.podcfg) (hme : u.members = t.members) (hs : ∀ c, (u.core c).split = (t.core c).split)
    (hh : ∀ c, (u.core c).held = (t.core c).held) (hb : ∀ c, (u.core c).bootMode = (t.core c).bootMode)
    (ht : ∀ c, (u.core c).tlb = (t.core c).tlb) : Alike s u :=
  ⟨hf.trans h.flash, hfi.trans h.fields, hsl.trans h.slices, hm.trans h.mem, hp.trans h.podcfg, hme.trans h.members,
    fun c => (hs c).trans (h.split c), fun c => (hh c).trans (h.held c), fun c => (hb c).trans (h.bootMode c), fun c => (ht c).trans (h.tlb c)⟩

/-- Another core in place of one that a walk cannot tell from it. -/
theorem Alike.setCore (h : Alike s t) {c : Nat} {k : Core} (hs : k.split = (t.core c).split) (hh : k.held = (t.core c).held)
    (hb : k.bootMode = (t.core c).bootMode) (ht : k.tlb = (t.core c).tlb) : Alike s (t.setCore c k) := by
  refine h.of_cores rfl rfl rfl rfl rfl rfl (fun d => ?_) (fun d => ?_) (fun d => ?_) (fun d => ?_) <;> rw [State.core_setCore] <;> split
  · next hd => rw [hs, hd]
  · rfl
  · next hd => rw [hh, hd]
  · rfl
  · next hd => rw [hb, hd]
  · rfl
  · next hd => rw [ht, hd]
  · rfl

theorem Fresh.framed (s : State) : Framed s (Fresh s) where
  curCore := fun h => h.reads.curCore
  curSlot := fun h => h.reads.curSlot
  ctx := fun h => h.reads.ctx
  pair := fun h => (DeviceReads.framed s _).pair h.reads
  watches := fun h => (DeviceReads.framed s _).watches h.reads
  setCtx := fun h z => ⟨h.reads.setCtx z, h.alike.setCore rfl rfl rfl rfl⟩

theorem Fresh.budgetFor (hu : s.here.unlimited s.curSlot) (lines flits : Nat) :
    Does (Fresh s · y) (Machine.budgetFor lines flits none) () (Fresh s · y) := by
  intro t ht
  obtain ⟨u, hb, hR, k, hor, h1, h2, h3, h4⟩ := ht.reads.charge hu lines flits
  refine ⟨u, hb, hR, ?_⟩
  obtain rfl | rfl := hor
  · exact ht.alike
  · exact ht.alike.setCore h1 h2 h3 h4

/-- The entries that the walk reads are charged, if there are any. -/
theorem Fresh.walkFor (hu : s.here.unlimited s.curSlot) (ho : s.allOpen) (va : Nat) :
    Does (Fresh s · y) (walkFor va) (s.walkReads s.curCore s.curSlot va) (Fresh s · y) := by
  refine Does.get_bind fun t ht => ?_
  rw [ht.reads.curCore, ht.reads.curSlot, ht.alike.walkReads]
  refine Does.bind (Does.forM fun k _ => Does.of_apply fun u hu => meshWay_apply (hu.reads.wayTo ho k)) ?_
  exact Does.when_then (fun _ => Fresh.budgetFor hu _ _) (.pure _)

theorem Fresh.located (h : Fresh s t y) (va n : Nat) (k : Access) (reads : List Nat) :
    DeviceReads s s.here.cv ((t.locate t.curCore t.curSlot va n k).2.touchAll t.curCore reads) y := by
  refine DeviceReads.touchAll _ _ (h.reads.walks ?_)
  rw [h.reads.curCore]
  exact Walks.locate ..

/-- An access whose tables lead to this device's memory notes its place. -/
theorem Fresh.translate (hu : s.here.unlimited s.curSlot) (ho : s.allOpen) {va n key : Nat} {k : Access} (hp : y.places = [])
    (hl : (s.locate s.curCore s.curSlot va n k).1 = .at_ key) (hk : keySpace key = 0) :
    Does (Fresh s · y) (translate va n k) key (DeviceReads s s.here.cv · { y with places := [⟨va, k, key, 0⟩] }) := by
  intro t ht
  obtain ⟨u, hw, hR⟩ := Fresh.walkFor hu ho va t ht
  have hc := ht.reads.curCore
  have hn := ht.reads.curSlot
  have hplaces : (t.ctx t.curCore t.curSlot).places = [] := by
    have hx := congrArg Ctx.places ht.reads.ctx
    rw [hc, hn, ← hp]
    exact hx
  have hloc : u.locate t.curCore t.curSlot va n k = (.at_ key, (u.locate u.curCore u.curSlot va n k).2) := by
    rw [hc, hn, hR.reads.curCore, hR.reads.curSlot]
    exact Prod.ext ((hR.alike.locate ..).1.trans hl) rfl
  refine ⟨_, translate_apply hplaces hw hloc, ?_⟩
  have hdone := hR.located va n k (s.walkReads s.curCore s.curSlot va)
  rw [if_pos (by omega), if_neg (by omega), hc]
  rw [hR.reads.curCore] at hdone ⊢
  generalize (u.locate s.curCore u.curSlot va n k).2.touchAll s.curCore (s.walkReads s.curCore s.curSlot va) = v at hdone
  have hx := hdone.ctx
  rw [State.noted, hdone.curCore, hdone.curSlot]
  have hset := hdone.setCtx { v.ctx s.curCore s.curSlot with places := (v.ctx s.curCore s.curSlot).places ++ [⟨va, k, key, 0⟩] }
  have hy : ({ v.ctx s.curCore s.curSlot with places := (v.ctx s.curCore s.curSlot).places ++ [⟨va, k, key, 0⟩] } : Ctx).untried =
      { y with places := [⟨va, k, key, 0⟩] } := by
    have hnil : (v.ctx s.curCore s.curSlot).places = [] := (congrArg Ctx.places hx).trans hp
    rw [hnil, ← hx]
    rfl
  rw [hy] at hset
  exact hset

/-! ### The line of a load from this device's memory -/

/-- What a first-level cache holds of a key's byte, with the mark of its sector. -/
def cvSees (cv : Assoc (Assoc CvByte)) (k : Nat) : Option (Byte × Bool) :=
  (Assoc.find ((Assoc.find cv (lineOf k)).getD []) (k % 64)).map fun x => (x.val, cvMarked ((Assoc.find cv (lineOf k)).getD []) (k % 64))

/-- What a context reads at a key of this device's memory: its own youngest store, the first-level cache, or memory (R145). -/
def State.deviceSees (s : State) (cv : Assoc (Assoc CvByte)) (k : Nat) : Byte × Bool :=
  ((sbByte s.now.sb k).orElse fun _ => cvSees cv k).getD (s.peek k, s.poisoned k)

/-- The first-level cache with a line that is as memory has it. -/
def State.filledCv (s : State) (line : Nat) : Assoc (Assoc CvByte) :=
  Assoc.put s.here.cv line ((List.range 64).map fun i => (i, ⟨s.peek (line * 64 + i), false, s.poisoned (line * 64 + i)⟩))

theorem DeviceReads.readByte (h : DeviceReads s cv t y) {k : Nat} (hk : keySpace k = 0) :
    Machine.readByte t s.now.sb false k = s.deviceSees cv k ∧ t.keyFenced k = false ∧ t.gone s.now.sb false k = false := by
  have hfence : t.keyFenced k = false := by rw [State.keyFenced, hk]; rfl
  refine ⟨?_, hfence, ?_⟩
  · have hline : (t.core t.curCore).line (lineOf k) = (Assoc.find cv (lineOf k)).getD [] := by rw [h.curCore, Core.line, h.cv]
    rw [Machine.readByte, State.deviceSees]
    cases sbByte s.now.sb k with
    | some b => rfl
    | none =>
      simp only [hk, hline, h.peek, h.poisoned, cvSees, Bool.false_eq_true, if_false]
      cases Assoc.find ((Assoc.find cv (lineOf k)).getD []) (k % 64) <;> rfl
  · rw [State.gone, hfence, hk]
    split <;> rfl

/-- The marks of a filled line are those of memory's sectors (R191, R193). -/
theorem cvSees_filledCv {s : State} {k : Nat} (hk : keySpace k = 0) : cvSees (s.filledCv (lineOf k)) k = some (s.peek k, s.poisoned k) := by
  have hoff : k % 64 < 64 := Nat.mod_lt _ (by decide)
  have hkey : lineOf k * 64 + k % 64 = k := by simp only [lineOf]; omega
  have hsector (i : Nat) (hi : i < 64) (h : i / 32 = k % 64 / 32) : s.poisoned (lineOf k * 64 + i) = s.poisoned k := by
    have hunit (j : Nat) (hj : keySpace j = 0) : unitOf j = 32 := by rw [unitOf, hj]; rfl
    have hspace : keySpace (lineOf k * 64 + i) = 0 := by
      simp only [keySpace, lineOf] at hk ⊢
      omega
    rw [State.poisoned, State.poisoned, hunit _ hspace, hunit _ hk]
    congr 1
    simp only [lineOf]
    omega
  have hmark : cvMarked ((List.range 64).map fun i => (i, ⟨s.peek (lineOf k * 64 + i), false, s.poisoned (lineOf k * 64 + i)⟩)) (k % 64) =
      s.poisoned k := by
    rw [cvMarked, List.any_map, Bool.eq_iff_iff, List.any_eq_true]
    constructor
    · rintro ⟨i, hi, h⟩
      simp only [Function.comp_apply, Bool.and_eq_true, decide_eq_true_eq] at h
      rw [← hsector i (List.mem_range.1 hi) h.1]
      exact h.2
    · intro hp
      refine ⟨k % 64, List.mem_range.2 hoff, ?_⟩
      simp only [Function.comp_apply, hkey, hp, decide_true, Bool.and_self]
  rw [cvSees, State.filledCv, Assoc.find_put, if_pos rfl, Option.getD_some, Assoc.find_range_map _ hoff, hmark, hkey]
  rfl

theorem DeviceReads.request (hu : s.here.unlimited s.curSlot) (ho : s.allOpen) {key : Nat} (hk : keySpace key = 0) :
    Does (DeviceReads s cv · y) (Machine.request key) () (DeviceReads s cv · y) := by
  have hreach (port : Nat) : reach s.curCore key port = (1, 2, none) := by
    rw [reach, hk]
    rfl
  refine (DeviceReads.meshWay ho key).bind ((DeviceReads.framed s cv).me_bind (Does.get_bind fun t _ => ?_))
  dsimp only
  rw [hreach]
  exact Does.when fun _ => DeviceReads.budgetFor hu 1 2

theorem DeviceReads.chargeLine (hu : s.here.unlimited s.curSlot) (ho : s.allOpen) {line : Nat} (hk : keySpace (line * 64) = 0) :
    Does (DeviceReads s cv · y) (Machine.chargeLine line) () (DeviceReads s cv · y) := by
  refine (DeviceReads.framed s cv).getCtx_bind fun x _ => (DeviceReads.framed s cv).me_bind ?_
  refine Does.when fun _ => (DeviceReads.request hu ho hk).bind (Does.when fun _ => ?_)
  exact (DeviceReads.framed s cv).modCtx fun z hz => hz

/-- A line that the cache does not hold is filled from memory. -/
theorem DeviceReads.fill (h : DeviceReads s s.here.cv t y) {line : Nat} (hk : keySpace (line * 64) = 0)
    (hn : Assoc.find s.here.cv line = none) : DeviceReads s (s.filledCv line) (t.fill s.curCore line) y := by
  have hfilled (i : Nat) : t.filledByte s.curCore line i = ⟨s.peek (line * 64 + i), false, s.poisoned (line * 64 + i)⟩ := by
    rw [State.filledByte, Core.line, h.cv, hn, h.peek, h.poisoned]
    rfl
  rw [State.fill_eq (by rwa [Nat.mul_comm])]
  simp only [hfilled]
  refine h.setCore rfl ?_
  rw [h.cv]
  rfl

/-- The line is ready when the store buffer or the first-level cache gives every byte. -/
theorem readyLine_held {sb : List SbEntry} {keep : Bool} {line : Nat} {offs : List Nat} (hk : keySpace (line * 64) = 0) (hb : t.biPending = [])
    (h : (offs.all fun o => (sbByte sb (line * 64 + o)).isSome) = true ∨
      (offs.all fun o => (Assoc.find ((t.core t.curCore).line line) o).isSome) = true) :
    readyLine sb false keep line offs t = .ok ((), t) := by
  simp only [readyLine, M.bind_apply, M.get_apply, M.andThen_ok, M.ite_apply, M.pure_apply, hk, hb]
  obtain h | h := h
  · rw [h]
    rfl
  · rw [h]
    cases offs.all fun o => (sbByte sb (line * 64 + o)).isSome <;> rfl

/-- Otherwise it is charged and filled. -/
theorem readyLine_filled {sb : List SbEntry} {keep : Bool} {line : Nat} {offs : List Nat} (hk : keySpace (line * 64) = 0) (hb : t.biPending = [])
    (hs : (offs.all fun o => (sbByte sb (line * 64 + o)).isSome) = false)
    (hc : (offs.all fun o => (Assoc.find ((t.core t.curCore).line line) o).isSome) = false) :
    readyLine sb false keep line offs t =
      (do Machine.chargeLine line; modify fun s => (s.fill t.curCore line).touchSlice t.curCore (line * 64) keep : M Unit) t := by
  simp only [readyLine, M.bind_apply, M.get_apply, M.andThen_ok, M.ite_apply, M.pure_apply, hk, hb, hs, hc]
  rfl

/-- The bytes at some keys of one line are made ready: in what the first-level cache then holds, they are what the context sees. -/
theorem DeviceReads.readyLine {keep : Bool} {line : Nat} {ks : List Nat} (hu : s.here.unlimited s.curSlot) (ho : s.allOpen) (hb : s.biPending = [])
    (hks : ∀ k ∈ ks, keySpace k = 0 ∧ lineOf k = line) (hne : ks ≠ [])
    (hc : (∀ k ∈ ks, (cvSees s.here.cv k).isSome) ∨ Assoc.find s.here.cv line = none) :
    ∃ cv, Does (DeviceReads s s.here.cv · y) (readyLine s.now.sb false keep line (ks.map (· % 64))) () (DeviceReads s cv · y) ∧
      ∀ k ∈ ks, s.deviceSees cv k = s.deviceSees s.here.cv k := by
  have hkey : ∀ k ∈ ks, line * 64 + k % 64 = k := fun k hk => by
    have := (hks k hk).2
    simp only [lineOf] at this
    omega
  have hspace : keySpace (line * 64) = 0 := by
    obtain ⟨k, hk⟩ := List.exists_mem_of_ne_nil ks hne
    rw [← (hks k hk).2, keySpace_line]
    exact (hks k hk).1
  have hpend {t : State} (ht : DeviceReads s s.here.cv t y) : t.biPending = [] := (ht.state_part State.biPending).trans hb
  have hline {t : State} (ht : DeviceReads s s.here.cv t y) : (t.core t.curCore).line line = (Assoc.find s.here.cv line).getD [] := by
    rw [ht.curCore, Core.line, ht.cv]
  cases hsb : ks.all fun k => (sbByte s.now.sb k).isSome with
  | true =>
    refine ⟨s.here.cv, Does.of_apply fun t ht => readyLine_held hspace (hpend ht) (.inl ?_), fun _ _ => rfl⟩
    rw [List.all_map, List.all_eq_true]
    intro k hk
    rw [Function.comp_apply, hkey k hk]
    exact List.all_eq_true.1 hsb k hk
  | false =>
    obtain hcached | habsent := hc
    · refine ⟨s.here.cv, Does.of_apply fun t ht => readyLine_held hspace (hpend ht) (.inr ?_), fun _ _ => rfl⟩
      rw [List.all_map, List.all_eq_true]
      intro k hk
      have := hcached k hk
      rw [cvSees, Option.isSome_map, (hks k hk).2] at this
      rw [Function.comp_apply, hline ht]
      exact this
    · refine ⟨s.filledCv line, fun t ht => ?_, fun k hk => ?_⟩
      · have hsb' : ((ks.map (· % 64)).all fun o => (sbByte s.now.sb (line * 64 + o)).isSome) = false := by
          rw [← hsb, List.all_map]
          refine congrArg id (Bool.eq_iff_iff.2 ?_)
          simp only [List.all_eq_true, Function.comp_apply]
          exact forall₂_congr fun k hk => by rw [hkey k hk]
        have hcv : ((ks.map (· % 64)).all fun o => (Assoc.find ((t.core t.curCore).line line) o).isSome) = false := by
          obtain ⟨k, l, rfl⟩ := List.exists_cons_of_ne_nil hne
          rw [hline ht, habsent]
          rfl
        rw [readyLine_filled hspace (hpend ht) hsb' hcv, ht.curCore]
        exact (DeviceReads.chargeLine hu ho hspace).bind (Does.modify fun u hR => (hR.fill hspace habsent).touchSlice ..) t ht
      · have hnone : cvSees s.here.cv k = none := by
          rw [cvSees, (hks k hk).2, habsent]
          rfl
        have hfilled := cvSees_filledCv (s := s) (hks k hk).1
        rw [(hks k hk).2] at hfilled
        rw [State.deviceSees, State.deviceSees, hnone, hfilled]
        cases sbByte s.now.sb k <;> rfl

end

end Sys2Proof.Machine
end

section
/-! SUPPORT. Loads from the memory of this device (R138, R145, R274): the bytes of one line. -/

namespace Sys2Proof.Machine

/-! ### Keys of this device's memory -/

theorem globalPlace_device {s : State} {m a key : Nat} {hostwin : Bool} (h : s.globalPlace m hostwin a = .at_ key) (hk : keySpace key = 0) : key = a := by
  simp only [State.globalPlace] at h
  split_ifs at h <;> obtain rfl := Where.at_.inj h
  · simp only [keySpace, keyHost] at hk
    omega
  · rfl
  · simp only [keySpace, keyRemote] at hk
    omega

theorem six_le_levelShift (l : Nat) : 6 ≤ levelShift l := by unfold levelShift; split <;> omega

/-- A page is aligned: the offset within a line is that of the address. -/
theorem line_offset_leaf (pte va l : Nat) : (pteAddr pte + va % 2 ^ levelShift l) % 64 = va % 64 := by
  have hdvd : 64 ∣ 2 ^ levelShift l := by
    have := Nat.pow_dvd_pow 2 (six_le_levelShift l)
    exact this
  have hmod := Nat.mod_mod_of_dvd va hdvd
  simp only [pteAddr]
  omega

/-- The offset within a line of this device's memory is that of the address. -/
theorem State.locate_offset {s : State} {c n va bytes key : Nat} {k : Access} (h : (s.locate c n va bytes k).1 = .at_ key) (hk : keySpace key = 0) :
    key % 64 = va % 64 := by
  obtain ⟨off, hplace⟩ | ⟨hva, hsup⟩ | htab := State.locate_leads h
  · obtain ⟨pid, o, rfl, -⟩ | ⟨cl, way, o, rfl⟩ := State.localPlace_leads hplace <;> simp only [keySpace, keyScratch, keyL2] at hk <;> omega
  · obtain ⟨rfl, -⟩ | ⟨o, rfl⟩ | ⟨a, ha, rfl⟩ | ⟨m, -, hostwin, hplace⟩ := State.supervisor_leads hva hsup
    · omega
    · simp only [keySpace, keyRom] at hk
      omega
    · simp only [keySpace, keyHost] at hk
      omega
    · rw [globalPlace_device hplace hk]
      omega
  · obtain ⟨t, pte, l, hplace⟩ := State.tables_leads htab
    rw [globalPlace_device hplace hk, line_offset_leaf]

/-- The bytes of an aligned access of a line or less lie in one line. -/
theorem lineOf_aligned {va key n i : Nat} (hn : n ∈ [1, 2, 4, 8, 16, 64]) (ha : va % n = 0) (hk : key % 64 = va % 64) (hi : i < n) :
    lineOf (key + i) = lineOf key := by
  simp only [lineOf]
  simp only [List.mem_cons, List.not_mem_nil, or_false] at hn
  obtain rfl | rfl | rfl | rfl | rfl | rfl := hn <;> omega

theorem eraseDups_constant {l : List Nat} {a : Nat} (h : ∀ b ∈ l, b = a) (hne : l ≠ []) : l.eraseDups = [a] := by
  obtain ⟨b, l, rfl⟩ := List.exists_cons_of_ne_nil hne
  have hnone : (l.filter fun c => !(c == b)) = [] := List.filter_eq_nil_iff.2 fun c hc => by
    rw [h b List.mem_cons_self, h c (List.mem_cons_of_mem _ hc)]
    simp
  rw [List.eraseDups_cons, hnone, h b List.mem_cons_self]
  rfl

/-! ### A load from this device's memory -/

theorem DeviceReads.memRead {s : State} {va : Ptr} {n : Nat} {ks : List Nat} {m : MQ} {y : Ctx} (hs : s.steady = true)
    (ha : va.toNat % n = 0) (hm : m.ord = .rlx) (hn : n ∈ [1, 2, 4, 8, 16, 64]) (hr : s.reachesDevice va n .read ks) (hu : s.unlimited)
    (hc : (∀ k ∈ ks, (cvSees s.here.cv k).isSome) ∨ Assoc.find s.here.cv (lineOf (ks.headD 0)) = none) (hsb : y.sb = s.now.sb)
    (hp : y.places = []) : ∃ cv ps, Does (Fresh s · y) (memRead va n n m)
      ((ks.map (s.deviceSees s.here.cv)).map (·.1), (ks.map (s.deviceSees s.here.cv)).any (·.2))
      (DeviceReads s cv · (({ y with places := ps } : Ctx).tasted ((ks.map (s.deviceSees s.here.cv)).any (·.2)))) := by
  obtain ⟨key, u, hl, hkey, rfl, -, hb, ho, hwatch⟩ := hr
  obtain ⟨hpair, -, -, -, -⟩ := State.steady_iff hs
  have hpos : 0 < n := Nat.pos_of_ne_zero (by rintro rfl; simp at hn)
  have hplace : (s.locate s.curCore s.curSlot va.toNat n .read).1 = .at_ key := congrArg Prod.fst hl
  have hline : ∀ k ∈ (List.range n).map (key + ·), keySpace k = 0 ∧ lineOf k = lineOf key := by
    intro k hk
    obtain ⟨i, hi, rfl⟩ := List.mem_map.1 hk
    have hl := lineOf_aligned hn ha (State.locate_offset hplace hkey) (List.mem_range.1 hi)
    refine ⟨?_, hl⟩
    simp only [keySpace, lineOf] at hkey hl ⊢
    omega
  have hne : (List.range n).map (key + ·) ≠ [] := by
    rw [Ne, List.map_eq_nil_iff, List.range_eq_nil]
    omega
  have hhead : lineOf (((List.range n).map (key + ·)).headD 0) = lineOf key := by
    obtain ⟨k, l, hkl⟩ := List.exists_cons_of_ne_nil hne
    rw [hkl, List.headD_cons]
    exact (hline k (hkl ▸ List.mem_cons_self)).2
  rw [hhead] at hc
  obtain ⟨cv, hready, hval⟩ := DeviceReads.readyLine (y := { y with places := [⟨va.toNat, .read, key, 0⟩] }) (keep := m.hint = .keep) hu ho hb hline hne hc
  have F := DeviceReads.framed s s.here.cv
  have F' := DeviceReads.framed s cv
  have hvals : ((List.range n).map (key + ·)).map (s.deviceSees s.here.cv) = ((List.range n).map (key + ·)).map (s.deviceSees cv) :=
    List.map_congr_left fun k hk => (hval k hk).symm
  have hbyp : bypasses m.ord m.scope = false := by rw [hm]; rfl
  refine ⟨cv, [⟨va.toNat, .read, key, 0⟩], ?_⟩
  rw [hvals]
  refine F.memRead F' hpair ha (Fresh.translate hu ho hp hplace hkey) (fun h => ?_) (fun u _ => ?_) ?_ (fun u hR k hk => ?_) (fun h => ?_) hwatch
    fun h3 => ?_
  · rw [hm] at h
    cases h
  · exact List.map_congr_left fun i _ => if_neg (by omega)
  · rw [eraseDups_constant (a := lineOf key) (fun b hb => ?_) (by simpa using hne), hbyp]
    · refine Does.bind (a := ()) ?_ (.pure ())
      dsimp only
      rw [List.filter_eq_self.2 fun k hk => decide_eq_true (hline k hk).2]
      rw [← hsb] at hready
      exact hready
    · obtain ⟨k, hk, rfl⟩ := List.mem_map.1 hb
      exact (hline k hk).2
  · rw [hbyp]
    show Machine.readByte u y.sb false k = _ ∧ _ ∧ u.gone y.sb false k = false
    rw [hsb]
    exact hR.readByte (hline k hk).1
  · rw [hm] at h
    cases h
  · omega

theorem loadLocal_holds : loadLocal := by
  intro s hs ty m d e b q off ks va loads cached n ha
  obtain ⟨hfetched, hplaces⟩ := State.steady_fresh hs
  refine ⟨fun ho hr hu => ?_, fun hm hn hr hu hc => ?_⟩
  · have F := LocalReads.framed s (∀ k ∈ ks, keySpace k = 3 ∧ keyCore k = s.curCore)
    exact F.loads F hs (LocalReads.refl hfetched) (ps := s.now.places) rfl (fun t y h => ⟨h.sameOutside, h.peek, h.onlyHere⟩)
      (LocalReads.memRead hs ha ho hr hu id rfl hplaces) ty d e q
  · obtain ⟨cv, ps, hread⟩ := DeviceReads.memRead (y := s.now.tasted (s.now.anyMarked [uP b])) hs ha hm hn hr hu hc rfl hplaces
    exact (Fresh.framed s).loads (DeviceReads.framed s cv) hs ⟨.refl hfetched, .refl s⟩ rfl (fun t y h => ⟨h.outside, h.peek⟩) hread ty d e q

end Sys2Proof.Machine
end

section
/-! SUPPORT. The probe `ldt` (R278), and loads together. -/

namespace Sys2Proof.Machine

/-! ### The effect of a probe -/

/-- What `ldt` does with an aligned address. -/
def probeBody (ty : Ty) (d : GReg) (mark : Bool) (va : Nat) : M Next := do
  let reads ← walkFor va
  let s ← get
  match s.locate s.curCore s.curSlot va (ty.width / 8) .read with
  | (.at_ _, t) =>
    set (t.touchAll s.curCore reads)
    setG d 0 mark
    pure .seq
  | (.bad c, t) =>
    set (t.touchAll s.curCore reads)
    setG d (BitVec.ofNat 64 c.code) mark
    pure .seq
  | (.migrating, t) =>
    set (t.touchAll s.curCore reads)
    waitOn .migration (BitVec.ofNat 64 va)

/-- What it does with any address (R278). -/
def ldtStep (ty : Ty) (d : GReg) (mark : Bool) (va : Nat) : M Next :=
  if va % (ty.width / 8) ≠ 0 then do
    setG d (BitVec.ofNat 64 Cause.misaligned.code) mark
    pure .seq
  else probeBody ty d mark va

theorem ldtStep_misaligned {ty : Ty} {va : Nat} (h : va % (ty.width / 8) ≠ 0) (d : GReg) (mark : Bool) : ldtStep ty d mark va = (do
    setG d (BitVec.ofNat 64 Cause.misaligned.code) mark
    pure .seq) := if_pos h

theorem ldtStep_aligned {ty : Ty} {va : Nat} (h : va % (ty.width / 8) = 0) (d : GReg) (mark : Bool) : ldtStep ty d mark va = probeBody ty d mark va :=
  if_neg (not_not_intro h)

/-- The effect of `ldt`. -/
def ldtBody (ty : Ty) (d : GReg) (b : PReg) (off : BitVec 21) : M Next := do
  let p ← regP b
  let mark ← consume [uP b]
  ldtStep ty d mark (ea p off).toNat

theorem exec_ldt (ty : Ty) (d : GReg) (b : PReg) (off : BitVec 21) (s : State) :
    exec (.ldt ty d b off) s = perform .any (.ldt ty d b off) (ldtBody ty d b off) s := rfl

/-- What a probe writes for where its address leads. -/
def probeValue : Where → Option Word
  | .at_ _ => some 0
  | .bad c => some (BitVec.ofNat 64 c.code)
  | .migrating => none

section
variable {s : State} {R R' : State → Ctx → Prop} {y : Ctx}

theorem Framed.probeBody {ty : Ty} {d : GReg} {mark : Bool} {va : Nat} {reads : List Nat} {w : Where} {v : Word} (F' : Framed s R')
    (hw : Does (R · y) (walkFor va) reads (R · y)) (hl : ∀ t, R t y → (t.locate t.curCore t.curSlot va (ty.width / 8) .read).1 = w ∧
      R' ((t.locate t.curCore t.curSlot va (ty.width / 8) .read).2.touchAll t.curCore reads) y) (hv : probeValue w = some v) :
    Does (R · y) (Machine.probeBody ty d mark va) .seq (R' · ((y.writeG d.toNat v).mark d.toNat mark)) := by
  refine hw.bind (Does.get_bind fun t ht => ?_)
  obtain ⟨hwhere, hR⟩ := hl t ht
  generalize t.locate t.curCore t.curSlot va (ty.width / 8) .read = x at hwhere hR
  obtain ⟨w', u⟩ := x
  obtain rfl : w' = w := hwhere
  have hset : Does (R · y) (set (u.touchAll t.curCore reads) : M Unit) () (R' · y) := fun _ _ => ⟨_, rfl, hR⟩
  cases w' with
  | at_ key =>
    obtain rfl := Option.some.inj hv
    exact hset.bind ((F'.setG d 0 mark).bind (.pure _))
  | bad c =>
    obtain rfl := Option.some.inj hv
    exact hset.bind ((F'.setG d _ mark).bind (.pure _))
  | migrating => cases hv

/-- How a probe ends. -/
theorem Framed.ldt {ty : Ty} {d : GReg} {b : PReg} {off : BitVec 21} {v : Word} (F : Framed s R) (F' : Framed s R') (hs : s.steady = true)
    (h0 : R s s.now)
    (hb : Does (R · (s.now.tasted (s.now.anyMarked [uP b]))) (ldtStep ty d (s.now.anyMarked [uP b]) (ea (s.now.readP b.toNat) off).toNat)
      .seq (R' · (((s.now.tasted (s.now.anyMarked [uP b])).writeG d.toNat v).mark d.toNat (s.now.anyMarked [uP b])))) :
    ∃ t, exec (.ldt ty d b off) s = .next t ∧ (∃ y, R' t y) ∧ Retires 8 (s.now.anyMarked [uP b]) s t ∧
      GWritten s.now t.now d v (s.now.anyMarked [uP b]) ∧ t.now.fpstat = s.now.fpstat ∧
      ({ t.now.aside with g := [], marks := [] } : Ctx) = { s.now.aside with g := [], marks := [] } := by
  have hbody : Does (R · s.now) (ldtBody ty d b off) .seq
      (R' · (((s.now.loading (s.now.anyMarked [uP b]) false s.now.places).writeG d.toNat v).mark d.toNat (s.now.anyMarked [uP b]))) :=
    (F.regP b).bind ((F.consume [uP b]).bind hb)
  have hend := F'.endsG hs (exec_ldt ty d b off s) h0 hbody
  rwa [Bool.or_false] at hend

/-- A probe that leaves everything else alone. -/
theorem LocalReads.writesG {ty : Ty} {d : GReg} {b : PReg} {off : BitVec 21} {v : Word} (hs : s.steady = true)
    (hb : Does (LocalReads s True · (s.now.tasted (s.now.anyMarked [uP b])))
      (ldtStep ty d (s.now.anyMarked [uP b]) (ea (s.now.readP b.toNat) off).toNat)
      .seq (LocalReads s True · (((s.now.tasted (s.now.anyMarked [uP b])).writeG d.toNat v).mark d.toNat (s.now.anyMarked [uP b])))) :
    WritesG (.ldt ty d b off) 8 d v (s.now.anyMarked [uP b]) 0 s := by
  have F := LocalReads.framed s True
  obtain ⟨t, ht, ⟨y, hR⟩, ⟨hcount, hgo⟩, hw, hfp, haside⟩ := F.ldt F hs (LocalReads.refl (State.steady_fresh hs).1) hb
  refine ⟨t, ht, hR.onlyHere trivial, hw, ?_, hcount, hgo, congrArg (fun x : Ctx => { x with fpstat := 0 }) haside⟩
  rw [hfp]
  simp

theorem Core.eq_of_tlb {j k : Core} (h : ({ j with tlb := [] } : Core) = { k with tlb := [] }) (ht : j.tlb = k.tlb) : j = k := by
  have hj := congrArg (fun m : Core => { m with tlb := j.tlb }) h
  dsimp only at hj
  exact hj.trans (by rw [ht])

/-- A walk that has changed neither a field nor a TLB has changed nothing. -/
theorem Walks.eq_of_kept {c : Nat} {t u : State} (h : Walks c t u) (hf : u.fields = t.fields) (ht : ∀ d, (u.core d).tlb = (t.core d).tlb) :
    u.bare = t.bare ∧ ∀ d, u.core d = t.core d := by
  have hrest := congrArg (fun z : State => { z with fields := u.fields }) h.rest
  dsimp only at hrest
  exact ⟨by rw [State.bare, State.bare, hrest, hf], fun d => Core.eq_of_tlb (h.core d) (ht d)⟩

/-- A walk that leaves the machine as `s` has it changes nothing of the frame. -/
theorem LocalReads.walks {t u : State} {own : Prop} (h : LocalReads s own t y) (hw : Walks s.curCore t u) (ha : Alike s u) : LocalReads s own u y := by
  obtain ⟨hbare, hcore⟩ := hw.eq_of_kept (ha.fields.trans h.alike.fields.symm) fun d => (ha.tlb d).trans (h.alike.tlb d).symm
  obtain ⟨v, x, hl, hx, hown⟩ := h
  refine ⟨v, x, ⟨?_, ?_, hbare.trans hl.bare, fun c hc => (hcore c).trans (hl.others c hc), ?_, fun n hn => ?_, ?_⟩, hx, hown⟩
  · exact (State.eq_of_bare State.curCore hbare).trans hl.curCore
  · exact (State.eq_of_bare State.curSlot hbare).trans hl.curSlot
  · rw [hcore, hl.core]
  · rw [hcore, hl.slots n hn]
  · rw [hcore, hl.ctx]

/-- A probe whose walk reads no entry and changes nothing (R278). -/
theorem LocalReads.probe {ty : Ty} {d : GReg} {mark : Bool} {va : Nat} {w : Where} {v : Word} (hr : s.walkReads s.curCore s.curSlot va = [])
    (hl : s.locate s.curCore s.curSlot va (ty.width / 8) .read = (w, s)) (hv : probeValue w = some v) :
    Does (LocalReads s True · y) (Machine.probeBody ty d mark va) .seq (LocalReads s True · ((y.writeG d.toNat v).mark d.toNat mark)) := by
  have F := LocalReads.framed s True
  refine F.probeBody (reads := []) (Does.of_apply fun t ht => walkFor_unread ?_) (fun t ht => ?_) hv
  · rw [F.curCore ht, F.curSlot ht, ht.alike.walkReads, hr]
  · rw [F.curCore ht, F.curSlot ht]
    obtain ⟨h1, h2⟩ := ht.alike.locate s.curCore s.curSlot va (ty.width / 8) .read
    rw [hl] at h1 h2
    exact ⟨h1, ht.walks (Walks.locate ..) h2⟩

end

/-! ### The obligation -/

/-- A probe whose walk is charged (R138, R278): it changes no byte of memory. -/
theorem Fresh.probed {s : State} {ty : Ty} {d : GReg} {b : PReg} {off : BitVec 21} {w : Where} {v : Word} (hs : s.steady = true)
    (ha : (ea (s.now.readP b.toNat) off).toNat % (ty.width / 8) = 0) (hu : s.unlimited) (ho : s.allOpen)
    (hl : (s.locate s.curCore s.curSlot (ea (s.now.readP b.toNat) off).toNat (ty.width / 8) .read).1 = w) (hv : probeValue w = some v) :
    ∃ t, exec (.ldt ty d b off) s = .next t ∧ GWritten s.now t.now d v (s.now.anyMarked [uP b]) ∧ Retires 8 (s.now.anyMarked [uP b]) s t ∧
      ∀ k, t.peek k = s.peek k := by
  have F' := DeviceReads.framed s s.here.cv
  have hstep : Does (Fresh s · (s.now.tasted (s.now.anyMarked [uP b])))
      (ldtStep ty d (s.now.anyMarked [uP b]) (ea (s.now.readP b.toNat) off).toNat) .seq
      (DeviceReads s s.here.cv · (((s.now.tasted (s.now.anyMarked [uP b])).writeG d.toNat v).mark d.toNat (s.now.anyMarked [uP b]))) := by
    rw [ldtStep_aligned ha]
    refine F'.probeBody (Fresh.walkFor hu ho _) (fun t ht => ⟨?_, ht.located ..⟩) hv
    rw [ht.reads.curCore, ht.reads.curSlot, (ht.alike.locate ..).1, hl]
  obtain ⟨t, ht, ⟨y, hR⟩, hret, hw, -, -⟩ := (Fresh.framed s).ldt F' hs ⟨.refl (State.steady_fresh hs).1, .refl s⟩ hstep
  exact ⟨t, ht, hw, hret, hR.peek⟩

/-- A probe whose walk reads nothing and changes nothing leaves everything else as it is (R278). -/
theorem LocalReads.probed {s : State} {ty : Ty} {d : GReg} {b : PReg} {off : BitVec 21} {w : Where} {v : Word} (hs : s.steady = true)
    (ha : (ea (s.now.readP b.toNat) off).toNat % (ty.width / 8) = 0)
    (hr : s.walkReads s.curCore s.curSlot (ea (s.now.readP b.toNat) off).toNat = [])
    (hl : s.locate s.curCore s.curSlot (ea (s.now.readP b.toNat) off).toNat (ty.width / 8) .read = (w, s)) (hv : probeValue w = some v) :
    WritesG (.ldt ty d b off) 8 d v (s.now.anyMarked [uP b]) 0 s :=
  LocalReads.writesG hs (by rw [ldtStep_aligned ha]; exact LocalReads.probe hr hl hv)

/-- A misaligned load would trap before its address is translated (R274, R278). -/
theorem LocalReads.misaligned {s : State} {ty : Ty} {d : GReg} {b : PReg} {off : BitVec 21} (hs : s.steady = true)
    (ha : (ea (s.now.readP b.toNat) off).toNat % (ty.width / 8) ≠ 0) : WritesG (.ldt ty d b off) 8 d 5 (s.now.anyMarked [uP b]) 0 s :=
  LocalReads.writesG hs (by rw [ldtStep_misaligned ha]; exact ((LocalReads.framed s True).setG d _ _).bind (.pure _))

theorem probeResult_holds : probeResult := by
  intro s hs ty d b off key c va n p reads probed
  exact ⟨LocalReads.misaligned hs, fun ha hr hl => LocalReads.probed hs ha hr hl rfl, fun ha hr hl => LocalReads.probed hs ha hr hl rfl,
    fun ha hu ho u => ⟨fun hl => Fresh.probed hs ha hu ho (congrArg Prod.fst hl) rfl, fun hl => Fresh.probed hs ha hu ho (congrArg Prod.fst hl) rfl⟩⟩

/-- Settles O16: what a load reads is settled before its lines are made ready, which leaves all but caches, budgets and slices alone; a probe is a
walk without an access. -/
theorem loadResult : Obligations.LoadResult := ⟨loadLocal_holds, probeResult_holds⟩

end Sys2Proof.Machine
end

section
/-! SUPPORT. Instructions that leave every register as it is and may hand weight over: how they end, and the steps that find nothing to do. -/

namespace Sys2Proof.Machine

/-! ### The context behind such an instruction -/

/-- A context that has taken a marked source, and holds the weight `w`. -/
def Ctx.spent (x : Ctx) (p : Bool) (w : Nat) : Ctx := { x.tasted p with wheld := w }

theorem Ctx.tasted_tasted (x : Ctx) (p q : Bool) : (x.tasted p).tasted q = x.tasted (p || q) := by
  cases p <;> cases q <;> simp [Ctx.tasted, cirPoison]

/-- The registers of a context stay, and it holds the weight `w` (R286). -/
structure Spends (bytes : Nat) (p : Bool) (w : Nat) (s t : State) : Prop where
  regs : SameRegs s.now t.now
  retires : Retires bytes p s t
  wheld : t.now.wheld = w

theorem Ctx.spent_ends {s t : State} {p : Bool} {w bytes : Nat} (he : s.now.eaten = 0) (ht : t.now = (s.now.spent p w).retired' bytes .seq) :
    Spends bytes p w s t := by
  have hcount : Counted s.now ((s.now.spent p w).retired' bytes .seq) p := by
    refine Ctx.retired'_facts _ _ _ _ _ ?_ rfl rfl rfl rfl rfl
    show (s.now.tasted p).eaten = _
    rw [Ctx.tasted_eaten he]
  refine ⟨?_, ?_, ?_⟩
  · rw [ht]
    exact .retired rfl rfl rfl _ _
  · rw [Retires, ht]
    exact ⟨hcount, Ctx.retired'_goesOn _ _ _ rfl rfl rfl⟩
  · rw [ht, Ctx.retired'_eq]
    rfl

/-! ### Effects on the issuing core -/

section
variable {s : State} {k k' : Core} {y : Ctx}

theorem Runs.of_apply {α : Type} {m : M α} {a : α} (h : ∀ t, Local s t k y → m t = .ok (a, t)) : Runs m s k y a k y :=
  fun t ht => ⟨t, h t ht, ht⟩

theorem Local.unpaired {t : State} (h : Local s t k y) (hs : s.steady = true) (hk : k.pair = s.here.pair) :
    (t.core t.curCore).pairedWest t.curSlot = false := by
  rw [h.curCore, h.curSlot, Core.pairedWest, Core.eq_of_bare Core.pair h.core, hk]
  exact (State.steady_iff hs).1

theorem Local.ctxNow {t : State} (h : Local s t k y) : t.ctx t.curCore t.curSlot = y := by
  rw [h.curCore, h.curSlot]
  exact h.ctx

/-- Registers of the core are written by what they held. -/
theorem Runs.changeCore {f : Core → Core} (hb : ∀ j : Core, (f j).bare = f j.bare) (hx : ∀ j, (f j).ctxs = j.ctxs) :
    Runs (Machine.modCore f) s k y () (f k) y :=
  Runs.modCore (fun u hu => by rw [hb, hb, hu.core]) hx

theorem Runs.aligned {va n : Nat} (h : va % n = 0) : Runs (Machine.aligned va n) s k y () k y := by
  rw [Machine.aligned, if_pos h]
  exact .pure ()

theorem checkWeight_apply {t : State} {w : Nat} (h0 : 0 < w) (hw : w < (t.ctx t.curCore t.curSlot).wheld) : checkWeight w t = .ok ((), t) := by
  have : ¬((t.ctx t.curCore t.curSlot).wheld = 0 ∨ w = 0 ∨ (t.ctx t.curCore t.curSlot).wheld ≤ w) := by omega
  simp [checkWeight, this]

theorem Runs.checkWeight {w : Nat} (h0 : 0 < w) (hw : w < y.wheld) : Runs (Machine.checkWeight w) s k y () k y :=
  .of_apply fun t ht => checkWeight_apply h0 (by rw [ht.ctxNow]; exact hw)

/-- With no store in its buffer the context has nothing to drain for an engine (R157). -/
theorem Runs.drainForEngine (hs : s.steady = true) (hk : k.pair = s.here.pair) (hy : y.sb = []) : Runs Machine.drainForEngine s k y () k y :=
  .of_apply fun t ht => by
    have hsb : (t.ctx t.curCore t.curSlot).sb = [] := by rw [ht.ctxNow, hy]
    simp [Machine.drainForEngine, drainPicked, hsb, splitSb, State.holding, Core.holding, ht.unpaired hs hk]

/-- An output of a context without partner leaves at once. -/
theorem emit_apply {t : State} (hp : (t.core t.curCore).pairedWest t.curSlot = false) (h : HoldItem) (f : State → State) :
    emit h f t = .ok ((), f t) := by
  simp [emit, State.holding, Core.holding, hp]

/-- An instruction whose effect takes its sources, may hand weight over, and writes registers of the core. -/
theorem Runs.spends {who : Who} {i : Instr} {body : M Next} {p : Bool} {w bytes : Nat} (hs : s.steady = true)
    (he : exec i s = perform who i body s) (hr : s.refusal s.curCore s.curSlot who = none) (hl : instrBytes i = bytes)
    (hb : Runs body s s.here s.now .seq k (s.now.spent p w)) (hk : k.pair = s.here.pair) :
    ∃ t, exec i s = .next t ∧ Local s t k t.now ∧ Spends bytes p w s t := by
  obtain ⟨-, h1, h2, h3, -⟩ := State.steady_iff hs
  obtain ⟨t, ht, hT⟩ := hb.completes hs he hr (by simp) hk h1 h2
  refine ⟨t, ht, hT.now ▸ hT, Ctx.spent_ends h3 ?_⟩
  rw [hT.now, hl]

end
end Sys2Proof.Machine
end

section
/-! SUPPORT. Matrix commands join their queue (R92, R335 to R337, R340, R341). -/

namespace Sys2Proof.Machine

/-! ### The effects -/

def mbeginBody (a : GReg) : M Next := do
  let x ← regG a
  let _ ← consume [uG a]
  let v := x.toInt
  let v := if v < -2048 then -2048 else if 2047 < v then 2047 else v
  modCore fun k => { k with manchor := BitVec.ofInt 12 v, chain := true }
  pure .seq

def mendBody : M Next := do
  modCore fun k => { k with chain := false }
  pure .seq

def mmaBody (d : AccReg) (x y : MmaOperand) (c : Option PReg) (bk : Bool) : M Next := do
  let a ← regP x.base
  let b ← regP y.base
  let t ← match c with
    | some r => do
      let v ← regP r
      pure (some v)
    | none => pure none
  let _ ← consume ([uP x.base, uP y.base] ++ (c.map uP).toList)
  aligned a.toNat 8
  aligned b.toNat 8
  aligned x.stride.toNat 8
  aligned y.stride.toNat 8
  match t with
  | some v => aligned v.toNat 16
  | none => pure ()
  enqueueMat (.mma d x y a b t bk)

def mldBody (d : AccReg) (b : PReg) (off : BitVec 32) (stride : BitVec 16) : M Next := do
  let p ← regP b
  let _ ← consume [uP b]
  let va := ea32 p off
  aligned va.toNat 16
  aligned stride.toNat 16
  if stride.toNat < 512 then trap .misaligned (stride.setWidth 64)
  enqueueMat (.mld d va stride.toNat)

def mstBody (ty : Ty) (q : FQ) (b : PReg) (off : BitVec 32) (a : AccReg) (stride : BitVec 16) : M Next := do
  let p ← regP b
  let _ ← consume [uP b]
  let c ← getCtx
  let va := ea32 p off
  aligned va.toNat 8
  aligned stride.toNat 8
  if stride.toNat < 32 * ty.width / 8 then trap .misaligned (stride.setWidth 64)
  enqueueMat (.mst ty q.sat (c.mode q.rm) c.seed va a stride.toNat)

section
variable (s : State)

theorem exec_mbegin (a : GReg) : exec (.mbegin a) s = perform .matrix (.mbegin a) (mbeginBody a) s := rfl
theorem exec_mend : exec .mend s = perform .matrix .mend mendBody s := rfl
theorem exec_mzero (d : AccReg) : exec (.mzero d) s = perform .matrix (.mzero d) (enqueueMat (.mzero d)) s := rfl
theorem exec_mma (d : AccReg) (x y : MmaOperand) (c : Option PReg) (bk : Bool) :
    exec (.mma d x y c bk) s = perform .matrix (.mma d x y c bk) (mmaBody d x y c bk) s := rfl
theorem exec_mld (d : AccReg) (b : PReg) (off : BitVec 32) (stride : BitVec 16) :
    exec (.mld d b off stride) s = perform .matrix (.mld d b off stride) (mldBody d b off stride) s := rfl
theorem exec_mst (ty : Ty) (q : FQ) (b : PReg) (off : BitVec 32) (a : AccReg) (stride : BitVec 16) :
    exec (.mst ty q b off a stride) s = perform .matrix (.mst ty q b off a stride) (mstBody ty q b off a stride) s := rfl

end

/-! ### A command joins the queue -/

/-- The core behind a command that has joined the queue. -/
def Core.matJoined (k : Core) (op : MatOp) (x : Ctx) : Core :=
  { k with matq := k.matq ++ [⟨op, k.manchor, x.pc, x.gen, none⟩], mrowp := if k.matq.isEmpty then 0 else k.mrowp }

section
variable {s : State} (hc : s.control = true) (hset : s.settled s.curCore 1 = true)

theorem State.control_parts (hc : s.control = true) : s.steady = true ∧ s.curSlot = 1 ∧ s.now.text = none := by
  simpa [State.control, and_assoc] using hc

theorem State.settled_sb {c n : Nat} (h : s.settled c n = true) : (s.ctx c n).sb = [] := by
  simp only [State.settled, Bool.and_eq_true, decide_eq_true_eq] at h
  exact h.1.1.1.1.1

include hc

include hset in
theorem Runs.enqueueMat (hq : s.here.matq.length < 2) {y : Ctx} (hy : y.sb = s.now.sb) (op : MatOp) :
    Runs (Machine.enqueueMat op) s s.here y .seq (s.here.matJoined op y) y := by
  obtain ⟨hs, hn, -⟩ := State.control_parts hc
  have hsb : s.now.sb = [] := by rw [State.now, hn, State.settled_sb hset]
  have hhold : s.here.holding 1 = false := by
    rw [Core.holding, ← hn, State.here, (State.steady_iff hs).1, Bool.false_and]
  refine Runs.getCore_bind fun u hu => ?_
  have hmatq : (u.core s.curCore).matq = s.here.matq := Core.eq_of_bare Core.matq hu.core
  have hhold' : (u.core s.curCore).holding 1 = false := (Core.eq_of_bare (Core.holding · 1) hu.core).trans hhold
  rw [hmatq, hhold', if_neg (by omega), Bool.false_and, if_neg Bool.false_ne_true]
  refine (Runs.drainForEngine hs rfl (hy.trans hsb)).bind (Runs.getCtx.bind (Runs.bind (a := ()) ?_ (.pure _)))
  exact Runs.changeCore (fun _ => rfl) fun _ => rfl

variable (hj : (s.jobOf s.curCore).any Job.noMatrix = false)
include hj

theorem refusal_matrix : s.refusal s.curCore s.curSlot .matrix = none := by
  obtain ⟨-, hn, htext⟩ := State.control_parts hc
  have htext' : (s.ctx s.curCore 1).text = none := by rw [← hn]; exact htext
  simp [State.refusal, htext', hn, hj]

/-- A matrix instruction leaves memory, tiles and registers as they are, and its core as `k` says. -/
theorem Runs.matrixDone {i : Instr} {body : M Next} {p : Bool} {bytes : Nat} {k : Core} (he : exec i s = perform .matrix i body s)
    (hl : instrBytes i = bytes) (hb : Runs body s s.here s.now .seq k (s.now.tasted p)) (hk : k.pair = s.here.pair)
    (ht : k.tiles = s.here.tiles) :
    ∃ t, exec i s = .next t ∧ SameRegs s.now t.now ∧ Retires bytes p s t ∧ (∀ a, t.peek a = s.peek a) ∧
      (∀ a, t.here.tile a = s.here.tile a) ∧ t.here.bare = k.bare := by
  obtain ⟨t, hex, hT, hS⟩ := Runs.spends (w := s.now.wheld) (State.control_parts hc).1 he (refusal_matrix hc hj) hl hb hk
  refine ⟨t, hex, hS.regs, hS.retires, hT.peek, fun a => ?_, hT.here⟩
  have htiles : t.here.tiles = s.here.tiles := (Core.eq_of_bare Core.tiles hT.here).trans ht
  rw [Core.tile, htiles]
  rfl

include hset

/-- A matrix command whose operands pass its checks joins the queue. -/
theorem Runs.matrixQueued {i : Instr} {body : M Next} {p : Bool} {bytes : Nat} {op : MatOp} (he : exec i s = perform .matrix i body s)
    (hl : instrBytes i = bytes) (hq : s.here.matq.length < 2)
    (hb : Runs (Machine.enqueueMat op) s s.here (s.now.tasted p) .seq (s.here.matJoined op s.now) (s.now.tasted p) →
      Runs body s s.here s.now .seq (s.here.matJoined op s.now) (s.now.tasted p)) :
    ∃ t, exec i s = .next t ∧ SameRegs s.now t.now ∧ Retires bytes p s t ∧ (∀ k, t.peek k = s.peek k) ∧
      (∀ a, t.here.tile a = s.here.tile a) ∧ t.here.matq = s.here.matq ++ [⟨op, s.here.manchor, s.now.pc, s.now.gen, none⟩] ∧
      t.here.manchor = s.here.manchor := by
  obtain ⟨t, hex, hregs, hret, hpeek, htile, hbare⟩ :=
    Runs.matrixDone hc hj he hl (hb (Runs.enqueueMat hc hset hq (y := s.now.tasted p) rfl op)) rfl rfl
  exact ⟨t, hex, hregs, hret, hpeek, htile, (Core.eq_of_bare Core.matq hbare).trans rfl, (Core.eq_of_bare Core.manchor hbare).trans rfl⟩

end

/-! ### The obligation -/

section
variable {s : State} {y : Ctx} {nx : Next} {k' : Core} {y' : Ctx}

/-- A register of pointers is read and taken, and the address that it gives with the offset is aligned. -/
theorem Runs.addressed {f : Ptr → M Next} {b : PReg} (hb : Runs (f (s.now.readP b.toNat)) s s.here (s.now.tasted (s.now.anyMarked [uP b])) nx k' y') :
    Runs (do let p ← Machine.regP b; let _ ← Machine.consume [uP b]; f p) s s.here s.now nx k' y' :=
  (Runs.regP b).bind ((Runs.consume [uP b]).bind hb)

end

/-- The value that `mbegin` clamps (R337). -/
def clampAnchor (v : Int) : Int := if v < -2048 then -2048 else if 2047 < v then 2047 else v

/-- MANCHOR is a signed number of 12 bits (R337). -/
theorem anchor_clamped (v : Int) :
    (BitVec.ofInt 12 (clampAnchor v)).toInt = min (max v (-2048)) 2047 := by
  rw [BitVec.toInt_ofInt, clampAnchor]
  simp only [Int.bmod]
  split_ifs <;> omega

theorem mbegin_runs {s : State} (e : GReg) : Runs (mbeginBody e) s s.here s.now .seq
    { s.here with manchor := BitVec.ofInt 12 (clampAnchor (s.now.readG e.toNat).toInt), chain := true } (s.now.tasted (s.now.anyMarked [uG e])) := by
  refine (Runs.regG e).bind ((Runs.consume [uG e]).bind (Runs.bind (a := ()) ?_ (.pure _)))
  exact Runs.changeCore (fun _ => rfl) fun _ => rfl

theorem mend_runs {s : State} : Runs mendBody s s.here s.now .seq { s.here with chain := false } s.now := by
  refine Runs.bind (a := ()) ?_ (.pure _)
  exact Runs.changeCore (fun _ => rfl) fun _ => rfl

/-- Settles O40: a command whose operands are aligned reaches `enqueueMat` with what it latches, and `mbegin` and `mend` write MANCHOR and the chain. -/
theorem matrixQueued : Obligations.MatrixQueued := by
  intro s hc hj hset d x y c bk b off stride ty q e
  refine ⟨?_, ?_, fun hq => ?_, fun hx hy hsx hsy hob hq => ?_, fun hva hst hlow hq => ?_, fun hva hst hlow hq => ?_⟩
  · obtain ⟨t, hex, hregs, hret, hpeek, htile, hbare⟩ := Runs.matrixDone hc hj (exec_mbegin s e) rfl (mbegin_runs e) rfl rfl
    exact ⟨t, hex, hregs, hret, hpeek, htile, (Core.eq_of_bare Core.matq hbare).trans rfl, (Core.eq_of_bare Core.chain hbare).trans rfl,
      (congrArg BitVec.toInt (Core.eq_of_bare Core.manchor hbare)).trans (anchor_clamped _)⟩
  · obtain ⟨t, hex, hregs, hret, hpeek, htile, hbare⟩ := Runs.matrixDone (p := false) hc hj (exec_mend s) rfl mend_runs rfl rfl
    exact ⟨t, hex, hregs, hret, hpeek, htile, (Core.eq_of_bare Core.matq hbare).trans rfl, (Core.eq_of_bare Core.chain hbare).trans rfl,
      (Core.eq_of_bare Core.manchor hbare).trans rfl⟩
  · exact Runs.matrixQueued (p := false) hc hset hj (exec_mzero s d) rfl hq id
  · refine Runs.matrixQueued hc hset hj (exec_mma s d x y c bk) rfl hq fun hjoin => ?_
    refine (Runs.regP x.base).bind ((Runs.regP y.base).bind ?_)
    cases c with
    | none =>
      refine (Runs.pure _).bind ((Runs.consume _).bind ((Runs.aligned hx).bind ((Runs.aligned hy).bind ((Runs.aligned hsx).bind
        ((Runs.aligned hsy).bind ?_)))))
      exact (Runs.pure _).bind hjoin
    | some r =>
      refine (Runs.regP r).bind ((Runs.pure _).bind ((Runs.consume _).bind ((Runs.aligned hx).bind ((Runs.aligned hy).bind
        ((Runs.aligned hsx).bind ((Runs.aligned hsy).bind ?_))))))
      exact (Runs.aligned (hob r rfl)).bind hjoin
  · refine Runs.matrixQueued hc hset hj (exec_mld s d b off stride) rfl hq fun hjoin => Runs.addressed ?_
    refine (Runs.aligned hva).bind ((Runs.aligned hst).bind ?_)
    rw [if_neg (by omega)]
    exact hjoin
  · refine Runs.matrixQueued hc hset hj (exec_mst s ty q b off d stride) rfl hq fun hjoin => Runs.addressed (Runs.getCtx.bind ?_)
    refine (Runs.aligned hva).bind ((Runs.aligned hst).bind ?_)
    rw [if_neg (by omega)]
    exact hjoin

end Sys2Proof.Machine
end

section
/-! SUPPORT. Commands of the bulk and the copy engine join their queues (R92, R300, R301, R304, R306). -/

namespace Sys2Proof.Machine

/-! ### Objects of local space are named (R151) -/

/-- A translation that leads to local space changes nothing (R127, R128). -/
theorem translate_local {t : State} {va n key : Nat} {k : Access} (hp : (t.ctx t.curCore t.curSlot).places = [])
    (h : (t.locate t.curCore t.curSlot va n k).1 = .at_ key) (hk : 3 ≤ keySpace key) : translate va n k t = .ok (key, t) := by
  obtain ⟨hsame, hreads⟩ := State.locate_local h hk
  rw [translate_apply hp (walkFor_unread hreads) (Prod.ext h hsame), if_neg (by omega)]
  rfl

section
variable {s : State} {k : Core} {y : Ctx}

theorem Local.reads {t : State} (h : Local s t s.here y) : LocalReads s True t y.untried := ⟨s.here.injUse, y, h, rfl, fun _ => rfl⟩

theorem Runs.objectKeys {va : Ptr} {acc : Access} {ks : List Nat} (ha : va.toNat % 16 = 0) (hr : s.reachesLocal va 16 acc ks) (hp : y.places = []) :
    Runs (Machine.objectKeys va acc) s s.here y ks s.here y := by
  obtain ⟨key, hl, hkey, rfl, -⟩ := hr
  refine (Runs.aligned ha).bind (Runs.bind (a := key) (.of_apply fun t ht => ?_) (Runs.get_bind fun u hu => ?_))
  · have hplace : (t.locate t.curCore t.curSlot va.toNat 16 acc).1 = .at_ key := by
      rw [ht.curCore, ht.curSlot, (ht.reads.alike.locate ..).1, hl]
    exact translate_local (by rw [ht.ctxNow, hp]) hplace hkey
  · rw [hu.reads.keysOf]
    exact .pure _

/-! ### Outputs and weight -/

/-- An output that writes registers of the core leaves at once. -/
theorem Runs.emitCore {h : HoldItem} {g : State → State} {f : Core → Core} (hs : s.steady = true) (hk : k.pair = s.here.pair)
    (hg : ∀ u, g u = u.setCore s.curCore (f (u.core s.curCore))) (hb : ∀ j : Core, (f j).bare = f j.bare) (hx : ∀ j, (f j).ctxs = j.ctxs) :
    Runs (emit h g) s k y () (f k) y := by
  intro t ht
  refine ⟨_, emit_apply (ht.unpaired hs hk) h g, ?_⟩
  rw [hg]
  exact ht.setCore (by rw [hb, hb, ht.core]) (hx _)

theorem Runs.handOver (w : Nat) : Runs (Machine.handOver w) s k y () k { y with wheld := y.wheld - w } := Runs.modCtx _

/-! ### The queues -/

/-- A command of the issuing context as it joins its queue. -/
def Ctx.command (x : Ctx) (slot : Nat) (op : BulkOp) : BulkCmd := ⟨op, slot, x.pc, x.gen, [], [], false, [], none⟩

variable (hs : s.steady = true) (hset : s.settled s.curCore s.curSlot = true)
include hs

include hset in
theorem Runs.bulkReady {u : EngUnit} (hq : (s.here.bulkQueue u).length < 2) (hy : y.sb = s.now.sb) :
    Runs (Machine.bulkReady u) s s.here y () s.here y := by
  refine Runs.getCore_bind fun t ht => ?_
  have hqueue : (t.core s.curCore).bulkQueue u = s.here.bulkQueue u := Core.eq_of_bare (Core.bulkQueue · u) ht.core fun b => by cases u <;> rfl
  rw [hqueue, if_neg (by omega)]
  exact Runs.drainForEngine hs rfl (hy.trans (State.settled_sb hset))

/-- A command without a request joins the queue of the copy engine when it has something to do. -/
theorem Runs.enqueueCopy {op : BulkOp} (hop : op.unit = .copy) (hc : op.plan.count ≠ 0) :
    Runs (enqueueBulk op none) s s.here y .seq { s.here with copyq := s.here.copyq ++ [y.command s.curSlot op] } y := by
  refine Runs.me.bind (Runs.getCtx.bind (Runs.bind (a := ()) ?_ (.pure _)))
  refine Runs.emitCore (f := fun k => { k with copyq := k.copyq ++ [y.command s.curSlot op] }) hs rfl (fun u => ?_) (fun _ => rfl) fun _ => rfl
  dsimp only [State.addBulk]
  rw [if_neg hc, hop]
  rfl

/-- A `bread` with something to do joins the queue of the bulk engine and opens its request. -/
theorem Runs.enqueueBread {base : Ptr} {stride : Int} {rows cols row64 : Nat} {r : Request} (hr : r.finished = false) :
    Runs (enqueueBulk (.bread 0 base stride rows cols row64) (some r)) s s.here y .seq
      { s.here with
        bulkq := s.here.bulkq ++ [y.command s.curSlot (.bread s.here.nextRequest base stride rows cols row64)]
        requests := Assoc.put s.here.requests s.here.nextRequest r, nextRequest := s.here.nextRequest + 1 } y := by
  refine Runs.me.bind (Runs.getCtx.bind (Runs.bind (a := ()) ?_ (.pure _)))
  refine Runs.emitCore (f := fun k => { k with
    bulkq := k.bulkq ++ [y.command s.curSlot (.bread k.nextRequest base stride rows cols row64)]
    requests := Assoc.put k.requests k.nextRequest r, nextRequest := k.nextRequest + 1 }) hs rfl (fun u => ?_) (fun _ => rfl) fun _ => rfl
  dsimp only [State.addBulk]
  rw [hr]
  rfl

end

/-! ### The effects -/

def breadBody (d : GReg) (a : PReg) (b c : GReg) (bentry centry : BitVec 22) (stride : BitVec 16) : M Next := do
  let g ← regG d
  let base ← regP a
  let w := weightOf (← regG b)
  let cookie ← regG c
  let _ ← consume [uG d, uP a, uG b, uG c]
  aligned base.toNat 64
  checkWeight w
  bulkReady .bulk
  let x ← getCtx
  let rows := min (bits g 15 0) (bits g 47 32)
  let cols := min (bits g 31 16) (bits g 63 48)
  handOver w
  enqueueBulk (.bread 0 base stride.toInt rows cols (bits g 31 16))
    (some ⟨w, x.whome, cookie, (bentry ++ 0#2).setWidth 32, (centry ++ 0#2).setWidth 32, 0, 0, 0, rows * cols = 0⟩)

/-- What `copy` and `copym` do behind the checks of their sources: they name the object and join the queue. -/
def copyTail (obj : Ptr) (op : BulkOp) : M Next := do
  let _ ← objectKeys obj .update
  bulkReady .copy
  enqueueBulk op none

def copyBody (pub : Bool) (a b c : PReg) (d : GReg) (rowb : BitVec 11) (rows sstr : BitVec 16) : M Next := do
  let dst ← regP a
  let src ← regP b
  let obj ← regP c
  let g ← regG d
  let _ ← consume [uP a, uP b, uP c, uG d]
  aligned dst.toNat 32
  aligned src.toNat 32
  copyTail obj (.copy pub dst src ((BitVec.ofNat 16 (bits g 15 0)).toInt) sstr.toInt (min rows.toNat (bits g 31 16))
    (min rowb.toNat (bits g 47 32)) obj)

def copymBody (a b c : PReg) (d : GReg) (lx ly : BitVec 4) (esz : BitVec 2) (dir : Bool) : M Next := do
  let dst ← regP a
  let src ← regP b
  let obj ← regP c
  let pitch ← regG d
  let _ ← consume [uP a, uP b, uP c, uG d]
  aligned dst.toNat 32
  aligned src.toNat 32
  let row := 2 ^ lx.toNat * 2 ^ esz.toNat
  if pitch.toNat ≠ 0 ∧ (pitch.toNat < row ∨ pitch.toNat % 32 ≠ 0 ∨ row % 32 ≠ 0) then trap .misaligned pitch
  copyTail obj (.copym dst src pitch.toNat lx.toNat ly.toNat (2 ^ esz.toNat) (!dir) obj)

section
variable (s : State)

theorem exec_bread (d : GReg) (a : PReg) (b c : GReg) (bentry centry : BitVec 22) (stride : BitVec 16) :
    exec (.bread d a b c bentry centry stride) s = perform .noText (.bread d a b c bentry centry stride) (breadBody d a b c bentry centry stride) s := rfl
theorem exec_copy (pub : Bool) (a b c : PReg) (d : GReg) (rowb : BitVec 11) (rows sstr : BitVec 16) :
    exec (.copy pub a b c d rowb rows sstr) s = perform .noText (.copy pub a b c d rowb rows sstr) (copyBody pub a b c d rowb rows sstr) s := rfl
theorem exec_copym (a b c : PReg) (d : GReg) (lx ly : BitVec 4) (esz : BitVec 2) (dir : Bool) :
    exec (.copym a b c d lx ly esz dir) s = perform .noText (.copym a b c d lx ly esz dir) (copymBody a b c d lx ly esz dir) s := rfl

end

/-! ### The obligation -/

/-- Fields of a register word as quotients (R300, R304). -/
theorem bits_high (v : Word) : bits v 63 48 = v.toNat / 2 ^ 48 := by
  have := v.isLt
  simp only [bits]
  omega

section
variable {s : State} (hs : s.steady = true) (htext : s.now.text = none) (hset : s.settled s.curCore s.curSlot = true)
include hs hset

theorem Runs.bread {d : GReg} {a : PReg} {e g : GReg} (bentry centry : BitVec 22) (stride : BitVec 16) (hq : s.here.bulkq.length < 2)
    (hdst : (s.now.readP a.toNat).toNat % 64 = 0) (h0 : 0 < weightOf (s.now.readG e.toNat)) (hw : weightOf (s.now.readG e.toNat) < s.now.wheld)
    {rows cols : Nat} (hrows : rows = min (bits (s.now.readG d.toNat) 15 0) (bits (s.now.readG d.toNat) 47 32))
    (hcols : cols = min (bits (s.now.readG d.toNat) 31 16) (bits (s.now.readG d.toNat) 63 48)) (hn : 0 < rows * cols) :
    Runs (breadBody d a e g bentry centry stride) s s.here s.now .seq
      { s.here with
        bulkq := s.here.bulkq ++ [s.now.command s.curSlot (.bread s.here.nextRequest (s.now.readP a.toNat) stride.toInt rows cols
          (bits (s.now.readG d.toNat) 31 16))]
        requests := Assoc.put s.here.requests s.here.nextRequest ⟨weightOf (s.now.readG e.toNat), s.now.whome, s.now.readG g.toNat,
          (bentry ++ 0#2).setWidth 32, (centry ++ 0#2).setWidth 32, 0, 0, 0, false⟩
        nextRequest := s.here.nextRequest + 1 }
      (s.now.spent (s.now.anyMarked [uG d, uP a, uG e, uG g]) (s.now.wheld - weightOf (s.now.readG e.toNat))) := by
  refine (Runs.regG d).bind ((Runs.regP a).bind ((Runs.regG e).bind ((Runs.regG g).bind ((Runs.consume _).bind ((Runs.aligned hdst).bind ?_)))))
  refine (Runs.checkWeight (y := s.now.tasted _) h0 hw).bind ((Runs.bulkReady (u := .bulk) (y := s.now.tasted _) hs hset hq rfl).bind (Runs.getCtx.bind ((Runs.handOver _).bind ?_)))
  rw [← hrows, ← hcols, decide_eq_false (by omega : ¬rows * cols = 0)]
  exact Runs.enqueueBread hs rfl

include htext in
/-- A copy whose object lies in local space joins the queue of its engine, behind its checks. -/
theorem Runs.copyQueued {i : Instr} {body : M Next} {op : BulkOp} {obj : Ptr} {ks : List Nat} {p : Bool} (he : exec i s = perform .noText i body s)
    (hl : instrBytes i = 16) (hq : s.here.copyq.length < 2) (hobj : obj.toNat % 16 = 0) (hr : s.reachesLocal obj 16 .update ks)
    (hop : op.unit = .copy) (hc : op.plan.count ≠ 0)
    (hb : Runs (copyTail obj op) s s.here (s.now.tasted p) .seq { s.here with copyq := s.here.copyq ++ [s.now.command s.curSlot op] } (s.now.tasted p) →
      Runs body s s.here s.now .seq { s.here with copyq := s.here.copyq ++ [s.now.command s.curSlot op] } (s.now.tasted p)) :
    ∃ t, exec i s = .next t ∧ t.here.bulkQueue op.unit = s.here.bulkQueue op.unit ++ [s.now.command s.curSlot op] ∧
      (∀ u, u = .bulk ∨ u = .copy → u ≠ op.unit → t.here.bulkQueue u = s.here.bulkQueue u) ∧ SameRegs s.now t.now ∧ Retires 16 p s t ∧
      ∀ k, t.peek k = s.peek k := by
  have hplaces : (s.now.tasted p).places = [] := (State.steady_fresh hs).2
  have htail := hb ((Runs.objectKeys hobj hr hplaces).bind ((Runs.bulkReady (u := .copy) (y := s.now.tasted p) hs hset hq rfl).bind (Runs.enqueueCopy hs hop hc)))
  obtain ⟨t, hex, hT, hS⟩ := Runs.spends (w := s.now.wheld) hs he (refusal_noText htext) hl htail rfl
  refine ⟨t, hex, ?_, fun u hu hne => ?_, hS.regs, hS.retires, hT.peek⟩
  · rw [hop]
    exact (Core.eq_of_bare Core.copyq hT.here).trans rfl
  · obtain rfl : u = .bulk := hu.resolve_right (hop ▸ hne)
    exact (Core.eq_of_bare Core.bulkq hT.here).trans rfl

end

/-- Settles O27: behind the checks of its operands each command reaches `enqueueBulk`, which puts it at the end of its engine's queue. -/
theorem bulkQueued : Obligations.BulkQueued := by
  intro s hs htext hset a b c d e g bentry centry rowb rows sstr lx ly esz pub dir ks
  refine ⟨fun hq hdst h0 hw hn => ?_, fun hq hdst hsrc hobj hr => ?_, fun hq hdst hsrc hobj hr hpitch => ?_⟩
  · have hbody := Runs.bread hs hset (d := d) (g := g) bentry centry rows hq hdst h0 hw
      (rows := min ((s.now.readG d.toNat).toNat % 2 ^ 16) ((s.now.readG d.toNat).toNat / 2 ^ 32 % 2 ^ 16))
      (cols := min ((s.now.readG d.toNat).toNat / 2 ^ 16 % 2 ^ 16) ((s.now.readG d.toNat).toNat / 2 ^ 48))
      (by simp only [bits, pow_zero, Nat.div_one]) (by rw [bits_high]; rfl) hn
    obtain ⟨t, hex, hT, hS⟩ := Runs.spends hs (exec_bread s d a e g bentry centry rows) (refusal_noText htext) rfl hbody rfl
    refine ⟨⟨t, hex, (Core.eq_of_bare Core.bulkq hT.here).trans rfl, fun u hu hne => ?_, hS.regs, hS.retires, hT.peek⟩, t, hex, hS.wheld, ?_⟩
    · obtain rfl : u = .copy := hu.resolve_left hne
      exact (Core.eq_of_bare Core.copyq hT.here).trans rfl
    · rw [Core.eq_of_bare Core.requests hT.here]
      exact (Assoc.find_put ..).trans (if_pos rfl)
  · intro op hc
    refine Runs.copyQueued hs htext hset (exec_copy s pub a b c d rowb rows sstr) rfl hq hobj hr rfl hc fun htail => ?_
    refine (Runs.regP a).bind ((Runs.regP b).bind ((Runs.regP c).bind ((Runs.regG d).bind ((Runs.consume _).bind ((Runs.aligned hdst).bind
      ((Runs.aligned hsrc).bind ?_))))))
    have hstep : BitVec.ofNat 16 (bits (s.now.readG d.toNat) 15 0) = (s.now.readG d.toNat).extractLsb' 0 16 := by
      apply BitVec.eq_of_toNat_eq
      simp [bits]
    rw [hstep]
    exact htail
  · intro op hc
    refine Runs.copyQueued hs htext hset (exec_copym s a b c d lx ly esz dir) rfl hq hobj hr rfl hc fun htail => ?_
    refine (Runs.regP a).bind ((Runs.regP b).bind ((Runs.regP c).bind ((Runs.regG d).bind ((Runs.consume _).bind ((Runs.aligned hdst).bind
      ((Runs.aligned hsrc).bind ?_))))))
    rw [if_neg fun hbad => ?_]
    · exact htail
    · obtain ⟨hne, hor⟩ := hbad
      obtain h | ⟨h1, h2, h3⟩ := hpitch
      · exact hne (by rw [h]; rfl)
      · omega

end Sys2Proof.Machine
end

section
/-! SUPPORT. Effects that stop: a trap before any write, or a wait that keeps the moves made so far (R213, R230). -/

namespace Sys2Proof.Machine

/-! ### What an effect does before it stops -/

/-- From every state with `P` the effect `m` stops in a way that `E` allows. -/
def Stops {α : Type} (P : State → Prop) (m : M α) (E : Stop → Prop) : Prop := ∀ t, P t → ∃ e, m t = .error e ∧ E e

section
variable {α β : Type} {P Q : State → Prop} {E : Stop → Prop}

theorem Does.stops {m : M α} {f : α → M β} {a : α} (h : Does P m a Q) (h' : Stops Q (f a) E) : Stops P (m >>= f) E := by
  intro t ht
  obtain ⟨u, hu, hq⟩ := h t ht
  obtain ⟨e, he, hE⟩ := h' u hq
  exact ⟨e, by rw [M.bind_apply, hu]; exact he, hE⟩

theorem Stops.bind {m : M α} {f : α → M β} (h : Stops P m E) : Stops P (m >>= f) E := by
  intro t ht
  obtain ⟨e, he, hE⟩ := h t ht
  exact ⟨e, by rw [M.bind_apply, he]; rfl, hE⟩

theorem Stops.trap (c : Cause) (v : Word) : Stops P (Machine.trap c v : M α) (· = .trap c v) := fun _ _ => ⟨_, rfl, rfl⟩

end

section
variable {s : State} {i : Instr} {body : M Next} {who : Who}

/-- An instruction whose effect traps takes that trap where it stands. -/
theorem Stops.traps {bytes : Nat} {cause : Cause} {v : Word} (hs : s.steady = true) (he : exec i s = perform who i body s)
    (hr : s.refusal s.curCore s.curSlot who = none) (hl : instrBytes i = bytes) (hb : Stops (Local s · s.here s.now) body (· = .trap cause v)) :
    Traps i bytes cause v s := by
  obtain ⟨hp, -, -, -, hlates⟩ := State.steady_iff hs
  obtain ⟨e, hbody, rfl⟩ := hb s (.refl s)
  rw [Traps, he, perform_trap hp hlates hr hbody, hl]
  rfl

/-- An instruction whose effect leaves its context and its core changed from those of a state `s'` completes there. -/
theorem Does.performs {P : State → Prop} {nx : Next} {s' : State} {k : Core} {z : Ctx} {bytes : Nat} (hs : s.steady = true) (he : exec i s = perform who i body s)
    (hr : s.refusal s.curCore s.curSlot who = none) (hl : instrBytes i = bytes) (h0 : P s) (hb : Does P body nx (Local s' · k z))
    (hc : s'.curCore = s.curCore) (hslot : s'.curSlot = s.curSlot) (hn : nx ≠ .gone) (hk : k.pair = s.here.pair) (h1 : z.step1 = false)
    (h2 : z.after = none) : ∃ t, exec i s = .next t ∧ Local s' t k (z.retired' bytes nx) := by
  obtain ⟨hp, -, -, -, hlates⟩ := State.steady_iff hs
  obtain ⟨u, hu, hL⟩ := hb s h0
  have hx : u.ctx s.curCore s.curSlot = z := by
    rw [← hc, ← hslot]
    exact hL.ctx
  have hpair : (u.core s.curCore).pair = s.here.pair := by
    rw [← hk, ← hc]
    exact Core.eq_of_bare Core.pair hL.core
  have hdone := hL.setCtx (z.retired' bytes nx)
  rw [hL.curCore, hL.curSlot, hc, hslot] at hdone
  refine ⟨_, he.trans (perform_ok hp hlates hr hu hn (by rw [hx, h1]) (by rw [hx, h2]) ?_), ?_⟩
  · rw [Core.pairedWest, hpair]
    exact hp
  · rw [hx, hl]
    exact hdone

end

end Sys2Proof.Machine
end

section
/-! SUPPORT. The weight check of messages, and `start` (R93, R286, R294). -/

namespace Sys2Proof.Machine

/-! ### A message without object that has not the weight -/

theorem checkWeight_stops {s : State} {k : Core} {y : Ctx} {w : Nat} (h : w = 0 ∨ y.wheld ≤ w) :
    Stops (Local s · k y) (checkWeight w) (· = .trap .weightExhausted (BitVec.ofNat 64 w)) := by
  intro t ht
  refine ⟨_, ?_, rfl⟩
  simp only [checkWeight, M.bind_apply, getCtx_apply, M.andThen_ok, ht.ctxNow]
  rw [if_pos (by omega), trap_apply]

theorem sendMessage_stops {s : State} (kind : BitVec 4) (d a : GReg) (entry code : BitVec 32) (limit : Nat) (text : Option (List Byte))
    (h : weightOf (s.now.readG a.toNat) = 0 ∨ s.now.wheld ≤ weightOf (s.now.readG a.toNat)) :
    Stops (Local s · s.here s.now) (sendMessage kind d a none entry code limit text)
      (· = .trap .weightExhausted (BitVec.ofNat 64 (weightOf (s.now.readG a.toNat)))) := by
  refine Does.stops Runs.me (Does.stops (Runs.regG d) (Does.stops (Runs.regG a) (Does.stops Runs.getCtx (Does.stops (Runs.consume _)
    (Does.stops (Runs.pure _) (Stops.bind (checkWeight_stops h)))))))

theorem exec_send (d a : GReg) (o : Option (PReg × Scope)) (entry : BitVec 22) (s : State) :
    exec (.send d a o entry) s = perform .any (.send d a o entry) (sendMessage 0 d a o ((entry ++ 0#2).setWidth 32) 0 8 none) s := rfl
theorem exec_reply (d a : GReg) (o : Option (PReg × Scope)) (code : BitVec 32) (s : State) :
    exec (.reply d a o code) s = perform .noText (.reply d a o code) (sendMessage 1 d a o 0 code 8 none) s := rfl

/-! ### `start` -/

/-- The message whose arrival registers a started helper gets, but for g23. -/
def State.startMsg (s : State) (w : Nat) (x : Ctx) : Message :=
  { kind := 3, dest := 0, entry := 0, cookie := 0, code := 0, payload := (List.range 8).map fun i => x.readG (24 + i),
    marks := (List.range 8).map fun i => x.marked (24 + i), weight := w, dom := x.whome, sender := BitVec.ofNat 10 (s.lidOf s.curCore),
    sslot := BitVec.ofNat 4 s.curSlot, sgen := x.gen, tslot := 0, tgen := 0, obj := none, reason := 0, text := none }

/-- What `start` does behind the check of the weight. -/
def startTail (d : GReg) (w : Nat) (e v : Word) (vmark : Bool) (x : Ctx) (mark : Bool) (core n : Nat) : M Next := do
  let k ← getCore
  let waited := x.waiting.any fun y => y.on = .helper
  let go := if waited then k.nextSource = some 2 && k.starts.isEmpty else true
  match (if go && !k.stopped then k.freeHelper else none) with
  | none =>
    if d = 0 then waitOn .helper 0
    else
      setG d 0 mark
      pure .seq
  | some slot =>
    releaseHalf .co
    handOver w
    let s ← get
    let base := ((s.jobOf core).map (·.codebase)).getD 0
    let msg : Message :=
      { kind := 3, dest := 0, entry := 0, cookie := 0, code := 0, payload := (List.range 8).map fun i => x.readG (24 + i),
        marks := (List.range 8).map fun i => x.marked (24 + i), weight := w, dom := x.whome, sender := BitVec.ofNat 10 (s.lidOf core),
        sslot := BitVec.ofNat 4 n, sgen := x.gen, tslot := 0, tgen := 0, obj := none, reason := 0, text := none }
    modify fun s => s.startHelper core slot .started (base + BitVec.ofNat 72 (bits e 31 0)) (msg.regs.set 3 (v, vmark)) w x.whome
    if waited then modCore fun k => { k with rotation := 3 }
    let s ← get
    if d ≠ 0 then setG d (s.token core slot) mark
    pure .seq

def startBody (d a b c : GReg) : M Next := do
  let (core, n) ← me
  if 2 ≤ n then trap .privilege (instrLow (.start d a b c))
  let w := weightOf (← regG a)
  let e ← regG b
  let v ← regG c
  let x ← getCtx
  let mark ← consume ([uG a, uG b, uG c] ++ (List.range 8).map (24 + ·))
  if e.toNat % 4 ≠ 0 then trap .misaligned e
  checkWeight w
  startTail d w e v (x.marked (uG c)) x mark core n

theorem exec_start (d a b c : GReg) (s : State) : exec (.start d a b c) s = perform .noText (.start d a b c) (startBody d a b c) s := rfl

section
variable {s : State} (hslot : s.curSlot < 2) {d a b c : GReg} (he : (s.now.readG b.toNat).toNat % 4 = 0)
include hslot he

theorem startBody_stops (h : weightOf (s.now.readG a.toNat) = 0 ∨ s.now.wheld ≤ weightOf (s.now.readG a.toNat)) :
    Stops (Local s · s.here s.now) (startBody d a b c) (· = .trap .weightExhausted (BitVec.ofNat 64 (weightOf (s.now.readG a.toNat)))) := by
  refine Does.stops Runs.me ?_
  dsimp only
  rw [if_neg (by omega)]
  refine Does.stops (Runs.regG a) (Does.stops (Runs.regG b) (Does.stops (Runs.regG c) (Does.stops Runs.getCtx (Does.stops (Runs.consume _) ?_))))
  rw [if_neg (by omega)]
  exact Stops.bind (checkWeight_stops h)

/-- The checks of `start` pass, and its source marks are taken. -/
theorem startBody_does {Q : State → Prop} (h0 : 0 < weightOf (s.now.readG a.toNat)) (hw : weightOf (s.now.readG a.toNat) < s.now.wheld)
    (h : let p := s.now.anyMarked ([uG a, uG b, uG c] ++ (List.range 8).map (24 + ·))
      Does (Local s · s.here (s.now.tasted p)) (startTail d (weightOf (s.now.readG a.toNat)) (s.now.readG b.toNat) (s.now.readG c.toNat)
        (s.now.marked c.toNat) s.now p s.curCore s.curSlot) .seq Q) :
    Does (Local s · s.here s.now) (startBody d a b c) .seq Q := by
  refine Does.bind Runs.me ?_
  dsimp only
  rw [if_neg (by omega)]
  refine Does.bind (Runs.regG a) (Does.bind (Runs.regG b) (Does.bind (Runs.regG c) (Does.bind Runs.getCtx (Does.bind (Runs.consume _) ?_))))
  rw [if_neg (by omega)]
  exact Does.bind (Runs.checkWeight (y := s.now.tasted _) h0 hw) h

end

/-! ### A helper comes to life -/

theorem Core.freeHelper_range {k : Core} {n : Nat} (h : k.freeHelper = some n) : 2 ≤ n ∧ n ≤ 11 := by
  have := List.mem_of_find?_eq_some h
  simp only [List.mem_cons, List.not_mem_nil, or_false] at this
  omega

/-- What an instruction of slot 0 or 1 does to its context does not change which helper is free. -/
theorem Local.freeHelper {s t : State} {k : Core} {y : Ctx} (h : Local s t k y) (hslot : s.curSlot < 2) :
    (t.core s.curCore).freeHelper = s.here.freeHelper := by
  refine List.find?_congr fun n hn => ?_
  simp only [List.mem_cons, List.not_mem_nil, or_false] at hn
  rw [h.slots n (by omega), State.here]

/-- The state with a helper in slot `n` of the issuing core. -/
def State.helped (s : State) (n : Nat) (h : Ctx) : State := s.setCore s.curCore (s.here.setCtx n h)

/-- What differs in the issuing context alone still does when a helper has started. -/
theorem Local.startHelper {s t : State} {y : Ctx} {n : Nat} (h : Local s t s.here y) (hn : n ≠ s.curSlot) (role : Role) (pc : Ptr)
    (regs : List (Word × Bool)) (w : Nat) (dom : BitVec 24) :
    Local (s.helped n ((s.here.ctx n).helps role pc regs w dom)) (t.startHelper s.curCore n role pc regs w dom) s.here y := by
  have hctx : (t.core s.curCore).ctx n = s.here.ctx n := h.slots n hn
  rw [State.startHelper_eq, hctx]
  refine ⟨h.curCore, h.curSlot, h.bare, fun c hc => ?_, ?_, fun m hm => ?_, ?_⟩
  · have hc' : c ≠ s.curCore := hc
    simp only [State.helped, State.core_setCore, if_neg hc']
    exact h.others c hc'
  · show ((t.setCore s.curCore _).core s.curCore).bare = _
    rw [State.core_setCore, if_pos rfl]
    exact h.core
  · show ((t.setCore s.curCore _).core s.curCore).ctx m = ((s.setCore s.curCore _).core s.curCore).ctx m
    rw [State.core_setCore, if_pos rfl, State.core_setCore, if_pos rfl, Core.ctx_setCtx, Core.ctx_setCtx, h.slots m hm]
    rfl
  · show ((t.setCore s.curCore _).core s.curCore).ctx s.curSlot = _
    rw [State.core_setCore, if_pos rfl, Core.ctx_setCtx, if_neg hn.symm, h.ctx]

/-- The helper that has started stays as it is. -/
theorem Local.helper {s t : State} {k : Core} {h y : Ctx} {n : Nat} (ht : Local (s.helped n h) t k y) (hn : n ≠ s.curSlot) : t.ctx s.curCore n = h := by
  refine (ht.slots n hn).trans ?_
  show ((s.setCore s.curCore _).core s.curCore).ctx n = h
  rw [State.core_setCore, if_pos rfl, Core.ctx_setCtx, if_pos rfl]

/-- The context of `start` behind it: it holds the rest of its weight, and D has what it answers. -/
def Ctx.answered (x : Ctx) (p : Bool) (w : Nat) (d : GReg) (v : Word) : Ctx :=
  if d ≠ 0 then ((x.spent p w).writeG d.toNat v).mark d.toNat p else x.spent p w

theorem Ctx.answered_course (x : Ctx) (p : Bool) (w : Nat) (d : GReg) (v : Word) : (x.answered p w d v).course = (x.spent p w).course := by
  unfold Ctx.answered Ctx.writeG
  split <;> [split; skip] <;> rfl

theorem Ctx.answered_eaten (x : Ctx) (p : Bool) (w : Nat) (d : GReg) (v : Word) : (x.answered p w d v).eaten = (x.tasted p).eaten := by
  unfold Ctx.answered Ctx.writeG
  split <;> [split; skip] <;> rfl

theorem Ctx.answered_wheld (x : Ctx) (p : Bool) (w : Nat) (d : GReg) (v : Word) : (x.answered p w d v).wheld = w := by
  unfold Ctx.answered Ctx.writeG
  split <;> [split; skip] <;> rfl

theorem Ctx.answered_written (x : Ctx) (p : Bool) (w : Nat) (d : GReg) (v : Word) : GWritten x (x.answered p w d v) d v p := by
  unfold Ctx.answered
  split
  · refine (Ctx.gDone_written x p d v 0).of_regs ?_ ?_ ?_ <;> unfold Ctx.gDone Ctx.writeG <;> split <;> rfl
  · next hd =>
    obtain rfl := not_not.1 hd
    refine ⟨fun r => ?_, fun r => rfl, fun u => ?_⟩
    · rw [if_neg (by simp)]
      rfl
    · split
      · next hu =>
        subst hu
        simp [Ctx.marked]
      · rfl

theorem Ctx.answered_ends {s : State} {p : Bool} {w bytes : Nat} {d : GReg} {v : Word} {z : Ctx} (he : s.now.eaten = 0)
    (hz : z = (s.now.answered p w d v).retired' bytes .seq) :
    GWritten s.now z d v p ∧ z.wheld = w ∧ Counted s.now z p ∧ GoesOn s.now z bytes := by
  subst hz
  have hc := s.now.answered_course p w d v
  refine ⟨(s.now.answered_written p w d v).retired _ _, ?_, Ctx.counted_of_course hc ?_ bytes .seq, Ctx.goesOn_of_course hc bytes⟩
  · rw [Ctx.retired'_eq]
    exact s.now.answered_wheld p w d v
  · rw [Ctx.answered_eaten, Ctx.tasted_eaten he]

/-! ### What `start` does behind its checks -/

theorem Local.getCore_bind {s : State} {k : Core} {y : Ctx} {α : Type} {f : Core → M α} {a : α} {Q : State → Prop}
    (h : ∀ u, Local s u k y → Does (Local s · k y) (f (u.core s.curCore)) a Q) : Does (Local s · k y) (getCore >>= f) a Q := by
  intro t ht
  rw [M.bind_apply, getCore_apply, ht.curCore]
  exact h t ht t ht

section
variable {s : State} (hs : s.steady = true) (hslot : s.curSlot < 2) (hset : s.settled s.curCore s.curSlot = true)
  (hwait : s.now.waiting = none) (hstop : s.here.stopped = false) {w : Nat} {d : GReg} {e v : Word} {vmark p : Bool}
include hslot hwait

/-- The context that `start` brings to life in slot `n`. -/
def State.starts (s : State) (n w : Nat) (e v : Word) (vmark : Bool) : Ctx :=
  (s.here.ctx n).helps .started (((s.jobOf s.curCore).map (·.codebase)).getD 0 + BitVec.ofNat 72 (bits e 31 0))
    ((s.startMsg w s.now).regs.set 3 (v, vmark)) w s.now.whome

include hs hset hstop in
theorem startTail_starts {n : Nat} (hfree : s.here.freeHelper = some n) :
    Does (Local s · s.here (s.now.tasted p)) (startTail d w e v vmark s.now p s.curCore s.curSlot) .seq
      (Local (s.helped n (s.starts n w e v vmark)) · s.here (s.now.answered p (s.now.wheld - w) d
        (BitVec.ofNat 64 ((s.starts n w e v vmark).gen.toNat * 2 ^ 14 + n * 2 ^ 10 + s.lidOf s.curCore)))) := by
  have hn : n ≠ s.curSlot := by have := Core.freeHelper_range hfree; omega
  refine Local.getCore_bind fun t ht => ?_
  have hgo : (t.core s.curCore).stopped = false := (Core.eq_of_bare Core.stopped ht.core).trans hstop
  simp only [hwait, Option.any_none, hgo, ht.freeHelper hslot, hfree, Bool.false_eq_true, if_false, Bool.not_false, Bool.and_self, if_true]
  refine Does.bind (.of_apply fun u hu => releaseHalf_settled (hu.unpaired hs rfl) ?_ .co) ?_
  · exact hu.reads.settled rfl hset
  refine Does.bind (Runs.handOver w) (Does.get_bind fun u hu => ?_)
  have hjob : u.jobOf s.curCore = s.jobOf s.curCore := State.eq_of_bare (State.jobOf · s.curCore) hu.bare
  have hlid : u.lidOf s.curCore = s.lidOf s.curCore := State.eq_of_bare (State.lidOf · s.curCore) hu.bare
  rw [hjob, hlid]
  refine Does.bind (Q := (Local (s.helped n (s.starts n w e v vmark)) · s.here (s.now.spent p (s.now.wheld - w))))
    (.modify fun u hu => hu.startHelper hn ..) (Does.get_bind fun u hu => ?_)
  rw [State.token, hu.helper hn, State.eq_of_bare (State.lidOf · s.curCore) hu.bare]
  by_cases hd : d = 0
  · rw [if_neg (not_not.2 hd), Ctx.answered, if_neg (not_not.2 hd)]
    exact .pure _
  · rw [if_pos hd, Ctx.answered, if_pos hd]
    exact Does.bind (Runs.setG d _ p) (.pure _)

/-- With no slot free `start` answers 0 and keeps its weight. -/
theorem startTail_none (hfree : s.here.freeHelper = none) (hd : d ≠ 0) :
    Does (Local s · s.here (s.now.tasted p)) (startTail d w e v vmark s.now p s.curCore s.curSlot) .seq
      (Local s · s.here (s.now.answered p s.now.wheld d 0)) := by
  refine Local.getCore_bind fun t ht => ?_
  simp only [hwait, Option.any_none, ht.freeHelper hslot, hfree, ite_self]
  rw [if_neg hd, Ctx.answered, if_pos hd]
  exact (Runs.setG d 0 p).bind (.pure _)

end

/-! ### The arrival registers of a started helper -/

section
variable {s : State} {n w : Nat} {e v : Word} {vmark : Bool}

/-- An arrival register of the helper is the one of its list. -/
theorem State.starts_reg {i : Nat} {r : Word × Bool} (hr : ((s.startMsg w s.now).regs.set 3 (v, vmark))[i]? = some r) (hi : i < 12) :
    (s.starts n w e v vmark).readG (20 + i) = r.1 ∧ (s.starts n w e v vmark).marked (20 + i) = r.2 := by
  have hnodup : (((List.range 12).zip ((s.startMsg w s.now).regs.set 3 (v, vmark))).map (·.1)).Nodup := by
    rw [List.map_fst_zip (by simp [Message.regs])]
    exact List.nodup_range
  have hmem : (i, r) ∈ (List.range 12).zip ((s.startMsg w s.now).regs.set 3 (v, vmark)) :=
    List.mem_iff_getElem?.2 ⟨i, List.getElem?_zip_eq_some.2 ⟨by simp [hi], hr⟩⟩
  rw [State.starts, Ctx.readG_helps, Ctx.marked_helps]
  exact Ctx.receives_mem hnodup hmem _

/-- Who started the helper, with what weight, and with which word (R294). -/
theorem State.starts_head (hslot : s.curSlot < 2) :
    let y := s.starts n w e v vmark
    y.readG 20 = BitVec.ofNat 64 (s.lidOf s.curCore % 1024) ∧ y.readG 21 = BitVec.ofNat 64 w ∧
      y.readG 22 = BitVec.ofNat 64 (s.now.gen.toNat * 2 ^ 12 + s.curSlot * 2 ^ 8 + 3 * 2 ^ 4 + 8) ∧ y.readG 23 = v ∧ y.marked 23 = vmark := by
  have hreg {i : Nat} {r : Word × Bool} (hr : ((s.startMsg w s.now).regs.set 3 (v, vmark))[i]? = some r) (hi : i < 12) :=
    State.starts_reg (n := n) (e := e) hr hi
  refine ⟨(hreg (i := 0) rfl (by decide)).1.trans ?_, (hreg (i := 1) rfl (by decide)).1, (hreg (i := 2) rfl (by decide)).1.trans ?_,
    hreg (i := 3) rfl (by decide)⟩
  · apply BitVec.eq_of_toNat_eq
    simp only [State.startMsg, BitVec.toNat_setWidth, BitVec.toNat_ofNat]
  · have hsl : (BitVec.ofNat 4 s.curSlot).toNat = s.curSlot := by
      rw [BitVec.toNat_ofNat]
      omega
    simp [Message.kindWord, State.startMsg, hsl]

/-- The payload is that of the issuer, with its marks. -/
theorem State.starts_payload {i : Nat} (hi : i < 8) :
    (s.starts n w e v vmark).readG (24 + i) = s.now.readG (24 + i) ∧ (s.starts n w e v vmark).marked (24 + i) = s.now.marked (24 + i) := by
  have hr : ((s.startMsg w s.now).regs.set 3 (v, vmark))[4 + i]? = some (s.now.readG (24 + i), s.now.marked (24 + i)) := by
    rw [List.getElem?_set_ne (by omega), Message.regs, List.getElem?_append_right (by simp)]
    simp [hi, State.startMsg]
  have h := State.starts_reg (n := n) (e := e) hr (by omega)
  rwa [← Nat.add_assoc] at h

end

theorem State.starts_facts (s : State) (n w : Nat) (e v : Word) (vmark : Bool) :
    let x := s.here.ctx n
    let y := s.starts n w e v vmark
    y.live = true ∧ y.role = .started ∧ y.gen = x.gen + 1 ∧ y.halted = x.halted ∧ y.wheld = w ∧ y.whome = s.now.whome ∧
      y.pc = ((s.jobOf s.curCore).map Job.codebase).getD 0 + BitVec.ofNat 72 (e.toNat % 2 ^ 32) := by
  obtain ⟨hlive, hrole, hgen, hhalted, hwheld, hwhome, hpc⟩ := Ctx.helps_facts (s.here.ctx n) .started
    (((s.jobOf s.curCore).map (·.codebase)).getD 0 + BitVec.ofNat 72 (bits e 31 0)) ((s.startMsg w s.now).regs.set 3 (v, vmark)) w s.now.whome
  refine ⟨hlive, hrole, hgen, hhalted, hwheld, hwhome, hpc.trans ?_⟩
  simp only [bits, pow_zero, Nat.div_one]

/-! ### The obligation -/

theorem weightExhausted_holds : weightExhausted := by
  intro s hs htext d a b c entry code w hw
  refine ⟨?_, ?_, fun hslot hb => ?_⟩
  · exact (sendMessage_stops 0 d a _ 0 8 none hw).traps hs (exec_send d a none entry s) rfl rfl
  · exact (sendMessage_stops 1 d a 0 code 8 none hw).traps hs (exec_reply d a none code s) (refusal_noText htext) rfl
  · exact (startBody_stops hslot hb hw).traps hs (exec_start d a b c s) (refusal_noText htext) rfl

theorem startResult_holds : startResult := by
  intro s hs htext hslot hstop hwait hset d a b c w e p h0 hw he
  obtain ⟨-, h1, h2, heaten, -⟩ := State.steady_iff hs
  refine ⟨fun n hfree => ?_, fun hfree hd => ?_⟩
  · have hn : n ≠ s.curSlot := by have := Core.freeHelper_range hfree; omega
    have hcourse := fun v => s.now.answered_course p (s.now.wheld - w) d v
    have hbody := startBody_does (c := c) hslot he h0 hw (startTail_starts (d := d) hs hslot hset hwait hstop hfree)
    obtain ⟨t, hex, hT⟩ := hbody.performs hs (exec_start d a b c s) (refusal_noText htext) rfl (.refl s) rfl rfl (by simp) rfl ((Ctx.eq_of_course Ctx.step1 (hcourse _)).trans h1)
      ((Ctx.eq_of_course Ctx.after (hcourse _)).trans h2)
    obtain ⟨hg, hweight, hcount, hon⟩ := Ctx.answered_ends heaten hT.now
    obtain ⟨h20, h21, h22, h23, hm23⟩ := State.starts_head (n := n) (w := w) (e := e) (v := s.now.readG c.toNat) (vmark := s.now.marked c.toNat) hslot
    obtain ⟨hlive, hrole, hgen, hhalted, hwheld, hwhome, hpc⟩ := s.starts_facts n w e (s.now.readG c.toNat) (s.now.marked c.toNat)
    refine ⟨t, hex, ?_, hweight, ⟨hcount, hon⟩, hT.peek⟩
    have hhelper : t.ctx s.curCore n = s.starts n w e (s.now.readG c.toNat) (s.now.marked c.toNat) := hT.helper hn
    dsimp only
    rw [hhelper]
    exact ⟨hlive, hrole, hgen, hhalted, hwheld, hwhome, hpc, h20, h21, h22, h23, hm23, fun i hi => State.starts_payload hi, hg⟩
  · have hcourse := s.now.answered_course p s.now.wheld d 0
    obtain ⟨t, hex, hT⟩ := Runs.completes hs (exec_start d a b c s) (refusal_noText htext)
      (startBody_does hslot he h0 hw (startTail_none hslot hwait hfree hd)) (by simp) rfl ((Ctx.eq_of_course Ctx.step1 hcourse).trans h1)
      ((Ctx.eq_of_course Ctx.after hcourse).trans h2)
    obtain ⟨hg, hweight, hcount, hon⟩ := Ctx.answered_ends heaten hT.now
    exact ⟨t, hex, hT.onlyHere rfl, hg, hweight, hcount, hon⟩

/-- Settles O23: the weight check comes before any write, and behind it `start` fills the slot of its helper, or answers 0. -/
theorem weightAndStart : Obligations.WeightAndStart := ⟨weightExhausted_holds, startResult_holds⟩

end Sys2Proof.Machine
end

section
/-! SUPPORT. Operations at home on bytes of local space (R71, R145, R152, R154): what they answer, and the state behind them. -/

namespace Sys2Proof.Machine

/-! ### Memory behind an operation -/

/-- The state behind an operation on the bytes at `ks` at their home. -/
def State.homed (s : State) (ks : List Nat) (op : HomeOp) (p : Bool) : State := (s.homeOp ks op p).2.2

section
variable (s : State) (ks : List Nat) (op : HomeOp) (p : Bool)

theorem State.homed_read : s.homed ks .read p = s := rfl

/-- An operation that writes leaves what it makes of the old bytes, with the mark of what it reads. -/
theorem State.homed_writes (h : op ≠ .read) : s.homed ks op p =
    (let t := s.writeH (ks.zip (bytesOfBits ks.length (op.apply ks.length (bitsOfBytes (ks.map s.peek))))) (p || (ks.any s.poisoned && op.reads))
      if keySpace (ks.headD 0) = 1 then { t with hostLines := Assoc.put t.hostLines (lineOf (ks.headD 0)) true } else t) := by
  cases op with
  | read => exact absurd rfl h
  | _ => rfl

theorem State.homeOp_old : (s.homeOp ks op p).1 = bitsOfBytes (ks.map s.peek) := by cases op <;> rfl

theorem State.homeOp_mark : (s.homeOp ks op p).2.1 = ks.any s.poisoned := by cases op <;> rfl

theorem State.homeOp_eq : s.homeOp ks op p = (bitsOfBytes (ks.map s.peek), ks.any s.poisoned, s.homed ks op p) :=
  Prod.ext (s.homeOp_old ks op p) (Prod.ext (s.homeOp_mark ks op p) rfl)

theorem State.bare_pokes (cells : List (Nat × Byte)) : ∀ s : State, (s.pokes cells).bare = s.bare.pokes cells := by
  induction cells with
  | nil => exact fun _ => rfl
  | cons e t ih => exact fun s => ih _

theorem State.bare_writeH (cells : List (Nat × Byte)) (m : Bool) : (s.writeH cells m).bare = s.bare.writeH cells m := by
  show (s.pokes cells).bare.markWrite (cells.map (·.1)) m = _
  rw [State.bare_pokes]
  rfl

theorem State.homed_bare : (s.homed ks op p).bare = s.bare.homed ks op p := by
  by_cases h : op = .read
  · subst h
    rfl
  · rw [State.homed_writes _ _ _ _ h, State.homed_writes _ _ _ _ h]
    have hw := s.bare_writeH (ks.zip (bytesOfBits ks.length (op.apply ks.length (bitsOfBytes (ks.map s.peek)))))
      (p || (ks.any s.poisoned && op.reads))
    dsimp only
    split
    · exact congrArg (fun b : State => { b with hostLines := Assoc.put b.hostLines (lineOf (ks.headD 0)) true }) hw
    · exact hw

theorem State.homed_still : (s.homed ks op p).still = s.still := by
  by_cases h : op = .read
  · subst h
    rfl
  · rw [State.homed_writes _ _ _ _ h]
    dsimp only
    split
    · exact (congrArg (fun b : State => { b with hostLines := [] }) (s.still_writeH ..) :)
    · exact s.still_writeH ..

theorem State.homed_cores : (s.homed ks op p).cores = s.cores := State.eq_of_still State.cores (s.homed_still ks op p)
theorem State.homed_curCore : (s.homed ks op p).curCore = s.curCore := State.eq_of_still State.curCore (s.homed_still ks op p)
theorem State.homed_curSlot : (s.homed ks op p).curSlot = s.curSlot := State.eq_of_still State.curSlot (s.homed_still ks op p)
theorem State.homed_core (c : Nat) : (s.homed ks op p).core c = s.core c := by rw [State.core, State.homed_cores]; rfl
theorem State.homed_ctx (c n : Nat) : (s.homed ks op p).ctx c n = s.ctx c n := by rw [State.ctx, State.homed_core]; rfl
theorem State.homed_here : (s.homed ks op p).here = s.here := by rw [State.here, State.homed_curCore, State.homed_core]; rfl

end

section
variable {s : State} {ks : List Nat} {op : HomeOp} {p : Bool}

/-- The bytes behind an operation that writes. -/
theorem State.peek_homed_writes (h : op ≠ .read) (k : Nat) : (s.homed ks op p).peek k =
    (s.writeH (ks.zip (bytesOfBits ks.length (op.apply ks.length (bitsOfBytes (ks.map s.peek))))) (p || (ks.any s.poisoned && op.reads))).peek k := by
  rw [State.homed_writes _ _ _ _ h]
  dsimp only
  split <;> rfl

/-- Bytes that the operation does not name stay. -/
theorem State.peek_homed_other {k : Nat} (hk : k ∉ ks) : (s.homed ks op p).peek k = s.peek k := by
  by_cases h : op = .read
  · subst h
    rfl
  · rw [State.peek_homed_writes h]
    exact State.peek_writeH_other (k := k) (fun e he hek => hk (hek ▸ (List.of_mem_zip he).1)) s _

/-- The bytes of the operation are what it makes of them. -/
theorem State.peek_homed (hn : ks.Nodup) (h : op ≠ .read) :
    ks.map (s.homed ks op p).peek = bytesOfBits ks.length (op.apply ks.length (bitsOfBytes (ks.map s.peek))) := by
  rw [List.map_congr_left fun k _ => State.peek_homed_writes h k]
  generalize hnew : bytesOfBits ks.length (op.apply ks.length (bitsOfBytes (ks.map s.peek))) = new
  have hlen : new.length = ks.length := by rw [← hnew, bytesOfBits_length]
  have hkeys : ((ks.zip new).map (·.1)).Nodup := by
    rw [List.map_fst_zip (by omega)]
    exact hn
  refine List.ext_getElem (by simp [hlen]) fun i hi hi' => ?_
  rw [List.getElem_map]
  have hki : i < ks.length := by simpa using hi
  have hmem : (ks[i], new[i]) ∈ ks.zip new := List.mem_iff_getElem.2 ⟨i, by simpa [hlen] using hki, by simp⟩
  exact State.peek_writeH_mem hkeys hmem s _

/-- An operation on bytes of local space changes nothing but memory and its marks. -/
theorem State.homed_local (hk : ∀ k ∈ ks, 3 ≤ keySpace k) :
    ({ (s.homed ks op p) with mem := [], poison := [] } : State) = { s with mem := [], poison := [] } := by
  by_cases h : op = .read
  · subst h
    rfl
  · have hhead : keySpace (ks.headD 0) ≠ 1 := by
      cases ks with
      | nil => simp [keySpace]
      | cons k l => have := hk k List.mem_cons_self; simp; omega
    have hpokes : ∀ (cells : List (Nat × Byte)) (t : State), (∀ e ∈ cells, 3 ≤ keySpace e.1) →
        ({ (t.pokes cells) with mem := [], poison := [] } : State) = { t with mem := [], poison := [] } := by
      intro cells
      induction cells with
      | nil => exact fun _ _ => rfl
      | cons e l ih =>
        intro t hcells
        refine (ih _ fun x hx => hcells x (List.mem_cons_of_mem _ hx)).trans ?_
        have := hcells e List.mem_cons_self
        rw [State.poke, if_neg (by omega)]
    rw [State.homed_writes _ _ _ _ h]
    dsimp only
    rw [if_neg hhead]
    exact hpokes _ s fun e he => hk _ (List.of_mem_zip he).1

end

/-! ### The operation as a part of an instruction -/

section
variable {t : State}

/-- A release half over a region finds nothing to do where nothing waits to be made visible. -/
theorem releaseOver_settled (hp : (t.core t.curCore).pairedWest t.curSlot = false) (hs : t.settled t.curCore t.curSlot = true) (sc : Scope)
    (rgn : Option Region) : releaseOver sc rgn t = .ok ((), t) := by
  simp only [State.settled, Bool.and_eq_true, decide_eq_true_eq] at hs
  obtain ⟨⟨⟨⟨⟨hsb, hcv⟩, hhost⟩, hbi⟩, -⟩, hrem⟩ := hs
  simp [releaseOver, State.holding, Core.holding, hp, drainPicked, hsb, splitSb, Core.dirtyLines, hcv, hbi, State.awaitsAck, hrem, hhost]

/-- With an empty store buffer a word of local space has nothing to clear. -/
theorem clearWord_local {ks : List Nat} (hp : (t.core t.curCore).pairedWest t.curSlot = false) (hsb : (t.ctx t.curCore t.curSlot).sb = [])
    (hk : 3 ≤ keySpace (ks.headD 0)) : clearWord ks t = .ok ((), t) := by
  have h2 : keySpace (ks.headD 0) ≠ 2 := by omega
  have h1 : ¬keySpace (ks.headD 0) ≤ 1 := by omega
  simp only [clearWord, M.bind_apply, me_apply, M.andThen_ok, M.get_apply, M.ite_apply, drainPicked, getCtx_apply, hsb, splitSb, h2, h1]
  simp [State.holding, Core.holding, hp]

end

/-- Bytes of local space that an operation of the issuing context reaches, with nothing in its way. -/
structure State.LocalWord (s : State) (own : Prop) (ks : List Nat) : Prop where
  ne : ks ≠ []
  passes : ∀ k ∈ ks, s.LocalPasses own k
  unfenced : ∀ k ∈ ks, s.keyFenced k = false
  quiet : ∀ k ∈ ks, keySpace k = 3 → s.unwatched (keyCore k) = true
  watch : s.unwatched s.curCore = true

/-- The bytes of an access that reaches local space. -/
theorem State.reachesLocal.word {s : State} {own : Prop} {va : Ptr} {n : Nat} {k : Access} {ks : List Nat} (h : s.reachesLocal va n k ks) (hn : 0 < n)
    (hu : s.unheld ks) (hown : own → ∀ k ∈ ks, keySpace k = 3 ∧ keyCore k = s.curCore) : s.LocalWord own ks := by
  obtain ⟨key, hl, hkey, rfl, -, hall, hwatch, howner⟩ := h
  have hks : ∀ k ∈ s.keysOf key n, 3 ≤ keySpace k ∧ s.keyFenced k = false ∧ s.wayTo s.curCore k = true := by
    simpa [and_assoc] using hall
  refine ⟨?_, fun k hk => ⟨(hks k hk).1, (hks k hk).2.2, hu.imp id fun h => h k hk, fun h => hown h k hk⟩, fun k hk => (hks k hk).2.1,
    fun k hk h3 => ?_, hwatch⟩
  · simp only [State.keysOf, ne_eq, List.map_eq_nil_iff, List.range_eq_nil]
    omega
  · have hkey3 : keySpace key = 3 := by
      by_contra hne
      exact keySpace_keysOf (by omega) hk h3
    have hbound := State.locate_bound (congrArg Prod.fst hl) hkey3
    obtain ⟨j, l, hlist⟩ := List.exists_cons_of_ne_nil (List.ne_nil_of_mem hk)
    have hj : j ∈ s.keysOf key n := hlist ▸ List.mem_cons_self
    rw [hlist, List.headD_cons, keyCore_keysOf hkey3 hbound hj] at howner
    rw [keyCore_keysOf hkey3 hbound hk]
    exact howner

section
variable {s t : State} {own : Prop} {y : Ctx} {ks : List Nat} {op : HomeOp} {p : Bool}

/-- Frames around a state are frames around what an operation makes of it. -/
theorem LocalReads.homed (h : LocalReads s own t y) : LocalReads (s.homed ks op p) own (t.homed ks op p) y := by
  obtain ⟨v, x, hl, hx, hown⟩ := h
  refine ⟨v, x, ?_, hx, by rw [State.homed_here]; exact hown⟩
  rw [State.homed_here]
  refine ⟨?_, ?_, ?_, fun c hc => ?_, ?_, fun n hn => ?_, ?_⟩ <;> simp only [State.homed_curCore, State.homed_curSlot, State.homed_core] at *
  · exact hl.curCore
  · exact hl.curSlot
  · rw [State.homed_bare, State.homed_bare, hl.bare]
  · exact hl.others c hc
  · exact hl.core
  · exact hl.slots n hn
  · exact hl.ctx

theorem State.LocalWord.head (h : s.LocalWord own ks) : ks.headD 0 ∈ ks := by
  obtain ⟨k, l, rfl⟩ := List.exists_cons_of_ne_nil h.ne
  exact List.mem_cons_self

/-- An operation at the home of bytes in local space: it answers with the old bytes, and takes their mark when it reads them. -/
theorem LocalReads.atHome (hs : s.steady = true) (hw : s.LocalWord own ks) (hset : s.settled s.curCore s.curSlot = true) (hy : y.sb = []) :
    Does (LocalReads s own · y) (Machine.atHome ks op p) (bitsOfBytes (ks.map s.peek), ks.any s.poisoned)
      (LocalReads (s.homed ks op p) own · (y.tasted (ks.any s.poisoned && op.reads))) := by
  have F := LocalReads.framed s own
  have hpair := (State.steady_iff hs).1
  have hk := hw.passes _ hw.head
  have h2 : keySpace (ks.headD 0) ≠ 2 := by have := hk.space; omega
  have h0 : keySpace (ks.headD 0) ≠ 0 := by have := hk.space; omega
  have h1 : ¬(lineOf (ks.headD 0) * 64) / 2 ^ 64 = 1 := by
    have := hk.line.space
    simp only [keySpace] at this
    omega
  have hle : ¬keySpace (ks.headD 0) ≤ 1 := by have := hk.space; omega
  have hbi : s.biPending = [] := by
    simp only [State.settled, Bool.and_eq_true, decide_eq_true_eq] at hset
    exact hset.1.1.2
  refine F.me_bind (Does.get_bind fun u hu => Does.bind (.of_apply fun v hv => homesAgreed_unpaired (F.unpaired hpair hv) ks) ?_)
  refine Does.when_then (fun _ => .of_apply fun v hv => clearWord_local (F.unpaired hpair hv) ?_ hk.space) (Does.get_bind fun u hu => ?_)
  · have hsb := congrArg Ctx.sb (F.ctx hv)
    rw [F.curCore hv, F.curSlot hv]
    exact hsb.trans hy
  have hfence : u.keyFenced (ks.headD 0) = false := (hu.state_part (State.keyFenced · _)).trans (hw.unfenced _ hw.head)
  have hpend : u.biPending = [] := (hu.state_part State.biPending).trans hbi
  dsimp only
  rw [if_neg h2, hfence, if_neg Bool.false_ne_true, hpend, List.any_nil, if_neg Bool.false_ne_true, if_neg (fun h => h0 h.2.1)]
  refine (LocalReads.request hk).bind (Does.get_bind fun v hv => ?_)
  have htake : v.takeHost (lineOf (ks.headD 0)) = v := by rw [State.takeHost, if_neg fun h => h1 h.1]
  have htouch : v.touchSlice s.curCore (ks.headD 0) false = v := by rw [State.touchSlice, if_neg hle]
  have hold : v.homeOp ks op p = (bitsOfBytes (ks.map s.peek), ks.any s.poisoned, v.homed ks op p) := by
    rw [State.homeOp_eq, hv.state_part (fun u => ks.map u.peek), hv.state_part (fun u => ks.any u.poisoned)]
  rw [htake, htouch, hold]
  have F' := LocalReads.framed (s.homed ks op p) own
  have hH : LocalReads (s.homed ks op p) own (v.homed ks op p) y := hv.homed
  have hquiet (k : WatchKind) (c : Nat) (n : Option Nat) : (v.homed ks op p).watchOwner ks k c n = v.homed ks op p := by
    refine State.watchOwner_quiet (fun key hkey h3 => ?_) ..
    refine (State.unwatched_congr (s := s) ?_).trans (hw.quiet key hkey h3)
    rw [State.homed_core]
    exact F.watches hv _
  refine Does.bind (fun t _ => ⟨_, M.set_apply .., by rw [hquiet]; exact hH⟩) (F'.eat_then ?_)
  exact Does.when_then (fun _ => .of_apply fun w hw => passLoad_of_unpaired (F'.unpaired (by rw [State.homed_here, State.homed_curSlot]; exact hpair) hw) _)
    (.pure _)

end

end Sys2Proof.Machine
end

section
/-! SUPPORT. Messages (R92, R285, R286, R288 to R290, R292): the object that is named, the code that is read, and the packet that enters the port. -/

namespace Sys2Proof.Machine

/-! ### Steps within a frame -/

theorem Does.aligned {P : State → Prop} {va n : Nat} (h : va % n = 0) : Does P (Machine.aligned va n) () P := by
  rw [Machine.aligned, if_pos h]
  exact .pure ()

namespace Framed
variable {s : State} {R : State → Ctx → Prop} {y : Ctx} (F : Framed s R)
include F

theorem regG (r : GReg) : Does (R · y) (Machine.regG r) (y.readG r.toNat) (R · y) :=
  F.getCtx_bind fun x hx => by
    have : x.readG r.toNat = y.readG r.toNat := by rw [← hx]; rfl
    rw [this]
    exact .pure _

theorem checkWeight {w : Nat} (h0 : 0 < w) (hw : w < y.wheld) : Does (R · y) (Machine.checkWeight w) () (R · y) := by
  refine .of_apply fun t ht => checkWeight_apply h0 ?_
  rw [F.curCore ht, F.curSlot ht]
  exact hw.trans_eq (congrArg Ctx.wheld (F.ctx ht)).symm

theorem handOver (w : Nat) : Does (R · y) (Machine.handOver w) () (R · { y with wheld := y.wheld - w }) := F.modCtx fun _ hx => hx ▸ rfl

/-- An instruction whose effect ends in a frame around a state that shares its turn and its partner. -/
theorem performs {s₀ : State} {P : State → Prop} {who : Who} {i : Instr} {body : M Next} {bytes : Nat} (hs : s₀.steady = true)
    (he : exec i s₀ = perform who i body s₀) (hr : s₀.refusal s₀.curCore s₀.curSlot who = none) (hl : instrBytes i = bytes) (h0 : P s₀)
    (hb : Does P body .seq (R · y)) (hc : s.curCore = s₀.curCore) (hn : s.curSlot = s₀.curSlot) (hp : s.here.pair = s₀.here.pair)
    (h1 : y.step1 = false) (h2 : y.after = none) :
    ∃ t, exec i s₀ = .next t ∧ R t (y.retired' bytes .seq) ∧ t.now = y.retired' bytes .seq := by
  obtain ⟨hpair, -, -, -, hlates⟩ := State.steady_iff hs
  obtain ⟨u, hu, hR⟩ := hb s₀ h0
  have hx := F.ctx hR
  rw [hc, hn] at hx
  have hret : (u.ctx s₀.curCore s₀.curSlot).retired' bytes .seq = y.retired' bytes .seq := by
    rw [← hx, Ctx.retired'_untried]
  have hun : (y.retired' bytes .seq).untried = y.retired' bytes .seq := by rw [Ctx.retired'_eq]; rfl
  refine ⟨_, he.trans (perform_ok hpair hlates hr hu (by simp) ?_ ?_ ?_), ?_, ?_⟩
  · rw [← h1, ← hx]; rfl
  · rw [← h2, ← hx]; rfl
  · rw [Core.pairedWest, ← hc, F.pair hR, hp]
    exact hpair
  · rw [hl, hret, ← hc, ← hn]
    exact hun ▸ F.setCtx hR _
  · rw [hl, hret]
    simp only [State.now, State.setCtx_curCore, State.setCtx_curSlot, F.curCore hR, F.curSlot hR, hc, hn, State.ctx_setCtx, and_self, if_true]

end Framed

/-! ### The object of a message -/

section
variable {s : State} {own : Prop} {y : Ctx} (hs : s.steady = true)

theorem LocalReads.objectKeys {va : Ptr} {acc : Access} {ks : List Nat} (ha : va.toNat % 16 = 0) (hr : s.reachesLocal va 16 acc ks)
    (hp : y.places = []) : Does (LocalReads s own · y) (Machine.objectKeys va acc) ks (LocalReads s own · y) := by
  obtain ⟨key, hl, hkey, rfl, -⟩ := hr
  refine (Does.aligned ha).bind ((LocalReads.translate hp hl hkey).bind (Does.get_bind fun u hu => ?_))
  rw [hu.keysOf]
  exact .pure _

include hs

/-- An operation on an object of local space, which no watchpoint sees. -/
theorem LocalReads.onObject {va : Ptr} {ks : List Nat} {op : HomeOp} {p : Bool} (hw : s.LocalWord own ks)
    (hset : s.settled s.curCore s.curSlot = true) (hy : y.sb = []) :
    Does (LocalReads s own · y) (Machine.onObject va ks op p) (bitsOfBytes (ks.map s.peek), ks.any s.poisoned)
      (LocalReads (s.homed ks op p) own · (y.tasted (ks.any s.poisoned && op.reads))) := by
  have hwatch : (s.homed ks op p).unwatched (s.homed ks op p).curCore = true := by
    rw [State.homed_curCore]
    exact (State.unwatched_congr (by rw [State.homed_core])).trans hw.watch
  exact (LocalReads.atHome hs hw hset hy).bind (((LocalReads.framed _ own).watchAccess hwatch (fun h => absurd h Bool.false_ne_true) _ _ _).bind (.pure _))

/-- `rel` of an object of local space, with nothing that waits to be made visible: its SEQ advances (R152). -/
theorem LocalReads.relObject {va : Ptr} {sc : Scope} {ks : List Nat} (ha : va.toNat % 16 = 0) (hr : s.reachesLocal va 16 .update ks)
    (hw : s.LocalWord own ks) (hset : s.settled s.curCore s.curSlot = true) (hp : y.places = []) (hy : y.sb = []) :
    Does (LocalReads s own · y) (Machine.relObject va sc) () (LocalReads (s.homed ks .release false) own · (y.tasted (ks.any s.poisoned))) := by
  have F := LocalReads.framed s own
  have hpair := (State.steady_iff hs).1
  have hread := LocalReads.onObject (va := va) (op := .read) (p := false) hs hw hset hy
  rw [State.homed_read] at hread
  refine (LocalReads.objectKeys ha hr hp).bind (hread.bind ?_)
  rw [HomeOp.reads, Bool.and_true]
  refine Does.when_then (fun _ => .of_apply fun u hu => releaseOver_settled (F.unpaired hpair hu) ?_ sc _) (Does.get_bind fun u hu => ?_)
  · exact hu.settled (hy.trans (State.settled_sb hset).symm) hset
  · have hhold : u.holding u.curCore u.curSlot = false := by
      rw [State.holding, Core.holding, F.unpaired hpair hu, Bool.false_and]
    rw [hhold, if_neg Bool.false_ne_true]
    have hrel := LocalReads.onObject (va := va) (op := .release) (p := false) (y := y.tasted (ks.any s.poisoned)) hs hw hset hy
    rw [HomeOp.reads, Bool.and_true, Ctx.tasted_tasted, Bool.or_self] at hrel
    exact hrel.bind (.pure _)

end

/-! ### The packet enters the port -/

/-- Only the issuing context, the injection count of its core, and the queue of its message port have changed from `s`. -/
def Posted (s : State) (port : List (Nat × Flight)) (t : State) (y : Ctx) : Prop :=
  ∃ v x, Local s t { s.here with injUse := v, msgPort := port } x ∧ x.untried = y

section
variable {s t : State} {own : Prop} {y : Ctx} {port : List (Nat × Flight)}

theorem Posted.framed (s : State) (port : List (Nat × Flight)) : Framed s (Posted s port) where
  curCore := fun ⟨_, _, h, _⟩ => h.curCore
  curSlot := fun ⟨_, _, h, _⟩ => h.curSlot
  ctx := fun ⟨_, _, h, hx⟩ => (congrArg Ctx.untried h.ctx).trans hx
  pair := fun ⟨_, _, h, _⟩ => h.core_part Core.pair rfl s.curCore
  watches := fun ⟨_, _, h, _⟩ c => h.core_part Core.watches rfl c
  setCtx := fun ⟨v, _, h, _⟩ z => ⟨v, z, by have := h.setCtx z; rwa [h.curCore, h.curSlot] at this, rfl⟩

/-- A packet of a context without partner enters the queue. -/
theorem LocalReads.toPort (hs : s.here.pairedWest s.curSlot = false) (f : Flight) :
    Does (LocalReads s own · y) (Machine.toPort f) () (Posted s (s.here.msgPort ++ [(s.curSlot, f)]) · y) := by
  refine (LocalReads.framed s own).me_bind fun t ht => ⟨_, emit_apply ((LocalReads.framed s own).unpaired hs ht) _ _, ?_⟩
  obtain ⟨v, x, hl, hx, -⟩ := ht
  refine ⟨v, x, hl.setCore ?_ rfl, hx⟩
  have hport : (t.core s.curCore).msgPort = s.here.msgPort := (Core.eq_of_bare Core.msgPort hl.core).trans rfl
  rw [hport]
  exact congrArg (fun b : Core => { b with msgPort := s.here.msgPort ++ [(s.curSlot, f)] }) hl.core

theorem LocalReads.portFree (h : s.here.msgPort.length < 2) : Does (LocalReads s own · y) Machine.portFree () (LocalReads s own · y) := by
  refine .of_apply fun t ht => ?_
  have hport : (t.core t.curCore).msgPort = s.here.msgPort := by
    rw [(LocalReads.framed s own).curCore ht]
    exact ht.core_part Core.msgPort s.curCore
  have hlen : ¬2 ≤ (t.core t.curCore).msgPort.length := by
    rw [hport]
    omega
  simp [Machine.portFree, hlen]

end

/-! ### What a message carries -/

/-- The context behind a message is that of the issuer without the lines that it has fetched. -/
theorem LocalReads.start (s : State) : LocalReads s False s s.now.untried := ⟨s.here.injUse, s.now, .refl s, rfl, fun h => h.elim⟩

/-- The marks of the registers that name an object. -/
def Ctx.objectMark (x : Ctx) (o : Option (PReg × Scope)) : Bool := x.anyMarked (o.map fun e => uP e.1).toList

/-- A message as its instruction packs it, from slot `n` of the core with identifier `lid`. -/
def packMessage (kind : BitVec 4) (m : Word) (w count : Nat) (x : Ctx) (entry code : BitVec 32) (o : Option (Ptr × Scope)) (text : Option (List Byte))
    (lid n : Nat) : Message :=
  { kind := kind, dest := BitVec.ofNat 10 (bits m 9 0), entry := entry, cookie := BitVec.ofNat 32 (bits m 63 32), code := code,
    payload := (List.range count).map fun i => x.readG (24 + i), marks := (List.range count).map fun i => x.marked (24 + i),
    weight := w, dom := x.whome, sender := BitVec.ofNat 10 lid, sslot := BitVec.ofNat 4 n, sgen := x.gen,
    tslot := BitVec.ofNat 4 (bits m 13 10), tgen := BitVec.ofNat 12 (bits m 25 14), obj := o, reason := 0, text := text }

/-- The end of an instruction that sends a message: its weight and its packet leave. -/
def posts (kind : BitVec 4) (m : Word) (w count : Nat) (x : Ctx) (entry code : BitVec 32) (o : Option (Ptr × Scope)) (text : Option (List Byte))
    (c n : Nat) : M Next := do
  let s ← get
  handOver w
  toPort (s.sendOut c (packMessage kind m w count x entry code o text (s.lidOf c) n))
  pure .seq

theorem ofNat_bits (v : Word) (hi lo n : Nat) (hn : hi - lo + 1 = n) : BitVec.ofNat n (bits v hi lo) = v.extractLsb' lo n := by
  apply BitVec.eq_of_toNat_eq
  rw [BitVec.toNat_ofNat, BitVec.extractLsb'_toNat, bits, Nat.shiftRight_eq_div_pow, hn, Nat.mod_mod]

section
variable {s : State} {ks : List Nat} {y : Ctx} {kind : BitVec 4} {m : Word} {w count : Nat} {x : Ctx} {entry code : BitVec 32}
  {o : Option (Ptr × Scope)} {text : Option (List Byte)} (hx : ∀ r, x.readG r = s.now.readG r) (hm : ∀ u, x.marked u = s.now.marked u)
  (hd : x.whome = s.now.whome) (hg : x.gen = s.now.gen)
include hx hm hd hg

theorem packMessage_outgoing : packMessage kind m w count x entry code o text (s.lidOf s.curCore) s.curSlot = outgoing s m count w kind entry code o text := by
  simp only [packMessage, outgoing, hx, hm, hd, hg]
  rw [ofNat_bits m 9 0 10 rfl, ofNat_bits m 63 32 32 rfl, ofNat_bits m 13 10 4 rfl, ofNat_bits m 25 14 12 rfl]

/-- What enters the port: the message as its destination gets it. -/
theorem LocalReads.posts (hs : s.steady = true) :
    Does (LocalReads (s.homed ks .release false) False · y) (Machine.posts kind m w count x entry code o text s.curCore s.curSlot) .seq
      (Posted (s.homed ks .release false)
        (s.here.msgPort ++ [(s.curSlot, s.sendOut s.curCore (outgoing s m count w kind entry code o text))]) · { y with wheld := y.wheld - w }) := by
  refine Does.get_bind fun t ht => ?_
  have hsame {α : Type} (f : State → α) (hf : ∀ b : State, f b.still = f b) (hb : ∀ b : State, f b.bare = f b) : f t = f s :=
    (ht.state_part f hb).trans (State.eq_of_still f (s.homed_still ks .release false) hf)
  have hlid : t.lidOf s.curCore = s.lidOf s.curCore := hsame (State.lidOf · s.curCore) (fun _ => rfl) fun _ => rfl
  have hout (msg : Message) : t.sendOut s.curCore msg = s.sendOut s.curCore msg := hsame (State.sendOut · s.curCore msg) (fun _ => rfl) fun _ => rfl
  rw [hlid, packMessage_outgoing hx hm hd hg, hout]
  have hport := LocalReads.toPort (s := s.homed ks .release false) (own := False) (y := { y with wheld := y.wheld - w }) (by
    rw [State.homed_here, State.homed_curSlot]
    exact (State.steady_iff hs).1) (s.sendOut s.curCore (outgoing s m count w kind entry code o text))
  rw [State.homed_here, State.homed_curSlot] at hport
  exact ((LocalReads.framed _ False).handOver w).bind (hport.bind (.pure _))

end

/-! ### The whole instruction -/

/-- A context that has only taken marks reads as the issuer does. -/
theorem Ctx.reads_of_untried {x z : Ctx} {q : Bool} (h : x.untried = z.untried.tasted q) :
    (∀ r, x.readG r = z.readG r) ∧ (∀ u, x.marked u = z.marked u) ∧ x.whome = z.whome ∧ x.gen = z.gen := by
  have hg : x.g = z.g := (congrArg Ctx.g h :)
  have hm : x.marks = z.marks := (congrArg Ctx.marks h :)
  exact ⟨fun r => by rw [Ctx.readG, hg]; rfl, fun u => by rw [Ctx.marked, hm]; rfl, (congrArg Ctx.whome h :), (congrArg Ctx.gen h :)⟩

section
variable {s : State} (hs : s.steady = true) (hu : s.unlimited) {d a : GReg} {o : Option (PReg × Scope)} {ks : List Nat} (ho : objectAt s o ks)
include hs hu ho

theorem LocalReads.sendMessage {kind : BitVec 4} {entry code : BitVec 32} {limit : Nat} {text : Option (List Byte)} (q : Bool)
    (h0 : 0 < weightOf (s.now.readG a.toNat)) (hw : weightOf (s.now.readG a.toNat) < s.now.wheld) (hq : s.here.msgPort.length < 2) :
    let m := s.now.readG d.toNat
    let count := min (min (bits m 31 28) 8) limit
    let p := s.now.anyMarked ([uG d, uG a] ++ (List.range count).map (24 + ·))
    Does (LocalReads s False · (s.now.untried.tasted q)) (Machine.sendMessage kind d a o entry code limit text) .seq
      (Posted (s.homed ks .release false)
        (s.here.msgPort ++ [(s.curSlot, s.sendOut s.curCore (outgoing s m count (weightOf (s.now.readG a.toNat)) kind entry code
          (o.map fun e => (s.now.readP e.1.toNat, e.2)) text))]) ·
        (s.now.untried.spent (q || p || s.now.objectMark o || ks.any s.poisoned) (s.now.wheld - weightOf (s.now.readG a.toNat)))) := by
  intro m count p
  have F := LocalReads.framed s False
  have hplaces : s.now.places = [] := (State.steady_fresh hs).2
  refine F.me_bind ((F.regG d).bind ((F.regG a).bind (F.getCtx_bind fun x hx => (F.consume _).bind ?_)))
  obtain ⟨hreads, hmarked, hwhome, hgen⟩ := Ctx.reads_of_untried hx
  rw [Ctx.tasted_tasted]
  cases o with
  | none =>
    obtain rfl : ks = [] := ho
    refine (Does.pure _).bind ((F.checkWeight (y := s.now.untried.tasted _) h0 hw).bind ((LocalReads.portFree hq).bind ?_))
    have hmark : (q || p || s.now.objectMark none || [].any s.poisoned) = (q || p) := by simp [Ctx.objectMark, Ctx.anyMarked]
    rw [hmark]
    exact LocalReads.posts (ks := []) (y := s.now.untried.tasted (q || p)) hreads hmarked hwhome hgen hs
  | some e =>
    obtain ⟨va, sc⟩ := e
    obtain ⟨halign, hreach, hset⟩ := ho
    have hword := hreach.word (own := False) (by decide) (.inl hu) False.elim
    refine (F.regP va).bind ((F.consume _).bind ((LocalReads.objectKeys (y := (s.now.untried.tasted _).tasted _) halign hreach hplaces).bind ((Does.pure _).bind ?_)))
    refine (F.checkWeight (y := (s.now.untried.tasted _).tasted _) h0 hw).bind ((LocalReads.portFree hq).bind ?_)
    refine (LocalReads.relObject (y := (s.now.untried.tasted _).tasted _) hs halign hreach hword hset hplaces (State.settled_sb hset)).bind ?_
    simp only [Ctx.tasted_tasted]
    exact LocalReads.posts (ks := ks) (y := s.now.untried.tasted (q || p || s.now.objectMark (some (va, sc)) || ks.any s.poisoned))
      hreads hmarked hwhome hgen hs

end

/-! ### The code of a message (R290) -/

/-- A word of the code. -/
def codeWord (p : Ptr) (i : Nat) : M (List Byte) := do
  let key ← translate ((p + BitVec.ofNat 72 (4 * i)).toNat) 4 .read
  let s ← get
  let ks := s.keysOf key 4
  let r ← loadKeys false false ks
  watchAccess ((p + BitVec.ofNat 72 (4 * i)).toNat) ks r.1 .read (3 ≤ keySpace key)
  pure r.1

def sendcBody (d a : GReg) (o : Option (PReg × Scope)) (c : PReg) (len : BitVec 4) : M Next := do
  let s ← get
  if !((s.jobOf s.curCore).any Job.codeMsg) then trap .privilege (instrLow (.sendc d a o c len))
  let p ← regP c
  let _ ← consume [uP c]
  let va := p.toNat
  aligned va 4
  let words ← (List.range len.toNat).mapM (codeWord p)
  sendMessage 2 d a o 0 0 ((64 - 4 * len.toNat) / 8) (some words.flatten)

theorem exec_sendc (d a : GReg) (o : Option (PReg × Scope)) (c : PReg) (len : BitVec 4) (s : State) :
    exec (.sendc d a o c len) s = perform .noText (.sendc d a o c len) (sendcBody d a o c len) s := rfl

section
variable {s : State} {own : Prop} {y : Ctx}

/-- The bytes of local space as a load of the issuing context reads them. -/
theorem LocalReads.loadKeys (hs : s.steady = true) {ks : List Nat} (hw : s.LocalWord own ks) (hy : y.sb = s.now.sb) (bypass : Bool) :
    Does (LocalReads s own · y) (Machine.loadKeys bypass false ks) ((ks.map s.sees).map (·.1), (ks.map s.sees).any (·.2))
      (LocalReads s own · (y.tasted ((ks.map s.sees).any (·.2)))) := by
  have F := LocalReads.framed s own
  refine Does.bind (F.loadBytes F (State.steady_iff hs).1 (LocalReads.readyLines hw.passes y.sb bypass false) fun u hu k hk => ?_) (.pure _)
  rw [hy]
  exact hu.readByte (hw.passes k hk).space (hw.unfenced k hk) bypass

theorem LocalReads.codeWord (hs : s.steady = true) (hu : s.unlimited) {p : Ptr} {i : Nat} {ks : List Nat}
    (hr : s.reachesLocal (p + BitVec.ofNat 72 (4 * i)) 4 .read ks) (hy : y.sb = s.now.sb) (hp : y.places = []) :
    Does (LocalReads s False · y) (Machine.codeWord p i) ((ks.map s.sees).map (·.1))
      (LocalReads s False · (y.tasted ((ks.map s.sees).any (·.2)))) := by
  have F := LocalReads.framed s False
  have hw := hr.word (own := False) (by decide) (.inl hu) False.elim
  obtain ⟨key, hl, hkey, rfl, -⟩ := hr
  refine (LocalReads.translate hp hl hkey).bind (Does.get_bind fun u hu => ?_)
  rw [hu.keysOf]
  exact (LocalReads.loadKeys hs hw hy false).bind ((F.watchAccess hw.watch (fun _ => hw.quiet) _ _ _).bind (.pure _))

/-- Steps that take marks, one after the other. -/
theorem LocalReads.mapM {β : Type} {f : Nat → M β} {g : Nat → β} {mark : Nat → Bool} {l : List Nat}
    (hf : ∀ i ∈ l, ∀ q, Does (LocalReads s own · (y.tasted q)) (f i) (g i) (LocalReads s own · (y.tasted (q || mark i)))) (q : Bool) :
    Does (LocalReads s own · (y.tasted q)) (l.mapM f) (l.map g) (LocalReads s own · (y.tasted (q || l.any mark))) := by
  induction l generalizing q with
  | nil =>
    rw [List.any_nil, Bool.or_false]
    exact .pure _
  | cons i l ih =>
    rw [List.mapM_cons, List.any_cons, ← Bool.or_assoc]
    exact (hf i List.mem_cons_self q).bind ((ih (fun j hj => hf j (List.mem_cons_of_mem _ hj)) _).bind (.pure _))

end

section
variable {s : State} (hs : s.steady = true) (hu : s.unlimited) {words : List (List Nat)} {p : Ptr} {n : Nat} (hn : words.length = n)
  (hr : ∀ i < n, s.reachesLocal (p + BitVec.ofNat 72 (4 * i)) 4 .read (words.getD i []))
include hs hu hn hr

/-- The words of the code, as the issuing context sees them. -/
theorem LocalReads.codeWords (q : Bool) :
    Does (LocalReads s False · (s.now.untried.tasted q)) ((List.range n).mapM (Machine.codeWord p)) (words.map fun ws => (ws.map s.sees).map (·.1))
      (LocalReads s False · (s.now.untried.tasted (q || (words.flatten.map s.sees).any (·.2)))) := by
  have hword : ∀ i ∈ List.range n, ∀ q, Does (LocalReads s False · (s.now.untried.tasted q)) (Machine.codeWord p i)
      (((words.getD i []).map s.sees).map (·.1))
      (LocalReads s False · (s.now.untried.tasted (q || ((words.getD i []).map s.sees).any (·.2)))) := fun i hi q => by
    rw [← Ctx.tasted_tasted]
    exact LocalReads.codeWord (y := s.now.untried.tasted q) hs hu (hr i (List.mem_range.1 hi)) rfl (State.steady_fresh hs).2
  have hall := LocalReads.mapM hword q
  have hrange : (List.range n).map (words.getD · []) = words := by
    refine List.ext_getElem (by simp [hn]) fun i hi hi' => ?_
    simp [List.getD_eq_getElem?_getD, List.getElem?_eq_getElem hi']
  have hvals : (List.range n).map (fun i => ((words.getD i []).map s.sees).map (·.1)) = words.map fun ws => (ws.map s.sees).map (·.1) := by
    conv_rhs => rw [← hrange, List.map_map]
    rfl
  have hmarks : (List.range n).any (fun i => ((words.getD i []).map s.sees).any (·.2)) = (words.flatten.map s.sees).any (·.2) := by
    conv_rhs => rw [← hrange]
    simp [List.any_flatten, List.map_flatten, List.any_map, Function.comp_def]
  rw [hvals, hmarks] at hall
  exact hall

end

/-! ### What a message leaves behind -/

/-- `Release` of an object advances its SEQ and keeps the rest (R151, R152). -/
theorem released_word {m : Nat} (hm : m < 2 ^ 128) :
    HomeOp.apply 16 .release m = (((BitVec.ofNat 128 m).extractLsb' 104 24 + 1) ++ (BitVec.ofNat 128 m).extractLsb' 0 104 : BitVec 128).toNat := by
  have hlow : ((BitVec.ofNat 128 m).extractLsb' 0 104).toNat < 2 ^ 104 := BitVec.isLt _
  rw [BitVec.toNat_append, ← Nat.shiftLeft_add_eq_or_of_lt hlow]
  simp only [HomeOp.apply, BitVec.toNat_add, BitVec.extractLsb'_toNat, BitVec.toNat_ofNat, Nat.shiftRight_eq_div_pow, Nat.shiftLeft_eq]
  rw [Nat.mod_eq_of_lt hm]
  have hone : (1 : BitVec 24).toNat = 1 := rfl
  rw [hone]
  norm_num
  omega

section
variable {s t : State} {o : Option (PReg × Scope)} {ks : List Nat} {y : Ctx} {port : List (Nat × Flight)}

theorem local_of_objectAt (h : objectAt s o ks) : ∀ k ∈ ks, 3 ≤ keySpace k := by
  cases o with
  | none =>
    obtain rfl : ks = [] := h
    simp
  | some e =>
    obtain ⟨-, ⟨key, -, -, -, -, hall, -, -⟩, -⟩ := h
    intro k hk
    have := List.all_eq_true.1 hall k hk
    simp only [Bool.and_eq_true, decide_eq_true_eq] at this
    exact this.1.1

theorem Posted.peek (h : Posted s port t y) (k : Nat) : t.peek k = s.peek k := by
  obtain ⟨v, x, hl, -⟩ := h
  exact hl.peek k

/-- Of memory only the object that is named has changed, and that has been released. -/
theorem Posted.released (h : Posted (s.homed ks .release false) port t y) (ho : objectAt s o ks) : onlyReleased s t ks := by
  refine ⟨fun k hk => (h.peek k).trans (State.peek_homed_other hk), fun hne => ?_⟩
  cases o with
  | none => exact absurd ho hne
  | some e =>
    obtain ⟨-, ⟨key, -, -, hkeys, hnodup, -⟩, -⟩ := ho
    have hlen : ks.length = 16 := by rw [hkeys, State.keysOf, List.length_map, List.length_range]
    rw [List.map_congr_left fun k _ => h.peek k, State.peek_homed hnodup (by simp), hlen]
    have hlt := bitsOfBytes_lt (ks.map s.peek)
    rw [List.length_map, hlen] at hlt
    rw [released_word (hlt.trans_eq (by norm_num))]

theorem Posted.sameOutside (h : Posted (s.homed ks .release false) port t y) (hk : ∀ k ∈ ks, 3 ≤ keySpace k) :
    SameOutside (fun k => { k with msgPort := [], dramUse := 0, injUse := 0 }) (fun s => { s with mem := [], poison := [] }) s t := by
  obtain ⟨v, x, hl, -⟩ := h
  obtain ⟨hctx, hcore, hbare⟩ := hl.sameOutside (fun k => { k with msgPort := [], dramUse := 0, injUse := 0 }) rfl
  simp only [State.homed_curCore, State.homed_curSlot, State.homed_ctx, State.homed_core] at hctx hcore
  refine ⟨hctx, hcore, ?_⟩
  have hb : t.bare = (s.homed ks .release false).bare := hbare
  rw [hb]
  exact congrArg State.bare (State.homed_local hk)

/-- A message whose instruction has ended. -/
theorem Posted.leaves {who : Who} {i : Instr} {body : M Next} {bytes w : Nat} {p : Bool} {x : Message} {m : Word} (hs : s.steady = true)
    (he : exec i s = perform who i body s) (hr : s.refusal s.curCore s.curSlot who = none) (hl : instrBytes i = bytes) (ho : objectAt s o ks)
    (hx : x.dest = m.extractLsb' 0 10)
    (hb : Does (LocalReads s False · s.now.untried) body .seq (Posted (s.homed ks .release false)
      (s.here.msgPort ++ [(s.curSlot, s.sendOut s.curCore x)]) · (s.now.untried.spent p (s.now.wheld - w)))) :
    ∃ t f, exec i s = .next t ∧ t.here.msgPort = s.here.msgPort ++ [(s.curSlot, f)] ∧ t.now.wheld = s.now.wheld - w ∧ SameRegs s.now t.now ∧
      Retires bytes p s t ∧ onlyReleased s t ks ∧
      (∀ e, s.coreOfLid (m.toNat % 1024) = some e → f = s.flight s.curCore e (if x.kind = 1 then .reply x else .message x)) ∧
      (s.coreOfLid (m.toNat % 1024) = none → f = s.flight s.curCore s.curCore (.stray { x with reason := 1 })) ∧
      SameOutside (fun k => { k with msgPort := [], dramUse := 0, injUse := 0 }) (fun s => { s with mem := [], poison := [] }) s t := by
  obtain ⟨-, h1, h2, h3, -⟩ := State.steady_iff hs
  obtain ⟨t, hex, hP, hnow⟩ := (Posted.framed (s.homed ks .release false) _).performs hs he hr hl (LocalReads.start s) hb
    (s.homed_curCore ..) (s.homed_curSlot ..) (by rw [State.homed_here]) h1 h2
  have hS := Ctx.spent_ends (bytes := bytes) h3 (hnow.trans (Ctx.retired'_untried (s.now.spent p (s.now.wheld - w)) ..))
  have hdest : x.dest.toNat = m.toNat % 1024 := by
    rw [hx]
    simp
  refine ⟨t, s.sendOut s.curCore x, hex, ?_, hS.wheld, hS.regs, hS.retires, hP.released ho, fun e hc => ?_, fun hc => ?_, hP.sameOutside (local_of_objectAt ho)⟩
  · obtain ⟨v, z, hl, -⟩ := hP
    exact (Core.eq_of_bare Core.msgPort hl.here).trans rfl
  · rw [State.sendOut, hdest, hc]
  · rw [State.sendOut, hdest, hc]

end

/-- The message port injects its oldest packet when nothing holds it back (R92). -/
theorem injectTurn_first {s : State} {n : Nat} {f : Flight} {rest : List (Nat × Flight)} (hport : s.here.msgPort = (n, f) :: rest)
    (h : n = 0 ∨ s.here.injLim = 0xFFFF_FFFF ∧ s.here.dramLim = 0xFFFF_FFFF ∧ s.here.governor = []) :
    (s.injectTurn s.curCore).net = s.net ++ [f] ∧ (s.injectTurn s.curCore).here.msgPort = rest := by
  have hample : (s.core s.curCore).ample (if n = 0 then 0 else portWho) none := by
    by_cases hn : n = 0
    · exact .inl (if_pos hn)
    · obtain ⟨hi, hd, hg⟩ := h.resolve_left hn
      exact .inr ⟨hd, hi, hg, fun h => absurd rfl h⟩
  obtain ⟨t, hm, hc⟩ := State.meter_ample hample 0 1
  have hport' : (s.core s.curCore).msgPort = (n, f) :: rest := hport
  simp only [State.injectTurn, hport', hm]
  refine ⟨?_, ?_⟩
  · exact congrArg (· ++ [f]) (State.eq_of_bare State.net hc.bare)
  · have hcur : t.curCore = s.curCore := State.eq_of_bare State.curCore hc.bare
    simp [State.here, hcur]

/-! ### The obligation -/

/-- Settles O22: behind its checks an instruction releases its object, and its message enters the port. -/
theorem messageResult : Obligations.MessageResult := by
  intro s hs hu d a o entry code c len ks words m w count used obj leaves h0 hw hq ho
  have hused (limit : Nat) (q r : Bool) : (q || s.now.anyMarked ([uG d, uG a] ++ (List.range (count limit)).map (24 + ·)) || s.now.objectMark o || r) =
      (used limit || q || r) := by
    simp only [used, Ctx.objectMark, Ctx.anyMarked, List.any_append]
    ac_rfl
  have hbits : bits m 31 28 = (m.extractLsb' 28 4).toNat := by rw [← ofNat_bits m 31 28 4 rfl, BitVec.toNat_ofNat]; exact (Nat.mod_mod _ _).symm
  have hsend (kind : BitVec 4) (entry code : BitVec 32) (limit : Nat) (text : Option (List Byte)) (q : Bool) :
      Does (LocalReads s False · (s.now.untried.tasted q)) (sendMessage kind d a o entry code limit text) .seq
        (Posted (s.homed ks .release false) (s.here.msgPort ++ [(s.curSlot, s.sendOut s.curCore (outgoing s m (count limit) w kind entry code obj text))])
          · (s.now.untried.spent (used limit || q || ks.any s.poisoned) (s.now.wheld - w))) := by
    have h := LocalReads.sendMessage hs hu ho (d := d) (kind := kind) (entry := entry) (code := code) (limit := limit) (text := text) q h0 hw hq
    dsimp only at h
    rw [hbits, hused limit q] at h
    exact h
  refine ⟨fun n f rest hport h => injectTurn_first hport h, ?_, fun htext => ?_, fun htext hjob hc hn hr => ?_⟩
  · have h := hsend 0 ((entry ++ 0#2).setWidth 32) 0 8 none false
    rw [Bool.or_false] at h
    exact Posted.leaves hs (exec_send d a o entry s) rfl rfl ho rfl h
  · have h := hsend 1 0 code 8 none false
    rw [Bool.or_false] at h
    exact Posted.leaves hs (exec_reply d a o code s) (refusal_noText htext) rfl ho rfl h
  · intro limit bytes
    have hmarks : (used limit || (s.now.anyMarked [uP c] || bytes.any (·.2)) || ks.any s.poisoned) =
        (used limit || s.now.anyMarked [uP c] || bytes.any (·.2) || ks.any s.poisoned) := by rw [← Bool.or_assoc]
    have hbytes : (words.map fun ws => (ws.map s.sees).map (·.1)).flatten = bytes.map (·.1) := by
      simp only [bytes, List.map_flatten, List.map_map, Function.comp_def]
    have hsendc := hsend 2 0 0 limit (some (bytes.map (·.1))) (s.now.anyMarked [uP c] || bytes.any (·.2))
    rw [hmarks] at hsendc
    refine Posted.leaves hs (exec_sendc d a o c len s) (refusal_noText htext) rfl ho rfl (Does.get_bind fun u hu' => ?_)
    have F := LocalReads.framed s False
    have hjob' : (u.jobOf u.curCore).any Job.codeMsg = true := by
      rw [F.curCore hu']
      exact (congrArg (Option.any Job.codeMsg) (hu'.state_part (State.jobOf · s.curCore))).trans hjob
    rw [hjob', Bool.not_true, if_neg Bool.false_ne_true]
    refine (F.regP c).bind ((F.consume [uP c]).bind ((Does.aligned hc).bind ?_))
    refine (LocalReads.codeWords hs hu hn hr _).bind ?_
    rw [hbytes]
    exact hsendc

end Sys2Proof.Machine
end

section
/-! SUPPORT. `tnext` (R78, R298): the index that it draws, and the rest of a range that it parks. -/

namespace Sys2Proof.Machine

/-! ### The job of a core's field -/

/-- A new value in place of the first entry that fits, where that is also the first of its key. -/
theorem Assoc.find?_put_first {α : Type} {p : Nat × α → Bool} {k : Nat} {v w : α} (hw : p (k, w) = true) :
    ∀ m : Assoc α, Assoc.find m k = some v → m.find? p = some (k, v) → (Assoc.put m k w).find? p = some (k, w)
  | [], h, _ => by cases h
  | (j, x) :: m, h, hp => by
    rw [Assoc.put]
    split
    · exact List.find?_cons_of_pos hw
    · split
      · exact List.find?_cons_of_pos hw
      · next hne =>
        have hx : ¬p (j, x) = true := fun hpx => by
          rw [List.find?_cons_of_pos hpx] at hp
          obtain ⟨rfl, -⟩ := Prod.mk.inj (Option.some.inj hp)
          exact hne rfl
        rw [List.find?_cons_of_neg hx] at hp ⊢
        rw [Assoc.find, if_neg (Ne.symm hne)] at h
        exact Assoc.find?_put_first hw m h hp

/-- Core `c` lies in field `fid`, whose job is `j`. -/
structure Hosts (s : State) (c fid : Nat) (f : FieldSt) (j : Job) : Prop where
  field : s.fieldOf c = some (fid, { f with job := some j })
  has : HasJob s fid f j

section
variable {s : State} {c fid : Nat} {f : FieldSt} {j : Job}

theorem Hosts.of_field (h : s.fieldOf c = some (fid, f)) (hf : Assoc.find s.fields fid = some f) (hj : f.job = some j) : Hosts s c fid f j := by
  have hfj : ({ f with job := some j } : FieldSt) = f := by rw [← hj]
  exact ⟨by rw [hfj]; exact h, by rw [HasJob, hfj]; exact hf⟩

theorem Hosts.modJob (h : Hosts s c fid f j) (g : Job → Job) : Hosts (s.modJob fid g) c fid f (g j) := by
  refine ⟨?_, h.has.modJob g⟩
  have hfield : List.find? (fun e : Nat × FieldSt => e.2.covers (clusterOf c)) s.fields = some (fid, { f with job := some j }) := h.field
  have hcovers := List.find?_some hfield
  rw [State.modJob, h.has]
  exact Assoc.find?_put_first hcovers s.fields h.has hfield

theorem Hosts.congr {t : State} (h : Hosts s c fid f j) (hf : t.fields = s.fields) : Hosts t c fid f j := by
  obtain ⟨h1, h2⟩ := h
  exact ⟨by rw [State.fieldOf, hf]; exact h1, by rw [HasJob, hf]; exact h2⟩

theorem Hosts.jobOf (h : Hosts s c fid f j) : s.jobOf c = some j := by rw [State.jobOf, h.field]; rfl

/-- A change of a job changes nothing but the fields. -/
theorem State.modJob_fields (s : State) (fid : Nat) (g : Job → Job) : s.modJob fid g = { s with fields := (s.modJob fid g).fields } := by
  rw [State.modJob]
  split <;> rfl

end

/-! ### The effect -/

/-- The job is in a soft pre-emption (R96). -/
def Job.isPausing (j : Job) : Bool :=
  match j.pre with
  | .pausing _ => true
  | .running | .parked | .hardSaved => false

/-- What `tnext` does once it has read the core and the state. -/
def tnextFrom (d : GReg) (c : Nat) (k : Core) (s : State) : M Next := do
  match k.running with
  | none =>
    setG d (BitVec.allOnes 64) false
    pure .seq
  | some r =>
    let lo := k.iterLo.toNat
    let hi := k.iterHi.toNat
    let pausing := (s.jobOf c).any Job.isPausing
    if !r.task.range then setG d (BitVec.allOnes 64) false
    else if pausing && lo < hi then
      match s.fieldOf c with
      | none => pure ()
      | some (fid, _) =>
        match s.joinFor fid c r with
        | none => waitOn .joinIndex 0
        | some (i, t) =>
          let t := t.openPiece fid i
          let piece := pieceOf r k.iterLo k.iterHi i
          set (t.modJob fid fun j => { j with parked := j.parked ++ [⟨piece, [], 0, 0, r.grid⟩] })
          modCore fun k => { k with iterLo := k.iterHi }
          setG d (BitVec.ofNat 64 0xFFFF_FFFF_FFFF_FFFE) false
    else if lo = hi then setG d (BitVec.allOnes 64) false
    else
      modCore fun k => { (k.drawTile r.grid lo) with iterLo := BitVec.ofNat 32 (lo + 1) }
      setG d (BitVec.ofNat 64 lo) false
    pure .seq

def tnextBody (d : GReg) : M Next := do
  let (c, n) ← me
  if n ≠ 1 then trap .privilege (instrLow (.tnext d))
  let k ← getCore
  let s ← get
  tnextFrom d c k s

theorem exec_tnext (d : GReg) (s : State) : exec (.tnext d) s = perform .noText (.tnext d) (tnextBody d) s := rfl

/-- The context that has drawn `v`. -/
def Ctx.draws (x : Ctx) (d : GReg) (v : Word) : Ctx := (x.writeG d.toNat v).mark d.toNat false

theorem Ctx.draws_course (x : Ctx) (d : GReg) (v : Word) : (x.draws d v).course = x.course := by
  unfold Ctx.draws Ctx.writeG
  split <;> rfl

theorem Ctx.draws_eaten (x : Ctx) (d : GReg) (v : Word) : (x.draws d v).eaten = x.eaten := by
  unfold Ctx.draws Ctx.writeG
  split <;> rfl

theorem Ctx.draws_written (x : Ctx) (d : GReg) (v : Word) : GWritten x (x.draws d v) d v false := by
  refine (Ctx.gDone_written x false d v 0).of_regs ?_ ?_ ?_ <;> unfold Ctx.draws Ctx.gDone Ctx.writeG <;> split <;> rfl

section
variable {s : State} (hs : s.steady = true) (htext : s.now.text = none) (d : GReg)
include hs htext

/-- `tnext` ends with what its effect has drawn, and with the core and the fields that it has left. -/
theorem tnext_draws {s' : State} {k : Core} {v : Word} (hb : Does (· = s) (tnextBody d) .seq (Local s' · k (s.now.draws d v)))
    (hc : s'.curCore = s.curCore) (hn : s'.curSlot = s.curSlot) (hm : s'.mem = s.mem) (hk : k.pair = s.here.pair) :
    ∃ t, exec (.tnext d) s = .next t ∧ GWritten s.now t.now d v false ∧ Retires 8 false s t ∧ (∀ k, t.peek k = s.peek k) ∧ Local s' t k t.now := by
  obtain ⟨-, h1, h2, h3, -⟩ := State.steady_iff hs
  have hcourse := s.now.draws_course d v
  obtain ⟨t, hex, hT⟩ := Does.performs (P := (· = s)) hs (exec_tnext d s) (refusal_noText htext) rfl rfl hb hc hn (by simp) hk
    ((Ctx.eq_of_course Ctx.step1 hcourse).trans h1) ((Ctx.eq_of_course Ctx.after hcourse).trans h2)
  refine ⟨t, hex, ?_, ⟨?_, ?_⟩, fun a => (hT.peek a).trans (State.peek_of_mem hm a), hT.now ▸ hT⟩ <;> rw [hT.now]
  · exact (s.now.draws_written d v).retired 8 .seq
  · exact Ctx.counted_of_course hcourse (by rw [Ctx.draws_eaten, h3]; rfl) 8 .seq
  · exact Ctx.goesOn_of_course hcourse 8

end

section
variable {s : State} {d : GReg} {r : Running}

/-- Behind its reads the effect starts from the state at hand. -/
theorem tnextBody_does (hslot : s.curSlot = 1) {Q : State → Prop} (h : Does (Local s · s.here s.now) (tnextFrom d s.curCore s.here s) .seq Q) :
    Does (· = s) (tnextBody d) .seq Q := by
  intro t ht
  obtain ⟨u, hu, hQ⟩ := h s (.refl s)
  refine ⟨u, ?_, hQ⟩
  rw [ht]
  simp only [tnextBody, M.bind_apply, me_apply, M.andThen_ok, hslot, ne_eq, not_true_eq_false, if_false, getCore_apply, M.get_apply]
  exact hu

theorem Runs.drawn (k : Core) (x : Ctx) (v : Word) : Runs (do Machine.setG d v false; Pure.pure Next.seq) s k x .seq k (x.draws d v) :=
  (Runs.setG d v false).bind (.pure _)

/-- With nothing left to draw every bit of D is set. -/
theorem tnextFrom_empty (h : ∀ r, s.here.running = some r → r.task.range = false ∨ s.here.iterLo = s.here.iterHi) :
    Runs (tnextFrom d s.curCore s.here s) s s.here s.now .seq s.here (s.now.draws d (BitVec.allOnes 64)) := by
  unfold tnextFrom
  split
  · exact Runs.drawn _ _ _
  · next r hr =>
    by_cases hrange : r.task.range = true
    · have heq : s.here.iterLo = s.here.iterHi := (h r hr).resolve_left (by simp [hrange])
      simp only [hrange, heq, Bool.not_true, Bool.false_eq_true, if_false, lt_irrefl, decide_false, Bool.and_false, if_true]
      exact Runs.drawn _ _ _
    · simp only [Bool.not_eq_true] at hrange
      simp only [hrange, Bool.not_false, if_true]
      exact Runs.drawn _ _ _

section
variable (hr : s.here.running = some r) (hrange : r.task.range = true) (hlt : s.here.iterLo.toNat < s.here.iterHi.toNat)
include hr hrange hlt

/-- The lowest index that is left is drawn. -/
theorem tnextFrom_draws (hpre : ∀ j, s.jobOf s.curCore = some j → j.pre = .running) :
    Runs (tnextFrom d s.curCore s.here s) s s.here s.now .seq
      { (s.here.drawTile r.grid s.here.iterLo.toNat) with iterLo := BitVec.ofNat 32 (s.here.iterLo.toNat + 1) }
      (s.now.draws d (BitVec.ofNat 64 s.here.iterLo.toNat)) := by
  have hpausing : (s.jobOf s.curCore).any Job.isPausing = false := by
    cases hj : s.jobOf s.curCore with
    | none => rfl
    | some j => rw [Option.any_some, Job.isPausing, hpre j hj]
  unfold tnextFrom
  simp only [hr, hrange, hpausing, Bool.not_true, Bool.false_eq_true, if_false, Bool.false_and, if_neg (Nat.ne_of_lt hlt)]
  refine Runs.bind (a := ()) ?_ (Runs.drawn _ _ _)
  exact Runs.changeCore (fun k => by cases r.grid <;> rfl) fun k => by cases r.grid <;> rfl

/-- The state in which the rest of the range is parked. -/
def State.parksRest (u : State) (fid i : Nat) (k : Core) (r : Running) : State :=
  (u.openPiece fid i).modJob fid fun j => { j with parked := j.parked ++ [⟨pieceOf r k.iterLo k.iterHi i, [], 0, 0, r.grid⟩] }

/-- In a soft pre-emption the rest of the range is parked. -/
theorem tnextFrom_parks {fid i : Nat} {b : Bool} {f : FieldSt} {j : Job} {u : State} (hh : Hosts s s.curCore fid f j) (hpre : j.pre = .pausing b)
    (hjoin : s.joinFor fid s.curCore r = some (i, u)) {k : Core} (hL : Local (u.parksRest fid i s.here r) (u.parksRest fid i s.here r) k s.now) :
    Does (Local s · s.here s.now) (tnextFrom d s.curCore s.here s) .seq
      (Local (u.parksRest fid i s.here r) · { k with iterLo := k.iterHi } (s.now.draws d (BitVec.allOnes 64 - 1))) := by
  have hpausing : (s.jobOf s.curCore).any Job.isPausing = true := by
    rw [hh.jobOf, Option.any_some, Job.isPausing, hpre]
  unfold tnextFrom
  simp only [hr, hrange, hpausing, Bool.not_true, Bool.false_eq_true, if_false, Bool.true_and, decide_eq_true hlt, if_true, hh.field, hjoin]
  rw [show BitVec.allOnes 64 - 1 = BitVec.ofNat 64 0xFFFF_FFFF_FFFF_FFFE by decide]
  refine Does.bind (a := ()) (Q := (Local (u.parksRest fid i s.here r) · k s.now)) (fun t _ => ⟨_, M.set_apply .., hL⟩) ?_
  refine Does.bind (a := ()) ?_ (Runs.drawn _ _ _)
  exact Runs.changeCore (fun _ => rfl) fun _ => rfl

end

end

/-- What stays when a core takes a join entry for its task: its context, its range, its partner, memory, and what the job has parked. -/
structure State.JoinTaken (s : State) (c fid : Nat) (f : FieldSt) (j : Job) (u : State) : Prop where
  curCore : u.curCore = s.curCore
  curSlot : u.curSlot = s.curSlot
  mem : u.mem = s.mem
  ctxs : (u.core c).ctxs = (s.core c).ctxs
  pair : (u.core c).pair = (s.core c).pair
  iterHi : (u.core c).iterHi = (s.core c).iterHi
  hosts : ∃ j', Hosts u c fid f j' ∧ j'.parked = j.parked

section
variable {s u : State} {c fid i : Nat} {f : FieldSt} {j : Job} {r : Running}

theorem State.joinFor_taken (hh : Hosts s c fid f j) (h : s.joinFor fid c r = some (i, u)) : s.JoinTaken c fid f j u := by
  unfold State.joinFor at h
  split at h
  · obtain ⟨-, rfl⟩ := Prod.mk.inj (Option.some.inj h)
    exact ⟨rfl, rfl, rfl, rfl, rfl, rfl, j, hh, rfl⟩
  · split at h
    · cases h
    · next e rest =>
      obtain ⟨rfl, rfl⟩ := Prod.mk.inj (Option.some.inj h)
      rw [State.modJob_fields]
      refine ⟨rfl, rfl, rfl, ?_, ?_, ?_, _, (hh.modJob _).congr rfl, rfl⟩ <;> rw [State.core_setCore, if_pos rfl] <;> rfl

/-- The same of the state in which the rest of the range is parked, where the job has one copy more. -/
theorem State.JoinTaken.parksRest (h : s.JoinTaken s.curCore fid f j u) (k : Core) :
    let w := u.parksRest fid i k r
    w.curCore = s.curCore ∧ w.curSlot = s.curSlot ∧ w.mem = s.mem ∧ w.now = s.now ∧ w.here.pair = s.here.pair ∧ w.here.iterHi = s.here.iterHi ∧
      (w.jobOf s.curCore).map (fun j => j.parked.length) = some (j.parked.length + 1) := by
  obtain ⟨hc, hn, hm, hx, hp, hi, j', hh, hparked⟩ := h
  have hw : u.parksRest fid i k r = { u with fields := (u.parksRest fid i k r).fields } := by
    rw [State.parksRest, State.modJob_fields, State.openPiece, State.modJob_fields]
  have hpieces : ∃ j'', Hosts (u.openPiece fid i) s.curCore fid f j'' ∧ j''.parked = j.parked := by
    refine ⟨_, hh.modJob _, ?_⟩
    split
    · exact hparked
    · exact hparked
  obtain ⟨j'', hpiece, hparked'⟩ := hpieces
  have hctx (n : Nat) : (u.core s.curCore).ctx n = (s.core s.curCore).ctx n := by rw [Core.ctx, hx]; rfl
  have hjob : (u.parksRest fid i k r).jobOf s.curCore = some _ := (hpiece.modJob _).jobOf
  dsimp only
  refine ⟨?_, ?_, ?_, ?_, ?_, ?_, ?_⟩
  · rw [hw, ← hc]
  · rw [hw, ← hn]
  · rw [hw, ← hm]
  · rw [hw]
    show (u.core u.curCore).ctx u.curSlot = _
    rw [hc, hn, hctx]
    rfl
  · rw [hw]
    show (u.core u.curCore).pair = _
    rw [hc, hp]
    rfl
  · rw [hw]
    show (u.core u.curCore).iterHi = _
    rw [hc, hi]
    rfl
  · rw [hjob, Option.map_some, List.length_append, hparked']
    rfl

end

/-- `tnext` shows the tile that it has drawn (R78). -/
theorem Core.drawTile_shows (k : Core) (g : Grid) (i : Nat) :
    let cx := i % g.ntx
    let cy := i / g.ntx
    (k.drawTile (some g) i).tileOrg = BitVec.ofNat 64 (cx * g.tx % 2 ^ 32 + cy * g.ty % 2 ^ 32 * 2 ^ 32) ∧
      (k.drawTile (some g) i).tileNom = BitVec.ofNat 64 (g.tx + g.ty * 2 ^ 32) ∧
      (k.drawTile (some g) i).tileExt = BitVec.ofNat 64 (min g.tx (g.x - cx * g.tx) + min g.ty (g.y - cy * g.ty) * 2 ^ 32) := ⟨rfl, rfl, rfl⟩

theorem Core.drawTile_facts (k : Core) (g : Option Grid) (i : Nat) :
    (k.drawTile g i).pair = k.pair ∧ (k.drawTile g i).iterHi = k.iterHi ∧ (k.drawTile g i).tileIdx = BitVec.ofNat 32 i := by
  cases g <;> exact ⟨rfl, rfl, rfl⟩

theorem nextIndex_holds : nextIndex := by
  intro s hs htext hslot d ones done same
  have hempty (h : ∀ r, s.here.running = some r → r.task.range = false ∨ s.here.iterLo = s.here.iterHi) : done ones same := by
    obtain ⟨t, hex, hg, hret, hpeek, hT⟩ := tnext_draws hs htext d (tnextBody_does hslot (tnextFrom_empty h)) rfl rfl rfl rfl
    exact ⟨t, hex, hg, hret, hpeek, Core.eq_of_bare Core.iterLo hT.here, Core.eq_of_bare Core.iterHi hT.here, Core.eq_of_bare Core.tileIdx hT.here⟩
  refine ⟨fun hr => hempty fun r h => ?_, fun r hr h => hempty fun r' hr' => ?_, fun r hr hrange hlt hpre => ?_, ?_⟩
  · rw [hr] at h
    cases h
  · obtain rfl := Option.some.inj (hr.symm.trans hr')
    exact h
  · obtain ⟨hpair, hhi, hidx⟩ := s.here.drawTile_facts r.grid s.here.iterLo.toNat
    obtain ⟨t, hex, hg, hret, hpeek, hT⟩ := tnext_draws hs htext d (tnextBody_does hslot (tnextFrom_draws hr hrange hlt hpre)) rfl rfl rfl hpair
    have hval : BitVec.ofNat 64 s.here.iterLo.toNat = s.here.iterLo.setWidth 64 := by
      apply BitVec.eq_of_toNat_eq
      rw [BitVec.toNat_ofNat, BitVec.toNat_setWidth]
    have hlo : BitVec.ofNat 32 (s.here.iterLo.toNat + 1) = s.here.iterLo + 1 := by
      apply BitVec.eq_of_toNat_eq
      rw [BitVec.toNat_ofNat, BitVec.toNat_add]
      rfl
    refine ⟨t, hex, hval ▸ hg, hret, hpeek, (Core.eq_of_bare Core.iterLo hT.here).trans hlo, (Core.eq_of_bare Core.iterHi hT.here).trans hhi,
      (Core.eq_of_bare Core.tileIdx hT.here).trans (hidx.trans (BitVec.ofNat_toNat ..)), fun g hgrid => ?_⟩
    obtain ⟨horg, hnom, hext⟩ := s.here.drawTile_shows g s.here.iterLo.toNat
    rw [← hgrid] at horg hnom hext
    exact ⟨(Core.eq_of_bare Core.tileOrg hT.here).trans horg, (Core.eq_of_bare Core.tileNom hT.here).trans hnom,
      (Core.eq_of_bare Core.tileExt hT.here).trans hext⟩
  · intro r fid f j b i u hr hrange hlt hfield hfind hjob hpre hjoin
    have hh := Hosts.of_field hfield hfind hjob
    obtain ⟨hc, hn, hm, hnow, hpair, hhi, hparked⟩ := (State.joinFor_taken hh hjoin).parksRest (i := i) (r := r) s.here
    have hL := Local.refl (u.parksRest fid i s.here r)
    rw [hnow] at hL
    obtain ⟨t, hex, hg, hret, hpeek, hT⟩ := tnext_draws hs htext d (tnextBody_does hslot (tnextFrom_parks hr hrange hlt hh hpre hjoin hL)) hc hn hm hpair
    refine ⟨t, hex, hg, hret, hpeek, (Core.eq_of_bare Core.iterLo hT.here).trans hhi, ?_⟩
    rw [State.eq_of_bare (State.jobOf · s.curCore) hT.bare]
    exact hparked

end Sys2Proof.Machine
end

section
/-! SUPPORT. Task records in local space, and `tspawn` (R75, R76, R80, R285, R299). -/

namespace Sys2Proof.Machine

/-! ### Reads of a task record -/

/-- An access within a block of 64 bytes is one load. -/
theorem readVa_block {va : Ptr} {n : Nat} (h0 : 0 < n) (h : va.toNat % 64 + n ≤ 64) (k : Access) : readVa va n k = (do
    let key ← translate va.toNat n k
    let s ← get
    let r ← loadKeys true false (s.keysOf key n)
    pure r.1) := by
  have hcount : (va.toNat % 64 + n + 63) / 64 = 1 := by omega
  have hlen : min (64 * (0 + 1) - va.toNat % 64) n - 0 = n := by omega
  have hva : va + BitVec.ofNat 72 0 = va := by simp
  simp only [readVa, hcount, List.range_one, List.map_cons, List.map_nil, if_true, hlen, List.mapM_cons, List.mapM_nil, hva, bind_assoc, pure_bind,
    List.flatten_cons, List.flatten_nil, List.append_nil]

theorem readVa_nothing {va : Ptr} (h : va.toNat % 64 = 0) (k : Access) : readVa va 0 k = pure [] := by
  simp [readVa, h]

section
variable {s : State} {own : Prop} {y : Ctx} (hs : s.steady = true) (hset : s.settled s.curCore s.curSlot = true) (hy : y.sb = []) (hp : y.places = [])
include hs hset hy hp

/-- With nothing that waits to be made visible a read of local space gives the bytes of memory. -/
theorem LocalReads.readVa {va : Ptr} {n : Nat} {k : Access} {ks : List Nat} (h0 : 0 < n) (hn : va.toNat % 64 + n ≤ 64) (hr : s.reachesLocal va n k ks)
    (hw : s.LocalWord own ks) :
    Does (LocalReads s own · y) (Machine.readVa va n k) (ks.map s.peek) (LocalReads s own · (y.tasted (ks.any s.poisoned))) := by
  have hsees : ks.map s.sees = ks.map fun k => (s.peek k, s.poisoned k) := List.map_congr_left fun k _ => by
    have hsb : s.now.sb = [] := State.settled_sb hset
    rw [State.sees, hsb]
    rfl
  have hload := LocalReads.loadKeys hs hw (hy.trans (State.settled_sb hset).symm) true
  rw [hsees, List.map_map, List.any_map] at hload
  obtain ⟨key, hl, hkey, rfl, -⟩ := hr
  rw [readVa_block h0 hn]
  refine (LocalReads.translate hp hl hkey).bind (Does.get_bind fun u hu => ?_)
  rw [hu.keysOf]
  exact hload.bind (.pure _)

/-- The record of a task that is no gang. -/
theorem LocalReads.readTask {va : Ptr} {k : Access} {ks : List Nat} (ha : va.toNat % 64 = 0) (hr : s.reachesLocal va 64 k ks) (hw : s.LocalWord own ks)
    (hg : (taskOf (ks.map s.peek)).gang = false) :
    Does (LocalReads s own · y) (Machine.readTask va k) (taskOf (ks.map s.peek), []) (LocalReads s own · (y.tasted (ks.any s.poisoned))) := by
  have hrecords : (taskOf (ks.map s.peek)).records = 1 := by simp [TaskRec.records, hg]
  have hnext : (va + 64).toNat % 64 = 0 := by
    rw [BitVec.toNat_add]
    have : (64 : Ptr).toNat = 64 := rfl
    omega
  refine (LocalReads.readVa hs hset hy hp (by decide) (by omega) hr hw).bind ?_
  dsimp only
  rw [hrecords, readVa_nothing hnext]
  exact (Does.pure _).bind (.pure _)

end

/-! ### `tspawn` -/

/-- The record of a task as `tspawn` marks it. -/
def TaskRec.spawn (r : TaskRec) : TaskRec := { r with flags := (r.flags ||| 0x80#32) &&& ~~~0x48#32 }

def tspawnBody (a : PReg) (b : GReg) : M Next := do
  let (c, _) ← me
  let p ← regP a
  let w := weightOf (← regG b)
  let _ ← consume [uP a, uG b]
  if p.toNat % 64 ≠ 0 then trap .misaligned (p.setWidth 64)
  let (t, roles) ← readTask p .read
  checkWeight w
  portFree
  releaseHalf .fd
  let x ← getCtx
  handOver w
  let s ← get
  match s.fieldOf c with
  | some (_, f) => toPort (s.flight c c (.transit ⟨t.spawn, roles.map TaskRec.spawn, w, x.whome, none⟩ (f.route s c t.spawn)))
  | none => pure ()
  pure .seq

theorem exec_tspawn (a : PReg) (b : GReg) (s : State) : exec (.tspawn a b) s = perform .noText (.tspawn a b) (tspawnBody a b) s := rfl

theorem spawnResult_holds : spawnResult := by
  intro s hs htext hu hset hq a b ks fid f p w r copy hp hr hg h0 hw hfield
  obtain ⟨hpair, h1, h2, h3, -⟩ := State.steady_iff hs
  have F := LocalReads.framed s False
  have hword := hr.word (own := False) (by decide) (.inl hu) False.elim
  have hplaces : s.now.places = [] := (State.steady_fresh hs).2
  have hbody : Does (LocalReads s False · s.now.untried) (tspawnBody a b) .seq
      (Posted s (s.here.msgPort ++ [(s.curSlot, s.flight s.curCore s.curCore (.transit copy (f.route s s.curCore copy.task)))]) ·
        (s.now.untried.spent (s.now.anyMarked [uP a, uG b] || ks.any s.poisoned) (s.now.wheld - w))) := by
    refine F.me_bind ((F.regP a).bind ((F.regG b).bind ((F.consume _).bind ?_)))
    rw [if_neg (by exact not_not.2 hp)]
    refine (LocalReads.readTask (y := s.now.untried.tasted _) hs hset (State.settled_sb hset) hplaces hp hr hword hg).bind ?_
    rw [Ctx.tasted_tasted]
    refine (F.checkWeight (y := s.now.untried.tasted _) h0 hw).bind ((LocalReads.portFree hq).bind ?_)
    refine Does.bind (.of_apply fun t ht => releaseHalf_settled (F.unpaired hpair ht) (ht.settled rfl hset) .fd) (F.getCtx_bind fun x hx => ?_)
    obtain ⟨-, -, hwhome, -⟩ := Ctx.reads_of_untried hx
    refine (F.handOver w).bind (Does.get_bind fun t ht => ?_)
    have hf : t.fieldOf s.curCore = s.fieldOf s.curCore := ht.state_part (State.fieldOf · s.curCore)
    have hroute : f.route t s.curCore copy.task = f.route s s.curCore copy.task := ht.state_part (f.route · s.curCore copy.task)
    have hflight (m : Packet) : t.flight s.curCore s.curCore m = s.flight s.curCore s.curCore m := ht.state_part (State.flight · s.curCore s.curCore m)
    rw [hf, hfield, hwhome]
    have hport := LocalReads.toPort (own := False) (y := s.now.untried.spent (s.now.anyMarked [uP a, uG b] || ks.any s.poisoned) (s.now.wheld - w)) hpair
      (s.flight s.curCore s.curCore (.transit copy (f.route s s.curCore copy.task)))
    rw [← hroute, ← hflight] at hport ⊢
    exact hport.bind (.pure _)
  obtain ⟨t, hex, hP, hnow⟩ := (Posted.framed s _).performs hs (exec_tspawn a b s) (refusal_noText htext) rfl (LocalReads.start s) hbody rfl rfl rfl h1 h2
  have hS := Ctx.spent_ends (bytes := 8) h3 (hnow.trans (Ctx.retired'_untried (s.now.spent _ (s.now.wheld - w)) ..))
  obtain ⟨v, x, hl, -⟩ := hP
  exact ⟨t, hex, hS.wheld, hS.regs, hS.retires, hl.peek, State.eq_of_bare State.net hl.bare, (Core.eq_of_bare Core.msgPort hl.here).trans rfl⟩

/-- Settles O26: `tnext` draws from the range of its core, and `tspawn` packs the record that it has read. -/
theorem taskDraws : Obligations.TaskDraws := ⟨nextIndex_holds, spawnResult_holds⟩

end Sys2Proof.Machine
end

section
/-! SUPPORT. Instructions that wait (R229, R350), and the turns of `tend` (R75, R129, R132, R297). -/

namespace Sys2Proof.Machine

/-! ### The wait of an instruction -/

/-- An effect that waits keeps the moves that it has made. -/
theorem perform_wait {who : Who} {i : Instr} {body : M Next} {s t : State} {on : WaitOn} {a : Word}
    (h : (s.core s.curCore).pairedWest s.curSlot = false) (hl : (s.ctx s.curCore s.curSlot).lates = []) (hr : s.refusal s.curCore s.curSlot who = none)
    (hb : body s = .error (.wait on a t)) : perform who i body s = .next (t.wait s.curCore s.curSlot on a) := by
  simp [perform, Ctx.heldByLates_none hl, hr, Core.intervalOver, Core.loadsFull, h, State.pairBegin_unpaired h, hb]

/-- What a context keeps when its instruction does not complete. -/
structure Ctx.Keeps (x y : Ctx) : Prop where
  g : y.g = x.g
  p : y.p = x.p
  marks : y.marks = x.marks
  live : y.live = x.live
  wheld : y.wheld = x.wheld
  retired : y.retired = x.retired

theorem Ctx.Keeps.refl (x : Ctx) : x.Keeps x := ⟨rfl, rfl, rfl, rfl, rfl, rfl⟩

theorem Ctx.Keeps.trans {x y z : Ctx} (h : x.Keeps y) (h' : y.Keeps z) : x.Keeps z :=
  ⟨h'.g.trans h.g, h'.p.trans h.p, h'.marks.trans h.marks, h'.live.trans h.live, h'.wheld.trans h.wheld, h'.retired.trans h.retired⟩

theorem Ctx.Keeps.sameRegs {x y : Ctx} (h : x.Keeps y) : SameRegs x y := by
  refine ⟨fun r => ?_, fun r => ?_, fun u => ?_⟩
  · rw [Ctx.readG, h.g]
    rfl
  · rw [Ctx.readP, h.p]
    rfl
  · rw [Ctx.marked, h.marks]
    rfl

/-- A wait touches its context alone, and the `rot` that its core may have open. -/
structure Waits (s : State) (c n : Nat) (t : State) : Prop where
  bare : t.bare = s.bare
  core : ({ (t.core c).bare with rot := none } : Core) = { (s.core c).bare with rot := none }
  ctx : (s.ctx c n).Keeps (t.ctx c n)

theorem State.wait_waits (s : State) (c n : Nat) (on : WaitOn) (a : Word) : Waits s c n (s.wait c n on a) := by
  have hset (x : Ctx) (hx : (s.ctx c n).Keeps x) : Waits s c n (s.setCtx c n x) := by
    refine ⟨rfl, ?_, ?_⟩
    · rw [State.core_setCtx, if_pos rfl]
      rfl
    · rw [State.ctx_setCtx, if_pos ⟨rfl, rfl⟩]
      exact hx
  have hrot (v : State) : (v.setCore c { v.core c with rot := none }).ctx c n = v.ctx c n := by
    rw [State.ctx, State.core_setCore, if_pos rfl]
    rfl
  unfold State.wait
  dsimp only
  split
  · rw [State.withdraw]
    have h := hset { (s.ctx c n).dropped with skidLeft := 0 } ⟨rfl, rfl, rfl, rfl, rfl, rfl⟩
    split
    · refine ⟨h.bare, ?_, ?_⟩
      · rw [State.core_setCore, if_pos rfl]
        exact h.core
      · rw [hrot]
        exact h.ctx
    · exact h
  · split
    · exact hset _ ⟨rfl, rfl, rfl, rfl, rfl, rfl⟩
    · exact hset _ ⟨rfl, rfl, rfl, rfl, rfl, rfl⟩

section
variable {s t : State} {c n : Nat} (h : Waits s c n t)
include h

theorem Waits.core_part {α : Type} (f : Core → α) (hf : ∀ k : Core, f { k.bare with rot := none } = f k := by intro; rfl) : f (t.core c) = f (s.core c) := by
  rw [← hf (t.core c), h.core, hf]

theorem Waits.state_part {α : Type} (f : State → α) (hf : ∀ b : State, f b.bare = f b := by intro; rfl) : f t = f s := State.eq_of_bare f h.bare hf

end

/-! ### The effect of `tend` -/

/-- What `tend` does once it has read its core, the state and its context. -/
def tendFrom (c : Nat) (k : Core) (s : State) (x : Ctx) : M Next := do
  match s.fieldOf c with
  | none =>
    releaseHalf .fd
    modify fun s => s.freeControl c
    skidGone x
    pure .gone
  | some (fid, f) =>
    match f.job, k.running with
    | some j, some r =>
      match k.release with
      | none =>
        let list ← tendCheck j r
        releaseHalf .fd
        tendBegin fid c j r list
        waitOn .retry 0
      | some (done, copies) =>
        match k.succs[done]? with
        | some p =>
          tendWalk done copies p
          pure .gone
        | none =>
          if x.wheld < copies.length then trap .weightExhausted (BitVec.ofNat 64 copies.length)
          modify fun s =>
            let s := if copies.isEmpty then s.yieldWeight c else s.giveShares fid c copies
            s.closeTask fid c j (!r.task.spawned)
          waitOn .leaseAck 0
    | _, _ =>
      if !k.lapseLeft.isEmpty then waitOn .leaseAck 0
      modify fun s => (s.freeControl c).refillInbox c
      skidGone x
      pure .gone

def tendBody : M Next := do
  let (c, n) ← me
  if n ≠ 1 then trap .privilege (instrLow .tend)
  let k ← getCore
  if !k.matq.isEmpty then waitOn .matrix 0
  let s ← get
  let x ← getCtx
  tendFrom c k s x

theorem exec_tend (s : State) : exec .tend s = perform .noText .tend tendBody s := rfl

section
variable {s : State} (hslot : s.curSlot = 1) (hmat : s.here.matq = [])
include hslot hmat

/-- With no matrix command in its way `tend` goes on from the state at hand. -/
theorem tendBody_apply : tendBody s = tendFrom s.curCore s.here s s.now s := by
  have hmat' : (s.core s.curCore).matq = [] := hmat
  simp only [tendBody, M.bind_apply, me_apply, M.andThen_ok, hslot, ne_eq, not_true_eq_false, if_false, getCore_apply, hmat', List.isEmpty_nil,
    Bool.not_true, Bool.false_eq_true, M.get_apply, getCtx_apply]
  rw [State.here, State.now, hslot]

variable (hs : s.steady = true) (htext : s.now.text = none)
include hs htext

/-- A turn of `tend` that does not end it: the context waits, and what it has done stays. -/
theorem tend_waits {on : WaitOn} {P : State → Prop} (hb : Stops (· = s) (tendFrom s.curCore s.here s s.now) fun e => ∃ v, P v ∧ e = .wait on 0 v)
    (hcore : ∀ v, P v → v.curCore = s.curCore ∧ v.curSlot = s.curSlot) :
    ∃ v t, P v ∧ exec .tend s = .next t ∧ Waits v s.curCore s.curSlot t ∧ t.here = t.core s.curCore ∧ t.now = t.ctx s.curCore s.curSlot := by
  obtain ⟨hp, -, -, -, hlates⟩ := State.steady_iff hs
  obtain ⟨e, he, v, hv, rfl⟩ := hb s rfl
  have hw := State.wait_waits v s.curCore s.curSlot on 0
  obtain ⟨hc, hn⟩ := hcore v hv
  have hc' := (hw.state_part State.curCore).trans hc
  have hn' := (hw.state_part State.curSlot).trans hn
  refine ⟨v, _, hv, (exec_tend s).trans (perform_wait hp hlates (refusal_noText htext) ((tendBody_apply hslot hmat).trans he)), hw, ?_, ?_⟩
  · rw [State.here, hc']
  · rw [State.now, hc', hn']

end

end Sys2Proof.Machine
end

section
/-! SUPPORT. The end of a task, and of its control context (R75 steps 4 and 5, R129, R132, R297). -/

namespace Sys2Proof.Machine

/-! ### The end of a task -/

section
variable {s : State} {c : Nat}

/-- A core without pipes closes none. -/
theorem State.closePipes_none (h : (s.core c).pipemap = 0) : s.closePipes c = s := by
  refine foldl_fixed fun p _ => ?_
  have hb : bits (s.core c).pipemap (8 * p + 7) (8 * p) = 0 := by simp [bits, h]
  dsimp only
  rw [hb, if_pos (by decide)]

/-- A core on which no peer holds a lease sends no lapse notice. -/
theorem State.lapseNotices_none (h : ∀ q, q < 4 → coreOf (clusterOf c) q ≠ c → bit (s.core (coreOf (clusterOf c) q)).held (posOf c) = false) :
    s.lapseNotices c = s := by
  refine foldl_fixed fun q hq => ?_
  dsimp only
  rw [if_neg]
  rintro ⟨hne, hb⟩
  rw [h q (List.mem_range.1 hq) hne] at hb
  cases hb

theorem State.dropReplies_none {n : Nat} (h : (s.ctx c n).replies = []) : s.dropReplies c n = s.setCtx c n { s.ctx c n with replies := [] } := by
  rw [State.dropReplies, h]
  rfl

theorem State.taintOf_none {fid : Nat} {j : Job} {x : Ctx} (h : x.cir.toNat % 16 = 0) : s.taintOf fid c j x = s := by
  rw [State.taintOf, if_pos]
  simpa [bits] using h

end

theorem Ctx.keeps_digest (x : Ctx) : x.Keeps x.digest := by
  rw [Ctx.digest_eq]
  exact ⟨rfl, rfl, rfl, rfl, rfl, rfl⟩

/-- The lists of the task are gone, and the core runs none. -/
def Core.taskOver (k : Core) : Core := { k with release := none, freed := false, succs := [], succAt := [], running := none }

/-- The job has counted one more record. -/
def Job.counted (j : Job) : Job := { j with ended := j.ended + 1 }

/-- What the end of a task leaves of its control context, of the other cores and of its job. -/
structure TaskMoves (s : State) (c fid : Nat) (f : FieldSt) (j : Job) (v : State) : Prop where
  curCore : v.curCore = s.curCore
  curSlot : v.curSlot = s.curSlot
  net : v.net = s.net
  mem : v.mem = s.mem
  others : ∀ d, d ≠ c → v.core d = s.core d
  pipemap : (v.core c).pipemap = (s.core c).pipemap
  ctx : (s.ctx c 1).Keeps (v.ctx c 1)
  hosts : Hosts v c fid f j

section
variable {s v : State} {c fid : Nat} {f : FieldSt} {j : Job}

theorem TaskMoves.refl (h : Hosts s c fid f j) : TaskMoves s c fid f j s := ⟨rfl, rfl, rfl, rfl, fun _ _ => rfl, rfl, .refl _, h⟩

theorem TaskMoves.setCtx (h : TaskMoves s c fid f j v) {x : Ctx} (hx : (s.ctx c 1).Keeps x) : TaskMoves s c fid f j (v.setCtx c 1 x) := by
  refine ⟨h.curCore, h.curSlot, h.net, h.mem, fun d hd => ?_, ?_, ?_, h.hosts.congr rfl⟩
  · rw [State.core_setCtx, if_neg hd, h.others d hd]
  · rw [State.core_setCtx, if_pos rfl]
    exact h.pipemap
  · rw [State.ctx_setCtx, if_pos ⟨rfl, rfl⟩]
    exact hx

theorem TaskMoves.setCore (h : TaskMoves s c fid f j v) {k : Core} (hp : k.pipemap = (v.core c).pipemap) (hx : k.ctxs = (v.core c).ctxs) :
    TaskMoves s c fid f j (v.setCore c k) := by
  refine ⟨h.curCore, h.curSlot, h.net, h.mem, fun d hd => ?_, ?_, ?_, h.hosts.congr rfl⟩
  · rw [State.core_setCore, if_neg hd, h.others d hd]
  · rw [State.core_setCore, if_pos rfl, hp, h.pipemap]
  · have hk : k.ctx 1 = v.ctx c 1 := by rw [Core.ctx, hx]; rfl
    rw [State.ctx_setCore_same, hk]
    exact h.ctx

theorem TaskMoves.modJob (h : TaskMoves s c fid f j v) (g : Job → Job) : TaskMoves s c fid f (g j) (v.modJob fid g) := by
  have hg := h.hosts.modJob g
  rw [State.modJob_fields] at hg ⊢
  exact ⟨h.curCore, h.curSlot, h.net, h.mem, h.others, h.pipemap, h.ctx, hg⟩

/-- A task ends that has consumed no taint, holds no reply, has no pipe, and whose core no peer leases. -/
theorem State.closeTask_moves (counts : Bool) (hh : Hosts s c fid f j) (hreplies : (s.ctx c 1).replies = []) (hpipes : (s.core c).pipemap = 0)
    (hcir : (s.ctx c 1).digest.cir.toNat % 16 = 0)
    (hpeers : ∀ q, q < 4 → coreOf (clusterOf c) q ≠ c → bit (s.core (coreOf (clusterOf c) q)).held (posOf c) = false) :
    TaskMoves s c fid f (if counts then j.counted else j) (s.closeTask fid c j counts) ∧ ((s.closeTask fid c j counts).core c).running = none := by
  have hkeeps := (s.ctx c 1).keeps_digest
  have hdigest : (s.ctx c 1).digest.replies = [] := by
    rw [Ctx.digest_eq]
    exact hreplies
  rw [State.closeTask, show (fun j : Job => { j with ended := j.ended + 1 }) = Job.counted from rfl]
  dsimp only
  generalize (s.ctx c 1).digest = x at hdigest hcir hkeeps ⊢
  have hx : TaskMoves s c fid f j (s.setCtx c 1 x) := (TaskMoves.refl hh).setCtx hkeeps
  have hset : ((s.setCtx c 1 x).ctx c 1).replies = [] := by rw [State.ctx_setCtx, if_pos ⟨rfl, rfl⟩, hdigest]
  have hcounted : TaskMoves s c fid f (if counts then j.counted else j) (if counts then (s.setCtx c 1 x).modJob fid Job.counted else s.setCtx c 1 x) ∧
      ((if counts then (s.setCtx c 1 x).modJob fid Job.counted else s.setCtx c 1 x).ctx c 1).replies = [] := by
    cases counts with
    | false => exact ⟨hx, hset⟩
    | true =>
      refine ⟨hx.modJob Job.counted, ?_⟩
      rw [if_pos rfl, State.modJob_fields]
      exact hset
  generalize (if counts then j.counted else j) = j' at hcounted ⊢
  generalize (if counts then (s.setCtx c 1 x).modJob fid Job.counted else s.setCtx c 1 x) = u at hcounted ⊢
  obtain ⟨hu, hnone⟩ := hcounted
  rw [State.taintOf_none hcir, State.dropReplies_none hnone]
  have hdropped : TaskMoves s c fid f j' (u.setCtx c 1 { u.ctx c 1 with replies := [] }) := hu.setCtx (hu.ctx.trans ⟨rfl, rfl, rfl, rfl, rfl, rfl⟩)
  generalize u.setCtx c 1 { u.ctx c 1 with replies := [] } = v at hdropped ⊢
  rw [State.closePipes_none (hdropped.pipemap.trans hpipes)]
  have hover : TaskMoves s c fid f j' (v.setCore c (v.core c).taskOver) := hdropped.setCore rfl rfl
  have hrun : ((v.setCore c (v.core c).taskOver).core c).running = none := by rw [State.core_setCore, if_pos rfl]; rfl
  rw [show ({ v.core c with release := none, freed := false, succs := [], succAt := [], running := none } : Core) = (v.core c).taskOver from rfl]
  generalize v.setCore c (v.core c).taskOver = w at hover hrun ⊢
  split
  · refine ⟨hover.setCore rfl rfl, ?_⟩
    rw [State.keepLeases, State.core_setCore, if_pos rfl]
    exact hrun
  · rw [State.lapseNotices_none fun q hq hne => by rw [hover.others _ hne]; exact hpeers q hq hne]
    exact ⟨hover, hrun⟩

/-- The weight of the control context goes home; the context is otherwise as it was. -/
theorem State.yieldWeight_parts (s : State) (c : Nat) :
    s.yieldWeight c = { s.setCtx c 1 { s.ctx c 1 with wheld := 0 } with net := (s.returnWeight c (s.ctx c 1).whome (s.ctx c 1).wheld).net } := by
  have hhome (w : Nat) : s.returnWeight c (s.ctx c 1).whome w = { s with net := (s.returnWeight c (s.ctx c 1).whome w).net } := by
    rw [State.returnWeight]
    split
    · rfl
    · split <;> rfl
  rw [State.yieldWeight]
  dsimp only
  rw [hhome]
  rfl

theorem State.returnWeight_net {h w : Nat} {dom : BitVec 24} (hh : s.coreOfLid (domLid dom) = some h) (hw : w ≠ 0) :
    (s.returnWeight c dom w).net = s.net ++ [s.flight c h (.weight dom w)] := by
  rw [State.returnWeight, if_neg hw, hh]
  rfl

end

/-! ### The turn of `tend` after the last successor -/

section
variable {s : State} (hs : s.steady = true) (htext : s.now.text = none) (hslot : s.curSlot = 1) (hmat : s.here.matq = []) {fid : Nat} {f : FieldSt}
  {j : Job} (hfield : s.fieldOf s.curCore = some (fid, f)) (hjob : f.job = some j)
include hs htext hslot hmat hfield hjob

theorem tend_closes {r : Running} (hfind : Assoc.find s.fields fid = some f) (hr : s.here.running = some r) (hrel : s.here.release = some (0, []))
    (hsucc : s.here.succs = []) (hreplies : s.now.replies = []) (hpipes : s.here.pipemap = 0) (hcir : s.now.cir.toNat % 16 = 0)
    (hpeers : ∀ q, q < 4 → coreOf (clusterOf s.curCore) q ≠ s.curCore → bit (s.core (coreOf (clusterOf s.curCore) q)).held (posOf s.curCore) = false) :
    ∃ t, exec .tend s = .next t ∧ t.here.running = none ∧ t.now.wheld = 0 ∧
      (∀ h, s.coreOfLid (domLid s.now.whome) = some h → s.now.wheld ≠ 0 →
        t.net = s.net ++ [s.flight s.curCore h (.weight s.now.whome s.now.wheld)]) ∧
      (t.jobOf s.curCore).map Job.ended = some (if r.task.spawned then j.ended else j.ended + 1) ∧ ∀ k, t.peek k = s.peek k := by
  have hnow : s.now = s.ctx s.curCore 1 := by rw [State.now, hslot]
  have heaten := (State.steady_iff hs).2.2.2.1
  have hdigest : ({ s.ctx s.curCore 1 with wheld := 0 } : Ctx).digest.cir.toNat % 16 = 0 := by
    rw [← hnow]
    simp [Ctx.digest, heaten, hcir]
  have hyield := s.yieldWeight_parts s.curCore
  have hh : Hosts (s.yieldWeight s.curCore) s.curCore fid f j := by
    rw [hyield]
    exact (Hosts.of_field hfield hfind hjob).congr rfl
  have hctx : (s.yieldWeight s.curCore).ctx s.curCore 1 = { s.ctx s.curCore 1 with wheld := 0 } := by
    rw [hyield]
    exact (State.ctx_setCtx ..).trans (if_pos ⟨rfl, rfl⟩)
  have hcore (d : Nat) : ((s.yieldWeight s.curCore).core d).bare = (s.core d).bare := by
    rw [hyield]
    show ((s.setCtx s.curCore 1 _).core d).bare = _
    rw [State.core_setCtx]
    split
    · subst_vars
      rfl
    · rfl
  obtain ⟨hm, hrun⟩ := State.closeTask_moves (!r.task.spawned) hh (by rw [hctx, ← hnow]; exact hreplies)
    ((Core.eq_of_bare Core.pipemap (hcore _)).trans hpipes) (by rw [hctx]; exact hdigest) fun q hq hne => by rw [Core.eq_of_bare Core.held (hcore _)]; exact hpeers q hq hne
  have hstop : Stops (· = s) (tendFrom s.curCore s.here s s.now)
      fun e => ∃ v, v = (s.yieldWeight s.curCore).closeTask fid s.curCore j (!r.task.spawned) ∧ e = .wait .leaseAck 0 v := by
    intro t ht
    refine ⟨_, ?_, _, rfl, rfl⟩
    rw [ht]
    simp [tendFrom, hfield, hjob, hr, hrel, hsucc]
  have hyc : (s.yieldWeight s.curCore).curCore = s.curCore ∧ (s.yieldWeight s.curCore).curSlot = s.curSlot ∧ (s.yieldWeight s.curCore).mem = s.mem := by
    rw [hyield]
    exact ⟨rfl, rfl, rfl⟩
  obtain ⟨v, t, rfl, hex, hW, hhere, htnow⟩ := tend_waits hslot hmat hs htext hstop fun v hv => by
    rw [hv, hm.curCore, hm.curSlot]
    exact ⟨hyc.1, hyc.2.1⟩
  have hwctx := hW.ctx
  rw [hslot] at hwctx
  refine ⟨t, hex, ?_, ?_, fun h hh hne => ?_, ?_, fun k => ?_⟩
  · rw [hhere, hW.core_part Core.running]
    exact hrun
  · rw [htnow, hslot, hwctx.wheld, hm.ctx.wheld, hctx]
  · rw [hW.state_part State.net, hm.net, hyield, ← hnow]
    exact State.returnWeight_net hh hne
  · rw [hW.state_part (State.jobOf · s.curCore), hm.hosts.jobOf, Option.map_some]
    cases r.task.spawned <;> rfl
  · exact (hW.state_part (State.peek · k)).trans (State.peek_of_mem (hm.mem.trans hyc.2.2) k)

omit hfield hjob in
/-- An effect that ends its context leaves nothing to retire. -/
theorem tend_gone {v : State} (hb : tendFrom s.curCore s.here s s.now s = .ok (.gone, v)) (hp : (v.core s.curCore).pairedWest s.curSlot = false) :
    exec .tend s = .next v := by
  obtain ⟨hpair, -, -, -, hlates⟩ := State.steady_iff hs
  have hlates' : (s.ctx s.curCore s.curSlot).lates = [] := hlates
  rw [exec_tend]
  simp [perform, Ctx.heldByLates_none hlates', refusal_noText htext, Core.intervalOver, Core.loadsFull, hpair, State.pairBegin_unpaired hpair,
    tendBody_apply hslot hmat, hb, State.retire, State.pairRetire_unpaired hp]

end

/-! ### The control context is free -/

theorem bit_unless (h : BitVec 4) (b : Bool) (i : Nat) {q : Nat} (hq : q < 4) :
    bit (if b then h else h &&& ~~~(1#4 <<< i)) q = (bit h q && (b || decide (i ≠ q))) := by
  cases b with
  | true => simp
  | false =>
    simp only [bit, Bool.false_eq_true, if_false, Bool.false_or, BitVec.getLsbD_and, BitVec.getLsbD_not, BitVec.getLsbD_shiftLeft, BitVec.getLsbD_one]
    congr 1
    rw [Bool.eq_iff_iff]
    simp [hq]
    omega

/-- Bits of leases stay where the peer has kept its lease (R132). -/
theorem bit_kept (h : BitVec 4) (k : Nat → Bool) {q : Nat} (hq : q < 4) :
    bit ((List.range 4).foldl (fun h q => if k q then h else h &&& ~~~(1#4 <<< q)) h) q = (bit h q && k q) := by
  show bit (if k 3 then _ else _ &&& ~~~(1#4 <<< 3)) q = _
  rw [bit_unless _ _ _ hq, bit_unless _ _ _ hq, bit_unless _ _ _ hq, bit_unless _ _ _ hq]
  interval_cases q <;> simp

section
variable {s : State} {c : Nat}

/-- The slot of the control context as it is freed. -/
def Ctx.freed (x : Ctx) : Ctx := { Ctx.reset with gen := x.gen, skid := x.skid, halted := x.halted }

/-- The core behind its control context. -/
def Core.controlFreed (k : Core) (held : BitVec 4) (cycle : Nat) : Core :=
  { k with running := none, rot := none, held := held, idleSince := cycle, stealNext := none, stealing := false }

theorem State.keptLeases_congr {t : State} (h : ∀ d, (t.core d).bare = (s.core d).bare) : t.keptLeases c = s.keptLeases c := by
  have hkept (d : Nat) : (t.core d).kept = (s.core d).kept := Core.eq_of_bare Core.kept (h d)
  have hheld : (t.core c).held = (s.core c).held := Core.eq_of_bare Core.held (h c)
  simp only [State.keptLeases, hkept, hheld]

/-- The state behind a control context without partner. -/
def State.controlOver (s : State) (c : Nat) : State :=
  (s.setCtx c 1 (s.ctx c 1).freed).setCore c (((s.setCtx c 1 (s.ctx c 1).freed).core c).controlFreed (s.keptLeases c) s.cycle)

theorem State.controlOver_bare (s : State) (c : Nat) : (s.controlOver c).bare = s.bare := by
  rw [State.controlOver, State.bare_setCore, State.bare_setCtx]

theorem State.controlOver_core (s : State) (c : Nat) :
    (s.controlOver c).core c = ((s.core c).setCtx 1 (s.ctx c 1).freed).controlFreed (s.keptLeases c) s.cycle := by
  rw [State.controlOver, State.core_setCore, if_pos rfl, State.core_setCtx, if_pos rfl]

theorem State.controlOver_ctx (s : State) (c : Nat) : (s.controlOver c).ctx c 1 = (s.ctx c 1).freed := by
  rw [State.ctx, State.controlOver_core]
  exact (Core.ctx_setCtx ..).trans (if_pos rfl)

/-- A control context without a pending trap and without a partner is freed. -/
theorem State.freeControl_plain (hafter : (s.ctx c 1).after = none) (hpair : (s.core c).pair = none) : s.freeControl c = s.controlOver c := by
  have hslot : s.freeSlot c 1 = s.setCtx c 1 (s.ctx c 1).freed := by
    rw [State.freeSlot, hafter]
    rfl
  have hkept : (s.setCtx c 1 (s.ctx c 1).freed).keptLeases c = s.keptLeases c := State.keptLeases_congr fun d => by
    rw [State.core_setCtx]
    split
    · subst_vars
      rfl
    · rfl
  rw [State.freeControl, hpair, hslot]
  dsimp only
  rw [hkept, Option.isSome_none, Bool.false_and, if_neg Bool.false_ne_true]
  rfl

end

/-- A control context that runs no task ends with `tend`. -/
theorem tend_ends {s : State} (hs : s.steady = true) (htext : s.now.text = none) (hslot : s.curSlot = 1) (hmat : s.here.matq = []) {fid : Nat}
    {f : FieldSt} (hfield : s.fieldOf s.curCore = some (fid, f)) (hr : s.here.running = none) (hlapse : s.here.lapseLeft = []) (hpair : s.here.pair = none)
    (hdefl : s.here.deflected = []) :
    ∃ t, exec .tend s = .next t ∧ t.now.live = false ∧ t.now.gen = s.now.gen ∧ t.here.running = none ∧
      (∀ q, q < 4 → bit t.here.held q = (bit s.here.held q && bit (s.core (coreOf (clusterOf s.curCore) q)).kept (posOf s.curCore))) ∧
      t.here.idleSince = s.cycle ∧ t.net = s.net ∧ ∀ k, t.peek k = s.peek k := by
  have hafter : (s.ctx s.curCore 1).after = none := by
    rw [← hslot]
    exact (State.steady_iff hs).2.2.1
  have hfree := State.freeControl_plain hafter (c := s.curCore) hpair
  have hcore := s.controlOver_core s.curCore
  have hctx := s.controlOver_ctx s.curCore
  have hbare := s.controlOver_bare s.curCore
  generalize s.controlOver s.curCore = v at hfree hcore hctx hbare
  have hc : v.curCore = s.curCore := State.eq_of_bare State.curCore hbare
  have hn : v.curSlot = 1 := (State.eq_of_bare State.curSlot hbare).trans hslot
  have hrefill : v.refillInbox s.curCore = v := by
    have hnone : (v.core s.curCore).deflected = [] := by
      rw [hcore]
      exact hdefl
    rw [State.refillInbox, hnone]
    rfl
  have hbody : tendFrom s.curCore s.here s s.now s = .ok (.gone, v.setCtx s.curCore 1 ((s.ctx s.curCore 1).freed.skidOver s.now)) := by
    have hctx' : v.ctx v.curCore v.curSlot = (s.ctx s.curCore 1).freed := by rw [hc, hn, hctx]
    have hskid : skidGone s.now v = .ok ((), v.setCtx s.curCore 1 ((s.ctx s.curCore 1).freed.skidOver s.now)) := by
      rw [skidGone, modCtx_apply, hctx', hc, hn]
    have hrest : (do
        if !s.here.lapseLeft.isEmpty then waitOn .leaseAck 0
        modify fun s' => (s'.freeControl s.curCore).refillInbox s.curCore
        skidGone s.now
        pure .gone : M Next) s = .ok (.gone, v.setCtx s.curCore 1 ((s.ctx s.curCore 1).freed.skidOver s.now)) := by
      rw [hlapse]
      simp only [List.isEmpty_nil, Bool.not_true, Bool.false_eq_true, if_false, M.bind_apply, M.modify_apply, M.andThen_ok, hfree, hrefill, hskid]
      rfl
    rw [tendFrom, hfield, hr]
    dsimp only
    cases f.job <;> exact hrest
  have hcore' : (v.setCtx s.curCore 1 ((s.ctx s.curCore 1).freed.skidOver s.now)).core s.curCore =
      (v.core s.curCore).setCtx 1 ((s.ctx s.curCore 1).freed.skidOver s.now) := by
    rw [State.core_setCtx, if_pos rfl]
  have hpart {α : Type} (g : Core → α) (hg : ∀ k : Core, g k.bare = g k) : g (v.setCtx s.curCore 1 ((s.ctx s.curCore 1).freed.skidOver s.now)).here =
      g (s.here.controlFreed (s.keptLeases s.curCore) s.cycle) := by
    rw [State.here, State.setCtx_curCore, hc, hcore', hcore, ← hg, ← hg (s.here.controlFreed _ _)]
    rfl
  have hnow : (v.setCtx s.curCore 1 ((s.ctx s.curCore 1).freed.skidOver s.now)).now = (s.ctx s.curCore 1).freed.skidOver s.now := by
    rw [State.now, State.setCtx_curCore, State.setCtx_curSlot, hc, hn, State.ctx_setCtx, if_pos ⟨rfl, rfl⟩]
  have hskid : ((s.ctx s.curCore 1).freed.skidOver s.now).live = false ∧ ((s.ctx s.curCore 1).freed.skidOver s.now).gen = s.now.gen := by
    rw [State.now, hslot, Ctx.skidOver]
    split <;> exact ⟨rfl, rfl⟩
  have hbare' : (v.setCtx s.curCore 1 ((s.ctx s.curCore 1).freed.skidOver s.now)).bare = s.bare := (State.bare_setCtx ..).trans hbare
  refine ⟨_, tend_gone hs htext hslot hmat hbody ?_, by rw [hnow]; exact hskid.1, by rw [hnow]; exact hskid.2, hpart Core.running fun _ => rfl,
    fun q hq => ?_, hpart Core.idleSince fun _ => rfl, State.eq_of_bare State.net hbare', fun k => State.eq_of_bare (State.peek · k) hbare'⟩
  · have hnone : ((v.setCtx s.curCore 1 ((s.ctx s.curCore 1).freed.skidOver s.now)).core s.curCore).pair = none := by
      rw [hcore', hcore]
      exact hpair
    rw [Core.pairedWest, hnone]
    simp
  · rw [hpart (fun k => bit k.held q) fun _ => rfl]
    exact bit_kept _ _ hq

end Sys2Proof.Machine
end

section
/-! SUPPORT. `tend` before it walks its successors: what it checks, and what its core then has (R75, R315). -/

namespace Sys2Proof.Machine

/-! ### What a turn that begins the walk leaves -/

/-- What the first turn of `tend` leaves: its tiles are closed, the release unit has the list, and the context holds what it held. -/
structure TendBegun (s : State) (ps : List Ptr) (v : State) : Prop where
  curCore : v.curCore = s.curCore
  curSlot : v.curSlot = s.curSlot
  mem : v.mem = s.mem
  release : (v.core s.curCore).release = some (0, [])
  succs : (v.core s.curCore).succs = ps
  tiles : ∀ a, ((v.core s.curCore).tile a).opened = none
  ctx : s.now.Keeps (v.ctx s.curCore s.curSlot)

theorem Core.closeTiles_tile (k : Core) (a : Nat) : (k.closeTiles.tile a).opened = none := by
  rw [Core.tile, Core.closeTiles]
  dsimp only
  induction k.tiles with
  | nil => rfl
  | cons e m ih =>
    rw [List.map_cons, Assoc.get]
    split
    · rfl
    · exact ih

/-- The core whose release unit has the list. -/
def Core.begins (k : Core) (ps : List Ptr) (places : List Place) (run : Running) : Core :=
  { k.closeTiles with release := some (0, []), succs := ps, succAt := places, running := some run }

/-- A state in which the issuing context has read local space, and has taken marks. -/
def Tasting (s t : State) : Prop := ∃ q, LocalReads s False t (s.now.untried.tasted q)

theorem Ctx.keeps_tasted {x z : Ctx} {q : Bool} (h : x.untried = z.untried.tasted q) : z.Keeps x :=
  ⟨(congrArg Ctx.g h :), (congrArg Ctx.p h :), (congrArg Ctx.marks h :), (congrArg Ctx.live h :), (congrArg Ctx.wheld h :), (congrArg Ctx.retired h :)⟩

section
variable {s : State} {fid : Nat} {j : Job} {r : Running} {ps : List Ptr} (hjoin : r.join = none)
include hjoin

theorem Job.walks_unjoined : j.walks r = true ∧ j.entryOf r = none ∧ j.succOf r = r.task.succ := by
  have hentry : j.entryOf r = none := by rw [Job.entryOf, hjoin]; rfl
  refine ⟨?_, hentry, ?_⟩
  · rw [Job.walks, hentry, hjoin]
    rfl
  · rw [Job.succOf, hentry]

/-- The release unit begins with the list. -/
theorem tendBegin_stops : Stops (Tasting s) (do tendBegin fid s.curCore j r (some ps); waitOn .retry 0 : M Next)
    fun e => ∃ v, TendBegun s ps v ∧ e = .wait .retry 0 v := by
  rintro t ⟨q, ht⟩
  obtain ⟨hwalks, hentry, -⟩ := Job.walks_unjoined (j := j) hjoin
  have F := LocalReads.framed s False
  obtain ⟨g, places, run, happly⟩ : ∃ g places run, tendBegin fid s.curCore j r (some ps) t =
      .ok ((), (t.modJob fid g).setCore s.curCore (((t.modJob fid g).core s.curCore).begins ps places run)) := by
    simp only [tendBegin, hwalks, hentry, Bool.not_true, Bool.false_eq_true, if_false, M.bind_apply, getCtx_apply, M.andThen_ok, M.modify_apply]
    exact ⟨_, _, _, rfl⟩
  have hbegun : ∀ u : State, u.curCore = s.curCore → u.curSlot = s.curSlot → u.mem = s.mem → u.ctx s.curCore s.curSlot = t.ctx s.curCore s.curSlot →
      TendBegun s ps (u.setCore s.curCore ((u.core s.curCore).begins ps places run)) := by
    intro u hc hn hm hx
    refine ⟨hc, hn, hm, ?_, ?_, fun a => ?_, ?_⟩
    · rw [State.core_setCore, if_pos rfl]
      rfl
    · rw [State.core_setCore, if_pos rfl]
      rfl
    · rw [State.core_setCore, if_pos rfl]
      exact (u.core s.curCore).closeTiles_tile a
    · have hin : ((u.core s.curCore).begins ps places run).ctx s.curSlot = u.ctx s.curCore s.curSlot := rfl
      rw [State.ctx_setCore_same, hin, hx]
      exact Ctx.keeps_tasted (F.ctx ht)
  have hfields := State.modJob_fields t fid g
  have hthen : (do tendBegin fid s.curCore j r (some ps); waitOn .retry 0 : M Next) t =
      .error (.wait .retry 0 ((t.modJob fid g).setCore s.curCore (((t.modJob fid g).core s.curCore).begins ps places run))) := by
    rw [M.bind_apply, happly]
    rfl
  have hc : (t.modJob fid g).curCore = s.curCore := (congrArg State.curCore hfields).trans (F.curCore (t := t) ht)
  have hn : (t.modJob fid g).curSlot = s.curSlot := (congrArg State.curSlot hfields).trans (F.curSlot (t := t) ht)
  have hm : (t.modJob fid g).mem = s.mem := (congrArg State.mem hfields).trans (ht.state_part State.mem)
  exact ⟨_, hthen, _, hbegun _ hc hn hm (by rw [hfields]; rfl), rfl⟩

end

section
variable {s : State} (hs : s.steady = true) (htext : s.now.text = none) (hslot : s.curSlot = 1) (hmat : s.here.matq = [])
  (hset : s.settled s.curCore s.curSlot = true) {fid : Nat} {f : FieldSt} {j : Job} {r : Running} {ps : List Ptr}
  (hfield : s.fieldOf s.curCore = some (fid, f)) (hjob : f.job = some j) (hr : s.here.running = some r) (hjoin : r.join = none)
  (hrel : s.here.release = none)
include hs htext hslot hmat hset hfield hjob hr hjoin hrel

/-- The first turn of `tend`, when its list passes the checks. -/
theorem tend_begins (hcheck : Does (Tasting s) (tendCheck j r) (some ps) (Tasting s)) :
    ∃ t, exec .tend s = .next t ∧ t.here.release = some (0, []) ∧ t.here.succs = ps ∧ (∀ a, (t.here.tile a).opened = none) ∧ s.now.Keeps t.now ∧
      ∀ k, t.peek k = s.peek k := by
  have hpair := (State.steady_iff hs).1
  have hstop : Stops (· = s) (tendFrom s.curCore s.here s s.now) fun e => ∃ v, TendBegun s ps v ∧ e = .wait .retry 0 v := by
    have hfrom : Stops (Tasting s) (do
        let list ← tendCheck j r
        releaseHalf .fd
        tendBegin fid s.curCore j r list
        waitOn .retry 0 : M Next) fun e => ∃ v, TendBegun s ps v ∧ e = .wait .retry 0 v := by
      refine Does.stops hcheck (Does.stops (a := ()) (Does.of_apply fun t ⟨q, ht⟩ => ?_) (tendBegin_stops hjoin))
      exact releaseHalf_settled ((LocalReads.framed s False).unpaired hpair ht) (ht.settled rfl hset) .fd
    intro t ht
    rw [ht, tendFrom, hfield]
    dsimp only
    rw [hjob, hr, hrel]
    exact hfrom s ⟨false, LocalReads.start s⟩
  obtain ⟨v, t, hv, hex, hW, hhere, hnow⟩ := tend_waits hslot hmat hs htext hstop fun v hv => ⟨hv.curCore, hv.curSlot⟩
  refine ⟨t, hex, ?_, ?_, fun a => ?_, ?_, fun k => (hW.state_part (State.peek · k)).trans (State.peek_of_mem hv.mem k)⟩
  · rw [hhere, hW.core_part Core.release, hv.release]
  · rw [hhere, hW.core_part Core.succs, hv.succs]
  · rw [hhere, hW.core_part (Core.tile · a), hv.tiles]
  · rw [hnow]
    exact hv.ctx.trans hW.ctx

end

/-! ### The checks of a list -/

section
variable {s : State} {j : Job} {r : Running} (hjoin : r.join = none)
include hjoin

/-- A task without successors has an empty list. -/
theorem tendCheck_empty (hsucc : r.task.succ = 0) : Does (Tasting s) (tendCheck j r) (some []) (Tasting s) := by
  obtain ⟨hwalks, -, hof⟩ := Job.walks_unjoined (j := j) hjoin
  rw [tendCheck, hwalks, hof, hsucc]
  exact .pure _

end

theorem taskEnded_holds : taskEnded := by
  intro s hs htext hslot hmat hset fid f j hfield hfind hjob
  rw [← hslot] at hset
  refine ⟨fun r hr hjoin hsucc hrel => ?_, fun r hr hrel hsuccs hreplies hpipes hcir hpeers => ?_, fun hr hlapse hpair hdefl => ?_⟩
  · obtain ⟨t, hex, hrelease, hlist, htiles, hkeeps, hpeek⟩ :=
      tend_begins hs htext hslot hmat hset hfield hjob hr hjoin hrel (tendCheck_empty hjoin hsucc)
    exact ⟨t, hex, hkeeps.live, hrelease, hlist, fun a => htiles _, hkeeps.wheld, hkeeps.sameRegs, hpeek⟩
  · exact tend_closes hs htext hslot hmat hfield hjob hfind hr hrel hsuccs hreplies hpipes hcir hpeers
  · exact tend_ends hs htext hslot hmat hfield hr hlapse hpair hdefl

end Sys2Proof.Machine
end

section
/-! SUPPORT. `tend` reads its list and every record that it names before it releases anything (R75). -/

namespace Sys2Proof.Machine

theorem ptrOf?_toNat (p : Ptr) : ptrOf? p.toNat = some p := by
  rw [ptrOf?_small p.isLt, BitVec.ofNat_toNat, BitVec.setWidth_eq]

/-- The pointers of a list, read back from its bytes. -/
theorem pointers_read {bs : List Byte} {ps : List Ptr} (h : ∀ i < ps.length, bitsOfBytes ((bs.drop (16 * i)).take 16) = (ps.getD i 0).toNat) :
    ((List.range ps.length).map fun i => ptrOf? (field bs (16 * i) 16)) = ps.map some := by
  refine List.ext_getElem (by simp) fun i hi _ => ?_
  have hi' : i < ps.length := by simpa using hi
  have hfield : field bs (16 * i) 16 = (ps.getD i 0).toNat := h i hi'
  rw [List.getElem_map, List.getElem_range, hfield, ptrOf?_toNat, List.getElem_map, List.getD_eq_getElem _ _ hi']

section
variable {s : State} (hs : s.steady = true) (hset : s.settled s.curCore s.curSlot = true) (hu : s.unlimited)
include hs hset hu

theorem Tasting.readVa {va : Ptr} {n : Nat} {k : Access} {ks : List Nat} (h0 : 0 < n) (hn : va.toNat % 64 + n ≤ 64) (hr : s.reachesLocal va n k ks) :
    Does (Tasting s) (Machine.readVa va n k) (ks.map s.peek) (Tasting s) := by
  rintro t ⟨q, ht⟩
  have hplaces : s.now.places = [] := (State.steady_fresh hs).2
  obtain ⟨u, happly, hv⟩ := LocalReads.readVa (y := s.now.untried.tasted q) hs hset (State.settled_sb hset) hplaces h0 hn hr
    (hr.word (own := False) h0 (.inl hu) False.elim) t ht
  rw [Ctx.tasted_tasted] at hv
  exact ⟨u, happly, _, hv⟩

theorem Tasting.readTask {va : Ptr} {k : Access} {ks : List Nat} (ha : va.toNat % 64 = 0) (hr : s.reachesLocal va 64 k ks)
    (hg : (taskOf (ks.map s.peek)).gang = false) : Does (Tasting s) (Machine.readTask va k) (taskOf (ks.map s.peek), []) (Tasting s) := by
  rintro t ⟨q, ht⟩
  have hplaces : s.now.places = [] := (State.steady_fresh hs).2
  obtain ⟨u, happly, hv⟩ := LocalReads.readTask (y := s.now.untried.tasted q) hs hset (State.settled_sb hset) hplaces ha hr
    (hr.word (own := False) (by decide) (.inl hu) False.elim) hg t ht
  rw [Ctx.tasted_tasted] at hv
  exact ⟨u, happly, _, hv⟩

variable {q : Ptr} {ps : List Ptr} {kn kl : List Nat} (hq : q ≠ 0) (ha : q.toNat % 64 = 0) (hn : s.reachesLocal q 8 .read kn)
  (hcount : bitsOfBytes (kn.map s.peek) = ps.length) (hmax : ps.length ≤ 3) (h0 : 0 < ps.length) (hl : s.reachesLocal (q + 16) (16 * ps.length) .read kl)
  (hptr : ∀ i < ps.length, bitsOfBytes (((kl.map s.peek).drop (16 * i)).take 16) = (ps.getD i 0).toNat ∧ (ps.getD i 0).toNat % 64 = 0)
include hq ha hn hcount hmax h0 hl hptr

/-- The list is its count, and the pointers behind it. -/
theorem Tasting.readSuccs : Does (Tasting s) (Machine.readSuccs (q.setWidth 128)) (some ps) (Tasting s) := by
  have hwidth : (q.setWidth 128).toNat = q.toNat := by
    rw [BitVec.toNat_setWidth]
    exact Nat.mod_eq_of_lt (lt_trans q.isLt (by decide))
  have hne : q.setWidth 128 ≠ 0 := fun h => hq (BitVec.eq_of_toNat_eq (by rw [← hwidth, h]; rfl))
  have hnext : (q + 16).toNat % 64 = 16 := by
    have h16 : (16 : Ptr).toNat = 16 := rfl
    rw [BitVec.toNat_add, h16]
    omega
  have hall : ((ps.map some).all fun p => p.any fun a => a.toNat % 64 = 0) = true := by
    rw [List.all_map, List.all_eq_true]
    intro p hp
    obtain ⟨i, hi, rfl⟩ := List.mem_iff_getElem.1 hp
    have := (hptr i hi).2
    rw [List.getD_eq_getElem _ _ hi] at this
    simpa using this
  rw [Machine.readSuccs, if_neg hne, hwidth, ptrOf?_toNat]
  refine (Tasting.readVa hs hset hu (by decide) (by omega) hn).bind ?_
  dsimp only
  rw [hcount, if_neg (by omega)]
  refine (Tasting.readVa hs hset hu (by omega) (by omega) hl).bind ?_
  rw [pointers_read fun i hi => (hptr i hi).1, if_pos hall, List.filterMap_map]
  simpa using Does.pure (P := Tasting s) (some ps)

/-- Every record of the list is read before the walk. -/
theorem tendCheck_list {j : Job} {r : Running} {kr : List (List Nat)} (hjoin : r.join = none) (hsucc : r.task.succ = q.setWidth 128)
    (hrec : ∀ i < ps.length, s.reachesLocal (ps.getD i 0) 64 .update (kr.getD i []) ∧ (taskOf ((kr.getD i []).map s.peek)).gang = false) :
    Does (Tasting s) (tendCheck j r) (some ps) (Tasting s) := by
  obtain ⟨hwalks, -, hof⟩ := Job.walks_unjoined (j := j) hjoin
  rw [tendCheck, hwalks, hof, hsucc]
  refine (Tasting.readSuccs hs hset hu hq ha hn hcount hmax h0 hl hptr).bind ?_
  refine (Does.forM fun p hp => ?_).bind (.pure _)
  obtain ⟨i, hi, rfl⟩ := List.mem_iff_getElem.1 hp
  obtain ⟨hr, hg⟩ := hrec i hi
  have hai := (hptr i hi).2
  rw [List.getD_eq_getElem _ _ hi] at hr hai
  exact (Tasting.readTask hs hset hu hai hr hg).bind (.pure _)

end

theorem successorsChecked_holds : successorsChecked := by
  intro s hs htext hslot hmat hu hset fid f j r q ps kn kl kr hfield hjob hr hjoin hrel hsucc hq ha hn hcount h0 hmax hl hlist
  rw [← hslot] at hset
  have hcheck := tendCheck_list (j := j) hs hset hu hq ha hn hcount hmax h0 hl (fun i hi => ⟨(hlist i hi).1, (hlist i hi).2.1⟩) hjoin hsucc
    fun i hi => (hlist i hi).2.2
  obtain ⟨t, hex, hrelease, hsuccs, -, hkeeps, hpeek⟩ := tend_begins hs htext hslot hmat hset hfield hjob hr hjoin hrel hcheck
  exact ⟨t, hex, hrelease, hsuccs, hkeeps.wheld, hkeeps.sameRegs, hkeeps.retired, hpeek⟩

end Sys2Proof.Machine
end

section
/-! SUPPORT. The walk of `tend` over its successors in local space: one count falls, and the record of the last one is released (R75). -/

namespace Sys2Proof.Machine

/-! ### A core that has noted the release of a record reaches what it reached -/

/-- A core without the note that the walk of `tend` has released the record it stands at. -/
def Core.unfreed (k : Core) : Core := { k with freed := false }

/-- The machine without its cores and without the bytes of memory and their marks. -/
def State.shell (s : State) : State := { s with cores := [], mem := [], poison := [] }

/-- `u` differs from `s` in bytes of memory, in their marks, and in what cores have noted of the release of a record. -/
structure SameReach (s u : State) : Prop where
  shell : u.shell = s.shell
  core : ∀ c, (u.core c).unfreed = (s.core c).unfreed

namespace SameReach
variable {s u : State} (h : SameReach s u)
include h

theorem state_part {α : Type} (f : State → α) (hf : ∀ b : State, f b.shell = f b := by intro; rfl) : f u = f s := by rw [← hf u, h.shell, hf]

theorem core_part {α : Type} (f : Core → α) (c : Nat) (hf : ∀ k : Core, f k.unfreed = f k := by intro; rfl) : f (u.core c) = f (s.core c) := by
  rw [← hf (u.core c), h.core, hf]

theorem curCore : u.curCore = s.curCore := h.state_part State.curCore
theorem curSlot : u.curSlot = s.curSlot := h.state_part State.curSlot
theorem ctx (c n : Nat) : u.ctx c n = s.ctx c n := h.core_part (Core.ctx · n) c

theorem here_part {α : Type} (f : Core → α) (hf : ∀ k : Core, f k.unfreed = f k := by intro; rfl) : f u.here = f s.here := by
  rw [State.here, h.curCore]
  exact h.core_part f s.curCore hf

theorem now : u.now = s.now := by
  rw [State.now, h.curCore, h.curSlot, h.ctx]
  rfl

theorem steady (hs : s.steady = true) : u.steady = true := by
  rw [← hs, State.steady, State.steady, h.now, h.curSlot, h.here_part (Core.pairedWest · s.curSlot)]

theorem settled (hs : s.settled s.curCore s.curSlot = true) : u.settled u.curCore u.curSlot = true := by
  rw [← hs, State.settled, State.settled, h.curCore, h.curSlot, h.ctx, h.core_part Core.cv, h.state_part State.hostLines, h.state_part State.biPending,
    h.state_part State.biOps, h.state_part State.remote]

theorem unlimited (hs : s.unlimited) : u.unlimited := by
  rw [State.unlimited, h.curSlot, h.here_part Core.dramLim, h.here_part Core.injLim, h.here_part Core.governor]
  exact hs

theorem keysOf (key n : Nat) : u.keysOf key n = s.keysOf key n := by
  have hsw (c off : Nat) : (u.core c).swizzle off = (s.core c).swizzle off := h.core_part (Core.swizzle · off) c
  simp only [State.keysOf, hsw]

theorem unwatched (c : Nat) : u.unwatched c = s.unwatched c := State.unwatched_congr (h.core_part Core.watches c)

theorem alike : Alike s { u with mem := s.mem } :=
  ⟨h.state_part State.flash, h.state_part State.fields, h.state_part State.slices, rfl, h.state_part State.podcfg, h.state_part State.members,
    h.core_part Core.split, h.core_part Core.held, h.core_part Core.bootMode, h.core_part Core.tlb⟩

/-- A context of a core's own reaches the same places in local space: no table is read for them. -/
theorem locate {c n va bytes key : Nat} {k : Access} (hn : n ≠ 0) (hl : s.locate c n va bytes k = (.at_ key, s)) (hk : 3 ≤ keySpace key) :
    u.locate c n va bytes k = (.at_ key, u) := by
  have hdirect : u.direct c n va bytes k = s.direct c n va bytes k := by
    rw [← h.alike.direct]
    simp only [State.direct, hn, false_and, if_false]
    rfl
  cases hd : s.direct c n va bytes k with
  | none =>
    rw [State.locate_tables hd] at hl
    have := State.keySpace_tables (congrArg Prod.fst hl)
    omega
  | some w =>
    rw [State.locate_direct hd] at hl
    obtain rfl : w = .at_ key := congrArg Prod.fst hl
    exact State.locate_direct (hdirect.trans hd)

theorem reachesLocal {va : Ptr} {n : Nat} {k : Access} {ks : List Nat} (hn : s.curSlot ≠ 0) (hr : s.reachesLocal va n k ks) :
    u.reachesLocal va n k ks := by
  obtain ⟨key, hl, hk, hks, hnd, hall, hw, howner⟩ := hr
  have hfence : u.keyFenced = s.keyFenced := h.state_part State.keyFenced
  have hway : u.wayTo = s.wayTo := h.state_part State.wayTo
  refine ⟨key, ?_, hk, ?_, hnd, ?_, ?_, ?_⟩
  · rw [h.curCore, h.curSlot]
    exact h.locate hn hl hk
  · rw [h.keysOf, hks]
  · rw [h.curCore, hfence, hway]
    exact hall
  · rw [h.curCore, h.unwatched]
    exact hw
  · rw [h.unwatched]
    exact howner

end SameReach

/-- What is left after an operation on local space, once the core has noted the release. -/
theorem sameReach_freed {s : State} {ks : List Nat} {op : HomeOp} {p : Bool} (hk : ∀ k ∈ ks, 3 ≤ keySpace k) :
    SameReach s ((s.homed ks op p).setCore s.curCore { s.here with freed := true }) := by
  refine ⟨(congrArg (fun b : State => { b with cores := [] }) (State.homed_local hk) :), fun c => ?_⟩
  rw [State.core_setCore]
  split
  · next hc =>
    rw [hc]
    rfl
  · rw [State.homed_core]

/-! ### A change of the issuing core -/

/-- Frames around a state are frames around it with another core, when the issuing core has changed in the same way. -/
theorem LocalReads.modCore {s : State} {y : Ctx} {g : Core → Core} (hb : ∀ k : Core, (g k).bare = (g k.bare).bare := by intro; rfl)
    (hi : ∀ (k : Core) v, g { k with injUse := v } = { g k with injUse := v } := by intros; rfl) (hx : ∀ k, (g k).ctxs = k.ctxs := by intro; rfl) :
    Does (LocalReads s False · y) (Machine.modCore g) () (LocalReads (s.setCore s.curCore (g s.here)) False · y) := by
  rintro t ⟨v, x, hl, hy, -⟩
  refine ⟨_, modCore_apply g t, v, x, ?_, hy, False.elim⟩
  have hctx (k : Core) (n : Nat) : (g k).ctx n = k.ctx n := by
    rw [Core.ctx, hx]
    rfl
  have hhere : (s.setCore s.curCore (g s.here)).here = g s.here := State.core_setCore_same ..
  rw [hl.curCore, hhere]
  refine ⟨hl.curCore, hl.curSlot, hl.bare, fun c hc => ?_, ?_, fun n hn => ?_, ?_⟩
  · have hc : c ≠ s.curCore := hc
    rw [State.core_setCore, State.core_setCore, if_neg hc, if_neg hc]
    exact hl.others c hc
  · show ((t.setCore s.curCore _).core s.curCore).bare = _
    rw [State.core_setCore_same, hb, hl.core, ← hb, hi]
  · show ((t.setCore s.curCore _).core s.curCore).ctx n = ((s.setCore s.curCore _).core s.curCore).ctx n
    rw [State.core_setCore_same, State.core_setCore_same, hctx, hctx]
    exact hl.slots n hn
  · show ((t.setCore s.curCore _).core s.curCore).ctx s.curSlot = x
    rw [State.core_setCore_same, hctx]
    exact hl.ctx

end Sys2Proof.Machine
end

section
/-! SUPPORT. `tend` lowers the count of one successor in local space, and releases the record of one whose count was 1 (R75). -/

namespace Sys2Proof.Machine

theorem HomeOp.apply_decrement (n m : Nat) : HomeOp.decrement.apply n m = m - 1 := by
  show (if m = 0 then 0 else m - 1) = m - 1
  split <;> omega

/-- A record is read from its first sixty bytes: DEPCOUNT is no part of it. -/
theorem taskOf_take {as bs : List Byte} (h : as.take 60 = bs.take 60) : taskOf as = taskOf bs := by
  have hfield (a n : Nat) (ha : a + n ≤ 60) : field as a n = field bs a n := by
    have htake (cs : List Byte) : (cs.drop a).take n = ((cs.take 60).drop a).take n := by
      rw [List.drop_take, List.take_take]
      congr 1
      omega
    rw [field, field, htake as, htake bs, h]
  have hbyte (a : Nat) (ha : a < 60) : (as[a]?.getD 0#8 : Byte) = bs[a]?.getD 0#8 := by
    have hget (cs : List Byte) : cs[a]? = (cs.take 60)[a]? := by rw [List.getElem?_take, if_pos ha]
    rw [hget as, hget bs, h]
  simp [taskOf, hfield, hbyte]

section
variable {s : State} {y : Ctx} (hs : s.steady = true) (hset : s.settled s.curCore s.curSlot = true) (hu : s.unlimited)
include hs hset hu

/-- The count of a successor in local space falls by one. -/
theorem LocalReads.tendCount {p : Ptr} {kd : List Nat} (hy : y.sb = []) (hp : y.places = []) (hr : s.reachesLocal (p + 60) 4 .update kd) :
    Does (LocalReads s False · y) (Machine.tendCount p) (decide (bitsOfBytes (kd.map s.peek) = 1))
      (LocalReads (s.homed kd .decrement false) False · (y.tasted (kd.any s.poisoned && HomeOp.decrement.reads))) := by
  have hw := hr.word (own := False) (by decide) (.inl hu) False.elim
  obtain ⟨key, hl, hkey, rfl, -⟩ := hr
  refine (LocalReads.translate hp hl hkey).bind (Does.get_bind fun t ht => ?_)
  rw [ht.keysOf]
  have hwatch : (s.homed (s.keysOf key 4) .decrement false).unwatched (s.homed (s.keysOf key 4) .decrement false).curCore = true := by
    rw [State.homed_curCore]
    exact (State.unwatched_congr (s := s) (by rw [State.homed_core])).trans hw.watch
  exact (LocalReads.atHome hs hw hset hy).bind (((LocalReads.framed _ False).watchAccess hwatch (fun h => absurd h Bool.false_ne_true) _ _ _).bind (.pure _))

end

/-! ### The walk in parts -/

/-- The end of a turn of the walk. -/
def walkEnd : M Unit := do
  modCtx fun x => { x with remote := .idle, fetched := [], places := [], committed := false }
  waitOn .retry 0

/-- What the walk does once it knows whether the record it stands at is to be released. -/
def walkGo (done : Nat) (copies : List TaskCopy) (p : Ptr) (go : Bool) : M Unit :=
  if go then do
    modCore fun k => { k with freed := true }
    let (t, roles) ← readTask p .update
    modCore fun k => { k with freed := false, release := some (done + 1, copies ++ [⟨t, roles, 0, 0, none⟩]) }
    walkEnd
  else do
    modCore fun k => { k with release := some (done + 1, copies) }
    walkEnd

/-- At a record that the walk has not released it lowers the count first. -/
theorem tendWalk_apply {s : State} (done : Nat) (copies : List TaskCopy) (p : Ptr) (hf : s.here.freed = false) : tendWalk done copies p s = (do
    modCtx fun x => { x with places := s.here.succAt }
    let go ← tendCount p
    walkGo done copies p go : M Unit) s := by
  rw [tendWalk, M.bind_apply, getCore_apply, M.andThen_ok]
  have hf' : (s.core s.curCore).freed = false := hf
  simp only [hf', Bool.false_eq_true, if_false]
  rfl

/-- What a turn of the walk leaves: DEPCOUNT of one record lowered, and how far the walk has come. -/
structure TendWalked (s : State) (kd : List Nat) (rel : Nat × List TaskCopy) (v : State) : Prop where
  curCore : v.curCore = s.curCore
  curSlot : v.curSlot = s.curSlot
  peek : ∀ k, v.peek k = (s.homed kd .decrement false).peek k
  release : (v.core s.curCore).release = some rel
  running : (v.core s.curCore).running = s.here.running
  ctx : s.now.Keeps (v.ctx s.curCore s.curSlot)

section
variable {s b : State} {kd : List Nat} {rel : Nat × List TaskCopy} {q : Bool} (hc : b.curCore = s.curCore) (hn : b.curSlot = s.curSlot)
  (hpeek : ∀ k, b.peek k = (s.homed kd .decrement false).peek k) (hrel : (b.core s.curCore).release = some rel)
  (hrun : (b.core s.curCore).running = s.here.running)
include hc hn hpeek hrel hrun

theorem walkEnd_stops : Stops (LocalReads b False · (s.now.untried.tasted q)) walkEnd fun e => ∃ v, TendWalked s kd rel v ∧ e = .wait .retry 0 v := by
  have F := LocalReads.framed b False
  have hend : Does (LocalReads b False · (s.now.untried.tasted q)) (modCtx fun x => { x with remote := .idle, fetched := [], places := [], committed := false })
      () (LocalReads b False · { (s.now.untried.tasted q) with remote := .idle, places := [], committed := false }) :=
    F.modCtx fun x hx => by rw [← hx]; rfl
  refine hend.stops fun t ht => ⟨_, rfl, t, ⟨?_, ?_, fun k => ?_, ?_, ?_, ?_⟩, rfl⟩
  · exact (F.curCore ht).trans hc
  · exact (F.curSlot ht).trans hn
  · exact (ht.state_part (State.peek · k)).trans (hpeek k)
  · exact (ht.core_part Core.release s.curCore).trans hrel
  · exact (ht.core_part Core.running s.curCore).trans hrun
  · have hx := F.ctx ht
    rw [hc, hn] at hx
    exact Ctx.Keeps.trans (y := { (s.now.untried.tasted q) with remote := .idle, places := [], committed := false }) ⟨rfl, rfl, rfl, rfl, rfl, rfl⟩
      ⟨(congrArg Ctx.g hx :), (congrArg Ctx.p hx :), (congrArg Ctx.marks hx :), (congrArg Ctx.live hx :), (congrArg Ctx.wheld hx :),
        (congrArg Ctx.retired hx :)⟩

end

section
variable {s : State} (hs : s.steady = true) (hslot : s.curSlot ≠ 0) (hset : s.settled s.curCore s.curSlot = true) (hu : s.unlimited) {p : Ptr}
  {kd kr : List Nat} {q : Bool} (hd : s.reachesLocal (p + 60) 4 .update kd)

/-- A count above one: the walk goes on. -/
theorem walkGo_passes (done : Nat) (copies : List TaskCopy) : Stops (LocalReads (s.homed kd .decrement false) False · (s.now.untried.tasted q))
    (walkGo done copies p false) fun e => ∃ v, TendWalked s kd (done + 1, copies) v ∧ e = .wait .retry 0 v := by
  have hmod := LocalReads.modCore (s := s.homed kd .decrement false) (y := s.now.untried.tasted q)
    (g := fun k : Core => { k with release := some (done + 1, copies) })
  refine hmod.stops (walkEnd_stops ?_ ?_ (fun _ => rfl) ?_ ?_)
  · exact s.homed_curCore ..
  · exact s.homed_curSlot ..
  · rw [State.homed_curCore, State.core_setCore_same]
  · rw [State.homed_curCore, State.core_setCore_same, State.homed_here]

include hs hslot hset hu hd in
/-- The last count: the record is released. -/
theorem walkGo_releases (done : Nat) (copies : List TaskCopy) (ha : p.toNat % 64 = 0) (hr : s.reachesLocal p 64 .update kr)
    (hg : (taskOf (kr.map s.peek)).gang = false) (hkd : kr.drop 60 = kd) :
    Stops (LocalReads (s.homed kd .decrement false) False · (s.now.untried.tasted q)) (walkGo done copies p true) fun e =>
      ∃ v, TendWalked s kd (done + 1, copies ++ [⟨taskOf (kr.map s.peek), [], 0, 0, none⟩]) v ∧ e = .wait .retry 0 v := by
  have hspace : ∀ k ∈ kd, 3 ≤ keySpace k := by
    obtain ⟨key, -, -, -, -, hall, -⟩ := hd
    simp only [List.all_eq_true, Bool.and_eq_true, decide_eq_true_eq] at hall
    exact fun k hk => (hall k hk).1.1
  have hnd : kr.Nodup := by
    obtain ⟨key, -, -, -, h, -⟩ := hr
    exact h
  obtain ⟨u, hu'⟩ : ∃ u, u = (s.homed kd .decrement false).setCore s.curCore { s.here with freed := true } := ⟨_, rfl⟩
  have hsame : SameReach s u := hu' ▸ sameReach_freed hspace
  have hpeek (k : Nat) : u.peek k = (s.homed kd .decrement false).peek k := by rw [hu']; rfl
  have hfirst : (kr.map u.peek).take 60 = (kr.map s.peek).take 60 := by
    rw [← List.map_take, ← List.map_take]
    refine List.map_congr_left fun k hk => ?_
    have hother : k ∉ kd := fun hkd' => by
      rw [← List.take_append_drop 60 kr, List.nodup_append] at hnd
      exact hnd.2.2 k hk k (hkd ▸ hkd') rfl
    rw [hpeek, State.peek_homed_other hother]
  have htask : taskOf (kr.map u.peek) = taskOf (kr.map s.peek) := taskOf_take hfirst
  have hmod := LocalReads.modCore (s := s.homed kd .decrement false) (y := s.now.untried.tasted q) (g := fun k : Core => { k with freed := true })
  rw [State.homed_here, State.homed_curCore, ← hu'] at hmod
  have hreach := hsame.reachesLocal hslot hr
  have hread := LocalReads.readTask (y := s.now.untried.tasted q) (hsame.steady hs) (hsame.settled hset) (State.settled_sb hset)
    (State.steady_fresh hs).2 ha hreach (hreach.word (own := False) (by decide) (.inl (hsame.unlimited hu)) False.elim) (htask ▸ hg)
  rw [htask, Ctx.tasted_tasted] at hread
  refine hmod.stops (hread.stops ?_)
  have hlast := LocalReads.modCore (s := u) (y := s.now.untried.tasted (q || kr.any u.poisoned))
    (g := fun k : Core => { k with freed := false, release := some (done + 1, copies ++ [⟨taskOf (kr.map s.peek), [], 0, 0, none⟩]) })
  refine hlast.stops (walkEnd_stops ?_ ?_ hpeek ?_ ?_)
  · exact hsame.curCore
  · exact hsame.curSlot
  · rw [hsame.curCore, State.core_setCore_same]
  · rw [hsame.curCore, State.core_setCore_same]
    exact hsame.here_part Core.running

end

theorem successorReleased_holds : successorReleased := by
  intro s hs htext hslot hmat hu hset fid f j r done copies p kd kr hfield hjob hr hrel hfreed hsucc hat ha hd hrec old t' hg hkd
  rw [← hslot] at hset
  have hslot0 : s.curSlot ≠ 0 := by omega
  have hnow : s.now.places = [] := (State.steady_fresh hs).2
  have hwalk : Stops (· = s) (tendWalk done copies p) fun e =>
      ∃ v, TendWalked s kd (done + 1, if old = 1 then copies ++ [⟨t', [], 0, 0, none⟩] else copies) v ∧ e = .wait .retry 0 v := by
    have hparts : Stops (LocalReads s False · s.now.untried) (do
        modCtx fun x => { x with places := s.here.succAt }
        let go ← tendCount p
        walkGo done copies p go : M Unit) fun e =>
        ∃ v, TendWalked s kd (done + 1, if old = 1 then copies ++ [⟨t', [], 0, 0, none⟩] else copies) v ∧ e = .wait .retry 0 v := by
      have hplaces : Does (LocalReads s False · s.now.untried) (modCtx fun x => { x with places := s.here.succAt }) () (LocalReads s False · s.now.untried) := by
        rw [hat, ← hnow]
        exact (LocalReads.framed s False).modCtx fun x hx => by
          have hx' : x.places = s.now.places := (congrArg Ctx.places hx :)
          rw [← hx', hx]
      refine hplaces.stops ((LocalReads.tendCount (y := s.now.untried) hs hset hu (State.settled_sb hset) hnow hd).stops ?_)
      by_cases hone : old = 1
      · rw [if_pos hone, decide_eq_true hone]
        exact walkGo_releases hs hslot0 hset hu hd done copies ha hrec hg hkd
      · rw [if_neg hone, decide_eq_false hone]
        exact walkGo_passes done copies
    intro t ht
    rw [ht, tendWalk_apply done copies p hfreed]
    exact hparts s (LocalReads.start s)
  have hstop : Stops (· = s) (tendFrom s.curCore s.here s s.now) fun e =>
      ∃ v, TendWalked s kd (done + 1, if old = 1 then copies ++ [⟨t', [], 0, 0, none⟩] else copies) v ∧ e = .wait .retry 0 v := by
    rw [tendFrom, hfield]
    dsimp only
    rw [hjob, hr, hrel]
    dsimp only
    rw [hsucc]
    exact hwalk.bind
  obtain ⟨v, t, hv, hex, hW, hhere, hctx⟩ := tend_waits hslot hmat hs htext hstop fun v hv => ⟨hv.curCore, hv.curSlot⟩
  have hkeeps : s.now.Keeps t.now := by
    rw [hctx]
    exact hv.ctx.trans hW.ctx
  have hpeek (k : Nat) : t.peek k = (s.homed kd .decrement false).peek k := (hW.state_part (State.peek · k)).trans (hv.peek k)
  obtain ⟨key, -, -, hks, hnd, -⟩ := hd
  have hop : HomeOp.decrement ≠ .read := nofun
  have hlen : kd.length = 4 := by rw [hks, State.keysOf, List.length_map, List.length_range]
  refine ⟨t, hex, ?_, fun k hk => (hpeek k).trans (State.peek_homed_other hk), ?_, ?_, hkeeps.wheld, hkeeps.sameRegs, hkeeps.retired⟩
  · rw [List.map_congr_left fun k _ => hpeek k, State.peek_homed hnd hop, hlen, HomeOp.apply_decrement]
  · rw [hhere, hW.core_part Core.release, hv.release]
  · rw [hhere, hW.core_part Core.running, hv.running]

/-- Settles O25: `tend` begins with the list that it has checked, lowers one count in each turn of its walk, and ends when its peers let it. -/
theorem taskEnds : Obligations.TaskEnds := ⟨taskEnded_holds, successorsChecked_holds, successorReleased_holds⟩

end Sys2Proof.Machine
end

section
/-! SUPPORT. A control context takes a copy (R76, R78, R81): leases that lapse and leases that are made leave its core as it was (R129 to R132). -/

namespace Sys2Proof.Machine

/-! ### What only changes leases -/

/-- A core without its contexts and its leases. -/
def Core.unleased (k : Core) : Core := { k.bare with kept := 0, lapsing := 0, held := 0 }

/-- `t` reads as `s` does. -/
structure SameRead (s t : State) : Prop where
  bare : t.bare = s.bare
  core : ∀ d, (t.core d).bare = (s.core d).bare
  ctx : ∀ d n, t.ctx d n = s.ctx d n

/-- From `s` to `t` nothing has changed for core `c` but leases, nothing has entered the network, and every store still waits. -/
structure Aside (c : Nat) (s t : State) : Prop where
  net : t.net = s.net
  core : (t.core c).unleased = (s.core c).unleased
  ctx : ∀ n, t.ctx c n = s.ctx c n
  sb : ∀ d n, (t.ctx d n).sb = (s.ctx d n).sb

theorem SameRead.refl (s : State) : SameRead s s := ⟨rfl, fun _ => rfl, fun _ _ => rfl⟩

theorem SameRead.trans {s t u : State} (h : SameRead s t) (h' : SameRead t u) : SameRead s u :=
  ⟨h'.bare.trans h.bare, fun d => (h'.core d).trans (h.core d), fun d n => (h'.ctx d n).trans (h.ctx d n)⟩

section
variable {s t : State} (h : SameRead s t)
include h

theorem SameRead.state_part {α : Type} (f : State → α) (hf : ∀ b : State, f b.bare = f b := by intro; rfl) : f t = f s := State.eq_of_bare f h.bare hf

theorem SameRead.core_part {α : Type} (f : Core → α) (d : Nat) (hf : ∀ k : Core, f k.bare = f k := by intro; rfl) : f (t.core d) = f (s.core d) :=
  Core.eq_of_bare f (h.core d) hf

theorem SameRead.peerBusy (p c : Nat) : t.peerBusy p c = s.peerBusy p c := by
  have hhold : (t.core p).hold = (s.core p).hold := h.core_part Core.hold p
  have hbulk : (t.core p).bulkq = (s.core p).bulkq := h.core_part Core.bulkq p
  have hcopy : (t.core p).copyq = (s.core p).copyq := h.core_part Core.copyq p
  simp only [State.peerBusy, h.ctx, hhold, hbulk, hcopy]

theorem SameRead.aside (c : Nat) : Aside c s t :=
  ⟨h.state_part State.net, (congrArg (fun k : Core => { k with kept := 0, lapsing := 0, held := 0 }) (h.core c) :), h.ctx c,
    fun d n => congrArg Ctx.sb (h.ctx d n)⟩

end

namespace Aside
variable {c : Nat} {s t u : State}

theorem refl (s : State) : Aside c s s := ⟨rfl, rfl, fun _ => rfl, fun _ _ => rfl⟩

theorem trans (h : Aside c s t) (h' : Aside c t u) : Aside c s u :=
  ⟨h'.net.trans h.net, h'.core.trans h.core, fun n => (h'.ctx n).trans (h.ctx n), fun d n => (h'.sb d n).trans (h.sb d n)⟩

theorem core_part {α : Type} (h : Aside c s t) (f : Core → α) (hf : ∀ k : Core, f k.unleased = f k := by intro; rfl) : f (t.core c) = f (s.core c) := by
  rw [← hf (t.core c), h.core, hf]

/-- A core gets new registers: another core, or no more than new leases. -/
theorem setCore {d : Nat} {k : Core} (hx : k.ctxs = (s.core d).ctxs) (hk : d = c → k.unleased = (s.core c).unleased) : Aside c s (s.setCore d k) := by
  have hctx (n : Nat) : k.ctx n = s.ctx d n := by
    rw [Core.ctx, hx]
    rfl
  have hall (e n : Nat) : (s.setCore d k).ctx e n = s.ctx e n := by
    rw [State.ctx, State.core_setCore]
    split
    · next he => rw [he, hctx]
    · rfl
  refine ⟨rfl, ?_, hall c, fun e n => congrArg Ctx.sb (hall e n)⟩
  rw [State.core_setCore]
  split
  · next hd => exact hk hd.symm
  · rfl

/-- A context of another core changes, and keeps its stores. -/
theorem setCtx {p n : Nat} {x : Ctx} (hp : p ≠ c) (hx : x.sb = (s.ctx p n).sb) : Aside c s (s.setCtx p n x) := by
  refine ⟨rfl, ?_, fun m => ?_, fun d m => ?_⟩
  · rw [State.core_setCtx, if_neg (Ne.symm hp)]
  · rw [State.ctx_setCtx, if_neg fun h => hp h.1.symm]
  · rw [State.ctx_setCtx]
    split
    · next h => rw [hx, h.1, h.2]
    · rfl

theorem foldl {β : Type} {move : State → β → State} (bs : List β) (hm : ∀ t, Aside c s t → ∀ b ∈ bs, Aside c s (move t b)) :
    Aside c s (bs.foldl move s) := by
  suffices ∀ bs' : List β, (∀ b ∈ bs', b ∈ bs) → ∀ t, Aside c s t → Aside c s (bs'.foldl move t) from this bs (fun _ => id) s (.refl s)
  intro bs'
  induction bs' with
  | nil => exact fun _ _ h => h
  | cons b bs' ih =>
    exact fun hin t h => ih (fun x hx => hin x (List.mem_cons_of_mem b hx)) _ (hm t h b (hin b List.mem_cons_self))

end Aside

theorem noStoresTo_of_sb {s t : State} {p c : Nat} (h : noStoresTo s p c) (hsb : ∀ n, (t.ctx p n).sb = (s.ctx p n).sb) : noStoresTo t p c := by
  intro n hn e he
  rw [hsb] at he
  exact h n hn e he

/-! ### Leases that lapse -/

/-- Without a byte to drain every store stays where it is. -/
theorem State.drainKeys_nothing (s : State) (p n : Nat) : SameRead s (s.drainKeys p n []) := by
  have hhits (sb : List SbEntry) : (splitSb (fun e => e.meets []) sb).1 = [] ∧ (splitSb (fun e => e.meets []) sb).2 = [] := by
    induction sb with
    | nil => exact ⟨rfl, rfl⟩
    | cons e sb ih =>
      have hmeets : e.meets [] = false := by simp [SbEntry.meets]
      rw [splitSb]
      dsimp only
      rw [ih.2, hmeets, Bool.or_self, if_neg Bool.false_ne_true]
      exact ⟨ih.1, rfl⟩
  rw [State.drainKeys]
  split
  · exact .refl s
  · rw [(hhits _).1]
    refine ⟨rfl, fun d => ?_, fun d m => ?_⟩
    · show ((s.setCtx p n (s.ctx p n)).core d).bare = _
      rw [State.core_setCtx]
      split
      · next h =>
        rw [h]
        rfl
      · rfl
    · show (s.setCtx p n (s.ctx p n)).ctx d m = _
      rw [State.ctx_setCtx]
      split
      · next h => rw [h.1, h.2]
      · rfl

/-- A peer that has no store under way to a core has nothing to drain. -/
theorem State.drainPeer_nothing {s : State} {p c : Nat} (h : noStoresTo s p c) : SameRead s (s.drainPeer p c) := by
  suffices ∀ ns : List Nat, (∀ n ∈ ns, n < 12) → ∀ t, SameRead s t → SameRead s (ns.foldl (fun s n =>
      s.drainKeys p n (((s.ctx p n).sb.flatMap fun e => e.cells.map (·.1)).filter fun k => keySpace k = 3 && keyCore k = c)) t) from
    this _ (fun n hn => List.mem_range.1 hn) s (.refl s)
  intro ns
  induction ns with
  | nil => exact fun _ _ ht => ht
  | cons n ns ih =>
    refine fun hns t ht => ih (fun m hm => hns m (List.mem_cons_of_mem n hm)) _ (ht.trans ?_)
    have hnone : (((t.ctx p n).sb.flatMap fun e => e.cells.map (·.1)).filter fun k => keySpace k = 3 && keyCore k = c) = [] := by
      rw [ht.ctx, List.filter_eq_nil_iff]
      intro k hk
      obtain ⟨e, he, hke⟩ := List.mem_flatMap.1 hk
      obtain ⟨x, hx, rfl⟩ := List.mem_map.1 hke
      simpa using h n (hns n List.mem_cons_self) e he x hx
    dsimp only
    rw [hnone]
    exact t.drainKeys_nothing p n

theorem Aside.takeTrap {c p : Nat} (hp : p ≠ c) (s : State) (n : Nat) (r : TrapRec) : Aside c s (s.takeTrap p n r) := by
  unfold State.takeTrap
  dsimp only
  split
  · split
    · unfold State.askCellReset
      split
      · exact ⟨rfl, rfl, fun _ => rfl, fun _ _ => rfl⟩
      · exact ⟨rfl, rfl, fun _ => rfl, fun _ _ => rfl⟩
    · next h0 _ =>
      subst h0
      refine Aside.trans (t := State.setCtx s p 0 _) (.setCtx hp (by rfl)) (.setCore (by rfl) fun h => absurd h hp)
  · exact .setCtx hp (by rfl)

theorem Aside.unlease {c p : Nat} (hp : p ≠ c) (s : State) (o : Nat) : Aside c s (s.unlease p o) := .setCore rfl fun h => absurd h hp

theorem Aside.endWaits {c p : Nat} (hp : p ≠ c) (s : State) (o : Nat) : Aside c s (s.endWaits p o) := by
  refine .foldl _ fun t ht n _ => ht.trans ?_
  dsimp only
  split
  · split
    · exact .takeTrap hp ..
    · exact .refl t
  · exact .refl t

theorem Aside.lapseOn {c : Nat} {s : State} (h : noPeerStores s c) : Aside c s (s.lapseOn c) := by
  have hfirst : Aside c s (s.setCore c { s.core c with kept := 0 }) := .setCore rfl fun _ => rfl
  refine hfirst.trans (.foldl _ fun t ht q hq => ht.trans ?_)
  dsimp only
  split
  · exact .refl t
  · next hpeer =>
    have hp : coreOf (clusterOf c) q ≠ c := fun h => hpeer (.inl h)
    have hnone : noStoresTo t (coreOf (clusterOf c) q) c := noStoresTo_of_sb (h q (List.mem_range.1 hq)) ((hfirst.trans ht).sb _)
    have hgives : Aside c t (((t.drainPeer (coreOf (clusterOf c) q) c).unlease (coreOf (clusterOf c) q) c).endWaits (coreOf (clusterOf c) q) c) :=
      (((State.drainPeer_nothing hnone).aside c).trans (.unlease hp ..)).trans (.endWaits hp ..)
    revert hgives
    generalize State.endWaits _ _ _ = u
    intro hgives
    split
    · exact hgives.trans (.setCore (by rfl) fun _ => rfl)
    · exact hgives

/-! ### Leases that are made -/

theorem Aside.leaseBoth {c : Nat} (s : State) (a b : Nat) : Aside c s (s.leaseBoth a b) :=
  .trans (t := State.setCore s a { s.core a with held := (s.core a).held ||| (1#4 <<< posOf b) }) (.setCore rfl fun h => by rw [h]; rfl)
    (.setCore (by rfl) fun h => by rw [h]; rfl)

theorem Aside.lease {c : Nat} (s : State) (d : Nat) : Aside c s (s.lease d) := by
  unfold State.lease
  split
  · exact .refl s
  · refine .foldl _ fun t ht q _ => ht.trans ?_
    dsimp only
    split
    · exact .refl t
    · split
      · exact .refl t
      · split
        · exact .leaseBoth ..
        · exact .refl t

/-! ### A copy that one control context takes -/

/-- The control context with which a copy starts. -/
def Ctx.took (x : Ctx) (j : Job) (p : TaskCopy) : Ctx :=
  let entry := if p.task.entry = 0 then j.ctlEntry else p.task.entry
  { ((x.fresh .task (j.codebase + entry.setWidth 72)).writeP 1 (p.task.param.setWidth 72)).writeG 1 0 with wheld := p.weight, whome := p.dom }

/-- The core on which a copy has started. -/
def Core.took (k : Core) (j : Job) (p : TaskCopy) : Core :=
  { k.setCtx 1 ((k.ctx 1).took j p) with
    running := some ⟨p.task, if p.task.splitOff then some (bits p.task.succ 31 0) else none, p.grid, [], 0, false⟩
    iterLo := if p.task.range then p.task.iterLo else 0, iterHi := if p.task.range then p.task.iterHi else 0
    tileIdx := 0, tileOrg := 0, tileExt := 0, tileNom := 0, retain := false, v := [], pipemap := 0, pipes := [],
    stealing := false, stealNext := none, rot := none }

section
variable {s : State} {fid c : Nat} {f : FieldSt} {j : Job} {p : TaskCopy}

theorem State.takeCopy_single (hj : (Assoc.find s.fields fid).bind FieldSt.job = some j) (hp : single p j) :
    s.takeCopy fid c p = ((s.lapseOn c).setCore c (((s.lapseOn c).core c).took j p)).lease c := by
  obtain ⟨hgang, hpairs⟩ := hp
  rw [State.takeCopy, hj]
  dsimp only
  rw [hgang, hpairs, if_neg Bool.false_ne_true, if_neg Bool.false_ne_true]
  rfl

theorem Ctx.took_facts (x : Ctx) (j : Job) (p : TaskCopy) :
    (∀ i : PReg, (x.took j p).readP i.toNat = if i = 1 then p.task.param.setWidth 72 else 0) ∧ ∀ i : GReg, (x.took j p).readG i.toNat = 0 := by
  have hp (i : Nat) : (x.took j p).readP i = if i = 1 then p.task.param.setWidth 72 else 0 := by
    show (((x.fresh .task _).writeP 1 _).writeG 1 0).readP i = _
    rw [Ctx.readP_writeG, Ctx.readP_writeP]
    rfl
  have hg (i : Nat) : (x.took j p).readG i = 0 := by
    show (((x.fresh .task (j.codebase + (if p.task.entry = 0 then j.ctlEntry else p.task.entry).setWidth 72)).writeP 1
      (p.task.param.setWidth 72)).writeG 1 0).readG i = 0
    rw [Ctx.readG_writeG, Ctx.readG_writeP]
    split
    · rfl
    · exact ite_self 0
  refine ⟨fun i => (hp _).trans ?_, fun i => hg _⟩
  have hone : i.toNat = 1 ↔ i = 1 := ⟨fun h => BitVec.eq_of_toNat_eq h, fun h => h ▸ rfl⟩
  simp only [hone]

/-- A copy starts on its core, and nothing else of the core's tasks, and nothing of the network, changes. -/
theorem State.takeCopy_took (hstores : noPeerStores s c) (hj : (Assoc.find s.fields fid).bind FieldSt.job = some j) (hp : single p j) :
    (s.takeCopy fid c p).net = s.net ∧ tookCopy s (s.takeCopy fid c p) c j p ∧ ((s.takeCopy fid c p).core c).pending = (s.core c).pending ∧
      ((s.takeCopy fid c p).core c).stealBusy = (s.core c).stealBusy := by
  have hlapse := Aside.lapseOn hstores
  rw [State.takeCopy_single hj hp]
  generalize s.lapseOn c = u at hlapse
  have hlease := Aside.lease (c := c) (u.setCore c ((u.core c).took j p)) c
  generalize State.lease _ c = t at hlease
  have hcore {α : Type} (g : Core → α) (hg : ∀ k : Core, g k.unleased = g k) : g (t.core c) = g ((u.core c).took j p) := by
    rw [hlease.core_part g hg, State.core_setCore_same]
  have hctx : t.ctx c 1 = (s.ctx c 1).took j p := by
    rw [hlease.ctx, State.ctx_setCore_same]
    exact ((Core.ctx_setCtx _ 1 1 _).trans (if_pos rfl)).trans (congrArg (Ctx.took · j p) (hlapse.ctx 1))
  obtain ⟨hregP, hregG⟩ := Ctx.took_facts (s.ctx c 1) j p
  refine ⟨hlease.net.trans hlapse.net, ?_, (hcore Core.pending fun _ => rfl).trans (hlapse.core_part Core.pending),
    (hcore Core.stealBusy fun _ => rfl).trans (hlapse.core_part Core.stealBusy)⟩
  rw [tookCopy, hctx]
  refine ⟨rfl, rfl, rfl, rfl, rfl, rfl, rfl, rfl, hregP, hregG, ?_, ?_, ?_, ?_⟩
  · refine (hcore Core.running fun _ => rfl).trans ?_
    simp [Core.took, bits]
  · exact hcore Core.iterLo fun _ => rfl
  · exact hcore Core.iterHi fun _ => rfl
  · exact hcore Core.v fun _ => rfl

end

end Sys2Proof.Machine
end

section
/-! SUPPORT. Copies that arrive, wait and are taken (R80, R82, R86, R96). -/

namespace Sys2Proof.Machine

/-! ### The governor of a core that a copy leaves -/

section
variable (s : State) (c : Nat)

theorem State.ungovern_local : onlyCore s (s.ungovern c) c ∧
    (s.ungovern c).core c = { s.core c with governor := ((s.ungovern c).core c).governor } := by
  rw [State.ungovern]
  split
  · exact ⟨⟨rfl, fun _ _ => rfl⟩, rfl⟩
  · refine ⟨onlyCore_setCore .., ?_⟩
    rw [State.core_setCore_same]

theorem State.ctx_ungovern (d n : Nat) : (s.ungovern c).ctx d n = s.ctx d n := by
  obtain ⟨⟨-, hothers⟩, hcore⟩ := s.ungovern_local c
  rw [State.ctx]
  by_cases hd : d = c
  · rw [hd, hcore]
    rfl
  · rw [hothers d hd]
    rfl

theorem State.ungovern_part {α : Type} (f : State → α) (hf : ∀ b : State, f b.bare = f b := by intro; rfl) : f (s.ungovern c) = f s :=
  State.eq_of_bare f (s.ungovern_local c).1.1 hf

end

theorem noPeerStores_congr {s t : State} {c : Nat} (h : noPeerStores s c) (hctx : ∀ d n, t.ctx d n = s.ctx d n) : noPeerStores t c :=
  fun q hq => noStoresTo_of_sb (h q hq) fun n => congrArg Ctx.sb (hctx _ n)

/-- What a copy finds in its context is all that its start depends on. -/
theorem tookCopy_congr {s s' t : State} {c : Nat} {j : Job} {p : TaskCopy} (h : tookCopy s' t c j p) (hctx : s'.ctx c 1 = s.ctx c 1) :
    tookCopy s t c j p := by
  rwa [tookCopy, hctx] at h

/-! ### The answer to a steal request -/

/-- A thief whose request is answered asks no one. -/
def State.answered (s : State) (c : Nat) : State := s.setCore c { s.core c with stealing := false, stealBusy := false }

theorem State.ctx_answered (s : State) (c d n : Nat) : (s.answered c).ctx d n = s.ctx d n := by
  rw [State.ctx, State.answered, State.core_setCore]
  split
  · next h =>
    rw [h]
    rfl
  · rfl

theorem State.open_answered (s : State) (c : Nat) : (s.answered c).open_ c = s.open_ c := by
  have htasks : ((s.answered c).core c).tasks = (s.core c).tasks := by
    rw [State.answered, State.core_setCore_same]
    rfl
  have hpending : ((s.answered c).core c).pending = (s.core c).pending := congrArg TaskView.pending htasks
  rw [State.open_, State.open_, State.idle_of_tasks (s := s) (t := s.answered c) rfl rfl htasks, hpending]

/-! ### Flits of a core without limit -/

/-- Flits that nothing holds back are counted, and nothing else (R71). -/
theorem State.meter_flits {s : State} {c who : Nat} (hw : who ≠ 0) (hlim : (s.core c).injLim = 0xFFFF_FFFF) (hgov : (s.core c).governor = [])
    (flits : Nat) : s.meter c who 0 flits none = (true, s.setCore c { s.core c with injUse := spend (s.core c).injUse flits }) := by
  have hb (kind : Nat) : (s.core c).heldBefore kind who = false := by simp [Core.heldBefore, hgov]
  rw [State.meter.eq_def, if_neg hw]
  dsimp only
  rw [if_neg (by simp [hb, hlim]), hgov, List.filter_nil, ← hgov]
  refine congrArg (fun use => (true, s.setCore c { s.core c with dramUse := use, injUse := spend (s.core c).injUse flits })) ?_
  exact spend_zero (s.core c).dramUse

/-! ### A copy enters a queue -/

section
variable {s : State} {fid h : Nat} {p : TaskCopy}

theorem State.enqueueCopy_room (hf : s.fenced h = false) (hroom : (s.core h).pending.length < 16) :
    s.enqueueCopy fid h p = s.setCore h { s.core h with pending := insertPending p (s.core h).pending, stealing := false } := by
  rw [State.enqueueCopy, if_neg (by simp [hf, hroom])]

theorem State.enqueueCopy_net : (s.enqueueCopy fid h p).net = s.net := by
  rw [State.enqueueCopy]
  split
  · rw [State.modJob_fields]
  · rfl

end

/-! ### Copies in transit (R80, R82, R96) -/

section
variable {s : State} {c fid : Nat} {f : FieldSt} {j : Job} (hfield : s.fieldOf c = some (fid, f)) (hjob : f.job = some j)
include hfield hjob

section
variable {p : TaskCopy} {path : List Nat} (ha : arrives s c (.transit p path))
include ha

section
variable (hpre : j.pre = .running)
include hpre

theorem transitVisit_takes (hf : Assoc.find s.fields fid = some f) (hstores : noPeerStores s c) (ht : s.takes f j c p = true) (hp : single p j) :
    happens .transitVisit s fun t => t.net = others s ∧ tookCopy s t c j p := by
  have hgood : p.malformed j = false := by simp [TaskCopy.malformed, hp.1]
  let u : State := { s with net := others s }
  have hctx : ∀ d n, (u.ungovern c).ctx d n = s.ctx d n := u.ctx_ungovern c
  have hfind : (Assoc.find (u.ungovern c).fields fid).bind FieldSt.job = some j := by
    rw [u.ungovern_part c State.fields]
    exact (congrArg (Option.bind · FieldSt.job) hf).trans hjob
  obtain ⟨hnet, htook, -, -⟩ := State.takeCopy_took (noPeerStores_congr hstores hctx) hfind hp
  refine ⟨_, ?_, hnet.trans (u.ungovern_part c State.net), tookCopy_congr htook (hctx c 1)⟩
  show execTransitVisit s = _
  simp only [execTransitVisit, State.arrival_of_arrives ha, hfield, hjob, hgood, hpre, ht, Bool.false_eq_true, if_false, if_true]
  rfl

theorem transitVisit_passes (hgood : p.malformed j = false) (ht : s.takes f j c p = false) (hlim : (s.core c).injLim = 0xFFFF_FFFF)
    (hgov : (s.core c).governor = []) {n : Nat} {rest : List Nat} (hn : path.drop 1 = n :: rest) :
    happens .transitVisit s fun t => onlyCore { s with net := others s ++ [s.flight c n (.transit p (n :: rest))] } t c ∧
      t.core c = { s.core c with injUse := (t.core c).injUse } := by
  let u : State := { s with net := others s }
  let v : State := u.setCore c { s.core c with injUse := spend (s.core c).injUse p.flits }
  have hmeter : u.meter c transitWho 0 p.flits none = (true, v) := State.meter_flits (s := u) (by decide) hlim hgov p.flits
  have hfree : ((s.core c).governor.contains (0, transitWho) && (s.net.take s.input.index).any fun g => g.waitsAt c) = false := by
    rw [hgov]
    rfl
  refine ⟨v.push c n (.transit p (n :: rest)), ?_, ⟨rfl, fun d hd => (State.core_setCore ..).trans (if_neg hd)⟩, ?_⟩
  · show execTransitVisit s = _
    simp only [execTransitVisit, State.arrival_of_arrives ha, hfield, hjob, hgood, hpre, ht, hn, hfree, Bool.false_eq_true, if_false]
    rw [hmeter]
  · show v.core c = { s.core c with injUse := (v.core c).injUse }
    rw [State.core_setCore_same]

theorem transitVisit_waits (hgood : p.malformed j = false) (ht : s.takes f j c p = false) {h : Nat} (hn : path.drop 1 = []) (hh : f.hintCore s p.task = some h) :
    happens .transitVisit s fun t => t.net = others s ∧ (s.fenced h = false → (s.core h).pending.length < 16 →
      t.core h = { s.core h with pending := insertPending p (s.core h).pending, stealing := false, governor := (t.core h).governor }) := by
  let u : State := { s with net := others s }
  obtain ⟨⟨-, hothers⟩, hcore⟩ := u.ungovern_local c
  refine ⟨(u.ungovern c).enqueueCopy fid h p, ?_, State.enqueueCopy_net.trans (u.ungovern_part c State.net), fun hfence hroom => ?_⟩
  · show execTransitVisit s = _
    simp only [execTransitVisit, State.arrival_of_arrives ha, hfield, hjob, hgood, hpre, ht, hn, hh, Bool.false_eq_true, if_false]
    rfl
  · have hh : (u.ungovern c).core h = { s.core h with governor := ((u.ungovern c).core h).governor } := by
      by_cases hd : h = c
      · rw [hd, hcore]
        rfl
      · rw [hothers h hd]
        rfl
    rw [State.enqueueCopy_room ((u.ungovern_part c (State.fenced · h)).trans hfence) (by rw [hh]; exact hroom), State.core_setCore_same, hh]

end

theorem transitVisit_parks (hf : Assoc.find s.fields fid = some f) {b : Bool} (hpre : j.pre = .pausing b) (hgood : p.malformed j = false)
    (hw : p.weight = 0) : happens .transitVisit s fun t => onlyCore { s with net := others s, fields := t.fields } t c ∧
      t.core c = { s.core c with governor := (t.core c).governor } ∧ (t.jobOf c).map Job.parked = some (j.parked ++ [{ p with weight := 0 }]) := by
  let u : State := { s with net := others s }
  obtain ⟨⟨hbare, hothers⟩, hcore⟩ := u.ungovern_local c
  have hhosts : Hosts (u.ungovern c) c fid f j := (Hosts.of_field hfield hf hjob).congr (u.ungovern_part c State.fields)
  have hparked := (hhosts.modJob fun j => { j with parked := j.parked ++ [p.home] }).jobOf
  have hcores := State.core_modJob (u.ungovern c) fid fun j => { j with parked := j.parked ++ [p.home] }
  have hfields := State.modJob_fields (u.ungovern c) fid fun j => { j with parked := j.parked ++ [p.home] }
  refine ⟨(u.ungovern c).park fid c p, ?_, ?_⟩
  · show execTransitVisit s = _
    simp only [execTransitVisit, State.arrival_of_arrives ha, hfield, hjob, hgood, hpre, Bool.false_eq_true, if_false]
    rfl
  · rw [State.park_weightless hw]
    refine ⟨⟨?_, fun d hd => ?_⟩, ?_, ?_⟩
    · rw [hfields]
      generalize (State.modJob _ fid _).fields = fs
      exact congrArg (fun b : State => { b with fields := fs }) hbare
    · rw [hcores]
      exact hothers d hd
    · rw [hcores]
      exact hcore
    · rw [hparked]
      rfl

end

/-! ### Pending queues and the overflow list (R82) -/

section
variable (hf : Assoc.find s.fields fid = some f) (hc : s.input.core = c) (hpre : j.pre = .running)
include hf hc hpre

theorem pendingTake_happens (hstores : noPeerStores s c) {p : TaskCopy} {rest : List TaskCopy} (hq : (s.core c).pending = p :: rest)
    (hidle : s.idle c = true) (hp : single p j) (hel : (s.setCore c { s.core c with pending := rest }).eligible j c p = true) :
    happens .pendingTake s fun t => t.net = s.net ∧ (t.core c).pending = rest ∧ tookCopy s t c j p := by
  let u : State := s.setCore c { s.core c with pending := rest }
  have hctx (d n : Nat) : u.ctx d n = s.ctx d n := by
    show (u.core d).ctx n = _
    rw [State.core_setCore]
    split
    · next h =>
      rw [h]
      rfl
    · rfl
  have hfind : (Assoc.find u.fields fid).bind FieldSt.job = some j := (congrArg (Option.bind · FieldSt.job) hf).trans hjob
  obtain ⟨hnet, htook, hpending, -⟩ := State.takeCopy_took (noPeerStores_congr hstores hctx) hfind hp
  have hkeep : (rest.filter fun o => !(p.task.gang && o.task.gang)) = rest := by
    rw [hp.1]
    exact List.filter_eq_self.2 fun _ _ => rfl
  refine ⟨u.takeCopy fid c p, ?_, hnet, hpending.trans (by rw [State.core_setCore_same]), tookCopy_congr htook (hctx c 1)⟩
  show execPendingTake s = _
  have hhead : (List.range (p :: rest).length).zip (p :: rest) = (0, p) :: (List.range (p :: rest).length).tail.zip rest := by
    rw [List.length_cons, List.range_succ_eq_map]
    rfl
  simp only [execPendingTake, hc, hfield, hjob, hq, hhead, List.find?_cons, List.eraseIdx_zero, List.tail_cons, hkeep, hidle, hel, hpre,
    Bool.and_self, if_true]
  rfl

theorem overflowRefill_happens (hfence : s.fenced c = false) (hroom : (s.core c).pending.length < 16) {e : Nat × TaskCopy}
    (he : (j.overflow.find? fun e => e.1 = c) = some e) :
    happens .overflowRefill s fun t => t.net = s.net ∧
      t.core c = { s.core c with pending := insertPending e.2 (s.core c).pending, stealing := false } ∧
      (t.jobOf c).map Job.overflow = some (j.overflow.erase e) := by
  have hhosts := (Hosts.of_field hfield hf hjob).modJob fun j => { j with overflow := j.overflow.erase e }
  have hcores := State.core_modJob s fid fun j => { j with overflow := j.overflow.erase e }
  have hfields := State.modJob_fields s fid fun j => { j with overflow := j.overflow.erase e }
  have hexec : exec .overflowRefill s = .next ((s.modJob fid fun j => { j with overflow := j.overflow.erase e }).enqueueCopy fid c e.2) := by
    show execOverflowRefill s = _
    have hgo : ¬(s.fenced c = true ∨ 16 ≤ (s.core c).pending.length ∨ j.pre ≠ .running) := by simp [hfence, hroom, hpre]
    simp only [execOverflowRefill, hc, hfield, hjob, if_neg hgo, he]
  generalize State.modJob _ _ _ = u at *
  have hfence' : u.fenced c = false := by
    rw [State.fenced, hhosts.field]
    rw [State.fenced, hfield] at hfence
    exact hfence
  refine ⟨_, hexec, State.enqueueCopy_net.trans (by rw [hfields]), ?_⟩
  rw [State.enqueueCopy_room hfence' (by rw [hcores]; exact hroom), hcores]
  refine ⟨State.core_setCore_same .., ?_⟩
  have hj := (hhosts.congr (t := u.setCore c { s.core c with pending := insertPending e.2 (s.core c).pending, stealing := false }) rfl).jobOf
  rw [hj]
  rfl

end

/-! ### Copies that are shipped (R86) -/

section
variable {p : TaskCopy} (ha : arrives s c (.stealShip p)) (hpre : j.pre = .running)
include ha hpre

theorem stealArrival_takes (hf : Assoc.find s.fields fid = some f) (hstores : noPeerStores s c) (ho : s.open_ c = true) (hel : s.eligible j c p = true)
    (hp : single p j) : happens .stealArrival s fun t => t.net = others s ∧ (t.core c).stealBusy = false ∧ tookCopy s t c j p := by
  let u : State := { s with net := others s }
  let v : State := u.answered c
  have hfind : (Assoc.find v.fields fid).bind FieldSt.job = some j := (congrArg (Option.bind · FieldSt.job) hf).trans hjob
  obtain ⟨hnet, htook, -, hbusy⟩ := State.takeCopy_took (noPeerStores_congr (t := v) hstores (u.ctx_answered c)) hfind hp
  have ho' : v.open_ c = true := (u.open_answered c).trans ho
  have hel' : v.eligible j c p = true := by
    simp only [State.eligible, hp.1, hp.2, Bool.false_eq_true, if_false] at hel ⊢
    exact hel
  refine ⟨v.takeCopy fid c p, ?_, hnet, hbusy.trans (congrArg Core.stealBusy (State.core_setCore_same ..)), tookCopy_congr htook (u.ctx_answered c c 1)⟩
  show execStealArrival s = _
  have hfield' : v.fieldOf c = some (fid, f) := hfield
  have hgo : (v.open_ c && v.eligible j c p) = true := by rw [ho', hel']; rfl
  simp only [execStealArrival, State.arrival_of_arrives ha]
  show (match v.fieldOf c with | none => _ | some (fid, f) => _) = _
  simp only [hfield', hjob, hpre]
  exact if_pos hgo

theorem stealArrival_waits (ho : s.open_ c = false) (hfence : s.fenced c = false) (hroom : (s.core c).pending.length < 16) :
    happens .stealArrival s fun t => onlyCore { s with net := others s } t c ∧
      t.core c = { s.core c with stealing := false, stealBusy := false, pending := insertPending p (s.core c).pending } := by
  let u : State := { s with net := others s }
  let v : State := u.answered c
  have hcore : v.core c = { s.core c with stealing := false, stealBusy := false } := State.core_setCore_same ..
  have hq : v.enqueueCopy fid c p = v.setCore c { v.core c with pending := insertPending p (v.core c).pending, stealing := false } :=
    State.enqueueCopy_room hfence (by rw [hcore]; exact hroom)
  have ho' : ¬(v.open_ c && v.eligible j c p) = true := by
    rw [(u.open_answered c).trans ho]
    simp
  refine ⟨v.enqueueCopy fid c p, ?_, ?_⟩
  · show execStealArrival s = _
    have hfield' : v.fieldOf c = some (fid, f) := hfield
    simp only [execStealArrival, State.arrival_of_arrives ha]
    show (match v.fieldOf c with | none => _ | some (fid, f) => _) = _
    simp only [hfield', hjob, hpre]
    exact if_neg ho'
  · rw [hq]
    refine ⟨onlyCore_trans (onlyCore_setCore ..) (onlyCore_setCore ..), ?_⟩
    rw [State.core_setCore_same, hcore]

end

end

theorem copyEvents_holds : copyEvents := by
  intro s c fid f j hfield hf hjob hstores
  refine ⟨fun p path ha => ⟨?_, ?_, ?_, ?_⟩, ?_, ?_, fun p ha hpre => ⟨?_, ?_⟩⟩
  · exact fun hpre ht hp => transitVisit_takes hfield hjob ha hpre hf hstores ht hp
  · exact fun hpre hgood ht hlim hgov n rest hn => transitVisit_passes hfield hjob ha hpre hgood ht hlim hgov hn
  · exact fun h hpre hgood ht hn hh => transitVisit_waits hfield hjob ha hpre hgood ht hn hh
  · exact fun b hpre hgood hw => transitVisit_parks hfield hjob ha hf hpre hgood hw
  · exact fun p rest hc hq hidle hpre hp hel => pendingTake_happens hfield hjob hf hc hpre hstores hq hidle hp hel
  · exact fun e hc hfence hroom hpre he => overflowRefill_happens hfield hjob hf hc hpre hfence hroom he
  · exact fun ho hel hp => stealArrival_takes hfield hjob ha hpre hf hstores ho hel hp
  · exact fun ho hfence hroom => stealArrival_waits hfield hjob ha hpre ho hfence hroom

end Sys2Proof.Machine
end

section
/-! SUPPORT. Steals, join indices, and the peer that gives up its lease (R84, R85, R87, R88, R131). -/

namespace Sys2Proof.Machine

/-! ### The round of a thief (R84) -/

section
variable {s : State} {c : Nat} {f : FieldSt}

/-- The core of a thief whose round has ended. -/
def Core.rests (k : Core) (next : Nat) : Core := { k with stealing := false, stealBusy := false, stealAt := 0, stealNext := some next }

theorem State.askNext_end {i : Nat} (hv : s.victim f c i = none) : s.askNext f c i = s.setCore c ((s.core c).rests (s.cycle + 1024)) := by
  rw [State.askNext, hv]
  rfl

/-- The core of a thief that has asked a victim. -/
def Core.asks (k : Core) : Core := { k with injUse := spend k.injUse 2, stealing := true, stealBusy := true, stealAt := 0 }

theorem State.askNext_asks {i k v : Nat} (hv : s.victim f c i = some (k, v)) (hlim : (s.core c).injLim = 0xFFFF_FFFF) (hgov : (s.core c).governor = []) :
    (s.askNext f c i).net = s.net ++ [s.flight c v (.stealAsk c k)] ∧ (s.askNext f c i).core c = (s.core c).asks := by
  rw [State.askNext, hv]
  dsimp only
  rw [State.meter_flits (by decide) hlim hgov]
  refine ⟨rfl, ?_⟩
  show (State.setCore _ c _).core c = _
  rw [State.core_setCore_same, State.core_setCore_same]
  rfl

end

theorem stealStart_next {s : State} {c : Nat} {f : FieldSt} (hc : s.input.core = c) (hm : s.maySteal c = some f) (hb : (s.core c).stealBusy = false)
    (hs : (s.core c).stealing = false) (hidle : (s.core c).idleSince + 64 ≤ s.cycle) (hn : ∀ n, (s.core c).stealNext = some n → n ≤ s.cycle) :
    exec .stealStart s = .next (s.askNext f c 0) := by
  show execStealStart s = _
  have hall : (s.core c).stealNext.all (· ≤ s.cycle) = true := by
    cases h : (s.core c).stealNext with
    | none => rfl
    | some n => simpa using hn n h
  simp only [execStealStart, hc, hm, hb, hs, hall, decide_eq_true hidle, Bool.false_eq_true, if_false, Bool.and_self, if_true]

theorem noWorkAnswer_next {s : State} {c k : Nat} {f : FieldSt} (ha : arrives s c (.noWork k)) (hs : (s.core c).stealing = true)
    (hm : s.maySteal c = some f) : exec .noWorkAnswer s = .next (({ s with net := others s } : State).askNext f c (k + 1)) := by
  show execNoWorkAnswer s = _
  have hm' : ({ s with net := others s } : State).maySteal c = some f := hm
  have hs' : (({ s with net := others s } : State).core c).stealing = true := hs
  simp only [execNoWorkAnswer, State.arrival_of_arrives ha, hm', hs', if_true]

theorem noWorkAnswer_over {s : State} {c k : Nat} (ha : arrives s c (.noWork k)) (h : (s.core c).stealing = false ∨ s.maySteal c = none) :
    exec .noWorkAnswer s = .next (({ s with net := others s } : State).answered c) := by
  show execNoWorkAnswer s = _
  have hnone : (if (({ s with net := others s } : State).core c).stealing then ({ s with net := others s } : State).maySteal c else none) = none := by
    obtain h | h := h
    · exact if_neg fun h' => Bool.false_ne_true (h.symm.trans h')
    · exact (if_congr Iff.rfl h rfl).trans (ite_self none)
  simp only [execNoWorkAnswer, State.arrival_of_arrives ha, hnone]
  rfl

/-! ### The victim (R85, R87) -/

section
variable {s : State} {v thief k fid : Nat} {f : FieldSt} {j : Job} (ha : arrives s v (.stealAsk thief k)) (hfield : s.fieldOf v = some (fid, f))
  (hjob : f.job = some j)
include ha hfield hjob

/-- A victim that is fenced, or whose job does not run, has no work. -/
theorem stealRequest_refused (h : ¬(s.fenced v = false ∧ j.pre = .running)) :
    exec .stealRequest s = .next { s with net := others s ++ [s.flight v thief (.noWork k)] } := by
  show execStealRequest s = _
  have hfield' : ({ s with net := others s } : State).fieldOf v = some (fid, f) := hfield
  have hbad : s.fenced v = true ∨ j.pre ≠ .running := by
    by_contra hgood
    exact h (by simpa using hgood)
  have hbad' : ({ s with net := others s } : State).fenced v = true ∨ j.pre ≠ .running := hbad
  simp only [execStealRequest, State.arrival_of_arrives ha, hfield', hjob, if_pos hbad']
  rfl

section
variable (h : s.fenced v = false ∧ j.pre = .running)
include h

/-- A victim that may answer ships a pending copy, splits its range, or has no work. -/
theorem stealRequest_answers : exec .stealRequest s = match (s.core v).pending.find? fun p => s.eligible j thief p with
    | some p => .next ((({ s with net := others s } : State).setCore v { s.core v with pending := (s.core v).pending.erase p }).push v thief (.stealShip p))
    | none =>
      match ({ s with net := others s } : State).split fid v with
      | some (p, u) => .next (u.push v thief (.stealShip p))
      | none => .next (({ s with net := others s } : State).push v thief (.noWork k)) := by
  show execStealRequest s = _
  have hfield' : ({ s with net := others s } : State).fieldOf v = some (fid, f) := hfield
  have hgood : ¬(({ s with net := others s } : State).fenced v = true ∨ j.pre ≠ .running) := by
    rintro (hbad | hbad)
    · exact absurd (h.1.symm.trans hbad) Bool.false_ne_true
    · exact hbad h.2
  simp only [execStealRequest, State.arrival_of_arrives ha, hfield', hjob, if_neg hgood]
  rfl


theorem stealRequest_ships {p : TaskCopy} (hp : ((s.core v).pending.find? fun p => s.eligible j thief p) = some p) :
    exec .stealRequest s = .next ((({ s with net := others s } : State).setCore v { s.core v with pending := (s.core v).pending.erase p }).push v thief
      (.stealShip p)) := by
  rw [stealRequest_answers ha hfield hjob h, hp]

/-- A victim that runs no task has nothing to split. -/
theorem stealRequest_idle (hp : ((s.core v).pending.find? fun p => s.eligible j thief p) = none) (hr : (s.core v).running = none) :
    exec .stealRequest s = .next { s with net := others s ++ [s.flight v thief (.noWork k)] } := by
  have hsplit : ({ s with net := others s } : State).split fid v = none := by
    rw [State.split]
    show (match (s.core v).running with | none => none | some r => _) = none
    rw [hr]
  rw [stealRequest_answers ha hfield hjob h, hp]
  dsimp only
  rw [hsplit]
  rfl

end

end

/-! ### A range is split (R87) -/

/-- The core of a victim that has shipped the upper half of its range. -/
def Core.halved (k : Core) (h mid : Nat) : Core := { (k.setCtx 1 { k.ctx 1 with wheld := h - h / 2 }) with iterHi := BitVec.ofNat 32 mid }

section
variable {s : State} {v fid : Nat} {r : Running} {i : Nat} (hr : (s.core v).running = some r) (hi : r.join = some i)
  (hlive : (s.ctx v 1).live = true) (hrel : (s.core v).release = none) (hrange : r.task.range = true) (hgang : r.task.gang = false)
  (hpaired : r.paired = false) (htwo : (s.core v).iterLo.toNat + 2 ≤ (s.core v).iterHi.toNat) (hw : 2 ≤ (s.ctx v 1).wheld)
include hr hi hlive hrel hrange hgang hpaired htwo hw

/-- A victim with at least two iterations left, and weight for both halves, ships the upper one. -/
theorem State.split_halves : s.split fid v =
    (let lo := (s.core v).iterLo.toNat
     let hi := (s.core v).iterHi.toNat
     let mid := lo + (hi - lo + 1) / 2
     some (⟨pieceOf r (BitVec.ofNat 32 mid) (BitVec.ofNat 32 hi) i, [], (s.ctx v 1).wheld / 2, (s.ctx v 1).whome, r.grid⟩,
       (s.openPiece fid i).setCore v ((s.core v).halved (s.ctx v 1).wheld mid))) := by
  have hsplits : ((s.ctx v 1).live && (s.core v).release.isNone && r.task.range && !r.task.gang && !r.paired &&
      decide ((s.core v).iterLo.toNat + 2 ≤ (s.core v).iterHi.toNat) && decide (2 ≤ (s.ctx v 1).wheld)) = true := by
    simp [hlive, hrel, hrange, hgang, hpaired, htwo, hw]
  have hjoin : s.joinFor fid v r = some (i, s) := by rw [State.joinFor, hi]
  have hcore : (s.openPiece fid i).core v = s.core v := congrFun (s.core_modJob fid _) v
  rw [State.split]
  dsimp only
  rw [hr]
  dsimp only
  refine (if_pos hsplits).trans ?_
  rw [hjoin, Option.map_some, hcore]
  rfl

end

theorem Hosts.flight {s t : State} {c fid : Nat} {f : FieldSt} {j j' : Job} (h : Hosts s c fid f j) (h' : Hosts t c fid f j') (d : Nat) (p : Packet) :
    t.flight c d p = s.flight c d p := by
  have hclass : t.classOf c d = s.classOf c d := by
    rw [State.classOf, State.classOf, h.field, h'.field]
    rfl
  rw [State.flight, State.flight, hclass]

theorem stealRequest_halves {s : State} {v thief k fid : Nat} {f : FieldSt} {j : Job} {r : Running} {i : Nat} {e : JoinEntry}
    (ha : arrives s v (.stealAsk thief k)) (hfield : s.fieldOf v = some (fid, f)) (hf : Assoc.find s.fields fid = some f) (hjob : f.job = some j)
    (h : s.fenced v = false ∧ j.pre = .running) (hp : ((s.core v).pending.find? fun p => s.eligible j thief p) = none)
    (hr : (s.core v).running = some r) (hi : r.join = some i) (he : Assoc.find j.joins i = some e) (hlive : (s.ctx v 1).live = true)
    (hrel : (s.core v).release = none) (hrange : r.task.range = true) (hgang : r.task.gang = false) (hpaired : r.paired = false)
    (htwo : (s.core v).iterLo.toNat + 2 ≤ (s.core v).iterHi.toNat) (hw : 2 ≤ (s.ctx v 1).wheld) :
    let lo := (s.core v).iterLo.toNat
    let hi := (s.core v).iterHi.toNat
    let mid := lo + (hi - lo + 1) / 2
    let h := (s.ctx v 1).wheld
    happens .stealRequest s fun t =>
      t.net = others s ++ [s.flight v thief
        (.stealShip ⟨pieceOf r (BitVec.ofNat 32 mid) (BitVec.ofNat 32 hi) i, [], h / 2, (s.ctx v 1).whome, r.grid⟩)] ∧
        (t.core v).iterLo = (s.core v).iterLo ∧ (t.core v).iterHi.toNat = mid ∧ (t.ctx v 1).wheld = h - h / 2 ∧
        (t.jobOf v).map (fun j => Assoc.find j.joins i) = some (some { e with openPieces := e.openPieces + 1 }) := by
  intro lo hi' mid h'
  let u : State := { s with net := others s }
  have hhosts : Hosts u v fid f j := (Hosts.of_field hfield hf hjob).congr rfl
  have hopened : Hosts (u.openPiece fid i) v fid f { j with joins := Assoc.put j.joins i { e with openPieces := e.openPieces + 1 } } := by
    have h := hhosts.modJob fun j =>
      match Assoc.find j.joins i with
      | some e => { j with joins := Assoc.put j.joins i { e with openPieces := e.openPieces + 1 } }
      | none => j
    rw [he] at h
    exact h
  have hnet : (u.openPiece fid i).net = others s := congrArg State.net (u.modJob_fields fid _)
  have hsplit := State.split_halves (s := u) (fid := fid) hr hi hlive hrel hrange hgang hpaired htwo hw
  let copy : TaskCopy := ⟨pieceOf r (BitVec.ofNat 32 mid) (BitVec.ofNat 32 hi') i, [], h' / 2, (s.ctx v 1).whome, r.grid⟩
  have hanswers : exec .stealRequest s = .next (((u.openPiece fid i).setCore v ((s.core v).halved h' mid)).push v thief (.stealShip copy)) := by
    rw [stealRequest_answers ha hfield hjob h, hp]
    dsimp only
    rw [hsplit]
    rfl
  have hmid : (BitVec.ofNat 32 mid).toNat = mid := by
    have hlt : mid < 2 ^ 32 := by
      have := (s.core v).iterHi.isLt
      omega
    rw [BitVec.toNat_ofNat, Nat.mod_eq_of_lt hlt]
  have hleft := hopened.congr (t := (u.openPiece fid i).setCore v ((s.core v).halved h' mid)) rfl
  have hcore : ((u.openPiece fid i).setCore v ((s.core v).halved h' mid)).core v = (s.core v).halved h' mid := State.core_setCore_same ..
  have hflight := hhosts.flight hleft thief (.stealShip copy)
  have hnet' : ((u.openPiece fid i).setCore v ((s.core v).halved h' mid)).net = others s := hnet
  generalize (u.openPiece fid i).setCore v ((s.core v).halved h' mid) = w at hanswers hleft hcore hflight hnet'
  refine ⟨_, hanswers, ?_, ?_, ?_, ?_, ?_⟩
  · rw [State.push, hnet', hflight]
    rfl
  · exact (congrArg Core.iterLo hcore :)
  · exact (congrArg (fun k : Core => k.iterHi.toNat) hcore).trans hmid
  · refine (congrArg (fun k : Core => (k.ctx 1).wheld) hcore).trans ?_
    exact congrArg Ctx.wheld ((Core.ctx_setCtx _ 1 1 _).trans (if_pos rfl))
  · refine (congrArg (Option.map fun j => Assoc.find j.joins i) hleft.jobOf).trans ?_
    exact congrArg some ((Assoc.find_put ..).trans (if_pos rfl))

end Sys2Proof.Machine
end

section
/-! SUPPORT. A peer gives up its lease: what waits on the owner's words ends (R131, R133), and the stack of join indices is filled (R88). -/

namespace Sys2Proof.Machine

/-! ### What waits for a word of the owner -/

/-- The wait of context `n` of core `p` ends when it is for a word of core `c`. -/
def State.endWait (p c : Nat) (s : State) (n : Nat) : State :=
  let x := s.ctx p n
  match x.waiting with
  | some w =>
    if w.on = .fullBit && !x.committed && x.awaits.any (fun k => keySpace k = 3 && keyCore k = c) then
      let len := match (s.fetchAt p n x.pc).1 with
        | .code w _ => some (lenBytes (BitVec.ofNat 2 w))
        | .bad _ | .migrating | .held _ => none
      s.takeTrap p n (precise x .peerExited w.addr len)
    else s
  | none => s

theorem State.endWaits_eq (s : State) (p c : Nat) : s.endWaits p c = (List.range 12).foldl (State.endWait p c) s := rfl

/-- A trap changes its own context, and enters nothing in the network. -/
theorem State.takeTrap_local (s : State) (p n : Nat) (r : TrapRec) : (s.takeTrap p n r).net = s.net ∧ ∀ m, m ≠ n → (s.takeTrap p n r).ctx p m = s.ctx p m := by
  unfold State.takeTrap
  dsimp only
  split
  · split
    · unfold State.askCellReset
      split
      · exact ⟨rfl, fun _ _ => rfl⟩
      · exact ⟨rfl, fun _ _ => rfl⟩
    · next h0 _ =>
      subst h0
      refine ⟨rfl, fun m hm => ?_⟩
      rw [State.ctx_setCore_same]
      refine (State.ctx_setCtx s p p 0 m _).trans (if_neg fun h => hm h.2)
  · exact ⟨rfl, fun m hm => (State.ctx_setCtx ..).trans (if_neg fun h => hm h.2)⟩

theorem State.endWait_local (p c : Nat) (s : State) (n : Nat) :
    (s.endWait p c n).net = s.net ∧ ∀ m, m ≠ n → (s.endWait p c n).ctx p m = s.ctx p m := by
  unfold State.endWait
  dsimp only
  split
  · split
    · exact s.takeTrap_local ..
    · exact ⟨rfl, fun _ _ => rfl⟩
  · exact ⟨rfl, fun _ _ => rfl⟩

/-- Waits that end one after the other. -/
theorem State.endWait_foldl (p c : Nat) (ns : List Nat) : ∀ s : State,
    (ns.foldl (State.endWait p c) s).net = s.net ∧ ∀ m, m ∉ ns → (ns.foldl (State.endWait p c) s).ctx p m = s.ctx p m := by
  induction ns with
  | nil => exact fun s => ⟨rfl, fun _ _ => rfl⟩
  | cons n ns ih =>
    intro s
    obtain ⟨hnet, hctx⟩ := ih (s.endWait p c n)
    obtain ⟨hnet', hctx'⟩ := s.endWait_local p c n
    refine ⟨hnet.trans hnet', fun m hm => ?_⟩
    rw [List.mem_cons, not_or] at hm
    exact (hctx m hm.2).trans (hctx' m hm.1)

/-- With no context that waits for a full bit nothing ends. -/
theorem State.endWaits_quiet {s : State} {p c : Nat} (h : ∀ n < 12, ∀ w, (s.ctx p n).waiting = some w → w.on ≠ .fullBit) : s.endWaits p c = s := by
  refine foldl_fixed fun n hn => ?_
  dsimp only
  split
  · next w hw => exact if_neg (by simp [h n (List.mem_range.1 hn) w hw])
  · rfl

section
variable {s : State} {p c n : Nat} {w : Waiting} (hw : (s.ctx p n).waiting = some w) (hon : w.on = .fullBit) (hcommit : (s.ctx p n).committed = false)
  (hawaits : ∃ k ∈ (s.ctx p n).awaits, keySpace k = 3 ∧ keyCore k = c) (h0 : n ≠ 0)
include hw hon hcommit hawaits h0

theorem State.endWait_trapped : ((s.endWait p c n).ctx p n).waiting = none ∧
    ((s.endWait p c n).ctx p n).trap.map (fun r => (r.cause, r.val, r.pc)) = some (.peerExited, w.addr, (s.ctx p n).pc) := by
  have hany : ((s.ctx p n).awaits.any fun k => keySpace k = 3 && keyCore k = c) = true := by
    obtain ⟨k, hk, h3, hc⟩ := hawaits
    exact List.any_eq_true.2 ⟨k, hk, by simp [h3, hc]⟩
  have hends : (w.on = .fullBit && !(s.ctx p n).committed && (s.ctx p n).awaits.any fun k => keySpace k = 3 && keyCore k = c) = true := by
    rw [hany, hcommit, decide_eq_true hon]
    rfl
  rw [State.endWait]
  dsimp only
  rw [hw]
  dsimp only
  rw [if_pos hends]
  rw [State.takeTrap, if_neg h0, State.ctx_setCtx, if_pos ⟨rfl, rfl⟩]
  exact ⟨rfl, rfl⟩

/-- The wait of a context for a word of the owner ends with PEER_EXITED. -/
theorem State.endWaits_trapped (h12 : n < 12) : ((s.endWaits p c).ctx p n).waiting = none ∧
    ((s.endWaits p c).ctx p n).trap.map (fun r => (r.cause, r.val, r.pc)) = some (.peerExited, w.addr, (s.ctx p n).pc) := by
  obtain ⟨before, after, hsplit⟩ := List.append_of_mem (List.mem_range.2 h12)
  have hnd : (before ++ n :: after).Nodup := hsplit ▸ List.nodup_range
  have hbefore : n ∉ before := fun h => (List.nodup_append.1 hnd).2.2 n h n List.mem_cons_self rfl
  have hafter : n ∉ after := (List.nodup_cons.1 (List.nodup_append.1 hnd).2.1).1
  have hx := (State.endWait_foldl p c before s).2 n hbefore
  rw [State.endWaits_eq, hsplit, List.foldl_append, List.foldl_cons, (State.endWait_foldl p c after _).2 n hafter, ← hx]
  refine State.endWait_trapped (by rw [hx]; exact hw) hon (by rw [hx]; exact hcommit) (by rw [hx]; exact hawaits) h0

end

/-! ### The lease ends (R131) -/

section
variable {s : State} {c owner : Nat} (ha : arrives s c (.lapse owner)) (hstores : noStoresTo s c owner)
include ha hstores

theorem lapseNotice_busy (hb : s.peerBusy c owner = true) : exec .leaseLapseNotice s = .next s := by
  show execLeaseLapseNotice s = _
  have hread := State.drainPeer_nothing (s := { s with net := others s }) hstores
  have hb' : (({ s with net := others s } : State).drainPeer c owner).peerBusy c owner = true := (hread.peerBusy c owner).trans hb
  simp only [execLeaseLapseNotice, State.arrival_of_arrives ha, hb', if_true]

/-- The peer gives up its lease, ends what waits on the owner, and acknowledges. -/
theorem lapseNotice_ends (hb : s.peerBusy c owner = false) : ∃ v, SameRead { s with net := others s } v ∧
    exec .leaseLapseNotice s = .next (((v.unlease c owner).endWaits c owner).push c owner (.lapseAck c)) := by
  have hread := State.drainPeer_nothing (s := { s with net := others s }) hstores
  have hb' : (({ s with net := others s } : State).drainPeer c owner).peerBusy c owner = false := (hread.peerBusy c owner).trans hb
  refine ⟨_, hread, ?_⟩
  show execLeaseLapseNotice s = _
  simp only [execLeaseLapseNotice, State.arrival_of_arrives ha, hb', Bool.false_eq_true, if_false]

end

theorem State.ctx_unlease (s : State) (p o d n : Nat) : (s.unlease p o).ctx d n = s.ctx d n := by
  rw [State.ctx, State.unlease, State.core_setCore]
  split
  · next h =>
    rw [h]
    rfl
  · rfl

theorem State.flight_congr {s t : State} (h : t.fields = s.fields) (c d : Nat) (p : Packet) : t.flight c d p = s.flight c d p := by
  simp only [State.flight, State.classOf, State.fieldOf, h]

section
variable {s : State} {c owner : Nat} (ha : arrives s c (.lapse owner)) (hstores : noStoresTo s c owner) (hb : s.peerBusy c owner = false)
include ha hstores hb

theorem lapseNotice_lapses (hquiet : ∀ n < 12, ∀ w, (s.ctx c n).waiting = some w → w.on ≠ .fullBit) :
    happens .leaseLapseNotice s fun t => t.net = others s ++ [s.flight c owner (.lapseAck c)] ∧ (∀ n, t.ctx c n = s.ctx c n) ∧
      (t.core c).bare = { (s.core c).bare with held := (s.core c).held &&& ~~~(1#4 <<< posOf owner) } := by
  obtain ⟨v, hread, hexec⟩ := lapseNotice_ends ha hstores hb
  have hctx (n : Nat) : (v.unlease c owner).ctx c n = s.ctx c n := (v.ctx_unlease ..).trans (hread.ctx c n)
  rw [State.endWaits_quiet fun n hn w hw => hquiet n hn w (by rwa [hctx] at hw)] at hexec
  refine ⟨_, hexec, ?_, hctx, ?_⟩
  · have hnet : (v.unlease c owner).net = others s := hread.state_part State.net
    have hfields : (v.unlease c owner).fields = s.fields := hread.state_part State.fields
    rw [State.push, hnet, State.flight_congr hfields]
  · have hheld : (v.core c).held = (s.core c).held := hread.core_part Core.held c
    show ((v.unlease c owner).core c).bare = _
    rw [State.unlease, State.core_setCore_same, hheld]
    exact congrArg (fun k : Core => { k with held := (s.core c).held &&& ~~~(1#4 <<< posOf owner) }) (hread.core c)

theorem lapseNotice_traps {n : Nat} {w : Waiting} (h1 : 1 ≤ n) (h12 : n < 12) (hw : (s.ctx c n).waiting = some w) (hon : w.on = .fullBit)
    (hawaits : ∃ k ∈ (s.ctx c n).awaits, keySpace k = 3 ∧ keyCore k = owner) :
    happens .leaseLapseNotice s fun t => t.net = others s ++ [s.flight c owner (.lapseAck c)] ∧ (t.ctx c n).waiting = none ∧
      (t.ctx c n).trap.map (fun r => (r.cause, r.val, r.pc)) = some (.peerExited, w.addr, (s.ctx c n).pc) := by
  obtain ⟨v, hread, hexec⟩ := lapseNotice_ends ha hstores hb
  have hctx : (v.unlease c owner).ctx c n = s.ctx c n := (v.ctx_unlease ..).trans (hread.ctx c n)
  have hcommit : (s.ctx c n).committed = false := by
    simp only [State.peerBusy, Bool.or_eq_false_iff, List.any_eq_false] at hb
    have := hb.1.1 n (List.mem_range.2 h12)
    simp only [Bool.or_eq_true, not_or, Bool.not_eq_true] at this
    exact this.1
  have htrap := State.endWaits_trapped (s := v.unlease c owner) (p := c) (c := owner) (by rw [hctx]; exact hw) hon (by rw [hctx]; exact hcommit)
    (by rw [hctx]; exact hawaits) (by omega) h12
  rw [hctx] at htrap
  have hnet : ((v.unlease c owner).endWaits c owner).net = others s := by
    rw [State.endWaits_eq, (State.endWait_foldl c owner (List.range 12) (v.unlease c owner)).1]
    exact hread.state_part State.net
  have hfields : ((v.unlease c owner).endWaits c owner).fields = s.fields :=
    (SameTasks.endWaits (v.unlease c owner) c owner).fields.trans (hread.state_part State.fields)
  generalize (v.unlease c owner).endWaits c owner = u at hexec htrap hnet hfields
  refine ⟨_, hexec, ?_, htrap⟩
  rw [State.push, hnet, State.flight_congr hfields]

end

/-! ### Join indices (R88) -/

theorem joinStackRefill_fills {s : State} {c fid : Nat} {f : FieldSt} {j : Job} (hc : s.input.core = c) (hfield : s.fieldOf c = some (fid, f))
    (hjob : f.job = some j) (hlen : (s.core c).joinStack.length ≤ 16) :
    happens .joinStackRefill s fun t => (t.core c).joinStack.length = 16 ∧
      (t.core c).joinStack.take (s.core c).joinStack.length = (s.core c).joinStack ∧
      t.core c = { s.core c with joinStack := (t.core c).joinStack } := by
  let got := j.joinFree.take (16 - (s.core c).joinStack.length)
  let new := (List.range (16 - (s.core c).joinStack.length - got.length)).map (j.joinNext + ·)
  let u := s.modJob fid fun j => { j with joinFree := j.joinFree.drop got.length, joinNext := j.joinNext + new.length }
  have hcore : (u.setCore c { s.core c with joinStack := (s.core c).joinStack ++ got ++ new }).core c =
      { s.core c with joinStack := (s.core c).joinStack ++ got ++ new } := State.core_setCore_same ..
  have hexec : exec .joinStackRefill s = .next (u.setCore c { s.core c with joinStack := (s.core c).joinStack ++ got ++ new }) := by
    show execJoinStackRefill s = _
    simp only [execJoinStackRefill, hc, hfield, hjob]
    rfl
  refine ⟨_, hexec, ?_, ?_, ?_⟩
  · have hgot : got.length ≤ 16 - (s.core c).joinStack.length := List.length_take_le ..
    rw [hcore, List.length_append, List.length_append, List.length_map, List.length_range]
    omega
  · rw [hcore, List.append_assoc, List.take_left]
  · rw [hcore]

theorem stealEvents_holds : stealEvents := by
  intro s free asks ends
  refine ⟨fun c f hc hm hb hs hidle hn => ⟨fun k v hv hfree => ?_, fun hv => ?_⟩,
    fun c k ha => ⟨fun hover => ?_, fun f hs hm => ⟨fun i v hv hfree => ?_, fun hv => ?_⟩⟩,
    fun v thief k fid f j ha hfield hf hjob => ?_, fun c fid f j hc hfield _ hjob hlen => joinStackRefill_fills hc hfield hjob hlen,
    fun c owner ha hstores => ⟨lapseNotice_busy ha hstores, lapseNotice_lapses ha hstores,
      fun n w hb h1 h12 hw hon hawaits => lapseNotice_traps ha hstores hb h1 h12 hw hon hawaits⟩, fun c peer ha => ?_⟩
  · obtain ⟨hnet, hcore⟩ := State.askNext_asks hv hfree.1 hfree.2
    exact ⟨_, stealStart_next hc hm hb hs hidle hn, hnet, by rw [hcore]; rfl⟩
  · have hexec := stealStart_next hc hm hb hs hidle hn
    rw [State.askNext_end hv] at hexec
    exact ⟨_, hexec, rfl, State.core_setCore_same ..⟩
  · exact ⟨_, noWorkAnswer_over ha hover, rfl, State.core_setCore_same ..⟩
  · obtain ⟨hnet, hcore⟩ := State.askNext_asks (s := { s with net := others s }) hv hfree.1 hfree.2
    exact ⟨_, noWorkAnswer_next ha hs hm, hnet, by rw [hcore]; rfl⟩
  · have hexec := noWorkAnswer_next ha hs hm
    rw [State.askNext_end (s := { s with net := others s }) hv] at hexec
    exact ⟨_, hexec, rfl, State.core_setCore_same ..⟩
  · intro asked fine
    refine ⟨fun hbad => ⟨_, stealRequest_refused ha hfield hjob hbad, rfl⟩, fun p hfine hp => ⟨_, stealRequest_ships ha hfield hjob hfine hp, rfl, ?_⟩,
      fun hfine hp hr => ⟨_, stealRequest_idle ha hfield hjob hfine hp hr, rfl⟩, ?_⟩
    · exact State.core_setCore_same ..
    · intro r i e hfine hp hr hi he hlive hrel hrange hgang hpaired htwo hw
      exact stealRequest_halves ha hfield hf hjob hfine hp hr hi he hlive hrel hrange hgang hpaired htwo hw
  · refine ⟨({ s with net := others s } : State).setCore c { s.core c with lapseLeft := (s.core c).lapseLeft.erase peer }, ?_, rfl,
      State.core_setCore_same ..⟩
    show execLeaseLapseNotice s = _
    simp only [execLeaseLapseNotice, State.arrival_of_arrives ha]
    rfl

/-- Settles O46: a copy is taken, passed on, queued or parked as its core may, and steals, join indices and leases follow their rounds. -/
theorem taskEvents : Obligations.TaskEvents := ⟨copyEvents_holds, stealEvents_holds⟩

end Sys2Proof.Machine
end
